-- ==== Sys2Proof/Word.lean ====
section
/-! DEFINITION. The plain value types every other file uses: words, bytes, native values, channels, reader ports and
the sparse map in canonical form. Only their types and plainest arithmetic stand here. -/

namespace Sys2Proof

/-- A register word: every register access is 32 bits wide (R32). -/
abbrev Word := BitVec 32

/-- One byte of a frame, record, image or memory. -/
abbrev Byte := BitVec 8

/-- A sparse array: pairs (index, value), indices strictly rising, and no entry equal to the array's default value
(`Machine.nget` and `Machine.nset` read and write it, `Machine.nwf` says the form holds). -/
abbrev NMap (α : Type) := List (Nat × α)

/-- The hub's native value (R27): a 20-bit two's-complement word with a valid bit. -/
structure NV where
  val : BitVec 20 := 0
  ok : Bool := false
deriving DecidableEq, Repr

/-- The two channels (R12). -/
inductive Ch where
  | a | b
deriving DecidableEq, Repr

/-- The readers of the register pages (R35, R47, R267, R436): each core pair within port 0, the host SPI port,
each DTLS session within port 2, and the debug port. -/
inductive Reader where
  | pair (k : Fin 4)
  | hif
  | mgmt (session : Fin 4)
  | debug
deriving DecidableEq, Repr

/-- The port number a reader belongs to (R35). -/
def Reader.port : Reader → Nat
  | .pair _ => 0
  | .hif => 1
  | .mgmt _ => 2
  | .debug => 3

/-- A number for each reader: the key of every array held per reader. -/
def Reader.idx : Reader → Nat
  | .pair k => k.val
  | .hif => 4
  | .mgmt j => 5 + j.val
  | .debug => 9

/-- A 16-bit statistic counter with its sticky overflow (R317). -/
structure Ctr where
  n : Nat := 0
  ovf : Bool := false
deriving DecidableEq, Repr

end Sys2Proof
end

