-- ==== Sys2Proof/Syntax/Image.lean ====
section
/-! DEFINITION. The configuration image (R421 to R433) as structured data. The manual leaves the byte layout of most
sections to the Elvog section encoding (R422); the model therefore holds what an image's bytes SAY, and what each check of
R423 items 1 to 4 finds of the bytes, as data of the image. -/

namespace Sys2Proof

/-- One entry of the section directory (R421), with what its CRC-64 check finds (R423 item 2). -/
structure Section where
  kind : Nat
  offset : Nat := 0
  length : Nat := 0
  reservedZero : Bool := true
  crcOk : Bool := true
deriving DecidableEq, Repr

/-- An owner certificate of section 0x11 (R388): its public key, and whether it is a DER X.509 v3 P-256 certificate. -/
structure OwnerCert where
  pub : BitVec 512 := 0
  wellFormed : Bool := true
deriving DecidableEq, Repr

/-- One interjection table entry (R113). A producer field is named by 16 × slot + field. -/
structure IntjEntry where
  clause : Nat
  trigger : Nat
  sout : List Nat := []
  sto : List Nat := []
  fields : List Nat := []
deriving DecidableEq, Repr

/-- A sink of the fabric (R112): what a function's output may be. `axs` is input `slot` of AXS or SEP function `inst`. -/
inductive Sink where
  | sout (k : Nat)
  | sto (k : Nat)
  | field (slot f : Nat)
  | axs (inst input : Nat)
deriving DecidableEq, Repr

/-- One entry of the function table (R94, R97, R178, R201). `p` holds those of P0 to P7 of the AXS and SEP kinds that the image states,
by number; the named
parameters are those of R97, `tSyncMs` where the image states it.
`figure` is the reaction time the image states, in units of 50 ns (R74). -/
structure FnEntry where
  inst : Nat
  kind : Nat
  zone : Nat := 0
  manual : Bool := true
  tSyncMs : Option Nat := none
  cycleCheck : Bool := true
  tEnableMaxS : Nat := 0
  fourSensors : Bool := false
  tMuteMaxS : Nat := 60
  positions : Nat := 2
  tChangeMs : Nat := 250
  p : NMap Int := []
  release : Option Nat := none
  ack : Option Nat := none
  limit : Option Nat := none
  demand : List Nat := []
  sinks : List Sink := []
  figure : Nat := 0
deriving DecidableEq, Repr

/-- A payload field of a data session (R251). -/
structure FieldCfg where
  f : Nat
  kind : Nat
  offset : Nat
  bit : Nat := 0
  safe : Option (BitVec 20) := none
deriving DecidableEq, Repr

/-- A consumer session (R242, R243). Times in units of 10 microseconds, `tOpenS` in seconds, `len` in words; a time the image
does not state is `age_max`. -/
structure ConsCfg where
  id : Nat
  gen : BitVec 32 := 0
  peer : BitVec 64 := 0
  bulk : Bool := false
  partner : Option Nat := none
  len : Nat := 0
  ageMax : Nat := 400
  tWdSet : Option Nat := none
  tRtSet : Option Nat := none
  maxSkip : Nat := 3
  tOpenS : Nat := 10
  fields : List FieldCfg := []
deriving DecidableEq, Repr

/-- A producer session (R242, R243). -/
structure ProdCfg where
  id : Nat
  gen : BitVec 32 := 0
  peer : BitVec 64 := 0
  mac : BitVec 48 := 0
  vlan : Nat := 0
  pcp : Nat := 0
  partner : Option Nat := none
  len : Nat := 0
  sendEvery : Nat := 1
  fields : List FieldCfg := []
deriving DecidableEq, Repr

/-- A gate control list or stream gate list (R216, R218): intervals in ns, base as ns of cell time. -/
structure GateList where
  base : Nat := 0
  cycle : Nat := 0
  entries : List (BitVec 8 × Nat) := []
deriving DecidableEq, Repr

/-- Stream identification (R218): null (destination MAC and VLAN) or source MAC and VLAN. -/
structure StreamCfg where
  bySource : Bool := false
  mac : BitVec 48 := 0
  vlan : Nat := 0
deriving DecidableEq, Repr

/-- A stream filter (R218). `handle = none` is a wildcard. -/
structure FilterCfg where
  handle : Option Nat := none
  maxSdu : Nat := 9216
  latchOversize : Bool := false
  gate : Option Nat := none
  meter : Option Nat := none
deriving DecidableEq, Repr

/-- A flow meter (R218): rates in bits per second, bursts in bytes. -/
structure MeterCfg where
  cir : Nat := 0
  cbs : Nat := 0
  eir : Nat := 0
  ebs : Nat := 0
deriving DecidableEq, Repr

/-- An IEEE 802.1CB stream (R219): its stream handle, generation, recovery, history length and reset time in ms. -/
structure CbCfg where
  handle : Nat := 0
  generate : Bool := false
  recover : Bool := false
  history : Nat := 16
  resetMs : Nat := 100
  members : List Nat := []
deriving DecidableEq, Repr

/-- The network section (R211 to R222): bridge, schedules, streams, time and management addresses. -/
structure NetCfg where
  pcpMap : NMap (List Nat) := []
  shares : List (Nat × Nat × Nat) := []
  statics : List (Nat × BitVec 48 × List Nat) := []
  vlans : List (Nat × List Nat) := []
  ageingS : Nat := 300
  gcl : NMap GateList := []
  maxSdu : NMap Nat := []
  streams : NMap StreamCfg := []
  filters : NMap FilterCfg := []
  streamGates : NMap GateList := []
  meters : NMap MeterCfg := []
  cb : NMap CbCfg := []
  slavePort : Option Nat := none
  ipv4 : BitVec 32 := 0
  ipv6 : BitVec 128 := 0
  udpPort : Nat := 47016
  etype : Nat := 0x88B5
deriving DecidableEq, Repr

/-- A recorder trigger profile (R326). -/
structure Profile where
  en : Bool := false
  trigger : Nat := 0
  minSev : Nat := 0
  lo : Nat := 0
  hi : Nat := 0
  addrs : List Nat := []
deriving DecidableEq, Repr

/-- One reaction table entry (R299); `vector` holds the bits of R305. -/
structure Reaction where
  sev : Nat := 0
  vector : BitVec 5 := 0
  zones : BitVec 32 := 0
  line : Nat := 0
deriving DecidableEq, Repr

/-- What the image gives one core pair (R260 to R273): region in 64 KiB units, scratch ranges in 64-byte units. -/
structure PairCfg where
  program : Option (NMap Byte) := none
  entry : Word := 0
  nmivec : Word := 0
  base : Nat := 0
  size : Nat := 0
  scratch : List (Nat × Nat) := []
  cfwBase : Nat := 0
  cfwCount : Nat := 0
  tAlive : Nat := 0
  mac : BitVec 48 := 0
  etype : Nat := 0
deriving DecidableEq, Repr

/-- An axis-aligned box in whole millimetres: lowest and highest corner. -/
structure Box where
  lo : Int × Int × Int
  hi : Int × Int × Int
deriving DecidableEq, Repr

/-- One joint of a chain (R192): translation in micrometres, quaternion in units of 2 to the minus 30, R193's scaling. -/
structure Joint where
  axis : Nat
  prismatic : Bool := false
  trans : Int × Int × Int := (0, 0, 0)
  quat : Int × Int × Int × Int := (1073741824, 0, 0, 0)
  qOff : Int := 0
  qNum : Nat := 1
  qDen : Nat := 1
deriving DecidableEq, Repr

/-- A kinematic chain (R192). -/
structure Chain where
  base : Bool := false
  mSelf : Nat := 50
  joints : List Joint := []
deriving DecidableEq, Repr

/-- A capsule (R194): endpoints in the link frame in 0.1 mm, radius in mm. -/
structure Capsule where
  chain : Nat
  link : Nat
  p0 : Int × Int × Int
  p1 : Int × Int × Int
  radius : Nat
deriving DecidableEq, Repr

/-- The separation and kinematics section (R185 to R202). -/
structure SepCfg where
  origin : Int × Int × Int := (0, 0, 0)
  size : Nat × Nat × Nat := (40, 40, 40)
  observed : NMap (List Box) := []
  exclusions : List Box := []
  nRepMax : Nat := 32768
  rho : Nat := 1
  wSepNs : Nat := 0   -- as the tool states it; the hub recomputes it (R202)
  chains : NMap Chain := []
  capsules : List Capsule := []
deriving DecidableEq, Repr

/-- The configuration image: its header and directory (R421), and what its sections say (R422). Register settings
that the chapters leave to the image stand in `regs`, keyed by register address; `safes` holds the safe values of numeric
sources by namespace entry (R29). Of a ZN-4408 image (R433), `bare` says that it came without a wrapper, and `station`,
`revision` and `passDigest` are the forerunner's station number, revision count and password digest. -/
structure Image where
  magic : Word := 0x5A4E4347
  format : Nat := 1
  target : Nat := 0
  flags : Byte := 0
  cellId : BitVec 64 := 1
  generation : Nat := 1
  length : Nat := 256
  digest : BitVec 256 := 0
  digestOk : Bool := true
  signature : BitVec 512 := 0
  signer : Nat := 0
  reservedZero : Bool := true
  sections : List Section := []
  salt : BitVec 128 := 0
  iterations : Nat := 10000
  key : BitVec 256 := 0
  regs : NMap Word := []
  clausesA : List (Nat × BitVec 128) := []
  clausesB : List (Nat × BitVec 128) := []
  levels : NMap Nat := []
  constsA : NMap NV := []
  constsB : NMap NV := []
  safes : NMap (BitVec 20) := []
  intjs : List IntjEntry := []
  bindSout : List (Nat × Nat) := []
  bindSto : List (Nat × Nat) := []
  bindField : List (Nat × Nat) := []
  functions : List FnEntry := []
  zoneAck : List (Nat × Nat) := []
  eBound : Nat := 4000
  soutZone : NMap Nat := []
  stoZone : NMap Nat := []
  soutPolA : BitVec 16 := 0
  soutPolB : BitVec 16 := 0xFFFF
  stoPolA : BitVec 16 := 0
  stoPolB : BitVec 16 := 0
  soutUsed : BitVec 16 := 0
  stoUsed : BitVec 16 := 0
  net : NetCfg := {}
  cons : List (Nat × ConsCfg) := []
  prods : List (Nat × ProdCfg) := []
  profiles : NMap Profile := []
  reactions : List (Nat × Reaction) := []
  errAlive : Bool := false
  errThreshold : Nat := 2
  tDtiMaxS : Nat := 60
  pairs : NMap PairCfg := []
  cvuOwner : NMap Nat := []
  certs : List OwnerCert := []
  accLichen : Nat := 0
  requireSigned : Bool := false
  plugMode : Nat := 0
  sep : Option SepCfg := none
  bare : Bool := false
  station : Word := 0
  revision : Nat := 1
  passDigest : BitVec 256 := 0
deriving DecidableEq, Repr

end Sys2Proof
end

