-- ==== Sys2Proof/Syntax.lean ====
section
/-! DEFINITION. The commands of the block: one constructor of `Instr` per row of spec/opcode_table.json, in the table's
order. The first operand `t` of every command is the ruler-A instant, in ns, at which it comes (assumption 1). The other
operands are what comes from outside with it: the reader and the word written, pin levels, converter words, frames, measured
durations, and the findings of physical tests. -/

namespace Sys2Proof

/-- What a detector has found since the last sampling instant (R17, R30): an illegal rail code, a parity error, or an error in
a protected memory. `src` is the source of the block that holds the detector, `unit` the unit, port or channel concerned, and
`place` the place of the frame in the port's queue where the error lies in a queued frame (R215). -/
structure Finding where
  src : Nat
  unit : Nat := 0
  place : Nat := 0
deriving DecidableEq, Repr

/-- What the pins show at one sampling instant (R121, R132, R134, R137, R316): terminals, test-pulse outputs read back,
switch readbacks, STO feedbacks, and the internal readback of each driver pin; the lichens whose value of this sample a channel does
not receive in time (R123); and what the detectors have found (R17, R30). -/
structure Pins where
  sinA : BitVec 48 := 0
  sinB : BitVec 48 := 0
  tpo : BitVec 16 := 0
  srbA : BitVec 16 := 0
  srbB : BitVec 16 := 0
  stfA : BitVec 16 := 0
  stfB : BitVec 16 := 0
  soutA : BitVec 16 := 0
  soutB : BitVec 16 := 0
  stoA : BitVec 16 := 0
  stoB : BitVec 16 := 0
  errA : Bool := false
  errB : Bool := false
  missA : BitVec 48 := 0
  missB : BitVec 48 := 0
  found : List Finding := []
deriving DecidableEq, Repr

/-- What a capture finds outside (R22, R24, R52): ruler B's count since the previous capture, the phase of channel B's grid,
and whether a source kind was not delivered to both channels. -/
structure CaptureIn where
  elapsedB : Nat
  phase : Int := 0
  undelivered : Bool := false
deriving DecidableEq, Repr

/-- An Ethernet frame as it stands on a port (R213 to R219). -/
structure EthFrame where
  dst : BitVec 48
  src : BitVec 48
  pcp : Nat := 0
  vlan : Option Nat := none
  rtag : Option Nat := none
  etype : Nat
  payload : List Byte := []
  length : Nat := 64
  fcsOk : Bool := true
deriving DecidableEq, Repr

/-- An IP address (R212). -/
inductive Ip where
  | v4 (a : BitVec 32)
  | v6 (a : BitVec 128)
deriving DecidableEq, Repr

/-- An 802.1AS Announce (R221): the grandmaster's priority vector. -/
structure Announce where
  priority1 : Nat
  clockClass : Nat
  accuracy : Nat
  variance : Nat
  priority2 : Nat
  gmId : BitVec 64
  steps : Nat
deriving DecidableEq, Repr

/-- A checkpoint entry (R263), with what its SECDED finds at the queue's head and the cache errors its core has recovered
since its last entry (R259, R265). -/
structure Entry where
  kind : Nat
  retired : BitVec 48
  digest : BitVec 64
  data : BitVec 64 := 0
  addr : Word := 0
  size : Nat := 0
  bad : Bool := false
  corrected : Bool := false
  cacheErrs : Nat := 0
deriving DecidableEq, Repr

/-- The blocks a block reset may take (R306). -/
inductive Block where
  | fab | lio | tpg | sog | sto | mea | axs | sep | kin | net | sfr | recorder | bst | hif
  | cpr (k : Fin 4)
  | cvu (n : Fin 16)
deriving DecidableEq, Repr

/-- Where a region lost by a fall-back lies (R348). The frames of the switch buffer are named by port and place in its
queue, the records of the recorder buffer by their place in it. -/
inductive LostRegion where
  | clauseState (lane : Fin 64)
  | fnState (inst : Nat)
  | namespaceOrBuffer
  | separationBank
  | pairMemory (offset : Nat)
  | cache (k : Fin 4)
  | switchBuffer (frames : List (Nat × Nat))
  | recorderBuffer (places : List Nat)
  | logic (b : Block) (lane : Option (Fin 64))
  | otherLogic
deriving DecidableEq, Repr

/-- What one step of a spore finds (R345, R349): the save and restore checks, and, after the last step, the result. For
kinds 1, 2 and 5 `pass` says whether signature and count equal the expected pair; for kind 4 whether the 16 injections were
flagged, `equalOk` whether the equal pattern passed. -/
structure SporeFinding where
  restoreOk : Bool := true
  region : LostRegion := .namespaceOrBuffer
  last : Bool := false
  pass : Bool := true
  equalOk : Bool := true
  signature : BitVec 64 := 0
  count : Nat := 0
  uncorrA : List Nat := []
  uncorrB : List Nat := []
deriving DecidableEq, Repr

/-- Why a spore is aborted (R346). -/
inductive AbortCause where
  | halt | workDue | blockReset | noAlignment | timeLimit
deriving DecidableEq, Repr

/-- What a burn session leaves (R362): for each word it burned, the 72 antifuses as read at the normal and the strict
margin; the most extra pulses, the time in 10 microsecond units, the programming voltage. -/
structure BurnOutcome where
  words : List (BitVec 72 × BitVec 72) := []
  retries : Nat := 0
  time10us : Nat := 0
  mv : Nat := 5500
  vfuse : Bool := false
deriving DecidableEq, Repr

/-- What fiddlehead finds (R411, R412), and antifuses that now read differently at one of the margins (R365, R368, R375, R376): words,
rhizoid bits, rows of region 11, and the steps of a counter burned at one margin alone. -/
structure FiddleIn where
  words : List (Nat × BitVec 72 × BitVec 72) := []
  rhizoid : List (Nat × BitVec 3 × BitVec 3) := []
  rows : List (Nat × Word × Word) := []
  cntMarg : List (Nat × List Nat) := []
  rulerA : Bool := true
  rulerB : Bool := true
  wipeOk : Bool := true
  wipeUs : Nat := 1500
  flagged : Nat := 128
  equalOk : Bool := true
  fabricOk : Bool := true
  knownAnswerOk : Bool := true
  vkeep : Bool := true
deriving DecidableEq, Repr

/-- A hub firmware image in a firmware slot (R413), with what checks 1 and 3 of R414 find of its bytes. -/
structure FwImage where
  magic : Word := 0x5A4E3937
  format : Nat := 1
  secVersion : Nat := 0
  major : Nat := 1
  minor : Nat := 0
  keyIndex : Nat := 0
  bodyLen : Nat := 0
  entry : Word := 0
  pub : BitVec 512 := 0
  signature : BitVec 512 := 0
  signed : BitVec 256 := 0
  body : NMap Byte := []
deriving DecidableEq, Repr

/-- What the bytes of a slot spell after a program window (R422: the Elvog encoding lies outside the manual). -/
structure Spells where
  image : Option Image := none
  fw : Option FwImage := none
deriving DecidableEq, Repr

/-- What a start finds on the cell memory plug (R431, R432). -/
inductive PlugFind where
  | absent
  | unreadable
  | present (mbit16 : Nat) (checkOk : Bool) (image : Image)
deriving DecidableEq, Repr

/-- The monitored rails (R398). -/
inductive Rail where
  | vcoreA | vcoreB | vio | vana | vsd | vsdh
deriving DecidableEq, Repr

/-- The supply-loss warning's causes (R406). -/
inductive WarnCause where
  | pfail | vio | vcore
deriving DecidableEq, Repr

/-- The commands and events of the part. -/
inductive Instr where
  | registerWrite (t : Nat) (rd : Reader) (addr width : Nat) (w : Word)
  | stagedWrite (t : Nat) (rd : Reader) (addr width : Nat) (w : Word)
  | truOptimeLoRead (t : Nat) (rd : Reader)
  | truCellNsRead (t : Nat) (rd : Reader)
  | truInject (t : Nat) (rd : Reader) (w : Word)
  | pageFltLatchClear (t : Nat) (rd : Reader) (page : Nat) (w : Word)
  | fclClear (t : Nat) (rd : Reader) (w : Word)
  | stageCommit (t : Nat) (rd : Reader) (token : BitVec 16)
  | stageDiscard (t : Nat) (rd : Reader) (token : BitVec 16)
  | freeze (t : Nat) (rd : Reader) (token : BitVec 16)
  | freezeRelease (t : Nat) (rd : Reader) (token : BitVec 16)
  | freezeExpired (t : Nat) (rd : Reader)
  | expertUnlock (t : Nat) (rd : Reader) (token : BitVec 16)
  | expertLock (t : Nat) (rd : Reader) (token : BitVec 16)
  | expertIdleTimeout (t : Nat) (rd : Reader)
  | expertBlockEnd (t : Nat) (rd : Reader)
  | capture (t : Nat) (x : CaptureIn)
  | evaluationComplete (t : Nat) (ch : Ch) (dur : Nat)
  | evaluationOverrun (t : Nat) (ch : Ch)
  | sentenceDeadline (t : Nat)
  | samplingInstant (t : Nat) (pins : Pins)
  | lichenExchangeMissed (t : Nat) (ch : Ch) (i : Fin 48)
  | discrepancyTimeout (t : Nat) (i : Fin 48)
  | testPulseStart (t : Nat) (k : Fin 16)
  | testPulseEnd (t : Nat) (k : Fin 16)
  | maskWindowEnd (t : Nat) (k : Fin 16)
  | readbackTimeout (t : Nat) (ch : Ch) (k : Fin 16)
  | darkTestStart (t : Nat) (k : Fin 16)
  | darkPulseEnd (t : Nat) (k : Fin 16)
  | stoFeedbackTimeout (t : Nat) (ch : Ch) (k : Fin 16)
  | lioCtrClear (t : Nat) (rd : Reader) (w : Word)
  | encoderSample (t : Nat) (a : Fin 16) (sin cos : BitVec 20)
  | periodicUpdate (t : Nat)
  | axisExchangeMissed (t : Nat) (ch : Ch) (a : Fin 16)
  | analogueSample (t : Nat) (j : Fin 8) (rawA rawB : BitVec 20)
  | analogueDiscrepancyTimeout (t : Nat) (j : Fin 8)
  | meaCtrClear (t : Nat) (rd : Reader) (w : Word)
  | axsCtrClear (t : Nat) (rd : Reader) (w : Word)
  | sensorStale (t : Nat) (s : Fin 8)
  | rebuildStart (t : Nat)
  | rebuildComplete (t : Nat) (ch : Ch)
  | rebuildOverrun (t : Nat) (ch : Ch)
  | separationUpdateComplete (t : Nat) (ch : Ch)
  | separationExchangeMissed (t : Nat) (ch : Ch) (c : Fin 4)
  | separationUpdateOverrun (t : Nat) (ch : Ch)
  | sepCtrClear (t : Nat) (rd : Reader) (w : Word)
  | kinCtrClear (t : Nat) (rd : Reader) (w : Word)
  | frameReceive (t : Nat) (p : Fin 7) (f : EthFrame)
  | linkUp (t : Nat) (p : Fin 6) (rate : Nat) (fec : Bool)
  | linkDown (t : Nat) (p : Fin 6)
  | fdbAgeing (t : Nat) (vlan : Nat) (mac : BitVec 48)
  | gateEntryChange (t : Nat) (p : Fin 6)
  | cbResetTimeout (t : Nat) (stream : Fin 256) (member : Nat)
  | arpRequest (t : Nat) (sender : BitVec 32) (senderMac : BitVec 48) (target : BitVec 32)
  | neighbourSolicitation (t : Nat) (sender : BitVec 128) (senderMac : BitVec 48) (target : BitVec 128)
  | icmpEchoRequest (t : Nat) (sender target : Ip) (data : List Byte)
  | syncReceived (t : Nat) (p : Fin 6) (origin : Nat)
  | announceReceived (t : Nat) (p : Fin 6) (m : Announce)
  | pdelayReqReceived (t : Nat) (p : Fin 6) (seq : Nat)
  | pdelayRespReceived (t : Nat) (p : Fin 6) (t1 t2 t3 t4 : Nat)
  | syncInterval (t : Nat) (p : Fin 6)
  | pdelayInterval (t : Nat) (p : Fin 6)
  | announceInterval (t : Nat) (p : Fin 6)
  | syncReceiptTimeout (t : Nat)
  | holdoverTimeout (t : Nat)
  | tInitExpired (t : Nat)
  | tsySet (t : Nat) (rd : Reader) (token : BitVec 16)
  | tsySlew (t : Nat) (rd : Reader) (token : BitVec 16)
  | tsyCancelSlew (t : Nat) (rd : Reader) (token : BitVec 16)
  | netCtrClear (t : Nat) (rd : Reader) (w : Word)
  | safeFrameReceived (t : Nat) (bytesA bytesB : List Byte)
  | bulkSegmentReceived (t : Nat) (bytesA bytesB : List Byte)
  | setupTimeout (t : Nat) (slot : Fin 128)
  | sfrRestart (t : Nat) (rd : Reader) (w : Word)
  | sfrCtrClear (t : Nat) (rd : Reader) (w : Word)
  | pairRelease (t : Nat) (k : Fin 4)
  | checkpointPush (t : Nat) (k : Fin 4) (ch : Ch) (e : Entry)
  | checkpointMatch (t : Nat) (k : Fin 4)
  | agreementTimeout (t : Nat) (k : Fin 4)
  | cprCfwWrite (t : Nat) (rd : Reader) (k : Fin 4) (j : Nat) (w : Word)
  | cprCfwInv (t : Nat) (rd : Reader) (k : Fin 4) (w : Word)
  | cprAliveWrite (t : Nat) (rd : Reader) (k : Fin 4) (w : Word)
  | aliveExpired (t : Nat) (k : Fin 4)
  | cprTx (t : Nat) (rd : Reader) (k : Fin 4) (w : Word)
  | pairFrameReceived (t : Nat) (k : Fin 4) (bytes : List Byte)
  | mtimecmpReached (t : Nat) (k : Fin 4)
  | cprRdselWrite (t : Nat) (rd : Reader) (k : Fin 4) (j : Fin 64) (w : Word)
  | cprCtrClear (t : Nat) (rd : Reader) (k : Fin 4) (w : Word)
  | agrCtrClear (t : Nat) (rd : Reader) (w : Word)
  | agrInject (t : Nat) (rd : Reader) (w : Word)
  | debugHalt (t : Nat) (k : Fin 4) (ch : Ch)
  | debugStep (t : Nat) (k : Fin 4) (ch : Ch)
  | debugResume (t : Nat) (k : Fin 4) (ch : Ch)
  | debugRegisterAccess (t : Nat) (k : Fin 4) (ch : Ch) (reg : Nat) (write : Option (BitVec 64))
  | cvuStart (t : Nat) (rd : Reader) (u : Fin 16) (w : Word)
  | cvuPolyChange (t : Nat) (rd : Reader) (u : Fin 16) (w : Word)
  | cvuFeedB (t : Nat) (rd : Reader) (u : Fin 16) (w : Word)
  | cvuFeedH (t : Nat) (rd : Reader) (u : Fin 16) (w : Word)
  | cvuFeedW (t : Nat) (rd : Reader) (u : Fin 16) (w : Word)
  | cvuStateLoWrite (t : Nat) (rd : Reader) (u : Fin 16) (w : Word)
  | cvuStateHiWrite (t : Nat) (rd : Reader) (u : Fin 16) (w : Word)
  | cvuStateLoRead (t : Nat) (rd : Reader) (u : Fin 16)
  | cvuResultLoRead (t : Nat) (rd : Reader) (u : Fin 16)
  | cvuAlive (t : Nat) (rd : Reader) (u : Fin 16) (w : Word)
  | cvuCtrClear (t : Nat) (rd : Reader) (u : Fin 16) (w : Word)
  | fabCtrClear (t : Nat) (rd : Reader) (ch : Ch) (w : Word)
  | fabInject (t : Nat) (rd : Reader) (ch : Ch) (w : Word)
  | roundClose (t : Nat)
  | blockResetComplete (t : Nat) (b : Block) (wipeOk : Bool)
  | chipResetReaction (t : Nat)
  | rearmComplete (t : Nat) (flagged : Nat) (equalOk fabricOk : Bool)
  | collectorSelfFault (t : Nat) (code : Fin 6)
  | errPinHalfPeriod (t : Nat)
  | fclCtrClear (t : Nat) (rd : Reader) (w : Word)
  | nandProgramComplete (t : Nat) (verifyOk : Bool)
  | blockEraseComplete (t : Nat) (block : Nat) (ok : Bool)
  | nandTimeout (t : Nat)
  | headSearchComplete (t : Nat)
  | recWindowLoad (t : Nat) (rd : Reader) (w : Word)
  | recClear (t : Nat) (rd : Reader) (w : Word)
  | clearEraseComplete (t : Nat)
  | recFwReq (t : Nat) (rd : Reader) (w : Word)
  | recCtrClear (t : Nat) (rd : Reader) (w : Word)
  | exportStart (t : Nat) (rd : Reader) (token : BitVec 16)
  | exportAbandon (t : Nat) (rd : Reader) (token : BitVec 16)
  | exportComplete (t : Nat) (rd : Reader)
  | sporeStart (t : Nat) (ch : Ch)
  | sporeStep (t : Nat) (ch : Ch) (f : SporeFinding)
  | sporeAbort (t : Nat) (ch : Ch) (cause : AbortCause)
  | dtiExceeded (t : Nat)
  | bstSuspend (t : Nat) (rd : Reader) (ch : Ch) (w : Word)
  | bstForce (t : Nat) (rd : Reader) (ch : Ch) (w : Word)
  | bstCtrClear (t : Nat) (rd : Reader) (ch : Ch) (w : Word)
  | otpBurnWord (t : Nat) (rd : Reader) (w : Word)
  | otpFinalise (t : Nat) (rd : Reader) (w : Word)
  | otpRetire (t : Nat) (rd : Reader) (w : Word)
  | otpBurn4408Row (t : Nat) (rd : Reader) (w : Word)
  | otpRedirect4408Row (t : Nat) (rd : Reader) (w : Word)
  | otpSessionComplete (t : Nat) (x : BurnOutcome)
  | otpVppOutOfRange (t : Nat) (mv : Nat) (left : List (BitVec 72 × BitVec 72))
  | otpRead (t : Nat) (rd : Reader) (w : Word)
  | lcToManufacture (t : Nat) (rd : Reader) (w : Word)
  | generateKey (t : Nat) (rd : Reader) (w : Word) (healthOk pairOk : Bool)
  | lcToProvisioned (t : Nat) (rd : Reader) (w : Word)
  | lcToDeployed (t : Nat) (rd : Reader) (w : Word)
  | lcToReturned (t : Nat) (rd : Reader) (w : Word) (destroyed : Bool)
  | debugUnlock (t : Nat) (rd : Reader) (w : Word)
  | openScan (t : Nat) (rd : Reader) (w : Word)
  | lifeCycleReset (t : Nat) (burnOk : Bool)
  | lcsBlockEnd (t : Nat) (rd : Reader)
  | attestationStart (t : Nat) (rd : Reader) (w : Word)
  | attestationComplete (t : Nat) (rd : Reader)
  | railOutOfRange (t : Nat) (rail : Rail) (mv : Nat)
  | vcoreMonitorDisagree (t : Nat) (mvA mvB : Nat)
  | powerOnResetEnd (t : Nat)
  | supplyLossWarning (t : Nat) (cause : WarnCause)
  | flushComplete (t : Nat)
  | supplyRecovery (t : Nat)
  | resetNAssert (t : Nat) (lowNs : Nat)
  | resetNRelease (t : Nat)
  | tjThreshold (t : Nat) (tempA tempB : Int)
  | fiddlehead (t : Nat) (x : FiddleIn)
  | firmwareLoad (t : Nat)
  | configLoad (t : Nat) (plug : PlugFind)
  | cfgOpen (t : Nat) (rd : Reader) (w : Word)
  | cfgProgramWindow (t : Nat) (rd : Reader) (w : Word) (spells : Spells)
  | cfgSeal (t : Nat) (rd : Reader) (w : Word)
  | cfgLoad (t : Nat) (rd : Reader) (w : Word)
  | cfgAccept (t : Nat) (rd : Reader) (w : Word)
  | cfgCancelAccept (t : Nat) (rd : Reader) (w : Word)
  | cfgDiscard (t : Nat) (rd : Reader) (w : Word)
  | cfgWritePlug (t : Nat) (rd : Reader) (w : Word)
  | configLoadComplete (t : Nat)
  | acceptanceAck (t : Nat)
  | acceptanceTimeout (t : Nat)
  | plugWriteComplete (t : Nat) (mbit16 : Nat)
  | hifRead (t : Nat) (bytes : List Byte)
  | hifWrite (t : Nat) (bytes : List Byte)
  | hifFrameAbort (t : Nat)
  | hifCtrClear (t : Nat) (rd : Reader) (w : Word)
  | dtlsHandshake (t : Nat) (session : Fin 4) (owner : Fin 4) (clientOk : Bool)
  | mgmtRead (t : Nat) (session : Fin 4) (bytes : List Byte)
  | mgmtWrite (t : Nat) (session : Fin 4) (bytes : List Byte)
  | mgmtUpload (t : Nat) (session : Fin 4) (bytes : List Byte) (spells : Spells)
  | mgmtRecords (t : Nat) (session : Fin 4) (bytes : List Byte)
  | mgmtExport (t : Nat) (session : Fin 4) (bytes : List Byte)
  | mgmtNotices (t : Nat) (session : Fin 4) (bytes : List Byte)
  | pwrCtrClear (t : Nat) (rd : Reader) (w : Word)
  | paceWindowEnd (t : Nat) (pacesA pacesB : List Nat)
  | oscillatorStop (t : Nat) (ch : Ch)
  | quadrantCounterTransition (t : Nat) (a : Fin 16) (sinHigh cosHigh : Bool)
  | antiRollbackAdvance (t : Nat)
  | laneErrorRateHigh (t : Nat) (p : Fin 6)
  | streamGateChange (t : Nat) (g : Fin 64)
deriving DecidableEq, Repr

end Sys2Proof
end

