-- ==== Sys2Proof/Decode.lean ====
section
/-! DEFINITION. Which command a word spells. The table of commands gives its rows no bits: a command comes from outside as
an event or as a register access, not as a word, so no word spells one (assumption 2). -/

namespace Sys2Proof

/-- The command that `nbits` bits of `w` spell by the table's bits: none, since the table gives no row any bits. -/
def decodeTableWord (_nbits _w : Nat) : Option Instr := none

end Sys2Proof
end

