-- ==== Sys2Proof/Config.lean ====
section
/-! DEFINITION. What an implementation fixes and what the manual leaves free. Every constant here is opaque: no proof can
see its value, so every claim holds whatever it is. -/

namespace Sys2Proof.Config

/-- The unit's silicon stepping (SYS_VERSION.stepping, "per unit"). -/
opaque stepping : BitVec 8

/-- The caps field of a page's PAGE_CAPS, "per block" (R36): no chapter gives its bits. -/
opaque pageCaps : Nat → BitVec 16

/-- The n-th random draw of the hub's entropy source: nonces, keys, producer start counters (R47, R248, R387). -/
opaque entropy : Nat → BitVec 256

/-- SHA-256 of a byte list, most significant byte first. The manual names the standard and does not restate it. -/
opaque sha256 : List Byte → BitVec 256

/-- HMAC-SHA-256 under a key (R424). -/
opaque hmac : BitVec 256 → List Byte → BitVec 256

/-- ECDSA P-256: whether a signature (r then s) verifies over a digest under a public key (x then y). -/
opaque ecdsaVerify : BitVec 512 → BitVec 256 → BitVec 512 → Bool

/-- ECDSA P-256: a signature made with a private key over a digest. -/
opaque ecdsaSign : BitVec 256 → BitVec 256 → BitVec 512

/-- The P-256 public key of a private key. -/
opaque derivePub : BitVec 256 → BitVec 512

/-- The base MAC address that the data words of antifuse region 0 give (R359): the manual does not say where it stands. -/
opaque baseMac : List (BitVec 64) → BitVec 48

/-- The SECDED check bits of 64 data bits (R358): the manual does not give the code. -/
opaque secded : BitVec 64 → BitVec 8

/-- The value in use of a word whose strict read is corrected and whose normal read is uncorrectable, from both reads: R365
does not list the case. -/
opaque otpUnstated : BitVec 72 → BitVec 72 → BitVec 64

/-- What a reserved rhizoid bit reads as when its margins differ: R367 gives it no safe polarity. -/
opaque reservedRhizoid : Nat → Bool

/-- Whether a certificate meets R387 for a serial number and a public key (DER and X.509 lie outside the manual). -/
opaque certAccepted : List Byte → BitVec 64 → BitVec 512 → Bool

/-- The public key a certificate carries. -/
opaque certPub : List Byte → BitVec 512

/-- The pair byte of a debug-unlock record (R325, R390): an unlock concerns no pair. -/
opaque unlockPair : Byte

/-- Extra pulses in [15:12] and time in [11:0] that OTP_RESULT shows of a retirement, by region (R373, R381): no rule gives them. -/
opaque retireResult : Nat → BitVec 16

/-- The antifuses that a burn cut short or a failed key destruction has burned (R364, R389), by draw. -/
opaque burnLeft : Nat → BitVec 72

/-- How many burns of a transition were complete before the one that failed (R384), by draw. -/
opaque burnsDone : Nat → Nat

/-- Whether a monitor raises its source for a rail between its two columns of R398, by draw. -/
opaque bandRaises : Nat → Bool

/-- Whether RESET_N low for 0.5 to 1 microsecond resets (R409), by draw. -/
opaque shortReset : Nat → Bool

/-- How much longer than 2 ms power-on reset lasts, in ns (R399), and how long after its release a hub starts its rulers, in
ns (R411), by draw. -/
opaque porExtra : Nat → Fin 1000001
opaque rulerDelay : Nat → Fin 250001

/-- Whether the unit is a ZN9716-FB-I, whose junction limit is 105 °C, or a ZN9716-FB-E, whose limit is 125 °C (R410). -/
opaque industrial : Bool

/-- SHA-256 of a configuration image's bytes and of a firmware image's bytes (R388); the model holds what they say. -/
opaque imageSha : Image → BitVec 256
opaque firmwareSha : FwImage → BitVec 256

/-- The unit's serial number, from the data words of antifuse region 0 (R359): the manual does not say where it stands. -/
opaque serial : List (BitVec 64) → BitVec 64

/-- The word a record's register snapshot holds for an address before the first publish (R326 names no sentence for it). -/
opaque unsnapped : Nat → Word

/-- The cause byte of a recorder-failure record (R325), for the causes of R335 in their order there. -/
opaque recorderFailure : Nat → Byte

/-- The spore index of a sequencer's spores, by place in its share (R341): the manual gives the counts alone. -/
opaque sporeIndex : Ch → Nat → Fin 9408

/-- The kind of a spore, less one (R341). -/
opaque sporeKind : Nat → Fin 6

/-- The blocks a spore occupies (R343). -/
opaque sporeBlocks : Nat → List Block

/-- The block and sub-block a spore covers, as its record names them (R349, R355): the manual gives no code for them. -/
opaque sporePlace : Nat → BitVec 16

/-- The 16 KiB block of a full-memory comparison spore (R274). -/
opaque sporeMemory : Nat → Fin 512

/-- The converter of a tone spore (R341): 0 to 31 the encoder converters, two an axis, 32 to 39 analogue lichens. -/
opaque sporeConverter : Nat → Fin 40

/-- The native value of a result that falls outside the number format, where the manual states no saturation. -/
opaque outOfFormat : Int → BitVec 20

/-- Whether a fine angle that lies between two steps of 1/4,096 of a period is given as the upper one (R153). -/
opaque angleUp : BitVec 20 → BitVec 20 → Bool

/-- The fine angle of two converter words that are both 0 (R153). -/
opaque zeroAngle : Fin 4096

/-- Whether a vector length that lies between two millivolts is shown as the upper one (R183). -/
opaque lengthUp : BitVec 20 → BitVec 20 → Bool

/-- The encoder count taken for an instant that the history does not reach (R160), from the newest count and the instant. -/
opaque beyondHistory : Int → Int → Int

/-- Source A's drive count at an update when its own speed is not known (R159), from its count and its age in ns. -/
opaque unknownSpeedCount : Int → Int → Int

/-- A channel's converter reference deviation in microvolts (R183): it comes with no command. -/
opaque converterRef : Ch → BitVec 20

/-- Channel A's CORDIC (R193): cosine and sine of an angle in microradians, in units of 2^-30. -/
opaque cordic : Int → BitVec 32 × BitVec 32

/-- Which of the binary32 values within 2 ulp channel B's polynomial gives for cosine and sine of half an angle in microradians (R193). -/
opaque halfAngle : Int → Fin 4 × Fin 4

/-- Whether a value halfway between two units is rounded to the upper one (R191, R193), from twice the value. -/
opaque tieUp : Int → Bool

/-- Whether a field value is the upper of the two that lie within 12 mm of the distance (R196), by generation and cell. -/
opaque fieldUp : Nat → Nat → Bool

/-- Whether a quantity between two units of a register is shown as the upper one, by register address and lower unit. -/
opaque shownUp : Nat → Int → Bool

/-- Whether channel B's binary32 distance, which lies within 1/64 mm of a whole millimetre, is rounded down to the other side of it
(R197), from the exact distance in 64ths of a millimetre. -/
opaque distOther : Nat → Bool

/-- The distance of a chain without capsules (0), and of a chain before any basis is complete (1), in mm. -/
opaque unstatedDistance : Nat → Nat

/-- The MAC address an IPv4 address resolves to: what the management endpoint knows of its peers (R212). -/
opaque neighbourMac : Ip → BitVec 48

/-- The rate in ppb a follower's servo asks for, from the rate in use and the offset in ns (R226 gives no law). -/
opaque followRate : Int → Int → Int

/-- Program counter, result, store address and store data of the one instruction that a core retires under debug, by the digest before
it (R262): no command says what it retires. -/
opaque stepRetires : BitVec 64 → BitVec 64 × BitVec 64 × BitVec 64 × BitVec 64

/-- Detail (12 bytes) and payload of a self-fault's record: R311 says only that it is flagged collector fault. -/
opaque selfFaultRecord : Nat → List Byte

/-- First source and severity that the record of a round without a raise names: R325 gives none. -/
opaque noFirstSource : Nat × Nat

/-- The zone byte of a raise whose record names no zone: R327 gives none. -/
opaque noZone : Byte

/-- The state and output shown for a program function (kind 0x20): R94 gives it neither. By instance and sentence. -/
opaque programState : Nat → Nat → Fin 8
opaque programOut : Nat → Nat → BitVec 20 × Bool

/-- How long agreement takes after the later channel's last level, and the commit after agreement (R54), in ns. By sentence. -/
opaque agreeNs : Nat → Fin 501
opaque commitNs : Nat → Fin 501

/-- The evaluation time shown, in ns, for a channel that did not finish the sentence. By sentence. -/
opaque noEvalTime : Nat → BitVec 16

/-- Whether the later of two paths with equal figures gives the path code of a reaction time (R73), by instance. -/
opaque laterPath : Nat → Bool

/-- What the bytes of a configuration slot and of a firmware slot spell (R422: the encoding of an image lies outside the
manual), for bytes that come with no finding of their own. -/
opaque spelledImage : NMap Byte → Option Image
opaque spelledFw : NMap Byte → Option FwImage

/-- Whether the health test and the pair-wise test of a key generation pass (R387), by draw. -/
opaque keyTests : Nat → Bool × Bool

/-- Whether the burns of a key generation come out good (R384, R387), by draw. -/
opaque keyBurns : Nat → Bool

/-- Whether a key destruction succeeds (R389), by draw. -/
opaque destroyed : Nat → Bool

end Sys2Proof.Config
end

