-- ==== Sys2Proof/Machine/Maps.lean ====
section
/-! DEFINITION. Sparse arrays in canonical form, bit fields of words, byte lists and the CRCs: the plain operations the
rest of the machine is written with. -/

namespace Sys2Proof.Machine

/-! ### Sparse arrays -/

/-- The entry at `k`; `d` is what an unlisted index reads as. -/
def nget {α : Type} (m : NMap α) (k : Nat) (d : α) : α :=
  match m with
  | [] => d
  | (i, v) :: r => if i = k then v else nget r k d

/-- Remove index `k`. -/
def ndel {α : Type} (m : NMap α) (k : Nat) : NMap α :=
  match m with
  | [] => []
  | (i, v) :: r => if i = k then ndel r k else (i, v) :: ndel r k

/-- Put a listed entry at `k`, keeping the indices rising. -/
def nput {α : Type} (m : NMap α) (k : Nat) (v : α) : NMap α :=
  match m with
  | [] => [(k, v)]
  | (i, w) :: r => if k < i then (k, v) :: (i, w) :: r else if i = k then (k, v) :: r else (i, w) :: nput r k v

/-- Write the entry at `k`: the default value is never listed, so equal arrays are equal data. -/
def nset {α : Type} [DecidableEq α] (m : NMap α) (k : Nat) (v d : α) : NMap α :=
  if v = d then ndel m k else nput m k v

/-- Change the entry at `k`. -/
def nupd {α : Type} [DecidableEq α] (m : NMap α) (k : Nat) (d : α) (f : α → α) : NMap α :=
  nset m k (f (nget m k d)) d

/-- The indices rise strictly, and each is above `lo`. -/
def nsorted {α : Type} (m : NMap α) : Bool :=
  match m with
  | [] => true
  | [_] => true
  | (i, _) :: (j, w) :: r => decide (i < j) && nsorted ((j, w) :: r)

/-- The canonical form of an array with default `d`. -/
def nwf {α : Type} [DecidableEq α] (d : α) (m : NMap α) : Bool :=
  nsorted m && m.all fun x => decide (x.2 ≠ d)

/-- Any list of pairs in canonical form; of two pairs with one index the first counts. -/
def nnorm {α : Type} [DecidableEq α] (m : NMap α) (d : α) : NMap α :=
  m.foldr (fun x r => nset r x.1 x.2 d) []

/-- Change every listed entry; entries that become the default are dropped. -/
def nmapv {α : Type} [DecidableEq α] (m : NMap α) (d : α) (f : Nat → α → α) : NMap α :=
  match m with
  | [] => []
  | (i, v) :: r => if f i v = d then nmapv r d f else (i, f i v) :: nmapv r d f

/-! ### Folds over indices -/

/-- Apply `f` for 0, 1, … n − 1 in order. -/
def forN {σ : Type} : Nat → (Nat → σ → σ) → σ → σ
  | 0, _, s => s
  | n + 1, f, s => f n (forN n f s)

/-- Apply `f` for each member of a list in order. -/
def forL {α σ : Type} : List α → (α → σ → σ) → σ → σ
  | [], _, s => s
  | x :: r, f, s => forL r f (f x s)

/-! ### Bits and fields -/

/-- Bit `i` of a number. -/
def bit (n i : Nat) : Bool := n.testBit i

/-- Field [hi:lo] of a word, as a number. -/
def fld (w : Word) (hi lo : Nat) : Nat := w.toNat / 2 ^ lo % 2 ^ (hi + 1 - lo)

/-- The number of a Bool. -/
def b2n (b : Bool) : Nat := if b then 1 else 0

/-- A field value placed at bit `lo`, cut to `width` bits. -/
def pl (v lo width : Nat) : Nat := v % 2 ^ width * 2 ^ lo

/-- A word from the sum of its placed fields. -/
def mkw (n : Nat) : Word := BitVec.ofNat 32 n

/-- A number shown with an upper limit: elapsed-time fields saturate at their largest value (R317). -/
def sat (n width : Nat) : Nat := min n (2 ^ width - 1)

/-- Low and high 32 bits of a wide value. -/
def loW (n : Nat) : Word := BitVec.ofNat 32 n
def hiW (n : Nat) : Word := BitVec.ofNat 32 (n / 2 ^ 32)

/-- A native value's bits in a register: bits [19:0], sign-extended through bit 31 (after R29). -/
def natW (v : BitVec 20) : Word := v.signExtend 32

/-- An integer as a native word, saturating at the ends of the format. -/
def toNative (x : Int) : BitVec 20 :=
  BitVec.ofInt 20 (if x > 524287 then 524287 else if x < -524288 then -524288 else x)

/-- An integer as a 32-bit two's-complement word. -/
def intW (x : Int) : Word := BitVec.ofInt 32 x

/-- Set or clear bit `i` of a vector. -/
def setb {n : Nat} (v : BitVec n) (i : Nat) (b : Bool) : BitVec n :=
  if b then v ||| BitVec.ofNat n (2 ^ i) else v &&& ~~~ (BitVec.ofNat n (2 ^ i))

/-- Word `i` (32 bits) of a vector. -/
def wordOf {n : Nat} (v : BitVec n) (i : Nat) : Word := BitVec.ofNat 32 (v.toNat / 2 ^ (32 * i))

/-- Number of ones among the first `k` bits. -/
def popc {n : Nat} (v : BitVec n) (k : Nat) : Nat := forN k (fun i c => c + b2n (v.getLsbD i)) 0

/-- Bits of a square root, from the highest: `r` is what is found so far. -/
def isqrtGo (n : Nat) : Nat → Nat → Nat
  | 0, r => r
  | k + 1, r => if (r + 2 ^ k) * (r + 2 ^ k) ≤ n then isqrtGo n k (r + 2 ^ k) else isqrtGo n k r

/-- The whole part of a square root. -/
def isqrt (n : Nat) : Nat := isqrtGo n (Nat.log2 n / 2 + 1) 0

/-- The least v with v² × den at or above num. -/
def ceilSqrt (num den : Nat) : Nat :=
  let v := isqrt (num / den)
  if v * v * den ≥ num then v else v + 1

/-- The largest number below 2^k for which a falling condition holds; 0 where it holds for none. -/
def largestGo (f : Nat → Bool) : Nat → Nat → Nat
  | 0, r => r
  | k + 1, r => if f (r + 2 ^ k) then largestGo f k (r + 2 ^ k) else largestGo f k r

/-! ### Bytes, most significant first -/

/-- The `k` bytes of a number, most significant first. -/
def beBytes (n : Nat) : Nat → List Byte
  | 0 => []
  | k + 1 => BitVec.ofNat 8 (n / 256 ^ k) :: beBytes n k

/-- The number a byte list spells, most significant byte first. -/
def beNat (bs : List Byte) : Nat := bs.foldl (fun a b => a * 256 + b.toNat) 0

/-- `k` bytes of a list from offset `o`; missing bytes read 0. -/
def bytesAt (bs : List Byte) (o k : Nat) : List Byte :=
  match k with
  | 0 => []
  | k + 1 => bs.getD o 0 :: bytesAt bs (o + 1) k

/-- The field of `k` bytes at offset `o`. -/
def beAt (bs : List Byte) (o k : Nat) : Nat := beNat (bytesAt bs o k)

/-- A list cut or filled with zeros to exactly `n` bytes. -/
def fitBytes (bs : List Byte) (n : Nat) : List Byte := bytesAt bs 0 n

/-! ### CRCs -/

/-- One bit of a most-significant-bit-first CRC of width `w`. -/
def crcBit {w : Nat} (poly c : BitVec w) (b : Bool) : BitVec w :=
  if c.msb != b then (c <<< 1) ^^^ poly else c <<< 1

/-- One byte, most significant bit first. -/
def crcByteM {w : Nat} (poly c : BitVec w) (b : Byte) : BitVec w :=
  [7, 6, 5, 4, 3, 2, 1, 0].foldl (fun c i => crcBit poly c (b.getLsbD i)) c

/-- One byte, least significant bit first. -/
def crcByteL {w : Nat} (poly c : BitVec w) (b : Byte) : BitVec w :=
  [0, 1, 2, 3, 4, 5, 6, 7].foldl (fun c i => crcBit poly c (b.getLsbD i)) c

/-- The CRC-64 of R240: polynomial 0x42F0_E1EB_A9EA_3693, initial value 0, most significant bit first, no final XOR. -/
def crc64 (bs : List Byte) : BitVec 64 :=
  bs.foldl (crcByteM 0x42F0E1EBA9EA3693#64) 0

/-- A core's running digest after one retired instruction (R262). -/
def digestAfter (digest pc result stAddr stData : BitVec 64) : BitVec 64 :=
  (beBytes pc.toNat 8 ++ beBytes result.toNat 8 ++ beBytes stAddr.toNat 8 ++ beBytes stData.toNat 8).foldl
    (crcByteM 0x42F0E1EBA9EA3693#64) digest

/-- The CRC-32C of R237: polynomial 0x1EDC_6F41, initial value and final XOR all ones, input and output reflected. -/
def crc32c (bs : List Byte) : BitVec 32 :=
  ~~~ (bs.foldl (crcByteL 0x1EDC6F41#32) 0xFFFFFFFF#32).reverse

/-- The CRC-32 of IEEE 802.3: polynomial 0x04C1_1DB7, otherwise as `crc32c` (R284, R434). -/
def crc32 (bs : List Byte) : BitVec 32 :=
  ~~~ (bs.foldl (crcByteL 0x04C11DB7#32) 0xFFFFFFFF#32).reverse

end Sys2Proof.Machine
end

