-- ==== Sys2Proof/Machine/State.lean ====
section
/-! DEFINITION. The state of the hub as plain data: one structure per block, gathered in `Blocks`; the snapshots the
sentence publishes; the queue of waiting commands; the reasons a step can stop; and the state right after reset. Every
array is a `NMap` whose default is the reset value of its entries, so at reset every array is empty. -/

namespace Sys2Proof.Machine

/-- The one fault: raised by FIRMWARE_LOAD alone. Safe: the model stops where the manual stops describing the hub. -/
inductive Fault where
  /-- Raised by `execFirmwareLoad` when the firmware it starts has a major version other than 1: the manual says it does
  not describe that hub (R11). Safe. -/
  | outsideThisEdition
deriving DecidableEq, Repr

/-- Why a command is rejected. No command of this model is. -/
inductive Refusal where
  /-- Raised by an arm of `exec` for a command that has no meaning yet. Safe. -/
  | notModelled (mnemonic : String)
deriving DecidableEq, Repr

/-- Life-cycle states (R369). -/
inductive LifeCycle where
  | blank | manufacture | provisioned | deployed | returned
deriving DecidableEq, Repr

/-- Where the hub stands between power and running (R399, R409, R411 to R417). -/
inductive Phase where
  | powerOnReset | resetHeld | released | fiddled | firmwareUp | stopped | running
deriving DecidableEq, Repr

/-! ### Page tokens, staging, freeze, expert unlock (R36 to R49) -/

/-- What a page keeps for one reader (R39). -/
structure Token where
  token : BitVec 16 := 0
  kept : Nat := 0
  last : Nat := 0
  repeated : Bool := false
  settles : Bool := false
deriving DecidableEq, Repr

/-- One staging set (R42, R60, R61). `issued` is the ruler-A instant at which its commit was executed, `committer` the reader
that committed it and `token` that command's token. -/
structure Staging where
  writes : List (Nat × Word) := []
  token : BitVec 16 := 0
  committer : Nat := 0
  pending : Bool := false
  issued : Nat := 0
  overridden : Bool := false
  applied : Nat := 0
deriving DecidableEq, Repr

/-- One reader's freeze (R46). -/
structure Freeze where
  frozen : Bool := false
  since : Nat := 0
  expired : Bool := false
deriving DecidableEq, Repr

/-- One reader's expert unlock (R47). `nonce` is which draw of the entropy source its nonce is, `none` for the one drawn
for it at the last reset. -/
structure Expert where
  nonce : Option Nat := none
  proof : NMap Word := []
  failures : Nat := 0
  blockedSince : Option Nat := none
  unlocked : Bool := false
  lastWrite : Nat := 0
deriving DecidableEq, Repr

/-- The SYS block (R48), everything held per reader of the register pages, and the sentence under way. `doomed` says that it
can only be abandoned, without sources 0 and 1: a FAB block reset or a load meets it (R306, R430); `period` is the T_S in force
at its capture (R50); `intjIndex` is the interjection written into its snapshot (R68). -/
structure Sys where
  tokens : NMap Token := []
  faultCounts : NMap Ctr := []
  staging : NMap Staging := []
  freezes : NMap Freeze := []
  experts : NMap Expert := []
  nonceBase : Nat := 0
  sent : Nat := 0
  lastCapture : Nat := 0
  period : Nat := 0
  captured : Bool := false
  evaluating : Bool := false
  doomed : Bool := false
  evalA : Option Nat := none
  evalB : Option Nat := none
  abandonedLast : Bool := false
  lastPublish : Nat := 0
  lateSeen : Bool := false
  nextNumber : Nat := 1
  intjIndex : Option (Nat × Nat) := none
deriving DecidableEq, Repr

/-! ### TRU (R22 to R31) -/

/-- The rulers and operating time. `rulerB` is ruler B's count as read at the last capture; `window` holds the captures that the
rate difference is taken over; `xbCut` is when an injection last suppressed XB's edges; `opRuns` says that operating time
counts from ruler A's instant `opOrigin`. -/
structure Tru where
  aRunning : Bool := false
  bRunning : Bool := false
  rulerB : Nat := 0
  aOrigin : Nat := 0
  diffSent : Int := 0
  window : List (Nat × Nat × Int) := []
  diffRate : Int := 0
  diffPeak : Nat := 0
  trim : Int := 0
  xaEdges : Bool := false
  xbEdges : Bool := false
  xbCut : Option Nat := none
  opRuns : Bool := false
  opBase : Nat := 0
  opOrigin : Nat := 0
  baseValid : Bool := false
  opHi : NMap Word := []
  cellSecLo : NMap Word := []
  cellSecHi : NMap Word := []
  injectKind : BitVec 2 := 0
  injectOff : BitVec 20 := 0
deriving DecidableEq, Repr

/-! ### FAB (R76 to R118) -/

/-- The state a stateful clause keeps from one sentence to the next (R88 to R90), in true sense in both channels; the
default is every operator's start state. `on` is the last output (LATCH: its stored bit), `prev` the last set operand or
EDGE input, `running` with `n0` a timer under way or a RAMP that is armed, `x0` and `tripped` RAMP's captured value and its
output fallen to 0. -/
structure ClauseSt where
  on : Bool := false
  prev : NV := {}
  running : Bool := false
  n0 : Nat := 0
  x0 : Int := 0
  tripped : Bool := false
deriving DecidableEq, Repr

/-- The state a function object keeps (R95 to R106); the default is the start state of every kind (R98). `state` is the code
of R96; `evaluated` says that a sentence has shown the start state, `left` that the object has left it. `t1` and `t2` are the
sentences in which what the kind times began; `zero` says both switches or buttons were 0 together since the last permit,
`permitted` that a permit was given since the start, `met` that the restart condition holds, `armed` that the enabling device
or a new muting is armed, `muted` and `pair2` follow a muting, `blocked` waits after source 116, `mark` follows a run of
sentences that has already raised, `presses` counts the sentences of a press, `live` is the object's part of source 112 or
117, `event` the event source this sentence raised (0 none), `clears` the clears of source 113 at the lock-out. -/
structure FnSt where
  state : Nat := 1
  out : NV := { val := 0, ok := true }
  evaluated : Bool := false
  left : Bool := false
  t1 : Option Nat := none
  t2 : Option Nat := none
  zero : Bool := false
  permitted : Bool := false
  met : Bool := false
  armed : Bool := false
  muted : Bool := false
  pair2 : Bool := false
  blocked : Bool := false
  mark : Bool := false
  presses : Nat := 0
  live : Bool := false
  event : Nat := 0
  clears : Nat := 0
deriving DecidableEq, Repr

/-- One channel's fabric: its clause outputs, clause and object state, and measurements. Channel B holds every
value and valid bit complemented (R79, R92). The captured inputs are `State.cap`'s, one value for both channels (R79). -/
structure FabCh where
  values : NMap NV := []
  clauseSt : NMap ClauseSt := []
  clauseNew : NMap ClauseSt := []
  fnSt : NMap FnSt := []
  fnNew : NMap FnSt := []
  evalLast : Option Nat := none
  evalMax : Nat := 0
  evalMaxSent : Nat := 0
  acts : Ctr := {}
  laneLost : BitVec 64 := 0
  injectKind : BitVec 2 := 0
  injectIndex : Nat := 0
deriving DecidableEq, Repr

/-- Both channels' fabrics; the lanes and objects that return to their start states at the next capture (R114, R348). -/
structure Fab where
  a : FabCh := {}
  b : FabCh := {}
  resetLanes : BitVec 64 := 0
  resetFns : List Nat := []
deriving DecidableEq, Repr

/-! ### LIO and TPG (R119 to R148) -/

/-- One terminal. `raw` is its last normalised sample, `before` the last one outside its own mask window (R121); `zeroRun`
counts 0 samples for blanking, `run` the samples that differ from the filter output `out`. `pre`, `any0`, `run0` and `two0`
follow the mask window under way (R130): the sample before it, a 0 seen, the present run of 0, two 0 together seen.
`missing` and `foreign` count verdicts, `foreignNow` and `badNow` say that one fell in this period, `good` counts periods
without; `tpf` holds the sources that keep the terminal in test-pulse fault, `tpfLive` those whose cause lasts (R131);
`tracking` says that the window under way was followed from its start, `ownSeen` that a whole own window has been (R140). -/
structure Term where
  raw : Bool := false
  before : Bool := false
  zeroRun : Nat := 0
  run : Nat := 0
  out : Bool := false
  pre : Bool := false
  any0 : Bool := false
  run0 : Nat := 0
  two0 : Bool := false
  missing : Nat := 0
  foreign : Nat := 0
  foreignNow : Bool := false
  badNow : Bool := false
  good : Nat := 0
  tpf : List Nat := []
  tpfLive : List Nat := []
  tracking : Bool := false
  ownSeen : Bool := false
deriving DecidableEq, Repr

/-- One input lichen (R123, R124, R126). `discA` and `discB` are the channels' discrepancy counts, `prevA` and `prevB` what
they were before the last sample; `sig` and `sigB` are the signal as formed in each channel; `zeroSince` says that it was 0 at a
sample since the last capture (R52). -/
structure Lichen where
  a : Term := {}
  b : Term := {}
  discA : Nat := 0
  discB : Nat := 0
  prevA : Nat := 0
  prevB : Nat := 0
  lock : Bool := false
  fresh : Bool := true
  sig : Bool := false
  sigB : Bool := false
  zeroSince : Bool := true
  bad : Ctr := {}
deriving DecidableEq, Repr

structure Lio where
  lichens : NMap Lichen := []
  pinsA : BitVec 48 := 0
  pinsB : BitVec 48 := 0
  missed : Bool := false
  captured : BitVec 48 := 0
deriving DecidableEq, Repr

/-- The test-pulse generator: the levels it drives, the mask window under way, when the schedule's periods count from, when the
pulse under way began, the pins read back, TPOs that differed at the last sample, TPG_FAULT, and the last instant a TPO of each
group differed (R127, R132). -/
structure Tpg where
  on : BitVec 16 := 0
  window : Option Nat := none
  periodAt : Option Nat := none
  pulseAt : Nat := 0
  pins : BitVec 16 := 0
  differs : BitVec 16 := 0
  fault : BitVec 16 := 0
  lastBadA : Nat := 0
  lastBadB : Nat := 0
deriving DecidableEq, Repr

/-! ### SOG and STO (R133 to R150) -/

/-- An output's dark tests (R135, R140): the switch under test and since when, when its readback was first seen at 0, whose
turn is next, consecutive failures, when each switch's last dark pulse ended, and when 1 was first committed. -/
structure Dark where
  active : Option Ch := none
  start : Nat := 0
  seenZero : Option Nat := none
  next : Ch := .a
  missA : Nat := 0
  missB : Nat := 0
  endA : Option Nat := none
  endB : Option Nat := none
  firstOne : Option Nat := none
deriving DecidableEq, Repr

/-- One channel of an output stage (R66, R134, R137): interjection holds and their triggers' instants, the readback after
polarity, since when it differs from what is expected, the differences beyond the time limit, samples in a row at which the
internal pin readback differs or agrees, and the internal differences in force. -/
structure Stage where
  hold : BitVec 16 := 0
  holdAt : NMap Nat := []
  rb : BitVec 16 := 0
  diffAt : NMap (Option Nat) := []
  diff : BitVec 16 := 0
  pinDiffRun : NMap Nat := []
  pinAgreeRun : NMap Nat := []
  pinDiff : BitVec 16 := 0
deriving DecidableEq, Repr

/-- The output lichens or the STO lichens (R133, R136). `lockBy` says which outputs each source has locked, `unlocking`
those whose source is cleared and that wait for a committed 0, `lockDue` locks that take effect at the next round close;
`faultHold` is the hold of Stop and Halt (R302, R303); dark periods count from `gridAt`. -/
structure OutBlock where
  committed : BitVec 16 := 0
  a : Stage := {}
  b : Stage := {}
  lockBy : NMap (BitVec 16) := []
  unlocking : BitVec 16 := 0
  lockDue : List (Nat × Nat) := []
  dark : NMap Dark := []
  faultHold : BitVec 16 := 0
  gridAt : Nat := 0
deriving DecidableEq, Repr

/-! ### MEA and AXS (R151 to R184) -/

/-- One encoder of channel B (R152 to R155): the last words, the quadrant counter with its comparators' quadrant, when it
last moved, the 48-bit count, runs of bad vectors and of opposite quadrants, the last vector length and the smallest, the
history of samples (ruler B instant, count; newest first), the sources that make it invalid, and its offset. -/
structure Encoder where
  sin : BitVec 20 := 0
  cos : BitVec 20 := 0
  quads : BitVec 38 := 0
  count : Int := 0
  len : Nat := 0
  lenMin : Nat := 0xFFF
  vecRun : Nat := 0
  oppRun : Nat := 0
  history : List (Nat × Int) := []
  lastEdge : Option Nat := none
  failedBy : List Nat := []
  off : Option Int := none
deriving DecidableEq, Repr

/-- One analogue lichen (R166, R167): each channel's last word and window (newest first), since when the values differ, the
sources that make it invalid, its event counter. -/
structure Analogue where
  rawA : BitVec 20 := 0
  rawB : BitVec 20 := 0
  winA : List Int := []
  winB : List Int := []
  diffAt : Option Nat := none
  failed : List Nat := []
  events : Ctr := {}
deriving DecidableEq, Repr

structure Mea where
  enc : NMap Encoder := []
  ain : NMap Analogue := []
deriving DecidableEq, Repr

/-- A drive record (R156) with its sampling instant on each ruler and the epoch of its stamp. -/
structure DriveRec where
  count : Int
  atA : Int
  atB : Int
  valid : Bool
  epoch : Nat
deriving DecidableEq, Repr

/-- One axis (R155 to R179). `pa`, `pb`, `va`, `vb` are the sources at the last periodic update and `lastB` the encoder
sample it used; `compared` says that the newest record has been compared, with the result `same`, and `badRaised` that it is
invalid and has raised source 345; `xdiff` is the last difference; `fails` the failure
count and `failed` the sources whose latch makes the words invalid; `runs` the agreed updates in a row. `phase` is R172's,
`started` says that the first-use permits were given; `n0`, `v0`, `holdLo`, `holdHi`, `env` and `stopFn` follow the stop
under way. `missA` and `missB` are values not delivered to the update under way. Axis words are true-sense native values,
keyed by word number. -/
structure Axis where
  recNew : Option DriveRec := none
  recOld : Option DriveRec := none
  compared : Bool := false
  same : Bool := false
  badRaised : Bool := false
  pa : Option Int := none
  pb : Option Int := none
  va : Option Int := none
  vb : Option Int := none
  lastB : Option (Nat × Int) := none
  words : NMap NV := []
  fails : Nat := 0
  failed : List Nat := []
  agreed : Bool := false
  runs : Nat := 0
  known : Bool := false
  refd : Bool := false
  xdiff : Int := 0
  phase : Nat := 7
  started : Bool := false
  torque : Bool := false
  run : Bool := false
  cause : Nat := 0
  stopFn : Option Nat := none
  n0 : Nat := 0
  v0 : Int := 0
  env : Int := 0
  holdLo : Int := 0
  holdHi : Int := 0
  missA : Bool := false
  missB : Bool := false
  cnt : Ctr := {}
deriving DecidableEq, Repr

/-- The state of a safe-motion or separation instance (kinds 0x10 to 0x18): its state code, its inputs at the last demand
update, whether it monitors, SLS's allowed speed in hundredths, held or reference positions, and in lock-out whether its
source was cleared and its acknowledge seen since. -/
structure AxFn where
  state : Nat := 1
  active : Bool := false
  aPrev : Int := 0
  lo : Int := 0
  hi : Int := 0
  cleared : Bool := false
  acked : Bool := false
  release : Bool := false
  ack : Bool := false
  limit : NV := {}
deriving DecidableEq, Repr

structure Axs where
  axes : NMap Axis := []
  fns : NMap AxFn := []
  xdiffPeak : Nat := 0
deriving DecidableEq, Repr

/-! ### SEP and KIN (R185 to R210) -/

/-- A sensor (R186 to R188): each channel's receive and current stores (A coarse cells, B fine indices), what its newest
accepted frame said, and that frame's acceptance instant on ruler A. -/
structure Sensor where
  recvA : List Nat := []
  recvB : List Nat := []
  curA : List Nat := []
  curB : List Nat := []
  selfOk : Bool := false
  contam : Bool := false
  points : Nat := 0
  accepted : Option Nat := none
  refused : Ctr := {}
deriving DecidableEq, Repr

/-- A basis (R189, R190): its generation, the sensors it used, their occupied coarse cells as each channel composed them by
steps 1 to 3, and the newest acceptance instant in it. -/
structure Basis where
  gen : Nat := 0
  sensors : List Nat := []
  cellsA : List Nat := []
  cellsB : List Nat := []
  newest : Option Nat := none
deriving DecidableEq, Repr

/-- One chain's results (R191 to R205): its capsules' endpoints in each channel (A in micrometres, B in mm times 2^149),
agreed updates in a row, speeds in each channel, its words keyed by number, the state of its kind 0x18 instance, and whether
source 372 is latched for it. -/
structure ChainSt where
  endsA : List (Int × Int × Int) := []
  endsB : List (Int × Int × Int) := []
  runs : Nat := 0
  ready : Bool := false
  speedA : Int := 0
  speedB : Int := 0
  state : Nat := 1
  words : NMap NV := []
  outside : Bool := false
  endFault : Bool := false
  diffPeak : Nat := 0
deriving DecidableEq, Repr

/-- A separation update in progress (R202): its sentence and start, the basis, the captured source positions and agreed
axes, which channels are done or late, and the chains whose distances were not delivered. -/
structure SepUpdate where
  sentence : Nat
  start : Nat
  basis : Option Basis
  posA : NMap Int
  posB : NMap Int
  agreedAxes : List Nat
  doneA : Bool := false
  doneB : Bool := false
  lateA : Bool := false
  lateB : Bool := false
  missA : List Nat := []
  missB : List Nat := []
deriving DecidableEq, Repr

/-- The separation engine. `redo` is the update last completed and the chains before it, while its exchange may still be reported as
missed (R199). -/
structure Sep where
  sensors : NMap Sensor := []
  gen : Nat := 0
  building : Option Basis := none
  buildStart : Nat := 0
  builtA : Bool := true
  builtB : Bool := true
  fresh : Bool := false
  inUse : Option Basis := none
  update : Option SepUpdate := none
  redo : Option (SepUpdate × NMap ChainSt) := none
  chains : NMap ChainSt := []
  overflow : Bool := false
  genUsed : Nat := 0
  occ : Nat := 0
  rebuildA : Nat := 0
  rebuildB : Nat := 0
  rebuildMaxA : Nat := 0
  rebuildMaxB : Nat := 0
  workA : Nat := 0
  workB : Nat := 0
  workMaxA : Nat := 0
  workMaxB : Nat := 0
  kinDiff : Nat := 0
  kinPeak : Nat := 0
deriving DecidableEq, Repr

/-! ### NET, PORT, TSY (R211 to R234) -/

/-- A port (R211 to R217, R220). `gclSince` is the cell time from which the next cycle start (re)starts its list; `heard` is the
newest Announce taken on it; `queued` holds the frames that wait for their gate, oldest first, with their class. -/
structure PortSt where
  up : Bool := false
  rateNow : Nat := 0
  fecOn : Bool := false
  asCapable : Bool := false
  pdelay : Int := 0
  rx : Ctr := {}
  tx : Ctr := {}
  rxErr : Ctr := {}
  qdrop : NMap Ctr := []
  gclRunning : Bool := false
  gclEntry : Nat := 0
  gclHold : Bool := false
  gclSince : Nat := 0
  heard : Option Announce := none
  queued : List (Nat × EthFrame) := []
deriving DecidableEq, Repr

/-- A learned filtering entry (R213): VLAN, address, port, and when it was learned or refreshed. -/
structure FdbEntry where
  vlan : Nat
  mac : BitVec 48
  port : Nat
  at_ : Nat
deriving DecidableEq, Repr

/-- One 802.1CB stream's generation and recovery state (R219). -/
structure CbSt where
  genSeq : Nat := 0
  taken : Bool := false
  recovSeq : Nat := 0
  history : List Bool := []
  lastAt : Nat := 0
  memberAt : NMap Nat := []
  passed : Ctr := {}
  disc : Ctr := {}
  rogue : Ctr := {}
deriving DecidableEq, Repr

/-- A flow meter's buckets (R218), in units of 10^-9 bit, and when they were filled. -/
structure MeterSt where
  committed : Option Nat := none
  excess : Option Nat := none
  at_ : Nat := 0
deriving DecidableEq, Repr

/-- A stream gate's list (R218). -/
structure GateSt where
  running : Bool := false
  entry : Nat := 0
  hold : Bool := false
  since : Nat := 0
deriving DecidableEq, Repr

/-- The switch (R213 to R219). `sentOut` is the model's own record of every frame that left a port, newest first; port 6
stands for delivery to the hub's own users. -/
structure Net where
  ports : NMap PortSt := []
  fdb : List FdbEntry := []
  bufPeak : Nat := 0
  drop : Ctr := {}
  stomp : Ctr := {}
  qci : NMap Ctr := []
  qciBlocked : List Nat := []
  qciSeen : Bool := false
  cb : NMap CbSt := []
  gates : NMap GateSt := []
  meters : NMap MeterSt := []
  cutThrough : Bool := false
  sentOut : List (Nat × EthFrame) := []
deriving DecidableEq, Repr

/-- Cell time and 802.1AS (R220 to R228). `cellFine` is cell time in units of 10^-9 ns at ruler-A instant `cellAt`;
`cellAtCapture`, `rCapture`, `tcA` and `tcB` are the mapping of the last capture; `adjLeft` is the slew left in 10^-9 ns;
`stepDue` the newest offset that calls for a step, `startDue` a start at the floor at the next capture. -/
structure Tsy where
  cellValid : Bool := false
  cellFine : Nat := 0
  cellAt : Nat := 0
  mapped : Bool := false
  cellAtCapture : Nat := 0
  rCapture : Int := 0
  tcA : Nat := 0
  tcB : Nat := 0
  trim : Int := 0
  adjLeft : Int := 0
  floorStart : Bool := false
  floorCell : Nat := 0
  tInitGone : Bool := false
  locked : Bool := false
  good : Nat := 0
  everLocked : Bool := false
  lastSync : Nat := 0
  holdover : Option Nat := none
  stepDue : Option Int := none
  startDue : Bool := false
  offset : Int := 0
  epoch : Nat := 0
  stepTc : Nat := 0
  stepSize : Int := 0
  stepCell : Nat := 0
  gm : BitVec 64 := 0
  best : Option Announce := none
  bestPort : Nat := 0
  announcesIgnored : Ctr := {}
deriving DecidableEq, Repr

/-! ### SFR (R235 to R257) -/

/-- A consumer session (R244 to R249). `state` is 1 set-up, 2 open, 3 re-timing; `acceptedA` and `acceptedB` the acceptance
instant of the held payload on each ruler, `echoA` and `echoB` the send instant of the newest echoed partner counter; `why`
the sources of R246 it keeps live, `late` its part of source 427. Age and round trip are those of the last capture, in
microseconds. -/
structure Cons where
  state : Nat := 1
  setupAt : Nat := 0
  aliveLast : Nat := 0
  held : Option (List Byte) := none
  acceptedA : Nat := 0
  acceptedB : Nat := 0
  stamp : Nat := 0
  stampEpoch : Nat := 0
  echo : Option Nat := none
  echoA : Nat := 0
  echoB : Nat := 0
  retimed : Nat := 0
  valid : Bool := false
  ageOk : Bool := false
  wdOk : Bool := false
  rtOk : Bool := false
  age : Option Nat := none
  rt : Option Nat := none
  why : List Nat := []
  late : Bool := false
  dup : Ctr := {}
  crc : Ctr := {}
  lost : Ctr := {}
  refused : Ctr := {}
deriving DecidableEq, Repr

/-- A counter a producer session sent, with its send instant on each ruler. -/
structure SentFrame where
  alive : Nat
  atA : Nat
  atB : Nat
deriving DecidableEq, Repr

/-- One channel's part of a producer session (R252, R254): the payload in true sense, and the instants since which interjections
hold its fields. -/
structure ProdSide where
  payload : List Byte := []
  holds : NMap (Option Nat) := []
deriving DecidableEq, Repr

/-- A producer session (R248, R252 to R254): the next alive counter, the one last sent, when each counter was last sent (newest
first), frames since its start, both channels' parts, and whether its extra frame of this sentence has gone. -/
structure Prod where
  alive : BitVec 16 := 0
  lastSent : Nat := 0
  sent : List SentFrame := []
  frames : Nat := 0
  a : ProdSide := {}
  b : ProdSide := {}
  extraSent : Bool := false
deriving DecidableEq, Repr

/-- A bulk assembly in one channel (R241). -/
structure Assembly where
  alive : Nat
  stamp : Nat
  flags : Byte
  echo : Nat
  total : Nat
  count : Nat
  parts : NMap (List Byte)
deriving DecidableEq, Repr

/-- `asmRefused` holds alive counter and stamp of the last bulk frame of a session that was refused as a whole before all its segments
had come (R241). -/
structure Sfr where
  cons : NMap Cons := []
  prod : NMap Prod := []
  asmA : NMap (Option Assembly) := []
  asmB : NMap (Option Assembly) := []
  asmRefused : NMap (Option (Nat × Nat)) := []
  unknown : Ctr := {}
deriving DecidableEq, Repr

/-! ### AGR, CPR, CVU (R258 to R295) -/

/-- A core of a pair: retirement count, digest, checkpoint queue (oldest first, with the instant of each push), the registers debug
reaches by their abstract numbers (integer, floating-point, PMP, status and trigger registers among them), whether debug holds it, the
values last delivered to it and to debug, cache errors recovered (R258, R262, R263, R277). -/
structure Core where
  retired : BitVec 48 := 0
  digest : BitVec 64 := 0
  queue : List (Nat × Entry) := []
  regs : NMap (BitVec 64) := []
  halted : Bool := false
  input : BitVec 64 := 0
  debugData : BitVec 64 := 0
  cacheErr : Ctr := {}
deriving DecidableEq, Repr

/-- A pair (R260 to R283). `state` is CPR_STATUS.state: 0 reset, 1 running, 2 blocked, 3 split, 4 no program. `memA` and
`memB` are the channels' copies of its region in true sense, by offset; `cfw` its core-fed words as last released; `received`
its receive ring, newest first (the manual gives it no place in the region); `rdselNext` the window selections written, `rdsel` those of
the last publish; `asked` says that a comparison spore asks for alignment, `aligned` that it is reached; `blocked` holds R266's block
through a split; `tx` is CPR_TX; `progBuf` the debug module's program buffer (R277), which no command writes. -/
structure Pair where
  state : Nat := 0
  a : Core := {}
  b : Core := {}
  lagPeakN : Nat := 0
  lagPeakUs : Nat := 0
  asked : Bool := false
  aligned : Bool := false
  blocked : Bool := false
  tx : Word := 0
  progBuf : NMap Word := []
  aliveAt : Nat := 0
  aliveExp : Bool := false
  memA : NMap Byte := []
  memB : NMap Byte := []
  cfw : NMap NV := []
  mtimecmp : BitVec 64 := 0xFFFFFFFFFFFFFFFF
  mtip : Bool := false
  evtEn : BitVec 4 := 0
  evtPend : BitVec 4 := 0
  irqEn : NMap Word := []
  nmi : Bool := false
  rdsel : NMap Nat := []
  rdselNext : NMap Nat := []
  received : List (List Byte) := []
deriving DecidableEq, Repr

/-- The agreement unit (R271 to R274, R281). -/
structure Agr where
  pairs : NMap Pair := []
  split : BitVec 4 := 0
  startFlagged : Nat := 0
  startEqual : Bool := false
  startDone : Bool := false
  injPass : Ctr := {}
  mismatchSent : Nat := 0
  mismatchWord : Word := 0
  memPass : Ctr := {}
  memAddr : Word := 0
  injectPair : Nat := 0
  injectKind : Nat := 0
  sentOk : Bool := false
deriving DecidableEq, Repr

/-- A check-value unit (R284 to R295): `heldLo` is a low half written under CRC-64, `refused` its part of source 483;
`stateHi` and `resultHi` are the upper halves latched per reader. -/
structure Cvu where
  poly : Nat := 0
  lsbFirst : Bool := false
  state : BitVec 64 := 0
  heldLo : Option Word := none
  count : Nat := 0
  armed : Bool := false
  maxSkip : Nat := 3
  last : Nat := 0
  dup : Ctr := {}
  skip : Ctr := {}
  failed : Bool := false
  refused : Bool := false
  stateHi : NMap Word := []
  resultHi : NMap Word := []
deriving DecidableEq, Repr

/-! ### FCL (R296 to R320) -/

/-- An arrival at the collector (R308): a raise or a fall, with what its record names. -/
structure Arrival where
  id : Nat
  up : Bool
  detail : Word := 0
  zone : Option Nat := none
  unit : Nat := 0
  blocks : Option Block := none
deriving DecidableEq, Repr

/-- One collector tree: the whole state of all 512 sources (R296, R309, R312). -/
structure Tree where
  live : BitVec 512 := 0
  latch : BitVec 512 := 0
  cnt : NMap Ctr := []
  first : Option (Nat × Nat) := none
  firstTime : Nat := 0
  firstSent : Nat := 0
  cofirst : BitVec 512 := 0
  detail : NMap Word := []
  raisedAt : NMap Nat := []
  zones : NMap (BitVec 32) := []
deriving DecidableEq, Repr

/-- A clear command waiting for the next round close (R314). -/
structure Clear where
  reader : Nat
  page : Nat
  whole : Bool
  source : Nat
  all : Bool
  token : BitVec 16
deriving DecidableEq, Repr

/-- The fault collector. `cause` holds the condition sources whose cause lasts, `arrivals` the round under way; `recorded`,
`leftOut` and `seen` follow R310; `clearCount` counts the clears of each source; `rearm` is the state code of FCL_REARM,
`rearmPassed` waits for the capture that ends Halt; `zoneReady` holds, one more than the instant, since when conditions 1 and
2 of R304 are met; `healthy` says that a publish found no signalling latch since power-up (R316). -/
structure Fcl where
  a : Tree := {}
  b : Tree := {}
  cause : BitVec 512 := 0
  arrivals : List Arrival := []
  roundOpen : Bool := false
  clears : List Clear := []
  recorded : NMap (List Nat) := []
  clearCount : NMap Nat := []
  leftOut : NMap Nat := []
  seen : BitVec 512 := 0
  suppressed : Ctr := {}
  selfCode : Nat := 0
  corrected : Ctr := {}
  chipResetTaken : Bool := false
  chipResetSource : Nat := 0
  chipResetDue : Option Nat := none
  halt : Bool := false
  rearm : Nat := 0
  rearmAt : Nat := 0
  rearmUs : Nat := 0
  rearmPassed : Bool := false
  zoneStop : BitVec 32 := 0
  zoneReady : NMap Nat := []
  signalling : Bool := true
  healthy : Bool := false
  driveA : Bool := false
  driveB : Bool := false
  errRunA : Nat := 0
  errRunB : Nat := 0
  rbA : Bool := false
  rbB : Bool := false
  collecting : Bool := false
deriving DecidableEq, Repr

/-! ### REC (R321 to R340) -/

/-- A record (R323): its header fields, payload bytes and footer. -/
structure Record where
  payloadKind : Nat := 0
  seq : Nat := 0
  opTime : Nat := 0
  flags : Byte := 0
  powerCycles : Nat := 0
  cellSec : Nat := 0
  cellNs : Nat := 0
  sentence : Nat := 0
  trigger : Nat := 0
  profile : Nat := 0xFF
  lost : Nat := 0
  words : Nat := 0
  epoch : Nat := 0
  lc : Nat := 0
  generation : Nat := 0
  fwMajor : Nat := 0
  fwMinor : Nat := 0
  detail : List Byte := []
  payload : List Byte := []
  slot : Nat := 0
  crc : BitVec 64 := 0
  prevCrc : BitVec 64 := 0
  listDigest : Word := 0
deriving DecidableEq, Repr

/-- A NAND record slot: the record as stored, and whether its valid mark stands (R329). -/
structure NandSlot where
  record : Record
  marked : Bool
deriving DecidableEq, Repr

/-- One reader's window (R333). `slot` is where the words are read from in NAND, `reading` whether the read is still under
way. -/
structure Window where
  seq : Nat := 0
  state : Nat := 0
  checkFailed : Bool := false
  fromRing : Bool := false
  slot : Option Nat := none
  reading : Bool := false
  data : List Byte := []
deriving DecidableEq, Repr

/-- One reader's export (R337). State code as REC_EXP_STATE. -/
structure Export where
  first : Nat := 0
  count : Nat := 0
  nonce : NMap Word := []
  state : Nat := 0
  header : List Byte := []
  hash : BitVec 256 := 0
  sig : BitVec 512 := 0
  seqs : List Nat := []
deriving DecidableEq, Repr

/-- The recorder. `buffer` holds the records not yet written, oldest first; `ring` the volatile ring, newest first;
`nand` the record slots that hold data; `nextSlot` the next slot of the rolling ring; `nextPinned` the next pinned slot;
`lostNow` the records lost since the last one made; `lastCrc` the check of the record with number `lastSeq`. -/
structure Recorder where
  seq : Nat := 0
  powerCycles : Nat := 0
  buffer : List Record := []
  bufPeak : Nat := 0
  lostNow : Nat := 0
  lost : Ctr := {}
  nand : NMap (Option NandSlot) := []
  nextSlot : Nat := 0
  nextPinned : Nat := 0
  erases : NMap Nat := []
  retired : List Nat := []
  failsInRow : Nat := 0
  isVolatile : Bool := false
  ring : List Record := []
  clearedBelow : Nat := 0
  clearErasing : Bool := false
  headFound : Bool := false
  stuck : Bool := false
  recording : Bool := false
  accepting : Bool := true
  flushing : Nat := 0
  windows : NMap Window := []
  exports : NMap Export := []
  sig : NMap Word := []
  lastCrc : BitVec 64 := 0
  lastSeq : Nat := 0
deriving DecidableEq, Repr

/-! ### BST (R341 to R356) -/

/-- A running spore: its index and the steps completed. -/
structure Running where
  index : Nat
  start : Nat
  steps : Nat := 0
  forced : Bool := false
deriving DecidableEq, Repr

/-- One spore sequencer. `next` is the place of its next spore in its share, `deferred` holds the places of spores moved to
the pass's end, `waitSent` the sentence in which Halt aborted a spore. -/
structure Seqr where
  next : Nat := 0
  deferred : List Nat := []
  done : Nat := 0
  running : Option Running := none
  usedNs : Nat := 0
  usedSent : Nat := 0
  lastStart : Option Nat := none
  waitSent : Option Nat := none
  abortRun : Nat := 0
  passes : Ctr := {}
  aborts : Ctr := {}
  lost : Ctr := {}
  lastPassMs : Nat := 0
  shareDone : Bool := false
  suspend : Bool := false
  force : Bool := false
  forceIndex : Nat := 0
  failKind : Nat := 0
  failIndex : Nat := 0
  failSig : BitVec 64 := 0
  failCount : Nat := 0
deriving DecidableEq, Repr

/-- Both sequencers: whether a pass has completed since the start, when this one began, how long the last one took (ns), and
the comparator spores passed in this pass. -/
structure Bst where
  a : Seqr := {}
  b : Seqr := {}
  firstDone : Bool := false
  passStart : Nat := 0
  lastPass : Nat := 0
  injSpores : Nat := 0
deriving DecidableEq, Repr

/-! ### OTP, LCS, KEY (R357 to R397) -/

/-- A word's antifuses as read at each margin (R357, R365). -/
structure OtpWord where
  normal : BitVec 72 := 0
  strict : BitVec 72 := 0
deriving DecidableEq, Repr

/-- The value in use of a word, fixed at start (R365). -/
structure OtpUse where
  value : BitVec 64 := 0
  marginal : Bool := false
  corrected : Bool := false
  isBlank : Bool := true
deriving DecidableEq, Repr

/-- A shadow slot (R378). -/
structure Shadow where
  addr : Word := 0
  lo : Word := 0
  hi : Word := 0
deriving DecidableEq, Repr

/-- What OTP_RD last read for one reader (R366, R374). -/
structure OtpReadSt where
  addr : Nat := 0
  value : BitVec 64 := 0
  info : Word := 0
deriving DecidableEq, Repr

/-- A session the sequencer runs (R362, R370, R376): op, the region or row, the first physical word, the data words to burn,
the reader and token of the command to settle. -/
structure Session where
  op : Nat
  target : Nat
  first : Nat
  data : List (BitVec 64)
  readLock : Bool := false
  reader : Nat
  token : BitVec 16
deriving DecidableEq, Repr

/-- The OTP block. `words` (physical) and `rhizoid` are antifuses, `rows` the rows of region 11 at each margin; `used` (logical)
and `rowsUsed` the values in use since the start, `latched` and `marg` the rhizoid lines; `counters` lists the burned steps, `cntMarg` those
burned at one margin alone,
`gaps` the counters whose gap has been raised; `failedWords` the physical words whose burn failed; `waiting` the commands that
wait for the session under way (R379). -/
structure Otp where
  words : NMap OtpWord := []
  used : NMap OtpUse := []
  rhizoid : NMap (BitVec 3 × BitVec 3) := []
  latched : BitVec 96 := 0
  marg : BitVec 96 := 0
  invalid : List Nat := []
  torn : List Nat := []
  counters : NMap (List Nat) := []
  cntMarg : NMap (List Nat) := []
  gaps : List Nat := []
  rows : NMap Word := []
  rowsStrict : NMap Word := []
  rowsUsed : NMap Word := []
  waiting : List Instr := []
  shadows : NMap Shadow := []
  session : Option Session := none
  failedWords : List Nat := []
  progAddr : Nat := 0
  progLo : Word := 0
  progHi : Word := 0
  result : Word := 0
  vpp : Word := 0
  reads : NMap OtpReadSt := []
deriving DecidableEq, Repr

/-- The life cycle: the transition in progress with the R386 step it stands at, and the command to settle; whether scan is
open, or opens after the next fiddlehead; debug unlock accepted and enabled; refusals in a row and blocks by port; the owner
signature; the last wipe. -/
structure Lcs where
  op : Option Nat := none
  step : Nat := 0
  reader : Nat := 0
  token : BitVec 16 := 0
  scanDue : Bool := false
  scanOpen : Bool := false
  unlocked : Bool := false
  debugOpen : Bool := false
  refusals : NMap Nat := []
  blocked : NMap (Option Nat) := []
  sig : NMap Word := []
  wipeOk : Bool := false
  wipeUs : Nat := 0
  debugDue : Bool := false
deriving DecidableEq, Repr

/-- One reader's attestation (R388). -/
structure Attest where
  nonce : NMap Word := []
  running : Bool := false
  ready : Bool := false
  report : List Byte := []
deriving DecidableEq, Repr

/-- The KEY engine: the vault, whether region 2 holds a key, the public key, whether the certificate matches it, the certificate's
length and words. -/
structure Key where
  vault : Option (BitVec 256) := none
  held : Bool := false
  pub : BitVec 512 := 0
  certOk : Bool := false
  certLen : Nat := 0
  cert : NMap Word := []
  att : NMap Attest := []
deriving DecidableEq, Repr

/-! ### PWR (R398 to R420) -/

/-- The retention register (R404). -/
structure Retention where
  written : Bool := false
  unclean : Bool := false
  sentence : Nat := 0
  hintSeq : Nat := 0
  hintSlot : Nat := 0
  cause : Nat := 0
  causeValid : Bool := false
deriving DecidableEq, Repr

structure Pwr where
  phase : Phase := .powerOnReset
  powerDown : Bool := false
  railsGood : BitVec 5 := 0
  vkeep : Bool := false
  vfuse : Bool := false
  mvA : Nat := 0
  mvB : Nat := 0
  minA : Nat := 0xFFFF
  minB : Nat := 0xFFFF
  tempA : Int := 0
  tempB : Int := 0
  tempPeak : Option Int := none
  cause : Nat := 0
  chipResets : Nat := 0
  stoppedStep : Nat := 0
  stopSource : Nat := 0
  fiddleUs : Nat := 0
  fwMs : Nat := 0
  cfgMs : Nat := 0
  readyMs : Nat := 0
  goodAt : Nat := 0
  stepAt : Nat := 0
  fiddleEnd : Nat := 0
  fwLoaded : Bool := false
  fwSlot : Nat := 0
  fwFallback : Bool := false
  fwSec : Nat := 0
  fwMajor : Nat := 0
  fwMinor : Nat := 0
  ready : Bool := false
  retValid : Bool := false
  uncleanFound : Bool := false
  ret : Retention := {}
  retAtStart : Retention := {}
  paces : NMap Nat := []
  lows : NMap Nat := []
  slow : BitVec 16 := 0
  resetLow : Bool := false
deriving DecidableEq, Repr

/-! ### CFG, HIF and management (R421 to R439) -/

/-- A mark on a configuration slot (R426): kind 1 seal, 2 load, 3 accept; the recorder sequence number; generation. -/
structure Mark where
  kind : Nat
  seq : Nat
  generation : Nat
deriving DecidableEq, Repr

/-- A configuration or firmware slot (R426, R439): the bytes programmed, what they spell, and its marks, newest first. -/
structure Slot where
  bytes : NMap Byte := []
  image : Option Image := none
  fw : Option FwImage := none
  marks : List Mark := []
  isOpen : Bool := false
deriving DecidableEq, Repr

/-- One reader's upload window (R439). -/
structure Upload where
  off : Nat := 0
  data : NMap Word := []
deriving DecidableEq, Repr

/-- The CFG block (R421 to R439). `loadDue` is the slot whose load begins at the next capture, `loading` the one under way;
`loadBy`, `acceptBy` and `plugBy` are the reader and token to settle; `acceptFn` and `acceptOut` follow the acceptance press,
`clearDry` says that dry is cleared at the next capture; `plugWriting` is the image being written to the plug. `rws` holds
the staged settings in force, `rwsShown` the ones replaced since the last publish, `rw` plain registers. -/
structure Cfg where
  slots : NMap Slot := []
  image : Option Image := none
  slot : Nat := 0
  dry : Bool := true
  foreign : Bool := false
  signedOk : Bool := false
  loadDue : Option Nat := none
  loading : Option Nat := none
  loadBy : Option (Nat × BitVec 16) := none
  acceptState : Nat := 0
  acceptAt : Nat := 0
  acceptBy : Option (Nat × BitVec 16) := none
  acceptFn : FnSt := {}
  acceptOut : Bool := false
  clearDry : Bool := false
  resultOp : Nat := 0
  resultCheck : Nat := 0
  resultSection : Nat := 0
  plugState : Nat := 0
  plugMbit : Nat := 0
  plugGen : Nat := 0
  plugWriting : Option Image := none
  plugBy : Option (Nat × BitVec 16) := none
  uploads : NMap Upload := []
  rws : NMap Word := []
  rwsShown : List (Nat × Word) := []
  rw : NMap Word := []
deriving DecidableEq, Repr

/-- A kept answer (R435, R436): request ID, what must match (the CRC over HIF, the message over management), and the
responses it was answered with. -/
structure Kept where
  id : Nat
  check : List Byte
  responses : List (List Byte)
deriving DecidableEq, Repr

/-- The host port. `response` is the last response driven, `cache` newest first. -/
structure Hif where
  cache : List Kept := []
  response : Option (List Byte) := none
  irqEn : BitVec 4 := 0
  irqPend : BitVec 4 := 0
  frames : Ctr := {}
  crcErr : Ctr := {}
  dup : Ctr := {}
  inFrame : Bool := false
deriving DecidableEq, Repr

/-- One management session (R392, R436): whose owner certificate it authenticated, its kept answers newest first, whether it
subscribes to notices, and every message sent to it, newest first (the model's own record). -/
structure MgmtSession where
  isOpen : Bool := false
  owner : Nat := 0
  cache : List Kept := []
  notices : Bool := false
  responses : List (List Byte) := []
deriving DecidableEq, Repr

/-! ### The whole -/

/-- Every block of the hub. -/
structure Blocks where
  now : Nat := 0
  sys : Sys := {}
  tru : Tru := {}
  fab : Fab := {}
  lio : Lio := {}
  tpg : Tpg := {}
  sog : OutBlock := {}
  sto : OutBlock := {}
  mea : Mea := {}
  axs : Axs := {}
  sep : Sep := {}
  net : Net := {}
  tsy : Tsy := {}
  sfr : Sfr := {}
  agr : Agr := {}
  cvu : NMap Cvu := []
  fcl : Fcl := {}
  recd : Recorder := {}
  bst : Bst := {}
  otp : Otp := {}
  lcs : Lcs := {}
  key : Key := {}
  pwr : Pwr := {}
  cfg : Cfg := {}
  hif : Hif := {}
  mgmt : NMap MgmtSession := []
  inReset : List Block := []
  sel : NMap Word := []
deriving DecidableEq, Repr

/-- A published snapshot (R63): the sentence's number, the blocks as captured and as published, the interjection annotation
(R68), and what the recorder's own hold copy reads at the registers that the profiles list (R326), by address.
`safe` marks the snapshot of an abandoned sentence (R58). -/
structure Snapshot where
  sent : Nat
  cap : Blocks
  pub : Blocks
  safe : Bool := false
  intj : Option (Nat × Nat) := none
  listed : NMap Word := []
deriving DecidableEq, Repr

/-- The state of the block: every block, the blocks as captured for the sentence under way, the snapshot shown, the hold
copies of frozen readers, the counter of free values drawn (the model's own), and the commands that wait. -/
structure State where
  b : Blocks := {}
  cap : Option Blocks := none
  shown : Option Snapshot := none
  holds : NMap (Option Snapshot) := []
  draws : Nat := 16
  pending : List Instr := []
deriving DecidableEq, Repr

/-- The hub right after reset: every register at its reset value, every memory wiped, antifuses and NAND as delivered
(blank), and no command waiting. -/
def State.reset : State := {}

end Sys2Proof.Machine
end

