-- ==== Sys2Proof/Machine/Ops.lean ====
section
/-! DEFINITION. The named operations over the state that every meaning is written with: one updater per block, time, the
page directory (R35), fault arrivals (R298, R308), tokens and results (R38 to R41), and who may write a page (R267,
R284). -/

namespace Sys2Proof.Machine

/-! ### One updater per block -/

/-- Change the blocks. -/
def State.on (f : Blocks → Blocks) (s : State) : State := { s with b := f s.b }

/-- Change block `sys` alone. -/
def State.onSys (f : Sys → Sys) (s : State) : State := { s with b := { s.b with sys := f s.b.sys } }

/-- Change block `tru` alone. -/
def State.onTru (f : Tru → Tru) (s : State) : State := { s with b := { s.b with tru := f s.b.tru } }

/-- Change block `fab` alone. -/
def State.onFab (f : Fab → Fab) (s : State) : State := { s with b := { s.b with fab := f s.b.fab } }

/-- Change block `lio` alone. -/
def State.onLio (f : Lio → Lio) (s : State) : State := { s with b := { s.b with lio := f s.b.lio } }

/-- Change block `tpg` alone. -/
def State.onTpg (f : Tpg → Tpg) (s : State) : State := { s with b := { s.b with tpg := f s.b.tpg } }

/-- Change block `sog` alone. -/
def State.onSog (f : OutBlock → OutBlock) (s : State) : State := { s with b := { s.b with sog := f s.b.sog } }

/-- Change block `sto` alone. -/
def State.onSto (f : OutBlock → OutBlock) (s : State) : State := { s with b := { s.b with sto := f s.b.sto } }

/-- Change block `mea` alone. -/
def State.onMea (f : Mea → Mea) (s : State) : State := { s with b := { s.b with mea := f s.b.mea } }

/-- Change block `axs` alone. -/
def State.onAxs (f : Axs → Axs) (s : State) : State := { s with b := { s.b with axs := f s.b.axs } }

/-- Change block `sep` alone. -/
def State.onSep (f : Sep → Sep) (s : State) : State := { s with b := { s.b with sep := f s.b.sep } }

/-- Change block `net` alone. -/
def State.onNet (f : Net → Net) (s : State) : State := { s with b := { s.b with net := f s.b.net } }

/-- Change block `tsy` alone. -/
def State.onTsy (f : Tsy → Tsy) (s : State) : State := { s with b := { s.b with tsy := f s.b.tsy } }

/-- Change block `sfr` alone. -/
def State.onSfr (f : Sfr → Sfr) (s : State) : State := { s with b := { s.b with sfr := f s.b.sfr } }

/-- Change block `agr` alone. -/
def State.onAgr (f : Agr → Agr) (s : State) : State := { s with b := { s.b with agr := f s.b.agr } }

/-- Change block `fcl` alone. -/
def State.onFcl (f : Fcl → Fcl) (s : State) : State := { s with b := { s.b with fcl := f s.b.fcl } }

/-- Change block `recd` alone. -/
def State.onRecd (f : Recorder → Recorder) (s : State) : State := { s with b := { s.b with recd := f s.b.recd } }

/-- Change block `bst` alone. -/
def State.onBst (f : Bst → Bst) (s : State) : State := { s with b := { s.b with bst := f s.b.bst } }

/-- Change block `otp` alone. -/
def State.onOtp (f : Otp → Otp) (s : State) : State := { s with b := { s.b with otp := f s.b.otp } }

/-- Change block `lcs` alone. -/
def State.onLcs (f : Lcs → Lcs) (s : State) : State := { s with b := { s.b with lcs := f s.b.lcs } }

/-- Change block `key` alone. -/
def State.onKey (f : Key → Key) (s : State) : State := { s with b := { s.b with key := f s.b.key } }

/-- Change block `pwr` alone. -/
def State.onPwr (f : Pwr → Pwr) (s : State) : State := { s with b := { s.b with pwr := f s.b.pwr } }

/-- Change block `cfg` alone. -/
def State.onCfg (f : Cfg → Cfg) (s : State) : State := { s with b := { s.b with cfg := f s.b.cfg } }

/-- Change block `hif` alone. -/
def State.onHif (f : Hif → Hif) (s : State) : State := { s with b := { s.b with hif := f s.b.hif } }
/-- Change CVU unit `u` alone. -/
def State.onCvu (u : Nat) (f : Cvu → Cvu) (s : State) : State :=
  { s with b := { s.b with cvu := nupd s.b.cvu u {} f } }

/-- Change management session `j` alone. -/
def State.onMgmt (j : Nat) (f : MgmtSession → MgmtSession) (s : State) : State :=
  { s with b := { s.b with mgmt := nupd s.b.mgmt j {} f } }

/-! ### Time -/

/-- Ruler A reaches the instant a command comes at. It never runs backward. -/
def State.tick (t : Nat) (s : State) : State := { s with b := { s.b with now := max s.b.now t } }

/-- Whether the image has started, so that sentences run (R416, R417). -/
def Blocks.running (b : Blocks) : Bool := decide (b.pwr.phase = .running)

/-- The next value of the entropy source: nonces, keys and start counters (R47, R248, R387). -/
def State.draw (s : State) : BitVec 256 × State :=
  (Config.entropy s.draws, { s with draws := s.draws + 1 })

/-! ### The page directory (R35) -/

def pSYS : Nat := 0x40000000
def pPWR : Nat := 0x40001000
def pTRU : Nat := 0x40002000
def pLCS : Nat := 0x40003000
def pOTP : Nat := 0x40004000
def pKEY : Nat := 0x40005000
def pFAB : Nat := 0x40008000
def pLIO : Nat := 0x4000A000
def pTPG : Nat := 0x4000B000
def pSOG : Nat := 0x4000C000
def pSTO : Nat := 0x4000D000
def pMEA : Nat := 0x40010000
def pAXS : Nat := 0x40011000
def pSEP : Nat := 0x40012000
def pKIN : Nat := 0x40015000
def pNET : Nat := 0x40020000
def pPORT (p : Nat) : Nat := 0x40021000 + p * 0x1000
def pTSY : Nat := 0x40028000
def pSFR : Nat := 0x40029000
def pAGR : Nat := 0x40030000
def pCPR (k : Nat) : Nat := 0x40031000 + k * 0x1000
def pCVU (n : Nat) : Nat := 0x40038000 + n * 0x1000
def pFCL : Nat := 0x40048000
def pREC : Nat := 0x40049000
def pBST : Nat := 0x4004A000
def pCFG : Nat := 0x4004B000
def pHIF : Nat := 0x4004C000

/-- What the directory says of a page: block code, instance, number of instances, whether it has a B view. -/
structure PageInfo where
  code : Nat
  inst : Nat := 0
  count : Nat := 1
  bView : Bool := false
deriving DecidableEq, Repr

/-- The directory of R35, by the page number within register space (address minus 0x4000_0000, in 4 KiB). -/
def pageInfo (page : Nat) : Option PageInfo :=
  if page < 0x40000000 then none
  else
    match (page - 0x40000000) / 0x1000 with
    | 0x00 => some { code := 0x01 }
    | 0x01 => some { code := 0x02 }
    | 0x02 => some { code := 0x03 }
    | 0x03 => some { code := 0x04 }
    | 0x04 => some { code := 0x05 }
    | 0x05 => some { code := 0x06 }
    | 0x08 => some { code := 0x10, bView := true }
    | 0x0A => some { code := 0x11, bView := true }
    | 0x0B => some { code := 0x12 }
    | 0x0C => some { code := 0x13, bView := true }
    | 0x0D => some { code := 0x14, bView := true }
    | 0x10 => some { code := 0x18, bView := true }
    | 0x11 => some { code := 0x19, bView := true }
    | 0x12 => some { code := 0x1A, bView := true }
    | 0x15 => some { code := 0x1B, bView := true }
    | 0x20 => some { code := 0x20 }
    | 0x28 => some { code := 0x22 }
    | 0x29 => some { code := 0x23 }
    | 0x30 => some { code := 0x30 }
    | 0x48 => some { code := 0x40, bView := true }
    | 0x49 => some { code := 0x41 }
    | 0x4A => some { code := 0x42, bView := true }
    | 0x4B => some { code := 0x43 }
    | 0x4C => some { code := 0x44 }
    | n =>
      if 0x21 ≤ n ∧ n ≤ 0x26 then some { code := 0x21, inst := n - 0x21, count := 6 }
      else if 0x31 ≤ n ∧ n ≤ 0x34 then some { code := 0x31, inst := n - 0x31, count := 4, bView := true }
      else if 0x38 ≤ n ∧ n ≤ 0x47 then some { code := 0x32, inst := n - 0x38, count := 16 }
      else none

/-- An address split: its page's A-view address, whether it lies in the B view (R34), and the offset; none where it belongs
to no page (R33). -/
def splitAddr (addr : Nat) : Option (Nat × Bool × Nat) :=
  let page := addr / 0x1000 * 0x1000
  let off := addr % 0x1000
  match pageInfo page with
  | some _ => some (page, false, off)
  | none =>
    if page < 0x40100000 then none
    else
      match pageInfo (page - 0x100000) with
      | some i => if i.bView then some (page - 0x100000, true, off) else none
      | none => none

/-- The part of an address that names its register: the A-view address of R34. -/
def aView (addr : Nat) : Nat :=
  match splitAddr addr with
  | some (p, _, o) => p + o
  | none => addr

/-- The page a fault source belongs to (R296). -/
def owningPage (i : Nat) : Nat :=
  if i < 16 then pSYS else if i < 48 then pPWR else if i < 64 then pTRU else if i < 72 then pLCS
  else if i < 88 then pOTP else if i < 96 then pKEY else if i < 144 then pFAB else if i < 208 then pLIO
  else if i < 224 then pTPG else if i < 256 then pSOG else if i < 288 then pSTO else if i < 336 then pMEA
  else if i < 352 then pAXS else if i < 372 then pSEP else if i < 384 then pKIN
  else if i < 390 then pPORT (i - 384) else if i < 398 then pNET else if i < 406 then pTSY
  else if i < 416 then pNET else if i < 448 then pSFR else if i < 452 then pAGR
  else if i < 456 then pCPR (i - 452) else if i < 460 then pCPR (i - 456) else if i < 464 then pCPR (i - 460)
  else if i = 464 then pAGR else if i < 469 then pCPR (i - 465) else if i < 480 then pAGR
  else if i < 488 then pCVU 0 else if i < 496 then pREC else if i < 504 then pBST else if i < 508 then pCFG
  else pHIF

/-! ### Fault arrivals (R298, R308) -/

/-- An arrival reaches the arbiter tree; the first after a closed round opens a round (R308). -/
def State.post (a : Arrival) (s : State) : State :=
  s.onFcl fun f => { f with arrivals := f.arrivals ++ [a], roundOpen := true }

/-- A further cause of a source that is already live opens a round without a raise (R134). -/
def State.openRound (s : State) : State := s.onFcl fun f => { f with roundOpen := true }

/-- An event source arrives (R298), with what its record names. -/
def State.raise (i : Nat) (detail : Word := 0) (zone : Option Nat := none) (unit : Nat := 0)
    (blk : Option Block := none) (s : State) : State :=
  s.post { id := i, up := true, detail := detail, zone := zone, unit := unit, blocks := blk }

/-- A condition source's cause begins or ends (R298); nothing arrives while it stays as it is. -/
def State.cond (i : Nat) (v : Bool) (detail : Word := 0) (zone : Option Nat := none) (unit : Nat := 0)
    (blk : Option Block := none) (s : State) : State :=
  if s.b.fcl.cause.getLsbD i = v then s
  else
    (s.onFcl fun f => { f with cause := setb f.cause i v }).post
      { id := i, up := v, detail := detail, zone := zone, unit := unit, blocks := blk }

/-! ### Counters (R317) -/

end Sys2Proof.Machine

namespace Sys2Proof

/-- One more, saturating at 0xFFFF with the sticky overflow. -/
def Ctr.inc (c : Ctr) (k : Nat := 1) : Ctr :=
  if c.n + k > 0xFFFF then { n := 0xFFFF, ovf := true } else { c with n := c.n + k }

/-- How a statistic counter shows: overflow in [31], count in [15:0]. -/
def Ctr.word (c : Ctr) : Word := Machine.mkw (Machine.pl c.n 0 16 + Machine.pl (Machine.b2n c.ovf) 31 1)

/-- The cell identity an image gives: of a 4408 image the forerunner's station number, zero-extended (R433). -/
def Image.cell (im : Image) : BitVec 64 := if im.target = 1 then im.station.zeroExtend 64 else im.cellId

/-- The generation R427 compares: of a 4408 image the forerunner's revision count (R433). -/
def Image.gen (im : Image) : Nat := if im.target = 1 then im.revision else im.generation

/-- A bare ZN-4408 image is held as if wrapped (R433): its own bytes are section 0x20, with no signature, no owner certificates and plug
mode 0. The wrapper's cell identity and generation are the forerunner's. DEDUCED. -/
def Image.wrap (im : Image) : Image :=
  if im.bare then
    { im with
      magic := 0x5A4E4347, format := 1, target := 1, flags := 0, cellId := im.station.zeroExtend 64, generation := im.revision
      digestOk := true, signature := 0, signer := 0, reservedZero := true
      sections := [{ kind := 0x20, offset := 280, length := im.length - 280 }]
      certs := [], requireSigned := false, plugMode := 0 }
  else im

end Sys2Proof

namespace Sys2Proof.Machine

/-! ### Results (R41), tokens (R39, R40) and write rights (R267, R284) -/

def rDone : Nat := 0
def rPending : Nat := 1
def rStillLive : Nat := 2
def rRefused : Nat := 3
def rNotAuth : Nat := 4
def rBadArg : Nat := 5
def rStagingFull : Nat := 6
def rNoToken : Nat := 7
def rWidth : Nat := 8
def rPairIncomplete : Nat := 9
def rReadOnly : Nat := 10

/-- The key of what a page keeps for one reader. -/
def tokKey (page : Nat) (rd : Nat) : Nat := page * 16 + rd

/-- What a page keeps for one reader. -/
def Blocks.tokenOf (b : Blocks) (page rd : Nat) : Token := nget b.sys.tokens (tokKey page rd) {}

def State.onToken (page rd : Nat) (f : Token → Token) (s : State) : State :=
  s.onSys fun y => { y with tokens := nupd y.tokens (tokKey page rd) {} f }

/-- The owner of a check-value unit (R284): the pair the image assigns, pair 0 otherwise. -/
def Blocks.cvuOwner (b : Blocks) (u : Nat) : Nat :=
  match b.cfg.image with
  | some im => nget im.cvuOwner u 0
  | none => 0

/-- Whether a reader may write a page at all: R267 for the core pairs, R284 for the check-value units. -/
def Blocks.mayWrite (b : Blocks) (rd : Reader) (page : Nat) : Bool :=
  match pageInfo page with
  | some i =>
    if i.code = 0x32 then
      match rd with
      | .pair k => decide (b.cvuOwner i.inst = k.val)
      | _ => false
    else
      match rd with
      | .pair k => k.val == 0 || (i.code == 0x31 && i.inst == k.val)
      | _ => true
  | none => false

/-- The result of a write that keeps no token: it is the reader's last write to the page (R39). -/
def State.result (rd : Reader) (page r : Nat) (s : State) : State :=
  s.onToken page rd.idx fun e => { e with last := r, settles := false }

/-- A write the reader has no right to is not executed: "not authorised" and source 474 (R267, R284). -/
def State.refuseWrite (rd : Reader) (page : Nat) (s : State) : State :=
  (s.result rd page rNotAuth).raise 474 (mkw (page + rd.idx))

/-- A command refused so repeats no token (R40). -/
def State.refuseCommand (rd : Reader) (page : Nat) (s : State) : State :=
  (s.refuseWrite rd page).onToken page rd.idx fun e => { e with repeated := false }

/-- Whether what a reader sends reaches a page: nothing is released from a core pair that is not running (R261, R266,
R278). -/
def Blocks.speaks (b : Blocks) (rd : Reader) : Bool :=
  match rd with
  | .pair k => decide ((nget b.agr.pairs k.val {}).state = 1)
  | _ => true

/-- A command with a token (R39): not executed without a token or when it repeats the kept one; otherwise it runs, and its
token and result are kept. -/
def State.wt (rd : Reader) (page : Nat) (tok : BitVec 16) (run : State → State × Nat) (s : State) : State :=
  if s.b.speaks rd = false then s
  else if s.b.mayWrite rd page = false then s.refuseCommand rd page
  else if tok = 0 then
    s.onToken page rd.idx fun e => { e with last := rNoToken, repeated := false, settles := false }
  else if tok = (s.b.tokenOf page rd.idx).token then
    s.onToken page rd.idx fun e => { e with last := e.kept, repeated := true, settles := false }
  else
    (run s).1.onToken page rd.idx fun _ =>
      { token := tok, kept := (run s).2, last := (run s).2, repeated := false, settles := decide ((run s).2 = rPending) }

/-- A write without a token: it runs where the reader has the right, and its result shows (R38, R39). -/
def State.plain (rd : Reader) (page : Nat) (run : State → State × Nat) (s : State) : State :=
  if s.b.speaks rd = false then s
  else if s.b.mayWrite rd page = false then s.refuseWrite rd page
  else (run s).1.result rd page (run s).2

/-- A pending command settles (R39): its kept result changes while its token is still kept, and the shown result changes
with it while that command is still the reader's last write. -/
def State.settle (page rd : Nat) (tok : BitVec 16) (r : Nat) (s : State) : State :=
  s.onToken page rd fun e =>
    if e.token = tok ∧ e.kept = rPending then
      { e with kept := r, last := if e.settles then r else e.last, settles := false }
    else e

/-- The staging set that a reader writes to: the pairs of port 0 have one each (R267), the sessions of port 2 share their
port's (R42, R436). -/
def setOf (rd : Nat) : Nat := if 5 ≤ rd ∧ rd ≤ 8 then 5 else rd

/-- A reader's staging set. -/
def Blocks.stagingOf (b : Blocks) (rd : Nat) : Staging := nget b.sys.staging (setOf rd) {}

/-- Whether the reader holds expert unlock (R47): 600 s without an RWX write end it. -/
def Blocks.unlocked (b : Blocks) (rd : Reader) : Bool := (nget b.sys.experts rd.idx {}).unlocked

/-- The token and the 16-bit operand of a command word (R38). -/
def wTok (w : Word) : BitVec 16 := BitVec.ofNat 16 (w.toNat / 65536)
def wOp (w : Word) : Nat := w.toNat % 65536

/-! ### Settings -/

/-- A staged register's value in force (R38), by its A-view address. -/
def Blocks.set (b : Blocks) (addr : Nat) : Word := nget b.cfg.rws addr 0

/-- A plain register's value. -/
def Blocks.rw (b : Blocks) (addr : Nat) : Word := nget b.cfg.rw addr 0

/-- A reader's own select register or window register. -/
def Blocks.own (b : Blocks) (rd : Nat) (addr : Nat) : Word := nget b.sel (addr * 16 + rd) 0

def State.setOwn (rd addr : Nat) (w : Word) (s : State) : State :=
  s.on fun b => { b with sel := nset b.sel (addr * 16 + rd) w 0 }

def State.setRw (addr : Nat) (w : Word) (s : State) : State :=
  s.onCfg fun c => { c with rw := nset c.rw addr w 0 }

/-- Whether a block is in block reset (R306). -/
def Blocks.resetting (b : Blocks) (k : Block) : Bool := b.inReset.contains k

/-- The running image (R421); the empty image where none is loaded. -/
def Blocks.img (b : Blocks) : Image := b.cfg.image.getD {}

end Sys2Proof.Machine
end

