-- ==== Sys2Proof/Machine/Flags.lean ====
section
/-! DEFINITION. Status and flag computations: the table of fault sources (R75, R116, R142 and the other chapters' source
tables), effective severity and vector (R300, R301, R316), what holds a zone or the cell (R302 to R304), the page summaries
(R36), and the life-cycle state (R369). -/

namespace Sys2Proof.Machine

/-! ### The fault sources -/

/-- Whether `i` lies in one of the closed ranges. -/
def inRanges (l : List (Nat × Nat)) (i : Nat) : Bool := l.any fun r => decide (r.1 ≤ i) && decide (i ≤ r.2)

/-- The sources their chapters define; every other ID is reserved and never raised (R297). -/
def srcDefined (i : Nat) : Bool :=
  inRanges
    [(0, 9), (16, 30), (32, 55), (64, 86), (88, 93), (96, 117), (144, 154), (208, 214), (224, 234), (256, 257),
    (260, 266), (288, 302), (336, 365), (372, 378), (384, 406), (416, 434), (448, 478), (480, 483), (488, 511)] i

/-- The sources whose chapters say when their live bit falls (R298): condition sources. -/
def srcCond (i : Nat) : Bool :=
  inRanges
    [(0, 1), (28, 29), (32, 47), (112, 112), (117, 117), (144, 149), (208, 209), (224, 225), (228, 229), (256, 257),
    (260, 261), (354, 354), (416, 418), (427, 427), (483, 483), (488, 488), (501, 501)] i

/-- Default severity: 0 Note, 1 Degraded, 2 Stop, 3 Halt (the chapters' source tables). -/
def srcDefault (i : Nat) : Nat :=
  if inRanges
    [(0, 3), (16, 19), (25, 25), (27, 27), (29, 30), (32, 53), (65, 65), (68, 69), (71, 71), (85, 86), (92, 92),
    (96, 99), (102, 105), (110, 111), (149, 149), (151, 154), (210, 214), (228, 229), (231, 234), (260, 261), (263,
    266), (296, 297), (299, 302), (346, 346), (348, 351), (356, 360), (362, 365), (375, 378), (398, 398), (425,
    426), (429, 432), (448, 463), (469, 469), (472, 472), (477, 478), (496, 499), (502, 502)] i then 3
  else if inRanges
    [(20, 20), (224, 227), (256, 257), (288, 292), (336, 344), (352, 352), (372, 372), (476, 476)] i then 2
  else if inRanges
    [(9, 9), (21, 21), (26, 26), (28, 28), (55, 55), (64, 64), (72, 72), (74, 74), (76, 78), (81, 84), (88, 91),
    (93, 93), (106, 107), (112, 113), (116, 117), (144, 148), (208, 209), (293, 295), (345, 345), (353, 355), (373,
    373), (384, 389), (391, 393), (397, 397), (399, 400), (405, 406), (416, 419), (427, 427), (434, 434), (465,
    468), (471, 471), (475, 475), (480, 482), (488, 488), (490, 490), (495, 495), (500, 501), (504, 504), (506,
    507), (511, 511)] i then 1
  else 0

/-- The sources whose floor in DEPLOYED is below their default severity: each of these has the floor Note. -/
def srcLowFloor (i : Nat) : Bool :=
  [9, 83, 113, 116, 117, 355, 384, 385, 386, 387, 388, 389, 391, 397, 399, 400, 416, 417, 418, 419, 427, 434].contains i

/-- The floor that applies in DEPLOYED and in RETURNED (R300). -/
def srcFloor (i : Nat) : Nat := if srcLowFloor i then 0 else srcDefault i

/-! ### Life cycle -/

/-- The life-cycle state (R369) from the rhizoid bits in use: the highest burned of lc0 to lc3. -/
def Blocks.life (b : Blocks) : LifeCycle :=
  if b.otp.latched.getLsbD 3 then .returned
  else if b.otp.latched.getLsbD 2 then .deployed
  else if b.otp.latched.getLsbD 1 then .provisioned
  else if b.otp.latched.getLsbD 0 then .manufacture
  else .blank

/-- Its code in registers and records: 0 BLANK to 4 RETURNED. -/
def LifeCycle.code : LifeCycle → Nat
  | .blank => 0
  | .manufacture => 1
  | .provisioned => 2
  | .deployed => 3
  | .returned => 4

/-- The states whose severity floors apply (R300, R382). -/
def Blocks.floored (b : Blocks) : Bool := b.life == .deployed || b.life == .returned

/-! ### Severity and vector -/

/-- The reaction-table entry of a source (R299): the image's, or the defaults. -/
def Blocks.reaction (b : Blocks) (i : Nat) : Reaction :=
  match b.img.reactions.find? (fun x => x.1 == i) with
  | some x => x.2
  | none => { sev := srcDefault i, vector := 0, zones := 0, line := if srcDefined i then i / 2 else 0 }

/-- Effective severity (R300); the severities R22, R23 and R386 fix override the table. -/
def Blocks.effSev (b : Blocks) (i : Nat) : Nat :=
  if 48 ≤ i ∧ i ≤ 51 ∧ b.life ≠ .manufacture then 3
  else if i = 69 then 3
  else if b.floored then max (b.reaction i).sev (srcFloor i)
  else (b.reaction i).sev

/-- Effective vector (R300): the configured bits with those R301 and the error-pin threshold of R316 force. -/
def Blocks.effVec (b : Blocks) (i : Nat) : BitVec 5 :=
  (b.reaction i).vector |||
    (if b.effSev i = 3 then 0b10011#5 else if b.effSev i = 0 then 0 else 0b00001#5) |||
    (if srcDefined i ∧ b.img.errThreshold ≤ b.effSev i then 0b10000#5 else 0)

/-- The sources whose bit is set, in ascending order. -/
def idsOf (v : BitVec 512) : List Nat := if v = 0 then [] else (List.range 512).filter fun i => v.getLsbD i

/-- A source is latched in tree A, and so in both while the trees agree (R311). -/
def Blocks.latchedIds (b : Blocks) : List Nat := idsOf b.fcl.a.latch

/-- A source that acts as Halt: its effective severity is Halt, or its effective vector holds chip reset (R307). -/
def Blocks.actsHalt (b : Blocks) (i : Nat) : Bool := b.effSev i == 3 || (b.effVec i).getLsbD 3

/-- A latched source acts as Halt (R304, R315). -/
def Blocks.haltLatched (b : Blocks) : Bool := b.latchedIds.any b.actsHalt

/-- The zones a source acts on when it is raised naming zone `z` (R302). -/
def Blocks.zonesOf (b : Blocks) (i : Nat) (z : Option Nat) : BitVec 32 :=
  let named : BitVec 32 := match z with
    | some z => BitVec.ofNat 32 (2 ^ z)
    | none => 0
  let all := named ||| (b.reaction i).zones
  if all = 0 then 0xFFFFFFFF#32 else all

/-- A latched Stop source acts on zone `z` (R304 condition 1). -/
def Blocks.stopLatched (b : Blocks) (z : Nat) : Bool :=
  b.latchedIds.any fun i => b.effSev i == 2 && (nget b.fcl.a.zones i 0).getLsbD z

/-- The pins signal while a latch is set whose effective vector holds the error-pin bit (R316). -/
def Blocks.errLatched (b : Blocks) : Bool := b.latchedIds.any fun i => (b.effVec i).getLsbD 4 || b.actsHalt i

/-- Halt in force (R303, R311, R315): a raised Halt, until the re-arm check has passed, or a collector self-fault. -/
def Blocks.haltNow (b : Blocks) : Bool := b.fcl.halt || decide (b.fcl.selfCode ≠ 0)

/-- Zone `z` is stopped (R302, R304). -/
def Blocks.zoneStopped (b : Blocks) (z : Nat) : Bool := b.haltNow || b.fcl.zoneStop.getLsbD z

/-- Conditions 1 and 2 of R304 are met for a stopped zone: Halt has ended, or its re-arm check has passed. -/
def Blocks.zoneReadyNow (b : Blocks) (z : Nat) : Bool :=
  (!b.fcl.halt || b.fcl.rearmPassed) && decide (b.fcl.selfCode = 0) && !b.haltLatched && !b.stopLatched z

/-- An accepted image runs, not dry (R417, entry 3,113). -/
def Blocks.live (b : Blocks) : Bool := b.running && !b.cfg.dry

/-- The acknowledge instance the image names for zone `z` (R304). -/
def Blocks.zoneAckOf (b : Blocks) (z : Nat) : Option Nat := (b.img.zoneAck.find? fun x => x.1 == z).map (·.2)

/-- Some stopped zone waits only for its acknowledge (SYS_STATUS.await_ack). -/
def Blocks.awaitAck (b : Blocks) : Bool :=
  b.live && !b.haltNow && (List.range 32).any fun z => b.fcl.zoneStop.getLsbD z && b.zoneReadyNow z

/-- SYS_STATUS without interjection_pending, as in force (R48, R58). -/
def Blocks.sysStatus (b : Blocks) : Nat :=
  pl (b2n b.cfg.dry) 1 1 + pl (b2n b.haltNow) 2 1 + pl (b2n (b.haltNow || decide (b.fcl.zoneStop ≠ 0))) 3 1 +
    pl (b2n b.awaitAck) 4 1 + pl (b2n b.sys.lateSeen) 5 1 +
    pl (b2n (match b.cfg.image with | some im => im.target == 1 | none => false)) 6 1

/-! ### Page summaries -/

/-- The page's sources among those of a bit map. -/
def pageIds (page : Nat) (v : BitVec 512) : List Nat := (idsOf v).filter fun i => owningPage i == page

/-- PAGE_FLT_LIVE or PAGE_FLT_LATCH as read (R36). -/
def Blocks.pageSummary (b : Blocks) (page : Nat) (v : BitVec 512) : Word :=
  match pageIds page v with
  | [] => 0
  | i :: r =>
    mkw (pl (r.length + 1) 0 7 + pl 1 18 1 + pl ((i :: r).foldl (fun m j => max m (b.effSev j)) 0) 19 2 + pl i 21 9)

/-- PAGE_FLT_COUNT (R36): raises on the page since its last whole clear. -/
def Blocks.pageCount (b : Blocks) (page : Nat) : Word := (nget b.sys.faultCounts page {}).word

/-! ### Antifuse words in use (R365, R378) -/

/-- Value in use of logical word `w`. -/
def Blocks.usedWord (b : Blocks) (w : Nat) : OtpUse := nget b.otp.used w {}

/-- The shadow that covers a logical word: MANUFACTURE only, while shadow_dis is unburned; never region 2 or 11. -/
def Blocks.shadowOf (b : Blocks) (w : Nat) : Option (BitVec 64) :=
  if b.life = .manufacture ∧ b.otp.latched.getLsbD 9 = false ∧ w / 128 ≠ 2 ∧ w / 128 < 11 then
    (b.otp.shadows.find? fun x => x.2.addr.getLsbD 31 && fld x.2.addr 10 0 == w).map fun x => x.2.hi ++ x.2.lo
  else none

/-- The value of a logical word for the hub's own users: a shadow's where one covers it (R378). -/
def Blocks.wordInUse (b : Blocks) (w : Nat) : BitVec 64 := (b.shadowOf w).getD (b.usedWord w).value

/-- The data words of region `r` for the hub's own users. -/
def Blocks.regionData (b : Blocks) (r : Nat) : List (BitVec 64) := (List.range 124).map fun i => b.wordInUse (r * 128 + i)

end Sys2Proof.Machine
end

