-- ==== Sys2Proof/Machine/Time.lean ====
section
/-! DEFINITION. The hub's times: the sentence period (R49, R50), the rulers (R20), operating time (R25) and cell time
(R26, R223 to R228). -/

namespace Sys2Proof.Machine

/-- The count of ruler A in ns since it started. -/
def Blocks.rulerA (b : Blocks) : Nat := b.now - b.tru.aOrigin

/-- The sentence period in ns (R49): SYS_TS in units of 10 microseconds; 250 microseconds where nothing is set. -/
def Blocks.tsNs (b : Blocks) : Nat :=
  let v := fld (b.set (pSYS + 0x110)) 8 0
  if v = 0 then 250000 else v * 10000

/-- Powered time in ns that a channel counts since fiddlehead started its ruler (R25): channel A from ruler A, channel B from
ruler B as read at the last capture. -/
def Blocks.poweredNs (b : Blocks) : Ch → Nat
  | .a => if b.tru.opRuns then b.now - b.tru.opOrigin else 0
  | .b => b.tru.rulerB

/-- Operating time in microseconds as a channel derives it (R25): the base and its powered time, saturating at 2^56 − 1; 0 from
a reset until the rulers start. The values are compared at each capture through what each adds since the last one, which is the
sentence difference of R22. DEDUCED (log 5). -/
def Blocks.optimeOf (b : Blocks) (c : Ch) : Nat := min (b.tru.opBase + b.poweredNs c / 1000) (2 ^ 56 - 1)

/-- The published operating time: channel A's. -/
def Blocks.optime (b : Blocks) : Nat := b.optimeOf .a

/-- The instant of the capture that a CAPTURE command makes (R50): T_S after the last one, however late the command comes; the
first one after a start is taken when it comes. -/
def Blocks.captureAt (b : Blocks) : Nat := if b.sys.captured then b.sys.lastCapture + b.sys.period else b.now

/-! ### Cell time, in units of 10⁻⁹ ns -/

/-- Clamp an integer into [−m, m]. -/
def clampI (x : Int) (m : Int) : Int := if x > m then m else if x < -m then -m else x

/-- The hub is grandmaster: role 0, or role 1 while the best master clock algorithm selects it (R221). -/
def Blocks.isGm (b : Blocks) : Bool :=
  match fld (b.set (pTSY + 0x104)) 31 30 with
  | 0 => true
  | 1 => b.tsy.best.isNone
  | _ => false

/-- slew_ppm of TSY_LIMITS as parts per billion (R224); 100 ppm where nothing is set. -/
def Blocks.slewPpb (b : Blocks) : Int :=
  let v := fld (b.set (pTSY + 0x110)) 6 0
  if v = 0 then 100000 else v * 1000

/-- The rate trim in force: within ±100 ppm as grandmaster, ±250 ppm as follower. -/
def Blocks.trimNow (b : Blocks) : Int := clampI b.tsy.trim (if b.isGm then 100000 else 250000)

/-- The part of r that the slew in progress contributes, in ppb: trim and slew together stay within ±100 ppm (R224). -/
def Blocks.slewNow (b : Blocks) : Int :=
  if b.tsy.adjLeft = 0 then 0
  else clampI (b.trimNow + (if b.tsy.adjLeft > 0 then b.slewPpb else -b.slewPpb)) 100000 - b.trimNow

/-- r in ppb against ruler A (R224, R226). -/
def Blocks.rateNow (b : Blocks) : Int := if b.isGm then b.trimNow + b.slewNow else b.trimNow

/-- How much of the slew `dt` ns use up, never more than what is left. -/
def Blocks.slewUsed (b : Blocks) (dt : Nat) : Int :=
  let q := b.slewNow * dt
  if b.tsy.adjLeft > 0 then (if q > b.tsy.adjLeft then b.tsy.adjLeft else q)
  else (if q < b.tsy.adjLeft then b.tsy.adjLeft else q)

/-- Cell time now, fine (R224): ruler A at 1 + trim, plus the slew used. -/
def Blocks.cellFineNow (b : Blocks) : Nat :=
  let dt := b.now - b.tsy.cellAt
  (b.tsy.cellFine + dt * (1000000000 + b.trimNow) + (if b.isGm then b.slewUsed dt else 0)).toNat

/-- Cell time now in whole ns; 0 while it is invalid. -/
def Blocks.cellNs (b : Blocks) : Nat := if b.tsy.cellValid then b.cellFineNow / 1000000000 else 0

/-- Cell time brought up to now: what was used of the slew is no longer left. -/
def Blocks.cellSettled (b : Blocks) : Tsy :=
  { b.tsy with
    cellFine := b.cellFineNow
    adjLeft := if b.isGm then b.tsy.adjLeft - b.slewUsed (b.now - b.tsy.cellAt) else b.tsy.adjLeft
    cellAt := b.now }

/-- Seconds and nanoseconds of cell time. -/
def Blocks.cellSec (b : Blocks) : Nat := b.cellNs / 1000000000
def Blocks.cellNanos (b : Blocks) : Nat := b.cellNs % 1000000000


/-! ### Rulers and the cell-time mapping (R228) -/

/-- A ruler's count now. Ruler B is read at captures; from a capture to the next it is taken to run as ruler A (log 5). -/
def Blocks.rulerOf (b : Blocks) : Ch → Nat
  | .a => b.rulerA
  | .b => b.tru.rulerB + (b.now - max b.sys.lastCapture b.tru.aOrigin)

/-- The ruler instant of the last capture. -/
def Blocks.tcOf (b : Blocks) : Ch → Nat
  | .a => b.tsy.tcA
  | .b => b.tsy.tcB

/-- The difference of two 64-bit counts of nanoseconds, as a signed number. -/
def stampDiff (x y : Nat) : Int := (BitVec.ofNat 64 x - BitVec.ofNat 64 y).toInt

/-- The denominator of the mapping: 1 + r in parts of 10⁻⁹. -/
def Blocks.mapDen (b : Blocks) : Int := 1000000000 + b.tsy.rCapture

/-- How long before the ruler instant `t` a cell time of the current epoch lies, in ns times `mapDen`; none while nothing is
mapped. -/
def Blocks.ageNum (b : Blocks) (c : Ch) (t : Nat) (stamp : Nat) : Option Int :=
  if b.tsy.cellValid && b.tsy.mapped then
    some (((t : Int) - (b.tcOf c : Int)) * b.mapDen - stampDiff stamp b.tsy.cellAtCapture * 1000000000)
  else none

end Sys2Proof.Machine
end

