-- ==== Sys2Proof/Machine/Switch.lean ====
section
/-! DEFINITION. The backbone switch (R211 to R219): gates on cell time, stream filters, gates and meters, 802.1CB generation
and recovery, forwarding, the packet buffer, and the frames the hub's own users send through port 6. -/

namespace Sys2Proof.Machine

/-! ### Ports and settings -/

def Blocks.netCfg (b : Blocks) : NetCfg := b.img.net
def Blocks.port (b : Blocks) (p : Nat) : PortSt := nget b.net.ports p {}

def State.onPort (p : Nat) (f : PortSt → PortSt) (s : State) : State :=
  s.onNet fun n => { n with ports := nupd n.ports p {} f }

/-- PORT_MODE (R233). -/
def Blocks.portMode (b : Blocks) (p : Nat) : Word := b.set (pPORT p + 0x104)

/-- An external port that is enabled: en, and a PHY type. -/
def Blocks.portEn (b : Blocks) (p : Nat) : Bool := (b.portMode p).getLsbD 31 && decide (fld (b.portMode p) 30 28 ≠ 0)

/-- A port that carries frames. -/
def Blocks.portUp (b : Blocks) (p : Nat) : Bool := decide (p = 6) || (b.portEn p && (b.port p).up)

/-- Its rate in Mb/s; port 6 runs at 10 Gb/s (R212). -/
def Blocks.portRate (b : Blocks) (p : Nat) : Nat := if p = 6 then 10000 else (b.port p).rateNow

/-- The switch forwards: the image runs and no NET block reset is under way. -/
def Blocks.netOn (b : Blocks) : Bool := b.running && !b.resetting .net

/-! ### Gate lists on cell time (R216, R217) -/

/-- The entry in force at offset `o` of the cycle; the last one holds until the cycle ends. -/
def gateEntryAt (l : List (BitVec 8 × Nat)) (o i : Nat) : Nat :=
  match l with
  | [] => 0
  | [_] => i
  | x :: y :: r => if o < x.2 then i else gateEntryAt (y :: r) (o - x.2) (i + 1)

/-- The start of the cycle under way, and the offset within it; none before the base time. -/
def gateAt (l : GateList) (cell : Nat) : Option (Nat × Nat) :=
  if l.cycle = 0 ∨ cell < l.base then none
  else some (cell - (cell - l.base) % l.cycle, (cell - l.base) % l.cycle)

/-- How a list moves: while cell time is invalid it does not run; it (re)starts at the first cycle start at or after `since`;
running, it stands at the entry in force. -/
def GateSt.move (g : GateSt) (l : GateList) (valid : Bool) (cell : Nat) : GateSt :=
  if !valid || l.entries.isEmpty then { g with running := false, hold := false, entry := 0 }
  else
    match gateAt l cell with
    | none => g
    | some (start, o) =>
      if g.running && !g.hold then { g with entry := gateEntryAt l.entries o 0 }
      else if start ≥ g.since then { g with running := true, hold := false, entry := gateEntryAt l.entries o 0 }
      else g

/-- A step of cell time: a running list holds its entry until the first cycle start at or after the stepped time. -/
def GateSt.step (g : GateSt) (cell : Nat) : GateSt := { g with hold := g.running, since := cell }

/-- A port's list as a gate. -/
def PortSt.gate (x : PortSt) : GateSt :=
  { running := x.gclRunning, entry := x.gclEntry, hold := x.gclHold, since := x.gclSince }

def PortSt.setGate (x : PortSt) (g : GateSt) : PortSt :=
  { x with gclRunning := g.running, gclEntry := g.entry, gclHold := g.hold, gclSince := g.since }

/-- The gate states of an entry. -/
def GateSt.gates (g : GateSt) (l : GateList) : BitVec 8 :=
  if g.running then ((l.entries[g.entry]?).map (·.1)).getD 0xFF else 0xFF

/-- How long class `t` stays open: `o` is the offset in the first entry; none means for more than a cycle. -/
def openFor (t : Nat) : List (BitVec 8 × Nat) → Nat → Option Nat
  | [], _ => none
  | x :: r, o => if x.1.getLsbD t then (openFor t r 0).map (· + (x.2 - o)) else some 0

/-- The list from entry `i` on, once round; the last entry lasts until the cycle ends. -/
def gateTurned (l : GateList) (i : Nat) : List (BitVec 8 × Nat) :=
  let used := (l.entries.map (·.2)).sum
  let full := l.entries.zipIdx.map fun x => if x.2 + 1 = l.entries.length then (x.1.1, x.1.2 + (l.cycle - used)) else x.1
  full.drop i ++ full.take i

/-- The first cycle start at or after cell time `t`. -/
def gateNext (l : GateList) (t : Nat) : Nat :=
  if t ≤ l.base then l.base else l.base + (t - l.base + l.cycle - 1) / l.cycle * l.cycle

/-- How long class `t` stays open from now on, in ns; none while nothing closes it. A list that has not started yet, or holds
its entry after a step, goes on at entry 0 at its next cycle start. -/
def Blocks.gateLeft (b : Blocks) (g : GateSt) (l : GateList) (t : Nat) : Option Nat :=
  let fromStart := (openFor t (gateTurned l 0) 0).map (· + (gateNext l (max b.cellNs g.since) - b.cellNs))
  if !b.tsy.cellValid || l.entries.isEmpty || decide (l.cycle = 0) then none
  else if !g.running then fromStart
  else if !(g.gates l).getLsbD t then some 0
  else if g.hold then fromStart
  else
    match gateAt l b.cellNs with
    | none => fromStart
    | some (_, o) => openFor t (gateTurned l g.entry) (o - ((l.entries.take g.entry).map (·.2)).sum)

/-- Class `t` of port `p` is open now, and stays so for at least `need` ns. -/
def Blocks.gateOpen (b : Blocks) (p t need : Nat) : Bool :=
  if p = 6 then true
  else
    match b.gateLeft (b.port p).gate (nget b.netCfg.gcl p {}) t with
    | some n => decide (0 < n ∧ need ≤ n)
    | none => true

/-- Time to send a frame at a port's rate, preamble included, in ns. -/
def txNs (length rate : Nat) : Nat := if rate = 0 then 0 else ((length + 8) * 8000 + rate - 1) / rate

/-! ### Classes, VLANs and the filtering database (R213) -/

/-- The class of a priority at a port; the priority itself where the image maps nothing. -/
def Blocks.classOf (b : Blocks) (p pcp : Nat) : Nat := ((nget b.netCfg.pcpMap p [])[pcp]?).getD pcp % 8

/-- The longest frame of a class at a port (R216). -/
def Blocks.maxSduOf (b : Blocks) (p t : Nat) : Nat := nget b.netCfg.maxSdu (8 * p + t) 9216

/-- The VLAN of a frame: its tag, or the port's PVID. -/
def Blocks.vlanOf (b : Blocks) (p : Nat) (f : EthFrame) : Nat :=
  match f.vlan with
  | some v => v
  | none => if p = 6 then 1 else fld (b.portMode p) 11 0

/-- The member ports of a VLAN. -/
def Blocks.membersOf (b : Blocks) (v : Nat) : List Nat :=
  match b.netCfg.vlans.find? fun x => x.1 == v with
  | some x => x.2
  | none => []

/-- Learned entries fit beside the static ones in 8,192. -/
def Blocks.fdbRoom (b : Blocks) : Bool := decide (b.net.fdb.length + b.netCfg.statics.length < 8192)

/-- The source address is learned or refreshed. -/
def State.learn (p v : Nat) (mac : BitVec 48) (s : State) : State :=
  if p < 6 && (s.b.portMode p).getLsbD 22 && !mac.getLsbD 40 then
    if s.b.net.fdb.any fun e => e.vlan == v && e.mac == mac then
      s.onNet fun n =>
        { n with fdb := n.fdb.map fun e => if e.vlan = v ∧ e.mac = mac then { e with port := p, at_ := s.b.now } else e }
    else if s.b.fdbRoom then s.onNet fun n => { n with fdb := n.fdb ++ [{ vlan := v, mac := mac, port := p, at_ := s.b.now }] }
    else s
  else s

/-- The egress ports of a frame: static entry, learned entry, or flooding within the VLAN; never the port it came from. -/
def Blocks.egressOf (b : Blocks) (p v : Nat) (dst : BitVec 48) : List Nat :=
  let m := b.membersOf v
  let dest := match b.netCfg.statics.find? (fun x => x.1 == v && x.2.1 == dst) with
    | some x => x.2.2
    | none =>
      match b.net.fdb.find? (fun (e : FdbEntry) => e.vlan == v && e.mac == dst) with
      | some e => [e.port]
      | none => m
  dest.filter fun e => m.contains e && e != p && b.portUp e

/-! ### Streams (R218, R219) -/

/-- The stream handle of a frame, by null or source identification. -/
def Blocks.streamOf (b : Blocks) (v : Nat) (f : EthFrame) : Option Nat :=
  (b.netCfg.streams.find? fun x => x.2.vlan == v && x.2.mac == (if x.2.bySource then f.src else f.dst)).map (·.1)

/-- The first stream filter that a frame meets. -/
def Blocks.filterOf (b : Blocks) (h : Option Nat) : Option (Nat × FilterCfg) :=
  b.netCfg.filters.find? fun x => x.2.handle.isNone || (h.isSome && x.2.handle == h)

/-- A meter's buckets now: full at first, filled at their rates, never above their bursts. -/
def MeterSt.filled (m : MeterSt) (c : MeterCfg) (now : Nat) : Nat × Nat :=
  let dt := now - m.at_
  let fill := fun (have_ : Option Nat) (rate burst : Nat) =>
    match have_ with
    | none => burst * 8000000000
    | some n => min (burst * 8000000000) (n + rate * dt)
  (fill m.committed c.cir c.cbs, fill m.excess c.eir c.ebs)

/-- A frame takes its bits from the committed bucket, else from the excess bucket, else it is red. -/
def MeterSt.take (m : MeterSt) (c : MeterCfg) (now bytes : Nat) : MeterSt × Bool :=
  let v := m.filled c now
  let n := bytes * 8000000000
  if v.1 ≥ n then ({ committed := some (v.1 - n), excess := some v.2, at_ := now }, true)
  else if v.2 ≥ n then ({ committed := some v.1, excess := some (v.2 - n), at_ := now }, true)
  else ({ committed := some v.1, excess := some v.2, at_ := now }, false)

/-- A discard by filter `f`: counted, and source 395 at the first one after a clear. -/
def State.qciDiscard (f : Nat) (s : State) : State :=
  let s1 := s.onNet fun n => { n with qci := nupd n.qci f {} Ctr.inc, qciSeen := true }
  if s.b.net.qciSeen then s1 else s1.raise 395 (mkw f)

/-- Filtering and policing (R218): the state, and whether the frame passes. -/
def State.police (h : Option Nat) (f : EthFrame) (s : State) : State × Bool :=
  match s.b.filterOf h with
  | none => (s, true)
  | some (k, c) =>
    if s.b.net.qciBlocked.contains k then (s.qciDiscard k, false)
    else if f.length > c.maxSdu then
      ((if c.latchOversize then s.onNet fun n => { n with qciBlocked := k :: n.qciBlocked } else s).qciDiscard k, false)
    else
      let closed := match c.gate with
        | some g => s.b.tsy.cellValid && !((nget s.b.net.gates g {}).gates (nget s.b.netCfg.streamGates g {})).getLsbD 0
        | none => false
      if closed then (s.qciDiscard k, false)
      else
        match c.meter with
        | none => (s, true)
        | some m =>
          let r := (nget s.b.net.meters m {}).take (nget s.b.netCfg.meters m {}) s.b.now f.length
          let s1 := s.onNet fun n => { n with meters := nset n.meters m r.1 {} }
          if r.2 then (s1, true) else (s1.qciDiscard k, false)

/-- The 802.1CB stream of a handle. -/
def Blocks.cbOf (b : Blocks) (h : Option Nat) : Option (Nat × CbCfg) :=
  match h with
  | some h => b.netCfg.cb.find? fun x => x.2.handle == h
  | none => none

/-- A 16-bit sequence difference, signed. -/
def seqDelta (x y : Nat) : Int := (BitVec.ofNat 16 x - BitVec.ofNat 16 y).toInt

/-- The vector recovery algorithm on one sequence number: the state after it, and whether the frame passes. -/
def CbSt.recover (c : CbSt) (len resetNs seq now : Nat) : CbSt × Bool :=
  if !c.taken || decide (now ≥ c.lastAt + resetNs) then
    ({ c with taken := true, recovSeq := seq, history := [true], lastAt := now, passed := c.passed.inc }, true)
  else
    let d := seqDelta seq c.recovSeq
    if d ≥ len ∨ d ≤ -(len : Int) then ({ c with rogue := c.rogue.inc }, false)
    else if d ≤ 0 then
      let i := (-d).toNat
      if c.history.getD i false then ({ c with disc := c.disc.inc }, false)
      else
        let h := (List.range (max c.history.length (i + 1))).map fun j => c.history.getD j false || j == i
        ({ c with history := h, lastAt := now, passed := c.passed.inc }, true)
    else
      ({ c with recovSeq := seq, history := (true :: (List.replicate (d.toNat - 1) false ++ c.history)).take len, lastAt := now
                passed := c.passed.inc }, true)

/-- 802.1CB at reception: a tag is generated where the stream asks for one, and duplicates are eliminated. -/
def State.cbPass (p : Nat) (h : Option Nat) (f : EthFrame) (s : State) : State × Option EthFrame :=
  match s.b.cbOf h with
  | none => (s, some f)
  | some (k, c) =>
    let st := nget s.b.net.cb k {}
    let tagged := c.generate && f.rtag.isNone
    let f1 := if tagged then { f with rtag := some st.genSeq, length := f.length + 6 } else f
    let st1 := { st with
      genSeq := if tagged then (st.genSeq + 1) % 65536 else st.genSeq
      memberAt := if c.recover then nset st.memberAt p s.b.now 0 else st.memberAt }
    let r := match c.recover, f1.rtag with
      | true, some q => st1.recover (if c.history = 0 then 16 else c.history) (c.resetMs * 1000000) q s.b.now
      | _, _ => (st1, true)
    (s.onNet fun n => { n with cb := nset n.cb k r.1 {} }, if r.2 then some f1 else none)

/-! ### The packet buffer (R215) -/

/-- Bytes that a port's class holds, the reserved share, and all bytes in use. -/
def Blocks.heldBytes (b : Blocks) (p t : Nat) : Nat :=
  (((b.port p).queued.filter fun x => x.1 == t).map fun x => x.2.length).sum

def Blocks.shareBytes (b : Blocks) (p t : Nat) : Nat :=
  ((b.netCfg.shares.filter fun x => x.1 == p && x.2.1 == t).map fun x => 1024 * x.2.2).sum

def Blocks.bufBytes (b : Blocks) : Nat := (b.net.ports.map fun x => (x.2.queued.map fun y => y.2.length).sum).sum

/-- Shared space that queues use beyond their shares, and shared space there is. -/
def Blocks.sharedUsed (b : Blocks) : Nat :=
  ((List.range 6).flatMap fun p => (List.range 8).map fun t => b.heldBytes p t - b.shareBytes p t).sum

def Blocks.sharedTotal (b : Blocks) : Nat := 1048576 - (b.netCfg.shares.map fun x => 1024 * x.2.2).sum

/-- A frame of `n` bytes finds space for a port's class. -/
def Blocks.bufRoom (b : Blocks) (p t n : Nat) : Bool :=
  decide (b.heldBytes p t + n ≤ b.shareBytes p t) ||
    decide (b.sharedUsed + (b.heldBytes p t + n - max (b.shareBytes p t) (b.heldBytes p t)) ≤ b.sharedTotal)

/-! ### Sending -/

/-- A frame leaves a port. -/
def State.sendOn (p : Nat) (f : EthFrame) (s : State) : State :=
  (s.onPort p fun x => { x with tx := x.tx.inc }).onNet fun n => { n with sentOut := (p, f) :: n.sentOut }

/-- A frame at an egress port: discarded where it is too long for its class; sent where its gate lets it; kept in the
buffer otherwise, or dropped where there is no space. -/
def State.egress (p : Nat) (f : EthFrame) (s : State) : State :=
  if p = 6 then s.onNet fun n => { n with sentOut := (6, f) :: n.sentOut }
  else
    let t := s.b.classOf p f.pcp
    if f.length > s.b.maxSduOf p t then s.onPort p fun x => { x with qdrop := nupd x.qdrop t {} Ctr.inc }
    else if s.b.gateOpen p t (txNs f.length (s.b.portRate p)) && !((s.b.port p).queued.any fun x => x.1 == t) then s.sendOn p f
    else if s.b.bufRoom p t f.length then
      let s1 := s.onPort p fun x => { x with queued := x.queued ++ [(t, f)] }
      s1.onNet fun n => { n with bufPeak := max n.bufPeak s1.b.bufBytes }
    else s.onNet fun n => { n with drop := n.drop.inc }

/-- The next frame a port can send: the highest class whose oldest frame its gate lets go. -/
def Blocks.nextQueued (b : Blocks) (p : Nat) : Option (Nat × EthFrame) :=
  [7, 6, 5, 4, 3, 2, 1, 0].findSome? fun t =>
    match (b.port p).queued.find? fun x => x.1 == t with
    | some x => if b.gateOpen p t (txNs x.2.length (b.portRate p)) then some x else none
    | none => none

/-- Remove the first occurrence of an element. -/
def dropFirst {α : Type} [DecidableEq α] (x : α) : List α → List α
  | [] => []
  | y :: r => if x = y then r else y :: dropFirst x r

/-- A port sends what its gates let go, class by class; `n` bounds the frames. -/
def State.drain (p : Nat) : Nat → State → State
  | 0, s => s
  | n + 1, s =>
    match s.b.nextQueued p with
    | none => s
    | some x => ((s.onPort p fun y => { y with queued := dropFirst x y.queued }).sendOn p x.2).drain p n

/-- A port that carries frames sends what its gates let go. -/
def State.drainPort (p : Nat) (s : State) : State := if s.b.portUp p then s.drain p (s.b.port p).queued.length else s

/-- A buffer error that cannot be corrected lies in a port's queued frame at place `i`: that frame is lost (R215). -/
def State.loseQueued (p i : Nat) (s : State) : State := s.onPort p fun x => { x with queued := x.queued.eraseIdx i }

/-- A frame is cut through to a port (R214). -/
def Blocks.cutsThrough (b : Blocks) (p e : Nat) (f : EthFrame) : Bool :=
  let t := b.classOf e f.pcp
  decide (e ≠ 6) && decide (b.portRate e ≤ b.portRate p) && (b.port e).queued.isEmpty &&
    b.gateOpen e t (txNs (b.maxSduOf e t) (b.portRate e))

/-- One egress of a frame: cut through, ended with the complement of its check where that is wrong, or stored. -/
def State.forwardTo (p : Nat) (f : EthFrame) (e : Nat) (s : State) : State :=
  if s.b.cutsThrough p e f && decide (f.length ≤ s.b.maxSduOf e (s.b.classOf e f.pcp)) then
    let s1 := (s.sendOn e f).onNet fun n => { n with cutThrough := true }
    if f.fcsOk then s1 else (s1.onNet fun n => { n with stomp := n.stomp.inc }).raise 396 (mkw e)
  else if f.fcsOk then s.egress e f
  else s

/-- A frame enters the switch at port `p`, filtered, policed and forwarded. -/
def State.forward (p : Nat) (f : EthFrame) (s : State) : State :=
  if !s.b.netOn then s
  else
    let v := s.b.vlanOf p f
    let f0 := { f with vlan := some v }
    let h := s.b.streamOf v f
    let q := s.police h f0
    if !q.2 then q.1
    else
      let c := q.1.cbPass p h f0
      match c.2 with
      | none => c.1
      | some f1 =>
        let s1 := c.1.learn p v f1.src
        let out := s1.b.egressOf p v f1.dst
        let s2 := forL out (fun e s => s.forwardTo p f1 e) s1
        if !f.fcsOk && p < 6 && !(out.any fun e => s1.b.cutsThrough p e f1) then
          s2.onPort p fun x => { x with rxErr := x.rxErr.inc }
        else s2

/-- A frame handed to port 6 by one of its users (R212). -/
def State.handPort6 (f : EthFrame) (s : State) : State := s.forward 6 f

/-- The hub's base MAC address (R212, R359): a default where region 0 is invalid or torn. -/
def Blocks.baseMac (b : Blocks) : BitVec 48 :=
  if b.otp.invalid.contains 0 || b.otp.torn.contains 0 then 0x020000000000
  else Config.baseMac (b.regionData 0)

/-- The address of external port `p`. -/
def Blocks.portMac (b : Blocks) (p : Nat) : BitVec 48 := b.baseMac + 1 + BitVec.ofNat 48 p

end Sys2Proof.Machine
end

