-- ==== Sys2Proof/Machine/ReadBase.lean ====
section
/-! DEFINITION. Reading registers: what a reader sees (R38, R45, R63), the common page (R36), and the SYS (R48) and TRU (R31)
pages. -/

namespace Sys2Proof.Machine

/-- What one reader sees: the hub as it is, the sentence shown to the reader, and which view of the page is read. -/
structure RView where
  live : Blocks
  snap : Option Snapshot
  rd : Nat
  bView : Bool := false
deriving DecidableEq, Repr

/-- A ROS value: the shown sentence's, the reset value before the first publish (R63). -/
def RView.ros (v : RView) (f : Blocks → Word) : Word :=
  match v.snap with
  | some p => f p.pub
  | none => 0

/-- A ROS value captured at t_c of the shown sentence. -/
def RView.rosCap (v : RView) (f : Blocks → Word) : Word :=
  match v.snap with
  | some p => f p.cap
  | none => 0

/-- A staged register as read (R38, R62): the applied value, not before the sentence it applies at is published. -/
def Blocks.rwsRead (b : Blocks) (addr : Nat) : Word :=
  match b.cfg.rwsShown.find? fun x => x.1 == addr with
  | some x => x.2
  | none => b.set addr

/-- PAGE_ID (R36). -/
def pageId (page : Nat) (bView : Bool) : Word :=
  match pageInfo page with
  | some i =>
    mkw (pl i.code 24 8 + pl (b2n (bView || (i.code == 0x32 && decide (i.inst ≥ 8)))) 23 1 + pl i.inst 16 7 +
      pl 1 8 8 + pl 1 0 8)
  | none => 0

/-- PAGE_CAPS (R36); the capability bits are the unit's (assumption 4). -/
def pageCapsWord (page : Nat) : Word :=
  match pageInfo page with
  | some i => mkw (pl (Config.pageCaps i.code).toNat 16 16 + pl i.count 8 8 + pl (b2n i.bView) 7 1)
  | none => 0

/-- PAGE_TOKEN (R40). -/
def pageToken (t : Token) : Word :=
  mkw (pl t.token.toNat 16 16 + pl t.last 8 8 + pl (b2n t.repeated) 7 1)

/-- Offsets 0x000 to 0x0FF of every page (R36, R461). -/
def readCommon (v : RView) (page off : Nat) : Word :=
  match off with
  | 0x000 => pageId page v.bView
  | 0x004 => pageCapsWord page
  | 0x010 => v.rosCap fun b => b.pageSummary page (if v.bView then b.fcl.b.live else b.fcl.a.live)
  | 0x014 => v.rosCap fun b => b.pageSummary page (if v.bView then b.fcl.b.latch else b.fcl.a.latch)
  | 0x018 => v.live.pageCount page
  | 0x01C => match v.snap with | some p => loW p.sent | none => 0
  | 0x020 => pageToken (v.live.tokenOf page v.rd)
  | _ => 0

/-- A reader's unlock nonce (R47): the draw it was last given, or the one made for it at the last reset. -/
def Blocks.nonceOf (b : Blocks) (rd : Nat) : BitVec 64 :=
  (Config.entropy (match (nget b.sys.experts rd {}).nonce with
    | some n => n
    | none => b.sys.nonceBase + rd)).truncate 64

/-- Seconds of unlock left, rounded up (SYS_EXPERT_STATUS.idle_left). -/
def Expert.idleLeft (e : Expert) (now : Nat) : Nat :=
  if e.unlocked then (600000000000 - (now - e.lastWrite) + 999999999) / 1000000000 else 0

/-- SYS_EXPERT_STATUS (R48). -/
def Expert.status (e : Expert) (now : Nat) : Word :=
  mkw (pl (min (e.idleLeft now) 600) 16 10 + pl (min e.failures 5) 2 3 + pl (b2n e.blockedSince.isSome) 1 1 +
    pl (b2n e.unlocked) 0 1)

/-- SYS_STAGE_STATUS (R48). -/
def Staging.status (g : Staging) : Word :=
  mkw (pl (b2n g.pending) 18 1 + pl (b2n g.overridden) 17 1 + pl (b2n (decide (g.writes.length ≥ 1024))) 16 1 +
    pl g.writes.length 0 16)

/-- The SYS page from 0x100 (R48). -/
def readSys (v : RView) (off : Nat) : Word :=
  match off with
  | 0x100 => mkw (pl Config.stepping.toNat 24 8 + pl v.live.pwr.fwMajor 16 8 + pl v.live.pwr.fwMinor 8 8 + 1)
  | 0x104 =>
    match v.snap with
    | some p => mkw (p.pub.sysStatus + b2n p.intj.isSome)
    | none => 0
  | 0x108 => match v.snap with | some p => loW p.sent | none => 0
  | 0x10C => match v.snap with | some p => mkw (p.sent / 2 ^ 32 % 65536) | none => 0
  | 0x110 => v.live.rwsRead (pSYS + 0x110)
  | 0x118 => (v.live.stagingOf v.rd).status
  | 0x11C => loW (v.live.stagingOf v.rd).applied
  | 0x124 =>
    let f := nget v.live.sys.freezes v.rd {}
    mkw (pl (b2n f.expired) 1 1 + pl (b2n f.frozen) 0 1)
  | 0x12C => (nget v.live.sys.experts v.rd {}).status v.live.now
  | 0x130 => loW (v.live.nonceOf v.rd).toNat
  | 0x134 => hiW (v.live.nonceOf v.rd).toNat
  | 0x160 => match v.snap with | some { intj := some (c, _), .. } => mkw (c % 32768) | _ => 0
  | 0x164 => match v.snap with | some { intj := some (_, t), .. } => loW t | _ => 0
  | 0x168 => match v.snap with | some { intj := some (_, t), .. } => hiW t | _ => 0
  | _ => 0

/-- TRU_INJECT suppresses the edges of XB for 2 microseconds (R31). -/
def Blocks.xbSilent (b : Blocks) : Bool :=
  match b.tru.xbCut with
  | some t => decide (b.now < t + 2000)
  | none => false

/-- TRU_STATUS (R31). -/
def Blocks.truStatus (b : Blocks) : Word :=
  mkw (pl (b2n b.isGm) 5 1 + pl (b2n b.tsy.cellValid) 4 1 + pl (b2n b.tru.baseValid) 3 1 +
    pl (b2n ((idsOf b.fcl.a.live).all fun i => !(decide (48 ≤ i) && decide (i ≤ 53)))) 2 1 +
    pl (b2n (b.tru.bRunning && !b.xbSilent)) 1 1 + pl (b2n b.tru.aRunning) 0 1)

/-- The TRU page from 0x100 (R31). -/
def readTru (v : RView) (off : Nat) : Word :=
  match off with
  | 0x100 => v.ros Blocks.truStatus
  | 0x104 => loW v.live.optime
  | 0x108 => nget v.live.tru.opHi v.rd 0
  | 0x10C => v.rosCap fun b => loW (b.sys.lastCapture - b.tru.aOrigin)
  | 0x110 => v.rosCap fun b => hiW (b.sys.lastCapture - b.tru.aOrigin)
  | 0x114 => mkw v.live.cellNanos
  | 0x118 => nget v.live.tru.cellSecLo v.rd 0
  | 0x11C => nget v.live.tru.cellSecHi v.rd 0
  | 0x120 => v.rosCap fun b => natW (toNative b.tru.diffSent)
  | 0x124 => v.rosCap fun b => natW (toNative b.tru.diffRate)
  | 0x128 => mkw v.live.tru.diffPeak
  | 0x12C => v.rosCap fun b => natW (toNative b.tru.trim)
  | 0x130 => mkw (pl (b2n (v.live.tru.xbEdges && !v.live.xbSilent)) 1 1 + pl (b2n v.live.tru.xaEdges) 0 1)
  | 0x400 => mkw (pl v.live.tru.injectKind.toNat 28 2 + pl v.live.tru.injectOff.toNat 0 20)
  | _ => 0

end Sys2Proof.Machine
end

