-- ==== Sys2Proof/Machine/Recorder.lean ====
section
/-! DEFINITION. The event recorder's making, writing and finding of records (R321 to R332, R335): the shared operations that
the meanings of other blocks call, and the record's layout. -/

namespace Sys2Proof.Machine

/-! ### Slots (R321, R322) -/

/-- Slots of the pinned area, and of the rolling ring. -/
def pinnedSlots : Nat := 32768
def rollingSlots : Nat := 360448

/-- The erase block of a slot. -/
def slotBlock (slot : Nat) : Nat := slot / 128

/-- The next rolling ring position at or after `i` whose block is not retired (R335); at most one turn of the ring. -/
def nextGood (retired : List Nat) : Nat → Nat → Nat
  | 0, i => i % rollingSlots
  | fuel + 1, i =>
    if retired.contains (slotBlock (pinnedSlots + i % rollingSlots)) then
      nextGood retired fuel ((i % rollingSlots / 128 + 1) * 128)
    else i % rollingSlots

/-- The slot a record with number `seq` takes next (R321, R335): pinned while the pinned area lasts, rolling otherwise. -/
def Recorder.slotFor (r : Recorder) (seq : Nat) : Nat :=
  if seq ≤ 32768 ∧ r.nextPinned < pinnedSlots ∧ ¬ r.retired.contains (slotBlock r.nextPinned) then r.nextPinned
  else pinnedSlots + nextGood r.retired 2816 r.nextSlot

/-- The recorder with a slot used up. -/
def Recorder.usedSlot (r : Recorder) (slot : Nat) : Recorder :=
  if slot < pinnedSlots then { r with nextPinned := slot + 1 }
  else { r with nextSlot := (slot - pinnedSlots + 1) % rollingSlots }

/-- A slot already holds data. -/
def Recorder.slotHeld (r : Recorder) (slot : Nat) : Bool := (nget r.nand slot none).isSome

/-- The block of the next slot still holds records: it is erased before it is written again (R322). -/
def Recorder.needsErase (r : Recorder) : Bool :=
  match r.buffer with
  | [] => false
  | x :: _ =>
    let slot := r.slotFor x.seq
    decide (slot ≥ pinnedSlots) && slot % 128 == 0 &&
      r.nand.any fun e => slotBlock e.1 == slotBlock slot && e.2.isSome

/-! ### Layout (R323) -/

/-- Bytes 0 to 959 of a record: header and payload. -/
def Record.front (r : Record) : List Byte :=
  beBytes 1 2 ++ beBytes r.payloadKind 2 ++ beBytes r.seq 6 ++ beBytes r.opTime 7 ++ [r.flags] ++
    beBytes r.powerCycles 4 ++ beBytes r.cellSec 6 ++ beBytes r.cellNs 4 ++ beBytes r.sentence 6 ++
    beBytes r.trigger 1 ++ beBytes r.profile 1 ++ beBytes r.lost 2 ++ beBytes r.words 2 ++ beBytes r.epoch 2 ++
    beBytes r.lc 1 ++ [0] ++ beBytes r.generation 2 ++ beBytes r.fwMajor 1 ++ beBytes r.fwMinor 1 ++
    fitBytes r.detail 12 ++ fitBytes r.payload 896

/-- Footer bytes 8 to 63. -/
def Record.back (r : Record) : List Byte :=
  beBytes r.prevCrc.toNat 8 ++ beBytes r.listDigest.toNat 4 ++ List.replicate 44 0

/-- The check over the slot number, bytes 0 to 959 and footer bytes 8 to 63. -/
def Record.check (r : Record) : BitVec 64 := crc64 (beBytes r.slot 4 ++ r.front ++ r.back)

/-- The 1,024 bytes as stored. -/
def Record.bytes (r : Record) : List Byte := r.front ++ beBytes r.crc.toNat 8 ++ r.back

/-- A record given its slot and the check of its predecessor. -/
def Record.placed (r : Record) (slot : Nat) (prev : BitVec 64) : Record :=
  let r1 := { r with slot := slot, prevCrc := prev }
  { r1 with crc := r1.check }

/-- The crc field of the record numbered one less; 0 where it is unknown. -/
def Recorder.prevFor (r : Recorder) (seq : Nat) : BitVec 64 := if r.lastSeq + 1 = seq then r.lastCrc else 0

/-- The slot that record `seq` will take behind those buffered. -/
def Recorder.slotBehind (r : Recorder) (seq : Nat) : List Record → Nat
  | [] => r.slotFor seq
  | x :: rest => (r.usedSlot (r.slotFor x.seq)).slotBehind seq rest

/-- The place of a record of the volatile ring, as its slot number (R323). -/
def ringSlot (seq : Nat) : Nat := 0xFFFF0000 + seq % 512

/-- The slots for which `gone` holds have been erased or used again: windows still reading them are overtaken (R333). -/
def Recorder.overtake (r : Recorder) (gone : Nat → Bool) : Recorder :=
  { r with windows := nmapv r.windows {} fun _ w =>
      match w.slot with
      | some s => if w.reading && gone s then { w with state := 2 } else w
      | none => w }

/-- The buffer's records as they will be stored, oldest first. -/
def Recorder.upcoming (r : Recorder) : List Record → List Record
  | [] => []
  | x :: rest =>
    let slot := r.slotFor x.seq
    let y := x.placed slot (r.prevFor x.seq)
    y :: ({ (r.usedSlot slot) with lastCrc := y.crc, lastSeq := y.seq }).upcoming rest

/-! ### Profiles (R326) -/

/-- The first enabled profile for a trigger whose filter the event meets, with its number. -/
def Blocks.profileFor (b : Blocks) (trig : Nat) (ok : Profile → Bool) : Option (Nat × Profile) :=
  b.img.profiles.find? fun x => x.2.en && x.2.trigger == trig && ok x.2

/-- Whether the recorder reads a register as 0: the KEY page and SYS_PROOF0 to 7. -/
def recorderBlind (addr : Nat) : Bool :=
  addr / 4096 == pKEY / 4096 || (decide (pSYS + 0x140 ≤ addr) && decide (addr ≤ pSYS + 0x15C))

/-- A register snapshot from the newest published sentence: ROS, RO and RW registers alike as of its publish. -/
def State.snapshotWords (addrs : List Nat) (s : State) : List Byte :=
  addrs.flatMap fun a =>
    let w := match s.shown with
      | some p => nget p.listed a 0
      | none => Config.unsnapped a
    beBytes (if recorderBlind a then 0 else w.toNat) 4

/-- The first four bytes of the SHA-256 of a profile's address list. -/
def listDigest (addrs : List Nat) : Word :=
  BitVec.ofNat 32 ((Config.sha256 (addrs.flatMap fun a => beBytes a 4)).toNat / 2 ^ 224)

/-! ### Making a record (R328, R331, R332, R335) -/

/-- The header fields every record takes at its trigger. -/
def State.recordBase (trig : Nat) (detail : List Byte) (s : State) : Record :=
  { opTime := s.b.optime
    flags := BitVec.ofNat 8 (b2n s.b.tsy.cellValid + pl (b2n s.b.recd.isVolatile) 2 1)
    powerCycles := s.b.recd.powerCycles
    cellSec := s.b.cellSec
    cellNs := s.b.cellNanos
    sentence := match s.shown with | some p => p.sent | none => 0
    trigger := trig
    epoch := s.b.tsy.epoch
    lc := s.b.life.code
    generation := match s.b.cfg.image with | some im => im.generation | none => 0
    fwMajor := s.b.pwr.fwMajor
    fwMinor := s.b.pwr.fwMinor
    detail := detail }

/-- A record is lost: it takes no number, and the next one made carries the count (R328, R332). -/
def State.loseRecord (s : State) : State := s.onRecd fun r => { r with lostNow := r.lostNow + 1 }

/-- The record made last, as it will be stored. -/
def Recorder.madeLast (r : Recorder) : List Byte :=
  match (if r.isVolatile then r.ring.head? else (r.upcoming r.buffer).getLast?) with
  | some x => x.bytes
  | none => []

/-- A fault-round record is sent to every management session that has subscribed (R436). -/
def State.notify (s : State) : State :=
  let bytes := s.b.recd.madeLast
  s.on fun b =>
    { b with mgmt := nmapv b.mgmt {} fun _ x =>
        if x.notices then { x with responses := ([0x86, 0, 0, 0] ++ beBytes bytes.length 4 ++ bytes) :: x.responses } else x }

/-- A record enters the buffer or the volatile ring with the next sequence number; the head hint is rewritten (R331). -/
def State.enterRecord (x : Record) (s : State) : State :=
  let r := s.b.recd
  let seq := r.seq + 1
  let y := { x with seq := seq, lost := min r.lostNow 0xFFFF }
  let lostBefore := r.lostNow
  let s1 :=
    if r.isVolatile then
      s.onRecd fun r =>
        let z := y.placed (ringSlot seq) (r.prevFor seq)
        { (r.overtake fun k => k == ringSlot seq) with
                 seq := seq, ring := (z :: r.ring).take 512
                 buffer := r.buffer.drop (r.buffer.length + r.ring.length + 1 - 512), lastCrc := z.crc, lastSeq := seq, lostNow := 0
                 lost := if lostBefore = 0 then r.lost else r.lost.inc lostBefore }
    else
      s.onRecd fun r =>
        { r with seq := seq, buffer := r.buffer ++ [y], bufPeak := max r.bufPeak (r.buffer.length + 1), lostNow := 0
                 lost := if lostBefore = 0 then r.lost else r.lost.inc lostBefore }
  let s2 := s1.onPwr fun p =>
    { p with ret := { p.ret with written := true, hintSeq := seq, hintSlot := r.slotBehind seq r.buffer } }
  let s3 := if x.trigger = 0x01 then s2.notify else s2
  if lostBefore = 0 then s3 else s3.raise 489

/-- A record made before the start's search has ended waits in the buffer without a number (R331). -/
def State.holdRecord (x : Record) (s : State) : State :=
  s.onRecd fun r => { r with buffer := r.buffer ++ [x], bufPeak := max r.bufPeak (r.buffer.length + 1) }

/-- Make a record of `x`: it is held, entered or lost by the rules of R328, R330, R331 and R332. -/
def State.makeRecord (priority : Bool) (x : Record) (s : State) : State :=
  let r := s.b.recd
  if ¬ r.accepting ∨ r.stuck then s.loseRecord
  else if ¬ r.headFound then
    if r.buffer.length ≥ (if priority then 512 else 480) then s.loseRecord else s.holdRecord x
  else if r.seq + 1 ≥ 2 ^ 48 then
    ((s.onRecd fun r => { r with stuck := true }).loseRecord).raise 491
  else if r.isVolatile then s.enterRecord x
  else if r.buffer.length ≥ (if priority then 512 else 480) then s.loseRecord
  else s.enterRecord x

/-- Triggers whose records are priority records whatever they say (R328). -/
def alwaysPriority (trig : Nat) : Bool := [0x04, 0x06, 0x07, 0x08, 0x0D, 0x0E].contains trig

/-- A trigger's record with a register snapshot where a profile matches (R326). `ok` is the profile's filter. -/
def State.recordWith (trig : Nat) (detail : List Byte) (priority : Bool) (ok : Profile → Bool) (flags : Byte)
    (s : State) : State :=
  let base := s.recordBase trig detail
  let base := { base with flags := base.flags ||| flags }
  match s.b.profileFor trig ok with
  | some (k, p) =>
    s.makeRecord (priority || alwaysPriority trig)
      { base with payloadKind := 1, profile := k, words := p.addrs.length
                  payload := s.snapshotWords p.addrs, listDigest := listDigest p.addrs }
  | none =>
    if trig = 0x02 then s else s.makeRecord (priority || alwaysPriority trig) base

/-- A trigger's record with no filter. -/
def State.record (trig : Nat) (detail : List Byte) (s : State) : State :=
  s.recordWith trig detail false (fun _ => true) 0

/-- A configuration-change record (trigger 0x03): action, port, generation and image digest. -/
def State.recordConfig (action port : Nat) (im : Image) (s : State) : State :=
  s.recordWith 0x03
    (beBytes action 1 ++ beBytes port 1 ++ beBytes im.gen 2 ++ beBytes (im.digest.toNat / 2 ^ 224) 4)
    (action == 3) (fun _ => true) 0

/-- A function state change (trigger 0x02): recorded only where a profile's range of instances holds it. -/
def State.recordFn (inst kind zone old new : Nat) (s : State) : State :=
  s.recordWith 0x02 (beBytes inst 2 ++ beBytes kind 1 ++ beBytes zone 1 ++ beBytes old 1 ++ beBytes new 1) false
    (fun p => decide (p.lo ≤ inst) && decide (inst ≤ p.hi)) 0

/-! ### Writing (R329, R335) -/

/-- The oldest buffered record is written to its slot, with or without its valid mark; a slot without a mark is torn and
the record stays due for the next slot. -/
def Recorder.program (r : Recorder) (ok : Bool) : Recorder :=
  match r.buffer with
  | [] => r
  | x :: rest =>
    let slot := r.slotFor x.seq
    let y := x.placed slot (r.prevFor x.seq)
    let r1 := { (r.usedSlot slot) with nand := nset r.nand slot (some { record := y, marked := ok }) none }
    if ok then { r1 with buffer := rest, lastCrc := y.crc, lastSeq := y.seq, failsInRow := 0 }
    else { r1 with failsInRow := r.failsInRow + 1 }

/-- Write up to `n` buffered records in sequence order: the flush of R330. Every slot's block is taken as erased. -/
def Recorder.flush (n : Nat) (r : Recorder) : Recorder :=
  match n with
  | 0 => r
  | n + 1 =>
    let r1 := if r.needsErase then
        match r.buffer with
        | x :: _ => { r with nand := r.nand.filter fun e => slotBlock e.1 != slotBlock (r.slotFor x.seq)
                             erases := nupd r.erases (slotBlock (r.slotFor x.seq)) 0 (· + 1) }
        | [] => r
      else r
    (r1.program true).flush n

/-- Records that a start may use: marked, checked, and not cleared (R324, R331, R334). -/
def Recorder.valid (r : Recorder) : List Record :=
  r.nand.filterMap fun e =>
    match e.2 with
    | some x => if x.marked && x.record.check == x.record.crc && x.record.slot == e.1 then some x.record else none
    | none => none

/-- The newest valid record (R331): the highest sequence number. -/
def Recorder.newest (r : Recorder) : Option Record :=
  r.valid.foldl (fun m x =>
    match m with
    | none => some x
    | some y => if y.seq < x.seq then some x else some y) none

end Sys2Proof.Machine
end

