-- ==== Sys2Proof/Machine/Sys.lean ====
section
/-! DEFINITION. The commands of the SYS and TRU pages and the clear commands of every page: staging, freeze, expert unlock
(R42, R46, R47, R60, R61), latched wide reads and the cross-check injection (R31), and queuing a clear (R37, R314). -/

namespace Sys2Proof.Machine

/-! ### Wide values latched per reader (R31) -/

/-- Reading TRU_OPTIME_LO latches the upper half for that reader. -/
def State.latchOptime (rd : Nat) (s : State) : State :=
  s.onTru fun u => { u with opHi := nset u.opHi rd (hiW s.b.optime) 0 }

/-- Reading TRU_CELL_NS latches the seconds for that reader. -/
def State.latchCell (rd : Nat) (s : State) : State :=
  s.onTru fun u =>
    { u with cellSecLo := nset u.cellSecLo rd (loW s.b.cellSec) 0
             cellSecHi := nset u.cellSecHi rd (mkw (s.b.cellSec / 2 ^ 32 % 65536)) 0 }

def execTruOptimeLoRead (t : Nat) (rd : Reader) (s : State) : Host.Outcome State Fault Refusal :=
  .next ((s.tick t).latchOptime rd.idx)

def execTruCellNsRead (t : Nat) (rd : Reader) (s : State) : Host.Outcome State Fault Refusal :=
  .next ((s.tick t).latchCell rd.idx)

/-! ### Expert writes (R38, R47) -/

/-- An RWX write at an address of a page: only under the reader's unlock, whose idle time it restarts; the recorder records
it (R325). A write that is both without the unlock and in a state that refuses it is answered "not authorised".
DESIGN CHOICE (log 62). -/
def State.expertAt (rd : Reader) (page addr : Nat) (w : Word) (run : State → State × Nat) (s : State) : State :=
  s.plain rd page fun s =>
    if s.b.unlocked rd then
      run ((s.onSys fun y =>
          { y with experts := nupd y.experts rd.idx {} fun e => { e with lastWrite := s.b.now } }).record 0x0B
        (beBytes rd.port 1 ++ beBytes addr 4 ++ beBytes w.toNat 4))
    else (s, rNotAuth)

/-- An RWX write in the A view. -/
def State.expert (rd : Reader) (addr : Nat) (w : Word) (run : State → State × Nat) (s : State) : State :=
  s.expertAt rd (addr / 4096 * 4096) addr w run

/-- TRU_INJECT (R31): only in MANUFACTURE. -/
def State.truInject (w : Word) (s : State) : State × Nat :=
  if s.b.life = .manufacture then
    (s.onTru fun u => { u with injectKind := BitVec.ofNat 2 (fld w 29 28), injectOff := BitVec.ofNat 20 (fld w 19 0) },
      rDone)
  else (s, rRefused)

def execTruInject (t : Nat) (rd : Reader) (w : Word) (s : State) : Host.Outcome State Fault Refusal :=
  .next ((s.tick t).expert rd (pTRU + 0x400) w (State.truInject w))

/-! ### Clear commands (R36, R37, R314) -/

/-- A clear waits for the close of the next round; with clear = 0 it clears nothing. -/
def State.queueClear (rd page : Nat) (whole : Bool) (w : Word) (s : State) : State × Nat :=
  if w.getLsbD 15 then
    (s.onFcl fun f =>
      { f with
        clears := f.clears ++
          [{ reader := rd, page := page, whole := whole, source := fld w 8 0, all := w.getLsbD 14, token := wTok w }]
        roundOpen := true },
      rPending)
  else (s, rBadArg)

/-- Pairs 1 to 3 cannot clear (R314). -/
def mayClear (rd : Reader) : Bool :=
  match rd with
  | .pair k => decide (k.val = 0)
  | _ => true

/-- PAGE_FLT_LATCH of a page. -/
def State.pageClear (rd : Reader) (page : Nat) (w : Word) (s : State) : State :=
  if s.b.speaks rd && !mayClear rd then s.refuseCommand rd page
  else s.wt rd page (wTok w) (State.queueClear rd.idx page false w)

/-- FCL_CLEAR: any source. -/
def State.fclClear (rd : Reader) (w : Word) (s : State) : State :=
  s.wt rd pFCL (wTok w) (State.queueClear rd.idx pFCL true w)

/-- PAGE_FLT_LATCH_CLEAR; an address that is no page's is refused like any unmapped access (R33). -/
def execPageFltLatchClear (t : Nat) (rd : Reader) (page : Nat) (w : Word) (s : State) :
    Host.Outcome State Fault Refusal :=
  .next (match splitAddr page with
    | some (p, _, _) => (s.tick t).pageClear rd p w
    | none => s.tick t)

def execFclClear (t : Nat) (rd : Reader) (w : Word) (s : State) : Host.Outcome State Fault Refusal :=
  .next ((s.tick t).fclClear rd w)

/-! ### Staging (R42, R60, R61) -/

/-- A change of the staging set that a reader writes to. -/
def State.onStaging (rd : Nat) (f : Staging → Staging) (s : State) : State :=
  s.onSys fun y => { y with staging := nupd y.staging (setOf rd) {} f }

/-- Commit: the set waits for the first capture at least 2 microseconds away (R60); refused while one waits (R61). -/
def State.stageCommit (rd : Nat) (token : BitVec 16) (s : State) : State × Nat :=
  if (s.b.stagingOf rd).pending then (s, rRefused)
  else (s.onStaging rd fun g => { g with pending := true, issued := s.b.now, token := token, committer := rd }, rPending)

/-- Discard: the set is emptied (R42); refused while a commit waits (R61). -/
def State.stageDiscard (rd : Nat) (s : State) : State × Nat :=
  if (s.b.stagingOf rd).pending then (s, rRefused)
  else (s.onStaging rd fun g => { g with writes := [] }, rDone)

def execStageCommit (t : Nat) (rd : Reader) (token : BitVec 16) (s : State) : Host.Outcome State Fault Refusal :=
  .next ((s.tick t).wt rd pSYS token (State.stageCommit rd.idx token))

def execStageDiscard (t : Nat) (rd : Reader) (token : BitVec 16) (s : State) : Host.Outcome State Fault Refusal :=
  .next ((s.tick t).wt rd pSYS token (State.stageDiscard rd.idx))

/-! ### Freeze (R46, R63) -/

def State.onFreeze (rd : Nat) (f : Freeze → Freeze) (s : State) : State :=
  s.onSys fun y => { y with freezes := nupd y.freezes rd {} f }

/-- The sentence a reader is shown: its hold copy while frozen, the published one otherwise. -/
def State.viewOf (s : State) (rd : Nat) : Option Snapshot :=
  if (nget s.b.sys.freezes rd {}).frozen then nget s.holds rd none else s.shown

/-- Freeze at the sentence shown now. -/
def State.freeze (rd : Nat) (s : State) : State × Nat :=
  ({ (s.onFreeze rd fun _ => { frozen := true, since := s.b.now, expired := false }) with
     holds := nset s.holds rd (s.viewOf rd) none }, rDone)

/-- Release the view. -/
def State.unfreeze (rd : Nat) (s : State) : State × Nat :=
  ({ (s.onFreeze rd fun f => { f with frozen := false, since := 0 }) with holds := nset s.holds rd none none }, rDone)

/-- A freeze ends after 100 ms with source 7; a freeze that has not lasted that long goes on. -/
def State.freezeExpire (rd : Nat) (s : State) : State :=
  let f := nget s.b.sys.freezes rd {}
  if f.frozen ∧ s.b.now ≥ f.since + 100000000 then
    ({ (s.onFreeze rd fun _ => { frozen := false, since := 0, expired := true }) with
       holds := nset s.holds rd none none }).raise 7 (mkw rd)
  else s

def execFreeze (t : Nat) (rd : Reader) (token : BitVec 16) (s : State) : Host.Outcome State Fault Refusal :=
  .next ((s.tick t).wt rd pSYS token (State.freeze rd.idx))

def execFreezeRelease (t : Nat) (rd : Reader) (token : BitVec 16) (s : State) : Host.Outcome State Fault Refusal :=
  .next ((s.tick t).wt rd pSYS token (State.unfreeze rd.idx))

def execFreezeExpired (t : Nat) (rd : Reader) (s : State) : Host.Outcome State Fault Refusal :=
  .next ((s.tick t).freezeExpire rd.idx)

/-! ### Expert unlock (R47, R424) -/

def State.onExpert (rd : Nat) (f : Expert → Expert) (s : State) : State :=
  s.onSys fun y => { y with experts := nupd y.experts rd {} f }

/-- A new nonce is drawn for a reader. -/
def State.newNonce (rd : Nat) (s : State) : State :=
  { (s.onExpert rd fun e => { e with nonce := some s.draws }) with draws := s.draws + 1 }

/-- The 256 bits of SYS_PROOF0 to 7, word 0 least significant. -/
def Expert.proofValue (e : Expert) : BitVec 256 :=
  BitVec.ofNat 256 (forN 8 (fun j n => n + (nget e.proof j 0).toNat * 2 ^ (32 * j)) 0)

/-- The password proof over the reader's nonce, the cell identity and the port (R424). -/
def Blocks.proofFor (b : Blocks) (rd : Reader) (im : Image) : BitVec 256 :=
  Config.hmac im.key (beBytes (b.nonceOf rd.idx).toNat 8 ++ beBytes im.cellId.toNat 8 ++ beBytes rd.port 1)

/-- The reader's proof is right for the running image's password. -/
def Blocks.proofOk (b : Blocks) (rd : Reader) : Bool :=
  match b.cfg.image with
  | some im => (nget b.sys.experts rd.idx {}).proofValue == b.proofFor rd im
  | none => false

/-- An unlock attempt. -/
def State.unlock (rd : Reader) (s : State) : State × Nat :=
  let e := nget s.b.sys.experts rd.idx {}
  if e.blockedSince.isSome then (s.newNonce rd.idx, rRefused)
  else if s.b.proofOk rd then
    ((s.onExpert rd.idx fun e => { e with unlocked := true, lastWrite := s.b.now, failures := 0 }).newNonce rd.idx,
      rDone)
  else if e.failures + 1 ≥ 5 then
    ((((s.onExpert rd.idx fun e => { e with failures := 5, blockedSince := some s.b.now }).newNonce rd.idx).raise 8
      (mkw rd.idx)).raise 9 (mkw rd.idx), rNotAuth)
  else
    (((s.onExpert rd.idx fun e => { e with failures := e.failures + 1 }).newNonce rd.idx).raise 8 (mkw rd.idx),
      rNotAuth)

/-- Lock: the unlock ends. -/
def State.lock (rd : Nat) (s : State) : State × Nat :=
  (s.onExpert rd fun e => { e with unlocked := false, lastWrite := 0 }, rDone)

/-- 600 s without an RWX write end the unlock. -/
def State.expertIdle (rd : Nat) (s : State) : State :=
  let e := nget s.b.sys.experts rd {}
  if e.unlocked ∧ s.b.now ≥ e.lastWrite + 600000000000 then
    s.onExpert rd fun e => { e with unlocked := false, lastWrite := 0 }
  else s

/-- The 60 s block ends and the failure count restarts. -/
def State.expertBlockEnd (rd : Nat) (s : State) : State :=
  match (nget s.b.sys.experts rd {}).blockedSince with
  | some t0 =>
    if s.b.now ≥ t0 + 60000000000 then s.onExpert rd fun e => { e with blockedSince := none, failures := 0 } else s
  | none => s

def execExpertUnlock (t : Nat) (rd : Reader) (token : BitVec 16) (s : State) : Host.Outcome State Fault Refusal :=
  .next ((s.tick t).wt rd pSYS token (State.unlock rd))

def execExpertLock (t : Nat) (rd : Reader) (token : BitVec 16) (s : State) : Host.Outcome State Fault Refusal :=
  .next ((s.tick t).wt rd pSYS token (State.lock rd.idx))

def execExpertIdleTimeout (t : Nat) (rd : Reader) (s : State) : Host.Outcome State Fault Refusal :=
  .next ((s.tick t).expertIdle rd.idx)

def execExpertBlockEnd (t : Nat) (rd : Reader) (s : State) : Host.Outcome State Fault Refusal :=
  .next ((s.tick t).expertBlockEnd rd.idx)

end Sys2Proof.Machine
end

