-- ==== Sys2Proof/Machine/Cores.lean ====
section
/-! DEFINITION. Core pairs and the agreement unit (R258 to R283); the checkpoint queues are in Checkpoints.lean: release,
blocking, splitting, core-fed words, alive supervision, frames, timers, the read window, debug, and the AGR and CPR pages. -/

namespace Sys2Proof.Machine

/-! ### Pairs -/

def Blocks.pairOf (b : Blocks) (k : Nat) : Pair := nget b.agr.pairs k {}
def Blocks.pairCfg (b : Blocks) (k : Nat) : PairCfg := nget b.img.pairs k {}

def State.onPair (k : Nat) (f : Pair → Pair) (s : State) : State :=
  s.onAgr fun a => { a with pairs := nupd a.pairs k {} f }

/-- One core of a pair. -/
def Pair.core (p : Pair) : Ch → Core
  | .a => p.a
  | .b => p.b

def Pair.onCore (p : Pair) (c : Ch) (f : Core → Core) : Pair :=
  match c with
  | .a => { p with a := f p.a }
  | .b => { p with b := f p.b }

/-- The leading core: the higher retirement count, core A where both are equal (R262). -/
def Pair.leads (p : Pair) : Ch := if p.b.retired.toNat > p.a.retired.toNat then .b else .a

/-- Entries that wait for their match, and since when the oldest waits (R265). -/
def Pair.lag (p : Pair) : Nat := max p.a.queue.length p.b.queue.length

def Pair.oldest (p : Pair) : Option Nat :=
  match p.a.queue, p.b.queue with
  | x :: _, y :: _ => some (min x.1 y.1)
  | x :: _, [] => some x.1
  | [], y :: _ => some y.1
  | [], [] => none

/-- The oldest entry's age in microseconds. -/
def Pair.lagUs (p : Pair) (now : Nat) : Nat :=
  match p.oldest with
  | some t => (now - t) / 1000
  | none => 0

/-- The largest lag since the last clear, by entries and by age. -/
def Pair.peaked (p : Pair) (now : Nat) : Pair :=
  { p with lagPeakN := max p.lagPeakN p.lag, lagPeakUs := max p.lagPeakUs (p.lagUs now) }

/-- Nothing more is released from the pair (R266). The raise is the caller's. -/
def State.blockPair (k : Nat) (s : State) : State :=
  s.onPair k fun p =>
    if p.state = 1 then { p with state := 2, blocked := true } else if p.state = 3 then { p with blocked := true } else p

/-- Sources 449 to 451 block every pair (R266). -/
def State.blockAll (s : State) : State := forN 4 State.blockPair s

/-- What the record of a pair's source names: pair, entry kind, and the low 12 bits of both heads' retirement counts. -/
def Pair.headDetail (p : Pair) (k : Nat) : Word :=
  let head := fun (q : List (Nat × Entry)) => match q with
    | x :: _ => x.2.retired.toNat
    | [] => 0
  let kind := match p.a.queue, p.b.queue with
    | x :: _, _ => x.2.kind
    | [], y :: _ => y.2.kind
    | [], [] => 0
  mkw (pl k 30 2 + pl kind 24 4 + pl (head p.a.queue) 12 12 + pl (head p.b.queue) 0 12)

/-- A source of pair `k` that blocks it. -/
def State.failPair (src k : Nat) (s : State) : State :=
  (s.raise (src + k) ((s.b.pairOf k).headDetail k) none k).blockPair k

/-- Pair `k` became blocked in the round that is open: what else fails in it is raised too (R279). -/
def Blocks.failsNow (b : Blocks) (k : Nat) : Bool :=
  decide ((b.pairOf k).state = 2) && b.fcl.arrivals.any fun x => ([452 + k, 456 + k, 460 + k] : List Nat).contains x.id

/-- The oldest unmatched entry has waited 50 microseconds (R265). -/
def State.agreementTimeout (k : Nat) (s : State) : State :=
  let p := s.b.pairOf k
  if (p.state = 1 ∨ s.b.failsNow k) ∧ p.oldest.isSome ∧ p.lagUs s.b.now ≥ 50 then
    (s.onPair k fun p => p.peaked s.b.now).failPair 456 k
  else s

def execAgreementTimeout (t : Nat) (k : Fin 4) (s : State) : Host.Outcome State Fault Refusal :=
  .next ((s.tick t).agreementTimeout k.val)

/-! ### Release from reset (R261) -/

/-- The program of a pair, as the bytes its region starts with: the loaded firmware's body for pair 0 under what the image
adds, the image's sections for the others; none where there is no program. -/
def Blocks.pairProgram (b : Blocks) (k : Nat) : Option (NMap Byte) :=
  if k = 0 then
    if b.pwr.fwLoaded then
      some (match (nget b.cfg.slots (8 + b.pwr.fwSlot) {}).fw with
        | some f => f.body
        | none => [])
    else none
  else if b.running then (b.pairCfg k).program
  else none

/-- The entry address of pair `k`: the firmware header's offset into the region for pair 0 (R413), the image's for the others. -/
def Blocks.pairEntry (b : Blocks) (k : Nat) : Word :=
  if k = 0 ∧ b.pwr.fwLoaded then
    match (nget b.cfg.slots (8 + b.pwr.fwSlot) {}).fw with
    | some f => 0x80000000 + f.entry
    | none => 0
  else (b.pairCfg k).entry

/-- The pair's CPR block is in block reset. -/
def Blocks.cprReset (b : Blocks) (k : Nat) : Bool :=
  b.inReset.any fun x => match x with
    | .cpr j => j.val == k
    | _ => false

/-- A pair released: cores at 0, queues empty, the region filled in both channels; without a program it stays in reset as
state 4; while its split is held it is split. -/
def Blocks.released (b : Blocks) (k : Nat) (p : Pair) : Pair :=
  match b.pairProgram k with
  | none => if p.state = 0 ∧ b.running then { p with state := 4 } else p
  | some m =>
    { p with
      state := if b.agr.split.getLsbD k then 3 else 1
      a := {}, b := {}, aligned := false, aliveAt := b.now, aliveExp := false
      memA := nnorm m 0, memB := nnorm m 0 }

/-- Both cores leave reset together, once the pair's block reset has completed. Nothing is released twice. -/
def State.pairRelease (k : Nat) (s : State) : State :=
  if ((s.b.pairOf k).state = 0 ∨ (s.b.pairOf k).state = 4) ∧ s.b.cprReset k = false then s.onPair k (s.b.released k) else s

def execPairRelease (t : Nat) (k : Fin 4) (s : State) : Host.Outcome State Fault Refusal :=
  .next ((s.tick t).pairRelease k.val)

/-! ### A pair's own registers (R267, R268, R269, R282, R283) -/

/-- A write that only the page's own pair may make. -/
def State.ownPair (rd : Reader) (k : Nat) (run : State → State × Nat) (s : State) : State :=
  match rd with
  | .pair j =>
    if s.b.speaks rd = false then s
    else if j.val = k then (run s).1.result rd (pCPR k) (run s).2
    else s.refuseWrite rd (pCPR k)
  | _ => s.result rd (pCPR k) rNotAuth

/-- The range of a pair's core-fed words. -/
def Blocks.cfwCount (b : Blocks) (k : Nat) : Nat := (b.pairCfg k).cfwCount

/-- A released write to CPR_CFWj: bits [31:20] are the sign extension of bit 19, and j is one of the pair's words. A word
released while the pair is alive-expired stays invalid. -/
def State.cfwWrite (k j : Nat) (w : Word) (s : State) : State × Nat :=
  if (w.truncate 20).signExtend 32 = w ∧ j < s.b.cfwCount k then
    (s.onPair k fun p => { p with cfw := nset p.cfw j { val := w.truncate 20, ok := !p.aliveExp } {} }, rDone)
  else (s, rBadArg)

def execCprCfwWrite (t : Nat) (rd : Reader) (k : Fin 4) (j : Nat) (w : Word) (s : State) :
    Host.Outcome State Fault Refusal :=
  .next ((s.tick t).ownPair rd k.val (State.cfwWrite k.val j w))

/-- CPR_CFW_INV: word j becomes invalid. -/
def State.cfwInv (k : Nat) (w : Word) (s : State) : State × Nat :=
  let j := fld w 8 0
  if j < s.b.cfwCount k then
    (s.onPair k fun p => { p with cfw := nset p.cfw j { nget p.cfw j {} with ok := false } {} }, rDone)
  else (s, rBadArg)

/-- A token command that only the page's own pair may give. -/
def State.ownWt (rd : Reader) (k : Nat) (w : Word) (run : State → State × Nat) (s : State) : State :=
  match rd with
  | .pair j => if j.val = k then s.wt rd (pCPR k) (wTok w) run else
      if s.b.speaks rd = false then s else s.refuseCommand rd (pCPR k)
  | _ => (s.result rd (pCPR k) rNotAuth).onToken (pCPR k) rd.idx fun e => { e with repeated := false }

def execCprCfwInv (t : Nat) (rd : Reader) (k : Fin 4) (w : Word) (s : State) : Host.Outcome State Fault Refusal :=
  .next ((s.tick t).ownWt rd k.val w (State.cfwInv k.val w))

/-- Any write to CPR_ALIVE refreshes the alive instant and ends alive-expired. -/
def State.cprAlive (k : Nat) (s : State) : State × Nat :=
  (s.onPair k fun p => { p with aliveAt := s.b.now, aliveExp := false }, rDone)

def execCprAliveWrite (t : Nat) (rd : Reader) (k : Fin 4) (_ : Word) (s : State) : Host.Outcome State Fault Refusal :=
  .next ((s.tick t).ownPair rd k.val (State.cprAlive k.val))

/-- At a capture, a pair whose last refresh is older than t_alive becomes alive-expired (R269). -/
def State.judgeAlive (k : Nat) (s : State) : State :=
  let p := s.b.pairOf k
  let c := s.b.pairCfg k
  if s.b.running ∧ (p.state = 1 ∨ p.state = 2 ∨ p.state = 3) ∧ ¬ p.aliveExp ∧ c.tAlive ≠ 0 ∧
      s.b.now > p.aliveAt + c.tAlive * 10000 then
    (s.onPair k fun p => { p with aliveExp := true }).raise 475 (mkw k) none k
  else s

/-- ALIVE_EXPIRED comes at a capture. -/
def execAliveExpired (t : Nat) (k : Fin 4) (s : State) : Host.Outcome State Fault Refusal :=
  .next (if (s.tick t).b.now = s.b.sys.lastCapture then (s.tick t).judgeAlive k.val else s.tick t)

/-- At a capture every word of a pair in reset, blocked, split or alive-expired becomes invalid (R268). -/
def State.dropWords (k : Nat) (s : State) : State :=
  let p := s.b.pairOf k
  if p.state = 1 ∧ ¬ p.aliveExp then s else s.onPair k fun p =>
    { p with cfw := nmapv p.cfw {} fun _ v => { v with ok := false } }

/-- CPR_RDSELj: bits [31:15] must be 0; the selection takes effect at the next publish. -/
def State.rdsel (k j : Nat) (w : Word) (s : State) : State × Nat :=
  if w.toNat < 2 ^ 15 then (s.onPair k fun p => { p with rdselNext := nset p.rdselNext j w.toNat 0x7FFF }, rDone)
  else (s, rBadArg)

def execCprRdselWrite (t : Nat) (rd : Reader) (k : Fin 4) (j : Fin 64) (w : Word) (s : State) :
    Host.Outcome State Fault Refusal :=
  .next ((s.tick t).ownPair rd k.val (State.rdsel k.val j.val w))

/-- At a publish the selections written become the selections shown (R283). -/
def State.rdselPublish (s : State) : State :=
  s.onAgr fun a => { a with pairs := nmapv a.pairs {} fun _ p => { p with rdsel := p.rdselNext } }

/-- CPR_CTR_CLEAR: bit 0 clears CPR_CACHE_ERR of both cores. -/
def State.cprCtrClear (k : Nat) (w : Word) (s : State) : State × Nat :=
  (if w.getLsbD 0 then
    s.onPair k fun p => { p with a := { p.a with cacheErr := {} }, b := { p.b with cacheErr := {} } }
   else s, rDone)

def execCprCtrClear (t : Nat) (rd : Reader) (k : Fin 4) (w : Word) (s : State) : Host.Outcome State Fault Refusal :=
  .next ((s.tick t).wt rd (pCPR k.val) (wTok w) (State.cprCtrClear k.val w))

/-- AGR_CTR_CLEAR: bit 0 clears the AGR counters and every CPR_LAG_PEAK. -/
def State.agrCtrClear (w : Word) (s : State) : State × Nat :=
  (if w.getLsbD 0 then
    s.onAgr fun a =>
      { a with injPass := {}, memPass := {}
               pairs := nmapv a.pairs {} fun _ p => { p with lagPeakN := 0, lagPeakUs := 0 } }
   else s, rDone)

def execAgrCtrClear (t : Nat) (rd : Reader) (w : Word) (s : State) : Host.Outcome State Fault Refusal :=
  .next ((s.tick t).wt rd pAGR (wTok w) (State.agrCtrClear w))

/-- AGR_INJECT (R281, as R118): only in MANUFACTURE. -/
def State.agrInject (w : Word) (s : State) : State × Nat :=
  if s.b.life = .manufacture then
    if fld w 5 4 = 3 then (s, rBadArg)
    else (s.onAgr fun a => { a with injectPair := fld w 1 0, injectKind := fld w 5 4 }, rDone)
  else (s, rRefused)

def execAgrInject (t : Nat) (rd : Reader) (w : Word) (s : State) : Host.Outcome State Fault Refusal :=
  .next ((s.tick t).expert rd (pAGR + 0x400) w (State.agrInject w))

/-! ### Frames (R270) -/

/-- `n` bytes of a core's memory copy from offset `o`. -/
def memBytes (m : NMap Byte) (o n : Nat) : List Byte := (List.range n).map fun i => nget m (o + i) 0

/-- An Ethernet frame from its bytes: addresses, a VLAN tag and an R-tag where present, EtherType, payload. -/
def parseFrame (bs : List Byte) : EthFrame :=
  let dst := BitVec.ofNat 48 (beAt bs 0 6)
  let src := BitVec.ofNat 48 (beAt bs 6 6)
  let tagged := beAt bs 12 2 == 0x8100
  let o1 := if tagged then 16 else 12
  let r := beAt bs o1 2 == 0xF1C1
  let o2 := if r then o1 + 6 else o1
  { dst := dst, src := src
    pcp := if tagged then beAt bs 14 2 / 2 ^ 13 else 0
    vlan := if tagged then some (beAt bs 14 2 % 2 ^ 12) else none
    rtag := if r then some (beAt bs (o1 + 4) 2) else none
    etype := beAt bs o2 2
    payload := bs.drop (o2 + 2)
    length := bs.length }

/-- A released CPR_TX: both channels' CRC-64 over the frame bytes agree and port 6 takes channel A's bytes, or source 452 + k
blocks the pair. -/
def State.cprTx (k : Nat) (w : Word) (s : State) : State × Nat :=
  let p := s.b.pairOf k
  let off := fld w 30 14 * 64
  let len := fld w 13 0
  if len < 64 ∨ 9216 < len ∨ (s.b.pairCfg k).size * 65536 < off + len then (s, rBadArg)
  else
    let fa := memBytes p.memA off len
    if crc64 fa = crc64 (memBytes p.memB off len) then
      ((s.onPair k fun p => { p with tx := w &&& 0x7FFFFFFF }).handPort6 (parseFrame fa), rDone)
    else ((s.onPair k fun p => { p with tx := w &&& 0x7FFFFFFF }).failPair 452 k, rDone)

def execCprTx (t : Nat) (rd : Reader) (k : Fin 4) (w : Word) (s : State) : Host.Outcome State Fault Refusal :=
  .next ((s.tick t).ownPair rd k.val (State.cprTx k.val w))

/-- A frame for a pair, by its MAC address and EtherType, enters the receive ring and is announced on E2. A pair in reset
takes none. -/
def State.pairFrame (k : Nat) (bytes : List Byte) (s : State) : State :=
  let f := parseFrame bytes
  let c := s.b.pairCfg k
  let p := s.b.pairOf k
  if s.b.running ∧ p.state ≠ 0 ∧ p.state ≠ 4 ∧ f.dst = c.mac ∧ f.etype = c.etype then
    s.onPair k fun p => { p with received := bytes :: p.received, evtPend := setb p.evtPend 2 true }
  else s

def execPairFrameReceived (t : Nat) (k : Fin 4) (bytes : List Byte) (s : State) : Host.Outcome State Fault Refusal :=
  .next ((s.tick t).pairFrame k.val bytes)

/-! ### Time and interrupts (R258, R276) -/

/-- What the time CSR returns: ruler A's ns since the end of fiddlehead. -/
def Blocks.coreTime (b : Blocks) : Nat := b.now - b.pwr.fiddleEnd

/-- The timer line follows time ≥ CPR_MTIMECMP; E3 becomes pending as it rises. -/
def State.timerLine (k : Nat) (s : State) : State :=
  s.onPair k fun p =>
    let due := decide (s.b.coreTime ≥ p.mtimecmp.toNat)
    { p with mtip := due, evtPend := if due && !p.mtip then setb p.evtPend 3 true else p.evtPend }

def execMtimecmpReached (t : Nat) (k : Fin 4) (s : State) : Host.Outcome State Fault Refusal :=
  .next ((s.tick t).timerLine k.val)

/-- An event becomes pending in a pair: E0, E1 or E2. -/
def State.pairEvent (k e : Nat) (s : State) : State := s.onPair k fun p => { p with evtPend := setb p.evtPend e true }

/-- Fault lines whose source is latched. -/
def Blocks.faultLine (b : Blocks) (line : Nat) : Bool :=
  b.latchedIds.any fun i => (b.reaction i).line == line && (b.effVec i).getLsbD 0

/-- Word `w` of CPR_IRQ_PEND: lines latched and enabled. -/
def Blocks.irqPend (b : Blocks) (k w : Nat) : Word :=
  let en := nget (b.pairOf k).irqEn w 0
  forN 32 (fun i v => setb v i (en.getLsbD i && b.faultLine (32 * w + i))) 0

/-- The machine external interrupt of a pair: an enabled fault line pending, or E0, E1 or E2 (R276). -/
def Blocks.extIrq (b : Blocks) (k : Nat) : Bool :=
  ((List.range 8).any fun w => b.irqPend k w != 0) || ((b.pairOf k).evtPend &&& (b.pairOf k).evtEn &&& 7) != 0

/-- A trap or Halt reaches every pair that is neither blocked nor split, as a non-maskable interrupt (R276). A pair aligned for a
spore resumes (R279). -/
def State.deliverNmi (s : State) : State :=
  forN 4 (fun k s =>
    if (s.b.pairOf k).state = 1 then s.onPair k fun p => { p with nmi := true, asked := false, aligned := false } else s) s

/-! ### Debug (R277, R278) -/

/-- Whether the debug module of the pairs is enabled. -/
def Blocks.debugOn (b : Blocks) : Bool :=
  match b.life with
  | .deployed => b.lcs.debugOpen
  | .returned => true
  | _ => !b.otp.latched.getLsbD 5

/-- A pair splits: matching and release stop, both queues empty, source 465 + k, the recorder records it; the split is held
until power is removed. -/
def State.splitPair (k : Nat) (c : Ch) (s : State) : State :=
  let s1 := (s.onPair k fun p =>
      { p with state := if p.state = 1 ∨ p.state = 2 then 3 else p.state
               a := { p.a with queue := [] }, b := { p.b with queue := [] } }).onAgr
    fun a => { a with split := setb a.split k true }
  if s.b.agr.split.getLsbD k then s1
  else (s1.raise (465 + k) (mkw k) none k).record 0x0D [BitVec.ofNat 8 k, if c = .a then 0 else 1]

/-- The cores of a pair that has left reset. -/
def Blocks.hasCores (b : Blocks) (k : Nat) : Bool := decide ((b.pairOf k).state ≠ 0) && decide ((b.pairOf k).state ≠ 4)

/-- A core enters debug halt. -/
def State.debugHalt (k : Nat) (c : Ch) (s : State) : State :=
  if s.b.debugOn && s.b.hasCores k then
    (s.splitPair k c).onPair k fun p => p.onCore c fun x => { x with halted := true }
  else s

def execDebugHalt (t : Nat) (k : Fin 4) (ch : Ch) (s : State) : Host.Outcome State Fault Refusal :=
  .next ((s.tick t).debugHalt k.val ch)

/-- A core single-steps: one instruction retires and the core is in debug halt again. -/
def State.debugStep (k : Nat) (c : Ch) (s : State) : State :=
  if s.b.debugOn && s.b.hasCores k then
    (s.splitPair k c).onPair k fun p => p.onCore c fun x =>
      let r := Config.stepRetires x.digest
      { x with retired := x.retired + 1, digest := digestAfter x.digest r.1 r.2.1 r.2.2.1 r.2.2.2, halted := true }
  else s

def execDebugStep (t : Nat) (k : Fin 4) (ch : Ch) (s : State) : Host.Outcome State Fault Refusal :=
  .next ((s.tick t).debugStep k.val ch)

/-- A halted core resumes. The split stays. -/
def State.debugResume (k : Nat) (c : Ch) (s : State) : State :=
  if s.b.debugOn && ((s.b.pairOf k).core c).halted then
    s.onPair k fun p => p.onCore c fun x => { x with halted := false }
  else s

def execDebugResume (t : Nat) (k : Fin 4) (ch : Ch) (s : State) : Host.Outcome State Fault Refusal :=
  .next ((s.tick t).debugResume k.val ch)

/-- The key of an abstract register: the trigger data registers are those of the trigger selected, one of four (R277). The numbers
are RISC-V's. PRESUMED (log 62). -/
def Core.regKey (x : Core) (reg : Nat) : Nat :=
  if 0x7A1 ≤ reg ∧ reg ≤ 0x7A3 then reg + 0x10000 * (1 + (nget x.regs 0x7A0 0).toNat % 4) else reg

/-- What an abstract register reads: the counters the retirement count, the time CSR ruler A's time (R258), x0 zero. -/
def Blocks.coreReg (b : Blocks) (x : Core) (reg : Nat) : BitVec 64 :=
  if ([0xB00, 0xB02, 0xC00, 0xC02] : List Nat).contains reg then x.retired.zeroExtend 64
  else if reg = 0xC01 then BitVec.ofNat 64 b.coreTime
  else if reg = 0x1000 then 0
  else nget x.regs (x.regKey reg) 0

/-- A core with an abstract register written. -/
def Core.setReg (x : Core) (reg : Nat) (v : BitVec 64) : Core :=
  { x with regs := nset x.regs (x.regKey reg) (if reg = 0x7A0 then v &&& 3 else v) 0 }

/-- Abstract access to a register of a halted core; what is read is delivered to the debug module. -/
def State.debugRegister (k : Nat) (c : Ch) (reg : Nat) (write : Option (BitVec 64)) (s : State) : State :=
  if s.b.debugOn && ((s.b.pairOf k).core c).halted then
    s.onPair k fun p => p.onCore c fun x =>
      match write with
      | some v => x.setReg reg v
      | none => { x with debugData := s.b.coreReg x reg }
  else s

def execDebugRegisterAccess (t : Nat) (k : Fin 4) (ch : Ch) (reg : Nat) (write : Option (BitVec 64)) (s : State) :
    Host.Outcome State Fault Refusal :=
  .next ((s.tick t).debugRegister k.val ch reg write)

/-! ### Shared memory found different or bad (R275) -/

/-- The pair whose region holds logical address `a` of the 8 MiB. -/
def Blocks.pairAt (b : Blocks) (a : Nat) : Option Nat :=
  (List.range 4).find? fun k =>
    decide ((b.pairCfg k).base * 65536 ≤ a) && decide (a < ((b.pairCfg k).base + (b.pairCfg k).size) * 65536)

/-- Offset `o` of pair `k`'s region lies in a scratch range. -/
def Blocks.isScratch (b : Blocks) (k o : Nat) : Bool :=
  (b.pairCfg k).scratch.any fun x => decide (x.1 * 64 ≤ o) && decide (o < (x.1 + x.2) * 64)

/-- The copies of the eight-byte word at offset `o` differ. -/
def Pair.wordDiffers (p : Pair) (o : Nat) : Bool := (List.range 8).any fun i => nget p.memA (o + i) 0 != nget p.memB (o + i) 0

/-- The words of pair `k` between two bounds in which the copies differ, by offset. -/
def Pair.diffOffsets (p : Pair) (lo hi : Nat) : List Nat :=
  (((p.memA ++ p.memB).map fun x => x.1 / 8 * 8).filter fun o => decide (lo ≤ o) && decide (o < hi) && p.wordDiffers o).dedup

/-- The word at offset `o` of one copy rewritten from the other; `fromA` says from channel A's. -/
def Pair.copyWord (p : Pair) (fromA : Bool) (o : Nat) : Pair :=
  forN 8 (fun i p =>
    if fromA then { p with memB := nset p.memB (o + i) (nget p.memA (o + i) 0) 0 }
    else { p with memA := nset p.memA (o + i) (nget p.memB (o + i) 0) 0 }) p

/-- The pair and the logical address, as AGR_MEMCMP_ADDR and the records of R275 name them. -/
def memWord (k a : Nat) : Word := mkw (pl k 30 2 + pl a 0 30)

/-- A difference found in the word at offset `o`: scratch takes channel A's value, live raises source 469 and blocks the pair. -/
def State.memDiffers (k o : Nat) (s : State) : State :=
  let a := (s.b.pairCfg k).base * 65536 + o
  let s1 := s.onAgr fun g => { g with memAddr := memWord k a }
  if s.b.isScratch k o then (s1.onPair k fun p => p.copyWord true o).raise 470 (memWord k a) none k
  else (s1.raise 469 (memWord k a) none k).blockPair k

/-- Whole-memory comparison of one 16 KiB block: the first difference is acted on, and every scratch one. -/
def State.compareBlock (blk : Nat) (s : State) : State :=
  match s.b.pairAt (blk * 16384) with
  | none => s
  | some k =>
    let base := (s.b.pairCfg k).base * 65536
    let lo := blk * 16384 - base
    forL ((s.b.pairOf k).diffOffsets lo (lo + 16384)) (fun o s =>
      if (s.b.pairOf k).wordDiffers o then s.memDiffers k o else s) s

/-- A word uncorrectable in one copy is rewritten from the other; in both, source 472. The record names the pair that owns it. -/
def State.memUncorrectable (a : Nat) (badA badB : Bool) (s : State) : State :=
  let k := (s.b.pairAt a).getD 0
  if badA && badB then s.raise 472 (memWord k a) none k
  else if badA || badB then
    (match s.b.pairAt a with
      | none => s
      | some k => s.onPair k fun p => p.copyWord badB ((a - (s.b.pairCfg k).base * 65536) / 8 * 8)).raise 471 (memWord k a) none k
  else s

/-! ### Resets (R261, R306) -/

/-- A CPR block reset or the reset part of a chip reset: cores, queues, region, selections and registers at their first
values. -/
def Pair.reset (_ : Pair) : Pair := {}

/-! ### Pages (R281, R282) -/

/-- A bit per pair. -/
def Blocks.pairBits (b : Blocks) (f : Pair → Bool) : Nat := forN 4 (fun k n => n + pl (b2n (f (b.pairOf k))) k 1) 0

/-- AGR_STATUS. -/
def Blocks.agrStatus (b : Blocks) : Word :=
  mkw (pl b.agr.split.toNat 16 4 + pl (b.pairBits (·.blocked)) 12 4 + pl (b.pairBits (·.aliveExp)) 8 4 +
    pl (b.pairBits fun p => p.state != 0 && p.state != 4) 4 4 + pl (b2n b.agr.sentOk) 2 1 +
    pl (b2n (!b.fcl.a.latch.getLsbD 450 && !b.fcl.a.latch.getLsbD 451)) 1 1 +
    pl (b2n (b.agr.startDone && b.agr.startFlagged == 128 && b.agr.startEqual)) 0 1)

/-- The AGR page from 0x100. -/
def readAgr (v : RView) (off : Nat) : Word :=
  let g := v.live.agr
  match off with
  | 0x100 => v.ros Blocks.agrStatus
  | 0x104 => mkw (pl (b2n g.startDone) 31 1 + pl (b2n g.startEqual) 8 1 + pl g.startFlagged 0 8)
  | 0x108 => g.injPass.word
  | 0x10C => loW g.mismatchSent
  | 0x110 => g.mismatchWord
  | 0x114 => g.memPass.word
  | 0x118 => g.memAddr
  | 0x400 => mkw (pl g.injectKind 4 2 + pl g.injectPair 0 2)
  | _ =>
    if 0x800 ≤ off ∧ off < 0x810 then
      let c := v.live.pairCfg ((off - 0x800) / 4)
      mkw (pl c.cfwCount 16 10 + pl c.cfwBase 0 11)
    else 0

/-- CPR_STATUS. -/
def Pair.status (p : Pair) : Word :=
  mkw (pl p.state 29 3 + pl (b2n (p.leads == .b)) 28 1 + pl (b2n p.aligned) 27 1 + pl (b2n p.aliveExp) 26 1 +
    pl (b2n (decide (p.lag ≥ 64))) 25 1)

/-- The namespace entry slot `j` shows, in the sentence shown and the channel of the view. `ns` reads the namespace. -/
def RView.window (ns : Snapshot → Ch → Nat → NV) (v : RView) (k j : Nat) : NV :=
  match v.snap with
  | some p => ns p (if v.bView then .b else .a) (nget (p.pub.pairOf k).rdsel j 0x7FFF)
  | none => {}

/-- The CPR page from 0x100. `ns` reads the namespace of a sentence in true sense. -/
def readCpr (ns : Snapshot → Ch → Nat → NV) (v : RView) (k off : Nat) : Word :=
  let p := v.live.pairOf k
  let c := v.live.pairCfg k
  let x := p.core (if v.bView then .b else .a)
  match off with
  | 0x100 => p.status
  | 0x104 => mkw (pl (sat (p.lagUs v.live.now) 14) 8 14 + pl (min p.lag 64) 0 7)
  | 0x108 => mkw (pl (sat p.lagPeakUs 14) 8 14 + pl (min p.lagPeakN 64) 0 7)
  | 0x10C => loW x.retired.toNat
  | 0x110 => hiW x.retired.toNat
  | 0x114 => loW x.digest.toNat
  | 0x118 => hiW x.digest.toNat
  | 0x120 => mkw (pl c.tAlive 0 17)
  | 0x128 => loW p.mtimecmp.toNat
  | 0x12C => hiW p.mtimecmp.toNat
  | 0x130 => v.live.pairEntry k
  | 0x134 => c.nmivec
  | 0x138 => p.tx
  | 0x13C => mkw (pl p.evtPend.toNat 16 4 + pl p.evtEn.toNat 0 4)
  | 0x180 => mkw (pl c.base 0 7)
  | 0x184 => mkw (pl c.size 0 8)
  | 0x188 => x.cacheErr.word
  | 0x190 => if v.snap.isNone then 0 else forN 32 (fun j w => setb w j (v.window ns k j).ok) 0
  | 0x194 => if v.snap.isNone then 0 else forN 32 (fun j w => setb w j (v.window ns k (32 + j)).ok) 0
  | _ =>
    if 0x140 ≤ off ∧ off < 0x160 then nget p.irqEn ((off - 0x140) / 4) 0
    else if 0x160 ≤ off ∧ off < 0x180 then v.live.irqPend k ((off - 0x160) / 4)
    else if 0x200 ≤ off ∧ off < 0x300 then natW (v.window ns k ((off - 0x200) / 4)).val
    else if 0x300 ≤ off ∧ off < 0x400 then mkw (nget p.rdselNext ((off - 0x300) / 4) 0x7FFF)
    else if 0x400 ≤ off ∧ off < 0x500 then
      match c.scratch[(off - 0x400) / 8]? with
      | some r => if off % 8 = 0 then mkw (pl r.1 0 17) else mkw (pl r.2 0 18)
      | none => 0
    else if 0x800 ≤ off ∧ off < 0x1000 then natW (nget p.cfw ((off - 0x800) / 4) {}).val
    else 0

end Sys2Proof.Machine
end

