-- ==== Sys2Proof/Machine/Outputs.lean ====
section
/-! DEFINITION. The output stages (R66, R133 to R137): what a pin is, what holds it, the readback checks, locks and dark
tests; shared by sampling, commit, interjection and the fault reactions. -/

namespace Sys2Proof.Machine

/-! ### Settings -/

/-- SOG_CFGk and STO_CFGk. -/
def Blocks.sogCfg (b : Blocks) (k : Nat) : Word := b.set (pSOG + 0x800 + 8 * k)
def Blocks.stoCfg (b : Blocks) (k : Nat) : Word := b.set (pSTO + 0x800 + 8 * k)

/-- t_rb and t_stf in ns (R134, R137). -/
def Blocks.tRb (b : Blocks) (k : Nat) : Nat := fld (b.sogCfg k) 15 0 * 10000
def Blocks.tStf (b : Blocks) (k : Nat) : Nat := fld (b.stoCfg k) 8 0 * 1000000

/-- Dark tests enabled, dark width and dark period in ns (R135). -/
def Blocks.darkEn (b : Blocks) (k : Nat) : Bool := (b.sogCfg k).getLsbD 31
def Blocks.darkWidth (b : Blocks) (k : Nat) : Nat := fld (b.sogCfg k) 25 16 * 10000
def Blocks.darkPeriod (b : Blocks) : Nat := fld (b.set (pSOG + 0x120)) 9 0 * 100000000

/-- The zones of an output lichen and of an STO lichen. -/
def Blocks.soutZoneOf (b : Blocks) (k : Nat) : Nat := nget b.img.soutZone k 0
def Blocks.stoZoneOf (b : Blocks) (k : Nat) : Nat := nget b.img.stoZone k 0

/-! ### Pins -/

/-- What holds every output safe whatever its zone: Halt (R303), running dry (R428), a load under way (R430), power-down
(R407), a FAB block reset (R306), and every phase before the image runs (R402). -/
def Blocks.globalHold (b : Blocks) : Bool :=
  !b.running || b.haltNow || b.cfg.dry || b.cfg.loading.isSome || b.pwr.powerDown || b.resetting .fab

def OutBlock.stage (o : OutBlock) : Ch → Stage
  | .a => o.a
  | .b => o.b

def OutBlock.onStage (o : OutBlock) (c : Ch) (f : Stage → Stage) : OutBlock :=
  match c with
  | .a => { o with a := f o.a }
  | .b => { o with b := f o.b }

/-- The outputs a source's lock, or the wait after it, keeps at 0 (R136). -/
def OutBlock.locked (o : OutBlock) : BitVec 16 := o.lockBy.foldl (fun m e => m ||| e.2) o.unlocking

/-- The output whose switch is in its dark pulse, for one channel. -/
def OutBlock.darkBits (o : OutBlock) (c : Ch) : BitVec 16 :=
  o.dark.foldl (fun m e => if e.2.active = some c then setb m e.1 true else m) 0

/-- The output pins of one channel (R66, R133): committed and not hold and not lock and not dark, and 0 under every fault
hold. -/
def Blocks.pinSout (b : Blocks) (c : Ch) : BitVec 16 :=
  if b.globalHold || b.resetting .sog then 0
  else b.sog.committed &&& ~~~ (b.sog.stage c).hold &&& ~~~ b.sog.locked &&& ~~~ (b.sog.darkBits c) &&&
    ~~~ b.sog.faultHold

/-- The STO pins of one channel: as the outputs, without a dark term. -/
def Blocks.pinSto (b : Blocks) (c : Ch) : BitVec 16 :=
  if b.globalHold || b.resetting .sto then 0
  else b.sto.committed &&& ~~~ (b.sto.stage c).hold &&& ~~~ b.sto.locked &&& ~~~ b.sto.faultHold

/-! ### Status entries -/

/-- The comparison of one switch is suspended from the start of its dark pulse until t_rb after its end (R134). -/
def Blocks.rbSuspended (b : Blocks) (c : Ch) (k : Nat) : Bool :=
  let d := nget b.sog.dark k {}
  decide (d.active = some c) ||
    (match (match c with | .a => d.endA | .b => d.endB) with
     | some e => decide (b.now < e + b.tRb k)
     | none => false)

/-- Namespace entry 48 + k (R136): both readbacks equal their pins, no lock, and the committed value is 1. -/
def Blocks.sogOk (b : Blocks) (k : Nat) : Bool :=
  b.sog.committed.getLsbD k && !(b.sog.locked.getLsbD k) &&
    (b.rbSuspended .a k || (b.sog.a.rb.getLsbD k == (b.pinSout .a).getLsbD k)) &&
    (b.rbSuspended .b k || (b.sog.b.rb.getLsbD k == (b.pinSout .b).getLsbD k))

/-- Namespace entry 64 + k (R137): both feedbacks are the inverse of their pins, no lock, and the committed value is 1. -/
def Blocks.stoOk (b : Blocks) (k : Nat) : Bool :=
  b.sto.committed.getLsbD k && !(b.sto.locked.getLsbD k) &&
    (b.sto.a.rb.getLsbD k == !(b.pinSto .a).getLsbD k) && (b.sto.b.rb.getLsbD k == !(b.pinSto .b).getLsbD k)

/-- The bits of a 16-bit map for which `f` holds. -/
def bits16 (f : Nat → Bool) : BitVec 16 := forN 16 (fun k m => setb m k (f k)) 0

/-! ### Dark tests ended from outside (R138) -/

/-- An output whose pins are held for another reason: both switches off, and its dark test ends without a verdict. -/
def Blocks.darkBlocked (b : Blocks) (k : Nat) : Bool :=
  b.globalHold || b.resetting .sog || !(b.sog.committed.getLsbD k) || b.sog.locked.getLsbD k ||
    b.sog.faultHold.getLsbD k || b.sog.a.hold.getLsbD k || b.sog.b.hold.getLsbD k

def Dark.stop (d : Dark) (now : Nat) : Dark :=
  match d.active with
  | some .a => { d with active := none, seenZero := none, endA := some now }
  | some .b => { d with active := none, seenZero := none, endB := some now }
  | none => d

/-- End every dark test that can no longer give a verdict. -/
def State.darkAborts (s : State) : State :=
  s.onSog fun o => { o with dark := nmapv o.dark {} fun k d => if s.b.darkBlocked k then d.stop s.b.now else d }

/-! ### Locks (R136) -/

/-- A detected difference locks its output from the collector round it arrives in. -/
def OutBlock.dueLock (o : OutBlock) (src k : Nat) : OutBlock := { o with lockDue := o.lockDue ++ [(src, k)] }

/-- At the round close the due locks take effect. -/
def OutBlock.applyLocks (o : OutBlock) : OutBlock :=
  { (forL o.lockDue (fun x o => { o with lockBy := nupd o.lockBy x.1 0 fun m => setb m x.2 true }) o) with
    lockDue := [] }

/-- A clear of a source ends its part of every lock; the outputs then wait for a committed 0. -/
def OutBlock.clearLock (o : OutBlock) (src : Nat) : OutBlock :=
  { o with unlocking := o.unlocking ||| nget o.lockBy src 0, lockBy := nset o.lockBy src 0 0 }

/-! ### Interjection holds (R65 to R67) -/

/-- Set one channel's hold on an output. -/
def Stage.intj (g : Stage) (k now : Nat) : Stage :=
  { g with hold := setb g.hold k true, holdAt := nset g.holdAt k now 0 }

/-- At a commit, holds whose trigger came before the sentence's capture are released (R67). -/
def Stage.release (g : Stage) (tc : Nat) : Stage :=
  { g with
    hold := bits16 fun k => g.hold.getLsbD k && !(decide (nget g.holdAt k 0 < tc))
    holdAt := nmapv g.holdAt 0 fun _ t => if t < tc then 0 else t }

/-! ### Readback checks at a sample (R134, R137) -/

/-- One switch's readback against what is expected: a difference starts its time, an equality ends it. -/
def Stage.readback (g : Stage) (k : Nat) (v expected suspended : Bool) (now : Nat) : Stage :=
  let g := { g with rb := setb g.rb k v }
  if suspended then { g with diffAt := nset g.diffAt k none none }
  else if v = expected then { g with diffAt := nset g.diffAt k none none, diff := setb g.diff k false }
  else if (nget g.diffAt k none).isSome then g
  else { g with diffAt := nset g.diffAt k (some now) none }

/-- One driver pin's internal readback: a difference at two samples in a row is in force until two that agree. -/
def Stage.pinCheck (g : Stage) (k : Nat) (v pin : Bool) : Stage :=
  if v = pin then
    let n := nget g.pinAgreeRun k 0 + 1
    { g with
      pinDiffRun := nset g.pinDiffRun k 0 0
      pinAgreeRun := nset g.pinAgreeRun k (if g.pinDiff.getLsbD k ∧ n < 2 then n else 0) 0
      pinDiff := if n ≥ 2 then setb g.pinDiff k false else g.pinDiff }
  else
    let n := nget g.pinDiffRun k 0 + 1
    { g with
      pinAgreeRun := nset g.pinAgreeRun k 0 0
      pinDiffRun := nset g.pinDiffRun k (min n 2) 0
      pinDiff := if n ≥ 2 then setb g.pinDiff k true else g.pinDiff }

end Sys2Proof.Machine
end

