-- ==== Sys2Proof/Machine/DriveRecord.lean ====
section
/-! DEFINITION. Axis settings (R184) and the drive record that an accepted frame carries for source A (R156, R157). -/

namespace Sys2Proof.Machine

/-- A setting of axis `a` by its offset within the axis's registers. -/
def Blocks.axSet (b : Blocks) (a off : Nat) : Word := b.set (pAXS + 0x800 + 64 * a + off)

/-- A native value in a register's low 20 bits. -/
def nativeOf (w : Word) : Int := (BitVec.ofNat 20 (w.toNat % 2 ^ 20)).toInt

/-- AXS_CFGa's fields (R184). -/
def Blocks.axEn (b : Blocks) (a : Nat) : Bool := (b.axSet a 0).getLsbD 31
def Blocks.axModulo (b : Blocks) (a : Nat) : Bool := (b.axSet a 0).getLsbD 30
def Blocks.axZone (b : Blocks) (a : Nat) : Nat := fld (b.axSet a 0) 29 25
def Blocks.axSto (b : Blocks) (a : Nat) : Nat := fld (b.axSet a 0) 24 20
def Blocks.axShift (b : Blocks) (a : Nat) : Nat := fld (b.axSet a 0) 19 16
def Blocks.axCc (b : Blocks) (a : Nat) : Nat := fld (b.axSet a 0) 15 12

/-- The enabled axes. -/
def Blocks.axesOn (b : Blocks) : List Nat := (List.range 16).filter b.axEn

def Blocks.axis (b : Blocks) (a : Nat) : Axis := nget b.axs.axes a {}

def State.onAxis (a : Nat) (f : Axis → Axis) (s : State) : State :=
  s.onAxs fun x => { x with axes := nupd x.axes a {} f }

/-- The ruler instant of a cell time, in whole ns (R228); none while nothing is mapped. -/
def Blocks.instantOf (b : Blocks) (c : Ch) (stamp : Nat) : Option Int :=
  (b.ageNum c (b.rulerOf c) stamp).map fun n => ((b.rulerOf c : Int) * b.mapDen - n) / b.mapDen

/-- The drive record at a byte offset of a payload whose frame is stamped `stamp`. -/
def Blocks.driveRec (b : Blocks) (payload : List Byte) (off stamp : Nat) : Option DriveRec :=
  let delay := beAt payload (off + 4) 4
  let at_ := (stamp + 2 ^ 64 - delay % 2 ^ 64) % 2 ^ 64
  match b.instantOf .a at_, b.instantOf .b at_ with
  | some x, some y =>
    some
      { count := (BitVec.ofNat 32 (beAt payload off 4)).toInt, atA := x, atB := y
        valid := decide (delay ≤ 1000000) && (payload.getD (off + 9) 0).getLsbD 0, epoch := b.tsy.epoch }
  | _, _ => none

/-- An axis and its instance, for a record's detail. -/
def axWord (a inst : Nat) : Word := mkw (pl inst 8 9 + a)

/-- An AXS source of the axis is raised and keeps it from returning until the clear (R172). -/
def State.axFail (a i inst : Nat) (s : State) : State :=
  (s.onAxis a fun x => { x with failed := if x.failed.contains i then x.failed else i :: x.failed }).raise i (axWord a inst)
    (some (s.b.axZone a))

/-- Axis `a` takes an accepted record. One that is invalid while its session is valid raises source 345 (R156). -/
def State.takeRecord (slot a : Nat) (r : DriveRec) (s : State) : State :=
  let bad := !r.valid && (nget s.b.sfr.cons slot {}).valid
  let s1 := s.onAxis a fun x => { x with recOld := x.recNew, recNew := some r, compared := false, badRaised := bad }
  if bad then s1.axFail a 345 0 else s1

/-- The axes whose drive record stands in consumer slot `slot` take it from an accepted payload. -/
def State.takeDrives (slot stamp : Nat) (payload : List Byte) (s : State) : State :=
  forL (s.b.axesOn.filter fun a => fld (s.b.axSet a 0x20) 30 24 == slot) (fun a s =>
    match s.b.driveRec payload (4 * fld (s.b.axSet a 0x20) 21 16) stamp with
    | some r => s.takeRecord slot a r
    | none => s) s

end Sys2Proof.Machine
end

