-- ==== Sys2Proof/Machine/Operands.lean ====
section
/-! DEFINITION. Operand forms: native values as the fabric reads them (R27, R28), the clause word (R82), the operators (R85
to R90) and the conjugate form (R92). Every word of the namespace carries the value it evaluates as: an invalid one carries
its safe value (R27, R87, R29). -/

namespace Sys2Proof

/-- A boolean signal is 1 only when it is valid and exactly 1 (R28). -/
def NV.one (v : NV) : Bool := v.ok && v.val == 1

/-- The number a word evaluates as. -/
def NV.int (v : NV) : Int := v.val.toInt

/-- The complemented form in which channel B holds a word (R14, R92). -/
def NV.conj (v : NV) : NV := { val := ~~~ v.val, ok := !v.ok }

/-- A valid boolean word. -/
def NV.ofBool (b : Bool) : NV := { val := if b then 1 else 0, ok := true }

/-- A numeric word, saturated to the format (R86). -/
def NV.num (x : Int) (ok : Bool) : NV := { val := Machine.toNative x, ok := ok }

/-- What a channel holds for a true-sense word. -/
def NV.held (c : Ch) (v : NV) : NV :=
  match c with
  | .a => v
  | .b => v.conj

end Sys2Proof

namespace Sys2Proof.Machine

/-! ### The clause word (R82) -/

def clauseOp (w : BitVec 128) : Nat := w.toNat / 2 ^ 122
def clauseOpd (w : BitVec 128) (i : Nat) : Nat := w.toNat / 2 ^ (107 - 15 * i) % 2 ^ 15
def clauseIntj (w : BitVec 128) : Bool := w.getLsbD 16
def clauseParam (w : BitVec 128) : Nat := w.toNat % 2 ^ 16

/-- "No operand" (R77). -/
def noOpd : Nat := 0x7FFF

/-- The seven operand references; none where the slot is unused. -/
def clauseRefs (w : BitVec 128) : List (Option Nat) :=
  [0, 1, 2, 3, 4, 5, 6].map fun i => if clauseOpd w i = noOpd then none else some (clauseOpd w i)

/-- The references that are used. -/
def clauseUsed (w : BitVec 128) : List Nat := (clauseRefs w).filterMap id

/-- A channel-B clause code read as the function it is the conjugate of (R92): AND and OR, MIN and MAX change places. -/
def dualOp (op : Nat) : Nat :=
  match op with
  | 0x01 => 0x02
  | 0x02 => 0x01
  | 0x0C => 0x0D
  | 0x0D => 0x0C
  | n => n

/-! ### Sentence counts and delays (R89) -/

/-- Sentences from n0 to n; the number after 2^48 − 1 is 1 (R51). -/
def sentencesSince (n n0 : Nat) : Nat := if n0 ≤ n then n - n0 else n + (2 ^ 48 - 1) - n0

/-- Time-unit field in ns (R85). -/
def unitNs (u : Nat) : Nat :=
  match u % 4 with
  | 0 => 1000
  | 1 => 10000
  | 2 => 100000
  | _ => 1000000

/-- A delay count in ns: invalid or negative counts as 0. -/
def delayNs (v : NV) (unit : Nat) : Nat := if v.ok then v.int.toNat * unitNs unit else 0

/-! ### Combinational operators (R86) -/

/-- An operand by its slot; an unused slot is an invalid word. -/
def slotAt (a : List (Option NV)) (i : Nat) : NV := (a.getD i none).getD {}

/-- A boolean operand by its slot. -/
def oneAt (a : List (Option NV)) (i : Nat) : Bool := (slotAt a i).one

/-- The used operands. -/
def usedOf (a : List (Option NV)) : List NV := a.filterMap id

def opAnd (a : List NV) : NV := .ofBool (a.all NV.one)
def opOr (a : List NV) : NV := .ofBool (a.any NV.one)
def opVote (a : List NV) : NV := .ofBool (decide (2 ≤ (a.filter NV.one).length))

/-- NOT of an invalid word is 0, and carries its valid bit. -/
def opNot (a : NV) : NV := { val := if a.ok ∧ a.val = 0 then 1 else 0, ok := a.ok }

def opMin (a : List NV) : NV :=
  match a with
  | [] => {}
  | x :: r => .num (r.foldl (fun m v => min m v.int) x.int) ((x :: r).all (·.ok))

def opMax (a : List NV) : NV :=
  match a with
  | [] => {}
  | x :: r => .num (r.foldl (fun m v => max m v.int) x.int) ((x :: r).all (·.ok))

def opAdd (a b : NV) : NV := .num (a.int + b.int) (a.ok && b.ok)
def opSub (a b : NV) : NV := .num (a.int - b.int) (a.ok && b.ok)

/-- The product shifted right with the sign kept, rounded toward minus infinity, saturated. -/
def opMsh (a b : NV) (s : Nat) : NV := .num (a.int * b.int / 2 ^ s) (a.ok && b.ok)

/-- The chosen operand; operand 1 where the selector is invalid, negative or out of range. -/
def opSel (a : List (Option NV)) (count : Nat) : NV :=
  let k := slotAt a 0
  if k.ok ∧ 0 ≤ k.int ∧ k.int < count then slotAt a (1 + k.int.toNat) else slotAt a 1

/-! ### Stateful operators (R89, R90). `n` is the sentence, `ts` the sentence period in ns -/

/-- LATCH: safe-dominant, set by a 0-to-1 change of its set operand. -/
def opLatch (a : List (Option NV)) (st : ClauseSt) : NV × ClauseSt :=
  let s :=
    if !oneAt a 0 then false
    else if oneAt a 1 && !st.prev.one && st.prev.ok then true
    else st.on
  (.ofBool (s && oneAt a 0), { st with on := s, prev := slotAt a 1 })

/-- EDGE: a change in the chosen sense between two consecutive valid sentences. -/
def opEdge (sense : Nat) (a : List (Option NV)) (st : ClauseSt) : NV × ClauseSt :=
  let x := slotAt a 0
  (.ofBool (x.ok && st.prev.ok &&
      ((bit sense 0 && !st.prev.one && x.one) || (bit sense 1 && st.prev.one && !x.one))),
    { st with prev := x })

/-- TON. -/
def opTon (unit : Nat) (a : List (Option NV)) (n ts : Nat) (st : ClauseSt) : NV × ClauseSt :=
  if !oneAt a 0 then (.ofBool false, { st with running := false, n0 := 0 })
  else
    let n0 := if st.running then st.n0 else n
    (.ofBool (decide (sentencesSince n n0 * ts ≥ delayNs (slotAt a 1) unit)), { st with running := true, n0 := n0 })

/-- TOF: an invalid input cancels, and an expiry ends the run. -/
def opTof (unit : Nat) (a : List (Option NV)) (n ts : Nat) (st : ClauseSt) : NV × ClauseSt :=
  if oneAt a 0 then (.ofBool true, { st with on := true, running := false, n0 := 0 })
  else if !(slotAt a 0).ok || !st.on then (.ofBool false, { st with on := false, running := false, n0 := 0 })
  else
    let n1 := if st.running then st.n0 else n
    if sentencesSince n n1 * ts < delayNs (slotAt a 1) unit then
      (.ofBool true, { st with on := true, running := true, n0 := n1 })
    else (.ofBool false, { st with on := false, running := false, n0 := 0 })

/-- An absent or negative hysteresis counts as 0. -/
def hystAt (a : List (Option NV)) (i : Nat) : Int := max (slotAt a i).int 0

/-- CMP: sense 0 permits while a < b, sense 1 while a > b. -/
def opCmp (sense : Bool) (a : List (Option NV)) (st : ClauseSt) : NV × ClauseSt :=
  let x := (slotAt a 0).int
  let y := (slotAt a 1).int
  let h := if st.on then 0 else hystAt a 2
  let out := if sense then decide (x > y + h) else decide (x < y - h)
  (.ofBool out, { st with on := out })

/-- WIN. -/
def opWin (a : List (Option NV)) (st : ClauseSt) : NV × ClauseSt :=
  let x := (slotAt a 0).int
  let h := if st.on then 0 else hystAt a 3
  let out := decide ((slotAt a 1).int + h ≤ x) && decide (x ≤ (slotAt a 2).int - h)
  (.ofBool out, { st with on := out })

/-- RAMP's slope term after `t` ns: computed in 40 bits and rounded up, toward the stricter envelope in both directions. A term
beyond 40 bits is taken as 2^40 − 1. DESIGN CHOICE (log 62). -/
def rampTerm (slope : Int) (t : Int) : Int :=
  min ((max slope 0 * max t 0 + 999999) / 1000000) (2 ^ 40 - 1)

/-- RAMP: operands x, arm, slope, tol, delay count (R90). -/
def opRamp (unit : Nat) (rising : Bool) (a : List (Option NV)) (n ts : Nat) (st : ClauseSt) : NV × ClauseSt :=
  if !oneAt a 1 then (.ofBool true, { st with running := false, n0 := 0, x0 := 0, tripped := false })
  else
    let x := slotAt a 0
    let n0 := if st.running then st.n0 else n
    let x0 := if st.running then st.x0 else x.int
    let s := rampTerm (slotAt a 2).int ((sentencesSince n n0 * ts : Nat) - (delayNs (slotAt a 4) unit : Int))
    let tol := max (slotAt a 3).int 0
    let good := x.ok && (if rising then decide (x.int ≥ x0 + s - tol) else decide (x.int ≤ x0 - s + tol))
    let out := good && !(st.running && st.tripped)
    (.ofBool out, { st with running := true, n0 := n0, x0 := x0, tripped := !out })

/-- Every operator but CALL, on true-sense operands (R85). -/
def evalOp (op param : Nat) (a : List (Option NV)) (n ts : Nat) (st : ClauseSt) : NV × ClauseSt :=
  match op with
  | 0x01 => (opAnd (usedOf a), st)
  | 0x02 => (opOr (usedOf a), st)
  | 0x03 => (opVote (usedOf a), st)
  | 0x04 => (opNot (slotAt a 0), st)
  | 0x05 => opLatch a st
  | 0x06 => opEdge (param % 4) a st
  | 0x07 => opTon (param % 4) a n ts st
  | 0x08 => opTof (param % 4) a n ts st
  | 0x09 => opCmp (bit param 0) a st
  | 0x0A => opWin a st
  | 0x0B => opRamp (param % 4) (bit param 2) a n ts st
  | 0x0C => (opMin (usedOf a), st)
  | 0x0D => (opMax (usedOf a), st)
  | 0x0E => (opAdd (slotAt a 0) (slotAt a 1), st)
  | 0x0F => (opSub (slotAt a 0) (slotAt a 1), st)
  | 0x10 => (opMsh (slotAt a 0) (slotAt a 1) (param % 32), st)
  | 0x11 => (opSel a (param % 8), st)
  | _ => ({}, st)

/-- An operator in one channel on the words that channel holds: channel B runs the conjugate of its own code (R92). -/
def evalOpIn (c : Ch) (op param : Nat) (a : List (Option NV)) (n ts : Nat) (st : ClauseSt) : NV × ClauseSt :=
  match c with
  | .a => evalOp op param a n ts st
  | .b =>
    let r := evalOp (dualOp op) param (a.map (·.map NV.conj)) n ts st
    (r.1.conj, r.2)

/-- The operators that keep state (R88). -/
def statefulOp (op : Nat) : Bool := decide (5 ≤ op) && decide (op ≤ 0x0B)

/-- Operators whose output is boolean (R85); SEL is as chosen. -/
def boolOp (op : Nat) : Bool := decide (1 ≤ op) && decide (op ≤ 0x0B)

end Sys2Proof.Machine
end

