-- ==== Sys2Proof/Machine/SafeFrames.lean ====
section
/-! DEFINITION. Perori safe frames (R235 to R257): frame layout and checks, the acceptance decision, validity at capture,
payload fields, sending, and the SFR commands and page. Bulk frames share the decision. -/

namespace Sys2Proof

/-- A consumer session's watchdog times (R243): age_max where the image states none. -/
def ConsCfg.tWd (c : ConsCfg) : Nat := c.tWdSet.getD c.ageMax
def ConsCfg.tRtMax (c : ConsCfg) : Nat := c.tRtSet.getD c.ageMax

end Sys2Proof

namespace Sys2Proof.Machine

/-! ### Layout (R236, R237, R240) -/

/-- The virtual header: session ID, generation, receiver identity. -/
def virtualHeader (id : Nat) (gen : BitVec 32) (receiver : BitVec 64) : List Byte :=
  beBytes id 2 ++ beBytes gen.toNat 4 ++ beBytes receiver.toNat 8

/-- What the header bytes that data frames and bulk segments share say. -/
structure FrameHead where
  id : Nat
  alive : Nat
  echo : Nat
  stamp : Nat
  setup : Bool
  timeValid : Bool
  echoValid : Bool
deriving DecidableEq, Repr

/-- Bytes 2 to 16. -/
def frameHead (bs : List Byte) : FrameHead :=
  let fl := bs.getD 16 0
  { id := beAt bs 2 2, alive := beAt bs 4 2, echo := beAt bs 6 2, stamp := beAt bs 8 8
    setup := fl.getLsbD 0, timeValid := fl.getLsbD 1, echoValid := fl.getLsbD 2 }

/-- The consumer session enabled for an ID. -/
def Blocks.consById (b : Blocks) (id : Nat) : Option (Nat × ConsCfg) := b.img.cons.find? fun x => x.2.id == id

/-- The consumer session in a slot, and the producer session in a slot. -/
def Blocks.consCfg (b : Blocks) (k : Nat) : Option ConsCfg := (b.img.cons.find? fun x => x.1 == k).map (·.2)
def Blocks.prodCfg (b : Blocks) (k : Nat) : Option ProdCfg := (b.img.prods.find? fun x => x.1 == k).map (·.2)

/-- A consumer session's state, and a producer session's. -/
def Blocks.consOf (b : Blocks) (k : Nat) : Cons := nget b.sfr.cons k {}
def Blocks.prodOf (b : Blocks) (k : Nat) : Prod := nget b.sfr.prod k {}

def State.onCons (k : Nat) (f : Cons → Cons) (s : State) : State :=
  s.onSfr fun r => { r with cons := nupd r.cons k {} f }

def State.onProd (k : Nat) (f : Prod → Prod) (s : State) : State :=
  s.onSfr fun r => { r with prod := nupd r.prod k {} f }

/-! ### Payload fields (R251, R252) -/

/-- Bytes a field takes. -/
def fieldBytes (kind : Nat) : Nat :=
  match kind with
  | 0 => 0
  | 1 => 1
  | 2 => 1
  | 3 => 1
  | 4 => 1
  | 5 => 2
  | 6 => 2
  | _ => 4

/-- A number of `8 * k` bits read as two's complement. -/
def signedOf (n k : Nat) : Int := if n ≥ 2 ^ (8 * k - 1) then (n : Int) - 2 ^ (8 * k) else n

/-- A field's value in a payload, and whether its encoding is valid. -/
def fieldValue (p : List Byte) (c : FieldCfg) : BitVec 20 × Bool :=
  let x := p.getD c.offset 0
  let n := beAt p c.offset (fieldBytes c.kind)
  match c.kind with
  | 1 => (if x.getLsbD c.bit then 1 else 0, true)
  | 2 =>
    if x.getLsbD (c.bit + 1) && !x.getLsbD c.bit then (1, true)
    else (0, !x.getLsbD (c.bit + 1) && x.getLsbD c.bit)
  | 3 => (BitVec.ofNat 20 n, true)
  | 4 => (toNative (signedOf n 1), true)
  | 5 => (BitVec.ofNat 20 n, true)
  | 6 => (toNative (signedOf n 2), true)
  | 7 => (BitVec.ofNat 20 n, decide ((BitVec.ofNat 20 n).signExtend 32 = BitVec.ofNat 32 n))
  | 8 => (toNative (signedOf n 4), true)
  | _ => (0, false)

/-- Put bytes into a payload at an offset. -/
def putBytes (p : List Byte) (o : Nat) : List Byte → List Byte
  | [] => p
  | x :: r => putBytes (p.set o x) (o + 1) r

/-- An integer clamped between two ends. -/
def clampTo (x lo hi : Int) : Int := if x < lo then lo else if x > hi then hi else x

/-- A payload with one field encoded. -/
def putField (p : List Byte) (c : FieldCfg) (v : NV) : List Byte :=
  let x := p.getD c.offset 0
  match c.kind with
  | 1 => p.set c.offset (setb x c.bit v.one)
  | 2 => p.set c.offset (setb (setb x (c.bit + 1) v.one) c.bit (!v.one))
  | 3 => p.set c.offset (BitVec.ofInt 8 (clampTo v.int 0 255))
  | 4 => p.set c.offset (BitVec.ofInt 8 (clampTo v.int (-128) 127))
  | 5 => putBytes p c.offset (beBytes (BitVec.ofInt 16 (clampTo v.int 0 65535)).toNat 2)
  | 6 => putBytes p c.offset (beBytes (BitVec.ofInt 16 (clampTo v.int (-32768) 32767)).toNat 2)
  | 7 => putBytes p c.offset (beBytes (v.val.signExtend 32).toNat 4)
  | 8 => putBytes p c.offset (beBytes (v.val.signExtend 32).toNat 4)
  | _ => p

/-- Namespace entry 1,024 + 16 × slot + f (R78, R251): invalid, and at its safe value, unless session and encoding are
valid. -/
def Blocks.consField (b : Blocks) (slot f : Nat) : NV :=
  match b.consCfg slot with
  | none => {}
  | some c =>
    match c.fields.find? (fun x => x.f == f) with
    | none => {}
    | some fc =>
      let r := b.consOf slot
      match r.held with
      | some p =>
        if r.valid && (fieldValue p fc).2 then { val := (fieldValue p fc).1, ok := true }
        else { val := fc.safe.getD 0, ok := false }
      | none => { val := fc.safe.getD 0, ok := false }

/-! ### Acceptance (R244, R245, R247, R249) -/

/-- The decisions of R244. -/
inductive Decision where
  | format | crc | duplicate | noTime | staleStep | future | aged | setup | skip | echo | accept
deriving DecidableEq, Repr

/-- The newest frame with counter `e` that a producer session sent, and that among the last 256. -/
def Prod.sentOf (p : Prod) (e : Nat) : Option SentFrame := p.sent.find? fun x => x.alive == e
def Prod.lastOf (p : Prod) (e : Nat) : Option SentFrame := (p.sent.take 256).find? fun x => x.alive == e

/-- One channel's part of a producer session. -/
def Prod.side (p : Prod) : Ch → ProdSide
  | .a => p.a
  | .b => p.b

def Prod.onSide (p : Prod) (c : Ch) (f : ProdSide → ProdSide) : Prod :=
  match c with
  | .a => { p with a := f p.a }
  | .b => { p with b := f p.b }

/-- The partner producer session's record of counter `e`. -/
def Blocks.partnerSent (b : Blocks) (c : ConsCfg) (e : Nat) : Option SentFrame :=
  match c.partner with
  | some k => (b.prodOf k).sentOf e
  | none => none

/-- The same among the last 256 counters. -/
def Blocks.partnerLast (b : Blocks) (c : ConsCfg) (e : Nat) : Option SentFrame :=
  match c.partner with
  | some k => (b.prodOf k).lastOf e
  | none => none

/-- A step of cell time has happened since cell time started. -/
def Blocks.stepped (b : Blocks) : Bool := decide (b.tsy.stepSize ≠ 0)

/-- One channel's decision on a frame whose format and check it has found good. -/
def Blocks.decision (b : Blocks) (ch : Ch) (c : ConsCfg) (r : Cons) (h : FrameHead) : Decision :=
  let d := (h.alive + 65536 - r.aliveLast) % 65536
  if r.state ≠ 1 ∧ d = 0 then .duplicate
  else if !h.timeValid then .noTime
  else
    match b.ageNum ch (b.rulerOf ch) h.stamp with
    | none => .noTime
    | some age =>
      if b.stepped && decide (stampDiff h.stamp b.tsy.stepCell < 0) then .staleStep
      else if age < -2000 * b.mapDen then .future
      else if age > (c.ageMax * 10000 : Nat) * b.mapDen ∧ r.state ≠ 3 then .aged
      else if r.state = 1 then
        match c.partner with
        | none => .accept
        | some _ =>
          match b.partnerSent c h.echo with
          | some x => if h.echoValid && decide (x.atA ≥ r.setupAt) then .accept else .setup
          | none => .setup
      else if d > c.maxSkip then .skip
      else if h.echoValid && c.partner.isSome && (b.partnerLast c h.echo).isNone then .echo
      else .accept

/-- The state of a session after an accepted frame. -/
def Blocks.accepted (b : Blocks) (c : ConsCfg) (h : FrameHead) (payload : List Byte) (r : Cons) : Cons :=
  let d := (h.alive + 65536 - r.aliveLast) % 65536
  let r1 :=
    { r with
      aliveLast := h.alive
      held := some payload
      acceptedA := b.rulerOf .a
      acceptedB := b.rulerOf .b
      stamp := h.stamp
      stampEpoch := b.tsy.epoch
      lost := if r.state = 1 ∨ d ≤ 1 then r.lost else r.lost.inc (d - 1)
      state := if r.state = 3 then (if r.retimed + 1 ≥ 2 then 2 else 3) else 2
      retimed := if r.state = 3 then min (r.retimed + 1) 2 else 0
      late := false }
  match (if h.echoValid then b.partnerSent c h.echo else none) with
  | some x =>
    if r.echo.isNone || decide (x.atA ≥ r.echoA) then { r1 with echo := some h.echo, echoA := x.atA, echoB := x.atB }
    else r1
  | none => r1

/-- The detail word that names a session. -/
def sessWord (slot : Nat) : Word := mkw slot

/-- Whether a session's part keeps a shared SFR source live: 427, and 416 to 418. -/
def Blocks.sfrLive (b : Blocks) (i : Nat) : Bool :=
  b.sfr.cons.any fun x => if i = 427 then x.2.late else x.2.why.contains i

/-- A session enters set-up (R247). -/
def State.enterSetup (slot : Nat) (s : State) : State :=
  s.onCons slot fun r => { r with state := 1, setupAt := s.b.rulerOf .a, retimed := 0 }

/-- Source 433 for each field of an accepted payload whose encoding is invalid. -/
def State.raiseBadFields (slot : Nat) (c : ConsCfg) (payload : List Byte) (s : State) : State :=
  forL c.fields (fun fc s =>
    if fc.kind ≠ 0 ∧ (fieldValue payload fc).2 = false then s.raise 433 (mkw (pl fc.f 8 8 + slot)) else s) s

/-- What both channels' one decision does (R245). -/
def State.actOn (slot : Nat) (c : ConsCfg) (h : FrameHead) (payload : List Byte) (d : Decision) (s : State) : State :=
  let refuse := fun (s : State) => s.onCons slot fun r => { r with refused := r.refused.inc }
  match d with
  | .format => s.onSfr fun r => { r with unknown := r.unknown.inc }
  | .crc => (s.onCons slot fun r => { r with crc := r.crc.inc }).raise 420 (sessWord slot)
  | .duplicate => s.onCons slot fun r => { r with dup := r.dup.inc }
  | .noTime => refuse s
  | .staleStep => (refuse s).raise 422 (sessWord slot)
  | .future => (refuse s).raise 422 (sessWord slot)
  | .aged => (refuse s).raise 421 (sessWord slot)
  | .setup => refuse s
  | .skip => ((refuse s).enterSetup slot).raise 419 (sessWord slot)
  | .echo => (refuse s).raise 423 (sessWord slot)
  | .accept =>
    let s1 := ((s.onCons slot (s.b.accepted c h payload)).raiseBadFields slot c payload).takeDrives slot h.stamp payload
    s1.cond 427 (s1.b.sfrLive 427) (sessWord slot)

/-- One channel's whole decision on a data frame's bytes. -/
def Blocks.dataDecision (b : Blocks) (ch : Ch) (bs : List Byte) : Option (Nat × ConsCfg) × Decision :=
  match b.consById (beAt bs 2 2) with
  | none => (none, .format)
  | some (slot, c) =>
    let l := 4 * (bs.getD 17 0).toNat
    if bs.getD 0 0 ≠ 1 ∨ bs.getD 1 0 ≠ 1 ∨ c.bulk ∨ (bs.getD 17 0).toNat ≠ c.len ∨ l = 0 ∨ l > 256 ∨
        bs.length < 24 + l ∨ (bs.getD 16 0).toNat ≥ 8 ∨ beAt bs 18 2 ≠ 0 then (none, .format)
    else if crc32c (virtualHeader c.id c.gen b.img.cellId ++ bs.take (20 + l)) ≠ BitVec.ofNat 32 (beAt bs (20 + l) 4) then
      (some (slot, c), .crc)
    else (some (slot, c), b.decision ch c (b.consOf slot) (frameHead bs))

/-- A data frame as each channel received it: accepted or counted when both decide alike, refused with source 425
otherwise. -/
def State.receiveData (bsA bsB : List Byte) (s : State) : State :=
  if s.b.resetting .sfr || !s.b.running then s
  else
    let a := s.b.dataDecision .a bsA
    let b := s.b.dataDecision .b bsB
    if a.2 ≠ b.2 ∨ a.1.map (·.1) ≠ b.1.map (·.1) then
      s.raise 425 (sessWord (((a.1.orElse fun _ => b.1).map (·.1)).getD 0))
    else
      match a.1 with
      | none => s.actOn 0 { id := 0 } (frameHead bsA) [] .format
      | some (slot, c) => s.actOn slot c (frameHead bsA) (bytesAt bsA 20 (4 * c.len)) a.2

def execSafeFrameReceived (t : Nat) (bytesA bytesB : List Byte) (s : State) : Host.Outcome State Fault Refusal :=
  .next ((s.tick t).receiveData bytesA bytesB)

/-- A session still in set-up after t_open raises source 427 (R247). -/
def State.setupTimeout (slot : Nat) (s : State) : State :=
  match s.b.consCfg slot with
  | none => s
  | some c =>
    let r := s.b.consOf slot
    if s.b.running && decide (r.state = 1) && decide (s.b.rulerOf .a > r.setupAt + c.tOpenS * 1000000000) then
      (s.onCons slot fun r => { r with late := true }).cond 427 true (sessWord slot)
    else s

def execSetupTimeout (t : Nat) (slot : Fin 128) (s : State) : Host.Outcome State Fault Refusal :=
  .next ((s.tick t).setupTimeout slot.val)

/-! ### Validity at capture (R246) -/

/-- One session judged at the capture of ruler instants tcA and tcB. -/
def Blocks.judged (b : Blocks) (c : ConsCfg) (r : Cons) : Cons :=
  let held := r.held.isSome
  let mapped := fun ch => if r.stampEpoch = b.tsy.epoch then b.ageNum ch (b.tcOf ch) r.stamp else none
  let ageGood := fun ch => match mapped ch with
    | some a => decide (a ≤ (c.ageMax * 10000 : Nat) * b.mapDen)
    | none => false
  let wd := held && decide (b.tcOf .a - r.acceptedA ≤ c.tWd * 10000) && decide (b.tcOf .b - r.acceptedB ≤ c.tWd * 10000)
  let age := held && ageGood .a && ageGood .b
  let rt := c.partner.isNone || (r.echo.isSome && decide (b.tcOf .a - r.echoA ≤ c.tRtMax * 10000) &&
    decide (b.tcOf .b - r.echoB ≤ c.tRtMax * 10000))
  let open_ := decide (r.state = 2) || (decide (r.state = 3) && c.partner.isSome)
  let valid := b.tsy.cellValid && open_ && wd && (age || decide (r.state = 3)) && rt
  let first := if !wd then some 416 else if !age && decide (r.state = 2) then some 417 else if !rt then some 418 else none
  { r with
    valid := valid, wdOk := wd, ageOk := age, rtOk := rt
    age := if held then (mapped .a).map fun a => (a / (b.mapDen * 1000)).toNat else none
    rt := if c.partner.isSome && r.echo.isSome then some ((b.tcOf .a - r.echoA) / 1000) else none
    why := if valid then [] else if !held then r.why else
      match first with
      | some i => if r.why.contains i then r.why else i :: r.why
      | none => r.why }

/-- Every session is judged; sources 416 to 418 follow. -/
def State.judgeSessions (s : State) : State :=
  let s1 := forL s.b.img.cons (fun x s => s.onCons x.1 (s.b.judged x.2)) s
  forL [416, 417, 418] (fun i s =>
    s.cond i (s.b.sfrLive i) (sessWord (((s.b.img.cons.find? fun x => (s.b.consOf x.1).why.contains i).map (·.1)).getD 0))) s1

/-- A cell-time step puts every open session into re-timing, and restarts a re-timing (R249); open assemblies are abandoned
(R255). -/
def Sfr.retime (r : Sfr) : Sfr :=
  { r with asmA := [], asmB := [], cons := nmapv r.cons {} fun _ c => if c.state = 1 then c else { c with state := 3, retimed := 0 } }

/-! ### Sending (R248, R252 to R254) -/

/-- The setup flag a producer session sends (R248). -/
def Blocks.sendsSetup (b : Blocks) (c : ProdCfg) (p : Prod) : Bool :=
  match c.partner with
  | some k => decide ((b.consOf k).state = 1)
  | none => decide (p.frames < 16)

/-- The echo a producer session sends: the newest counter accepted from its partner. -/
def Blocks.echoSent (b : Blocks) (c : ProdCfg) : Option Nat :=
  match c.partner with
  | some k => if (b.consOf k).held.isSome then some (b.consOf k).aliveLast else none
  | none => none

/-- The bytes of a producer session's next frame as a channel encodes it, with its check. -/
def Blocks.frameBytes (b : Blocks) (ch : Ch) (c : ProdCfg) (p : Prod) : List Byte :=
  let e := b.echoSent c
  let body :=
    [1, 1] ++ beBytes c.id 2 ++ beBytes p.alive.toNat 2 ++ beBytes (e.getD 0) 2 ++ beBytes (b.cellNs % 2 ^ 64) 8 ++
      beBytes (b2n (b.sendsSetup c p) + pl (b2n b.tsy.cellValid) 1 1 + pl (b2n e.isSome) 2 1) 1 ++ beBytes c.len 1 ++ [0, 0] ++
      fitBytes (p.side ch).payload (4 * c.len)
  body ++ beBytes (crc32c (virtualHeader c.id c.gen c.peer ++ body)).toNat 4

/-- The Ethernet frame that carries a safe frame. -/
def Blocks.safeEth (b : Blocks) (c : ProdCfg) (bytes : List Byte) : EthFrame :=
  { dst := c.mac, src := b.baseMac, pcp := c.pcp, vlan := some c.vlan, etype := b.img.net.etype, payload := bytes
    length := max 64 (bytes.length + 22) }

/-- A producer session after it has sent a frame: its counter, the counter's send instant, its frames. -/
def Prod.sending (p : Prod) (atA atB : Nat) : Prod :=
  { p with
    alive := p.alive + 1
    lastSent := p.alive.toNat
    sent := ({ alive := p.alive.toNat, atA := atA, atB := atB } : SentFrame) :: p.sent.filter fun x => x.alive != p.alive.toNat
    frames := min (p.frames + 1) 16 }

/-- A producer session sends one frame where both channels' checks of their own encodings agree: it goes to port 6. Otherwise it
is not sent, its counter is not used, and source 426 is raised (R253). -/
def State.sendFrame (slot : Nat) (c : ProdCfg) (s : State) : State :=
  let p := s.b.prodOf slot
  let bytes := s.b.frameBytes .a c p
  if bytes.drop (20 + 4 * c.len) ≠ (s.b.frameBytes .b c p).drop (20 + 4 * c.len) then s.raise 426 (sessWord slot)
  else (s.onProd slot fun p => p.sending (s.b.rulerOf .a) (s.b.rulerOf .b)).handPort6 (s.b.safeEth c bytes)

/-- The periodic frames of the commit of sentence n (R253). A session whose extra frame has gone in this sentence sends no second
one (R255). -/
def State.sendDue (n : Nat) (s : State) : State :=
  if s.b.resetting .sfr then s
  else
    forL s.b.img.prods (fun x s =>
      if x.2.sendEvery > 0 ∧ n % x.2.sendEvery = x.1 % x.2.sendEvery ∧ (s.b.prodOf x.1).extraSent = false then
        s.sendFrame x.1 x.2
      else s) s

/-- A sentence begins: each session may send one extra frame in it. -/
def Sfr.newSentence (r : Sfr) : Sfr := { r with prod := nmapv r.prod {} fun _ p => { p with extraSent := false } }

/-- One channel's part after an interjection on a field: the safe encoding, and the hold. -/
def ProdSide.intj (p : ProdSide) (c : ProdCfg) (fc : FieldCfg) (now : Nat) : ProdSide :=
  { payload := putField (fitBytes p.payload (4 * c.len)) fc (.ofBool false), holds := nset p.holds fc.f (some now) none }

/-- An interjection acts in one channel on a bit or bool2 field (R254), named by 16 × slot + field. -/
def State.interjectField (ch : Ch) (x : Nat) (s : State) : State :=
  match s.b.prodCfg (x / 16) with
  | none => s
  | some c =>
    match c.fields.find? (fun fc => fc.f == x % 16) with
    | none => s
    | some fc => s.onProd (x / 16) fun p => p.onSide ch fun y => y.intj c fc s.b.now

/-- The extra frame of a session, at most one a sentence. -/
def State.extraFrame (slot : Nat) (s : State) : State :=
  match s.b.prodCfg slot with
  | none => s
  | some c =>
    if (s.b.prodOf slot).extraSent || s.b.resetting .sfr then s
    else (s.onProd slot fun p => { p with extraSent := true }).sendFrame slot c

/-- Holds whose trigger came before the sentence's capture end at its commit (R67). -/
def ProdSide.release (p : ProdSide) (tc : Nat) : ProdSide :=
  { p with holds := nmapv p.holds none fun _ t => match t with
    | some t => if t < tc then none else some t
    | none => none }

def Prod.release (p : Prod) (tc : Nat) : Prod := { p with a := p.a.release tc, b := p.b.release tc }

/-- A producer session starts anew with a random counter (R248). -/
def State.startProd (slot : Nat) (s : State) : State :=
  let d := s.draw
  d.2.onProd slot fun p => { p with alive := d.1.truncate 16, frames := 0 }

/-- Every session starts (R247, R248, R255): at a start, an image load or an SFR block reset. The statistics stay. -/
def State.startSessions (s : State) : State :=
  let s1 := s.onSfr fun r =>
    { r with
      cons := nmapv r.cons {} fun _ c =>
        { setupAt := s.b.rulerOf .a, dup := c.dup, crc := c.crc, lost := c.lost, refused := c.refused }
      prod := [], asmA := [], asmB := [], asmRefused := [] }
  let s2 := forL s.b.img.cons (fun x s => s.onCons x.1 fun r => { r with setupAt := s.b.rulerOf .a }) s1
  (forL s.b.img.prods (fun x s => s.startProd x.1) s2).cond 427 false

/-! ### SFR_RESTART and SFR_CTR_CLEAR (R257) -/

/-- The slot a restart names is used. -/
def Blocks.slotUsed (b : Blocks) (w : Word) : Bool :=
  if w.getLsbD 7 then (b.prodCfg (fld w 6 0)).isSome else (b.consCfg (fld w 6 0)).isSome

def State.sfrRestart (rd : Reader) (w : Word) (s : State) : State × Nat :=
  if s.b.slotUsed w then
    let s1 := if w.getLsbD 7 then s.startProd (fld w 6 0) else s.enterSetup (fld w 6 0)
    (s1.record 0x0C (beBytes (b2n (w.getLsbD 7)) 1 ++ beBytes (fld w 6 0) 1 ++ beBytes rd.port 1), rDone)
  else (s, rBadArg)

def execSfrRestart (t : Nat) (rd : Reader) (w : Word) (s : State) : Host.Outcome State Fault Refusal :=
  .next ((s.tick t).wt rd pSFR (wTok w) (State.sfrRestart rd w))

def State.sfrCtrClear (w : Word) (s : State) : State × Nat :=
  (if w.getLsbD 0 then
    s.onSfr fun r =>
      { r with unknown := {}
               cons := nmapv r.cons {} fun _ c => { c with dup := {}, crc := {}, lost := {}, refused := {} } }
   else s, rDone)

def execSfrCtrClear (t : Nat) (rd : Reader) (w : Word) (s : State) : Host.Outcome State Fault Refusal :=
  .next ((s.tick t).wt rd pSFR (wTok w) (State.sfrCtrClear w))

/-! ### The SFR page (R257) -/

/-- The bits of word `i` of a map over the consumer slots. -/
def Blocks.consBits (b : Blocks) (i : Nat) (f : Cons → Bool) : Word :=
  forL b.img.cons (fun x w => if x.1 / 32 = i ∧ f (b.consOf x.1) then setb w (x.1 % 32) true else w) (0 : Word)

/-- SFR_STATUS. -/
def Blocks.sfrStatus (b : Blocks) : Word :=
  let any := fun (f : Cons → Bool) => b.img.cons.any fun x => f (b.consOf x.1)
  let on := b.running && !b.resetting .sfr
  mkw (pl (b2n (any fun r => r.state == 3)) 5 1 + pl (b2n (any fun r => r.state == 1)) 4 1 +
    pl (b2n (any fun r => !r.valid)) 3 1 + pl (b2n (b.tsy.cellValid && b.tsy.mapped)) 2 1 +
    pl (b2n (on && !b.img.prods.isEmpty)) 1 1 + pl (b2n on) 0 1)

/-- SFR_SEL_STATE. -/
def Blocks.selState (b : Blocks) (prod : Bool) (k : Nat) : Word :=
  if prod then
    match b.prodCfg k with
    | some c => mkw (pl (if b.sendsSetup c (b.prodOf k) then 1 else 2) 29 3)
    | none => 0
  else
    match b.consCfg k with
    | some c =>
      let r := b.consOf k
      mkw (pl r.state 29 3 + pl (b2n r.valid) 28 1 + pl r.retimed 26 2 + pl (b2n r.ageOk) 25 1 + pl (b2n r.wdOk) 24 1 +
        pl (b2n (r.rtOk || c.partner.isNone)) 23 1)
    | none => 0

/-- SFR_SEL_FIELD. -/
def Blocks.selField (b : Blocks) (prod : Bool) (k f : Nat) : Word :=
  let fs := if prod then (b.prodCfg k).map (·.fields) else (b.consCfg k).map (·.fields)
  match (fs.getD []).find? (fun x => x.f == f) with
  | none => 0
  | some c =>
    let e := if prod then ((b.img.bindField.find? fun x => x.1 == 16 * k + f).map (·.2)).getD 0 else 1024 + 16 * k + f
    mkw (pl c.kind 28 4 + pl c.offset 20 8 + pl c.bit 17 3 + pl e 0 15)

/-- The instance arrays of the session table. -/
def Blocks.sessionArray (b : Blocks) (off : Nat) : Word :=
  let cons := decide (off < 0xC00)
  let k := (off - (if cons then 0x800 else 0xC00)) / 8
  if cons then
    match b.consCfg k with
    | none => 0
    | some c =>
      if off % 8 = 0 then
        mkw (pl c.id 16 16 + pl 1 15 1 + pl (b2n c.bulk) 14 1 + pl (b2n c.partner.isSome) 13 1 +
          pl (c.partner.getD 0) 6 7 + (if c.bulk then 0 else pl (c.len - 1) 0 6))
      else mkw (pl c.tWd 15 15 + pl c.ageMax 0 15)
  else
    match b.prodCfg k with
    | none => 0
    | some c =>
      if off % 8 = 0 then
        mkw (pl c.id 16 16 + pl 1 15 1 + pl (b2n c.partner.isSome) 14 1 + pl (c.partner.getD 0) 7 7 + pl (c.len - 1) 0 6)
      else mkw (pl c.sendEvery 0 9)

/-- The SFR page from 0x100. -/
def readSfr (v : RView) (off : Nat) : Word :=
  let sel := v.live.own v.rd (pSFR + 0x130)
  let k := fld sel 6 0
  let prod := sel.getLsbD 7
  let f := fld sel 11 8
  let cons := v.live.consOf k
  let cc := if prod then none else v.live.consCfg k
  match off with
  | 0x100 => v.rosCap Blocks.sfrStatus
  | 0x104 => mkw (match v.live.cfg.image with | some im => im.net.etype | none => 0)
  | 0x108 => v.live.sfr.unknown.word
  | 0x110 => v.rosCap fun b => b.consBits 0 (·.valid)
  | 0x114 => v.rosCap fun b => b.consBits 1 (·.valid)
  | 0x118 => v.rosCap fun b => b.consBits 2 (·.valid)
  | 0x11C => v.rosCap fun b => b.consBits 3 (·.valid)
  | 0x120 => v.rosCap fun b => b.consBits 0 (·.state == 1)
  | 0x124 => v.rosCap fun b => b.consBits 1 (·.state == 1)
  | 0x128 => v.rosCap fun b => b.consBits 2 (·.state == 1)
  | 0x12C => v.rosCap fun b => b.consBits 3 (·.state == 1)
  | 0x130 => sel
  | 0x134 => v.rosCap fun b => b.selState prod k
  | 0x138 =>
    match cc, v.live.prodCfg k with
    | some c, _ => mkw (pl c.maxSkip 24 8 + (if c.partner.isSome then pl c.tRtMax 8 15 else 0) + pl c.fields.length 0 5)
    | none, some c => if prod then mkw (pl c.fields.length 0 5) else 0
    | none, none => 0
  | 0x13C =>
    match v.snap with
    | some p => mkw (if prod then 0xFFFFF else sat (((p.cap.consOf k).age).getD 0xFFFFF) 20)
    | none => 0x000FFFFF
  | 0x140 =>
    match v.snap with
    | some p => mkw (if prod then 0xFFFFF else sat (((p.cap.consOf k).rt).getD 0xFFFFF) 20)
    | none => 0x000FFFFF
  | 0x144 =>
    v.rosCap fun b =>
      if prod then
        match b.prodCfg k with
        | some c => mkw (pl ((b.echoSent c).getD 0) 16 16 + pl (b.prodOf k).lastSent 0 16)
        | none => 0
      else mkw (pl ((b.consOf k).echo.getD 0) 16 16 + pl (b.consOf k).aliveLast 0 16)
  | 0x148 => if prod then 0 else cons.dup.word
  | 0x14C => if prod then 0 else cons.crc.word
  | 0x150 => if prod then 0 else cons.lost.word
  | 0x154 => if prod then 0 else cons.refused.word
  | 0x158 => v.live.selField prod k f
  | 0x15C =>
    match cc with
    | some c =>
      match c.fields.find? (fun x => x.f == f) with
      | some fc => natW (fc.safe.getD 0)
      | none => 0
    | none => 0
  | _ => if off ≥ 0x800 then v.live.sessionArray off else 0

end Sys2Proof.Machine
end

