-- ==== Sys2Proof/Machine/Encoder.lean ====
section
/-! DEFINITION. Channel B's encoders and the analogue lichens (R152 to R155, R162, R166, R167), the two sources of an axis,
and the MEA page (R183). -/

namespace Sys2Proof.Machine

/-! ### The fine angle and the vector length (R153, R154) -/

/-- Bits of the angle of (c, s), 0 ≤ angle < a quarter turn, by doubling it `k` times: the count of steps below it, and
whether something is left over. -/
def angleBits : Nat → Int → Int → Nat → Nat × Bool
  | 0, _, s, n => (n, decide (s ≠ 0))
  | k + 1, c, s, n =>
    let c2 := c * c - s * s
    let s2 := 2 * c * s
    if c2 > 0 then angleBits k c2 s2 (2 * n) else angleBits k s2 (-c2) (2 * n + 1)

/-- The quadrant of a pair of words, 0 to 3 in the direction of rising angle. -/
def quadrantOf (s c : Int) : Nat :=
  if s ≥ 0 ∧ c > 0 then 0 else if s > 0 ∧ c ≤ 0 then 1 else if s ≤ 0 ∧ c < 0 then 2 else 3

/-- The angle within its quadrant: (c, s) turned back by whole quarter turns. -/
def turnedBack (s c : Int) : Nat → Int × Int
  | 0 => (c, s)
  | 1 => (s, -c)
  | 2 => (-c, -s)
  | _ => (-s, c)

/-- atan2(sine word, cosine word) in steps of 1/4,096 of a period; between two steps the unit gives one of them. -/
def fineAngle (sin cos : BitVec 20) : Nat :=
  let s := sin.toInt
  let c := cos.toInt
  if s = 0 ∧ c = 0 then Config.zeroAngle.val
  else
    let q := quadrantOf s c
    let v := turnedBack s c q
    let r := angleBits 10 v.1 v.2 0
    q * 1024 + r.1 + (if r.2 && Config.angleUp sin cos then 1 else 0)

/-- The square of the vector length in mV, times 2^38. -/
def vectorSq (sin cos : BitVec 20) : Nat := ((sin.toInt * sin.toInt + cos.toInt * cos.toInt) * 1562500).toNat

/-- The vector length in mV as shown. -/
def vectorLen (sin cos : BitVec 20) : Nat :=
  let q := vectorSq sin cos
  let n := isqrt (q / 2 ^ 38)
  if n * n * 2 ^ 38 < q ∧ Config.lengthUp sin cos then n + 1 else n

/-- The vector length lies outside r_min to r_max. -/
def Blocks.vectorBad (b : Blocks) (sin cos : BitVec 20) : Bool :=
  let lim := b.set (pMEA + 0x10C)
  let q := vectorSq sin cos
  decide (q < (10 * fld lim 7 0) ^ 2 * 2 ^ 38) || decide (q > (10 * fld lim 15 8) ^ 2 * 2 ^ 38)

/-! ### Encoder samples -/

def Blocks.encOn (b : Blocks) (a : Nat) : Bool := (b.set (pMEA + 0x104)).getLsbD a && decide (a < 16)
def Blocks.enc (b : Blocks) (a : Nat) : Encoder := nget b.mea.enc a {}

def State.onEnc (a : Nat) (f : Encoder → Encoder) (s : State) : State :=
  s.onMea fun m => { m with enc := nupd m.enc a {} f }

/-- A count kept in its 48 bits. -/
def wrap48 (x : Int) : Int := (BitVec.ofInt 48 x).toInt

/-- The converter's quadrant against the counter's: the count, or none where they are opposite (R153). -/
def Encoder.combine (e : Encoder) (sin cos : BitVec 20) : Option Int :=
  let fine : Int := fineAngle sin cos
  let q := quadrantOf sin.toInt cos.toInt
  let n : Int := e.quads.toInt
  match (q + 4 - (n % 4).toNat) % 4 with
  | 0 => some (wrap48 (n / 4 * 4096 + fine))
  | 1 => some (wrap48 ((n + 1) / 4 * 4096 + fine))
  | 3 => some (wrap48 ((n - 1) / 4 * 4096 + fine))
  | _ => none

/-- An encoder before its first sample: the counter takes the quadrant of the words. -/
def Encoder.primed (e : Encoder) (sin cos : BitVec 20) : Encoder :=
  if e.history.isEmpty && e.lastEdge.isNone then { e with quads := BitVec.ofNat 38 (quadrantOf sin.toInt cos.toInt) } else e

/-- One sample of an encoder: words, length, count, history, and runs of bad vectors and opposite quadrants. -/
def Encoder.sample (e0 : Encoder) (sin cos : BitVec 20) (bad : Bool) (atB : Nat) : Encoder :=
  let e := e0.primed sin cos
  let len := vectorLen sin cos
  let base :=
    { e with sin := sin, cos := cos, len := len, lenMin := min e.lenMin len, vecRun := if bad then min (e.vecRun + 1) 2 else 0 }
  match e.combine sin cos with
  | some n => { base with count := n, oppRun := 0, history := ((atB, n) :: e.history).take 256 }
  | none => { base with oppRun := min (e.oppRun + 1) 2 }

/-- A word at either end of full scale. -/
def fullScale (w : BitVec 20) : Bool := w == 0x7FFFF || w == 0x80000

/-- A failing check of axis `a`'s encoder: source B is invalid until the source is cleared, and the source is raised once. -/
def State.encFail (a i : Nat) (v : Bool) (s : State) : State :=
  if v && !(s.b.enc a).failedBy.contains i then
    (s.onEnc a fun e => { e with failedBy := i :: e.failedBy }).raise i (axWord a 0) (some (s.b.axZone a))
  else s

/-- A converter word pair arrives for axis `a`. -/
def State.encSample (a : Nat) (sin cos : BitVec 20) (s : State) : State :=
  if s.b.running && s.b.encOn a && !s.b.resetting .mea then
    let s1 := s.onEnc a fun e => e.sample sin cos (s.b.vectorBad sin cos) (s.b.rulerOf .b)
    let e := s1.b.enc a
    ((s1.encFail a 288 (decide (e.vecRun ≥ 2))).encFail a 289 (decide (e.oppRun ≥ 2))).encFail a 291
      (fullScale sin || fullScale cos)
  else s

def execEncoderSample (t : Nat) (a : Fin 16) (sin cos : BitVec 20) (s : State) : Host.Outcome State Fault Refusal :=
  .next ((s.tick t).encSample a.val sin cos)

/-- The quadrant that the two comparators show. -/
def compQuadrant (sinHigh cosHigh : Bool) : Nat :=
  match sinHigh, cosHigh with
  | true, true => 0
  | true, false => 1
  | false, false => 2
  | false, true => 3

/-- A comparator changes state: the counter follows by one quadrant; two transitions less than 0.5 microseconds apart raise
source 290 (R153, R154). Both comparators changing at once is no transition. -/
def State.quadrantMove (a : Nat) (sinHigh cosHigh : Bool) (s : State) : State :=
  if s.b.running && s.b.encOn a && !s.b.resetting .mea then
    let e := s.b.enc a
    let now := s.b.rulerOf .b
    let q := compQuadrant sinHigh cosHigh
    let d := (q + 4 - (e.quads.toInt % 4).toNat) % 4
    if d = 1 ∨ d = 3 then
      let fast := match e.lastEdge with
        | some t0 => decide (now < t0 + 500)
        | none => false
      (s.onEnc a fun e => { e with quads := if d = 1 then e.quads + 1 else e.quads - 1, lastEdge := some now }).encFail a 290
        fast
    else s
  else s

def execQuadrantCounterTransition (t : Nat) (a : Fin 16) (sinHigh cosHigh : Bool) (s : State) :
    Host.Outcome State Fault Refusal :=
  .next ((s.tick t).quadrantMove a.val sinHigh cosHigh)

/-- A clear of one of sources 288 to 292: the axes concerned lose their offset and adopt it again (R154, R155). -/
def State.clearedEnc (i : Nat) (s : State) : State :=
  s.onMea fun m =>
    { m with enc := nmapv m.enc {} fun _ e =>
        if e.failedBy.contains i then { e with failedBy := e.failedBy.filter (· != i), off := none } else e }

/-! ### Positions (R155, R159, R160) -/

/-- Region 1 of the antifuses, which the converters need, can be used (R359). -/
def Blocks.convertersOk (b : Blocks) : Bool := !(b.otp.invalid.contains 1 || b.otp.torn.contains 1)

/-- Source B can be used, its offset apart (R151). -/
def Blocks.encGood (b : Blocks) (a : Nat) : Bool :=
  b.encOn a && (b.enc a).failedBy.isEmpty && !(b.enc a).history.isEmpty && b.convertersOk && !b.resetting .mea

/-- Scale a count times `k` by num / den: floor(count × num / den) where the count is x / k. -/
def scaleCount (x k : Int) (num den : Nat) : Int := x * num / (k * (if den = 0 then 1 else den))

/-- Encoder counts to position units, without the offset; x / k is the count. -/
def Blocks.scaleB (b : Blocks) (a : Nat) (x k : Int) : Int := scaleCount x k (fld (b.axSet a 4) 23 0) (fld (b.axSet a 8) 23 0)

/-- Drive counts to position units, with off_a. -/
def Blocks.scaleA (b : Blocks) (a : Nat) (x k : Int) : Int :=
  nativeOf (b.axSet a 0x14) + scaleCount x k (fld (b.axSet a 0xC) 23 0) (fld (b.axSet a 0x10) 23 0)

/-- A position inside the format, or any on a modulo axis. -/
def Blocks.inRange (b : Blocks) (a : Nat) (p : Int) : Bool :=
  b.axModulo a || (decide (-524288 ≤ p) && decide (p ≤ 524287))

/-- A position kept only where it is in range. -/
def Blocks.ranged (b : Blocks) (a : Nat) (p : Int) : Option Int := if b.inRange a p then some p else none

/-- The count of a history at ruler instant `t`, as x / k with k positive: interpolated between the samples around it. -/
def countAt : List (Nat × Int) → Int → Int × Int
  | [], t => (Config.beyondHistory 0 t, 1)
  | [x], t => if t = x.1 then (x.2, 1) else (Config.beyondHistory x.2 t, 1)
  | x :: y :: r, t =>
    if t > x.1 then (Config.beyondHistory x.2 t, 1)
    else if t ≥ y.1 ∧ y.1 < x.1 then
      (y.2 * ((x.1 : Int) - y.1) + (x.2 - y.2) * (t - y.1), (x.1 : Int) - y.1)
    else countAt (y :: r) t

/-- Source A can be used: an accepted record with pos_valid and a delay in range in a valid session (R151, R156). -/
def Blocks.recGood (b : Blocks) (a : Nat) : Option DriveRec :=
  let slot := fld (b.axSet a 0x20) 30 24
  match (b.axis a).recNew with
  | some r => if r.valid && (b.consOf slot).valid && (b.consCfg slot).isSome then some r else none
  | none => none

/-- The record before the newest, where source A's speed is known from the two. -/
def Axis.recPrev (x : Axis) (epoch : Nat) : Option DriveRec :=
  match x.recNew, x.recOld with
  | some r, some o => if r.epoch = epoch ∧ o.epoch = epoch ∧ o.valid ∧ o.atA < r.atA then some o else none
  | _, _ => none

/-- Source A now: the newest record extrapolated with its own speed (R159). -/
def Blocks.posA (b : Blocks) (a : Nat) : Option Int :=
  match b.recGood a with
  | none => none
  | some r =>
    let dt : Int := (b.rulerOf .a : Int) - r.atA
    match (b.axis a).recPrev b.tsy.epoch with
    | some o =>
      let k := r.atA - o.atA
      b.ranged a (b.scaleA a (r.count * k + (r.count - o.count) * dt) k)
    | none => b.ranged a (b.scaleA a (Config.unknownSpeedCount r.count dt) 1)

/-- Source B now: the newest sample (R159). -/
def Blocks.posB (b : Blocks) (a : Nat) : Option Int :=
  let e := b.enc a
  match e.off with
  | some off => if b.encGood a then b.ranged a (off + b.scaleB a e.count 1) else none
  | none => none

/-! ### Reference (R162) -/

/-- The position the axis must show, its tolerance, and whether each source shows it now. -/
def Blocks.atReference (b : Blocks) (a : Nat) : Bool :=
  let want := nativeOf (b.axSet a 0x28)
  let tol : Int := fld (b.axSet a 0x24) 15 0
  let near := fun (p : Option Int) => match p with
    | some p => decide ((p - want).natAbs ≤ tol.natAbs)
    | none => false
  near (b.posA a) && near (b.posB a)

/-- A reference lichen's signal changed: the axes that name it in this sense become referenced, or raise source 344. DESIGN CHOICE
(log 62): on a modulo axis the position before the reduction is compared with p_ref; an edge while a source is invalid neither
references the axis nor raises 344. -/
def State.reference (i : Nat) (rising : Bool) (s : State) : State :=
  forL (s.b.axesOn.filter fun a =>
      let r := s.b.axSet a 0x24
      r.getLsbD 31 && r.getLsbD 30 == rising && fld r 29 24 == i) (fun a s =>
    if s.b.atReference a then s.onAxis a fun x => { x with refd := true }
    else if (s.b.posA a).isSome && (s.b.posB a).isSome then
      (s.onAxis a fun x => { x with refd := false }).axFail a 344 0
    else s) s

/-! ### Analogue lichens (R166, R167) -/

def Blocks.ainSet (b : Blocks) (j off : Nat) : Word := b.set (pMEA + 0x900 + 32 * j + off)
def Blocks.ainN (b : Blocks) (j : Nat) : Nat := fld (b.ainSet j 0) 8 0
def Blocks.ain (b : Blocks) (j : Nat) : Analogue := nget b.mea.ain j {}

/-- A 24-bit two's-complement field. -/
def signed24 (w : Word) : Int := (BitVec.ofNat 24 (w.toNat % 2 ^ 24)).toInt

/-- A number as a native value; what lies outside the format is free. -/
def fitNative (x : Int) : Int := if -524288 ≤ x ∧ x ≤ 524287 then x else (Config.outOfFormat x).toInt

/-- The scaled mean of a window: offset + floor(mean × gain / 65,536); 0 before any sample. -/
def Blocks.ainScaled (b : Blocks) (j : Nat) (win : List Int) : Int :=
  if win.isEmpty then 0
  else fitNative (nativeOf (b.ainSet j 8) + win.sum * signed24 (b.ainSet j 4) / (win.length * 65536))

/-- Valid: N samples in both channels, no discrepancy or clipping uncleared, trims usable. -/
def Blocks.ainValid (b : Blocks) (j : Nat) : Bool :=
  let x := b.ain j
  decide (b.ainN j > 0) && decide (x.winA.length ≥ b.ainN j) && decide (x.winB.length ≥ b.ainN j) && x.failed.isEmpty &&
    b.convertersOk && !b.resetting .mea

/-- Namespace entry 80 + j: the less favourable of the two channels' values. -/
def Blocks.ainWord (b : Blocks) (j : Nat) : NV :=
  let x := b.ain j
  let p := b.ainScaled j x.winA
  let q := b.ainScaled j x.winB
  if b.ainValid j then
    { val := BitVec.ofInt 20 (if (b.ainSet j 0).getLsbD 31 then min p q else max p q), ok := true }
  else { val := nget b.img.safes (80 + j) 0, ok := false }

def State.onAin (j : Nat) (f : Analogue → Analogue) (s : State) : State :=
  s.onMea fun m => { m with ain := nupd m.ain j {} f }

/-- An analogue lichen fails: invalid until the clear; source, counter. -/
def State.ainFail (j i : Nat) (s : State) : State :=
  if (s.b.ain j).failed.contains i then s
  else (s.onAin j fun x => { x with failed := i :: x.failed, events := x.events.inc }).raise i (mkw j)

/-- Both channels sample analogue lichen j. -/
def State.ainSample (j : Nat) (ra rb : BitVec 20) (s : State) : State :=
  if s.b.running && decide (s.b.ainN j > 0) && !s.b.resetting .mea then
    let n := s.b.ainN j
    let s1 := s.onAin j fun x =>
      { x with rawA := ra, rawB := rb, winA := (ra.toInt :: x.winA).take n, winB := (rb.toInt :: x.winB).take n }
    let x := s1.b.ain j
    let differ := decide ((s1.b.ainScaled j x.winA - s1.b.ainScaled j x.winB).natAbs > fld (s1.b.ainSet j 0xC) 18 0)
    let s2 := s1.onAin j fun x => { x with diffAt := if differ then some (x.diffAt.getD s.b.now) else none }
    if fullScale ra || fullScale rb then s2.ainFail j 294 else s2
  else s

def execAnalogueSample (t : Nat) (j : Fin 8) (rawA rawB : BitVec 20) (s : State) : Host.Outcome State Fault Refusal :=
  .next ((s.tick t).ainSample j.val rawA rawB)

/-- The difference has lasted T_an. -/
def State.ainTimeout (j : Nat) (s : State) : State :=
  match (s.b.ain j).diffAt with
  | some t0 =>
    if s.b.running && decide (s.b.now ≥ t0 + fld (s.b.ainSet j 0x10) 13 0 * 1000000) && !s.b.resetting .mea then s.ainFail j 293
    else s
  | none => s

def execAnalogueDiscrepancyTimeout (t : Nat) (j : Fin 8) (s : State) : Host.Outcome State Fault Refusal :=
  .next ((s.tick t).ainTimeout j.val)

/-- A clear of source 293, 294 or 295. -/
def State.clearedAin (i : Nat) (s : State) : State :=
  s.onMea fun m => { m with ain := nmapv m.ain {} fun _ x => { x with failed := x.failed.filter (· != i) } }

/-! ### MEA_CTR_CLEAR and first use (R155, R165) -/

def State.meaCtrClear (w : Word) (s : State) : State × Nat :=
  (if w.getLsbD 0 then
    s.onMea fun m =>
      { m with enc := nmapv m.enc {} fun _ e => { e with lenMin := 0xFFF }
               ain := nmapv m.ain {} fun _ x => { x with events := {} } }
   else s, rDone)

def execMeaCtrClear (t : Nat) (rd : Reader) (w : Word) (s : State) : Host.Outcome State Fault Refusal :=
  .next ((s.tick t).wt rd pMEA (wTok w) (State.meaCtrClear w))

/-- Every source B offset is given up, so that it is adopted anew (R155). -/
def Mea.readopt (m : Mea) : Mea := { m with enc := nmapv m.enc {} fun _ e => { e with off := none } }

/-- The MEA block in its first-use states; failing sources stay until they are cleared, and so do the statistics. -/
def Mea.firstUse (m : Mea) : Mea :=
  { enc := nmapv m.enc {} fun _ e => { lenMin := e.lenMin, failedBy := e.failedBy }
    ain := nmapv m.ain {} fun _ x => { failed := x.failed, events := x.events } }

/-! ### The MEA page (R183) -/

/-- The used analogue lichens. -/
def Blocks.ainUsed (b : Blocks) : List Nat := (List.range 8).filter fun j => decide (b.ainN j > 0)

/-- Source B of axis `a` is valid (MEA_ENC_OK, AXS_STATEa.valid_b). -/
def Blocks.validB (b : Blocks) (a : Nat) : Bool := (b.posB a).isSome

/-- The MEA page from 0x100. -/
def readMea (v : RView) (off : Nat) : Word :=
  match off with
  | 0x100 => v.rosCap fun b =>
      mkw (pl (b2n (b.ainUsed.any fun j => !b.ainValid j)) 2 1 +
        pl (b2n ((List.range 16).any fun a => b.encOn a && !b.validB a)) 1 1 + pl (b2n (b.running && !b.resetting .mea)) 0 1)
  | 0x104 => v.live.rwsRead (pMEA + 0x104)
  | 0x108 => v.rosCap fun b => wordOf (bits16 b.validB) 0
  | 0x10C => v.live.rwsRead (pMEA + 0x10C)
  | 0x110 => v.rosCap fun b => wordOf (bits16 fun j => decide (j < 8) && b.ainValid j) 0
  | 0x114 => if v.live.running then natW (Config.converterRef (if v.bView then .b else .a)) else 0
  | _ =>
    if 0x800 ≤ off ∧ off < 0x900 then
      if !v.bView then 0
      else
        let e := v.live.enc ((off - 0x800) / 16)
        match off % 16 with
        | 0 => natW e.sin
        | 4 => natW e.cos
        | 8 => mkw (pl e.lenMin 16 12 + pl (sat e.len 12) 0 12)
        | _ => intW (e.quads.toInt / 4)
    else if 0x900 ≤ off ∧ off < 0xA00 then
      let j := (off - 0x900) / 32
      let x := v.live.ain j
      match off % 32 with
      | 0x14 => natW (if v.bView then x.rawB else x.rawA)
      | 0x18 => v.rosCap fun b => natW (toNative (b.ainScaled j (if v.bView then (b.ain j).winB else (b.ain j).winA)))
      | 0x1C => x.events.word
      | _ => if off % 32 < 0x14 then v.live.rwsRead (pMEA + off) else 0
    else 0

end Sys2Proof.Machine
end

