-- ==== Sys2Proof/Machine/Interject.lean ====
section
/-! DEFINITION. Interjections (R64 to R69, R113, R254): a trigger that becomes 0 drives its targets safe in the channels in
which it has become 0, and annotates the snapshots. -/

namespace Sys2Proof.Machine

/-- Of two interjections within one capture interval the earlier one stands; at one instant, the lower index (R69). -/
def intjMin (x : Option (Nat × Nat)) (y : Nat × Nat) : Nat × Nat :=
  match x with
  | none => y
  | some p => if y.2 < p.2 ∨ (y.2 = p.2 ∧ y.1 < p.1) then y else p

/-- A snapshot with an interjection written into it. -/
def Snapshot.annotate (p : Snapshot) (y : Nat × Nat) : Snapshot := { p with intj := some (intjMin p.intj y) }

/-- The newest published snapshot, every hold copy that shows it, and the sentence being evaluated take the annotation
(R68). -/
def State.annotate (y : Nat × Nat) (s : State) : State :=
  let newest := s.shown.map (·.sent)
  { (s.onSys fun z => if z.evaluating then { z with intjIndex := some (intjMin z.intjIndex y) } else z) with
    shown := s.shown.map (·.annotate y)
    holds := nmapv s.holds none fun _ h =>
      match h with
      | some p => some (if some p.sent = newest then p.annotate y else p)
      | none => none }

/-- One channel acts on the targets of one entry (R65): its own drivers are held, its own field encodings are safe; and it counts
the act. -/
def State.actIn (e : IntjEntry) (c : Ch) (s : State) : State :=
  let now := s.b.now
  let s1 := (s.onSog fun o => o.onStage c fun g => forL e.sout (fun k g => g.intj k now) g).onSto fun o =>
    o.onStage c fun g => forL e.sto (fun k g => g.intj k now) g
  (forL e.fields (fun x s => s.interjectField c x) s1).onFab fun f =>
    match c with
    | .a => { f with a := { f.a with acts := f.a.acts.inc } }
    | .b => { f with b := { f.b with acts := f.b.acts.inc } }

/-- One interjection acts in the channels whose trigger has fallen; each session concerned sends one extra frame. -/
def State.interject (chs : List Ch) (e : IntjEntry) (s : State) : State :=
  let idx := 4096 + e.clause
  let at_ := s.b.rulerA
  let s1 := forL chs (fun c s => s.actIn e c) s
  let s2 := forL (e.fields.map (· / 16)).dedup State.extraFrame s1
  let s3 := s2.onPwr fun p => { p with ret := { p.ret with written := true, cause := idx, causeValid := true } }
  ((s3.annotate (idx, at_)).darkAborts).record 0x0A (beBytes idx 2 ++ beBytes at_ 8)

/-- Namespace entry `x` has become 0 in the channels `chs`: every interjection it triggers acts, the entries in clause order. -/
def State.trigger (chs : List Ch) (x : Nat) (s : State) : State :=
  if s.b.running then forL (s.b.img.intjs.filter fun e => e.trigger == x) (State.interject chs) s else s

end Sys2Proof.Machine
end

