-- ==== Sys2Proof/Machine/Axes.lean ====
section
/-! DEFINITION. The axes (R159 to R179): the periodic update with adoption, cross-check, speed and monitoring functions,
stops, the axis words, the demand update and the drive command words; the AXS commands and page (R184). -/

namespace Sys2Proof

/-- The default of parameter `i` of a kind (R178, R201). -/
def parDefault (kind i : Nat) : Int :=
  if kind = 0x18 ∧ i = 1 then 100
  else if kind = 0x11 ∨ kind = 0x12 then
    (if i = 1 then 50 else if i = 4 then 2000 else if i = 6 ∧ kind = 0x11 then 1000 else 0)
  else 0

/-- Parameter `i` of an instance: as the image states it, or its default (R178). -/
def FnEntry.par (e : FnEntry) (i : Nat) : Int := Machine.nget e.p i (parDefault e.kind i)

/-- How many of P0 to P7 a kind uses; they are the first ones (R178). -/
def parCount (kind : Nat) : Nat :=
  match kind with
  | 0x10 => 1
  | 0x11 => 7
  | 0x12 => 8
  | 0x13 => 3
  | 0x14 => 4
  | 0x15 => 3
  | 0x16 => 2
  | _ => 0

/-- P0 as bits; the axis it names; the reaction, form and direction bits. -/
def FnEntry.p0 (e : FnEntry) : Nat := (e.par 0).toNat
def FnEntry.axis (e : FnEntry) : Nat := e.p0 % 16

end Sys2Proof

namespace Sys2Proof.Machine

/-! ### Axis words and instances -/

/-- The safe value of axis word `w` (R163). -/
def axSafe (w : Nat) : BitVec 20 :=
  if w = 0 ∨ w = 1 ∨ w = 2 ∨ w = 4 then 0x7FFFF else if w = 3 then 0x80000 else if w = 12 then 6 else 0

/-- An invalid axis word: it evaluates as its safe value. -/
def axSafeWord (w : Nat) : NV := { val := axSafe w, ok := false }

/-- Axis word `w` as last formed. -/
def Axis.word (x : Axis) (w : Nat) : NV := nget x.words w (axSafeWord w)

/-- The instances of one kind on an axis, in function-table order, and its instances of a range of kinds. -/
def Blocks.fnsOf (b : Blocks) (a kind : Nat) : List FnEntry := b.img.functions.filter fun e => e.kind == kind && e.axis == a
def Blocks.fnsIn (b : Blocks) (a lo hi : Nat) : List FnEntry :=
  b.img.functions.filter fun e => decide (lo ≤ e.kind) && decide (e.kind ≤ hi) && e.axis == a

/-- STO, SS1 and SS2, and the monitoring functions SOS, SLS, SLP and SDI. -/
def Blocks.stopFns (b : Blocks) (a : Nat) : List FnEntry := b.fnsIn a 0x10 0x12
def Blocks.monitors (b : Blocks) (a : Nat) : List FnEntry := b.fnsIn a 0x13 0x16

def Blocks.axFn (b : Blocks) (i : Nat) : AxFn := nget b.axs.fns i {}

def State.onAxFn (i : Nat) (f : AxFn → AxFn) (s : State) : State :=
  s.onAxs fun x => { x with fns := nupd x.fns i {} f }

/-- The zone's stop behaviour is SS1 (R302). -/
def Blocks.zoneSs1 (b : Blocks) (z : Nat) : Bool := (nget b.img.regs (pFCL + 0x144) 0).getLsbD z

/-! ### Speeds (R155, R161) -/

/-- A count difference over a time as a speed in su: counts × num / den per second, shifted right. -/
def speedOf (dc dt : Int) (num den shift : Nat) : Int :=
  fitNative (dc * num * 1000000000 / (dt * (if den = 0 then 1 else den) * 2 ^ shift))

/-- Source A's speed: the two newest accepted records (R157, R161). -/
def Blocks.speedA (b : Blocks) (a : Nat) : Option Int :=
  match b.recGood a, (b.axis a).recPrev b.tsy.epoch with
  | some r, some o =>
    some (speedOf (r.count - o.count) (r.atA - o.atA) (fld (b.axSet a 0xC) 23 0) (fld (b.axSet a 0x10) 23 0) (b.axShift a))
  | _, _ => none

/-- Source B's speed: the samples used at this update and at the last one. -/
def Blocks.speedB (b : Blocks) (a : Nat) : Option Int :=
  match (b.axis a).lastB, (b.enc a).history with
  | some (t0, c0), (t1, c1) :: _ =>
    if t0 < t1 then
      some (speedOf (c1 - c0) ((t1 : Int) - t0) (fld (b.axSet a 4) 23 0) (fld (b.axSet a 8) 23 0) (b.axShift a))
    else none
  | _, _ => none

/-! ### Adoption and the cross-check (R155, R160, R161) -/

/-- Source B's position at source A's sampling instant, without the offset. -/
def Blocks.encAt (b : Blocks) (a : Nat) (r : DriveRec) : Int :=
  let c := countAt (b.enc a).history r.atB
  b.scaleB a c.1 c.2

/-- The offset adopted at the first update with source A valid and no offset: p_b then equals p_a at the record's instant. It is
an agreed update, so it ends the failure count (R160, R161). -/
def State.adopt (a : Nat) (s : State) : State :=
  match s.b.recGood a with
  | some r =>
    if (s.b.enc a).off.isNone && s.b.encGood a && (s.b.posA a).isSome && !(s.b.axis a).missA then
      (s.onEnc a fun e => { e with off := some (s.b.scaleA a r.count 1 - s.b.encAt a r) }).onAxis a fun x =>
        { x with compared := true, same := true, agreed := true, runs := 0, fails := 0, refd := false, xdiff := 0, lastB := none }
    else s
  | none => s

/-- Source 345 once for a record that came while its session was not valid and is invalid when the session is (R156). -/
def State.checkRecord (a : Nat) (s : State) : State :=
  let x := s.b.axis a
  match x.recNew with
  | some r =>
    if !r.valid && !x.badRaised && (s.b.consOf (fld (s.b.axSet a 0x20) 30 24)).valid then
      (s.onAxis a fun x => { x with badRaised := true }).axFail a 345 0
    else s
  | none => s

/-- Both sources as the exchange delivered them for this update. -/
def State.takeSources (a : Nat) (s : State) : State :=
  let x := s.b.axis a
  let pa := if x.missA then none else s.b.posA a
  let pb := if x.missB then none else s.b.posB a
  let va := if x.missA then none else s.b.speedA a
  let vb := if x.missB then none else s.b.speedB a
  let newest := (s.b.enc a).history.head?
  s.onAxis a fun x =>
    { x with pa := pa, pb := pb, va := if pa.isSome then va else none, vb := if pb.isSome then vb else none
             lastB := if pb.isSome then newest else none, missA := false, missB := false }

/-- cc_count: 2 where the image states none. -/
def Blocks.ccCount (b : Blocks) (a : Nat) : Nat := if b.axCc a = 0 then 2 else b.axCc a

/-- The newest record compared: position at its instant, and the speeds once they are known (R161). DESIGN CHOICE (log 62): one
peak serves AXS_XDIFF_PEAK over all axes. -/
def State.compare (a : Nat) (r : DriveRec) (off : Int) (s : State) : State :=
  let x := s.b.axis a
  let d := s.b.scaleA a r.count 1 - (off + s.b.encAt a r)
  let posFail := decide (d.natAbs > fld (s.b.axSet a 0x18) 15 0)
  let known := x.known || (!posFail && decide (x.runs ≥ 1))
  let spdFail := match x.va, x.vb with
    | some v, some w => known && decide ((v - w).natAbs > fld (s.b.axSet a 0x1C) 18 0)
    | _, _ => false
  let fails := if posFail || spdFail then min (x.fails + 1) 15 else 0
  let src := if posFail then 336 else 337
  let due := (posFail || spdFail) && decide (fails ≥ s.b.ccCount a) && !x.failed.contains src
  let s1 := (s.onAxis a fun x =>
      { x with compared := true, same := !posFail, xdiff := d, agreed := !posFail, fails := fails
               cnt := if posFail || spdFail then x.cnt.inc else x.cnt
               failed := if due then src :: x.failed else x.failed }).onAxs
    fun y => { y with xdiffPeak := max y.xdiffPeak d.natAbs }
  if due then s1.raise src (axWord a 0) (some (s.b.axZone a)) else s1

/-- The comparison of an update: a new record's, or the previous result again. -/
def State.crossCheck (a : Nat) (s : State) : State :=
  let x := s.b.axis a
  match x.pa, x.pb, s.b.recGood a, (s.b.enc a).off with
  | some _, some _, some r, some off => if x.compared then s.onAxis a fun x => { x with agreed := x.same } else s.compare a r off
  | _, _, _, _ => s.onAxis a fun x => { x with agreed := false }

/-- Agreed updates in a row, and whether speed is known (R161); the reference is lost with source B (R162). -/
def State.followSpeed (a : Nat) (s : State) : State :=
  s.onAxis a fun x =>
    let both := x.pa.isSome && x.pb.isSome
    let runs := if both && x.agreed then min (x.runs + 1) 2 else 0
    { x with
      runs := runs
      known := both && x.va.isSome && x.vb.isSome && (x.known || decide (runs ≥ 2))
      refd := x.refd && x.pb.isSome }

/-! ### What the functions read -/

/-- speed_mag, pos_lo and pos_hi as numbers; `unwrapped` gives the position before modulo reduction. -/
structure AxSeen where
  vm : Int
  lo : Int
  hi : Int
  ulo : Int
  uhi : Int
  known : Bool
  refd : Bool
deriving DecidableEq, Repr

/-- The axis's words can be formed at all: no cross-check failure stands (R160). -/
def Axis.usable (x : Axis) : Bool := !x.failed.contains 336

/-- A position reduced on a modulo axis. -/
def Blocks.reduced (b : Blocks) (a : Nat) (p : Int) : Int :=
  if b.axModulo a && decide (fld (b.axSet a 0x2C) 18 0 > 0) then p % (fld (b.axSet a 0x2C) 18 0 : Nat) else p

/-- What an update's functions see; an invalid word is its safe value (R27). -/
def Blocks.seen (b : Blocks) (a : Nat) : AxSeen :=
  let x := b.axis a
  let vm := match x.va, x.vb with
    | some v, some w => if x.known && x.usable then max (v.natAbs : Int) w.natAbs else 524287
    | _, _ => 524287
  match x.pa, x.pb with
  | some p, some q =>
    if x.usable then
      { vm := vm, lo := b.reduced a (min p q), hi := b.reduced a (max p q), ulo := min p q, uhi := max p q
        known := x.known, refd := x.refd }
    else { vm := 524287, lo := 524287, hi := 524287, ulo := 524287, uhi := 524287, known := false, refd := false }
  | _, _ => { vm := vm, lo := 524287, hi := 524287, ulo := 524287, uhi := 524287, known := x.known, refd := x.refd }

/-! ### Stops (R171 to R173, R179) -/

/-- A stop of SS1 or SS2 starts at update or sentence `n` with the speed `v0`; where speed is unknown, torque goes at once
(R165). -/
def Axis.startStop (x : Axis) (e : FnEntry) (cause n : Nat) (v0 : Int) : Axis :=
  if !x.known then { x with torque := false, run := false, phase := 7, cause := cause, stopFn := none }
  else
    { x with
      run := false, cause := cause, stopFn := some e.inst, n0 := n, v0 := v0, env := v0 + e.par 3
      phase := if e.kind = 0x11 ∧ bit e.p0 4 then 3 else 1 }

/-- A ramp's envelope after `t` ns, floored. -/
def rampEnv (v0 tol aMin tdMs t : Int) : Int :=
  if t < tdMs * 1000000 then v0 + tol else (v0 * 1000000 - aMin * (t - tdMs * 1000000)) / 1000000 + tol

/-- A stop under way at periodic update `n`: the axis after it, and whether it failed. -/
def Axis.stopUpdate (x : Axis) (e : FnEntry) (v : AxSeen) (n ts : Nat) : Axis × Bool :=
  let t : Int := (sentencesSince n x.n0 * ts : Nat) - 25000
  let failed := { x with torque := false, phase := 6 }
  if x.phase = 3 then
    (if t ≥ e.par 6 * 1000000 then { x with torque := false, phase := 4 } else x, false)
  else if x.phase = 5 then
    if v.lo < x.holdLo - e.par 6 ∨ v.hi > x.holdHi + e.par 6 ∨ v.vm > e.par 7 then (failed, true) else (x, false)
  else
    let y := { x with env := rampEnv x.v0 (e.par 3) (e.par 2) (e.par 1) t, phase := if t < e.par 1 * 1000000 then 1 else 2 }
    if v.vm ≤ e.par 5 then
      (if e.kind = 0x11 then { y with torque := false, phase := 4 }
       else { y with holdLo := v.lo, holdHi := v.hi, phase := 5 }, false)
    else if v.vm > y.env ∨ t ≥ e.par 4 * 1000000 then ({ y with torque := false, phase := 6 }, true)
    else (y, false)

/-- The stop under way on axis `a`, if one is, with its instance. -/
def Blocks.stopping (b : Blocks) (a : Nat) : Option FnEntry :=
  let x := b.axis a
  match x.stopFn with
  | some i => if x.phase = 1 ∨ x.phase = 2 ∨ x.phase = 3 ∨ x.phase = 5 then b.img.functions.find? fun e => e.inst == i else none
  | none => none

/-- The stop under way at periodic update `n`. -/
def State.stopStep (a n : Nat) (s : State) : State :=
  match s.b.stopping a with
  | none => s
  | some e =>
    if (s.b.axis a).n0 = n ∧ (s.b.axis a).phase ≠ 5 then s
    else
      let r := (s.b.axis a).stopUpdate e (s.b.seen a) n s.b.tsNs
      let s1 := s.onAxis a fun _ => r.1
      if r.2 then s1.axFail a (if e.kind = 0x11 then 338 else 339) e.inst else s1

/-- The stop instances that must be acknowledged after a reaction: those of SS1 or SS2, or the STO instance. -/
def State.awaitStops (kind : Nat) (a : Nat) (s : State) : State :=
  forL (s.b.fnsOf a kind) (fun e s => s.onAxFn e.inst fun f => { f with state := if f.state = 4 then 2 else f.state }) s

/-- A stop of SS1 runs on axis `a`. -/
def Blocks.ss1Runs (b : Blocks) (a : Nat) : Bool :=
  match b.stopping a with
  | some g => g.kind == 0x11
  | none => false

/-- The axis's SS1 is demanded at an update from inside: by a violation (cause 3) or a zone Stop (cause 4). A stop of SS1
that runs goes on. -/
def State.demandSs1 (a cause n : Nat) (e : FnEntry) (s : State) : State :=
  let x := s.b.axis a
  if s.b.ss1Runs a || decide (x.phase = 4) || decide (x.phase = 6) || decide (x.phase = 7) then s
  else (s.onAxis a fun x => x.startStop e cause n (s.b.seen a).vm).awaitStops 0x11 a

/-- Zone Stop without SS1: torque goes. -/
def State.zoneSto (a : Nat) (s : State) : State :=
  s.onAxis a fun x =>
    if x.phase = 7 then { x with torque := false } else { x with torque := false, phase := 7, cause := 4, stopFn := none }

/-- Zone Stop and Halt at a periodic update (R179). -/
def State.zoneReact (a n : Nat) (s : State) : State :=
  let z := s.b.axZone a
  if s.b.haltNow then s.onAxis a fun x => { x with torque := false, run := false, phase := 7, cause := 5, stopFn := none }
  else if s.b.fcl.zoneStop.getLsbD z then
    match s.b.fnsOf a 0x11 with
    | e :: _ => if s.b.zoneSs1 z then s.demandSs1 a 4 n e else s.zoneSto a
    | [] => s.zoneSto a
  else s

/-! ### Monitoring functions (R169, R174 to R177) -/

/-- The chain-speed word an SLS instance measures, or speed_mag of its axis. -/
def Blocks.slsSpeed (b : Blocks) (e : FnEntry) (v : AxSeen) : Int × Bool :=
  if bit e.p0 6 then
    let w := nget (nget b.sep.chains (e.p0 / 256 % 4) {}).words 2 { val := 0x7FFFF, ok := false }
    (w.int, w.ok)
  else (v.vm, v.known)

/-- The speed an SLS instance allows now, in hundredths (R175). -/
def slsAllowed (e : FnEntry) (f : AxFn) (vm : Int) (known : Bool) (ts : Nat) : Int :=
  let l := match e.limit with
    | none => e.par 1
    | some _ => min (e.par 1) (if f.limit.ok then f.limit.int else 0)
  if e.par 3 = 0 then 100 * l
  else if !f.active then 100 * (if known then max l vm else l)
  else max (100 * l) (f.aPrev - e.par 3 * (ts / 10000 : Nat))

/-- One active monitoring function at an update: its state after it and whether it finds a violation. -/
def AxFn.monitor (f : AxFn) (e : FnEntry) (v : AxSeen) (vs : Int × Bool) (ts : Nat) : AxFn × Bool :=
  let g := { f with active := true }
  match e.kind with
  | 0x13 =>
    let lo := if f.active then f.lo else v.ulo
    let hi := if f.active then f.hi else v.uhi
    ({ g with lo := lo, hi := hi },
      decide (v.ulo < lo - e.par 1) || decide (v.uhi > hi + e.par 1) || decide (v.vm > e.par 2))
  | 0x14 =>
    let a := slsAllowed e f vs.1 vs.2 ts
    ({ g with aPrev := a }, decide (100 * vs.1 > a + 100 * e.par 2))
  | 0x15 => (g, decide (v.lo < e.par 1) || decide (v.hi > e.par 2) || !v.refd)
  | _ =>
    if bit e.p0 4 then
      let r := if f.active then max f.hi v.uhi else v.uhi
      ({ g with hi := r }, decide (r - v.ulo > e.par 1))
    else
      let r := if f.active then min f.lo v.ulo else v.ulo
      ({ g with lo := r }, decide (v.uhi - r > e.par 1))

/-- The source of a monitoring kind. -/
def monitorSource (kind : Nat) : Nat := 340 + (kind - 0x13)

/-- The reaction of a violation (R169, R179). Reaction STO takes the torque at once; a stop of SS1 that runs goes on. -/
def State.violationReact (a n : Nat) (e : FnEntry) (s : State) : State :=
  let sto := (s.onAxis a fun x =>
      if s.b.ss1Runs a then { x with torque := false } else { x with torque := false, phase := 6, cause := 3, stopFn := none }).awaitStops
    (if (s.b.fnsOf a 0x10).isEmpty then 0x11 else 0x10) a
  if bit e.p0 5 then
    match s.b.fnsOf a 0x11 with
    | g :: _ => s.demandSs1 a 3 n g
    | [] => sto
  else sto

/-- Lock-out left: its source cleared, release′ 1 and, with an ack input, acknowledged since (R169). -/
def AxFn.unlocked (f : AxFn) (e : FnEntry) : Bool :=
  f.cleared && f.release && (e.ack.isNone || f.acked)

/-- One monitoring function at periodic update `n`. -/
def State.monitorStep (a n : Nat) (e : FnEntry) (s : State) : State :=
  let f := s.b.axFn e.inst
  let v := s.b.seen a
  if f.state = 5 then s
  else if f.state = 1 ∧ !v.known then s
  else if f.release then s.onAxFn e.inst fun f => { f with state := 4, active := false }
  else
    let r := f.monitor e v (s.b.slsSpeed e v) s.b.tsNs
    if r.2 then
      ((s.onAxFn e.inst fun _ => { r.1 with state := 5, active := false, cleared := false, acked := false }).axFail a
        (monitorSource e.kind) e.inst).violationReact a n e
    else s.onAxFn e.inst fun _ => { r.1 with state := 2 }

/-! ### Axis words (R163) -/

/-- The output of a stop or monitoring instance. -/
def Blocks.axFnOut (b : Blocks) (e : FnEntry) : Bool :=
  let f := b.axFn e.inst
  if e.kind ≤ 0x12 then f.state == 4 else f.state == 4 || f.state == 2

/-- The output of the `i`-th instance of a kind; 1 where there is none. -/
def Blocks.okWord (b : Blocks) (a kind i : Nat) : NV :=
  match (b.fnsOf a kind)[i]? with
  | some e => .ofBool (b.axFnOut e)
  | none => .ofBool true

/-- Word 20: the lowest allowed speed of the active SLS instances. -/
def Blocks.slsWord (b : Blocks) (a : Nat) : NV :=
  let act := (b.fnsOf a 0x14).filter fun e => (b.axFn e.inst).active
  .num (act.foldl (fun m e => min m ((b.axFn e.inst).aPrev / 100)) 524287) true

/-- The axis's torque and run permits as its words and its drive command word show them: held 0 while running dry and in
Halt (R179). -/
def Blocks.torqueNow (b : Blocks) (a : Nat) : Bool := (b.axis a).torque && !b.cfg.dry && !b.haltNow
def Blocks.runPermit (b : Blocks) (a : Nat) : Bool := (b.axis a).run && !b.cfg.dry && !b.haltNow

/-- motion_permit: words 5, 6, 8 and 9 and every monitoring function. -/
def Blocks.motion (b : Blocks) (a : Nat) : Bool :=
  (b.axis a).agreed && (b.axis a).known && b.torqueNow a && b.runPermit a && (b.monitors a).all b.axFnOut

/-- The position and speed words 0 to 4. -/
def Blocks.measuredWord (b : Blocks) (a w : Nat) : NV :=
  let x := b.axis a
  if w ≤ 1 then
    match x.pa, x.pb with
    | some _, some _ => .num (if w = 0 then (b.seen a).lo else (b.seen a).hi) true
    | _, _ => axSafeWord w
  else
    match x.va, x.vb with
    | some p, some q =>
      if x.known then .num (if w = 2 then (b.seen a).vm else if w = 3 then min p q else max p q) true else axSafeWord w
    | _, _ => axSafeWord w

/-- Axis word `w` formed from the axis. -/
def Blocks.formWord (b : Blocks) (a w : Nat) : NV :=
  let x := b.axis a
  if !b.axEn a || !x.usable then axSafeWord w
  else
    match w with
    | 5 => .ofBool x.agreed
    | 6 => .ofBool x.known
    | 7 => .ofBool x.refd
    | 8 => .ofBool (b.torqueNow a)
    | 9 => .ofBool (b.runPermit a)
    | 10 => .ofBool (b.motion a)
    | 11 => b.okWord a 0x10 0
    | 12 => .num x.phase true
    | 13 => b.okWord a 0x13 0
    | 18 => b.okWord a 0x15 0
    | 19 => b.okWord a 0x16 0
    | 20 => b.slsWord a
    | 21 => .num (if (b.stopping a).isSome ∧ x.phase ≤ 2 then x.env else 0) true
    | w =>
      if w ≤ 4 then b.measuredWord a w
      else if 14 ≤ w ∧ w ≤ 17 then b.okWord a 0x14 (w - 14)
      else axSafeWord w

/-- All words of an axis, formed anew from word `lo` on. -/
def Blocks.formWords (b : Blocks) (a lo : Nat) : NMap NV :=
  forL ((List.range 22).filter fun w => decide (lo ≤ w)) (fun w m => nset m w (b.formWord a w) (axSafeWord w)) (b.axis a).words

/-- The words of axis `a` from `lo` on take their new values; those that fall from 1 trigger their interjections (R65). -/
def State.publishWords (a lo : Nat) (s : State) : State :=
  let before := s.b.axis a
  let s1 := s.onAxis a fun x => { x with words := s.b.formWords a lo }
  forL ((List.range 22).filter fun w => (before.word w).one && !((s1.b.axis a).word w).one)
    (fun w s => s.trigger [.a, .b] (128 + 32 * a + w)) s1

/-- In a stopped zone with SS1 behaviour, the STO lichen of an axis without torque is held (R302). -/
def State.holdSto (a : Nat) (s : State) : State :=
  let z := s.b.axZone a
  if s.b.fcl.zoneStop.getLsbD z && s.b.zoneSs1 z && !(s.b.axis a).torque && decide (s.b.axSto a < 16) then
    s.onSto fun o => { o with faultHold := setb o.faultHold (s.b.axSto a) true }
  else s

/-! ### The periodic update (R159) -/

/-- Functions leave their start state once speed is known (R165). -/
def State.wakeFns (a : Nat) (s : State) : State :=
  if (s.b.axis a).known then
    forL (s.b.stopFns a) (fun e s => s.onAxFn e.inst fun f => if f.state = 1 then { f with state := 3 } else f) s
  else s

/-- Sources, adoption, cross-check and speed of axis `a`. -/
def State.axisMeasure (a : Nat) (s : State) : State :=
  ((((s.checkRecord a).adopt a).takeSources a).crossCheck a).followSpeed a

/-- The periodic update `n` of axis `a`. -/
def State.axisUpdate (n a : Nat) (s : State) : State :=
  let s1 := (((s.axisMeasure a).zoneReact a n).stopStep a n).wakeFns a
  let s2 := forL (s1.b.monitors a) (fun e s => s.monitorStep a n e) s1
  (s2.publishWords a 0).holdSto a

/-- The periodic update of every enabled axis. -/
def State.periodicUpdate (s : State) : State :=
  if s.b.running && !s.b.resetting .axs then
    forL s.b.axesOn (State.axisUpdate s.b.sys.nextNumber) s
  else s

def execPeriodicUpdate (t : Nat) (s : State) : Host.Outcome State Fault Refusal := .next (s.tick t).periodicUpdate

/-- A source value of axis `a` was not delivered for the update under way: it counts as invalid there, and source 346. -/
def State.axisMissed (ch : Ch) (a : Nat) (s : State) : State :=
  if s.b.running && s.b.axEn a && !s.b.resetting .axs then
    (s.onAxis a fun x => match ch with
      | .a => { x with missA := true }
      | .b => { x with missB := true }).axFail a 346 0
  else s

def execAxisExchangeMissed (t : Nat) (ch : Ch) (a : Fin 16) (s : State) : Host.Outcome State Fault Refusal :=
  .next ((s.tick t).axisMissed ch a.val)

/-! ### The demand update (R159, R171 to R173, R179) -/

/-- The inputs of an instance at the demand update. -/
structure AxIn where
  release : Bool
  ack : Bool
  limit : NV
deriving DecidableEq, Repr

/-- The inputs an instance reads from the sentence's sink values. -/
def axInputs (e : FnEntry) (nv : Nat → NV) : AxIn :=
  { release := match e.release with
      | some i => (nv i).one
      | none => true
    ack := match e.ack with
      | some i => (nv i).one
      | none => false
    limit := match e.limit with
      | some i => nv i
      | none => {} }

/-- No AXS or MEA source of the axis is latched (R172). -/
def Blocks.axisClear (b : Blocks) (a : Nat) : Bool := (b.axis a).failed.isEmpty && (b.enc a).failedBy.isEmpty

/-- Whether the phase lets a stop instance take its acknowledge (R165, R171, R172). -/
def Blocks.mayReturn (b : Blocks) (a : Nat) : Bool :=
  let x := b.axis a
  match x.phase with
  | 1 => false
  | 2 => false
  | 3 => false
  | 4 => x.known && b.axisClear a
  | 5 => true
  | 6 => x.known && b.axisClear a
  | 7 => x.started || x.known
  | _ => true

/-- A stop instance's state at a demand update. -/
def AxFn.demand (f : AxFn) (i : AxIn) (may : Bool) : AxFn :=
  let g := { f with release := i.release, ack := i.ack, limit := i.limit }
  if !i.release then { g with state := if f.state = 1 then 1 else 2 }
  else if f.state = 1 ∨ f.state = 4 then g
  else if i.ack && may then { g with state := 4 }
  else { g with state := 3 }

/-- The STO instance of axis `a` at a demand update. -/
def State.stoDemand (a : Nat) (e : FnEntry) (i : AxIn) (s : State) : State :=
  let s1 := s.onAxFn e.inst fun f => f.demand i (s.b.mayReturn a)
  if i.release then s1
  else s1.onAxis a fun x =>
    { x with torque := false, phase := 7, stopFn := none, cause := if x.phase = 7 then x.cause else 0 }

/-- An SS1 or SS2 instance of axis `a` at the demand update of sentence `n`. It starts a stop where release′ has fallen and
the phase allows: SS1 from idle and from SS2's hold, SS2 from idle. -/
def State.ssDemand (a n : Nat) (v0 : Int) (e : FnEntry) (i : AxIn) (s : State) : State :=
  let f := s.b.axFn e.inst
  let x := s.b.axis a
  let s1 := s.onAxFn e.inst fun f => f.demand i (s.b.mayReturn a)
  let free := decide (x.phase = 0) || (decide (x.phase = 5) && e.kind == 0x11)
  if !i.release && free && decide (f.state ≠ 1) then s1.onAxis a fun x => x.startStop e (e.kind - 0x10) n v0 else s1

/-- A monitoring instance takes its inputs; in lock-out it returns when R169's conditions are met. -/
def State.monitorDemand (e : FnEntry) (i : AxIn) (s : State) : State :=
  s.onAxFn e.inst fun f =>
    let g := { f with release := i.release, ack := i.ack, limit := i.limit, acked := f.cleared && (f.acked || i.ack) }
    if f.state = 5 ∧ g.unlocked e then { g with state := 4, cleared := false, acked := false } else g

/-- The permits return once every stop instance of the axis permits, its zone is not stopped and no Halt is in force. -/
def State.returnAxis (a : Nat) (s : State) : State :=
  let x := s.b.axis a
  if decide (x.phase ≥ 4) && s.b.mayReturn a && (s.b.stopFns a).all (fun e => (s.b.axFn e.inst).state == 4) &&
      !s.b.zoneStopped (s.b.axZone a) then
    s.onAxis a fun x => { x with torque := true, run := true, phase := 0, cause := 0, stopFn := none, started := true }
  else s

/-- The demand update of axis `a` for sentence `n`; `v0` is speed_mag as captured for that sentence. -/
def State.axisDemand (n : Nat) (nv : Nat → NV) (v0 : Nat → Int) (a : Nat) (s : State) : State :=
  let s1 := forL (s.b.fnsOf a 0x10) (fun e s => s.stoDemand a e (axInputs e nv)) s
  let s2 := forL (s1.b.fnsOf a 0x11 ++ s1.b.fnsOf a 0x12) (fun e s => s.ssDemand a n (v0 a) e (axInputs e nv)) s1
  let s3 := forL (s2.b.monitors a) (fun e s => s.monitorDemand e (axInputs e nv)) s2
  (s3.returnAxis a).publishWords a 8

/-- The drive command word of axis `a` (R158): cause 5 in Halt (R303), 4 while running dry (R428). -/
def Blocks.driveWord (b : Blocks) (a : Nat) : Nat :=
  pl (if b.haltNow then 5 else if b.cfg.dry then 4 else (b.axis a).cause) 4 3 +
    pl (b2n ((b.formWord a 8).one)) 1 1 + b2n ((b.formWord a 9).one)

/-- The drive command words enter their producer payloads (R158). -/
def State.driveWords (s : State) : State :=
  forL s.b.axesOn (fun a s =>
    let w := s.b.axSet a 0x20
    match s.b.prodCfg (fld w 14 8) with
    | some c =>
      let put := fun (x : ProdSide) =>
        { x with payload := putBytes (fitBytes x.payload (4 * c.len)) (4 * fld w 5 0) (beBytes (s.b.driveWord a) 2) }
      s.onProd (fld w 14 8) fun p => { p with a := put p.a, b := put p.b }
    | none => s) s

/-- speed_mag of an axis as a capture froze it. -/
def State.capturedSpeed (s : State) (a : Nat) : Int :=
  match s.cap with
  | some c => ((c.axis a).word 2).int
  | none => 524287

/-- The demand update of sentence `n`, as it takes effect at the commit. -/
def State.demandUpdate (n : Nat) (nv : Nat → NV) (s : State) : State :=
  (if s.b.resetting .axs then s else forL s.b.axesOn (State.axisDemand n nv s.capturedSpeed) s).driveWords

/-! ### Clears, first use, AXS_CTR_CLEAR -/

/-- A clear of one of sources 336 to 346 (R160, R169, R172). -/
def State.clearedAxs (i : Nat) (s : State) : State :=
  s.onAxs fun y =>
    { y with
      axes := nmapv y.axes {} fun _ x =>
        { x with failed := x.failed.filter (· != i), fails := if i = 336 ∨ i = 337 then 0 else x.fails }
      fns := nmapv y.fns {} fun k f =>
        if f.state = 5 ∧ (s.b.img.functions.any fun e => e.inst == k && decide (e.kind ≤ 0x16) && monitorSource e.kind == i) then
          { f with cleared := true }
        else f }

/-- Every axis begins in its first-use state (R165): an MEA block reset keeps the drive records, an AXS block reset wipes them too;
what is failed until a clear, and the statistics, stay. -/
def Axs.begin (keep : Bool) (y : Axs) : Axs :=
  { y with
    axes := nmapv y.axes {} fun _ x =>
      if keep then { recNew := x.recNew, recOld := x.recOld, badRaised := x.badRaised, failed := x.failed, cnt := x.cnt }
      else { failed := x.failed, cnt := x.cnt }
    fns := [] }

/-- The axes begin anew; a torque permit that was 1 falls and triggers its interjections (R65). -/
def State.axesBegin (keep : Bool) (s : State) : State :=
  forL (s.b.axesOn.filter fun a => ((s.b.axis a).word 8).one) (fun a s => s.trigger [.a, .b] (128 + 32 * a + 8)) (s.onAxs (Axs.begin keep))

def State.axsCtrClear (w : Word) (s : State) : State × Nat :=
  (if w.getLsbD 0 then
    s.onAxs fun y => { y with xdiffPeak := 0, axes := nmapv y.axes {} fun _ x => { x with cnt := {} } }
   else s, rDone)

def execAxsCtrClear (t : Nat) (rd : Reader) (w : Word) (s : State) : Host.Outcome State Fault Refusal :=
  .next ((s.tick t).wt rd pAXS (wTok w) (State.axsCtrClear w))

/-! ### The AXS page (R184) -/

/-- One bit an axis of the word `w` of every axis. -/
def Blocks.axisBits (b : Blocks) (w : Nat) : Word := wordOf (bits16 fun a => ((b.axis a).word w).one) 0

/-- AXS_STATEa. -/
def Blocks.axisState (b : Blocks) (a : Nat) : Word :=
  let x := b.axis a
  let w := fun i => b2n ((x.word i).one)
  if !b.axEn a then 0
  else
    mkw (pl x.phase 28 4 + pl (w 5) 27 1 + pl (w 6) 26 1 + pl (w 7) 25 1 + pl (w 8) 24 1 + pl (w 9) 23 1 +
      pl (b2n (b.posA a).isSome) 22 1 + pl (b2n (b.validB a)) 21 1 + pl (b2n (b.enc a).off.isSome) 20 1 + pl x.fails 16 4)

/-- A source value as a native word; 0 where the source has none. -/
def srcWord (x : Option Int) : Word := natW (toNative (x.getD 0))

/-- The AXS page from 0x100. -/
def readAxs (v : RView) (off : Nat) : Word :=
  let a := fld (v.live.own v.rd (pAXS + 0x118)) 3 0
  match off with
  | 0x100 => v.rosCap fun b =>
      mkw (pl (b2n (b.axesOn.any fun a => decide (1 ≤ (b.axis a).phase))) 2 1 +
        pl (b2n (b.axesOn.any fun a => decide (0 < (b.axis a).fails))) 1 1 + b2n (b.running && !b.resetting .axs))
  | 0x104 => v.rosCap fun b => b.axisBits 5
  | 0x108 => v.rosCap fun b => b.axisBits 6
  | 0x10C => v.rosCap fun b => b.axisBits 7
  | 0x110 => v.rosCap fun b => b.axisBits 8
  | 0x114 => v.rosCap fun b => b.axisBits 9
  | 0x118 => v.live.own v.rd (pAXS + 0x118)
  | 0x11C => v.rosCap fun b => srcWord (if v.bView then (b.axis a).pb else (b.axis a).pa)
  | 0x120 => v.rosCap fun b => srcWord (if v.bView then (b.axis a).vb else (b.axis a).va)
  | 0x124 => v.rosCap fun b => natW (toNative (b.axis a).xdiff)
  | 0x128 => mkw v.live.axs.xdiffPeak
  | 0x130 => v.live.own v.rd (pAXS + 0x130)
  | _ =>
    if 0x134 ≤ off ∧ off ≤ 0x150 then
      match v.live.img.functions.find? fun e => e.inst == fld (v.live.own v.rd (pAXS + 0x130)) 8 0 with
      | some e => if (off - 0x134) / 4 < parCount e.kind then intW (e.par ((off - 0x134) / 4)) else 0
      | none => 0
    else if 0x800 ≤ off ∧ off < 0xC00 then
      let k := (off - 0x800) / 64
      match off % 64 with
      | 0x30 => v.rosCap fun b => b.axisState k
      | 0x34 => (v.live.axis k).cnt.word
      | _ => if off % 64 < 0x30 then v.live.rwsRead (pAXS + off) else 0
    else 0

end Sys2Proof.Machine
end

