-- ==== Sys2Proof/Machine/Kinematics.lean ====
section
/-! DEFINITION. The numbers of the separation engine (R191 to R200): the two channels' forward kinematics, the segment
distances, the field, and the permitted speed. -/

namespace Sys2Proof.Machine

/-- A point or vector. -/
abbrev Vec := Int × Int × Int

def Vec.add (a b : Vec) : Vec := (a.1 + b.1, a.2.1 + b.2.1, a.2.2 + b.2.2)
def Vec.sub (a b : Vec) : Vec := (a.1 - b.1, a.2.1 - b.2.1, a.2.2 - b.2.2)
def Vec.dot (a b : Vec) : Int := a.1 * b.1 + a.2.1 * b.2.1 + a.2.2 * b.2.2
def Vec.scale (a : Vec) (k : Int) : Vec := (a.1 * k, a.2.1 * k, a.2.2 * k)
def Vec.map (f : Int → Int) (a : Vec) : Vec := (f a.1, f a.2.1, f a.2.2)

/-- The square of a distance. -/
def distSq (a b : Vec) : Nat := (Vec.dot (Vec.sub a b) (Vec.sub a b)).toNat

/-- num / den rounded to nearest; which way a tie goes is the unit's. -/
def nearestDiv (num den : Int) : Int :=
  let q := num / den
  let r := 2 * (num % den)
  if r < den then q else if r > den then q + 1 else if Config.tieUp (2 * q + 1) then q + 1 else q

/-- The joint variable of R193, in microradians or micrometres. -/
def jointVar (j : Joint) (p : Int) : Int := j.qOff + p * j.qNum / (if j.qDen = 0 then 1 else j.qDen)

/-! ### Channel A: 4 × 4 matrices in 32-bit fixed point (R193) -/

/-- A frame: rows of the rotation in units of 2^-30, translation in micrometres. -/
structure FrameA where
  r0 : Vec := (1073741824, 0, 0)
  r1 : Vec := (0, 1073741824, 0)
  r2 : Vec := (0, 0, 1073741824)
  t : Vec := (0, 0, 0)
deriving DecidableEq, Repr

/-- A product of two 2^-30 numbers, or of one and micrometres, summed and rounded. -/
def rnd30 (x : Int) : Int := nearestDiv x 1073741824

def FrameA.col (f : FrameA) : Nat → Vec
  | 0 => (f.r0.1, f.r1.1, f.r2.1)
  | 1 => (f.r0.2.1, f.r1.2.1, f.r2.2.1)
  | _ => (f.r0.2.2, f.r1.2.2, f.r2.2.2)

/-- A point of the frame, in micrometres, in the outer frame. -/
def FrameA.point (f : FrameA) (p : Vec) : Vec :=
  Vec.add (rnd30 (Vec.dot f.r0 p), rnd30 (Vec.dot f.r1 p), rnd30 (Vec.dot f.r2 p)) f.t

/-- The product of two frames. -/
def FrameA.mul (f g : FrameA) : FrameA :=
  let row := fun r => (rnd30 (Vec.dot r (g.col 0)), rnd30 (Vec.dot r (g.col 1)), rnd30 (Vec.dot r (g.col 2)))
  { r0 := row f.r0, r1 := row f.r1, r2 := row f.r2, t := f.point g.t }

/-- The rotation matrix of a unit quaternion (w, x, y, z) in units of 2^-30. -/
def FrameA.ofQuat (q : Int × Int × Int × Int) (t : Vec) : FrameA :=
  let w := q.1
  let x := q.2.1
  let y := q.2.2.1
  let z := q.2.2.2
  let one : Int := 1073741824
  { r0 := (one - rnd30 (2 * (y * y + z * z)), rnd30 (2 * (x * y - w * z)), rnd30 (2 * (x * z + w * y)))
    r1 := (rnd30 (2 * (x * y + w * z)), one - rnd30 (2 * (x * x + z * z)), rnd30 (2 * (y * z - w * x)))
    r2 := (rnd30 (2 * (x * z - w * y)), rnd30 (2 * (y * z + w * x)), one - rnd30 (2 * (x * x + y * y)))
    t := t }

/-- A joint's own motion. -/
def FrameA.motion (j : Joint) (q : Int) : FrameA :=
  if j.prismatic then { t := (0, 0, q) }
  else
    let cs := Config.cordic q
    { r0 := (cs.1.toInt, -cs.2.toInt, 0), r1 := (cs.2.toInt, cs.1.toInt, 0) }

/-- The link frames of a chain, link 0 first. -/
def linksA : FrameA → List (Joint × Int) → List FrameA
  | f, [] => [f]
  | f, (j, p) :: r => f :: linksA ((f.mul (.ofQuat j.quat j.trans)).mul (.motion j (jointVar j p))) r

/-! ### Channel B: unit dual quaternions in binary32 (R193). A value is an integer times 2^-149 -/

/-- n / 2^s rounded to the nearest binary32 value, ties to even. -/
def roundB (n : Int) (s : Nat) : Int :=
  let m := n.natAbs
  let drop := max s (Nat.log2 m + 1 - 24)
  let q := m / 2 ^ drop
  let r := m % 2 ^ drop
  let up := decide (2 * r > 2 ^ drop) || (decide (2 * r = 2 ^ drop) && decide (q % 2 = 1))
  let v : Int := ((if up then q + 1 else q) * 2 ^ (drop - s) : Nat)
  if n < 0 then -v else v

def addB (x y : Int) : Int := roundB (x + y) 0
def mulB (x y : Int) : Int := roundB (x * y) 149

/-- num / den as a binary32 value. -/
def ratB (num : Int) (den : Nat) : Int := roundB (num * 2 ^ 349 / den) 200

/-- A quaternion (w, x, y, z). -/
abbrev Quat := Int × Int × Int × Int

def Quat.add (a b : Quat) : Quat :=
  (addB a.1 b.1, addB a.2.1 b.2.1, addB a.2.2.1 b.2.2.1, addB a.2.2.2 b.2.2.2)

def Quat.conj (a : Quat) : Quat := (a.1, -a.2.1, -a.2.2.1, -a.2.2.2)

/-- Four products summed from the left. -/
def sum4 (a b c d : Int) : Int := addB (addB (addB a b) c) d

def Quat.mul (a b : Quat) : Quat :=
  let m := mulB
  (sum4 (m a.1 b.1) (-m a.2.1 b.2.1) (-m a.2.2.1 b.2.2.1) (-m a.2.2.2 b.2.2.2),
    sum4 (m a.1 b.2.1) (m a.2.1 b.1) (m a.2.2.1 b.2.2.2) (-m a.2.2.2 b.2.2.1),
    sum4 (m a.1 b.2.2.1) (-m a.2.1 b.2.2.2) (m a.2.2.1 b.1) (m a.2.2.2 b.2.1),
    sum4 (m a.1 b.2.2.2) (m a.2.1 b.2.2.1) (-m a.2.2.1 b.2.1) (m a.2.2.2 b.1))

/-- Half of a quaternion: exact but at the smallest values. -/
def Quat.half (a : Quat) : Quat := (roundB a.1 1, roundB a.2.1 1, roundB a.2.2.1 1, roundB a.2.2.2 1)

/-- A unit dual quaternion. -/
structure FrameB where
  r : Quat := (2 ^ 149, 0, 0, 0)
  d : Quat := (0, 0, 0, 0)
deriving DecidableEq, Repr

def FrameB.mul (f g : FrameB) : FrameB :=
  { r := Quat.mul f.r g.r, d := Quat.add (Quat.mul f.r g.d) (Quat.mul f.d g.r) }

/-- A rotation and a translation in mm as a dual quaternion. -/
def FrameB.ofParts (r : Quat) (t : Vec) : FrameB := { r := r, d := Quat.half (Quat.mul (0, t.1, t.2.1, t.2.2) r) }

/-- A joint's fixed transform, its motion. -/
def FrameB.fixed (j : Joint) : FrameB :=
  let q := fun x => ratB x 1073741824
  .ofParts (q j.quat.1, q j.quat.2.1, q j.quat.2.2.1, q j.quat.2.2.2) (Vec.map (ratB · 1000) j.trans)

/-! Sine and cosine of half an angle, in units of 2^-192: exact to far less than a binary32 step. -/

/-- π. -/
def piFix : Int := 19720096697726538562396133364228268891463450865190089732560

/-- The series of sine or cosine from a term `t` of degree `k` on; `x` is the angle, `n` terms are summed. -/
def trigSeries (x : Int) : Nat → Int → Nat → Int
  | 0, _, _ => 0
  | n + 1, t, k => t + trigSeries x n (-(t * x / 2 ^ 192 * x / 2 ^ 192 / ((k + 1) * (k + 2) : Nat))) (k + 2)

/-- Half of an angle in microradians, between -π and π. -/
def halfFix (q : Int) : Int := (q * 2 ^ 192 / 2000000 + piFix) % (2 * piFix) - piFix

/-- The binary32 value next to `x`: 1 the one not above it, 0 the one before that, 2 and 3 the two above. All are within two steps. -/
def nearB (x : Int) (k : Fin 4) : Int :=
  let drop := max 43 (Nat.log2 x.natAbs + 1 - 24)
  roundB ((x / 2 ^ drop + k.val - 1) * 2 ^ drop) 43

/-- A sine or cosine as channel B gives it: a binary32 value from −1 to 1 within 2 ulp of the exact one. -/
def unitValue (x : Int) (k : Fin 4) : Int := max (-(2 ^ 149)) (min (2 ^ 149) (nearB x k))

def FrameB.motion (j : Joint) (q : Int) : FrameB :=
  if j.prismatic then .ofParts (2 ^ 149, 0, 0, 0) (0, 0, ratB q 1000)
  else
    let x := halfFix q
    let k := Config.halfAngle q
    { r := (unitValue (trigSeries x 40 (2 ^ 192) 0) k.1, 0, 0, unitValue (trigSeries x 40 x 1) k.2) }

/-- A point of the frame, in mm, in the outer frame. -/
def FrameB.point (f : FrameB) (p : Vec) : Vec :=
  let v := Quat.mul (Quat.mul f.r (0, p.1, p.2.1, p.2.2)) (Quat.conj f.r)
  let t := Quat.mul f.d (Quat.conj f.r)
  let two := fun x => addB x x
  (addB v.2.1 (two t.2.1), addB v.2.2.1 (two t.2.2.1), addB v.2.2.2 (two t.2.2.2))

/-- The link frames of a chain, link 0 first. -/
def linksB : FrameB → List (Joint × Int) → List FrameB
  | f, [] => [f]
  | f, (j, p) :: r => f :: linksB ((f.mul (.fixed j)).mul (.motion j (jointVar j p))) r

/-! ### Endpoints -/

/-- 2^149: binary32 values are whole multiples of its inverse. -/
def unitB : Nat := 2 ^ 149

/-- Endpoints of a chain's capsules in channel A, two a capsule, in micrometres. -/
def endpointsA (caps : List Capsule) (ps : List (Joint × Int)) : List Vec :=
  let fs := linksA {} ps
  caps.flatMap fun c => [(fs.getD c.link {}).point (Vec.scale c.p0 100), (fs.getD c.link {}).point (Vec.scale c.p1 100)]

/-- The same in channel B, in mm times 2^149. -/
def endpointsB (caps : List Capsule) (ps : List (Joint × Int)) : List Vec :=
  let fs := linksB {} ps
  caps.flatMap fun c =>
    [(fs.getD c.link {}).point (Vec.map (ratB · 10) c.p0), (fs.getD c.link {}).point (Vec.map (ratB · 10) c.p1)]

/-- The square of the distance between the channels' copies of an endpoint, in (micrometres times 2^149) squared. -/
def copyDistSq (a b : Vec) : Nat := distSq (Vec.scale a unitB) (Vec.scale b 1000)

/-- The two endpoints of capsule number `i` of a chain. -/
def pairAt (ends : List Vec) (i : Nat) : Vec × Vec := (ends.getD (2 * i) (0, 0, 0), ends.getD (2 * i + 1) (0, 0, 0))

/-! ### Segments -/

/-- The square of the distance from a point to a segment, as a fraction. -/
def segDistSq (a b p : Vec) : Nat × Nat :=
  let d := Vec.sub b a
  let l := (Vec.dot d d).toNat
  let t := Vec.dot (Vec.sub p a) d
  if t ≤ 0 ∨ l = 0 then (distSq p a, 1)
  else if t ≥ l then (distSq p b, 1)
  else (distSq p a * l - (t * t).toNat, l)

/-- The point lies within `r` of the segment. -/
def withinSeg (a b p : Vec) (r : Nat) : Bool :=
  let q := segDistSq a b p
  decide (q.1 ≤ r * r * q.2)

/-! ### The coarse grid (R185) -/

/-- The workspace's grid: the separation section of the image. -/
abbrev Grid := SepCfg

/-- Coarse cells along each edge. -/
def Grid.cells (c : Grid) : Nat × Nat × Nat := (c.size.1 / 40, c.size.2.1 / 40, c.size.2.2 / 40)

/-- The coordinates of a cell by its number, and its number by its coordinates. -/
def Grid.cellXyz (c : Grid) (i : Nat) : Nat × Nat × Nat :=
  let n := c.cells
  (i % n.1, i / n.1 % n.2.1, i / n.1 / n.2.1)

def Grid.cellNo (c : Grid) (x y z : Nat) : Nat := x + c.cells.1 * (y + c.cells.2.1 * z)

/-- A cell's lowest corner, and its centre, in whole mm of the cell frame. -/
def Grid.corner (c : Grid) (i : Nat) : Vec :=
  let p := c.cellXyz i
  Vec.add c.origin (40 * p.1, 40 * p.2.1, 40 * p.2.2)

def Grid.centre (c : Grid) (i : Nat) : Vec := Vec.add (c.corner i) (20, 20, 20)

/-- The coarse cell that holds a point given in 1/k mm; none outside the workspace. -/
def Grid.cellOf (c : Grid) (p : Vec) (k : Nat) : Option Nat :=
  let u := Vec.sub p (Vec.scale c.origin k)
  if 0 ≤ u.1 ∧ u.1 < c.size.1 * k ∧ 0 ≤ u.2.1 ∧ u.2.1 < c.size.2.1 * k ∧ 0 ≤ u.2.2 ∧ u.2.2 < c.size.2.2 * k then
    some (c.cellNo (u.1.toNat / (40 * k)) (u.2.1.toNat / (40 * k)) (u.2.2.toNat / (40 * k)))
  else none

/-- The fine index of a point in whole mm, and the coarse cell of a fine index: each coordinate halved. -/
def Grid.fineOf (c : Grid) (p : Vec) : Option Nat :=
  let u := Vec.sub p c.origin
  if 0 ≤ u.1 ∧ u.1 < c.size.1 ∧ 0 ≤ u.2.1 ∧ u.2.1 < c.size.2.1 ∧ 0 ≤ u.2.2 ∧ u.2.2 < c.size.2.2 then
    some (u.1.toNat / 20 + 2 * c.cells.1 * (u.2.1.toNat / 20 + 2 * c.cells.2.1 * (u.2.2.toNat / 20)))
  else none

def Grid.coarseOfFine (c : Grid) (i : Nat) : Nat :=
  c.cellNo (i % (2 * c.cells.1) / 2) (i / (2 * c.cells.1) % (2 * c.cells.2.1) / 2)
    (i / (2 * c.cells.1) / (2 * c.cells.2.1) / 2)

/-- A cell lies wholly inside a box. -/
def Grid.inBox (c : Grid) (i : Nat) (x : Box) : Bool :=
  let p := c.corner i
  decide (x.lo.1 ≤ p.1) && decide (p.1 + 40 ≤ x.hi.1) && decide (x.lo.2.1 ≤ p.2.1) && decide (p.2.1 + 40 ≤ x.hi.2.1) &&
    decide (x.lo.2.2 ≤ p.2.2) && decide (p.2.2 + 40 ≤ x.hi.2.2)

/-- Steps 1 to 3 of R190: sensed or unobserved cells, without those of the exclusion boxes. -/
def Grid.compose (c : Grid) (sensed healthy : List Nat) : List Nat :=
  (List.range (c.cells.1 * c.cells.2.1 * c.cells.2.2)).filter fun i =>
    (sensed.contains i || !healthy.any fun s => (nget c.observed s []).any (c.inBox i)) && !c.exclusions.any (c.inBox i)

/-! ### Self-masking (R191) -/

/-- The eight corners of a cell. -/
def Grid.corners (c : Grid) (i : Nat) : List Vec :=
  [(0, 0, 0), (40, 0, 0), (0, 40, 0), (40, 40, 0), (0, 0, 40), (40, 0, 40), (0, 40, 40), (40, 40, 40)].map
    (Vec.add (c.corner i))

/-- Endpoints in whole mm, as the channels pass them to each other. -/
def roundA (p : Vec) : Vec := Vec.map (nearestDiv · 1000) p
def roundMmB (p : Vec) : Vec := Vec.map (nearestDiv · unitB) p

/-- A capsule of an agreed chain masks a cell: all corners within r of its axis by both channels' endpoints. -/
def Grid.maskedBy (c : Grid) (i r : Nat) (ea eb : Vec × Vec) : Bool :=
  (c.corners i).all fun p =>
    withinSeg (roundA ea.1) (roundA ea.2) p r && withinSeg (roundMmB eb.1) (roundMmB eb.2) p r

/-! ### Channel A's field and channel B's exact distance (R196, R197) -/

/-- The least squared distance between cell centres, in squares of 40 mm, from a cell to the occupied ones. -/
def Grid.nearestSq (c : Grid) (occ : List Nat) (i : Nat) : Option Nat :=
  let p := c.cellXyz i
  occ.foldl (fun m j =>
    let q := c.cellXyz j
    let n := distSq ((p.1 : Int), (p.2.1 : Int), (p.2.2 : Int)) ((q.1 : Int), (q.2.1 : Int), (q.2.2 : Int))
    match m with
    | some k => some (min k n)
    | none => some n) none

/-- A value of f lies within 12 mm of a distance of 40 mm times the square root of n. -/
def fieldOk (n k : Nat) : Bool :=
  (decide (5 * k ≤ 3) || decide ((5 * k - 3) ^ 2 ≤ 100 * n)) && decide (100 * n ≤ (5 * k + 3) ^ 2)

/-- The field at a cell: one of the values that R196 allows. -/
def Grid.fieldAt (c : Grid) (occ : List Nat) (gen i : Nat) : Nat :=
  match c.nearestSq occ i with
  | none => 255
  | some 0 => 0
  | some n =>
    let k := isqrt (4 * n)
    min 255 (if fieldOk n k && (!fieldOk n (k + 1) || !Config.fieldUp gen i) then k else k + 1)

/-- Intervals between channel A's samples along a capsule: at most 20 mm each. -/
def capsIntervals (x : Capsule) : Nat := max 1 (ceilSqrt (distSq x.p0 x.p1) 40000)

/-- m_A of a capsule in mm: the least field value over the cells of its samples. -/
def Grid.distA (c : Grid) (occ : List Nat) (gen : Nat) (x : Capsule) (e : Vec × Vec) : Nat :=
  let k := capsIntervals x
  ((List.range (k + 1)).map fun (i : Nat) =>
    match c.cellOf (Vec.add (Vec.scale e.1 ((k : Int) - i)) (Vec.scale e.2 i)) (1000 * k) with
    | some cell => 20 * c.fieldAt occ gen cell
    | none => 0).foldl min 5100

/-- A distance in 64ths of a millimetre, computed in binary32 and rounded down to whole millimetres: exact but within 1/64 mm of a
whole one, where the computed value may lie on the other side (log 66). -/
def floorB (d : Nat) : Nat :=
  if d % 64 = 63 ∧ Config.distOther d then d / 64 + 1
  else if d % 64 = 0 ∧ Config.distOther d then d / 64 - 1
  else d / 64

/-- m_B of a capsule in whole mm: the exact least distance from its axis to a representative point, computed in binary32 and rounded
down. -/
def Grid.distB (c : Grid) (occ : List Nat) (e : Vec × Vec) : Nat :=
  (occ.map fun i =>
    let q := segDistSq e.1 e.2 (Vec.scale (c.centre i) unitB)
    floorB (isqrt (q.1 * 4096 / q.2) / unitB)).foldl min 5100

/-- The distance of a capsule (R198). -/
def capsuleDist (m radius : Nat) : Nat := min m 5100 - radius - 94

/-! ### Permitted speed (R200) -/

/-- The terms of one chain. -/
structure SepTerms where
  vh : Nat
  tr : Nat
  ts : Nat
  as_ : Nat
  czz : Nat
  vmax : Nat
deriving DecidableEq, Repr

/-- K times 10,000 mm. -/
def SepTerms.k (x : SepTerms) : Nat := x.vh * (x.tr + 10 * x.ts) + x.czz * 10000

/-- s_p(v) ≤ d, in whole numbers. -/
def SepTerms.fits (x : SepTerms) (d v : Nat) : Bool :=
  decide ((x.k + v * x.tr) * 2 * x.as_ + v * v * 10000 ≤ d * 20000 * x.as_)

/-- The largest whole v with s_p(v) ≤ d, at most v_max; 0 when d ≤ K. R200 gives it exactly in both channels, so that their results
are equal; a difference of a channel that fails comes as a finding (log 63). -/
def SepTerms.permitted (x : SepTerms) (d : Nat) : Nat :=
  if d * 10000 ≤ x.k then 0 else min x.vmax (largestGo (x.fits d) 14 0)

/-! ### The work bound (R202) -/

/-- Twice W_sep, in ns. -/
def Grid.workTwice (c : Grid) : Nat :=
  let n := (c.capsules.map fun x => capsIntervals x + 1).sum
  24000 + max (n * 50) ((c.capsules.length * c.nRepMax + 127) / 128 * 25)

end Sys2Proof.Machine
end

