-- ==== Sys2Proof/Machine/Separation.lean ====
section
/-! DEFINITION. The separation engine (R185 to R206): sensor health, rebuilds, separation updates with their comparison and
words, the kind 0x18 instances, and the SEP and KIN commands and pages (R209, R210). -/

namespace Sys2Proof.Machine

/-! ### Settings -/

def Blocks.snsSet (b : Blocks) (s : Nat) : Word := b.set (pSEP + 0xA00 + 16 * s)
def Blocks.sepSet (b : Blocks) (c off : Nat) : Word := b.set (pSEP + 0x800 + 64 * c + off)

/-- The separation section, where the image has one. -/
def Blocks.grid (b : Blocks) : Option Grid := b.img.sep

def Blocks.snsEn (b : Blocks) (s : Nat) : Bool := b.grid.isSome && (b.snsSet s).getLsbD 31
def Blocks.sensor (b : Blocks) (s : Nat) : Sensor := nget b.sep.sensors s {}
def Blocks.sensorsOn (b : Blocks) : List Nat := (List.range 8).filter b.snsEn

def State.onSensor (k : Nat) (f : Sensor → Sensor) (s : State) : State :=
  s.onSep fun p => { p with sensors := nupd p.sensors k {} f }

/-- Chain `c` is evaluated; its state, its zone, its kind 0x18 instance. -/
def Blocks.chainEn (b : Blocks) (c : Nat) : Bool := b.grid.isSome && (b.sepSet c 0).getLsbD 31
def Blocks.chain (b : Blocks) (c : Nat) : ChainSt := nget b.sep.chains c {}
def Blocks.chainZone (b : Blocks) (c : Nat) : Nat := fld (b.sepSet c 0) 30 26
def Blocks.chainsOn (b : Blocks) : List Nat := (List.range 4).filter b.chainEn
def Blocks.sepFn (b : Blocks) (c : Nat) : Option FnEntry := b.img.functions.find? fun e => e.kind == 0x18 && e.p0 % 4 == c

def State.onChain (c : Nat) (f : ChainSt → ChainSt) (s : State) : State :=
  s.onSep fun p => { p with chains := nupd p.chains c {} f }

/-- The engine works: a running image with a separation section, no SEP or KIN block reset. -/
def Blocks.sepOn (b : Blocks) : Bool := b.running && b.grid.isSome && !b.resetting .sep && !b.resetting .kin

/-- The chain that a record names which concerns no chain more than another: the first enabled one (DESIGN CHOICE, log 62). -/
def Blocks.firstChain (b : Blocks) : Word := mkw (b.chainsOn.headD 0)

/-! ### Sensors (R188) -/

/-- t_sns_max in ns: 50 ms where nothing is set. -/
def Blocks.snsMax (b : Blocks) (s : Nat) : Nat :=
  if fld (b.snsSet s) 7 0 = 0 then 50000000 else fld (b.snsSet s) 7 0 * 1000000

/-- Sensor `s` is healthy. -/
def Blocks.sensorHealthy (b : Blocks) (s : Nat) : Bool :=
  let x := b.sensor s
  b.snsEn s && (b.consOf (fld (b.snsSet s) 30 24)).valid && x.selfOk &&
    (match x.accepted with
     | some t0 => decide (b.rulerA - t0 ≤ b.snsMax s)
     | none => false)

/-- The sensors that are enabled and not healthy. -/
def Blocks.sensorsBad (b : Blocks) : List Nat := b.sensorsOn.filter fun s => !b.sensorHealthy s

/-- Source 354 follows; its record names the first sensor that is not healthy. -/
def State.sensorHealth (s : State) : State :=
  if s.b.sepOn then s.cond 354 (!s.b.sensorsBad.isEmpty) (mkw (s.b.sensorsBad.headD 0)) else s

/-- SENSOR_STALE: t_sns_max has passed since the newest acceptance. -/
def execSensorStale (t : Nat) (_s : Fin 8) (s : State) : Host.Outcome State Fault Refusal := .next (s.tick t).sensorHealth

/-- A sensor takes an accepted frame: its receive stores become the current ones (R187). -/
def State.acceptSensor (k n : Nat) (selfOk contam : Bool) (s : State) : State :=
  ((s.onSensor k fun x =>
      { x with curA := x.recvA, curB := x.recvB, recvA := x.curA, recvB := x.curB, selfOk := selfOk, contam := contam
               points := n, accepted := some s.b.rulerA }).onSep fun p => { p with fresh := true }).sensorHealth

/-! ### Rebuilds (R189, R190) -/

/-- The cells of the current stores of some sensors, in each channel's own way. -/
def Blocks.sensedA (b : Blocks) (l : List Nat) : List Nat := l.flatMap fun s => (b.sensor s).curA
def Blocks.sensedB (b : Blocks) (c : Grid) (l : List Nat) : List Nat := l.flatMap fun s => (b.sensor s).curB.map c.coarseOfFine

/-- The newest acceptance instant among some sensors. -/
def Blocks.newestOf (b : Blocks) (l : List Nat) : Option Nat :=
  l.foldl (fun m s =>
    match m, (b.sensor s).accepted with
    | some x, some y => some (max x y)
    | none, y => y
    | x, none => x) none

/-- Rebuild g begins: both channels done with g − 1, and a frame accepted since that began. -/
def State.rebuildStart (s : State) : State :=
  match s.b.grid with
  | none => s
  | some c =>
    if s.b.sepOn && s.b.sep.builtA && s.b.sep.builtB && s.b.sep.fresh then
      let l := s.b.sensorsOn.filter s.b.sensorHealthy
      s.onSep fun p =>
        { p with
          gen := p.gen + 1
          building := some
            { gen := p.gen + 1, sensors := l, cellsA := c.compose (s.b.sensedA l) l, cellsB := c.compose (s.b.sensedB c l) l
              newest := s.b.newestOf l }
          buildStart := s.b.now, builtA := false, builtB := false, fresh := false }
    else s

def execRebuildStart (t : Nat) (s : State) : Host.Outcome State Fault Refusal := .next (s.tick t).rebuildStart

/-- A basis complete in both channels is the newest one. -/
def Sep.settle (p : Sep) : Sep :=
  if p.builtA && p.builtB && p.building.isSome then { p with inUse := p.building, building := none } else p

/-- A channel completes the rebuild under way. -/
def State.rebuildComplete (ch : Ch) (s : State) : State :=
  if s.b.sepOn && s.b.sep.building.isSome then
    s.onSep fun p =>
      let us := (s.b.now - p.buildStart) / 1000
      match ch with
      | .a => if p.builtA then p else
          { p with builtA := true, rebuildA := us, rebuildMaxA := max p.rebuildMaxA us }.settle
      | .b => if p.builtB then p else
          { p with builtB := true, rebuildB := us, rebuildMaxB := max p.rebuildMaxB us }.settle
  else s

def execRebuildComplete (t : Nat) (ch : Ch) (s : State) : Host.Outcome State Fault Refusal :=
  .next ((s.tick t).rebuildComplete ch)

/-- A channel has not completed within 1.9 ms: source 356 or 357. -/
def State.rebuildOverrun (ch : Ch) (s : State) : State :=
  let p := s.b.sep
  let open_ := match ch with
    | .a => !p.builtA
    | .b => !p.builtB
  if s.b.sepOn && p.building.isSome && open_ && decide (s.b.now ≥ p.buildStart + 1900000) then
    s.raise (match ch with | .a => 356 | .b => 357) s.b.firstChain
  else s

def execRebuildOverrun (t : Nat) (ch : Ch) (s : State) : Host.Outcome State Fault Refusal :=
  .next ((s.tick t).rebuildOverrun ch)

/-! ### Separation updates (R202) -/

/-- ρ. -/
def Grid.rhoOf (c : Grid) : Nat := if c.rho = 0 then 1 else c.rho

/-- A channel had not completed the update at the capture: source 358 or 359. -/
def State.updateLate (ch : Ch) (s : State) : State :=
  match s.b.sep.update with
  | none => s
  | some u =>
    let bad := match ch with
      | .a => !u.doneA && !u.lateA
      | .b => !u.doneB && !u.lateB
    if bad then
      (s.onSep fun p =>
          { p with update := some (match ch with
              | .a => { u with lateA := true }
              | .b => { u with lateB := true }) }).raise (match ch with | .a => 358 | .b => 359) s.b.firstChain
    else s

/-- SEPARATION_UPDATE_OVERRUN: the update begun at sentence n is still open at t_c(n + 1). -/
def State.updateOverrun (ch : Ch) (s : State) : State :=
  match s.b.sep.update with
  | some u => if s.b.sepOn && decide (s.b.now ≥ u.start + s.b.tsNs) then s.updateLate ch else s
  | none => s

def execSeparationUpdateOverrun (t : Nat) (ch : Ch) (s : State) : Host.Outcome State Fault Refusal :=
  .next ((s.tick t).updateOverrun ch)

/-- Before a capture freezes the words: an update still open is discarded, its chain words are 0 with valid 0, and it breaks the run
of agreed updates. What is captured is no longer judged anew. -/
def State.sepClose (s : State) : State :=
  match s.b.sep.update with
  | none => s.onSep fun p => { p with redo := none }
  | some _ =>
    ((s.updateLate .a).updateLate .b).onSep fun p =>
      { p with update := none, redo := none, chains := nmapv p.chains {} fun _ x => { x with words := [], runs := 0 } }

/-- At the capture of a sentence whose number is a multiple of ρ, an update begins on the captured axes and the newest
basis. -/
def State.sepBegin (n : Nat) (s : State) : State :=
  match s.b.grid with
  | none => s
  | some c =>
    if s.b.sepOn && decide (n % c.rhoOf = 0) then
      s.onSep fun p =>
        { p with
          update := some
            { sentence := n, start := s.b.now, basis := p.inUse
              posA := s.b.axesOn.filterMap fun a => (s.b.axis a).pa.map fun x => (a, x)
              posB := s.b.axesOn.filterMap fun a => (s.b.axis a).pb.map fun x => (a, x)
              agreedAxes := s.b.axesOn.filter fun a => ((s.b.axis a).word 5).one } }
    else s

/-- A chain's joints with the captured positions of one channel; none where one is missing. -/
def jointsWith (joints : List Joint) (pos : NMap Int) : Option (List (Joint × Int)) :=
  joints.mapM fun j => (pos.find? fun x => x.1 == j.axis).map fun x => (j, x.2)

/-- What an update's kinematics give for one chain (R194). -/
structure ChainKin where
  endsA : List Vec := []
  endsB : List Vec := []
  diffSq : Nat := 0
  agreed : Bool := false
  wide : Bool := false
  outside : Bool := false
deriving DecidableEq, Repr

/-- The capsules of a chain. -/
def Grid.capsOf (c : Grid) (k : Nat) : List Capsule := c.capsules.filter fun x => x.chain == k

/-- The kinematics of chain `k` at an update. -/
def Grid.kin (c : Grid) (u : SepUpdate) (k : Nat) : ChainKin :=
  let x := nget c.chains k {}
  match jointsWith x.joints u.posA, jointsWith x.joints u.posB with
  | some pa, some pb =>
    let ea := endpointsA (c.capsOf k) pa
    let eb := endpointsB (c.capsOf k) pb
    let far := (List.zipWith copyDistSq ea eb).foldl max 0
    let wide := decide (far > (1000 * unitB) ^ 2)
    { endsA := ea, endsB := eb, diffSq := far, wide := wide
      agreed := !wide && x.joints.all fun j => u.agreedAxes.contains j.axis
      outside := ea.any (fun p => (c.cellOf p 1000).isNone) || eb.any fun p => (c.cellOf p unitB).isNone }
  | _, _ => {}

/-- The occupied cells without those that agreed chains mask (R190 step 4). -/
def Grid.unmasked (c : Grid) (kin : Nat → ChainKin) (cells : List Nat) : List Nat :=
  cells.filter fun i => !(List.range 4).any fun k =>
    (kin k).agreed && (List.range (c.capsOf k).length).any fun j =>
      c.maskedBy i (((c.capsOf k).getD j { chain := 0, link := 0, p0 := (0, 0, 0), p1 := (0, 0, 0), radius := 0 }).radius +
        (nget c.chains k {}).mSelf) (pairAt (kin k).endsA j) (pairAt (kin k).endsB j)

/-- A chain's distance in a channel with the capsule that gives it: the smallest of its capsules'. -/
def leastDist (l : List (Nat × Nat)) : Nat × Nat :=
  match l with
  | [] => (Config.unstatedDistance 0, 0)
  | x :: r => r.foldl (fun m y => if y.2 < m.2 then y else m) x |> fun y => (y.2, y.1)

/-- The two channels' distances of chain `k`, with the capsules that give them. -/
def Grid.distances (c : Grid) (kin : Nat → ChainKin) (basis : Option Basis) (k : Nat) : (Nat × Nat) × (Nat × Nat) :=
  match basis with
  | none => ((Config.unstatedDistance 1, 0), (Config.unstatedDistance 1, 0))
  | some z =>
    let occA := c.unmasked kin z.cellsA
    let occB := c.unmasked kin z.cellsB
    let idx := (List.range c.capsules.length).filter fun i => (c.capsules.map (·.chain)).getD i 9 == k
    let row := fun (f : Capsule → Nat → Nat) => (c.capsOf k).zipIdx.map fun x => (idx.getD x.2 0, capsuleDist (f x.1 x.2) x.1.radius)
    (leastDist (row fun x j => c.distA occA z.gen x (pairAt (kin k).endsA j)),
      leastDist (row fun _ j => c.distB occB (pairAt (kin k).endsB j)))

/-- The chain's terms of R200, as set. -/
def Blocks.sepTerms (b : Blocks) (c : Nat) : SepTerms :=
  let cz := b.sepSet c 0x14
  { vh := fld (b.sepSet c 4) 11 0, tr := fld (b.sepSet c 8) 13 0, ts := fld (b.sepSet c 0xC) 10 0
    as_ := max 1 (fld (b.sepSet c 0x10) 15 0), czz := fld cz 9 0 + fld cz 19 10 + fld cz 29 20
    vmax := fld (b.sepSet c 0x18) 13 0 }

def Blocks.sMin (b : Blocks) (c : Nat) : Nat := fld (b.sepSet c 0x1C) 12 0

/-- T_sep in ns. -/
def Blocks.tSep (b : Blocks) (c : Grid) : Nat := c.rhoOf * b.tsNs

/-- The largest displacement of an endpoint, as a speed in mm/s rounded up (R195); `unit` endpoint units make one mm. -/
def endSpeed (old new : List Vec) (unit tNs : Nat) : Int :=
  (List.zipWith (fun p q => ceilSqrt (distSq p q * 10 ^ 18) ((unit * tNs) ^ 2)) old new).foldl max 0

/-- The state of a kind 0x18 instance after an update (R201). -/
def sepFnState (e : FnEntry) (st : Nat) (ready clear : Bool) (d sMin : Nat) : Nat :=
  let far := decide (d ≥ sMin + (e.par 1).toNat)
  let free := if bit e.p0 4 then 3 else 4
  if !ready then 1
  else if !clear then 2
  else if st = 1 ∨ st = 2 then (if far then free else 2)
  else st

/-- The safe value of separation word `w` (R205). -/
def sepSafe (w : Nat) : BitVec 20 := if w = 2 ∨ w = 10 then 0x7FFFF else 0

/-- Separation word `w` of a chain. -/
def ChainSt.word (x : ChainSt) (w : Nat) : NV := nget x.words w { val := sepSafe w, ok := false }

/-- The words of a chain from its values. -/
def sepWords (l : List (Nat × NV)) : NMap NV :=
  forL l (fun x m => nset m x.1 (if x.2.ok then x.2 else { val := sepSafe x.1, ok := false }) { val := sepSafe x.1, ok := false })
    []

/-- Word 4: the instance's output, 1 where there is none. -/
def Blocks.sepPermit (b : Blocks) (c st : Nat) : Bool :=
  match b.sepFn c with
  | some _ => st == 4
  | none => true

/-- Sources 372 and 373 of a chain at a completed update (R194). -/
def State.chainFaults (k : ChainKin) (c : Nat) (s : State) : State :=
  let z := some (s.b.chainZone c)
  let s1 := if k.wide then s.raise 372 (mkw c) z else s
  if k.outside then s1.raise 373 (mkw c) z else s1

/-- One chain's results at a completed update. -/
def State.chainResult (g : Grid) (u : SepUpdate) (kin : Nat → ChainKin) (excess : Bool) (c : Nat) (s : State) : State :=
  let x := s.b.chain c
  let k := kin c
  let z := some (s.b.chainZone c)
  let dist := g.distances kin u.basis c
  let zero := excess || k.outside || !k.agreed
  let dA := if zero || u.missA.contains c then 0 else dist.1.1
  let dB := if zero || u.missB.contains c then 0 else dist.2.1
  let d := min dA dB
  let diff := max dA dB - d
  let runs := if k.agreed then min (x.runs + 1) 2 else 0
  let ready := x.ready || (decide (runs ≥ 2) && s.b.sensorsOn.all fun i => (s.b.sensor i).accepted.isSome)
  let vp := (s.b.sepTerms c).permitted d
  let clear := ready && decide (d ≥ s.b.sMin c)
  let st := match s.b.sepFn c with
    | some e => sepFnState e x.state ready clear d (s.b.sMin c)
    | none => 0
  let spA := endSpeed x.endsA k.endsA 1000 (s.b.tSep g)
  let spB := endSpeed x.endsB k.endsB unitB (s.b.tSep g)
  let age : Int := match u.basis.bind (·.newest) with
    | some t0 => ((u.start - s.b.tru.aOrigin - t0) / 1000 : Nat)
    | none => 524287
  let words := sepWords
    [(0, .num d ready), (1, .num vp ready), (2, .num (max spA spB) (ready && decide (runs ≥ 2))),
      (3, { (NV.ofBool clear) with ok := ready }), (4, { (NV.ofBool (s.b.sepPermit c st)) with ok := ready }),
      (5, .ofBool k.agreed), (6, .ofBool ready), (7, .num dA true), (8, .num dB true),
      (9, .num (if dA ≤ dB then dist.1.2 else dist.2.2) true), (10, .num age true)]
  let s1 := s.onChain c fun x =>
    { x with
      endsA := k.endsA, endsB := k.endsB, runs := runs, ready := ready, speedA := spA, speedB := spB
      state := if (s.b.sepFn c).isSome then st else x.state
      words := words, outside := k.outside, endFault := x.endFault || k.wide
      diffPeak := if zero then x.diffPeak else max x.diffPeak diff }
  if !zero && decide (diff > 60) then s1.raise 352 (mkw c) z else s1

/-- The kinematics of the enabled chains at an update, and more representative points than n_rep_max. -/
def Blocks.updateKin (b : Blocks) (g : Grid) (u : SepUpdate) (c : Nat) : ChainKin := if b.chainEn c then g.kin u c else {}
def Grid.excess (g : Grid) (u : SepUpdate) : Bool := decide (((u.basis.map (·.cellsB)).getD []).length > g.nRepMax)

/-- Both channels have completed the update (R197, R199). -/
def State.sepFinish (g : Grid) (u : SepUpdate) (s : State) : State :=
  let kin := s.b.updateKin g u
  let cells := (u.basis.map (·.cellsB)).getD []
  let excess := g.excess u
  let far := s.b.chainsOn.foldl (fun m c => max m (kin c).diffSq) 0
  let um := isqrt far / unitB
  let shown := if um * um * unitB ^ 2 < far ∧ Config.shownUp (pKIN + 0x108) um then um + 1 else um
  let s1 := s.onSep fun p =>
    { p with
      update := none, redo := some (u, p.chains), overflow := excess, genUsed := (u.basis.map (·.gen)).getD 0
      occ := (g.unmasked kin cells).length, kinDiff := shown, kinPeak := max p.kinPeak shown }
  let s2 := if excess then s1.raise 353 s.b.firstChain else s1
  forL s.b.chainsOn (fun c s => (s.chainFaults (kin c) c).chainResult g u kin excess c) s2

/-- A channel completes the update under way (R199, R202). -/
def State.updateComplete (ch : Ch) (s : State) : State :=
  match s.b.grid, s.b.sep.update with
  | some g, some u =>
    if s.b.sepOn then
      let w := (s.b.now - u.start) / 100
      let v := match ch with
        | .a => { u with doneA := true }
        | .b => { u with doneB := true }
      let s1 := s.onSep fun p => match ch with
        | .a => if u.doneA || u.lateA then p else { p with update := some v, workA := w, workMaxA := max p.workMaxA w }
        | .b => if u.doneB || u.lateB then p else { p with update := some v, workB := w, workMaxB := max p.workMaxB w }
      match s1.b.sep.update with
      | some v => if v.doneA && v.doneB then s1.sepFinish g v else s1
      | none => s1
    else s
  | _, _ => s

def execSeparationUpdateComplete (t : Nat) (ch : Ch) (s : State) : Host.Outcome State Fault Refusal :=
  .next ((s.tick t).updateComplete ch)

/-- A channel's distance of chain `c` was not delivered. -/
def SepUpdate.missed (u : SepUpdate) (ch : Ch) (c : Nat) : SepUpdate :=
  match ch with
  | .a => { u with missA := c :: u.missA }
  | .b => { u with missB := c :: u.missB }

/-- The chain's results of the update just completed, formed anew from the state before it. -/
def State.sepRedo (g : Grid) (ch : Ch) (c : Nat) (s : State) : State :=
  match s.b.sep.redo with
  | some (u, before) =>
    let v := u.missed ch c
    (s.onSep fun p =>
        { p with redo := some (v, before), chains := nupd p.chains c {} fun _ => nget before c {} }).chainResult g v (s.b.updateKin g v)
      (g.excess v) c
  | none => s

/-- A channel's distance of a chain was not delivered: it counts as 0, and source 360 (R199). The exchange follows the update: the
report may find it complete. -/
def State.sepMissed (ch : Ch) (c : Nat) (s : State) : State :=
  if s.b.sepOn && s.b.chainEn c && (s.b.sep.update.isSome || s.b.sep.redo.isSome) then
    let z := some (s.b.chainZone c)
    match s.b.sep.update, s.b.grid with
    | some u, _ => (s.onSep fun p => { p with update := some (u.missed ch c) }).raise 360 (mkw c) z
    | none, some g => (s.sepRedo g ch c).raise 360 (mkw c) z
    | none, none => s
  else s

def execSeparationExchangeMissed (t : Nat) (ch : Ch) (c : Fin 4) (s : State) : Host.Outcome State Fault Refusal :=
  .next ((s.tick t).sepMissed ch c.val)

/-- The demand update: a manual instance that awaits acknowledge permits (R201). -/
def State.sepDemand (nv : Nat → NV) (s : State) : State :=
  if s.b.resetting .sep || s.b.resetting .kin then s
  else
    forL s.b.chainsOn (fun c s =>
      match s.b.sepFn c with
      | some e =>
        let x := s.b.chain c
        if x.state = 3 ∧ (axInputs e nv).ack then
          s.onChain c fun x =>
            { x with state := 4, words := nset x.words 4 (.ofBool true) { val := 0, ok := false } }
        else s
      | none => s) s

/-! ### First use, clears, SEP_CTR_CLEAR and KIN_CTR_CLEAR -/

/-- The chains in their first-use states (R204); statistics and an uncleared source 372 stay. -/
def firstUseChains (m : NMap ChainSt) : NMap ChainSt :=
  nmapv m {} fun _ x => { endFault := x.endFault, diffPeak := x.diffPeak }

/-- The engine emptied, after a SEP or a KIN block reset alike (R204, R206). -/
def Sep.firstUse (p : Sep) : Sep :=
  { sensors := nmapv p.sensors {} fun _ x => { refused := x.refused }
    chains := firstUseChains p.chains
    rebuildMaxA := p.rebuildMaxA, rebuildMaxB := p.rebuildMaxB, workMaxA := p.workMaxA, workMaxB := p.workMaxB
    kinPeak := p.kinPeak }

/-- A clear of source 372. -/
def State.cleared372 (s : State) : State :=
  s.onSep fun p => { p with chains := nmapv p.chains {} fun _ x => { x with endFault := false } }

def State.sepCtrClear (w : Word) (s : State) : State × Nat :=
  (if w.getLsbD 0 then
    s.onSep fun p =>
      { p with
        rebuildMaxA := 0, rebuildMaxB := 0, workMaxA := 0, workMaxB := 0
        chains := nmapv p.chains {} fun _ x => { x with diffPeak := 0 }
        sensors := nmapv p.sensors {} fun _ x => { x with refused := {} } }
   else s, rDone)

def execSepCtrClear (t : Nat) (rd : Reader) (w : Word) (s : State) : Host.Outcome State Fault Refusal :=
  .next ((s.tick t).wt rd pSEP (wTok w) (State.sepCtrClear w))

def State.kinCtrClear (w : Word) (s : State) : State × Nat :=
  (if w.getLsbD 0 then s.onSep fun p => { p with kinPeak := 0 } else s, rDone)

def execKinCtrClear (t : Nat) (rd : Reader) (w : Word) (s : State) : Host.Outcome State Fault Refusal :=
  .next ((s.tick t).wt rd pKIN (wTok w) (State.kinCtrClear w))

/-! ### The SEP page (R209) -/

/-- A whole quantity shown from a fraction: the lower or the upper of its neighbours. -/
def shownDiv (addr num den : Nat) : Nat :=
  if num % den = 0 then num / den else if Config.shownUp addr (num / den) then num / den + 1 else num / den

/-- SEP_STATEc. -/
def Blocks.sepState (b : Blocks) (c : Nat) : Word :=
  let x := b.chain c
  let w := fun i => b2n ((x.word i).one)
  mkw (pl (w 6) 31 1 + pl (w 5) 30 1 + pl (w 3) 29 1 + pl (w 4) 28 1 + pl (if (b.sepFn c).isSome then x.state else 0) 25 3 +
    pl (b2n (decide (x.runs ≥ 2))) 24 1 + pl (x.word 9).val.toNat 16 6)

/-- A 16-bit two's-complement field. -/
def s16 (x : Int) : Nat := (BitVec.ofInt 16 x).toNat

/-- The SEP page from 0x100. -/
def readSep (v : RView) (off : Nat) : Word :=
  let g : Grid := v.live.grid.getD {}
  let on := v.live.grid.isSome
  match off with
  | 0x100 => v.rosCap fun b =>
      mkw (pl (b2n !b.sensorsBad.isEmpty) 4 1 + pl (b2n (b.fcl.a.live.getLsbD 352)) 3 1 + pl (b2n b.sep.overflow) 2 1 +
        pl (b2n b.sep.inUse.isSome) 1 1 + b2n b.sepOn)
  | 0x104 => if on then mkw (pl g.cells.1 0 8 + pl g.cells.2.1 8 8 + pl g.cells.2.2 16 8) else 0
  | 0x108 => if on then mkw (s16 g.origin.1 + s16 g.origin.2.1 * 65536) else 0
  | 0x10C => if on then mkw (s16 g.origin.2.2) else 0
  | 0x110 => if on then mkw (pl g.rhoOf 0 9 + pl (v.live.tSep g / 1000) 16 16) else 0
  | 0x114 => if on then mkw (pl (shownDiv (pSEP + 0x114) g.workTwice 2) 0 22) else 0
  | 0x118 => if on then mkw (pl g.nRepMax 0 17) else 0
  | 0x11C => v.rosCap fun b => loW b.sep.genUsed
  | 0x120 =>
    let p := v.live.sep
    if v.bView then mkw (sat p.rebuildB 16 + sat p.rebuildMaxB 16 * 65536) else mkw (sat p.rebuildA 16 + sat p.rebuildMaxA 16 * 65536)
  | 0x124 =>
    let p := v.live.sep
    if v.bView then mkw (sat p.workB 16 + sat p.workMaxB 16 * 65536) else mkw (sat p.workA 16 + sat p.workMaxA 16 * 65536)
  | 0x128 => v.rosCap fun b => mkw (pl b.sep.occ 0 22)
  | 0x12C => v.rosCap fun b => wordOf (bits16 fun s => decide (s < 8) && b.sensorHealthy s) 0
  | 0x130 => mkw (pl g.exclusions.length 0 9)
  | _ =>
    if 0x800 ≤ off ∧ off < 0x900 then
      let c := (off - 0x800) / 64
      match off % 64 with
      | 0x20 => mkw (pl (shownDiv (pSEP + 0x820) (v.live.sepTerms c).k 10000) 0 16)
      | 0x24 => v.rosCap fun b => natW ((b.chain c).word 0).val
      | 0x28 => v.rosCap fun b => natW ((b.chain c).word (if v.bView then 8 else 7)).val
      | 0x2C => v.rosCap fun b => natW ((b.chain c).word 1).val
      | 0x30 => v.rosCap fun b => b.sepState c
      | 0x34 => mkw (sat (v.live.chain c).diffPeak 13)
      | _ => if off % 64 < 0x20 then v.live.rwsRead (pSEP + off) else 0
    else if 0xA00 ≤ off ∧ off < 0xA80 then
      let s := (off - 0xA00) / 16
      match off % 16 with
      | 0 => (v.live.rwsRead (pSEP + off) &&& ~~~(0x70000 : Word)) ||| mkw (pl (nget g.observed s []).length 16 3)
      | 4 => v.rosCap fun b =>
          let x := b.sensor s
          mkw (pl (b2n (b.sensorHealthy s)) 31 1 + pl (b2n x.selfOk) 30 1 + pl (b2n x.contam) 29 1 + pl x.points 0 18)
      | 8 =>
        match (v.live.sensor s).accepted with
        | some t0 => mkw (sat ((v.live.rulerA - t0) / 1000) 24)
        | none => 0x00FFFFFF
      | _ => (v.live.sensor s).refused.word
    else 0

/-! ### The KIN page (R210) -/

/-- An endpoint coordinate in 0.1 mm from `num` parts of `den` to the 0.1 mm. -/
def tenthOf (addr : Nat) (num : Int) (den : Nat) : Word :=
  let q := num / den
  natW (toNative (if num % den ≠ 0 ∧ Config.shownUp addr q then q + 1 else q))

/-- One coordinate of an endpoint of capsule `i`. -/
def Blocks.capCoord (b : Blocks) (bView : Bool) (i e xyz : Nat) (addr : Nat) : Word :=
  match b.grid with
  | none => 0
  | some g =>
    match g.capsules[i]? with
    | none => 0
    | some x =>
      let k := ((g.capsules.take i).filter fun y => y.chain == x.chain).length
      let s := b.chain x.chain
      let p := (if bView then s.endsB else s.endsA).getD (2 * k + e) (0, 0, 0)
      let c := if xyz = 0 then p.1 else if xyz = 1 then p.2.1 else p.2.2
      if bView then tenthOf addr (c * 10) unitB else tenthOf addr c 100

/-- A joint byte of KIN_JMAP. -/
def jointByte (j : Option Joint) : Nat :=
  match j with
  | some j => pl (b2n j.prismatic) 7 1 + 16 + pl j.axis 0 4
  | none => 0

/-- The KIN page from 0x100. -/
def readKin (v : RView) (off : Nat) : Word :=
  let g : Grid := v.live.grid.getD {}
  let sel := v.live.own v.rd (pKIN + 0x114)
  let used := (List.range 4).filter fun c => !(nget g.chains c {}).joints.isEmpty
  match off with
  | 0x100 => v.rosCap fun b =>
      mkw (pl (b2n (b.fcl.a.live.getLsbD 373)) 2 1 + pl (b2n (b.chainsOn.all fun c => ((b.chain c).word 5).one)) 1 1 +
        b2n b.sepOn)
  | 0x104 =>
    mkw (pl used.length 0 3 + pl (used.map fun c => (nget g.chains c {}).joints.length).sum 8 5 + pl g.capsules.length 16 7)
  | 0x108 => v.rosCap fun b => mkw (sat b.sep.kinDiff 20)
  | 0x10C => mkw (sat v.live.sep.kinPeak 20)
  | 0x114 => sel
  | 0x118 =>
    match g.capsules[fld sel 5 0]? with
    | some x => mkw (pl x.chain 24 2 + pl x.link 16 4 + pl x.radius 0 10)
    | none => 0
  | _ =>
    if 0x11C ≤ off ∧ off ≤ 0x130 then
      v.rosCap fun b => b.capCoord v.bView (fld sel 5 0) ((off - 0x11C) / 12) ((off - 0x11C) / 4 % 3) (pKIN + off)
    else if 0x800 ≤ off ∧ off < 0x880 then
      let c := (off - 0x800) / 32
      let x := nget g.chains c {}
      let byte := fun j => jointByte x.joints[j]?
      match off % 32 with
      | 0 =>
        if x.joints.isEmpty then 0
        else mkw (pl 1 31 1 + pl (x.joints.length - 1) 16 3 + pl (b2n x.base) 15 1 + pl x.mSelf 0 10)
      | 4 => mkw (byte 0 + byte 1 * 2 ^ 8 + byte 2 * 2 ^ 16 + byte 3 * 2 ^ 24)
      | 8 => mkw (byte 4 + byte 5 * 2 ^ 8 + byte 6 * 2 ^ 16 + byte 7 * 2 ^ 24)
      | 0xC => v.rosCap fun b => natW (toNative (if v.bView then (b.chain c).speedB else (b.chain c).speedA))
      | 0x10 => v.rosCap fun b =>
          let y := b.chain c
          mkw (pl (b2n (y.word 5).one) 31 1 + pl (b2n (decide (y.runs ≥ 2))) 30 1 + pl y.runs 28 2 + pl (b2n y.endFault) 27 1 +
            pl (b2n y.outside) 26 1)
      | _ => 0
    else 0

end Sys2Proof.Machine
end

