-- ==== Sys2Proof/Machine/SporeRuns.lean ====
section
/-! DEFINITION. The sequencers' shares of the spores (R341), and how a spore ends or is aborted (R346). Which index has which kind is
the unit's (`Config`): the manual gives the counts. -/

namespace Sys2Proof.Machine

/-! ### The shares (R341) -/

/-- Spores of a kind in a sequencer's share. -/
def sporeCount (c : Ch) (kind : Nat) : Nat :=
  match c, kind with
  | _, 1 => 2819
  | _, 2 => 1536
  | .a, 3 => 512
  | .a, 4 => 8
  | .a, 5 => 8
  | .b, 5 => 40
  | .a, 6 => 130
  | _, _ => 0

/-- A sequencer's share. -/
def shareOf : Ch → Nat
  | .a => 5013
  | .b => 4395

/-- Kind of a spore, 1 to 6, and its longest duration in ns. -/
def kindOf (index : Nat) : Nat := (Config.sporeKind index).val + 1

def sporeDur (kind : Nat) : Nat :=
  match kind with
  | 4 => 3000
  | 5 => 2000
  | _ => 8000

def Bst.seq (b : Bst) : Ch → Seqr
  | .a => b.a
  | .b => b.b

def Bst.onSeq (b : Bst) (c : Ch) (f : Seqr → Seqr) : Bst :=
  match c with
  | .a => { b with a := f b.a }
  | .b => { b with b := f b.b }

def State.onSeqr (c : Ch) (f : Seqr → Seqr) (s : State) : State := s.onBst fun b => b.onSeq c f

/-- The place of the next spore: its share in order, then the spores moved to the pass's end. -/
def Seqr.place (q : Seqr) (c : Ch) : Option Nat :=
  if q.next < shareOf c then some q.next else q.deferred.head?

/-- The index of the spore a start would run: the forced one, else the next of the share. -/
def Seqr.due (q : Seqr) (c : Ch) : Option Nat :=
  if q.force then some q.forceIndex else (q.place c).map fun p => (Config.sporeIndex c p).val

/-! ### The end of a spore (R345, R346) -/

/-- What a record names of a spore: its index in [13:0], its block and sub-block in [31:16] (R355). -/
def sporeWord (index : Nat) : Word := mkw (pl (Config.sporePlace index).toNat 16 16 + pl index 0 14)

/-- The sequencer's spore has ended: its time is used, an aligned pair resumes. -/
def State.sporeEnds (c : Ch) (r : Running) (s : State) : State :=
  let s1 := s.onSeqr c fun q => { q with running := none, usedNs := q.usedNs + (s.b.now - r.start) }
  if kindOf r.index = 3 then s1.onAgr fun a => { a with pairs := nmapv a.pairs {} fun _ p => { p with asked := false, aligned := false } }
  else s1

/-- A spore aborted 256 times in a row: source 503, and it moves to the pass's end. -/
def State.sporeDefer (c : Ch) (r : Running) (s : State) : State :=
  let s1 := s.onSeqr c fun q =>
    if r.forced then { q with abortRun := 0, force := false }
    else
      match q.place c with
      | some p =>
        if q.next < shareOf c then { q with abortRun := 0, next := q.next + 1, deferred := q.deferred ++ [p] }
        else { q with abortRun := 0, deferred := q.deferred.drop 1 ++ [p] }
      | none => { q with abortRun := 0 }
  s1.raise 503 (sporeWord r.index)

/-- A running spore is aborted and discarded; it runs again. -/
def State.sporeAbort (c : Ch) (cause : AbortCause) (s : State) : State :=
  match (s.b.bst.seq c).running with
  | none => s
  | some r =>
    let s1 := (s.sporeEnds c r).onSeqr c fun q =>
      { q with aborts := q.aborts.inc, abortRun := q.abortRun + 1
               waitSent := if cause = .halt then some s.b.sys.sent else q.waitSent }
    if (s1.b.bst.seq c).abortRun ≥ 256 then s1.sporeDefer c r else s1

/-- A Halt raise aborts what runs (R346). -/
def State.sporesHalt (s : State) : State := (s.sporeAbort .a .halt).sporeAbort .b .halt

/-- The reset of a block aborts the spores that occupy it (R346). -/
def State.sporesOff (k : Block) (s : State) : State :=
  forL [Ch.a, Ch.b] (fun c s =>
    match (s.b.bst.seq c).running with
    | some r => if (Config.sporeBlocks r.index).contains k then s.sporeAbort c .blockReset else s
    | none => s) s

end Sys2Proof.Machine
end

