-- ==== Sys2Proof/Machine/Halt.lean ====
section
/-! DEFINITION. What Stop and Halt do from the end of the raising round (R302, R303), and the collector self-fault, which
acts as Halt (R311). -/

namespace Sys2Proof.Machine

/-- The outputs of the zones in `z`. -/
def Blocks.soutOf (b : Blocks) (z : BitVec 32) : BitVec 16 := bits16 fun k => z.getLsbD (b.soutZoneOf k)

/-- An axis of zone `z` names STO lichen `k`. -/
def Blocks.axisNames (b : Blocks) (z k : Nat) : Bool := b.axesOn.any fun a => b.axZone a == z && b.axSto a == k

/-- The STO lichens that a stop of the zones in `z` holds at once: all of a zone whose behaviour is STO, and those that no
axis of the zone names where it is SS1. -/
def Blocks.stoOf (b : Blocks) (z : BitVec 32) : BitVec 16 :=
  bits16 fun k =>
    let zk := b.stoZoneOf k
    z.getLsbD zk && !((nget b.img.regs (pFCL + 0x144) 0).getLsbD zk && b.axisNames zk k)

/-- A Stop acts on the zones in `z` (R302). -/
def State.stopZones (z : BitVec 32) (s : State) : State :=
  ((((s.onFcl fun f => { f with zoneStop := f.zoneStop ||| z }).onSog fun o =>
      { o with faultHold := o.faultHold ||| s.b.soutOf z }).onSto fun o =>
        { o with faultHold := o.faultHold ||| s.b.stoOf z })).darkAborts

/-- Halt (R303): every output and STO lichen is held, every zone is stopped, the pairs take the trap, running spores abort
(R346). A re-arm check that runs is aborted (R315). -/
def State.enterHalt (s : State) : State :=
  ((((s.onFcl fun f =>
      { f with halt := true, zoneStop := 0xFFFFFFFF, rearm := if f.rearm = 1 ∨ f.rearmPassed then 0 else f.rearm, rearmPassed := false
               zoneReady := [] }).onSog
    fun o => { o with faultHold := 0xFFFF }).onSto fun o => { o with faultHold := 0xFFFF }).deliverNmi).darkAborts.sporesHalt

/-- A collector self-fault: Halt without either tree's decision, both error pins low until a chip reset or the removal of
power, and a fault-raise record flagged collector fault. The first code stays. -/
def State.selfFault (code : Nat) (s : State) : State :=
  if s.b.fcl.selfCode ≠ 0 then s
  else
    let s1 := (s.enterHalt).onFcl fun f => { f with selfCode := code, signalling := true, driveA := false, driveB := false }
    s1.makeRecord true
      { s1.recordBase 0x01 (fitBytes (Config.selfFaultRecord code) 12) with
        payloadKind := 2, payload := (Config.selfFaultRecord code).drop 12 }

/-- Each tree reads its error pin back at a sample (R316): a difference at two samples in a row is self-fault code 4. -/
def State.checkErrPins (a b : Bool) (s : State) : State :=
  let s1 := s.onFcl fun f =>
    { f with rbA := a, rbB := b
             errRunA := if a = f.driveA then 0 else min (f.errRunA + 1) 2
             errRunB := if b = f.driveB then 0 else min (f.errRunB + 1) 2 }
  if s1.b.fcl.errRunA ≥ 2 ∨ s1.b.fcl.errRunB ≥ 2 then s1.selfFault 4 else s1

end Sys2Proof.Machine
end

