-- ==== Sys2Proof/Machine/Terminals.lean ====
section
/-! DEFINITION. Terminals, lichens, test pulses and output readbacks (R119 to R150): the sampling chain, verdicts, lock-outs,
readback and dark tests, and the LIO, TPG, SOG and STO pages. -/

namespace Sys2Proof.Machine

/-! ### Settings (R122, R124, R127) -/

def Blocks.lioCfg (b : Blocks) (i : Nat) : Word := b.set (pLIO + 0x800 + 16 * i)
def Blocks.lioTime (b : Blocks) (i : Nat) : Word := b.set (pLIO + 0x804 + 16 * i)
def Blocks.lioKind (b : Blocks) (i : Nat) : Nat := fld (b.lioCfg i) 31 29
def Blocks.filterLen (b : Blocks) (i : Nat) : Nat := fld (b.lioCfg i) 15 0
def Blocks.blankLen (b : Blocks) (i : Nat) : Nat := fld (b.lioTime i) 24 16

/-- The TPO of a terminal; none where the field is not 0 to 15. -/
def Blocks.tpoOf (b : Blocks) (c : Ch) (i : Nat) : Option Nat :=
  let v := match c with
    | .a => fld (b.lioCfg i) 28 24
    | .b => fld (b.lioCfg i) 20 16
  if v < 16 then some v else none

/-- T in samples of 2 microseconds. -/
def Blocks.discSamples (b : Blocks) (i : Nat) : Nat := 50 * fld (b.lioTime i) 15 0

/-- The used lichens. -/
def Blocks.usedLichens (b : Blocks) : List Nat := (List.range 48).filter fun i => b.lioKind i != 0

def Blocks.tpoEnabled (b : Blocks) : BitVec 16 := BitVec.ofNat 16 (fld (b.set (pTPG + 0x10C)) 15 0)

/-- Period in ns; number of enabled TPOs; the first of them. -/
def Blocks.tpgPeriod (b : Blocks) : Nat := fld (b.set (pTPG + 0x104)) 9 0 * 100000
def Blocks.tpoCount (b : Blocks) : Nat := popc b.tpoEnabled 16
def Blocks.firstTpo (b : Blocks) : Option Nat := (List.range 16).find? fun k => b.tpoEnabled.getLsbD k

/-- TPG_OFFSETk in microseconds: floor(m × P / n / 2 us) samples after the period start (R127). -/
def Blocks.tpoOffset (b : Blocks) (k : Nat) : Nat :=
  if b.tpoEnabled.getLsbD k then 2 * (popc b.tpoEnabled k * (b.tpgPeriod / 1000) / b.tpoCount / 2) else 0x1FFFF

/-! ### One terminal's sample (R121) -/

def Lichen.term (l : Lichen) : Ch → Term
  | .a => l.a
  | .b => l.b

def Lichen.onTerm (l : Lichen) (c : Ch) (f : Term → Term) : Lichen :=
  match c with
  | .a => { l with a := f l.a }
  | .b => { l with b := f l.b }

def State.onLichen (i : Nat) (f : Lichen → Lichen) (s : State) : State :=
  s.onLio fun l => { l with lichens := nupd l.lichens i {} f }

def Blocks.lichen (b : Blocks) (i : Nat) : Lichen := nget b.lio.lichens i {}

/-- The lichen signal as a channel has formed it. -/
def Lichen.sigOf (l : Lichen) : Ch → Bool
  | .a => l.sig
  | .b => l.sigB

/-- The signal is 1 in both channels. -/
def Lichen.signal (l : Lichen) : Bool := l.sig && l.sigB

/-- Follow the mask window under way with the normalised sample `r`. -/
def Term.follow (m : Term) (r : Bool) : Term :=
  if r then { m with run0 := 0 }
  else { m with any0 := true, run0 := m.run0 + 1, two0 := m.two0 || decide (m.run0 + 1 ≥ 2) }

/-- The filter: N consecutive samples of the other value change the output. -/
def Term.filter (m : Term) (n : Nat) (v : Bool) : Term :=
  if v = m.out then { m with run := 0 }
  else if m.run + 1 ≥ n then { m with out := v, run := 0 }
  else { m with run := m.run + 1 }

/-- Normalised sample `r` through mask, fault force, blank and filter. `own` says that the terminal's own mask window is
under way, `win` that any is. -/
def Term.sample (m : Term) (r own win : Bool) (kind blank n : Nat) : Term :=
  let m1 := if win then m.follow r else m
  let m2 := { m1 with raw := r, before := if own then m1.before else r }
  let masked := if own then m2.before else r
  let forced := masked && m2.tpf.isEmpty
  let z := if forced then 0 else m2.zeroRun + 1
  let passed := forced || (kind == 3 && decide (z ≤ blank))
  { m2 with zeroRun := if kind = 3 then min z (blank + 1) else 0 }.filter n passed

/-- One lichen's sample: both terminals, the discrepancy counts, the signal (R123, R124). -/
def Lichen.sample (l : Lichen) (b : Blocks) (i : Nat) (rA rB : Bool) : Lichen :=
  let w := b.tpg.window
  let own := fun c => match b.tpoOf c i, w with
    | some k, some j => k == j
    | _, _ => false
  let kind := b.lioKind i
  let ta := l.a.sample rA (own .a) w.isSome kind (b.blankLen i) (b.filterLen i)
  let tb := l.b.sample (rB != (kind == 2)) (own .b) w.isSome kind (b.blankLen i) (b.filterLen i)
  let differ := ta.out != tb.out
  let sig := ta.out && tb.out && !l.lock
  { l with
    a := ta, b := tb
    prevA := l.discA, prevB := l.discB
    discA := if differ then l.discA + 1 else 0
    discB := if differ then l.discB + 1 else 0
    fresh := l.fresh && !(ta.out && tb.out)
    sig := sig
    sigB := sig
    zeroSince := l.zeroSince || !sig }

/-- A locked lichen's filter outputs still differ (R126). -/
def Blocks.lockDiffers (b : Blocks) : Bool := b.lio.lichens.any fun x => x.2.lock && x.2.a.out != x.2.b.out

/-- Source 144 follows the locked lichens; its record names the first that differs. -/
def State.lockCond (s : State) : State :=
  s.cond 144 s.b.lockDiffers
    (mkw (((s.b.lio.lichens.find? fun x => x.2.lock && x.2.a.out != x.2.b.out).map (·.1)).getD 0))

/-- The channels in which a signal that was 1 is 0 now. -/
def Lichen.fallen (old new : Lichen) : List Ch := [Ch.a, .b].filter fun c => old.sigOf c && !(new.sigOf c)

/-- The signals that were 1 before and are 0 now trigger their interjections, in lichen order, each channel its own (R65). -/
def State.signalTriggers (before : Blocks) (s : State) : State :=
  forL (before.lio.lichens.filter fun x => !(x.2.fallen (s.b.lichen x.1)).isEmpty)
    (fun x s => s.trigger (x.2.fallen (s.b.lichen x.1)) x.1) s

/-- The signals that have changed are reference edges for the axes that name them (R162). -/
def State.signalEdges (before : Blocks) (s : State) : State :=
  forL (s.b.lio.lichens.filter fun x => x.2.signal != (before.lichen x.1).signal) (fun x s => s.reference x.1 x.2.signal) s

/-- What follows from the signals as they are now, against those before. -/
def State.signalsMoved (before : Blocks) (s : State) : State := (s.signalEdges before).signalTriggers before

/-- The receiving channel `c` takes the missing value as 0 for this sample, and its discrepancy count stands still. -/
def Lichen.missed (l : Lichen) (c : Ch) : Lichen :=
  match c with
  | .a => { l with discA := l.prevA, sig := false, zeroSince := true }
  | .b => { l with discB := l.prevB, sigB := false, zeroSince := true }

/-- The values of this sample that a channel does not receive. -/
def State.exchange (c : Ch) (m : BitVec 48) (s : State) : State :=
  forL ((List.range 48).filter fun i => m.getLsbD i) (fun i s => s.onLichen i fun l => l.missed c) s

/-- Sampling of every used lichen, and the exchange of the filter outputs. Source 149 falls at the first sample of which every value
arrives; one whose misses a command reports afterwards counts as such a sample only when the next comes without a report. DEDUCED
(log 65). -/
def State.sampleLichens (p : Pins) (s : State) : State :=
  if s.b.resetting .lio then s
  else
    let used : BitVec 48 := forL s.b.usedLichens (fun i m => setb m i true) 0
    let miss := (p.missA ||| p.missB) &&& used
    let s1 := s.onLio fun l => { l with pinsA := p.sinA, pinsB := p.sinB, missed := false }
    let s2 := forL s.b.usedLichens
      (fun i s => s.onLichen i fun l => l.sample s.b i (p.sinA.getLsbD i) (p.sinB.getLsbD i)) s1
    let s3 := (s2.exchange .a (p.missA &&& used)).exchange .b (p.missB &&& used)
    let s4 := if miss ≠ 0 then s3.cond 149 true (mkw (((List.range 48).find? fun i => miss.getLsbD i).getD 0))
      else if s.b.lio.missed then s3 else s3.cond 149 false
    s4.lockCond.signalsMoved s.b

/-! ### Test-pulse outputs (R132) -/

/-- The terminals that expect a TPO take source 208 or 209 into their test-pulse fault. -/
def Lichen.tpoFault (l : Lichen) (b : Blocks) (i : Nat) (bad : BitVec 16) : Lichen :=
  let put := fun (c : Ch) (l : Lichen) =>
    match b.tpoOf c i with
    | some k =>
      let src := if k < 8 then 208 else 209
      if bad.getLsbD k ∧ ¬ (l.term c).tpf.contains src then l.onTerm c fun m => { m with tpf := src :: m.tpf } else l
    | none => l
  put .b (put .a l)

/-- The lowest set bit of a 16-bit map, for a record's detail. -/
def lowBit (v : BitVec 16) : Nat := ((List.range 16).find? fun k => v.getLsbD k).getD 0

/-- Every TPO's pin against its schedule: differences at two samples in a row, and a whole period without any. -/
def State.sampleTpos (p : Pins) (s : State) : State :=
  if s.b.resetting .tpg then s.onTpg fun g => { g with pins := p.tpo }
  else
    let g := s.b.tpg
    let d := p.tpo ^^^ g.on
    let bad := d &&& g.differs
    let groupA : BitVec 16 := 0x00FF
    let groupB : BitVec 16 := 0xFF00
    let s1 := s.onTpg fun g =>
      { g with
        pins := p.tpo, differs := d, fault := g.fault ||| bad
        lastBadA := if d &&& groupA = 0 then g.lastBadA else s.b.now
        lastBadB := if d &&& groupB = 0 then g.lastBadB else s.b.now }
    let s2 := if bad = 0 then s1
      else forL s.b.usedLichens (fun i s => s.onLichen i fun l => l.tpoFault s.b i bad) s1
    let step := fun (src : Nat) (grp : BitVec 16) (last : Nat) (s : State) =>
      if bad &&& grp ≠ 0 then s.cond src true (mkw (lowBit (bad &&& grp)))
      else if s.b.now ≥ last + s.b.tpgPeriod then s.cond src false
      else s
    step 209 groupB s2.b.tpg.lastBadB (step 208 groupA s2.b.tpg.lastBadA s2)

/-! ### Readbacks (R134 to R137) -/

/-- One channel of the output lichens at a sample: `rb` after polarity, `own` the pins read back internally. -/
def Stage.sampleSout (g : Stage) (b : Blocks) (c : Ch) (rb own : BitVec 16) : Stage :=
  let pins := b.pinSout c
  forN 16 (fun k g =>
    if b.img.soutUsed.getLsbD k then
      (if b.sys.captured then g.readback k (rb.getLsbD k) (pins.getLsbD k) (b.rbSuspended c k) b.now
       else { g with rb := setb g.rb k (rb.getLsbD k) }).pinCheck k (own.getLsbD k) (pins.getLsbD k)
    else { g with rb := setb g.rb k (rb.getLsbD k) }) g

/-- One channel of the STO lichens at a sample: the feedback is expected to be the inverse of the pin. -/
def Stage.sampleSto (g : Stage) (b : Blocks) (c : Ch) (fb own : BitVec 16) : Stage :=
  let pins := b.pinSto c
  forN 16 (fun k g =>
    if b.img.stoUsed.getLsbD k then
      (if b.sys.captured then g.readback k (fb.getLsbD k) (!pins.getLsbD k) false b.now
       else { g with rb := setb g.rb k (fb.getLsbD k) }).pinCheck k (own.getLsbD k) (pins.getLsbD k)
    else { g with rb := setb g.rb k (fb.getLsbD k) }) g

/-- The outputs in `v` and not in `old` take a lock due at the round close (R136). -/
def OutBlock.lockNew (o : OutBlock) (src : Nat) (old v : BitVec 16) : OutBlock :=
  forN 16 (fun k o => if v.getLsbD k && !old.getLsbD k then o.dueLock src k else o) o

/-- A condition source shared by the outputs of one channel: up while any has its difference in force, naming the lowest
new one and its zone. A further difference while it is up opens a round of its own, in which its lock takes effect (R134). -/
def State.outCond (src : Nat) (old v : BitVec 16) (zone : Nat → Nat) (s : State) : State :=
  let new := v &&& ~~~ old
  let k := lowBit (if new = 0 then v else new)
  if new ≠ 0 ∧ s.b.fcl.cause.getLsbD src then s.openRound else s.cond src (decide (v ≠ 0)) (mkw k) (some (zone k))

/-- The dark test under way sees its readback at 0 for the first time (R135). -/
def Dark.see (d : Dark) (k : Nat) (a b : Stage) (now : Nat) : Dark :=
  let rb := match d.active with
    | some .a => a.rb.getLsbD k
    | some .b => b.rb.getLsbD k
    | none => true
  if d.active.isSome && d.seenZero.isNone && !rb then { d with seenZero := some now } else d

/-- Readbacks of the output lichens at a sample. -/
def State.sampleOutputs (p : Pins) (s : State) : State :=
  if s.b.resetting .sog then s
  else
    let o := s.b.sog
    let a := o.a.sampleSout s.b .a (p.srbA ^^^ s.b.img.soutPolA) p.soutA
    let b := o.b.sampleSout s.b .b (p.srbB ^^^ s.b.img.soutPolB) p.soutB
    let s1 := s.onSog fun o =>
      (({ o with a := a, b := b, dark := nmapv o.dark {} fun k d => d.see k a b s.b.now }).lockNew 228 o.a.pinDiff
        a.pinDiff).lockNew 229 o.b.pinDiff b.pinDiff
    let z := s.b.soutZoneOf
    (((s1.outCond 228 o.a.pinDiff a.pinDiff z).outCond 229 o.b.pinDiff b.pinDiff z).outCond 224 o.a.diff a.diff z).outCond
      225 o.b.diff b.diff z

/-- Feedbacks of the STO lichens at a sample. -/
def State.sampleStos (p : Pins) (s : State) : State :=
  if s.b.resetting .sto then s
  else
    let o := s.b.sto
    let a := o.a.sampleSto s.b .a (p.stfA ^^^ s.b.img.stoPolA) p.stoA
    let b := o.b.sampleSto s.b .b (p.stfB ^^^ s.b.img.stoPolB) p.stoB
    let s1 := s.onSto fun o =>
      (({ o with a := a, b := b }).lockNew 260 o.a.pinDiff a.pinDiff).lockNew 261 o.b.pinDiff b.pinDiff
    let z := s.b.stoZoneOf
    (((s1.outCond 260 o.a.pinDiff a.pinDiff z).outCond 261 o.b.pinDiff b.pinDiff z).outCond 256 o.a.diff a.diff z).outCond
      257 o.b.diff b.diff z

/-- The error pins as read back (R316). -/
def State.sampleErr (p : Pins) (s : State) : State := s.checkErrPins p.errA p.errB

/-- One sampling instant (R121): while the image runs, lichens, test-pulse outputs and readbacks, in that order. -/
def State.sampling (p : Pins) (s : State) : State :=
  if s.b.running then ((((s.sampleLichens p).sampleTpos p).sampleOutputs p).sampleStos p).sampleErr p else s

/-! ### Exchange and discrepancy (R123, R124, R126) -/

/-- A value of the last sample has not arrived within 500 ns. -/
def State.exchangeMissed (c : Ch) (i : Nat) (s : State) : State :=
  if s.b.running && !s.b.resetting .lio && s.b.lioKind i != 0 then
    (((s.onLio fun l => { l with missed := true }).onLichen i fun l => l.missed c).cond 149 true (mkw i)).signalsMoved s.b
  else s

def execLichenExchangeMissed (t : Nat) (ch : Ch) (i : Fin 48) (s : State) : Host.Outcome State Fault Refusal :=
  .next ((s.tick t).exchangeMissed ch i.val)

/-- A channel's discrepancy count has reached T: lock-out and source 144. -/
def State.discrepancy (i : Nat) (s : State) : State :=
  let l := s.b.lichen i
  if s.b.running && !s.b.resetting .lio && s.b.lioKind i != 0 && !l.lock &&
      decide (s.b.discSamples i ≤ max l.discA l.discB) && decide (0 < max l.discA l.discB) then
    ((s.onLichen i fun l => { l with lock := true, sig := false, sigB := false, zeroSince := true }).cond 144 true (mkw i)).signalsMoved
      s.b
  else s

def execDiscrepancyTimeout (t : Nat) (i : Fin 48) (s : State) : Host.Outcome State Fault Refusal :=
  .next ((s.tick t).discrepancy i.val)

/-- The pair restarts in the both-safe state (R126, R131, R140). Its verdict history and count stay. -/
def Lichen.restart (l : Lichen) : Lichen :=
  let t := fun (m : Term) => { m with zeroRun := 0, run := 0, out := false }
  { l with a := t l.a, b := t l.b, discA := 0, discB := 0, prevA := 0, prevB := 0, fresh := true, sig := false
           sigB := false, zeroSince := true }

/-- A lichen's first-use state (R140): everything but its statistics. A test-pulse fault ends with it, though its source may
still be latched. DESIGN CHOICE (log 62). -/
def Lichen.firstUse (l : Lichen) : Lichen := { bad := l.bad }

/-- A clear of source 144 ends the lock-outs (R126). -/
def State.cleared144 (s : State) : State :=
  s.onLio fun l =>
    { l with lichens := nmapv l.lichens {} fun _ x => if x.lock && x.a.out == x.b.out then { x with lock := false }.restart else x }

/-- A clear of a test-pulse source ends its part of every test-pulse fault; a pair whose terminal leaves the fault restarts
(R131, R132). -/
def Lichen.clearTpf (l : Lichen) (src : Nat) : Lichen :=
  let f := fun (m : Term) => { m with tpf := m.tpf.filter (· != src), tpfLive := m.tpfLive.filter (· != src) }
  let l1 := { l with a := f l.a, b := f l.b }
  if (l.a.tpf.contains src && l1.a.tpf.isEmpty) || (l.b.tpf.contains src && l1.b.tpf.isEmpty) then l1.restart else l1

def State.clearedTpf (src : Nat) (s : State) : State :=
  (s.onLio fun l => { l with lichens := nmapv l.lichens {} fun _ x => x.clearTpf src }).onTpg fun g =>
    if src = 208 then { g with fault := g.fault &&& 0xFF00 }
    else if src = 209 then { g with fault := g.fault &&& 0x00FF } else g

/-! ### Test pulses and verdicts (R127, R130, R131) -/

/-- A new period (R130, R131): foreign and good periods are counted, and live bits fall after two good ones. -/
def Term.newPeriod (m : Term) : Term :=
  let good := if m.badNow then 0 else min (m.good + 1) 2
  { m with
    foreign := if m.foreignNow then m.foreign else 0
    foreignNow := false
    badNow := false
    good := good
    tpfLive := if good ≥ 2 then [] else m.tpfLive }

/-- A mask window begins: the sample before it is remembered. -/
def Term.windowStart (m : Term) : Term :=
  { m with pre := m.raw, any0 := false, run0 := 0, two0 := false, tracking := true }

/-- Put a source into a terminal's test-pulse fault. -/
def Term.fault (m : Term) (src : Nat) : Term :=
  { m with
    tpf := if m.tpf.contains src then m.tpf else src :: m.tpf
    tpfLive := if m.tpfLive.contains src then m.tpfLive else src :: m.tpfLive
    good := 0 }

/-- The verdict at the end of the terminal's own window. -/
def Term.ownVerdict (m : Term) (src : Nat) : Term × Bool :=
  if !m.tracking then (m, false)
  else
    let m := { m with ownSeen := true }
    if !m.pre then (m, false)
    else if m.two0 then ({ m with missing := 0 }, false)
    else
      let m1 := { m with missing := min (m.missing + 1) 2, badNow := true }
      (if m1.missing ≥ 2 then m1.fault src else m1, true)

/-- The verdict at the end of another TPO's window. -/
def Term.foreignVerdict (m : Term) (src : Nat) : Term × Bool :=
  if m.tracking && m.ownSeen && m.pre && m.any0 && m.raw then
    let m1 :=
      { m with foreign := if m.foreignNow then m.foreign else min (m.foreign + 1) 2, foreignNow := true, badNow := true }
    (if m1.foreign ≥ 2 then m1.fault src else m1, true)
  else (m, false)

/-- One terminal's verdict at the end of TPO k's window. A terminal that names no TPO takes none, of another's pulses either.
DESIGN CHOICE (log 62). -/
def Term.verdict (m : Term) (own : Option Nat) (k : Nat) (c : Ch) : Term × Bool :=
  match own with
  | none => (m, false)
  | some j =>
    if j = k then m.ownVerdict (match c with | .a => 145 | .b => 146)
    else m.foreignVerdict (match c with | .a => 147 | .b => 148)

/-- Both terminals' verdicts, counted in LIO_CNTi. -/
def Lichen.verdicts (l : Lichen) (b : Blocks) (i k : Nat) : Lichen :=
  let ra := l.a.verdict (b.tpoOf .a i) k .a
  let rb := l.b.verdict (b.tpoOf .b i) k .b
  let n := b2n ra.2 + b2n rb.2
  { l with a := { ra.1 with tracking := false }, b := { rb.1 with tracking := false }
           bad := if n = 0 then l.bad else l.bad.inc n }

/-- Whether a terminal keeps one of sources 145 to 148 live. -/
def Lichen.keeps (l : Lichen) (src : Nat) : Bool := l.a.tpfLive.contains src || l.b.tpfLive.contains src

/-- Sources 145 to 148 follow the terminals; `k` is the TPO whose window the verdicts came from. -/
def State.tpfConds (k : Nat) (s : State) : State :=
  forL [145, 146, 147, 148] (fun src s =>
    let i := ((s.b.lio.lichens.find? fun x => x.2.keeps src).map (·.1)).getD 0
    s.cond src (s.b.lio.lichens.any fun x => x.2.keeps src) (mkw (if src ≥ 147 then pl k 8 4 + i else i))) s

/-- Change every used lichen; a LIO block reset leaves them alone. -/
def State.eachLichen (f : Blocks → Nat → Lichen → Lichen) (s : State) : State :=
  if s.b.resetting .lio then s else forL s.b.usedLichens (fun i s => s.onLichen i (f s.b i)) s

/-- Pulses run: the image runs and the TPG is not in reset. -/
def Blocks.pulsing (b : Blocks) : Bool := b.running && !b.resetting .tpg

/-- A TPO's pulse width and the settle time in ns. -/
def Blocks.tpoWidth (b : Blocks) (k : Nat) : Nat := fld (b.set (pTPG + 0x800 + 4 * k)) 8 0 * 1000
def Blocks.tpgSettle (b : Blocks) : Nat := fld (b.set (pTPG + 0x108)) 4 0 * 2000

/-- When the schedule's periods count from, once TPO `k` pulses now: the first pulse after a start stands at its own offset. -/
def Blocks.periodStart (b : Blocks) (k : Nat) : Nat := b.tpg.periodAt.getD (b.now - 1000 * b.tpoOffset k)

/-- Now lies in TPO `k`'s slot: its mask window in the period, first instant included, last one only where `ends`. DEDUCED (log
65). -/
def Blocks.inSlot (b : Blocks) (k : Nat) (ends : Bool) : Bool :=
  let o := (b.now - b.periodStart k) % b.tpgPeriod
  let x := 1000 * b.tpoOffset k
  decide (x ≤ o) && decide (o < x + b.tpoWidth k + b.tpgSettle + b2n ends)

/-- A pulse begins or ends outside its slot: source 210 (TPO0 to TPO7) or 211. -/
def State.slotCheck (k : Nat) (ends : Bool) (s : State) : State :=
  if s.b.inSlot k ends then s else s.raise (if k < 8 then 210 else 211) (mkw k)

/-- TPO k's pulse begins, and its mask window with it; the first enabled TPO's pulse begins a period. -/
def State.pulseStart (k : Nat) (s : State) : State :=
  if s.b.pulsing && s.b.tpoEnabled.getLsbD k then
    let s0 := if s.b.firstTpo = some k then
        ((s.eachLichen fun _ _ l => { l with a := l.a.newPeriod, b := l.b.newPeriod })).tpfConds k
      else s
    ((s0.eachLichen fun _ _ l => { l with a := l.a.windowStart, b := l.b.windowStart }).slotCheck k false).onTpg fun g =>
      { g with on := setb g.on k false, window := some k, periodAt := some (s.b.periodStart k), pulseAt := s.b.now }
  else s

/-- TPO k's pulse ends, once it has lasted its width. -/
def State.pulseEnd (k : Nat) (s : State) : State :=
  if s.b.pulsing && s.b.tpoEnabled.getLsbD k && !(s.b.tpg.on.getLsbD k) && decide (s.b.now ≥ s.b.tpg.pulseAt + s.b.tpoWidth k) then
    (s.slotCheck k true).onTpg fun g => { g with on := setb g.on k true }
  else s

/-- TPO k's mask window ends, the settle time after its pulse, and the verdicts are taken. -/
def State.windowEnd (k : Nat) (s : State) : State :=
  if s.b.pulsing && s.b.tpg.window == some k && decide (s.b.now ≥ s.b.tpg.pulseAt + s.b.tpoWidth k + s.b.tpgSettle) then
    ((s.eachLichen fun b i l => l.verdicts b i k).tpfConds k).onTpg fun g => { g with window := none }
  else s

def execTestPulseStart (t : Nat) (k : Fin 16) (s : State) : Host.Outcome State Fault Refusal :=
  .next ((s.tick t).pulseStart k.val)

def execTestPulseEnd (t : Nat) (k : Fin 16) (s : State) : Host.Outcome State Fault Refusal :=
  .next ((s.tick t).pulseEnd k.val)

def execMaskWindowEnd (t : Nat) (k : Fin 16) (s : State) : Host.Outcome State Fault Refusal :=
  .next ((s.tick t).windowEnd k.val)

/-! ### Readback times and dark tests (R134 to R137) -/

/-- A difference that has lasted longer than `limit` is in force. -/
def Stage.overdue (g : Stage) (k now limit : Nat) : Bool :=
  match nget g.diffAt k none with
  | some t0 => decide (now > t0 + limit) && !g.diff.getLsbD k
  | none => false

/-- An output's readback has differed for longer than t_rb. -/
def State.readbackTimeout (c : Ch) (k : Nat) (s : State) : State :=
  let g := s.b.sog.stage c
  let src := match c with | .a => 224 | .b => 225
  if s.b.running && !s.b.resetting .sog && g.overdue k s.b.now (s.b.tRb k) then
    (s.onSog fun o => (o.onStage c fun g => { g with diff := setb g.diff k true }).dueLock src k).outCond src g.diff
      (setb g.diff k true) s.b.soutZoneOf
  else s

def execReadbackTimeout (t : Nat) (ch : Ch) (k : Fin 16) (s : State) : Host.Outcome State Fault Refusal :=
  .next ((s.tick t).readbackTimeout ch k.val)

/-- An STO feedback has differed for longer than t_stf. -/
def State.feedbackTimeout (c : Ch) (k : Nat) (s : State) : State :=
  let g := s.b.sto.stage c
  let src := match c with | .a => 256 | .b => 257
  if s.b.running && !s.b.resetting .sto && g.overdue k s.b.now (s.b.tStf k) then
    (s.onSto fun o => (o.onStage c fun g => { g with diff := setb g.diff k true }).dueLock src k).outCond src g.diff
      (setb g.diff k true) s.b.stoZoneOf
  else s

def execStoFeedbackTimeout (t : Nat) (ch : Ch) (k : Fin 16) (s : State) : Host.Outcome State Fault Refusal :=
  .next ((s.tick t).feedbackTimeout ch k.val)

def State.onDark (k : Nat) (f : Dark → Dark) (s : State) : State :=
  s.onSog fun o => { o with dark := nupd o.dark k {} f }

/-- Output `k`'s test falls now: at k × period / 16 within a dark period, up to the next sampling instant. -/
def Blocks.darkDue (b : Blocks) (k : Nat) : Bool :=
  let o := b.sog.gridAt + k * b.darkPeriod / 16
  decide (o ≤ b.now) && decide ((b.now - o) % b.darkPeriod < 2000)

/-- A dark test may begin: enabled, not dry, committed 1 and nothing holding the pins, at the output's instant within a dark
period, the first one dark period after the first commit of 1. Dark periods count from the instant at which the block was last
put in its first-use state. DEDUCED (log 65). -/
def Blocks.darkMay (b : Blocks) (k : Nat) : Bool :=
  let d := nget b.sog.dark k {}
  b.darkEn k && !b.darkBlocked k && d.active.isNone && b.darkDue k &&
    (match d.firstOne with
     | some t0 => decide (b.now ≥ t0 + b.darkPeriod)
     | none => false)

/-- A dark test begins on the switch whose turn it is. -/
def State.darkStart (k : Nat) (s : State) : State :=
  if s.b.darkMay k then s.onDark k fun d => { d with active := some d.next, start := s.b.now, seenZero := none } else s

def execDarkTestStart (t : Nat) (k : Fin 16) (s : State) : Host.Outcome State Fault Refusal :=
  .next ((s.tick t).darkStart k.val)

/-- The pulse is over: 10 microseconds after the readback was first seen at 0, or at the dark width. -/
def Blocks.darkOver (b : Blocks) (k : Nat) : Bool :=
  let d := nget b.sog.dark k {}
  d.active.isSome &&
    (decide (b.now ≥ d.start + b.darkWidth k) ||
      (match d.seenZero with
       | some z => decide (b.now ≥ z + 10000)
       | none => false))

/-- The test's verdict for switch `c`: passed if 0 was seen. -/
def Dark.finish (d : Dark) (c : Ch) (now : Nat) : Dark :=
  let ok := d.seenZero.isSome
  match c with
  | .a => { d with active := none, seenZero := none, next := .b, endA := some now, missA := if ok then 0 else min (d.missA + 1) 2 }
  | .b => { d with active := none, seenZero := none, next := .a, endB := some now, missB := if ok then 0 else min (d.missB + 1) 2 }

def Dark.misses (d : Dark) : Ch → Nat
  | .a => d.missA
  | .b => d.missB

/-- The dark pulse ends; two failures of one switch in a row raise source 226 or 227 and lock the output. -/
def State.darkEnd (k : Nat) (s : State) : State :=
  if s.b.darkOver k then
    match (nget s.b.sog.dark k {}).active with
    | none => s
    | some c =>
      let s1 := s.onDark k fun d => d.finish c s.b.now
      let src := match c with | .a => 226 | .b => 227
      if (nget s1.b.sog.dark k {}).misses c ≥ 2 && (nget s.b.sog.dark k {}).seenZero.isNone then
        (s1.onSog fun o => o.dueLock src k).raise src (mkw k) (some (s.b.soutZoneOf k))
      else s1
  else s

def execDarkPulseEnd (t : Nat) (k : Fin 16) (s : State) : Host.Outcome State Fault Refusal :=
  .next ((s.tick t).darkEnd k.val)

/-! ### LIO_CTR_CLEAR and first use -/

def State.lioCtrClear (w : Word) (s : State) : State × Nat :=
  (if w.getLsbD 0 then
    s.onLio fun l => { l with lichens := nmapv l.lichens {} fun _ x => { x with bad := {} } }
   else s, rDone)

def execLioCtrClear (t : Nat) (rd : Reader) (w : Word) (s : State) : Host.Outcome State Fault Refusal :=
  .next ((s.tick t).wt rd pLIO (wTok w) (State.lioCtrClear w))

/-- Every lichen in its first-use state: signals that were 1 fall and trigger (R138, R140). -/
def State.lioFirstUse (s : State) : State :=
  (((s.onLio fun l => { l with lichens := nmapv l.lichens {} fun _ x => x.firstUse, missed := false }).cond 144 false).cond
    149 false).signalsMoved s.b

/-- The test-pulse generator in its first-use state: every enabled TPO on, every other off; missing and foreign counts
restart, a test-pulse fault stays (R138, R140). -/
def State.tpgFirstUse (s : State) : State :=
  (s.onTpg fun g => { g with on := s.b.tpoEnabled, window := none, periodAt := none, differs := 0 }).onLio fun l =>
    { l with lichens := nmapv l.lichens {} fun _ x =>
        let f := fun (m : Term) =>
          { m with missing := 0, foreign := 0, foreignNow := false, badNow := false, good := 0, tracking := false
                   ownSeen := false }
        { x with a := f x.a, b := f x.b } }

/-- An output block in its first-use state: pins 0 until a commit of 1, checks and dark tests anew; locks stay. -/
def OutBlock.firstUse (o : OutBlock) (now : Nat) : OutBlock :=
  { committed := 0, gridAt := now, lockBy := o.lockBy, unlocking := o.unlocking, lockDue := o.lockDue, faultHold := o.faultHold
    a := { hold := o.a.hold, holdAt := o.a.holdAt, rb := o.a.rb }
    b := { hold := o.b.hold, holdAt := o.b.holdAt, rb := o.b.rb } }

/-! ### Pages (R147 to R150) -/

/-- A 64-bit map over the lichens, word `i`. -/
def Blocks.lichenBits (b : Blocks) (i : Nat) (f : Lichen → Bool) : Word :=
  forL b.lio.lichens (fun x w => if x.1 / 32 = i ∧ f x.2 then setb w (x.1 % 32) true else w) (0 : Word)

def viewCh (v : RView) : Ch := if v.bView then .b else .a

/-- LIO_STATUS. -/
def Blocks.lioStatus (b : Blocks) : Word :=
  let any := fun (f : Lichen → Bool) => b.lio.lichens.any fun x => f x.2
  mkw (pl (b2n (any fun l => !l.a.tpf.isEmpty || !l.b.tpf.isEmpty)) 4 1 + pl (b2n (any (·.lock))) 3 1 +
    pl (b2n (any fun l => decide (l.discA > 0) || decide (l.discB > 0))) 2 1 + pl (b2n b.cfg.image.isSome) 1 1 +
    pl (b2n (b.running && !b.resetting .lio)) 0 1)

/-- LIO_STATEi. Its bit sig is the signal as formed in the viewed channel at the captured instant; LIO_SIG shows what the capture
took, safe-holding included. DESIGN CHOICE (log 62). -/
def Lichen.stateWord (l : Lichen) (c : Ch) : Word :=
  mkw (pl (sat (max l.discA l.discB / 50) 16) 16 16 + pl (b2n (l.sigOf c)) 15 1 + pl (b2n l.a.out) 14 1 + pl (b2n l.b.out) 13 1 +
    pl (b2n (l.a.out != l.b.out)) 12 1 + pl (b2n l.lock) 11 1 + pl (b2n (!l.a.tpf.isEmpty)) 10 1 +
    pl (b2n (!l.b.tpf.isEmpty)) 9 1 + pl (b2n l.fresh) 8 1)

/-- The LIO page from 0x100. -/
def readLio (v : RView) (off : Nat) : Word :=
  let c := viewCh v
  let pins := match c with | .a => v.live.lio.pinsA | .b => v.live.lio.pinsB
  match off with
  | 0x100 => v.rosCap Blocks.lioStatus
  | 0x104 => v.rosCap fun b => wordOf b.lio.captured 0
  | 0x108 => v.rosCap fun b => wordOf b.lio.captured 1
  | 0x10C => wordOf pins 0
  | 0x110 => wordOf pins 1
  | 0x114 => v.rosCap fun b => b.lichenBits 0 fun l => (l.term c).out
  | 0x118 => v.rosCap fun b => b.lichenBits 1 fun l => (l.term c).out
  | 0x11C => v.rosCap fun b => b.lichenBits 0 fun l => decide (l.discA > 0) || decide (l.discB > 0)
  | 0x120 => v.rosCap fun b => b.lichenBits 1 fun l => decide (l.discA > 0) || decide (l.discB > 0)
  | 0x124 => v.rosCap fun b => b.lichenBits 0 (·.lock)
  | 0x128 => v.rosCap fun b => b.lichenBits 1 (·.lock)
  | 0x12C => v.rosCap fun b => b.lichenBits 0 fun l => !(l.term c).tpf.isEmpty
  | 0x130 => v.rosCap fun b => b.lichenBits 1 fun l => !(l.term c).tpf.isEmpty
  | _ =>
    if off < 0x800 ∨ off ≥ 0xB00 then 0
    else
      let i := (off - 0x800) / 16
      match off % 16 with
      | 0 => v.live.rwsRead (pLIO + off)
      | 4 => v.live.rwsRead (pLIO + off)
      | 8 => v.rosCap fun b => if b.lioKind i = 0 then 0 else (b.lichen i).stateWord c
      | _ => (v.live.lichen i).bad.word

/-- The TPG page from 0x100. -/
def readTpg (v : RView) (off : Nat) : Word :=
  match off with
  | 0x100 => v.rosCap fun b =>
      mkw (pl b.tpoCount 3 5 + pl (b2n (b.pulsing && decide (b.tpoEnabled &&& 0xFF00 ≠ 0))) 2 1 +
        pl (b2n (b.pulsing && decide (b.tpoEnabled &&& 0x00FF ≠ 0))) 1 1 + pl (b2n b.cfg.image.isSome) 0 1)
  | 0x104 => v.live.rwsRead (pTPG + 0x104)
  | 0x108 => v.live.rwsRead (pTPG + 0x108)
  | 0x10C => v.live.rwsRead (pTPG + 0x10C)
  | 0x110 => wordOf v.live.tpg.pins 0
  | 0x114 => v.rosCap fun b => wordOf b.tpg.fault 0
  | _ =>
    if 0x800 ≤ off ∧ off < 0x840 then v.live.rwsRead (pTPG + off)
    else if 0x840 ≤ off ∧ off < 0x880 then
      (if v.live.cfg.image.isSome then mkw (v.live.tpoOffset ((off - 0x840) / 4)) else 0)
    else 0

/-- A source is latched (R309). -/
def Blocks.latched (b : Blocks) (i : Nat) : Bool := b.fcl.a.latch.getLsbD i

/-- Where a snapshot's output states come from: the capture, or for an abandoned sentence its publish, as actually driven (R58). -/
def Snapshot.driven (p : Snapshot) : Blocks := if p.safe then p.pub else p.cap

/-- The values a snapshot shows as committed: of an abandoned sentence the pins as driven. -/
def Snapshot.sogCmd (p : Snapshot) (c : Ch) : BitVec 16 := if p.safe then p.pub.pinSout c else p.pub.sog.committed
def Snapshot.stoCmd (p : Snapshot) (c : Ch) : BitVec 16 := if p.safe then p.pub.pinSto c else p.pub.sto.committed

/-- SOG_STATEk as captured, its pin and hold from the blocks `d`. -/
def Blocks.sogState (b d : Blocks) (c : Ch) (k : Nat) : Nat :=
  let g := b.sog.stage c
  let by_ := fun src => (nget b.sog.lockBy src 0).getLsbD k && b.latched src
  pl (b.soutZoneOf k) 27 5 + pl (b2n ((d.pinSout c).getLsbD k)) 14 1 + pl (b2n (g.rb.getLsbD k)) 13 1 +
    pl (b2n ((d.sog.stage c).hold.getLsbD k)) 12 1 + pl (b2n (b.sog.locked.getLsbD k)) 11 1 + pl (b2n (by_ 224 || by_ 225)) 10 1 +
    pl (b2n (by_ 226 || by_ 227)) 9 1 + pl ((nget b.sog.dark k {}).misses c) 7 2

/-- STO_STATEk as captured, its pin and hold from the blocks `d`. -/
def Blocks.stoState (b d : Blocks) (c : Ch) (k : Nat) : Nat :=
  let g := b.sto.stage c
  let by_ := fun src => (nget b.sto.lockBy src 0).getLsbD k && b.latched src
  pl (b.stoZoneOf k) 27 5 + pl (b2n ((d.pinSto c).getLsbD k)) 14 1 + pl (b2n (g.rb.getLsbD k)) 13 1 +
    pl (b2n ((d.sto.stage c).hold.getLsbD k)) 12 1 + pl (b2n (b.sto.locked.getLsbD k)) 11 1 + pl (b2n (by_ 256 || by_ 257)) 10 1

/-- A summary of an output block: lock, dark failures, readback differences pending, driving. -/
def OutBlock.status (o : OutBlock) (dark : Bool) (committed : BitVec 16) : Word :=
  mkw (pl (b2n (decide (o.locked ≠ 0))) 3 1 +
    pl (b2n (dark && o.dark.any fun x => decide (x.2.missA > 0) || decide (x.2.missB > 0))) 2 1 +
    pl (b2n (decide (o.a.diff ||| o.b.diff ≠ 0) || o.a.diffAt.any (·.2.isSome) || o.b.diffAt.any (·.2.isSome))) 1 1 +
    pl (b2n (decide (committed ≠ 0))) 0 1)

/-- The zone bits stand whether or not a sentence is published (reset "image"). -/
def RView.rosZone (v : RView) (zone : Nat) (f : Snapshot → Word) : Word :=
  match v.snap with
  | some p => f p
  | none => mkw (pl zone 27 5)

/-- The SOG page from 0x100. -/
def readSog (v : RView) (off : Nat) : Word :=
  let c := viewCh v
  let o := v.live.sog
  match off with
  | 0x100 => match v.snap with | some p => p.cap.sog.status true (p.sogCmd c) | none => 0
  | 0x104 => match v.snap with | some p => wordOf (p.sogCmd c) 0 | none => 0
  | 0x108 => wordOf (v.live.pinSout c) 0
  | 0x10C => wordOf (o.stage c).rb 0
  | 0x110 => wordOf (o.stage c).hold 0
  | 0x114 => v.rosCap fun b => wordOf (bits16 b.sogOk) 0
  | 0x118 => v.rosCap fun b => wordOf b.sog.locked 0
  | 0x11C => match v.live.cfg.image with
      | some im => wordOf (match c with | .a => im.soutPolA | .b => im.soutPolB) 0
      | none => 0
  | 0x120 => v.live.rwsRead (pSOG + 0x120)
  | _ =>
    if off < 0x800 ∨ off ≥ 0x880 then 0
    else
      let k := (off - 0x800) / 8
      if off % 8 = 0 then v.live.rwsRead (pSOG + off)
      else v.rosZone (v.live.soutZoneOf k) fun p =>
        mkw (p.cap.sogState p.driven c k + pl (b2n ((p.sogCmd c).getLsbD k)) 15 1)

/-- The STO page from 0x100. -/
def readSto (v : RView) (off : Nat) : Word :=
  let c := viewCh v
  let o := v.live.sto
  match off with
  | 0x100 => match v.snap with | some p => p.cap.sto.status false (p.stoCmd c) | none => 0
  | 0x104 => match v.snap with | some p => wordOf (p.stoCmd c) 0 | none => 0
  | 0x108 => wordOf (v.live.pinSto c) 0
  | 0x10C => wordOf (o.stage c).rb 0
  | 0x110 => wordOf (o.stage c).hold 0
  | 0x114 => v.rosCap fun b => wordOf (bits16 b.stoOk) 0
  | 0x118 => v.rosCap fun b => wordOf b.sto.locked 0
  | 0x11C => match v.live.cfg.image with
      | some im => wordOf (match c with | .a => im.stoPolA | .b => im.stoPolB) 0
      | none => 0
  | _ =>
    if off < 0x800 ∨ off ≥ 0x880 then 0
    else
      let k := (off - 0x800) / 8
      if off % 8 = 0 then v.live.rwsRead (pSTO + off)
      else v.rosZone (v.live.stoZoneOf k) fun p =>
        mkw (p.cap.stoState p.driven c k + pl (b2n ((p.stoCmd c).getLsbD k)) 15 1)

end Sys2Proof.Machine
end

