-- ==== Sys2Proof/Machine/Namespace.lean ====
section
/-! DEFINITION. The namespace of the fabric (R76 to R81): hub sources, constants and core-fed words as captured, clause
outputs as evaluated, and the safe value of every entry (R29, R78, R87). -/

namespace Sys2Proof.Machine

/-! ### Health entries (R78) -/

/-- Entries 3,080 to 3,113 and 3,584 to 4,095. -/
def Blocks.healthBit (b : Blocks) (x : Nat) : Bool :=
  if x < 3112 then !b.zoneStopped (x - 3080)
  else if x = 3112 then !b.haltNow
  else if x = 3113 then b.live
  else !b.fcl.a.live.getLsbD (x - 3584) && !b.fcl.a.latch.getLsbD (x - 3584)

/-- The trigger entries that a collector round sets (R113): zone, cell and source healthy. -/
def isHealth (x : Nat) : Bool := inRanges [(3080, 3112), (3584, 4095)] x

/-- Entry 3,072 + m: the lower of both channels' pace, valid once each has completed a window (R19). -/
def Blocks.paceWord (b : Blocks) (m : Nat) : NV :=
  if nget b.pwr.lows m 0 ≠ 0 ∧ nget b.pwr.lows (8 + m) 0 ≠ 0 then
    .num (min (nget b.pwr.paces m 0) (nget b.pwr.paces (8 + m) 0) : Nat) true
  else {}

/-! ### Hub sources (R78, R79) -/

/-- The numeric words among the axis and separation words, whose safe values an image may replace (R29, R163, R205). -/
def measuredEntry (x : Nat) : Bool :=
  if 128 ≤ x ∧ x < 640 then ([0, 1, 2, 3, 4, 12, 20, 21] : List Nat).contains ((x - 128) % 32)
  else decide (640 ≤ x) && decide (x < 768) && ([0, 1, 2, 7, 8, 9, 10] : List Nat).contains ((x - 640) % 32)

/-- The safe value of an axis or separation word: the image's where it replaces the table's. -/
def Blocks.measuredSafe (b : Blocks) (x : Nat) : BitVec 20 :=
  let own := if x < 640 then axSafe ((x - 128) % 32) else sepSafe ((x - 640) % 32)
  if measuredEntry x then nget b.img.safes x own else own

/-- An axis or separation word as the fabrics capture it: invalid, it evaluates as the safe value in force. -/
def Blocks.measured (b : Blocks) (x : Nat) (v : NV) : NV := if v.ok then v else { val := b.measuredSafe x, ok := false }

/-- Hub source `x`, from the blocks as captured. -/
def Blocks.hubSource (b : Blocks) (x : Nat) : NV :=
  if x < 48 then .ofBool (b.lio.captured.getLsbD x)
  else if x < 64 then .ofBool (b.sogOk (x - 48))
  else if x < 80 then .ofBool (b.stoOk (x - 64))
  else if x < 88 then b.ainWord (x - 80)
  else if x < 128 then {}
  else if x < 640 then b.measured x ((b.axis ((x - 128) / 32)).word ((x - 128) % 32))
  else if x < 768 then b.measured x ((b.chain ((x - 640) / 32)).word ((x - 640) % 32))
  else if x < 1024 then {}
  else if x < 3072 then b.consField ((x - 1024) / 16) ((x - 1024) % 16)
  else if x < 3080 then b.paceWord (x - 3072)
  else if x < 3114 ∨ 3584 ≤ x then .ofBool (b.healthBit x)
  else {}

/-! ### Constants and core-fed words (R80, R81) -/

/-- The pair whose range holds core-fed word `w`. -/
def Blocks.cfwPair (b : Blocks) (w : Nat) : Option Nat :=
  (List.range 4).find? fun k => decide ((b.pairCfg k).cfwBase ≤ w) && decide (w < (b.pairCfg k).cfwBase + (b.pairCfg k).cfwCount)

/-- Core-fed word `w`: as last released, its safe value while it is invalid. -/
def Blocks.coreFed (b : Blocks) (w : Nat) : NV :=
  let v := match b.cfwPair w with
    | some k => nget (b.pairOf k).cfw (w - (b.pairCfg k).cfwBase) {}
    | none => {}
  if v.ok then v else { val := nget b.img.safes (24576 + w) 0, ok := false }

/-- An entry that the fabric does not write, in true sense. -/
def Blocks.inputWord (b : Blocks) (x : Nat) : NV :=
  if x < 4096 then b.hubSource x
  else if 20480 ≤ x ∧ x < 24576 then nget b.img.constsA (x - 20480) {}
  else if 24576 ≤ x ∧ x < 26624 then b.coreFed (x - 24576)
  else {}

/-- Entry `x` belongs to the fabric: the output of clause x − 4,096. -/
def isClause (x : Nat) : Bool := decide (4096 ≤ x) && decide (x < 20480)

/-- Entry `x` as a channel holds it: its own constant store, the complement of every other input in channel B (R79, R80), and
its own clause outputs `m`. -/
def Blocks.heldWord (b : Blocks) (c : Ch) (m : NMap NV) (x : Nat) : NV :=
  if isClause x then nget m x (NV.held c {})
  else if 20480 ≤ x ∧ x < 24576 then
    (match c with
     | .a => nget b.img.constsA (x - 20480) {}
     | .b => nget b.img.constsB (x - 20480) (NV.conj {}))
  else (b.inputWord x).held c

/-! ### Safe values (R29, R87) -/

/-- The safe value of an entry that is not a clause output. -/
def Blocks.inputSafe (b : Blocks) (x : Nat) : BitVec 20 :=
  if 80 ≤ x ∧ x < 88 ∨ 24576 ≤ x ∧ x < 26624 then nget b.img.safes x 0
  else if 128 ≤ x ∧ x < 768 then b.measuredSafe x
  else if 1024 ≤ x ∧ x < 3072 then
    match b.consCfg ((x - 1024) / 16) with
    | some c => ((c.fields.find? fun f => f.f == (x - 1024) % 16).bind (·.safe)).getD 0
    | none => 0
  else 0

end Sys2Proof.Machine

namespace Sys2Proof

/-- A channel's clause table by clause number (R14, R92). -/
def Image.tableIn (im : Image) (c : Ch) : NMap (BitVec 128) :=
  match c with
  | .a => im.clausesA.foldl (fun m x => Machine.nput m x.1 x.2) []
  | .b => im.clausesB.foldl (fun m x => Machine.nput m x.1 x.2) []

/-- Channel A's clause table. -/
def Image.table (im : Image) : NMap (BitVec 128) := im.tableIn .a

/-- The levels of R84. -/
def Image.level (im : Image) (c : Nat) : Nat := Machine.nget im.levels c 0

/-- A channel's clauses in the order of R107: by level, and within a level by number. -/
def Image.orderIn (im : Image) (c : Ch) : List (Nat × BitVec 128) :=
  (List.range 128).flatMap fun l => (im.tableIn c).filter fun x => im.level x.1 == l

/-- The order of R107, with channel A's clause words. -/
def Image.order (im : Image) : List (Nat × BitVec 128) := im.orderIn .a

end Sys2Proof

namespace Sys2Proof.Machine

/-- The operators whose output may be numeric: MIN to SEL. -/
def numericOp (op : Nat) : Bool := decide (0x0C ≤ op) && decide (op ≤ 0x11)

/-- The safe value of operand `x`, as a word: a constant's own value, valid; any other entry's safe value, invalid. -/
def Blocks.safeOperand (b : Blocks) (m : NMap (BitVec 20)) (x : Nat) : NV :=
  if isClause x then { val := nget m x 0, ok := false }
  else if 20480 ≤ x ∧ x < 24576 then nget b.img.constsA (x - 20480) {}
  else { val := b.inputSafe x, ok := false }

/-- The safe value of every clause output (R87). -/
def Blocks.clauseSafes (b : Blocks) : NMap (BitVec 20) :=
  forL b.img.order (fun x m =>
    if numericOp (clauseOp x.2) then
      nset m (4096 + x.1)
        (evalOp (clauseOp x.2) (clauseParam x.2) ((clauseRefs x.2).map (·.map (b.safeOperand m))) 0 0 {}).1.val 0
    else m) []

/-- The safe value of any entry. -/
def Blocks.safeWord (b : Blocks) (x : Nat) : NV := b.safeOperand b.clauseSafes x

/-! ### The namespace of a snapshot (R58, R63) -/

def Fab.channel (f : Fab) : Ch → FabCh
  | .a => f.a
  | .b => f.b

/-- Whether an index names an entry at all (R76, R78). -/
def usedIndex (x : Nat) : Bool :=
  !inRanges [(88, 127), (768, 1023), (3114, 3583)] x && decide (x < 26624)

/-- Entry `x` of the sentence shown, as channel `c` holds it. A clause output of an abandoned sentence is at its safe value,
invalid (R58). -/
def Snapshot.held (p : Snapshot) (c : Ch) (x : Nat) : NV :=
  if isClause x then
    if p.safe then NV.held c { (p.cap.safeWord x) with ok := false } else p.cap.heldWord c (p.pub.fab.channel c).values x
  else p.cap.heldWord c [] x

/-- The same in true sense. -/
def Snapshot.entry (p : Snapshot) (c : Ch) (x : Nat) : NV :=
  match c with
  | .a => p.held .a x
  | .b => (p.held .b x).conj

/-- What a view of the namespace shows (R34): the word as its channel holds it; 0 and invalid for "no operand" and reserved
indices. -/
def Snapshot.shows (p : Snapshot) (c : Ch) (x : Nat) : NV := if usedIndex x then p.held c x else {}

/-- What a read window shows (R283): the channel's copy in true sense. -/
def Snapshot.windowWord (p : Snapshot) (c : Ch) (x : Nat) : NV := if usedIndex x then p.entry c x else {}

end Sys2Proof.Machine
end

