-- ==== Sys2Proof/Machine/BulkFrames.lean ====
section
/-! DEFINITION. Bulk safe frames (R239 to R241, R186, R187): segments, assemblies, the whole-frame check, and the sensor
frame they carry. -/

namespace Sys2Proof.Machine

/-! ### Segments (R239) -/

/-- Data bytes of every segment but the last. -/
def segData : Nat := 8968

/-- Segments of a payload of `l` bytes and its CRC-64. -/
def segCount (l : Nat) : Nat := (l + 8 + segData - 1) / segData

/-- Data bytes of segment `i` of a payload of `l` bytes. -/
def segLen (l i : Nat) : Nat := if i + 1 < segCount l then segData else l + 8 - segData * (segCount l - 1)

/-- A segment's format is good for a bulk session: as long as `total` says, or padded up to the Ethernet minimum. -/
def segFormat (bs : List Byte) : Bool :=
  let l := beAt bs 24 4
  let i := beAt bs 18 2
  bs.getD 0 0 == 1 && bs.getD 1 0 == 2 && decide ((bs.getD 16 0).toNat < 8) && bs.getD 17 0 == 0 && decide (beAt bs 22 2 = 0) &&
    decide (32 ≤ l) && decide (l ≤ 786464) && decide (beAt bs 20 2 = segCount l) && decide (i < segCount l) &&
    (decide (bs.length = 28 + segLen l i + 4) || decide (28 + segLen l i + 4 < bs.length ∧ bs.length ≤ 46))

/-- A segment's own check (R237). -/
def segCheck (c : ConsCfg) (receiver : BitVec 64) (bs : List Byte) : Bool :=
  let n := 28 + segLen (beAt bs 24 4) (beAt bs 18 2)
  crc32c (virtualHeader c.id c.gen receiver ++ bs.take n) == BitVec.ofNat 32 (beAt bs n 4)

/-! ### Assemblies (R241) -/

/-- The assembly a segment opens. -/
def openAsm (bs : List Byte) : Assembly :=
  { alive := beAt bs 4 2, stamp := beAt bs 8 8, flags := bs.getD 16 0, echo := beAt bs 6 2, total := beAt bs 24 4
    count := beAt bs 20 2, parts := [] }

/-- The assembly with a segment's data; a second copy of an index changes nothing. -/
def Assembly.join (a : Assembly) (bs : List Byte) : Assembly :=
  let i := beAt bs 18 2
  if (nget a.parts i []).isEmpty then { a with parts := nset a.parts i (bytesAt bs 28 (segLen a.total i)) [] } else a

/-- Every index is present. -/
def Assembly.complete (a : Assembly) : Bool := (List.range a.count).all fun i => !(nget a.parts i []).isEmpty

/-- The stream of a complete assembly: payload, then CRC-64. -/
def Assembly.stream (a : Assembly) : List Byte := (List.range a.count).flatMap fun i => nget a.parts i []

/-- The whole-frame check (R240). -/
def Assembly.checked (a : Assembly) (c : ConsCfg) (receiver : BitVec 64) : Bool :=
  crc64 (virtualHeader c.id c.gen receiver ++ beBytes a.alive 2 ++ beBytes a.stamp 8 ++ beBytes a.total 4 ++
      a.stream.take a.total) ==
    BitVec.ofNat 64 (beAt a.stream a.total 8)

/-- What a complete assembly says as a frame. -/
def Assembly.head (a : Assembly) (id : Nat) : FrameHead :=
  { id := id, alive := a.alive, echo := a.echo, stamp := a.stamp, setup := a.flags.getLsbD 0, timeValid := a.flags.getLsbD 1
    echoValid := a.flags.getLsbD 2 }

/-- A byte of the payload, where its segment is held. -/
def Assembly.byteAt (a : Assembly) (o : Nat) : Option Byte := (nget a.parts (o / segData) [])[o % segData]?

/-- A point's coordinate at a byte offset. -/
def Assembly.coord (a : Assembly) (o : Nat) : Option Int :=
  match a.byteAt o, a.byteAt (o + 1) with
  | some x, some y => some (signedOf (beNat [x, y]) 2)
  | _, _ => none

/-- The points whose segments are held, "no point" entries dropped (R186). -/
def Assembly.points (a : Assembly) : List Vec :=
  (List.range ((a.total - 32) / 6)).filterMap fun i =>
    match a.coord (32 + 6 * i), a.coord (34 + 6 * i), a.coord (36 + 6 * i) with
    | some x, some y, some z => if x = -32768 then none else some (x, y, z)
    | _, _, _ => none

/-! ### One channel's part of a segment -/

/-- What a channel makes of a segment: the session, its assembly afterwards, whether an open one was abandoned, its decision
where it has one, the frame decided on, and the name of a bulk frame refused before it was whole. -/
structure BulkStep where
  session : Option (Nat × ConsCfg) := none
  asm : Option Assembly := none
  abandoned : Bool := false
  decision : Option Decision := none
  frame : Option Assembly := none
  gone : Option (Nat × Nat) := none
deriving DecidableEq, Repr

/-- A channel's open assembly of a session. -/
def Blocks.asmOf (b : Blocks) (ch : Ch) (slot : Nat) : Option Assembly :=
  match ch with
  | .a => nget b.sfr.asmA slot none
  | .b => nget b.sfr.asmB slot none

/-- An assembly after a segment: complete, it is decided on; otherwise it waits. -/
def Blocks.bulkJoin (b : Blocks) (ch : Ch) (slot : Nat) (c : ConsCfg) (bs : List Byte) (a : Assembly) (abandoned : Bool) :
    BulkStep :=
  let x := a.join bs
  if x.complete then
    { session := some (slot, c), asm := none, abandoned := abandoned, frame := some x
      decision := some (if x.checked c b.img.cellId then b.decision ch c (b.consOf slot) (x.head c.id) else .crc) }
  else { session := some (slot, c), asm := some x, abandoned := abandoned }

/-- What names the bulk frame a segment belongs to: alive counter and stamp. -/
def bulkName (bs : List Byte) : Nat × Nat := (beAt bs 4 2, beAt bs 8 8)

/-- A bulk frame whose segments are discarded: one refused as a whole, or stamped before the newest step (R241, R255). -/
def Blocks.bulkGone (b : Blocks) (slot : Nat) (bs : List Byte) : Bool :=
  nget b.sfr.asmRefused slot none == some (bulkName bs)

/-- A channel's part of a segment. A segment that is newer by more than max_skip starts its assembly anew, without source 424; one
that is older joins nothing. DESIGN CHOICE (log 39). -/
def Blocks.bulkStep (b : Blocks) (ch : Ch) (bs : List Byte) : BulkStep :=
  match b.consById (beAt bs 2 2) with
  | none => { decision := some .format }
  | some (slot, c) =>
    if !c.bulk || !segFormat bs then { decision := some .format }
    else if b.bulkGone slot bs then { session := some (slot, c), asm := b.asmOf ch slot }
    else if !segCheck c b.img.cellId bs then
      { session := some (slot, c), decision := some .crc, gone := some (bulkName bs)
        asm := match b.asmOf ch slot with
          | some a => if a.alive = beAt bs 4 2 then none else some a
          | none => none }
    else if b.stepped && decide (stampDiff (beAt bs 8 8) b.tsy.stepCell < 0) && (bs.getD 16 0).getLsbD 1 then
      { session := some (slot, c), decision := some .staleStep, gone := some (bulkName bs), asm := b.asmOf ch slot }
    else
      match b.asmOf ch slot with
      | none => b.bulkJoin ch slot c bs (openAsm bs) false
      | some a =>
        let d := (beAt bs 4 2 + 65536 - a.alive) % 65536
        if d = 0 then
          if a.stamp = beAt bs 8 8 ∧ a.total = beAt bs 24 4 then b.bulkJoin ch slot c bs a false
          else { decision := some .format, session := some (slot, c), asm := some a }
        else if d ≤ c.maxSkip then b.bulkJoin ch slot c bs (openAsm bs) true
        else if d < 32768 ∨ (b.consOf slot).state = 1 then b.bulkJoin ch slot c bs (openAsm bs) false
        else { session := some (slot, c), asm := some a }

/-! ### Both channels -/

/-- The sensor that a slot feeds. -/
def Blocks.sensorOf (b : Blocks) (slot : Nat) : Option Nat := b.sensorsOn.find? fun s => fld (b.snsSet s) 30 24 == slot

/-- Both channels' assemblies of a session, and the receive stores of its sensor (R187). -/
def State.setAsm (slot : Nat) (x y : Option Assembly) (s : State) : State :=
  let s1 := s.onSfr fun r => { r with asmA := nset r.asmA slot x none, asmB := nset r.asmB slot y none }
  match s.b.grid, s.b.sensorOf slot with
  | some g, some k =>
    s1.onSensor k fun z =>
      { z with
        recvA := match x with
          | some a => a.points.filterMap fun p => g.cellOf p 1
          | none => []
        recvB := match y with
          | some a => a.points.filterMap g.fineOf
          | none => [] }
  | _, _ => s1

/-- The content of a sensor frame is valid (R186). -/
def Assembly.contentOk (a : Assembly) : Bool :=
  let n := beAt a.stream 4 4
  decide (beAt a.stream 0 2 = 1) && decide (n ≤ 131072) && decide (a.total = 32 + 6 * n)

/-- A refused frame counts for its sensor. -/
def State.refuseSensor (slot : Nat) (s : State) : State :=
  match s.b.sensorOf slot with
  | some k => s.onSensor k fun x => { x with refused := x.refused.inc }
  | none => s

/-- The decisions that refuse a frame, against a duplicate, which is discarded. -/
def Decision.refuses (d : Decision) : Bool := d != .accept && d != .duplicate

/-- One decision of both channels on a whole bulk frame. -/
def State.bulkAct (slot : Nat) (c : ConsCfg) (d : Decision) (f : Option Assembly) (s : State) : State :=
  match d, f with
  | .accept, some a =>
    if a.contentOk then
      let g : Grid := s.b.grid.getD {}
      let s1 := s.actOn slot c (a.head c.id) [] .accept
      match s.b.sensorOf slot with
      | some k =>
        (s1.onSensor k fun x => { x with recvA := a.points.filterMap fun p => g.cellOf p 1, recvB := a.points.filterMap g.fineOf })
          |>.acceptSensor k (beAt a.stream 4 4) ((a.stream.getD 3 0).getLsbD 0) ((a.stream.getD 3 0).getLsbD 1)
      | none => s1
    else
      ((s.onCons slot fun r => { r with refused := r.refused.inc }).refuseSensor slot).raise 355
        (mkw ((s.b.sensorOf slot).getD 0))
  | d, f =>
    let s1 := s.actOn slot c ((f.map fun a => a.head c.id).getD (frameHead [])) [] d
    if d.refuses then s1.refuseSensor slot else s1

/-- A bulk frame is refused as a whole: its other segments are discarded. -/
def State.refuseBulk (slot : Nat) (gone : Option (Nat × Nat)) (s : State) : State :=
  match gone with
  | some a => s.onSfr fun r => { r with asmRefused := nset r.asmRefused slot (some a) none }
  | none => s

/-- A segment as each channel received it (R241, R244). -/
def State.receiveBulk (bsA bsB : List Byte) (s : State) : State :=
  if s.b.resetting .sfr || !s.b.running then s
  else
    let x := s.b.bulkStep .a bsA
    let y := s.b.bulkStep .b bsB
    if x.decision ≠ y.decision ∨ x.session.map (·.1) ≠ y.session.map (·.1) then
      let slot := ((x.session.orElse fun _ => y.session).map (·.1)).getD 0
      (((s.setAsm slot none none).refuseBulk slot (some (bulkName bsA))).refuseSensor slot).raise 425 (sessWord slot)
    else
      match x.session with
      | none => s.actOn 0 { id := 0 } (frameHead bsA) [] .format
      | some (slot, c) =>
        let s1 := (s.setAsm slot x.asm y.asm).refuseBulk slot x.gone
        let s2 := if x.abandoned || y.abandoned then (s1.refuseSensor slot).raise 424 (sessWord slot) else s1
        match x.decision with
        | some d => s2.bulkAct slot c d x.frame
        | none => s2

def execBulkSegmentReceived (t : Nat) (bytesA bytesB : List Byte) (s : State) : Host.Outcome State Fault Refusal :=
  .next ((s.tick t).receiveBulk bytesA bytesB)

end Sys2Proof.Machine
end

