-- ==== Sys2Proof/Machine/Backbone.lean ====
section
/-! DEFINITION. The commands of the backbone and of cell time (R211 to R229): frames, links, gate changes, the management
endpoint's answers, 802.1AS messages, cell-time start, slew, steps and mapping, and the NET, PORT and TSY pages. -/

namespace Sys2Proof.Machine

/-! ### Frames, links, ageing, gates -/

/-- A frame that a port itself discards: PAUSE, or a length out of range (R212, R213). -/
def badFrame (f : EthFrame) : Bool := f.etype == 0x8808 || decide (f.length > 9216) || decide (f.length < 64)

/-- A frame received on a port enters the switch. -/
def State.frameIn (p : Nat) (f : EthFrame) (s : State) : State :=
  if !s.b.netOn || !s.b.portUp p then s
  else if p = 6 then (if badFrame f then s else s.forward 6 f)
  else
    let s1 := s.onPort p fun x => { x with rx := x.rx.inc }
    if badFrame f then s1.onPort p fun x => { x with rxErr := x.rxErr.inc } else s1.forward p f

/-- A safe frame that has arrived at port 6 (R235): each channel takes its copy. -/
def State.deliverSafe (f : EthFrame) (s : State) : State :=
  if f.etype ≠ s.b.netCfg.etype then s
  else if f.payload.getD 1 0 = 2 then s.receiveBulk f.payload f.payload
  else s.receiveData f.payload f.payload

/-- A frame received on a port: switched, and what it brings to port 6 is delivered to SFR. -/
def State.frameReceive (p : Nat) (f : EthFrame) (s : State) : State :=
  let s1 := s.frameIn p f
  let new := s1.b.net.sentOut.take (s1.b.net.sentOut.length - s.b.net.sentOut.length)
  forL ((new.filter fun x => x.1 == 6).map (·.2)) State.deliverSafe s1

def execFrameReceive (t : Nat) (p : Fin 7) (f : EthFrame) (s : State) : Host.Outcome State Fault Refusal :=
  .next ((s.tick t).frameReceive p.val f)

/-- The PHY code of a rate (R211). -/
def rateCode (r : Nat) : Nat := if r = 1000 then 1 else if r = 2500 then 2 else if r = 5000 then 3 else if r = 10000 then 4 else 0

/-- A port may come up at a rate: its PHY type's, or one of the advertised types' under auto-negotiation (R211). -/
def Blocks.rateFits (b : Blocks) (p rate : Nat) : Bool :=
  let m := b.portMode p
  let k := rateCode rate
  decide (k ≠ 0) && (if fld m 30 28 = 7 then m.getLsbD (23 + k) else decide (fld m 30 28 = k))

/-- BASE-R FEC on a link (R211): on the two fastest types alone, as PORT_MODE.fec asks or as negotiated. -/
def Blocks.fecFor (b : Blocks) (p rate : Nat) (negotiated : Bool) : Bool :=
  decide (3 ≤ rateCode rate) && (if fld (b.portMode p) 30 28 = 7 then negotiated else (b.portMode p).getLsbD 23)

/-- A link comes up at one of its PHY types, and what waits at the port goes on. -/
def State.linkUp (p rate : Nat) (fec : Bool) (s : State) : State :=
  if s.b.portEn p && s.b.rateFits p rate then
    (s.onPort p fun x => { x with up := true, rateNow := rate, fecOn := s.b.fecFor p rate fec }).drainPort p
  else s

def execLinkUp (t : Nat) (p : Fin 6) (rate : Nat) (fec : Bool) (s : State) : Host.Outcome State Fault Refusal :=
  .next ((s.tick t).linkUp p.val rate fec)


/-- A learned entry that has reached its ageing time is removed. -/
def State.fdbAge (v : Nat) (mac : BitVec 48) (s : State) : State :=
  s.onNet fun n =>
    { n with fdb := n.fdb.filter fun e =>
        !(e.vlan == v && e.mac == mac && decide (s.b.now ≥ e.at_ + s.b.netCfg.ageingS * 1000000000)) }

def execFdbAgeing (t : Nat) (vlan : Nat) (mac : BitVec 48) (s : State) : Host.Outcome State Fault Refusal :=
  .next ((s.tick t).fdbAge vlan mac)

/-- A port's gate list moves, and the port sends what its gates now let go (R216). -/
def State.gateMove (p : Nat) (s : State) : State :=
  if s.b.netOn then
    (s.onPort p fun x => x.setGate (x.gate.move (nget s.b.netCfg.gcl p {}) s.b.tsy.cellValid s.b.cellNs)).drainPort p
  else s

def execGateEntryChange (t : Nat) (p : Fin 6) (s : State) : Host.Outcome State Fault Refusal :=
  .next ((s.tick t).gateMove p.val)

/-- A stream gate moves (R218). -/
def State.streamGateMove (g : Nat) (s : State) : State :=
  if s.b.netOn then
    s.onNet fun n =>
      { n with gates := nupd n.gates g {} fun x => x.move (nget s.b.netCfg.streamGates g {}) s.b.tsy.cellValid s.b.cellNs }
  else s

def execStreamGateChange (t : Nat) (g : Fin 64) (s : State) : Host.Outcome State Fault Refusal :=
  .next ((s.tick t).streamGateMove g.val)

/-- Cell time has become invalid: every gate is open (R217). -/
def State.gatesOpen (s : State) : State := forN 64 State.streamGateMove (forN 6 State.gateMove s)

/-- Every running list holds at a step; lists that do not run start from the stepped time (R217). -/
def Net.stepGates (n : Net) (cell : Nat) : Net :=
  { n with
    ports := forL [0, 1, 2, 3, 4, 5] (fun p m => nupd m p {} fun x => x.setGate (x.gate.step cell)) n.ports
    gates := forN 64 (fun g m => nupd m g {} fun x => x.step cell) n.gates }

/-- A member stream has been silent for a whole reset time while another delivered: source 394 (R219). -/
def State.cbSilent (k member : Nat) (s : State) : State :=
  let c := nget s.b.netCfg.cb k {}
  let st := nget s.b.net.cb k {}
  let late := fun m => decide (s.b.now ≥ nget st.memberAt m 0 + c.resetMs * 1000000)
  if s.b.netOn && c.recover && c.members.contains member && late member && c.members.any (fun m => m != member && !late m) then
    s.raise 394 (mkw k)
  else s

def execCbResetTimeout (t : Nat) (stream : Fin 256) (member : Nat) (s : State) : Host.Outcome State Fault Refusal :=
  .next ((s.tick t).cbSilent stream.val member)

/-- A lane's error rate rises above 10^-9: source 397. -/
def execLaneErrorRateHigh (t : Nat) (p : Fin 6) (s : State) : Host.Outcome State Fault Refusal :=
  .next ((s.tick t).raise 397 (mkw p.val))

/-! ### The management endpoint's answers (R212) -/

/-- The ones' complement sum of 16-bit words, as the Internet checksum takes it. -/
def inetSum (bs : List Byte) : Nat :=
  let n := (List.range ((bs.length + 1) / 2)).foldl (fun a i => a + beAt bs (2 * i) 2) 0
  let f := fun n => n % 65536 + n / 65536
  65535 - f (f n)

/-- A frame of the management endpoint. -/
def Blocks.endpointFrame (b : Blocks) (dst : BitVec 48) (etype : Nat) (payload : List Byte) : EthFrame :=
  { dst := dst, src := b.baseMac, etype := etype, payload := payload, length := max 64 (payload.length + 18) }

/-- ARP for the endpoint's address is answered. -/
def State.arpAnswer (sender : BitVec 32) (senderMac : BitVec 48) (target : BitVec 32) (s : State) : State :=
  if s.b.running && target == s.b.netCfg.ipv4 then
    s.handPort6 (s.b.endpointFrame senderMac 0x0806
      ([0, 1, 8, 0, 6, 4, 0, 2] ++ beBytes s.b.baseMac.toNat 6 ++ beBytes target.toNat 4 ++ beBytes senderMac.toNat 6 ++
        beBytes sender.toNat 4))
  else s

def execArpRequest (t : Nat) (sender : BitVec 32) (senderMac : BitVec 48) (target : BitVec 32) (s : State) :
    Host.Outcome State Fault Refusal :=
  .next ((s.tick t).arpAnswer sender senderMac target)

/-- An ICMPv6 message with its checksum over the pseudo-header, in an IPv6 packet. -/
def icmp6 (src dst : BitVec 128) (head body : List Byte) : List Byte :=
  let n := head.length + 2 + body.length
  let pseudo := beBytes src.toNat 16 ++ beBytes dst.toNat 16 ++ beBytes n 4 ++ [0, 0, 0, 58]
  let sum := inetSum (pseudo ++ head ++ [0, 0] ++ body)
  [0x60, 0, 0, 0] ++ beBytes n 2 ++ [58, 255] ++ beBytes src.toNat 16 ++ beBytes dst.toNat 16 ++ head ++ beBytes sum 2 ++ body

/-- A neighbour solicitation for the endpoint's address is answered by an advertisement. -/
def State.neighbourAnswer (sender : BitVec 128) (senderMac : BitVec 48) (target : BitVec 128) (s : State) : State :=
  if s.b.running && target == s.b.netCfg.ipv6 then
    s.handPort6 (s.b.endpointFrame senderMac 0x86DD
      (icmp6 target sender [136, 0] ([0x60, 0, 0, 0] ++ beBytes target.toNat 16 ++ [2, 1] ++ beBytes s.b.baseMac.toNat 6)))
  else s

def execNeighbourSolicitation (t : Nat) (sender : BitVec 128) (senderMac : BitVec 48) (target : BitVec 128) (s : State) :
    Host.Outcome State Fault Refusal :=
  .next ((s.tick t).neighbourAnswer sender senderMac target)

/-- An ICMP message in an IPv4 packet, both with their checksums. -/
def icmp4 (src dst : BitVec 32) (head body : List Byte) : List Byte :=
  let icmp := head ++ beBytes (inetSum (head ++ [0, 0] ++ body)) 2 ++ body
  let pre := [0x45, 0] ++ beBytes (20 + icmp.length) 2 ++ [0, 0, 0, 0, 64, 1]
  let addrs := beBytes src.toNat 4 ++ beBytes dst.toNat 4
  pre ++ beBytes (inetSum (pre ++ [0, 0] ++ addrs)) 2 ++ addrs ++ icmp

/-- An echo request for the endpoint's address is answered; `data` is what follows the request's checksum. -/
def State.echoAnswer (sender target : Ip) (data : List Byte) (s : State) : State :=
  let answer := fun etype payload => s.handPort6 (s.b.endpointFrame (Config.neighbourMac sender) etype payload)
  match sender, target with
  | .v4 x, .v4 y => if s.b.running && y == s.b.netCfg.ipv4 then answer 0x0800 (icmp4 y x [0, 0] data) else s
  | .v6 x, .v6 y => if s.b.running && y == s.b.netCfg.ipv6 then answer 0x86DD (icmp6 y x [129, 0] data) else s
  | _, _ => s

def execIcmpEchoRequest (t : Nat) (sender target : Ip) (data : List Byte) (s : State) : Host.Outcome State Fault Refusal :=
  .next ((s.tick t).echoAnswer sender target data)

/-! ### 802.1AS: roles and messages (R220, R221) -/

/-- clockIdentity: the base address with 0xFFFE after its third byte. -/
def Blocks.clockId (b : Blocks) : BitVec 64 :=
  BitVec.ofNat 64 (b.baseMac.toNat / 2 ^ 24 * 2 ^ 40 + 0xFFFE * 2 ^ 24 + b.baseMac.toNat % 2 ^ 24)

/-- An image register, or what it is where the image does not state it. -/
def Blocks.regOr (b : Blocks) (addr : Nat) (d : Word) : Word :=
  match b.img.regs.find? fun x => x.1 == addr with
  | some x => x.2
  | none => d

/-- TSY_PRIO. -/
def Blocks.tsyPrio (b : Blocks) : Word := b.regOr (pTSY + 0x108) (mkw (128 + 128 * 256 + 248 * 65536 + 0xFE * 16777216))

/-- The hub's own priority vector. -/
def Blocks.ownAnnounce (b : Blocks) : Announce :=
  { priority1 := fld b.tsyPrio 7 0, clockClass := fld b.tsyPrio 23 16, accuracy := fld b.tsyPrio 31 24, variance := 0x436A
    priority2 := fld b.tsyPrio 15 8, gmId := b.clockId, steps := 0 }

/-- The order of the best master clock algorithm, the lesser the better. -/
def announceKey (m : Announce) : List Nat :=
  [m.priority1, m.clockClass, m.accuracy, m.variance, m.priority2, m.gmId.toNat, m.steps]

def betterThan (x y : Announce) : Bool := decide (announceKey x < announceKey y)

def Blocks.tsyRole (b : Blocks) : Nat := fld (b.set (pTSY + 0x104)) 31 30

/-- A port takes part in 802.1AS: it is up and its peer delay is within the threshold (asCapable). -/
def Blocks.asPort (b : Blocks) (p : Nat) : Bool := b.portUp p && (b.port p).asCapable

/-- The port whose Syncs a follower takes. -/
def Blocks.slaveNow (b : Blocks) : Option Nat :=
  match b.tsyRole with
  | 0 => none
  | 1 => if b.tsy.best.isSome then some b.tsy.bestPort else none
  | _ => b.netCfg.slavePort

/-- The vector the hub sends on its master ports: that of the grandmaster it follows, one step further away, or its own. -/
def Blocks.sentAnnounce (b : Blocks) : Announce :=
  match b.slaveNow.bind fun p => (b.port p).heard with
  | some m => { m with steps := m.steps + 1 }
  | none => b.ownAnnounce

/-- A port's role: 0 disabled, 1 master, 2 slave, 3 passive. Under the algorithm a port other than the slave port is passive where
the clock it hears is better than what the hub would send there; where they are equal it is master. PRESUMED (log 64). -/
def Blocks.portRole (b : Blocks) (p : Nat) : Nat :=
  if !b.asPort p then 0
  else if b.slaveNow == some p then 2
  else
    match b.tsyRole, (b.port p).heard with
    | 1, some m => if betterThan m b.sentAnnounce then 3 else 1
    | _, _ => 1

/-- Another grandmaster, known through port `p`: source 402. -/
def State.newGm (id : BitVec 64) (p : Nat) (s : State) : State :=
  if s.b.tsy.gm = id then s else (s.onTsy fun y => { y with gm := id }).raise 402 (mkw p)

/-- The algorithm's choice: cell time goes on from where it is (R221), and starts at the floor at the next capture where t_init
has gone by without a lock (R223). Another port or another grandmaster is followed anew. -/
def State.selectGm (best : Option Announce) (port : Nat) (s : State) : State :=
  let same := best.isSome && s.b.tsy.best.map (·.gmId) == best.map (·.gmId) && decide (s.b.tsy.bestPort = port)
  if same then s.onTsy fun y => { y with best := best }
  else
    (s.onTsy fun _ =>
      { s.b.cellSettled with
        best := best, bestPort := port, holdover := none, lastSync := s.b.now, locked := false, good := 0
        stepDue := if best.isNone then none else s.b.tsy.stepDue
        startDue := best.isNone && s.b.tsy.tInitGone && !s.b.tsy.cellValid }).newGm
      ((best.map (·.gmId)).getD s.b.clockId) port

/-- The best clock heard on a port that takes part, where it is better than the hub itself; the lower port on a tie. -/
def Blocks.elected (b : Blocks) : Option (Nat × Announce) :=
  forL [0, 1, 2, 3, 4, 5] (fun p x =>
    match (if b.asPort p then (b.port p).heard else none), x with
    | none, x => x
    | some m, none => if betterThan m b.ownAnnounce then some (p, m) else none
    | some m, some y => if betterThan m y.2 then some (p, m) else some y) none

/-- The best master clock algorithm (R221). -/
def State.bmca (s : State) : State :=
  match s.b.elected with
  | some (p, m) => s.selectGm (some m) p
  | none => if s.b.tsy.best.isNone then s else s.selectGm none s.b.tsy.bestPort

/-- A role comes into force; the hub goes on from its cell time (R221). -/
def State.takeRole (s : State) : State :=
  match s.b.tsyRole with
  | 0 => s.selectGm none s.b.tsy.bestPort
  | 1 =>
    match s.b.elected with
    | some (p, m) => s.selectGm (some m) p
    | none => s.selectGm none s.b.tsy.bestPort
  | _ =>
    let p := s.b.netCfg.slavePort.getD 0
    let s1 := s.onTsy fun _ =>
      { s.b.cellSettled with best := none, holdover := none, lastSync := s.b.now, locked := false, good := 0, startDue := false }
    match (s.b.port p).heard with
    | some m => s1.newGm m.gmId p
    | none => s1

/-- The first image after a start: a hub that is grandmaster names itself, which is no change of grandmaster. -/
def State.firstRole (s : State) : State :=
  if s.b.tsyRole < 2 ∧ s.b.tsy.gm = 0 then s.onTsy fun y => { y with gm := s.b.clockId } else s

/-- An Announce on a port. -/
def State.announce (p : Nat) (m : Announce) (s : State) : State :=
  if !s.b.running || !s.b.asPort p then s
  else
    match s.b.tsyRole with
    | 0 => (s.onTsy fun y => { y with announcesIgnored := y.announcesIgnored.inc }).raise 403 (mkw p)
    | 1 => (s.onPort p fun x => { x with heard := some m }).bmca
    | _ =>
      let s1 := s.onPort p fun x => { x with heard := some m }
      if s.b.netCfg.slavePort = some p then s1.newGm m.gmId p else s1

def execAnnounceReceived (t : Nat) (p : Fin 6) (m : Announce) (s : State) : Host.Outcome State Fault Refusal :=
  .next ((s.tick t).announce p.val m)

/-- An 802.1AS message on a port: its kind and what it carries. -/
def State.ptp (p : Nat) (kind : Byte) (body : List Byte) (s : State) : State :=
  s.sendOn p
    { dst := 0x0180C200000E, src := s.b.portMac p, etype := 0x88F7, payload := kind :: body, length := max 64 (body.length + 19) }

/-- Cell time as an 802.1AS timestamp: 48-bit seconds, 32-bit nanoseconds. -/
def Blocks.stampBytes (b : Blocks) : List Byte := beBytes b.cellSec 6 ++ beBytes b.cellNanos 4

/-- An enabled port's link goes down: source 384 + p. What was heard on it no longer counts for the algorithm. -/
def State.linkDown (p : Nat) (s : State) : State :=
  let s1 := s.onPort p fun x => { x with up := false, rateNow := 0, fecOn := false, asCapable := false, heard := none }
  let s2 := if s.b.running && decide (s.b.tsyRole = 1) then s1.bmca else s1
  if s.b.portEn p then s2.raise (384 + p) (mkw p) else s2

def execLinkDown (t : Nat) (p : Fin 6) (s : State) : Host.Outcome State Fault Refusal := .next ((s.tick t).linkDown p.val)

/-- A port's PHY setting has changed: a link that was up goes down. DEDUCED (log 62). -/
def State.portRestart (p : Nat) (s : State) : State := if (s.b.port p).up then s.linkDown p else s

/-- What a change of settings means for the ports and for cell time: a port whose PHY setting is another one than in `old`
restarts, and so does the time role. -/
def State.netRestart (old : Blocks) (s : State) : State :=
  let s1 := forN 6 (fun p s => if fld (s.b.portMode p) 31 23 = fld (old.portMode p) 31 23 then s else s.portRestart p) s
  if s1.b.tsyRole = old.tsyRole then s1 else s1.takeRole

/-- A peer delay request is answered: Pdelay_Resp with its receipt time, and its Follow_Up with the response's time. -/
def State.pdelayReq (p seq : Nat) (s : State) : State :=
  if s.b.running && s.b.portUp p then
    (s.ptp p 0x13 (beBytes seq 2 ++ s.b.stampBytes)).ptp p 0x1A (beBytes seq 2 ++ s.b.stampBytes)
  else s

def execPdelayReqReceived (t : Nat) (p : Fin 6) (seq : Nat) (s : State) : Host.Outcome State Fault Refusal :=
  .next ((s.tick t).pdelayReq p.val seq)

/-- neighborPropDelayThresh in ns: 800 where nothing is set. -/
def Blocks.propThresh (b : Blocks) : Int :=
  let v := fld (b.set (pTSY + 0x10C)) 23 16
  if v = 0 then 800 else v * 50

/-- A peer delay response gives the port's mean link delay: half of the round trip. -/
def State.pdelayResp (p t1 t2 t3 t4 : Nat) (s : State) : State :=
  if s.b.running && s.b.portUp p then
    let d : Int := ((t4 : Int) - t1) - ((t3 : Int) - t2)
    let half := if d % 2 = 0 then d / 2 else if Config.shownUp (pPORT p + 0x10C) (d / 2) then d / 2 + 1 else d / 2
    let s1 := s.onPort p fun x => { x with pdelay := half, asCapable := decide (half ≤ s.b.propThresh) }
    if s.b.tsyRole = 1 then s1.bmca else s1
  else s

def execPdelayRespReceived (t : Nat) (p : Fin 6) (t1 t2 t3 t4 : Nat) (s : State) : Host.Outcome State Fault Refusal :=
  .next ((s.tick t).pdelayResp p.val t1 t2 t3 t4)

/-- On a master port, Sync and its Follow_Up. -/
def State.syncSend (p : Nat) (s : State) : State :=
  if s.b.running && s.b.portRole p == 1 then (s.ptp p 0x10 []).ptp p 0x18 s.b.stampBytes else s

def execSyncInterval (t : Nat) (p : Fin 6) (s : State) : Host.Outcome State Fault Refusal := .next ((s.tick t).syncSend p.val)

/-- A peer delay request. -/
def execPdelayInterval (t : Nat) (p : Fin 6) (s : State) : Host.Outcome State Fault Refusal :=
  .next (if (s.tick t).b.running && (s.tick t).b.portUp p.val then (s.tick t).ptp p.val 0x12 [] else s.tick t)

/-- On a master port, an Announce of the grandmaster in force. -/
def State.announceSend (p : Nat) (s : State) : State :=
  if s.b.running && s.b.portRole p == 1 then
    let m := s.b.sentAnnounce
    s.ptp p 0x1B
      (beBytes m.priority1 1 ++ beBytes m.clockClass 1 ++ beBytes m.accuracy 1 ++ beBytes m.variance 2 ++
        beBytes m.priority2 1 ++ beBytes m.gmId.toNat 8 ++ beBytes m.steps 2)
  else s

def execAnnounceInterval (t : Nat) (p : Fin 6) (s : State) : Host.Outcome State Fault Refusal :=
  .next ((s.tick t).announceSend p.val)

/-! ### The follower (R226) -/

/-- step_thr in ns: 20 microseconds where nothing is set. -/
def Blocks.stepThr (b : Blocks) : Nat :=
  let v := fld (b.set (pTSY + 0x104)) 9 0
  if v = 0 then 20000 else v * 1000

/-- The offset of a Sync: the grandmaster's time at its receipt minus cell time. -/
def Blocks.syncOffset (b : Blocks) (p origin : Nat) : Int :=
  (origin : Int) + (b.port p).pdelay + nativeOf (b.set (pPORT p + 0x108)) - (b.cellFineNow / 1000000000 : Nat)

/-- A Sync with its Follow_Up: rate or step, lock, validity at the first lock. -/
def State.sync (p origin : Nat) (s : State) : State :=
  if !s.b.running || !s.b.asPort p || s.b.slaveNow != some p then s
  else
    let off := s.b.syncOffset p origin
    let y := s.b.cellSettled
    let steps := decide (off.natAbs > s.b.stepThr)
    let asked := Config.followRate y.trim off
    let good := if off.natAbs ≤ 1000 then min (y.good + 1) 4 else 0
    let first := decide (good ≥ 4) && !y.everLocked
    let s1 := s.onTsy fun _ =>
      { y with
        offset := off, lastSync := s.b.now, holdover := none, good := good, locked := decide (good ≥ 4)
        everLocked := y.everLocked || decide (good ≥ 4), cellValid := y.cellValid || first
        stepDue := if steps then some off else none
        trim := if steps then y.trim else clampI asked 250000 }
    let s2 := if first then s1.onNet fun n => n.stepGates (s1.b.cellFineNow / 1000000000) else s1
    if !steps && decide (asked.natAbs > 250000) then s2.raise 400 (mkw p) else s2

def execSyncReceived (t : Nat) (p : Fin 6) (origin : Nat) (s : State) : Host.Outcome State Fault Refusal :=
  .next ((s.tick t).sync p.val origin)

/-- The sync interval in ns: 2^logSyncInterval s, 62.5 ms where nothing is set. -/
def Blocks.syncIntervalNs (b : Blocks) : Nat := 1000000000 / 2 ^ ((16 - fld (b.set (pTSY + 0x10C)) 3 0) % 16)

/-- syncReceiptTimeout: 3 where nothing is set. -/
def Blocks.receiptCount (b : Blocks) : Nat :=
  if fld (b.set (pTSY + 0x10C)) 15 12 = 0 then 3 else fld (b.set (pTSY + 0x10C)) 15 12

/-- No Sync within the receipt timeout: source 399 and holdover at the last r. -/
def State.syncLost (s : State) : State :=
  if s.b.running && s.b.slaveNow.isSome && s.b.tsy.holdover.isNone &&
      decide (s.b.now ≥ s.b.tsy.lastSync + s.b.receiptCount * s.b.syncIntervalNs) then
    (s.onTsy fun y => { y with holdover := some s.b.now, locked := false, good := 0 }).raise 399 (mkw (s.b.slaveNow.getD 0))
  else s

def execSyncReceiptTimeout (t : Nat) (s : State) : Host.Outcome State Fault Refusal := .next (s.tick t).syncLost

/-- Cell time becomes invalid, and every gate opens. -/
def State.cellLost (s : State) : State :=
  (s.onTsy fun _ => { s.b.cellSettled with holdover := none, cellValid := false, mapped := false }).gatesOpen

/-- t_hold has passed: cell time becomes invalid, unless the algorithm, with the silent port's clock left out, makes the hub
grandmaster. -/
def State.holdoverEnd (s : State) : State :=
  match s.b.tsy.holdover with
  | none => s
  | some t0 =>
    if decide (s.b.now ≥ t0 + fld (s.b.set (pTSY + 0x110)) 31 26 * 1000000000) then
      if s.b.tsyRole = 1 then
        let s1 := (s.onPort s.b.tsy.bestPort fun x => { x with heard := none }).bmca
        if s1.b.isGm then s1 else s1.cellLost
      else s.cellLost
    else s

def execHoldoverTimeout (t : Nat) (s : State) : Host.Outcome State Fault Refusal := .next (s.tick t).holdoverEnd

/-! ### Cell time as grandmaster (R223, R224) -/

/-- The signed difference of two cell times in 64 bits, as a record gives it. -/
def signed64 (x : Int) : List Byte := beBytes (BitVec.ofInt 64 x).toNat 8

/-- Cell time starts at a value; gate lists start from it (R216). -/
def State.startCell (ns : Nat) (s : State) : State :=
  (s.onTsy fun y =>
      { y with cellValid := true, cellFine := ns * 1000000000, cellAt := s.b.now, adjLeft := 0, startDue := false }).onNet
    fun n => n.stepGates ns

/-- t_init in ns. -/
def Blocks.tInit (b : Blocks) : Nat :=
  if b.cfg.image.isSome then fld (b.set (pTSY + 0x110)) 25 16 * 1000000000 else 10000000000

/-- Cell time starts at the floor: source 404. -/
def State.startAtFloor (s : State) : State :=
  ((s.startCell s.b.tsy.floorCell).onTsy fun y => { y with floorStart := true }).raise 404 (mkw 0)

/-- t_init expires. -/
def State.tInitExpire (s : State) : State :=
  if s.b.tru.aRunning && decide (s.b.now ≥ s.b.pwr.fiddleEnd + s.b.tInit) && !s.b.tsy.tInitGone then
    let s1 := s.onTsy fun y => { y with tInitGone := true }
    if s.b.isGm && !s.b.tsy.cellValid then s1.startAtFloor else s1
  else s

def execTInitExpired (t : Nat) (s : State) : Host.Outcome State Fault Refusal := .next (s.tick t).tInitExpire

/-- The value of TSY_SET in ns. -/
def Blocks.tsySetNs (b : Blocks) : Nat :=
  (fld (b.rw (pTSY + 0x11C)) 15 0 * 2 ^ 32 + (b.rw (pTSY + 0x118)).toNat) * 1000000000 + (b.rw (pTSY + 0x114)).toNat

/-- t_init has expired in the round under way, and cell time started at the floor. -/
def Blocks.floorInRound (b : Blocks) : Bool := b.fcl.arrivals.any fun a => a.id == 404

/-- A set in that round wins (R229): source 404 is not raised. -/
def State.overFloor (s : State) : State :=
  if s.b.floorInRound then
    (s.onFcl fun f => { f with arrivals := f.arrivals.filter fun a => a.id != 404 }).onTsy fun y =>
      { y with cellValid := false, floorStart := false }
  else s

/-- TSY_CMD set. -/
def State.tsySetCmd (s : State) : State × Nat :=
  if !s.b.isGm || (s.b.tsy.cellValid && !s.b.floorInRound) then (s, rRefused)
  else if (s.b.rw (pTSY + 0x114)).toNat ≥ 1000000000 ∨ s.b.tsySetNs < s.b.tsy.floorCell then (s, rBadArg)
  else
    let old := s.overFloor.b.cellFineNow / 1000000000
    let s1 := s.overFloor.startCell s.b.tsySetNs
    (s1.record 0x07 (beBytes s.b.tsy.epoch 2 ++ signed64 ((s.b.tsySetNs : Int) - old)), rDone)

def execTsySet (t : Nat) (rd : Reader) (token : BitVec 16) (s : State) : Host.Outcome State Fault Refusal :=
  .next ((s.tick t).wt rd pTSY token State.tsySetCmd)

/-- TSY_CMD slew. -/
def State.tsySlewCmd (s : State) : State × Nat :=
  let v := (s.b.rw (pTSY + 0x120)).toInt
  if !s.b.isGm || !s.b.tsy.cellValid then (s, rRefused)
  else if v.natAbs > 1000000000 then (s, rBadArg)
  else (s.onTsy fun _ => { s.b.cellSettled with adjLeft := v * 1000000000 }, rDone)

def execTsySlew (t : Nat) (rd : Reader) (token : BitVec 16) (s : State) : Host.Outcome State Fault Refusal :=
  .next ((s.tick t).wt rd pTSY token State.tsySlewCmd)

/-- TSY_CMD cancel slew. -/
def State.tsyCancelCmd (s : State) : State × Nat := (s.onTsy fun _ => { s.b.cellSettled with adjLeft := 0 }, rDone)

def execTsyCancelSlew (t : Nat) (rd : Reader) (token : BitVec 16) (s : State) : Host.Outcome State Fault Refusal :=
  .next ((s.tick t).wt rd pTSY token State.tsyCancelCmd)

/-! ### At a capture (R225, R227, R228) -/

/-- The increment check: channel B's increment from its own ruler against what was generated, above 200 ns. -/
def Blocks.cellDiffers (b : Blocks) (dA dB : Nat) : Bool :=
  let inc : Int := (b.cellFineNow / 1000000000 : Nat) - b.tsy.cellAtCapture
  b.tsy.mapped && decide (dA > 0) && decide ((inc * ((dB : Int) - dA)).natAbs > 200 * dA)

/-- A step due is applied (R227). -/
def State.applyStep (tc : Nat) (s : State) : State :=
  match s.b.tsy.stepDue with
  | none => s
  | some off =>
    let old := s.b.cellFineNow
    let new := ((old : Int) + off * 1000000000).toNat
    let d : Int := (new / 1000000000 : Nat) - (old / 1000000000 : Nat)
    let e := (s.b.tsy.epoch + 1) % 65536
    let s1 := s.onTsy fun _ =>
      { s.b.cellSettled with
        cellFine := new, stepDue := none, epoch := e, stepTc := tc, stepSize := d, stepCell := new / 1000000000 }
    (((s1.onSfr Sfr.retime).onNet fun n => n.stepGates (new / 1000000000)).raise 401 (mkw (s.b.slaveNow.getD 0))).recordWith 0x07
      (beBytes e 2 ++ signed64 d) false (fun _ => true) 2

/-- Cell time at a capture: the increment check, a start or a step that is due, and the mapping of the sentence. -/
def State.tsyCapture (tcA tcB dA dB : Nat) (s : State) : State :=
  let s1 := if s.b.cellDiffers dA dB then s.raise 398 (mkw 0) else s
  let s2 := if s.b.tsy.startDue && s.b.isGm && !s.b.tsy.cellValid then s1.startAtFloor else s1
  let s3 := s2.applyStep tcA
  s3.onTsy fun _ =>
    let y := s3.b.cellSettled
    { y with
      mapped := y.cellValid, cellAtCapture := y.cellFine / 1000000000, rCapture := s3.b.rateNow, tcA := tcA, tcB := tcB }

/-! ### NET_CTR_CLEAR and first use -/

def State.netCtrClear (w : Word) (s : State) : State × Nat :=
  let s1 := if w.getLsbD 0 then
      s.onNet fun n =>
        { n with drop := {}, stomp := {}, bufPeak := 0, qci := []
                 cb := nmapv n.cb {} fun _ c => { c with passed := {}, disc := {}, rogue := {} } }
    else s
  (if w.getLsbD 1 then
    s1.onNet fun n => { n with ports := nmapv n.ports {} fun _ x => { x with rx := {}, tx := {}, rxErr := {}, qdrop := [] } }
   else s1, rDone)

def execNetCtrClear (t : Nat) (rd : Reader) (w : Word) (s : State) : Host.Outcome State Fault Refusal :=
  .next ((s.tick t).wt rd pNET (wTok w) (State.netCtrClear w))

/-- A NET block reset: frames in the buffer lost, learned entries cleared, redundancy, gates and meters anew; the counters
stay (R229). -/
def Net.firstUse (n : Net) (cell : Nat) : Net :=
  { n with
    ports := nmapv n.ports {} fun _ x =>
      { x with queued := [], gclRunning := false, gclEntry := 0, gclHold := false, gclSince := cell }
    fdb := [], qciBlocked := [], gates := forN 64 (fun g m => nset m g { since := cell } {}) [], meters := []
    cb := nmapv n.cb {} fun _ c => { passed := c.passed, disc := c.disc, rogue := c.rogue } }

/-- A clear of source 395 ends its first-discard memory (R218). -/
def State.cleared395 (s : State) : State := s.onNet fun n => { n with qciSeen := false }

/-! ### Pages (R232 to R234) -/

/-- KiB of the buffer in use. -/
def kib (n : Nat) : Nat := (n + 1023) / 1024

/-- The NET page from 0x100. -/
def readNet (v : RView) (off : Nat) : Word :=
  let n := v.live.net
  let c := nget n.cb (fld (v.live.own v.rd (pNET + 0x118)) 7 0) {}
  match off with
  | 0x100 => v.rosCap fun b =>
      mkw (pl (b2n b.net.cutThrough) 3 1 + pl (b2n (b.fcl.a.live.getLsbD 394)) 2 1 + pl (b2n (decide (b.bufBytes > 983040))) 1 1 +
        b2n b.netOn)
  | 0x104 => mkw (pl (kib v.live.bufBytes) 0 11 + pl (kib n.bufPeak) 16 11)
  | 0x108 => mkw (pl (n.fdb.length + v.live.netCfg.statics.length) 0 14)
  | 0x10C => n.drop.word
  | 0x110 => n.stomp.word
  | 0x118 => v.live.own v.rd (pNET + 0x118)
  | 0x11C => c.passed.word
  | 0x120 => c.disc.word
  | 0x124 => c.rogue.word
  | _ => if off ≥ 0x800 then (nget n.qci ((off - 0x800) / 4) {}).word else 0

/-- A PORT page from 0x100. -/
def readPort (v : RView) (p off : Nat) : Word :=
  let x := v.live.port p
  let l := nget v.live.netCfg.gcl p {}
  let e := l.entries[fld (v.live.own v.rd (pPORT p + 0x134)) 9 0]?
  match off with
  | 0x100 =>
    mkw (pl (rateCode x.rateNow) 5 3 + pl (b2n x.fecOn) 4 1 + pl (b2n x.asCapable) 3 1 + pl (v.live.portRole p) 1 2 + b2n x.up)
  | 0x104 => v.live.rwsRead (pPORT p + 0x104)
  | 0x108 => v.live.rwsRead (pPORT p + 0x108)
  | 0x10C => natW (toNative x.pdelay)
  | 0x110 => x.rx.word
  | 0x114 => x.tx.word
  | 0x118 => x.rxErr.word
  | 0x11C => v.rosCap fun b =>
      mkw (pl (b.port p).gclEntry 16 10 + pl (b2n (b.port p).gclHold) 1 1 + b2n (b.port p).gclRunning)
  | 0x120 => mkw (l.base % 1000000000)
  | 0x124 => loW (l.base / 1000000000)
  | 0x128 => mkw (l.base / 1000000000 / 2 ^ 32 % 65536)
  | 0x12C => mkw (pl l.cycle 0 30)
  | 0x130 => mkw (pl l.entries.length 0 11)
  | 0x134 => v.live.own v.rd (pPORT p + 0x134)
  | 0x138 => match e with | some y => mkw y.1.toNat | none => 0
  | 0x13C => match e with | some y => mkw (pl y.2 0 30) | none => 0
  | _ =>
    if 0x800 ≤ off ∧ off < 0x820 then
      if v.live.cfg.image.isSome then mkw (pl (v.live.maxSduOf p ((off - 0x800) / 4)) 0 14) else 0
    else if 0x820 ≤ off ∧ off < 0x840 then (nget x.qdrop ((off - 0x820) / 4) {}).word
    else 0

/-- role_now: 0 none, 1 grandmaster, 2 follower. -/
def Blocks.roleNow (b : Blocks) : Nat := if !b.running then 0 else if b.isGm then 1 else 2

/-- The slew left, in whole ns. -/
def Blocks.slewLeft (b : Blocks) : Int := b.cellSettled.adjLeft / 1000000000

/-- The TSY page from 0x100. -/
def readTsy (v : RView) (off : Nat) : Word :=
  match off with
  | 0x100 => v.rosCap fun b =>
      mkw (pl (b2n b.tsy.holdover.isSome) 7 1 + pl (b2n (decide (b.tsy.adjLeft ≠ 0))) 6 1 + pl (b2n b.tsy.floorStart) 5 1 +
        pl (b2n b.tsy.locked) 4 1 + pl b.roleNow 2 2 + pl (b2n b.tsy.cellValid) 1 1 + b2n b.running)
  | 0x104 => v.live.rwsRead (pTSY + 0x104)
  | 0x108 => if v.live.cfg.image.isSome then v.live.tsyPrio else 0
  | 0x10C => v.live.rwsRead (pTSY + 0x10C)
  | 0x110 => v.live.rwsRead (pTSY + 0x110)
  | 0x114 => v.live.rw (pTSY + 0x114)
  | 0x118 => v.live.rw (pTSY + 0x118)
  | 0x11C => v.live.rw (pTSY + 0x11C)
  | 0x120 => v.live.rw (pTSY + 0x120)
  | 0x128 => intW v.live.slewLeft
  | 0x12C => v.rosCap fun b => natW (toNative b.rateNow)
  | 0x130 => v.rosCap fun b => natW (toNative b.tsy.offset)
  | 0x134 => v.rosCap fun b => mkw b.tsy.epoch
  | 0x138 => v.rosCap fun b => loW b.tsy.stepTc
  | 0x13C => v.rosCap fun b => hiW b.tsy.stepTc
  | 0x140 => v.rosCap fun b => intW (if b.tsy.stepSize > 2147483647 then 2147483647
      else if b.tsy.stepSize < -2147483648 then -2147483648 else b.tsy.stepSize)
  | 0x144 => wordOf v.live.tsy.gm 0
  | 0x148 => wordOf v.live.tsy.gm 1
  | _ => 0

end Sys2Proof.Machine
end

