-- ==== Sys2Proof/Machine/CheckValue.lean ====
section
/-! DEFINITION. The check-value units (R284 to R295): parameter sets, feeding, context switching, the alive guard, and the
CVU page. -/

namespace Sys2Proof.Machine

/-! ### Parameter sets (R286) -/

/-- Width in bits of a parameter set; 0 for none. -/
def cvuWidth (poly : Nat) : Nat :=
  match poly with
  | 1 => 8
  | 2 => 16
  | 3 => 32
  | 4 => 32
  | 5 => 64
  | _ => 0

/-- Initial value, as the state holds it. -/
def cvuInit (poly : Nat) : BitVec 64 :=
  match poly with
  | 1 => 0xFF
  | 2 => 0xFFFF
  | 3 => 0xFFFFFFFF
  | 4 => 0xFFFFFFFF
  | _ => 0

/-- Final XOR. -/
def cvuXor (poly : Nat) : BitVec 64 :=
  match poly with
  | 1 => 0xFF
  | 3 => 0xFFFFFFFF
  | 4 => 0xFFFFFFFF
  | _ => 0

/-- One byte into a reflected 32-bit register, least significant bit first. -/
def crcByteR (rpoly c : BitVec 32) (b : Byte) : BitVec 32 :=
  [0, 1, 2, 3, 4, 5, 6, 7].foldl (fun c i => if c.getLsbD 0 != b.getLsbD i then (c >>> 1) ^^^ rpoly else c >>> 1) c

/-- One byte-step of a parameter set on the state. -/
def cvuByte (poly : Nat) (st : BitVec 64) (b : Byte) : BitVec 64 :=
  match poly with
  | 1 => (crcByteM (0x2F : BitVec 8) (st.truncate 8) b).zeroExtend 64
  | 2 => (crcByteM (0x1021 : BitVec 16) (st.truncate 16) b).zeroExtend 64
  | 3 => (crcByteR 0xEDB88320 (st.truncate 32) b).zeroExtend 64
  | 4 => (crcByteR 0x82F63B78 (st.truncate 32) b).zeroExtend 64
  | 5 => crcByteM 0x42F0E1EBA9EA3693 st b
  | _ => st

/-- A state cut to a set's width. -/
def cvuCut (poly : Nat) (st : BitVec 64) : BitVec 64 := st &&& BitVec.ofNat 64 (2 ^ cvuWidth poly - 1)

/-! ### Units -/

def Blocks.cvuOf (b : Blocks) (u : Nat) : Cvu := nget b.cvu u {}

/-- A write to a unit (R284, R293): only its owner's, and none while the unit is failed. -/
def State.cvuWrite (rd : Reader) (u : Nat) (run : State → State × Nat) (s : State) : State :=
  s.plain rd (pCVU u) fun s => if (s.b.cvuOf u).failed then (s, rRefused) else run s

/-- CVU_CTRL (R287): start loads, otherwise the width changes. -/
def State.cvuCtrl (u : Nat) (w : Word) (s : State) : State × Nat :=
  let poly := fld w 2 0
  if poly > 5 then (s, rBadArg)
  else
    (s.onCvu u fun c =>
      if w.getLsbD 5 then
        { c with poly := poly, lsbFirst := w.getLsbD 4, state := cvuInit poly, count := 0, heldLo := none }
      else { c with poly := poly, lsbFirst := w.getLsbD 4, state := cvuCut poly c.state, heldLo := none }, rDone)

/-- The bytes of a feed in the order they enter. -/
def cvuOrder (lsbFirst : Bool) (bs : List Byte) : List Byte := if lsbFirst then bs.reverse else bs

/-- A count that saturates at 32 bits. -/
def cvuCount (n k : Nat) : Nat := min (n + k) (2 ^ 32 - 1)

/-- A unit fed bytes. -/
def Cvu.feed (c : Cvu) (bs : List Byte) : Cvu :=
  { c with state := bs.foldl (cvuByte c.poly) c.state, count := cvuCount c.count bs.length }

/-- A feed of `n` bytes of a word (R288). -/
def State.cvuFeed (u n : Nat) (w : Word) (s : State) : State × Nat :=
  let c := s.b.cvuOf u
  if c.poly = 0 then (s, rRefused) else (s.onCvu u fun c => c.feed (cvuOrder c.lsbFirst (beBytes w.toNat n)), rDone)

/-- CVU_STATE_LO (R290). -/
def State.cvuStateLo (u : Nat) (w : Word) (s : State) : State × Nat :=
  (s.onCvu u fun c =>
    if c.poly = 5 then { c with heldLo := some w } else { c with state := cvuCut c.poly (w.zeroExtend 64) }, rDone)

/-- CVU_STATE_HI (R290): under CRC-64 both halves apply together. -/
def State.cvuStateHi (u : Nat) (w : Word) (s : State) : State × Nat :=
  (s.onCvu u fun c =>
    if c.poly = 5 then { c with state := w ++ c.heldLo.getD (c.state.truncate 32), heldLo := none } else c, rDone)

/-- CVU_COUNT. -/
def State.cvuSetCount (u : Nat) (w : Word) (s : State) : State × Nat := (s.onCvu u fun c => { c with count := w.toNat }, rDone)

/-- CVU_GUARD. -/
def State.cvuGuard (u : Nat) (w : Word) (s : State) : State × Nat :=
  if fld w 23 16 = 0 then (s, rBadArg)
  else (s.onCvu u fun c => { c with armed := w.getLsbD 31, maxSkip := fld w 23 16, last := fld w 15 0 }, rDone)

/-- Some unit refused a counter at its newest guard write: source 483. -/
def Blocks.guardRefused (b : Blocks) : Bool := b.cvu.any fun x => x.2.refused

/-- CVU_ALIVE: the guard's judgement (R291). -/
def State.cvuAlive (u : Nat) (w : Word) (s : State) : State × Nat :=
  let c := s.b.cvuOf u
  let n := fld w 15 0
  let d := (n + 65536 - c.last) % 65536
  if c.poly = 0 then (s, rRefused)
  else if !c.armed || (decide (1 ≤ d) && decide (d ≤ c.maxSkip)) then
    let s1 := s.onCvu u fun c => { (c.feed (beBytes n 2)) with armed := true, last := n, refused := false }
    (s1.cond 483 s1.b.guardRefused (mkw u) none u, rDone)
  else
    let s1 := s.onCvu u fun c =>
      { c with dup := if d = 0 then c.dup.inc else c.dup, skip := if d = 0 then c.skip else c.skip.inc, refused := true }
    (s1.cond 483 true (mkw u) none u, rBadArg)

def State.cvuCtrClear (u : Nat) (w : Word) (s : State) : State × Nat :=
  if (s.b.cvuOf u).failed then (s, rRefused)
  else (if w.getLsbD 0 then s.onCvu u fun c => { c with dup := {}, skip := {} } else s, rDone)

def execCvuStart (t : Nat) (rd : Reader) (u : Fin 16) (w : Word) (s : State) : Host.Outcome State Fault Refusal :=
  .next ((s.tick t).cvuWrite rd u.val (State.cvuCtrl u.val w))

def execCvuPolyChange (t : Nat) (rd : Reader) (u : Fin 16) (w : Word) (s : State) : Host.Outcome State Fault Refusal :=
  .next ((s.tick t).cvuWrite rd u.val (State.cvuCtrl u.val w))

def execCvuFeedB (t : Nat) (rd : Reader) (u : Fin 16) (w : Word) (s : State) : Host.Outcome State Fault Refusal :=
  .next ((s.tick t).cvuWrite rd u.val (State.cvuFeed u.val 1 w))

def execCvuFeedH (t : Nat) (rd : Reader) (u : Fin 16) (w : Word) (s : State) : Host.Outcome State Fault Refusal :=
  .next ((s.tick t).cvuWrite rd u.val (State.cvuFeed u.val 2 w))

def execCvuFeedW (t : Nat) (rd : Reader) (u : Fin 16) (w : Word) (s : State) : Host.Outcome State Fault Refusal :=
  .next ((s.tick t).cvuWrite rd u.val (State.cvuFeed u.val 4 w))

def execCvuStateLoWrite (t : Nat) (rd : Reader) (u : Fin 16) (w : Word) (s : State) : Host.Outcome State Fault Refusal :=
  .next ((s.tick t).cvuWrite rd u.val (State.cvuStateLo u.val w))

def execCvuStateHiWrite (t : Nat) (rd : Reader) (u : Fin 16) (w : Word) (s : State) : Host.Outcome State Fault Refusal :=
  .next ((s.tick t).cvuWrite rd u.val (State.cvuStateHi u.val w))

def execCvuAlive (t : Nat) (rd : Reader) (u : Fin 16) (w : Word) (s : State) : Host.Outcome State Fault Refusal :=
  .next ((s.tick t).cvuWrite rd u.val (State.cvuAlive u.val w))

def execCvuCtrClear (t : Nat) (rd : Reader) (u : Fin 16) (w : Word) (s : State) : Host.Outcome State Fault Refusal :=
  .next ((s.tick t).wt rd (pCVU u.val) (wTok w) (State.cvuCtrClear u.val w))

/-! ### Latched reads (R290) and the page (R295) -/

/-- The result: the state XOR the final XOR, within the width. -/
def Cvu.result (c : Cvu) : BitVec 64 := c.state ^^^ cvuXor c.poly

/-- Reading CVU_STATE_LO latches the upper half for that reader. -/
def State.latchCvuState (u rd : Nat) (s : State) : State :=
  s.onCvu u fun c => { c with stateHi := nset c.stateHi rd (wordOf c.state 1) 0 }

/-- Reading CVU_RESULT_LO latches the upper half for that reader. -/
def State.latchCvuResult (u rd : Nat) (s : State) : State :=
  s.onCvu u fun c => { c with resultHi := nset c.resultHi rd (wordOf c.result 1) 0 }

def execCvuStateLoRead (t : Nat) (rd : Reader) (u : Fin 16) (s : State) : Host.Outcome State Fault Refusal :=
  .next ((s.tick t).latchCvuState u.val rd.idx)

def execCvuResultLoRead (t : Nat) (rd : Reader) (u : Fin 16) (s : State) : Host.Outcome State Fault Refusal :=
  .next ((s.tick t).latchCvuResult u.val rd.idx)

/-- CVU_STATUS. -/
def Blocks.cvuStatus (b : Blocks) (u : Nat) : Word :=
  mkw (pl (b2n (b.cvuOf u).failed) 7 1 + pl (b2n (decide (u ≥ 8))) 6 1 + pl (b.cvuOwner u) 0 2)

/-- A CVU page from 0x100. -/
def readCvu (v : RView) (u off : Nat) : Word :=
  let c := v.live.cvuOf u
  if off = 0x100 then v.live.cvuStatus u
  else if c.failed then 0
  else
    match off with
    | 0x104 => mkw (pl (b2n c.lsbFirst) 4 1 + pl c.poly 0 3)
    | 0x114 => wordOf c.state 0
    | 0x118 => if c.poly = 5 then nget c.stateHi v.rd 0 else 0
    | 0x11C => wordOf c.result 0
    | 0x120 => nget c.resultHi v.rd 0
    | 0x124 => loW c.count
    | 0x128 => mkw (pl c.last 0 16)
    | 0x12C => mkw (pl (b2n c.armed) 31 1 + pl c.maxSkip 16 8 + pl c.last 0 16)
    | 0x130 => c.dup.word
    | 0x134 => c.skip.word
    | _ => 0

end Sys2Proof.Machine
end

