-- ==== Sys2Proof/Machine/Functions.lean ====
section
/-! DEFINITION. The function objects that a CALL clause evaluates (R94 to R106), one sentence at a time, on true-sense
operands. `n` is the sentence, `ts` the sentence period in ns, `clears` the clears of source 113 as captured. -/

namespace Sys2Proof

/-- The configured instances: an entry of kind 0x00 configures none (R94, R96). -/
def Image.configured (im : Image) : List FnEntry := im.functions.filter fun e => e.kind != 0

/-- t_sync in ms (R97): 1,000 by default for muting, 500 for the other kinds. -/
def FnEntry.tSync (e : FnEntry) : Nat := e.tSyncMs.getD (if e.kind = 0x06 then 1000 else 500)

/-- The code of the start state of a kind (R98): demand for E-stop, guard and ESPE before their first sentence, start for the
others. -/
def FnEntry.startState (e : FnEntry) : Nat := if 0x01 ≤ e.kind ∧ e.kind ≤ 0x03 then 2 else 1

/-- The state an object reports (R96): the start state of its kind until a sentence has evaluated it. -/
def FnEntry.stateOf (e : FnEntry) (f : Machine.FnSt) : Nat := if f.evaluated then f.state else e.startState

end Sys2Proof

namespace Sys2Proof.Machine

/-- Time in ns since a sentence; 0 where nothing is timed (R89). -/
def sinceNs (n ts : Nat) (t : Option Nat) : Nat :=
  match t with
  | some n0 => sentencesSince n n0 * ts
  | none => 0

/-- A timing that runs while `v` holds, from the first sentence of the run. -/
def timing (t : Option Nat) (v : Bool) (n : Nat) : Option Nat := if v then some (t.getD n) else none

/-- The object with a boolean output and a state of R96. -/
def FnSt.shows (f : FnSt) (out : Bool) (state : Nat) : FnSt := { f with out := .ofBool out, state := state }

/-- E-stop (R98, R99). The sentence that shows the start state, and the one in which a start in demand is left, count no
acknowledge. -/
def fnEstop (a : List (Option NV)) (f : FnSt) : FnSt :=
  if !oneAt a 0 then { (f.shows false 2) with evaluated := true }
  else if !f.evaluated || (!f.left && f.state == 2) then { (f.shows false 3) with evaluated := true, left := true }
  else if f.state == 4 || oneAt a 1 then { (f.shows true 4) with left := true }
  else { (f.shows false 3) with left := true }

/-- Guard: the permit terms. -/
def guardTerms (a : List (Option NV)) : Bool :=
  oneAt a 0 && ((a.getD 1 none).isNone || oneAt a 1) && ((a.getD 2 none).isNone || oneAt a 2)

/-- Guard in lock-out (R100): left for demand in the first sentence captured after a clear of source 113. -/
def guardLocked (clears n : Nat) (differ : Bool) (f : FnSt) : FnSt :=
  if clears > f.clears then { (f.shows false 2) with t1 := timing none differ n, left := true }
  else f.shows false 5

/-- Guard out of lock-out, its switches within t_sync: demand, await acknowledge or permit. -/
def guardRule (e : FnEntry) (a : List (Option NV)) (two : Bool) (f : FnSt) : FnSt :=
  let cycle := e.cycleCheck && two
  let permit := { (f.shows true 4) with left := true, permitted := true, zero := false }
  if !guardTerms a then f.shows false 2
  else if f.state == 4 then f.shows true 4
  else if !f.left then
    if e.manual then { (f.shows false 3) with left := true }
    else if !cycle || f.zero then permit
    else f.shows false 2
  else if cycle && !f.zero && (f.permitted || !e.manual) then f.shows false 2
  else if !e.manual || oneAt a 3 then permit
  else f.shows false 3

/-- Guard (R98, R100). -/
def fnGuard (e : FnEntry) (a : List (Option NV)) (n ts clears : Nat) (f : FnSt) : FnSt :=
  let two := (a.getD 1 none).isSome
  let differ := two && (oneAt a 0 != oneAt a 1)
  let f1 :=
    { f with
      evaluated := true
      zero := f.zero || (two && !oneAt a 0 && !oneAt a 1)
      t1 := timing f.t1 differ n }
  if f.state == 5 then guardLocked clears n differ f1
  else if differ && decide (sinceNs n ts f1.t1 > e.tSync * 1000000) then
    { (f1.shows false 5) with event := 113, clears := clears }
  else guardRule e a two f1

/-- ESPE (R98, R101). -/
def fnEspe (e : FnEntry) (a : List (Option NV)) (f : FnSt) : FnSt :=
  let o := oneAt a 0
  let m := oneAt a 1
  if !f.left then
    if !o then { (f.shows false 2) with evaluated := true }
    else if e.manual then { (f.shows false 3) with evaluated := true, left := true }
    else { (f.shows true 4) with evaluated := true, left := true, met := true }
  else
    let met := if o then f.met || !e.manual || oneAt a 2 else f.met && m
    { (f.shows ((met && o) || m) (if met && o then 4 else if m then 6 else if o then 3 else 2)) with met := met }

/-- How far apart two inputs became 1, in ns. -/
def apartNs (ts : Nat) (t1 t2 : Option Nat) : Nat :=
  match t1, t2 with
  | some x, some y => min (sentencesSince x y) (sentencesSince y x) * ts
  | _, _ => 0

/-- Two-hand control (R98, R102). `zero` arms the next output, `mark` follows both buttons pressed. -/
def fnTwoHand (e : FnEntry) (a : List (Option NV)) (n ts : Nat) (f : FnSt) : FnSt :=
  let p := oneAt a 0
  let q := oneAt a 1
  let f1 := { f with evaluated := true, t1 := timing f.t1 p n, t2 := timing f.t2 q n, mark := p && q }
  if !f.left then
    if !p && !q then { (f1.shows false 2) with left := true, zero := true } else f1.shows false 1
  else if !p && !q then { (f1.shows false 2) with zero := true }
  else if !(p && q) then f1.shows false 2
  else if f.state == 4 then f1.shows true 4
  else if f.mark then f1.shows false 2
  else if apartNs ts f1.t1 f1.t2 > e.tSync * 1000000 then { (f1.shows false 2) with event := 114 }
  else if f.zero then { (f1.shows true 4) with zero := false }
  else f1.shows false 2

/-- Three-position enabling device (R98, R103). `t1` times the output, `mark` follows a run of enable while pressed
through. -/
def fnEnabling (e : FnEntry) (a : List (Option NV)) (n ts : Nat) (f : FnSt) : FnSt :=
  let p := oneAt a 0
  let q := oneAt a 1
  let through := p && !q
  let armed := q && (f.armed || !p)
  let f1 :=
    { f with
      evaluated := true
      left := f.left || (!p && q)
      mark := through
      event := if through && !f.mark then 115 else 0 }
  if !f1.left then { (f1.shows false 1) with armed := false }
  else if !(armed && p) then { (f1.shows false 2) with armed := armed, t1 := none }
  else
    let t := timing f.t1 true n
    if e.tEnableMaxS > 0 && decide (sinceNs n ts t ≥ e.tEnableMaxS * 1000000000) then
      { (f1.shows false 2) with armed := false, t1 := none }
    else { (f1.shows true 4) with armed := true, t1 := t }

/-- Muting while it lasts (R104): its end, its break, or its going on. -/
def mutingOn (e : FnEntry) (a : List (Option NV)) (n ts : Nat) (f : FnSt) : FnSt :=
  let first := oneAt a 0 && oneAt a 1
  let second := e.fourSensors && oneAt a 2 && oneAt a 3
  let gone := !oneAt a 2 && !oneAt a 3
  let ended := { (f.shows false 2) with muted := false, pair2 := false, t2 := none }
  let broken := { ended with blocked := true, event := 116 }
  if !oneAt a 4 then ended
  else if sinceNs n ts f.t2 ≥ e.tMuteMaxS * 1000000000 then broken
  else if !e.fourSensors then (if first then f.shows true 4 else ended)
  else if f.pair2 && gone then ended
  else if first || second then { (f.shows true 4) with pair2 := f.pair2 || second }
  else broken

/-- Muting (R98, R104). `t1` and `t2` time the starting pair before a muting and `t2` the muting itself while it lasts;
`armed` says that a sentence with enable has found every used sensor at 0. -/
def fnMuting (e : FnEntry) (a : List (Option NV)) (n ts : Nat) (f : FnSt) : FnSt :=
  let none4 := !oneAt a 0 && !oneAt a 1 && (!e.fourSensors || (!oneAt a 2 && !oneAt a 3))
  let f0 := { f with evaluated := true }
  if !f.left || f.blocked then
    if oneAt a 5 && none4 then
      { (f0.shows false 2) with left := true, blocked := false, armed := oneAt a 4, t1 := none, t2 := none }
    else f0.shows false (if f.left then 2 else 1)
  else if f.muted then mutingOn e a n ts f0
  else
    let armed := oneAt a 4 && (f.armed || none4)
    let t1 := timing f.t1 (oneAt a 0) n
    let t2 := timing f.t2 (oneAt a 1) n
    let f1 := { f0 with armed := armed, t1 := t1, t2 := t2 }
    if !(armed && oneAt a 0 && oneAt a 1) then f1.shows false 2
    else if apartNs ts t1 t2 > e.tSync * 1000000 then
      { (f1.shows false 2) with armed := false, blocked := true, event := 116, t1 := none, t2 := none }
    else
      { (f1.shows true 4) with
        armed := false, muted := true, t1 := none, t2 := some n, pair2 := e.fourSensors && oneAt a 2 && oneAt a 3 }

/-- Mode selector (R98, R105): the position, 0 while not exactly one is 1. -/
def fnMode (e : FnEntry) (a : List (Option NV)) (n ts : Nat) (f : FnSt) : FnSt :=
  let on := (List.range e.positions).filter (oneAt a ·)
  match on with
  | [i] =>
    { f with
      evaluated := true, left := true, t1 := none, live := false, state := 4
      out := { val := BitVec.ofNat 20 (i + 1), ok := true } }
  | _ =>
    let t := timing f.t1 true n
    { f with
      evaluated := true, t1 := t, state := if f.left then 2 else 1, out := .ofBool false
      live := f.live || decide (sinceNs n ts t > e.tChangeMs * 1000000) }

/-- Restart acknowledge (R98, R106). -/
def fnAck (a : List (Option NV)) (ts : Nat) (f : FnSt) : FnSt :=
  if oneAt a 0 then
    let k := f.presses + 1
    { (f.shows false (if f.left then 2 else 1)) with
      evaluated := true, presses := k, live := f.live || decide (k * ts > 10000000000) }
  else
    let d := f.presses * ts
    let out := f.left && decide (50000000 ≤ d) && decide (d ≤ 3000000000)
    { (f.shows out (if out then 4 else 2)) with evaluated := true, left := true, presses := 0, live := false }

/-- One sentence of one object (R94, R95). -/
def evalFn (e : FnEntry) (a : List (Option NV)) (n ts clears : Nat) (f : FnSt) : FnSt :=
  let f := { f with event := 0 }
  match e.kind with
  | 0x01 => fnEstop a f
  | 0x02 => fnGuard e a n ts clears f
  | 0x03 => fnEspe e a f
  | 0x04 => fnTwoHand e a n ts f
  | 0x05 => fnEnabling e a n ts f
  | 0x06 => fnMuting e a n ts f
  | 0x07 => fnMode e a n ts f
  | 0x08 => fnAck a ts f
  | _ => f

end Sys2Proof.Machine
end

