-- ==== Sys2Proof/Machine/Fabric.lean ====
section
/-! DEFINITION. The clause fabric: evaluation of a sentence in one channel (R85 to R107), sinks (R112), the evaluation bound
(R108), off-delays and reaction times (R70 to R74, R91, R460), and the FAB page (R117). -/

namespace Sys2Proof

/-! ### The evaluation bound and the dealing (R107, R108) -/

/-- The clauses of one level. -/
def Image.levelCount (im : Image) (l : Nat) : Nat := (im.table.filter fun x => im.level x.1 == l).length

/-- The levels that hold a clause. -/
def Image.usedLevels (im : Image) : List Nat := (List.range 128).filter fun l => decide (0 < im.levelCount l)

/-- e_bound in ns: 100 a slot of the busiest lane, 150 a level barrier, 4,000. -/
def Image.eBoundOf (im : Image) : Nat :=
  (im.usedLevels.map fun l => (im.levelCount l + 63) / 64 * 100 + 150).sum + 4000

/-- The lane each clause is dealt to: round robin in the order of R107, going on from level to level. -/
def Image.laneOf (im : Image) (c : Nat) : Option Nat :=
  (im.order.zipIdx.find? fun x => x.1.1 == c).map fun x => x.2 % 64

end Sys2Proof

namespace Sys2Proof.Machine

/-! ### Evaluation -/

/-- The entry of a configured instance in the function table. -/
def Blocks.fnEntry (b : Blocks) (i : Nat) : Option FnEntry := b.img.configured.find? fun e => e.inst == i

/-- What a channel has evaluated: clause outputs as it holds them, and the new states (R88). -/
structure Evaluated where
  values : NMap NV := []
  clauseNew : NMap ClauseSt := []
  fnNew : NMap FnSt := []
deriving DecidableEq, Repr

/-- FAB_INJECT kind 1 inverts the value bits of the output it names (R117). -/
def FabCh.injected (f : FabCh) (x : Nat) (v : NV) : NV :=
  if f.injectKind = 1 ∧ f.injectIndex = x then { v with val := ~~~ v.val } else v

/-- Channel `c` evaluates one clause of sentence `n` on the captured blocks. -/
def Blocks.evalClause (b : Blocks) (c : Ch) (n : Nat) (x : Nat × BitVec 128) (e : Evaluated) : Evaluated :=
  let f := b.fab.channel c
  let op := clauseOp x.2
  let par := clauseParam x.2
  let ops := (clauseRefs x.2).map (·.map (b.heldWord c e.values))
  let put := fun (v : NV) => nset e.values (4096 + x.1) (f.injected (4096 + x.1) v) (NV.held c {})
  if op = 0x12 then
    match b.fnEntry (par % 512) with
    | some g =>
      let r := evalFn g (ops.map (·.map (NV.held c))) n b.tsNs (nget b.fcl.clearCount 113 0) (nget f.fnSt g.inst {})
      { e with values := put (r.out.held c), fnNew := nset e.fnNew g.inst r {} }
    | none => e
  else
    let r := evalOpIn c op par ops n b.tsNs (nget f.clauseSt x.1 {})
    { e with values := put r.1, clauseNew := if statefulOp op then nset e.clauseNew x.1 r.2 {} else e.clauseNew }

/-- Channel `c` evaluates the whole table, level by level. -/
def Blocks.evaluate (b : Blocks) (c : Ch) (n : Nat) : Evaluated := forL (b.img.orderIn c) (b.evalClause c n) {}

/-! ### Sinks (R112) -/

/-- The entry bound to a sink. -/
def boundTo (l : List (Nat × Nat)) (k : Nat) : Option Nat := (l.find? fun x => x.1 == k).map (·.2)

/-- Entry `x` after the last level, in true sense, from channel A's outputs `m`. -/
def Blocks.afterLevels (b : Blocks) (m : NMap NV) (x : Nat) : NV := b.heldWord .a m x

/-- The commands of 16 lichens: an unbound one is 0. -/
def Blocks.commands (b : Blocks) (m : NMap NV) (binds : List (Nat × Nat)) : BitVec 16 :=
  bits16 fun k => match boundTo binds k with
    | some x => (b.afterLevels m x).one
    | none => false

/-! ### Producer fields (R252, R254) -/

/-- The safe encoding of a field: 0 for bit types, the safe value of its bound entry for numeric types. -/
def Blocks.fieldSafe (b : Blocks) (safes : NMap (BitVec 20)) (slot : Nat) (fc : FieldCfg) : NV :=
  if fc.kind ≤ 2 then .ofBool false
  else
    match boundTo b.img.bindField (16 * slot + fc.f) with
    | some x => b.safeOperand safes x
    | none => {}

/-- One channel's part of a producer session with its fields put into `base`: `val` gives each its word, but a field that an
interjection holds takes its safe encoding. -/
def ProdSide.encoded (p : ProdSide) (c : ProdCfg) (base : List Byte) (val : FieldCfg → NV) : ProdSide :=
  { p with
    payload := forL c.fields (fun fc pl => putField pl fc (if (nget p.holds fc.f none).isSome then .ofBool false else val fc))
      (fitBytes base (4 * c.len)) }

/-- Every producer field takes its safe encoding at once; AXS command words stay. -/
def State.safeFields (s : State) : State :=
  let safes := s.b.clauseSafes
  forL s.b.img.prods (fun x s =>
    s.onProd x.1 fun p =>
      { p with a := p.a.encoded x.2 p.a.payload (s.b.fieldSafe safes x.1), b := p.b.encoded x.2 p.b.payload (s.b.fieldSafe safes x.1) }) s

/-- A channel's word of a producer field at a commit: its bound entry after the last level, in true sense. -/
def Blocks.fieldWord (b : Blocks) (ch : Ch) (m : NMap NV) (slot : Nat) (fc : FieldCfg) : NV :=
  match boundTo b.img.bindField (16 * slot + fc.f) with
  | some e => (b.heldWord ch m e).held ch
  | none => {}

/-- The payloads of a commit (R59, R252), in each channel from its own outputs: the bound entries' values, or every field safe
under a fault hold. -/
def State.commitFields (s : State) : State :=
  let safes := if s.b.globalHold then s.b.clauseSafes else []
  let word := fun ch slot (fc : FieldCfg) =>
    if s.b.globalHold then s.b.fieldSafe safes slot fc else (s.cap.getD s.b).fieldWord ch (s.b.fab.channel ch).values slot fc
  forL s.b.img.prods (fun x s =>
    s.onProd x.1 fun p => { p with a := p.a.encoded x.2 [] (word .a x.1), b := p.b.encoded x.2 [] (word .b x.1) }) s

/-! ### Agreement (R54, R272) -/

/-- The first clause that differs, in the order in which the clauses are evaluated: an output of channel A that is not the
complement of channel B's, or a function state that differs; named by its clause's namespace index. -/
def Blocks.clauseDiffers (b : Blocks) (x y : FabCh) : Option Nat :=
  (b.img.order.find? fun c =>
    nget x.values (4096 + c.1) {} != (nget y.values (4096 + c.1) (NV.conj {})).conj ||
      (clauseOp c.2 == 0x12 && nget x.fnNew (clauseParam c.2 % 512) {} != nget y.fnNew (clauseParam c.2 % 512) {})).map
    fun c => 4096 + c.1

/-- The sinks compared, each with its code and its entry: 0x1000 + k for output lichen k, 0x1010 + k for STO lichen k, 0x2000 + 16 × slot
+ f for a producer field. The codes are the model's. DESIGN CHOICE (log 62). -/
def bindings (im : Image) : List (Nat × Nat) :=
  (im.bindSout.map fun x => (0x1000 + x.1, x.2)) ++ (im.bindSto.map fun x => (0x1010 + x.1, x.2)) ++
    im.bindField.map fun x => (0x2000 + x.1, x.2)

/-- The first output word that differs between the channels (R54, R272): a clause's, then an output or STO command or a producer field,
whose sink code stands in the upper half. -/
def Blocks.disagreement (b : Blocks) (x y : FabCh) : Option Nat :=
  (b.clauseDiffers x y).orElse fun _ =>
    ((bindings b.img).find? fun k => b.heldWord .a x.values k.2 != (b.heldWord .b y.values k.2).conj).map fun k => k.1 * 65536

/-- What the record of source 448 names: the first differing word and, where it is a namespace entry, the sentence number's low bits. -/
def mismatchDetail (x n : Nat) : Word := mkw (if x < 32768 then x + pl n 15 17 else x)

/-! ### Off-delays (R91) -/

/-- The entry bound to a sink of a function. -/
def Blocks.sinkEntry (b : Blocks) (k : Sink) : Option Nat :=
  match k with
  | .sout k => boundTo b.img.bindSout k
  | .sto k => boundTo b.img.bindSto k
  | .field slot f => boundTo b.img.bindField (16 * slot + f)
  | .axs inst i =>
    match b.fnEntry inst with
    | some e => if i = 0 then e.release else if i = 1 then e.ack else e.limit
    | none => none

/-- The largest delay of a TOF clause in microseconds. -/
def Blocks.tofUs (b : Blocks) (w : BitVec 128) : Nat :=
  let x := clauseOpd w 1
  (if 20480 ≤ x ∧ x < 24576 then (nget b.img.constsA (x - 20480) {}).int.toNat else 524287) *
    (unitNs (clauseParam w % 4) / 1000)

/-- The greater of two lengths of a chain, where there is one. -/
def chainMax (x y : Option Nat) : Option Nat :=
  match x, y with
  | some x, some y => some (max x y)
  | none, y => y
  | x, none => x

/-- The longest chain of off-delays from a demand input of `e` to each clause output that depends on one. -/
def Blocks.delayMap (b : Blocks) (e : FnEntry) : NMap (Option Nat) :=
  let at_ := fun (m : NMap (Option Nat)) (x : Nat) =>
    chainMax (if e.demand.contains x then some 0 else none) (if isClause x then nget m x none else none)
  forL b.img.order (fun c m =>
    let longest := (clauseUsed c.2).foldl (fun l x => chainMax l (at_ m x)) none
    nset m (4096 + c.1) (longest.map fun t => if clauseOp c.2 = 0x08 then t + b.tofUs c.2 else t) none) []

/-- The off-delay sum of a function in microseconds. -/
def Blocks.fnDelay (b : Blocks) (e : FnEntry) : Nat :=
  let m := b.delayMap e
  let longest := e.sinks.foldl (fun l k => match b.sinkEntry k with
    | some x => chainMax l (nget m x none)
    | none => l) none
  min (longest.getD 0) 0x3FFFFFFF

/-! ### Reaction times (R70 to R74, R170, R203, R460) -/

/-- t_filter of an input lichen in ns (R71). -/
def Blocks.lioFilter (b : Blocks) (i : Nat) : Nat :=
  2000 * max 1 (b.filterLen i) + (if b.lioKind i = 3 then 2000 * b.blankLen i else 0)

/-- A path code and its figure in ns. -/
abbrev Figure := Nat × Nat

/-- An interjection of the image has `x` as its trigger and sink `k` among its targets. -/
def Blocks.interjects (b : Blocks) (x : Nat) (k : Sink) : Bool :=
  b.img.intjs.any fun e => e.trigger == x && (match k with
    | .sout k => e.sout.contains k
    | .sto k => e.sto.contains k
    | .field s f => e.fields.contains (16 * s + f)
    | .axs _ _ => false)

/-- The figure of demand input `x` for sink `k`. -/
def Blocks.inputFigure (b : Blocks) (x : Nat) (k : Sink) : Figure :=
  let rest := b.tsNs + b.img.eBound + 1000
  let filter := if x < 48 then b.lioFilter x else if 80 ≤ x ∧ x < 88 then 100000 * b.ainN (x - 80) + 200000 else 0
  if 1024 ≤ x ∧ x < 3072 then
    (3, 10000 * ((b.consCfg ((x - 1024) / 16)).map (·.ageMax)).getD 0 + rest)
  else if 640 ≤ x ∧ x < 768 ∧ (x - 640) % 32 ≤ 4 then (4, 4000000 + b.tSep (b.grid.getD {}) + rest)
  else if b.interjects x k then (1, filter + 3000)
  else (2, filter + rest)

/-- What the kind itself adds: a violation or stop envelope of an axis (R170), the sensor path of kind 0x18 (R203). -/
def Blocks.ownFigure (b : Blocks) (e : FnEntry) : List Figure :=
  if e.kind = 0x11 ∧ bit e.p0 4 = false ∨ 0x12 ≤ e.kind ∧ e.kind ≤ 0x16 then [(1, 2 * b.tsNs + 100000 + 3000)]
  else if e.kind = 0x18 then [(4, 4000000 + b.tSep (b.grid.getD {}) + b.tsNs + b.img.eBound + 1000)]
  else []

/-- The larger of two figures; where they are equal, either path. -/
def worse (inst : Nat) (x y : Figure) : Figure :=
  if y.2 > x.2 ∨ (y.2 = x.2 ∧ Config.laterPath inst) then y else x

/-- The figures of an instance, one for each demand input and sink. -/
def Blocks.figures (b : Blocks) (e : FnEntry) : List Figure :=
  let inputs := e.demand ++ (match e.limit with
    | some x => if 0x10 ≤ e.kind ∧ e.kind ≤ 0x16 then [x] else []
    | none => [])
  e.sinks.flatMap fun k => b.ownFigure e ++ inputs.map fun x => b.inputFigure x k

/-- FAB_FN_RTi: path code and figure in units of 50 ns; path 5 where there is no demand input or no sink. -/
def Blocks.fnRt (b : Blocks) (i : Nat) : Word :=
  match b.fnEntry i with
  | none => 0
  | some e =>
    match b.figures e with
    | [] => mkw (pl 5 28 4)
    | x :: r =>
      let w := r.foldl (worse e.inst) x
      mkw (pl w.1 28 4 + min (w.2 / 50) 0x0FFFFFFF)

/-! ### FAB_CTR_CLEAR and FAB_INJECT (R117, R118) -/

def Fab.onCh (f : Fab) (c : Ch) (g : FabCh → FabCh) : Fab :=
  match c with
  | .a => { f with a := g f.a }
  | .b => { f with b := g f.b }

/-- FAB_CTR_CLEAR: bit 0 the acts, bit 1 the lane-lost maps, bit 2 the largest evaluation time. -/
def FabCh.ctrClear (w : Word) (f : FabCh) : FabCh :=
  let f1 := if w.getLsbD 0 then { f with acts := {} } else f
  let f2 := if w.getLsbD 1 then { f1 with laneLost := 0 } else f1
  if w.getLsbD 2 then { f2 with evalMax := 0, evalMaxSent := 0 } else f2

/-- The statistics are of the channel whose view the command is written in. -/
def State.fabCtrClear (c : Ch) (w : Word) (s : State) : State × Nat := (s.onFab fun f => f.onCh c (FabCh.ctrClear w), rDone)

def execFabCtrClear (t : Nat) (rd : Reader) (ch : Ch) (w : Word) (s : State) : Host.Outcome State Fault Refusal :=
  .next ((s.tick t).wt rd pFAB (wTok w) (State.fabCtrClear ch w))

/-- FAB_INJECT: only in MANUFACTURE; kinds 0b10 and 0b11 are reserved, and the index names a clause output. -/
def State.fabInject (c : Ch) (w : Word) (s : State) : State × Nat :=
  if s.b.life ≠ .manufacture then (s, rRefused)
  else if fld w 31 30 > 1 ∨ (fld w 31 30 = 1 ∧ isClause (fld w 14 0) = false) then (s, rBadArg)
  else
    (s.onFab fun f => f.onCh c fun x => { x with injectKind := BitVec.ofNat 2 (fld w 31 30), injectIndex := fld w 14 0 }, rDone)

def execFabInject (t : Nat) (rd : Reader) (ch : Ch) (w : Word) (s : State) : Host.Outcome State Fault Refusal :=
  .next ((s.tick t).expertAt rd pFAB (pFAB + 0x400 + (if ch = .b then 0x100000 else 0)) w (State.fabInject ch w))

/-! ### The FAB page (R117) -/

/-- What a sentence shows of an instance: its state (R96) and its output in true sense. -/
def Snapshot.fnShown (p : Snapshot) (c : Ch) (e : FnEntry) : Nat × NV :=
  if p.safe then (2, { val := 0, ok := false })
  else if e.kind ≤ 0x08 then
    let f := nget (p.pub.fab.channel c).fnSt e.inst {}
    (e.stateOf f, f.out)
  else if e.kind ≤ 0x16 then ((p.pub.axFn e.inst).state, .ofBool (p.pub.axFnOut e))
  else if e.kind = 0x18 then
    ((p.pub.chain (e.p0 % 4)).state, .ofBool ((p.pub.chain (e.p0 % 4)).state == 4))
  else
    ((Config.programState e.inst p.sent).val,
      { val := (Config.programOut e.inst p.sent).1, ok := (Config.programOut e.inst p.sent).2 })

/-- A channel's evaluation time in the sentence shown. -/
def Snapshot.evalTime (p : Snapshot) (c : Ch) : Nat :=
  match (p.pub.fab.channel c).evalLast with
  | some t => t
  | none => (Config.noEvalTime p.sent).toNat

/-- The evaluation took more than 90 % of E_bound (R111). -/
def overNinety (eBound t : Nat) : Bool := decide (10 * t > 9 * eBound)

/-- FAB_STATUS. -/
def Snapshot.fabStatus (p : Snapshot) (c : Ch) : Word :=
  let on := b2n p.pub.cfg.image.isSome
  mkw (pl (b2n (decide ((p.pub.fab.channel c).laneLost ≠ 0))) 4 1 + pl (b2n (overNinety p.pub.img.eBound (p.evalTime c))) 3 1 +
    pl on 2 1 + pl on 1 1 + on)

/-- FAB_FN_INFO. -/
def Snapshot.fnInfo (p : Snapshot) (c : Ch) (i : Nat) : Word :=
  match p.pub.fnEntry i with
  | some e =>
    let s := p.fnShown c e
    mkw (pl e.kind 26 6 + pl e.zone 21 5 + pl s.1 18 3 + pl (b2n (s.2.held c).ok) 17 1 + pl i 0 9)
  | none => mkw (pl i 0 9)

/-- The FAB page from 0x100. -/
def readFab (v : RView) (off : Nat) : Word :=
  let c : Ch := if v.bView then .b else .a
  let f := v.live.fab.channel c
  let sel := fld (v.live.own v.rd (pFAB + 0x130)) 8 0
  let watch := fun j => fld (v.live.own v.rd (pFAB + 0x140 + 4 * j)) 14 0 ^^^ 0x7FFF
  let shown := fun (g : Snapshot → Word) => match v.snap with
    | some p => g p
    | none => 0
  match off with
  | 0x100 => shown fun p => p.fabStatus c
  | 0x104 => mkw (pl v.live.img.table.length 0 15 + pl v.live.img.usedLevels.length 16 8)
  | 0x108 => if v.live.cfg.image.isSome then mkw (pl v.live.img.eBound 0 16) else 0
  | 0x10C => shown fun p => mkw (sat (p.evalTime c) 16)
  | 0x110 => mkw (sat f.evalMax 16)
  | 0x114 => loW f.evalMaxSent
  | 0x118 => f.acts.word ||| mkw (pl v.live.img.intjs.length 16 7)
  | 0x11C => mkw (pl v.live.img.configured.length 0 10)
  | 0x120 => wordOf f.laneLost 0
  | 0x124 => wordOf f.laneLost 1
  | 0x130 => v.live.own v.rd (pFAB + 0x130)
  | 0x134 => shown fun p => p.fnInfo c sel
  | 0x138 => shown fun p => match p.pub.fnEntry sel with
    | some e => natW ((p.fnShown c e).2.held c).val
    | none => 0
  | 0x13C => match v.live.fnEntry sel with
    | some e => mkw (v.live.fnDelay e)
    | none => 0
  | 0x180 => shown fun p => forN 8 (fun j w => setb w j (p.shows c (watch j)).ok) 0
  | 0x400 => mkw (pl f.injectKind.toNat 30 2 + pl f.injectIndex 0 15)
  | _ =>
    if 0x140 ≤ off ∧ off < 0x160 then mkw (watch ((off - 0x140) / 4))
    else if 0x160 ≤ off ∧ off < 0x180 then shown fun p => natW (p.shows c (watch ((off - 0x160) / 4))).val
    else if 0x800 ≤ off then v.ros fun b => b.fnRt ((off - 0x800) / 4)
    else 0

end Sys2Proof.Machine
end

