-- ==== Sys2Proof/Machine/Faults.lean ====
section
/-! DEFINITION. The fault collector (R296 to R320): what a round raises and drops, the two trees, the round's record, zones
and their release, the re-arm check, the error pins, and the FCL page. -/

namespace Sys2Proof.Machine

/-! ### What a round does to a source (R298, R312) -/

/-- One source that a round raises or drops: whether it is raised, whether its live bit fell, whether it is live afterwards,
its effective severity, and what its record names. -/
structure Change where
  id : Nat
  raised : Bool
  fell : Bool
  live : Bool
  sev : Nat
  detail : Word := 0
  zone : Option Nat := none
  zones : BitVec 32 := 0
  unit : Nat := 0
  blocks : Option Block := none
deriving DecidableEq, Repr

/-- Source `i` in the round that closes. -/
def Blocks.changeOf (b : Blocks) (i : Nat) : Change :=
  let all := b.fcl.arrivals.filter fun x => x.id == i
  let ups := all.filter (·.up)
  let was := b.fcl.a.live.getLsbD i
  let up := match all.getLast? with
    | some x => x.up
    | none => false
  let first := ups.headD { id := i, up := true }
  let raised := !ups.isEmpty && (!srcCond i || !was)
  { id := i
    raised := raised
    fell := srcCond i && !up && (was || raised)
    live := srcCond i && up
    sev := b.effSev i
    detail := first.detail
    zone := first.zone
    zones := ups.foldl (fun m x => m ||| b.zonesOf i x.zone) 0
    unit := first.unit
    blocks := first.blocks }

/-- Every source that the round touches, by ID. -/
def Blocks.changes (b : Blocks) : List Change :=
  if b.fcl.arrivals.isEmpty then []
  else ((List.range 512).filter fun i => b.fcl.arrivals.any fun x => x.id == i).map b.changeOf

/-- The raises of a round: the highest severity first, the lowest ID among equals (R309). -/
def raisesOf (l : List Change) : List Change :=
  [3, 2, 1, 0].flatMap fun v => l.filter fun c => c.raised && c.sev == v

/-- The falls of a round whose source it does not raise. -/
def fallsOf (l : List Change) : List Change := l.filter fun c => c.fell && !c.raised

/-! ### The trees (R309, R312) -/

/-- The live bits after a round: condition sources only; an event source is live in its round alone. -/
def Tree.liveAfter (t : Tree) (l : List Change) : BitVec 512 := l.foldl (fun v (c : Change) => setb v c.id c.live) t.live

/-- One tree closes a round: live bits, latches, counters, the first raise and its co-first map, what each record named. -/
def Tree.close (t : Tree) (l : List Change) (now sent optime : Nat) : Tree :=
  let raises := raisesOf l
  let t1 :=
    match raises with
    | [] => t
    | c :: rest =>
      if t.latch = 0 then
        { t with first := some (c.id, c.sev), firstTime := now, firstSent := sent
                 cofirst := rest.foldl (fun v (x : Change) => setb v x.id true) 0 }
      else t
  { t1 with
    live := t.liveAfter l
    latch := raises.foldl (fun v (c : Change) => setb v c.id true) t.latch
    cnt := raises.foldl (fun m (c : Change) => nupd m c.id {} Ctr.inc) t.cnt
    detail := raises.foldl (fun m (c : Change) => nset m c.id c.detail 0) t.detail
    raisedAt := raises.foldl (fun m (c : Change) => nset m c.id optime 0) t.raisedAt
    zones := raises.foldl (fun m (c : Change) => nset m c.id (nget m c.id 0 ||| c.zones) 0) t.zones }

/-! ### The round's record (R310, R313, R325, R327) -/

/-- A source that has been recorded twice within the last 10 ms is left out, unless it is raised and acts as Halt or is
raised for the first time since a clear. -/
def Blocks.leavesOut (b : Blocks) (c : Change) : Bool :=
  decide (((nget b.fcl.recorded c.id []).filter fun t => decide (b.now < t + 10000000)).length ≥ 2) &&
    !(c.raised && (b.actsHalt c.id || !b.fcl.seen.getLsbD c.id))

/-- One entry of the payload. -/
def Blocks.roundEntry (b : Blocks) (c : Change) : List Byte :=
  let kind := if c.raised && c.fell then 3 else if c.raised then 1 else 2
  beBytes c.id 2 ++ beBytes kind 1 ++ beBytes c.sev 1 ++
    (match kind with
     | 1 => beBytes c.detail.toNat 4 ++ [match c.zone with | some z => BitVec.ofNat 8 z | none => Config.noZone, 0, 0, 0]
     | 2 => beBytes (b.optime - nget b.fcl.a.raisedAt c.id 0) 8
     | _ => beBytes c.detail.toNat 4 ++ [0, 0, 0, 0])

/-- Byte `i` of the co-first map. -/
def cofirstByte (v : BitVec 512) (i : Nat) : Byte := BitVec.ofNat 8 (v.toNat / 256 ^ i)

/-- The payload of a fault round: `first` with its severity, the co-first map, the entries kept and the number omitted. -/
def roundPayload (first sev : Nat) (cofirst : BitVec 512) (entries : List (List Byte)) (omitted : Nat) : List Byte :=
  (List.range 64).map (cofirstByte cofirst) ++ beBytes first 2 ++ beBytes sev 1 ++ beBytes entries.length 1 ++
    beBytes omitted 4 ++ fitBytes entries.flatten 816 ++ List.replicate 8 0

/-- Bookkeeping of R310: what is recorded, what is left out and counted, what has been raised since a clear. -/
def Fcl.noted (f : Fcl) (now : Nat) (kept left raises : List Change) : Fcl :=
  { f with
    recorded := kept.foldl (fun m (c : Change) => nset m c.id (now :: (nget m c.id []).take 1) []) f.recorded
    leftOut := left.foldl (fun m (c : Change) => nset m c.id (now + 1) 0) f.leftOut
    suppressed := f.suppressed.inc left.length
    seen := raises.foldl (fun v (c : Change) => setb v c.id true) f.seen }

/-- The companion of a fault-round record: the register snapshot of the profile that matches (R326). -/
def State.companion (p : Nat × Profile) (seq : Nat) (s : State) : State :=
  let base := s.recordBase 0x10 (beBytes seq 6)
  s.makeRecord false
    { base with flags := base.flags ||| 8, payloadKind := 1, profile := p.1, words := p.2.addrs.length
                payload := s.snapshotWords p.2.addrs, listDigest := listDigest p.2.addrs }

/-- The record of a round, and its companion. -/
def State.recordRound (l : List Change) (s : State) : State :=
  let raises := raisesOf l
  let all := raises ++ fallsOf l
  let kept := all.filter fun c => !s.b.leavesOut c
  let left := all.filter s.b.leavesOut
  let s1 := s.onFcl fun f => f.noted s.b.now kept left raises
  if kept.isEmpty then s1
  else
    let first := match raises with
      | c :: _ => (c.id, c.sev)
      | [] => Config.noFirstSource
    let co := (raises.drop 1).foldl (fun v (c : Change) => setb v c.id true) (0 : BitVec 512)
    let entries := (kept.take 68).map s.b.roundEntry
    let omitted := kept.length - entries.length
    let priority := raises.any fun c => s.b.actsHalt c.id || !s.b.fcl.seen.getLsbD c.id
    let base := s1.recordBase 0x01
      (beBytes first.1 2 ++ beBytes first.2 1 ++ beBytes (min raises.length 255) 1 ++
        beBytes (min (l.filter (·.fell)).length 255) 1 ++ beBytes omitted 2)
    let s2 := s1.makeRecord priority
      { base with payloadKind := 2, payload := roundPayload first.1 first.2 co entries omitted }
    match s.b.profileFor 0x01 (fun p =>
        raises.any fun c => decide (p.lo ≤ c.id) && decide (c.id ≤ p.hi) && decide (p.minSev ≤ c.sev)) with
    | some p => if s2.b.recd.seq > s1.b.recd.seq then s2.companion p (s1.b.recd.seq + 1) else s2
    | none => s2

/-! ### Zones (R304) -/

/-- Since when each stopped zone meets conditions 1 and 2. -/
def State.updateReady (s : State) : State :=
  s.onFcl fun f =>
    { f with zoneReady := forN 32 (fun z m =>
        if s.b.fcl.zoneStop.getLsbD z && s.b.zoneReadyNow z then
          (if nget m z 0 = 0 then nset m z (s.b.now + 1) 0 else m)
        else nset m z 0 0) f.zoneReady }

/-- A stop of zone `z` concerns STO lichen `k`: its own zone, or one with SS1 behaviour an axis of which names it. -/
def Blocks.stoConcern (b : Blocks) (z k : Nat) : Bool :=
  b.stoZoneOf k == z || ((nget b.img.regs (pFCL + 0x144) 0).getLsbD z && b.axisNames z k)

/-- The STO lichens that a release of zone `z` frees: those it concerns, unless another zone that concerns them is still stopped. -/
def Blocks.stoFreed (b : Blocks) (z : Nat) : BitVec 16 :=
  bits16 fun k =>
    b.stoConcern z k && (List.range 32).all fun y => y == z || !(b.fcl.zoneStop.getLsbD y && b.stoConcern y k)

/-- At the commit of a sentence captured at `tc`: zone `z` is released once its conditions were met before the capture and
its acknowledge instance gives 1. A zone for which the image names no instance needs none. -/
def Blocks.zoneFreed (b : Blocks) (tc : Nat) (ack : Nat → Bool) (z : Nat) : Bool :=
  let r := nget b.fcl.zoneReady z 0
  b.fcl.zoneStop.getLsbD z && decide (0 < r) && decide (r ≤ tc) &&
    (match b.zoneAckOf z with
     | some i => ack i
     | none => true)

def State.releaseZones (tc : Nat) (ack : Nat → Bool) (s : State) : State :=
  forL ((List.range 32).filter (s.b.zoneFreed tc ack)) (fun z s =>
    ((s.onFcl fun f => { f with zoneStop := setb f.zoneStop z false, zoneReady := nset f.zoneReady z 0 0 }).onSog fun o =>
        { o with faultHold := o.faultHold &&& ~~~ (s.b.soutOf (BitVec.ofNat 32 (2 ^ z))) }).onSto fun o =>
      { o with faultHold := o.faultHold &&& ~~~ (s.b.stoFreed z) }) s

/-! ### Re-arm (R315) -/

/-- A clear has left no source that acts as Halt: the check starts. -/
def State.rearmStart (s : State) : State :=
  if s.b.fcl.halt && decide (s.b.fcl.selfCode = 0) && decide (s.b.fcl.rearm ≠ 1) && !s.b.fcl.rearmPassed && !s.b.haltLatched then
    s.onFcl fun f => { f with rearm := 1, rearmAt := s.b.now }
  else s

/-- The check completes. When it passes, Halt ends at the next capture; otherwise Halt stays. -/
def State.rearmComplete (flagged : Nat) (equalOk fabricOk : Bool) (s : State) : State :=
  if s.b.fcl.rearm ≠ 1 then s
  else
    let us := min ((s.b.now - s.b.fcl.rearmAt) / 1000) 0xFFFF
    if flagged = 128 ∧ equalOk ∧ fabricOk then
      (s.onFcl fun f => { f with rearm := 2, rearmUs := us, rearmPassed := true }).updateReady
    else
      let s1 := s.onFcl fun f => { f with rearm := 3, rearmUs := us }
      let s2 := if flagged = 128 then s1 else (s1.raise 450).blockAll
      let s3 := if equalOk then s2 else (s2.raise 451).blockAll
      if fabricOk then s3 else s3.raise 498

def execRearmComplete (t : Nat) (flagged : Nat) (equalOk fabricOk : Bool) (s : State) : Host.Outcome State Fault Refusal :=
  .next ((s.tick t).rearmComplete flagged equalOk fabricOk)

/-- At the next capture a passed check ends Halt. -/
def State.endHalt (s : State) : State :=
  if s.b.fcl.rearmPassed then s.onFcl fun f => { f with halt := false, rearmPassed := false } else s

/-! ### Self-fault and chip reset (R307, R311) -/

/-- Codes 1 to 5 of R311; 0 names no cause. -/
def execCollectorSelfFault (t : Nat) (code : Fin 6) (s : State) : Host.Outcome State Fault Refusal :=
  .next (if code.val = 0 then s.tick t else (s.tick t).selfFault code.val)

/-- A chip reset by reaction falls due: at most one per power cycle, and none once a supply-loss warning governs (R418). -/
def State.chipDue (i : Nat) (s : State) : State :=
  if s.b.fcl.chipResetTaken || s.b.pwr.powerDown then s
  else s.onFcl fun f => { f with chipResetTaken := true, chipResetSource := i, chipResetDue := some s.b.now }

/-! ### Error pins (R316) -/

/-- In static mode both pins are low while they signal and high otherwise. -/
def State.errStatic (s : State) : State :=
  if s.b.img.errAlive || decide (s.b.fcl.selfCode ≠ 0) then s
  else s.onFcl fun f => { f with driveA := !f.signalling, driveB := !f.signalling }

/-- At a round close: the pins signal while a latch asks for it, and until the first publish without one. -/
def State.errUpdate (s : State) : State :=
  if s.b.fcl.selfCode ≠ 0 then s
  else (s.onFcl fun f => { f with signalling := s.b.errLatched || !f.healthy }).errStatic

/-- At a publish. -/
def State.errPublish (s : State) : State :=
  if s.b.errLatched then s else (s.onFcl fun f => { f with healthy := true }).errUpdate

/-- Alive mode at a half of the 1,000 microsecond interval: signalling pins are low; ERR_A is high in first halves, ERR_B in
second halves once a first half has begun. -/
def State.errHalf (s : State) : State :=
  if !s.b.img.errAlive || decide (s.b.fcl.selfCode ≠ 0) then s
  else
    let firstHalf := decide (s.b.optime % 1000 < 500)
    s.onFcl fun f =>
      if f.signalling then { f with driveA := false, driveB := false }
      else if firstHalf then { f with driveA := true, driveB := false }
      else { f with driveA := false, driveB := f.driveA }

def execErrPinHalfPeriod (t : Nat) (s : State) : Host.Outcome State Fault Refusal := .next (s.tick t).errHalf

/-! ### FCL_CTR_CLEAR -/

/-- Bit 0 clears every FCL_CNTi, bit 1 FCL_SUPPRESSED and the count of FCL_SELF. -/
def State.fclCtrClear (w : Word) (s : State) : State × Nat :=
  (s.onFcl fun f =>
    let f1 := if w.getLsbD 0 then { f with a := { f.a with cnt := [] }, b := { f.b with cnt := [] } } else f
    if w.getLsbD 1 then { f1 with suppressed := {}, corrected := {} } else f1, rDone)

def execFclCtrClear (t : Nat) (rd : Reader) (w : Word) (s : State) : Host.Outcome State Fault Refusal :=
  .next ((s.tick t).wt rd pFCL (wTok w) (State.fclCtrClear w))

/-! ### The FCL page (R319, R320) -/

/-- The tree a view shows. -/
def Blocks.tree (b : Blocks) (bView : Bool) : Tree := if bView then b.fcl.b else b.fcl.a

/-- FCL_STATUS: what a publish shows of Halt, zones and pins, and the captured latches. -/
def fclStatus (bView : Bool) (cap pub : Blocks) : Word :=
  let t := cap.tree bView
  mkw (pl (b2n (decide (pub.fcl.selfCode ≠ 0))) 9 1 + pl (b2n (decide (pub.fcl.rearm = 1))) 8 1 +
    pl ((idsOf t.latch).foldl (fun m i => max m (cap.effSev i)) 0) 6 2 + pl (b2n (decide (t.latch ≠ 0))) 5 1 +
    pl (b2n (decide (t.live ≠ 0))) 4 1 + pl (b2n pub.haltNow) 3 1 +
    pl (b2n (pub.haltNow || decide (pub.fcl.zoneStop ≠ 0))) 2 1 + pl (b2n pub.fcl.signalling) 1 1 +
    pl (b2n pub.fcl.collecting) 0 1)

/-- FCL_FIRST. -/
def Tree.firstWord (t : Tree) : Word :=
  match t.first with
  | some (i, v) => mkw (pl 1 31 1 + pl v 29 2 + pl i 0 9)
  | none => 0

/-- FCL_SRC_CFG. -/
def Blocks.srcCfg (b : Blocks) (i : Nat) : Word :=
  mkw (pl (b.reaction i).sev 30 2 + pl (b.effSev i) 28 2 + pl (b2n (srcDefined i && !srcCond i)) 27 1 +
    pl (b.effVec i).toNat 16 5 + pl (b.reaction i).line 8 8 + pl (b2n (srcDefined i)) 0 1)

/-- FCL_SRC_STATE. -/
def Blocks.srcState (b : Blocks) (bView : Bool) (i : Nat) : Word :=
  let t := b.tree bView
  let l := nget b.fcl.leftOut i 0
  mkw (pl (b2n (t.live.getLsbD i)) 31 1 + pl (b2n (t.latch.getLsbD i)) 30 1 +
    pl (b2n (decide (0 < l) && decide (b.now < l + 10000000))) 29 1)

/-- The FCL page from 0x100. -/
def readFcl (v : RView) (off : Nat) : Word :=
  let f := v.live.fcl
  let i := fld (v.live.own v.rd (pFCL + 0x118)) 8 0
  match off with
  | 0x100 => match v.snap with | some p => fclStatus v.bView p.cap p.pub | none => 0
  | 0x104 => v.rosCap fun b => (b.tree v.bView).firstWord
  | 0x108 => v.rosCap fun b => loW (b.tree v.bView).firstTime
  | 0x10C => v.rosCap fun b => hiW (b.tree v.bView).firstTime
  | 0x110 => v.rosCap fun b => loW (b.tree v.bView).firstSent
  | 0x118 => v.live.own v.rd (pFCL + 0x118)
  | 0x11C => v.live.srcCfg i
  | 0x120 => wordOf (v.live.reaction i).zones 0
  | 0x124 => v.rosCap fun b => b.srcState v.bView i
  | 0x128 => v.rosCap fun b => nget (b.tree v.bView).detail i 0
  | 0x12C => v.rosCap fun b => loW (nget (b.tree v.bView).raisedAt i 0)
  | 0x130 => v.rosCap fun b => hiW (nget (b.tree v.bView).raisedAt i 0)
  | 0x134 => mkw (pl (b2n v.live.img.errAlive) 31 1 + pl v.live.img.errThreshold 29 2)
  | 0x138 =>
    if v.bView then mkw (pl (b2n f.signalling) 2 1 + pl (b2n f.rbB) 1 1 + b2n f.driveB)
    else mkw (pl (b2n f.signalling) 2 1 + pl (b2n f.rbA) 1 1 + b2n f.driveA)
  | 0x13C => v.ros fun b => mkw (pl b.fcl.rearm 30 2 + pl b.fcl.rearmUs 0 16)
  | 0x140 => v.ros fun b => if b.haltNow then 0xFFFFFFFF else wordOf b.fcl.zoneStop 0
  | 0x144 => nget v.live.img.regs (pFCL + 0x144) 0
  | 0x148 => mkw (pl (b2n f.corrected.ovf) 31 1 + pl f.selfCode 16 4 + pl f.corrected.n 0 16)
  | 0x14C => f.suppressed.word
  | 0x154 => mkw (pl (if f.chipResetTaken then f.chipResetSource else 0) 16 9 + b2n f.chipResetTaken)
  | _ =>
    if 0x180 ≤ off ∧ off < 0x1C0 then v.rosCap fun b => wordOf (b.tree v.bView).live ((off - 0x180) / 4)
    else if 0x1C0 ≤ off ∧ off < 0x200 then v.rosCap fun b => wordOf (b.tree v.bView).latch ((off - 0x1C0) / 4)
    else if 0x200 ≤ off ∧ off < 0x240 then v.rosCap fun b => wordOf (b.tree v.bView).cofirst ((off - 0x200) / 4)
    else if 0x800 ≤ off then (nget (v.live.tree v.bView).cnt ((off - 0x800) / 4) {}).word
    else 0

end Sys2Proof.Machine
end

