-- ==== Sys2Proof/Machine/Counters.lean ====
section
/-! DEFINITION. The thermometer counters of the antifuse block (R375), which several blocks advance. -/

namespace Sys2Proof.Machine

/-- Steps of counter `k`. -/
def cntSteps (k : Nat) : Nat :=
  match k with
  | 0 => 256
  | 1 => 1024
  | 2 => 32
  | _ => 8

/-- The steps that read burned: at both margins, or at one of them alone. -/
def Blocks.cntBurned (b : Blocks) (k : Nat) : List Nat := nget b.otp.counters k [] ++ nget b.otp.cntMarg k []

/-- The value of a counter: the index of its highest burned step plus 1. -/
def Blocks.cntValue (b : Blocks) (k : Nat) : Nat := (b.cntBurned k).foldl (fun m i => max m (i + 1)) 0

def Blocks.cntExhausted (b : Blocks) (k : Nat) : Bool := decide (b.cntValue k ≥ cntSteps k)

/-- A gap: a step below the highest that is not burned. -/
def Blocks.cntGap (b : Blocks) (k : Nat) : Bool :=
  (List.range (b.cntValue k)).any fun i => !(b.cntBurned k).contains i

/-- An advance burns the step at the value; an exhausted counter stays and raises its source: 494 for the recorder's, 79 for
the others. -/
def State.cntAdvance (k : Nat) (s : State) : State :=
  if s.b.cntExhausted k then s.raise (if k = 2 then 494 else 79) (mkw k)
  else s.onOtp fun o => { o with counters := nupd o.counters k [] fun l => s.b.cntValue k :: l }

/-- Advance a counter step by step until it reads at least `v` (R415, R427). -/
def State.cntRaise (k : Nat) : Nat → Nat → State → State
  | 0, _, s => s
  | n + 1, v, s =>
    if s.b.cntValue k ≥ v then s
    else if s.b.cntExhausted k then s.cntAdvance k
    else (s.cntAdvance k).cntRaise k n v

/-- The unit serial number of region 0. -/
def Blocks.serial (b : Blocks) : BitVec 64 := Config.serial (b.regionData 0)

/-- A region whose content is not used (R359, R366, R371). -/
def Blocks.regionBad (b : Blocks) (r : Nat) : Bool := b.otp.invalid.contains r || b.otp.torn.contains r

/-- The device key can be used (R382, R388): PROVISIONED or DEPLOYED, in the vault, not revoked, regions 2 and 3 good, and
none of sources 88, 89, 90, 91 and 93 waiting for its clear. -/
def Blocks.keyUsable (b : Blocks) : Bool :=
  (b.life == .provisioned || b.life == .deployed) && b.key.vault.isSome && !b.otp.latched.getLsbD 7 && !b.regionBad 2 &&
    !b.regionBad 3 && [88, 89, 90, 91, 93].all fun i => !b.fcl.a.latch.getLsbD i

/-- A signature with the device key (R388). -/
def Blocks.sign (b : Blocks) (digest : BitVec 256) : BitVec 512 := Config.ecdsaSign (b.key.vault.getD 0) digest

/-- A signature as 16 words, word 0 first: r then s, each most significant first. -/
def sigValue (m : NMap Word) : BitVec 512 :=
  BitVec.ofNat 512 (forN 16 (fun j n => n * 2 ^ 32 + (nget m j 0).toNat) 0)

/-- Word `i` of a signature, word 0 most significant. -/
def sigWord (v : BitVec 512) (i : Nat) : Word := wordOf v (15 - i)

/-- An owner certificate of the loaded image verifies a signature over the bytes. -/
def Blocks.ownerSigned (b : Blocks) (owner : Nat) (sig : BitVec 512) (bytes : List Byte) : Bool :=
  match b.cfg.image with
  | some im =>
    match im.certs[owner]? with
    | some c => Config.ecdsaVerify c.pub (Config.sha256 bytes) sig
    | none => false
  | none => false

end Sys2Proof.Machine
end

