-- ==== Sys2Proof/Machine/NandStore.lean ====
section
/-! DEFINITION. The event recorder's NAND operations, recovery at start, read windows, clear, and signed export (R321 to
R340), and the REC page. -/

namespace Sys2Proof.Machine

/-! ### NAND failure (R335) -/

/-- The recorder turns volatile: its ring starts with a failure record, source 488, and a step of the recorder-failure
counter. -/
def State.nandFail (cause : Nat) (s : State) : State :=
  if s.b.recd.isVolatile then s
  else
    let s1 := (s.onRecd fun r => { r with isVolatile := true, clearErasing := false }).cntAdvance 2
    (s1.record 0x0E [Config.recorderFailure cause, BitVec.ofNat 8 (32 - s1.b.cntValue 2)]).cond 488 true (mkw cause)

/-- The recorder works on the NAND: found, not volatile, not stopped by a supply loss. -/
def Blocks.nandOn (b : Blocks) : Bool := b.recd.headFound && !b.recd.isVolatile && !b.resetting .recorder

/-- A program and verify of the oldest buffered record completes; its block must be erased. -/
def State.nandProgram (ok : Bool) (s : State) : State :=
  match s.b.recd.buffer with
  | [] => s
  | x :: _ =>
    if s.b.nandOn && s.b.recd.accepting && !s.b.recd.needsErase then
      let slot := s.b.recd.slotFor x.seq
      let s1 := s.onRecd fun r => (r.overtake fun k => k == slot).program ok
      if s1.b.recd.failsInRow ≥ 3 then s1.nandFail 3 else s1
    else s

def execNandProgramComplete (t : Nat) (verifyOk : Bool) (s : State) : Host.Outcome State Fault Refusal :=
  .next ((s.tick t).nandProgram verifyOk)

/-- Retired blocks of the rolling area. -/
def Recorder.rollingRetired (r : Recorder) : Nat := (r.retired.filter fun k => 256 ≤ k && k < 3072).length

/-- The content of a block is gone. -/
def Recorder.emptied (r : Recorder) (block : Nat) : Recorder :=
  { (r.overtake fun k => slotBlock k == block) with
    nand := r.nand.filter fun e => slotBlock e.1 != block
    erases := nupd r.erases block 0 (· + 1) }

/-- An erase counted: at 96,000 of a rolling block, source 490 (R336). -/
def State.wearCheck (block : Nat) (s : State) : State :=
  if nget s.b.recd.erases block 0 = 96000 ∧ 256 ≤ block then s.raise 490 (mkw block) else s

/-- The erase of a rolling block completes, or fails and retires the block. Pinned blocks are never erased. -/
def State.blockErased (block : Nat) (ok : Bool) (s : State) : State :=
  let due := match s.b.recd.buffer with
    | x :: _ => s.b.recd.needsErase && slotBlock (s.b.recd.slotFor x.seq) == block
    | [] => false
  if s.b.nandOn && due then
    if ok then (s.onRecd fun r => r.emptied block).wearCheck block
    else
      let s1 := (s.onRecd fun r =>
        { (r.overtake fun k => slotBlock k == block) with
          nand := r.nand.filter fun e => slotBlock e.1 != block
          retired := if r.retired.contains block then r.retired else block :: r.retired }).raise 493 (mkw block)
      if s1.b.recd.rollingRetired > 64 then s1.nandFail 2 else s1
  else s

def execBlockEraseComplete (t : Nat) (block : Nat) (ok : Bool) (s : State) : Host.Outcome State Fault Refusal :=
  .next ((s.tick t).blockErased block ok)

/-- An operation has not completed within 10 ms. -/
def execNandTimeout (t : Nat) (s : State) : Host.Outcome State Fault Refusal :=
  .next (if s.b.nandOn then (s.tick t).nandFail 1 else s.tick t)

/-! ### Recovery at start (R25, R51, R223, R331) -/

/-- A record counted as cleared: below the newest clear, outside the pinned area. -/
def Recorder.isCleared (r : Recorder) (slot seq : Nat) : Bool := decide (pinnedSlots ≤ slot) && decide (seq < r.clearedBelow)

/-- The newest clear record that NAND holds. -/
def Recorder.newestClear (r : Recorder) : Nat := (r.valid.filter fun x => x.trigger == 0x06).foldl (fun m x => max m x.seq) 0

/-- Cleared records wait to be erased; the background erase resumes at a start (R338). -/
def Recorder.clearLeft (r : Recorder) : Bool := r.nand.any fun e => match e.2 with
  | some x => r.isCleared e.1 x.record.seq
  | none => false

/-- The records recovery may use. -/
def Recorder.usable (r : Recorder) : List Record := r.valid.filter fun x => !r.isCleared x.slot x.seq

/-- The newest of a list, by sequence number. -/
def newestOf (l : List Record) : Option Record :=
  l.foldl (fun m x => match m with
    | none => some x
    | some y => if y.seq < x.seq then some x else some y) none

/-- The next rolling place at or after `i` that does not hold a torn record: a torn slot is skipped and never written
again; at most one turn of the ring. -/
def skipTorn (nand : NMap (Option NandSlot)) : Nat → Nat → Nat
  | 0, i => i % rollingSlots
  | n + 1, i =>
    match nget nand (pinnedSlots + i % rollingSlots) none with
    | some x => if x.marked then i % rollingSlots else skipTorn nand n (i + 1)
    | none => i % rollingSlots

/-- The next free places of both areas, from what NAND holds. -/
def Recorder.replaced (r : Recorder) (newest : Option Record) : Recorder :=
  let pinned := (r.nand.filter fun e => e.1 < pinnedSlots && e.2.isSome).foldl (fun m e => max m (e.1 + 1)) 0
  let roll := match newest with
    | some x => if x.slot < pinnedSlots then 0 else x.slot - pinnedSlots + 1
    | none => 0
  { r with nextPinned := pinned, nextSlot := skipTorn r.nand rollingSlots roll }

/-- The retention register's fields where its check was valid at start. -/
def Blocks.hintSeq (b : Blocks) : Nat := if b.pwr.retValid then b.pwr.retAtStart.hintSeq else 0
def Blocks.hintSentence (b : Blocks) : Nat := if b.pwr.retValid then b.pwr.retAtStart.sentence else 0

/-- The number after `n`: after 2^48 − 1 comes 1 (R51). -/
def nextSentence (n : Nat) : Nat := if n + 1 ≥ 2 ^ 48 then 1 else n + 1

/-- The recorder after the search: its last number, the power-cycle count, the places to write to. -/
def Recorder.recovered (r : Recorder) (newest : Option Record) (hint : Nat) : Recorder :=
  let n := match newest with | some x => x.seq | none => 0
  { (r.replaced newest) with
    seq := max n hint, headFound := true, isVolatile := false, failsInRow := 0, buffer := []
    powerCycles := min ((match newest with | some x => x.powerCycles | none => 0) + 1) (2 ^ 32 - 1)
    lastCrc := match newest with | some x => x.crc | none => 0
    lastSeq := n, lostNow := r.lostNow + (hint - n), recording := true, clearErasing := r.clearLeft }

/-- What a REC block reset leaves once its buffer is written (R330, R338): windows and exports abandoned, the number and the places
found anew from NAND and the hint; what could be written nowhere is lost. The power-cycle count and a volatile recorder stay. DEDUCED
(log 62). -/
def Recorder.rebuilt (r : Recorder) (hint : Nat) : Recorder :=
  let r1 := { r with windows := [], exports := [], sig := [], buffer := [], ring := [], bufPeak := 0 }
  if r.headFound then
    let newest := newestOf r.usable
    let n := match newest with | some x => x.seq | none => 0
    { (r1.replaced newest) with
      seq := max n hint, lastSeq := n, lastCrc := match newest with | some x => x.crc | none => 0
      failsInRow := 0, lostNow := r.lostNow + (hint - n), clearErasing := r.clearLeft }
  else { r1 with lostNow := r.lostNow + r.buffer.length }

/-- The power-up record (trigger 0x08). -/
def State.powerUpRecord (s : State) : State :=
  s.record 0x08 [BitVec.ofNat 8 s.b.pwr.cause, BitVec.ofNat 8 (b2n s.b.pwr.uncleanFound), BitVec.ofNat 8 (b2n s.b.pwr.retValid)]

/-- A record made before the base was found: rebased, and entered now. -/
def State.enterHeld (base cycles : Nat) (x : Record) (s : State) : State :=
  s.makeRecord true { x with opTime := min (x.opTime + base) (2 ^ 56 - 1), powerCycles := cycles }

/-- The cell-time floor (R223): the newest record with a valid cell time, plus 1 s. -/
def cellFloor (l : List Record) : Nat :=
  match newestOf (l.filter fun x => x.flags.getLsbD 0) with
  | some x => x.cellSec * 1000000000 + x.cellNs + 1000000000
  | none => 0

/-- A life-cycle record whose change of state has lost its own (R395): from the newest record's state to the burned one. -/
def State.lifeRecordAtStart (newest : Option Record) (s : State) : State :=
  match newest with
  | some x =>
    if x.lc < s.b.life.code then
      (s.record 0x04 [BitVec.ofNat 8 x.lc, BitVec.ofNat 8 s.b.life.code]).raise 67 (mkw s.b.life.code)
    else s
  | none => s

/-- The search ends: sequence, power cycles, operating-time base, cell-time floor and first sentence number are fixed; the
power-up record is the first of this power cycle, and the records that waited follow it. -/
def State.headFound (s : State) : State :=
  if s.b.recd.headFound || !s.b.tru.aRunning then s
  else
    let r0 := { s.b.recd with clearedBelow := s.b.recd.newestClear }
    let usable := r0.usable
    let newest := newestOf usable
    let held := s.b.recd.buffer
    let base := match newest with | some x => x.opTime | none => 0
    let s1 := ((((s.onRecd fun _ => r0.recovered newest s.b.hintSeq).onTru fun u =>
        { u with opBase := base, baseValid := true }).onTsy fun y =>
        { y with floorCell := cellFloor usable }).onSys fun y =>
        { y with nextNumber := nextSentence (max s.b.hintSentence (match newest with | some x => x.sentence | none => 0)) }).cond
      488 false
    let cycles := s1.b.recd.powerCycles
    let s2 := (if newest.isSome then s1 else s1.raise 54).powerUpRecord
    let s3 := forL held (fun x s => s.enterHeld base cycles x) s2
    let s4 := (if s1.b.sys.nextNumber = 1 ∧ 2 ^ 48 ≤ max s.b.hintSentence (match newest with | some x => x.sentence | none => 0) + 1
      then s3.raise 5 else s3).lifeRecordAtStart newest
    match newest with
    | some x => if x.powerCycles + 1 = 2 ^ 32 - 1 then s4.raise 492 else s4
    | none => s4

def execHeadSearchComplete (t : Nat) (s : State) : Host.Outcome State Fault Refusal := .next (s.tick t).headFound

/-! ### Read windows (R333) -/

/-- What a window shows of the record numbered `seq`: state, check failed, from the ring, slot, bytes. -/
def Recorder.find (r : Recorder) (seq : Nat) : Window :=
  match r.ring.find? fun x => x.seq == seq with
  | some x => { seq := seq, state := 1, fromRing := true, slot := some (ringSlot seq), reading := true, data := x.bytes }
  | none =>
    match (r.upcoming r.buffer).find? fun x => x.seq == seq with
    | some x => if r.isCleared x.slot seq then { seq := seq, state := 5 } else { seq := seq, state := 1, data := x.bytes }
    | none =>
      let held := r.nand.filter fun e => match e.2 with
        | some x => x.record.seq == seq
        | none => false
      match held.find? fun e => (match e.2 with | some x => x.marked | none => false) with
      | some (slot, some x) =>
        if r.isCleared slot seq then { seq := seq, state := 5 }
        else
          { seq := seq, state := 1, checkFailed := x.record.check != x.record.crc || x.record.slot != slot
            slot := some slot, reading := true, data := x.record.bytes }
      | _ =>
        if held.isEmpty then { seq := seq, state := if r.nextPinned < seq && seq < r.clearedBelow then 5 else 3 }
        else { seq := seq, state := 4 }

/-- What a window loaded with number `seq` shows; nothing is found before the start's search has ended. -/
def Blocks.windowFor (b : Blocks) (seq : Nat) : Window :=
  if b.recd.headFound then b.recd.find seq else { seq := seq, state := 3 }

/-- REC_RD_SEQ_HI loads the reader's window. -/
def State.windowLoad (rd : Nat) (w : Word) (s : State) : State × Nat :=
  let seq := fld w 15 0 * 2 ^ 32 + (s.b.own rd (pREC + 0x128)).toNat
  let x := s.b.windowFor seq
  ((s.setOwn rd (pREC + 0x12C) (w &&& 0xFFFF)).onRecd fun r => { r with windows := nset r.windows rd x {} }, rDone)

def execRecWindowLoad (t : Nat) (rd : Reader) (w : Word) (s : State) : Host.Outcome State Fault Refusal :=
  .next ((s.tick t).plain rd pREC (State.windowLoad rd.idx w))

/-- The last word of the window has been read. -/
def State.windowRead (rd : Nat) (s : State) : State :=
  s.onRecd fun r => { r with windows := nupd r.windows rd {} fun w => { w with reading := false } }

/-! ### Clearing (R334) -/

/-- What an owner certificate signs for a clear. -/
def Blocks.clearBytes (b : Blocks) (rd : Nat) : List Byte :=
  beBytes (b.nonceOf rd).toNat 8 ++ [1] ++ beBytes b.img.cellId.toNat 8

/-- An accepted clear: the clear record takes the next number, everything older in the rolling area is cleared. -/
def State.clearRolling (rd : Reader) (method owner : Nat) (s : State) : State :=
  let newest := s.b.recd.seq
  let s1 := s.record 0x06 (beBytes method 1 ++ beBytes owner 1 ++ beBytes rd.port 1 ++ beBytes newest 6)
  s1.onRecd fun r =>
    { r with clearedBelow := newest + 1, clearErasing := true
             windows := nmapv r.windows {} fun _ w =>
               if w.state ≠ 0 && decide (r.nextPinned < w.seq) && decide (w.seq ≤ newest) then { seq := w.seq, state := 5 } else w
             exports := nmapv r.exports {} fun _ x =>
               if x.state = 1 && x.seqs.any (fun q => (r.nextPinned < q && decide (q ≤ newest))) then { x with state := 3 } else x }

/-- REC_CLEAR. -/
def State.recClear (rd : Reader) (w : Word) (s : State) : State × Nat :=
  let method := fld w 1 0
  let owner := fld w 3 2
  if rd.port = 3 then (s, rNotAuth)
  else if method ≠ 1 ∧ method ≠ 2 then (s, rBadArg)
  else if s.b.recd.isVolatile || s.b.recd.clearErasing then (s.newNonce rd.idx, rRefused)
  else
    let ok := if method = 1 then s.b.proofOk rd else s.b.ownerSigned owner (sigValue s.b.recd.sig) (s.b.clearBytes rd.idx)
    if ok then ((s.newNonce rd.idx).clearRolling rd method owner, rDone)
    else ((s.newNonce rd.idx).raise 8 (mkw rd.idx), rNotAuth)

def execRecClear (t : Nat) (rd : Reader) (w : Word) (s : State) : Host.Outcome State Fault Refusal :=
  .next ((s.tick t).wt rd pREC (wTok w) (State.recClear rd w))

/-- The rolling blocks all of whose records are cleared. -/
def Recorder.clearedBlocks (r : Recorder) : List Nat :=
  let blocks := (r.nand.map fun e => slotBlock e.1).dedup
  blocks.filter fun k => decide (256 ≤ k) && (r.nand.all fun e => slotBlock e.1 != k || (match e.2 with
    | some x => decide (x.record.seq < r.clearedBelow)
    | none => true))

/-- The background erase completes. -/
def State.clearErased (s : State) : State :=
  if s.b.recd.clearErasing then
    forL s.b.recd.clearedBlocks (fun k s => (s.onRecd fun r => r.emptied k).wearCheck k)
      (s.onRecd fun r => { r with clearErasing := false })
  else s

def execClearEraseComplete (t : Nat) (s : State) : Host.Outcome State Fault Refusal := .next (s.tick t).clearErased

/-! ### Firmware requests and counters (R325, R340) -/

/-- REC_FW_REQ: bit 0 makes a record with the code in REC_FW_CODE. -/
def State.fwRequest (w : Word) (s : State) : State × Nat :=
  (if w.getLsbD 0 then s.record 0x09 (beBytes (s.b.rw (pREC + 0x13C)).toNat 4) else s, rDone)

def execRecFwReq (t : Nat) (rd : Reader) (w : Word) (s : State) : Host.Outcome State Fault Refusal :=
  .next ((s.tick t).wt rd pREC (wTok w) (State.fwRequest w))

/-- REC_CTR_CLEAR: bit 0 clears REC_LOST and the peak of REC_BUF. -/
def State.recCtrClear (w : Word) (s : State) : State × Nat :=
  (if w.getLsbD 0 then s.onRecd fun r => { r with lost := {}, bufPeak := r.buffer.length } else s, rDone)

def execRecCtrClear (t : Nat) (rd : Reader) (w : Word) (s : State) : Host.Outcome State Fault Refusal :=
  .next ((s.tick t).wt rd pREC (wTok w) (State.recCtrClear w))

/-! ### Signed export (R337) -/

def State.onExport (rd : Nat) (f : Export → Export) (s : State) : State :=
  s.onRecd fun r => { r with exports := nupd r.exports rd {} f }

/-- A record that can be read in state 1. -/
def Recorder.readable (r : Recorder) (seq : Nat) : Bool := (r.find seq).state == 1

/-- Op start: refused without a usable device key; else the stream is formed. -/
def State.exportBegin (rd : Nat) (s : State) : State × Nat :=
  let x := nget s.b.recd.exports rd {}
  if x.count < 1 ∨ 1024 < x.count then (s, rBadArg)
  else if !s.b.keyUsable || x.state == 1 then
    (if x.state = 1 then s else s.onExport rd fun x => { x with state := 4 }, rRefused)
  else
    (s.onExport rd fun x =>
      { x with state := 1
               seqs := ((List.range x.count).map (x.first + ·)).filter s.b.recd.readable }, rDone)

def execExportStart (t : Nat) (rd : Reader) (token : BitVec 16) (s : State) : Host.Outcome State Fault Refusal :=
  .next ((s.tick t).wt rd pREC token (State.exportBegin rd.idx))

/-- Op abandon ends the reader's export. -/
def State.exportAbandon (rd : Nat) (s : State) : State × Nat :=
  (s.onExport rd fun x => { x with state := 0, seqs := [] }, rDone)

def execExportAbandon (t : Nat) (rd : Reader) (token : BitVec 16) (s : State) : Host.Outcome State Fault Refusal :=
  .next ((s.tick t).wt rd pREC token (State.exportAbandon rd.idx))

/-- The export header. -/
def Blocks.exportHeader (b : Blocks) (x : Export) : List Byte :=
  fitBytes (beBytes 1 2 ++ beBytes x.seqs.length 2 ++ beBytes b.serial.toNat 8 ++ beBytes b.img.cellId.toNat 8 ++
    beBytes x.first 6 ++ beBytes (x.first + x.count - 1) 6 ++
    (List.range 4).flatMap (fun i => beBytes (nget x.nonce i 0).toNat 4) ++ beBytes b.optime 7 ++ beBytes b.life.code 1 ++
    beBytes b.recd.powerCycles 4) 64

/-- The stream is complete: header, digest over header and records, signature; overtaken, and unsigned, where a record of
it can no longer be read. -/
def State.exportFinish (rd : Nat) (s : State) : State :=
  let x := nget s.b.recd.exports rd {}
  if x.state ≠ 1 then s
  else if x.seqs.all s.b.recd.readable then
    let h := s.b.exportHeader x
    let d := Config.sha256 (h ++ x.seqs.flatMap fun q => (s.b.recd.find q).data)
    s.onExport rd fun x => { x with state := 2, header := h, hash := d, sig := s.b.sign d }
  else s.onExport rd fun x => { x with state := 3 }

def execExportComplete (t : Nat) (rd : Reader) (s : State) : Host.Outcome State Fault Refusal :=
  .next ((s.tick t).exportFinish rd.idx)

/-! ### The REC page (R340) -/

/-- The sequence number in a slot that can be read: marked, and not cleared. -/
def Recorder.readableAt (r : Recorder) (e : Nat × Option NandSlot) : Option Nat :=
  match e.2 with
  | some x => if x.marked && !r.isCleared e.1 x.record.seq then some x.record.seq else none
  | none => none

/-- The oldest rolling record readable. -/
def Recorder.oldest (r : Recorder) : Nat :=
  ((r.nand.filter fun e => pinnedSlots ≤ e.1).filterMap r.readableAt).foldl (fun m x => if m = 0 ∨ x < m then x else m) 0

/-- The records in the pinned area. -/
def Recorder.pinned (r : Recorder) : Nat := ((r.nand.filter fun e => e.1 < pinnedSlots).filterMap r.readableAt).length

/-- REC_WEAR's share of 120,000 erases in 0.1 % steps. -/
def Recorder.wear (r : Recorder) : Nat :=
  (r.erases.filter fun e => 256 ≤ e.1 && e.1 < 3072).foldl (fun m e => max m (e.2 * 1000 / 120000)) 0

/-- The REC page from 0x100. -/
def readRec (v : RView) (off : Nat) : Word :=
  let r := v.live.recd
  let w := nget r.windows v.rd {}
  let x := nget r.exports v.rd {}
  let p := nget v.live.img.profiles (fld (v.live.own v.rd (pREC + 0x184)) 4 0) {}
  match off with
  | 0x100 =>
    mkw (pl (b2n (x.state == 1)) 7 1 + pl (b2n r.clearErasing) 6 1 + pl (b2n (decide (r.wear ≥ 800))) 5 1 +
      pl (b2n r.isVolatile) 4 1 + pl (b2n (decide (r.pinned ≥ pinnedSlots))) 3 1 + pl (b2n r.stuck) 2 1 +
      pl (b2n r.headFound) 1 1 + b2n (r.recording && r.accepting))
  | 0x104 => loW r.seq
  | 0x108 => hiW r.seq
  | 0x10C => loW r.oldest
  | 0x110 => hiW r.oldest
  | 0x114 => mkw r.pinned
  | 0x118 => mkw (pl r.buffer.length 0 10 + pl r.bufPeak 16 10)
  | 0x11C => r.lost.word
  | 0x120 => mkw (pl r.rollingRetired 16 12 + pl r.wear 0 10)
  | 0x124 => loW r.powerCycles
  | 0x128 => v.live.own v.rd (pREC + 0x128)
  | 0x12C => v.live.own v.rd (pREC + 0x12C)
  | 0x130 =>
    let f := w.state == 1 || w.state == 2
    mkw (pl (b2n (f && w.fromRing)) 5 1 + pl (b2n (f && w.checkFailed)) 4 1 + pl w.state 0 3)
  | 0x13C => v.live.rw (pREC + 0x13C)
  | 0x184 => v.live.own v.rd (pREC + 0x184)
  | 0x188 => mkw (pl (b2n p.en) 31 1 + pl p.trigger 26 5 + pl p.minSev 24 2 + pl p.addrs.length 0 8)
  | 0x18C => mkw (pl p.lo 0 16 + pl p.hi 16 16)
  | 0x194 => loW x.first
  | 0x198 => hiW x.first
  | 0x19C => mkw x.count
  | 0x1A0 => mkw x.state
  | _ =>
    if 0x1B0 ≤ off ∧ off < 0x1C0 then nget x.nonce ((off - 0x1B0) / 4) 0
    else if 0x1C0 ≤ off ∧ off < 0x200 then mkw (beAt x.header (off - 0x1C0) 4)
    else if 0x200 ≤ off ∧ off < 0x220 then wordOf x.hash (7 - (off - 0x200) / 4)
    else if 0x220 ≤ off ∧ off < 0x260 then sigWord x.sig ((off - 0x220) / 4)
    else if 0x800 ≤ off ∧ off < 0xC00 then mkw (beAt w.data (off - 0x800) 4)
    else 0

end Sys2Proof.Machine
end

