-- ==== Sys2Proof/Machine/BlockReset.lean ====
section
/-! DEFINITION. Block resets (R306): how one begins at the end of the raising round, what it wipes, and how it completes. -/

namespace Sys2Proof.Machine

/-- The block that a source's block reset takes: its owning page's, the pair or unit that its record names for CPR and CVU
sources; none where block reset is not permitted. -/
def blockOf (i unit : Nat) : Option Block :=
  if i < 96 then none
  else if i < 144 then some .fab
  else if i < 208 then some .lio
  else if i < 224 then some .tpg
  else if i < 256 then some .sog
  else if i < 288 then some .sto
  else if i < 336 then some .mea
  else if i < 352 then some .axs
  else if i < 372 then some .sep
  else if i < 384 then some .kin
  else if i < 390 then none
  else if i < 398 then some .net
  else if i < 406 then none
  else if i < 416 then some .net
  else if i < 448 then some .sfr
  else if (452 ≤ i ∧ i < 464) ∨ (465 ≤ i ∧ i < 469) then
    if h : unit < 4 then some (.cpr ⟨unit, h⟩) else none
  else if i < 480 then none
  else if i < 488 then if h : unit < 16 then some (.cvu ⟨unit, h⟩) else none
  else if i < 496 then some .recorder
  else if i < 504 then some .bst
  else if i < 508 then none
  else some .hif

/-- A fabric after its block reset: state, values, objects and publish buffers wiped; tables and statistics kept. -/
def FabCh.wiped (f : FabCh) : FabCh :=
  { f with values := [], clauseSt := [], clauseNew := [], fnSt := [], fnNew := [] }

/-- Every output and STO lichen is held as by an interjection at this instant, so that the commit of the first sentence
captured afterwards releases it. -/
def State.holdAll (s : State) : State :=
  let f := fun (g : Stage) => forN 16 (fun k g => g.intj k s.b.now) g
  (s.onSog fun o => { o with a := f o.a, b := f o.b }).onSto fun o => { o with a := f o.a, b := f o.b }

/-- A sequencer's stores, position and counts wiped; the statistics, the last failure and BST_CTRL stay. -/
def Seqr.wiped (q : Seqr) : Seqr :=
  { suspend := q.suspend, force := q.force, forceIndex := q.forceIndex, passes := q.passes, aborts := q.aborts
    lost := q.lost, failKind := q.failKind, failIndex := q.failIndex, failSig := q.failSig, failCount := q.failCount }

/-- Both sequencers wiped; the pass restarts at index 0 (R354). -/
def Bst.wiped (b : Bst) (now : Nat) : Bst := { a := b.a.wiped, b := b.b.wiped, passStart := now }

/-- The first-use state of a block. -/
def State.blockFirstUse (k : Block) (s : State) : State :=
  match k with
  | .fab => ((s.onFab fun f => { f with a := f.a.wiped, b := f.b.wiped, resetLanes := 0, resetFns := [] }).onMea Mea.readopt).holdAll
  | .lio => s.lioFirstUse
  | .tpg => s.tpgFirstUse
  | .sog => s.onSog fun o => o.firstUse s.b.now
  | .sto => s.onSto fun o => o.firstUse s.b.now
  | .mea => (s.onMea Mea.firstUse).axesBegin true
  | .axs => (s.onMea Mea.readopt).axesBegin false
  | .sep => s.onSep Sep.firstUse
  | .kin => s.onSep Sep.firstUse
  | .net => s.onNet fun n => n.firstUse s.b.cellNs
  | .sfr => s.startSessions
  | .recorder => s.onRecd fun r => { r with windows := [], exports := [], sig := [] }
  | .bst => s.onBst fun b => b.wiped s.b.now
  | .hif => s.onHif fun _ => {}
  | .cpr j => s.onPair j.val Pair.reset
  | .cvu n => s.onCvu n.val fun _ => {}

/-- A FAB block reset begins: pins fall, every producer field takes its safe encoding, the publish buffers are wiped, and the
sentence under way can only be abandoned. -/
def State.fabStops (s : State) : State :=
  let s1 := s.darkAborts.safeFields
  { (s1.onSys fun y => { y with doomed := y.doomed || y.evaluating }) with
    shown := s1.shown.map fun p =>
      { p with pub := { p.pub with fab := { p.pub.fab with a := p.pub.fab.a.wiped, b := p.pub.fab.b.wiped } } } }

/-- What a block does as its reset begins: the recorder writes its buffer (R330), a running spore aborts, pins fall. -/
def State.blockStops (k : Block) (s : State) : State :=
  match k with
  | .recorder =>
    (if s.b.recd.headFound && !s.b.recd.isVolatile then s.onRecd fun r => r.flush r.buffer.length else s).onRecd fun r =>
      r.rebuilt s.b.pwr.ret.hintSeq
  | .fab => s.fabStops
  | .sog => s.darkAborts
  | .bst => (((s.sporeAbort .a .blockReset).sporeAbort .b .blockReset)).blockFirstUse .bst
  | k => s.blockFirstUse k

/-- A block reset begins; one that is under way goes on. -/
def State.beginReset (k : Block) (s : State) : State :=
  if s.b.resetting k then s else (s.on fun b => { b with inReset := k :: b.inReset }).sporesOff k |>.blockStops k

/-- A block reset completes: the block is in its first-use states. A wipe that fails verification raises source 65 (R394). -/
def State.completeReset (k : Block) (wipeOk : Bool) (s : State) : State :=
  if s.b.resetting k then
    let s1 := (s.blockFirstUse k).on fun b => { b with inReset := b.inReset.filter (· != k) }
    if wipeOk then s1 else s1.raise 65
  else s

def execBlockResetComplete (t : Nat) (b : Block) (wipeOk : Bool) (s : State) : Host.Outcome State Fault Refusal :=
  .next ((s.tick t).completeReset b wipeOk)

end Sys2Proof.Machine
end

