-- ==== Sys2Proof/Machine/Spores.lean ====
section
/-! DEFINITION. Spores (R341 to R356): the two sequencers, slack and budget, running, abort, fall-back, compare, the pass and
the diagnostic test interval, and the BST page. Which index has which kind and occupies which blocks is the unit's
(`Config`). -/

namespace Sys2Proof.Machine

/-! ### Slack, budget and start (R343) -/

/-- b in %, and the slack of the sentence just published, in ns. -/
def Blocks.budget (b : Blocks) : Nat := fld (b.set (pBST + 0x104)) 6 0
def Blocks.nextCapture (b : Blocks) : Nat := b.sys.lastCapture + b.sys.period
def Blocks.slackNs (b : Blocks) : Nat := b.nextCapture - 5000 - b.sys.lastPublish

/-- The window of a spore is open from now for `dur` ns. -/
def Blocks.windowOpen (b : Blocks) (index dur : Nat) : Bool :=
  let occ := Config.sporeBlocks index
  let guard := if occ.contains .axs || occ.contains .mea then 25000 else 5000
  decide (b.sys.lastPublish ≥ b.sys.lastCapture) && decide (b.now ≥ b.sys.lastPublish) &&
    decide (b.now + dur + guard ≤ b.nextCapture) &&
    (if occ.contains .sep || occ.contains .kin then b.sep.update.isNone else true)

/-- Spore time a sequencer has used in the sentence. -/
def Seqr.used (q : Seqr) (n : Nat) : Nat := if q.usedSent = n then q.usedNs else 0

/-- Neither sequencer started a spore in the previous 15 sentences. -/
def Bst.allowance (b : Bst) (n : Nat) : Bool :=
  let idle := fun (q : Seqr) => match q.lastStart with
    | some m => decide (n > m + 15)
    | none => true
  idle b.a && idle b.b

/-- Spores are suspended: by BST_CTRL, or while the re-arm check runs. -/
def Blocks.sporesHeld (b : Blocks) (c : Ch) : Bool := (b.bst.seq c).suspend || decide (b.fcl.rearm = 1)

/-- A sequencer may start this spore now. Condition 3 of R343, that none of its blocks has work due, is the sender's. -/
def Blocks.mayStart (b : Blocks) (c : Ch) (index : Nat) : Bool :=
  let q := b.bst.seq c
  let dur := sporeDur (kindOf index)
  b.running && !b.resetting .bst && !b.sporesHeld c && q.running.isNone && !(q.shareDone && !q.force) &&
    decide (q.waitSent ≠ some b.sys.sent) && b.windowOpen index dur &&
    (q.force || decide ((q.used b.sys.sent + dur) * 100 ≤ b.budget * b.slackNs) || b.bst.allowance b.sys.sent)

/-- A spore starts. A comparison spore asks its pair for alignment (R274). -/
def State.sporeStart (c : Ch) (s : State) : State :=
  let q := s.b.bst.seq c
  match q.due c with
  | none => s
  | some i =>
    if s.b.mayStart c i then
      let s1 := s.onSeqr c fun q =>
        { q with running := some { index := i, start := s.b.now, forced := q.force }, lastStart := some s.b.sys.sent
                 usedSent := s.b.sys.sent, usedNs := q.used s.b.sys.sent }
      if kindOf i = 3 then
        match s.b.pairAt ((Config.sporeMemory i).val * 16384) with
        | some k => s1.onPair k fun p => if p.state = 1 then { p with asked := true } else p
        | none => s1
      else s1
    else s

def execSporeStart (t : Nat) (ch : Ch) (s : State) : Host.Outcome State Fault Refusal := .next ((s.tick t).sporeStart ch)

/-! ### The end of a spore (R345 to R348) -/

def execSporeAbort (t : Nat) (ch : Ch) (cause : AbortCause) (s : State) : Host.Outcome State Fault Refusal :=
  .next ((s.tick t).sporeAbort ch cause)

/-- A fabric lane is lost in one channel (R114): at the next capture both channels start its clauses anew. -/
def State.loseLane (c : Ch) (lane : Nat) (s : State) : State :=
  (s.onFab fun f =>
      let g := { f with resetLanes := setb f.resetLanes lane true }
      match c with
      | .a => { g with a := { g.a with laneLost := setb g.a.laneLost lane true } }
      | .b => { g with b := { g.b with laneLost := setb g.b.laneLost lane true } }).raise
    (match c with | .a => 106 | .b => 107) (mkw lane)

/-- Frames are discarded from the switch buffer. -/
def State.dropFrames (frames : List (Nat × Nat)) (s : State) : State :=
  forL (List.range 6) (fun p s => s.onPort p fun x =>
    { x with queued := (x.queued.zipIdx.filter fun y => !frames.contains (p, y.2)).map (·.1) }) s

/-- Records are lost from the recorder's buffer, and counted. -/
def State.dropRecords (places : List Nat) (s : State) : State :=
  s.onRecd fun r =>
    let kept := (r.buffer.zipIdx.filter fun y => !places.contains y.2).map (·.1)
    { r with buffer := kept, lostNow := r.lostNow + (r.buffer.length - kept.length) }

/-- A core's cache lost a region: invalidated and fetched again (R259). -/
def State.cacheLost (c : Ch) (k : Nat) (s : State) : State :=
  (s.onPair k fun p => p.onCore c fun x => { x with cacheErr := x.cacheErr.inc }).raise 473 (mkw k) none k

/-- What losing a region in spore `index` does (R348). -/
def State.regionLost (c : Ch) (index : Nat) (g : LostRegion) (s : State) : State :=
  match g with
  | .clauseState lane => s.loseLane c lane.val
  | .fnState inst => s.onFab fun f => { f with resetFns := inst :: f.resetFns }
  | .namespaceOrBuffer => s
  | .separationBank => (s.beginReset .sep).beginReset .kin
  | .pairMemory o => s.memUncorrectable o (c == .a) (c == .b)
  | .cache k => s.cacheLost c k.val
  | .switchBuffer frames => s.dropFrames frames
  | .recorderBuffer places => s.dropRecords places
  | .logic .fab (some lane) => s.loseLane c lane.val
  | .logic b _ => s.beginReset b
  | .otherLogic => s.raise 502 (sporeWord index)

/-- A save or restore check fails: fall-back, source 500, and the spore is discarded. -/
def State.fallBack (c : Ch) (r : Running) (g : LostRegion) (s : State) : State :=
  let s1 := ((s.sporeEnds c r).onSeqr c fun q => { q with lost := q.lost.inc }).raise 500 (sporeWord r.index)
  s1.regionLost c r.index g

/-! ### Compare (R349, R350) -/

/-- The last failed compare of a view. -/
def State.noteFail (c : Ch) (r : Running) (f : SporeFinding) (s : State) : State :=
  s.onSeqr c fun q =>
    { q with failKind := kindOf r.index, failIndex := r.index, failSig := f.signature, failCount := f.count % 2 ^ 20 }

/-- A tone that fails: source 292 of the encoder's axis or 295 of the analogue lichen. -/
def State.toneFail (index : Nat) (s : State) : State :=
  let k := (Config.sporeConverter index).val
  if k < 32 then s.encFail (k / 2) 292 true else s.ainFail (k - 32) 295

/-- The comparison spore's findings. -/
def State.compareMemory (index : Nat) (f : SporeFinding) (s : State) : State :=
  let s1 := forL (f.uncorrA ++ f.uncorrB).dedup
    (fun a s => s.memUncorrectable a (f.uncorrA.contains a) (f.uncorrB.contains a)) s
  s1.compareBlock (Config.sporeMemory index).val

/-- The comparator spore's findings; eight that pass complete an injection set. -/
def State.compareInjections (f : SporeFinding) (s : State) : State :=
  let s1 := if f.pass then s else (s.raise 450).blockAll
  let s2 := if f.equalOk then s1 else (s1.raise 451).blockAll
  if f.pass && f.equalOk then
    let s3 := s2.onBst fun b => { b with injSpores := (b.injSpores + 1) % 8 }
    if s.b.bst.injSpores + 1 ≥ 8 then s3.onAgr fun a => { a with injPass := a.injPass.inc } else s3
  else s2

/-- The result of a complete spore. -/
def State.sporeResult (c : Ch) (r : Running) (f : SporeFinding) (s : State) : State :=
  match kindOf r.index with
  | 1 => if f.pass then s else (s.noteFail c r f).raise (match c with | .a => 496 | .b => 497) (sporeWord r.index)
  | 2 => if f.pass then s else (s.noteFail c r f).raise 499 (sporeWord r.index)
  | 3 => s.compareMemory r.index f
  | 4 => s.compareInjections f
  | 5 => if f.pass then s else (s.noteFail c r f).toneFail r.index
  | _ => if f.pass then s else s.raise 78 (sporeWord r.index)

/-! ### The pass (R341, R353) -/

/-- t_dti_max in ns. -/
def Blocks.dtiMax (b : Blocks) : Nat := b.img.tDtiMaxS * 1000000000

/-- Both shares are complete: the pass ends, the next one begins. -/
def State.passEnds (s : State) : State :=
  let d := s.b.now - s.b.bst.passStart
  let again := fun (q : Seqr) => { q with next := 0, deferred := [], done := 0, shareDone := false, passes := q.passes.inc }
  let s1 := (s.onBst fun b =>
    { b with a := again b.a, b := again b.b, firstDone := true, lastPass := d, passStart := s.b.now, injSpores := 0 }).onAgr
    fun a => { a with memPass := a.memPass.inc }
  if d ≤ s.b.dtiMax then s1.cond 501 false else s1

/-- A sequencer's spore is complete: it takes the next one of its share. -/
def State.sporeDone (c : Ch) (r : Running) (s : State) : State :=
  let s1 := s.onSeqr c fun q =>
    if r.forced then { q with force := false, abortRun := 0 }
    else
      let q1 := if q.next < shareOf c then { q with next := q.next + 1 } else { q with deferred := q.deferred.drop 1 }
      let q2 := { q1 with done := q.done + 1, abortRun := 0 }
      if (q2.place c).isNone then
        { q2 with shareDone := true, lastPassMs := (s.b.now - s.b.bst.passStart) / 1000000 }
      else q2
  if s1.b.bst.a.shareDone && s1.b.bst.b.shareDone then s1.passEnds else s1

/-- A comparison spore whose pair runs and is not aligned: it compares nothing, and is aborted once 2 microseconds have passed
(R274). -/
def Blocks.unaligned (b : Blocks) (r : Running) : Bool :=
  kindOf r.index == 3 && match b.pairAt ((Config.sporeMemory r.index).val * 16384) with
    | some k => (b.pairOf k).state == 1 && !(b.pairOf k).aligned
    | none => false

/-- A running spore has passed its longest duration or reached the 5 microsecond guard (R346). -/
def Blocks.outOfTime (b : Blocks) (r : Running) : Bool :=
  decide (r.start + sporeDur (kindOf r.index) < b.now) || (decide (r.start < b.nextCapture) && decide (b.nextCapture < b.now + 5000))

/-- One step of a running spore: kinds 1 and 2 have 16 steps, the others end with their last one. -/
def State.sporeStep (c : Ch) (f : SporeFinding) (s : State) : State :=
  match (s.b.bst.seq c).running with
  | none => s
  | some r =>
    if s.b.outOfTime r then s.sporeAbort c .timeLimit
    else if s.b.unaligned r then (if s.b.now ≥ r.start + 2000 then s.sporeAbort c .noAlignment else s)
    else if f.restoreOk = false then s.fallBack c r f.region
    else
      let r1 := { r with steps := r.steps + 1 }
      let complete := if kindOf r.index ≤ 2 then decide (r1.steps = 16) else f.last
      if complete then ((s.sporeEnds c r).sporeResult c r f).sporeDone c r
      else s.onSeqr c fun q => { q with running := some r1 }

def execSporeStep (t : Nat) (ch : Ch) (f : SporeFinding) (s : State) : Host.Outcome State Fault Refusal :=
  .next ((s.tick t).sporeStep ch f)

/-- The diagnostic test interval (R353), in ns. -/
def Blocks.dti (b : Blocks) : Nat :=
  let e := b.now - b.bst.passStart
  if b.bst.firstDone then max b.bst.lastPass e else e

/-- The interval exceeds t_dti_max: source 501. -/
def State.dtiExceeded (s : State) : State :=
  if s.b.running && decide (s.b.dti > s.b.dtiMax) then s.cond 501 true (mkw (s.b.dti / 1000000)) else s

def execDtiExceeded (t : Nat) (s : State) : Host.Outcome State Fault Refusal := .next (s.tick t).dtiExceeded

/-! ### The guaranteed pass time (R352) -/

/-- p_guar in ns for a sentence period and a budget, from twice W_sep; none where s_g is below 8 us. -/
def passGuaranteed (ts budget eBound sepTwice : Nat) : Option Nat :=
  let need := max (2 * eBound + 4000) sepTwice + 50000
  if 2 * ts < need + 16000 then none
  else
    let k := budget * (2 * ts - need) / 1600000
    if k = 0 then some (5013 * 16 * ts) else some ((5013 + k - 1) / k * ts)

/-- Twice W_sep as the hub recomputes it (R202), in ns; 0 without separation. -/
def Blocks.sepTwice (b : Blocks) : Nat :=
  match b.grid with
  | some c => c.workTwice
  | none => 0

def Blocks.pGuar (b : Blocks) : Option Nat := passGuaranteed b.tsNs b.budget b.img.eBound b.sepTwice

/-! ### Test control (R356) -/

/-- BST_CTRL of one view: only in MANUFACTURE, as R118. -/
def State.bstCtrl (c : Ch) (w : Word) (s : State) : State × Nat :=
  if s.b.life = .manufacture then
    (s.onSeqr c fun q => { q with suspend := w.getLsbD 15, force := w.getLsbD 14, forceIndex := fld w 13 0 }, rDone)
  else (s, rRefused)

/-- The address of BST_CTRL in a view. -/
def bstCtrlAddr (c : Ch) : Nat := pBST + 0x400 + (match c with | .a => 0 | .b => 0x100000)

def execBstSuspend (t : Nat) (rd : Reader) (ch : Ch) (w : Word) (s : State) : Host.Outcome State Fault Refusal :=
  .next ((s.tick t).expertAt rd pBST (bstCtrlAddr ch) w (State.bstCtrl ch w))

def execBstForce (t : Nat) (rd : Reader) (ch : Ch) (w : Word) (s : State) : Host.Outcome State Fault Refusal :=
  .next ((s.tick t).expertAt rd pBST (bstCtrlAddr ch) w (State.bstCtrl ch w))

/-- BST_CTR_CLEAR of one view: bit 0 clears the counters and BST_LAST_FAIL. -/
def State.bstCtrClear (c : Ch) (w : Word) (s : State) : State × Nat :=
  (if w.getLsbD 0 then
    s.onSeqr c fun q =>
      { q with passes := {}, aborts := {}, lost := {}, failKind := 0, failIndex := 0, failSig := 0, failCount := 0 }
   else s, rDone)

def execBstCtrClear (t : Nat) (rd : Reader) (ch : Ch) (w : Word) (s : State) : Host.Outcome State Fault Refusal :=
  .next ((s.tick t).wt rd pBST (wTok w) (State.bstCtrClear ch w))

/-! ### The BST page (R356) -/

/-- BST_STATUS. -/
def Blocks.bstStatus (b : Blocks) (c : Ch) : Word :=
  mkw (pl (b2n b.running) 4 1 + pl (b2n (b.sporesHeld c)) 3 1 + pl (b2n b.pGuar.isSome) 2 1 + pl (b2n b.bst.firstDone) 1 1 +
    b2n (b.running && !b.resetting .bst && !b.sporesHeld c))

/-- The BST page from 0x100. -/
def readBst (v : RView) (off : Nat) : Word :=
  let c := viewCh v
  let q := v.live.bst.seq c
  match off with
  | 0x100 => v.ros fun b => b.bstStatus c
  | 0x104 => v.live.rwsRead (pBST + 0x104)
  | 0x108 => mkw (pl v.live.img.tDtiMaxS 0 10)
  | 0x10C =>
    if v.live.cfg.image.isNone then 0
    else match v.live.pGuar with
      | some p => mkw ((p + 999999) / 1000000)
      | none => 0xFFFFFFFF
  | 0x110 => v.ros fun b => mkw (min (b.dti / 1000000) 0xFFFFFFFF)
  | 0x114 => mkw q.lastPassMs
  | 0x118 => v.ros fun b =>
      let q := b.bst.seq c
      mkw (pl q.done 16 13 + pl (((q.due c).getD (Config.sporeIndex c 0).val)) 0 14)
  | 0x11C => q.passes.word
  | 0x120 => q.aborts.word
  | 0x124 => q.lost.word
  | 0x128 => mkw (pl q.failKind 16 3 + pl q.failIndex 0 14)
  | 0x12C => loW q.failSig.toNat
  | 0x130 => hiW q.failSig.toNat
  | 0x134 => mkw q.failCount
  | 0x400 => mkw (pl (b2n q.suspend) 15 1 + pl (b2n q.force) 14 1 + pl q.forceIndex 0 14)
  | _ =>
    if 0x804 ≤ off ∧ off ≤ 0x818 then
      let k := (off - 0x800) / 4
      mkw (pl (sporeDur k / 100) 16 8 + pl (sporeCount c k) 0 13)
    else 0

end Sys2Proof.Machine
end

