-- ==== Sys2Proof/Machine/Rounds.lean ====
section
/-! DEFINITION. The close of a collector round (R308 to R315): both trees, the record, the reactions, and then the clear
commands that waited for it. -/

namespace Sys2Proof.Machine

/-! ### Reactions at the end of the raising round (R301 to R307) -/

/-- HIF_IRQ bit `i` becomes pending (R439). -/
def State.hifPend (i : Nat) (s : State) : State := s.onHif fun h => { h with irqPend := setb h.irqPend i true }

/-- A block reset in a vector, where R306 permits it. -/
def State.reactReset (c : Change) (s : State) : State :=
  match blockOf c.id c.unit with
  | some k => s.beginReset k
  | none => s

/-- What one raise does. -/
def State.react (c : Change) (s : State) : State :=
  let v := s.b.effVec c.id
  let s1 := if s.b.actsHalt c.id then s.enterHalt else if c.sev = 2 then s.stopZones c.zones else s
  let s2 := if v.getLsbD 1 && !s.b.actsHalt c.id then s1.deliverNmi else s1
  let s3 := if v.getLsbD 2 then s2.reactReset c else s2
  let s4 := if v.getLsbD 3 then s3.chipDue c.id else s3
  let s5 := if s.b.img.errThreshold ≤ c.sev then s4.hifPend 0 else s4
  if 480 ≤ c.id ∧ c.id ≤ 482 then s5.onCvu c.unit fun u => { u with failed := true } else s5

/-! ### Clears (R314) -/

/-- What a block does when the latch of one of its sources is cleared. -/
def State.onClear (i : Nat) (s : State) : State :=
  if i = 144 then s.cleared144
  else if (145 ≤ i ∧ i ≤ 148) ∨ i = 208 ∨ i = 209 then s.clearedTpf i
  else if 224 ≤ i ∧ i ≤ 229 then s.onSog fun o => o.clearLock i
  else if i = 256 ∨ i = 257 ∨ i = 260 ∨ i = 261 then s.onSto fun o => o.clearLock i
  else if 288 ≤ i ∧ i ≤ 292 then s.clearedEnc i
  else if 293 ≤ i ∧ i ≤ 295 then s.clearedAin i
  else if 336 ≤ i ∧ i ≤ 346 then s.clearedAxs i
  else if i = 372 then s.cleared372
  else if i = 395 then s.cleared395
  else s

/-- A tree with a latch cleared. -/
def Tree.unlatch (t : Tree) (i : Nat) : Tree := { t with latch := setb t.latch i false, zones := nset t.zones i 0 0 }

/-- A latch is cleared: its source contributes nothing any more, and the clear is recorded. -/
def State.unlatch (c : Clear) (result i : Nat) (s : State) : State :=
  let port := if c.reader < 4 then 0 else if c.reader = 4 then 1 else if c.reader < 9 then 2 else 3
  let s1 := s.onFcl fun f =>
    { f with a := f.a.unlatch i, b := f.b.unlatch i, seen := setb f.seen i false
             clearCount := nupd f.clearCount i 0 (· + 1) }
  (s1.onClear i).record 0x05 (beBytes i 2 ++ beBytes port 1 ++ beBytes c.token.toNat 2 ++ beBytes result 1)

/-- The sources that were live in the round: conditions still live, and the events it raised. -/
def liveInRound (b : Blocks) (raises : List Change) (i : Nat) : Bool := b.fcl.a.live.getLsbD i || raises.any fun c => c.id == i

/-- The latched sources that a command names: of its page, or of every page. -/
def Blocks.clearPool (b : Blocks) (c : Clear) : List Nat :=
  b.latchedIds.filter fun i => c.whole || owningPage i == c.page

/-- One clear command at the close, after the round's arrivals. -/
def State.runClear (raises : List Change) (c : Clear) (s : State) : State :=
  let live := liveInRound s.b raises
  if c.all then
    let pool := s.b.clearPool c
    let left := pool.any live
    let r := if left then rStillLive else rDone
    let s1 := forL (pool.filter fun i => !live i) (fun i s => s.unlatch c r i) s
    let s2 := if left || c.whole then s1
      else s1.onSys fun y => { y with faultCounts := nset y.faultCounts c.page {} {} }
    s2.settle c.page c.reader c.token r
  else if !c.whole && owningPage c.source != c.page then s.settle c.page c.reader c.token rBadArg
  else if live c.source then s.settle c.page c.reader c.token rStillLive
  else
    (if s.b.fcl.a.latch.getLsbD c.source then s.unlatch c rDone c.source else s).settle c.page c.reader c.token rDone

/-! ### The close -/

/-- Both trees, the page counters and the locks take the round. -/
def State.applyRound (l : List Change) (s : State) : State :=
  let now := s.b.rulerA
  let op := s.b.optime
  (((s.onFcl fun f =>
      { f with a := f.a.close l now s.b.sys.sent op, b := f.b.close l now s.b.sys.sent op }).onSys fun y =>
      { y with faultCounts := (raisesOf l).foldl (fun m (c : Change) => nupd m (owningPage c.id) {} Ctr.inc) y.faultCounts }).onSog
    OutBlock.applyLocks).onSto OutBlock.applyLocks

/-- What arrives from now on belongs to the next round. -/
def State.newRound (s : State) : State := s.onFcl fun f => { f with arrivals := [], clears := [], roundOpen := false }

/-- The health entries that the round set to 0 trigger their interjections (R65, R113), in index order of the table. -/
def State.healthTriggers (before : Blocks) (s : State) : State :=
  forL ((s.b.img.intjs.map (·.trigger)).dedup.filter fun x => isHealth x && before.healthBit x && !s.b.healthBit x)
    (State.trigger [.a, .b]) s

/-- The round closes. A round that has not opened does nothing. -/
def State.roundClose (s : State) : State :=
  if s.b.fcl.roundOpen then
    let l := s.b.changes
    let raises := raisesOf l
    let s1 := ((s.newRound.recordRound l).applyRound l).darkAborts
    let s2 := forL raises (fun c s => s.react c) s1
    let s3 := forL s.b.fcl.clears (fun c s => s.runClear raises c) s2
    let s4 := if s.b.fcl.clears.isEmpty then s3 else s3.rearmStart
    s4.updateReady.errUpdate.healthTriggers s.b
  else s

def execRoundClose (t : Nat) (s : State) : Host.Outcome State Fault Refusal := .next (s.tick t).roundClose

end Sys2Proof.Machine
end

