-- ==== Sys2Proof/Machine/Otp.lean ====
section
/-! DEFINITION. Antifuses and rhizoid lines (R357 to R381): words and their SECDED, the reads of a start, regions and spares,
burn sessions, rows, shadows, and the OTP page. -/

namespace Sys2Proof.Machine

/-! ### Words (R358, R365) -/

/-- The 72 antifuses of a word programmed with `d`. -/
def otpEncode (d : BitVec 64) : BitVec 72 := (~~~ Config.secded d) ++ d

/-- What a read decodes to. -/
inductive OtpRead where
  | isBlank
  | clean (d : BitVec 64)
  | fixed (d : BitVec 64)
  | bad
deriving DecidableEq, Repr

/-- A read: blank before decoding, clean, corrected in one bit, or uncorrectable. -/
def otpDecode (raw : BitVec 72) : OtpRead :=
  if raw = 0 then .isBlank
  else if otpEncode (raw.truncate 64) = raw then .clean (raw.truncate 64)
  else
    match (List.range 72).find? fun i =>
      otpEncode ((raw ^^^ BitVec.ofNat 72 (2 ^ i)).truncate 64) = raw ^^^ BitVec.ofNat 72 (2 ^ i) with
    | some i => .fixed ((raw ^^^ BitVec.ofNat 72 (2 ^ i)).truncate 64)
    | none => .bad

/-- The value in use from both reads (R365); none where the word is uncorrectable at both margins. -/
def otpUse (w : OtpWord) : Option OtpUse :=
  match otpDecode w.strict, otpDecode w.normal with
  | .isBlank, .isBlank => some {}
  | .isBlank, _ => some { marginal := true }
  | .clean d, _ => some { value := d, marginal := w.strict != w.normal, isBlank := false }
  | _, .isBlank => some { marginal := true }
  | _, .clean d => some { value := d, marginal := true, isBlank := false }
  | _, .fixed d => some { value := d, marginal := true, corrected := true, isBlank := false }
  | .fixed _, .bad => some { value := Config.otpUnstated w.strict w.normal, marginal := true, isBlank := false }
  | .bad, .bad => none

/-- A word is blank: none of its antifuses reads burned at either margin. -/
def OtpWord.blank (w : OtpWord) : Bool := w.normal == 0 && w.strict == 0

/-- A word neither blank nor clean (R364). -/
def OtpWord.incomplete (w : OtpWord) : Bool :=
  match otpDecode w.normal with
  | .isBlank => false
  | .clean _ => false
  | _ => true

/-! ### Rhizoid lines (R367, R368) -/

/-- The majority of three antifuses. -/
def maj3 (v : BitVec 3) : Bool := decide (popc v 3 ≥ 2)

/-- Safe polarity of a bit. -/
def safePolarity (i : Nat) : Bool :=
  if i ≤ 2 then true else if i = 3 then false else if i ≤ 54 then true else if i ≤ 70 then false else Config.reservedRhizoid i

/-- Bit `i` as its antifuses read: latched value, whether it took its safe polarity, whether a margin was not unanimous. -/
def senseBit (r : BitVec 3 × BitVec 3) (i : Nat) : Bool × Bool × Bool :=
  let n := maj3 r.1
  let v := maj3 r.2
  let whole := fun (x : BitVec 3) => x == 0 || x == 7
  if n = v then (n, false, !(whole r.1 && whole r.2)) else (safePolarity i, true, false)

/-- A burned bit: what its antifuses read now, or what is latched. -/
def Blocks.burned (b : Blocks) (i : Nat) : Bool := maj3 (nget b.otp.rhizoid i (0, 0)).1 || b.otp.latched.getLsbD i

/-- The field of spare `s` (12 to 15) in a bit vector; a marginal bit makes it unused. -/
def spareField (v marg : BitVec 96) (s : Nat) : Nat :=
  let k := 55 + 4 * (s - 12)
  if (marg.toNat / 2 ^ k) % 16 ≠ 0 then 0 else (v.toNat / 2 ^ k) % 16

/-- The physical region that serves logical region `r` (R360, R373). -/
def Blocks.servedBy (b : Blocks) (r : Nat) : Option Nat :=
  if b.otp.latched.getLsbD (43 + r) then
    [12, 13, 14, 15].find? fun s => spareField b.otp.latched b.otp.marg s == r + 1
  else some r

/-- Write-lock and read-lock of the physical region that serves `r`, as latched and as burned. -/
def Blocks.wlock (b : Blocks) (r : Nat) : Bool := match b.servedBy r with
  | some p => b.otp.latched.getLsbD (11 + p)
  | none => false
def Blocks.rlock (b : Blocks) (r : Nat) : Bool := match b.servedBy r with
  | some p => b.otp.latched.getLsbD (27 + p)
  | none => false
def Blocks.wlockBurned (b : Blocks) (r : Nat) : Bool := match b.servedBy r with
  | some p => b.burned (11 + p)
  | none => true

/-- The physical word of a logical one. -/
def Blocks.physOf (b : Blocks) (w : Nat) : Option Nat := (b.servedBy (w / 128)).map fun p => p * 128 + w % 128
def Blocks.wordAt (b : Blocks) (p : Nat) : OtpWord := nget b.otp.words p {}

/-- Burn a rhizoid bit. -/
def State.burnBit (i : Nat) (s : State) : State := s.onOtp fun o => { o with rhizoid := nset o.rhizoid i (7, 7) (0, 0) }

/-- A spare in use is one that a retired region names (R373). -/
def Blocks.spareUsed (b : Blocks) (s : Nat) : Bool := (List.range 12).any fun r => b.servedBy r == some s && decide (12 ≤ s)

/-- A spare whose field is not 0 and that is not used: it names a region above 11, or one that another spare serves. -/
def Blocks.spareWrong (b : Blocks) (s : Nat) : Bool :=
  let f := spareField b.otp.latched b.otp.marg s
  decide (f ≠ 0) && !b.spareUsed s && (decide (f > 12) || b.otp.latched.getLsbD (43 + (f - 1)))

/-! ### Digests (R370, R371) -/

/-- The data that a physical word holds now; blank words count as 0. -/
def OtpWord.data (w : OtpWord) : BitVec 64 :=
  match otpUse w with
  | some u => u.value
  | none => 0

/-- The digest of region `r` over data words. -/
def digestOver (r : Nat) (data : List (BitVec 64)) : BitVec 256 :=
  Config.sha256 (beBytes r 1 ++ data.flatMap fun d => beBytes d.toNat 8)

/-- The digest of the words in use of region `r`, 0 to 10. -/
def Blocks.digestInUse (b : Blocks) (r : Nat) : BitVec 256 :=
  digestOver r ((List.range 124).map fun i => (b.usedWord (r * 128 + i)).value)

/-- Region 11's digest over its 288 rows. -/
def rowDigest (rows : NMap Word) : BitVec 256 :=
  Config.sha256 (beBytes 11 1 ++ (List.range 288).flatMap fun i => beBytes (nget rows i 0).toNat 4)

/-- The four words of a digest, the most significant first. -/
def digestWords (d : BitVec 256) : List (BitVec 64) := (List.range 4).map fun i => BitVec.ofNat 64 (d.toNat / 2 ^ (64 * (3 - i)))

/-- Logical address of the digest of region `r`. -/
def digestAt (r : Nat) : Nat := if r = 11 then 10 * 128 + 120 else r * 128 + 124

/-- A write-locked region whose burned digest does not prove it. -/
def Blocks.tornNow (b : Blocks) (r : Nat) : Bool :=
  let ws := (List.range 4).map fun i => b.usedWord (digestAt r + i)
  b.wlock r && (b.otp.invalid.contains r || ws.any (·.isBlank) ||
    ws.map (·.value) != digestWords (if r = 11 then rowDigest b.otp.rowsUsed else b.digestInUse r))

/-! ### The reads of a start (R365 to R373) -/

/-- Fiddlehead step 1: every rhizoid bit sensed and latched. -/
def State.latchRhizoid (s : State) : State :=
  let bits := (List.range 96).map fun i => senseBit (nget s.b.otp.rhizoid i (0, 0)) i
  let latched := bits.zipIdx.foldl (fun (v : BitVec 96) x => setb v x.2 x.1.1) 0
  let marg := bits.zipIdx.foldl (fun (v : BitVec 96) x => setb v x.2 x.1.2.1) 0
  let s1 := s.onOtp fun o => { o with latched := latched, marg := marg }
  forL bits.zipIdx (fun x s =>
    if x.1.2.1 then s.raise 72 (mkw x.2) else if x.1.2.2 then s.raise 73 (mkw x.2) else s) s1

/-- The logical region that a physical one serves. -/
def Blocks.servesFor (b : Blocks) (p : Nat) : Option Nat := (List.range 12).find? fun r => b.servedBy r == some p

/-- The words read at both margins: values in use, marginal words (74), invalid regions (76), incomplete words (82). -/
def State.readWords (s : State) : State :=
  let s0 := s.onOtp fun o => { o with used := [], invalid := [] }
  forL s.b.otp.words (fun x s =>
    match s.b.servesFor (x.1 / 128) with
    | none => s
    | some r =>
      let l := r * 128 + x.1 % 128
      let s1 := if x.2.incomplete && !s.b.wlock r then s.raise 82 (mkw x.1) else s
      match otpUse x.2 with
      | some u =>
        let s2 := s1.onOtp fun o => { o with used := nset o.used l u {} }
        if u.marginal then s2.raise 74 (mkw l) else s2
      | none =>
        let s2 := s1.onOtp fun o => { o with invalid := if o.invalid.contains r then o.invalid else r :: o.invalid }
        if (r = 2 ∧ s.b.life = .returned) ∨ s1.b.otp.invalid.contains r then s2 else s2.raise 76 (mkw r)) s0

/-- Regions that their spares make invalid: retired with no spare, or named by a spare with a marginal bit. -/
def Blocks.spareInvalid (b : Blocks) (r : Nat) : Bool :=
  (b.servedBy r).isNone ||
    [12, 13, 14, 15].any fun s =>
      let k := 55 + 4 * (s - 12)
      let m := (b.otp.marg.toNat / 2 ^ k) % 16
      decide (m ≠ 0) && decide ((b.otp.latched.toNat / 2 ^ k) % 16 ||| m = r + 1)

/-- What the spares make of the regions; in RETURNED region 2 is invalid without a source (R389). -/
def State.readSpares (s : State) : State :=
  let s1 := forL (List.range 12) (fun r s =>
    if s.b.spareInvalid r && !s.b.otp.invalid.contains r then
      (s.onOtp fun o => { o with invalid := r :: o.invalid }).raise 76 (mkw r)
    else s) s
  let s2 := forL [12, 13, 14, 15] (fun k s => if s.b.spareWrong k then s.raise 76 (mkw k) else s) s1
  if s2.b.life = .returned ∧ !s2.b.otp.invalid.contains 2 then s2.onOtp fun o => { o with invalid := 2 :: o.invalid } else s2

/-- The rows of region 11: the normal read is in use, a difference raises source 84. -/
def State.readRows (s : State) : State :=
  let o := s.b.otp
  let diff := ((o.rows ++ o.rowsStrict).map (·.1)).dedup.filter fun i => nget o.rows i 0 != nget o.rowsStrict i 0
  forL diff (fun i s => s.raise 84 (mkw i)) (s.onOtp fun o => { o with rowsUsed := o.rows })

/-- Counter steps whose margins disagree (72, naming counter + 1 and step), and gaps, raised once each. -/
def State.readCounters (s : State) : State :=
  forL [0, 1, 2, 3] (fun k s0 =>
    let s := forL (nget s0.b.otp.cntMarg k []) (fun i s => s.raise 72 (mkw (pl (k + 1) 16 8 + pl i 0 16))) s0
    if s.b.cntGap k && !s.b.otp.gaps.contains k then (s.onOtp fun o => { o with gaps := k :: o.gaps }).raise 80 (mkw k) else s) s

/-- The digest checks of every write-locked region. -/
def State.readDigests (s : State) : State :=
  forL (List.range 12) (fun r s =>
    if s.b.tornNow r then (s.onOtp fun o => { o with torn := r :: o.torn }).raise 77 (mkw r) else s)
    (s.onOtp fun o => { o with torn := [] })

/-- The word reads and digest checks of a start (R411). -/
def State.otpStart (s : State) : State := s.readWords.readSpares.readRows.readCounters.readDigests

/-! ### Sessions (R361 to R364, R370, R373, R376, R377) -/

/-- Port 0 (pair 0), 1 or 3. -/
def otpPort (rd : Reader) : Bool := rd.port == 0 || rd.port == 1 || rd.port == 3

/-- The life-cycle states in which a region may be programmed by commands (R359). -/
def Blocks.lifeMayBurn (b : Blocks) (r : Nat) : Bool :=
  match b.life with
  | .blank => r == 0 || r == 1 || r == 4
  | .manufacture => r == 0 || r == 1 || (decide (4 ≤ r) && decide (r ≤ 11))
  | .provisioned => decide (5 ≤ r) && decide (r ≤ 11)
  | _ => false

/-- A session begins; its result is pending. -/
def State.sessionBegin (x : Session) (s : State) : State × Nat := (s.onOtp fun o => { o with session := some x }, rPending)

/-- The port and unlock conditions of R361. -/
def State.otpGate (rd : Reader) (run : State → State × Nat) (s : State) : State × Nat :=
  if !otpPort rd then (s, rRefused) else if !s.b.unlocked rd then (s, rNotAuth) else run s

/-- Op 0x1: burn word. -/
def State.burnWord (rd : Reader) (tok : BitVec 16) (s : State) : State × Nat :=
  s.otpGate rd fun s =>
    let w := s.b.otp.progAddr
    let r := w / 128
    match s.b.physOf w with
    | some p =>
      if r < 11 && s.b.lifeMayBurn r && !s.b.wlockBurned r && (s.b.wordAt p).blank then
        s.sessionBegin { op := 1, target := w, first := p, data := [s.b.otp.progHi ++ s.b.otp.progLo], reader := rd.idx, token := tok }
      else (s, rRefused)
    | none => (s, rRefused)

/-- Words 0 to 123 of physical region `p` let the region be finalised. -/
def Blocks.wordsComplete (b : Blocks) (p : Nat) : Bool :=
  (List.range 124).all fun i => !(b.wordAt (p * 128 + i)).incomplete && !b.otp.failedWords.contains (p * 128 + i)

/-- Op 0x2: finalise region `r`; region 11 through region 10. -/
def State.finalise (rd : Reader) (tok : BitVec 16) (r : Nat) (rlock : Bool) (s : State) : State × Nat :=
  s.otpGate rd fun s =>
    if r > 11 then (s, rBadArg)
    else
      match s.b.servedBy r, s.b.physOf (digestAt r) with
      | some p, some d =>
        let blank := (List.range 4).all fun i => (s.b.wordAt (d + i)).blank
        if s.b.wlockBurned r || (r == 11 && s.b.wlockBurned 10) || !blank || (r != 11 && !s.b.wordsComplete p) then (s, rRefused)
        else
          let dig := if r = 11 then rowDigest s.b.otp.rows
            else digestOver r ((List.range 124).map fun i => (s.b.wordAt (p * 128 + i)).data)
          s.sessionBegin { op := 2, target := r, first := d, data := digestWords dig, readLock := rlock, reader := rd.idx, token := tok }
      | _, _ => (s, rRefused)

/-- The lowest spare whose field reads 0, as its antifuses stand. -/
def Blocks.freeSpare (b : Blocks) : Option Nat :=
  [12, 13, 14, 15].find? fun s => (List.range 4).all fun i => !b.burned (55 + 4 * (s - 12) + i)

/-- Op 0x3: retire region `r`; a spare serves it from the next start. -/
def State.retire (rd : Reader) (r : Nat) (s : State) : State × Nat :=
  s.otpGate rd fun s =>
    if r > 11 then (s, rBadArg)
    else if !(s.b.life == .manufacture || s.b.life == .provisioned) || s.b.burned (43 + r) then (s, rRefused)
    else
      match s.b.freeSpare with
      | none => (s, rRefused)
      | some k =>
        let s1 := forN 4 (fun i s => if (r + 1).testBit i then s.burnBit (55 + 4 * (k - 12) + i) else s) (s.burnBit (43 + r))
        (s1.onOtp fun o =>
          { o with
            result := mkw (pl 3 28 4 + pl (3 * (1 + popc (BitVec.ofNat 4 (r + 1)) 4)) 16 7 +
              pl (Config.retireResult r).toNat 0 16) },
          rDone)

/-- Op 0x5: burn the 1-bits of OTP_PROG_LO into a row. -/
def State.burnRow (rd : Reader) (tok : BitVec 16) (row : Nat) (s : State) : State × Nat :=
  s.otpGate rd fun s =>
    if row ≥ 288 then (s, rBadArg)
    else if s.b.lifeMayBurn 11 && !s.b.wlockBurned 11 then
      s.sessionBegin { op := 5, target := row, first := row, data := [s.b.otp.progLo.zeroExtend 64], reader := rd.idx, token := tok }
    else (s, rRefused)

/-- The lowest blank entry of the redirection table, as a physical word. -/
def Blocks.freeRedirect (b : Blocks) : Option Nat :=
  match b.physOf 1280 with
  | some p => ((List.range 32).find? fun e => (b.wordAt (p + e)).blank).map (p + ·)
  | none => none

/-- Op 0x6: redirect a row. -/
def State.redirectRow (rd : Reader) (tok : BitVec 16) (row : Nat) (s : State) : State × Nat :=
  s.otpGate rd fun s =>
    if row ≥ 256 then (s, rBadArg)
    else
      match s.b.freeRedirect with
      | some p =>
        if s.b.lifeMayBurn 10 && !s.b.wlockBurned 10 then
          s.sessionBegin { op := 6, target := row, first := p, data := [BitVec.ofNat 64 (256 + row)], reader := rd.idx, token := tok }
        else (s, rRefused)
      | none => (s, rRefused)

/-- A command of the sequencer: while a session or a transition runs it waits for its end (R379, R386, R395). -/
def State.otpTurn (i : Instr) (run : State → State × Nat) (s : State) : State × Nat :=
  if s.b.otp.session.isSome || s.b.lcs.op.isSome then (s.onOtp fun o => { o with waiting := o.waiting ++ [i] }, rPending) else run s

def execOtpBurnWord (t : Nat) (rd : Reader) (w : Word) (s : State) : Host.Outcome State Fault Refusal :=
  .next ((s.tick t).wt rd pOTP (wTok w) (State.otpTurn (.otpBurnWord t rd w) (State.burnWord rd (wTok w))))

def execOtpFinalise (t : Nat) (rd : Reader) (w : Word) (s : State) : Host.Outcome State Fault Refusal :=
  .next ((s.tick t).wt rd pOTP (wTok w)
    (State.otpTurn (.otpFinalise t rd w) (State.finalise rd (wTok w) (fld w 3 0) (w.getLsbD 4))))

def execOtpRetire (t : Nat) (rd : Reader) (w : Word) (s : State) : Host.Outcome State Fault Refusal :=
  .next ((s.tick t).wt rd pOTP (wTok w) (State.otpTurn (.otpRetire t rd w) (State.retire rd (fld w 3 0))))

def execOtpBurn4408Row (t : Nat) (rd : Reader) (w : Word) (s : State) : Host.Outcome State Fault Refusal :=
  .next ((s.tick t).wt rd pOTP (wTok w) (State.otpTurn (.otpBurn4408Row t rd w) (State.burnRow rd (wTok w) (fld w 8 0))))

def execOtpRedirect4408Row (t : Nat) (rd : Reader) (w : Word) (s : State) : Host.Outcome State Fault Refusal :=
  .next ((s.tick t).wt rd pOTP (wTok w)
    (State.otpTurn (.otpRedirect4408Row t rd w) (State.redirectRow rd (wTok w) (fld w 7 0))))

/-! ### The end of a session (R362, R363) -/

/-- The outcome of a burned word: 0 good, 1 weak, 2 failed. -/
def burnVerdict (data : BitVec 64) (w : OtpWord) : Nat :=
  match otpDecode w.strict, otpDecode w.normal with
  | .clean d, _ => if d = data then 0 else 2
  | .fixed _, .clean d => if d = data then 1 else 2
  | _, _ => 2

/-- The outcome of a row: every bit asked for reads burned, at both margins, at the normal one alone, or not. -/
def rowVerdict (want strict normal : Word) : Nat :=
  if normal = want ∧ strict = want then 0 else if normal = want then 1 else 2

/-- The words of a session as the antifuses now read, from its first physical word on. -/
def State.storeWords (first : Nat) (l : List (BitVec 72 × BitVec 72)) (s : State) : State :=
  forL l.zipIdx (fun x s =>
    s.onOtp fun o => { o with words := nset o.words (first + x.2) { normal := x.1.1, strict := x.1.2 } {} }) s

/-- What the sequencer reports: OTP_RESULT and OTP_VPP. -/
def State.noteSession (x : Session) (o : BurnOutcome) (verdict : Nat) (s : State) : State :=
  let ones := (o.words.map fun w => popc w.1 72).sum
  s.onOtp fun p =>
    { p with
      result := mkw (pl x.op 28 4 + pl (b2n (verdict == 1)) 27 1 + pl (b2n (verdict == 2)) 26 1 + pl (min ones 72) 16 7 +
        pl (min o.retries 3) 12 4 + pl (sat o.time10us 12) 0 12)
      vpp := mkw (pl (b2n o.vfuse) 31 1 + pl o.mv 0 13)
      session := none }

/-- The row or word session's findings stored. -/
def State.storeSession (x : Session) (o : BurnOutcome) (s : State) : State :=
  if x.op = 5 then
    match o.words with
    | w :: _ => s.onOtp fun p =>
        { p with rows := nset p.rows x.target (w.1.truncate 32) 0, rowsStrict := nset p.rowsStrict x.target (w.2.truncate 32) 0 }
    | [] => s
  else s.storeWords x.first (o.words.take x.data.length)

/-- The verdict on word `i` of a session; a word not reported has failed. -/
def wordVerdict (x : Session) (o : BurnOutcome) (i : Nat) : Nat :=
  match x.data[i]?, o.words[i]? with
  | some d, some w => burnVerdict d { normal := w.1, strict := w.2 }
  | _, _ => 2

/-- The verdict of a session: its worst word's; a word not reported has failed. -/
def Blocks.sessionVerdict (b : Blocks) (x : Session) (o : BurnOutcome) : Nat :=
  if x.op = 5 then
    match o.words with
    | w :: _ => rowVerdict (nget b.otp.rows x.target 0 ||| (x.data.headD 0).truncate 32) (w.2.truncate 32) (w.1.truncate 32)
    | [] => 2
  else
    (List.range x.data.length).foldl (fun m i => max m (wordVerdict x o i)) 0

/-- The locks a finalisation burns: those of the physical region, the spare's own where one serves. -/
def State.lockRegion (r : Nat) (rlock : Bool) (s : State) : State :=
  match s.b.servedBy r with
  | some p => if rlock then (s.burnBit (11 + p)).burnBit (27 + p) else s.burnBit (11 + p)
  | none => s

/-- The row, or the first word of the session, that came out with verdict `v`. -/
def namedWord (x : Session) (o : BurnOutcome) (v : Nat) : Word :=
  if x.op = 5 then mkw x.target
  else mkw (x.first + ((List.range x.data.length).find? fun i => wordVerdict x o i == v).getD 0)

/-- The session's outcome: stored, reported, and its sources raised. A finalisation burns its locks only when all four words
read back good. -/
def State.sessionEnds (x : Session) (o : BurnOutcome) (s : State) : State × Nat :=
  let v := s.b.sessionVerdict x o
  let s1 := (s.storeSession x o).noteSession x o v
  let bad := ((List.range x.data.length).filter fun i => wordVerdict x o i == 2).map (x.first + ·)
  let s2 := if x.op = 5 ∨ v < 2 then s1 else s1.onOtp fun p => { p with failedWords := bad ++ p.failedWords }
  let s3 := if v = 1 then s2.raise 75 (namedWord x o 1) else if v = 2 then s2.raise 81 (namedWord x o 2) else s2
  let s4 := if x.op = 2 ∧ v = 0 then s3.lockRegion x.target x.readLock else s3
  (s4, if v = 2 ∨ (x.op = 2 ∧ v ≠ 0) then rBadArg else rDone)

/-- A session ended by the programming voltage: what its words read is left as it is. -/
def State.vppEnds (x : Session) (mv : Nat) (left : List (BitVec 72 × BitVec 72)) (s : State) : State :=
  let s1 := (s.storeSession x { words := left }).onOtp fun p =>
    { p with session := none, vpp := mkw (pl (fld p.vpp 31 31) 31 1 + pl mv 0 13) }
  (s1.raise 83 (mkw mv)).settle pOTP x.reader x.token rRefused

/-! ### Reading (R366, R374, R377, R378) -/

/-- Data and read information of logical word `w`. Words 1,536 and up have no logical address. -/
def Blocks.otpRead (b : Blocks) (w : Nat) : BitVec 64 × Word :=
  let r := w / 128
  let u := b.usedWord w
  let bits := pl (b2n u.marginal) 3 1 + pl (b2n u.corrected) 2 1 + pl (b2n u.isBlank) 1 1 + 1
  if b.rlock r then (0, mkw (pl 1 5 1 + pl (b2n (b.regionBad r)) 4 1 + 1))
  else
    match b.shadowOf w with
    | some d => (d, mkw (pl 1 6 1 + bits))
    | none => if b.regionBad r then (0, mkw (pl 1 4 1 + bits)) else (u.value, mkw bits)

/-- Writing OTP_RD_ADDR reads the word. -/
def State.otpReadCmd (rd : Nat) (w : Word) (s : State) : State × Nat :=
  let a := fld w 10 0
  if a ≥ 1536 then (s, rBadArg)
  else
    let r := s.b.otpRead a
    (s.onOtp fun o => { o with reads := nset o.reads rd { addr := a, value := r.1, info := r.2 } {} }, rDone)

def execOtpRead (t : Nat) (rd : Reader) (w : Word) (s : State) : Host.Outcome State Fault Refusal :=
  .next ((s.tick t).plain rd pOTP (State.otpReadCmd rd.idx w))

/-- A row after redirection: the highest used entry that names it governs. What a torn or invalid region holds is not used (R371). -/
def Blocks.rowOf (b : Blocks) (row : Nat) : Word :=
  let e := (List.range 32).foldl (fun (m : Option Nat) e =>
    let d := (b.wordInUse (1280 + e)).toNat
    if !b.regionBad 10 && d.testBit 8 && d % 256 == row then some e else m) none
  if b.regionBad 11 then 0 else match e with
  | some e => nget b.otp.rowsUsed (256 + e) 0
  | none => nget b.otp.rowsUsed row 0

/-! ### The OTP page (R381) -/

/-- OTP_REGIONr. -/
def Blocks.regionWord (b : Blocks) (r : Nat) : Word :=
  let words := if r = 11 then (b.otp.rowsUsed.filter fun x => x.2 != 0).length / 4
    else if r < 11 then ((List.range 124).filter fun i => !(b.usedWord (r * 128 + i)).isBlank).length
    else ((List.range 124).filter fun i => !(b.wordAt (r * 128 + i)).blank).length
  let state :=
    if r ≥ 12 then (if b.spareUsed r then 7 else 6)
    else if b.otp.latched.getLsbD (43 + r) then 5
    else if b.otp.invalid.contains r then 4
    else if b.otp.torn.contains r then 3
    else if b.wlock r then 2
    else if words = 0 then 0 else 1
  let locks := if r ≥ 12 then (b.otp.latched.getLsbD (11 + r), b.otp.latched.getLsbD (27 + r)) else (b.wlock r, b.rlock r)
  mkw (pl state 29 3 + pl (b2n locks.1) 28 1 + pl (b2n locks.2) 27 1 +
    pl (if r ≥ 12 then r else (b.servedBy r).getD r) 20 4 + pl words 0 8)

/-- The OTP page from 0x100. -/
def readOtp (v : RView) (off : Nat) : Word :=
  let o := v.live.otp
  let q := nget o.reads v.rd {}
  match off with
  | 0x100 =>
    mkw (pl (b2n o.session.isSome) 7 1 +
      pl (b2n (v.live.life == .manufacture && !o.latched.getLsbD 9 && o.shadows.any fun x => x.2.addr.getLsbD 31)) 6 1 +
      pl (b2n (!o.torn.isEmpty)) 5 1 + pl (b2n (!o.invalid.isEmpty)) 4 1 + pl (b2n (decide (o.marg ≠ 0))) 3 1 +
      pl v.live.life.code 0 3)
  | 0x104 => wordOf o.latched 0
  | 0x108 => wordOf o.latched 1
  | 0x10C => wordOf o.latched 2
  | 0x110 => wordOf o.marg 0
  | 0x114 => wordOf o.marg 1
  | 0x118 => wordOf o.marg 2
  | 0x11C => mkw ((List.range 4).foldl (fun n i => n + pl (o.latched.toNat / 2 ^ (55 + 4 * i)) (4 * i) 4) 0)
  | 0x130 => mkw q.addr
  | 0x134 => loW q.value.toNat
  | 0x138 => hiW q.value.toNat
  | 0x13C => q.info
  | 0x140 => mkw o.progAddr
  | 0x144 => o.progLo
  | 0x148 => o.progHi
  | 0x150 => o.result
  | 0x154 => o.vpp
  | 0x158 => v.live.own v.rd (pOTP + 0x158)
  | 0x15C => v.live.rowOf (fld (v.live.own v.rd (pOTP + 0x158)) 7 0)
  | _ =>
    if 0x120 ≤ off ∧ off < 0x130 then
      let k := (off - 0x120) / 4
      mkw (pl (b2n (v.live.cntGap k)) 26 1 + pl (b2n (v.live.cntExhausted k)) 25 1 + pl (v.live.cntValue k) 0 11)
    else if 0x400 ≤ off ∧ off < 0x800 then
      let x := nget o.shadows ((off - 0x400) / 16) {}
      match off % 16 with
      | 0 => x.addr
      | 4 => x.lo
      | 8 => x.hi
      | _ => 0
    else if 0x800 ≤ off ∧ off < 0x840 then v.live.regionWord ((off - 0x800) / 4)
    else 0

end Sys2Proof.Machine
end

