-- ==== Sys2Proof/Machine/Identity.lean ====
section
/-! DEFINITION. Life cycle, device key and attestation (R382 to R397): the transition commands up to their chip reset, the
KEY engine at start, and the LCS and KEY pages. -/

namespace Sys2Proof.Machine

/-! ### Gates (R383 to R385) -/

/-- The ports of a row: port 0 means pair 0, the only pair that may write the page (R267). -/
def lcsPorts (op : Nat) : List Nat :=
  match op with
  | 4 => [0, 1, 2]
  | 5 => [0, 1, 2]
  | 6 => [3]
  | 7 => [3]
  | _ => [1, 3]

/-- The states a command may be issued from. -/
def Blocks.lcsFrom (b : Blocks) (op : Nat) : Bool :=
  match op with
  | 1 => b.life == .blank
  | 2 => b.life == .manufacture
  | 3 => b.life == .manufacture
  | 4 => b.life == .provisioned
  | 5 => b.life == .provisioned || b.life == .deployed
  | 6 => b.life == .deployed
  | 7 => ((b.life == .blank || b.life == .manufacture) && !b.burned 4) || b.life == .returned
  | _ => false

/-- What an owner signs for `op` (R385). -/
def Blocks.ownerBytes (b : Blocks) (rd op : Nat) : List Byte :=
  beBytes (b.nonceOf rd).toNat 8 ++ [if op = 6 then 2 else 3, BitVec.ofNat 8 op] ++ beBytes b.img.cellId.toNat 8 ++
    beBytes b.serial.toNat 8

/-- A refusal for authorisation: source 66, and the port is blocked for 60 s at the fifth in a row. -/
def State.lcsRefuse (port : Nat) (s : State) : State × Nat :=
  let n := nget s.b.lcs.refusals port 0 + 1
  ((s.onLcs fun l =>
    { l with refusals := nset l.refusals port n 0
             blocked := if n ≥ 5 then nset l.blocked port (some s.b.now) none else l.blocked }).raise 66 (mkw port), rNotAuth)

/-- The gate of every LCS command: state and port, block, method, unlock, owner signature. -/
def State.lcsGate (rd : Reader) (op : Nat) (w : Word) (run : State → State × Nat) (s : State) : State × Nat :=
  let signed := op == 4 || op == 5 || op == 6
  let method := fld w 15 14
  if !s.b.lcsFrom op || !(lcsPorts op).contains rd.port || s.b.pwr.powerDown || (nget s.b.lcs.blocked rd.port none).isSome then
    (s, rRefused)
  else if method = 1 ∨ method = 3 then (s, rBadArg)
  else
    let sigOk := method == 2 && s.b.ownerSigned (fld w 13 12) (sigValue s.b.lcs.sig) (s.b.ownerBytes rd.idx op)
    let s1 := if signed && method == 2 then s.newNonce rd.idx else s
    if !s.b.unlocked rd || (signed && !sigOk) then s1.lcsRefuse rd.port
    else run (s1.onLcs fun l => { l with refusals := nset l.refusals rd.port 0 0 })

/-- The port's 60 s are over, and its count restarts. -/
def State.lcsBlockEnd (port : Nat) (s : State) : State :=
  match nget s.b.lcs.blocked port none with
  | some t0 =>
    if s.b.now ≥ t0 + 60000000000 then
      s.onLcs fun l => { l with blocked := nset l.blocked port none none, refusals := nset l.refusals port 0 0 }
    else s
  | none => s

def execLcsBlockEnd (t : Nat) (rd : Reader) (s : State) : Host.Outcome State Fault Refusal :=
  .next ((s.tick t).lcsBlockEnd rd.port)

/-! ### Transitions up to their reset (R386) -/

/-- Steps 1 and 2: source 69, and the whole buffer is written. -/
def State.lcsHalt (op : Nat) (s : State) : State :=
  let s1 := s.raise 69 (mkw op)
  if s1.b.nandOn then s1.onRecd fun r => r.flush r.buffer.length else s1

/-- A transition runs on to its chip reset, at which its command settles. -/
def State.lcsBegin (rd : Reader) (op : Nat) (tok : BitVec 16) (s : State) : State × Nat :=
  ((s.lcsHalt op).onLcs fun l => { l with op := some op, step := 3, reader := rd.idx, token := tok }, rPending)

/-- Words 0 to 3 of region 2 as physical words. -/
def Blocks.keyWords (b : Blocks) : List Nat := (List.range 4).filterMap fun i => b.physOf (256 + i)

/-- Region 2 is blank. -/
def Blocks.keyBlank (b : Blocks) : Bool :=
  (List.range 128).all fun i =>
    match b.physOf (256 + i) with
    | some p => (b.wordAt p).blank
    | none => false

/-- A word burned and read back good at both margins. -/
def goodWord (d : BitVec 64) : BitVec 72 × BitVec 72 := (otpEncode d, otpEncode d)

/-- The certificate as its page holds it. -/
def Key.certBytes (k : Key) : List Byte :=
  fitBytes ((List.range 248).flatMap fun i => beBytes (nget k.cert i 0).toNat 4) (min k.certLen 992)

/-- Op 0x1. -/
def State.toManufacture (rd : Reader) (w : Word) (s : State) : State × Nat :=
  s.lcsGate rd 1 w fun s => if s.b.regionBad 0 || s.b.regionBad 1 then (s, rBadArg) else s.lcsBegin rd 1 (wTok w)

/-- The new key is in the vault, in region 2 with its digest, locked. -/
def State.storeKey (key : BitVec 256) (s : State) : State :=
  let data := digestWords key
  let dig := digestWords (digestOver 2 (data ++ List.replicate 120 0))
  let s1 := match s.b.physOf 256, s.b.physOf 380 with
    | some p, some d => ((s.storeWords p (data.map goodWord)).storeWords d (dig.map goodWord)).lockRegion 2 true
    | _, _ => s
  (s1.burnBit 6).onKey fun k => { k with vault := some key, held := true, pub := Config.derivePub key, certOk := false }

/-- A burn of region 2 fails (R384): the words before it are burned, that one in an unknown part, and source 64 is raised. -/
def State.spoilKey (key : BitVec 256) (s : State) : State :=
  let n := Config.burnsDone s.draws % 4
  let s1 := match s.b.physOf 256 with
    | some p =>
      let left := otpEncode ((digestWords key).getD n 0) &&& Config.burnLeft s.draws
      s.storeWords p (((digestWords key).take n).map goodWord ++ [(left, left &&& Config.burnLeft (s.draws + 1))])
    | none => s
  { (s1.raise 64 (mkw 2)) with draws := s.draws + 2 }

/-- Op 0x2: it stops after its burns, whose outcome is drawn. -/
def State.generateKey (rd : Reader) (w : Word) (healthOk pairOk : Bool) (s : State) : State × Nat :=
  s.lcsGate rd 2 w fun s =>
    if !s.b.keyBlank || s.b.fcl.a.latch.getLsbD 88 then (s, rBadArg)
    else
      let s1 := s.lcsHalt 2
      if !healthOk then (s1.raise 88, rBadArg)
      else
        let d := s1.draw
        if !pairOk then (d.2.raise 89, rBadArg)
        else if !Config.keyBurns s1.draws then (d.2.spoilKey d.1, rBadArg)
        else (d.2.storeKey d.1, rDone)

/-- Op 0x3. -/
def State.toProvisioned (rd : Reader) (w : Word) (s : State) : State × Nat :=
  s.lcsGate rd 3 w fun s =>
    if s.b.key.vault.isNone || decide (s.b.key.certLen > 992) ||
        !Config.certAccepted s.b.key.certBytes s.b.serial s.b.key.pub then (s, rBadArg)
    else s.lcsBegin rd 3 (wTok w)

/-- R372: no region torn or invalid, regions 0 to 4 locked. -/
def Blocks.mayDeploy (b : Blocks) : Bool :=
  (List.range 12).all (fun r => !b.regionBad r) && (List.range 5).all b.wlockBurned

/-- Op 0x4. -/
def State.toDeployed (rd : Reader) (w : Word) (s : State) : State × Nat :=
  s.lcsGate rd 4 w fun s =>
    if s.b.mayDeploy && s.b.cfg.image.isSome && !s.b.img.certs.isEmpty then s.lcsBegin rd 4 (wTok w) else (s, rBadArg)

/-- What the antifuses of a destroyed key word read when the destruction cannot be verified: what has burned is unknown. -/
def State.leaveKey (s : State) : State :=
  { (forL s.b.keyWords.zipIdx (fun x s =>
      s.onOtp fun o => { o with words := nupd o.words x.1 {} fun w =>
        { normal := w.normal ||| Config.burnLeft (s.draws + 2 * x.2)
          strict := w.strict ||| (Config.burnLeft (s.draws + 2 * x.2) &&& Config.burnLeft (s.draws + 2 * x.2 + 1)) } }) s) with
    draws := s.draws + 8 }

/-- R389 steps 1 to 3: key_revoke burned, the vault zeroised, every antifuse of the key words burned, and both read back. -/
def State.destroyKey (destroyed : Bool) (s : State) : State :=
  let s1 := (s.burnBit 7).onKey fun k => { k with vault := none }
  if destroyed then
    forL s1.b.keyWords (fun p s => s.onOtp fun o =>
      { o with words := nset o.words p { normal := BitVec.allOnes 72, strict := BitVec.allOnes 72 } {} })
      (s1.onKey fun k => { k with held := false })
  else s1.leaveKey

/-- Op 0x5: a destruction that is not verified stops it. -/
def State.toReturned (rd : Reader) (w : Word) (destroyed : Bool) (s : State) : State × Nat :=
  s.lcsGate rd 5 w fun s =>
    let s1 := (s.lcsHalt 5).destroyKey destroyed
    if destroyed then
      (s1.onLcs fun l => { l with op := some 5, step := 3, reader := rd.idx, token := wTok w }, rPending)
    else (s1.raise 68, rBadArg)

/-- Op 0x6 (R390): debug opens at the commit that carries the Stop of source 476. -/
def State.debugUnlock (rd : Reader) (w : Word) (s : State) : State × Nat :=
  s.lcsGate rd 6 w fun s =>
    (((s.raise 476).onLcs fun l => { l with debugDue := true, unlocked := true }).record 0x0D [Config.unlockPair, 2], rDone)

/-- Op 0x7. -/
def State.openScan (rd : Reader) (w : Word) (s : State) : State × Nat :=
  s.lcsGate rd 7 w fun s => s.lcsBegin rd 7 (wTok w)

def execLcToManufacture (t : Nat) (rd : Reader) (w : Word) (s : State) : Host.Outcome State Fault Refusal :=
  .next ((s.tick t).wt rd pLCS (wTok w) (State.otpTurn (.lcToManufacture t rd w) (State.toManufacture rd w)))

def execGenerateKey (t : Nat) (rd : Reader) (w : Word) (healthOk pairOk : Bool) (s : State) :
    Host.Outcome State Fault Refusal :=
  .next ((s.tick t).wt rd pLCS (wTok w)
    (State.otpTurn (.generateKey t rd w healthOk pairOk) (State.generateKey rd w healthOk pairOk)))

def execLcToProvisioned (t : Nat) (rd : Reader) (w : Word) (s : State) : Host.Outcome State Fault Refusal :=
  .next ((s.tick t).wt rd pLCS (wTok w) (State.otpTurn (.lcToProvisioned t rd w) (State.toProvisioned rd w)))

def execLcToDeployed (t : Nat) (rd : Reader) (w : Word) (s : State) : Host.Outcome State Fault Refusal :=
  .next ((s.tick t).wt rd pLCS (wTok w) (State.otpTurn (.lcToDeployed t rd w) (State.toDeployed rd w)))

def execLcToReturned (t : Nat) (rd : Reader) (w : Word) (destroyed : Bool) (s : State) : Host.Outcome State Fault Refusal :=
  .next ((s.tick t).wt rd pLCS (wTok w)
    (State.otpTurn (.lcToReturned t rd w destroyed) (State.toReturned rd w destroyed)))

def execDebugUnlock (t : Nat) (rd : Reader) (w : Word) (s : State) : Host.Outcome State Fault Refusal :=
  .next ((s.tick t).wt rd pLCS (wTok w) (State.otpTurn (.debugUnlock t rd w) (State.debugUnlock rd w)))

def execOpenScan (t : Nat) (rd : Reader) (w : Word) (s : State) : Host.Outcome State Fault Refusal :=
  .next ((s.tick t).wt rd pLCS (wTok w) (State.otpTurn (.openScan t rd w) (State.openScan rd w)))

/-! ### The KEY engine at start (R388) -/

/-- The length of a DER value from its first bytes; 0 for a blank region. -/
def derLength (bs : List Byte) : Nat :=
  if beAt bs 0 1 ≠ 0x30 then 0
  else if beAt bs 1 1 = 0x82 then 4 + beAt bs 2 2
  else if beAt bs 1 1 = 0x81 then 3 + beAt bs 2 1
  else 2 + beAt bs 1 1

/-- Region 3's certificate is on the page. -/
def State.certStart (s : State) : State :=
  let bytes := (List.range 124).flatMap fun i => beBytes (s.b.usedWord (384 + i)).value.toNat 8
  s.onKey fun k =>
    { k with certLen := derLength bytes, cert := forN 248 (fun i m => nset m i (mkw (beAt bytes (4 * i) 4)) 0) [] }

/-- The vault, its public key, the comparison with the certificate, and the known-answer test. -/
def State.keyStart (knownAnswerOk : Bool) (s : State) : State :=
  let blank := (List.range 4).all fun i => (s.b.usedWord (256 + i)).isBlank
  let noKey := blank || s.b.regionBad 2 || s.b.life == .returned
  let s1 := s.certStart.onKey fun k => { k with held := !noKey }
  let s2 :=
    if noKey || s.b.otp.latched.getLsbD 7 then s1
    else
      let key := BitVec.ofNat 256 ((List.range 4).foldl (fun n i => n * 2 ^ 64 + (s.b.usedWord (256 + i)).value.toNat) 0)
      let pub := Config.derivePub key
      let same := decide (s1.b.key.certLen ≠ 0) && !s.b.regionBad 3 && decide (Config.certPub s1.b.key.certBytes = pub)
      let s3 := s1.onKey fun k => { k with vault := some key, pub := pub, certOk := same }
      if s1.b.key.certLen ≠ 0 ∧ same = false then s3.raise 91 else s3
  if knownAnswerOk then s2 else s2.raise 93

/-! ### Attestation (R388, R395) -/

def State.onAtt (rd : Nat) (f : Attest → Attest) (s : State) : State :=
  s.onKey fun k => { k with att := nupd k.att rd {} f }

/-- A report can be formed: the key is usable and no transition runs. -/
def Blocks.mayAttest (b : Blocks) : Bool := b.keyUsable && b.lcs.op.isNone

/-- KEY_ATT_CMD. -/
def State.attestStart (rd : Nat) (w : Word) (s : State) : State × Nat :=
  if !w.getLsbD 0 then (s, rDone)
  else if s.b.mayAttest then (s.onAtt rd fun a => { a with running := true, ready := false }, rDone)
  else (s, rRefused)

/-- The SHA-256 of the running firmware image. -/
def Blocks.firmwareDigest (b : Blocks) : BitVec 256 :=
  match (nget b.cfg.slots (8 + b.pwr.fwSlot) {}).fw with
  | some f => if b.pwr.fwLoaded then Config.firmwareSha f else 0
  | none => 0

/-- Bytes 0 to 143 of the report. -/
def State.attestBody (nonce : NMap Word) (s : State) : List Byte :=
  beBytes 1 2 ++ beBytes s.b.life.code 1 ++ beBytes (b2n s.b.cfg.dry + 2 * b2n (s.b.img.target == 1)) 1 ++
    beBytes s.b.serial.toNat 8 ++ beBytes s.b.img.cellId.toNat 8 ++
    (List.range 4).flatMap (fun i => beBytes (nget nonce i 0).toNat 4) ++ beBytes s.b.firmwareDigest.toNat 32 ++
    beBytes (match s.b.cfg.image with | some im => (Config.imageSha im).toNat | none => 0) 32 ++
    beBytes (match s.b.cfg.image with | some im => im.generation | none => 0) 2 ++
    beBytes s.b.pwr.fwMajor 1 ++ beBytes s.b.pwr.fwMinor 1 ++ beBytes (s.b.cntValue 0) 2 ++ beBytes (s.b.cntValue 1) 2 ++
    beBytes (s.b.cntValue 2) 1 ++ beBytes (s.b.cntValue 3) 1 ++
    (List.range 12).map (fun i => BitVec.ofNat 8 (s.b.otp.latched.toNat / 256 ^ i)) ++ beBytes s.b.optime 7 ++
    beBytes s.b.recd.powerCycles 4 ++ beBytes (match s.shown with | some p => p.sent | none => 0) 6 ++ List.replicate 5 0

/-- The report is ready; a transition or a lost key ends it without one. -/
def State.attestFinish (rd : Nat) (s : State) : State :=
  let a := nget s.b.key.att rd {}
  if !a.running then s
  else if s.b.mayAttest then
    let body := s.attestBody a.nonce
    s.onAtt rd fun a =>
      { a with running := false, ready := true
               report := body ++ beBytes (s.b.sign (Config.sha256 body)).toNat 64 }
  else s.onAtt rd fun a => { a with running := false }

def execAttestationStart (t : Nat) (rd : Reader) (w : Word) (s : State) : Host.Outcome State Fault Refusal :=
  .next ((s.tick t).wt rd pKEY (wTok w) (State.attestStart rd.idx w))

def execAttestationComplete (t : Nat) (rd : Reader) (s : State) : Host.Outcome State Fault Refusal :=
  .next ((s.tick t).attestFinish rd.idx)

/-! ### The LCS and KEY pages (R397) -/

/-- The port number of a reader's index. -/
def portOfIdx (rd : Nat) : Nat := if rd < 4 then 0 else if rd = 4 then 1 else if rd < 9 then 2 else 3

def readLcs (v : RView) (off : Nat) : Word :=
  let l := v.live.lcs
  match off with
  | 0x100 =>
    mkw (pl l.step 28 4 + pl (b2n l.scanOpen) 19 1 + pl (b2n l.unlocked) 18 1 +
      pl (b2n (nget l.blocked (portOfIdx v.rd) none).isSome) 17 1 + pl v.live.life.code 0 3)
  | 0x108 => mkw (pl (b2n l.wipeOk) 31 1 + pl l.wipeUs 0 11)
  | _ => 0

def readKey (v : RView) (off : Nat) : Word :=
  let k := v.live.key
  let a := nget k.att v.rd {}
  match off with
  | 0x100 =>
    mkw (pl (b2n a.ready) 4 1 + pl (b2n (v.live.burned 7)) 3 1 + pl (b2n k.certOk) 2 1 + pl (b2n v.live.keyUsable) 1 1 +
      b2n k.held)
  | 0x104 => loW v.live.serial.toNat
  | 0x108 => hiW v.live.serial.toNat
  | 0x10C => mkw (pl k.certLen 0 10)
  | _ =>
    if 0x114 ≤ off ∧ off < 0x124 then nget a.nonce ((off - 0x114) / 4) 0
    else if 0x140 ≤ off ∧ off < 0x180 then sigWord k.pub ((off - 0x140) / 4)
    else if 0x800 ≤ off ∧ off < 0xBE0 then nget k.cert ((off - 0x800) / 4) 0
    else if 0xC00 ≤ off ∧ off < 0xCD0 then mkw (beAt a.report (off - 0xC00) 4)
    else 0

end Sys2Proof.Machine
end

