-- ==== Sys2Proof/Machine/Power.lean ====
section
/-! DEFINITION. Power, start-up and resets (R398 to R420), the chip resets of R307 and R386, and the ends of burn sessions
(R362 to R364), after which waiting commands run. -/

namespace Sys2Proof.Machine

/-! ### What a reset keeps (R393, R404, R408) -/

/-- Antifuses, and the rhizoid latches until the next fiddlehead. -/
def Otp.kept (o : Otp) : Otp :=
  { words := o.words, rhizoid := o.rhizoid, counters := o.counters, cntMarg := o.cntMarg, rows := o.rows, rowsStrict := o.rowsStrict
    latched := o.latched, marg := o.marg }

/-- NAND. -/
def Recorder.kept (r : Recorder) : Recorder := { nand := r.nand, erases := r.erases, retired := r.retired }

/-- The retention register, what the rails, sensors and pins show, and, unless power was lost, the reset count and peaks. -/
def Pwr.kept (p : Pwr) (power : Bool) : Pwr :=
  { ret := p.ret, retAtStart := p.retAtStart, railsGood := p.railsGood, vkeep := p.vkeep, vfuse := p.vfuse, mvA := p.mvA
    mvB := p.mvB, tempA := p.tempA, tempB := p.tempB, resetLow := p.resetLow
    chipResets := if power then 0 else p.chipResets
    minA := if power then 0xFFFF else p.minA
    minB := if power then 0xFFFF else p.minB
    tempPeak := if power then none else p.tempPeak }

/-- Every register at its reset value and every memory wiped; `power` is a power-on reset. -/
def Blocks.wiped (b : Blocks) (power : Bool) (draws : Nat) : Blocks :=
  { now := b.now
    sys := { nonceBase := draws }
    net := { sentOut := b.net.sentOut }
    agr := if power then {} else { split := b.agr.split }
    fcl := if power then {} else { chipResetTaken := b.fcl.chipResetTaken, chipResetSource := b.fcl.chipResetSource }
    recd := b.recd.kept
    otp := b.otp.kept
    lcs := if power then {} else { scanDue := b.lcs.scanDue }
    pwr := b.pwr.kept power
    cfg := { slots := nmapv b.cfg.slots {} fun _ x => { x with isOpen := false } } }

def State.wiped (power : Bool) (s : State) : State :=
  { b := s.b.wiped power s.draws, draws := s.draws + 16, pending := s.pending }

/-! ### Temperature (R410) -/

def tjLimit : Int := if Config.industrial then 105 else 125

/-- Sources 28 and 29 follow the hotter channel. -/
def State.thermal (s : State) : State :=
  let hot := max s.b.pwr.tempA s.b.pwr.tempB
  (s.cond 28 (decide (hot > tjLimit - 5)) (intW hot)).cond 29 (decide (hot > tjLimit + 5)) (intW hot)

/-- Both sensors' readings. -/
def State.tjRead (a b : Int) (s : State) : State :=
  (s.onPwr fun p =>
    { p with tempA := a, tempB := b
             tempPeak := some (match p.tempPeak with | some m => max m (max a b) | none => max a b) }).thermal

def execTjThreshold (t : Nat) (tempA tempB : Int) (s : State) : Host.Outcome State Fault Refusal :=
  .next ((s.tick t).tjRead tempA tempB)

/-! ### Release and chip resets (R404, R405, R408) -/

/-- Release from reset: the retention register is read, and rewritten with its marker set; collection starts. -/
def State.release (s : State) : State :=
  ((((s.onPwr fun p =>
      { p with phase := .released, stepAt := s.b.now, retAtStart := p.ret
               ret := { p.ret with written := true, unclean := true } }).onFcl fun f => { f with collecting := true }).onBst fun b =>
      { b with passStart := s.b.now }).thermal)

/-- A chip reset: everything wiped, the pins low, and the release, unless RESET_N is still low. -/
def State.chipReset (cause : Nat) (s : State) : State :=
  let s1 := (s.wiped false).onPwr fun p =>
    { p with phase := .resetHeld, cause := cause, chipResets := min (p.chipResets + 1) 255, goodAt := s.b.now }
  if s1.b.pwr.resetLow then s1 else s1.release

/-- The whole buffer is written before a wipe that the hub starts itself; the marker falls when nothing is left. -/
def State.flushAll (n : Nat) (s : State) : State :=
  let s1 := if s.b.nandOn then s.onRecd fun r => r.flush n else s
  if s1.b.recd.buffer.isEmpty then s1.onPwr fun p => { p with ret := { p.ret with unclean := false } } else s1

/-! ### Burn sessions end (R362 to R364, R379) -/

/-- A command that waited runs, and settles unless it begins a session or a transition of its own. -/
def State.afterWait (rd : Reader) (page : Nat) (w : Word) (run : State → State × Nat) (s : State) : State :=
  let r := run s
  if r.2 = rPending then r.1 else r.1.settle page rd.idx (wTok w) r.2

/-- One waiting command. -/
def State.runWaiting (i : Instr) (s : State) : State :=
  match i with
  | .otpBurnWord _ rd w => s.afterWait rd pOTP w (State.burnWord rd (wTok w))
  | .otpFinalise _ rd w => s.afterWait rd pOTP w (State.finalise rd (wTok w) (fld w 3 0) (w.getLsbD 4))
  | .otpRetire _ rd w => s.afterWait rd pOTP w (State.retire rd (fld w 3 0))
  | .otpBurn4408Row _ rd w => s.afterWait rd pOTP w (State.burnRow rd (wTok w) (fld w 8 0))
  | .otpRedirect4408Row _ rd w => s.afterWait rd pOTP w (State.redirectRow rd (wTok w) (fld w 7 0))
  | .lcToManufacture _ rd w => s.afterWait rd pLCS w (State.toManufacture rd w)
  | .generateKey _ rd w h p => s.afterWait rd pLCS w (State.generateKey rd w h p)
  | .lcToProvisioned _ rd w => s.afterWait rd pLCS w (State.toProvisioned rd w)
  | .lcToDeployed _ rd w => s.afterWait rd pLCS w (State.toDeployed rd w)
  | .lcToReturned _ rd w d => s.afterWait rd pLCS w (State.toReturned rd w d)
  | .debugUnlock _ rd w => s.afterWait rd pLCS w (State.debugUnlock rd w)
  | .openScan _ rd w => s.afterWait rd pLCS w (State.openScan rd w)
  | _ => s

/-- Waiting commands run in order until one holds the sequencer. -/
def State.drainWaiting : Nat → State → State
  | 0, s => s
  | n + 1, s =>
    if s.b.otp.session.isSome || s.b.lcs.op.isSome then s
    else
      match s.b.otp.waiting with
      | [] => s
      | i :: r => ((s.onOtp fun o => { o with waiting := r }).runWaiting i).drainWaiting n

def State.drainAll (s : State) : State := s.drainWaiting s.b.otp.waiting.length

/-- A session completes. -/
def State.sessionDone (x : BurnOutcome) (s : State) : State :=
  match s.b.otp.session with
  | none => s
  | some y =>
    let r := s.sessionEnds y x
    (r.1.settle pOTP y.reader y.token r.2).drainAll

/-- The programming voltage leaves 5.3 V to 5.7 V. -/
def State.vppFails (mv : Nat) (left : List (BitVec 72 × BitVec 72)) (s : State) : State :=
  match s.b.otp.session with
  | none => s
  | some y => if 5300 ≤ mv ∧ mv ≤ 5700 then s else (s.vppEnds y mv left).drainAll

def execOtpSessionComplete (t : Nat) (x : BurnOutcome) (s : State) : Host.Outcome State Fault Refusal :=
  .next ((s.tick t).sessionDone x)

def execOtpVppOutOfRange (t : Nat) (mv : Nat) (left : List (BitVec 72 × BitVec 72)) (s : State) :
    Host.Outcome State Fault Refusal :=
  .next ((s.tick t).vppFails mv left)

/-- What a session cut short leaves in its words (R364): antifuses burn in ascending order, check antifuses last, so nothing from an
unknown place on is burned; what stands before it reads as the unit leaves it. -/
def State.cutWords (x : Session) (s : State) : State :=
  let place := (Config.burnLeft (s.draws + 8)).toNat % (72 * x.data.length + 1)
  let part := fun (i : Nat) => Config.burnLeft (s.draws + i) &&& BitVec.ofNat 72 (2 ^ (min 72 (place - 72 * (i / 2))) - 1)
  { (if x.op = 5 then
      s.onOtp fun o =>
        let d := (x.data.headD 0).truncate 32
        { o with rows := nupd o.rows x.target 0 (· ||| (d &&& (part 0).truncate 32))
                 rowsStrict := nupd o.rowsStrict x.target 0 (· ||| (d &&& (part 0).truncate 32 &&& (part 1).truncate 32)) }
    else
      forL x.data.zipIdx (fun d s => s.onOtp fun o =>
        { o with words := nupd o.words (x.first + d.2) {} fun w =>
          { normal := w.normal ||| (otpEncode d.1 &&& part (2 * d.2))
            strict := w.strict ||| (otpEncode d.1 &&& part (2 * d.2) &&& part (2 * d.2 + 1)) } }) s) with
    draws := s.draws + 9 }

/-- A session under way ends at a supply-loss warning or an assertion of RESET_N. -/
def State.cutSession (s : State) : State :=
  match s.b.otp.session with
  | none => s
  | some x => ((s.cutWords x).onOtp fun o => { o with session := none }).settle pOTP x.reader x.token rRefused

/-- Commands that wait are refused. -/
def State.refuseWaiting (s : State) : State :=
  forL s.b.otp.waiting (fun i s => match i with
    | .otpBurnWord _ rd w => s.settle pOTP rd.idx (wTok w) rRefused
    | .otpFinalise _ rd w => s.settle pOTP rd.idx (wTok w) rRefused
    | .otpRetire _ rd w => s.settle pOTP rd.idx (wTok w) rRefused
    | .otpBurn4408Row _ rd w => s.settle pOTP rd.idx (wTok w) rRefused
    | .otpRedirect4408Row _ rd w => s.settle pOTP rd.idx (wTok w) rRefused
    | .lcToManufacture _ rd w => s.settle pLCS rd.idx (wTok w) rRefused
    | .generateKey _ rd w _ _ => s.settle pLCS rd.idx (wTok w) rRefused
    | .lcToProvisioned _ rd w => s.settle pLCS rd.idx (wTok w) rRefused
    | .lcToDeployed _ rd w => s.settle pLCS rd.idx (wTok w) rRefused
    | .lcToReturned _ rd w _ => s.settle pLCS rd.idx (wTok w) rRefused
    | .debugUnlock _ rd w => s.settle pLCS rd.idx (wTok w) rRefused
    | .openScan _ rd w => s.settle pLCS rd.idx (wTok w) rRefused
    | _ => s) (s.onOtp fun o => { o with waiting := [] })

/-! ### The chip reset of a reaction (R307) -/

/-- A chip reset by reaction, once it is due and no supply loss governs: the buffer is written, and the reset follows as if
RESET_N had been asserted, which cuts a session under way (R364). -/
def State.chipReaction (s : State) : State :=
  if s.b.fcl.chipResetDue.isSome && !s.b.pwr.powerDown then (s.flushAll s.b.recd.buffer.length).cutSession.chipReset 3 else s

def execChipResetReaction (t : Nat) (s : State) : Host.Outcome State Fault Refusal := .next (s.tick t).chipReaction

/-! ### Life-cycle resets (R386) -/

/-- A bit that is already burned is not burned again. -/
def State.burnNew (i : Nat) (s : State) : State := if s.b.burned i then s else s.burnBit i

/-- A word burned on top of what its antifuses hold. -/
def State.burnOver (p : Nat) (d : BitVec 64) (s : State) : State :=
  s.onOtp fun o => { o with words := nupd o.words p {} fun w =>
    { normal := w.normal ||| otpEncode d, strict := w.strict ||| otpEncode d } }

/-- The words of a certificate. -/
def certWords (bs : List Byte) : List (BitVec 64) :=
  (List.range ((bs.length + 7) / 8)).map fun i => BitVec.ofNat 64 (beAt bs (8 * i) 8)

/-- Region 3's burns: its data words, its digest, its write-lock. -/
def Blocks.certBurns (b : Blocks) : List (State → State) :=
  let data := certWords b.key.certBytes
  match b.physOf 384, b.physOf 508 with
  | some p, some d =>
    let dig := digestWords (digestOver 3 (data ++ List.replicate (124 - data.length) 0))
    data.zipIdx.map (fun x (s : State) => s.burnOver (p + x.2) x.1) ++
      dig.zipIdx.map (fun x (s : State) => s.burnOver (d + x.2) x.1) ++ [fun (s : State) => s.lockRegion 3 false]
  | _, _ => []

/-- The newest mark of a kind on a slot. -/
def Slot.newest (x : Slot) (kinds : List Nat) : Option Mark := x.marks.find? fun m => kinds.contains m.kind

/-- A slot that holds an accepted image, with its newest accept mark's number (R428). -/
def Slot.acceptSeq (x : Slot) : Option Nat :=
  match x.image, x.newest [3] with
  | some im, some m => if m.generation = im.gen then some m.seq else none
  | _, _ => none

/-- The slot of the accepted image: of several, the one accepted last. -/
def Blocks.acceptedSlot (b : Blocks) : Option Nat :=
  ((List.range 8).foldl (fun best k =>
    match (nget b.cfg.slots k {}).acceptSeq, best with
    | some n, some y => if n > y.2 then some (k, n) else some y
    | some n, none => some (k, n)
    | none, y => y) (none : Option (Nat × Nat))).map (·.1)

/-- The accepted image. -/
def Blocks.acceptedImage (b : Blocks) : Option Image := b.acceptedSlot.bind fun k => (nget b.cfg.slots k {}).image

/-- The generation of the accepted image, towards which counter 1 is advanced (R427). -/
def Blocks.acceptedGeneration (b : Blocks) : Nat := (b.acceptedImage.map (·.gen)).getD 0

/-- The burns of a transition, in the order of its row; R427 adds the generation at the DEPLOYED transition. -/
def Blocks.lcsBurns (b : Blocks) (op : Nat) : List (State → State) :=
  match op with
  | 1 => [State.burnNew 0]
  | 3 => b.certBurns ++ [State.burnNew 4, State.burnNew 9, State.burnNew 1]
  | 4 => [State.burnNew 5, State.burnNew 10, fun (s : State) => s.cntRaise 1 1024 b.acceptedGeneration, State.burnNew 2]
  | 5 => [State.cntAdvance 3, State.burnNew 3]
  | _ => if b.life == .returned then [State.cntAdvance 3] else []

/-- The state that a transition leads to. -/
def Blocks.lcsTarget (b : Blocks) (op : Nat) : Nat :=
  match op with
  | 1 => 1
  | 3 => 2
  | 4 => 3
  | 5 => 4
  | _ => b.life.code

/-- Burns, the life-cycle record, and the chip reset; or the stop at the burn that failed, with source 64. -/
def State.lcsFinish (burnOk : Bool) (s : State) : State :=
  match s.b.lcs.op with
  | none => s
  | some op =>
    let burns := s.b.lcsBurns op
    if burnOk then
      let s1 := forL burns (fun f s => f s) s
      let s2 := s1.record 0x04 [BitVec.ofNat 8 s.b.life.code, BitVec.ofNat 8 (s.b.lcsTarget op)]
      ((s2.flushAll s2.b.recd.buffer.length).onLcs fun l => { l with scanDue := l.scanDue || op == 7 }).chipReset 4
    else
      let s1 := forL (burns.take (Config.burnsDone s.draws % max burns.length 1)) (fun f s => f s) { s with draws := s.draws + 1 }
      (((s1.onLcs fun l => { l with op := none, step := 0 }).raise 64 (mkw op)).settle pLCS s.b.lcs.reader s.b.lcs.token
        rBadArg).drainAll

def execLifeCycleReset (t : Nat) (burnOk : Bool) (s : State) : Host.Outcome State Fault Refusal :=
  .next ((s.tick t).lcsFinish burnOk)

/-! ### Rails and power-on reset (R398 to R400) -/

/-- Permitted range of a rail, the bounds outside which its monitor always faults, and its source. -/
def railLimits (r : Rail) : (Nat × Nat) × (Nat × Nat) × Nat :=
  match r with
  | .vcoreA => ((720, 900), (700, 920), 16)
  | .vcoreB => ((720, 900), (700, 920), 17)
  | .vio => ((3135, 3465), (3000, 3600), 19)
  | .vana => ((3135, 3465), (3000, 3600), 20)
  | .vsd => ((855, 945), (830, 970), 21)
  | .vsdh => ((1710, 1890), (1650, 1950), 21)

/-- A rail's bit in PWR_RAILS. -/
def railBit (r : Rail) : Nat :=
  match r with
  | .vcoreA => 0
  | .vcoreB => 0
  | .vio => 1
  | .vana => 2
  | .vsd => 3
  | .vsdh => 4

/-- VCORE as a monitor reads it. -/
def State.vcoreRead (ch : Ch) (mv : Nat) (s : State) : State :=
  s.onPwr fun p => match ch with
    | .a => { p with mvA := mv, minA := min p.minA mv }
    | .b => { p with mvB := mv, minB := min p.minB mv }

/-- Whether a monitor raises its source at a reading: always beyond its bounds, never inside its range, and between the two
as it may. -/
def railFaults (r : Rail) (mv draw : Nat) : Bool :=
  let l := railLimits r
  if mv < l.2.1.1 ∨ l.2.1.2 < mv then true
  else if l.1.1 ≤ mv ∧ mv ≤ l.1.2 then false
  else Config.bandRaises draw

/-- A monitored rail outside its range: its source, and power-on reset. -/
def State.railOut (r : Rail) (mv : Nat) (s : State) : State :=
  let s1 := match r with
    | .vcoreA => s.vcoreRead .a mv
    | .vcoreB => s.vcoreRead .b mv
    | _ => s
  let l := railLimits r
  if l.1.1 ≤ mv ∧ mv ≤ l.1.2 then s1
  else
    let s2 := { (s1.wiped true) with draws := s1.draws + 17 }.onPwr fun p =>
      { p with phase := .powerOnReset, railsGood := setb p.railsGood (railBit r) false }
    if railFaults r mv s1.draws then s2.raise l.2.2 (mkw mv) else s2

def execRailOutOfRange (t : Nat) (rail : Rail) (mv : Nat) (s : State) : Host.Outcome State Fault Refusal :=
  .next ((s.tick t).railOut rail mv)

/-- The two VCORE monitors differ by more than 30 mV. -/
def execVcoreMonitorDisagree (t : Nat) (mvA mvB : Nat) (s : State) : Host.Outcome State Fault Refusal :=
  let s1 := ((s.tick t).vcoreRead .a mvA).vcoreRead .b mvB
  .next (if mvA > mvB + 30 ∨ mvB > mvA + 30 then s1.raise 18 (mkw (pl mvA 0 16 + pl mvB 16 16)) else s1)

/-- Power-on reset ends: every rail has been in its range for 2 ms to 3 ms. -/
def State.porEnd (s : State) : State :=
  if s.b.pwr.phase = .powerOnReset then
    let s1 := (s.wiped true).onPwr fun p =>
      { p with phase := .resetHeld, cause := 1, railsGood := 31
               goodAt := s.b.now - 2000000 - (Config.porExtra s.draws).val }
    if s1.b.pwr.resetLow then s1 else s1.release
  else s

def execPowerOnResetEnd (t : Nat) (s : State) : Host.Outcome State Fault Refusal := .next (s.tick t).porEnd

/-! ### Supply loss (R406, R407) -/

/-- A pending transition is refused. -/
def State.refuseTransition (s : State) : State :=
  match s.b.lcs.op with
  | none => s
  | some _ => (s.onLcs fun l => { l with op := none, step := 0 }).settle pLCS s.b.lcs.reader s.b.lcs.token rRefused

/-- The warning: source 25, no new records, the flush, sessions and transitions end, no reset by reaction. -/
def State.supplyWarning (cause : WarnCause) (s : State) : State :=
  if s.b.pwr.powerDown || s.b.pwr.phase == .powerOnReset || s.b.pwr.phase == .resetHeld then s
  else
    let code := match cause with
      | .pfail => 0
      | .vio => 1
      | .vcore => 2
    let s1 := (((s.raise 25 (mkw code)).onPwr fun p => { p with powerDown := true }).onRecd fun r =>
      { r with accepting := false, flushing := min 64 r.buffer.length }).onFcl fun f =>
      if f.chipResetDue.isSome then { f with chipResetDue := none, chipResetTaken := false, chipResetSource := 0 } else f
    s1.cutSession.refuseTransition.refuseWaiting

def execSupplyLossWarning (t : Nat) (cause : WarnCause) (s : State) : Host.Outcome State Fault Refusal :=
  .next ((s.tick t).supplyWarning cause)

/-- The flush ends: the oldest records are written, the rest are lost. -/
def State.flushDone (s : State) : State :=
  if s.b.pwr.powerDown && !s.b.recd.accepting then
    let s1 := s.flushAll s.b.recd.flushing
    s1.onRecd fun r => { r with flushing := 0, buffer := [], lostNow := r.lostNow + r.buffer.length }
  else s

def execFlushComplete (t : Nat) (s : State) : Host.Outcome State Fault Refusal := .next (s.tick t).flushDone

def execSupplyRecovery (t : Nat) (s : State) : Host.Outcome State Fault Refusal :=
  .next (if s.b.pwr.powerDown then (s.tick t).chipReset 5 else s.tick t)

/-! ### RESET_N (R409) -/

/-- RESET_N has been low for `lowNs`. -/
def State.resetAssert (lowNs : Nat) (s : State) : State :=
  if lowNs < 500 then s
  else
    let may := decide (1000 ≤ lowNs) || Config.shortReset s.draws
    let s1 := if lowNs < 1000 then { s with draws := s.draws + 1 } else s
    if !may then s1
    else
      let s2 := s1.onPwr fun p => { p with resetLow := true }
      if s.b.pwr.phase = .powerOnReset ∨ s.b.pwr.phase = .resetHeld then s2 else s2.cutSession.chipReset 2

def execResetNAssert (t : Nat) (lowNs : Nat) (s : State) : Host.Outcome State Fault Refusal :=
  .next ((s.tick t).resetAssert lowNs)

/-- The rising edge: a hub held by RESET_N is released; during power-on reset, its end releases the hub. -/
def State.resetRelease (s : State) : State :=
  let s1 := s.onPwr fun p => { p with resetLow := false }
  if s.b.pwr.phase = .resetHeld then
    (if s.b.pwr.cause = 1 then s1 else s1.onPwr fun p => { p with goodAt := s.b.now }).release
  else s1

def execResetNRelease (t : Nat) (s : State) : Host.Outcome State Fault Refusal := .next (s.tick t).resetRelease

/-! ### Fiddlehead (R411, R412) -/

/-- Whole units of a time, the lower or the upper where it lies between two. -/
def timeUnits (addr ns unit : Nat) : Nat :=
  if ns % unit = 0 then ns / unit else if Config.shownUp addr (ns / unit) then ns / unit + 1 else ns / unit

/-- The start stops at a step with a source. -/
def State.stopStart (step src : Nat) (s : State) : State :=
  (s.onPwr fun p => { p with phase := .stopped, stoppedStep := step, stopSource := src }).raise src

/-- The retention register at start (R404, R405). -/
def State.retentionStart (vkeep : Bool) (s : State) : State :=
  let s0 := s.onPwr fun p => { p with vkeep := vkeep }
  if !vkeep then
    (s0.onPwr fun p => { p with retValid := false, ret := { written := true, unclean := true } }).raise 22
  else if !s.b.pwr.retAtStart.written then (s0.onPwr fun p => { p with retValid := false }).raise 23
  else
    let s1 := s0.onPwr fun p => { p with retValid := true, uncleanFound := p.retAtStart.unclean }
    if s.b.pwr.retAtStart.unclean then s1.raise 24 else s1

/-- Antifuses that now read differently. -/
def State.sensed (x : FiddleIn) (s : State) : State :=
  s.onOtp fun o =>
    { o with words := x.words.foldl (fun m y => nset m y.1 { normal := y.2.1, strict := y.2.2 } {}) o.words
             rhizoid := x.rhizoid.foldl (fun m y => nset m y.1 (y.2.1, y.2.2) (0, 0)) o.rhizoid
             rows := x.rows.foldl (fun m y => nset m y.1 y.2.1 0) o.rows
             rowsStrict := x.rows.foldl (fun m y => nset m y.1 y.2.2 0) o.rowsStrict
             cntMarg := x.cntMarg.foldl (fun m y => nset m y.1 y.2 []) o.cntMarg }

/-- Step 2: the rulers count, and operating time counts from 0. -/
def State.rulersStart (x : FiddleIn) (s : State) : State :=
  let at_ := min s.b.now (s.b.pwr.stepAt + (Config.rulerDelay s.draws).val)
  { (s.onTru fun u =>
      { u with aRunning := x.rulerA, bRunning := x.rulerB, xaEdges := x.rulerA, xbEdges := x.rulerB, aOrigin := at_
               opRuns := true, opOrigin := at_, opBase := 0 }) with
    draws := s.draws + 1 }

/-- Steps 2 to 5: the first that fails stops the start. -/
def State.fiddleSteps (x : FiddleIn) (s : State) : State :=
  let s1 := s.rulersStart x
  if !x.rulerA then s1.stopStart 2 50
  else if !x.rulerB then s1.stopStart 2 51
  else
    let s2 := s1.onLcs fun l => { l with wipeOk := x.wipeOk, wipeUs := min x.wipeUs 2047 }
    if !x.wipeOk then s2.stopStart 3 65
    else
      let s3 := s2.onAgr fun a => { a with startDone := true, startFlagged := x.flagged, startEqual := x.equalOk }
      if x.flagged ≠ 128 then (if x.equalOk then s3 else s3.raise 451).stopStart 4 450
      else if !x.equalOk then s3.stopStart 4 451
      else if !x.fabricOk then s3.stopStart 5 498
      else
        let s4 := (s3.keyStart x.knownAnswerOk).onPwr fun p => { p with phase := .fiddled }
        if s.b.lcs.scanDue then (s4.onLcs fun l => { l with scanOpen := true }).raise 70 else s4

/-- Fiddlehead, complete or stopped at this instant. -/
def State.fiddlehead (x : FiddleIn) (s : State) : State :=
  if s.b.pwr.phase ≠ .released then s
  else
    (((((s.sensed x).latchRhizoid).retentionStart x.vkeep).otpStart).fiddleSteps x).onPwr fun p =>
      { p with fiddleEnd := s.b.now, fiddleUs := sat (timeUnits (pPWR + 0x118) (s.b.now - s.b.pwr.stepAt) 1000) 16 }

def execFiddlehead (t : Nat) (x : FiddleIn) (s : State) : Host.Outcome State Fault Refusal :=
  .next ((s.tick t).fiddlehead x)

/-! ### Firmware load (R413 to R415) -/

/-- The firmware of a slot. -/
def Blocks.fwSlotOf (b : Blocks) (k : Nat) : Option FwImage := (nget b.cfg.slots (8 + k) {}).fw

/-- The digest that region 4 holds at a key index; none where the region is not final or not good. -/
def Blocks.fwTrust (b : Blocks) (i : Nat) : Option (BitVec 256) :=
  if b.wlock 4 && !b.regionBad 4 && decide (i < 8) then
    some (BitVec.ofNat 256 ((List.range 4).foldl (fun n j => n * 2 ^ 64 + (b.wordInUse (512 + 4 * i + j)).toNat) 0))
  else none

/-- The check of R414 that a slot fails first; none where it loads. No image is loaded yet, so pair 0's region is bounded by
the memory alone. -/
def Blocks.fwFails (b : Blocks) (k : Nat) : Option Nat :=
  match b.fwSlotOf k with
  | none => some 1
  | some f =>
    if f.magic ≠ 0x5A4E3937 ∨ f.format ≠ 1 ∨ f.bodyLen > 8388608 then some 1
    else if b.fwTrust f.keyIndex ≠ some (Config.sha256 (beBytes f.pub.toNat 64)) then some 2
    else if Config.ecdsaVerify f.pub f.signed f.signature = false then some 3
    else if f.secVersion < b.cntValue 0 then some 4
    else none

/-- Slots in order of security version, slot 0 first on a tie. -/
def Blocks.fwOrder (b : Blocks) : List Nat :=
  let v := fun k => match b.fwSlotOf k with
    | some f => f.secVersion + 1
    | none => 0
  if v 1 > v 0 then [1, 0] else [0, 1]

/-- A rejected slot. -/
def State.fwReject (k : Nat) (s : State) : State :=
  match s.b.fwFails k with
  | some c => s.raise 26 (mkw (pl k 8 8 + pl c 0 8))
  | none => s

/-- Firmware runs: its header shows, and pair 0 is released. -/
def State.fwRun (k : Nat) (f : FwImage) (fallback : Bool) (s : State) : State :=
  (s.onPwr fun p =>
    { p with phase := .firmwareUp, fwLoaded := true, fwSlot := k, fwFallback := fallback, fwSec := f.secVersion
             fwMajor := f.major, fwMinor := f.minor, stepAt := s.b.now
             fwMs := sat (timeUnits (pPWR + 0x11C) (s.b.now - p.fiddleEnd) 1000000) 8 }).pairRelease 0

/-- The slot that loads, with those rejected before it. -/
def Blocks.fwChosen (b : Blocks) : Option Nat := b.fwOrder.find? fun k => (b.fwFails k).isNone

def State.firmwareLoad (s : State) : Host.Outcome State Fault Refusal :=
  if s.b.pwr.phase ≠ .fiddled ∨ s.b.lcs.scanOpen then .next s
  else
    let tried := s.b.fwOrder.takeWhile fun k => (s.b.fwFails k).isSome
    let s1 := forL tried (fun k s => s.fwReject k) s
    match s.b.fwChosen with
    | none => .next (s1.stopStart 6 27)
    | some k =>
      match s.b.fwSlotOf k with
      | none => .next s1
      | some f => if f.major = 1 then .next (s1.fwRun k f (!tried.isEmpty)) else .fault .outsideThisEdition

def execFirmwareLoad (t : Nat) (s : State) : Host.Outcome State Fault Refusal := (s.tick t).firmwareLoad

/-- R415: one step of counter 0 towards the running security version. -/
def State.antiRollback (s : State) : State :=
  if s.b.pwr.fwLoaded && s.b.cfg.image.isSome && !s.b.cfg.dry && s.b.life != .blank && decide (s.b.cntValue 0 < s.b.pwr.fwSec) then
    s.cntAdvance 0
  else s

def execAntiRollbackAdvance (t : Nat) (s : State) : Host.Outcome State Fault Refusal := .next (s.tick t).antiRollback

/-! ### Pace monitors and crystals (R19, R23) -/

/-- Channel and monitor share a number: 0 to 7 channel A, 8 to 15 channel B, the source less 32. -/
def State.paceWindow (a b : List Nat) (s : State) : State :=
  forN 16 (fun i s =>
    match (if i < 8 then a[i]? else b[i - 8]?) with
    | none => s
    | some p =>
      let v := min p 255
      (s.onPwr fun w =>
        { w with paces := nset w.paces i v 0, lows := nset w.lows i (if nget w.lows i 0 = 0 then v + 1 else min (nget w.lows i 0) (v + 1)) 0
                 slow := setb w.slow i (decide (p < 100)) }).cond (32 + i) (decide (p < 100)) (mkw v)) s

def execPaceWindowEnd (t : Nat) (pacesA pacesB : List Nat) (s : State) : Host.Outcome State Fault Refusal :=
  .next (if s.b.tru.aRunning || s.b.tru.bRunning then (s.tick t).paceWindow pacesA pacesB else s.tick t)

/-- No edge of a crystal for 1 microsecond on the other ruler. -/
def State.crystalStops (ch : Ch) (s : State) : State :=
  match ch with
  | .a => if s.b.tru.bRunning then (s.onTru fun u => { u with xaEdges := false, aRunning := false }).raise 50 else s
  | .b => if s.b.tru.aRunning then (s.onTru fun u => { u with xbEdges := false, bRunning := false }).raise 51 else s

def execOscillatorStop (t : Nat) (ch : Ch) (s : State) : Host.Outcome State Fault Refusal := .next ((s.tick t).crystalStops ch)

/-! ### The PWR page (R404, R420) -/

/-- PWR_CTR_CLEAR: bit 0 the lowest paces, bit 1 the lowest VCORE and the temperature peak; each starts again from what its
monitor reads now. -/
def State.pwrCtrClear (w : Word) (s : State) : State × Nat :=
  let s1 := if w.getLsbD 0 then s.onPwr fun p => { p with lows := nmapv p.lows 0 fun i _ => nget p.paces i 0 + 1 } else s
  (if w.getLsbD 1 then s1.onPwr fun p =>
      { p with minA := if p.mvA = 0 then 0xFFFF else p.mvA, minB := if p.mvB = 0 then 0xFFFF else p.mvB
               tempPeak := some (max p.tempA p.tempB) } else s1, rDone)

def execPwrCtrClear (t : Nat) (rd : Reader) (w : Word) (s : State) : Host.Outcome State Fault Refusal :=
  .next ((s.tick t).wt rd pPWR (wTok w) (State.pwrCtrClear w))

/-- Bits 255 to 32 of the retention register. -/
def Retention.body (r : Retention) : Nat :=
  pl 1 216 8 + pl (b2n r.unclean) 215 1 + pl r.sentence 167 48 + pl r.hintSeq 119 48 + pl r.hintSlot 99 20 +
    pl r.cause 84 15 + pl (b2n r.causeValid) 83 1

/-- The register with its check. -/
def Retention.value (r : Retention) : Nat :=
  if r.written then r.body * 2 ^ 32 + (crc32c (beBytes r.body 28)).toNat else 0

/-- A temperature in a byte. -/
def tempByte (x : Int) : Nat := (BitVec.ofInt 8 x).toNat

def readPwr (v : RView) (off : Nat) : Word :=
  let p := v.live.pwr
  match off with
  | 0x100 =>
    mkw (pl (b2n p.powerDown) 7 1 + pl (b2n (v.live.fcl.a.live.getLsbD 28)) 6 1 + pl (b2n p.retValid) 5 1 +
      pl (b2n p.uncleanFound) 4 1 + pl (b2n v.live.cfg.image.isSome) 3 1 + pl (b2n p.fwLoaded) 2 1 +
      pl (b2n (decide (p.railsGood = 31))) 1 1 + b2n p.ready)
  | 0x104 => mkw (pl (b2n p.vfuse) 6 1 + pl (b2n p.vkeep) 5 1 + pl p.railsGood.toNat 0 5)
  | 0x108 => mkw (pl p.mvA 0 16 + pl p.mvB 16 16)
  | 0x10C => mkw (pl p.minA 0 16 + pl p.minB 16 16)
  | 0x110 => mkw (pl (tempByte p.tempA) 0 8 + pl (tempByte p.tempB) 8 8 + pl (tempByte (p.tempPeak.getD 0)) 16 8)
  | 0x114 => mkw (pl (b2n v.live.fcl.chipResetTaken) 16 1 + pl p.chipResets 8 8 + pl p.cause 0 3)
  | 0x118 => mkw (pl p.stoppedStep 28 4 + pl p.stopSource 16 9 + pl p.fiddleUs 0 16)
  | 0x11C => mkw (pl p.readyMs 16 9 + pl p.cfgMs 8 8 + pl p.fwMs 0 8)
  | 0x120 => mkw (pl p.fwSec 16 16 + pl (b2n p.fwFallback) 1 1 + pl p.fwSlot 0 1)
  | _ =>
    if 0x140 ≤ off ∧ off < 0x160 then mkw (p.ret.value / 2 ^ (32 * ((off - 0x140) / 4)))
    else if 0x800 ≤ off ∧ off < 0x820 then
      let m := (off - 0x800) / 4
      mkw (pl (nget p.lows (8 + m) 1 - 1) 24 8 + pl (nget p.lows m 1 - 1) 16 8 + pl (nget p.paces (8 + m) 0) 8 8 +
        pl (nget p.paces m 0) 0 8)
    else 0

end Sys2Proof.Machine
end

