-- ==== Sys2Proof/Machine/ConfigPage.lean ====
section
/-! DEFINITION. The CFG and HIF pages as read (R439). -/

namespace Sys2Proof.Machine

/-- A configuration (0 to 7) or firmware (8, 9) slot. -/
def Blocks.slot (b : Blocks) (k : Nat) : Slot := nget b.cfg.slots k {}

/-! ### The CFG page (R439) -/

/-- CFG_STATUS. -/
def Blocks.cfgStatus (b : Blocks) : Word :=
  let c := b.cfg
  let on := c.image.isSome
  mkw (pl (b2n (on && c.foreign)) 7 1 + pl (b2n (on && c.signedOk)) 6 1 +
    pl (b2n ((b.acceptedImage.map (·.requireSigned)).getD false)) 5 1 +
    pl (b2n c.loading.isSome) 4 1 + pl (b2n (on && b.acceptedSlot == some c.slot)) 3 1 + pl (b2n (on && c.dry)) 2 1 +
    pl (b2n (on && b.img.target == 1)) 1 1 + b2n on)

/-- CFG_ACCEPT: the state, and the seconds left. -/
def Blocks.cfgAccept (b : Blocks) : Word :=
  let c := b.cfg
  mkw (pl c.acceptState 30 2 +
    if c.acceptState = 1 then min (shownDiv (pCFG + 0x138) (c.acceptAt + 60000000000 - b.now) 1000000000) 60 else 0)

/-- The mark code of CFG_SLOTs. -/
def Slot.code (x : Slot) : Nat :=
  match x.marks with
  | m :: _ => m.kind + 1
  | [] => if x.bytes.isEmpty && x.image.isNone then 0 else 1

def readCfg (v : RView) (off : Nat) : Word :=
  let c := v.live.cfg
  let im := v.live.img
  let on := c.image.isSome
  match off with
  | 0x100 => v.ros Blocks.cfgStatus
  | 0x104 => if on then mkw (pl c.slot 0 3 + pl im.generation 16 16) else 0
  | 0x108 => if on then loW im.cellId.toNat else 0
  | 0x10C => if on then hiW im.cellId.toNat else 0
  | 0x134 => mkw (pl c.resultOp 28 4 + pl c.resultCheck 8 8 + pl c.resultSection 0 8)
  | 0x138 => v.ros Blocks.cfgAccept
  | 0x13C => mkw (pl c.plugState 29 3 + pl c.plugMbit 16 8 + pl c.plugGen 0 16)
  | 0x140 => mkw (nget c.uploads v.rd {}).off
  | _ =>
    if 0x110 ≤ off ∧ off < 0x130 then (if on then wordOf im.digest (7 - (off - 0x110) / 4) else 0)
    else if 0x800 ≤ off ∧ off < 0x880 ∧ off % 16 = 0 then
      let x := v.live.slot ((off - 0x800) / 16)
      mkw (pl x.code 29 3 + pl ((x.image.map (·.gen)).getD 0) 0 16)
    else if 0x800 ≤ off ∧ off < 0x880 ∧ off % 16 = 4 then
      match (v.live.slot ((off - 0x800) / 16)).marks with
      | m :: _ => loW m.seq
      | [] => 0
    else if 0x900 ≤ off ∧ off < 0xA00 then nget (nget c.uploads v.rd {}).data ((off - 0x900) / 4) 0
    else 0

/-! ### The HIF page (R439) -/

/-- The port answers: out of reset, and not in its block reset. -/
def Blocks.hifOn (b : Blocks) : Bool :=
  b.pwr.phase != .powerOnReset && b.pwr.phase != .resetHeld && !b.resetting .hif

def readHif (v : RView) (off : Nat) : Word :=
  let h := v.live.hif
  match off with
  | 0x100 => mkw (pl (b2n h.inFrame) 2 1 + pl (b2n (decide (32 ≤ h.cache.length))) 1 1 + b2n v.live.hifOn)
  | 0x104 => mkw (pl h.irqPend.toNat 16 4 + pl h.irqEn.toNat 0 4)
  | 0x108 => h.frames.word
  | 0x10C => h.crcErr.word
  | 0x110 => h.dup.word
  | _ => 0

/-- HIF_IRQ_N is low: an enabled bit is pending. A reset leaves no enable, which releases the pin (R434, R446). -/
def Blocks.hifIrqLow (b : Blocks) : Bool := decide (b.hif.irqPend &&& b.hif.irqEn ≠ 0)

/-- HIF_CTR_CLEAR: bit 0 clears the counters. -/
def State.hifCtrClear (w : Word) (s : State) : State × Nat :=
  (if w.getLsbD 0 then s.onHif fun h => { h with frames := {}, crcErr := {}, dup := {} } else s, rDone)

end Sys2Proof.Machine
end

