-- ==== Sys2Proof/Machine/Settings.lean ====
section
/-! DEFINITION. The staged (RWS) registers: their fields, ranges and defaults (R49, R147 to R150, R183, R184, R209, R233, R234,
R356, R459), when they may be written and which need a partner (R43, R146), and the conditions that relate one setting to
another (R55, R120, R128, R129, R157, R176, R192, R202, R251, R304, R353). -/

namespace Sys2Proof.Machine

/-! ### Fields and ranges -/

/-- A field of a register: its bits, and the values it takes. -/
abbrev FieldRule := Nat × Nat × (Nat → Bool)

def between (lo hi n : Nat) : Bool := decide (lo ≤ n) && decide (n ≤ hi)

/-- A field that takes every value. -/
def anyField (hi lo : Nat) : FieldRule := (hi, lo, fun _ => true)

/-- A native value: bits [31:20] repeat bit 19. -/
def nativeField : FieldRule := (31, 0, fun n => (BitVec.ofNat 20 n).signExtend 32 == BitVec.ofNat 32 n)

/-- The register offset within an instance, for `n` instances of `step` bytes from `base`. -/
def inArray (o base step n : Nat) : Option Nat := if base ≤ o ∧ o < base + step * n then some ((o - base) % step) else none

/-- The fields listed for a register offset. -/
def pick (o : Option Nat) (l : List (Nat × List FieldRule)) : List FieldRule :=
  match o with
  | some k => ((l.find? fun x => x.1 == k).map (·.2)).getD []
  | none => []

/-- The fields of the staged registers of the LIO, TPG, SOG and STO pages. -/
def terminalFields (p o : Nat) : List FieldRule :=
  if p = pLIO then
    pick (inArray o 0x800 16 48) [(0, [(31, 29, between 0 4), (28, 24, fun n => decide (n < 16) || n == 31),
        (20, 16, fun n => decide (n < 16) || n == 31), anyField 15 0]),
      (4, [(24, 16, between 0 500), (15, 0, between 1 30000)])]
  else if p = pTPG then
    if o = 0x104 then [(9, 0, between 10 1000)]
    else if o = 0x108 then [(4, 0, between 1 25)]
    else if o = 0x10C then [anyField 15 0]
    else pick (inArray o 0x800 4 16) [(0, [(8, 0, fun n => between 10 500 n && n % 2 == 0)])]
  else if p = pSOG then
    if o = 0x120 then [(9, 0, between 1 600)]
    else pick (inArray o 0x800 8 16) [(0, [anyField 31 31, (25, 16, between 5 100), (15, 0, between 2 50000)])]
  else if p = pSTO then
    pick (inArray o 0x800 8 16) [(0, [(8, 0, between 1 500)])]
  else []

/-- The fields of the staged registers of the MEA and AXS pages. -/
def axisFields (p o : Nat) : List FieldRule :=
  if p = pMEA then
    if o = 0x104 then [anyField 15 0]
    else if o = 0x10C then [(7, 0, between 10 120), (15, 8, between 10 120)]
    else pick (inArray o 0x900 32 8) [(0x00, [anyField 31 31, (8, 0, between 1 256)]),
      (0x04, [anyField 23 0]),
      (0x08, [nativeField]),
      (0x0C, [anyField 18 0]),
      (0x10, [(13, 0, between 1 10000)])]
  else if p = pAXS then
    pick (inArray o 0x800 64 16) [(0x00, [anyField 31 31, anyField 30 30, anyField 29 25,
        (24, 20, fun n => decide (n < 16) || n == 31), anyField 19 16, (15, 12, between 1 15)]),
      (0x04, [(23, 0, between 1 16777215)]),
      (0x08, [(23, 0, between 1 16777215)]),
      (0x0C, [(23, 0, between 1 16777215)]),
      (0x10, [(23, 0, between 1 16777215)]),
      (0x14, [nativeField]),
      (0x18, [(15, 0, between 1 65535)]),
      (0x1C, [(18, 0, between 1 524287)]),
      (0x20, [anyField 30 24, (21, 16, between 0 61), anyField 14 8, anyField 5 0]),
      (0x24, [anyField 31 31, anyField 30 30, (29, 24, between 0 47), anyField 15 0]),
      (0x28, [nativeField]),
      (0x2C, [(18, 0, between 1 524287)])]
  else []

/-- The fields of the staged registers of the SEP page. Bits [18:16] of SEP_SNS_CFGs show the image's boxes, whatever is
written. -/
def sepFields (o : Nat) : List FieldRule :=
  let x := pick (inArray o 0x800 64 4) [(0x00, [anyField 31 31, anyField 30 26]),
      (0x04, [(11, 0, between 0 3000)]),
      (0x08, [(13, 0, between 0 10000)]),
      (0x0C, [(10, 0, between 0 2000)]),
      (0x10, [(15, 0, between 100 50000)]),
      (0x14, [(9, 0, between 0 1000), (19, 10, between 0 1000), (29, 20, between 0 1000)]),
      (0x18, [(13, 0, between 0 10000)]),
      (0x1C, [(12, 0, between 0 5100)])]
  if !x.isEmpty then x
  else pick (inArray o 0xA00 16 8) [(0, [anyField 31 31, anyField 30 24, anyField 18 16, (7, 0, between 1 200)])]

/-- The fields of the staged registers of the PORT and TSY pages. -/
def timeFields (p o : Nat) : List FieldRule :=
  if p = pTSY then
    if o = 0x104 then [(31, 30, between 0 2), (9, 0, between 2 1000)]
    else if o = 0x10C then
      [(23, 16, between 1 200), (15, 12, between 2 10), (11, 8, fun n => decide (n ≤ 3) || decide (13 ≤ n)),
        (3, 0, fun n => n == 0 || decide (9 ≤ n))]
    else if o = 0x110 then [(31, 26, between 0 60), (25, 16, between 0 600), (6, 0, between 1 100)]
    else []
  else if pPORT 0 ≤ p ∧ p ≤ pPORT 5 then
    if o = 0x104 then
      [anyField 31 31, (30, 28, fun n => decide (n ≤ 4) || n == 7), anyField 27 24, anyField 23 23, anyField 22 22,
        (11, 0, between 1 4094)]
    else if o = 0x108 then [nativeField]
    else []
  else []

/-- The fields of the staged register at an A-view address; none where no staged register stands there. -/
def rwsFields (addr : Nat) : List FieldRule :=
  let p := addr / 4096 * 4096
  let o := addr % 4096
  if p = pSYS then (if o = 0x110 then [(8, 0, between 5 400)] else [])
  else if p = pBST then (if o = 0x104 then [(6, 0, between 0 90)] else [])
  else if p = pSEP then sepFields o
  else if p = pMEA ∨ p = pAXS then axisFields p o
  else if p = pTSY ∨ (pPORT 0 ≤ p ∧ p ≤ pPORT 5) then timeFields p o
  else terminalFields p o

def isRws (addr : Nat) : Bool := !(rwsFields addr).isEmpty

/-- A value whose fields are in range and whose reserved bits are 0. -/
def wordFits (l : List FieldRule) (w : Word) : Bool :=
  (l.all fun f => f.2.2 (fld w f.1 f.2.1)) && w.toNat == (l.map fun f => fld w f.1 f.2.1 * 2 ^ f.2.1).sum

/-- Where the image gives a staged register no value: its default. -/
def rwsDefaults : List (Nat × Word) :=
  [(pSYS + 0x110, 25), (pTPG + 0x104, 100), (pTPG + 0x108, 5), (pSOG + 0x120, 10), (pMEA + 0x10C, mkw (30 + 70 * 256)),
    (pTSY + 0x104, 20), (pTSY + 0x10C, mkw (pl 16 16 8 + pl 3 12 4 + pl 12 0 4)), (pTSY + 0x110, mkw (pl 10 26 6 + pl 10 16 10 + 100)),
    (pBST + 0x104, 50)] ++
  (List.range 48).map (fun i => (pLIO + 0x800 + 16 * i, mkw (pl 31 24 5 + pl 31 16 5 + 3))) ++
  (List.range 48).map (fun i => (pLIO + 0x804 + 16 * i, 500)) ++
  (List.range 16).map (fun k => (pTPG + 0x800 + 4 * k, 40)) ++
  (List.range 16).map (fun k => (pSOG + 0x800 + 8 * k, mkw (pl 30 16 10 + 100))) ++
  (List.range 16).map (fun k => (pSTO + 0x800 + 8 * k, 20)) ++
  (List.range 8).map (fun j => (pMEA + 0x910 + 32 * j, 100)) ++
  (List.range 4).map (fun c => (pSEP + 0x804 + 64 * c, 1600))

end Sys2Proof.Machine

namespace Sys2Proof

open Machine in
/-- The image uses analogue lichen `j`: it states one of the lichen's registers (log 62). -/
def Image.statesAin (im : Image) (j : Nat) : Bool :=
  im.regs.any fun x => decide (pMEA + 0x900 + 32 * j ≤ x.1) && decide (x.1 < pMEA + 0x914 + 32 * j)

open Machine in
/-- The staged settings an image brings. An analogue lichen that it uses has N = 4 where it states no N. -/
def Image.settings (im : Image) : NMap Word :=
  let ains := (List.range 8).filter im.statesAin
  forL (im.regs.filter fun x => isRws x.1) (fun x m => nset m x.1 x.2 0)
    (forL (rwsDefaults ++ ains.map fun j => (pMEA + 0x900 + 32 * j, 4)) (fun x m => nset m x.1 x.2 0) [])

end Sys2Proof

namespace Sys2Proof.Machine

/-! ### Who may stage what (R49, R146, R356) -/

/-- BST_BUDGET is staged in every state; every other register while the image runs dry, or in MANUFACTURE. -/
def Blocks.mayStage (b : Blocks) (addr : Nat) : Bool :=
  addr == pBST + 0x104 || (b.cfg.image.isSome && b.cfg.dry) || b.life == .manufacture

/-- Every page with a B view wants the equal write in the other view (R43). -/
def wantsPartner (addr : Nat) : Bool :=
  match pageInfo (addr / 4096 * 4096) with
  | some i => i.bView
  | none => false

/-! ### Conditions between settings -/

/-- The fault-free slot between one mask window's end and the other's next start, in microseconds. -/
def windowGap (ends starts period : Nat) : Nat := (starts + period - ends % period) % period

/-- The mask window of TPO `k`, in microseconds from the period's start: start and end. -/
def Blocks.maskWindow (b : Blocks) (k : Nat) : Nat × Nat :=
  (b.tpoOffset k, b.tpoOffset k + fld (b.set (pTPG + 0x800 + 4 * k)) 8 0 + 2 * fld (b.set (pTPG + 0x108)) 4 0)

/-- R128 for an enabled TPO. -/
def Blocks.pulseFits (b : Blocks) (k : Nat) : Bool :=
  let w := b.maskWindow k
  decide ((w.2 - w.1 + 10) * b.tpoCount ≤ b.tpgPeriod / 1000)

/-- R129 for a lichen with a TPO on each terminal. -/
def Blocks.filterFits (b : Blocks) (i : Nat) : Bool :=
  match b.tpoOf .a i, b.tpoOf .b i with
  | some j, some k =>
    let p := b.tpgPeriod / 1000
    let gap := min (windowGap (b.maskWindow j).2 (b.maskWindow k).1 p) (windowGap (b.maskWindow k).2 (b.maskWindow j).1 p)
    decide (b.lioFilter i ≤ 1000 * gap)
  | _, _ => true

/-- The operand slot in which a kind 4 lichen may stand, by object kind (R120). -/
def contactSlot (kind : Nat) : Option Nat :=
  if kind = 0x01 then some 1 else if kind = 0x02 then some 3 else if kind = 0x03 then some 2
  else if kind = 0x08 then some 0 else none

/-- Where an image uses a lichen of kind 4: only as an acknowledge. -/
def Blocks.contactBound (b : Blocks) (i : Nat) : Bool :=
  (b.img.table.all fun c =>
    let slot := if clauseOp c.2 = 0x12 then ((b.fnEntry (clauseParam c.2 % 512)).bind fun e => contactSlot e.kind) else none
    (List.range 7).all fun j => clauseOpd c.2 j != i || slot == some j) &&
  ((b.img.bindSout ++ b.img.bindSto ++ b.img.bindField).all fun x => x.2 != i) &&
  (b.img.functions.all fun e => e.release != some i && e.ack != some i && e.limit != some i) &&
  b.axesOn.all fun a => !(b.axSet a 0x24).getLsbD 31 || fld (b.axSet a 0x24) 29 24 != i

/-- R120 for a lichen. -/
def Blocks.lichenFits (b : Blocks) (i : Nat) : Bool :=
  let ta := b.tpoOf .a i
  let tb := b.tpoOf .b i
  let enabled := fun (t : Option Nat) => match t with
    | some k => b.tpoEnabled.getLsbD k
    | none => true
  let kindOk := match b.lioKind i with
    | 3 => ta.isNone && tb.isNone
    | 4 => ta == tb && b.contactBound i
    | 0 => true
    | _ => ta.isNone || ta != tb
  kindOk && enabled ta && enabled tb && (b.lioKind i == 3 || b.blankLen i == 0)

/-- The acceptance lichen (R120, R429); a 4408 image may do without (R433). -/
def Blocks.acceptFits (b : Blocks) : Bool :=
  let i := b.img.accLichen
  (b.img.target == 1 && (b.img.sections.all fun x => x.kind != 0x12)) ||
    ([1, 2, 4].contains (b.lioKind i) && decide (i < 48) && (b.tpoOf .a i).isSome && (b.tpoOf .b i).isSome)

/-- The payload bytes that AXS owns in a session: drive records of a consumer slot, command words of a producer slot. -/
def Blocks.axsBytes (b : Blocks) (prod : Bool) (slot : Nat) : List (Nat × Nat) :=
  b.axesOn.filterMap fun a =>
    let w := b.axSet a 0x20
    if prod then (if fld w 14 8 = slot then some (4 * fld w 5 0, 2) else none)
    else if fld w 30 24 = slot then some (4 * fld w 21 16, 12) else none

/-- No field overlaps what AXS owns (R158, R251). -/
def Blocks.fieldsClear (b : Blocks) (prod : Bool) (slot : Nat) (l : List FieldCfg) : Bool :=
  (b.axsBytes prod slot).all fun r => l.all fun f => decide (f.offset + fieldBytes f.kind ≤ r.1) || decide (r.1 + r.2 ≤ f.offset)

/-- The zones that hold a used output lichen, STO lichen or axis (R304). -/
def Blocks.zoneHeld (b : Blocks) (z : Nat) : Bool :=
  ((List.range 16).any fun k => b.img.soutUsed.getLsbD k && b.soutZoneOf k == z) ||
    ((List.range 16).any fun k => b.img.stoUsed.getLsbD k && b.stoZoneOf k == z) || b.axesOn.any fun a => b.axZone a == z

/-- Zone `z` has a restart acknowledge instance, where it needs one. -/
def Blocks.zoneAckFits (b : Blocks) (z : Nat) : Bool :=
  !b.zoneHeld z || (match (b.zoneAckOf z).bind b.fnEntry with
    | some e => e.kind == 0x08
    | none => false)

/-- R202: W_sep leaves 10 microseconds of T_S, and T_sep is 1,000 to 20,000 microseconds. -/
def Blocks.sepFits (b : Blocks) : Bool :=
  match b.grid with
  | some g => decide (g.workTwice + 20000 ≤ 2 * b.tsNs) && between 1000000 20000000 (b.tSep g)
  | none => true

/-- R353. -/
def Blocks.passFits (b : Blocks) : Bool :=
  match b.pGuar with
  | some p => decide (p ≤ b.img.tDtiMaxS * 1000000000)
  | none => true

/-- R157: the session of an axis's drive record. -/
def Blocks.recordFits (b : Blocks) (a : Nat) : Bool :=
  match b.consCfg (fld (b.axSet a 0x20) 30 24) with
  | some c => decide (c.ageMax ≤ 400)
  | none => true

/-- What an enabled axis must state (R155, R160, R161): its scaling, its tolerances, and m where it is a modulo axis. -/
def Blocks.axisFits (b : Blocks) (a : Nat) : Bool :=
  ([0x04, 0x08, 0x0C, 0x10, 0x18, 0x1C] : List Nat).all (fun o => b.axSet a o != 0) && (!b.axModulo a || b.axSet a 0x2C != 0)

/-- R176: an SLP instance needs an axis that is not modulo and has a reference lichen. -/
def Blocks.slpFits (b : Blocks) (e : FnEntry) : Bool :=
  e.kind != 0x15 || (!b.axModulo e.axis && (b.axSet e.axis 0x24).getLsbD 31)

/-- The axis of a joint has what its SLP, SOS and SDI instances and the reference rules of R162 need: it is enabled, and a reference
lichen that it names is a used one. DEDUCED (log 62). -/
def Blocks.jointFits (b : Blocks) (a : Nat) : Bool :=
  b.axEn a && (!(b.axSet a 0x24).getLsbD 31 || b.lioKind (fld (b.axSet a 0x24) 29 24) != 0)

/-- R192: every joint names an enabled axis that is configured as the chain requires. -/
def Blocks.jointsFit (b : Blocks) : Bool :=
  match b.grid with
  | some g => g.chains.all fun c => c.2.joints.all fun j => b.jointFits j.axis
  | none => true

/-- Every condition that relates settings to one another, each with the section it is charged to. -/
def Blocks.settingRules (b : Blocks) : List (Nat × Bool) :=
  [(0x07, decide (b.img.eBound + 6000 ≤ b.tsNs)),
    (0x08, ((List.range 16).filter fun k => b.tpoEnabled.getLsbD k).all b.pulseFits),
    (0x08, (List.range 48).all b.lichenFits),
    (0x08, (b.usedLichens.filter fun i => b.lioKind i == 1 || b.lioKind i == 2).all b.filterFits),
    (0x12, b.acceptFits),
    (0x09, b.axesOn.all b.recordFits), (0x09, b.axesOn.all b.axisFits),
    (0x09, b.img.functions.all b.slpFits),
    (0x0C, b.img.cons.all fun x => b.fieldsClear false x.1 x.2.fields),
    (0x0C, b.img.prods.all fun x => b.fieldsClear true x.1 x.2.fields),
    (0x06, (List.range 32).all b.zoneAckFits),
    (0x0A, b.sepFits), (0x0A, b.jointsFit),
    (0x0F, b.passFits)]

def Blocks.settingsFit (b : Blocks) : Bool := b.settingRules.all (·.2)

/-- The blocks with a set of staged writes in force. -/
def Blocks.withWrites (b : Blocks) (l : List (Nat × Word)) : Blocks :=
  { b with cfg := { b.cfg with rws := forL l (fun x m => nset m (aView x.1) x.2 0) b.cfg.rws } }

/-! ### What restarts when settings apply (R146) -/

/-- The terminals that expect TPO `k`, and the TPO itself, restart. -/
def State.tpoRestart (k : Nat) (s : State) : State :=
  let fresh := fun (c : Ch) (i : Nat) (m : Term) =>
    if s.b.tpoOf c i = some k then
      { m with missing := 0, foreign := 0, foreignNow := false, badNow := false, good := 0, tracking := false, ownSeen := false }
    else m
  (s.onTpg fun g =>
      { g with on := setb g.on k (s.b.tpoEnabled.getLsbD k), periodAt := none, window := if g.window = some k then none else g.window
               differs := setb g.differs k false }).onLio fun l =>
    { l with lichens := nmapv l.lichens {} fun i x => { x with a := fresh .a i x.a, b := fresh .b i x.b } }

/-- One output of a stage in its first-use state: its holds stay. -/
def Stage.restart (g : Stage) (k : Nat) : Stage :=
  { g with
    diffAt := nset g.diffAt k none none, diff := setb g.diff k false, pinDiffRun := nset g.pinDiffRun k 0 0
    pinAgreeRun := nset g.pinAgreeRun k 0 0, pinDiff := setb g.pinDiff k false }

/-- One output or STO lichen in its first-use state: its pins are 0 until a commit of 1; its locks stay. -/
def OutBlock.restart (o : OutBlock) (k : Nat) : OutBlock :=
  { o with committed := setb o.committed k false, a := o.a.restart k, b := o.b.restart k, dark := nset o.dark k {} {} }

/-- Input lichen `i` restarts; a signal that was 1 falls and triggers. -/
def State.lichenRestart (i : Nat) (s : State) : State :=
  let s1 := s.onLichen i Lichen.firstUse
  s1.lockCond.signalsMoved s.b

/-- Analogue lichen `j` restarts; what has failed stays until its clear. -/
def State.ainRestart (j : Nat) (s : State) : State :=
  s.onMea fun m => { m with ain := nupd m.ain j {} fun x => { failed := x.failed, events := x.events } }

/-- What the staged register at `addr` concerns restarts in its first-use state. -/
def State.restartFor (addr : Nat) (s : State) : State :=
  let p := addr / 4096 * 4096
  let o := addr % 4096
  if p = pLIO then s.lichenRestart ((o - 0x800) / 16)
  else if p = pTPG then
    (if 0x800 ≤ o then s.tpoRestart ((o - 0x800) / 4) else forN 16 State.tpoRestart s)
  else if p = pSOG then
    (if 0x800 ≤ o then s.onSog fun b => b.restart ((o - 0x800) / 8)
      else s.onSog fun b => { forN 16 (fun k b => b.restart k) b with gridAt := s.b.now })
  else if p = pSTO then s.onSto fun b => b.restart ((o - 0x800) / 8)
  else if p = pMEA ∧ 0x900 ≤ o then s.ainRestart ((o - 0x900) / 32)
  else s

end Sys2Proof.Machine
end

