-- ==== Sys2Proof/Machine/ImageChecks.lean ====
section
/-! DEFINITION. What refuses an image at a load, in the order of R423: header and directory (R421, R422), section checks,
digest, signature (R425), generation (R427), owner certificates (R388), and every rule of the other chapters. -/

namespace Sys2Proof.Machine

/-- One rule of R423: the section type it is charged to, 0 for the header and directory; and whether it holds. -/
abbrev Rule := Nat × Bool

/-- The section of the first rule that does not hold. -/
def firstFailing (l : List Rule) : Option Nat := (l.find? fun r => !r.2).map (·.1)

/-- Ranges (start, length) of which no two overlap. -/
def apart (l : List (Nat × Nat)) : Bool := decide (l.Pairwise fun x y => x.1 + x.2 ≤ y.1 ∨ y.1 + y.2 ≤ x.1)

/-- A value of a range in steps from its lowest. -/
def inSteps (lo hi step n : Nat) : Bool := between lo hi n && (n - lo) % step == 0

/-! ### Header and directory (R421, R422, R433) -/

def Blocks.headerRules (b : Blocks) (im : Image) : List Rule :=
  let types := im.sections.map (·.kind)
  let needed := if im.target = 1 then [0x20] else [1, 2, 3, 4, 5, 6, 7, 8, 0x0B, 0x0E, 0x0F, 0x12]
  let known := if im.target = 1 then [0x20, 0x11, 0x12] else (List.range 18).map (· + 1)
  [(0, im.magic == 0x5A4E4347 && im.format == 1 && decide (im.target ≤ 1) && decide (im.flags.toNat ≤ 1)),
    (0, im.cellId != 0 && between 1 65535 im.generation && decide (im.signer ≤ 3) && im.reservedZero),
    (0, decide (im.length ≤ 8386560) && between 1 32 im.sections.length),
    (0, im.flags.getLsbD 0 || im.signature == 0),
    (0, !(b.otp.latched.getLsbD 8 && im.target == 0) && !(im.target == 1 && (b.regionBad 10 || b.regionBad 11))),
    (0, decide types.Nodup && types.all known.contains && needed.all types.contains),
    (0, im.sections.all fun x =>
      x.offset % 8 == 0 && decide (256 + 24 * im.sections.length ≤ x.offset) && decide (x.offset + x.length ≤ im.length) &&
        x.reservedZero),
    (0, apart (im.sections.map fun x => (x.offset, x.length)))]

/-! ### Signature, generation, certificates (R425, R427, R388) -/

/-- The signature of an image under the certificate it names: the accepted image's where there is one. -/
def Blocks.imageSigned (b : Blocks) (im : Image) : Bool :=
  match ((b.acceptedImage.getD im).certs)[im.signer]? with
  | some c => Config.ecdsaVerify c.pub im.digest im.signature
  | none => false

def Blocks.signatureRule (b : Blocks) (im : Image) : Bool :=
  if im.flags.getLsbD 0 then b.imageSigned im else !(b.acceptedImage.map (·.requireSigned)).getD false

def Blocks.generationRule (b : Blocks) (im : Image) : Bool :=
  b.life != .deployed || decide (b.cntValue 1 ≤ im.gen)

/-! ### The clause tables (R76, R77, R82 to R85, R92, R93, R115) -/

def holdsClause (im : Image) (x : Nat) : Bool := im.clausesA.any fun c => c.1 + 4096 == x
def givesConst (im : Image) (x : Nat) : Bool := im.constsA.any fun c => c.1 + 20480 == x

/-- What an operand of a clause at level `l` may refer to. -/
def operandFits (im : Image) (l x : Nat) : Bool :=
  usedIndex x && (!isClause x || (holdsClause im x && decide (im.level (x - 4096) < l))) &&
    (decide (x < 20480) || decide (24576 ≤ x) || givesConst im x)

/-- What a sink may be bound to. -/
def sinkFits (im : Image) (x : Nat) : Bool :=
  decide (x < 26624) && (!isClause x || holdsClause im x) && (decide (x < 20480) || decide (24576 ≤ x) || givesConst im x)

/-- The operators but CALL: code, fewest and most operands, and the parameters listed for it. -/
def opRules : List (Nat × Nat × Nat × (Nat → Bool)) :=
  [(0x01, 1, 7, (· == 0)), (0x02, 1, 7, (· == 0)), (0x03, 3, 3, (· == 0)), (0x04, 1, 1, (· == 0)), (0x05, 2, 2, (· == 0)),
    (0x06, 1, 1, between 1 3), (0x07, 2, 2, between 0 3), (0x08, 2, 2, between 0 3), (0x09, 2, 3, between 0 1),
    (0x0A, 3, 4, (· == 0)), (0x0B, 5, 5, between 0 7), (0x0C, 1, 7, (· == 0)), (0x0D, 1, 7, (· == 0)), (0x0E, 2, 2, (· == 0)),
    (0x0F, 2, 2, (· == 0)), (0x10, 2, 2, between 0 31), (0x11, 2, 7, between 1 6)]

/-- The operand slots a function object must use and may use (R97). -/
def callSlots (e : FnEntry) : List Nat × List Nat :=
  match e.kind with
  | 1 => ([0, 1], [])
  | 2 => ([0], if e.manual then [1, 2, 3] else [1, 2])
  | 3 => ([0], [1, 2])
  | 4 => ([0, 1], [])
  | 5 => ([0, 1], [])
  | 6 => (if e.fourSensors then ([0, 1, 2, 3, 4, 5], []) else ([0, 1, 4, 5], []))
  | 7 => (List.range e.positions, [])
  | _ => ([0], [])

def opdUsed (w : BitVec 128) (j : Nat) : Bool := clauseOpd w j != noOpd

/-- Operands, parameters and references of one clause. -/
def Blocks.clauseFits (b : Blocks) (x : Nat × BitVec 128) : Bool :=
  let op := clauseOp x.2
  let par := clauseParam x.2
  let n := (clauseUsed x.2).length
  let shape :=
    if op = 0x12 then
      decide (par < 512) && (match b.fnEntry par with
        | some e =>
          between 1 8 e.kind && (List.range 7).all fun j =>
            if opdUsed x.2 j then (callSlots e).1.contains j || (callSlots e).2.contains j else !(callSlots e).1.contains j
        | none => false)
    else
      match opRules.find? fun r => r.1 == op with
      | some r => between r.2.1 r.2.2.1 n && r.2.2.2 par && (List.range n).all (opdUsed x.2) && (op != 0x11 || n == par + 1)
      | none => false
  shape && (clauseUsed x.2).all (operandFits b.img (b.img.level x.1))

/-- The conjugate of a clause word (R92). -/
def conjugateWord (w : BitVec 128) : BitVec 128 := BitVec.ofNat 128 (w.toNat % 2 ^ 122 + dualOp (clauseOp w) * 2 ^ 122)

/-- The instance of every CALL. -/
def calls (im : Image) : List Nat := (im.clausesA.filter fun c => clauseOp c.2 == 0x12).map fun c => clauseParam c.2

def Blocks.clauseRules (b : Blocks) : List Rule :=
  let im := b.img
  [(2, nsorted im.clausesA && im.clausesA.all fun c => decide (c.1 < 16384)),
    (4, im.clausesA.all fun c => decide (im.level c.1 < 128)),
    (4, im.usedLevels == List.range im.usedLevels.length),
    (2, im.clausesA.all b.clauseFits),
    (2, decide (calls im).Nodup),
    (3, im.clausesB == im.clausesA.map fun c => (c.1, conjugateWord c.2)),
    (5, nsorted im.constsA && im.constsA.all fun c => decide (c.1 < 4096) && c.2.ok),
    (5, (im.constsA.all fun c => nget im.constsB c.1 (NV.conj {}) == c.2.conj) && im.constsB.all fun c => givesConst im (c.1 + 20480))]

/-! ### Sinks and interjections (R64, R112, R113, R254) -/

/-- The field that key 16 × slot + f names in a producer session. -/
def prodField (im : Image) (key : Nat) : Option FieldCfg :=
  (im.prods.find? fun x => x.1 == key / 16).bind fun x => x.2.fields.find? fun f => f.f == key % 16

/-- Operand `j` of the clause is one through which a trigger forces it to 0 (R113). -/
def Blocks.forcing (b : Blocks) (w : BitVec 128) (j : Nat) : Bool :=
  match clauseOp w with
  | 0x01 => true
  | 0x05 => j == 0
  | 0x12 =>
    match (b.fnEntry (clauseParam w)).map (·.kind) with
    | some 1 => j == 0
    | some 2 => j == 0 || j == 1
    | some 3 => j == 0 && !opdUsed w 1
    | _ => false
  | _ => false

/-- The entries that may be triggers. -/
def triggerEntry (x : Nat) : Bool :=
  decide (x < 48) || (decide (128 ≤ x) && decide (x < 640) && (x - 128) % 32 == 8) || isHealth x

/-- For each clause output that depends on entry `m`: whether it depends on it through forcing operands alone. -/
def Blocks.forcedMap (b : Blocks) (m : Nat) : NMap (Option Bool) :=
  forL b.img.order (fun (c : Nat × BitVec 128) (t : NMap (Option Bool)) =>
    if c.1 + 4096 = m then nset t m (some true) none
    else
      let via := (List.range 7).filterMap fun (j : Nat) =>
        if opdUsed c.2 j then (nget t (clauseOpd c.2 j) none).map (· && b.forcing c.2 j) else none
      if via.isEmpty then t else nset t (4096 + c.1) (some (via.all id)) none) []

/-- One interjection entry. -/
def Blocks.intjFits (b : Blocks) (e : IntjEntry) : Bool :=
  let im := b.img
  let forced := b.forcedMap (4096 + e.clause)
  let held := fun (x : Option Nat) => match x with
    | some y => nget forced y none == some true
    | none => true
  triggerEntry e.trigger &&
    (match im.clausesA.find? fun c => c.1 == e.clause with
     | some c => (List.range 7).any fun j => clauseOpd c.2 j == e.trigger && b.forcing c.2 j
     | none => false) &&
    (e.sout.all fun k => decide (k < 16) && held (boundTo im.bindSout k)) &&
    (e.sto.all fun k => decide (k < 16) && held (boundTo im.bindSto k)) &&
    decide (e.fields.length ≤ 8) &&
    e.fields.all fun k =>
      (match prodField im k with
       | some f => f.kind == 1 || f.kind == 2
       | none => false) && held (boundTo im.bindField k)

def Blocks.sinkRules (b : Blocks) : List Rule :=
  let im := b.img
  let marked := (im.clausesA.filter fun c => clauseIntj c.2).map (·.1)
  let named := im.intjs.map (·.clause)
  [(4, ((im.bindSout ++ im.bindSto).all fun x => decide (x.1 < 16)) && im.bindField.all fun x => (prodField im x.1).isSome),
    (4, decide (im.bindSout.map (·.1)).Nodup && decide (im.bindSto.map (·.1)).Nodup && decide (im.bindField.map (·.1)).Nodup),
    (4, (im.bindSout ++ im.bindSto ++ im.bindField).all fun x => sinkFits im x.2),
    (4, im.functions.all fun e => ([e.release, e.ack, e.limit].filterMap id).all (sinkFits im)),
    (4, decide (im.intjs.length ≤ 64)),
    (4, decide named.Nodup && named.all marked.contains && marked.all named.contains),
    (4, im.intjs.all b.intjFits)]

/-! ### The function table (R94, R97, R168, R178, R201) -/

/-- The parameters of one kind. -/
def paramsFit (e : FnEntry) : Bool :=
  let p := e.par
  let unit := fun (lo : Int) (i : Nat) => decide (lo ≤ p i) && decide (p i ≤ 524287)
  let time := fun (lo hi : Int) (i : Nat) => decide (lo ≤ p i) && decide (p i ≤ hi)
  let said := fun (i : Nat) => e.p.any fun x => x.1 == i
  let bits := fun (mask : Nat) => decide (0 ≤ p 0) && (p 0).toNat &&& mask == (p 0).toNat
  let stop := time 0 10000 1 && unit 1 2 && unit 0 3 && time 10 60000 4 && decide (p 1 < p 4) && unit 1 5
  match e.kind with
  | 0x02 => inSteps 10 2000 10 e.tSync
  | 0x04 => inSteps 50 500 10 e.tSync
  | 0x05 => decide (e.tEnableMaxS ≤ 3600)
  | 0x06 => inSteps 50 4000 10 e.tSync && between 1 600 e.tMuteMaxS
  | 0x07 => between 2 5 e.positions && inSteps 50 1000 10 e.tChangeMs
  | 0x10 => bits 0x0F
  | 0x11 => bits 0x1F && stop && time 10 60000 6
  | 0x12 => bits 0x0F && stop && unit 1 6 && unit 1 7
  | 0x13 => bits 0x2F && unit 1 1 && unit 1 2
  | 0x14 => bits 0x36F && said 1 && unit 0 1 && unit 0 2 && unit 0 3
  | 0x15 => bits 0x2F && said 1 && said 2 && time (-524288) 524287 1 && time (-524288) 524287 2 && decide (p 1 < p 2)
  | 0x16 => bits 0x3F && said 0 && said 1 && unit 0 1
  | 0x18 => bits 0x13 && time 0 500 1
  | _ => true

def axsKind (k : Nat) : Bool := between 0x10 0x16 k
def knownKind (k : Nat) : Bool := decide (k ≤ 8) || axsKind k || k == 0x18 || k == 0x20

/-- Entry `x` is the output of a restart acknowledge object. -/
def Blocks.isAckOutput (b : Blocks) (x : Nat) : Bool :=
  isClause x && b.img.clausesA.any fun c =>
    c.1 + 4096 == x && clauseOp c.2 == 0x12 && (b.fnEntry (clauseParam c.2)).map (·.kind) == some 0x08

/-- The inputs of an AXS or SEP instance. -/
def Blocks.inputsFit (b : Blocks) (e : FnEntry) : Bool :=
  let must := [0x10, 0x11, 0x12].contains e.kind || (e.kind == 0x18 && bit e.p0 4)
  (!axsKind e.kind || (e.release.isSome && (e.limit.isNone || e.kind == 0x14))) &&
    (match e.ack with
     | some x => !(axsKind e.kind || e.kind == 0x18) || b.isAckOutput x
     | none => !must)

/-- At most one instance of a kind to an axis, four of SLS; at most one of kind 0x18 to a chain. -/
def countsFit (im : Image) : Bool :=
  im.functions.all fun e =>
    let same := (im.functions.filter fun f => f.kind == e.kind && f.axis == e.axis).length
    let chain := (im.functions.filter fun f => f.kind == 0x18 && f.p0 % 4 == e.p0 % 4).length
    if e.kind = 0x14 then decide (same ≤ 4) else if axsKind e.kind then same == 1 else e.kind != 0x18 || chain == 1

def Blocks.functionRules (b : Blocks) : List Rule :=
  let im := b.img
  let insts : List Nat := im.functions.map (·.inst)
  [(6, decide insts.Nodup && insts.all fun i => decide (i < 512)),
    (6, im.functions.all fun e => knownKind e.kind && decide (e.zone < 32) && paramsFit e),
    (6, im.configured.all b.inputsFit && countsFit im),
    (6, decide (im.zoneAck.map (·.1)).Nodup && im.zoneAck.all fun x => decide (x.1 < 32)),
    (7, im.eBound == im.eBoundOf && decide (im.eBoundOf ≤ 49000)),
    (7, im.configured.all fun e => fld (b.fnRt e.inst) 27 0 == e.figure)]

/-! ### Separation (R185, R190 to R194, R197, R202) -/

def within (n : Nat) (x : Int) : Bool := decide (x.natAbs ≤ n)

/-- A unit quaternion in units of 2^-30, each part rounded: its square lies within 2^31 + 1 of 2^60. -/
def unitQuat (q : Int × Int × Int × Int) : Bool :=
  within (2 ^ 31 + 1) (q.1 * q.1 + q.2.1 * q.2.1 + q.2.2.1 * q.2.2.1 + q.2.2.2 * q.2.2.2 - 2 ^ 60)

/-- A number of 32 bits in two's complement. -/
def signed32 (x : Int) : Bool := decide (-(2 ^ 31) ≤ x) && decide (x < 2 ^ 31)

/-- One joint. -/
def Joint.fits (j : Joint) : Bool :=
  decide (j.axis < 16) && between 1 16777215 j.qNum && between 1 16777215 j.qDen && unitQuat j.quat &&
    signed32 j.trans.1 && signed32 j.trans.2.1 && signed32 j.trans.2.2

def SepChain.fits (c : Chain) : Bool := decide (c.mSelf ≤ 500) && between 1 8 c.joints.length && c.joints.all Joint.fits

/-- The terms of R200 that an enabled chain must state: T_r, T_s, a_s, C with Z_d and Z_r, and v_max. -/
def Blocks.termsStated (b : Blocks) (c : Nat) : Bool :=
  !b.chainEn c || ([0x08, 0x0C, 0x10, 0x14, 0x18] : List Nat).all fun o => b.img.regs.any fun x => x.1 == pSEP + 0x800 + 64 * c + o

/-- An axis serves several joints only as the base joint of several chains. -/
def axesShared (g : Grid) : Bool :=
  let bases : List Nat := g.chains.filterMap fun c => if c.2.base then (c.2.joints.head?).map (·.axis) else none
  let others : List Nat := g.chains.flatMap fun c => (if c.2.base then c.2.joints.tail else c.2.joints).map (·.axis)
  decide others.Nodup && others.all fun a => !bases.contains a

def Grid.capsuleFits (g : Grid) (x : Capsule) : Bool :=
  decide (x.radius ≤ 1000) && g.chains.any fun c => c.1 == x.chain && decide (x.link ≤ c.2.joints.length)

def Blocks.separationRules (b : Blocks) : List Rule :=
  match b.grid with
  | none => []
  | some g =>
    [(0x0A, within 32767 g.origin.1 && within 32767 g.origin.2.1 && within 32767 g.origin.2.2),
      (0x0A, inSteps 40 8000 40 g.size.1 && inSteps 40 8000 40 g.size.2.1 && inSteps 40 3000 40 g.size.2.2),
      (0x0A, (g.observed.all fun x => decide (x.1 < 8) && decide (x.2.length ≤ 4)) && decide (g.exclusions.length ≤ 256)),
      (0x0A, ((List.range 8).filter b.snsEn).all fun s => !(nget g.observed s []).isEmpty),
      (0x0A, inSteps 4096 65536 4096 g.nRepMax),
      (0x07, between 1 400 g.rho),
      (0x0A, decide (g.chains.length ≤ 4) && g.chains.all fun c => decide (c.1 < 4) && SepChain.fits c.2),
      (0x0A, (List.range 4).all b.termsStated),
      (0x0A, decide ((g.chains.map fun c => c.2.joints.length).sum ≤ 16) && axesShared g),
      (0x0A, decide (g.capsules.length ≤ 64) && g.capsules.all (Grid.capsuleFits g))]

/-! ### The network (R213, R215, R216, R218, R219, R235) -/

/-- A gate list of at most `n` entries. -/
def gatesFit (n : Nat) (l : GateList) : Bool :=
  l.entries.isEmpty ||
    (decide (l.entries.length ≤ n) && between 1000 1000000000 l.cycle && (l.entries.all fun e => between 32 1000000000 e.2) &&
      decide ((l.entries.map (·.2)).sum ≤ l.cycle))

def Blocks.networkRules (b : Blocks) : List Rule :=
  let n := b.netCfg
  [(0x0B, decide ((n.shares.map fun x => x.2.2).sum ≤ 512)),
    (0x0B, n.gcl.all fun x => gatesFit 1024 x.2),
    (0x0B, n.maxSdu.all fun x => between 64 9216 x.2),
    (0x0B, decide (n.statics.length ≤ 1024) && between 10 1000000 n.ageingS),
    (0x0B, decide (n.vlans.length ≤ 256) && n.vlans.all fun x => between 1 4094 x.1),
    (0x0B, (n.streams.all fun x => decide (x.1 < 512)) && n.filters.all fun x => decide (x.1 < 512)),
    (0x0B, n.streamGates.all fun x => decide (x.1 < 64) && gatesFit 256 x.2),
    (0x0B, n.meters.all fun x => decide (x.1 < 256)),
    (0x0B, n.cb.all fun x => decide (x.1 < 256) && between 2 32 x.2.history && between 1 10000 x.2.resetMs),
    (0x0B, fld (b.set (pTSY + 0x104)) 31 30 != 2 || n.slavePort.isSome),
    (0x0B, between 0x0600 0xFFFF n.etype && !([0x8100, 0x88F7, 0xF1C1] : List Nat).contains n.etype)]

/-! ### Sessions and fields (R29, R157, R242, R243, R251) -/

/-- The bits of a payload that a field takes: first bit, and how many. -/
def FieldCfg.bits (f : FieldCfg) : Nat × Nat :=
  if f.kind = 1 then (8 * f.offset + f.bit, 1)
  else if f.kind = 2 then (8 * f.offset + f.bit, 2)
  else (8 * f.offset, 8 * fieldBytes f.kind)

/-- One field of a session of `len` words. -/
def FieldCfg.fits (f : FieldCfg) (len : Nat) : Bool :=
  decide (f.f < 16) && decide (f.kind ≤ 8) && decide (f.offset + fieldBytes f.kind ≤ 4 * len) &&
    decide (f.bit ≤ if f.kind = 2 then 6 else 7) && (decide (f.kind < 7) || f.offset % 4 == 0)

def fieldsFit (l : List FieldCfg) (len : Nat) : Bool :=
  decide (l.length ≤ 16) && decide (l.map (·.f)).Nodup && (l.all fun f => FieldCfg.fits f len) && apart (l.map FieldCfg.bits)

/-- A consumer session's own parameters, and its partner. -/
def consFits (im : Image) (slot : Nat) (c : ConsCfg) : Bool :=
  decide (c.id < 65536) && (c.bulk || between 1 64 c.len) && between 10 20000 c.ageMax && between 10 c.ageMax c.tWd &&
    between 1 255 c.maxSkip && between 1 60 c.tOpenS &&
    (match c.partner with
     | none => true
     | some p =>
       between 10 c.ageMax c.tRtMax && im.prods.any fun x => x.1 == p && x.2.partner == some slot && x.2.peer == c.peer) &&
    (if c.bulk then c.fields.isEmpty else fieldsFit c.fields c.len && c.fields.all fun f => decide (f.kind < 3) || f.safe.isSome)

/-- A producer session's own parameters, and its partner. -/
def prodFits (im : Image) (slot : Nat) (c : ProdCfg) : Bool :=
  decide (c.id < 65536) && between 1 64 c.len && between 1 400 c.sendEvery && fieldsFit c.fields c.len &&
    match c.partner with
    | none => true
    | some p => im.cons.any fun x => x.1 == p && x.2.partner == some slot && x.2.peer == c.peer

def Blocks.sessionRules (b : Blocks) : List Rule :=
  let im := b.img
  [(0x0C, decide (im.cons.map (·.1)).Nodup && im.cons.all fun x => decide (x.1 < 128)),
    (0x0C, decide (im.prods.map (·.1)).Nodup && im.prods.all fun x => decide (x.1 < 128)),
    (0x0C, decide (im.cons.map (·.2.id)).Nodup && decide (im.prods.map (·.2.id)).Nodup),
    (0x0C, decide ((im.cons.filter (·.2.bulk)).length ≤ 8)),
    (0x0C, im.cons.all fun x => consFits im x.1 x.2),
    (0x0C, im.prods.all fun x => prodFits im x.1 x.2)]

/-! ### Profiles, reactions, pairs and the rest (R260, R268, R269, R273, R284, R297, R299, R306, R316, R326, R353, R424, R431) -/

def Reaction.fits (i : Nat) (r : Reaction) : Bool :=
  if srcDefined i then
    decide (r.sev ≤ 3) && decide (r.line ≤ 255) && (!r.vector.getLsbD 2 || (blockOf i 0).isSome)
  else r == {}

def PairCfg.fits (c : PairCfg) : Bool :=
  decide (c.scratch.length ≤ 32) && (c.scratch.all fun x => decide (64 * (x.1 + x.2) ≤ 65536 * c.size)) &&
    decide (c.cfwCount ≤ 512) && decide (c.cfwBase + c.cfwCount ≤ 2048) && (c.tAlive == 0 || between 10 100000 c.tAlive)

def Blocks.otherRules (b : Blocks) : List Rule :=
  let im := b.img
  [(0x0D, decide (im.profiles.length ≤ 32) && im.profiles.all fun x =>
      decide (x.1 < 32) && decide (x.2.addrs.length ≤ 224) && x.2.addrs.all fun a => a % 4 == 0 && (splitAddr a).isSome),
    (0x0E, decide (im.reactions.map (·.1)).Nodup && im.reactions.all fun x => decide (x.1 < 512) && Reaction.fits x.1 x.2),
    (0x0E, between 1 3 im.errThreshold),
    (0x0F, between 1 900 im.tDtiMaxS),
    (0x10, im.pairs.all fun x => decide (x.1 < 4) && decide (x.2.base + x.2.size ≤ 128) && PairCfg.fits x.2),
    (0x10, apart (im.pairs.map fun x => (x.2.base, x.2.size)) && apart (im.pairs.map fun x => (x.2.cfwBase, x.2.cfwCount))),
    (0x10, im.cvuOwner.all fun x => decide (x.1 < 16) && decide (x.2 < 4)),
    (0x08, (im.soutZone ++ im.stoZone).all fun x => decide (x.1 < 16) && decide (x.2 < 32)),
    (0x12, decide (im.plugMode ≤ 2)),
    (0x01, im.target == 1 || between 10000 10000000 im.iterations)]

/-- The section a staged register's setting stands in. -/
def settingSection (addr : Nat) : Nat :=
  let p := addr / 4096 * 4096
  if p = pSYS then 0x07
  else if p = pBST then 0x0F
  else if p = pMEA ∨ p = pAXS then 0x09
  else if p = pSEP then 0x0A
  else if p = pTSY ∨ (pPORT 0 ≤ p ∧ p ≤ pPORT 5) then 0x0B
  else 0x08

/-- Every staged setting in its range. -/
def Blocks.rangeRules (b : Blocks) : List Rule :=
  (b.img.regs.filter fun x => isRws x.1).map fun x => (settingSection x.1, wordFits (rwsFields x.1) x.2)

/-- A used analogue lichen states its tolerance (R167) and its safe value; safe values are given of numeric sources alone (R29). -/
def Blocks.safeRules (b : Blocks) : List Rule :=
  let im := b.img
  let used := (List.range 8).filter im.statesAin
  [(0x09, used.all fun j => im.regs.any fun x => x.1 == pMEA + 0x90C + 32 * j),
    (0x09, used.all fun j => im.safes.any fun x => x.1 == 80 + j),
    (0x05, im.safes.all fun x => between 80 87 x.1 || between 24576 26623 x.1 || measuredEntry x.1)]

/-- Item 7 of R423. -/
def Blocks.imageRules (b : Blocks) : List Rule :=
  b.rangeRules ++ b.clauseRules ++ b.functionRules ++ b.sinkRules ++ b.separationRules ++ b.networkRules ++ b.sessionRules ++
    b.otherRules ++ b.safeRules ++ b.settingRules

end Sys2Proof.Machine

namespace Sys2Proof

open Machine in
/-- What a 4408 image runs as (R433): 1,000 microseconds, input lichens 0 to 15, axes 0 to 7, two ports at 1000BASE-KX, no
separation, and the forerunner's station number, revision count and password digest. A port for which the image states no PVID
has PVID 1 (log 55). -/
def Image.in4408 (im : Image) : Image :=
  if im.target = 1 then
    let off := fun (m : NMap Word) (a hi : Nat) => nset m a (BitVec.ofNat 32 ((nget m a 0).toNat % 2 ^ hi)) 0
    let r1 := nset im.regs (pSYS + 0x110) 100 0
    let r2 := forL ((List.range 48).drop 16) (fun i m => off m (pLIO + 0x800 + 16 * i) 29) r1
    let r3 := forL ((List.range 16).drop 8) (fun a m => off m (pAXS + 0x800 + 64 * a) 31) r2
    let mode := fun (n : Nat) => n % 2 ^ 28 + (if n % 4096 = 0 then 1 else 0) + 9 * 2 ^ 28
    let r4 := forL [0, 1] (fun p m => nset m (pPORT p + 0x104)
      (BitVec.ofNat 32 (mode (nget m (pPORT p + 0x104) 0).toNat)) 0) r3
    let r5 := forL [2, 3, 4, 5] (fun p m => off m (pPORT p + 0x104) 28) r4
    { im with regs := r5, sep := none, cellId := im.cell, generation := im.gen, key := im.passDigest }
  else im

end Sys2Proof

namespace Sys2Proof.Machine

/-- The blocks as they would stand with an image in force. -/
def Blocks.withImage (b : Blocks) (im : Image) : Blocks :=
  { b with cfg := { b.cfg with image := some im, rws := im.settings, rwsShown := [] } }

/-- R423: the check that fails first and the section it fails in; none where the image passes. -/
def Blocks.imageFails (b : Blocks) (im : Image) : Option (Nat × Nat) :=
  match firstFailing (b.headerRules im) with
  | some x => some (1, x)
  | none =>
    match im.sections.find? fun x => !x.crcOk with
    | some x => some (2, x.kind)
    | none =>
      if im.digestOk = false then some (3, 0)
      else if b.signatureRule im = false then some (4, 0)
      else if b.generationRule im = false then some (5, 0)
      else if (decide (im.certs.length ≤ 4) && im.certs.all (·.wellFormed)) = false then some (6, 0x11)
      else (firstFailing (b.withImage im.in4408).imageRules).map fun x => (7, x)

end Sys2Proof.Machine
end

