-- ==== Sys2Proof/Machine/RegRead.lean ====
section
/-! DEFINITION. Reading any register by its address (R32 to R36, R45, R63): the page's own reader, in its view. -/

namespace Sys2Proof.Machine

/-- The pages that stand alone, with their readers. -/
def pageReaders : List (Nat × (RView → Nat → Word)) :=
  [(pSYS, readSys), (pPWR, readPwr), (pTRU, readTru), (pLCS, readLcs), (pOTP, readOtp), (pKEY, readKey), (pFAB, readFab),
    (pLIO, readLio), (pTPG, readTpg), (pSOG, readSog), (pSTO, readSto), (pMEA, readMea), (pAXS, readAxs), (pSEP, readSep),
    (pKIN, readKin), (pNET, readNet), (pTSY, readTsy), (pSFR, readSfr), (pAGR, readAgr), (pFCL, readFcl), (pREC, readRec),
    (pBST, readBst), (pCFG, readCfg), (pHIF, readHif)]

/-- Offsets from 0x100 of a page. -/
def readPage (v : RView) (page off : Nat) : Word :=
  match pageReaders.find? fun x => x.1 == page with
  | some x => x.2 v off
  | none =>
    if pPORT 0 ≤ page ∧ page ≤ pPORT 5 then readPort v ((page - pPORT 0) / 0x1000) off
    else if pCPR 0 ≤ page ∧ page ≤ pCPR 3 then readCpr Snapshot.windowWord v ((page - pCPR 0) / 0x1000) off
    else if pCVU 0 ≤ page ∧ page ≤ pCVU 15 then readCvu v ((page - pCVU 0) / 0x1000) off
    else 0

/-- What reader number `rd` finds at an address, from the hub as it is and the sentence shown to it; 0 where the address is not aligned
or belongs to no page (R32, R33). -/
def regRead (live : Blocks) (snap : Option Snapshot) (rd addr : Nat) : Word :=
  match (if addr % 4 = 0 then splitAddr addr else none) with
  | none => 0
  | some (page, bView, off) =>
    let v : RView := { live := live, snap := snap, rd := rd, bView := bView }
    if off < 0x100 then readCommon v page off else readPage v page off

/-- The sentence shown to a reader: its hold copy while it is frozen, the newest published one otherwise (R46, R63). -/
def State.shownTo (s : State) (rd : Nat) : Option Snapshot :=
  if (nget s.b.sys.freezes rd {}).frozen then nget s.holds rd none else s.shown

/-- A register as a reader reads it. -/
def State.readReg (s : State) (rd : Reader) (addr : Nat) : Word := regRead s.b (s.shownTo rd.idx) rd.idx addr

/-- What the recorder's own hold copy reads at every address the profiles list (R326). -/
def Snapshot.withListed (p : Snapshot) : Snapshot :=
  { p with
    listed := forL (p.pub.img.profiles.flatMap fun x => x.2.addrs) (fun a m => nset m a (regRead p.pub (some p) 15 a) 0) [] }

end Sys2Proof.Machine
end

