-- ==== Sys2Proof/Machine/Sentence.lean ====
section
/-! DEFINITION. The sentence (R50 to R63): capture, evaluation, agreement, commit and publish, late and abandoned sentences,
and what each of these instants brings with it: staging sets, the ruler cross-check, the end of Halt and of dry running,
zone release, producer frames. -/

namespace Sys2Proof.Machine

/-! ### Publish (R58, R63) -/

/-- A published sentence: what readers are shown from now on, and what a publish brings. The first one is ready (R417). -/
def State.publishState (safe : Bool) (s : State) : State :=
  let n := s.b.sys.sent
  let s1 := (s.onSys fun y => { y with evaluating := false, doomed := false, lastPublish := s.b.now, abandonedLast := safe }).onPwr
    fun p => { p with ret := { p.ret with written := true, sentence := n } }
  let s2 := (s1.onCfg fun c => { c with rwsShown := [] }).errPublish.rdselPublish
  let s3 := forN 4 (fun k s => s.pairEvent k 0) s2
  if s3.b.pwr.ready then s3
  else
    (s3.onPwr fun p =>
      { p with ready := true, readyMs := sat (timeUnits (pPWR + 0x11C) (s.b.now - p.goodAt) 1000000) 9 }).hifPend 3

/-- The state a snapshot shows for an instance. -/
def Snapshot.fnState (p : Snapshot) (e : FnEntry) : Nat := (p.fnShown .a e).1

/-- Every instance whose state differs from the snapshot before makes its record (R325). -/
def State.fnRecords (old new : Snapshot) (s : State) : State :=
  forL s.b.img.configured (fun e s =>
    if old.fnState e = new.fnState e then s else s.recordFn e.inst e.kind e.zone (old.fnState e) (new.fnState e)) s

/-- The sentence under way is published, once. -/
def State.publish (safe : Bool) (s : State) : State :=
  let s1 := s.publishState safe
  let p : Snapshot := Snapshot.withListed
    { sent := s.b.sys.sent, cap := s.cap.getD s.b, pub := s1.b, safe := safe, intj := s.b.sys.intjIndex }
  let s2 := { s1 with shown := some p }
  match s.shown with
  | some o => s2.fnRecords o p
  | none => s2

/-! ### Late and abandoned sentences (R53, R56, R57) -/

/-- The sentence is published as abandoned; at the next capture every stateful clause starts anew (R88). A round that a
raise has opened closes before the publish: it lasts 150 ns, the publish up to 1 microsecond. -/
def State.abandon (s : State) : State := (s.roundClose.onAgr fun a => { a with sentOk := false }).publish true

/-- The deadline on ruler A. -/
def Blocks.deadline (b : Blocks) : Nat := b.sys.lastCapture + b.sys.period - 5000

/-- A late sentence: source 0. -/
def State.late (s : State) : State := (s.onSys fun y => { y with lateSeen := true }).cond 0 true (loW s.b.sys.sent)

/-- The deadline passes and no commit has started: source 0 and an abandoned sentence; a sentence that can only be abandoned
raises nothing. -/
def State.deadlinePassed (s : State) : State :=
  if !s.b.sys.evaluating then s
  else if s.b.sys.doomed then s.abandon
  else s.late.abandon

/-- SENTENCE_DEADLINE. -/
def State.sentenceDeadline (s : State) : State := if s.b.now ≥ s.b.deadline then s.deadlinePassed else s

def execSentenceDeadline (t : Nat) (s : State) : Host.Outcome State Fault Refusal := .next (s.tick t).sentenceDeadline

/-- A channel's evaluation time, once it is done. -/
def Sys.evalOf (y : Sys) : Ch → Option Nat
  | .a => y.evalA
  | .b => y.evalB

/-- A channel has not completed its last level by t_c + E_bound: source 1, naming the channel. -/
def State.evalOverrun (ch : Ch) (s : State) : State :=
  let y := s.b.sys
  if y.evaluating && !y.doomed && (y.evalOf ch).isNone && decide (s.b.now ≥ y.lastCapture + s.b.img.eBound) then
    (s.onSys fun y => { y with lateSeen := true }).cond 1 true (mkw (match ch with | .a => 0 | .b => 1))
  else s

def execEvaluationOverrun (t : Nat) (ch : Ch) (s : State) : Host.Outcome State Fault Refusal :=
  .next ((s.tick t).evalOverrun ch)

/-! ### Staging sets at a capture (R43, R44, R60, R459) -/

/-- The address of a register's other view. -/
def otherView (addr : Nat) : Nat :=
  match splitAddr addr with
  | some (_, true, _) => addr - 0x100000
  | _ => addr + 0x100000

/-- Every write that wants a partner has its equal. -/
def partnersHeld (l : List (Nat × Word)) : Bool :=
  l.all fun x => !wantsPartner (aView x.1) || l.any fun y => y.1 == otherView x.1 && y.2 == x.2

/-- A waiting commit is answered and its set emptied. -/
def State.emptySet (rd r : Nat) (s : State) : State :=
  let g := s.b.stagingOf rd
  (s.onStaging rd fun g => { g with writes := [], pending := false }).settle pSYS g.committer g.token r

/-- The settings of a set come into force; until the publish every reader is shown the values before. Cell time is first brought
up to this instant at the rate of the settings before (R26), and what is concerned restarts. -/
def State.inForce (l : List (Nat × Word)) (s : State) : State :=
  let addrs := (l.map fun x => aView x.1).dedup
  let s1 := (s.onTsy fun _ => s.b.cellSettled).on fun b =>
    let b1 := b.withWrites l
    { b1 with cfg := { b1.cfg with
        rwsShown := forL addrs (fun a m => if m.any fun x => x.1 == a then m else m ++ [(a, s.b.set a)]) b.cfg.rwsShown } }
  (forL addrs State.restartFor s1).netRestart s.b

/-- Lower readers whose write to one of `addrs` has just been overridden, among those of other ports that applied. -/
def State.overrides (rd : Nat) (l : List (Nat × Word)) (applied : List (Nat × List (Nat × Word))) (s : State) : State :=
  forL applied (fun x s =>
    if x.1 < rd ∧ (x.2.any fun u => l.any fun v => aView u.1 == aView v.1) then
      s.onStaging x.1 fun g => { g with overridden := true }
    else s) s

/-- One reader's due set at the capture of sentence `n`; `applied` are the sets that applied before it. A set that fails a check
leaves SYS_STAGE_STATUS.overridden as an earlier commit set it; a set that applies clears it. DESIGN CHOICE (log 62). -/
def State.applySet (n rd : Nat) (x : State × List (Nat × List (Nat × Word))) : State × List (Nat × List (Nat × Word)) :=
  let s := x.1
  let g := s.b.stagingOf rd
  if !g.pending || decide (s.b.now < g.issued + 2000) then x
  else if !partnersHeld g.writes then ((s.emptySet rd rPairIncomplete).raise 6 (mkw rd), x.2)
  else if !(s.b.withWrites g.writes).settingsFit then (s.emptySet rd rBadArg, x.2)
  else
    let s1 := (s.inForce g.writes).overrides rd g.writes x.2
    let s2 := (s1.emptySet rd rDone).onStaging rd fun g => { g with overridden := false, applied := n }
    let s3 := if rd = 0 then s2.pairEvent 0 1 else if rd = 4 then s2.hifPend 1 else s2
    (s3, x.2 ++ [(rd, g.writes)])

/-- Every due set, in port order. -/
def State.applySets (n : Nat) (s : State) : State :=
  (forL (List.range 10) (fun rd x => State.applySet n rd x) (s, [])).1

/-! ### The ruler cross-check at a capture (R22 to R25) -/

/-- The newest captures of a window that together span 1 s, and whether they do. -/
def spanOf : List (Nat × Nat × Int) → Nat → List (Nat × Nat × Int) × Bool
  | [], _ => ([], false)
  | x :: r, span =>
    if span + x.2.1 ≥ 1000000000 then ([x], true)
    else (x :: (spanOf r (span + x.2.1)).1, (spanOf r (span + x.2.1)).2)

/-- Elapsed time and difference summed over a window. -/
def windowSums (l : List (Nat × Nat × Int)) : Nat × Int := l.foldl (fun a x => (a.1 + x.2.1, a.2 + x.2.2)) (0, 0)

/-- A rate in units of 0.01 ppm, from a difference and a time: the lower or the upper unit where it lies between two. -/
def rateUnits (diff : Int) (span : Nat) : Int :=
  if span = 0 then 0
  else
    let q := diff * 100000000
    if q % span = 0 then q / span else if Config.shownUp (pTRU + 0x124) (q / span) then q / span + 1 else q / span

/-- The injected offset of TRU_INJECT for one kind (R31). -/
def Tru.injected (u : Tru) (kind : BitVec 2) : Int := if u.injectKind = kind then u.injectOff.toInt else 0

/-- Both rulers are read: the sentence difference and the rate difference are judged, channel B's sampling grid is trimmed.
The first capture after a start opens the window of captures. An offset injected with kind 0b01 does not enter the window of
the rate difference, and one injected with kind 0b10 acts on the rate difference of this capture alone. TRU_TRIM is the move
taken at this capture, within 20 ns for each sampling instant of the sentence, and not a sum over captures. DESIGN CHOICE (log
62). -/
def State.crossCheckRulers (x : CaptureIn) (s : State) : State :=
  let u := s.b.tru
  let dA := s.b.captureAt - max s.b.sys.lastCapture u.aOrigin
  let diff : Int := (x.elapsedB : Int) - dA + u.injected 1
  let w := spanOf (if s.b.sys.captured then (s.b.captureAt, dA, (x.elapsedB : Int) - dA) :: u.window else []) 0
  let sums := windowSums w.1
  let off := u.injected 2
  let s1 := s.onTru fun u =>
    { u with
      rulerB := u.rulerB + x.elapsedB, diffSent := diff, diffPeak := max u.diffPeak (toNative diff).toInt.natAbs
      window := w.1, diffRate := rateUnits sums.2 sums.1 + off
      trim := clampI (-x.phase) (20 * (s.b.tsNs / 2000)), injectKind := 0 }
  let s2 := if diff.natAbs > 200 then s1.raise 49 (intW diff) else s1
  let s3 := if w.2 && decide ((sums.2 * 100000000 + off * sums.1).natAbs > 2000 * sums.1) then
      s2.raise 48 (intW (rateUnits sums.2 sums.1 + off))
    else s2
  let s4 := if x.phase.natAbs > 100 then s3.raise 55 (intW x.phase) else s3
  if u.injectKind = 3 then (s4.onTru fun u => { u with xbCut := some s.b.now }).raise 51 else s4

/-! ### Loads and acceptance at a capture (R429, R430) -/

/-- A load begins: outputs safe as while dry, every staging set emptied, a waiting commit refused. -/
def State.beginLoad (s : State) : State :=
  match s.b.cfg.loadDue with
  | none => s
  | some k =>
    let s1 := s.onCfg fun c => { c with loading := some k, loadDue := none }
    let s2 := forL (List.range 10) (fun rd s =>
      if (s.b.stagingOf rd).pending then s.emptySet rd rRefused else s.onStaging rd fun g => { g with writes := [] }) s1
    s2.darkAborts.safeFields

/-- After an acceptance dry is cleared, and every zone is stopped. -/
def State.endDry (s : State) : State :=
  if s.b.cfg.clearDry then
    ((s.onCfg fun c => { c with dry := false, clearDry := false }).stopZones 0xFFFFFFFF).updateReady
  else s

/-- The acceptance press is followed as by a restart acknowledge object on the captured signal of the acceptance lichen. -/
def State.followPress (s : State) : State :=
  if s.b.cfg.acceptState = 1 then
    let f := fnAck [some (.ofBool (s.b.lio.captured.getLsbD s.b.img.accLichen))] s.b.tsNs s.b.cfg.acceptFn
    s.onCfg fun c => { c with acceptFn := f, acceptOut := c.acceptOut || f.out.one }
  else s

/-! ### Start states (R88, R98, R114) -/

/-- The clauses and objects of one channel that a lost lane, or a lost object store, returns to its start state. -/
def Blocks.laneReset (b : Blocks) (f : FabCh) : FabCh :=
  let lost := b.img.order.zipIdx.filter fun x => b.fab.resetLanes.getLsbD (x.2 % 64)
  let insts := b.fab.resetFns ++ (lost.filter fun x => clauseOp x.1.2 == 0x12).map fun x => clauseParam x.1.2 % 512
  { f with
    clauseSt := forL lost (fun x m => nset m x.1.1 {} {}) f.clauseSt
    fnSt := forL insts (fun i m => nset m i {} {}) f.fnSt }

/-- One channel's states at a capture. -/
def Blocks.startStates (b : Blocks) (f : FabCh) : FabCh :=
  let g := if b.sys.abandonedLast then { f with clauseSt := [], fnSt := [] } else b.laneReset f
  { g with evalLast := none, clauseNew := [], fnNew := [] }

/-! ### Capture (R50 to R52, R59) -/

/-- What the input lichens capture: safe-holding since the last capture (R52); the first capture after a start has none before
it and takes the last sample (R139). -/
def Lio.capture (first : Bool) (l : Lio) : Lio :=
  { l with
    captured := forN 48 (fun i m => setb m i ((nget l.lichens i {}).signal && (first || !(nget l.lichens i {}).zeroSince))) 0
    lichens := nmapv l.lichens {} fun _ x => { x with zeroSince := false } }

/-- A capture is due: sentences run, and the T_S in force at the last capture has passed since then (R50). -/
def Blocks.captureDue (b : Blocks) : Bool :=
  b.running && (!b.sys.captured || decide (b.now ≥ b.sys.lastCapture + b.sys.period))

/-- The next number is taken. -/
def State.takeNumber (s : State) : State :=
  let n := s.b.sys.nextNumber
  let s1 := s.onSys fun y => { y with sent := n, nextNumber := nextSentence n }
  if s.b.sys.sent + 1 ≥ 2 ^ 48 then s1.raise 5 else s1

/-- What the blocks do at the capture instant before their values are frozen. -/
def State.atCapture (x : CaptureIn) (s : State) : State :=
  let tcA0 := s.b.tsy.tcA
  let tcB0 := s.b.tsy.tcB
  let s1 := (s.takeNumber.beginLoad).applySets s.b.sys.nextNumber
  let s2 := s1.crossCheckRulers x
  let s3 := if x.undelivered then s2.raise 2 else s2
  let s4 := forN 4 (fun k s => (s.judgeAlive k).dropWords k) (s3.endHalt.endDry.sepClose)
  let tcA := s4.b.captureAt - s4.b.tru.aOrigin
  let tcB := s4.b.tru.rulerB
  let s5 := (s4.tsyCapture tcA tcB (tcA - tcA0) (tcB - tcB0)).judgeSessions.sensorHealth
  let s6 := s5.on fun b =>
    { b with fab := { b.fab with a := b.startStates b.fab.a, b := b.startStates b.fab.b, resetLanes := 0, resetFns := [] } }
  ((s6.onLio (Lio.capture (!s6.b.sys.captured))).onSfr Sfr.newSentence).followPress

/-- The frozen image, and the sentence's evaluation begins. -/
def State.freezeImage (s : State) : State :=
  let s1 := s.onSys fun y =>
    { y with
      lastCapture := s.b.captureAt, period := s.b.tsNs, captured := true, evaluating := true, evalA := none, evalB := none
      abandonedLast := false, intjIndex := none
      doomed := s.b.resetting .fab || s.b.cfg.loading.isSome || decide (s.b.fcl.rearm = 1) }
  (({ s1 with cap := some s1.b } : State).onNet fun n => { n with cutThrough := false }).sepBegin s1.b.sys.sent

/-- CAPTURE: a sentence whose deadline passed unseen is abandoned first. -/
def State.capture (x : CaptureIn) (s : State) : State :=
  if s.b.captureDue then (s.deadlinePassed.atCapture x).freezeImage else s

def execCapture (t : Nat) (x : CaptureIn) (s : State) : Host.Outcome State Fault Refusal := .next ((s.tick t).capture x)

/-! ### Commit (R54, R59, R66, R67, R304) -/

/-- One output block takes its commands: what a fault holds stays 0, locks that wait for a committed 0 end there. -/
def OutBlock.commit (o : OutBlock) (cmd : BitVec 16) (tc now : Nat) (hold : Bool) : OutBlock :=
  let v := if hold then 0 else cmd &&& ~~~ o.faultHold
  { o with
    committed := v, unlocking := o.unlocking &&& v, a := o.a.release tc, b := o.b.release tc
    dark := forN 16 (fun k m =>
      if v.getLsbD k && (nget m k {}).firstOne.isNone then nupd m k {} fun d => { d with firstOne := some now } else m) o.dark }

/-- Events and conditions of the function objects (sources 112 to 117); the record names the instance. Where R88 returns an object
to its start state while its cause lasts, the live bit falls at the next commit and the cause is timed anew. DESIGN CHOICE (log
62). -/
def State.fnSources (m : NMap FnSt) (s : State) : State :=
  let live := fun kind => (s.b.img.functions.filter fun e => e.kind == kind && (nget m e.inst {}).live).map (·.inst)
  let s1 := forL s.b.img.functions (fun e s =>
    let f := nget m e.inst {}
    if e.kind ≤ 0x08 ∧ f.event ≠ 0 then s.raise f.event (mkw e.inst) else s) s
  (s1.cond 112 (!(live 0x08).isEmpty) (mkw ((live 0x08).headD 0))).cond 117 (!(live 0x07).isEmpty) (mkw ((live 0x07).headD 0))

/-- The states the sentence computed become current (R88). -/
def FabCh.current (f : FabCh) : FabCh := { f with clauseSt := f.clauseNew, fnSt := f.fnNew }

/-- The commit of the sentence captured as `c`. -/
def State.commitOutputs (c : Blocks) (s : State) : State :=
  let m := s.b.fab.a.values
  let tc := c.sys.lastCapture
  let s1 := s.releaseZones tc fun i => (nget s.b.fab.a.fnNew i {}).out.one
  let hold := s1.b.globalHold
  let s2 := (s1.onSog fun o => o.commit (c.commands m c.img.bindSout) tc s.b.now hold).onSto fun o =>
    o.commit (c.commands m c.img.bindSto) tc s.b.now hold
  let s3 := (s2.onFab fun f => { f with a := f.a.current, b := f.b.current }).onSfr fun r =>
    { r with prod := nmapv r.prod {} fun _ p => p.release tc }
  let s4 := s3.commitFields.demandUpdate s.b.sys.sent (c.afterLevels m)
  ((s4.sepDemand (c.afterLevels m)).darkAborts.fnSources s4.b.fab.a.fnSt).sendDue s.b.sys.sent

/-- A sentence in which both channels met E_bound ends source 1, whatever agreement then finds (R53). -/
def State.overrunEnds (s : State) : State :=
  let within := fun (t : Option Nat) => match t with
    | some d => decide (d ≤ s.b.img.eBound)
    | none => false
  if within s.b.sys.evalA && within s.b.sys.evalB then s.cond 1 false else s

/-- What a commit ends: late sentences where it completes by its deadline, while one that started and ends after it is late
itself (R56). A debug unlock opens once its latch has been captured (R390). -/
def State.commitEnds (c : Blocks) (inTime : Bool) (s : State) : State :=
  let s1 := if inTime then s.cond 0 false else s.late
  if s1.b.lcs.debugDue && c.fcl.a.latch.getLsbD 476 then s1.onLcs fun l => { l with debugDue := false, debugOpen := true } else s1

/-! ### Evaluation and agreement (R53, R54, R110, R111, R272) -/

/-- A channel's measurement of its evaluation. -/
def FabCh.measured (f : FabCh) (dur n : Nat) : FabCh :=
  if f.evalLast.isNone ∧ dur > f.evalMax then { f with evalLast := some dur, evalMax := dur, evalMaxSent := n }
  else { f with evalLast := some dur }

/-- A channel finishes its last level: its values and new states, its time, the injection it has taken, sources 108 and 109. -/
def State.channelDone (c : Blocks) (ch : Ch) (dur : Nat) (s : State) : State :=
  let e := c.evaluate ch s.b.sys.sent
  let f0 := c.fab.channel ch
  let s1 := s.onFab fun f => f.onCh ch fun g =>
    let taken := g.injectKind = f0.injectKind ∧ g.injectIndex = f0.injectIndex
    { (g.measured dur s.b.sys.sent) with
      values := e.values, clauseNew := e.clauseNew, fnNew := e.fnNew, injectKind := if taken then 0 else g.injectKind }
  let s2 := s1.onSys fun y => match ch with
    | .a => { y with evalA := some dur }
    | .b => { y with evalB := some dur }
  if overNinety s.b.img.eBound dur then s2.raise (match ch with | .a => 108 | .b => 109) (mkw dur) else s2

/-- When the commit of the sentence under way starts and ends (R54): agreement and commit take up to 500 ns each; how long they
take is the unit's. -/
def State.commitStarts (s : State) : Nat := s.b.now + (Config.agreeNs s.b.sys.sent).val
def State.commitDone (s : State) : Nat := s.commitStarts + (Config.commitNs s.b.sys.sent).val

/-- The sentence agreed and its commit starts before the deadline: commit and publish. -/
def State.commit (c : Blocks) (s : State) : State :=
  (((s.onAgr fun a => { a with sentOk := true }).commitOutputs c).commitEnds c (decide (s.commitDone ≤ s.b.deadline))).publish
    false

/-- Both channels are done: agreement, and then commit and publish; source 448 and an abandoned sentence where a word differs;
and a late, abandoned sentence where agreement passes only at the deadline (R54, R56, R57). -/
def State.agree (c : Blocks) (s : State) : State :=
  match c.disagreement s.b.fab.a s.b.fab.b with
  | some x =>
    (((s.onAgr fun a => { a with mismatchSent := s.b.sys.sent, mismatchWord := mkw x, sentOk := false }).overrunEnds).raise 448
      (mismatchDetail x s.b.sys.sent)).abandon
  | none => if s.commitStarts < s.b.deadline then s.overrunEnds.commit c else s.overrunEnds.deadlinePassed

/-- EVALUATION_COMPLETE. A sentence that can only be abandoned is not evaluated further; past the deadline it is late. -/
def State.evalComplete (ch : Ch) (dur : Nat) (s : State) : State :=
  match s.cap with
  | none => s
  | some c =>
    if !s.b.sys.evaluating || s.b.sys.doomed || (s.b.sys.evalOf ch).isSome then s
    else if s.b.now ≥ s.b.deadline then s.deadlinePassed
    else
      let s1 := s.channelDone c ch dur
      if s1.b.sys.evalA.isSome && s1.b.sys.evalB.isSome then s1.agree c else s1

def execEvaluationComplete (t : Nat) (ch : Ch) (dur : Nat) (s : State) : Host.Outcome State Fault Refusal :=
  .next ((s.tick t).evalComplete ch dur)

end Sys2Proof.Machine
end

