-- ==== Sys2Proof/Machine/Configuration.lean ====
section
/-! DEFINITION. The configuration store, loads, acceptance and the cell memory plug (R416, R421 to R433, R437), and the CFG
page (R439). -/

namespace Sys2Proof.Machine

/-! ### Slots and marks (R426) -/

def State.onSlot (k : Nat) (f : Slot → Slot) (s : State) : State :=
  s.onCfg fun c => { c with slots := nupd c.slots k {} f }

/-- A mark: its kind, the recorder's sequence number, the image's generation. -/
def State.addMark (k kind : Nat) (s : State) : State :=
  s.onSlot k fun x => { x with marks := { kind := kind, seq := s.b.recd.seq, generation := (x.image.map (·.gen)).getD 0 } :: x.marks }

/-- A command that waits settles, where one does. -/
def State.settleBy (who : Option (Nat × BitVec 16)) (r : Nat) (s : State) : State :=
  match who with
  | some x => s.settle pCFG x.1 x.2 r
  | none => s

/-- An image or firmware slot that must stay as it is (R437, R439): running, accepted, or loading. -/
def Blocks.slotBusy (b : Blocks) (k : Nat) : Bool :=
  if k < 8 then
    (b.cfg.image.isSome && b.cfg.slot == k) || b.acceptedSlot == some k || b.cfg.loadDue == some k || b.cfg.loading == some k
  else b.pwr.fwLoaded && b.pwr.fwSlot + 8 == k

/-- The check and the section that refuse what a configuration slot holds. -/
def Blocks.slotFails (b : Blocks) (k : Nat) : Option (Nat × Nat) :=
  match (b.slot k).image with
  | none => some (1, 0)
  | some im => b.imageFails im

/-- A refused image: CFG_RESULT and source 504, whose record names the slot, the check and the section. -/
def State.refuseImage (k : Nat) (x : Nat × Nat) (s : State) : State :=
  (s.onCfg fun c => { c with resultCheck := x.1, resultSection := x.2 }).raise 504 (mkw (pl k 16 8 + pl x.1 8 8 + pl x.2 0 8))

/-! ### An image comes into force (R261, R304, R428, R430) -/

/-- Every block in its first-use states, and pairs 1 to 3 started anew with the image's programs. -/
def State.firstUse (s : State) : State :=
  let s1 := s.onFab fun f => { f with a := f.a.wiped, b := f.b.wiped, resetLanes := 0, resetFns := [] }
  let s2 := forL [Block.lio, .tpg, .sog, .sto, .mea, .axs, .sep, .net, .sfr] State.blockFirstUse s1
  forL [1, 2, 3] (fun k s => (s.onPair k Pair.reset).pairRelease k) s2

/-- The image of slot `k` runs. Cell time goes on from where it is. -/
def State.enterImage (k : Nat) (im : Image) (dry foreign : Bool) (s : State) : State :=
  let signed := im.flags.getLsbD 0 && s.b.imageSigned im
  let s1 := (s.onTsy fun _ => s.b.cellSettled).on fun b =>
    let b1 := b.withImage im.in4408
    { b1 with
      cfg := { b1.cfg with slot := k, dry := dry, foreign := foreign, signedOk := signed, loading := none, clearDry := false } }
  (s1.firstUse.firstRole).netRestart s.b

/-- An image that runs live begins with every zone stopped (R304). -/
def State.beginStopped (s : State) : State :=
  if s.b.cfg.dry then s else (s.stopZones 0xFFFFFFFF).updateReady

/-! ### The plug (R431, R432) -/

/-- Writing the plug begins, unless it is known to be too small. -/
def State.plugStart (im : Image) (who : Option (Nat × BitVec 16)) (s : State) : State × Nat :=
  if s.b.cfg.plugMbit ≠ 0 ∧ s.b.cfg.plugMbit * 2097152 < 4096 + im.length then
    ((s.onCfg fun c => { c with plugState := 6 }).raise 506 (mkw 6), rRefused)
  else (s.onCfg fun c => { c with plugState := 7, plugWriting := some im, plugBy := who }, rPending)

/-- Writing the plug completes; `mbit16` is the capacity found. -/
def State.plugDone (mbit16 : Nat) (s : State) : State :=
  match s.b.cfg.plugWriting with
  | none => s
  | some im =>
    let s1 := s.onCfg fun c => { c with plugWriting := none, plugBy := none, plugMbit := mbit16 }
    if mbit16 * 2097152 < 4096 + im.length then
      ((s1.onCfg fun c => { c with plugState := 6 }).raise 506 (mkw 6)).settleBy s.b.cfg.plugBy rRefused
    else (s1.onCfg fun c => { c with plugState := 2, plugGen := im.gen }).settleBy s.b.cfg.plugBy rDone

def execPlugWriteComplete (t : Nat) (mbit16 : Nat) (s : State) : Host.Outcome State Fault Refusal :=
  .next ((s.tick t).plugDone mbit16)

/-- What the comparison of R432 finds, with the code CFG_PLUG shows. -/
inductive PlugVerdict where
  | absent | unreadable | equal | older | newer | foreign
deriving DecidableEq, Repr

/-- The comparison with the accepted image. -/
def Blocks.plugVerdict (b : Blocks) (p : PlugFind) : PlugVerdict :=
  match p with
  | .absent => .absent
  | .unreadable => .unreadable
  | .present _ ok im =>
    if !ok then .unreadable
    else
      match b.acceptedImage with
      | none => .foreign
      | some a =>
        if im.cell ≠ a.cell then .foreign
        else if im.gen = a.gen then .equal
        else if im.gen < a.gen then .older
        else .newer

/-- The plug mode in force at a start: the accepted image's. -/
def Blocks.plugModeNow (b : Blocks) : Nat := (b.acceptedImage.map (·.plugMode)).getD 0

/-- Whether this start reads the plug. -/
def Blocks.readsPlug (b : Blocks) : Bool := b.acceptedImage.isNone || decide (1 ≤ b.plugModeNow)

/-- What the plug's state and source 506 become, and whether the plug is rewritten from the store. -/
def State.plugFound (p : PlugFind) (s : State) : State :=
  let v := s.b.plugVerdict p
  let failed := match p with
    | .unreadable => true
    | _ => s.b.plugModeNow == 2
  let s1 := s.onCfg fun c => match p with
    | .present m ok im => { c with plugMbit := m, plugGen := if ok then im.gen else 0 }
    | _ => { c with plugMbit := 0, plugGen := 0 }
  let rewrite := fun (s : State) => match s.b.acceptedImage with
    | some a => (s.plugStart a none).1
    | none => s
  let state := fun (n : Nat) (s : State) => s.onCfg fun c => { c with plugState := n }
  let warn := fun (n : Nat) (s : State) => (state n s).raise 506 (mkw n)
  match v with
  | .absent => if failed then warn 5 s1 else state (if s.b.acceptedImage.isSome then 5 else 0) s1
  | .unreadable => rewrite (if failed then warn 5 s1 else state 5 s1)
  | .equal => state 1 s1
  | .older => rewrite s1
  | .newer => warn 4 s1
  | .foreign => warn 3 s1

/-- The lowest erased slot. -/
def Blocks.freeSlot (b : Blocks) : Option Nat := (List.range 8).find? fun k => b.slot k == {}

/-- A plug image is copied to a free slot, and checked like any other. -/
def State.plugCopy (im : Image) (s : State) : State × Option Nat :=
  match s.b.freeSlot with
  | none => (s, none)
  | some k =>
    let s1 := s.onSlot k fun x => { x with image := some im }
    match s1.b.imageFails im with
    | some x => ((s1.onSlot k fun _ => {}).refuseImage k x, none)
    | none => (s1, some k)

/-! ### Loads (R416, R426, R430) -/

/-- Insert a slot by its newest load or accept mark, the highest number first. -/
def insertSlot (x : Nat × Nat) : List (Nat × Nat) → List (Nat × Nat)
  | [] => [x]
  | y :: r => if x.1 > y.1 then x :: y :: r else y :: insertSlot x r

/-- The slots a start tries, in their order. -/
def Blocks.loadOrder (b : Blocks) : List Nat :=
  (((List.range 8).filterMap fun k => ((b.slot k).newest [2, 3]).map fun m => (m.seq, k)).foldl (fun l x => insertSlot x l) []).map
    (·.2)

/-- Configuration load ends: its time shows, and sentences run. -/
def State.startRuns (s : State) : State :=
  s.onPwr fun p =>
    { p with phase := .running, stoppedStep := 0, stopSource := 0
             cfgMs := sat (timeUnits (pPWR + 0x11C) (s.b.now - p.stepAt) 1000000) 8 }

/-- The records of a load (R325): 1 load, 2 dry start. -/
def State.loadRecords (port : Nat) (im : Image) (actions : List Nat) (s : State) : State :=
  forL actions (fun a s => s.recordConfig a port im) s

/-- A plug image that passed comes into force, dry, with a load mark. -/
def State.startPlug (k : Nat) (im : Image) (foreign : Bool) (s : State) : State :=
  ((s.startRuns.enterImage k im true foreign).addMark k 2).loadRecords 0 im [1, 2]

/-- A stored image comes into force: live where its slot holds an accepted image, dry otherwise and in RETURNED. -/
def State.startStored (k : Nat) (im : Image) (s : State) : State :=
  let dry := (s.b.slot k).acceptSeq.isNone || s.b.life == .returned
  let s1 := (s.startRuns.enterImage k im dry false).beginStopped
  if dry then s1.loadRecords 0 im [2] else s1

/-- The step-7 stop (R416). -/
def State.stopAtSeven (refused : Bool) (s : State) : State :=
  s.onPwr fun p => { p with phase := .stopped, stoppedStep := 7, stopSource := if refused then 504 else 0 }

/-- Nothing in the store passed: the plug is tried last, where it can be read and was not tried before. -/
def State.lastResort (p : PlugFind) (tried refused : Bool) (s : State) : State :=
  match p with
  | .present _ true im =>
    if tried then s.stopAtSeven refused
    else
      match s.plugCopy im with
      | (s1, some k) => s1.startPlug k im (s.b.plugVerdict p == .foreign)
      | (s1, none) => s1.stopAtSeven true
  | _ => s.stopAtSeven refused

/-- The slots are tried in turn, then the plug. -/
def State.tryStored (p : PlugFind) (tried : Bool) : List Nat → Bool → State → State
  | [], refused, s => s.lastResort p tried refused
  | k :: r, refused, s =>
    match s.b.slotFails k, (s.b.slot k).image with
    | none, some im => s.startStored k im
    | some x, _ => (s.refuseImage k x).tryStored p tried r true
    | none, none => s.tryStored p tried r refused

/-- The load of a start, after firmware. -/
def State.configLoad (p : PlugFind) (s : State) : State :=
  if s.b.pwr.phase ≠ .firmwareUp then s
  else if s.b.readsPlug = false then s.tryStored p false s.b.loadOrder false
  else
    let v := s.b.plugVerdict p
    let s1 := s.plugFound p
    match p with
    | .present _ true im =>
      if v = .newer ∨ v = .foreign then
        match s1.plugCopy im with
        | (s2, some k) => s2.startPlug k im (v == .foreign)
        | (s2, none) => s2.tryStored p true s2.b.loadOrder false
      else s1.tryStored p false s1.b.loadOrder false
    | _ => s1.tryStored p true s1.b.loadOrder false

/-- A plug holding a bare ZN-4408 image holds it as if wrapped (R433). -/
def plugHeld (p : PlugFind) : PlugFind :=
  match p with
  | .present m ok im => .present m ok im.wrap
  | x => x

def execConfigLoad (t : Nat) (plug : PlugFind) (s : State) : Host.Outcome State Fault Refusal :=
  .next ((s.tick t).configLoad (plugHeld plug))

/-- A commanded load ends: the image runs dry, or it is refused and what ran before goes on. -/
def State.loadDone (s : State) : State :=
  match s.b.cfg.loading with
  | none => s
  | some k =>
    let who := s.b.cfg.loadBy
    let s0 := s.onCfg fun c => { c with loading := none, loadBy := none }
    match s.b.slotFails k, (s.b.slot k).image with
    | none, some im =>
      let s1 := if s.b.pwr.phase = .running then s0 else s0.startRuns
      let port := match who with
        | some x => if x.1 < 4 then 0 else if x.1 = 4 then 1 else if x.1 = 9 then 3 else 2
        | none => 0
      (((s1.enterImage k im true false).addMark k 2).loadRecords port im [1, 2]).settleBy who rDone
    | some x, _ => ((s0.onCfg fun c => { c with resultOp := 4 }).refuseImage k x).settleBy who rBadArg
    | none, none => s0.settleBy who rBadArg

def execConfigLoadComplete (t : Nat) (s : State) : Host.Outcome State Fault Refusal := .next (s.tick t).loadDone

/-! ### CFG_CMD (R439) -/

/-- The step-7 stop outside DEPLOYED, in which ports 1 and 3 may write a first image without unlock. -/
def Blocks.stopOpen (b : Blocks) (rd : Reader) (op target : Nat) : Bool :=
  b.pwr.phase == .stopped && b.pwr.stoppedStep == 7 && b.life != .deployed && between 1 4 op && decide (target < 8) &&
    (rd.port == 1 || rd.port == 3)

/-- Who may give a command, and what CFG_RESULT shows of it. -/
def State.cfgOp (rd : Reader) (op : Nat) (w : Word) (run : Nat → State → State × Nat) (s : State) : State × Nat :=
  let target := fld w 15 12
  let s1 := s.onCfg fun c => { c with resultOp := op, resultCheck := 0, resultSection := 0 }
  if target > 9 then (s1, rBadArg)
  else if op = 6 ∨ s.b.stopOpen rd op target then run target s1
  else if rd.port = 3 ∨ s.b.unlocked rd = false then (s1, rNotAuth)
  else run target s1

def State.cfgCmd (t : Nat) (rd : Reader) (op : Nat) (w : Word) (run : Nat → State → State × Nat) (s : State) :
    Host.Outcome State Fault Refusal :=
  .next ((s.tick t).wt rd pCFG (wTok w) (State.cfgOp rd op w run))

/-- Op 0x1: the slot is erased and open. -/
def State.slotOpen (k : Nat) (s : State) : State × Nat :=
  if s.b.slotBusy k then (s, rRefused) else (s.onSlot k fun _ => { isOpen := true }, rDone)

def execCfgOpen (t : Nat) (rd : Reader) (w : Word) (s : State) : Host.Outcome State Fault Refusal :=
  s.cfgCmd t rd 1 w State.slotOpen

/-- The 256 bytes of CFG_UP_DATA0 to 63, first byte in [31:24]. -/
def Upload.bytes (u : Upload) : List Byte := (List.range 64).flatMap fun i => beBytes (nget u.data i 0).toNat 4

/-- The bytes of a slot with 256 more programmed at an offset. -/
def programmed (off : Nat) (bytes : List Byte) (old : NMap Byte) : NMap Byte :=
  forL (bytes.take 256).zipIdx (fun y m => nset m (off + y.2) y.1 0) old

/-- 256 bytes are programmed at an offset of an open slot. -/
def State.program (k off : Nat) (bytes : List Byte) (spells : Spells) (s : State) : State × Nat :=
  if (s.b.slot k).isOpen = false ∨ s.b.slotBusy k then (s, rRefused)
  else if off % 256 ≠ 0 ∨ (k < 8 ∧ off + 256 > 8386560) then (s, rBadArg)
  else
    (s.onSlot k fun x =>
      { x with bytes := programmed off bytes x.bytes
               image := if k < 8 then spells.image.map (·.wrap) else none
               fw := if k < 8 then none else spells.fw }, rDone)

/-- Op 0x2: the reader's window is programmed, and its offset advances. -/
def State.programWindow (rd : Nat) (spells : Spells) (k : Nat) (s : State) : State × Nat :=
  let u := nget s.b.cfg.uploads rd {}
  let r := s.program k u.off u.bytes spells
  if r.2 = rDone then
    (r.1.onCfg fun c => { c with uploads := nupd c.uploads rd {} fun u => { u with off := (u.off + 256) % 2 ^ 23 } }, rDone)
  else r

def execCfgProgramWindow (t : Nat) (rd : Reader) (w : Word) (spells : Spells) (s : State) : Host.Outcome State Fault Refusal :=
  s.cfgCmd t rd 2 w (State.programWindow rd.idx spells)

/-- Op 0x3: what the slot holds is checked, and sealed. -/
def State.slotSeal (k : Nat) (s : State) : State × Nat :=
  if (s.b.slot k).isOpen = false ∨ s.b.slotBusy k then (s, rRefused)
  else
    let done := fun (s : State) => ((s.addMark k 1).onSlot k fun x => { x with isOpen := false }, rDone)
    if k < 8 then
      match s.b.slotFails k with
      | some x => (s.refuseImage k x, rBadArg)
      | none => done s
    else
      match s.b.fwFails (k - 8) with
      | some c => ((s.onCfg fun g => { g with resultCheck := c }).raise 26 (mkw (pl (k - 8) 8 8 + pl c 0 8)), rBadArg)
      | none => done s

def execCfgSeal (t : Nat) (rd : Reader) (w : Word) (s : State) : Host.Outcome State Fault Refusal :=
  s.cfgCmd t rd 3 w State.slotSeal

/-- An acceptance under way ends without an acceptance: source 505. -/
def State.acceptEnds (state : Nat) (s : State) : State :=
  (s.onCfg fun c => { c with acceptState := state, acceptOut := false, acceptBy := none }).raise 505 (mkw state)

/-- Op 0x4: the load begins at the next capture; in the step-7 stop, which has no capture, at once. -/
def State.slotLoad (rd : Nat) (token : BitVec 16) (k : Nat) (s : State) : State × Nat :=
  let stop := s.b.pwr.phase = .stopped ∧ s.b.pwr.stoppedStep = 7
  if k ≥ 8 then (s, rBadArg)
  else if s.b.slotBusy k ∨ s.b.cfg.loadDue.isSome ∨ s.b.cfg.loading.isSome ∨ (s.b.slot k).marks.isEmpty ∨
      ¬ (stop ∨ s.b.running) then (s, rRefused)
  else
    let s1 := if s.b.cfg.acceptState = 1 then s.acceptEnds 0 else s
    if stop then (s1.onCfg fun c => { c with loading := some k, loadBy := some (rd, token) }, rPending)
    else (s1.onCfg fun c => { c with loadDue := some k, loadBy := some (rd, token) }, rPending)

def execCfgLoad (t : Nat) (rd : Reader) (w : Word) (s : State) : Host.Outcome State Fault Refusal :=
  s.cfgCmd t rd 4 w (State.slotLoad rd.idx (wTok w))

/-- Whether the running image can be accepted now (R382, R429). -/
def Blocks.mayAccept (b : Blocks) : Bool :=
  b.running && b.cfg.image.isSome && b.cfg.dry && !b.cfg.clearDry && b.cfg.loadDue.isNone && b.cfg.loading.isNone &&
    b.cfg.acceptState != 1 && b.life != .returned

/-- Op 0x5: the proof is checked, and the hub waits for the press. -/
def State.accept (rd : Reader) (token : BitVec 16) (s : State) : State × Nat :=
  if s.b.mayAccept = false then (s, rRefused)
  else if s.b.proofOk rd = false then ((s.newNonce rd.idx).raise 8 (mkw rd.idx), rNotAuth)
  else
    (((s.newNonce rd.idx).onCfg fun c =>
      { c with acceptState := 1, acceptAt := s.b.now, acceptBy := some (rd.idx, token), acceptFn := {}, acceptOut := false }).hifPend 2,
      rPending)

def execCfgAccept (t : Nat) (rd : Reader) (w : Word) (s : State) : Host.Outcome State Fault Refusal :=
  s.cfgCmd t rd 5 w fun _ => State.accept rd (wTok w)

/-- Op 0x6. -/
def State.cancelAccept (s : State) : State × Nat :=
  if s.b.cfg.acceptState = 1 then (s.acceptEnds 0, rDone) else (s, rRefused)

def execCfgCancelAccept (t : Nat) (rd : Reader) (w : Word) (s : State) : Host.Outcome State Fault Refusal :=
  s.cfgCmd t rd 6 w fun _ => State.cancelAccept

/-- Op 0x7: the slot is erased. -/
def State.slotDiscard (k : Nat) (s : State) : State × Nat :=
  if k ≥ 8 then (s, rBadArg) else if s.b.slotBusy k then (s, rRefused) else (s.onSlot k fun _ => {}, rDone)

def execCfgDiscard (t : Nat) (rd : Reader) (w : Word) (s : State) : Host.Outcome State Fault Refusal :=
  s.cfgCmd t rd 7 w State.slotDiscard

/-- Op 0x8: the accepted image is written to the plug. -/
def State.writePlug (rd : Nat) (token : BitVec 16) (s : State) : State × Nat :=
  match s.b.acceptedImage with
  | none => (s, rRefused)
  | some im =>
    if s.b.plugModeNow = 0 ∨ s.b.cfg.plugWriting.isSome then (s, rRefused) else s.plugStart im (some (rd, token))

def execCfgWritePlug (t : Nat) (rd : Reader) (w : Word) (s : State) : Host.Outcome State Fault Refusal :=
  s.cfgCmd t rd 8 w fun _ => State.writePlug rd.idx (wTok w)

/-! ### Acceptance (R427, R429) -/

/-- The acknowledge after the press: counter 1, the accept mark, the record, the plug, and dry ends at the next capture. -/
def State.acceptAck (s : State) : State :=
  if s.b.cfg.acceptState = 1 ∧ s.b.cfg.acceptOut then
    let im := s.b.img
    let k := s.b.cfg.slot
    let port := match s.b.cfg.acceptBy with
      | some x => if x.1 < 4 then 0 else if x.1 = 4 then 1 else 2
      | none => 0
    let s1 := if s.b.life = .deployed then s.cntRaise 1 1024 im.generation else s
    let s2 := (s1.addMark k 3).recordConfig 3 port im
    let s3 := (s2.onCfg fun c => { c with acceptState := 2, acceptOut := false, acceptBy := none, clearDry := true }).settleBy
      s.b.cfg.acceptBy rDone
    match (s3.b.slot k).image with
    | some x => if 1 ≤ x.plugMode then (s3.plugStart x none).1 else s3
    | none => s3
  else s

def execAcceptanceAck (t : Nat) (s : State) : Host.Outcome State Fault Refusal := .next (s.tick t).acceptAck

/-- 60 s without an acknowledge. -/
def State.acceptTimeout (s : State) : State :=
  if s.b.cfg.acceptState = 1 ∧ s.b.now ≥ s.b.cfg.acceptAt + 60000000000 then
    (s.acceptEnds 3).settleBy s.b.cfg.acceptBy rRefused
  else s

def execAcceptanceTimeout (t : Nat) (s : State) : Host.Outcome State Fault Refusal := .next (s.tick t).acceptTimeout

end Sys2Proof.Machine
end

