-- ==== Sys2Proof/Machine/Access.lean ====
section
/-! DEFINITION. Any register reached by its address from any reader (R32, R33, R38, R42, R461): reads with the latch they
set, writes by access code, staged writes, and the rows REGISTER_WRITE and STAGED_WRITE. -/

namespace Sys2Proof.Machine

/-! ### Reads that leave something behind (R31, R290, R333) -/

/-- What reading an address changes for that reader. -/
def State.readLatch (rd : Nat) (addr : Nat) (s : State) : State :=
  if addr = pTRU + 0x104 then s.latchOptime rd
  else if addr = pTRU + 0x114 then s.latchCell rd
  else if addr = pREC + 0xBFC then s.windowRead rd
  else if pCVU 0 ≤ addr ∧ addr < pCVU 16 ∧ addr % 4096 = 0x114 then s.latchCvuState ((addr - pCVU 0) / 4096) rd
  else if pCVU 0 ≤ addr ∧ addr < pCVU 16 ∧ addr % 4096 = 0x11C then s.latchCvuResult ((addr - pCVU 0) / 4096) rd
  else s

/-- A read: the word, and what it leaves. -/
def State.load (rd : Reader) (addr : Nat) (s : State) : Word × State := (s.readReg rd addr, s.readLatch rd.idx addr)

/-! ### Staged writes (R42, R61, R459) -/

/-- A write entered in a set: it replaces an earlier one to the same register. -/
def Staging.enter (g : Staging) (addr : Nat) (w : Word) : Staging :=
  { g with writes := g.writes.filter (fun x => x.1 != addr) ++ [(addr, w)] }

/-- A staged write to an address of either view. DESIGN CHOICE (log 62): a write that fails several checks answers the first of
"refused in state", "bad argument" and "staging full". -/
def State.stage (rd addr : Nat) (w : Word) (s : State) : State × Nat :=
  let g := s.b.stagingOf rd
  if s.b.mayStage (aView addr) = false ∨ g.pending then (s, rRefused)
  else if wordFits (rwsFields (aView addr)) w = false then (s, rBadArg)
  else if g.writes.length ≥ 1024 ∧ g.writes.all (fun x => x.1 != addr) then (s, rStagingFull)
  else (s.onStaging rd fun g => g.enter addr w, rPending)

/-! ### Plain registers -/

/-- Registers held per reader, and the bits they keep. -/
def ownMask (addr : Nat) : Option Word :=
  if addr = pFAB + 0x130 then some 0x1FF
  else if addr = pAXS + 0x118 then some 0xF
  else if addr = pAXS + 0x130 then some 0x1FF
  else if addr = pKIN + 0x114 then some 0x3F
  else if addr = pNET + 0x118 then some 0xFF
  else if pPORT 0 ≤ addr ∧ addr < pPORT 6 ∧ addr % 4096 = 0x134 then some 0x3FF
  else if addr = pSFR + 0x130 then some 0xFFF
  else if addr = pFCL + 0x118 then some 0x1FF
  else if addr = pREC + 0x128 then some 0xFFFFFFFF
  else if addr = pREC + 0x184 then some 0x1F
  else if addr = pOTP + 0x158 then some 0xFF
  else none

/-- Registers held once for every reader, and the bits they keep. -/
def rwMask (addr : Nat) : Option Word :=
  if addr = pTSY + 0x114 ∨ addr = pTSY + 0x118 ∨ addr = pTSY + 0x120 ∨ addr = pREC + 0x13C then some 0xFFFFFFFF
  else if addr = pTSY + 0x11C then some 0xFFFF
  else none

/-- A range of words from `base`: the index of an address in it. -/
def wordIn (addr base n : Nat) : Option Nat :=
  if base ≤ addr ∧ addr < base + 4 * n then some ((addr - base) / 4) else none

/-- The 48-bit halves of REC_EXP_FIRST, its count and its nonce. -/
def Export.write (x : Export) (off : Nat) (w : Word) : Export :=
  if off = 0x194 then { x with first := x.first / 2 ^ 32 * 2 ^ 32 + w.toNat }
  else if off = 0x198 then { x with first := fld w 15 0 * 2 ^ 32 + x.first % 2 ^ 32 }
  else if off = 0x19C then { x with count := fld w 10 0 }
  else { x with nonce := nset x.nonce ((off - 0x1B0) / 4) w 0 }

/-- HIF_IRQ: enables, and the pending bits written 1 are cleared. -/
def State.hifIrq (w : Word) (s : State) : State × Nat :=
  (s.onHif fun h => { h with irqEn := BitVec.ofNat 4 (fld w 3 0), irqPend := h.irqPend &&& ~~~ BitVec.ofNat 4 (fld w 19 16) },
    rDone)

/-- CPR_EVT: enables, and the pending bits written 1 are cleared. -/
def State.cprEvt (k : Nat) (w : Word) (s : State) : State × Nat :=
  (s.onPair k fun p =>
    { p with evtEn := BitVec.ofNat 4 (fld w 3 0), evtPend := p.evtPend &&& ~~~ BitVec.ofNat 4 (fld w 19 16) }, rDone)

/-- CPR_MTIMECMP_LO and _HI; the timer line follows (R276). -/
def State.mtimecmp (k : Nat) (hi : Bool) (w : Word) (s : State) : State × Nat :=
  ((s.onPair k fun p =>
      { p with mtimecmp := if hi then w ++ p.mtimecmp.truncate 32 else (p.mtimecmp >>> 32).truncate 32 ++ w }).timerLine k, rDone)

/-- CPR_IRQ_EN word `j`. -/
def State.irqEnable (k j : Nat) (w : Word) (s : State) : State × Nat :=
  (s.onPair k fun p => { p with irqEn := nset p.irqEn j w 0 }, rDone)

/-- CFG_UP_OFF: a multiple of 256. -/
def State.upOffset (rd : Nat) (w : Word) (s : State) : State × Nat :=
  if w.toNat % 256 = 0 ∧ w.toNat < 2 ^ 23 then
    (s.onCfg fun c => { c with uploads := nupd c.uploads rd {} fun u => { u with off := w.toNat } }, rDone)
  else (s, rBadArg)

/-- CFG_UP_DATA word `j`. -/
def State.upData (rd j : Nat) (w : Word) (s : State) : State × Nat :=
  (s.onCfg fun c => { c with uploads := nupd c.uploads rd {} fun u => { u with data := nset u.data j w 0 } }, rDone)

/-- SYS_PROOF word `j`. -/
def State.proofWord (rd j : Nat) (w : Word) (s : State) : State × Nat :=
  (s.onExpert rd fun e => { e with proof := nset e.proof j w 0 }, rDone)

/-- REC_SIG and LCS_SIG word `j`. -/
def State.recSig (j : Nat) (w : Word) (s : State) : State × Nat := (s.onRecd fun r => { r with sig := nset r.sig j w 0 }, rDone)
def State.lcsSig (j : Nat) (w : Word) (s : State) : State × Nat := (s.onLcs fun l => { l with sig := nset l.sig j w 0 }, rDone)

/-- KEY_CERT_LEN and KEY_CERT_DATA: writable in MANUFACTURE, read-only otherwise. -/
def State.certWrite (off : Nat) (w : Word) (s : State) : State × Nat :=
  if s.b.life = .manufacture then
    (s.onKey fun k =>
      if off = 0x10C then { k with certLen := fld w 9 0 } else { k with cert := nset k.cert ((off - 0x800) / 4) w 0 }, rDone)
  else (s, rReadOnly)

/-- KEY_ATT_NONCE word `j`. -/
def State.attNonce (rd j : Nat) (w : Word) (s : State) : State × Nat :=
  (s.onAtt rd fun a => { a with nonce := nset a.nonce j w 0 }, rDone)

/-- OTP_PROG_ADDR, _LO and _HI. -/
def State.otpProg (off : Nat) (w : Word) (s : State) : State × Nat :=
  (s.onOtp fun o =>
    if off = 0x140 then { o with progAddr := fld w 10 0 } else if off = 0x144 then { o with progLo := w } else { o with progHi := w },
    rDone)

/-- A shadow slot's register (R378, R381): only in MANUFACTURE. -/
def State.otpShadow (off : Nat) (w : Word) (s : State) : State × Nat :=
  if s.b.life = .manufacture then
    (s.onOtp fun o =>
      { o with shadows := nupd o.shadows ((off - 0x400) / 16) {} fun x =>
          if off % 16 = 0 then { x with addr := w &&& 0x800007FF } else if off % 16 = 4 then { x with lo := w } else { x with hi := w } },
      rDone)
  else (s, rRefused)

/-- Plain registers with a meaning of their own, by A-view address. -/
def State.writeRw (rd : Reader) (addr : Nat) (w : Word) (s : State) : Option State :=
  let r := rd.idx
  let page := addr / 4096 * 4096
  let off := addr % 4096
  let plain := fun (run : State → State × Nat) => some (s.plain rd page run)
  if page = pSYS then (wordIn off 0x140 8).bind fun j => plain (State.proofWord r j w)
  else if page = pFAB then
    (wordIn off 0x140 8).bind fun _ => plain fun s => (s.setOwn r addr ((w &&& 0x7FFF) ^^^ 0x7FFF), rDone)
  else if page = pREC then
    match wordIn off 0x140 16 with
    | some j => plain (State.recSig j w)
    | none =>
      if off = 0x194 ∨ off = 0x198 ∨ off = 0x19C ∨ (wordIn off 0x1B0 4).isSome then
        plain fun s => (s.onExport r fun x => x.write off w, rDone)
      else none
  else if page = pOTP then
    if off = 0x140 ∨ off = 0x144 ∨ off = 0x148 then some (s.expert rd addr w (State.otpProg off w))
    else if 0x400 ≤ off ∧ off < 0x800 ∧ off % 16 ≠ 12 then some (s.expert rd addr w (State.otpShadow off w))
    else none
  else if page = pLCS then (wordIn off 0x140 16).bind fun j => plain (State.lcsSig j w)
  else if page = pKEY then
    match wordIn off 0x114 4 with
    | some j => plain (State.attNonce r j w)
    | none => if off = 0x10C ∨ (wordIn off 0x800 248).isSome then plain (State.certWrite off w) else none
  else if page = pCFG then
    if off = 0x140 then plain (State.upOffset r w) else (wordIn off 0x900 64).bind fun j => plain (State.upData r j w)
  else if page = pHIF then (if off = 0x104 then plain (State.hifIrq w) else none)
  else none

/-- A pair's registers from 0x100. -/
def State.writeCpr (rd : Reader) (k : Fin 4) (off : Nat) (w : Word) (s : State) : Option State :=
  let own := fun (run : State → State × Nat) => some (s.ownPair rd k.val run)
  if off = 0x11C then own (State.cprAlive k.val)
  else if off = 0x124 then some (s.ownWt rd k.val w (State.cfwInv k.val w))
  else if off = 0x128 then own (State.mtimecmp k.val false w)
  else if off = 0x12C then own (State.mtimecmp k.val true w)
  else if off = 0x138 then own (State.cprTx k.val w)
  else if off = 0x13C then some (s.plain rd (pCPR k.val) (State.cprEvt k.val w))
  else if off = 0x18C then some (s.wt rd (pCPR k.val) (wTok w) (State.cprCtrClear k.val w))
  else
    match wordIn off 0x140 8, wordIn off 0x300 64, wordIn off 0x800 512 with
    | some j, _, _ => own (State.irqEnable k.val j w)
    | _, some j, _ => own (State.rdsel k.val j w)
    | _, _, some j => own (State.cfwWrite k.val j w)
    | _, _, _ => none

/-- A check-value unit's registers from 0x100; a failed unit refuses a write to any of them (R293). -/
def State.writeCvu (rd : Reader) (u : Nat) (off : Nat) (w : Word) (s : State) : Option State :=
  match off with
  | 0x104 => some (s.cvuWrite rd u (State.cvuCtrl u w))
  | 0x108 => some (s.cvuWrite rd u (State.cvuFeed u 1 w))
  | 0x10C => some (s.cvuWrite rd u (State.cvuFeed u 2 w))
  | 0x110 => some (s.cvuWrite rd u (State.cvuFeed u 4 w))
  | 0x114 => some (s.cvuWrite rd u (State.cvuStateLo u w))
  | 0x118 => some (s.cvuWrite rd u (State.cvuStateHi u w))
  | 0x124 => some (s.cvuWrite rd u (State.cvuSetCount u w))
  | 0x128 => some (s.cvuWrite rd u (State.cvuAlive u w))
  | 0x12C => some (s.cvuWrite rd u (State.cvuGuard u w))
  | 0x138 => some (s.wt rd (pCVU u) (wTok w) (State.cvuCtrClear u w))
  | _ => some (s.cvuWrite rd u fun s => (s, rReadOnly))

/-! ### Commands through their registers -/

/-- A command's effect, as a change of state. -/
def State.via (f : State → Host.Outcome State Fault Refusal) (s : State) : State :=
  match f s with
  | .next t => t
  | _ => s

/-- A command whose op field names none. -/
def State.badOp (rd : Reader) (page : Nat) (w : Word) (s : State) : State := s.wt rd page (wTok w) fun s => (s, rBadArg)

/-- SYS_STAGE_COMMIT, SYS_FREEZE and SYS_EXPERT. -/
def State.sysCmd (rd : Reader) (off : Nat) (w : Word) (s : State) : Option State :=
  let op := fld w 1 0
  let t := s.b.now
  let tok := wTok w
  if off ≠ 0x114 ∧ off ≠ 0x120 ∧ off ≠ 0x128 then none
  else some (match off, op with
    | 0x114, 1 => s.via (execStageCommit t rd tok)
    | 0x114, 2 => s.via (execStageDiscard t rd tok)
    | 0x120, 1 => s.via (execFreeze t rd tok)
    | 0x120, 2 => s.via (execFreezeRelease t rd tok)
    | 0x128, 1 => s.via (execExpertUnlock t rd tok)
    | 0x128, 2 => s.via (execExpertLock t rd tok)
    | _, _ => s.badOp rd pSYS w)

/-- TSY_CMD. -/
def State.tsyCmd (rd : Reader) (w : Word) (s : State) : State :=
  match fld w 1 0 with
  | 1 => s.via (execTsySet s.b.now rd (wTok w))
  | 2 => s.via (execTsySlew s.b.now rd (wTok w))
  | 3 => s.via (execTsyCancelSlew s.b.now rd (wTok w))
  | _ => s.badOp rd pTSY w

/-- REC_EXP_CMD. -/
def State.exportCmd (rd : Reader) (w : Word) (s : State) : State :=
  match fld w 1 0 with
  | 1 => s.via (execExportStart s.b.now rd (wTok w))
  | 2 => s.via (execExportAbandon s.b.now rd (wTok w))
  | _ => s.badOp rd pREC w

/-- OTP_CMD. -/
def State.otpCmd (rd : Reader) (w : Word) (s : State) : State :=
  match fld w 15 12 with
  | 1 => s.via (execOtpBurnWord s.b.now rd w)
  | 2 => s.via (execOtpFinalise s.b.now rd w)
  | 3 => s.via (execOtpRetire s.b.now rd w)
  | 5 => s.via (execOtpBurn4408Row s.b.now rd w)
  | 6 => s.via (execOtpRedirect4408Row s.b.now rd w)
  | _ => s.badOp rd pOTP w

/-- LCS_CMD; what a key generation and a key destruction find is drawn. -/
def State.lcsCmd (rd : Reader) (w : Word) (s : State) : State :=
  let t := s.b.now
  let s1 : State := { s with draws := s.draws + 1 }
  match fld w 3 0 with
  | 1 => s.via (execLcToManufacture t rd w)
  | 2 => s1.via (execGenerateKey t rd w (Config.keyTests s.draws).1 (Config.keyTests s.draws).2)
  | 3 => s.via (execLcToProvisioned t rd w)
  | 4 => s.via (execLcToDeployed t rd w)
  | 5 => s1.via (execLcToReturned t rd w (Config.destroyed s.draws))
  | 6 => s.via (execDebugUnlock t rd w)
  | 7 => s.via (execOpenScan t rd w)
  | _ => s.badOp rd pLCS w

/-- What slot `k` would spell with bytes programmed at an offset. -/
def Blocks.spelledWith (b : Blocks) (k off : Nat) (bytes : List Byte) : Spells :=
  let m := programmed off bytes (b.slot k).bytes
  { image := Config.spelledImage m, fw := Config.spelledFw m }

/-- What the reader's window makes slot `k` spell. -/
def Blocks.spelledByWindow (b : Blocks) (rd k : Nat) : Spells :=
  let u := nget b.cfg.uploads rd {}
  b.spelledWith k u.off u.bytes

/-- CFG_CMD. -/
def State.cfgReg (rd : Reader) (w : Word) (s : State) : State :=
  let t := s.b.now
  match fld w 3 0 with
  | 1 => s.via (execCfgOpen t rd w)
  | 2 => s.via (execCfgProgramWindow t rd w (s.b.spelledByWindow rd.idx (fld w 15 12)))
  | 3 => s.via (execCfgSeal t rd w)
  | 4 => s.via (execCfgLoad t rd w)
  | 5 => s.via (execCfgAccept t rd w)
  | 6 => s.via (execCfgCancelAccept t rd w)
  | 7 => s.via (execCfgDiscard t rd w)
  | 8 => s.via (execCfgWritePlug t rd w)
  | n => s.via fun s => s.cfgCmd t rd n w fun _ s => (s, rBadArg)

/-- The registers with rows of their own on the pages of the safety blocks, by A-view address; `c` is the view written. -/
def State.safetyCmd (rd : Reader) (c : Ch) (addr : Nat) (w : Word) (s : State) : Option State :=
  let t := s.b.now
  if addr = pTRU + 0x400 then some (s.via (execTruInject t rd w))
  else if addr = pFAB + 0x128 then some (s.via (execFabCtrClear t rd c w))
  else if addr = pFAB + 0x400 then some (s.via (execFabInject t rd c w))
  else if addr = pLIO + 0x134 then some (s.via (execLioCtrClear t rd w))
  else if addr = pMEA + 0x118 then some (s.via (execMeaCtrClear t rd w))
  else if addr = pAXS + 0x12C then some (s.via (execAxsCtrClear t rd w))
  else if addr = pSEP + 0x134 then some (s.via (execSepCtrClear t rd w))
  else if addr = pKIN + 0x110 then some (s.via (execKinCtrClear t rd w))
  else if addr = pNET + 0x114 then some (s.via (execNetCtrClear t rd w))
  else if addr = pTSY + 0x124 then some (s.tsyCmd rd w)
  else if addr = pSFR + 0x10C then some (s.via (execSfrCtrClear t rd w))
  else if addr = pSFR + 0x160 then some (s.via (execSfrRestart t rd w))
  else if addr = pAGR + 0x11C then some (s.via (execAgrCtrClear t rd w))
  else if addr = pAGR + 0x400 then some (s.via (execAgrInject t rd w))
  else none

/-- The registers with rows of their own on the other pages. -/
def State.serviceCmd (rd : Reader) (c : Ch) (addr : Nat) (w : Word) (s : State) : Option State :=
  let t := s.b.now
  if addr = pFCL + 0x114 then some (s.via (execFclClear t rd w))
  else if addr = pFCL + 0x150 then some (s.via (execFclCtrClear t rd w))
  else if addr = pREC + 0x12C then some (s.via (execRecWindowLoad t rd w))
  else if addr = pREC + 0x134 then some (s.via (execRecClear t rd w))
  else if addr = pREC + 0x138 then some (s.via (execRecFwReq t rd w))
  else if addr = pREC + 0x180 then some (s.via (execRecCtrClear t rd w))
  else if addr = pREC + 0x190 then some (s.exportCmd rd w)
  else if addr = pBST + 0x138 then some (s.via (execBstCtrClear t rd c w))
  else if addr = pBST + 0x400 then some (s.via (execBstForce t rd c w))
  else if addr = pOTP + 0x130 then some (s.via (execOtpRead t rd w))
  else if addr = pOTP + 0x14C then some (s.otpCmd rd w)
  else if addr = pLCS + 0x104 then some (s.lcsCmd rd w)
  else if addr = pKEY + 0x110 then some (s.via (execAttestationStart t rd w))
  else if addr = pPWR + 0x124 then some (s.via (execPwrCtrClear t rd w))
  else if addr = pCFG + 0x130 then some (s.cfgReg rd w)
  else if addr = pHIF + 0x114 then some (s.wt rd pHIF (wTok w) (State.hifCtrClear w))
  else none

/-! ### Any write -/

/-- The writers in turn; none where no register that takes a write stands at the address. -/
def State.writeKnown (rd : Reader) (c : Ch) (addr : Nat) (w : Word) (s : State) : Option State :=
  let page := addr / 4096 * 4096
  let off := addr % 4096
  if off = 0x014 then some (s.pageClear rd page w)
  else if off < 0x100 then none
  else
    match ownMask addr, rwMask addr with
    | some m, _ => some (s.plain rd page fun s => (s.setOwn rd.idx addr (w &&& m), rDone))
    | _, some m => some (s.plain rd page fun s => (s.setRw addr (w &&& m), rDone))
    | none, none =>
      if page = pSYS ∧ (off = 0x114 ∨ off = 0x120 ∨ off = 0x128) then s.sysCmd rd off w
      else if pCPR 0 ≤ page ∧ page < pCPR 4 then s.writeCpr rd (Fin.ofNat 4 ((page - pCPR 0) / 4096)) off w
      else if pCVU 0 ≤ page ∧ page < pCVU 16 then s.writeCvu rd ((page - pCVU 0) / 4096) off w
      else ((s.safetyCmd rd c addr w).orElse fun _ => s.serviceCmd rd c addr w).orElse fun _ => s.writeRw rd addr w

/-- A word written to an address of a page, in either view (R38): staged, taken by its register, or read-only. -/
def State.writeWord (rd : Reader) (addr : Nat) (w : Word) (s : State) : State :=
  match splitAddr addr with
  | none => s
  | some (page, bView, off) =>
    if isRws (page + off) then s.plain rd page (State.stage rd.idx addr w)
    else
      match s.writeKnown rd (if bView then .b else .a) (page + off) w with
      | some t => t
      | none => s.plain rd page fun s => (s, rReadOnly)

/-- A write as it comes on a port (R32, R33, R267): every access is one aligned word of a page. A core finds its own width
and address errors before it issues the write; every other reader finds "access width or alignment" on the page. -/
def State.busWrite (rd : Reader) (addr width : Nat) (w : Word) (s : State) : State :=
  match splitAddr addr with
  | none => s
  | some (page, _, _) =>
    if width = 4 ∧ addr % 4 = 0 then s.writeWord rd addr w
    else
      match rd with
      | .pair _ => s
      | _ => s.result rd page rWidth

def execRegisterWrite (t : Nat) (rd : Reader) (addr width : Nat) (w : Word) (s : State) : Host.Outcome State Fault Refusal :=
  .next ((s.tick t).busWrite rd addr width w)

/-- STAGED_WRITE: the write of a staged register; any other address takes it as its register does. -/
def execStagedWrite (t : Nat) (rd : Reader) (addr width : Nat) (w : Word) (s : State) : Host.Outcome State Fault Refusal :=
  .next ((s.tick t).busWrite rd addr width w)

end Sys2Proof.Machine
end

