-- ==== Sys2Proof/Machine/Checkpoints.lean ====
section
/-! DEFINITION. The checkpoint queues (R258, R259, R262 to R266, R271, R274, R278): a core's push of an entry, the inputs
it is served, and the agreement unit's comparison and release. -/

namespace Sys2Proof

/-- The other core of a pair. -/
def Ch.other : Ch → Ch
  | .a => .b
  | .b => .a

end Sys2Proof

namespace Sys2Proof.Machine

/-- The encodings of R263 that name an entry. -/
def entryKind (kind : Nat) : Bool := decide (1 ≤ kind) && decide (kind ≤ 8)

/-- What the hub answers an input entry with: the register read or the time; what an interrupt, which brings its cause, has
already. The read leaves its latch behind. -/
def State.served (k : Fin 4) (addr : Nat) (e : Entry) (s : State) : Entry × State :=
  match e.kind with
  | 3 =>
    let r := s.load (.pair k) addr
    ({ e with data := r.1.zeroExtend 64 }, r.2)
  | 4 => ({ e with data := BitVec.ofNat 64 s.b.coreTime }, s)
  | _ => (e, s)

/-- A core holds an input. -/
def Core.take (x : Core) (e : Entry) : Core := if e.kind = 3 ∨ e.kind = 4 then { x with input := e.data } else x

/-- The core's own registers at an entry (R262). -/
def Core.reached (x : Core) (e : Entry) : Core := { x with retired := e.retired, digest := e.digest }

/-- Cache errors the core has recovered since its last entry: source 473 each time. -/
def State.cacheErrors (k : Nat) (c : Ch) (n : Nat) (s : State) : State :=
  if n = 0 then s
  else (s.onPair k fun p => p.onCore c fun x => { x with cacheErr := x.cacheErr.inc n }).raise 473 (mkw k) none k

end Sys2Proof.Machine

namespace Sys2Proof

/-- The trailing core's input: the leader's entry at the same place, where the two are the same read (R264). -/
def Entry.follows (e lead : Entry) : Entry :=
  if e.kind = lead.kind ∧ e.retired = lead.retired then
    if e.kind = 3 then (if e.addr = lead.addr then { e with data := lead.data } else e)
    else if e.kind = 4 then { e with data := lead.data }
    else if e.kind = 5 then { e with addr := lead.addr, data := lead.data }
    else e
  else e

end Sys2Proof

namespace Sys2Proof.Machine

/-- The entry a core pushes as it stands after service, and the hub after the service. -/
def State.answered (k : Fin 4) (c : Ch) (e : Entry) (s : State) : Entry × State :=
  let p := s.b.pairOf k.val
  match (p.core c.other).queue[(p.core c).queue.length]? with
  | some lead => (e.follows lead.2, s)
  | none => s.served k e.addr.toNat e

/-- AGR_INJECT kind 0b01 corrupts the next entry of core A as it enters the queue (R281). -/
def State.corrupts (k : Nat) (c : Ch) (s : State) : Bool := c = .a && s.b.agr.injectKind == 1 && s.b.agr.injectPair == k

/-- A non-maskable interrupt is taken: a kind 5 entry with neither the timer's nor the external interrupt's cause. -/
def takesNmi (e : Entry) : Bool := e.kind == 5 && e.addr != 7 && e.addr != 11

/-- A pair asked to align is aligned once both cores have pushed an alignment point at the same retirement count (R274). -/
def Pair.meets (p : Pair) : Pair :=
  match p.a.queue.getLast?, p.b.queue.getLast? with
  | some x, some y =>
    { p with aligned := p.aligned || (p.asked && x.2.kind == 8 && y.2.kind == 8 && x.2.retired == y.2.retired) }
  | _, _ => p

/-- The push of a running pair's core. -/
def State.enqueue (k : Fin 4) (c : Ch) (e : Entry) (s : State) : State :=
  let r := s.answered k c e
  let bad := s.corrupts k.val c
  let y := if bad then { r.1 with digest := r.1.digest ^^^ 1 } else r.1
  let s1 := if bad then r.2.onAgr fun a => { a with injectKind := 0 } else r.2
  let s2 := s1.onPair k.val fun p =>
    { (p.onCore c fun x => { ((x.reached r.1).take r.1) with queue := x.queue ++ [(s.b.now, y)] }) with
      nmi := p.nmi && !takesNmi r.1 }
  (s2.onPair k.val fun p => p.meets.peaked s.b.now).cacheErrors k.val c e.cacheErrs

/-- A full queue, and a leading core asked to align, hold a push back (R265, R274). -/
def Pair.holdsBack (p : Pair) (c : Ch) (kind : Nat) : Bool :=
  decide (64 ≤ (p.core c).queue.length) ||
    (p.asked && kind != 8 && decide ((p.core c.other).queue.length ≤ (p.core c).queue.length))

/-- The leading core waits with an input: a read of a check-value unit until its earlier writes to the unit are released (R289), an
interrupt or event until one is pending (R264, R276). Causes 7 and 11 are the machine timer's and the external one's. -/
def Blocks.inputWaits (b : Blocks) (k : Nat) (c : Ch) (e : Entry) : Bool :=
  let p := b.pairOf k
  let page := e.addr.toNat / 4096 * 4096
  if ((p.core c.other).queue[(p.core c).queue.length]?).isSome then false
  else if e.kind = 3 then
    decide (pCVU 0 ≤ page) && decide (page < pCVU 16) &&
      (p.core c).queue.any fun x => x.2.kind == 2 && x.2.addr.toNat / 4096 * 4096 == page
  else if e.kind = 5 then
    !(if e.addr = 7 then p.mtip || p.evtPend.getLsbD 3 else if e.addr = 11 then b.extIrq k else p.nmi)
  else false

/-- Where a split core's input comes from: its own channel, which is the B view where the page has one (R278). -/
def ownView (c : Ch) (addr : Nat) : Nat :=
  match c, splitAddr addr with
  | .b, some (page, false, off) =>
    match pageInfo page with
    | some i => if i.bView then page + 0x100000 + off else addr
    | none => addr
  | _, _ => addr

/-- A split pair's core goes on alone: its inputs are served, its outputs discarded. -/
def State.alone (k : Fin 4) (c : Ch) (e : Entry) (s : State) : State :=
  let r := s.served k (ownView c e.addr.toNat) e
  (r.2.onPair k.val fun p =>
      { (p.onCore c fun x => (x.reached r.1).take r.1) with nmi := p.nmi && !takesNmi r.1 }).cacheErrors k.val c e.cacheErrs

/-- CHECKPOINT_PUSH: a running pair's core pushes, a split one's goes on alone; a halted core, a blocked pair and one in
reset push nothing. -/
def State.checkpointPush (k : Fin 4) (c : Ch) (e : Entry) (s : State) : State :=
  let p := s.b.pairOf k.val
  if entryKind e.kind = false then s
  else if p.state = 1 then (if p.holdsBack c e.kind || s.b.inputWaits k.val c e then s else s.enqueue k c e)
  else if p.state = 3 ∧ (p.core c).halted = false then s.alone k c e
  else s

def execCheckpointPush (t : Nat) (k : Fin 4) (ch : Ch) (e : Entry) (s : State) : Host.Outcome State Fault Refusal :=
  .next ((s.tick t).checkpointPush k ch e)

/-! ### Comparison and release (R264 to R266, R271) -/

end Sys2Proof.Machine

namespace Sys2Proof

/-- Every field of two entries is equal. -/
def Entry.agrees (x y : Entry) : Bool :=
  x.kind == y.kind && x.retired == y.retired && x.digest == y.digest && x.data == y.data && x.addr == y.addr && x.size == y.size

end Sys2Proof

namespace Sys2Proof.Machine

/-- AGR_INJECT kind 0b10 forces the comparator's code 0b11 once. -/
def State.forced (k : Nat) (s : State) : Bool := s.b.agr.injectKind == 2 && s.b.agr.injectPair == k

/-- Both heads leave their queues. -/
def Pair.popped (p : Pair) : Pair :=
  { p with a := { p.a with queue := p.a.queue.drop 1 }, b := { p.b with queue := p.b.queue.drop 1 } }

/-- A matched entry is released: a register write is executed as the pair's. -/
def State.releaseEntry (k : Fin 4) (e : Entry) (s : State) : State :=
  if e.kind = 2 then s.busWrite (.pair k) e.addr.toNat e.size (e.data.truncate 32) else s

/-- Two heads that can be read are compared. -/
def State.compareHeads (k : Fin 4) (x y : Entry) (s : State) : State :=
  if s.forced k.val then
    ((s.onAgr fun a => { a with injectKind := 0 }).raise 449 ((s.b.pairOf k.val).headDetail k.val) none k.val).blockAll
  else if x.agrees y then (s.onPair k.val fun p => (p.peaked s.b.now).popped).releaseEntry k x
  else s.failPair 452 k.val

/-- A corrected head is noted (R265). -/
def State.noteCorrected (k : Nat) (x y : Entry) (s : State) : State :=
  if x.corrected || y.corrected then s.raise 464 (mkw k) none k else s

/-- CHECKPOINT_MATCH: the oldest entries of both queues; an uncorrectable one blocks the pair, a corrected one is noted. A pair
that became blocked in the open round releases nothing, but heads that differ are raised too (R279). -/
def State.checkpointMatch (k : Fin 4) (s : State) : State :=
  let p := s.b.pairOf k.val
  match p.a.queue, p.b.queue with
  | (_, x) :: _, (_, y) :: _ =>
    if p.state = 1 then
      (if x.bad || y.bad then (s.noteCorrected k.val x y).failPair 460 k.val else (s.noteCorrected k.val x y).compareHeads k x y)
    else if s.b.failsNow k.val && !x.bad && !y.bad && !x.agrees y then s.failPair 452 k.val
    else s
  | _, _ => s

def execCheckpointMatch (t : Nat) (k : Fin 4) (s : State) : Host.Outcome State Fault Refusal :=
  .next ((s.tick t).checkpointMatch k)

end Sys2Proof.Machine
end

