-- ==== Sys2Proof/Machine/Detectors.lean ====
section
/-! DEFINITION. The sampling instant with what the blocks' own detectors have found (R17, R30, R215, R256, R265, R275, R293). -/

namespace Sys2Proof.Machine

/-- The sources of the detectors: illegal rail codes, parity and memory errors, converter references, hold readbacks, exchange logic
of one channel, and what only a failing part shows. -/
def detectorSource (i : Nat) : Bool :=
  inRanges
    [(3, 4), (30, 30), (52, 53), (71, 71), (85, 86), (90, 90), (92, 92), (96, 105), (110, 111), (150, 154), (212, 214), (230, 234),
      (262, 266), (296, 302), (347, 352), (361, 365), (374, 378), (390, 393), (405, 406), (428, 432), (434, 434), (449, 449),
      (460, 463), (470, 472), (477, 478), (480, 482), (495, 495), (502, 502), (507, 507), (511, 511)] i

/-- A finding raises its source; what the manual gives the source besides comes with it: a lost frame (R215), a blocked pair (R265,
R271), a shared word repaired or resynchronised (R275). `unit` is the chain, port, pair, unit or channel concerned. -/
def State.finding (x : Finding) (s : State) : State :=
  let d := mkw x.unit
  if !detectorSource x.src then s
  else if x.src = 352 then s.raise 352 d (some (s.b.chainZone x.unit))
  else if x.src = 391 then (s.loseQueued x.unit x.place).raise 391 d
  else if x.src = 449 then (s.raise 449 d none x.unit).blockAll
  else if 460 ≤ x.src ∧ x.src ≤ 463 then s.failPair 460 (x.src - 460)
  else if x.src = 470 then
    match s.b.pairAt x.place with
    | some k =>
      let o := (x.place - (s.b.pairCfg k).base * 65536) / 8 * 8
      if (s.b.pairOf k).wordDiffers o then s.memDiffers k o else s
    | none => s
  else if x.src = 471 then s.memUncorrectable x.place (x.unit == 0) (x.unit != 0)
  else if x.src = 472 then s.memUncorrectable x.place true true
  else s.raise x.src d none x.unit

/-- One sampling instant: what the detectors have found, then the pins. -/
def State.sampled (p : Pins) (s : State) : State := (forL p.found State.finding s).sampling p

/-- SAMPLING_INSTANT. DESIGN CHOICE (log 63): findings come with it, for want of a command of their own. -/
def execSamplingInstant (t : Nat) (pins : Pins) (s : State) : Host.Outcome State Fault Refusal :=
  .next ((s.tick t).sampled pins)

end Sys2Proof.Machine
end

