-- ==== Sys2Proof/Machine/HostPort.lean ====
section
/-! DEFINITION. HIF and the management endpoint (R392, R434 to R436, R439): request frames and messages, their caches, and
what each executes. -/

namespace Sys2Proof.Machine

/-! ### Shared by both (R434, R435) -/

/-- The status codes. -/
def stExecuted : Nat := 0
def stCrc : Nat := 1
def stDuplicate : Nat := 2
def stRefused : Nat := 3
def stMalformed : Nat := 4
def stReused : Nat := 5

/-- The CRC-16 of R286 over a byte list. -/
def crc16 (bs : List Byte) : BitVec 16 := (bs.foldl (cvuByte 2) (cvuInit 2)).truncate 16

/-- The last 32 request IDs other than 0 are kept, newest first. -/
def keepAnswer (x : Kept) (cache : List Kept) : List Kept := if x.id = 0 then cache else (x :: cache).take 32

/-- The answer kept for a request ID; ID 0 is never kept. -/
def keptFor (cache : List Kept) (id : Nat) : Option Kept := if id = 0 then none else cache.find? fun x => x.id == id

/-- An access is refused where its address is not aligned or belongs to no page (R32, R33). -/
def accessOk (addr : Nat) : Bool := decide (addr % 4 = 0) && (splitAddr addr).isSome

/-- Words read from an address upward; a refused one reads 0. The flag says that none was refused. -/
def State.readRun (rd : Reader) (addr : Nat) : Nat → State → List Word × Bool × State
  | 0, s => ([], true, s)
  | n + 1, s =>
    let x := if accessOk addr then s.load rd addr else (0, s)
    let r := x.2.readRun rd (addr + 4) n
    (x.1 :: r.1, accessOk addr && r.2.1, r.2.2)

/-- Words written from an address upward, each as a write of its own. The flag says that none was refused. -/
def State.writeWords (rd : Reader) (addr : Nat) : List Word → State → Bool × State
  | [], s => (true, s)
  | w :: ws, s =>
    let r := (s.busWrite rd addr 4 w).writeWords rd (addr + 4) ws
    (accessOk addr && r.1, r.2)

/-- The result a reader's last write at an address has left (R39, R41). -/
def Blocks.lastResult (b : Blocks) (rd : Reader) (addr : Nat) : Nat :=
  match splitAddr addr with
  | some (page, _, _) => (b.tokenOf page rd.idx).last
  | none => 0

/-- `n` words of a byte list from offset `o`. -/
def wordsAt (bs : List Byte) (o n : Nat) : List Word := (List.range n).map fun i => mkw (beAt bs (o + 4 * i) 4)

def wordBytes (ws : List Word) : List Byte := ws.flatMap fun w => beBytes w.toNat 4

/-! ### HIF (R434, R435) -/

/-- A request frame's parts. -/
def hifIsWrite (bs : List Byte) : Bool := decide (beAt bs 0 1 / 64 = 1)
def hifWords (bs : List Byte) : Nat := beAt bs 0 1 % 64 + 1
def hifAddr (bs : List Byte) : Nat := 0x40000000 + beAt bs 1 3
def hifId (bs : List Byte) : Nat := beAt bs 4 2

/-- Bytes of the whole request. -/
def hifLength (bs : List Byte) : Nat := 8 + (if hifIsWrite bs then 4 * hifWords bs else 0)

/-- A response frame. -/
def hifResponse (status id result : Nat) (ws : List Word) : List Byte :=
  let body := beBytes status 1 ++ beBytes id 2 ++ beBytes result 1 ++ [0] ++ wordBytes ws
  0xA5 :: body ++ beBytes (crc16 body).toNat 2

/-- A kept response sent again, with status 0x02. -/
def hifRepeat (kept : List Byte) : List Byte :=
  let body := beBytes stDuplicate 1 ++ (kept.drop 2).take (kept.length - 4)
  0xA5 :: body ++ beBytes (crc16 body).toNat 2

/-- A response is sent. -/
def State.hifSend (r : List Byte) (s : State) : State := s.onHif fun h => { h with response := some r }

/-- The request of a frame executed: its response, and the hub after it. -/
def State.hifRun (bs : List Byte) (s : State) : List Byte × State :=
  let addr := hifAddr bs
  let n := hifWords bs
  if hifIsWrite bs then
    let r := s.writeWords .hif addr (wordsAt bs 6 n)
    (hifResponse (if r.1 then stExecuted else stRefused) (hifId bs) (r.2.b.lastResult .hif (addr + 4 * (n - 1))) [], r.2)
  else
    let r := s.readRun .hif addr n
    (hifResponse (if r.2.1 then stExecuted else stRefused) (hifId bs) 0 r.1, r.2.2)

/-- A checked request that is not in the cache. -/
def State.hifExecute (bs : List Byte) (s : State) : State :=
  let r := (s.onHif fun h => { h with inFrame := true }).hifRun bs
  (r.2.onHif fun h =>
    { h with inFrame := false, frames := h.frames.inc
             cache := keepAnswer { id := hifId bs, check := bytesAt bs (hifLength bs - 2) 2, responses := [r.1] } h.cache }).hifSend
    r.1

/-- A whole request. -/
def State.hifRequest (bs : List Byte) (s : State) : State :=
  let n := hifLength bs
  let id := hifId bs
  if (crc16 (bs.take (n - 2))).toNat ≠ beAt bs (n - 2) 2 then
    ((s.onHif fun h => { h with crcErr := h.crcErr.inc }).raise 508).hifSend (hifResponse stCrc id 0 [])
  else
    match keptFor s.b.hif.cache id with
    | some x =>
      if x.check = bytesAt bs (n - 2) 2 then
        (s.onHif fun h => { h with dup := h.dup.inc }).hifSend (hifRepeat (x.responses.headD []))
      else (s.raise 509 (mkw id)).hifSend (hifResponse stReused id 0 [])
    | none =>
      if beAt bs 0 1 / 64 ≤ 1 then s.hifExecute bs
      else (s.raise 510 (mkw id)).hifSend (hifResponse stMalformed id 0 [])

/-- HIF_CS_N rises inside a request: it is discarded. -/
def State.hifCut (s : State) : State := s.raise 510

/-- A frame: nothing answers while the port is not enabled. -/
def State.hifFrame (bs : List Byte) (s : State) : State :=
  if s.b.hifOn = false then s
  else if bs.length < hifLength bs then s.hifCut
  else s.hifRequest (bs.take (hifLength bs))

def execHifRead (t : Nat) (bytes : List Byte) (s : State) : Host.Outcome State Fault Refusal :=
  .next ((s.tick t).hifFrame bytes)

def execHifWrite (t : Nat) (bytes : List Byte) (s : State) : Host.Outcome State Fault Refusal :=
  .next ((s.tick t).hifFrame bytes)

/-- HIF_FRAME_ABORT. -/
def State.hifAbort (s : State) : State := if s.b.hifOn then s.hifCut else s

def execHifFrameAbort (t : Nat) (s : State) : Host.Outcome State Fault Refusal := .next (s.tick t).hifAbort

def execHifCtrClear (t : Nat) (rd : Reader) (w : Word) (s : State) : Host.Outcome State Fault Refusal :=
  .next ((s.tick t).wt rd pHIF (wTok w) (State.hifCtrClear w))

/-! ### Sessions (R392, R436) -/

/-- What an array holds per reader is dropped. -/
def dropReader {α : Type} (m : NMap α) (rd : Nat) : NMap α := m.filter fun x => x.1 % 16 != rd

/-- A new session is a new reader: nothing that an earlier session of the same number held serves it. -/
def State.forgetReader (rd : Nat) (s : State) : State :=
  let s1 := (s.onSys fun y =>
      { y with tokens := dropReader y.tokens rd, freezes := ndel y.freezes rd
               experts := ndel y.experts rd }).on fun b =>
    { b with
      sel := dropReader b.sel rd
      tru := { b.tru with opHi := ndel b.tru.opHi rd, cellSecLo := ndel b.tru.cellSecLo rd, cellSecHi := ndel b.tru.cellSecHi rd }
      cvu := nmapv b.cvu {} fun _ c => { c with stateHi := ndel c.stateHi rd, resultHi := ndel c.resultHi rd }
      recd := { b.recd with windows := ndel b.recd.windows rd, exports := ndel b.recd.exports rd }
      otp := { b.otp with reads := ndel b.otp.reads rd }
      key := { b.key with att := ndel b.key.att rd }
      cfg := { b.cfg with uploads := ndel b.cfg.uploads rd } }
  ({ s1 with holds := ndel s1.holds rd }).newNonce rd

/-- A handshake completes with a usable device key and an owner certificate of the image. -/
def Blocks.mayOpen (b : Blocks) (owner : Nat) : Bool :=
  b.keyUsable && match b.cfg.image with
    | some im => decide (owner < im.certs.length)
    | none => false

/-- DTLS_HANDSHAKE: the session opens, or nothing changes. -/
def State.handshake (j : Fin 4) (owner : Nat) (clientOk : Bool) (s : State) : State :=
  if clientOk && s.b.mayOpen owner then
    (s.forgetReader (Reader.mgmt j).idx).onMgmt j.val fun x => { isOpen := true, owner := owner, responses := x.responses }
  else s

def execDtlsHandshake (t : Nat) (session : Fin 4) (owner : Fin 4) (clientOk : Bool) (s : State) :
    Host.Outcome State Fault Refusal :=
  .next ((s.tick t).handshake session owner.val clientOk)

/-! ### Messages (R436) -/

def mgmtId (bs : List Byte) : Nat := beAt bs 2 2

/-- A response message. -/
def mgmtMessage (type status id : Nat) (body : List Byte) : List Byte :=
  beBytes (type + 0x80) 1 ++ beBytes status 1 ++ beBytes id 2 ++ beBytes body.length 4 ++ body

/-- What a message of one type does: status, the bodies of its responses, the hub after it. -/
abbrev MgmtAction := List Byte → State → Nat × List (List Byte) × State

/-- Messages sent to a session; the model keeps them newest first. -/
def State.mgmtSend (j : Nat) (l : List (List Byte)) (s : State) : State :=
  s.onMgmt j fun x => { x with responses := l.reverse ++ x.responses }

/-- A request of a type on an open session: well formed, not a repeat, executed and kept. -/
def State.mgmtRequest (j : Fin 4) (type : Nat) (bs : List Byte) (fits : List Byte → Bool) (run : MgmtAction) (s : State) : State :=
  let x := nget s.b.mgmt j.val {}
  let id := mgmtId bs
  if x.isOpen = false then s
  else
    match keptFor x.cache id with
    | some y =>
      if y.check = bs then s.mgmtSend j.val (y.responses.map fun r => r.take 1 ++ beBytes stDuplicate 1 ++ r.drop 2)
      else (s.raise 509 (mkw id)).mgmtSend j.val [mgmtMessage type stReused id []]
    | none =>
      if bs.length < 8 ∨ beAt bs 0 1 ≠ type ∨ beAt bs 1 1 ≠ 0 ∨ beAt bs 4 4 ≠ bs.length - 8 ∨ fits (bs.drop 8) = false then
        s.mgmtSend j.val [mgmtMessage type stMalformed id []]
      else
        let r := run (bs.drop 8) s
        let out := r.2.1.map fun body => mgmtMessage type r.1 id body
        (r.2.2.onMgmt j.val fun x => { x with cache := keepAnswer { id := id, check := bs, responses := out } x.cache }).mgmtSend
          j.val out

/-- Type 0x01: read words. -/
def mgmtReadRun (rd : Reader) : MgmtAction := fun body s =>
  let r := s.readRun rd (beAt body 0 4) (beAt body 4 2)
  (if r.2.1 then stExecuted else stRefused, [wordBytes r.1], r.2.2)

def readFits (body : List Byte) : Bool := body.length == 6 && decide (1 ≤ beAt body 4 2) && decide (beAt body 4 2 ≤ 256)

def execMgmtRead (t : Nat) (session : Fin 4) (bytes : List Byte) (s : State) : Host.Outcome State Fault Refusal :=
  .next ((s.tick t).mgmtRequest session 1 bytes readFits (mgmtReadRun (.mgmt session)))

/-- Type 0x02: write words; the result of the last one. -/
def mgmtWriteRun (rd : Reader) : MgmtAction := fun body s =>
  let n := beAt body 4 2
  let r := s.writeWords rd (beAt body 0 4) (wordsAt body 6 n)
  (if r.1 then stExecuted else stRefused, [beBytes (r.2.b.lastResult rd (beAt body 0 4 + 4 * (n - 1))) 1], r.2)

def writeFits (body : List Byte) : Bool :=
  body.length == 6 + 4 * beAt body 4 2 && decide (1 ≤ beAt body 4 2) && decide (beAt body 4 2 ≤ 256)

def execMgmtWrite (t : Nat) (session : Fin 4) (bytes : List Byte) (s : State) : Host.Outcome State Fault Refusal :=
  .next ((s.tick t).mgmtRequest session 2 bytes writeFits (mgmtWriteRun (.mgmt session)))

/-- Windows of 256 bytes programmed one after another, as CFG_CMD op 0x2; the first that is not done ends the upload. What
the slot spells in the end comes with the last one. -/
def State.uploadWindows (rd : Reader) (target : Nat) (spells : Spells) : Nat → List (List Byte) → State → Nat × State
  | _, [], s => (rDone, s)
  | off, x :: rest, s =>
    let found := if rest.isEmpty then spells else {}
    let r := s.cfgOp rd 2 (mkw (pl (min target 15) 12 4)) fun k s => s.program k off x found
    if r.2 = rDone then r.1.uploadWindows rd target spells (off + 256) rest else (r.2, r.1)

/-- A list of bytes cut into windows of 256. -/
def windowsOf (bs : List Byte) : List (List Byte) := (List.range (bs.length / 256)).map fun i => bytesAt bs (256 * i) 256

/-- Type 0x03: upload. -/
def mgmtUploadRun (rd : Reader) (spells : Spells) : MgmtAction := fun body s =>
  let r := s.uploadWindows rd (beAt body 0 1) spells (beAt body 1 4) (windowsOf (body.drop 5))
  (stExecuted, [beBytes r.1 1], r.2.result rd pCFG r.1)

def uploadFits (body : List Byte) : Bool :=
  [256, 512, 768, 1024].contains (body.length - 5) && decide (5 ≤ body.length)

def execMgmtUpload (t : Nat) (session : Fin 4) (bytes : List Byte) (spells : Spells) (s : State) :
    Host.Outcome State Fault Refusal :=
  .next ((s.tick t).mgmtRequest session 3 bytes uploadFits (mgmtUploadRun (.mgmt session) spells))

/-- Type 0x04: records, each with its window state. -/
def mgmtRecordsRun : MgmtAction := fun body s =>
  (stExecuted,
    [(List.range (beAt body 6 2)).flatMap fun i =>
      let x := s.b.windowFor (beAt body 0 6 + i)
      beBytes x.state 1 ++ fitBytes x.data 1024], s)

def recordsFits (body : List Byte) : Bool := body.length == 8 && decide (1 ≤ beAt body 6 2) && decide (beAt body 6 2 ≤ 8)

def execMgmtRecords (t : Nat) (session : Fin 4) (bytes : List Byte) (s : State) : Host.Outcome State Fault Refusal :=
  .next ((s.tick t).mgmtRequest session 4 bytes recordsFits mgmtRecordsRun)

/-- Parts of an export, numbered from 0. -/
def exportParts (parts : List (List Byte)) : List (List Byte) := parts.zipIdx.map fun x => beBytes x.2 2 ++ x.1

/-- The stream of a finished export: header, records, trailer. -/
def Blocks.exportStream (b : Blocks) (x : Export) : List (List Byte) :=
  [x.header] ++ x.seqs.map (fun q => (b.recd.find q).data) ++ [beBytes x.hash.toNat 32 ++ beBytes x.sig.toNat 64]

/-- Type 0x05: the session's export is asked for, formed and sent part by part; without a finished one there is one empty
answer, refused. -/
def mgmtExportRun (rd : Reader) : MgmtAction := fun body s =>
  let s1 := s.onExport rd.idx fun x =>
    { x with first := beAt body 0 6, count := beAt body 6 2
             nonce := forN 4 (fun i m => nset m i (mkw (beAt body (8 + 4 * i) 4)) 0) [] }
  let r := s1.exportBegin rd.idx
  let s2 := if r.2 = rDone then r.1.exportFinish rd.idx else r.1
  let x := nget s2.b.recd.exports rd.idx {}
  if r.2 = rDone ∧ x.state = 2 then (stExecuted, exportParts (s2.b.exportStream x), s2) else (stRefused, [[]], s2)

def exportFits (body : List Byte) : Bool := body.length == 24 && decide (1 ≤ beAt body 6 2) && decide (beAt body 6 2 ≤ 1024)

def execMgmtExport (t : Nat) (session : Fin 4) (bytes : List Byte) (s : State) : Host.Outcome State Fault Refusal :=
  .next ((s.tick t).mgmtRequest session 5 bytes exportFits (mgmtExportRun (.mgmt session)))

/-- Type 0x06: subscribe or unsubscribe. -/
def mgmtNoticesRun (j : Nat) : MgmtAction := fun body s =>
  if beAt body 0 1 ≤ 1 then
    (stExecuted, [beBytes rDone 1], s.onMgmt j fun x => { x with notices := beAt body 0 1 == 1 })
  else (stExecuted, [beBytes rBadArg 1], s)

def noticesFits (body : List Byte) : Bool := body.length == 1

def execMgmtNotices (t : Nat) (session : Fin 4) (bytes : List Byte) (s : State) : Host.Outcome State Fault Refusal :=
  .next ((s.tick t).mgmtRequest session 6 bytes noticesFits (mgmtNoticesRun session.val))

end Sys2Proof.Machine
end

