-- ==== Sys2Proof/Machine/Dispatch.lean ====
section
/-! DEFINITION. One arm per command of the table: a direct call of its meaning. -/

namespace Sys2Proof.Machine

/-- The effect of a command on everything but the queue. -/
def exec (i : Instr) (s : State) : Host.Outcome State Fault Refusal :=
  match i with
  | .registerWrite t rd addr width w => Sys2Proof.Machine.execRegisterWrite t rd addr width w s
  | .stagedWrite t rd addr width w => Sys2Proof.Machine.execStagedWrite t rd addr width w s
  | .truOptimeLoRead t rd => Sys2Proof.Machine.execTruOptimeLoRead t rd s
  | .truCellNsRead t rd => Sys2Proof.Machine.execTruCellNsRead t rd s
  | .truInject t rd w => Sys2Proof.Machine.execTruInject t rd w s
  | .pageFltLatchClear t rd page w => Sys2Proof.Machine.execPageFltLatchClear t rd page w s
  | .fclClear t rd w => Sys2Proof.Machine.execFclClear t rd w s
  | .stageCommit t rd token => Sys2Proof.Machine.execStageCommit t rd token s
  | .stageDiscard t rd token => Sys2Proof.Machine.execStageDiscard t rd token s
  | .freeze t rd token => Sys2Proof.Machine.execFreeze t rd token s
  | .freezeRelease t rd token => Sys2Proof.Machine.execFreezeRelease t rd token s
  | .freezeExpired t rd => Sys2Proof.Machine.execFreezeExpired t rd s
  | .expertUnlock t rd token => Sys2Proof.Machine.execExpertUnlock t rd token s
  | .expertLock t rd token => Sys2Proof.Machine.execExpertLock t rd token s
  | .expertIdleTimeout t rd => Sys2Proof.Machine.execExpertIdleTimeout t rd s
  | .expertBlockEnd t rd => Sys2Proof.Machine.execExpertBlockEnd t rd s
  | .capture t x => Sys2Proof.Machine.execCapture t x s
  | .evaluationComplete t ch dur => Sys2Proof.Machine.execEvaluationComplete t ch dur s
  | .evaluationOverrun t ch => Sys2Proof.Machine.execEvaluationOverrun t ch s
  | .sentenceDeadline t => Sys2Proof.Machine.execSentenceDeadline t s
  | .samplingInstant t pins => Sys2Proof.Machine.execSamplingInstant t pins s
  | .lichenExchangeMissed t ch i0 => Sys2Proof.Machine.execLichenExchangeMissed t ch i0 s
  | .discrepancyTimeout t i0 => Sys2Proof.Machine.execDiscrepancyTimeout t i0 s
  | .testPulseStart t k => Sys2Proof.Machine.execTestPulseStart t k s
  | .testPulseEnd t k => Sys2Proof.Machine.execTestPulseEnd t k s
  | .maskWindowEnd t k => Sys2Proof.Machine.execMaskWindowEnd t k s
  | .readbackTimeout t ch k => Sys2Proof.Machine.execReadbackTimeout t ch k s
  | .darkTestStart t k => Sys2Proof.Machine.execDarkTestStart t k s
  | .darkPulseEnd t k => Sys2Proof.Machine.execDarkPulseEnd t k s
  | .stoFeedbackTimeout t ch k => Sys2Proof.Machine.execStoFeedbackTimeout t ch k s
  | .lioCtrClear t rd w => Sys2Proof.Machine.execLioCtrClear t rd w s
  | .encoderSample t a sin cos => Sys2Proof.Machine.execEncoderSample t a sin cos s
  | .periodicUpdate t => Sys2Proof.Machine.execPeriodicUpdate t s
  | .axisExchangeMissed t ch a => Sys2Proof.Machine.execAxisExchangeMissed t ch a s
  | .analogueSample t j rawA rawB => Sys2Proof.Machine.execAnalogueSample t j rawA rawB s
  | .analogueDiscrepancyTimeout t j => Sys2Proof.Machine.execAnalogueDiscrepancyTimeout t j s
  | .meaCtrClear t rd w => Sys2Proof.Machine.execMeaCtrClear t rd w s
  | .axsCtrClear t rd w => Sys2Proof.Machine.execAxsCtrClear t rd w s
  | .sensorStale t s0 => Sys2Proof.Machine.execSensorStale t s0 s
  | .rebuildStart t => Sys2Proof.Machine.execRebuildStart t s
  | .rebuildComplete t ch => Sys2Proof.Machine.execRebuildComplete t ch s
  | .rebuildOverrun t ch => Sys2Proof.Machine.execRebuildOverrun t ch s
  | .separationUpdateComplete t ch => Sys2Proof.Machine.execSeparationUpdateComplete t ch s
  | .separationExchangeMissed t ch c => Sys2Proof.Machine.execSeparationExchangeMissed t ch c s
  | .separationUpdateOverrun t ch => Sys2Proof.Machine.execSeparationUpdateOverrun t ch s
  | .sepCtrClear t rd w => Sys2Proof.Machine.execSepCtrClear t rd w s
  | .kinCtrClear t rd w => Sys2Proof.Machine.execKinCtrClear t rd w s
  | .frameReceive t p f => Sys2Proof.Machine.execFrameReceive t p f s
  | .linkUp t p rate fec => Sys2Proof.Machine.execLinkUp t p rate fec s
  | .linkDown t p => Sys2Proof.Machine.execLinkDown t p s
  | .fdbAgeing t vlan mac => Sys2Proof.Machine.execFdbAgeing t vlan mac s
  | .gateEntryChange t p => Sys2Proof.Machine.execGateEntryChange t p s
  | .cbResetTimeout t stream member => Sys2Proof.Machine.execCbResetTimeout t stream member s
  | .arpRequest t sender senderMac target => Sys2Proof.Machine.execArpRequest t sender senderMac target s
  | .neighbourSolicitation t sender senderMac target => Sys2Proof.Machine.execNeighbourSolicitation t sender senderMac target s
  | .icmpEchoRequest t sender target data => Sys2Proof.Machine.execIcmpEchoRequest t sender target data s
  | .syncReceived t p origin => Sys2Proof.Machine.execSyncReceived t p origin s
  | .announceReceived t p m => Sys2Proof.Machine.execAnnounceReceived t p m s
  | .pdelayReqReceived t p seq => Sys2Proof.Machine.execPdelayReqReceived t p seq s
  | .pdelayRespReceived t p t1 t2 t3 t4 => Sys2Proof.Machine.execPdelayRespReceived t p t1 t2 t3 t4 s
  | .syncInterval t p => Sys2Proof.Machine.execSyncInterval t p s
  | .pdelayInterval t p => Sys2Proof.Machine.execPdelayInterval t p s
  | .announceInterval t p => Sys2Proof.Machine.execAnnounceInterval t p s
  | .syncReceiptTimeout t => Sys2Proof.Machine.execSyncReceiptTimeout t s
  | .holdoverTimeout t => Sys2Proof.Machine.execHoldoverTimeout t s
  | .tInitExpired t => Sys2Proof.Machine.execTInitExpired t s
  | .tsySet t rd token => Sys2Proof.Machine.execTsySet t rd token s
  | .tsySlew t rd token => Sys2Proof.Machine.execTsySlew t rd token s
  | .tsyCancelSlew t rd token => Sys2Proof.Machine.execTsyCancelSlew t rd token s
  | .netCtrClear t rd w => Sys2Proof.Machine.execNetCtrClear t rd w s
  | .safeFrameReceived t bytesA bytesB => Sys2Proof.Machine.execSafeFrameReceived t bytesA bytesB s
  | .bulkSegmentReceived t bytesA bytesB => Sys2Proof.Machine.execBulkSegmentReceived t bytesA bytesB s
  | .setupTimeout t slot => Sys2Proof.Machine.execSetupTimeout t slot s
  | .sfrRestart t rd w => Sys2Proof.Machine.execSfrRestart t rd w s
  | .sfrCtrClear t rd w => Sys2Proof.Machine.execSfrCtrClear t rd w s
  | .pairRelease t k => Sys2Proof.Machine.execPairRelease t k s
  | .checkpointPush t k ch e => Sys2Proof.Machine.execCheckpointPush t k ch e s
  | .checkpointMatch t k => Sys2Proof.Machine.execCheckpointMatch t k s
  | .agreementTimeout t k => Sys2Proof.Machine.execAgreementTimeout t k s
  | .cprCfwWrite t rd k j w => Sys2Proof.Machine.execCprCfwWrite t rd k j w s
  | .cprCfwInv t rd k w => Sys2Proof.Machine.execCprCfwInv t rd k w s
  | .cprAliveWrite t rd k w => Sys2Proof.Machine.execCprAliveWrite t rd k w s
  | .aliveExpired t k => Sys2Proof.Machine.execAliveExpired t k s
  | .cprTx t rd k w => Sys2Proof.Machine.execCprTx t rd k w s
  | .pairFrameReceived t k bytes => Sys2Proof.Machine.execPairFrameReceived t k bytes s
  | .mtimecmpReached t k => Sys2Proof.Machine.execMtimecmpReached t k s
  | .cprRdselWrite t rd k j w => Sys2Proof.Machine.execCprRdselWrite t rd k j w s
  | .cprCtrClear t rd k w => Sys2Proof.Machine.execCprCtrClear t rd k w s
  | .agrCtrClear t rd w => Sys2Proof.Machine.execAgrCtrClear t rd w s
  | .agrInject t rd w => Sys2Proof.Machine.execAgrInject t rd w s
  | .debugHalt t k ch => Sys2Proof.Machine.execDebugHalt t k ch s
  | .debugStep t k ch => Sys2Proof.Machine.execDebugStep t k ch s
  | .debugResume t k ch => Sys2Proof.Machine.execDebugResume t k ch s
  | .debugRegisterAccess t k ch reg write => Sys2Proof.Machine.execDebugRegisterAccess t k ch reg write s
  | .cvuStart t rd u w => Sys2Proof.Machine.execCvuStart t rd u w s
  | .cvuPolyChange t rd u w => Sys2Proof.Machine.execCvuPolyChange t rd u w s
  | .cvuFeedB t rd u w => Sys2Proof.Machine.execCvuFeedB t rd u w s
  | .cvuFeedH t rd u w => Sys2Proof.Machine.execCvuFeedH t rd u w s
  | .cvuFeedW t rd u w => Sys2Proof.Machine.execCvuFeedW t rd u w s
  | .cvuStateLoWrite t rd u w => Sys2Proof.Machine.execCvuStateLoWrite t rd u w s
  | .cvuStateHiWrite t rd u w => Sys2Proof.Machine.execCvuStateHiWrite t rd u w s
  | .cvuStateLoRead t rd u => Sys2Proof.Machine.execCvuStateLoRead t rd u s
  | .cvuResultLoRead t rd u => Sys2Proof.Machine.execCvuResultLoRead t rd u s
  | .cvuAlive t rd u w => Sys2Proof.Machine.execCvuAlive t rd u w s
  | .cvuCtrClear t rd u w => Sys2Proof.Machine.execCvuCtrClear t rd u w s
  | .fabCtrClear t rd ch w => Sys2Proof.Machine.execFabCtrClear t rd ch w s
  | .fabInject t rd ch w => Sys2Proof.Machine.execFabInject t rd ch w s
  | .roundClose t => Sys2Proof.Machine.execRoundClose t s
  | .blockResetComplete t b wipeOk => Sys2Proof.Machine.execBlockResetComplete t b wipeOk s
  | .chipResetReaction t => Sys2Proof.Machine.execChipResetReaction t s
  | .rearmComplete t flagged equalOk fabricOk => Sys2Proof.Machine.execRearmComplete t flagged equalOk fabricOk s
  | .collectorSelfFault t code => Sys2Proof.Machine.execCollectorSelfFault t code s
  | .errPinHalfPeriod t => Sys2Proof.Machine.execErrPinHalfPeriod t s
  | .fclCtrClear t rd w => Sys2Proof.Machine.execFclCtrClear t rd w s
  | .nandProgramComplete t verifyOk => Sys2Proof.Machine.execNandProgramComplete t verifyOk s
  | .blockEraseComplete t block ok => Sys2Proof.Machine.execBlockEraseComplete t block ok s
  | .nandTimeout t => Sys2Proof.Machine.execNandTimeout t s
  | .headSearchComplete t => Sys2Proof.Machine.execHeadSearchComplete t s
  | .recWindowLoad t rd w => Sys2Proof.Machine.execRecWindowLoad t rd w s
  | .recClear t rd w => Sys2Proof.Machine.execRecClear t rd w s
  | .clearEraseComplete t => Sys2Proof.Machine.execClearEraseComplete t s
  | .recFwReq t rd w => Sys2Proof.Machine.execRecFwReq t rd w s
  | .recCtrClear t rd w => Sys2Proof.Machine.execRecCtrClear t rd w s
  | .exportStart t rd token => Sys2Proof.Machine.execExportStart t rd token s
  | .exportAbandon t rd token => Sys2Proof.Machine.execExportAbandon t rd token s
  | .exportComplete t rd => Sys2Proof.Machine.execExportComplete t rd s
  | .sporeStart t ch => Sys2Proof.Machine.execSporeStart t ch s
  | .sporeStep t ch f => Sys2Proof.Machine.execSporeStep t ch f s
  | .sporeAbort t ch cause => Sys2Proof.Machine.execSporeAbort t ch cause s
  | .dtiExceeded t => Sys2Proof.Machine.execDtiExceeded t s
  | .bstSuspend t rd ch w => Sys2Proof.Machine.execBstSuspend t rd ch w s
  | .bstForce t rd ch w => Sys2Proof.Machine.execBstForce t rd ch w s
  | .bstCtrClear t rd ch w => Sys2Proof.Machine.execBstCtrClear t rd ch w s
  | .otpBurnWord t rd w => Sys2Proof.Machine.execOtpBurnWord t rd w s
  | .otpFinalise t rd w => Sys2Proof.Machine.execOtpFinalise t rd w s
  | .otpRetire t rd w => Sys2Proof.Machine.execOtpRetire t rd w s
  | .otpBurn4408Row t rd w => Sys2Proof.Machine.execOtpBurn4408Row t rd w s
  | .otpRedirect4408Row t rd w => Sys2Proof.Machine.execOtpRedirect4408Row t rd w s
  | .otpSessionComplete t x => Sys2Proof.Machine.execOtpSessionComplete t x s
  | .otpVppOutOfRange t mv left => Sys2Proof.Machine.execOtpVppOutOfRange t mv left s
  | .otpRead t rd w => Sys2Proof.Machine.execOtpRead t rd w s
  | .lcToManufacture t rd w => Sys2Proof.Machine.execLcToManufacture t rd w s
  | .generateKey t rd w healthOk pairOk => Sys2Proof.Machine.execGenerateKey t rd w healthOk pairOk s
  | .lcToProvisioned t rd w => Sys2Proof.Machine.execLcToProvisioned t rd w s
  | .lcToDeployed t rd w => Sys2Proof.Machine.execLcToDeployed t rd w s
  | .lcToReturned t rd w destroyed => Sys2Proof.Machine.execLcToReturned t rd w destroyed s
  | .debugUnlock t rd w => Sys2Proof.Machine.execDebugUnlock t rd w s
  | .openScan t rd w => Sys2Proof.Machine.execOpenScan t rd w s
  | .lifeCycleReset t burnOk => Sys2Proof.Machine.execLifeCycleReset t burnOk s
  | .lcsBlockEnd t rd => Sys2Proof.Machine.execLcsBlockEnd t rd s
  | .attestationStart t rd w => Sys2Proof.Machine.execAttestationStart t rd w s
  | .attestationComplete t rd => Sys2Proof.Machine.execAttestationComplete t rd s
  | .railOutOfRange t rail mv => Sys2Proof.Machine.execRailOutOfRange t rail mv s
  | .vcoreMonitorDisagree t mvA mvB => Sys2Proof.Machine.execVcoreMonitorDisagree t mvA mvB s
  | .powerOnResetEnd t => Sys2Proof.Machine.execPowerOnResetEnd t s
  | .supplyLossWarning t cause => Sys2Proof.Machine.execSupplyLossWarning t cause s
  | .flushComplete t => Sys2Proof.Machine.execFlushComplete t s
  | .supplyRecovery t => Sys2Proof.Machine.execSupplyRecovery t s
  | .resetNAssert t lowNs => Sys2Proof.Machine.execResetNAssert t lowNs s
  | .resetNRelease t => Sys2Proof.Machine.execResetNRelease t s
  | .tjThreshold t tempA tempB => Sys2Proof.Machine.execTjThreshold t tempA tempB s
  | .fiddlehead t x => Sys2Proof.Machine.execFiddlehead t x s
  | .firmwareLoad t => Sys2Proof.Machine.execFirmwareLoad t s
  | .configLoad t plug => Sys2Proof.Machine.execConfigLoad t plug s
  | .cfgOpen t rd w => Sys2Proof.Machine.execCfgOpen t rd w s
  | .cfgProgramWindow t rd w spells => Sys2Proof.Machine.execCfgProgramWindow t rd w spells s
  | .cfgSeal t rd w => Sys2Proof.Machine.execCfgSeal t rd w s
  | .cfgLoad t rd w => Sys2Proof.Machine.execCfgLoad t rd w s
  | .cfgAccept t rd w => Sys2Proof.Machine.execCfgAccept t rd w s
  | .cfgCancelAccept t rd w => Sys2Proof.Machine.execCfgCancelAccept t rd w s
  | .cfgDiscard t rd w => Sys2Proof.Machine.execCfgDiscard t rd w s
  | .cfgWritePlug t rd w => Sys2Proof.Machine.execCfgWritePlug t rd w s
  | .configLoadComplete t => Sys2Proof.Machine.execConfigLoadComplete t s
  | .acceptanceAck t => Sys2Proof.Machine.execAcceptanceAck t s
  | .acceptanceTimeout t => Sys2Proof.Machine.execAcceptanceTimeout t s
  | .plugWriteComplete t mbit16 => Sys2Proof.Machine.execPlugWriteComplete t mbit16 s
  | .hifRead t bytes => Sys2Proof.Machine.execHifRead t bytes s
  | .hifWrite t bytes => Sys2Proof.Machine.execHifWrite t bytes s
  | .hifFrameAbort t => Sys2Proof.Machine.execHifFrameAbort t s
  | .hifCtrClear t rd w => Sys2Proof.Machine.execHifCtrClear t rd w s
  | .dtlsHandshake t session owner clientOk => Sys2Proof.Machine.execDtlsHandshake t session owner clientOk s
  | .mgmtRead t session bytes => Sys2Proof.Machine.execMgmtRead t session bytes s
  | .mgmtWrite t session bytes => Sys2Proof.Machine.execMgmtWrite t session bytes s
  | .mgmtUpload t session bytes spells => Sys2Proof.Machine.execMgmtUpload t session bytes spells s
  | .mgmtRecords t session bytes => Sys2Proof.Machine.execMgmtRecords t session bytes s
  | .mgmtExport t session bytes => Sys2Proof.Machine.execMgmtExport t session bytes s
  | .mgmtNotices t session bytes => Sys2Proof.Machine.execMgmtNotices t session bytes s
  | .pwrCtrClear t rd w => Sys2Proof.Machine.execPwrCtrClear t rd w s
  | .paceWindowEnd t pacesA pacesB => Sys2Proof.Machine.execPaceWindowEnd t pacesA pacesB s
  | .oscillatorStop t ch => Sys2Proof.Machine.execOscillatorStop t ch s
  | .quadrantCounterTransition t a sinHigh cosHigh => Sys2Proof.Machine.execQuadrantCounterTransition t a sinHigh cosHigh s
  | .antiRollbackAdvance t => Sys2Proof.Machine.execAntiRollbackAdvance t s
  | .laneErrorRateHigh t p => Sys2Proof.Machine.execLaneErrorRateHigh t p s
  | .streamGateChange t g => Sys2Proof.Machine.execStreamGateChange t g s

end Sys2Proof.Machine
end

