-- ==== Sys2Proof/Safety.lean ====
section
/-! DEFINITION. The terms claims are stated in: a run that no step stops, and the canonical form of the memories. The outputs'
own safe state is a property of the state (`Blocks.pinSout`, `Blocks.pinSto`), stated where it is claimed. -/

namespace Sys2Proof.Machine

/-- A byte memory is in canonical form: offsets strictly rising, and no byte listed that reads as an unlisted one does. -/
def Memory.wf (m : NMap Byte) : Bool := nwf 0 m

/-- Both copies of every pair's memory, and the NAND array, are in canonical form. -/
def Blocks.memWf (b : Blocks) : Bool :=
  (b.agr.pairs.all fun x => Memory.wf x.2.memA && Memory.wf x.2.memB) && nwf none b.recd.nand

/-- A reader's write reaches a page and may be made there (R266, R267, R284). -/
def Blocks.reaches (b : Blocks) (rd : Reader) (page : Nat) : Bool := b.speaks rd && b.mayWrite rd page

/-- A command with this token is executed (R39): its reader reaches the page, and the token is neither 0 nor the kept one. -/
def Blocks.takes (b : Blocks) (rd : Reader) (page : Nat) (tok : BitVec 16) : Bool :=
  b.reaches rd page && decide (tok ≠ 0) && decide (tok ≠ (b.tokenOf page rd.idx).token)

/-- The page keeps an executed command's token and result for its reader (R39). -/
def State.keeps (rd : Reader) (page : Nat) (tok : BitVec 16) (r : Nat) (s : State) : State :=
  s.onToken page rd.idx fun _ => { token := tok, kept := r, last := r, repeated := false, settles := decide (r = rPending) }

/-- The parts of the state: the time, every block, the blocks in reset, what readers select for themselves, the sentences
shown and held, and the count of free values drawn; and, within the blocks, what the manual says most about: the latches of
both trees, the sentence number, the next one and the instant and T_S of the last capture, the committed output and STO
commands, the image and the settings in force, the life-cycle bits and the start-up phase. The queue is no part: `exec` leaves it alone. -/
inductive Part where
  | now | sys | tru | fab | lio | tpg | sog | sto | mea | axs | sep | net | tsy | sfr | agr
  | cvu | fcl | recd | bst | otp | lcs | key | pwr | cfg | hif | mgmt | inReset | sel | sentences | draws
  | latches | numbering | committed | inForce | lifeBits | phase
deriving DecidableEq, Repr

/-- A part is the same in two states. -/
def Part.same (x y : State) : Part → Prop
  | .now => y.b.now = x.b.now
  | .sys => y.b.sys = x.b.sys
  | .tru => y.b.tru = x.b.tru
  | .fab => y.b.fab = x.b.fab
  | .lio => y.b.lio = x.b.lio
  | .tpg => y.b.tpg = x.b.tpg
  | .sog => y.b.sog = x.b.sog
  | .sto => y.b.sto = x.b.sto
  | .mea => y.b.mea = x.b.mea
  | .axs => y.b.axs = x.b.axs
  | .sep => y.b.sep = x.b.sep
  | .net => y.b.net = x.b.net
  | .tsy => y.b.tsy = x.b.tsy
  | .sfr => y.b.sfr = x.b.sfr
  | .agr => y.b.agr = x.b.agr
  | .cvu => y.b.cvu = x.b.cvu
  | .fcl => y.b.fcl = x.b.fcl
  | .recd => y.b.recd = x.b.recd
  | .bst => y.b.bst = x.b.bst
  | .otp => y.b.otp = x.b.otp
  | .lcs => y.b.lcs = x.b.lcs
  | .key => y.b.key = x.b.key
  | .pwr => y.b.pwr = x.b.pwr
  | .cfg => y.b.cfg = x.b.cfg
  | .hif => y.b.hif = x.b.hif
  | .mgmt => y.b.mgmt = x.b.mgmt
  | .inReset => y.b.inReset = x.b.inReset
  | .sel => y.b.sel = x.b.sel
  | .sentences => y.cap = x.cap ∧ y.shown = x.shown ∧ y.holds = x.holds
  | .draws => y.draws = x.draws
  | .latches => y.b.fcl.a.latch = x.b.fcl.a.latch ∧ y.b.fcl.b.latch = x.b.fcl.b.latch
  | .numbering => y.b.sys.sent = x.b.sys.sent ∧ y.b.sys.nextNumber = x.b.sys.nextNumber ∧
      y.b.sys.lastCapture = x.b.sys.lastCapture ∧ y.b.sys.period = x.b.sys.period ∧ y.b.sys.captured = x.b.sys.captured
  | .committed => y.b.sog.committed = x.b.sog.committed ∧ y.b.sto.committed = x.b.sto.committed
  | .inForce => y.b.cfg.image = x.b.cfg.image ∧ y.b.cfg.rws = x.b.cfg.rws
  | .lifeBits => y.b.otp.latched = x.b.otp.latched
  | .phase => y.b.pwr.phase = x.b.pwr.phase

end Sys2Proof.Machine

namespace Sys2Proof

open Machine in
/-- The parts of the state that a command can change. Every command brings the time with it; every other part stays as it is,
whatever the operands and the state. -/
def Instr.touches : Instr → List Part
  | .expertIdleTimeout .. | .expertBlockEnd .. => [.now, .sys]
  | .truOptimeLoRead .. | .truCellNsRead .. => [.now, .tru]
  | .darkTestStart .. => [.now, .sog]
  | .rebuildStart .. | .rebuildComplete .. => [.now, .sep]
  | .linkUp .. | .fdbAgeing .. | .gateEntryChange .. | .pdelayReqReceived .. | .syncInterval ..
  | .pdelayInterval .. | .announceInterval .. | .streamGateChange .. => [.now, .net]
  | .pairRelease .. | .pairFrameReceived .. | .mtimecmpReached .. | .debugResume .. | .debugRegisterAccess .. =>
    [.now, .agr]
  | .cvuStateLoRead .. | .cvuResultLoRead .. => [.now, .cvu]
  | .sensorStale .. | .rebuildOverrun .. | .cbResetTimeout .. | .errPinHalfPeriod .. | .dtiExceeded ..
  | .hifFrameAbort .. | .laneErrorRateHigh .. => [.now, .fcl]
  | .exportComplete .. => [.now, .recd]
  | .lcsBlockEnd .. => [.now, .lcs]
  | .attestationComplete .. => [.now, .key]
  | .pageFltLatchClear .. | .fclClear .. | .stageCommit .. | .stageDiscard .. | .expertLock ..
  | .evaluationOverrun .. | .fclCtrClear .. => [.now, .sys, .fcl]
  | .oscillatorStop .. => [.now, .tru, .fcl]
  | .testPulseEnd .. => [.now, .tpg, .fcl]
  | .readbackTimeout .. | .darkPulseEnd .. => [.now, .sog, .fcl]
  | .stoFeedbackTimeout .. => [.now, .sto, .fcl]
  | .encoderSample .. | .analogueSample .. | .analogueDiscrepancyTimeout .. | .quadrantCounterTransition .. =>
    [.now, .mea, .fcl]
  | .axisExchangeMissed .. => [.now, .axs, .fcl]
  | .separationUpdateComplete .. | .separationExchangeMissed .. | .separationUpdateOverrun .. => [.now, .sep, .fcl]
  | .arpRequest .. | .neighbourSolicitation .. | .icmpEchoRequest .. => [.now, .net, .fcl]
  | .syncReceiptTimeout .. => [.now, .tsy, .fcl]
  | .setupTimeout .. => [.now, .sfr, .fcl]
  | .agreementTimeout .. | .aliveExpired .. | .rearmComplete .. => [.now, .agr, .fcl]
  | .clearEraseComplete .. => [.now, .fcl, .recd]
  | .sporeStart .. => [.now, .agr, .bst]
  | .antiRollbackAdvance .. => [.now, .fcl, .otp]
  | .vcoreMonitorDisagree .. | .tjThreshold .. | .paceWindowEnd .. => [.now, .fcl, .pwr]
  | .flushComplete .. => [.now, .recd, .pwr]
  | .mgmtRecords .. | .mgmtNotices .. => [.now, .fcl, .mgmt]
  | .fabCtrClear .. => [.now, .sys, .fab, .fcl]
  | .lioCtrClear .. => [.now, .sys, .lio, .fcl]
  | .testPulseStart .. | .maskWindowEnd .. => [.now, .lio, .tpg, .fcl]
  | .meaCtrClear .. => [.now, .sys, .mea, .fcl]
  | .axsCtrClear .. => [.now, .sys, .axs, .fcl]
  | .sepCtrClear .. | .kinCtrClear .. => [.now, .sys, .sep, .fcl]
  | .netCtrClear .. => [.now, .sys, .net, .fcl]
  | .tsySlew .. | .tsyCancelSlew .. => [.now, .sys, .tsy, .fcl]
  | .linkDown .. | .syncReceived .. | .announceReceived .. | .pdelayRespReceived .. | .holdoverTimeout ..
  | .tInitExpired .. => [.now, .net, .tsy, .fcl]
  | .sfrCtrClear .. => [.now, .sys, .sfr, .fcl]
  | .safeFrameReceived .. => [.now, .axs, .sfr, .fcl]
  | .cprCfwWrite .. | .cprCfwInv .. | .cprAliveWrite .. | .cprRdselWrite .. | .cprCtrClear .. | .agrCtrClear .. =>
    [.now, .sys, .agr, .fcl]
  | .cvuStart .. | .cvuPolyChange .. | .cvuFeedB .. | .cvuFeedH .. | .cvuFeedW .. | .cvuStateLoWrite ..
  | .cvuStateHiWrite .. | .cvuAlive .. | .cvuCtrClear .. => [.now, .sys, .cvu, .fcl]
  | .recCtrClear .. | .exportStart .. | .exportAbandon .. => [.now, .sys, .fcl, .recd]
  | .bstCtrClear .. => [.now, .sys, .fcl, .bst]
  | .sporeAbort .. => [.now, .agr, .fcl, .bst]
  | .otpBurnWord .. | .otpFinalise .. | .otpRetire .. | .otpBurn4408Row .. | .otpRedirect4408Row ..
  | .otpRead .. => [.now, .sys, .fcl, .otp]
  | .attestationStart .. => [.now, .sys, .fcl, .key]
  | .pwrCtrClear .. => [.now, .sys, .fcl, .pwr]
  | .cfgOpen .. | .cfgProgramWindow .. | .cfgSeal .. | .cfgLoad .. | .cfgCancelAccept .. | .cfgDiscard ..
  | .cfgWritePlug .. | .acceptanceTimeout .. | .plugWriteComplete .. => [.now, .sys, .fcl, .cfg]
  | .hifCtrClear .. => [.now, .sys, .fcl, .hif]
  | .mgmtExport .. => [.now, .fcl, .recd, .mgmt]
  | .freeze .. | .freezeRelease .. | .freezeExpired .. => [.now, .sys, .fcl, .sentences]
  | .expertUnlock .. => [.now, .sys, .fcl, .draws]
  | .bulkSegmentReceived .. => [.now, .axs, .sep, .sfr, .fcl]
  | .cprTx .. => [.now, .sys, .net, .agr, .fcl]
  | .mgmtUpload .. => [.now, .sys, .fcl, .cfg, .mgmt]
  | .recWindowLoad .. => [.now, .sys, .fcl, .recd, .sel]
  | .firmwareLoad .. => [.now, .agr, .fcl, .pwr, .phase]
  | .resetNRelease .. => [.now, .fcl, .bst, .pwr, .phase]
  | .frameReceive .. => [.now, .axs, .sep, .net, .sfr, .fcl]
  | .checkpointPush .. => [.now, .tru, .agr, .cvu, .fcl, .recd]
  | .mgmtRead .. => [.now, .tru, .cvu, .fcl, .recd, .mgmt]
  | .recFwReq .. => [.now, .sys, .fcl, .recd, .pwr, .mgmt]
  | .debugHalt .. | .debugStep .. => [.now, .agr, .fcl, .recd, .pwr, .mgmt]
  | .nandProgramComplete .. | .blockEraseComplete .. | .nandTimeout .. => [.now, .fcl, .recd, .otp, .pwr, .mgmt]
  | .cfgAccept .. => [.now, .sys, .fcl, .cfg, .hif, .draws]
  | .truInject .. => [.now, .sys, .tru, .fcl, .recd, .pwr, .mgmt]
  | .fabInject .. => [.now, .sys, .fab, .fcl, .recd, .pwr, .mgmt]
  | .agrInject .. => [.now, .sys, .agr, .fcl, .recd, .pwr, .mgmt]
  | .bstSuspend .. | .bstForce .. => [.now, .sys, .fcl, .recd, .bst, .pwr, .mgmt]
  | .lcToManufacture .. | .lcToProvisioned .. | .lcToDeployed .. | .openScan .. =>
    [.now, .sys, .fcl, .recd, .otp, .lcs, .draws]
  | .recClear .. => [.now, .sys, .fcl, .recd, .pwr, .mgmt, .draws]
  | .tsySet .. => [.now, .sys, .net, .tsy, .fcl, .recd, .pwr, .mgmt]
  | .acceptanceAck .. => [.now, .sys, .fcl, .recd, .otp, .pwr, .cfg, .mgmt]
  | .generateKey .. | .lcToReturned .. => [.now, .sys, .fcl, .recd, .otp, .lcs, .key, .draws]
  | .supplyLossWarning .. => [.now, .sys, .fcl, .recd, .otp, .lcs, .pwr, .draws]
  | .sfrRestart .. => [.now, .sys, .sfr, .fcl, .recd, .pwr, .mgmt, .draws]
  | .collectorSelfFault .. => [.now, .sog, .sto, .agr, .fcl, .recd, .bst, .pwr, .mgmt]
  | .debugUnlock .. => [.now, .sys, .fcl, .recd, .otp, .lcs, .pwr, .mgmt, .draws]
  | .headSearchComplete .. => [.now, .sys, .tru, .tsy, .fcl, .recd, .pwr, .mgmt, .numbering]
  | .otpSessionComplete .. | .otpVppOutOfRange .. => [.now, .sys, .fcl, .recd, .otp, .lcs, .key, .pwr, .mgmt, .draws]
  | .fiddlehead .. => [.now, .tru, .agr, .fcl, .otp, .lcs, .key, .pwr, .draws, .lifeBits, .phase]
  | .dtlsHandshake .. => [.now, .sys, .tru, .cvu, .recd, .otp, .key, .cfg, .mgmt, .sel, .sentences, .draws]
  | .lichenExchangeMissed .. | .discrepancyTimeout .. =>
    [.now, .sys, .fab, .lio, .sog, .sto, .axs, .net, .sfr, .fcl, .recd, .pwr, .mgmt, .sentences]
  | .periodicUpdate .. => [.now, .sys, .fab, .sog, .sto, .mea, .axs, .net, .sfr, .fcl, .recd, .pwr, .mgmt, .sentences]
  | .samplingInstant .. =>
    [.now, .sys, .fab, .lio, .tpg, .sog, .sto, .axs, .net, .sfr, .agr, .fcl, .recd, .bst, .pwr, .mgmt, .sentences]
  | .blockResetComplete .. | .sporeStep .. =>
    [.now, .sys, .fab, .lio, .tpg, .sog, .sto, .mea, .axs, .sep, .net, .sfr, .agr, .cvu, .fcl, .recd, .bst, .pwr,
     .hif, .mgmt, .inReset, .sentences, .draws, .committed]
  | .roundClose .. =>
    [.now, .sys, .fab, .lio, .tpg, .sog, .sto, .mea, .axs, .sep, .net, .sfr, .agr, .cvu, .fcl, .recd, .bst, .pwr,
     .hif, .mgmt, .inReset, .sentences, .draws, .latches, .committed]
  | .registerWrite .. | .stagedWrite .. | .checkpointMatch .. | .hifRead .. | .hifWrite .. | .mgmtWrite .. =>
    [.now, .sys, .tru, .fab, .lio, .mea, .axs, .sep, .net, .tsy, .sfr, .agr, .cvu, .fcl, .recd, .bst, .otp, .lcs,
     .key, .pwr, .cfg, .hif, .mgmt, .sel, .sentences, .draws]
  | .sentenceDeadline .. =>
    [.now, .sys, .fab, .lio, .tpg, .sog, .sto, .mea, .axs, .sep, .net, .sfr, .agr, .cvu, .fcl, .recd, .bst, .pwr,
     .cfg, .hif, .mgmt, .inReset, .sentences, .draws, .latches, .committed]
  | .evaluationComplete .. =>
    [.now, .sys, .fab, .lio, .tpg, .sog, .sto, .mea, .axs, .sep, .net, .sfr, .agr, .cvu, .fcl, .recd, .bst, .lcs,
     .pwr, .cfg, .hif, .mgmt, .inReset, .sentences, .draws, .latches, .committed]
  | .configLoad .. | .configLoadComplete .. =>
    [.now, .sys, .fab, .lio, .tpg, .sog, .sto, .mea, .axs, .sep, .net, .tsy, .sfr, .agr, .cvu, .fcl, .recd, .bst,
     .pwr, .cfg, .hif, .mgmt, .sentences, .draws, .committed, .inForce, .phase]
  | .capture .. =>
    [.now, .sys, .tru, .fab, .lio, .tpg, .sog, .sto, .mea, .axs, .sep, .net, .tsy, .sfr, .agr, .cvu, .fcl, .recd,
     .bst, .pwr, .cfg, .hif, .mgmt, .inReset, .sentences, .draws, .latches, .numbering, .committed, .inForce]
  | .chipResetReaction .. | .lifeCycleReset .. | .railOutOfRange .. | .powerOnResetEnd .. | .supplyRecovery ..
  | .resetNAssert .. =>
    [.now, .sys, .tru, .fab, .lio, .tpg, .sog, .sto, .mea, .axs, .sep, .net, .tsy, .sfr, .agr, .cvu, .fcl, .recd,
     .bst, .otp, .lcs, .key, .pwr, .cfg, .hif, .mgmt, .inReset, .sel, .sentences, .draws, .latches, .numbering,
     .committed, .inForce, .phase]

open Machine in
/-- The commands that carry a token (R38, R39): the instant, the reader, the page and the token. -/
def Instr.issued : Instr → Option (Nat × Reader × Nat × BitVec 16)
  | .pageFltLatchClear t rd page w => (splitAddr page).map fun x => (t, rd, x.1, wTok w)
  | .fclClear t rd w | .fclCtrClear t rd w => some (t, rd, pFCL, wTok w)
  | .stageCommit t rd tok | .stageDiscard t rd tok | .freeze t rd tok | .freezeRelease t rd tok
  | .expertUnlock t rd tok | .expertLock t rd tok => some (t, rd, pSYS, tok)
  | .tsySet t rd tok | .tsySlew t rd tok | .tsyCancelSlew t rd tok => some (t, rd, pTSY, tok)
  | .exportStart t rd tok | .exportAbandon t rd tok => some (t, rd, pREC, tok)
  | .recClear t rd w | .recFwReq t rd w | .recCtrClear t rd w => some (t, rd, pREC, wTok w)
  | .lioCtrClear t rd w => some (t, rd, pLIO, wTok w)
  | .meaCtrClear t rd w => some (t, rd, pMEA, wTok w)
  | .axsCtrClear t rd w => some (t, rd, pAXS, wTok w)
  | .sepCtrClear t rd w => some (t, rd, pSEP, wTok w)
  | .kinCtrClear t rd w => some (t, rd, pKIN, wTok w)
  | .netCtrClear t rd w => some (t, rd, pNET, wTok w)
  | .sfrRestart t rd w | .sfrCtrClear t rd w => some (t, rd, pSFR, wTok w)
  | .agrCtrClear t rd w => some (t, rd, pAGR, wTok w)
  | .cprCtrClear t rd k w => some (t, rd, pCPR k.val, wTok w)
  | .cvuCtrClear t rd u w => some (t, rd, pCVU u.val, wTok w)
  | .fabCtrClear t rd _ w => some (t, rd, pFAB, wTok w)
  | .bstCtrClear t rd _ w => some (t, rd, pBST, wTok w)
  | .hifCtrClear t rd w => some (t, rd, pHIF, wTok w)
  | .pwrCtrClear t rd w => some (t, rd, pPWR, wTok w)
  | .otpBurnWord t rd w | .otpFinalise t rd w | .otpRetire t rd w | .otpBurn4408Row t rd w
  | .otpRedirect4408Row t rd w => some (t, rd, pOTP, wTok w)
  | .lcToManufacture t rd w | .generateKey t rd w _ _ | .lcToProvisioned t rd w | .lcToDeployed t rd w
  | .lcToReturned t rd w _ | .debugUnlock t rd w | .openScan t rd w => some (t, rd, pLCS, wTok w)
  | .attestationStart t rd w => some (t, rd, pKEY, wTok w)
  | .cfgOpen t rd w | .cfgProgramWindow t rd w _ | .cfgSeal t rd w | .cfgLoad t rd w | .cfgAccept t rd w
  | .cfgCancelAccept t rd w | .cfgDiscard t rd w | .cfgWritePlug t rd w => some (t, rd, pCFG, wTok w)
  | _ => none

open Machine in
/-- A reader may give a command with a token (R267, R284); pairs 1 to 3 can clear no latch (R314). -/
def Instr.permitted (c : Instr) (b : Blocks) (rd : Reader) (page : Nat) : Bool :=
  b.mayWrite rd page && match c with
    | .pageFltLatchClear .. => mayClear rd
    | _ => true

end Sys2Proof

namespace Sys2Proof.Safety

/-- The first `k` steps from `s` all answer a next state. -/
def runs : Nat → Machine.State → Bool
  | 0, _ => true
  | k + 1, s =>
    match Machine.step s with
    | .next s' => runs k s'
    | .fault _ => false
    | .refused _ => false

end Sys2Proof.Safety
end

