-- ==== Sys2Proof/Certificates/Slice0/Obligations.lean ====
section
/-! DEFINITION. The statements for the provers. -/

open Sys2Proof Sys2Proof.Machine

/-- A step takes the command at the front of the queue and is `exec` of it with the queue's rest. -/
def Obligations.StepRunsFront : Prop :=
  ∀ (c : Instr) (r : List Instr) (s : State),
    step { s with pending := c :: r } = exec c { s with pending := r }

/-- On an empty queue a step changes nothing: the model's choice (log entry 3). -/
def Obligations.EmptyQueueIdles : Prop :=
  ∀ s : State, s.pending = [] → step s = .next s

/-- The invariant of `StepKeepsMemories` holds at reset. -/
def Obligations.MemoriesAtReset : Prop :=
  State.reset.b.memWf = true ∧ State.reset.pending = []

/-- Canonical memories are an invariant of the step, over every state and every command. -/
def Obligations.StepKeepsMemories : Prop :=
  ∀ s u : State, s.b.memWf = true → step s = .next u → u.b.memWf = true

/-- What no step takes back: the order of the queue, time (R22), burned counter steps (R375), drawn values (R47,
R248). -/
def Obligations.StepTakesNothingBack : Prop :=
  ∀ s u : State, step s = .next u →
    u.pending = s.pending.tail ∧ s.b.now ≤ u.b.now ∧ s.draws ≤ u.draws ∧
    ∀ k i, i ∈ nget s.b.otp.counters k [] → i ∈ nget u.b.otp.counters k []

/-- The frame of every command: what `Instr.touches` does not list stays as it is. -/
def Obligations.CommandTouches : Prop :=
  ∀ (c : Instr) (s u : State), exec c s = .next u → ∀ p : Part, p ∉ c.touches → p.same s u

/-- Every command runs: the one stop is a firmware image of an edition this manual does not describe (R11). -/
def Obligations.EveryCommandAnswers : Prop :=
  ∀ (c : Instr) (s : State),
    ((∀ t, c ≠ .firmwareLoad t) → ∃ u, exec c s = .next u ∧ s.b.now ≤ u.b.now) ∧
    (∀ r, exec c s ≠ .refused r) ∧
    (∀ f, exec c s = .fault f → ∃ t k w, c = .firmwareLoad t ∧ s.b.pwr.phase = .fiddled ∧ s.b.lcs.scanOpen = false ∧
      s.b.fwChosen = some k ∧ s.b.fwSlotOf k = some w ∧ w.major ≠ 1)

/-- R39, R40 and R267 for every command with a token. -/
def Obligations.TokensGuard : Prop :=
  ∀ (c : Instr) (t : Nat) (rd : Reader) (page : Nat) (tok : BitVec 16) (s : State),
    c.issued = some (t, rd, page, tok) →
    (s.b.speaks rd = true → c.permitted s.b rd page = true →
      (tok = 0 → exec c s = .next ((s.tick t).onToken page rd.idx fun e =>
        { e with last := rNoToken, repeated := false, settles := false })) ∧
      (tok ≠ 0 → tok = (s.b.tokenOf page rd.idx).token → exec c s = .next ((s.tick t).onToken page rd.idx fun e =>
        { e with last := e.kept, repeated := true, settles := false }))) ∧
    (s.b.speaks rd = true → c.permitted s.b rd page = false →
      exec c s = .next ((((s.tick t).onToken page rd.idx fun e => { e with last := rNotAuth, settles := false }).raise 474
        (mkw (page + rd.idx))).onToken page rd.idx fun e => { e with repeated := false }))

/-- R39 and R40: one kept token for each page and reader. -/
def Obligations.TokenKeptPerReader : Prop :=
  ∀ (rd : Reader) (page : Nat) (tok : BitVec 16) (r : Nat) (s : State),
    (s.keeps rd page tok r).b.tokenOf page rd.idx =
      { token := tok, kept := r, last := r, repeated := false, settles := decide (r = rPending) } ∧
    ∀ (page' rd' : Nat), tokKey page rd.idx ≠ tokKey page' rd' →
      (s.keeps rd page tok r).b.tokenOf page' rd' = s.b.tokenOf page' rd' 

/-- Counter clears of the pages LIO, MEA, AXS, SEP, KIN and FAB. LIO_CTR_CLEAR, MEA_CTR_CLEAR, AXS_CTR_CLEAR,
SEP_CTR_CLEAR, KIN_CTR_CLEAR, FAB_CTR_CLEAR. -/
def Obligations.CounterClearsMachine : Prop :=
  ∀ (t : Nat) (rd : Reader) (w : Word) (ch : Ch) (s : State),
    let took := fun (page : Nat) (x : State) => (Host.Outcome.next (x.keeps rd page (wTok w) rDone) : Host.Outcome State Fault Refusal)
    (s.b.takes rd pLIO (wTok w) = true → exec (.lioCtrClear t rd w) s = took pLIO (
        if w.getLsbD 0 then (s.tick t).onLio fun l => { l with lichens := nmapv l.lichens {} fun _ x => { x with bad := {} } } else s.tick t)) ∧
    (s.b.takes rd pMEA (wTok w) = true → exec (.meaCtrClear t rd w) s = took pMEA (
        if w.getLsbD 0 then (s.tick t).onMea fun m =>
          { m with enc := nmapv m.enc {} fun _ e => { e with lenMin := 0xFFF }
                   ain := nmapv m.ain {} fun _ x => { x with events := {} } }
        else s.tick t)) ∧
    (s.b.takes rd pAXS (wTok w) = true → exec (.axsCtrClear t rd w) s = took pAXS (
        if w.getLsbD 0 then (s.tick t).onAxs fun y =>
          { y with xdiffPeak := 0, axes := nmapv y.axes {} fun _ x => { x with cnt := {} } }
        else s.tick t)) ∧
    (s.b.takes rd pSEP (wTok w) = true → exec (.sepCtrClear t rd w) s = took pSEP (
        if w.getLsbD 0 then (s.tick t).onSep fun p =>
          { p with rebuildMaxA := 0, rebuildMaxB := 0, workMaxA := 0, workMaxB := 0
                   chains := nmapv p.chains {} fun _ x => { x with diffPeak := 0 }
                   sensors := nmapv p.sensors {} fun _ x => { x with refused := {} } }
        else s.tick t)) ∧
    (s.b.takes rd pKIN (wTok w) = true → exec (.kinCtrClear t rd w) s = took pKIN (
        if w.getLsbD 0 then (s.tick t).onSep fun p => { p with kinPeak := 0 } else s.tick t)) ∧
    (s.b.takes rd pFAB (wTok w) = true → exec (.fabCtrClear t rd ch w) s = took pFAB (
        (s.tick t).onFab fun f => f.onCh ch fun x => x.ctrClear w))

/-- Counter clears of the pages NET, SFR, AGR, CPR, CVU and HIF. NET_CTR_CLEAR (bit 0 the switch, bit 1 the ports),
SFR_CTR_CLEAR, AGR_CTR_CLEAR, CPR_CTR_CLEAR, CVU_CTR_CLEAR (on a unit that has not failed), HIF_CTR_CLEAR. -/
def Obligations.CounterClearsLinks : Prop :=
  ∀ (t : Nat) (rd : Reader) (w : Word) (k : Fin 4) (n : Fin 16) (s : State),
    let took := fun (page : Nat) (x : State) => (Host.Outcome.next (x.keeps rd page (wTok w) rDone) : Host.Outcome State Fault Refusal)
    (s.b.takes rd pNET (wTok w) = true → exec (.netCtrClear t rd w) s = took pNET (
        let s1 := if w.getLsbD 0 then (s.tick t).onNet fun n =>
            { n with drop := {}, stomp := {}, bufPeak := 0, qci := []
                     cb := nmapv n.cb {} fun _ c => { c with passed := {}, disc := {}, rogue := {} } }
          else s.tick t
        if w.getLsbD 1 then s1.onNet fun n =>
          { n with ports := nmapv n.ports {} fun _ x => { x with rx := {}, tx := {}, rxErr := {}, qdrop := [] } }
        else s1)) ∧
    (s.b.takes rd pSFR (wTok w) = true → exec (.sfrCtrClear t rd w) s = took pSFR (
        if w.getLsbD 0 then (s.tick t).onSfr fun r =>
          { r with unknown := {}
                   cons := nmapv r.cons {} fun _ c => { c with dup := {}, crc := {}, lost := {}, refused := {} } }
        else s.tick t)) ∧
    (s.b.takes rd pAGR (wTok w) = true → exec (.agrCtrClear t rd w) s = took pAGR (
        if w.getLsbD 0 then (s.tick t).onAgr fun a =>
          { a with injPass := {}, memPass := {}, pairs := nmapv a.pairs {} fun _ p => { p with lagPeakN := 0, lagPeakUs := 0 } }
        else s.tick t)) ∧
    (s.b.takes rd (pCPR k.val) (wTok w) = true → exec (.cprCtrClear t rd k w) s = took (pCPR k.val) (
        if w.getLsbD 0 then (s.tick t).onPair k.val fun p =>
          { p with a := { p.a with cacheErr := {} }, b := { p.b with cacheErr := {} } }
        else s.tick t)) ∧
    (s.b.takes rd (pCVU n.val) (wTok w) = true → (s.b.cvuOf n.val).failed = false → exec (.cvuCtrClear t rd n w) s = took (pCVU n.val) (
        if w.getLsbD 0 then (s.tick t).onCvu n.val fun c => { c with dup := {}, skip := {} } else s.tick t)) ∧
    (s.b.takes rd pHIF (wTok w) = true → exec (.hifCtrClear t rd w) s = took pHIF (
        if w.getLsbD 0 then (s.tick t).onHif fun h => { h with frames := {}, crcErr := {}, dup := {} } else s.tick t))

/-- Counter clears of the pages FCL, REC, BST and PWR. FCL_CTR_CLEAR (bit 0 the source counts, bit 1 suppressed and
corrected), REC_CTR_CLEAR, BST_CTR_CLEAR, PWR_CTR_CLEAR (bit 0 the pace lows, bit 1 the voltage and temperature
extremes). -/
def Obligations.CounterClearsKeeping : Prop :=
  ∀ (t : Nat) (rd : Reader) (w : Word) (ch : Ch) (s : State),
    let took := fun (page : Nat) (x : State) => (Host.Outcome.next (x.keeps rd page (wTok w) rDone) : Host.Outcome State Fault Refusal)
    (s.b.takes rd pFCL (wTok w) = true → exec (.fclCtrClear t rd w) s = took pFCL (
        (s.tick t).onFcl fun f =>
          let f1 := if w.getLsbD 0 then { f with a := { f.a with cnt := [] }, b := { f.b with cnt := [] } } else f
          if w.getLsbD 1 then { f1 with suppressed := {}, corrected := {} } else f1)) ∧
    (s.b.takes rd pREC (wTok w) = true → exec (.recCtrClear t rd w) s = took pREC (
        if w.getLsbD 0 then (s.tick t).onRecd fun r => { r with lost := {}, bufPeak := r.buffer.length } else s.tick t)) ∧
    (s.b.takes rd pBST (wTok w) = true → exec (.bstCtrClear t rd ch w) s = took pBST (
        if w.getLsbD 0 then (s.tick t).onSeqr ch fun q =>
          { q with passes := {}, aborts := {}, lost := {}, failKind := 0, failIndex := 0, failSig := 0, failCount := 0 }
        else s.tick t)) ∧
    (s.b.takes rd pPWR (wTok w) = true → exec (.pwrCtrClear t rd w) s = took pPWR (
        let s1 := if w.getLsbD 0 then (s.tick t).onPwr fun p =>
            { p with lows := nmapv p.lows 0 fun i _ => nget p.paces i 0 + 1 }
          else s.tick t
        if w.getLsbD 1 then s1.onPwr fun p =>
          { p with minA := if p.mvA = 0 then 0xFFFF else p.mvA, minB := if p.mvB = 0 then 0xFFFF else p.mvB
                   tempPeak := some (max p.tempA p.tempB) }
        else s1))

/-- TRU_OPTIME_LO_READ, TRU_CELL_NS_READ, CVU_STATE_LO_READ, CVU_RESULT_LO_READ (R31, R290). -/
def Obligations.WideReadsLatch : Prop :=
  ∀ (t : Nat) (rd : Reader) (n : Fin 16) (s : State),
    exec (.truOptimeLoRead t rd) s = .next ((s.tick t).onTru fun u =>
      { u with opHi := nset u.opHi rd.idx (hiW (s.tick t).b.optime) 0 }) ∧
    exec (.truCellNsRead t rd) s = .next ((s.tick t).onTru fun u =>
      { u with cellSecLo := nset u.cellSecLo rd.idx (loW (s.tick t).b.cellSec) 0
               cellSecHi := nset u.cellSecHi rd.idx (mkw ((s.tick t).b.cellSec / 2 ^ 32 % 65536)) 0 }) ∧
    exec (.cvuStateLoRead t rd n) s = .next ((s.tick t).onCvu n.val fun c =>
      { c with stateHi := nset c.stateHi rd.idx (wordOf c.state 1) 0 }) ∧
    exec (.cvuResultLoRead t rd n) s = .next ((s.tick t).onCvu n.val fun c =>
      { c with resultHi := nset c.resultHi rd.idx (wordOf (c.state ^^^ cvuXor c.poly) 1) 0 })

/-- PAGE_FLT_LATCH_CLEAR and FCL_CLEAR (R36, R37, R314): queued until a round closes. -/
def Obligations.ClearsQueue : Prop :=
  ∀ (t : Nat) (rd : Reader) (page off : Nat) (bv : Bool) (w : Word) (s : State),
    let queued := fun (p : Nat) (whole : Bool) =>
      if w.getLsbD 15 then
        ((s.tick t).onFcl fun f =>
          { f with clears := f.clears ++
                     [{ reader := rd.idx, page := p, whole := whole, source := fld w 8 0, all := w.getLsbD 14, token := wTok w }]
                   roundOpen := true }).keeps rd p (wTok w) rPending
      else (s.tick t).keeps rd p (wTok w) rBadArg
    let cleared := fun (i : Nat) (u : State) => ∀ t', ∃ v, exec (.roundClose t') u = .next v ∧ ∀ j, j < 512 →
      v.b.fcl.a.latch.getLsbD j = (if i = j then false else s.b.fcl.a.latch.getLsbD j) ∧
      v.b.fcl.b.latch.getLsbD j = (if i = j then false else s.b.fcl.b.latch.getLsbD j)
    let i := fld w 8 0
    let alone := s.b.fcl.arrivals = [] ∧ s.b.fcl.clears = [] ∧ w.getLsbD 15 = true ∧ w.getLsbD 14 = false ∧
      s.b.fcl.a.latch.getLsbD i = true ∧ s.b.fcl.a.live.getLsbD i = false
    (splitAddr page = some (page / 4096 * 4096, bv, off) → s.b.takes rd (page / 4096 * 4096) (wTok w) = true →
      mayClear rd = true →
      exec (.pageFltLatchClear t rd page w) s = .next (queued (page / 4096 * 4096) false) ∧
      (alone → owningPage i = page / 4096 * 4096 → cleared i (queued (page / 4096 * 4096) false))) ∧
    (splitAddr page = none → exec (.pageFltLatchClear t rd page w) s = .next (s.tick t)) ∧
    (s.b.takes rd pFCL (wTok w) = true →
      exec (.fclClear t rd w) s = .next (queued pFCL true) ∧ (alone → cleared i (queued pFCL true)))

/-- STAGE_COMMIT and STAGE_DISCARD (R42, R60). -/
def Obligations.StagingCommands : Prop :=
  ∀ (t : Nat) (rd : Reader) (tok : BitVec 16) (s : State),
    s.b.takes rd pSYS tok = true → (s.b.stagingOf rd.idx).pending = false →
    exec (.stageCommit t rd tok) s = .next (((s.tick t).onStaging rd.idx fun g =>
      { g with pending := true, issued := max s.b.now t, token := tok, committer := rd.idx }).keeps rd pSYS tok rPending) ∧
    exec (.stageDiscard t rd tok) s = .next (((s.tick t).onStaging rd.idx fun g =>
      { g with writes := [] }).keeps rd pSYS tok rDone)

/-- R61: while a commit waits, staged writes and commit commands are refused; a repeated commit is answered under R39.
-/
def Obligations.PendingRefusesStaging : Prop :=
  ∀ (t : Nat) (rd : Reader) (tok : BitVec 16) (page off : Nat) (bv : Bool) (addr : Nat) (w : Word) (s : State),
    (s.b.stagingOf rd.idx).pending = true →
    (splitAddr addr = some (page, bv, off) → addr % 4 = 0 → isRws (page + off) = true → s.b.reaches rd page = true →
      exec (.stagedWrite t rd addr 4 w) s = .next ((s.tick t).result rd page rRefused) ∧
      exec (.registerWrite t rd addr 4 w) s = .next ((s.tick t).result rd page rRefused)) ∧
    (s.b.takes rd pSYS tok = true →
      exec (.stageCommit t rd tok) s = .next ((s.tick t).keeps rd pSYS tok rRefused) ∧
      exec (.stageDiscard t rd tok) s = .next ((s.tick t).keeps rd pSYS tok rRefused)) ∧
    (s.b.reaches rd pSYS = true → tok ≠ 0 → tok = (s.b.tokenOf pSYS rd.idx).token →
      exec (.stageCommit t rd tok) s = .next ((s.tick t).onToken pSYS rd.idx fun e =>
        { e with last := e.kept, repeated := true, settles := false }))

/-- FREEZE, FREEZE_RELEASE, FREEZE_EXPIRED (R46, R63). -/
def Obligations.FreezeHoldsTheView : Prop :=
  ∀ (t : Nat) (rd : Reader) (tok : BitVec 16) (s : State),
    (s.b.takes rd pSYS tok = true →
      exec (.freeze t rd tok) s = .next (({ ((s.tick t).onFreeze rd.idx fun _ =>
          { frozen := true, since := max s.b.now t, expired := false }) with
        holds := nset s.holds rd.idx (s.viewOf rd.idx) none } : State).keeps rd pSYS tok rDone) ∧
      exec (.freezeRelease t rd tok) s = .next (({ ((s.tick t).onFreeze rd.idx fun f =>
          { f with frozen := false, since := 0 }) with holds := nset s.holds rd.idx none none } : State).keeps rd pSYS tok rDone)) ∧
    ((nget s.b.sys.freezes rd.idx {}).frozen = true →
      (nget s.b.sys.freezes rd.idx {}).since + 100000000 ≤ max s.b.now t →
      exec (.freezeExpired t rd) s = .next (({ ((s.tick t).onFreeze rd.idx fun _ =>
          { frozen := false, since := 0, expired := true }) with holds := nset s.holds rd.idx none none } : State).raise 7
        (mkw rd.idx)))

/-- EXPERT_UNLOCK and EXPERT_LOCK (R47). -/
def Obligations.ExpertUnlock : Prop :=
  ∀ (t : Nat) (rd : Reader) (tok : BitVec 16) (s : State), s.b.takes rd pSYS tok = true →
    let e := nget s.b.sys.experts rd.idx {}
    (∃ (u : State) (r : Nat), exec (.expertUnlock t rd tok) s = .next (u.keeps rd pSYS tok r) ∧ u.draws = s.draws + 1 ∧
      nget u.b.sys.experts rd.idx {} =
        { (if e.blockedSince.isSome then e
           else if s.b.proofOk rd then { e with unlocked := true, lastWrite := max s.b.now t, failures := 0 }
           else if e.failures + 1 ≥ 5 then { e with failures := 5, blockedSince := some (max s.b.now t) }
           else { e with failures := e.failures + 1 } : Expert) with nonce := some s.draws } ∧
      r = (if e.blockedSince.isSome then rRefused else if s.b.proofOk rd then rDone else rNotAuth) ∧
      u.b.fcl.arrivals.map (·.id) = s.b.fcl.arrivals.map (·.id) ++
        (if e.blockedSince.isSome || s.b.proofOk rd then [] else if e.failures + 1 ≥ 5 then [8, 9] else [8])) ∧
    exec (.expertLock t rd tok) s = .next (((s.tick t).onExpert rd.idx fun e =>
      { e with unlocked := false, lastWrite := 0 }).keeps rd pSYS tok rDone)

/-- EXPERT_IDLE_TIMEOUT and EXPERT_BLOCK_END (R47). -/
def Obligations.ExpertTimes : Prop :=
  ∀ (t t0 : Nat) (rd : Reader) (s : State),
    ((nget s.b.sys.experts rd.idx {}).unlocked = true →
      (nget s.b.sys.experts rd.idx {}).lastWrite + 600000000000 ≤ max s.b.now t →
      exec (.expertIdleTimeout t rd) s = .next ((s.tick t).onExpert rd.idx fun e =>
        { e with unlocked := false, lastWrite := 0 })) ∧
    ((nget s.b.sys.experts rd.idx {}).blockedSince = some t0 → t0 + 60000000000 ≤ max s.b.now t →
      exec (.expertBlockEnd t rd) s = .next ((s.tick t).onExpert rd.idx fun e =>
        { e with blockedSince := none, failures := 0 }))

/-- REGISTER_WRITE and STAGED_WRITE (R32, R38, R42, R461). -/
def Obligations.RegisterWrites : Prop :=
  ∀ (t : Nat) (rd : Reader) (page off addr width : Nat) (bv : Bool) (w m : Word) (s : State),
    splitAddr addr = some (page, bv, off) → s.b.reaches rd page = true →
    let both := fun (u : State) => exec (.registerWrite t rd addr width w) s = .next u ∧ exec (.stagedWrite t rd addr width w) s = .next u
    (width = 4 → addr % 4 = 0 → isRws (page + off) = true → (s.b.stagingOf rd.idx).pending = false →
      s.b.mayStage (aView addr) = true →
      (wordFits (rwsFields (aView addr)) w = false → both ((s.tick t).result rd page rBadArg)) ∧
      (wordFits (rwsFields (aView addr)) w = true →
        ((s.b.stagingOf rd.idx).writes.length < 1024 ∨ (∃ x ∈ (s.b.stagingOf rd.idx).writes, x.1 = addr) →
          both (((s.tick t).onStaging rd.idx fun g =>
            { g with writes := g.writes.filter (fun x => x.1 != addr) ++ [(addr, w)] }).result rd page rPending)) ∧
        (1024 ≤ (s.b.stagingOf rd.idx).writes.length → (∀ x ∈ (s.b.stagingOf rd.idx).writes, x.1 ≠ addr) →
          both ((s.tick t).result rd page rStagingFull)))) ∧
    (width = 4 → addr % 4 = 0 → bv = false → page = addr / 4096 * 4096 → off = addr % 4096 → isRws addr = false → 256 ≤ off →
      ownMask addr = some m →
      both (((s.tick t).on fun b => { b with sel := nset b.sel (addr * 16 + rd.idx) (w &&& m) 0 }).result rd page rDone)) ∧
    (width = 4 → addr % 4 = 0 → bv = false → page = addr / 4096 * 4096 → off = addr % 4096 → isRws addr = false → off < 256 →
      off ≠ 0x14 → both ((s.tick t).result rd page rReadOnly)) ∧
    (¬ (width = 4 ∧ addr % 4 = 0) → (∀ k, rd ≠ .pair k) → both ((s.tick t).result rd page rWidth))

/-- TRU_INJECT, FAB_INJECT, AGR_INJECT, BST_SUSPEND, BST_FORCE (R31, R38, R47, R118, R281, R356). -/
def Obligations.ExpertInjections : Prop :=
  ∀ (t : Nat) (rd : Reader) (ch : Ch) (w : Word) (s : State),
    let made := s.b.life = .manufacture
    let ends := fun (c : Instr) (page r : Nat) (same : State → Prop) => ∃ u, exec c s = .next u ∧ same u ∧
      (u.b.tokenOf page rd.idx).last = r ∧ (nget u.b.sys.experts rd.idx {}).lastWrite = max s.b.now t
    (s.b.unlocked rd = false →
      (s.b.reaches rd pTRU = true → exec (.truInject t rd w) s = .next ((s.tick t).result rd pTRU rNotAuth)) ∧
      (s.b.reaches rd pFAB = true → exec (.fabInject t rd ch w) s = .next ((s.tick t).result rd pFAB rNotAuth)) ∧
      (s.b.reaches rd pAGR = true → exec (.agrInject t rd w) s = .next ((s.tick t).result rd pAGR rNotAuth)) ∧
      (s.b.reaches rd pBST = true → exec (.bstSuspend t rd ch w) s = .next ((s.tick t).result rd pBST rNotAuth) ∧
        exec (.bstForce t rd ch w) s = .next ((s.tick t).result rd pBST rNotAuth))) ∧
    (s.b.unlocked rd = true →
      (s.b.reaches rd pTRU = true →
        (made → ends (.truInject t rd w) pTRU rDone fun u => u.b.tru =
          { s.b.tru with injectKind := BitVec.ofNat 2 (fld w 29 28), injectOff := BitVec.ofNat 20 (fld w 19 0) }) ∧
        (¬ made → ends (.truInject t rd w) pTRU rRefused fun u => u.b.tru = s.b.tru)) ∧
      (s.b.reaches rd pFAB = true →
        (made → fld w 31 30 = 0 ∨ fld w 31 30 = 1 ∧ isClause (fld w 14 0) = true →
          ends (.fabInject t rd ch w) pFAB rDone fun u => u.b.fab = s.b.fab.onCh ch fun x =>
            { x with injectKind := BitVec.ofNat 2 (fld w 31 30), injectIndex := fld w 14 0 }) ∧
        (made → fld w 31 30 > 1 ∨ fld w 31 30 = 1 ∧ isClause (fld w 14 0) = false →
          ends (.fabInject t rd ch w) pFAB rBadArg fun u => u.b.fab = s.b.fab) ∧
        (¬ made → ends (.fabInject t rd ch w) pFAB rRefused fun u => u.b.fab = s.b.fab)) ∧
      (s.b.reaches rd pAGR = true →
        (made → fld w 5 4 ≠ 3 → ends (.agrInject t rd w) pAGR rDone fun u => u.b.agr =
          { s.b.agr with injectPair := fld w 1 0, injectKind := fld w 5 4 }) ∧
        (made → fld w 5 4 = 3 → ends (.agrInject t rd w) pAGR rBadArg fun u => u.b.agr = s.b.agr) ∧
        (¬ made → ends (.agrInject t rd w) pAGR rRefused fun u => u.b.agr = s.b.agr)) ∧
      (s.b.reaches rd pBST = true →
        (made → ∀ c, c = .bstSuspend t rd ch w ∨ c = .bstForce t rd ch w → ends c pBST rDone fun u => u.b.bst =
          (s.onSeqr ch fun q => { q with suspend := w.getLsbD 15, force := w.getLsbD 14, forceIndex := fld w 13 0 }).b.bst) ∧
        (¬ made → ∀ c, c = .bstSuspend t rd ch w ∨ c = .bstForce t rd ch w → ends c pBST rRefused fun u =>
          u.b.bst = s.b.bst)))

/-- Which commands change the latches (R312, R314), the committed commands (R54, R66), the sentence number (R51), the
image and the settings in force (R38, R44, R421), and the life-cycle bits (R369). -/
def Obligations.OnlyTheseChange : Prop :=
  ∀ (c : Instr) (s u : State), exec c s = .next u →
    let resets := (∃ t, c = .chipResetReaction t) ∨ (∃ t ok, c = .lifeCycleReset t ok) ∨ (∃ t r mv, c = .railOutOfRange t r mv) ∨
      (∃ t, c = .powerOnResetEnd t) ∨ (∃ t, c = .supplyRecovery t) ∨ (∃ t n, c = .resetNAssert t n)
    let capture := ∃ t x, c = .capture t x
    let closes := (∃ t, c = .roundClose t) ∨ (∃ t, c = .sentenceDeadline t) ∨ (∃ t ch d, c = .evaluationComplete t ch d) ∨ capture
    let loads := (∃ t p, c = .configLoad t p) ∨ ∃ t, c = .configLoadComplete t
    (¬ closes → ¬ resets → u.b.fcl.a.latch = s.b.fcl.a.latch ∧ u.b.fcl.b.latch = s.b.fcl.b.latch) ∧
    (¬ closes → ¬ resets → ¬ loads → (∀ t b ok, c ≠ .blockResetComplete t b ok) → (∀ t ch f, c ≠ .sporeStep t ch f) →
      u.b.sog.committed = s.b.sog.committed ∧ u.b.sto.committed = s.b.sto.committed) ∧
    (¬ capture → ¬ resets → (∀ t, c ≠ .headSearchComplete t) → u.b.sys.sent = s.b.sys.sent) ∧
    (¬ capture → ¬ resets → ¬ loads → u.b.cfg.image = s.b.cfg.image ∧ u.b.cfg.rws = s.b.cfg.rws) ∧
    (¬ resets → (∀ t x, c ≠ .fiddlehead t x) → u.b.otp.latched = s.b.otp.latched)

/-- CAPTURE (R50, R51, R52). -/
def Obligations.CaptureTakesANumber : Prop :=
  ∀ (t : Nat) (x : CaptureIn) (s : State),
    ((s.b.running = true ∧ (s.b.sys.captured = false ∨ s.b.sys.lastCapture + s.b.sys.period ≤ max s.b.now t)) →
      ∃ u c, exec (.capture t x) s = .next u ∧ u.b.now = max s.b.now t ∧
        u.b.sys.sent = s.b.sys.nextNumber ∧ u.b.sys.nextNumber = nextSentence s.b.sys.nextNumber ∧
        nextSentence s.b.sys.nextNumber ≠ 0 ∧ nextSentence (2 ^ 48 - 1) = 1 ∧
        u.b.sys.lastCapture = (if s.b.sys.captured then s.b.sys.lastCapture + s.b.sys.period else max s.b.now t) ∧
        u.b.sys.captured = true ∧ u.b.sys.evaluating = true ∧
        u.b.sys.evalA = none ∧ u.b.sys.evalB = none ∧ u.b.sys.abandonedLast = false ∧ u.b.sys.intjIndex = none ∧
        u.cap = some c ∧ c.sys = u.b.sys ∧ c.lio = u.b.lio ∧ c.now = max s.b.now t) ∧
    (¬ (s.b.running = true ∧ (s.b.sys.captured = false ∨ s.b.sys.lastCapture + s.b.sys.period ≤ max s.b.now t)) →
      exec (.capture t x) s = .next (s.tick t))

/-- The safe-holding capture rule for boolean lichens (R52). -/
def Obligations.BooleanCaptureHoldsZero : Prop :=
  ∀ (l : Lio) (first : Bool) (i : Fin 48),
    ((l.capture first).captured.getLsbD i = ((nget l.lichens i {}).sig && (nget l.lichens i {}).sigB && (first || !(nget l.lichens i {}).zeroSince)))

/-- EVALUATION_COMPLETE (R53, R54, R57, R59, R66, R272, R304). -/
def Obligations.EvaluationCompletes : Prop :=
  ∀ (t : Nat) (ch : Ch) (dur : Nat) (s : State) (c : Blocks),
    s.cap = some c → s.b.sys.evaluating = true → s.b.sys.doomed = false → s.b.sys.evalOf ch = none → max s.b.now t < s.b.deadline →
    let x := (s.tick t).channelDone c ch dur
    let y := (x.overrunEnds.onAgr fun a => { a with sentOk := true }).releaseZones c.sys.lastCapture fun i =>
      (nget x.b.fab.a.fnNew i {}).out.one
    (max s.b.now t + 500 < s.b.deadline → x.commitStarts < s.b.deadline) ∧
    ((x.b.fab.channel ch).values = (c.evaluate ch s.b.sys.sent).values ∧ x.b.sys.evalOf ch = some dur ∧
      x.b.sog.committed = s.b.sog.committed ∧ x.b.sto.committed = s.b.sto.committed ∧ x.shown = s.shown) ∧
    (s.b.sys.evalOf ch.other = none → exec (.evaluationComplete t ch dur) s = .next x) ∧
    (s.b.sys.evalOf ch.other ≠ none → c.disagreement x.b.fab.a x.b.fab.b = none → s.b.deadline ≤ x.commitStarts →
      exec (.evaluationComplete t ch dur) s = .next x.overrunEnds.deadlinePassed) ∧
    (s.b.sys.evalOf ch.other ≠ none → c.disagreement x.b.fab.a x.b.fab.b = none → x.commitStarts < s.b.deadline →
      ∃ (u : State) (p : Snapshot), exec (.evaluationComplete t ch dur) s = .next u ∧
        u.shown = some p ∧ p.sent = s.b.sys.sent ∧ p.safe = false ∧ u.b.sys.evaluating = false ∧ u.b.sys.lastPublish = max s.b.now t ∧
        u.b.sog.committed = (if y.b.globalHold then 0 else c.commands x.b.fab.a.values c.img.bindSout &&& ~~~ y.b.sog.faultHold) ∧
        u.b.sto.committed = (if y.b.globalHold then 0 else c.commands x.b.fab.a.values c.img.bindSto &&& ~~~ y.b.sto.faultHold)) ∧
    (∀ w, s.b.sys.evalOf ch.other ≠ none → c.disagreement x.b.fab.a x.b.fab.b = some w →
      ∃ (z u : State) (p : Snapshot), exec (.evaluationComplete t ch dur) s = .next u ∧ u = z.abandon ∧
        z.b.agr.sentOk = false ∧ z.b.agr.mismatchWord = mkw w ∧ z.b.agr.mismatchSent = s.b.sys.sent ∧
        z.b.fcl.arrivals = x.overrunEnds.b.fcl.arrivals ++ [⟨448, true, mismatchDetail w s.b.sys.sent, none, 0, none⟩] ∧
        z.b.sog.committed = s.b.sog.committed ∧ z.b.sto.committed = s.b.sto.committed ∧
        u.shown = some p ∧ p.sent = s.b.sys.sent ∧ p.safe = true ∧ u.b.sys.evaluating = false ∧ u.b.sys.abandonedLast = true)

/-- SENTENCE_DEADLINE and EVALUATION_OVERRUN (R53, R56, R57). -/
def Obligations.LateSentence : Prop :=
  ∀ (t : Nat) (s : State), s.b.sys.evaluating = true →
    (s.b.sys.lastCapture + s.b.sys.period - 5000 ≤ max s.b.now t →
      ∃ (z u : State) (p : Snapshot), exec (.sentenceDeadline t) s = .next u ∧ u = z.abandon ∧
        (s.b.sys.doomed = true → z = s.tick t) ∧
        (s.b.sys.doomed = false → z = ((s.tick t).onSys fun y => { y with lateSeen := true }).cond 0 true (loW s.b.sys.sent) ∧
          z.b.fcl.cause.getLsbD 0 = true) ∧
        u.shown = some p ∧ p.sent = s.b.sys.sent ∧ p.safe = true ∧ u.b.sys.sent = s.b.sys.sent ∧ u.b.sys.evaluating = false ∧
        u.b.sys.abandonedLast = true ∧ u.b.agr.sentOk = false) ∧
    (max s.b.now t < s.b.sys.lastCapture + s.b.sys.period - 5000 → exec (.sentenceDeadline t) s = .next (s.tick t)) ∧
    ∀ ch, s.b.sys.doomed = false → s.b.sys.evalOf ch = none → s.b.sys.lastCapture + s.b.img.eBound ≤ max s.b.now t →
      ∃ u, exec (.evaluationOverrun t ch) s = .next u ∧ u.b.fcl.cause.getLsbD 1 = true ∧ u.b.sys.lateSeen = true ∧
        (∀ k, 1 < k → k < 512 → u.b.fcl.cause.getLsbD k = s.b.fcl.cause.getLsbD k) ∧
        (s.b.fcl.cause.getLsbD 1 = false →
          u.b.fcl.arrivals = s.b.fcl.arrivals ++ [⟨1, true, mkw (match ch with | .a => 0 | .b => 1), none, 0, none⟩])

/-- Agreement of the two diverse channels (R14, R54, R92): what R92 is for, over every image and every input. -/
def Obligations.ChannelsAgree : Prop :=
  ∀ (b : Blocks) (n : Nat), (b.clauseRules.all fun r => r.2) = true →
    b.fab.a.injectKind ≠ 1 → b.fab.b.injectKind ≠ 1 →
    b.fab.b.clauseSt = b.fab.a.clauseSt → b.fab.b.fnSt = b.fab.a.fnSt →
    (∀ k, nget (b.evaluate .b n).values k (NV.conj {}) = (nget (b.evaluate .a n).values k {}).conj) ∧
    (b.evaluate .b n).clauseNew = (b.evaluate .a n).clauseNew ∧ (b.evaluate .b n).fnNew = (b.evaluate .a n).fnNew ∧
    ∀ x y : FabCh, x.values = (b.evaluate .a n).values → x.fnNew = (b.evaluate .a n).fnNew →
      y.values = (b.evaluate .b n).values → y.fnNew = (b.evaluate .b n).fnNew → b.disagreement x y = none

/-- SAMPLING_INSTANT (R121 to R124, R132, R52). -/
def Obligations.SamplingInstant : Prop :=
  ∀ (t : Nat) (p : Pins) (s : State),
    (s.b.running = true → s.b.resetting .lio = false → s.b.resetting .tpg = false →
      ∃ u, exec (.samplingInstant t p) s = .next u ∧
        u.b.lio.pinsA = p.sinA ∧ u.b.lio.pinsB = p.sinB ∧ u.b.lio.missed = false ∧ u.b.tpg.pins = p.tpo ∧ u.b.tpg.on = s.b.tpg.on ∧
        u.b.tpg.fault = s.b.tpg.fault ||| (p.tpo ^^^ s.b.tpg.on) &&& s.b.tpg.differs ∧
        ∀ i : Fin 48,
          let l := s.b.lichen i
          let x := l.sample s.b i (p.sinA.getLsbD i) (p.sinB.getLsbD i)
          let v := u.b.lichen i
          (s.b.lioKind i ≠ 0 →
            v.a.out = x.a.out ∧ v.b.out = x.b.out ∧ v.lock = l.lock ∧ v.sig = (v.a.out && v.b.out && !l.lock && !p.missA.getLsbD i) ∧
            v.sigB = (v.a.out && v.b.out && !l.lock && !p.missB.getLsbD i) ∧
            v.discA = (if p.missA.getLsbD i then l.discA else if v.a.out = v.b.out then 0 else l.discA + 1) ∧
            v.discB = (if p.missB.getLsbD i then l.discB else if v.a.out = v.b.out then 0 else l.discB + 1) ∧
            v.zeroSince = (l.zeroSince || !v.sig || !v.sigB)) ∧
          (s.b.lioKind i = 0 → v.sig = l.sig ∧ v.zeroSince = l.zeroSince)) ∧
    (s.b.running = false → exec (.samplingInstant t p) s = .next (forL p.found State.finding (s.tick t)))

/-- LICHEN_EXCHANGE_MISSED, DISCREPANCY_TIMEOUT, TEST_PULSE_START, TEST_PULSE_END, MASK_WINDOW_END (R123, R124, R126,
R127, R130). -/
def Obligations.TerminalEvents : Prop :=
  ∀ (t : Nat) (s : State),
    (∀ (i : Fin 48), s.b.running = true → s.b.resetting .lio = false → s.b.lioKind i ≠ 0 →
      (∀ ch, ∃ (z u : State), exec (.lichenExchangeMissed t ch i) s = .next u ∧ u = z.signalsMoved (s.tick t).b ∧
        (u.b.lichen i).zeroSince = true ∧
        (match ch with
         | .a => (u.b.lichen i).sig = false ∧ (u.b.lichen i).sigB = (s.b.lichen i).sigB ∧ (u.b.lichen i).discA = (s.b.lichen i).prevA
         | .b => (u.b.lichen i).sigB = false ∧ (u.b.lichen i).sig = (s.b.lichen i).sig ∧ (u.b.lichen i).discB = (s.b.lichen i).prevB) ∧
        z.b.lio.missed = true ∧ z.b.fcl.cause.getLsbD 149 = true) ∧
      ((s.b.lichen i).lock = false → s.b.discSamples i ≤ max (s.b.lichen i).discA (s.b.lichen i).discB →
        0 < max (s.b.lichen i).discA (s.b.lichen i).discB →
        ∃ (z u : State), exec (.discrepancyTimeout t i) s = .next u ∧ u = z.signalsMoved (s.tick t).b ∧
          (u.b.lichen i).sig = false ∧ (u.b.lichen i).sigB = false ∧ (u.b.lichen i).lock = true ∧ z.b.fcl.cause.getLsbD 144 = true)) ∧
    (∀ (k : Fin 16), s.b.pulsing = true →
      (s.b.tpoEnabled.getLsbD k = true →
        (∃ u, exec (.testPulseStart t k) s = .next u ∧
          u.b.tpg = { s.b.tpg with on := setb s.b.tpg.on k.val false, window := some k.val, pulseAt := max s.b.now t,
                                   periodAt := some ((s.tick t).b.periodStart k) } ∧ u.b.sog = s.b.sog ∧ u.b.sto = s.b.sto ∧
          ((s.tick t).b.inSlot k false = false →
            u.b.fcl.arrivals.getLast? = some ⟨if k.val < 8 then 210 else 211, true, mkw k, none, 0, none⟩)) ∧
        (s.b.tpg.on.getLsbD k = false → s.b.tpg.pulseAt + s.b.tpoWidth k ≤ max s.b.now t →
          exec (.testPulseEnd t k) s = .next (((s.tick t).slotCheck k true).onTpg fun g => { g with on := setb g.on k.val true })) ∧
        (max s.b.now t < s.b.tpg.pulseAt + s.b.tpoWidth k → exec (.testPulseEnd t k) s = .next (s.tick t))) ∧
      (s.b.tpg.window = some k.val → s.b.tpg.pulseAt + s.b.tpoWidth k + s.b.tpgSettle ≤ max s.b.now t →
        ∃ u, exec (.maskWindowEnd t k) s = .next u ∧ u.b.tpg = { s.b.tpg with window := none } ∧ u.b.sog = s.b.sog ∧ u.b.sto = s.b.sto))

/-- READBACK_TIMEOUT, STO_FEEDBACK_TIMEOUT, DARK_TEST_START, DARK_PULSE_END (R134 to R137). -/
def Obligations.ReadbackDifferences : Prop :=
  ∀ (t : Nat) (ch : Ch) (k : Fin 16) (s : State), s.b.running = true →
    (s.b.resetting .sog = false → (s.b.sog.stage ch).overdue k (max s.b.now t) (s.b.tRb k) = true →
      ∃ u, exec (.readbackTimeout t ch k) s = .next u ∧ (u.b.sog.stage ch).diff = setb (s.b.sog.stage ch).diff k true ∧
        u.b.sog.lockDue = s.b.sog.lockDue ++ [(match ch with | .a => 224 | .b => 225, k.val)] ∧
        u.b.sog.committed = s.b.sog.committed ∧
        ((setb (s.b.sog.stage ch).diff k true) ≠ 0 → u.b.fcl.cause.getLsbD (match ch with | .a => 224 | .b => 225) = true)) ∧
    (s.b.resetting .sto = false → (s.b.sto.stage ch).overdue k (max s.b.now t) (s.b.tStf k) = true →
      ∃ u, exec (.stoFeedbackTimeout t ch k) s = .next u ∧ (u.b.sto.stage ch).diff = setb (s.b.sto.stage ch).diff k true ∧
        u.b.sto.lockDue = s.b.sto.lockDue ++ [(match ch with | .a => 256 | .b => 257, k.val)] ∧
        u.b.sto.committed = s.b.sto.committed ∧
        ((setb (s.b.sto.stage ch).diff k true) ≠ 0 → u.b.fcl.cause.getLsbD (match ch with | .a => 256 | .b => 257) = true)) ∧
    ((s.tick t).b.darkMay k = true →
      exec (.darkTestStart t k) s = .next ((s.tick t).onSog fun o =>
        { o with dark := nupd o.dark k.val {} fun d => { d with active := some d.next, start := max s.b.now t, seenZero := none } })) ∧
    ((s.tick t).b.darkOver k = true → (nget s.b.sog.dark k.val {}).active = some ch →
      ∃ u, exec (.darkPulseEnd t k) s = .next u ∧ (nget u.b.sog.dark k.val {}).active = none ∧ (nget u.b.sog.dark k.val {}).next = ch.other ∧
        u.b.sog.committed = s.b.sog.committed ∧
        (∀ j : Fin 16, j ≠ k → nget u.b.sog.dark j.val {} = nget s.b.sog.dark j.val {}) ∧
        ((nget s.b.sog.dark k.val {}).seenZero.isSome = true →
          (nget u.b.sog.dark k.val {}).misses ch = 0 ∧ u.b.sog.lockDue = s.b.sog.lockDue ∧ u.b.fcl = s.b.fcl) ∧
        ((nget s.b.sog.dark k.val {}).seenZero = none → 1 ≤ (nget s.b.sog.dark k.val {}).misses ch →
          u.b.sog.lockDue = s.b.sog.lockDue ++ [(match ch with | .a => 226 | .b => 227, k.val)] ∧
          u.b.fcl.arrivals = s.b.fcl.arrivals ++ [⟨match ch with | .a => 226 | .b => 227, true, mkw k, some (s.b.soutZoneOf k), 0, none⟩]) ∧
        ((nget s.b.sog.dark k.val {}).seenZero = none → (nget s.b.sog.dark k.val {}).misses ch = 0 →
          (nget u.b.sog.dark k.val {}).misses ch = 1 ∧ u.b.sog.lockDue = s.b.sog.lockDue ∧ u.b.fcl = s.b.fcl))

/-- ENCODER_SAMPLE, QUADRANT_COUNTER_TRANSITION, AXIS_EXCHANGE_MISSED, ANALOGUE_SAMPLE, ANALOGUE_DISCREPANCY_TIMEOUT
(R152 to R154, R159, R166, R167). -/
def Obligations.MotionSamples : Prop :=
  ∀ (t : Nat) (s : State), s.b.running = true →
    (∀ (a : Fin 16) (sin cos : BitVec 20), s.b.encOn a = true → s.b.resetting .mea = false →
      let e := (s.b.enc a).primed sin cos
      ∃ u, exec (.encoderSample t a sin cos) s = .next u ∧
        (u.b.enc a).sin = sin ∧ (u.b.enc a).cos = cos ∧ (u.b.enc a).len = vectorLen sin cos ∧
        (u.b.enc a).lenMin = min (s.b.enc a).lenMin (vectorLen sin cos) ∧ (u.b.enc a).quads = e.quads ∧
        (∀ n, e.combine sin cos = some n → (u.b.enc a).count = n ∧ (u.b.enc a).oppRun = 0) ∧
        (e.combine sin cos = none → (u.b.enc a).count = (s.b.enc a).count ∧ (u.b.enc a).oppRun = min ((s.b.enc a).oppRun + 1) 2) ∧
        ((u.b.enc a).vecRun ≥ 2 → (u.b.enc a).failedBy.contains 288 = true) ∧
        ((u.b.enc a).oppRun ≥ 2 → (u.b.enc a).failedBy.contains 289 = true) ∧
        (fullScale sin = true ∨ fullScale cos = true → (u.b.enc a).failedBy.contains 291 = true) ∧
        ∀ c, c ≠ a.val → u.b.enc c = s.b.enc c) ∧
    (∀ (a : Fin 16) (sinHigh cosHigh : Bool), s.b.encOn a = true → s.b.resetting .mea = false →
      let d := (compQuadrant sinHigh cosHigh + 4 - ((s.b.enc a).quads.toInt % 4).toNat) % 4
      ∃ u, exec (.quadrantCounterTransition t a sinHigh cosHigh) s = .next u ∧
        (d = 1 → (u.b.enc a).quads = (s.b.enc a).quads + 1) ∧ (d = 3 → (u.b.enc a).quads = (s.b.enc a).quads - 1) ∧
        (d = 0 ∨ d = 2 → (u.b.enc a).quads = (s.b.enc a).quads) ∧ (u.b.enc a).count = (s.b.enc a).count) ∧
    (∀ (ch : Ch) (a : Fin 16), s.b.axEn a = true → s.b.resetting .axs = false →
      ∃ u, exec (.axisExchangeMissed t ch a) s = .next u ∧
        u.b.axis a = (match ch with
          | .a => { s.b.axis a with missA := true, failed := if (s.b.axis a).failed.contains 346 then (s.b.axis a).failed else 346 :: (s.b.axis a).failed }
          | .b => { s.b.axis a with missB := true, failed := if (s.b.axis a).failed.contains 346 then (s.b.axis a).failed else 346 :: (s.b.axis a).failed }) ∧
        u.b.fcl.arrivals = s.b.fcl.arrivals ++ [⟨346, true, axWord a 0, some (s.b.axZone a), 0, none⟩]) ∧
    (∀ (j : Fin 8) (ra rb : BitVec 20), 0 < s.b.ainN j → s.b.resetting .mea = false →
      ∃ u, exec (.analogueSample t j ra rb) s = .next u ∧ (u.b.ain j).rawA = ra ∧ (u.b.ain j).rawB = rb ∧
        (u.b.ain j).winA = (ra.toInt :: (s.b.ain j).winA).take (s.b.ainN j) ∧
        (u.b.ain j).winB = (rb.toInt :: (s.b.ain j).winB).take (s.b.ainN j) ∧
        (fullScale ra = true ∨ fullScale rb = true → (u.b.ain j).failed.contains 294 = true)) ∧
    (∀ (j : Fin 8) (t0 : Nat), (s.b.ain j).diffAt = some t0 → t0 + fld (s.b.ainSet j 0x10) 13 0 * 1000000 ≤ max s.b.now t →
      s.b.resetting .mea = false → (s.b.ain j).failed.contains 293 = false →
      ∃ u, exec (.analogueDiscrepancyTimeout t j) s = .next u ∧ (u.b.ain j).failed = 293 :: (s.b.ain j).failed ∧
        u.b.fcl.arrivals = s.b.fcl.arrivals ++ [⟨293, true, mkw j, none, 0, none⟩])

/-- PERIODIC_UPDATE (R159 to R162, R165). -/
def Obligations.AxesAfterUpdate : Prop :=
  ∀ (t : Nat) (s : State),
    (s.b.running = true → s.b.resetting .axs = false →
      ∃ u, exec (.periodicUpdate t) s = .next u ∧ ∀ a : Fin 16,
        let x := u.b.axis a
        (s.b.axEn a = true →
          x.missA = false ∧ x.missB = false ∧
          (x.agreed = true → x.pa.isSome = true ∧ x.pb.isSome = true) ∧
          (x.known = true → x.pa.isSome = true ∧ x.pb.isSome = true ∧ x.va.isSome = true ∧ x.vb.isSome = true) ∧
          (x.refd = true → x.pb.isSome = true) ∧
          ((s.b.axis a).missA = true → x.pa = none) ∧ ((s.b.axis a).missB = true → x.pb = none)) ∧
        (s.b.axEn a = false → x = s.b.axis a)) ∧
    (s.b.running = false ∨ s.b.resetting .axs = true → exec (.periodicUpdate t) s = .next (s.tick t))

/-- SENSOR_STALE, REBUILD_START, REBUILD_COMPLETE, REBUILD_OVERRUN, SEPARATION_UPDATE_COMPLETE,
SEPARATION_EXCHANGE_MISSED, SEPARATION_UPDATE_OVERRUN (R188 to R190, R199, R201, R202, R205). -/
def Obligations.SeparationEvents : Prop :=
  ∀ (t : Nat) (s : State) (g : Grid), s.b.sepOn = true → s.b.grid = some g →
    (∀ i, ∃ u, exec (.sensorStale t i) s = .next u ∧ u.b.fcl.cause.getLsbD 354 = !(s.tick t).b.sensorsBad.isEmpty) ∧
    (s.b.sep.builtA = true → s.b.sep.builtB = true → s.b.sep.fresh = true →
      ∃ u z, exec (.rebuildStart t) s = .next u ∧ u.b.sep.gen = s.b.sep.gen + 1 ∧ u.b.sep.building = some z ∧ z.gen = s.b.sep.gen + 1 ∧
        u.b.sep.builtA = false ∧ u.b.sep.builtB = false ∧ u.b.sep.fresh = false ∧ u.b.sep.buildStart = max s.b.now t ∧
        u.b.sep.inUse = s.b.sep.inUse ∧ z.sensors = s.b.sensorsOn.filter (s.tick t).b.sensorHealthy) ∧
    (∀ ch z, s.b.sep.building = some z → (match ch with | .a => s.b.sep.builtA | .b => s.b.sep.builtB) = false →
      ∃ u, exec (.rebuildComplete t ch) s = .next u ∧ (match ch with | .a => u.b.sep.builtA | .b => u.b.sep.builtB) = true ∧
        ((match ch with | .a => s.b.sep.builtB | .b => s.b.sep.builtA) = true → u.b.sep.inUse = some z ∧ u.b.sep.building = none) ∧
        ((match ch with | .a => s.b.sep.builtB | .b => s.b.sep.builtA) = false → u.b.sep.inUse = s.b.sep.inUse ∧ u.b.sep.building = some z) ∧
        (s.b.sep.buildStart + 1900000 ≤ max s.b.now t →
          exec (.rebuildOverrun t ch) s = .next ((s.tick t).raise (match ch with | .a => 356 | .b => 357) (s.tick t).b.firstChain))) ∧
    (∀ ch (c : Fin 4), s.b.chainEn c = true → s.b.sep.update = none → s.b.sep.redo.isSome = true →
      ∃ z, exec (.separationExchangeMissed t ch c) s = .next (z.raise 360 (mkw c) (some ((s.tick t).b.chainZone c))) ∧
        z = (s.tick t).sepRedo g ch c) ∧
    (∀ ch v, s.b.sep.update = some v →
      (∀ c : Fin 4, s.b.chainEn c = true → ∃ u w, exec (.separationExchangeMissed t ch c) s = .next u ∧ u.b.sep.update = some w ∧
        (match ch with | .a => w.missA = c.val :: v.missA | .b => w.missB = c.val :: v.missB) ∧
        u.b.fcl.arrivals = s.b.fcl.arrivals ++ [⟨360, true, mkw c, some (s.b.chainZone c), 0, none⟩]) ∧
      (v.start + s.b.tsNs ≤ max s.b.now t → (match ch with | .a => v.doneA || v.lateA | .b => v.doneB || v.lateB) = false →
        ∃ u w, exec (.separationUpdateOverrun t ch) s = .next u ∧ u.b.sep.update = some w ∧
          (match ch with | .a => w.lateA | .b => w.lateB) = true ∧
          u.b.fcl.arrivals = s.b.fcl.arrivals ++ [⟨match ch with | .a => 358 | .b => 359, true, s.b.firstChain, none, 0, none⟩]) ∧
      ((match ch with | .a => v.doneA || v.lateA | .b => v.doneB || v.lateB) = false →
        ((match ch with | .a => v.doneB | .b => v.doneA) = false →
          ∃ u w, exec (.separationUpdateComplete t ch) s = .next u ∧ u.b.sep.update = some w ∧
            (match ch with | .a => w.doneA | .b => w.doneB) = true ∧ u.b.sep.chains = s.b.sep.chains) ∧
        ((match ch with | .a => v.doneB | .b => v.doneA) = true →
          ∃ u, exec (.separationUpdateComplete t ch) s = .next u ∧ u.b.sep.update = none ∧
            (∀ c : Fin 4, s.b.chainEn c = true → (u.b.chain c).ready = false →
              (∀ w < 5, (u.b.chain c).word w = { val := sepSafe w, ok := false }) ∧
              ((s.b.sepFn c).isSome = true → (u.b.chain c).state = 1)) ∧
            (∀ c : Fin 4, s.b.chainEn c = false → u.b.chain c = s.b.chain c))))

/-- FRAME_RECEIVE, ARP_REQUEST, NEIGHBOUR_SOLICITATION, ICMP_ECHO_REQUEST (R212, R213). -/
def Obligations.FramesStayInTheirVlan : Prop :=
  (∀ (t : Nat) (p : Fin 7) (f : EthFrame) (s : State), s.b.netOn = true → s.b.portUp p = true →
    (badFrame f = true → p.val < 6 → exec (.frameReceive t p f) s =
      .next (((s.tick t).onPort p.val fun x => { x with rx := x.rx.inc }).onPort p.val fun x => { x with rxErr := x.rxErr.inc })) ∧
    (badFrame f = false →
      ∃ u, exec (.frameReceive t p f) s = .next u ∧ ∀ x ∈ u.b.net.sentOut, x ∈ s.b.net.sentOut ∨
        x.1 ≠ p.val ∧ x.1 ∈ s.b.membersOf (s.b.vlanOf p f) ∧ s.b.portUp x.1 = true ∧ x.2.dst = f.dst ∧ x.2.src = f.src ∧
          x.2.payload = f.payload ∧ x.2.etype = f.etype ∧ x.2.vlan = some (s.b.vlanOf p f))) ∧
  (∀ (t : Nat) (sender target : BitVec 32) (mac : BitVec 48) (data : List Byte) (s : State), s.b.running = true →
    (∀ y : BitVec 128, exec (.icmpEchoRequest t (.v4 sender) (.v6 y) data) s = .next (s.tick t) ∧
      exec (.icmpEchoRequest t (.v6 y) (.v4 target) data) s = .next (s.tick t)) ∧
    (target = s.b.netCfg.ipv4 →
      (∃ u, exec (.arpRequest t sender mac target) s = .next u ∧ ∀ x ∈ u.b.net.sentOut, x ∈ s.b.net.sentOut ∨
        x.1 ≠ 6 ∧ x.2.dst = mac ∧ x.2.src = s.b.baseMac ∧ x.2.etype = 0x0806 ∧
          x.2.payload = [0, 1, 8, 0, 6, 4, 0, 2] ++ beBytes s.b.baseMac.toNat 6 ++ beBytes target.toNat 4 ++ beBytes mac.toNat 6 ++ beBytes sender.toNat 4) ∧
      (∃ u, exec (.icmpEchoRequest t (.v4 sender) (.v4 target) data) s = .next u ∧ ∀ x ∈ u.b.net.sentOut, x ∈ s.b.net.sentOut ∨
        x.1 ≠ 6 ∧ x.2.src = s.b.baseMac ∧ x.2.etype = 0x0800 ∧ x.2.payload = icmp4 target sender [0, 0] data)) ∧
    (target ≠ s.b.netCfg.ipv4 →
      exec (.arpRequest t sender mac target) s = .next (s.tick t) ∧
      exec (.icmpEchoRequest t (.v4 sender) (.v4 target) data) s = .next (s.tick t))) ∧
  (∀ (t : Nat) (sender target : BitVec 128) (mac : BitVec 48) (data : List Byte) (s : State), s.b.running = true →
    (target = s.b.netCfg.ipv6 →
      (∃ u, exec (.neighbourSolicitation t sender mac target) s = .next u ∧ ∀ x ∈ u.b.net.sentOut, x ∈ s.b.net.sentOut ∨
        x.1 ≠ 6 ∧ x.2.dst = mac ∧ x.2.src = s.b.baseMac ∧ x.2.etype = 0x86DD) ∧
      (∃ u, exec (.icmpEchoRequest t (.v6 sender) (.v6 target) data) s = .next u ∧ ∀ x ∈ u.b.net.sentOut, x ∈ s.b.net.sentOut ∨
        x.1 ≠ 6 ∧ x.2.src = s.b.baseMac ∧ x.2.etype = 0x86DD ∧ x.2.payload = icmp6 target sender [129, 0] data)) ∧
    (target ≠ s.b.netCfg.ipv6 →
      exec (.neighbourSolicitation t sender mac target) s = .next (s.tick t) ∧
      exec (.icmpEchoRequest t (.v6 sender) (.v6 target) data) s = .next (s.tick t)))

/-- LINK_UP, LINK_DOWN, FDB_AGEING, GATE_ENTRY_CHANGE, STREAM_GATE_CHANGE, CB_RESET_TIMEOUT, LANE_ERROR_RATE_HIGH
(R213, R216, R218, R219, R229). -/
def Obligations.LinksAndGates : Prop :=
  ∀ (t : Nat) (s : State),
    let now := max s.b.now t
    let cell := (s.tick t).b.cellNs
    let moves := fun (l : GateList) (g h : GateSt) =>
      (s.b.tsy.cellValid = false ∨ l.entries = [] → h = { g with running := false, hold := false, entry := 0 }) ∧
      (s.b.tsy.cellValid = true → l.entries ≠ [] →
        (∀ a o, gateAt l cell = some (a, o) → g.running = true ∧ g.hold = false ∨ g.since ≤ a →
          h = { g with running := true, hold := false, entry := gateEntryAt l.entries o 0 }) ∧
        (¬ (g.running = true ∧ g.hold = false) → (∀ a o, gateAt l cell = some (a, o) → a < g.since) → h = g))
    (∀ (p : Fin 6) (rate : Nat) (fec : Bool),
      (s.b.portEn p = true → s.b.rateFits p rate = true → ∃ u, exec (.linkUp t p rate fec) s = .next u ∧
        (u.b.port p).up = true ∧ (u.b.port p).rateNow = rate ∧ (u.b.port p).fecOn = s.b.fecFor p rate fec ∧
        (∀ x ∈ (s.b.port p).queued, x ∈ (u.b.port p).queued ∨ (p.val, x.2) ∈ u.b.net.sentOut) ∧
        ∀ q, q ≠ p.val → u.b.port q = s.b.port q) ∧
      (s.b.portEn p = false ∨ s.b.rateFits p rate = false → exec (.linkUp t p rate fec) s = .next (s.tick t)) ∧
      ∃ u, exec (.linkDown t p) s = .next u ∧
        u.b.port p = { s.b.port p with up := false, rateNow := 0, fecOn := false, asCapable := false, heard := none } ∧
        (∀ q, q ≠ p.val → u.b.port q = s.b.port q) ∧
        (s.b.portEn p = true → u.b.fcl.arrivals.getLast? = some ⟨384 + p.val, true, mkw p, none, 0, none⟩) ∧
        (s.b.running = false ∨ s.b.tsyRole ≠ 1 → u.b.tsy = s.b.tsy ∧ (s.b.portEn p = false → u.b.fcl = s.b.fcl))) ∧
    (∀ (v : Nat) (mac : BitVec 48), ∃ u, exec (.fdbAgeing t v mac) s = .next u ∧ ∀ e, e ∈ u.b.net.fdb ↔ e ∈ s.b.net.fdb ∧
      ¬ (e.vlan = v ∧ e.mac = mac ∧ e.at_ + s.b.netCfg.ageingS * 1000000000 ≤ now)) ∧
    (∀ p : Fin 6, s.b.netOn = true → ∃ u, exec (.gateEntryChange t p) s = .next u ∧
      moves (nget s.b.netCfg.gcl p {}) (s.b.port p).gate (u.b.port p).gate ∧
      (∀ x ∈ (u.b.port p).queued, x ∈ (s.b.port p).queued) ∧
      (∀ x ∈ (s.b.port p).queued, x ∈ (u.b.port p).queued ∨ (p.val, x.2) ∈ u.b.net.sentOut) ∧
      (∀ x ∈ u.b.net.sentOut, x ∈ s.b.net.sentOut ∨ x.1 = p.val ∧ ∃ k, (k, x.2) ∈ (s.b.port p).queued) ∧
      ∀ q, q ≠ p.val → u.b.port q = s.b.port q) ∧
    (∀ g : Fin 64, s.b.netOn = true → ∃ u, exec (.streamGateChange t g) s = .next u ∧
      moves (nget s.b.netCfg.streamGates g {}) (nget s.b.net.gates g {}) (nget u.b.net.gates g {}) ∧
      ∀ q, q ≠ g.val → nget u.b.net.gates q {} = nget s.b.net.gates q {}) ∧
    (∀ (k : Fin 256) (m o : Nat), s.b.netOn = true →
      let c := nget s.b.netCfg.cb k {}
      let at_ := fun i => nget (nget s.b.net.cb k {}).memberAt i 0
      c.recover = true → m ∈ c.members → o ∈ c.members → at_ m + c.resetMs * 1000000 ≤ now → now < at_ o + c.resetMs * 1000000 →
      exec (.cbResetTimeout t k m) s = .next ((s.tick t).raise 394 (mkw k))) ∧
    (∀ p : Fin 6, exec (.laneErrorRateHigh t p) s = .next ((s.tick t).raise 397 (mkw p)))

/-- On any operand words: AND is 1 if every operand is 1, OR if any is, VOTE if at least two of three are, each valid;
NOT is 1 if its operand is valid and 0, with the operand's valid bit, so NOT of an invalid word is 0; MIN and MAX give
the least and the greatest operand; ADD, SUB and MSH saturate to the format, MSH rounding toward minus infinity; these
five are valid where every operand is; SEL gives operand 1 + k for a valid selector 0 <= k < count and operand 1
otherwise, with that operand's valid bit. None keeps state. A word is a boolean 1 only when it is valid and exactly 1.
-/
def Obligations.CombinationalOperators : Prop :=
  ∀ (p n ts : Nat) (st : ClauseSt) (a : List NV) (x y z : NV),
    let sat := fun i : Int => max (-524288) (min 524287 i)
    let out := fun op (l : List NV) => (evalOp op p (l.map some) n ts st).1
    (∀ op, op ∈ [0x01, 0x02, 0x03, 0x04, 0x0C, 0x0D, 0x0E, 0x0F, 0x10, 0x11] → ∀ l, (evalOp op p l n ts st).2 = st) ∧
    (x.one = true ↔ x.ok = true ∧ x.val = 1) ∧
    ((out 0x01 a).ok = true ∧ ((out 0x01 a).val = 0 ∨ (out 0x01 a).val = 1) ∧ ((out 0x01 a).val = 1 ↔ ∀ v ∈ a, v.one = true)) ∧
    ((out 0x02 a).ok = true ∧ ((out 0x02 a).val = 0 ∨ (out 0x02 a).val = 1) ∧ ((out 0x02 a).val = 1 ↔ ∃ v ∈ a, v.one = true)) ∧
    ((out 0x03 [x, y, z]).ok = true ∧ ((out 0x03 [x, y, z]).val = 0 ∨ (out 0x03 [x, y, z]).val = 1) ∧
      ((out 0x03 [x, y, z]).val = 1 ↔
        x.one = true ∧ y.one = true ∨ x.one = true ∧ z.one = true ∨ y.one = true ∧ z.one = true)) ∧
    ((out 0x04 [x]).ok = x.ok ∧ ((out 0x04 [x]).val = 0 ∨ (out 0x04 [x]).val = 1) ∧
      ((out 0x04 [x]).val = 1 ↔ x.ok = true ∧ x.val = 0)) ∧
    (a ≠ [] →
      ((∃ v ∈ a, (out 0x0C a).int = v.int) ∧ (∀ v ∈ a, (out 0x0C a).int ≤ v.int) ∧
        ((out 0x0C a).ok = true ↔ ∀ v ∈ a, v.ok = true)) ∧
      ((∃ v ∈ a, (out 0x0D a).int = v.int) ∧ (∀ v ∈ a, v.int ≤ (out 0x0D a).int) ∧
        ((out 0x0D a).ok = true ↔ ∀ v ∈ a, v.ok = true))) ∧
    ((out 0x0E [x, y]).int = sat (x.int + y.int) ∧ (out 0x0E [x, y]).ok = (x.ok && y.ok)) ∧
    ((out 0x0F [x, y]).int = sat (x.int - y.int) ∧ (out 0x0F [x, y]).ok = (x.ok && y.ok)) ∧
    ((∀ m : Int, m * 2 ^ (p % 32) ≤ x.int * y.int → x.int * y.int < (m + 1) * 2 ^ (p % 32) →
        (out 0x10 [x, y]).int = sat m) ∧ (out 0x10 [x, y]).ok = (x.ok && y.ok)) ∧
    ((∀ k : Nat, x.ok = true → x.int = k → k < p % 8 → ∀ v, a[k]? = some v → out 0x11 (x :: a) = v) ∧
      (¬ (x.ok = true ∧ 0 ≤ x.int ∧ x.int < (p % 8 : Nat)) → out 0x11 (x :: y :: a) = y))

/-- An interjection never drives a target toward its non-safe value: for each channel, an output pin is the committed
value and not hold and not lock and not dark, an STO pin the same without a dark term, where the holds of the fault
reactions, of a dry image, of a load, of power-down and of a block reset are holds as well. A dark bit of a channel is
set only for an output whose active dark pulse is that channel's. In every phase before the image runs, and while
power-on reset or chip reset is under way, no output or STO pin is 1. -/
def Obligations.PinsFollowCommittedValues : Prop :=
  ∀ (b : Blocks) (c : Ch) (k : Fin 16),
    ((b.pinSout c).getLsbD k = true ↔
      b.sog.committed.getLsbD k = true ∧
      ((b.sog.stage c).hold.getLsbD k = false ∧ b.sog.faultHold.getLsbD k = false ∧ b.running = true ∧ b.haltNow = false ∧
        b.cfg.dry = false ∧ b.cfg.loading = none ∧ b.pwr.powerDown = false ∧ b.resetting .fab = false ∧ b.resetting .sog = false) ∧
      (b.sog.unlocking.getLsbD k = false ∧ ∀ l ∈ b.sog.lockBy, l.2.getLsbD k = false) ∧
      ∀ d ∈ b.sog.dark, d.1 = k.val → d.2.active ≠ some c) ∧
    ((b.pinSto c).getLsbD k = true ↔
      b.sto.committed.getLsbD k = true ∧
      ((b.sto.stage c).hold.getLsbD k = false ∧ b.sto.faultHold.getLsbD k = false ∧ b.running = true ∧ b.haltNow = false ∧
        b.cfg.dry = false ∧ b.cfg.loading = none ∧ b.pwr.powerDown = false ∧ b.resetting .fab = false ∧ b.resetting .sto = false) ∧
      (b.sto.unlocking.getLsbD k = false ∧ ∀ l ∈ b.sto.lockBy, l.2.getLsbD k = false)) ∧
    (b.pwr.phase ≠ .running → b.pinSout c = 0 ∧ b.pinSto c = 0)

/-- SYNC_RECEIVED, ANNOUNCE_RECEIVED, PDELAY_RESP_RECEIVED, PDELAY_REQ_RECEIVED, PDELAY_INTERVAL, SYNC_INTERVAL,
ANNOUNCE_INTERVAL (R220, R221, R226). The rate a follower asks for is free (log entry 18). -/
def Obligations.TimeMessages : Prop :=
  ∀ (t : Nat) (p : Fin 6) (s : State), s.b.running = true → s.b.portUp p = true →
    let b := (s.tick t).b
    let sends := fun (c : Instr) (l : List (List Byte)) => ∃ u, exec c s = .next u ∧
      u.b.net.sentOut = l.map (fun x => (p.val, { dst := 0x0180C200000E, src := s.b.portMac p, etype := 0x88F7, payload := x, length := max 64 (x.length + 18) })) ++ s.b.net.sentOut
    (∀ origin, (s.b.port p).asCapable = true → s.b.slaveNow = some p.val →
      let off := b.syncOffset p origin
      let asked := Config.followRate s.b.tsy.trim off
      let good := if off.natAbs ≤ 1000 then min (s.b.tsy.good + 1) 4 else 0
      let big := s.b.stepThr < off.natAbs
      ∃ u, exec (.syncReceived t p origin) s = .next u ∧ u.b.tsy.offset = off ∧ u.b.tsy.lastSync = b.now ∧ u.b.tsy.holdover = none ∧
        u.b.tsy.good = good ∧ (u.b.tsy.locked = true ↔ 4 ≤ good) ∧
        (u.b.tsy.everLocked = true ↔ s.b.tsy.everLocked = true ∨ 4 ≤ good) ∧
        (u.b.tsy.cellValid = true ↔ s.b.tsy.cellValid = true ∨ 4 ≤ good ∧ s.b.tsy.everLocked = false) ∧
        (big → u.b.tsy.stepDue = some off ∧ u.b.tsy.trim = s.b.tsy.trim ∧ u.b.fcl = s.b.fcl) ∧
        (¬ big → u.b.tsy.stepDue = none ∧ u.b.tsy.trim = max (-250000) (min 250000 asked) ∧
          u.b.fcl.arrivals.map (·.id) = s.b.fcl.arrivals.map (·.id) ++ if 250000 < asked.natAbs then [400] else [])) ∧
    (∀ origin, s.b.slaveNow ≠ some p.val ∨ (s.b.port p).asCapable = false → exec (.syncReceived t p origin) s = .next (s.tick t)) ∧
    (∀ m, (s.b.port p).asCapable = false → exec (.announceReceived t p m) s = .next (s.tick t)) ∧
    (∀ m, (s.b.port p).asCapable = true → s.b.tsyRole = 0 → exec (.announceReceived t p m) s = .next (((s.tick t).onTsy fun y =>
      { y with announcesIgnored := y.announcesIgnored.inc }).raise 403 (mkw p))) ∧
    (∀ m, (s.b.port p).asCapable = true → s.b.tsyRole = 1 →
      let w := ((s.tick t).onPort p fun x => { x with heard := some m }).b
      ∃ u, exec (.announceReceived t p m) s = .next u ∧ (u.b.port p).heard = some m ∧ (∀ q, q ≠ p.val → u.b.port q = s.b.port q) ∧
        (∀ q x, w.elected = some (q, x) →
          q < 6 ∧ w.asPort q = true ∧ (w.port q).heard = some x ∧ betterThan x s.b.ownAnnounce = true ∧
          (∀ r < 6, ∀ y, w.asPort r = true → (w.port r).heard = some y → betterThan y x = false) ∧
          u.b.tsy.best = some x ∧ u.b.tsy.bestPort = q ∧
          (¬ (s.b.tsy.best.map (·.gmId) = some x.gmId ∧ s.b.tsy.bestPort = q) →
            u.b.tsy.gm = x.gmId ∧ u.b.tsy.holdover = none ∧ u.b.tsy.locked = false ∧
            u.b.fcl.arrivals.map (·.id) = s.b.fcl.arrivals.map (·.id) ++ if s.b.tsy.gm = x.gmId then [] else [402])) ∧
        (w.elected = none → (∀ r < 6, ∀ y, w.asPort r = true → (w.port r).heard = some y → betterThan y s.b.ownAnnounce = false) ∧
          u.b.tsy.best = none)) ∧
    (∀ m, (s.b.port p).asCapable = true → 1 < s.b.tsyRole → s.b.netCfg.slavePort = some p.val →
      ∃ u, exec (.announceReceived t p m) s = .next u ∧ u.b.tsy = { s.b.tsy with gm := m.gmId } ∧ (u.b.port p).heard = some m) ∧
    (∀ t1 t2 t3 t4 : Nat, ∃ u, exec (.pdelayRespReceived t p t1 t2 t3 t4) s = .next u ∧
      (2 * (u.b.port p).pdelay - (((t4 : Int) - t1) - ((t3 : Int) - t2))).natAbs ≤ 1 ∧
      ((u.b.port p).asCapable = true ↔ (u.b.port p).pdelay ≤ s.b.propThresh) ∧ ∀ q, q ≠ p.val → u.b.port q = s.b.port q) ∧
    (∀ q : Nat, sends (.pdelayReqReceived t p q) [0x1A :: (beBytes q 2 ++ b.stampBytes), 0x13 :: (beBytes q 2 ++ b.stampBytes)]) ∧
    sends (.pdelayInterval t p) [[0x12]] ∧
    (s.b.portRole p = 1 → sends (.syncInterval t p) [0x18 :: b.stampBytes, [0x10]]) ∧
    (∀ m, s.b.portRole p = 1 →
      (s.b.slaveNow = none ∧ m = s.b.ownAnnounce ∨
        ∃ q x, s.b.slaveNow = some q ∧ (s.b.port q).heard = some x ∧ m = { x with steps := x.steps + 1 }) →
      sends (.announceInterval t p) [0x1B :: (beBytes m.priority1 1 ++ beBytes m.clockClass 1 ++ beBytes m.accuracy 1 ++
        beBytes m.variance 2 ++ beBytes m.priority2 1 ++ beBytes m.gmId.toNat 8 ++ beBytes m.steps 2)]) ∧
    (s.b.portRole p ≠ 1 → exec (.syncInterval t p) s = .next (s.tick t) ∧ exec (.announceInterval t p) s = .next (s.tick t))

/-- SYNC_RECEIPT_TIMEOUT, HOLDOVER_TIMEOUT, T_INIT_EXPIRED, TSY_SET, TSY_SLEW, TSY_CANCEL_SLEW (R223, R224, R226,
R234). -/
def Obligations.CellTimeCommands : Prop :=
  ∀ (t : Nat) (rd : Reader) (tok : BitVec 16) (s : State),
    let b := (s.tick t).b
    let starts := fun (ns : Nat) (x : State) => (x.onTsy fun y =>
      { y with cellValid := true, cellFine := ns * 1000000000, cellAt := b.now, adjLeft := 0, startDue := false }).onNet fun n =>
        n.stepGates ns
    let ends := fun (c : Instr) (x : State) (r : Nat) => s.b.takes rd pTSY tok = true →
      exec c s = .next (x.keeps rd pTSY tok r)
    let value := (fld (s.b.rw (pTSY + 0x11C)) 15 0 * 2 ^ 32 + (s.b.rw (pTSY + 0x118)).toNat) * 1000000000 + (s.b.rw (pTSY + 0x114)).toNat
    let adj := (s.b.rw (pTSY + 0x120)).toInt
    (∀ q, s.b.running = true → s.b.slaveNow = some q → s.b.tsy.holdover = none →
      s.b.tsy.lastSync + s.b.receiptCount * s.b.syncIntervalNs ≤ b.now →
      exec (.syncReceiptTimeout t) s = .next (((s.tick t).onTsy fun y =>
        { y with holdover := some b.now, locked := false, good := 0 }).raise 399 (mkw q))) ∧
    (∀ t0, s.b.tsy.holdover = some t0 → t0 + fld (s.b.set (pTSY + 0x110)) 31 26 * 1000000000 ≤ b.now →
      let lost := fun x : State => (x.onTsy fun _ => { x.b.cellSettled with holdover := none, cellValid := false, mapped := false }).gatesOpen
      let alone := ((s.tick t).onPort s.b.tsy.bestPort fun x => { x with heard := none }).bmca
      (s.b.tsyRole ≠ 1 → exec (.holdoverTimeout t) s = .next (lost (s.tick t))) ∧
      (s.b.tsyRole = 1 → alone.b.isGm = true → exec (.holdoverTimeout t) s = .next alone) ∧
      (s.b.tsyRole = 1 → alone.b.isGm = false → exec (.holdoverTimeout t) s = .next (lost alone))) ∧
    (s.b.tru.aRunning = true → s.b.pwr.fiddleEnd + s.b.tInit ≤ b.now → s.b.tsy.tInitGone = false →
      let gone := (s.tick t).onTsy fun y => { y with tInitGone := true }
      (s.b.isGm = true → s.b.tsy.cellValid = false → exec (.tInitExpired t) s =
        .next (((starts s.b.tsy.floorCell gone).onTsy fun y => { y with floorStart := true }).raise 404 (mkw 0))) ∧
      (s.b.isGm = false ∨ s.b.tsy.cellValid = true → exec (.tInitExpired t) s = .next gone)) ∧
    (s.b.isGm = false ∨ s.b.tsy.cellValid = true ∧ s.b.floorInRound = false → ends (.tsySet t rd tok) (s.tick t) rRefused) ∧
    (s.b.isGm = true → s.b.tsy.cellValid = false ∨ s.b.floorInRound = true →
      let z := (s.tick t).overFloor
      (s.b.floorInRound = false → z = s.tick t) ∧
      (s.b.floorInRound = true → (∀ a, a ∈ z.b.fcl.arrivals ↔ a ∈ s.b.fcl.arrivals ∧ a.id ≠ 404) ∧
        z.b.tsy = { s.b.tsy with cellValid := false, floorStart := false }) ∧
      (1000000000 ≤ (s.b.rw (pTSY + 0x114)).toNat ∨ value < s.b.tsy.floorCell → ends (.tsySet t rd tok) (s.tick t) rBadArg) ∧
      ((s.b.rw (pTSY + 0x114)).toNat < 1000000000 → s.b.tsy.floorCell ≤ value →
        ends (.tsySet t rd tok) ((starts value z).record 0x07
          (beBytes s.b.tsy.epoch 2 ++ signed64 ((value : Int) - (z.b.cellFineNow / 1000000000 : Nat)))) rDone)) ∧
    (s.b.isGm = false ∨ s.b.tsy.cellValid = false → ends (.tsySlew t rd tok) (s.tick t) rRefused) ∧
    (s.b.isGm = true → s.b.tsy.cellValid = true →
      (1000000000 < adj.natAbs → ends (.tsySlew t rd tok) (s.tick t) rBadArg) ∧
      (adj.natAbs ≤ 1000000000 → ends (.tsySlew t rd tok) ((s.tick t).onTsy fun _ =>
        { b.cellSettled with adjLeft := adj * 1000000000 }) rDone)) ∧
    ends (.tsyCancelSlew t rd tok) ((s.tick t).onTsy fun _ => { b.cellSettled with adjLeft := 0 }) rDone

/-- SAFE_FRAME_RECEIVED (R244, R245, R247, R249). -/
def Obligations.SafeFrameDecisions : Prop :=
  ∀ (t : Nat) (bsA bsB : List Byte) (s : State), s.b.running = true → s.b.resetting .sfr = false →
    let b := (s.tick t).b
    let x := b.dataDecision .a bsA
    let y := b.dataDecision .b bsB
    let ends := fun (u : State) => exec (.safeFrameReceived t bsA bsB) s = .next u
    (x.2 ≠ y.2 ∨ x.1.map (·.1) ≠ y.1.map (·.1) → ends ((s.tick t).raise 425 (sessWord (((x.1.orElse fun _ => y.1).map (·.1)).getD 0)))) ∧
    (x.1 = none → y.1 = none → x.2 = y.2 → ends ((s.tick t).onSfr fun r => { r with unknown := r.unknown.inc })) ∧
    (∀ slot c d, x = (some (slot, c), d) → y.1.map (·.1) = some slot → y.2 = d →
      let refused := (s.tick t).onCons slot fun r => { r with refused := r.refused.inc }
      (d = .format → ends ((s.tick t).onSfr fun r => { r with unknown := r.unknown.inc })) ∧
      (d = .crc → ends (((s.tick t).onCons slot fun r => { r with crc := r.crc.inc }).raise 420 (sessWord slot))) ∧
      (d = .duplicate → ends ((s.tick t).onCons slot fun r => { r with dup := r.dup.inc })) ∧
      (d = .noTime ∨ d = .setup → ends refused) ∧
      (d = .staleStep ∨ d = .future → ends (refused.raise 422 (sessWord slot))) ∧
      (d = .aged → ends (refused.raise 421 (sessWord slot))) ∧
      (d = .echo → ends (refused.raise 423 (sessWord slot))) ∧
      (d = .skip → ends ((refused.onCons slot fun r => { r with state := 1, setupAt := b.rulerOf .a, retimed := 0 }).raise 419 (sessWord slot))) ∧
      (d = .accept → ∃ u, ends u ∧
        let h := frameHead bsA
        let r := s.b.consOf slot
        let v := u.b.consOf slot
        let k := (h.alive + 65536 - r.aliveLast) % 65536
        v.aliveLast = h.alive ∧ v.held = some (bytesAt bsA 20 (4 * c.len)) ∧ v.acceptedA = b.rulerOf .a ∧ v.acceptedB = b.rulerOf .b ∧
          v.stamp = h.stamp ∧ v.state = (if r.state = 3 ∧ r.retimed = 0 then 3 else 2) ∧
          v.lost = (if r.state = 1 ∨ k ≤ 1 then r.lost else r.lost.inc (k - 1)) ∧
          v.crc = r.crc ∧ v.dup = r.dup ∧ v.refused = r.refused ∧ ∀ q, q ≠ slot → u.b.consOf q = s.b.consOf q)) ∧
    (∀ ch bs slot c, b.dataDecision ch bs = (some (slot, c), .accept) →
      let h := frameHead bs
      let r := s.b.consOf slot
      let k := (h.alive + 65536 - r.aliveLast) % 65536
      b.consById (beAt bs 2 2) = some (slot, c) ∧
        crc32c (virtualHeader c.id c.gen s.b.img.cellId ++ bs.take (20 + 4 * c.len)) = BitVec.ofNat 32 (beAt bs (20 + 4 * c.len) 4) ∧
        h.timeValid = true ∧
        (∃ age, b.ageNum ch (b.rulerOf ch) h.stamp = some age ∧ -2000 * s.b.mapDen ≤ age ∧
          (r.state ≠ 3 → age ≤ (c.ageMax * 10000 : Nat) * s.b.mapDen)) ∧
        (r.state ≠ 1 → k ≠ 0 ∧ k ≤ c.maxSkip ∧ (c.partner.isSome = true → h.echoValid = true → (s.b.partnerLast c h.echo).isSome = true)) ∧
        (s.b.stepped = true → 0 ≤ stampDiff h.stamp s.b.tsy.stepCell) ∧
        (r.state = 1 → c.partner.isSome = true → h.echoValid = true ∧ ∃ z, s.b.partnerSent c h.echo = some z ∧ r.setupAt ≤ z.atA))

/-- BULK_SEGMENT_RECEIVED, SETUP_TIMEOUT, SFR_RESTART (R186, R241, R244, R247, R248, R257). -/
def Obligations.BulkFramesAndSetup : Prop :=
  (∀ (t : Nat) (bsA bsB : List Byte) (s : State), s.b.running = true → s.b.resetting .sfr = false →
    let b := (s.tick t).b
    let x := b.bulkStep .a bsA
    let y := b.bulkStep .b bsB
    let ends := fun (u : State) => exec (.bulkSegmentReceived t bsA bsB) s = .next u
    (x.decision ≠ y.decision ∨ x.session.map (·.1) ≠ y.session.map (·.1) →
      let slot := ((x.session.orElse fun _ => y.session).map (·.1)).getD 0
      ends (((((s.tick t).setAsm slot none none).refuseBulk slot (some (bulkName bsA))).refuseSensor slot).raise 425 (sessWord slot))) ∧
    (x.decision = y.decision → x.session.map (·.1) = y.session.map (·.1) →
      (x.session = none → ends ((s.tick t).onSfr fun r => { r with unknown := r.unknown.inc })) ∧
      ∀ slot c, x.session = some (slot, c) →
        let kept := ((s.tick t).setAsm slot x.asm y.asm).refuseBulk slot x.gone
        (x.decision = none → x.abandoned = false → y.abandoned = false → ends kept) ∧
        (x.decision = none → x.abandoned = true ∨ y.abandoned = true → ends ((kept.refuseSensor slot).raise 424 (mkw slot))) ∧
        (∀ a, x.decision = some .accept → x.frame = some a → x.abandoned = false → y.abandoned = false →
          (a.contentOk = false → ends (((kept.onCons slot fun r => { r with refused := r.refused.inc }).refuseSensor slot).raise 355
            (mkw ((s.b.sensorOf slot).getD 0)))) ∧
          (a.contentOk = true → ∃ u, ends u ∧ (u.b.consOf slot).aliveLast = (a.head c.id).alive ∧
            (u.b.consOf slot).held = some [] ∧ (u.b.consOf slot).acceptedA = b.rulerOf .a ∧
            (u.b.consOf slot).state = (if (s.b.consOf slot).state = 3 ∧ (s.b.consOf slot).retimed = 0 then 3 else 2) ∧
            ∀ k, s.b.sensorOf slot = some k → (u.b.sensor k).curA = a.points.filterMap (fun p => (s.b.grid.getD {}).cellOf p 1) ∧
              (u.b.sensor k).curB = a.points.filterMap (s.b.grid.getD {}).fineOf ∧ (u.b.sensor k).points = beAt a.stream 4 4 ∧
              (u.b.sensor k).accepted = some b.rulerA)))) ∧
  (∀ (t : Nat) (slot : Fin 128) (c : ConsCfg) (s : State), s.b.consCfg slot = some c → s.b.running = true →
    (s.b.consOf slot).state = 1 → (s.b.consOf slot).setupAt + c.tOpenS * 1000000000 < (s.tick t).b.rulerOf .a →
    exec (.setupTimeout t slot) s = .next (((s.tick t).onCons slot fun r => { r with late := true }).cond 427 true (mkw slot))) ∧
  (∀ (t : Nat) (rd : Reader) (w : Word) (s : State), s.b.takes rd pSFR (wTok w) = true →
    let slot := fld w 6 0
    let noted := fun (x : State) => exec (.sfrRestart t rd w) s =
      .next ((x.record 0x0C (beBytes (b2n (w.getLsbD 7)) 1 ++ beBytes slot 1 ++ beBytes rd.port 1)).keeps rd pSFR (wTok w) rDone)
    (w.getLsbD 7 = false → s.b.consCfg slot = none → exec (.sfrRestart t rd w) s = .next ((s.tick t).keeps rd pSFR (wTok w) rBadArg)) ∧
    (w.getLsbD 7 = true → s.b.prodCfg slot = none → exec (.sfrRestart t rd w) s = .next ((s.tick t).keeps rd pSFR (wTok w) rBadArg)) ∧
    (w.getLsbD 7 = false → (s.b.consCfg slot).isSome = true → noted ((s.tick t).onCons slot fun r =>
      { r with state := 1, setupAt := (s.tick t).b.rulerOf .a, retimed := 0 })) ∧
    (w.getLsbD 7 = true → (s.b.prodCfg slot).isSome = true → noted (({ s.tick t with draws := s.draws + 1 } : State).onProd slot fun p =>
      { p with alive := (Config.entropy s.draws).truncate 16, frames := 0 })))

/-- PAIR_RELEASE, CHECKPOINT_PUSH, CHECKPOINT_MATCH, AGREEMENT_TIMEOUT, ALIVE_EXPIRED, MTIMECMP_REACHED,
PAIR_FRAME_RECEIVED (R261 to R266, R269 to R271, R276, R281). -/
def Obligations.PairsActTogether : Prop :=
  ∀ (t : Nat) (k : Fin 4) (s : State),
    let now := max s.b.now t
    let p := s.b.pairOf k
    let keeps := fun (u : State) => ∀ q, q ≠ k.val → u.b.pairOf q = s.b.pairOf q
    let blocks := fun (c : Instr) (i : Nat) => ∃ u, exec c s = .next u ∧ (u.b.pairOf k).state = 2 ∧ keeps u ∧
      (u.b.pairOf k).a.queue = p.a.queue ∧ (u.b.pairOf k).b.queue = p.b.queue ∧ (u.b.pairOf k).cfw = p.cfw ∧
      u.b.fcl.arrivals.map (·.id) = s.b.fcl.arrivals.map (·.id) ++ [i + k.val]
    (s.b.cprReset k = true → exec (.pairRelease t k) s = .next (s.tick t)) ∧
    (p.state = 0 ∨ p.state = 4 → s.b.cprReset k = false →
      (∀ m, (s.tick t).b.pairProgram k = some m → ∃ u, exec (.pairRelease t k) s = .next u ∧ keeps u ∧
        (u.b.pairOf k).state = (if s.b.agr.split.getLsbD k then 3 else 1) ∧ (u.b.pairOf k).a.queue = [] ∧ (u.b.pairOf k).b.queue = [] ∧
        (u.b.pairOf k).a.retired = 0 ∧ (u.b.pairOf k).b.retired = 0 ∧ (u.b.pairOf k).memA = (u.b.pairOf k).memB ∧ (u.b.pairOf k).aliveAt = now) ∧
      ((s.tick t).b.pairProgram k = none → s.b.running = true → ∃ u, exec (.pairRelease t k) s = .next u ∧ keeps u ∧ (u.b.pairOf k).state = 4)) ∧
    (∀ c e, p.state = 1 → entryKind e.kind = true →
      (p.holdsBack c e.kind = true ∨ s.b.inputWaits k c e = true → exec (.checkpointPush t k c e) s = .next (s.tick t)) ∧
      (p.holdsBack c e.kind = false → s.b.inputWaits k c e = false → ∃ (u : State) (y : Entry), exec (.checkpointPush t k c e) s = .next u ∧ y.kind = e.kind ∧ y.retired = e.retired ∧
        y.digest = (if c = .a ∧ s.b.agr.injectKind = 1 ∧ s.b.agr.injectPair = k.val then e.digest ^^^ 1 else e.digest) ∧
        ((u.b.pairOf k).core c).queue = (p.core c).queue ++ [(now, y)] ∧ ((u.b.pairOf k).core c.other).queue = (p.core c.other).queue)) ∧
    (∀ tx x ra ty y rb, p.state = 1 → p.a.queue = (tx, x) :: ra → p.b.queue = (ty, y) :: rb →
      let same := x.kind = y.kind ∧ x.retired = y.retired ∧ x.digest = y.digest ∧ x.data = y.data ∧ x.addr = y.addr ∧ x.size = y.size
      let forced := s.b.agr.injectKind = 2 ∧ s.b.agr.injectPair = k.val
      (x.bad = true ∨ y.bad = true → x.corrected = false → y.corrected = false → blocks (.checkpointMatch t k) 460) ∧
      (x.bad = true ∨ y.bad = true → x.corrected = true ∨ y.corrected = true →
        exec (.checkpointMatch t k) s = .next (((s.tick t).raise 464 (mkw k) none k).failPair 460 k)) ∧
      (x.bad = false → y.bad = false → x.corrected = false → y.corrected = false →
        (forced → ∃ u, exec (.checkpointMatch t k) s = .next u ∧ u.b.agr.injectKind = 0 ∧ ∀ j : Fin 4, (u.b.pairOf j).state ≠ 1) ∧
        (¬ forced → ¬ same → blocks (.checkpointMatch t k) 452) ∧
        (¬ forced → same →
          let popped := (s.tick t).onPair k fun p => { p.peaked now with a := { p.a with queue := ra }, b := { p.b with queue := rb } }
          exec (.checkpointMatch t k) s = .next (if x.kind = 2 then popped.busWrite (.pair k) x.addr.toNat x.size (x.data.truncate 32) else popped)))) ∧
    (∀ t0, p.state = 1 → p.oldest = some t0 → t0 + 50000 ≤ now → blocks (.agreementTimeout t k) 456) ∧
    (s.b.running = true → now = s.b.sys.lastCapture → p.state = 1 ∨ p.state = 2 ∨ p.state = 3 → p.aliveExp = false → (s.b.pairCfg k).tAlive ≠ 0 → p.aliveAt + (s.b.pairCfg k).tAlive * 10000 < now →
      exec (.aliveExpired t k) s = .next (((s.tick t).onPair k fun p => { p with aliveExp := true }).raise 475 (mkw k) none k)) ∧
    (∃ u, exec (.mtimecmpReached t k) s = .next u ∧ keeps u ∧ ((u.b.pairOf k).mtip = true ↔ p.mtimecmp.toNat ≤ now - s.b.pwr.fiddleEnd) ∧
      ((u.b.pairOf k).evtPend.getLsbD 3 = true ↔ p.evtPend.getLsbD 3 = true ∨ p.mtip = false ∧ p.mtimecmp.toNat ≤ now - s.b.pwr.fiddleEnd)) ∧
    (∀ bytes, s.b.running = true → p.state ≠ 0 → p.state ≠ 4 → (parseFrame bytes).dst = (s.b.pairCfg k).mac →
      (parseFrame bytes).etype = (s.b.pairCfg k).etype → exec (.pairFrameReceived t k bytes) s =
        .next ((s.tick t).onPair k fun p => { p with received := bytes :: p.received, evtPend := setb p.evtPend 2 true }))

/-- CPR_CFW_WRITE, CPR_CFW_INV, CPR_ALIVE_WRITE, CPR_TX, CPR_RDSEL_WRITE, DEBUG_HALT, DEBUG_STEP, DEBUG_RESUME,
DEBUG_REGISTER_ACCESS (R267 to R270, R277, R278, R282, R283). -/
def Obligations.PairRegistersAndDebug : Prop :=
  (∀ (t : Nat) (rd : Reader) (k : Fin 4) (j : Nat) (i : Fin 64) (w : Word) (s : State),
    (∀ c, c = .cprCfwWrite t rd k j w ∨ c = .cprAliveWrite t rd k w ∨ c = .cprTx t rd k w ∨ c = .cprRdselWrite t rd k i w ∨
      c = .cprCfwInv t rd k w →
      let told := fun (x : State) => if c = .cprCfwInv t rd k w then x.onToken (pCPR k) rd.idx fun e => { e with repeated := false } else x
      ((∀ q, rd ≠ .pair q) → exec c s = .next (told ((s.tick t).result rd (pCPR k) rNotAuth))) ∧
      (∀ q, rd = .pair q → q ≠ k → (s.b.pairOf q).state = 1 →
        exec c s = .next (told (((s.tick t).result rd (pCPR k) rNotAuth).raise 474 (mkw (pCPR k + rd.idx))))))) ∧
  (∀ (t : Nat) (k : Fin 4) (j : Nat) (i : Fin 64) (w : Word) (s : State), (s.b.pairOf k).state = 1 →
    let ends := fun (c : Instr) (x : State) (r : Nat) => exec c s = .next (x.result (.pair k) (pCPR k) r)
    let off := fld w 30 14 * 64
    let len := fld w 13 0
    let bytes := fun (m : NMap Byte) => (List.range len).map fun a => nget m (off + a) 0
    ((w.truncate 20).signExtend 32 = w → j < (s.b.pairCfg k).cfwCount → ends (.cprCfwWrite t (.pair k) k j w) ((s.tick t).onPair k fun p =>
      { p with cfw := nset p.cfw j { val := w.truncate 20, ok := !p.aliveExp } {} }) rDone) ∧
    (¬ ((w.truncate 20).signExtend 32 = w ∧ j < (s.b.pairCfg k).cfwCount) → ends (.cprCfwWrite t (.pair k) k j w) (s.tick t) rBadArg) ∧
    ends (.cprAliveWrite t (.pair k) k w) ((s.tick t).onPair k fun p => { p with aliveAt := max s.b.now t, aliveExp := false }) rDone ∧
    (w.toNat < 2 ^ 15 → ends (.cprRdselWrite t (.pair k) k i w) ((s.tick t).onPair k fun p =>
      { p with rdselNext := nset p.rdselNext i w.toNat 0x7FFF }) rDone) ∧
    (2 ^ 15 ≤ w.toNat → ends (.cprRdselWrite t (.pair k) k i w) (s.tick t) rBadArg) ∧
    (s.b.takes (.pair k) (pCPR k) (wTok w) = true → exec (.cprCfwInv t (.pair k) k w) s = .next (if fld w 8 0 < (s.b.pairCfg k).cfwCount then
      ((s.tick t).onPair k fun p => { p with cfw := nset p.cfw (fld w 8 0) { nget p.cfw (fld w 8 0) {} with ok := false } {} }).keeps (.pair k) (pCPR k) (wTok w) rDone
      else (s.tick t).keeps (.pair k) (pCPR k) (wTok w) rBadArg)) ∧
    (len < 64 ∨ 9216 < len ∨ (s.b.pairCfg k).size * 65536 < off + len → ends (.cprTx t (.pair k) k w) (s.tick t) rBadArg) ∧
    (¬ (len < 64 ∨ 9216 < len ∨ (s.b.pairCfg k).size * 65536 < off + len) →
      (crc64 (bytes (s.b.pairOf k).memA) = crc64 (bytes (s.b.pairOf k).memB) →
        ends (.cprTx t (.pair k) k w) (((s.tick t).onPair k fun p => { p with tx := w &&& 0x7FFFFFFF }).handPort6 (parseFrame (bytes (s.b.pairOf k).memA))) rDone) ∧
      (crc64 (bytes (s.b.pairOf k).memA) ≠ crc64 (bytes (s.b.pairOf k).memB) → ∃ u, ends (.cprTx t (.pair k) k w) u rDone ∧
        (u.b.pairOf k).state = 2 ∧ u.b.net = s.b.net ∧ u.b.fcl.arrivals.map (·.id) = s.b.fcl.arrivals.map (·.id) ++ [452 + k.val]))) ∧
  (∀ (t : Nat) (k : Fin 4) (ch : Ch) (reg : Nat) (w : Option (BitVec 64)) (s : State),
    (s.b.debugOn = false → ∀ c, c = .debugHalt t k ch ∨ c = .debugStep t k ch ∨ c = .debugResume t k ch ∨ c = .debugRegisterAccess t k ch reg w →
      exec c s = .next (s.tick t)) ∧
    (s.b.debugOn = true → (s.b.pairOf k).state ≠ 0 → (s.b.pairOf k).state ≠ 4 → ∀ c, c = .debugHalt t k ch ∨ c = .debugStep t k ch → ∃ u, exec c s = .next u ∧
      (u.b.pairOf k).state = (if (s.b.pairOf k).state = 1 ∨ (s.b.pairOf k).state = 2 then 3 else (s.b.pairOf k).state) ∧ u.b.agr.split = setb s.b.agr.split k true ∧
      (u.b.pairOf k).a.queue = [] ∧ (u.b.pairOf k).b.queue = [] ∧ ((u.b.pairOf k).core ch).halted = true ∧
      ((u.b.pairOf k).core ch).retired = ((s.b.pairOf k).core ch).retired + (if c = .debugStep t k ch then 1 else 0)) ∧
    (s.b.debugOn = true → ((s.b.pairOf k).core ch).halted = true →
      (∃ u, exec (.debugResume t k ch) s = .next u ∧ (u.b.pairOf k).core ch = { (s.b.pairOf k).core ch with halted := false } ∧
        (u.b.pairOf k).state = (s.b.pairOf k).state) ∧
      (∃ u, exec (.debugRegisterAccess t k ch reg w) s = .next u ∧
        let x := (s.b.pairOf k).core ch
        let y := (u.b.pairOf k).core ch
        match w with
        | some v => nget y.regs (x.regKey reg) 0 = (if reg = 0x7A0 then v &&& 3 else v) ∧ y.retired = x.retired ∧ y.queue = x.queue ∧
            ∀ r, r ≠ x.regKey reg → nget y.regs r 0 = nget x.regs r 0
        | none => y.regs = x.regs ∧ y.retired = x.retired ∧ y.queue = x.queue ∧
            (reg ∈ [0xB00, 0xB02, 0xC00, 0xC02] → y.debugData = x.retired.zeroExtend 64) ∧ (reg = 0x1000 → y.debugData = 0) ∧
            (reg ∉ [0xB00, 0xB02, 0xC00, 0xC02, 0xC01, 0x1000] → y.debugData = nget x.regs (x.regKey reg) 0))))

/-- CVU_START, CVU_POLY_CHANGE, CVU_FEED_B, CVU_FEED_H, CVU_FEED_W, CVU_STATE_LO_WRITE, CVU_STATE_HI_WRITE, CVU_ALIVE
(R284, R287, R288, R290, R291). -/
def Obligations.CheckValueUnits : Prop :=
  ∀ (t : Nat) (rd : Reader) (u : Fin 16) (w : Word) (s : State), s.b.reaches rd (pCVU u) = true →
    let x := s.b.cvuOf u
    let ends := fun (c : Instr) (f : Cvu → Cvu) (r : Nat) => exec c s = .next (((s.tick t).onCvu u f).result rd (pCVU u) r)
    let refused := fun (c : Instr) (r : Nat) => exec c s = .next ((s.tick t).result rd (pCVU u) r)
    let fed := fun (n : Nat) (c : Cvu) =>
      let bs := (List.range n).map fun i => BitVec.ofNat 8 (w.toNat / 2 ^ (8 * (n - 1 - i)))
      { c with state := (if c.lsbFirst then bs.reverse else bs).foldl (cvuByte c.poly) c.state, count := min (c.count + n) 0xFFFFFFFF }
    let d := (fld w 15 0 + 65536 - x.last) % 65536
    (x.failed = true → ∀ c, c ∈ [.cvuStart t rd u w, .cvuPolyChange t rd u w, .cvuFeedB t rd u w, .cvuFeedH t rd u w, .cvuFeedW t rd u w,
      .cvuStateLoWrite t rd u w, .cvuStateHiWrite t rd u w, .cvuAlive t rd u w] → refused c rRefused) ∧
    (x.failed = false →
      (∀ c, c = .cvuStart t rd u w ∨ c = .cvuPolyChange t rd u w →
        (5 < fld w 2 0 → refused c rBadArg) ∧
        (fld w 2 0 ≤ 5 → w.getLsbD 5 = true → ends c (fun c =>
          { c with poly := fld w 2 0, lsbFirst := w.getLsbD 4, state := cvuInit (fld w 2 0), count := 0, heldLo := none }) rDone) ∧
        (fld w 2 0 ≤ 5 → w.getLsbD 5 = false → ends c (fun c =>
          { c with poly := fld w 2 0, lsbFirst := w.getLsbD 4, state := c.state &&& BitVec.ofNat 64 (2 ^ cvuWidth (fld w 2 0) - 1), heldLo := none }) rDone)) ∧
      (x.poly = 0 → ∀ c, c ∈ [.cvuFeedB t rd u w, .cvuFeedH t rd u w, .cvuFeedW t rd u w, .cvuAlive t rd u w] → refused c rRefused) ∧
      (x.poly ≠ 0 → ends (.cvuFeedB t rd u w) (fed 1) rDone ∧ ends (.cvuFeedH t rd u w) (fed 2) rDone ∧ ends (.cvuFeedW t rd u w) (fed 4) rDone) ∧
      (x.poly = 5 → ends (.cvuStateLoWrite t rd u w) (fun c => { c with heldLo := some w }) rDone ∧
        ends (.cvuStateHiWrite t rd u w) (fun c => { c with state := w ++ c.heldLo.getD (c.state.truncate 32), heldLo := none }) rDone) ∧
      (x.poly ≠ 5 → ends (.cvuStateLoWrite t rd u w) (fun c => { c with state := cvuCut c.poly (w.zeroExtend 64) }) rDone ∧
        ∃ v, exec (.cvuStateHiWrite t rd u w) s = .next v ∧ v.b.cvuOf u = x) ∧
      (x.poly ≠ 0 → x.armed = false ∨ 1 ≤ d ∧ d ≤ x.maxSkip → ∃ v, exec (.cvuAlive t rd u w) s = .next v ∧
        (v.b.tokenOf (pCVU u) rd.idx).last = rDone ∧
        v.b.cvuOf u = { x with state := cvuByte x.poly (cvuByte x.poly x.state (BitVec.ofNat 8 (fld w 15 0 / 256))) (BitVec.ofNat 8 (fld w 15 0))
                               count := min (x.count + 2) 0xFFFFFFFF, armed := true, last := fld w 15 0, refused := false }) ∧
      (x.poly ≠ 0 → x.armed = true → ¬ (1 ≤ d ∧ d ≤ x.maxSkip) → ∃ v, exec (.cvuAlive t rd u w) s = .next v ∧
        (v.b.tokenOf (pCVU u) rd.idx).last = rBadArg ∧ v.b.fcl.cause.getLsbD 483 = true ∧
        v.b.cvuOf u = { x with dup := if d = 0 then x.dup.inc else x.dup, skip := if d = 0 then x.skip else x.skip.inc, refused := true }))

/-- ROUND_CLOSE, REARM_COMPLETE, COLLECTOR_SELF_FAULT, ERR_PIN_HALF_PERIOD (R298, R303, R311, R312, R315, R316). The
round clause asks for a severity of the four that exist. -/
def Obligations.FaultRounds : Prop :=
  ∀ (t : Nat) (s : State),
    let x := (s.tick t).b
    (x.fcl.roundOpen = true → x.fcl.clears = [] → ∃ u, exec (.roundClose t) s = .next u ∧ ∀ i, i < 512 → x.effSev i ≤ 3 →
      let rose := (∃ y ∈ x.fcl.arrivals, y.id = i ∧ y.up = true) ∧ (srcCond i = false ∨ x.fcl.a.live.getLsbD i = false)
      (u.b.fcl.a.latch.getLsbD i = true ↔ x.fcl.a.latch.getLsbD i = true ∨ rose) ∧
      (u.b.fcl.b.latch.getLsbD i = true ↔ x.fcl.b.latch.getLsbD i = true ∨ rose)) ∧
    (∀ n e f, x.fcl.rearm = 1 →
      let us := min ((x.now - x.fcl.rearmAt) / 1000) 0xFFFF
      (n = 128 ∧ e = true ∧ f = true → ∃ u, exec (.rearmComplete t n e f) s = .next u ∧ u.b.fcl.rearm = 2 ∧ u.b.fcl.rearmPassed = true ∧
        u.b.fcl.rearmUs = us ∧ u.b.fcl.halt = x.fcl.halt) ∧
      (¬ (n = 128 ∧ e = true ∧ f = true) → ∃ u, exec (.rearmComplete t n e f) s = .next u ∧ u.b.fcl.rearm = 3 ∧
        u.b.fcl.rearmPassed = x.fcl.rearmPassed ∧ u.b.fcl.rearmUs = us ∧ u.b.fcl.halt = x.fcl.halt ∧
        u.b.fcl.arrivals.map (·.id) = x.fcl.arrivals.map (·.id) ++ (if n = 128 then [] else [450]) ++ (if e then [] else [451]) ++
          (if f then [] else [498]))) ∧
    (∀ code, code.val ≠ 0 → x.fcl.selfCode = 0 → ∃ u, exec (.collectorSelfFault t code) s = .next u ∧ u.b.fcl.selfCode = code.val ∧
      u.b.haltNow = true ∧ u.b.fcl.zoneStop = 0xFFFFFFFF ∧ u.b.sog.faultHold = 0xFFFF ∧ u.b.sto.faultHold = 0xFFFF ∧
      u.b.fcl.signalling = true ∧ u.b.fcl.driveA = false ∧ u.b.fcl.driveB = false) ∧
    (x.img.errAlive = true → x.fcl.selfCode = 0 → ∃ u, exec (.errPinHalfPeriod t) s = .next u ∧
      u.b.fcl.driveA = (!x.fcl.signalling && decide (x.optime % 1000 < 500)) ∧
      u.b.fcl.driveB = (!x.fcl.signalling && !decide (x.optime % 1000 < 500) && x.fcl.driveA))

/-- BLOCK_RESET_COMPLETE, CHIP_RESET_REACTION, SUPPLY_RECOVERY, RESET_N_ASSERT, POWER_ON_RESET_END, RAIL_OUT_OF_RANGE,
VCORE_MONITOR_DISAGREE, SUPPLY_LOSS_WARNING, FLUSH_COMPLETE, RESET_N_RELEASE, TJ_THRESHOLD (R306, R307, R394, R398 to
R400, R404, R406 to R410). -/
def Obligations.ResetsAndSupply : Prop :=
  ∀ (t : Nat) (s : State),
    let x := (s.tick t).b
    let started := fun (cause : Nat) (power low : Bool) (u : State) =>
      u.b.pwr.cause = cause ∧ u.b.pwr.phase = (if low then .resetHeld else .released) ∧ u.b.pwr.resetLow = low ∧ u.b.sog = {} ∧ u.b.sto = {} ∧
      u.b.agr = (if power then {} else { split := x.agr.split }) ∧ u.b.cfg.image = none ∧ u.b.cfg.rws = [] ∧ u.b.cfg.rw = [] ∧ u.b.sys.tokens = [] ∧
      u.b.fcl.a.latch = 0 ∧ u.b.fcl.b.latch = 0 ∧ u.b.recd.buffer = [] ∧ u.b.otp.latched = x.otp.latched ∧ u.b.otp.session = none ∧
      u.b.otp.waiting = [] ∧ u.b.hif = {} ∧ u.b.mgmt = [] ∧ u.shown = none ∧ u.cap = none
    (∀ k ok, x.resetting k = true → ∃ u, exec (.blockResetComplete t k ok) s = .next u ∧ u.b.resetting k = false ∧
      (∀ j, k = .cpr j → u.b.pairOf j = (x.pairOf j).reset) ∧ (∀ n, k = .cvu n → u.b.cvuOf n = {}) ∧ (k = .hif → u.b.hif = {}) ∧
      (ok = false → ∃ y ∈ u.b.fcl.arrivals, y.id = 65)) ∧
    (x.fcl.chipResetDue.isSome = true → x.pwr.powerDown = false → ∃ u, exec (.chipResetReaction t) s = .next u ∧
      started 3 false x.pwr.resetLow u ∧ u.b.fcl.chipResetTaken = x.fcl.chipResetTaken ∧ u.b.pwr.chipResets = min (x.pwr.chipResets + 1) 255) ∧
    (x.pwr.powerDown = true → ∃ u, exec (.supplyRecovery t) s = .next u ∧ started 5 false x.pwr.resetLow u) ∧
    (∀ n, 1000 ≤ n → x.pwr.phase ≠ .powerOnReset → x.pwr.phase ≠ .resetHeld → ∃ u, exec (.resetNAssert t n) s = .next u ∧ started 2 false true u) ∧
    (x.pwr.phase = .powerOnReset → ∃ u, exec (.powerOnResetEnd t) s = .next u ∧ started 1 true x.pwr.resetLow u ∧ u.b.pwr.railsGood = 31) ∧
    (∀ r mv, ¬ ((railLimits r).1.1 ≤ mv ∧ mv ≤ (railLimits r).1.2) → ∃ u, exec (.railOutOfRange t r mv) s = .next u ∧
      u.b.pwr.phase = .powerOnReset ∧ u.b.pwr.railsGood.getLsbD (railBit r) = false ∧ u.b.sog = {} ∧ u.b.sto = {} ∧ u.b.cfg.image = none ∧
      u.b.fcl.a.latch = 0 ∧ u.b.pwr.chipResets = 0 ∧
      (mv < (railLimits r).2.1.1 ∨ (railLimits r).2.1.2 < mv → u.b.fcl.arrivals.map (·.id) = [(railLimits r).2.2])) ∧
    (∀ a b, ∃ u, exec (.vcoreMonitorDisagree t a b) s = .next u ∧ u.b.pwr.mvA = a ∧ u.b.pwr.mvB = b ∧ u.b.pwr.minA = min x.pwr.minA a ∧
      u.b.pwr.minB = min x.pwr.minB b ∧
      u.b.fcl.arrivals.map (·.id) = x.fcl.arrivals.map (·.id) ++ (if b + 30 < a ∨ a + 30 < b then [18] else [])) ∧
    (∀ c, x.pwr.powerDown = false → x.pwr.phase ≠ .powerOnReset → x.pwr.phase ≠ .resetHeld → ∃ u, exec (.supplyLossWarning t c) s = .next u ∧
      u.b.pwr.powerDown = true ∧ u.b.recd.accepting = false ∧ u.b.recd.flushing = min 64 x.recd.buffer.length ∧ u.b.otp.session = none ∧
      u.b.otp.waiting = [] ∧ u.b.lcs.op = none ∧ u.b.fcl.chipResetDue = none ∧ u.b.fcl.arrivals.map (·.id) = x.fcl.arrivals.map (·.id) ++ [25]) ∧
    (x.pwr.powerDown = true → x.recd.accepting = false → ∃ u, exec (.flushComplete t) s = .next u ∧ u.b.recd.buffer = [] ∧ u.b.recd.flushing = 0) ∧
    (x.pwr.phase = .resetHeld → ∃ u, exec (.resetNRelease t) s = .next u ∧ u.b.pwr.phase = .released ∧ u.b.pwr.resetLow = false ∧
      u.b.pwr.retAtStart = x.pwr.ret ∧ u.b.pwr.ret.unclean = true ∧ u.b.pwr.ret.written = true ∧ u.b.fcl.collecting = true) ∧
    (∀ a b, ∃ u, exec (.tjThreshold t a b) s = .next u ∧ u.b.pwr.tempA = a ∧ u.b.pwr.tempB = b ∧
      u.b.fcl.cause.getLsbD 28 = decide (max a b > tjLimit - 5) ∧ u.b.fcl.cause.getLsbD 29 = decide (max a b > tjLimit + 5))

/-- FIDDLEHEAD, FIRMWARE_LOAD, ANTI_ROLLBACK_ADVANCE, PACE_WINDOW_END, OSCILLATOR_STOP (R19, R23, R411 to R415). The
firmware clause on a slot that loads is stated of a state in which the checks of R414 pass. -/
def Obligations.StartUp : Prop :=
  ∀ (t : Nat) (s : State),
    let x := (s.tick t).b
    (∀ i : FiddleIn, x.pwr.phase = .released → ∃ u, exec (.fiddlehead t i) s = .next u ∧ u.b.pwr.fiddleEnd = x.now ∧
      u.b.pwr.phase = (if i.rulerA ∧ i.rulerB ∧ i.wipeOk ∧ i.flagged = 128 ∧ i.equalOk ∧ i.fabricOk then .fiddled else .stopped) ∧
      (∀ step src, (if !i.rulerA then some (2, 50) else if !i.rulerB then some (2, 51) else if !i.wipeOk then some (3, 65)
          else if i.flagged ≠ 128 then some (4, 450) else if !i.equalOk then some (4, 451) else if !i.fabricOk then some (5, 498) else none) =
          some (step, src) → u.b.pwr.stoppedStep = step ∧ u.b.pwr.stopSource = src ∧ ∃ y ∈ u.b.fcl.arrivals, y.id = src)) ∧
    (x.pwr.phase = .fiddled → x.lcs.scanOpen = false →
      (∀ k f, x.fwChosen = some k → x.fwSlotOf k = some f →
        (f.major = 1 → ∃ u, exec (.firmwareLoad t) s = .next u ∧ u.b.pwr.phase = .firmwareUp ∧ u.b.pwr.fwLoaded = true ∧ u.b.pwr.fwSlot = k ∧
          u.b.pwr.fwSec = f.secVersion ∧ u.b.pwr.fwMajor = f.major ∧ u.b.pwr.fwMinor = f.minor) ∧
        (f.major ≠ 1 → exec (.firmwareLoad t) s = .fault .outsideThisEdition)) ∧
      (x.fwChosen = none → ∃ u, exec (.firmwareLoad t) s = .next u ∧ u.b.pwr.phase = .stopped ∧ u.b.pwr.stoppedStep = 6 ∧
        u.b.pwr.stopSource = 27 ∧ ∃ y ∈ u.b.fcl.arrivals, y.id = 27)) ∧
    (x.pwr.fwLoaded = true → x.cfg.image.isSome = true → x.cfg.dry = false → x.life ≠ .blank → x.cntValue 0 < x.pwr.fwSec →
      x.cntExhausted 0 = false → ∃ u, exec (.antiRollbackAdvance t) s = .next u ∧ u.b.cntValue 0 = x.cntValue 0 + 1) ∧
    (∀ a b, x.tru.aRunning = true ∨ x.tru.bRunning = true → ∃ u, exec (.paceWindowEnd t a b) s = .next u ∧
      ∀ i p, i < 16 → (if i < 8 then a[i]? else b[i - 8]?) = some p → nget u.b.pwr.paces i 0 = min p 255 ∧
        u.b.pwr.slow.getLsbD i = decide (p < 100) ∧ u.b.fcl.cause.getLsbD (32 + i) = decide (p < 100)) ∧
    (x.tru.bRunning = true → ∃ u, exec (.oscillatorStop t .a) s = .next u ∧ u.b.tru.aRunning = false ∧ u.b.tru.xaEdges = false ∧
      u.b.tru.bRunning = true ∧ u.b.fcl.arrivals.map (·.id) = x.fcl.arrivals.map (·.id) ++ [50]) ∧
    (x.tru.aRunning = true → ∃ u, exec (.oscillatorStop t .b) s = .next u ∧ u.b.tru.bRunning = false ∧ u.b.tru.xbEdges = false ∧
      u.b.tru.aRunning = true ∧ u.b.fcl.arrivals.map (·.id) = x.fcl.arrivals.map (·.id) ++ [51])

/-- NAND_PROGRAM_COMPLETE, BLOCK_ERASE_COMPLETE, NAND_TIMEOUT, HEAD_SEARCH_COMPLETE (R25, R51, R223, R329, R331, R335,
R336). -/
def Obligations.RecorderStore : Prop :=
  ∀ (t : Nat) (s : State),
    let r := s.b.recd
    (∀ ok y rest, s.b.nandOn = true → r.accepting = true → r.buffer = y :: rest → r.needsErase = false →
      let slot := r.slotFor y.seq
      ∃ u, exec (.nandProgramComplete t ok) s = .next u ∧
        nget u.b.recd.nand slot none = some { record := y.placed slot (r.prevFor y.seq), marked := ok } ∧
        (∀ k, k ≠ slot → nget u.b.recd.nand k none = nget r.nand k none) ∧
        (ok = true → u.b.recd.buffer = rest ∧ u.b.recd.lastSeq = y.seq ∧ u.b.recd.failsInRow = 0 ∧ u.b.recd.isVolatile = false) ∧
        (ok = false → r.failsInRow < 2 → u.b.recd.buffer = r.buffer ∧ u.b.recd.failsInRow = r.failsInRow + 1 ∧ u.b.recd.isVolatile = false) ∧
        (ok = false → 2 ≤ r.failsInRow → u.b.recd.isVolatile = true)) ∧
    (∀ block ok y rest, s.b.nandOn = true → r.buffer = y :: rest → r.needsErase = true → slotBlock (r.slotFor y.seq) = block →
      ∃ u, exec (.blockEraseComplete t block ok) s = .next u ∧
        (∀ k, nget u.b.recd.nand k none = if slotBlock k = block then none else nget r.nand k none) ∧
        (ok = true → u.b.recd.buffer = r.buffer ∧ u.b.recd.retired = r.retired ∧
          (∀ k, nget u.b.recd.erases k 0 = nget r.erases k 0 + (if k = block then 1 else 0)) ∧
          u.b.fcl.arrivals.map (·.id) = s.b.fcl.arrivals.map (·.id) ++
            (if nget r.erases block 0 + 1 = 96000 ∧ 256 ≤ block then [490] else [])) ∧
        (ok = false → block ∈ u.b.recd.retired ∧ (∀ k, k ∈ r.retired → k ∈ u.b.recd.retired) ∧ (∃ a ∈ u.b.fcl.arrivals, a.id = 493) ∧
          (64 < u.b.recd.rollingRetired → u.b.recd.isVolatile = true))) ∧
    (s.b.nandOn = true → ∃ u, exec (.nandTimeout t) s = .next u ∧ u.b.recd.isVolatile = true ∧ u.b.recd.nand = r.nand) ∧
    (r.headFound = false → s.b.tru.aRunning = true →
      let r0 := { r with clearedBelow := r.newestClear }
      let newest := newestOf r0.usable
      ∃ u, exec (.headSearchComplete t) s = .next u ∧ u.b.recd.headFound = true ∧ u.b.recd.isVolatile = false ∧ u.b.recd.nand = r.nand ∧
        u.b.recd.clearedBelow = r.newestClear ∧
        u.b.recd.powerCycles = min ((match newest with | some x => x.powerCycles | none => 0) + 1) (2 ^ 32 - 1) ∧
        u.b.tru.baseValid = true ∧ u.b.tru.opBase = (match newest with | some x => x.opTime | none => 0) ∧
        u.b.tsy.floorCell = cellFloor r0.usable ∧
        u.b.sys.nextNumber = nextSentence (max s.b.hintSentence (match newest with | some x => x.sentence | none => 0)))

/-- REC_WINDOW_LOAD, REC_CLEAR, CLEAR_ERASE_COMPLETE, REC_FW_REQ, EXPORT_START, EXPORT_ABANDON, EXPORT_COMPLETE (R325,
R333, R334, R337, R338). -/
def Obligations.RecorderCommands : Prop :=
  ∀ (t : Nat) (rd : Reader) (w : Word) (tok : BitVec 16) (s : State),
    let x := (s.tick t).b
    let method := fld w 1 0
    let owner := fld w 3 2
    let ok := if method = 1 then x.proofOk rd else x.ownerSigned owner (sigValue x.recd.sig) (x.clearBytes rd.idx)
    let e := nget s.b.recd.exports rd.idx {}
    (s.b.reaches rd pREC = true → ∃ u : State, exec (.recWindowLoad t rd w) s = .next (u.result rd pREC rDone) ∧
      nget u.b.recd.windows rd.idx {} = x.windowFor (fld w 15 0 * 2 ^ 32 + (s.b.own rd.idx (pREC + 0x128)).toNat) ∧
      (s.b.recd.headFound = false → (nget u.b.recd.windows rd.idx {}).state = 3) ∧
      (∀ q, q ≠ rd.idx → nget u.b.recd.windows q {} = nget s.b.recd.windows q {}) ∧ u.b.own rd.idx (pREC + 0x12C) = w &&& 0xFFFF) ∧
    (s.b.takes rd pREC (wTok w) = true →
      (rd.port = 3 → exec (.recClear t rd w) s = .next ((s.tick t).keeps rd pREC (wTok w) rNotAuth)) ∧
      (rd.port ≠ 3 → method ≠ 1 → method ≠ 2 → exec (.recClear t rd w) s = .next ((s.tick t).keeps rd pREC (wTok w) rBadArg)) ∧
      (rd.port ≠ 3 → method = 1 ∨ method = 2 →
        (s.b.recd.isVolatile = true ∨ s.b.recd.clearErasing = true →
          exec (.recClear t rd w) s = .next (((s.tick t).newNonce rd.idx).keeps rd pREC (wTok w) rRefused)) ∧
        (s.b.recd.isVolatile = false → s.b.recd.clearErasing = false →
          (ok = false → exec (.recClear t rd w) s = .next ((((s.tick t).newNonce rd.idx).raise 8 (mkw rd.idx)).keeps rd pREC (wTok w) rNotAuth)) ∧
          (ok = true → ∃ u : State, exec (.recClear t rd w) s = .next (u.keeps rd pREC (wTok w) rDone) ∧ u.b.recd.clearedBelow = s.b.recd.seq + 1 ∧
            u.b.recd.clearErasing = true ∧ u.b.recd.nand = s.b.recd.nand))) ∧
      exec (.recFwReq t rd w) s = .next ((if w.getLsbD 0 then (s.tick t).record 0x09 (beBytes (s.b.rw (pREC + 0x13C)).toNat 4)
        else s.tick t).keeps rd pREC (wTok w) rDone)) ∧
    (s.b.recd.clearErasing = true → ∃ u, exec (.clearEraseComplete t) s = .next u ∧ u.b.recd.clearErasing = false ∧
      ∀ k, nget u.b.recd.nand k none = if slotBlock k ∈ s.b.recd.clearedBlocks then none else nget s.b.recd.nand k none) ∧
    (s.b.takes rd pREC tok = true →
      (e.count < 1 ∨ 1024 < e.count → exec (.exportStart t rd tok) s = .next ((s.tick t).keeps rd pREC tok rBadArg)) ∧
      (1 ≤ e.count → e.count ≤ 1024 → e.state ≠ 1 →
        (s.b.keyUsable = true → exec (.exportStart t rd tok) s = .next (((s.tick t).onExport rd.idx fun z =>
          { z with state := 1, seqs := ((List.range e.count).map (e.first + ·)).filter fun q => (s.b.recd.find q).state == 1 }).keeps rd pREC tok rDone)) ∧
        (s.b.keyUsable = false → exec (.exportStart t rd tok) s = .next (((s.tick t).onExport rd.idx fun z => { z with state := 4 }).keeps rd pREC tok rRefused))) ∧
      exec (.exportAbandon t rd tok) s = .next (((s.tick t).onExport rd.idx fun z => { z with state := 0, seqs := [] }).keeps rd pREC tok rDone)) ∧
    (e.state = 1 → ∃ u, exec (.exportComplete t rd) s = .next u ∧ (∀ q, q ≠ rd.idx → nget u.b.recd.exports q {} = nget s.b.recd.exports q {}) ∧
      let f := nget u.b.recd.exports rd.idx {}
      f.seqs = e.seqs ∧
      if ∀ q ∈ e.seqs, (s.b.recd.find q).state = 1 then f.state = 2 ∧ f.header = x.exportHeader e ∧
        f.hash = Config.sha256 (f.header ++ e.seqs.flatMap fun q => (s.b.recd.find q).data) ∧ f.sig = s.b.sign f.hash
      else f.state = 3)

/-- SPORE_START, SPORE_STEP, SPORE_ABORT, DTI_EXCEEDED (R341, R343, R345 to R348, R353). -/
def Obligations.Spores : Prop :=
  ∀ (t : Nat) (c : Ch) (s : State),
    let q := s.b.bst.seq c
    let x := (s.tick t).b
    (∀ i, q.due c = some i →
      (x.mayStart c i = true → ∃ u, exec (.sporeStart t c) s = .next u ∧
        (u.b.bst.seq c).running = some { index := i, start := max s.b.now t, forced := q.force } ∧
        (u.b.bst.seq c).lastStart = some s.b.sys.sent ∧ (u.b.bst.seq c).next = q.next ∧ u.b.bst.seq c.other = s.b.bst.seq c.other ∧
        max s.b.now t + sporeDur (kindOf i) + 5000 ≤ s.b.nextCapture ∧
        (kindOf i = 3 → ∀ k, s.b.pairAt ((Config.sporeMemory i).val * 16384) = some k → (s.b.pairOf k).state = 1 →
          (u.b.pairOf k).asked = true)) ∧
      (x.mayStart c i = false → exec (.sporeStart t c) s = .next (s.tick t))) ∧
    (∀ r cause, q.running = some r → ∃ u, exec (.sporeAbort t c cause) s = .next u ∧ (u.b.bst.seq c).running = none ∧
      (u.b.bst.seq c).aborts = q.aborts.inc ∧ (u.b.bst.seq c).done = q.done ∧
      (cause = .halt → (u.b.bst.seq c).waitSent = some s.b.sys.sent) ∧ (cause ≠ .halt → (u.b.bst.seq c).waitSent = q.waitSent) ∧
      (q.abortRun < 255 → (u.b.bst.seq c).abortRun = q.abortRun + 1 ∧ (u.b.bst.seq c).next = q.next ∧
        (u.b.bst.seq c).deferred = q.deferred ∧ u.b.fcl = s.b.fcl) ∧
      (255 ≤ q.abortRun → (u.b.bst.seq c).abortRun = 0 ∧ u.b.fcl.arrivals.map (·.id) = s.b.fcl.arrivals.map (·.id) ++ [503] ∧
        (r.forced = false → q.next < shareOf c → (u.b.bst.seq c).next = q.next + 1 ∧ (u.b.bst.seq c).deferred = q.deferred ++ [q.next]))) ∧
    (∀ r f, q.running = some r → x.unaligned r = false →
      (x.outOfTime r = true → exec (.sporeStep t c f) s = exec (.sporeAbort t c .timeLimit) s) ∧
      (x.outOfTime r = false →
        (f.restoreOk = false → exec (.sporeStep t c f) s = .next (State.regionLost c r.index f.region
          ((((s.tick t).sporeEnds c r).onSeqr c fun q => { q with lost := q.lost.inc }).raise 500 (sporeWord r.index)))) ∧
        (f.restoreOk = true →
          (kindOf r.index ≤ 2 ∧ r.steps ≠ 15 ∨ 2 < kindOf r.index ∧ f.last = false →
            exec (.sporeStep t c f) s = .next ((s.tick t).onSeqr c fun q => { q with running := some { r with steps := r.steps + 1 } })) ∧
          (kindOf r.index = 1 → r.steps = 15 → r.forced = false → q.shareDone = false → q.next + 1 < shareOf c →
            ∃ u, exec (.sporeStep t c f) s = .next u ∧ (u.b.bst.seq c).running = none ∧ (u.b.bst.seq c).done = q.done + 1 ∧
              (u.b.bst.seq c).next = q.next + 1 ∧ (u.b.bst.seq c).abortRun = 0 ∧
              (f.pass = true → u.b.fcl = s.b.fcl ∧ (u.b.bst.seq c).failKind = q.failKind) ∧
              (f.pass = false → (u.b.bst.seq c).failKind = 1 ∧ (u.b.bst.seq c).failIndex = r.index ∧ (u.b.bst.seq c).failSig = f.signature ∧
                u.b.fcl.arrivals.map (·.id) = s.b.fcl.arrivals.map (·.id) ++ [match c with | .a => 496 | .b => 497]))))) ∧
    (s.b.running = true → (x.dtiMax < x.dti → exec (.dtiExceeded t) s = .next ((s.tick t).cond 501 true (mkw (x.dti / 1000000)))) ∧
      (x.dti ≤ x.dtiMax → exec (.dtiExceeded t) s = .next (s.tick t)))

/-- OTP_BURN_WORD, OTP_FINALISE, OTP_RETIRE, OTP_BURN_4408_ROW, OTP_REDIRECT_4408_ROW, OTP_SESSION_COMPLETE,
OTP_VPP_OUT_OF_RANGE, OTP_READ (R359 to R364, R370, R373, R376 to R379). -/
def Obligations.Antifuses : Prop :=
  ∀ (t : Nat) (rd : Reader) (w : Word) (s : State),
    let idle := s.b.otp.session = none ∧ s.b.lcs.op = none
    let burns := fun (c : Instr) => c = .otpBurnWord t rd w ∨ c = .otpFinalise t rd w ∨ c = .otpRetire t rd w ∨ c = .otpBurn4408Row t rd w ∨
      c = .otpRedirect4408Row t rd w
    let ends := fun (c : Instr) (x : State) (r : Nat) => exec c s = .next (x.keeps rd pOTP (wTok w) r)
    let begins := fun (c : Instr) (y : Session) => ends c ((s.tick t).onOtp fun o => { o with session := some y }) rPending
    (s.b.takes rd pOTP (wTok w) = true →
      (¬ idle → ∀ c, burns c → ends c ((s.tick t).onOtp fun o => { o with waiting := o.waiting ++ [c] }) rPending) ∧
      (idle → rd.port ∉ [0, 1, 3] → ∀ c, burns c → ends c (s.tick t) rRefused) ∧
      (idle → rd.port ∈ [0, 1, 3] → s.b.unlocked rd = false → ∀ c, burns c → ends c (s.tick t) rNotAuth) ∧
      (idle → rd.port ∈ [0, 1, 3] → s.b.unlocked rd = true →
        let a := s.b.otp.progAddr
        let r := fld w 3 0
        let row := fld w 8 0
        (∀ p, s.b.physOf a = some p → a / 128 < 11 → s.b.lifeMayBurn (a / 128) = true → s.b.wlockBurned (a / 128) = false →
          (s.b.wordAt p).blank = true → begins (.otpBurnWord t rd w)
            { op := 1, target := a, first := p, data := [s.b.otp.progHi ++ s.b.otp.progLo], reader := rd.idx, token := wTok w }) ∧
        (11 < r → ends (.otpFinalise t rd w) (s.tick t) rBadArg ∧ ends (.otpRetire t rd w) (s.tick t) rBadArg) ∧
        (∀ p d, r ≤ 11 → s.b.servedBy r = some p → s.b.physOf (digestAt r) = some d → s.b.wlockBurned r = false →
          (r = 11 → s.b.wlockBurned 10 = false) → (∀ i, i < 4 → (s.b.wordAt (d + i)).blank = true) → (r ≠ 11 → s.b.wordsComplete p = true) →
          begins (.otpFinalise t rd w) { op := 2, target := r, first := d, readLock := w.getLsbD 4, reader := rd.idx, token := wTok w
                                         data := digestWords (if r = 11 then rowDigest s.b.otp.rows
                                           else digestOver r ((List.range 124).map fun i => (s.b.wordAt (p * 128 + i)).data)) }) ∧
        (∀ k, r ≤ 11 → s.b.life = .manufacture ∨ s.b.life = .provisioned → s.b.burned (43 + r) = false → s.b.freeSpare = some k →
          ∃ u : State, ends (.otpRetire t rd w) u rDone ∧ u.b.burned (43 + r) = true ∧ u.b.otp.latched = s.b.otp.latched ∧
            (∀ i, i < 4 → (r + 1).testBit i = true → u.b.burned (55 + 4 * (k - 12) + i) = true) ∧
            ∀ j, j ≠ 43 + r → (∀ i, i < 4 → (r + 1).testBit i = true → j ≠ 55 + 4 * (k - 12) + i) → u.b.burned j = s.b.burned j) ∧
        (row < 288 → s.b.lifeMayBurn 11 = true → s.b.wlockBurned 11 = false → begins (.otpBurn4408Row t rd w)
          { op := 5, target := row, first := row, data := [s.b.otp.progLo.zeroExtend 64], reader := rd.idx, token := wTok w }) ∧
        (288 ≤ row → ends (.otpBurn4408Row t rd w) (s.tick t) rBadArg) ∧
        (∀ p, s.b.freeRedirect = some p → s.b.lifeMayBurn 10 = true → s.b.wlockBurned 10 = false → begins (.otpRedirect4408Row t rd w)
          { op := 6, target := fld w 7 0, first := p, data := [BitVec.ofNat 64 (256 + fld w 7 0)], reader := rd.idx, token := wTok w }))) ∧
    (∀ y, s.b.otp.session = some y → s.b.otp.waiting = [] →
      let tok := s.b.tokenOf pOTP y.reader
      (∀ o, let v := s.b.sessionVerdict y o
        ∃ u, exec (.otpSessionComplete t o) s = .next u ∧ u.b.otp.session = none ∧
          (y.op ≠ 5 → ∀ i z, i < y.data.length → o.words[i]? = some z → u.b.wordAt (y.first + i) = { normal := z.1, strict := z.2 }) ∧
          (y.op = 5 → ∀ z l, o.words = z :: l → nget u.b.otp.rows y.target 0 = z.1.truncate 32 ∧
            nget u.b.otp.rowsStrict y.target 0 = z.2.truncate 32) ∧
          u.b.fcl.arrivals.map (·.id) = s.b.fcl.arrivals.map (·.id) ++ (if v = 1 then [75] else if v = 2 then [81] else []) ∧
          (y.op = 2 → v = 0 → ∀ p, s.b.servedBy y.target = some p → u.b.burned (11 + p) = true ∧
            (y.readLock = true → u.b.burned (27 + p) = true)) ∧
          (tok.token = y.token → tok.kept = rPending →
            (u.b.tokenOf pOTP y.reader).kept = if v = 2 ∨ (y.op = 2 ∧ v ≠ 0) then rBadArg else rDone)) ∧
      (∀ mv l, (5300 ≤ mv ∧ mv ≤ 5700 → exec (.otpVppOutOfRange t mv l) s = .next (s.tick t)) ∧
        (¬ (5300 ≤ mv ∧ mv ≤ 5700) → ∃ u, exec (.otpVppOutOfRange t mv l) s = .next u ∧ u.b.otp.session = none ∧
          (y.op ≠ 5 → ∀ i z, i < y.data.length → l[i]? = some z → u.b.wordAt (y.first + i) = { normal := z.1, strict := z.2 }) ∧
          u.b.fcl.arrivals.map (·.id) = s.b.fcl.arrivals.map (·.id) ++ [83] ∧
          (tok.token = y.token → tok.kept = rPending → (u.b.tokenOf pOTP y.reader).kept = rRefused)))) ∧
    (s.b.reaches rd pOTP = true → let a := fld w 10 0
      (1536 ≤ a → exec (.otpRead t rd w) s = .next ((s.tick t).result rd pOTP rBadArg)) ∧
      (a < 1536 → exec (.otpRead t rd w) s = .next (((s.tick t).onOtp fun o =>
        { o with reads := nset o.reads rd.idx { addr := a, value := (s.b.otpRead a).1, info := (s.b.otpRead a).2 } {} }).result rd pOTP rDone)))

/-- LC_TO_MANUFACTURE, GENERATE_KEY, LC_TO_PROVISIONED, LC_TO_DEPLOYED, LC_TO_RETURNED, DEBUG_UNLOCK, OPEN_SCAN (R382
to R387, R389, R390, R395). -/
def Obligations.LifeCycleCommands : Prop :=
  ∀ (t : Nat) (rd : Reader) (w : Word) (s : State),
    let x := (s.tick t).b
    let method := fld w 15 14
    let ends := fun (c : Instr) (y : State) (r : Nat) => exec c s = .next (y.keeps rd pLCS (wTok w) r)
    let ids := fun (u : State) (l : List Nat) => u.b.fcl.arrivals.map (·.id) = s.b.fcl.arrivals.map (·.id) ++ l
    let cmd := fun (op : Nat) (c : Instr) => op = 1 ∧ c = .lcToManufacture t rd w ∨ (∃ h p, op = 2 ∧ c = .generateKey t rd w h p) ∨
      op = 3 ∧ c = .lcToProvisioned t rd w ∨ op = 4 ∧ c = .lcToDeployed t rd w ∨ (∃ d, op = 5 ∧ c = .lcToReturned t rd w d) ∨
      op = 6 ∧ c = .debugUnlock t rd w ∨ op = 7 ∧ c = .openScan t rd w
    let may := fun (op : Nat) => s.b.lcsFrom op = true ∧ rd.port ∈ lcsPorts op ∧ s.b.pwr.powerDown = false ∧ nget s.b.lcs.blocked rd.port none = none
    let auth := fun (op : Nat) => s.b.unlocked rd = true ∧ (op ∈ [4, 5, 6] → method = 2 ∧
      s.b.ownerSigned (fld w 13 12) (sigValue s.b.lcs.sig) (x.ownerBytes rd.idx op) = true)
    let begun := fun (op : Nat) (c : Instr) => ∃ u : State, ends c u rPending ∧ u.b.lcs.op = some op ∧ u.b.lcs.step = 3 ∧ u.b.lcs.reader = rd.idx ∧
      u.b.lcs.token = wTok w ∧ ids u [69] ∧ (s.b.nandOn = true → u.b.recd.buffer = [])
    let fails := fun (c : Instr) (l : List Nat) => ∃ u : State, ends c u rBadArg ∧ ids u l ∧ u.b.lcs.op = none
    s.b.takes rd pLCS (wTok w) = true →
    (¬ (s.b.otp.session = none ∧ s.b.lcs.op = none) → ∀ op c, cmd op c →
      ends c ((s.tick t).onOtp fun o => { o with waiting := o.waiting ++ [c] }) rPending) ∧
    (s.b.otp.session = none → s.b.lcs.op = none →
      (∀ op c, cmd op c →
        (¬ may op → ends c (s.tick t) rRefused) ∧
        (may op → method = 1 ∨ method = 3 → ends c (s.tick t) rBadArg) ∧
        (may op → method = 0 ∨ method = 2 → ¬ auth op → ∃ u : State, ends c u rNotAuth ∧ ids u [66] ∧
          nget u.b.lcs.refusals rd.port 0 = nget s.b.lcs.refusals rd.port 0 + 1 ∧
          (4 ≤ nget s.b.lcs.refusals rd.port 0 → nget u.b.lcs.blocked rd.port none = some (max s.b.now t)))) ∧
      (method = 0 ∨ method = 2 →
        (may 1 → auth 1 → (s.b.regionBad 0 = false → s.b.regionBad 1 = false → begun 1 (.lcToManufacture t rd w)) ∧
          (s.b.regionBad 0 = true ∨ s.b.regionBad 1 = true → fails (.lcToManufacture t rd w) [])) ∧
        (may 2 → auth 2 →
          (s.b.keyBlank = false ∨ s.b.fcl.a.latch.getLsbD 88 = true → ∀ h p, fails (.generateKey t rd w h p) []) ∧
          (s.b.keyBlank = true → s.b.fcl.a.latch.getLsbD 88 = false →
            (∃ u r, ends (.generateKey t rd w true true) u r ∧ (if Config.keyBurns s.draws = true then
              r = rDone ∧ u.b.key.vault = some (Config.entropy s.draws) ∧ u.b.key.held = true ∧
              u.b.key.pub = Config.derivePub (Config.entropy s.draws) ∧ u.b.burned 6 = true ∧ ids u [69] ∧ u.draws = s.draws + 1
              else r = rBadArg ∧ ids u [69, 64] ∧ u.b.lcs.op = none)) ∧
            (∀ p, fails (.generateKey t rd w false p) [69, 88]) ∧ fails (.generateKey t rd w true false) [69, 89])) ∧
        (may 3 → auth 3 → (s.b.key.vault.isSome = true → s.b.key.certLen ≤ 992 →
          Config.certAccepted s.b.key.certBytes s.b.serial s.b.key.pub = true → begun 3 (.lcToProvisioned t rd w)) ∧
          (s.b.key.vault = none ∨ 992 < s.b.key.certLen → fails (.lcToProvisioned t rd w) [])) ∧
        (may 4 → auth 4 → (s.b.mayDeploy = true → s.b.cfg.image.isSome = true → s.b.img.certs ≠ [] → begun 4 (.lcToDeployed t rd w)) ∧
          (s.b.mayDeploy = false ∨ s.b.cfg.image = none ∨ s.b.img.certs = [] → fails (.lcToDeployed t rd w) [])) ∧
        (may 5 → auth 5 → (∃ u : State, ends (.lcToReturned t rd w true) u rPending ∧ u.b.lcs.op = some 5 ∧ u.b.key.vault = none ∧ u.b.key.held = false ∧
            u.b.burned 7 = true ∧ ids u [69] ∧ ∀ p, p ∈ s.b.keyWords → u.b.wordAt p = { normal := BitVec.allOnes 72, strict := BitVec.allOnes 72 }) ∧
          ∃ u : State, ends (.lcToReturned t rd w false) u rBadArg ∧ ids u [69, 68] ∧ u.b.key.vault = none ∧ u.b.burned 7 = true) ∧
        (may 6 → auth 6 → ∃ u : State, ends (.debugUnlock t rd w) u rDone ∧ u.b.lcs.debugDue = true ∧ u.b.lcs.unlocked = true ∧
          ∃ a ∈ u.b.fcl.arrivals, a.id = 476) ∧
        (may 7 → auth 7 → begun 7 (.openScan t rd w))))

/-- LIFE_CYCLE_RESET, LCS_BLOCK_END, ATTESTATION_START, ATTESTATION_COMPLETE (R383, R385, R386, R388, R389, R427; log
62 for the burn that fails). -/
def Obligations.LifeCycleEnds : Prop :=
  ∀ (t : Nat) (rd : Reader) (w : Word) (s : State),
    let x := (s.tick t).b
    let bits := fun (op : Nat) => if op = 1 then [0] else if op = 3 then [4, 9, 1] else if op = 4 then [5, 10, 2] else if op = 5 then [3] else []
    let a := nget s.b.key.att rd.idx {}
    let usable := s.b.keyUsable = true ∧ s.b.lcs.op = none
    (∀ op, s.b.lcs.op = some op →
      (∃ u, exec (.lifeCycleReset t true) s = .next u ∧ u.b.pwr.cause = 4 ∧ (∀ i, i ∈ bits op → u.b.burned i = true) ∧
        (∀ i, s.b.burned i = true → u.b.burned i = true) ∧ u.b.lcs.op = none ∧ u.b.cfg.image = none ∧ u.b.fcl.a.latch = 0 ∧ u.b.fcl.b.latch = 0 ∧
        u.b.sog = {} ∧ u.b.recd.buffer = [] ∧ u.shown = none) ∧
      (s.b.otp.waiting = [] → ∃ u, exec (.lifeCycleReset t false) s = .next u ∧ u.b.lcs.op = none ∧ (∃ y ∈ u.b.fcl.arrivals, y.id = 64) ∧
        (∀ i, s.b.burned i = true → u.b.burned i = true) ∧
        ((s.b.tokenOf pLCS s.b.lcs.reader).token = s.b.lcs.token → (s.b.tokenOf pLCS s.b.lcs.reader).kept = rPending →
          (u.b.tokenOf pLCS s.b.lcs.reader).kept = rBadArg))) ∧
    (s.b.lcs.op = none → ∀ ok, exec (.lifeCycleReset t ok) s = .next (s.tick t)) ∧
    (∀ t0, nget s.b.lcs.blocked rd.port none = some t0 →
      (t0 + 60000000000 ≤ x.now → exec (.lcsBlockEnd t rd) s = .next ((s.tick t).onLcs fun l =>
        { l with blocked := nset l.blocked rd.port none none, refusals := nset l.refusals rd.port 0 0 })) ∧
      (x.now < t0 + 60000000000 → exec (.lcsBlockEnd t rd) s = .next (s.tick t))) ∧
    (nget s.b.lcs.blocked rd.port none = none → exec (.lcsBlockEnd t rd) s = .next (s.tick t)) ∧
    (s.b.takes rd pKEY (wTok w) = true →
      (w.getLsbD 0 = false → exec (.attestationStart t rd w) s = .next ((s.tick t).keeps rd pKEY (wTok w) rDone)) ∧
      (w.getLsbD 0 = true → usable → exec (.attestationStart t rd w) s =
        .next (((s.tick t).onAtt rd.idx fun y => { y with running := true, ready := false }).keeps rd pKEY (wTok w) rDone)) ∧
      (w.getLsbD 0 = true → ¬ usable → exec (.attestationStart t rd w) s = .next ((s.tick t).keeps rd pKEY (wTok w) rRefused))) ∧
    (a.running = false → exec (.attestationComplete t rd) s = .next (s.tick t)) ∧
    (a.running = true → usable → ∃ u body, exec (.attestationComplete t rd) s = .next u ∧ body.length = 144 ∧ body.take 3 = [0, 1, BitVec.ofNat 8 s.b.life.code] ∧
      (body.drop 4).take 8 = beBytes s.b.serial.toNat 8 ∧ (body.drop 20).take 16 = (List.range 4).flatMap (fun i => beBytes (nget a.nonce i 0).toNat 4) ∧
      nget u.b.key.att rd.idx {} = { a with running := false, ready := true, report := body ++ beBytes (s.b.sign (Config.sha256 body)).toNat 64 }) ∧
    (a.running = true → ¬ usable → exec (.attestationComplete t rd) s = .next ((s.tick t).onAtt rd.idx fun y => { y with running := false }))

/-- CFG_OPEN to CFG_WRITE_PLUG (R416, R423, R426 to R432, R439; log 62 for a slot that loads by any mark and for the
order of refusals). -/
def Obligations.ConfigCommands : Prop :=
  ∀ (t : Nat) (rd : Reader) (w : Word) (spells : Spells) (s : State),
    let named := fun (op : Nat) => (s.tick t).onCfg fun c => { c with resultOp := op, resultCheck := 0, resultSection := 0 }
    let k := fld w 15 12
    let ends := fun (c : Instr) (y : State) (r : Nat) => exec c s = .next (y.keeps rd pCFG (wTok w) r)
    let cmd := fun (op : Nat) (c : Instr) => op = 1 ∧ c = .cfgOpen t rd w ∨ op = 2 ∧ c = .cfgProgramWindow t rd w spells ∨ op = 3 ∧ c = .cfgSeal t rd w ∨
      op = 4 ∧ c = .cfgLoad t rd w ∨ op = 5 ∧ c = .cfgAccept t rd w ∨ op = 6 ∧ c = .cfgCancelAccept t rd w ∨ op = 7 ∧ c = .cfgDiscard t rd w ∨
      op = 8 ∧ c = .cfgWritePlug t rd w
    let stop7 := s.b.pwr.phase = .stopped ∧ s.b.pwr.stoppedStep = 7
    let may := fun (op : Nat) => op = 6 ∨ rd.port ≠ 3 ∧ s.b.unlocked rd = true ∨
      stop7 ∧ s.b.life ≠ .deployed ∧ 1 ≤ op ∧ op ≤ 4 ∧ k < 8 ∧ (rd.port = 1 ∨ rd.port = 3)
    let up := nget s.b.cfg.uploads rd.idx {}
    let old := nget s.b.cfg.slots k {}
    let shut := old.isOpen = false ∨ s.b.slotBusy k = true
    let fits := up.off % 256 = 0 ∧ (k < 8 → up.off + 256 ≤ 8386560)
    let fails := fun (u : State) (check sect id : Nat) => u.b.cfg.resultCheck = check ∧ u.b.cfg.resultSection = sect ∧
      u.b.fcl.arrivals.map (·.id) = s.b.fcl.arrivals.map (·.id) ++ [id] ∧ u.b.cfg.slots = s.b.cfg.slots
    let sealed := ∃ u : State, ends (.cfgSeal t rd w) u rDone ∧ (nget u.b.cfg.slots k {}).isOpen = false ∧
      ∃ m, (nget u.b.cfg.slots k {}).marks = m :: old.marks ∧ m.kind = 1 ∧ m.seq = s.b.recd.seq
    let loadable := ¬ (s.b.slotBusy k = true ∨ s.b.cfg.loadDue.isSome = true ∨ s.b.cfg.loading.isSome = true ∨ old.marks = []) ∧ (stop7 ∨ s.b.running = true)
    s.b.takes rd pCFG (wTok w) = true →
    (∀ op c, cmd op c → (9 < k → ends c (named op) rBadArg) ∧ (k ≤ 9 → ¬ may op → ends c (named op) rNotAuth)) ∧
    (k ≤ 9 →
      (may 1 → (s.b.slotBusy k = true → ends (.cfgOpen t rd w) (named 1) rRefused) ∧
        (s.b.slotBusy k = false → ends (.cfgOpen t rd w) ((named 1).onSlot k fun _ => { isOpen := true }) rDone)) ∧
      (may 2 → (shut → ends (.cfgProgramWindow t rd w spells) (named 2) rRefused) ∧
        (¬ shut → ¬ fits → ends (.cfgProgramWindow t rd w spells) (named 2) rBadArg) ∧
        (¬ shut → fits → ∃ u : State, ends (.cfgProgramWindow t rd w spells) u rDone ∧
          (∀ i, i < 256 → nget (nget u.b.cfg.slots k {}).bytes (up.off + i) 0 = up.bytes.getD i 0) ∧
          (∀ a, a < up.off ∨ up.off + 256 ≤ a → nget (nget u.b.cfg.slots k {}).bytes a 0 = nget old.bytes a 0) ∧
          (nget u.b.cfg.uploads rd.idx {}).off = (up.off + 256) % 2 ^ 23 ∧ (nget u.b.cfg.uploads rd.idx {}).data = up.data)) ∧
      (may 3 → (shut → ends (.cfgSeal t rd w) (named 3) rRefused) ∧
        (¬ shut → k < 8 → (∀ x, (named 3).b.slotFails k = some x → ∃ u : State, ends (.cfgSeal t rd w) u rBadArg ∧ fails u x.1 x.2 504) ∧
          ((named 3).b.slotFails k = none → sealed)) ∧
        (¬ shut → 8 ≤ k → (∀ x, (named 3).b.fwFails (k - 8) = some x → ∃ u : State, ends (.cfgSeal t rd w) u rBadArg ∧ fails u x 0 26) ∧
          ((named 3).b.fwFails (k - 8) = none → sealed))) ∧
      (may 4 → (8 ≤ k → ends (.cfgLoad t rd w) (named 4) rBadArg) ∧ (k < 8 → ¬ loadable → ends (.cfgLoad t rd w) (named 4) rRefused) ∧
        (k < 8 → loadable → ∃ u : State, ends (.cfgLoad t rd w) u rPending ∧ u.b.cfg.loadBy = some (rd.idx, wTok w) ∧
          (stop7 → u.b.cfg.loading = some k) ∧ (¬ stop7 → u.b.cfg.loadDue = some k ∧ u.b.cfg.loading = none) ∧
          (s.b.cfg.acceptState = 1 → u.b.cfg.acceptState = 0 ∧ ∃ y ∈ u.b.fcl.arrivals, y.id = 505))) ∧
      (may 5 → (s.b.mayAccept = false → ends (.cfgAccept t rd w) (named 5) rRefused) ∧
        (s.b.mayAccept = true → s.b.proofOk rd = false → ends (.cfgAccept t rd w) (((named 5).newNonce rd.idx).raise 8 (mkw rd.idx)) rNotAuth) ∧
        (s.b.mayAccept = true → s.b.proofOk rd = true → ∃ u : State, ends (.cfgAccept t rd w) u rPending ∧ u.b.cfg.acceptState = 1 ∧
          u.b.cfg.acceptAt = max s.b.now t ∧ u.b.cfg.acceptBy = some (rd.idx, wTok w) ∧ u.b.cfg.acceptOut = false ∧ u.b.hif.irqPend.getLsbD 2 = true)) ∧
      ((s.b.cfg.acceptState = 1 → ∃ u : State, ends (.cfgCancelAccept t rd w) u rDone ∧ u.b.cfg.acceptState = 0 ∧
          u.b.fcl.arrivals.map (·.id) = s.b.fcl.arrivals.map (·.id) ++ [505]) ∧
        (s.b.cfg.acceptState ≠ 1 → ends (.cfgCancelAccept t rd w) (named 6) rRefused)) ∧
      (may 7 → (8 ≤ k → ends (.cfgDiscard t rd w) (named 7) rBadArg) ∧ (k < 8 → s.b.slotBusy k = true → ends (.cfgDiscard t rd w) (named 7) rRefused) ∧
        (k < 8 → s.b.slotBusy k = false → ends (.cfgDiscard t rd w) ((named 7).onSlot k fun _ => {}) rDone)) ∧
      (may 8 → (s.b.acceptedImage = none → ends (.cfgWritePlug t rd w) (named 8) rRefused) ∧
        (∀ im, s.b.acceptedImage = some im → im.plugMode = 0 ∨ s.b.cfg.plugWriting.isSome = true → ends (.cfgWritePlug t rd w) (named 8) rRefused) ∧
        (∀ im, s.b.acceptedImage = some im → im.plugMode ≠ 0 → s.b.cfg.plugWriting = none →
          (s.b.cfg.plugMbit ≠ 0 ∧ s.b.cfg.plugMbit * 2097152 < 4096 + im.length → ∃ u : State, ends (.cfgWritePlug t rd w) u rRefused ∧ u.b.cfg.plugState = 6 ∧
            u.b.fcl.arrivals.map (·.id) = s.b.fcl.arrivals.map (·.id) ++ [506]) ∧
          (¬ (s.b.cfg.plugMbit ≠ 0 ∧ s.b.cfg.plugMbit * 2097152 < 4096 + im.length) → ∃ u : State, ends (.cfgWritePlug t rd w) u rPending ∧ u.b.cfg.plugState = 7 ∧
            u.b.cfg.plugWriting = some im ∧ u.b.cfg.plugBy = some (rd.idx, wTok w)))))

/-- CONFIG_LOAD, CONFIG_LOAD_COMPLETE, ACCEPTANCE_ACK, ACCEPTANCE_TIMEOUT, PLUG_WRITE_COMPLETE (R416, R423, R426 to
R432). -/
def Obligations.ConfigEvents : Prop :=
  ∀ (t mbit : Nat) (plug : PlugFind) (s : State),
    let x := (s.tick t).b
    let ids := fun (u : State) (l : List Nat) => u.b.fcl.arrivals.map (·.id) = s.b.fcl.arrivals.map (·.id) ++ l
    let small := fun (im : Image) (m : Nat) => m * 2097152 < 4096 + im.length
    (s.b.cfg.plugWriting = none → exec (.plugWriteComplete t mbit) s = .next (s.tick t)) ∧
    (∀ im, s.b.cfg.plugWriting = some im →
      (small im mbit → ∃ v : State, exec (.plugWriteComplete t mbit) s = .next (v.settleBy s.b.cfg.plugBy rRefused) ∧ v.b.cfg.plugState = 6 ∧
        v.b.cfg.plugWriting = none ∧ v.b.cfg.plugMbit = mbit ∧ ids v [506]) ∧
      (¬ small im mbit → ∃ v : State, exec (.plugWriteComplete t mbit) s = .next (v.settleBy s.b.cfg.plugBy rDone) ∧ v.b.cfg.plugState = 2 ∧
        v.b.cfg.plugGen = im.gen ∧ v.b.cfg.plugWriting = none ∧ v.b.cfg.plugMbit = mbit ∧ ids v [])) ∧
    (¬ (s.b.cfg.acceptState = 1 ∧ s.b.cfg.acceptAt + 60000000000 ≤ x.now) → exec (.acceptanceTimeout t) s = .next (s.tick t)) ∧
    (s.b.cfg.acceptState = 1 → s.b.cfg.acceptAt + 60000000000 ≤ x.now → ∃ v : State, exec (.acceptanceTimeout t) s = .next (v.settleBy s.b.cfg.acceptBy rRefused) ∧
      v.b.cfg.acceptState = 3 ∧ v.b.cfg.acceptOut = false ∧ ids v [505]) ∧
    (¬ (s.b.cfg.acceptState = 1 ∧ s.b.cfg.acceptOut = true) → exec (.acceptanceAck t) s = .next (s.tick t)) ∧
    (s.b.cfg.acceptState = 1 → s.b.cfg.acceptOut = true → ∃ u : State, exec (.acceptanceAck t) s = .next u ∧ u.b.cfg.acceptState = 2 ∧ u.b.cfg.acceptOut = false ∧
      u.b.cfg.acceptBy = none ∧ u.b.cfg.clearDry = true ∧
      (∃ m l, (nget u.b.cfg.slots s.b.cfg.slot {}).marks = m :: l ∧ m.kind = 3 ∧ m.generation = ((nget s.b.cfg.slots s.b.cfg.slot {}).image.map (·.gen)).getD 0) ∧
      (s.b.life = .deployed → s.b.img.generation ≤ u.b.cntValue 1 ∨ u.b.cntExhausted 1 = true) ∧ (s.b.life ≠ .deployed → u.b.otp = s.b.otp) ∧
      (∀ im, (nget s.b.cfg.slots s.b.cfg.slot {}).image = some im → 1 ≤ im.plugMode → s.b.cfg.plugMbit = 0 ∨ ¬ small im s.b.cfg.plugMbit →
        u.b.cfg.plugState = 7 ∧ u.b.cfg.plugWriting = some im) ∧
      (∀ r tok, s.b.cfg.acceptBy = some (r, tok) → (s.b.tokenOf pCFG r).token = tok → (s.b.tokenOf pCFG r).kept = rPending → (u.b.tokenOf pCFG r).kept = rDone)) ∧
    (s.b.cfg.loading = none → exec (.configLoadComplete t) s = .next (s.tick t)) ∧
    (∀ k, s.b.cfg.loading = some k →
      (∀ im, x.slotFails k = none → (x.slot k).image = some im → ∃ v : State, exec (.configLoadComplete t) s = .next (v.settleBy s.b.cfg.loadBy rDone) ∧
        v.b.cfg.image = some im.in4408 ∧ v.b.cfg.slot = k ∧ v.b.cfg.dry = true ∧ v.b.cfg.loading = none ∧ v.b.pwr.phase = .running ∧
        ∃ m l, (nget v.b.cfg.slots k {}).marks = m :: l ∧ m.kind = 2 ∧ m.generation = im.gen) ∧
      (∀ f, x.slotFails k = some f → ∃ v : State, exec (.configLoadComplete t) s = .next (v.settleBy s.b.cfg.loadBy rBadArg) ∧ v.b.cfg.resultOp = 4 ∧
        v.b.cfg.resultCheck = f.1 ∧ v.b.cfg.resultSection = f.2 ∧ v.b.cfg.image = s.b.cfg.image ∧ v.b.cfg.loading = none ∧ ids v [504])) ∧
    (s.b.pwr.phase ≠ .firmwareUp → exec (.configLoad t plug) s = .next (s.tick t)) ∧
    (s.b.pwr.phase = .firmwareUp →
      (∃ u : State, exec (.configLoad t plug) s = .next u ∧ (u.b.pwr.phase = .running ∧ u.b.cfg.image.isSome = true ∨ u.b.pwr.phase = .stopped ∧ u.b.pwr.stoppedStep = 7)) ∧
      (∀ k l im, x.readsPlug = false → x.loadOrder = k :: l → x.slotFails k = none → (x.slot k).image = some im →
        ∃ u : State, exec (.configLoad t plug) s = .next u ∧ u.b.pwr.phase = .running ∧ u.b.cfg.image = some im.in4408 ∧ u.b.cfg.slot = k ∧
          u.b.cfg.dry = ((x.slot k).acceptSeq.isNone || s.b.life == .returned)))

/-- HIF_READ, HIF_WRITE, HIF_FRAME_ABORT, DTLS_HANDSHAKE (R32, R33, R392, R434, R435, R436). -/
def Obligations.HostPort : Prop :=
  ∀ (t : Nat) (bytes : List Byte) (j owner : Fin 4) (client : Bool) (s : State),
    let ids := fun (u : State) (l : List Nat) => u.b.fcl.arrivals.map (·.id) = s.b.fcl.arrivals.map (·.id) ++ l
    let n := hifLength bytes
    let bs := bytes.take n
    let id := hifId bs
    let check := bytesAt bs (n - 2) 2
    let good := (crc16 (bs.take (n - 2))).toNat = beAt bs (n - 2) 2
    let answers := fun (c : Instr) (f : Hif → Hif) (l : List Nat) (r : List Byte) =>
      ∃ u : State, exec c s = .next u ∧ u.b.hif = { f s.b.hif with response := some r } ∧ ids u l
    let addr := hifAddr bs
    let all := (List.range (hifWords bs)).all fun i => accessOk (addr + 4 * i)
    let framed := (s.tick t).onHif fun h => { h with inFrame := true }
    let done := fun (c : Instr) (v : State) (result : Nat) (ws : List Word) =>
      let r := hifResponse (if all then 0 else 3) id result ws
      exec c s = .next (v.onHif fun h => { h with inFrame := false, frames := h.frames.inc, response := some r
                                                  cache := if id = 0 then h.cache else ({ id := id, check := check, responses := [r] } :: h.cache).take 32 })
    let written := (wordsAt bs 6 (hifWords bs)).zipIdx.foldl (fun y w => y.busWrite .hif (addr + 4 * w.2) 4 w.1) framed
    let reads := (List.range (hifWords bs)).foldl (fun (p : List Word × State) i =>
      if accessOk (addr + 4 * i) then (p.1 ++ [(p.2.load .hif (addr + 4 * i)).1], (p.2.load .hif (addr + 4 * i)).2) else (p.1 ++ [0], p.2)) ([], framed)
    let key := s.b.keyUsable = true ∧ ∃ im, s.b.cfg.image = some im ∧ owner.val < im.certs.length
    (∀ c, c = .hifRead t bytes ∨ c = .hifWrite t bytes →
      (s.b.hifOn = false → exec c s = .next (s.tick t)) ∧
      (s.b.hifOn = true →
        (bytes.length < n → ∃ u : State, exec c s = .next u ∧ u.b.hif = s.b.hif ∧ ids u [510]) ∧
        (n ≤ bytes.length →
          (¬ good → answers c (fun h => { h with crcErr := h.crcErr.inc }) [508] (hifResponse 1 id 0 [])) ∧
          (good → ∀ y, keptFor s.b.hif.cache id = some y →
            (y.check = check → answers c (fun h => { h with dup := h.dup.inc }) [] (hifRepeat (y.responses.headD []))) ∧
            (y.check ≠ check → answers c (fun h => h) [509] (hifResponse 5 id 0 []))) ∧
          (good → keptFor s.b.hif.cache id = none →
            (2 ≤ beAt bs 0 1 / 64 → answers c (fun h => h) [510] (hifResponse 4 id 0 [])) ∧
            (beAt bs 0 1 / 64 = 0 → done c reads.2 0 reads.1) ∧
            (beAt bs 0 1 / 64 = 1 → done c written (written.b.lastResult .hif (addr + 4 * (hifWords bs - 1))) []))))) ∧
    (s.b.hifOn = false → exec (.hifFrameAbort t) s = .next (s.tick t)) ∧
    (s.b.hifOn = true → ∃ u : State, exec (.hifFrameAbort t) s = .next u ∧ u.b.hif = s.b.hif ∧ ids u [510]) ∧
    (¬ (client = true ∧ key) → exec (.dtlsHandshake t j owner client) s = .next (s.tick t)) ∧
    (client = true → key → ∃ u : State, exec (.dtlsHandshake t j owner client) s = .next u ∧
      nget u.b.mgmt j.val {} = { isOpen := true, owner := owner.val, responses := (nget s.b.mgmt j.val {}).responses } ∧
      nget u.b.sys.experts (Reader.mgmt j).idx {} = { nonce := some s.draws } ∧ u.draws = s.draws + 1 ∧
      (∀ page, page < 1048576 → (u.b.tokenOf (page * 4096) (Reader.mgmt j).idx) = {}) ∧ nget u.b.cfg.uploads (Reader.mgmt j).idx {} = {})

/-- MGMT_READ, MGMT_WRITE, MGMT_UPLOAD, MGMT_RECORDS, MGMT_EXPORT, MGMT_NOTICES (R337, R340, R434, R436, R437). -/
def Obligations.Management : Prop :=
  ∀ (t : Nat) (j : Fin 4) (bytes : List Byte) (spells : Spells) (s : State),
    let x := nget s.b.mgmt j.val {}
    let rd := Reader.mgmt j
    let ids := fun (u : State) (l : List Nat) => u.b.fcl.arrivals.map (·.id) = s.b.fcl.arrivals.map (·.id) ++ l
    let id := beAt bytes 2 2
    let body := bytes.drop 8
    let cmd := fun (ty : Nat) (c : Instr) => ty = 1 ∧ c = .mgmtRead t j bytes ∨ ty = 2 ∧ c = .mgmtWrite t j bytes ∨ ty = 3 ∧ c = .mgmtUpload t j bytes spells ∨
      ty = 4 ∧ c = .mgmtRecords t j bytes ∨ ty = 5 ∧ c = .mgmtExport t j bytes ∨ ty = 6 ∧ c = .mgmtNotices t j bytes
    let fits := fun (ty : Nat) => ty = 1 ∧ body.length = 6 ∧ 1 ≤ beAt body 4 2 ∧ beAt body 4 2 ≤ 256 ∨
      ty = 2 ∧ body.length = 6 + 4 * beAt body 4 2 ∧ 1 ≤ beAt body 4 2 ∧ beAt body 4 2 ≤ 256 ∨ ty = 3 ∧ body.length ∈ [261, 517, 773, 1029] ∨
      ty = 4 ∧ body.length = 8 ∧ 1 ≤ beAt body 6 2 ∧ beAt body 6 2 ≤ 8 ∨ ty = 5 ∧ body.length = 24 ∧ 1 ≤ beAt body 6 2 ∧ beAt body 6 2 ≤ 1024 ∨
      ty = 6 ∧ body.length = 1
    let formed := fun (ty : Nat) => 8 ≤ bytes.length ∧ beAt bytes 0 1 = ty ∧ beAt bytes 1 1 = 0 ∧ beAt bytes 4 4 = bytes.length - 8 ∧ fits ty
    let message := fun (ty st : Nat) (b : List Byte) => beBytes (ty + 128) 1 ++ beBytes st 1 ++ beBytes id 2 ++ beBytes b.length 4 ++ b
    let sent := fun (c : Instr) (l : List Nat) (out : List (List Byte)) =>
      ∃ u : State, exec c s = .next u ∧ nget u.b.mgmt j.val {} = { x with responses := out.reverse ++ x.responses } ∧ ids u l
    let done := fun (c : Instr) (v : State) (out : List (List Byte)) => ∃ m, exec c s = .next (v.on fun b => { b with mgmt := m }) ∧
      (∀ i, i ≠ j.val → nget m i {} = nget v.b.mgmt i {}) ∧ nget m j.val {} = { nget v.b.mgmt j.val {} with
        cache := if id = 0 then (nget v.b.mgmt j.val {}).cache else ({ id := id, check := bytes, responses := out } :: (nget v.b.mgmt j.val {}).cache).take 32
        responses := out.reverse ++ (nget v.b.mgmt j.val {}).responses }
    let addr := beAt body 0 4
    let n := beAt body 4 2
    let st := if (List.range n).all fun i => accessOk (addr + 4 * i) then 0 else 3
    let reads := (List.range n).foldl (fun (p : List Word × State) i =>
      if accessOk (addr + 4 * i) then (p.1 ++ [(p.2.load rd (addr + 4 * i)).1], (p.2.load rd (addr + 4 * i)).2) else (p.1 ++ [0], p.2)) ([], s.tick t)
    let written := (wordsAt body 6 n).zipIdx.foldl (fun y w => y.busWrite rd (addr + 4 * w.2) 4 w.1) (s.tick t)
    let k := beAt body 0 1
    let slot := nget s.b.cfg.slots k {}
    let off := beAt body 1 4
    let len := body.length - 5
    let upload := fun (r : Nat) => ∃ v : State, done (.mgmtUpload t j bytes spells) v [message 3 0 (beBytes r 1)] ∧ (v.b.tokenOf pCFG rd.idx).last = r
    let ex := nget s.b.recd.exports rd.idx {}
    let seqs := ((List.range (beAt body 6 2)).map (beAt body 0 6 + ·)).filter fun q => (s.b.recd.find q).state == 1
    (x.isOpen = false → ∀ ty c, cmd ty c → exec c s = .next (s.tick t)) ∧
    (x.isOpen = true → ∀ ty c, cmd ty c →
      (∀ y, keptFor x.cache id = some y → (y.check = bytes → sent c [] (y.responses.map fun r => r.take 1 ++ beBytes 2 1 ++ r.drop 2)) ∧
        (y.check ≠ bytes → sent c [509] [message ty 5 []])) ∧
      (keptFor x.cache id = none → ¬ formed ty → sent c [] [message ty 4 []])) ∧
    (x.isOpen = true → keptFor x.cache id = none →
      (formed 1 → done (.mgmtRead t j bytes) reads.2 [message 1 st (reads.1.flatMap fun w => beBytes w.toNat 4)]) ∧
      (formed 2 → done (.mgmtWrite t j bytes) written [message 2 st (beBytes (written.b.lastResult rd (addr + 4 * (n - 1))) 1)]) ∧
      (formed 3 →
        (9 < k → upload rBadArg) ∧ (k ≤ 9 → s.b.unlocked rd = false → upload rNotAuth) ∧
        (k ≤ 9 → s.b.unlocked rd = true → slot.isOpen = false ∨ s.b.slotBusy k = true → upload rRefused) ∧
        (k ≤ 9 → s.b.unlocked rd = true → slot.isOpen = true → s.b.slotBusy k = false → off % 256 ≠ 0 → upload rBadArg) ∧
        (k ≤ 9 → s.b.unlocked rd = true → slot.isOpen = true → slot.marks = [] → s.b.slotBusy k = false → off % 256 = 0 →
          (k < 8 → 8386560 < off + len → upload rBadArg) ∧
          ((k < 8 → off + len ≤ 8386560) → ∃ v : State, done (.mgmtUpload t j bytes spells) v [message 3 0 (beBytes rDone 1)] ∧
            (∀ i, i < len → nget (nget v.b.cfg.slots k {}).bytes (off + i) 0 = body.getD (5 + i) 0) ∧
            ∀ a, a < off ∨ off + len ≤ a → nget (nget v.b.cfg.slots k {}).bytes a 0 = nget slot.bytes a 0))) ∧
      (formed 4 → done (.mgmtRecords t j bytes) (s.tick t) [message 4 0 ((List.range (beAt body 6 2)).flatMap fun i =>
        beBytes (s.b.windowFor (beAt body 0 6 + i)).state 1 ++ fitBytes (s.b.windowFor (beAt body 0 6 + i)).data 1024)]) ∧
      (formed 5 →
        (s.b.keyUsable = true → ex.state ≠ 1 → ∃ (v : State) (head : List Byte), let d := Config.sha256 (head ++ seqs.flatMap fun q => (s.b.recd.find q).data)
          head.length = 64 ∧ (nget v.b.recd.exports rd.idx {}).state = 2 ∧ (nget v.b.recd.exports rd.idx {}).seqs = seqs ∧
          done (.mgmtExport t j bytes) v ((([head] ++ seqs.map (fun q => (s.b.recd.find q).data) ++ [beBytes d.toNat 32 ++ beBytes (s.b.sign d).toNat 64]).zipIdx.map
            fun p => beBytes p.2 2 ++ p.1).map (message 5 0))) ∧
        (s.b.keyUsable = false ∨ ex.state = 1 → ∃ v : State, done (.mgmtExport t j bytes) v [message 5 3 []])) ∧
      (formed 6 →
        (beAt body 0 1 ≤ 1 → ∃ v : State, done (.mgmtNotices t j bytes) v [message 6 0 (beBytes rDone 1)] ∧
          (nget v.b.mgmt j.val {}).notices = (beAt body 0 1 == 1)) ∧
        (2 ≤ beAt body 0 1 → done (.mgmtNotices t j bytes) (s.tick t) [message 6 0 (beBytes rBadArg 1)])))
end

