-- ==== Sys2Proof/Laws/Maps.lean ====
section
/-! SUPPORT. Laws of the sparse arrays: a read after a write, and that every operation keeps the canonical form. -/

namespace Sys2Proof.Machine

variable {α : Type}

theorem nget_ndel (m : NMap α) (k j : Nat) (d : α) : nget (ndel m k) j d = if k = j then d else nget m j d := by
  induction m with
  | nil => simp [ndel, nget]
  | cons x r ih =>
    obtain ⟨i, v⟩ := x
    by_cases hi : i = k
    · subst hi; by_cases hj : i = j <;> simp_all [ndel, nget]
    · by_cases hj : i = j
      · subst hj; simp [ndel, nget, hi, Ne.symm hi]
      · simp [ndel, nget, hi, hj, ih]

theorem nget_nput (m : NMap α) (k j : Nat) (v d : α) : nget (nput m k v) j d = if k = j then v else nget m j d := by
  induction m with
  | nil => simp [nput, nget]
  | cons x r ih =>
    obtain ⟨i, w⟩ := x
    by_cases hlt : k < i
    · by_cases hj : k = j
      · subst hj; simp [nput, nget, hlt]
      · simp [nput, nget, hlt, hj]
    · by_cases hi : i = k
      · subst hi; by_cases hj : i = j <;> simp [nput, nget, hj]
      · by_cases hj : i = j
        · subst hj; simp [nput, nget, hlt, hi, Ne.symm hi]
        · simp [nput, nget, hlt, hi, hj, ih]

/-- A read after a write: the value written at its own index, the old one elsewhere. -/
theorem nget_nset [DecidableEq α] (m : NMap α) (k j : Nat) (v d : α) :
    nget (nset m k v d) j d = if k = j then v else nget m j d := by
  unfold nset
  by_cases hv : v = d
  · simp only [hv, if_true]; rw [nget_ndel]
  · simp only [hv, if_false]; rw [nget_nput]

@[simp] theorem nget_nset_same [DecidableEq α] (m : NMap α) (k : Nat) (v d : α) : nget (nset m k v d) k d = v := by
  simp [nget_nset]

theorem nget_nset_other [DecidableEq α] (m : NMap α) {k j : Nat} (v d : α) (h : k ≠ j) :
    nget (nset m k v d) j d = nget m j d := by
  simp [nget_nset, h]

theorem nget_nupd [DecidableEq α] (m : NMap α) (k j : Nat) (d : α) (f : α → α) :
    nget (nupd m k d f) j d = if k = j then f (nget m k d) else nget m j d := nget_nset _ _ _ _ _

@[simp] theorem nget_nupd_same [DecidableEq α] (m : NMap α) (k : Nat) (d : α) (f : α → α) :
    nget (nupd m k d f) k d = f (nget m k d) := by
  simp [nget_nupd]

/-! ### The canonical form -/

/-- Every index of the array is above `lo`. -/
def above (lo : Nat) (m : NMap α) : Prop := ∀ x ∈ m, lo < x.1

theorem nsorted_cons (i : Nat) (v : α) (r : NMap α) : nsorted ((i, v) :: r) = true ↔ above i r ∧ nsorted r = true := by
  induction r generalizing i v with
  | nil => simp [nsorted, above]
  | cons y t ih =>
    obtain ⟨j, w⟩ := y
    have hj := ih j w
    simp only [nsorted, Bool.and_eq_true, decide_eq_true_eq, hj, above, List.mem_cons, forall_eq_or_imp]
    constructor
    · rintro ⟨hij, hjt, ht⟩
      exact ⟨⟨hij, fun x hx => Nat.lt_trans hij (hjt x hx)⟩, hjt, ht⟩
    · rintro ⟨⟨hij, _⟩, hjt, ht⟩
      exact ⟨hij, hjt, ht⟩

theorem mem_ndel {m : NMap α} {k : Nat} {x : Nat × α} (h : x ∈ ndel m k) : x ∈ m := by
  induction m with
  | nil => simp [ndel] at h
  | cons y r ih =>
    obtain ⟨i, v⟩ := y
    simp only [ndel] at h
    split at h
    · exact List.mem_cons_of_mem _ (ih h)
    · rcases List.mem_cons.1 h with h | h
      · simp [h]
      · exact List.mem_cons_of_mem _ (ih h)

theorem mem_nput {m : NMap α} {k : Nat} {v : α} {x : Nat × α} (h : x ∈ nput m k v) : x ∈ m ∨ x = (k, v) := by
  induction m with
  | nil => exact .inr (by simpa [nput] using h)
  | cons y r ih =>
    obtain ⟨i, w⟩ := y
    simp only [nput] at h
    split at h
    · rcases List.mem_cons.1 h with h | h
      · exact .inr h
      · exact .inl h
    · split at h
      · rcases List.mem_cons.1 h with h | h
        · exact .inr h
        · exact .inl (List.mem_cons_of_mem _ h)
      · rcases List.mem_cons.1 h with h | h
        · exact .inl (h ▸ List.mem_cons_self)
        · rcases ih h with h | h
          · exact .inl (List.mem_cons_of_mem _ h)
          · exact .inr h

theorem nsorted_ndel {m : NMap α} (k : Nat) (h : nsorted m = true) : nsorted (ndel m k) = true := by
  induction m with
  | nil => simp [ndel, nsorted]
  | cons y r ih =>
    obtain ⟨i, v⟩ := y
    obtain ⟨ha, hr⟩ := (nsorted_cons i v r).1 h
    simp only [ndel]
    split
    · exact ih hr
    · exact (nsorted_cons _ _ _).2 ⟨fun x hx => ha x (mem_ndel hx), ih hr⟩

theorem nsorted_nput {m : NMap α} (k : Nat) (v : α) (h : nsorted m = true) : nsorted (nput m k v) = true := by
  induction m with
  | nil => simp [nput, nsorted]
  | cons y r ih =>
    obtain ⟨i, w⟩ := y
    obtain ⟨ha, hr⟩ := (nsorted_cons i w r).1 h
    simp only [nput]
    split
    · rename_i hlt
      exact (nsorted_cons _ _ _).2 ⟨fun x hx => by
        rcases List.mem_cons.1 hx with rfl | hx
        · exact hlt
        · exact Nat.lt_trans hlt (ha x hx), h⟩
    · split
      · rename_i _ hik
        subst hik
        exact (nsorted_cons _ _ _).2 ⟨ha, hr⟩
      · rename_i hlt hik
        refine (nsorted_cons _ _ _).2 ⟨fun x hx => ?_, ih hr⟩
        rcases mem_nput hx with hx | rfl
        · exact ha x hx
        · exact Nat.lt_of_le_of_ne (Nat.not_lt.1 hlt) hik

theorem nwf_iff [DecidableEq α] (d : α) (m : NMap α) : nwf d m = true ↔ nsorted m = true ∧ ∀ x ∈ m, x.2 ≠ d := by
  simp [nwf, List.all_eq_true]

/-- A write keeps the canonical form. -/
theorem nwf_nset [DecidableEq α] {m : NMap α} {d : α} (k : Nat) (v : α) (h : nwf d m = true) : nwf d (nset m k v d) = true := by
  obtain ⟨hs, hd⟩ := (nwf_iff d m).1 h
  unfold nset
  split
  · exact (nwf_iff _ _).2 ⟨nsorted_ndel k hs, fun x hx => hd x (mem_ndel hx)⟩
  · rename_i hv
    exact (nwf_iff _ _).2 ⟨nsorted_nput k v hs, fun x hx => by
      rcases mem_nput hx with hx | rfl
      · exact hd x hx
      · exact hv⟩

theorem nwf_nupd [DecidableEq α] {m : NMap α} {d : α} (k : Nat) (f : α → α) (h : nwf d m = true) :
    nwf d (nupd m k d f) = true := nwf_nset k _ h

theorem nwf_nnorm [DecidableEq α] (m : NMap α) (d : α) : nwf d (nnorm m d) = true := by
  induction m with
  | nil => rfl
  | cons x r ih => exact nwf_nset _ _ ih

theorem nwf_ndel [DecidableEq α] {m : NMap α} {d : α} (k : Nat) (h : nwf d m = true) : nwf d (ndel m k) = true := by
  obtain ⟨hs, hd⟩ := (nwf_iff d m).1 h
  exact (nwf_iff _ _).2 ⟨nsorted_ndel k hs, fun x hx => hd x (mem_ndel hx)⟩

/-- Leaving entries out keeps the canonical form. -/
theorem nwf_filter [DecidableEq α] {m : NMap α} {d : α} (p : Nat × α → Bool) (h : nwf d m = true) :
    nwf d (m.filter p) = true := by
  obtain ⟨hs, hd⟩ := (nwf_iff d m).1 h
  refine (nwf_iff _ _).2 ⟨?_, fun x hx => hd x (List.mem_filter.1 hx).1⟩
  clear h hd
  induction m with
  | nil => simp [nsorted]
  | cons y r ih =>
    obtain ⟨ha, hr⟩ := (nsorted_cons y.1 y.2 r).1 hs
    rw [List.filter_cons]
    split
    · exact (nsorted_cons y.1 y.2 _).2 ⟨fun x hx => ha x (List.mem_filter.1 hx).1, ih hr⟩
    · exact ih hr

theorem mem_nmapv [DecidableEq α] {m : NMap α} {d : α} {f : Nat → α → α} {x : Nat × α} (h : x ∈ nmapv m d f) :
    (∃ v, (x.1, v) ∈ m ∧ x.2 = f x.1 v) ∧ x.2 ≠ d := by
  induction m with
  | nil => simp [nmapv] at h
  | cons y r ih =>
    obtain ⟨i, v⟩ := y
    simp only [nmapv] at h
    split at h
    · obtain ⟨⟨u, hu, e⟩, hx⟩ := ih h
      exact ⟨⟨u, List.mem_cons_of_mem _ hu, e⟩, hx⟩
    · rename_i hv
      rcases List.mem_cons.1 h with rfl | h
      · exact ⟨⟨v, List.mem_cons_self, rfl⟩, hv⟩
      · obtain ⟨⟨u, hu, e⟩, hx⟩ := ih h
        exact ⟨⟨u, List.mem_cons_of_mem _ hu, e⟩, hx⟩

/-- Changing every entry keeps the canonical form. -/
theorem nwf_nmapv [DecidableEq α] {m : NMap α} {d : α} (f : Nat → α → α) (h : nwf d m = true) :
    nwf d (nmapv m d f) = true := by
  obtain ⟨hs, -⟩ := (nwf_iff d m).1 h
  refine (nwf_iff _ _).2 ⟨?_, fun x hx => (mem_nmapv hx).2⟩
  clear h
  induction m with
  | nil => simp [nmapv, nsorted]
  | cons y r ih =>
    obtain ⟨i, v⟩ := y
    obtain ⟨ha, hr⟩ := (nsorted_cons i v r).1 hs
    simp only [nmapv]
    split
    · exact ih hr
    · exact (nsorted_cons _ _ _).2 ⟨fun x hx => by
        obtain ⟨u, hu, -⟩ := (mem_nmapv hx).1
        exact ha (x.1, u) hu, ih hr⟩

/-- A property of every entry survives a write of a value that has it. -/
theorem all_nset [DecidableEq α] {m : NMap α} {d : α} {p : Nat × α → Bool} (k : Nat) (v : α) (h : m.all p = true)
    (hv : p (k, v) = true) : (nset m k v d).all p = true := by
  rw [List.all_eq_true] at h ⊢
  intro x hx
  unfold nset at hx
  split at hx
  · exact h x (mem_ndel hx)
  · rcases mem_nput hx with hx | rfl
    · exact h x hx
    · exact hv

/-- What the default and every entry have, every read has. -/
theorem nget_of_all {m : NMap α} {d : α} {p : α → Prop} (k : Nat) (h : ∀ x ∈ m, p x.2) (hd : p d) : p (nget m k d) := by
  induction m with
  | nil => simpa [nget] using hd
  | cons y r ih =>
    obtain ⟨i, v⟩ := y
    simp only [nget]
    split
    · exact h (i, v) List.mem_cons_self
    · exact ih fun x hx => h x (List.mem_cons_of_mem _ hx)

/-- What setting or clearing a bit leaves in every bit. -/
theorem getLsbD_setb {n : Nat} (v : BitVec n) (i j : Nat) (b : Bool) (h : i < n) :
    (setb v i b).getLsbD j = if i = j then b else v.getLsbD j := by
  unfold setb
  by_cases e : i = j
  · subst e
    cases b
    · simp only [Bool.false_eq_true, if_false, if_true, BitVec.getLsbD_and, BitVec.getLsbD_not, BitVec.getLsbD_ofNat,
        Nat.testBit_two_pow_self, h, decide_true, Bool.and_self, Bool.not_true, Bool.and_false]
    · simp only [if_true, BitVec.getLsbD_or, BitVec.getLsbD_ofNat, Nat.testBit_two_pow_self, h, decide_true,
        Bool.and_self, Bool.or_true]
  · have g : (2 ^ i).testBit j = false := Nat.testBit_two_pow_of_ne e
    cases b
    · simp only [Bool.false_eq_true, if_false, BitVec.getLsbD_and, BitVec.getLsbD_not, BitVec.getLsbD_ofNat, g, e,
        Bool.and_false, Bool.not_false, Bool.and_true]
      cases hv : v.getLsbD j
      · rfl
      · simp [BitVec.lt_of_getLsbD hv]
    · simp only [if_true, BitVec.getLsbD_or, BitVec.getLsbD_ofNat, g, e, if_false, Bool.and_false, Bool.or_false]

theorem getLsbD_setb_self {n : Nat} (v : BitVec n) (i : Nat) (b : Bool) (h : i < n) : (setb v i b).getLsbD i = b := by
  rw [getLsbD_setb v i i b h, if_pos rfl]

/-- The bits of a vector that a loop sets one after the other. -/
theorem getLsbD_forN_setb {w : Nat} (f : Nat → Bool) (v : BitVec w) (n k : Nat) (hn : n ≤ w) :
    (forN n (fun i m => setb m i (f i)) v).getLsbD k = if k < n then f k else v.getLsbD k := by
  induction n with
  | zero => rfl
  | succ n ih =>
    show (setb (forN n (fun i m => setb m i (f i)) v) n (f n)).getLsbD k = _
    rw [getLsbD_setb _ _ _ _ (by omega), ih (by omega)]
    by_cases h : n = k
    · subst h; simp
    · by_cases g : k < n
      · simp [h, g, Nat.lt_succ_of_lt g]
      · simp [h, g, show ¬ k < n + 1 by omega]
/-- An index below every listed one is unlisted. -/
theorem nget_above {α : Type} {i : Nat} {r : NMap α} (h : above i r) (d : α) : nget r i d = d := by
  induction r with
  | nil => rfl
  | cons y r ih =>
    have : i < y.1 := h y (List.mem_cons_self ..)
    show (if y.1 = i then y.2 else nget r i d) = d
    rw [if_neg (by omega)]
    exact ih fun z hz => h z (List.mem_cons_of_mem _ hz)

/-- An entry of a mapped array, where the default maps to itself. -/
theorem nget_nmapv {α : Type} [DecidableEq α] (m : NMap α) (d : α) (f : Nat → α → α) (k : Nat)
    (hs : nsorted m = true) (hf : f k d = d) :
    nget (nmapv m d f) k d = f k (nget m k d) := by
  induction m with
  | nil => exact hf.symm
  | cons x r ih =>
    obtain ⟨i, v⟩ := x
    have h2 := (nsorted_cons i v r).mp hs
    have ih := ih h2.2
    have hr : ∀ {j}, i = j → nget r j d = d := fun e => e ▸ nget_above h2.1 d
    show nget (if f i v = d then nmapv r d f else (i, f i v) :: nmapv r d f) k d = f k (if i = k then v else nget r k d)
    by_cases e : i = k
    · rw [if_pos e]
      subst e
      split
      · rename_i h; rw [ih, hr rfl, hf, h]
      · show (if i = i then f i v else _) = _
        rw [if_pos rfl]
    · rw [if_neg e]
      split
      · exact ih
      · show (if i = k then f i v else nget (nmapv r d f) k d) = _
        rw [if_neg e]; exact ih

end Sys2Proof.Machine
end

