-- ==== Sys2Proof/Laws/Only.lean ====
section
/-! SUPPORT. Which parts of the state an operation can change. A set of parts is a number whose bits are the parts in the order
of `Part`; `Only m x y` says that `y` differs from `x` in parts of `m` alone. One lemma per operation names its parts. -/

namespace Sys2Proof.Machine

/-- Blocks that differ in parts of `m` alone. -/
structure OnlyB (m : Nat) (x y : Blocks) : Prop where
  now : m.testBit 0 = true ∨ y.now = x.now
  sys : m.testBit 1 = true ∨ y.sys = x.sys
  tru : m.testBit 2 = true ∨ y.tru = x.tru
  fab : m.testBit 3 = true ∨ y.fab = x.fab
  lio : m.testBit 4 = true ∨ y.lio = x.lio
  tpg : m.testBit 5 = true ∨ y.tpg = x.tpg
  sog : m.testBit 6 = true ∨ y.sog = x.sog
  sto : m.testBit 7 = true ∨ y.sto = x.sto
  mea : m.testBit 8 = true ∨ y.mea = x.mea
  axs : m.testBit 9 = true ∨ y.axs = x.axs
  sep : m.testBit 10 = true ∨ y.sep = x.sep
  net : m.testBit 11 = true ∨ y.net = x.net
  tsy : m.testBit 12 = true ∨ y.tsy = x.tsy
  sfr : m.testBit 13 = true ∨ y.sfr = x.sfr
  agr : m.testBit 14 = true ∨ y.agr = x.agr
  cvu : m.testBit 15 = true ∨ y.cvu = x.cvu
  fcl : m.testBit 16 = true ∨ y.fcl = x.fcl
  recd : m.testBit 17 = true ∨ y.recd = x.recd
  bst : m.testBit 18 = true ∨ y.bst = x.bst
  otp : m.testBit 19 = true ∨ y.otp = x.otp
  lcs : m.testBit 20 = true ∨ y.lcs = x.lcs
  key : m.testBit 21 = true ∨ y.key = x.key
  pwr : m.testBit 22 = true ∨ y.pwr = x.pwr
  cfg : m.testBit 23 = true ∨ y.cfg = x.cfg
  hif : m.testBit 24 = true ∨ y.hif = x.hif
  mgmt : m.testBit 25 = true ∨ y.mgmt = x.mgmt
  inReset : m.testBit 26 = true ∨ y.inReset = x.inReset
  sel : m.testBit 27 = true ∨ y.sel = x.sel
  latches : m.testBit 30 = true ∨ (y.fcl.a.latch = x.fcl.a.latch ∧ y.fcl.b.latch = x.fcl.b.latch)
  numbering : m.testBit 31 = true ∨
    (y.sys.sent = x.sys.sent ∧ y.sys.nextNumber = x.sys.nextNumber ∧ y.sys.lastCapture = x.sys.lastCapture ∧ y.sys.period = x.sys.period ∧ y.sys.captured = x.sys.captured)
  committed : m.testBit 32 = true ∨ (y.sog.committed = x.sog.committed ∧ y.sto.committed = x.sto.committed)
  inForce : m.testBit 33 = true ∨ (y.cfg.image = x.cfg.image ∧ y.cfg.rws = x.cfg.rws)
  lifeBits : m.testBit 34 = true ∨ y.otp.latched = x.otp.latched
  phase : m.testBit 35 = true ∨ y.pwr.phase = x.pwr.phase

/-- States that differ in parts of `m` alone. -/
structure Only (m : Nat) (x y : State) : Prop where
  b : OnlyB m x.b y.b
  sentences : m.testBit 28 = true ∨ (y.cap = x.cap ∧ y.shown = x.shown ∧ y.holds = x.holds)
  draws : m.testBit 29 = true ∨ y.draws = x.draws
  queue : y.pending = x.pending

theorem Part.sub {m a c : Nat} (h : m &&& a = a) (g : a &&& c = c) : m &&& c = c := by
  rw [← g, ← Nat.land_assoc, h]

theorem Part.bit {m k : Nat} (h : m &&& 2 ^ k = 2 ^ k) : m.testBit k = true := by
  have e := congrArg (fun n => n.testBit k) h
  simpa [Nat.testBit_and, Nat.testBit_two_pow_self] using e

theorem OnlyB.refl (m : Nat) (x : Blocks) : OnlyB m x x :=
  ⟨.inr rfl, .inr rfl, .inr rfl, .inr rfl, .inr rfl, .inr rfl, .inr rfl, .inr rfl, .inr rfl, .inr rfl, .inr rfl,
    .inr rfl, .inr rfl, .inr rfl, .inr rfl, .inr rfl, .inr rfl, .inr rfl, .inr rfl, .inr rfl, .inr rfl, .inr rfl,
    .inr rfl, .inr rfl, .inr rfl, .inr rfl, .inr rfl, .inr rfl, .inr ⟨rfl, rfl⟩, .inr ⟨rfl, rfl, rfl, rfl, rfl⟩,
    .inr ⟨rfl, rfl⟩, .inr ⟨rfl, rfl⟩, .inr rfl, .inr rfl⟩

theorem Only.refl (m : Nat) (x : State) : Only m x x := ⟨.refl m x.b, .inr ⟨rfl, rfl, rfl⟩, .inr rfl, rfl⟩

theorem OnlyB.trans {m : Nat} {x y z : Blocks} (h : OnlyB m x y) (g : OnlyB m y z) : OnlyB m x z :=
  ⟨g.now.elim .inl fun e => h.now.imp id e.trans,
    g.sys.elim .inl fun e => h.sys.imp id e.trans,
    g.tru.elim .inl fun e => h.tru.imp id e.trans,
    g.fab.elim .inl fun e => h.fab.imp id e.trans,
    g.lio.elim .inl fun e => h.lio.imp id e.trans,
    g.tpg.elim .inl fun e => h.tpg.imp id e.trans,
    g.sog.elim .inl fun e => h.sog.imp id e.trans,
    g.sto.elim .inl fun e => h.sto.imp id e.trans,
    g.mea.elim .inl fun e => h.mea.imp id e.trans,
    g.axs.elim .inl fun e => h.axs.imp id e.trans,
    g.sep.elim .inl fun e => h.sep.imp id e.trans,
    g.net.elim .inl fun e => h.net.imp id e.trans,
    g.tsy.elim .inl fun e => h.tsy.imp id e.trans,
    g.sfr.elim .inl fun e => h.sfr.imp id e.trans,
    g.agr.elim .inl fun e => h.agr.imp id e.trans,
    g.cvu.elim .inl fun e => h.cvu.imp id e.trans,
    g.fcl.elim .inl fun e => h.fcl.imp id e.trans,
    g.recd.elim .inl fun e => h.recd.imp id e.trans,
    g.bst.elim .inl fun e => h.bst.imp id e.trans,
    g.otp.elim .inl fun e => h.otp.imp id e.trans,
    g.lcs.elim .inl fun e => h.lcs.imp id e.trans,
    g.key.elim .inl fun e => h.key.imp id e.trans,
    g.pwr.elim .inl fun e => h.pwr.imp id e.trans,
    g.cfg.elim .inl fun e => h.cfg.imp id e.trans,
    g.hif.elim .inl fun e => h.hif.imp id e.trans,
    g.mgmt.elim .inl fun e => h.mgmt.imp id e.trans,
    g.inReset.elim .inl fun e => h.inReset.imp id e.trans,
    g.sel.elim .inl fun e => h.sel.imp id e.trans,
    g.latches.elim .inl fun e => h.latches.imp id fun e1 => ⟨e.1.trans e1.1, e.2.trans e1.2⟩,
    g.numbering.elim .inl fun e => h.numbering.imp id fun e1 =>
      ⟨e.1.trans e1.1, e.2.1.trans e1.2.1, e.2.2.1.trans e1.2.2.1, e.2.2.2.1.trans e1.2.2.2.1, e.2.2.2.2.trans e1.2.2.2.2⟩,
    g.committed.elim .inl fun e => h.committed.imp id fun e1 => ⟨e.1.trans e1.1, e.2.trans e1.2⟩,
    g.inForce.elim .inl fun e => h.inForce.imp id fun e1 => ⟨e.1.trans e1.1, e.2.trans e1.2⟩,
    g.lifeBits.elim .inl fun e => h.lifeBits.imp id e.trans,
    g.phase.elim .inl fun e => h.phase.imp id e.trans⟩

variable {m : Nat} {r s : State}

theorem Only.on (f : Blocks → Blocks) (hf : OnlyB m s.b (f s.b)) (h : Only m r s) : Only m r (s.on f) :=
  { h with b := h.b.trans hf }

/-- The sentences captured, shown and held are others. -/
theorem Only.framed (s : State) (c : Option Blocks) (p : Option Snapshot) (l : NMap (Option Snapshot))
    (hm : m &&& 268435456 = 268435456) (h : Only m r s) : Only m r ⟨s.b, c, p, l, s.draws, s.pending⟩ :=
  { h with sentences := .inl (Part.bit hm) }

/-- The count of draws is another. -/
theorem Only.drew (s : State) (n : Nat) (hm : m &&& 536870912 = 536870912) (h : Only m r s) :
    Only m r ⟨s.b, s.cap, s.shown, s.holds, n, s.pending⟩ :=
  { h with draws := .inl (Part.bit hm) }

theorem Only.ite {c : Prop} [Decidable c] {a b : State} (ha : Only m r a) (hb : Only m r b) :
    Only m r (if c then a else b) := by split <;> assumption

theorem Only.fst_ite {α : Type} {c : Prop} [Decidable c] {a b : State × α} (ha : Only m r a.1) (hb : Only m r b.1) :
    Only m r (if c then a else b).1 := by split <;> assumption

theorem Only.snd_ite {α : Type} {c : Prop} [Decidable c] {a b : α × State} (ha : Only m r a.2) (hb : Only m r b.2) :
    Only m r (if c then a else b).2 := by split <;> assumption

theorem Only.forL {α : Type} {f : α → State → State} (l : List α) (hf : ∀ x t, Only m r t → Only m r (f x t))
    (h : Only m r s) : Only m r (Machine.forL l f s) := by
  induction l generalizing s with
  | nil => exact h
  | cons x l ih => exact ih (hf x s h)

theorem Only.forL_mem {α : Type} {f : α → State → State} (l : List α) (hf : ∀ x ∈ l, ∀ t, Only m r t → Only m r
    (f x t))
    (h : Only m r s) : Only m r (Machine.forL l f s) := by
  induction l generalizing s with
  | nil => exact h
  | cons x l ih => exact ih (fun y hy => hf y (List.mem_cons_of_mem _ hy)) (hf x List.mem_cons_self s h)

theorem Only.forN {f : Nat → State → State} (n : Nat) (hf : ∀ i t, Only m r t → Only m r (f i t)) (h : Only m r s) :
    Only m r (Machine.forN n f s) := by
  induction n with
  | zero => exact h
  | succ n ih => exact hf n _ ih

theorem Only.forL_fst {α β : Type} {f : α → State × β → State × β} (l : List α) {x : State × β}
    (hf : ∀ a t, Only m r t.1 → Only m r (f a t).1) (h : Only m r x.1) : Only m r (Machine.forL l f x).1 := by
  induction l generalizing x with
  | nil => exact h
  | cons a l ih => exact ih (hf a x h)

/-- What a writer answers, if it answers. -/
def OnlyO (m : Nat) (r : State) (o : Option State) : Prop := ∀ u, o = some u → Only m r u

theorem OnlyO.ofNone : OnlyO m r none := fun _ e => nomatch e
theorem OnlyO.ofSome (h : Only m r s) : OnlyO m r (some s) := fun _ e => Option.some.inj e ▸ h
theorem OnlyO.ite {c : Prop} [Decidable c] {a b : Option State} (ha : OnlyO m r a) (hb : OnlyO m r b) :
    OnlyO m r (if c then a else b) := by split <;> assumption
theorem OnlyO.bind {α : Type} (x : Option α) (f : α → Option State) (hf : ∀ j, OnlyO m r (f j)) : OnlyO m r
    (x.bind f) := by
  cases x with
  | none => exact .ofNone
  | some j => exact hf j
theorem OnlyO.orElse {a b : Option State} (ha : OnlyO m r a) (hb : OnlyO m r b) : OnlyO m r
    (a.orElse fun _ => b) := by
  cases a with
  | none => exact hb
  | some u => exact ha

theorem Only.via (f : State → Host.Outcome State Fault Refusal) (hf : ∀ u, f s = .next u → Only m r u)
    (h : Only m r s) :
    Only m r (s.via f) := by
  unfold State.via
  split
  · exact hf _ ‹_›
  · exact h

/-! ### Back to `Part` -/

/-- The bit of a part. -/
def Part.idx : Part → Nat
  | .now => 0
  | .sys => 1
  | .tru => 2
  | .fab => 3
  | .lio => 4
  | .tpg => 5
  | .sog => 6
  | .sto => 7
  | .mea => 8
  | .axs => 9
  | .sep => 10
  | .net => 11
  | .tsy => 12
  | .sfr => 13
  | .agr => 14
  | .cvu => 15
  | .fcl => 16
  | .recd => 17
  | .bst => 18
  | .otp => 19
  | .lcs => 20
  | .key => 21
  | .pwr => 22
  | .cfg => 23
  | .hif => 24
  | .mgmt => 25
  | .inReset => 26
  | .sel => 27
  | .sentences => 28
  | .draws => 29
  | .latches => 30
  | .numbering => 31
  | .committed => 32
  | .inForce => 33
  | .lifeBits => 34
  | .phase => 35

/-- A part whose bit is not set is the same. -/
theorem Only.same_of {x y : State} (h : Only m x y) (p : Part) (hp : m.testBit p.idx = false) : p.same x y := by
  have hn : ∀ {k : Nat}, m.testBit k = false → ¬ m.testBit k = true := fun e => by rw [e]; exact Bool.false_ne_true
  cases p with
  | now => exact h.b.now.resolve_left (hn hp)
  | sys => exact h.b.sys.resolve_left (hn hp)
  | tru => exact h.b.tru.resolve_left (hn hp)
  | fab => exact h.b.fab.resolve_left (hn hp)
  | lio => exact h.b.lio.resolve_left (hn hp)
  | tpg => exact h.b.tpg.resolve_left (hn hp)
  | sog => exact h.b.sog.resolve_left (hn hp)
  | sto => exact h.b.sto.resolve_left (hn hp)
  | mea => exact h.b.mea.resolve_left (hn hp)
  | axs => exact h.b.axs.resolve_left (hn hp)
  | sep => exact h.b.sep.resolve_left (hn hp)
  | net => exact h.b.net.resolve_left (hn hp)
  | tsy => exact h.b.tsy.resolve_left (hn hp)
  | sfr => exact h.b.sfr.resolve_left (hn hp)
  | agr => exact h.b.agr.resolve_left (hn hp)
  | cvu => exact h.b.cvu.resolve_left (hn hp)
  | fcl => exact h.b.fcl.resolve_left (hn hp)
  | recd => exact h.b.recd.resolve_left (hn hp)
  | bst => exact h.b.bst.resolve_left (hn hp)
  | otp => exact h.b.otp.resolve_left (hn hp)
  | lcs => exact h.b.lcs.resolve_left (hn hp)
  | key => exact h.b.key.resolve_left (hn hp)
  | pwr => exact h.b.pwr.resolve_left (hn hp)
  | cfg => exact h.b.cfg.resolve_left (hn hp)
  | hif => exact h.b.hif.resolve_left (hn hp)
  | mgmt => exact h.b.mgmt.resolve_left (hn hp)
  | inReset => exact h.b.inReset.resolve_left (hn hp)
  | sel => exact h.b.sel.resolve_left (hn hp)
  | sentences => exact h.sentences.resolve_left (hn hp)
  | draws => exact h.draws.resolve_left (hn hp)
  | latches => exact h.b.latches.resolve_left (hn hp)
  | numbering => exact h.b.numbering.resolve_left (hn hp)
  | committed => exact h.b.committed.resolve_left (hn hp)
  | inForce => exact h.b.inForce.resolve_left (hn hp)
  | lifeBits => exact h.b.lifeBits.resolve_left (hn hp)
  | phase => exact h.b.phase.resolve_left (hn hp)

/-- The parts of a list are those of `m`, or more. -/
def Part.covers (l : List Part) (m : Nat) : Bool :=
  [Part.now, .sys, .tru, .fab, .lio, .tpg, .sog, .sto, .mea, .axs, .sep, .net, .tsy, .sfr,
    .agr, .cvu, .fcl, .recd, .bst, .otp, .lcs, .key, .pwr, .cfg, .hif, .mgmt, .inReset, .sel, .sentences, .draws, .latches, .numbering, .committed, .inForce,
      .lifeBits, .phase].all fun p => l.contains p || !m.testBit p.idx

/-- What is in no part of a list that covers `m` is the same. -/
theorem Only.same_off {x y : State} {l : List Part} (h : Only m x y) (hc : Part.covers l m = true) (p : Part)
    (hp : p ∉ l) :
    p.same x y := by
  refine h.same_of p ?_
  have e := List.all_eq_true.mp hc p (by cases p <;> decide)
  rw [Bool.or_eq_true, List.contains_iff_mem] at e
  exact Bool.not_eq_true' _ ▸ e.resolve_left hp

/-! ### The updaters -/

theorem Only.onSys (f : Sys → Sys) (hm : m &&& 2147483650 = 2147483650) (h : Only m r s) : Only m r (s.onSys f) :=
  { h with b := { h.b with sys := .inl (Part.bit (Part.sub hm rfl)), numbering := .inl (Part.bit (Part.sub hm rfl)) } }
theorem Only.onSys_keep (f : Sys → Sys) (hf : ∀ x, (f x).sent = x.sent ∧ (f x).nextNumber = x.nextNumber ∧
    (f x).lastCapture = x.lastCapture ∧ (f x).period = x.period ∧ (f x).captured = x.captured) (hm : m &&& 2 = 2) (h : Only m r s) :
    Only m r (s.onSys f) :=
  { h with b := { h.b with sys := .inl (Part.bit hm), numbering := h.b.numbering.imp id fun e =>
    ⟨(hf _).1.trans e.1, (hf _).2.1.trans e.2.1, (hf _).2.2.1.trans e.2.2.1, (hf _).2.2.2.1.trans e.2.2.2.1, (hf _).2.2.2.2.trans e.2.2.2.2⟩ } }
theorem Only.onTru (f : Tru → Tru) (hm : m &&& 4 = 4) (h : Only m r s) : Only m r (s.onTru f) :=
  { h with b := { h.b with tru := .inl (Part.bit hm) } }
theorem Only.onFab (f : Fab → Fab) (hm : m &&& 8 = 8) (h : Only m r s) : Only m r (s.onFab f) :=
  { h with b := { h.b with fab := .inl (Part.bit hm) } }
theorem Only.onLio (f : Lio → Lio) (hm : m &&& 16 = 16) (h : Only m r s) : Only m r (s.onLio f) :=
  { h with b := { h.b with lio := .inl (Part.bit hm) } }
theorem Only.onTpg (f : Tpg → Tpg) (hm : m &&& 32 = 32) (h : Only m r s) : Only m r (s.onTpg f) :=
  { h with b := { h.b with tpg := .inl (Part.bit hm) } }
theorem Only.onSog (f : OutBlock → OutBlock) (hm : m &&& 4294967360 = 4294967360) (h : Only m r s) : Only m r
    (s.onSog f) :=
  { h with b := { h.b with sog := .inl (Part.bit (Part.sub hm rfl)), committed := .inl (Part.bit (Part.sub hm rfl)) } }
theorem Only.onSog_keep (f : OutBlock → OutBlock) (hf : ∀ x, (f x).committed = x.committed) (hm : m &&& 64 = 64)
    (h : Only m r s) :
    Only m r (s.onSog f) :=
  { h with b := { h.b with sog := .inl (Part.bit hm), committed := h.b.committed.imp id fun e => ⟨(hf _).trans e.1, e.2⟩ } }
theorem Only.onSto (f : OutBlock → OutBlock) (hm : m &&& 4294967424 = 4294967424) (h : Only m r s) : Only m r
    (s.onSto f) :=
  { h with b := { h.b with sto := .inl (Part.bit (Part.sub hm rfl)), committed := .inl (Part.bit (Part.sub hm rfl)) } }
theorem Only.onSto_keep (f : OutBlock → OutBlock) (hf : ∀ x, (f x).committed = x.committed) (hm : m &&& 128 = 128)
    (h : Only m r s) :
    Only m r (s.onSto f) :=
  { h with b := { h.b with sto := .inl (Part.bit hm), committed := h.b.committed.imp id fun e => ⟨e.1, (hf _).trans e.2⟩ } }
theorem Only.onMea (f : Mea → Mea) (hm : m &&& 256 = 256) (h : Only m r s) : Only m r (s.onMea f) :=
  { h with b := { h.b with mea := .inl (Part.bit hm) } }
theorem Only.onAxs (f : Axs → Axs) (hm : m &&& 512 = 512) (h : Only m r s) : Only m r (s.onAxs f) :=
  { h with b := { h.b with axs := .inl (Part.bit hm) } }
theorem Only.onSep (f : Sep → Sep) (hm : m &&& 1024 = 1024) (h : Only m r s) : Only m r (s.onSep f) :=
  { h with b := { h.b with sep := .inl (Part.bit hm) } }
theorem Only.onNet (f : Net → Net) (hm : m &&& 2048 = 2048) (h : Only m r s) : Only m r (s.onNet f) :=
  { h with b := { h.b with net := .inl (Part.bit hm) } }
theorem Only.onTsy (f : Tsy → Tsy) (hm : m &&& 4096 = 4096) (h : Only m r s) : Only m r (s.onTsy f) :=
  { h with b := { h.b with tsy := .inl (Part.bit hm) } }
theorem Only.onSfr (f : Sfr → Sfr) (hm : m &&& 8192 = 8192) (h : Only m r s) : Only m r (s.onSfr f) :=
  { h with b := { h.b with sfr := .inl (Part.bit hm) } }
theorem Only.onAgr (f : Agr → Agr) (hm : m &&& 16384 = 16384) (h : Only m r s) : Only m r (s.onAgr f) :=
  { h with b := { h.b with agr := .inl (Part.bit hm) } }
theorem Only.onFcl (f : Fcl → Fcl) (hm : m &&& 1073807360 = 1073807360) (h : Only m r s) : Only m r (s.onFcl f) :=
  { h with b := { h.b with fcl := .inl (Part.bit (Part.sub hm rfl)), latches := .inl (Part.bit (Part.sub hm rfl)) } }
theorem Only.onFcl_keep (f : Fcl → Fcl) (hf : ∀ x, (f x).a.latch = x.a.latch ∧ (f x).b.latch = x.b.latch)
    (hm : m &&& 65536 = 65536) (h : Only m r s) :
    Only m r (s.onFcl f) :=
  { h with b := { h.b with
    fcl := .inl (Part.bit hm), latches := h.b.latches.imp id fun e => ⟨(hf _).1.trans e.1, (hf _).2.trans e.2⟩ } }
theorem Only.onRecd (f : Recorder → Recorder) (hm : m &&& 131072 = 131072) (h : Only m r s) : Only m r (s.onRecd f) :=
  { h with b := { h.b with recd := .inl (Part.bit hm) } }
theorem Only.onBst (f : Bst → Bst) (hm : m &&& 262144 = 262144) (h : Only m r s) : Only m r (s.onBst f) :=
  { h with b := { h.b with bst := .inl (Part.bit hm) } }
theorem Only.onOtp (f : Otp → Otp) (hm : m &&& 17180393472 = 17180393472) (h : Only m r s) : Only m r (s.onOtp f) :=
  { h with b := { h.b with otp := .inl (Part.bit (Part.sub hm rfl)), lifeBits := .inl (Part.bit (Part.sub hm rfl)) } }
theorem Only.onOtp_keep (f : Otp → Otp) (hf : ∀ x, (f x).latched = x.latched) (hm : m &&& 524288 = 524288)
    (h : Only m r s) :
    Only m r (s.onOtp f) :=
  { h with b := { h.b with otp := .inl (Part.bit hm), lifeBits := h.b.lifeBits.imp id (hf _).trans } }
theorem Only.onLcs (f : Lcs → Lcs) (hm : m &&& 1048576 = 1048576) (h : Only m r s) : Only m r (s.onLcs f) :=
  { h with b := { h.b with lcs := .inl (Part.bit hm) } }
theorem Only.onKey (f : Key → Key) (hm : m &&& 2097152 = 2097152) (h : Only m r s) : Only m r (s.onKey f) :=
  { h with b := { h.b with key := .inl (Part.bit hm) } }
theorem Only.onPwr (f : Pwr → Pwr) (hm : m &&& 34363932672 = 34363932672) (h : Only m r s) : Only m r (s.onPwr f) :=
  { h with b := { h.b with pwr := .inl (Part.bit (Part.sub hm rfl)), phase := .inl (Part.bit (Part.sub hm rfl)) } }
theorem Only.onPwr_keep (f : Pwr → Pwr) (hf : ∀ x, (f x).phase = x.phase) (hm : m &&& 4194304 = 4194304)
    (h : Only m r s) :
    Only m r (s.onPwr f) :=
  { h with b := { h.b with pwr := .inl (Part.bit hm), phase := h.b.phase.imp id (hf _).trans } }
theorem Only.onCfg (f : Cfg → Cfg) (hm : m &&& 8598323200 = 8598323200) (h : Only m r s) : Only m r (s.onCfg f) :=
  { h with b := { h.b with cfg := .inl (Part.bit (Part.sub hm rfl)), inForce := .inl (Part.bit (Part.sub hm rfl)) } }
theorem Only.onCfg_keep (f : Cfg → Cfg) (hf : ∀ x, (f x).image = x.image ∧ (f x).rws = x.rws)
    (hm : m &&& 8388608 = 8388608) (h : Only m r s) :
    Only m r (s.onCfg f) :=
  { h with b := { h.b with
    cfg := .inl (Part.bit hm), inForce := h.b.inForce.imp id fun e => ⟨(hf _).1.trans e.1, (hf _).2.trans e.2⟩ } }
theorem Only.onHif (f : Hif → Hif) (hm : m &&& 16777216 = 16777216) (h : Only m r s) : Only m r (s.onHif f) :=
  { h with b := { h.b with hif := .inl (Part.bit hm) } }
theorem Only.onCvu (k : Nat) (f : Cvu → Cvu) (hm : m &&& 32768 = 32768) (h : Only m r s) : Only m r (s.onCvu k f) :=
  { h with b := { h.b with cvu := .inl (Part.bit hm) } }
theorem Only.onMgmt (k : Nat) (f : MgmtSession → MgmtSession) (hm : m &&& 33554432 = 33554432)
    (h : Only m r s) : Only m r (s.onMgmt k f) :=
  { h with b := { h.b with mgmt := .inl (Part.bit hm) } }
theorem Only.tick (t : Nat) (hm : m &&& 1 = 1) (h : Only m r s) : Only m r (s.tick t) :=
  { h with b := { h.b with now := .inl (Part.bit hm) } }

end Sys2Proof.Machine
end

