-- ==== Sys2Proof/Laws/OnlyOps.lean ====
section
/-! SUPPORT. What Ops.lean keeps (Laws/Only.lean). -/

namespace Sys2Proof.Machine

variable {m : Nat} {x₀ s : State}

theorem Only.draw (hm : m &&& 536870912 = 536870912) (h : Only m x₀ s) :
    Only m x₀ (State.draw s).2 := by
  dsimp only [State.draw]
  exact .drew _ _ hm h

theorem Only.post (a0 : Arrival) (hm : m &&& 65536 = 65536) (h : Only m x₀ s) :
    Only m x₀ (State.post a0 s) := by
  dsimp only [State.post]
  repeat' first
      | with_reducible assumption | exact fun _ => ⟨rfl, rfl⟩ | exact fun _ => rfl
      | exact fun _ => ⟨rfl, rfl, rfl, rfl, rfl⟩ | intro _ | with_reducible apply Only.onFcl_keep

theorem Only.openRound (hm : m &&& 65536 = 65536) (h : Only m x₀ s) :
    Only m x₀ (State.openRound s) := by
  dsimp only [State.openRound]
  repeat' first
      | with_reducible assumption | exact fun _ => ⟨rfl, rfl⟩ | exact fun _ => rfl
      | exact fun _ => ⟨rfl, rfl, rfl, rfl, rfl⟩ | intro _ | with_reducible apply Only.onFcl_keep

theorem Only.raise (a0 : ℕ) (a1 : Word) (a2 : Option ℕ) (a3 : ℕ) (a4 : Option Block) (hm : m &&& 65536 = 65536)
    (h : Only m x₀ s) :
    Only m x₀ (State.raise a0 a1 a2 a3 a4 s) := by
  dsimp only [State.raise]
  repeat' first
      | with_reducible assumption | exact fun _ => ⟨rfl, rfl⟩ | exact fun _ => rfl
      | exact fun _ => ⟨rfl, rfl, rfl, rfl, rfl⟩ | intro _ | with_reducible apply Only.post

theorem Only.cond (a0 : ℕ) (a1 : Bool) (a2 : Word) (a3 : Option ℕ) (a4 : ℕ) (a5 : Option Block)
    (hm : m &&& 65536 = 65536) (h : Only m x₀ s) :
    Only m x₀ (State.cond a0 a1 a2 a3 a4 a5 s) := by
  dsimp only [State.cond]
  repeat' first
      | with_reducible assumption | exact fun _ => ⟨rfl, rfl⟩ | exact fun _ => rfl
      | exact fun _ => ⟨rfl, rfl, rfl, rfl, rfl⟩ | intro _ | with_reducible apply Only.ite
      | with_reducible apply Only.fst_ite | with_reducible apply Only.snd_ite | with_reducible apply Only.post
      | with_reducible apply Only.onFcl_keep

theorem Only.onToken (a0 : ℕ) (a1 : ℕ) (a2 : Token → Token) (hm : m &&& 2 = 2) (h : Only m x₀ s) :
    Only m x₀ (State.onToken a0 a1 a2 s) := by
  dsimp only [State.onToken]
  repeat' first
      | with_reducible assumption | exact fun _ => ⟨rfl, rfl⟩ | exact fun _ => rfl
      | exact fun _ => ⟨rfl, rfl, rfl, rfl, rfl⟩ | intro _ | with_reducible apply Only.onSys_keep

theorem Only.result (a0 : Reader) (a1 : ℕ) (a2 : ℕ) (hm : m &&& 2 = 2) (h : Only m x₀ s) :
    Only m x₀ (State.result a0 a1 a2 s) := by
  dsimp only [State.result]
  repeat' first
      | with_reducible assumption | exact fun _ => ⟨rfl, rfl⟩ | exact fun _ => rfl
      | exact fun _ => ⟨rfl, rfl, rfl, rfl, rfl⟩ | intro _ | with_reducible apply Only.onToken

theorem Only.refuseWrite (a0 : Reader) (a1 : ℕ) (hm : m &&& 65538 = 65538) (h : Only m x₀ s) :
    Only m x₀ (State.refuseWrite a0 a1 s) := by
  dsimp only [State.refuseWrite]
  repeat' first
      | with_reducible assumption | exact fun _ => ⟨rfl, rfl⟩ | exact fun _ => rfl
      | exact fun _ => ⟨rfl, rfl, rfl, rfl, rfl⟩ | intro _ | with_reducible apply Only.raise
      | with_reducible apply Only.result | exact Part.sub hm rfl

theorem Only.refuseCommand (a0 : Reader) (a1 : ℕ) (hm : m &&& 65538 = 65538) (h : Only m x₀ s) :
    Only m x₀ (State.refuseCommand a0 a1 s) := by
  dsimp only [State.refuseCommand]
  repeat' first
      | with_reducible assumption | exact fun _ => ⟨rfl, rfl⟩ | exact fun _ => rfl
      | exact fun _ => ⟨rfl, rfl, rfl, rfl, rfl⟩ | intro _ | with_reducible apply Only.onToken
      | with_reducible apply Only.refuseWrite | exact Part.sub hm rfl

theorem Only.wt (a0 : Reader) (a1 : ℕ) (a2 : BitVec 16) (a3 : State → State × ℕ) (hm : m &&& 65538 = 65538)
    (h_a3 : ∀ t, Only m x₀ t → Only m x₀ (a3 t).1) (h : Only m x₀ s) :
    Only m x₀ (State.wt a0 a1 a2 a3 s) := by
  dsimp only [State.wt]
  repeat' first
      | with_reducible assumption | exact fun _ => ⟨rfl, rfl⟩ | exact fun _ => rfl
      | exact fun _ => ⟨rfl, rfl, rfl, rfl, rfl⟩ | intro _ | with_reducible apply Only.ite
      | with_reducible apply Only.fst_ite | with_reducible apply Only.snd_ite
      | with_reducible apply Only.refuseCommand | with_reducible apply Only.onToken | with_reducible apply h_a3
      | exact Part.sub hm rfl

theorem Only.plain (a0 : Reader) (a1 : ℕ) (a2 : State → State × ℕ) (hm : m &&& 65538 = 65538)
    (h_a2 : ∀ t, Only m x₀ t → Only m x₀ (a2 t).1) (h : Only m x₀ s) :
    Only m x₀ (State.plain a0 a1 a2 s) := by
  dsimp only [State.plain]
  repeat' first
      | with_reducible assumption | exact fun _ => ⟨rfl, rfl⟩ | exact fun _ => rfl
      | exact fun _ => ⟨rfl, rfl, rfl, rfl, rfl⟩ | intro _ | with_reducible apply Only.ite
      | with_reducible apply Only.fst_ite | with_reducible apply Only.snd_ite | with_reducible apply Only.refuseWrite
      | with_reducible apply Only.result | with_reducible apply h_a2 | exact Part.sub hm rfl

theorem Only.settle (a0 : ℕ) (a1 : ℕ) (a2 : BitVec 16) (a3 : ℕ) (hm : m &&& 2 = 2) (h : Only m x₀ s) :
    Only m x₀ (State.settle a0 a1 a2 a3 s) := by
  dsimp only [State.settle]
  repeat' first
      | with_reducible assumption | exact fun _ => ⟨rfl, rfl⟩ | exact fun _ => rfl
      | exact fun _ => ⟨rfl, rfl, rfl, rfl, rfl⟩ | intro _ | with_reducible apply Only.ite
      | with_reducible apply Only.fst_ite | with_reducible apply Only.snd_ite | with_reducible apply Only.onToken

theorem Only.setOwn (a0 : ℕ) (a1 : ℕ) (a2 : Word) (hm : m &&& 134217728 = 134217728) (h : Only m x₀ s) :
    Only m x₀ (State.setOwn a0 a1 a2 s) := by
  dsimp only [State.setOwn]
  repeat' first
      | with_reducible assumption | exact fun _ => ⟨rfl, rfl⟩ | exact fun _ => rfl
      | exact fun _ => ⟨rfl, rfl, rfl, rfl, rfl⟩ | intro _ | with_reducible apply Only.on | exact Part.sub hm rfl
      | (constructor <;> first | exact .inr rfl | exact .inr ⟨rfl, rfl⟩ | exact .inr ⟨rfl, rfl, rfl, rfl, rfl⟩ | exact .inl (Part.bit (Part.sub hm rfl)))

theorem Only.setRw (a0 : ℕ) (a1 : Word) (hm : m &&& 8388608 = 8388608) (h : Only m x₀ s) :
    Only m x₀ (State.setRw a0 a1 s) := by
  dsimp only [State.setRw]
  repeat' first
      | with_reducible assumption | exact fun _ => ⟨rfl, rfl⟩ | exact fun _ => rfl
      | exact fun _ => ⟨rfl, rfl, rfl, rfl, rfl⟩ | intro _ | with_reducible apply Only.onCfg_keep

end Sys2Proof.Machine
end

