-- ==== Sys2Proof/Laws/OnlySwitch.lean ====
section
/-! SUPPORT. What Switch.lean keeps (Laws/Only.lean). -/

namespace Sys2Proof.Machine

variable {m : Nat} {x₀ s : State}

theorem Only.onPort (a0 : ℕ) (a1 : PortSt → PortSt) (hm : m &&& 2048 = 2048) (h : Only m x₀ s) :
    Only m x₀ (State.onPort a0 a1 s) := by
  dsimp only [State.onPort]
  repeat' first
      | with_reducible assumption | exact fun _ => ⟨rfl, rfl⟩ | exact fun _ => rfl
      | exact fun _ => ⟨rfl, rfl, rfl, rfl, rfl⟩ | intro _ | with_reducible apply Only.onNet

theorem Only.learn (a0 : ℕ) (a1 : ℕ) (a2 : BitVec 48) (hm : m &&& 2048 = 2048) (h : Only m x₀ s) :
    Only m x₀ (State.learn a0 a1 a2 s) := by
  dsimp only [State.learn]
  repeat' first
      | with_reducible assumption | exact fun _ => ⟨rfl, rfl⟩ | exact fun _ => rfl
      | exact fun _ => ⟨rfl, rfl, rfl, rfl, rfl⟩ | intro _ | with_reducible apply Only.ite
      | with_reducible apply Only.fst_ite | with_reducible apply Only.snd_ite | with_reducible apply Only.onNet

theorem Only.qciDiscard (a0 : ℕ) (hm : m &&& 67584 = 67584) (h : Only m x₀ s) :
    Only m x₀ (State.qciDiscard a0 s) := by
  dsimp only [State.qciDiscard]
  repeat' first
      | with_reducible assumption | exact fun _ => ⟨rfl, rfl⟩ | exact fun _ => rfl
      | exact fun _ => ⟨rfl, rfl, rfl, rfl, rfl⟩ | intro _ | with_reducible apply Only.ite
      | with_reducible apply Only.fst_ite | with_reducible apply Only.snd_ite | with_reducible apply Only.onNet
      | with_reducible apply Only.raise | exact Part.sub hm rfl

theorem Only.police (a0 : Option ℕ) (a1 : EthFrame) (hm : m &&& 67584 = 67584) (h : Only m x₀ s) :
    Only m x₀ (State.police a0 a1 s).1 := by
  dsimp only [State.police]
  repeat' first
      | with_reducible assumption | exact fun _ => ⟨rfl, rfl⟩ | exact fun _ => rfl
      | exact fun _ => ⟨rfl, rfl, rfl, rfl, rfl⟩ | intro _ | with_reducible apply Only.ite
      | with_reducible apply Only.fst_ite | with_reducible apply Only.snd_ite | with_reducible apply Only.qciDiscard
      | with_reducible apply Only.onNet | exact Part.sub hm rfl | rfl | exact ⟨rfl, rfl⟩
      | exact ⟨rfl, rfl, rfl, rfl, rfl⟩ | split

theorem Only.cbPass (a0 : ℕ) (a1 : Option ℕ) (a2 : EthFrame) (hm : m &&& 2048 = 2048) (h : Only m x₀ s) :
    Only m x₀ (State.cbPass a0 a1 a2 s).1 := by
  dsimp only [State.cbPass]
  repeat' first
      | with_reducible assumption | exact fun _ => ⟨rfl, rfl⟩ | exact fun _ => rfl
      | exact fun _ => ⟨rfl, rfl, rfl, rfl, rfl⟩ | intro _ | with_reducible apply Only.ite
      | with_reducible apply Only.fst_ite | with_reducible apply Only.snd_ite | with_reducible apply Only.onNet
      | exact Part.sub hm rfl | rfl | exact ⟨rfl, rfl⟩ | exact ⟨rfl, rfl, rfl, rfl, rfl⟩ | split

theorem Only.sendOn (a0 : ℕ) (a1 : EthFrame) (hm : m &&& 2048 = 2048) (h : Only m x₀ s) :
    Only m x₀ (State.sendOn a0 a1 s) := by
  dsimp only [State.sendOn]
  repeat' first
      | with_reducible assumption | exact fun _ => ⟨rfl, rfl⟩ | exact fun _ => rfl
      | exact fun _ => ⟨rfl, rfl, rfl, rfl, rfl⟩ | intro _ | with_reducible apply Only.onNet
      | with_reducible apply Only.onPort

theorem Only.egress (a0 : ℕ) (a1 : EthFrame) (hm : m &&& 2048 = 2048) (h : Only m x₀ s) :
    Only m x₀ (State.egress a0 a1 s) := by
  dsimp only [State.egress]
  repeat' first
      | with_reducible assumption | exact fun _ => ⟨rfl, rfl⟩ | exact fun _ => rfl
      | exact fun _ => ⟨rfl, rfl, rfl, rfl, rfl⟩ | intro _ | with_reducible apply Only.ite
      | with_reducible apply Only.fst_ite | with_reducible apply Only.snd_ite | with_reducible apply Only.onNet
      | with_reducible apply Only.onPort | with_reducible apply Only.sendOn

theorem Only.drain (a0 : ℕ) (a1 : ℕ) (hm : m &&& 2048 = 2048) (h : Only m x₀ s) :
    Only m x₀ (State.drain a0 a1 s) := by
  induction a1 generalizing s with
  | zero => exact h
  | succ n ih =>
    dsimp only [State.drain]
    split
    · exact h
    · exact ih (.sendOn _ _ (Part.sub hm rfl) (.onPort _ _ (Part.sub hm rfl) h))

theorem Only.drainPort (a0 : ℕ) (hm : m &&& 2048 = 2048) (h : Only m x₀ s) :
    Only m x₀ (State.drainPort a0 s) := by
  dsimp only [State.drainPort]
  repeat' first
      | with_reducible assumption | exact fun _ => ⟨rfl, rfl⟩ | exact fun _ => rfl
      | exact fun _ => ⟨rfl, rfl, rfl, rfl, rfl⟩ | intro _ | with_reducible apply Only.ite
      | with_reducible apply Only.fst_ite | with_reducible apply Only.snd_ite | with_reducible apply Only.drain

theorem Only.loseQueued (a0 : ℕ) (a1 : ℕ) (hm : m &&& 2048 = 2048) (h : Only m x₀ s) :
    Only m x₀ (State.loseQueued a0 a1 s) := by
  dsimp only [State.loseQueued]
  repeat' first
      | with_reducible assumption | exact fun _ => ⟨rfl, rfl⟩ | exact fun _ => rfl
      | exact fun _ => ⟨rfl, rfl, rfl, rfl, rfl⟩ | intro _ | with_reducible apply Only.onPort

theorem Only.forwardTo (a0 : ℕ) (a1 : EthFrame) (a2 : ℕ) (hm : m &&& 67584 = 67584) (h : Only m x₀ s) :
    Only m x₀ (State.forwardTo a0 a1 a2 s) := by
  dsimp only [State.forwardTo]
  repeat' first
      | with_reducible assumption | exact fun _ => ⟨rfl, rfl⟩ | exact fun _ => rfl
      | exact fun _ => ⟨rfl, rfl, rfl, rfl, rfl⟩ | intro _ | with_reducible apply Only.ite
      | with_reducible apply Only.fst_ite | with_reducible apply Only.snd_ite | with_reducible apply Only.onNet
      | with_reducible apply Only.sendOn | with_reducible apply Only.raise | with_reducible apply Only.egress
      | exact Part.sub hm rfl

theorem Only.forward (a0 : ℕ) (a1 : EthFrame) (hm : m &&& 67584 = 67584) (h : Only m x₀ s) :
    Only m x₀ (State.forward a0 a1 s) := by
  unfold State.forward
  refine .ite h ?_
  extract_lets v f0 hh q c
  have hq : Only m x₀ q.1 := .police _ _ (Part.sub hm rfl) h
  have hc : Only m x₀ c.1 := .cbPass _ _ _ (Part.sub hm rfl) hq
  clear_value c q
  refine .ite hq ?_
  obtain ⟨c1, c2⟩ := c
  cases c2 with
  | none => exact hc
  | some f1 =>
    have h2 := Only.forL (f := fun e s => s.forwardTo a0 f1 e) ((c1.learn a0 v f1.src).b.egressOf a0 v f1.dst)
      (fun e t ht => .forwardTo _ _ _ (Part.sub hm rfl) ht) (.learn a0 v f1.src (Part.sub hm rfl) hc)
    exact .ite (.onPort _ _ (Part.sub hm rfl) h2) h2

theorem Only.handPort6 (a0 : EthFrame) (hm : m &&& 67584 = 67584) (h : Only m x₀ s) :
    Only m x₀ (State.handPort6 a0 s) := by
  dsimp only [State.handPort6]
  repeat' first
      | with_reducible assumption | exact fun _ => ⟨rfl, rfl⟩ | exact fun _ => rfl
      | exact fun _ => ⟨rfl, rfl, rfl, rfl, rfl⟩ | intro _ | with_reducible apply Only.forward

end Sys2Proof.Machine
end

