-- ==== Sys2Proof/Laws/OnlyRecorder.lean ====
section
/-! SUPPORT. What Recorder.lean keeps (Laws/Only.lean). -/

namespace Sys2Proof.Machine

variable {m : Nat} {x₀ s : State}

theorem Only.loseRecord (hm : m &&& 131072 = 131072) (h : Only m x₀ s) :
    Only m x₀ (State.loseRecord s) := by
  dsimp only [State.loseRecord]
  repeat' first
      | with_reducible assumption | exact fun _ => ⟨rfl, rfl⟩ | exact fun _ => rfl
      | exact fun _ => ⟨rfl, rfl, rfl, rfl, rfl⟩ | intro _ | with_reducible apply Only.onRecd

theorem Only.notify (hm : m &&& 33554432 = 33554432) (h : Only m x₀ s) :
    Only m x₀ (State.notify s) := by
  dsimp only [State.notify]
  repeat' first
      | with_reducible assumption | exact fun _ => ⟨rfl, rfl⟩ | exact fun _ => rfl
      | exact fun _ => ⟨rfl, rfl, rfl, rfl, rfl⟩ | intro _ | with_reducible apply Only.ite
      | with_reducible apply Only.fst_ite | with_reducible apply Only.snd_ite | with_reducible apply Only.on
      | exact Part.sub hm rfl
      | (constructor <;> first | exact .inr rfl | exact .inr ⟨rfl, rfl⟩ | exact .inr ⟨rfl, rfl, rfl, rfl, rfl⟩ | exact .inl (Part.bit (Part.sub hm rfl)))

theorem Only.enterRecord (a0 : Record) (hm : m &&& 37945344 = 37945344) (h : Only m x₀ s) :
    Only m x₀ (State.enterRecord a0 s) := by
  dsimp only [State.enterRecord]
  repeat' first
      | with_reducible assumption | exact fun _ => ⟨rfl, rfl⟩ | exact fun _ => rfl
      | exact fun _ => ⟨rfl, rfl, rfl, rfl, rfl⟩ | intro _ | with_reducible apply Only.ite
      | with_reducible apply Only.fst_ite | with_reducible apply Only.snd_ite | with_reducible apply Only.onRecd
      | with_reducible apply Only.onPwr_keep | with_reducible apply Only.notify | with_reducible apply Only.raise
      | exact Part.sub hm rfl

theorem Only.holdRecord (a0 : Record) (hm : m &&& 131072 = 131072) (h : Only m x₀ s) :
    Only m x₀ (State.holdRecord a0 s) := by
  dsimp only [State.holdRecord]
  repeat' first
      | with_reducible assumption | exact fun _ => ⟨rfl, rfl⟩ | exact fun _ => rfl
      | exact fun _ => ⟨rfl, rfl, rfl, rfl, rfl⟩ | intro _ | with_reducible apply Only.onRecd

theorem Only.makeRecord (a0 : Bool) (a1 : Record) (hm : m &&& 37945344 = 37945344) (h : Only m x₀ s) :
    Only m x₀ (State.makeRecord a0 a1 s) := by
  dsimp only [State.makeRecord]
  repeat' first
      | with_reducible assumption | exact fun _ => ⟨rfl, rfl⟩ | exact fun _ => rfl
      | exact fun _ => ⟨rfl, rfl, rfl, rfl, rfl⟩ | intro _ | with_reducible apply Only.ite
      | with_reducible apply Only.fst_ite | with_reducible apply Only.snd_ite | with_reducible apply Only.loseRecord
      | with_reducible apply Only.holdRecord | with_reducible apply Only.raise | with_reducible apply Only.onRecd
      | with_reducible apply Only.enterRecord | exact Part.sub hm rfl

theorem Only.recordWith (a0 : ℕ) (a1 : List Byte) (a2 : Bool) (a3 : Profile → Bool) (a4 : Byte)
    (hm : m &&& 37945344 = 37945344) (h : Only m x₀ s) :
    Only m x₀ (State.recordWith a0 a1 a2 a3 a4 s) := by
  dsimp only [State.recordWith]
  repeat' first
      | with_reducible assumption | exact fun _ => ⟨rfl, rfl⟩ | exact fun _ => rfl
      | exact fun _ => ⟨rfl, rfl, rfl, rfl, rfl⟩ | intro _ | with_reducible apply Only.ite
      | with_reducible apply Only.fst_ite | with_reducible apply Only.snd_ite | with_reducible apply Only.makeRecord
      | exact Part.sub hm rfl | rfl | exact ⟨rfl, rfl⟩ | exact ⟨rfl, rfl, rfl, rfl, rfl⟩ | split

theorem Only.record (a0 : ℕ) (a1 : List Byte) (hm : m &&& 37945344 = 37945344) (h : Only m x₀ s) :
    Only m x₀ (State.record a0 a1 s) := by
  dsimp only [State.record]
  repeat' first
      | with_reducible assumption | exact fun _ => ⟨rfl, rfl⟩ | exact fun _ => rfl
      | exact fun _ => ⟨rfl, rfl, rfl, rfl, rfl⟩ | intro _ | with_reducible apply Only.recordWith

theorem Only.recordConfig (a0 : ℕ) (a1 : ℕ) (a2 : Image) (hm : m &&& 37945344 = 37945344) (h : Only m x₀ s) :
    Only m x₀ (State.recordConfig a0 a1 a2 s) := by
  dsimp only [State.recordConfig]
  repeat' first
      | with_reducible assumption | exact fun _ => ⟨rfl, rfl⟩ | exact fun _ => rfl
      | exact fun _ => ⟨rfl, rfl, rfl, rfl, rfl⟩ | intro _ | with_reducible apply Only.recordWith

theorem Only.recordFn (a0 : ℕ) (a1 : ℕ) (a2 : ℕ) (a3 : ℕ) (a4 : ℕ) (hm : m &&& 37945344 = 37945344)
    (h : Only m x₀ s) :
    Only m x₀ (State.recordFn a0 a1 a2 a3 a4 s) := by
  dsimp only [State.recordFn]
  repeat' first
      | with_reducible assumption | exact fun _ => ⟨rfl, rfl⟩ | exact fun _ => rfl
      | exact fun _ => ⟨rfl, rfl, rfl, rfl, rfl⟩ | intro _ | with_reducible apply Only.recordWith

end Sys2Proof.Machine
end

