-- ==== Sys2Proof/Laws/OnlySys.lean ====
section
/-! SUPPORT. What Sys.lean keeps (Laws/Only.lean). -/

namespace Sys2Proof.Machine

variable {m : Nat} {x₀ s : State}

theorem Only.latchOptime (a0 : ℕ) (hm : m &&& 4 = 4) (h : Only m x₀ s) :
    Only m x₀ (State.latchOptime a0 s) := by
  dsimp only [State.latchOptime]
  repeat' first
      | with_reducible assumption | exact fun _ => ⟨rfl, rfl⟩ | exact fun _ => rfl
      | exact fun _ => ⟨rfl, rfl, rfl, rfl, rfl⟩ | intro _ | with_reducible apply Only.onTru

theorem Only.latchCell (a0 : ℕ) (hm : m &&& 4 = 4) (h : Only m x₀ s) :
    Only m x₀ (State.latchCell a0 s) := by
  dsimp only [State.latchCell]
  repeat' first
      | with_reducible assumption | exact fun _ => ⟨rfl, rfl⟩ | exact fun _ => rfl
      | exact fun _ => ⟨rfl, rfl, rfl, rfl, rfl⟩ | intro _ | with_reducible apply Only.onTru

theorem Only.execTruOptimeLoRead (a0 : ℕ) (a1 : Reader) (hm : m &&& 5 = 5) (h : Only m x₀ s) :
    ∀ u, (execTruOptimeLoRead a0 a1 s) = .next u → Only m x₀ u := by
  intro u e
  obtain rfl := Host.Outcome.next.inj e
  repeat' first
      | with_reducible assumption | exact fun _ => ⟨rfl, rfl⟩ | exact fun _ => rfl
      | exact fun _ => ⟨rfl, rfl, rfl, rfl, rfl⟩ | intro _ | with_reducible apply Only.latchOptime
      | with_reducible apply Only.tick | exact Part.sub hm rfl

theorem Only.execTruCellNsRead (a0 : ℕ) (a1 : Reader) (hm : m &&& 5 = 5) (h : Only m x₀ s) :
    ∀ u, (execTruCellNsRead a0 a1 s) = .next u → Only m x₀ u := by
  intro u e
  obtain rfl := Host.Outcome.next.inj e
  repeat' first
      | with_reducible assumption | exact fun _ => ⟨rfl, rfl⟩ | exact fun _ => rfl
      | exact fun _ => ⟨rfl, rfl, rfl, rfl, rfl⟩ | intro _ | with_reducible apply Only.latchCell
      | with_reducible apply Only.tick | exact Part.sub hm rfl

theorem Only.expertAt (a0 : Reader) (a1 : ℕ) (a2 : ℕ) (a3 : Word) (a4 : State → State × ℕ)
    (hm : m &&& 37945346 = 37945346) (h_a4 : ∀ t, Only m x₀ t → Only m x₀ (a4 t).1) (h : Only m x₀ s) :
    Only m x₀ (State.expertAt a0 a1 a2 a3 a4 s) := by
  dsimp only [State.expertAt]
  repeat' first
      | with_reducible assumption | exact fun _ => ⟨rfl, rfl⟩ | exact fun _ => rfl
      | exact fun _ => ⟨rfl, rfl, rfl, rfl, rfl⟩ | intro _ | with_reducible apply Only.ite
      | with_reducible apply Only.fst_ite | with_reducible apply Only.snd_ite | with_reducible apply Only.plain
      | with_reducible apply Only.record | with_reducible apply Only.onSys_keep | with_reducible apply h_a4
      | exact Part.sub hm rfl

theorem Only.expert (a0 : Reader) (a1 : ℕ) (a2 : Word) (a3 : State → State × ℕ) (hm : m &&& 37945346 = 37945346)
    (h_a3 : ∀ t, Only m x₀ t → Only m x₀ (a3 t).1) (h : Only m x₀ s) :
    Only m x₀ (State.expert a0 a1 a2 a3 s) := by
  dsimp only [State.expert]
  repeat' first
      | with_reducible assumption | exact fun _ => ⟨rfl, rfl⟩ | exact fun _ => rfl
      | exact fun _ => ⟨rfl, rfl, rfl, rfl, rfl⟩ | intro _ | with_reducible apply Only.expertAt

theorem Only.truInject (a0 : Word) (hm : m &&& 4 = 4) (h : Only m x₀ s) :
    Only m x₀ (State.truInject a0 s).1 := by
  dsimp only [State.truInject]
  repeat' first
      | with_reducible assumption | exact fun _ => ⟨rfl, rfl⟩ | exact fun _ => rfl
      | exact fun _ => ⟨rfl, rfl, rfl, rfl, rfl⟩ | intro _ | with_reducible apply Only.ite
      | with_reducible apply Only.fst_ite | with_reducible apply Only.snd_ite | with_reducible apply Only.onTru

theorem Only.execTruInject (a0 : ℕ) (a1 : Reader) (a2 : Word) (hm : m &&& 37945351 = 37945351) (h : Only m x₀ s) :
    ∀ u, (execTruInject a0 a1 a2 s) = .next u → Only m x₀ u := by
  intro u e
  obtain rfl := Host.Outcome.next.inj e
  repeat' first
      | with_reducible assumption | exact fun _ => ⟨rfl, rfl⟩ | exact fun _ => rfl
      | exact fun _ => ⟨rfl, rfl, rfl, rfl, rfl⟩ | intro _ | with_reducible apply Only.expert
      | with_reducible apply Only.truInject | with_reducible apply Only.tick | exact Part.sub hm rfl

theorem Only.queueClear (a0 : ℕ) (a1 : ℕ) (a2 : Bool) (a3 : Word) (hm : m &&& 65536 = 65536) (h : Only m x₀ s) :
    Only m x₀ (State.queueClear a0 a1 a2 a3 s).1 := by
  dsimp only [State.queueClear]
  repeat' first
      | with_reducible assumption | exact fun _ => ⟨rfl, rfl⟩ | exact fun _ => rfl
      | exact fun _ => ⟨rfl, rfl, rfl, rfl, rfl⟩ | intro _ | with_reducible apply Only.ite
      | with_reducible apply Only.fst_ite | with_reducible apply Only.snd_ite | with_reducible apply Only.onFcl_keep

theorem Only.pageClear (a0 : Reader) (a1 : ℕ) (a2 : Word) (hm : m &&& 65538 = 65538) (h : Only m x₀ s) :
    Only m x₀ (State.pageClear a0 a1 a2 s) := by
  dsimp only [State.pageClear]
  repeat' first
      | with_reducible assumption | exact fun _ => ⟨rfl, rfl⟩ | exact fun _ => rfl
      | exact fun _ => ⟨rfl, rfl, rfl, rfl, rfl⟩ | intro _ | with_reducible apply Only.ite
      | with_reducible apply Only.fst_ite | with_reducible apply Only.snd_ite
      | with_reducible apply Only.refuseCommand | with_reducible apply Only.wt | with_reducible apply Only.queueClear
      | exact Part.sub hm rfl

theorem Only.fclClear (a0 : Reader) (a1 : Word) (hm : m &&& 65538 = 65538) (h : Only m x₀ s) :
    Only m x₀ (State.fclClear a0 a1 s) := by
  dsimp only [State.fclClear]
  repeat' first
      | with_reducible assumption | exact fun _ => ⟨rfl, rfl⟩ | exact fun _ => rfl
      | exact fun _ => ⟨rfl, rfl, rfl, rfl, rfl⟩ | intro _ | with_reducible apply Only.wt
      | with_reducible apply Only.queueClear | exact Part.sub hm rfl

theorem Only.execPageFltLatchClear (a0 : ℕ) (a1 : Reader) (a2 : ℕ) (a3 : Word) (hm : m &&& 65539 = 65539)
    (h : Only m x₀ s) :
    ∀ u, (execPageFltLatchClear a0 a1 a2 a3 s) = .next u → Only m x₀ u := by
  intro u e
  obtain rfl := Host.Outcome.next.inj e
  repeat' first
      | with_reducible assumption | exact fun _ => ⟨rfl, rfl⟩ | exact fun _ => rfl
      | exact fun _ => ⟨rfl, rfl, rfl, rfl, rfl⟩ | intro _ | with_reducible apply Only.pageClear
      | with_reducible apply Only.tick | exact Part.sub hm rfl | rfl | exact ⟨rfl, rfl⟩
      | exact ⟨rfl, rfl, rfl, rfl, rfl⟩ | split

theorem Only.execFclClear (a0 : ℕ) (a1 : Reader) (a2 : Word) (hm : m &&& 65539 = 65539) (h : Only m x₀ s) :
    ∀ u, (execFclClear a0 a1 a2 s) = .next u → Only m x₀ u := by
  intro u e
  obtain rfl := Host.Outcome.next.inj e
  repeat' first
      | with_reducible assumption | exact fun _ => ⟨rfl, rfl⟩ | exact fun _ => rfl
      | exact fun _ => ⟨rfl, rfl, rfl, rfl, rfl⟩ | intro _ | with_reducible apply Only.fclClear
      | with_reducible apply Only.tick | exact Part.sub hm rfl

theorem Only.onStaging (a0 : ℕ) (a1 : Staging → Staging) (hm : m &&& 2 = 2) (h : Only m x₀ s) :
    Only m x₀ (State.onStaging a0 a1 s) := by
  dsimp only [State.onStaging]
  repeat' first
      | with_reducible assumption | exact fun _ => ⟨rfl, rfl⟩ | exact fun _ => rfl
      | exact fun _ => ⟨rfl, rfl, rfl, rfl, rfl⟩ | intro _ | with_reducible apply Only.onSys_keep

theorem Only.stageCommit (a0 : ℕ) (a1 : BitVec 16) (hm : m &&& 2 = 2) (h : Only m x₀ s) :
    Only m x₀ (State.stageCommit a0 a1 s).1 := by
  dsimp only [State.stageCommit]
  repeat' first
      | with_reducible assumption | exact fun _ => ⟨rfl, rfl⟩ | exact fun _ => rfl
      | exact fun _ => ⟨rfl, rfl, rfl, rfl, rfl⟩ | intro _ | with_reducible apply Only.ite
      | with_reducible apply Only.fst_ite | with_reducible apply Only.snd_ite | with_reducible apply Only.onStaging

theorem Only.stageDiscard (a0 : ℕ) (hm : m &&& 2 = 2) (h : Only m x₀ s) :
    Only m x₀ (State.stageDiscard a0 s).1 := by
  dsimp only [State.stageDiscard]
  repeat' first
      | with_reducible assumption | exact fun _ => ⟨rfl, rfl⟩ | exact fun _ => rfl
      | exact fun _ => ⟨rfl, rfl, rfl, rfl, rfl⟩ | intro _ | with_reducible apply Only.ite
      | with_reducible apply Only.fst_ite | with_reducible apply Only.snd_ite | with_reducible apply Only.onStaging

theorem Only.execStageCommit (a0 : ℕ) (a1 : Reader) (a2 : BitVec 16) (hm : m &&& 65539 = 65539) (h : Only m x₀ s) :
    ∀ u, (execStageCommit a0 a1 a2 s) = .next u → Only m x₀ u := by
  intro u e
  obtain rfl := Host.Outcome.next.inj e
  repeat' first
      | with_reducible assumption | exact fun _ => ⟨rfl, rfl⟩ | exact fun _ => rfl
      | exact fun _ => ⟨rfl, rfl, rfl, rfl, rfl⟩ | intro _ | with_reducible apply Only.wt
      | with_reducible apply Only.stageCommit | with_reducible apply Only.tick | exact Part.sub hm rfl

theorem Only.execStageDiscard (a0 : ℕ) (a1 : Reader) (a2 : BitVec 16) (hm : m &&& 65539 = 65539) (h : Only m x₀ s) :
    ∀ u, (execStageDiscard a0 a1 a2 s) = .next u → Only m x₀ u := by
  intro u e
  obtain rfl := Host.Outcome.next.inj e
  repeat' first
      | with_reducible assumption | exact fun _ => ⟨rfl, rfl⟩ | exact fun _ => rfl
      | exact fun _ => ⟨rfl, rfl, rfl, rfl, rfl⟩ | intro _ | with_reducible apply Only.wt
      | with_reducible apply Only.stageDiscard | with_reducible apply Only.tick | exact Part.sub hm rfl

theorem Only.onFreeze (a0 : ℕ) (a1 : Freeze → Freeze) (hm : m &&& 2 = 2) (h : Only m x₀ s) :
    Only m x₀ (State.onFreeze a0 a1 s) := by
  dsimp only [State.onFreeze]
  repeat' first
      | with_reducible assumption | exact fun _ => ⟨rfl, rfl⟩ | exact fun _ => rfl
      | exact fun _ => ⟨rfl, rfl, rfl, rfl, rfl⟩ | intro _ | with_reducible apply Only.onSys_keep

theorem Only.freeze (a0 : ℕ) (hm : m &&& 268435458 = 268435458) (h : Only m x₀ s) :
    Only m x₀ (State.freeze a0 s).1 := by
  dsimp only [State.freeze]
  repeat' first
      | with_reducible assumption | exact fun _ => ⟨rfl, rfl⟩ | exact fun _ => rfl
      | exact fun _ => ⟨rfl, rfl, rfl, rfl, rfl⟩ | intro _ | with_reducible apply Only.onFreeze
      | with_reducible apply Only.framed | exact Part.sub hm rfl

theorem Only.unfreeze (a0 : ℕ) (hm : m &&& 268435458 = 268435458) (h : Only m x₀ s) :
    Only m x₀ (State.unfreeze a0 s).1 := by
  dsimp only [State.unfreeze]
  repeat' first
      | with_reducible assumption | exact fun _ => ⟨rfl, rfl⟩ | exact fun _ => rfl
      | exact fun _ => ⟨rfl, rfl, rfl, rfl, rfl⟩ | intro _ | with_reducible apply Only.onFreeze
      | with_reducible apply Only.framed | exact Part.sub hm rfl

theorem Only.freezeExpire (a0 : ℕ) (hm : m &&& 268500994 = 268500994) (h : Only m x₀ s) :
    Only m x₀ (State.freezeExpire a0 s) := by
  dsimp only [State.freezeExpire]
  repeat' first
      | with_reducible assumption | exact fun _ => ⟨rfl, rfl⟩ | exact fun _ => rfl
      | exact fun _ => ⟨rfl, rfl, rfl, rfl, rfl⟩ | intro _ | with_reducible apply Only.ite
      | with_reducible apply Only.fst_ite | with_reducible apply Only.snd_ite | with_reducible apply Only.raise
      | with_reducible apply Only.onFreeze | with_reducible apply Only.framed | exact Part.sub hm rfl

theorem Only.execFreeze (a0 : ℕ) (a1 : Reader) (a2 : BitVec 16) (hm : m &&& 268500995 = 268500995) (h : Only m x₀ s) :
    ∀ u, (execFreeze a0 a1 a2 s) = .next u → Only m x₀ u := by
  intro u e
  obtain rfl := Host.Outcome.next.inj e
  repeat' first
      | with_reducible assumption | exact fun _ => ⟨rfl, rfl⟩ | exact fun _ => rfl
      | exact fun _ => ⟨rfl, rfl, rfl, rfl, rfl⟩ | intro _ | with_reducible apply Only.wt
      | with_reducible apply Only.freeze | with_reducible apply Only.tick | exact Part.sub hm rfl

theorem Only.execFreezeRelease (a0 : ℕ) (a1 : Reader) (a2 : BitVec 16) (hm : m &&& 268500995 = 268500995)
    (h : Only m x₀ s) :
    ∀ u, (execFreezeRelease a0 a1 a2 s) = .next u → Only m x₀ u := by
  intro u e
  obtain rfl := Host.Outcome.next.inj e
  repeat' first
      | with_reducible assumption | exact fun _ => ⟨rfl, rfl⟩ | exact fun _ => rfl
      | exact fun _ => ⟨rfl, rfl, rfl, rfl, rfl⟩ | intro _ | with_reducible apply Only.wt
      | with_reducible apply Only.unfreeze | with_reducible apply Only.tick | exact Part.sub hm rfl

theorem Only.execFreezeExpired (a0 : ℕ) (a1 : Reader) (hm : m &&& 268500995 = 268500995) (h : Only m x₀ s) :
    ∀ u, (execFreezeExpired a0 a1 s) = .next u → Only m x₀ u := by
  intro u e
  obtain rfl := Host.Outcome.next.inj e
  repeat' first
      | with_reducible assumption | exact fun _ => ⟨rfl, rfl⟩ | exact fun _ => rfl
      | exact fun _ => ⟨rfl, rfl, rfl, rfl, rfl⟩ | intro _ | with_reducible apply Only.freezeExpire
      | with_reducible apply Only.tick | exact Part.sub hm rfl

theorem Only.onExpert (a0 : ℕ) (a1 : Expert → Expert) (hm : m &&& 2 = 2) (h : Only m x₀ s) :
    Only m x₀ (State.onExpert a0 a1 s) := by
  dsimp only [State.onExpert]
  repeat' first
      | with_reducible assumption | exact fun _ => ⟨rfl, rfl⟩ | exact fun _ => rfl
      | exact fun _ => ⟨rfl, rfl, rfl, rfl, rfl⟩ | intro _ | with_reducible apply Only.onSys_keep

theorem Only.newNonce (a0 : ℕ) (hm : m &&& 536870914 = 536870914) (h : Only m x₀ s) :
    Only m x₀ (State.newNonce a0 s) := by
  unfold State.newNonce
  exact .drew _ _ (Part.sub hm rfl) (Only.onExpert _ _ (Part.sub hm rfl) h)

theorem Only.unlock (a0 : Reader) (hm : m &&& 536936450 = 536936450) (h : Only m x₀ s) :
    Only m x₀ (State.unlock a0 s).1 := by
  dsimp only [State.unlock]
  repeat' first
      | with_reducible assumption | exact fun _ => ⟨rfl, rfl⟩ | exact fun _ => rfl
      | exact fun _ => ⟨rfl, rfl, rfl, rfl, rfl⟩ | intro _ | with_reducible apply Only.ite
      | with_reducible apply Only.fst_ite | with_reducible apply Only.snd_ite | with_reducible apply Only.newNonce
      | with_reducible apply Only.onExpert | with_reducible apply Only.raise | exact Part.sub hm rfl

theorem Only.lock (a0 : ℕ) (hm : m &&& 2 = 2) (h : Only m x₀ s) :
    Only m x₀ (State.lock a0 s).1 := by
  dsimp only [State.lock]
  repeat' first
      | with_reducible assumption | exact fun _ => ⟨rfl, rfl⟩ | exact fun _ => rfl
      | exact fun _ => ⟨rfl, rfl, rfl, rfl, rfl⟩ | intro _ | with_reducible apply Only.onExpert

theorem Only.expertIdle (a0 : ℕ) (hm : m &&& 2 = 2) (h : Only m x₀ s) :
    Only m x₀ (State.expertIdle a0 s) := by
  dsimp only [State.expertIdle]
  repeat' first
      | with_reducible assumption | exact fun _ => ⟨rfl, rfl⟩ | exact fun _ => rfl
      | exact fun _ => ⟨rfl, rfl, rfl, rfl, rfl⟩ | intro _ | with_reducible apply Only.ite
      | with_reducible apply Only.fst_ite | with_reducible apply Only.snd_ite | with_reducible apply Only.onExpert

theorem Only.expertBlockEnd (a0 : ℕ) (hm : m &&& 2 = 2) (h : Only m x₀ s) :
    Only m x₀ (State.expertBlockEnd a0 s) := by
  dsimp only [State.expertBlockEnd]
  repeat' first
      | with_reducible assumption | exact fun _ => ⟨rfl, rfl⟩ | exact fun _ => rfl
      | exact fun _ => ⟨rfl, rfl, rfl, rfl, rfl⟩ | intro _ | with_reducible apply Only.ite
      | with_reducible apply Only.fst_ite | with_reducible apply Only.snd_ite | with_reducible apply Only.onExpert
      | exact Part.sub hm rfl | rfl | exact ⟨rfl, rfl⟩ | exact ⟨rfl, rfl, rfl, rfl, rfl⟩ | split

theorem Only.execExpertUnlock (a0 : ℕ) (a1 : Reader) (a2 : BitVec 16) (hm : m &&& 536936451 = 536936451)
    (h : Only m x₀ s) :
    ∀ u, (execExpertUnlock a0 a1 a2 s) = .next u → Only m x₀ u := by
  intro u e
  obtain rfl := Host.Outcome.next.inj e
  repeat' first
      | with_reducible assumption | exact fun _ => ⟨rfl, rfl⟩ | exact fun _ => rfl
      | exact fun _ => ⟨rfl, rfl, rfl, rfl, rfl⟩ | intro _ | with_reducible apply Only.wt
      | with_reducible apply Only.unlock | with_reducible apply Only.tick | exact Part.sub hm rfl

theorem Only.execExpertLock (a0 : ℕ) (a1 : Reader) (a2 : BitVec 16) (hm : m &&& 65539 = 65539) (h : Only m x₀ s) :
    ∀ u, (execExpertLock a0 a1 a2 s) = .next u → Only m x₀ u := by
  intro u e
  obtain rfl := Host.Outcome.next.inj e
  repeat' first
      | with_reducible assumption | exact fun _ => ⟨rfl, rfl⟩ | exact fun _ => rfl
      | exact fun _ => ⟨rfl, rfl, rfl, rfl, rfl⟩ | intro _ | with_reducible apply Only.wt
      | with_reducible apply Only.lock | with_reducible apply Only.tick | exact Part.sub hm rfl

theorem Only.execExpertIdleTimeout (a0 : ℕ) (a1 : Reader) (hm : m &&& 3 = 3) (h : Only m x₀ s) :
    ∀ u, (execExpertIdleTimeout a0 a1 s) = .next u → Only m x₀ u := by
  intro u e
  obtain rfl := Host.Outcome.next.inj e
  repeat' first
      | with_reducible assumption | exact fun _ => ⟨rfl, rfl⟩ | exact fun _ => rfl
      | exact fun _ => ⟨rfl, rfl, rfl, rfl, rfl⟩ | intro _ | with_reducible apply Only.expertIdle
      | with_reducible apply Only.tick | exact Part.sub hm rfl

theorem Only.execExpertBlockEnd (a0 : ℕ) (a1 : Reader) (hm : m &&& 3 = 3) (h : Only m x₀ s) :
    ∀ u, (execExpertBlockEnd a0 a1 s) = .next u → Only m x₀ u := by
  intro u e
  obtain rfl := Host.Outcome.next.inj e
  repeat' first
      | with_reducible assumption | exact fun _ => ⟨rfl, rfl⟩ | exact fun _ => rfl
      | exact fun _ => ⟨rfl, rfl, rfl, rfl, rfl⟩ | intro _ | with_reducible apply Only.expertBlockEnd
      | with_reducible apply Only.tick | exact Part.sub hm rfl

end Sys2Proof.Machine
end

