-- ==== Sys2Proof/Laws/OnlyCores.lean ====
section
/-! SUPPORT. What Cores.lean keeps (Laws/Only.lean). -/

namespace Sys2Proof.Machine

variable {m : Nat} {x₀ s : State}

theorem Only.onPair (a0 : ℕ) (a1 : Pair → Pair) (hm : m &&& 16384 = 16384) (h : Only m x₀ s) :
    Only m x₀ (State.onPair a0 a1 s) := by
  dsimp only [State.onPair]
  repeat' first
      | with_reducible assumption | exact fun _ => ⟨rfl, rfl⟩ | exact fun _ => rfl
      | exact fun _ => ⟨rfl, rfl, rfl, rfl, rfl⟩ | intro _ | with_reducible apply Only.onAgr

theorem Only.blockPair (a0 : ℕ) (hm : m &&& 16384 = 16384) (h : Only m x₀ s) :
    Only m x₀ (State.blockPair a0 s) := by
  dsimp only [State.blockPair]
  repeat' first
      | with_reducible assumption | exact fun _ => ⟨rfl, rfl⟩ | exact fun _ => rfl
      | exact fun _ => ⟨rfl, rfl, rfl, rfl, rfl⟩ | intro _ | with_reducible apply Only.ite
      | with_reducible apply Only.fst_ite | with_reducible apply Only.snd_ite | with_reducible apply Only.onPair

theorem Only.blockAll (hm : m &&& 16384 = 16384) (h : Only m x₀ s) :
    Only m x₀ (State.blockAll s) := by
  dsimp only [State.blockAll]
  repeat' first
      | with_reducible assumption | exact fun _ => ⟨rfl, rfl⟩ | exact fun _ => rfl
      | exact fun _ => ⟨rfl, rfl, rfl, rfl, rfl⟩ | intro _ | with_reducible apply Only.forN
      | with_reducible apply Only.blockPair

theorem Only.failPair (a0 : ℕ) (a1 : ℕ) (hm : m &&& 81920 = 81920) (h : Only m x₀ s) :
    Only m x₀ (State.failPair a0 a1 s) := by
  dsimp only [State.failPair]
  repeat' first
      | with_reducible assumption | exact fun _ => ⟨rfl, rfl⟩ | exact fun _ => rfl
      | exact fun _ => ⟨rfl, rfl, rfl, rfl, rfl⟩ | intro _ | with_reducible apply Only.blockPair
      | with_reducible apply Only.raise | exact Part.sub hm rfl

theorem Only.agreementTimeout (a0 : ℕ) (hm : m &&& 81920 = 81920) (h : Only m x₀ s) :
    Only m x₀ (State.agreementTimeout a0 s) := by
  dsimp only [State.agreementTimeout]
  repeat' first
      | with_reducible assumption | exact fun _ => ⟨rfl, rfl⟩ | exact fun _ => rfl
      | exact fun _ => ⟨rfl, rfl, rfl, rfl, rfl⟩ | intro _ | with_reducible apply Only.ite
      | with_reducible apply Only.fst_ite | with_reducible apply Only.snd_ite | with_reducible apply Only.failPair
      | with_reducible apply Only.onPair | exact Part.sub hm rfl

theorem Only.execAgreementTimeout (a0 : ℕ) (a1 : Fin 4) (hm : m &&& 81921 = 81921) (h : Only m x₀ s) :
    ∀ u, (execAgreementTimeout a0 a1 s) = .next u → Only m x₀ u := by
  intro u e
  obtain rfl := Host.Outcome.next.inj e
  repeat' first
      | with_reducible assumption | exact fun _ => ⟨rfl, rfl⟩ | exact fun _ => rfl
      | exact fun _ => ⟨rfl, rfl, rfl, rfl, rfl⟩ | intro _ | with_reducible apply Only.agreementTimeout
      | with_reducible apply Only.tick | exact Part.sub hm rfl

theorem Only.pairRelease (a0 : ℕ) (hm : m &&& 16384 = 16384) (h : Only m x₀ s) :
    Only m x₀ (State.pairRelease a0 s) := by
  dsimp only [State.pairRelease]
  repeat' first
      | with_reducible assumption | exact fun _ => ⟨rfl, rfl⟩ | exact fun _ => rfl
      | exact fun _ => ⟨rfl, rfl, rfl, rfl, rfl⟩ | intro _ | with_reducible apply Only.ite
      | with_reducible apply Only.fst_ite | with_reducible apply Only.snd_ite | with_reducible apply Only.onPair

theorem Only.execPairRelease (a0 : ℕ) (a1 : Fin 4) (hm : m &&& 16385 = 16385) (h : Only m x₀ s) :
    ∀ u, (execPairRelease a0 a1 s) = .next u → Only m x₀ u := by
  intro u e
  obtain rfl := Host.Outcome.next.inj e
  repeat' first
      | with_reducible assumption | exact fun _ => ⟨rfl, rfl⟩ | exact fun _ => rfl
      | exact fun _ => ⟨rfl, rfl, rfl, rfl, rfl⟩ | intro _ | with_reducible apply Only.pairRelease
      | with_reducible apply Only.tick | exact Part.sub hm rfl

theorem Only.ownPair (a0 : Reader) (a1 : ℕ) (a2 : State → State × ℕ) (hm : m &&& 65538 = 65538)
    (h_a2 : ∀ t, Only m x₀ t → Only m x₀ (a2 t).1) (h : Only m x₀ s) :
    Only m x₀ (State.ownPair a0 a1 a2 s) := by
  dsimp only [State.ownPair]
  repeat' first
      | with_reducible assumption | exact fun _ => ⟨rfl, rfl⟩ | exact fun _ => rfl
      | exact fun _ => ⟨rfl, rfl, rfl, rfl, rfl⟩ | intro _ | with_reducible apply Only.ite
      | with_reducible apply Only.fst_ite | with_reducible apply Only.snd_ite | with_reducible apply Only.result
      | with_reducible apply Only.refuseWrite | with_reducible apply h_a2 | exact Part.sub hm rfl | rfl
      | exact ⟨rfl, rfl⟩ | exact ⟨rfl, rfl, rfl, rfl, rfl⟩ | split

theorem Only.cfwWrite (a0 : ℕ) (a1 : ℕ) (a2 : Word) (hm : m &&& 16384 = 16384) (h : Only m x₀ s) :
    Only m x₀ (State.cfwWrite a0 a1 a2 s).1 := by
  dsimp only [State.cfwWrite]
  repeat' first
      | with_reducible assumption | exact fun _ => ⟨rfl, rfl⟩ | exact fun _ => rfl
      | exact fun _ => ⟨rfl, rfl, rfl, rfl, rfl⟩ | intro _ | with_reducible apply Only.ite
      | with_reducible apply Only.fst_ite | with_reducible apply Only.snd_ite | with_reducible apply Only.onPair

theorem Only.execCprCfwWrite (a0 : ℕ) (a1 : Reader) (a2 : Fin 4) (a3 : ℕ) (a4 : Word) (hm : m &&& 81923 = 81923)
    (h : Only m x₀ s) :
    ∀ u, (execCprCfwWrite a0 a1 a2 a3 a4 s) = .next u → Only m x₀ u := by
  intro u e
  obtain rfl := Host.Outcome.next.inj e
  repeat' first
      | with_reducible assumption | exact fun _ => ⟨rfl, rfl⟩ | exact fun _ => rfl
      | exact fun _ => ⟨rfl, rfl, rfl, rfl, rfl⟩ | intro _ | with_reducible apply Only.ownPair
      | with_reducible apply Only.cfwWrite | with_reducible apply Only.tick | exact Part.sub hm rfl

theorem Only.cfwInv (a0 : ℕ) (a1 : Word) (hm : m &&& 16384 = 16384) (h : Only m x₀ s) :
    Only m x₀ (State.cfwInv a0 a1 s).1 := by
  dsimp only [State.cfwInv]
  repeat' first
      | with_reducible assumption | exact fun _ => ⟨rfl, rfl⟩ | exact fun _ => rfl
      | exact fun _ => ⟨rfl, rfl, rfl, rfl, rfl⟩ | intro _ | with_reducible apply Only.ite
      | with_reducible apply Only.fst_ite | with_reducible apply Only.snd_ite | with_reducible apply Only.onPair

theorem Only.ownWt (a0 : Reader) (a1 : ℕ) (a2 : Word) (a3 : State → State × ℕ) (hm : m &&& 65538 = 65538)
    (h_a3 : ∀ t, Only m x₀ t → Only m x₀ (a3 t).1) (h : Only m x₀ s) :
    Only m x₀ (State.ownWt a0 a1 a2 a3 s) := by
  dsimp only [State.ownWt]
  repeat' first
      | with_reducible assumption | exact fun _ => ⟨rfl, rfl⟩ | exact fun _ => rfl
      | exact fun _ => ⟨rfl, rfl, rfl, rfl, rfl⟩ | intro _ | with_reducible apply Only.ite
      | with_reducible apply Only.fst_ite | with_reducible apply Only.snd_ite | with_reducible apply Only.wt
      | with_reducible apply Only.refuseCommand | with_reducible apply Only.onToken | with_reducible apply Only.result
      | with_reducible apply h_a3 | exact Part.sub hm rfl | rfl | exact ⟨rfl, rfl⟩ | exact ⟨rfl, rfl, rfl, rfl, rfl⟩
      | split

theorem Only.execCprCfwInv (a0 : ℕ) (a1 : Reader) (a2 : Fin 4) (a3 : Word) (hm : m &&& 81923 = 81923)
    (h : Only m x₀ s) :
    ∀ u, (execCprCfwInv a0 a1 a2 a3 s) = .next u → Only m x₀ u := by
  intro u e
  obtain rfl := Host.Outcome.next.inj e
  repeat' first
      | with_reducible assumption | exact fun _ => ⟨rfl, rfl⟩ | exact fun _ => rfl
      | exact fun _ => ⟨rfl, rfl, rfl, rfl, rfl⟩ | intro _ | with_reducible apply Only.ownWt
      | with_reducible apply Only.cfwInv | with_reducible apply Only.tick | exact Part.sub hm rfl

theorem Only.cprAlive (a0 : ℕ) (hm : m &&& 16384 = 16384) (h : Only m x₀ s) :
    Only m x₀ (State.cprAlive a0 s).1 := by
  dsimp only [State.cprAlive]
  repeat' first
      | with_reducible assumption | exact fun _ => ⟨rfl, rfl⟩ | exact fun _ => rfl
      | exact fun _ => ⟨rfl, rfl, rfl, rfl, rfl⟩ | intro _ | with_reducible apply Only.onPair

theorem Only.execCprAliveWrite (a0 : ℕ) (a1 : Reader) (a2 : Fin 4) (a3 : Word) (hm : m &&& 81923 = 81923)
    (h : Only m x₀ s) :
    ∀ u, (execCprAliveWrite a0 a1 a2 a3 s) = .next u → Only m x₀ u := by
  intro u e
  obtain rfl := Host.Outcome.next.inj e
  repeat' first
      | with_reducible assumption | exact fun _ => ⟨rfl, rfl⟩ | exact fun _ => rfl
      | exact fun _ => ⟨rfl, rfl, rfl, rfl, rfl⟩ | intro _ | with_reducible apply Only.ownPair
      | with_reducible apply Only.cprAlive | with_reducible apply Only.tick | exact Part.sub hm rfl

theorem Only.judgeAlive (a0 : ℕ) (hm : m &&& 81920 = 81920) (h : Only m x₀ s) :
    Only m x₀ (State.judgeAlive a0 s) := by
  dsimp only [State.judgeAlive]
  repeat' first
      | with_reducible assumption | exact fun _ => ⟨rfl, rfl⟩ | exact fun _ => rfl
      | exact fun _ => ⟨rfl, rfl, rfl, rfl, rfl⟩ | intro _ | with_reducible apply Only.ite
      | with_reducible apply Only.fst_ite | with_reducible apply Only.snd_ite | with_reducible apply Only.raise
      | with_reducible apply Only.onPair | exact Part.sub hm rfl

theorem Only.execAliveExpired (a0 : ℕ) (a1 : Fin 4) (hm : m &&& 81921 = 81921) (h : Only m x₀ s) :
    ∀ u, (execAliveExpired a0 a1 s) = .next u → Only m x₀ u := by
  intro u e
  obtain rfl := Host.Outcome.next.inj e
  repeat' first
      | with_reducible assumption | exact fun _ => ⟨rfl, rfl⟩ | exact fun _ => rfl
      | exact fun _ => ⟨rfl, rfl, rfl, rfl, rfl⟩ | intro _ | with_reducible apply Only.ite
      | with_reducible apply Only.fst_ite | with_reducible apply Only.snd_ite | with_reducible apply Only.tick
      | with_reducible apply Only.judgeAlive | exact Part.sub hm rfl

theorem Only.dropWords (a0 : ℕ) (hm : m &&& 16384 = 16384) (h : Only m x₀ s) :
    Only m x₀ (State.dropWords a0 s) := by
  dsimp only [State.dropWords]
  repeat' first
      | with_reducible assumption | exact fun _ => ⟨rfl, rfl⟩ | exact fun _ => rfl
      | exact fun _ => ⟨rfl, rfl, rfl, rfl, rfl⟩ | intro _ | with_reducible apply Only.ite
      | with_reducible apply Only.fst_ite | with_reducible apply Only.snd_ite | with_reducible apply Only.onPair

theorem Only.rdsel (a0 : ℕ) (a1 : ℕ) (a2 : Word) (hm : m &&& 16384 = 16384) (h : Only m x₀ s) :
    Only m x₀ (State.rdsel a0 a1 a2 s).1 := by
  dsimp only [State.rdsel]
  repeat' first
      | with_reducible assumption | exact fun _ => ⟨rfl, rfl⟩ | exact fun _ => rfl
      | exact fun _ => ⟨rfl, rfl, rfl, rfl, rfl⟩ | intro _ | with_reducible apply Only.ite
      | with_reducible apply Only.fst_ite | with_reducible apply Only.snd_ite | with_reducible apply Only.onPair

theorem Only.execCprRdselWrite (a0 : ℕ) (a1 : Reader) (a2 : Fin 4) (a3 : Fin 64) (a4 : Word)
    (hm : m &&& 81923 = 81923) (h : Only m x₀ s) :
    ∀ u, (execCprRdselWrite a0 a1 a2 a3 a4 s) = .next u → Only m x₀ u := by
  intro u e
  obtain rfl := Host.Outcome.next.inj e
  repeat' first
      | with_reducible assumption | exact fun _ => ⟨rfl, rfl⟩ | exact fun _ => rfl
      | exact fun _ => ⟨rfl, rfl, rfl, rfl, rfl⟩ | intro _ | with_reducible apply Only.ownPair
      | with_reducible apply Only.rdsel | with_reducible apply Only.tick | exact Part.sub hm rfl

theorem Only.rdselPublish (hm : m &&& 16384 = 16384) (h : Only m x₀ s) :
    Only m x₀ (State.rdselPublish s) := by
  dsimp only [State.rdselPublish]
  repeat' first
      | with_reducible assumption | exact fun _ => ⟨rfl, rfl⟩ | exact fun _ => rfl
      | exact fun _ => ⟨rfl, rfl, rfl, rfl, rfl⟩ | intro _ | with_reducible apply Only.onAgr

theorem Only.cprCtrClear (a0 : ℕ) (a1 : Word) (hm : m &&& 16384 = 16384) (h : Only m x₀ s) :
    Only m x₀ (State.cprCtrClear a0 a1 s).1 := by
  dsimp only [State.cprCtrClear]
  repeat' first
      | with_reducible assumption | exact fun _ => ⟨rfl, rfl⟩ | exact fun _ => rfl
      | exact fun _ => ⟨rfl, rfl, rfl, rfl, rfl⟩ | intro _ | with_reducible apply Only.ite
      | with_reducible apply Only.fst_ite | with_reducible apply Only.snd_ite | with_reducible apply Only.onPair

theorem Only.execCprCtrClear (a0 : ℕ) (a1 : Reader) (a2 : Fin 4) (a3 : Word) (hm : m &&& 81923 = 81923)
    (h : Only m x₀ s) :
    ∀ u, (execCprCtrClear a0 a1 a2 a3 s) = .next u → Only m x₀ u := by
  intro u e
  obtain rfl := Host.Outcome.next.inj e
  repeat' first
      | with_reducible assumption | exact fun _ => ⟨rfl, rfl⟩ | exact fun _ => rfl
      | exact fun _ => ⟨rfl, rfl, rfl, rfl, rfl⟩ | intro _ | with_reducible apply Only.wt
      | with_reducible apply Only.cprCtrClear | with_reducible apply Only.tick | exact Part.sub hm rfl

theorem Only.agrCtrClear (a0 : Word) (hm : m &&& 16384 = 16384) (h : Only m x₀ s) :
    Only m x₀ (State.agrCtrClear a0 s).1 := by
  dsimp only [State.agrCtrClear]
  repeat' first
      | with_reducible assumption | exact fun _ => ⟨rfl, rfl⟩ | exact fun _ => rfl
      | exact fun _ => ⟨rfl, rfl, rfl, rfl, rfl⟩ | intro _ | with_reducible apply Only.ite
      | with_reducible apply Only.fst_ite | with_reducible apply Only.snd_ite | with_reducible apply Only.onAgr

theorem Only.execAgrCtrClear (a0 : ℕ) (a1 : Reader) (a2 : Word) (hm : m &&& 81923 = 81923) (h : Only m x₀ s) :
    ∀ u, (execAgrCtrClear a0 a1 a2 s) = .next u → Only m x₀ u := by
  intro u e
  obtain rfl := Host.Outcome.next.inj e
  repeat' first
      | with_reducible assumption | exact fun _ => ⟨rfl, rfl⟩ | exact fun _ => rfl
      | exact fun _ => ⟨rfl, rfl, rfl, rfl, rfl⟩ | intro _ | with_reducible apply Only.wt
      | with_reducible apply Only.agrCtrClear | with_reducible apply Only.tick | exact Part.sub hm rfl

theorem Only.agrInject (a0 : Word) (hm : m &&& 16384 = 16384) (h : Only m x₀ s) :
    Only m x₀ (State.agrInject a0 s).1 := by
  dsimp only [State.agrInject]
  repeat' first
      | with_reducible assumption | exact fun _ => ⟨rfl, rfl⟩ | exact fun _ => rfl
      | exact fun _ => ⟨rfl, rfl, rfl, rfl, rfl⟩ | intro _ | with_reducible apply Only.ite
      | with_reducible apply Only.fst_ite | with_reducible apply Only.snd_ite | with_reducible apply Only.onAgr

theorem Only.execAgrInject (a0 : ℕ) (a1 : Reader) (a2 : Word) (hm : m &&& 37961731 = 37961731) (h : Only m x₀ s) :
    ∀ u, (execAgrInject a0 a1 a2 s) = .next u → Only m x₀ u := by
  intro u e
  obtain rfl := Host.Outcome.next.inj e
  repeat' first
      | with_reducible assumption | exact fun _ => ⟨rfl, rfl⟩ | exact fun _ => rfl
      | exact fun _ => ⟨rfl, rfl, rfl, rfl, rfl⟩ | intro _ | with_reducible apply Only.expert
      | with_reducible apply Only.agrInject | with_reducible apply Only.tick | exact Part.sub hm rfl

theorem Only.cprTx (a0 : ℕ) (a1 : Word) (hm : m &&& 83968 = 83968) (h : Only m x₀ s) :
    Only m x₀ (State.cprTx a0 a1 s).1 := by
  dsimp only [State.cprTx]
  repeat' first
      | with_reducible assumption | exact fun _ => ⟨rfl, rfl⟩ | exact fun _ => rfl
      | exact fun _ => ⟨rfl, rfl, rfl, rfl, rfl⟩ | intro _ | with_reducible apply Only.ite
      | with_reducible apply Only.fst_ite | with_reducible apply Only.snd_ite | with_reducible apply Only.handPort6
      | with_reducible apply Only.onPair | with_reducible apply Only.failPair | exact Part.sub hm rfl

theorem Only.execCprTx (a0 : ℕ) (a1 : Reader) (a2 : Fin 4) (a3 : Word) (hm : m &&& 83971 = 83971) (h : Only m x₀ s) :
    ∀ u, (execCprTx a0 a1 a2 a3 s) = .next u → Only m x₀ u := by
  intro u e
  obtain rfl := Host.Outcome.next.inj e
  repeat' first
      | with_reducible assumption | exact fun _ => ⟨rfl, rfl⟩ | exact fun _ => rfl
      | exact fun _ => ⟨rfl, rfl, rfl, rfl, rfl⟩ | intro _ | with_reducible apply Only.ownPair
      | with_reducible apply Only.cprTx | with_reducible apply Only.tick | exact Part.sub hm rfl

theorem Only.pairFrame (a0 : ℕ) (a1 : List Byte) (hm : m &&& 16384 = 16384) (h : Only m x₀ s) :
    Only m x₀ (State.pairFrame a0 a1 s) := by
  dsimp only [State.pairFrame]
  repeat' first
      | with_reducible assumption | exact fun _ => ⟨rfl, rfl⟩ | exact fun _ => rfl
      | exact fun _ => ⟨rfl, rfl, rfl, rfl, rfl⟩ | intro _ | with_reducible apply Only.ite
      | with_reducible apply Only.fst_ite | with_reducible apply Only.snd_ite | with_reducible apply Only.onPair

theorem Only.execPairFrameReceived (a0 : ℕ) (a1 : Fin 4) (a2 : List Byte) (hm : m &&& 16385 = 16385)
    (h : Only m x₀ s) :
    ∀ u, (execPairFrameReceived a0 a1 a2 s) = .next u → Only m x₀ u := by
  intro u e
  obtain rfl := Host.Outcome.next.inj e
  repeat' first
      | with_reducible assumption | exact fun _ => ⟨rfl, rfl⟩ | exact fun _ => rfl
      | exact fun _ => ⟨rfl, rfl, rfl, rfl, rfl⟩ | intro _ | with_reducible apply Only.pairFrame
      | with_reducible apply Only.tick | exact Part.sub hm rfl

theorem Only.timerLine (a0 : ℕ) (hm : m &&& 16384 = 16384) (h : Only m x₀ s) :
    Only m x₀ (State.timerLine a0 s) := by
  dsimp only [State.timerLine]
  repeat' first
      | with_reducible assumption | exact fun _ => ⟨rfl, rfl⟩ | exact fun _ => rfl
      | exact fun _ => ⟨rfl, rfl, rfl, rfl, rfl⟩ | intro _ | with_reducible apply Only.ite
      | with_reducible apply Only.fst_ite | with_reducible apply Only.snd_ite | with_reducible apply Only.onPair

theorem Only.execMtimecmpReached (a0 : ℕ) (a1 : Fin 4) (hm : m &&& 16385 = 16385) (h : Only m x₀ s) :
    ∀ u, (execMtimecmpReached a0 a1 s) = .next u → Only m x₀ u := by
  intro u e
  obtain rfl := Host.Outcome.next.inj e
  repeat' first
      | with_reducible assumption | exact fun _ => ⟨rfl, rfl⟩ | exact fun _ => rfl
      | exact fun _ => ⟨rfl, rfl, rfl, rfl, rfl⟩ | intro _ | with_reducible apply Only.timerLine
      | with_reducible apply Only.tick | exact Part.sub hm rfl

theorem Only.pairEvent (a0 : ℕ) (a1 : ℕ) (hm : m &&& 16384 = 16384) (h : Only m x₀ s) :
    Only m x₀ (State.pairEvent a0 a1 s) := by
  dsimp only [State.pairEvent]
  repeat' first
      | with_reducible assumption | exact fun _ => ⟨rfl, rfl⟩ | exact fun _ => rfl
      | exact fun _ => ⟨rfl, rfl, rfl, rfl, rfl⟩ | intro _ | with_reducible apply Only.onPair

theorem Only.deliverNmi (hm : m &&& 16384 = 16384) (h : Only m x₀ s) :
    Only m x₀ (State.deliverNmi s) := by
  dsimp only [State.deliverNmi]
  repeat' first
      | with_reducible assumption | exact fun _ => ⟨rfl, rfl⟩ | exact fun _ => rfl
      | exact fun _ => ⟨rfl, rfl, rfl, rfl, rfl⟩ | intro _ | with_reducible apply Only.ite
      | with_reducible apply Only.fst_ite | with_reducible apply Only.snd_ite | with_reducible apply Only.forN
      | with_reducible apply Only.onPair

theorem Only.splitPair (a0 : ℕ) (a1 : Ch) (hm : m &&& 37961728 = 37961728) (h : Only m x₀ s) :
    Only m x₀ (State.splitPair a0 a1 s) := by
  dsimp only [State.splitPair]
  repeat' first
      | with_reducible assumption | exact fun _ => ⟨rfl, rfl⟩ | exact fun _ => rfl
      | exact fun _ => ⟨rfl, rfl, rfl, rfl, rfl⟩ | intro _ | with_reducible apply Only.ite
      | with_reducible apply Only.fst_ite | with_reducible apply Only.snd_ite | with_reducible apply Only.onAgr
      | with_reducible apply Only.onPair | with_reducible apply Only.record | with_reducible apply Only.raise
      | exact Part.sub hm rfl

theorem Only.debugHalt (a0 : ℕ) (a1 : Ch) (hm : m &&& 37961728 = 37961728) (h : Only m x₀ s) :
    Only m x₀ (State.debugHalt a0 a1 s) := by
  dsimp only [State.debugHalt]
  repeat' first
      | with_reducible assumption | exact fun _ => ⟨rfl, rfl⟩ | exact fun _ => rfl
      | exact fun _ => ⟨rfl, rfl, rfl, rfl, rfl⟩ | intro _ | with_reducible apply Only.ite
      | with_reducible apply Only.fst_ite | with_reducible apply Only.snd_ite | with_reducible apply Only.onPair
      | with_reducible apply Only.splitPair | exact Part.sub hm rfl

theorem Only.execDebugHalt (a0 : ℕ) (a1 : Fin 4) (a2 : Ch) (hm : m &&& 37961729 = 37961729) (h : Only m x₀ s) :
    ∀ u, (execDebugHalt a0 a1 a2 s) = .next u → Only m x₀ u := by
  intro u e
  obtain rfl := Host.Outcome.next.inj e
  repeat' first
      | with_reducible assumption | exact fun _ => ⟨rfl, rfl⟩ | exact fun _ => rfl
      | exact fun _ => ⟨rfl, rfl, rfl, rfl, rfl⟩ | intro _ | with_reducible apply Only.debugHalt
      | with_reducible apply Only.tick | exact Part.sub hm rfl

theorem Only.debugStep (a0 : ℕ) (a1 : Ch) (hm : m &&& 37961728 = 37961728) (h : Only m x₀ s) :
    Only m x₀ (State.debugStep a0 a1 s) := by
  dsimp only [State.debugStep]
  repeat' first
      | with_reducible assumption | exact fun _ => ⟨rfl, rfl⟩ | exact fun _ => rfl
      | exact fun _ => ⟨rfl, rfl, rfl, rfl, rfl⟩ | intro _ | with_reducible apply Only.ite
      | with_reducible apply Only.fst_ite | with_reducible apply Only.snd_ite | with_reducible apply Only.onPair
      | with_reducible apply Only.splitPair | exact Part.sub hm rfl

theorem Only.execDebugStep (a0 : ℕ) (a1 : Fin 4) (a2 : Ch) (hm : m &&& 37961729 = 37961729) (h : Only m x₀ s) :
    ∀ u, (execDebugStep a0 a1 a2 s) = .next u → Only m x₀ u := by
  intro u e
  obtain rfl := Host.Outcome.next.inj e
  repeat' first
      | with_reducible assumption | exact fun _ => ⟨rfl, rfl⟩ | exact fun _ => rfl
      | exact fun _ => ⟨rfl, rfl, rfl, rfl, rfl⟩ | intro _ | with_reducible apply Only.debugStep
      | with_reducible apply Only.tick | exact Part.sub hm rfl

theorem Only.debugResume (a0 : ℕ) (a1 : Ch) (hm : m &&& 16384 = 16384) (h : Only m x₀ s) :
    Only m x₀ (State.debugResume a0 a1 s) := by
  dsimp only [State.debugResume]
  repeat' first
      | with_reducible assumption | exact fun _ => ⟨rfl, rfl⟩ | exact fun _ => rfl
      | exact fun _ => ⟨rfl, rfl, rfl, rfl, rfl⟩ | intro _ | with_reducible apply Only.ite
      | with_reducible apply Only.fst_ite | with_reducible apply Only.snd_ite | with_reducible apply Only.onPair

theorem Only.execDebugResume (a0 : ℕ) (a1 : Fin 4) (a2 : Ch) (hm : m &&& 16385 = 16385) (h : Only m x₀ s) :
    ∀ u, (execDebugResume a0 a1 a2 s) = .next u → Only m x₀ u := by
  intro u e
  obtain rfl := Host.Outcome.next.inj e
  repeat' first
      | with_reducible assumption | exact fun _ => ⟨rfl, rfl⟩ | exact fun _ => rfl
      | exact fun _ => ⟨rfl, rfl, rfl, rfl, rfl⟩ | intro _ | with_reducible apply Only.debugResume
      | with_reducible apply Only.tick | exact Part.sub hm rfl

theorem Only.debugRegister (a0 : ℕ) (a1 : Ch) (a2 : ℕ) (a3 : Option (BitVec 64)) (hm : m &&& 16384 = 16384)
    (h : Only m x₀ s) :
    Only m x₀ (State.debugRegister a0 a1 a2 a3 s) := by
  dsimp only [State.debugRegister]
  repeat' first
      | with_reducible assumption | exact fun _ => ⟨rfl, rfl⟩ | exact fun _ => rfl
      | exact fun _ => ⟨rfl, rfl, rfl, rfl, rfl⟩ | intro _ | with_reducible apply Only.ite
      | with_reducible apply Only.fst_ite | with_reducible apply Only.snd_ite | with_reducible apply Only.onPair

theorem Only.execDebugRegisterAccess (a0 : ℕ) (a1 : Fin 4) (a2 : Ch) (a3 : ℕ) (a4 : Option (BitVec 64))
    (hm : m &&& 16385 = 16385) (h : Only m x₀ s) :
    ∀ u, (execDebugRegisterAccess a0 a1 a2 a3 a4 s) = .next u → Only m x₀ u := by
  intro u e
  obtain rfl := Host.Outcome.next.inj e
  repeat' first
      | with_reducible assumption | exact fun _ => ⟨rfl, rfl⟩ | exact fun _ => rfl
      | exact fun _ => ⟨rfl, rfl, rfl, rfl, rfl⟩ | intro _ | with_reducible apply Only.debugRegister
      | with_reducible apply Only.tick | exact Part.sub hm rfl

theorem Only.memDiffers (a0 : ℕ) (a1 : ℕ) (hm : m &&& 81920 = 81920) (h : Only m x₀ s) :
    Only m x₀ (State.memDiffers a0 a1 s) := by
  dsimp only [State.memDiffers]
  repeat' first
      | with_reducible assumption | exact fun _ => ⟨rfl, rfl⟩ | exact fun _ => rfl
      | exact fun _ => ⟨rfl, rfl, rfl, rfl, rfl⟩ | intro _ | with_reducible apply Only.ite
      | with_reducible apply Only.fst_ite | with_reducible apply Only.snd_ite | with_reducible apply Only.onAgr
      | with_reducible apply Only.raise | with_reducible apply Only.onPair | with_reducible apply Only.blockPair
      | exact Part.sub hm rfl

theorem Only.compareBlock (a0 : ℕ) (hm : m &&& 81920 = 81920) (h : Only m x₀ s) :
    Only m x₀ (State.compareBlock a0 s) := by
  dsimp only [State.compareBlock]
  repeat' first
      | with_reducible assumption | exact fun _ => ⟨rfl, rfl⟩ | exact fun _ => rfl
      | exact fun _ => ⟨rfl, rfl, rfl, rfl, rfl⟩ | intro _ | with_reducible apply Only.ite
      | with_reducible apply Only.fst_ite | with_reducible apply Only.snd_ite | with_reducible apply Only.forL
      | with_reducible apply Only.forL_fst | with_reducible apply Only.memDiffers | exact Part.sub hm rfl | rfl
      | exact ⟨rfl, rfl⟩ | exact ⟨rfl, rfl, rfl, rfl, rfl⟩ | split

theorem Only.memUncorrectable (a0 : ℕ) (a1 : Bool) (a2 : Bool) (hm : m &&& 81920 = 81920) (h : Only m x₀ s) :
    Only m x₀ (State.memUncorrectable a0 a1 a2 s) := by
  dsimp only [State.memUncorrectable]
  repeat' first
      | with_reducible assumption | exact fun _ => ⟨rfl, rfl⟩ | exact fun _ => rfl
      | exact fun _ => ⟨rfl, rfl, rfl, rfl, rfl⟩ | intro _ | with_reducible apply Only.ite
      | with_reducible apply Only.fst_ite | with_reducible apply Only.snd_ite | with_reducible apply Only.raise
      | with_reducible apply Only.onPair | exact Part.sub hm rfl | rfl | exact ⟨rfl, rfl⟩
      | exact ⟨rfl, rfl, rfl, rfl, rfl⟩ | split

end Sys2Proof.Machine
end

