-- ==== Sys2Proof/Laws/OnlyOutputs.lean ====
section
/-! SUPPORT. What Outputs.lean keeps (Laws/Only.lean). -/

namespace Sys2Proof.Machine

variable {m : Nat} {x₀ s : State}

theorem Only.darkAborts (hm : m &&& 64 = 64) (h : Only m x₀ s) :
    Only m x₀ (State.darkAborts s) := by
  dsimp only [State.darkAborts]
  repeat' first
      | with_reducible assumption | exact fun _ => ⟨rfl, rfl⟩ | exact fun _ => rfl
      | exact fun _ => ⟨rfl, rfl, rfl, rfl, rfl⟩ | intro _ | with_reducible apply Only.ite
      | with_reducible apply Only.fst_ite | with_reducible apply Only.snd_ite | with_reducible apply Only.onSog_keep

end Sys2Proof.Machine
end

