-- ==== Sys2Proof/Laws/OnlyDriveRecord.lean ====
section
/-! SUPPORT. What DriveRecord.lean keeps (Laws/Only.lean). -/

namespace Sys2Proof.Machine

variable {m : Nat} {x₀ s : State}

theorem Only.onAxis (a0 : ℕ) (a1 : Axis → Axis) (hm : m &&& 512 = 512) (h : Only m x₀ s) :
    Only m x₀ (State.onAxis a0 a1 s) := by
  dsimp only [State.onAxis]
  repeat' first
      | with_reducible assumption | exact fun _ => ⟨rfl, rfl⟩ | exact fun _ => rfl
      | exact fun _ => ⟨rfl, rfl, rfl, rfl, rfl⟩ | intro _ | with_reducible apply Only.onAxs

theorem Only.axFail (a0 : ℕ) (a1 : ℕ) (a2 : ℕ) (hm : m &&& 66048 = 66048) (h : Only m x₀ s) :
    Only m x₀ (State.axFail a0 a1 a2 s) := by
  dsimp only [State.axFail]
  repeat' first
      | with_reducible assumption | exact fun _ => ⟨rfl, rfl⟩ | exact fun _ => rfl
      | exact fun _ => ⟨rfl, rfl, rfl, rfl, rfl⟩ | intro _ | with_reducible apply Only.ite
      | with_reducible apply Only.fst_ite | with_reducible apply Only.snd_ite | with_reducible apply Only.raise
      | with_reducible apply Only.onAxis | exact Part.sub hm rfl

theorem Only.takeRecord (a0 : ℕ) (a1 : ℕ) (a2 : DriveRec) (hm : m &&& 66048 = 66048) (h : Only m x₀ s) :
    Only m x₀ (State.takeRecord a0 a1 a2 s) := by
  dsimp only [State.takeRecord]
  repeat' first
      | with_reducible assumption | exact fun _ => ⟨rfl, rfl⟩ | exact fun _ => rfl
      | exact fun _ => ⟨rfl, rfl, rfl, rfl, rfl⟩ | intro _ | with_reducible apply Only.ite
      | with_reducible apply Only.fst_ite | with_reducible apply Only.snd_ite | with_reducible apply Only.onAxis
      | with_reducible apply Only.axFail | exact Part.sub hm rfl

theorem Only.takeDrives (a0 : ℕ) (a1 : ℕ) (a2 : List Byte) (hm : m &&& 66048 = 66048) (h : Only m x₀ s) :
    Only m x₀ (State.takeDrives a0 a1 a2 s) := by
  dsimp only [State.takeDrives]
  repeat' first
      | with_reducible assumption | exact fun _ => ⟨rfl, rfl⟩ | exact fun _ => rfl
      | exact fun _ => ⟨rfl, rfl, rfl, rfl, rfl⟩ | intro _ | with_reducible apply Only.forL
      | with_reducible apply Only.forL_fst | with_reducible apply Only.takeRecord | exact Part.sub hm rfl | rfl
      | exact ⟨rfl, rfl⟩ | exact ⟨rfl, rfl, rfl, rfl, rfl⟩ | split

end Sys2Proof.Machine
end

