-- ==== Sys2Proof/Laws/OnlySafeFrames.lean ====
section
/-! SUPPORT. What SafeFrames.lean keeps (Laws/Only.lean). -/

namespace Sys2Proof.Machine

variable {m : Nat} {x₀ s : State}

theorem Only.onCons (a0 : ℕ) (a1 : Cons → Cons) (hm : m &&& 8192 = 8192) (h : Only m x₀ s) :
    Only m x₀ (State.onCons a0 a1 s) := by
  dsimp only [State.onCons]
  repeat' first
      | with_reducible assumption | exact fun _ => ⟨rfl, rfl⟩ | exact fun _ => rfl
      | exact fun _ => ⟨rfl, rfl, rfl, rfl, rfl⟩ | intro _ | with_reducible apply Only.onSfr

theorem Only.onProd (a0 : ℕ) (a1 : Prod → Prod) (hm : m &&& 8192 = 8192) (h : Only m x₀ s) :
    Only m x₀ (State.onProd a0 a1 s) := by
  dsimp only [State.onProd]
  repeat' first
      | with_reducible assumption | exact fun _ => ⟨rfl, rfl⟩ | exact fun _ => rfl
      | exact fun _ => ⟨rfl, rfl, rfl, rfl, rfl⟩ | intro _ | with_reducible apply Only.onSfr

theorem Only.enterSetup (a0 : ℕ) (hm : m &&& 8192 = 8192) (h : Only m x₀ s) :
    Only m x₀ (State.enterSetup a0 s) := by
  dsimp only [State.enterSetup]
  repeat' first
      | with_reducible assumption | exact fun _ => ⟨rfl, rfl⟩ | exact fun _ => rfl
      | exact fun _ => ⟨rfl, rfl, rfl, rfl, rfl⟩ | intro _ | with_reducible apply Only.onCons

theorem Only.raiseBadFields (a0 : ℕ) (a1 : ConsCfg) (a2 : List Byte) (hm : m &&& 65536 = 65536) (h : Only m x₀ s) :
    Only m x₀ (State.raiseBadFields a0 a1 a2 s) := by
  dsimp only [State.raiseBadFields]
  repeat' first
      | with_reducible assumption | exact fun _ => ⟨rfl, rfl⟩ | exact fun _ => rfl
      | exact fun _ => ⟨rfl, rfl, rfl, rfl, rfl⟩ | intro _ | with_reducible apply Only.ite
      | with_reducible apply Only.fst_ite | with_reducible apply Only.snd_ite | with_reducible apply Only.forL
      | with_reducible apply Only.forL_fst | with_reducible apply Only.raise

theorem Only.actOn (a0 : ℕ) (a1 : ConsCfg) (a2 : FrameHead) (a3 : List Byte) (a4 : Decision)
    (hm : m &&& 74240 = 74240) (h : Only m x₀ s) :
    Only m x₀ (State.actOn a0 a1 a2 a3 a4 s) := by
  dsimp only [State.actOn]
  repeat' first
      | with_reducible assumption | exact fun _ => ⟨rfl, rfl⟩ | exact fun _ => rfl
      | exact fun _ => ⟨rfl, rfl, rfl, rfl, rfl⟩ | intro _ | with_reducible apply Only.onCons
      | with_reducible apply Only.onSfr | with_reducible apply Only.raise | with_reducible apply Only.enterSetup
      | with_reducible apply Only.takeDrives | with_reducible apply Only.raiseBadFields
      | with_reducible apply Only.cond | exact Part.sub hm rfl | rfl | exact ⟨rfl, rfl⟩
      | exact ⟨rfl, rfl, rfl, rfl, rfl⟩ | split

theorem Only.receiveData (a0 : List Byte) (a1 : List Byte) (hm : m &&& 74240 = 74240) (h : Only m x₀ s) :
    Only m x₀ (State.receiveData a0 a1 s) := by
  dsimp only [State.receiveData]
  repeat' first
      | with_reducible assumption | exact fun _ => ⟨rfl, rfl⟩ | exact fun _ => rfl
      | exact fun _ => ⟨rfl, rfl, rfl, rfl, rfl⟩ | intro _ | with_reducible apply Only.ite
      | with_reducible apply Only.fst_ite | with_reducible apply Only.snd_ite | with_reducible apply Only.raise
      | with_reducible apply Only.actOn | exact Part.sub hm rfl | rfl | exact ⟨rfl, rfl⟩
      | exact ⟨rfl, rfl, rfl, rfl, rfl⟩ | split

theorem Only.execSafeFrameReceived (a0 : ℕ) (a1 : List Byte) (a2 : List Byte) (hm : m &&& 74241 = 74241)
    (h : Only m x₀ s) :
    ∀ u, (execSafeFrameReceived a0 a1 a2 s) = .next u → Only m x₀ u := by
  intro u e
  obtain rfl := Host.Outcome.next.inj e
  repeat' first
      | with_reducible assumption | exact fun _ => ⟨rfl, rfl⟩ | exact fun _ => rfl
      | exact fun _ => ⟨rfl, rfl, rfl, rfl, rfl⟩ | intro _ | with_reducible apply Only.receiveData
      | with_reducible apply Only.tick | exact Part.sub hm rfl

theorem Only.setupTimeout (a0 : ℕ) (hm : m &&& 73728 = 73728) (h : Only m x₀ s) :
    Only m x₀ (State.setupTimeout a0 s) := by
  dsimp only [State.setupTimeout]
  repeat' first
      | with_reducible assumption | exact fun _ => ⟨rfl, rfl⟩ | exact fun _ => rfl
      | exact fun _ => ⟨rfl, rfl, rfl, rfl, rfl⟩ | intro _ | with_reducible apply Only.ite
      | with_reducible apply Only.fst_ite | with_reducible apply Only.snd_ite | with_reducible apply Only.cond
      | with_reducible apply Only.onCons | exact Part.sub hm rfl | rfl | exact ⟨rfl, rfl⟩
      | exact ⟨rfl, rfl, rfl, rfl, rfl⟩ | split

theorem Only.execSetupTimeout (a0 : ℕ) (a1 : Fin 128) (hm : m &&& 73729 = 73729) (h : Only m x₀ s) :
    ∀ u, (execSetupTimeout a0 a1 s) = .next u → Only m x₀ u := by
  intro u e
  obtain rfl := Host.Outcome.next.inj e
  repeat' first
      | with_reducible assumption | exact fun _ => ⟨rfl, rfl⟩ | exact fun _ => rfl
      | exact fun _ => ⟨rfl, rfl, rfl, rfl, rfl⟩ | intro _ | with_reducible apply Only.setupTimeout
      | with_reducible apply Only.tick | exact Part.sub hm rfl

theorem Only.judgeSessions (hm : m &&& 73728 = 73728) (h : Only m x₀ s) :
    Only m x₀ (State.judgeSessions s) := by
  dsimp only [State.judgeSessions]
  repeat' first
      | with_reducible assumption | exact fun _ => ⟨rfl, rfl⟩ | exact fun _ => rfl
      | exact fun _ => ⟨rfl, rfl, rfl, rfl, rfl⟩ | intro _ | with_reducible apply Only.forL
      | with_reducible apply Only.forL_fst | with_reducible apply Only.onCons | with_reducible apply Only.cond
      | exact Part.sub hm rfl

theorem Only.sendFrame (a0 : ℕ) (a1 : ProdCfg) (hm : m &&& 75776 = 75776) (h : Only m x₀ s) :
    Only m x₀ (State.sendFrame a0 a1 s) := by
  dsimp only [State.sendFrame]
  repeat' first
      | with_reducible assumption | exact fun _ => ⟨rfl, rfl⟩ | exact fun _ => rfl
      | exact fun _ => ⟨rfl, rfl, rfl, rfl, rfl⟩ | intro _ | with_reducible apply Only.ite
      | with_reducible apply Only.fst_ite | with_reducible apply Only.snd_ite | with_reducible apply Only.raise
      | with_reducible apply Only.handPort6 | with_reducible apply Only.onProd | exact Part.sub hm rfl

theorem Only.sendDue (a0 : ℕ) (hm : m &&& 75776 = 75776) (h : Only m x₀ s) :
    Only m x₀ (State.sendDue a0 s) := by
  dsimp only [State.sendDue]
  repeat' first
      | with_reducible assumption | exact fun _ => ⟨rfl, rfl⟩ | exact fun _ => rfl
      | exact fun _ => ⟨rfl, rfl, rfl, rfl, rfl⟩ | intro _ | with_reducible apply Only.ite
      | with_reducible apply Only.fst_ite | with_reducible apply Only.snd_ite | with_reducible apply Only.forL
      | with_reducible apply Only.forL_fst | with_reducible apply Only.sendFrame

theorem Only.interjectField (a0 : Ch) (a1 : ℕ) (hm : m &&& 8192 = 8192) (h : Only m x₀ s) :
    Only m x₀ (State.interjectField a0 a1 s) := by
  dsimp only [State.interjectField]
  repeat' first
      | with_reducible assumption | exact fun _ => ⟨rfl, rfl⟩ | exact fun _ => rfl
      | exact fun _ => ⟨rfl, rfl, rfl, rfl, rfl⟩ | intro _ | with_reducible apply Only.onProd | exact Part.sub hm rfl
      | rfl | exact ⟨rfl, rfl⟩ | exact ⟨rfl, rfl, rfl, rfl, rfl⟩ | split

theorem Only.extraFrame (a0 : ℕ) (hm : m &&& 75776 = 75776) (h : Only m x₀ s) :
    Only m x₀ (State.extraFrame a0 s) := by
  dsimp only [State.extraFrame]
  repeat' first
      | with_reducible assumption | exact fun _ => ⟨rfl, rfl⟩ | exact fun _ => rfl
      | exact fun _ => ⟨rfl, rfl, rfl, rfl, rfl⟩ | intro _ | with_reducible apply Only.ite
      | with_reducible apply Only.fst_ite | with_reducible apply Only.snd_ite | with_reducible apply Only.sendFrame
      | with_reducible apply Only.onProd | exact Part.sub hm rfl | rfl | exact ⟨rfl, rfl⟩
      | exact ⟨rfl, rfl, rfl, rfl, rfl⟩ | split

theorem Only.startProd (a0 : ℕ) (hm : m &&& 536879104 = 536879104) (h : Only m x₀ s) :
    Only m x₀ (State.startProd a0 s) := by
  dsimp only [State.startProd]
  repeat' first
      | with_reducible assumption | exact fun _ => ⟨rfl, rfl⟩ | exact fun _ => rfl
      | exact fun _ => ⟨rfl, rfl, rfl, rfl, rfl⟩ | intro _ | with_reducible apply Only.draw
      | with_reducible apply Only.onProd | exact Part.sub hm rfl

theorem Only.startSessions (hm : m &&& 536944640 = 536944640) (h : Only m x₀ s) :
    Only m x₀ (State.startSessions s) := by
  dsimp only [State.startSessions]
  repeat' first
      | with_reducible assumption | exact fun _ => ⟨rfl, rfl⟩ | exact fun _ => rfl
      | exact fun _ => ⟨rfl, rfl, rfl, rfl, rfl⟩ | intro _ | with_reducible apply Only.forL
      | with_reducible apply Only.forL_fst | with_reducible apply Only.onSfr | with_reducible apply Only.onCons
      | with_reducible apply Only.cond | with_reducible apply Only.startProd | exact Part.sub hm rfl

theorem Only.sfrRestart (a0 : Reader) (a1 : Word) (hm : m &&& 574824448 = 574824448) (h : Only m x₀ s) :
    Only m x₀ (State.sfrRestart a0 a1 s).1 := by
  dsimp only [State.sfrRestart]
  repeat' first
      | with_reducible assumption | exact fun _ => ⟨rfl, rfl⟩ | exact fun _ => rfl
      | exact fun _ => ⟨rfl, rfl, rfl, rfl, rfl⟩ | intro _ | with_reducible apply Only.ite
      | with_reducible apply Only.fst_ite | with_reducible apply Only.snd_ite | with_reducible apply Only.startProd
      | with_reducible apply Only.enterSetup | with_reducible apply Only.record | exact Part.sub hm rfl

theorem Only.execSfrRestart (a0 : ℕ) (a1 : Reader) (a2 : Word) (hm : m &&& 574824451 = 574824451) (h : Only m x₀ s) :
    ∀ u, (execSfrRestart a0 a1 a2 s) = .next u → Only m x₀ u := by
  intro u e
  obtain rfl := Host.Outcome.next.inj e
  repeat' first
      | with_reducible assumption | exact fun _ => ⟨rfl, rfl⟩ | exact fun _ => rfl
      | exact fun _ => ⟨rfl, rfl, rfl, rfl, rfl⟩ | intro _ | with_reducible apply Only.wt
      | with_reducible apply Only.sfrRestart | with_reducible apply Only.tick | exact Part.sub hm rfl

theorem Only.sfrCtrClear (a0 : Word) (hm : m &&& 8192 = 8192) (h : Only m x₀ s) :
    Only m x₀ (State.sfrCtrClear a0 s).1 := by
  dsimp only [State.sfrCtrClear]
  repeat' first
      | with_reducible assumption | exact fun _ => ⟨rfl, rfl⟩ | exact fun _ => rfl
      | exact fun _ => ⟨rfl, rfl, rfl, rfl, rfl⟩ | intro _ | with_reducible apply Only.ite
      | with_reducible apply Only.fst_ite | with_reducible apply Only.snd_ite | with_reducible apply Only.onSfr

theorem Only.execSfrCtrClear (a0 : ℕ) (a1 : Reader) (a2 : Word) (hm : m &&& 73731 = 73731) (h : Only m x₀ s) :
    ∀ u, (execSfrCtrClear a0 a1 a2 s) = .next u → Only m x₀ u := by
  intro u e
  obtain rfl := Host.Outcome.next.inj e
  repeat' first
      | with_reducible assumption | exact fun _ => ⟨rfl, rfl⟩ | exact fun _ => rfl
      | exact fun _ => ⟨rfl, rfl, rfl, rfl, rfl⟩ | intro _ | with_reducible apply Only.wt
      | with_reducible apply Only.sfrCtrClear | with_reducible apply Only.tick | exact Part.sub hm rfl

end Sys2Proof.Machine
end

