-- ==== Sys2Proof/Laws/OnlyEncoder.lean ====
section
/-! SUPPORT. What Encoder.lean keeps (Laws/Only.lean). -/

namespace Sys2Proof.Machine

variable {m : Nat} {x₀ s : State}

theorem Only.onEnc (a0 : ℕ) (a1 : Encoder → Encoder) (hm : m &&& 256 = 256) (h : Only m x₀ s) :
    Only m x₀ (State.onEnc a0 a1 s) := by
  dsimp only [State.onEnc]
  repeat' first
      | with_reducible assumption | exact fun _ => ⟨rfl, rfl⟩ | exact fun _ => rfl
      | exact fun _ => ⟨rfl, rfl, rfl, rfl, rfl⟩ | intro _ | with_reducible apply Only.onMea

theorem Only.encFail (a0 : ℕ) (a1 : ℕ) (a2 : Bool) (hm : m &&& 65792 = 65792) (h : Only m x₀ s) :
    Only m x₀ (State.encFail a0 a1 a2 s) := by
  dsimp only [State.encFail]
  repeat' first
      | with_reducible assumption | exact fun _ => ⟨rfl, rfl⟩ | exact fun _ => rfl
      | exact fun _ => ⟨rfl, rfl, rfl, rfl, rfl⟩ | intro _ | with_reducible apply Only.ite
      | with_reducible apply Only.fst_ite | with_reducible apply Only.snd_ite | with_reducible apply Only.raise
      | with_reducible apply Only.onEnc | exact Part.sub hm rfl

theorem Only.encSample (a0 : ℕ) (a1 : BitVec 20) (a2 : BitVec 20) (hm : m &&& 65792 = 65792) (h : Only m x₀ s) :
    Only m x₀ (State.encSample a0 a1 a2 s) := by
  dsimp only [State.encSample]
  repeat' first
      | with_reducible assumption | exact fun _ => ⟨rfl, rfl⟩ | exact fun _ => rfl
      | exact fun _ => ⟨rfl, rfl, rfl, rfl, rfl⟩ | intro _ | with_reducible apply Only.ite
      | with_reducible apply Only.fst_ite | with_reducible apply Only.snd_ite | with_reducible apply Only.onEnc
      | with_reducible apply Only.encFail | exact Part.sub hm rfl

theorem Only.execEncoderSample (a0 : ℕ) (a1 : Fin 16) (a2 : BitVec 20) (a3 : BitVec 20) (hm : m &&& 65793 = 65793)
    (h : Only m x₀ s) :
    ∀ u, (execEncoderSample a0 a1 a2 a3 s) = .next u → Only m x₀ u := by
  intro u e
  obtain rfl := Host.Outcome.next.inj e
  repeat' first
      | with_reducible assumption | exact fun _ => ⟨rfl, rfl⟩ | exact fun _ => rfl
      | exact fun _ => ⟨rfl, rfl, rfl, rfl, rfl⟩ | intro _ | with_reducible apply Only.encSample
      | with_reducible apply Only.tick | exact Part.sub hm rfl

theorem Only.quadrantMove (a0 : ℕ) (a1 : Bool) (a2 : Bool) (hm : m &&& 65792 = 65792) (h : Only m x₀ s) :
    Only m x₀ (State.quadrantMove a0 a1 a2 s) := by
  dsimp only [State.quadrantMove]
  repeat' first
      | with_reducible assumption | exact fun _ => ⟨rfl, rfl⟩ | exact fun _ => rfl
      | exact fun _ => ⟨rfl, rfl, rfl, rfl, rfl⟩ | intro _ | with_reducible apply Only.ite
      | with_reducible apply Only.fst_ite | with_reducible apply Only.snd_ite | with_reducible apply Only.encFail
      | with_reducible apply Only.onEnc | exact Part.sub hm rfl

theorem Only.execQuadrantCounterTransition (a0 : ℕ) (a1 : Fin 16) (a2 : Bool) (a3 : Bool)
    (hm : m &&& 65793 = 65793) (h : Only m x₀ s) :
    ∀ u, (execQuadrantCounterTransition a0 a1 a2 a3 s) = .next u → Only m x₀ u := by
  intro u e
  obtain rfl := Host.Outcome.next.inj e
  repeat' first
      | with_reducible assumption | exact fun _ => ⟨rfl, rfl⟩ | exact fun _ => rfl
      | exact fun _ => ⟨rfl, rfl, rfl, rfl, rfl⟩ | intro _ | with_reducible apply Only.quadrantMove
      | with_reducible apply Only.tick | exact Part.sub hm rfl

theorem Only.clearedEnc (a0 : ℕ) (hm : m &&& 256 = 256) (h : Only m x₀ s) :
    Only m x₀ (State.clearedEnc a0 s) := by
  dsimp only [State.clearedEnc]
  repeat' first
      | with_reducible assumption | exact fun _ => ⟨rfl, rfl⟩ | exact fun _ => rfl
      | exact fun _ => ⟨rfl, rfl, rfl, rfl, rfl⟩ | intro _ | with_reducible apply Only.ite
      | with_reducible apply Only.fst_ite | with_reducible apply Only.snd_ite | with_reducible apply Only.onMea

theorem Only.reference (a0 : ℕ) (a1 : Bool) (hm : m &&& 66048 = 66048) (h : Only m x₀ s) :
    Only m x₀ (State.reference a0 a1 s) := by
  dsimp only [State.reference]
  repeat' first
      | with_reducible assumption | exact fun _ => ⟨rfl, rfl⟩ | exact fun _ => rfl
      | exact fun _ => ⟨rfl, rfl, rfl, rfl, rfl⟩ | intro _ | with_reducible apply Only.ite
      | with_reducible apply Only.fst_ite | with_reducible apply Only.snd_ite | with_reducible apply Only.forL
      | with_reducible apply Only.forL_fst | with_reducible apply Only.onAxis | with_reducible apply Only.axFail
      | exact Part.sub hm rfl

theorem Only.onAin (a0 : ℕ) (a1 : Analogue → Analogue) (hm : m &&& 256 = 256) (h : Only m x₀ s) :
    Only m x₀ (State.onAin a0 a1 s) := by
  dsimp only [State.onAin]
  repeat' first
      | with_reducible assumption | exact fun _ => ⟨rfl, rfl⟩ | exact fun _ => rfl
      | exact fun _ => ⟨rfl, rfl, rfl, rfl, rfl⟩ | intro _ | with_reducible apply Only.onMea

theorem Only.ainFail (a0 : ℕ) (a1 : ℕ) (hm : m &&& 65792 = 65792) (h : Only m x₀ s) :
    Only m x₀ (State.ainFail a0 a1 s) := by
  dsimp only [State.ainFail]
  repeat' first
      | with_reducible assumption | exact fun _ => ⟨rfl, rfl⟩ | exact fun _ => rfl
      | exact fun _ => ⟨rfl, rfl, rfl, rfl, rfl⟩ | intro _ | with_reducible apply Only.ite
      | with_reducible apply Only.fst_ite | with_reducible apply Only.snd_ite | with_reducible apply Only.raise
      | with_reducible apply Only.onAin | exact Part.sub hm rfl

theorem Only.ainSample (a0 : ℕ) (a1 : BitVec 20) (a2 : BitVec 20) (hm : m &&& 65792 = 65792) (h : Only m x₀ s) :
    Only m x₀ (State.ainSample a0 a1 a2 s) := by
  dsimp only [State.ainSample]
  repeat' first
      | with_reducible assumption | exact fun _ => ⟨rfl, rfl⟩ | exact fun _ => rfl
      | exact fun _ => ⟨rfl, rfl, rfl, rfl, rfl⟩ | intro _ | with_reducible apply Only.ite
      | with_reducible apply Only.fst_ite | with_reducible apply Only.snd_ite | with_reducible apply Only.onAin
      | with_reducible apply Only.ainFail | exact Part.sub hm rfl

theorem Only.execAnalogueSample (a0 : ℕ) (a1 : Fin 8) (a2 : BitVec 20) (a3 : BitVec 20) (hm : m &&& 65793 = 65793)
    (h : Only m x₀ s) :
    ∀ u, (execAnalogueSample a0 a1 a2 a3 s) = .next u → Only m x₀ u := by
  intro u e
  obtain rfl := Host.Outcome.next.inj e
  repeat' first
      | with_reducible assumption | exact fun _ => ⟨rfl, rfl⟩ | exact fun _ => rfl
      | exact fun _ => ⟨rfl, rfl, rfl, rfl, rfl⟩ | intro _ | with_reducible apply Only.ainSample
      | with_reducible apply Only.tick | exact Part.sub hm rfl

theorem Only.ainTimeout (a0 : ℕ) (hm : m &&& 65792 = 65792) (h : Only m x₀ s) :
    Only m x₀ (State.ainTimeout a0 s) := by
  dsimp only [State.ainTimeout]
  repeat' first
      | with_reducible assumption | exact fun _ => ⟨rfl, rfl⟩ | exact fun _ => rfl
      | exact fun _ => ⟨rfl, rfl, rfl, rfl, rfl⟩ | intro _ | with_reducible apply Only.ite
      | with_reducible apply Only.fst_ite | with_reducible apply Only.snd_ite | with_reducible apply Only.ainFail
      | exact Part.sub hm rfl | rfl | exact ⟨rfl, rfl⟩ | exact ⟨rfl, rfl, rfl, rfl, rfl⟩ | split

theorem Only.execAnalogueDiscrepancyTimeout (a0 : ℕ) (a1 : Fin 8) (hm : m &&& 65793 = 65793) (h : Only m x₀ s) :
    ∀ u, (execAnalogueDiscrepancyTimeout a0 a1 s) = .next u → Only m x₀ u := by
  intro u e
  obtain rfl := Host.Outcome.next.inj e
  repeat' first
      | with_reducible assumption | exact fun _ => ⟨rfl, rfl⟩ | exact fun _ => rfl
      | exact fun _ => ⟨rfl, rfl, rfl, rfl, rfl⟩ | intro _ | with_reducible apply Only.ainTimeout
      | with_reducible apply Only.tick | exact Part.sub hm rfl

theorem Only.clearedAin (a0 : ℕ) (hm : m &&& 256 = 256) (h : Only m x₀ s) :
    Only m x₀ (State.clearedAin a0 s) := by
  dsimp only [State.clearedAin]
  repeat' first
      | with_reducible assumption | exact fun _ => ⟨rfl, rfl⟩ | exact fun _ => rfl
      | exact fun _ => ⟨rfl, rfl, rfl, rfl, rfl⟩ | intro _ | with_reducible apply Only.onMea

theorem Only.meaCtrClear (a0 : Word) (hm : m &&& 256 = 256) (h : Only m x₀ s) :
    Only m x₀ (State.meaCtrClear a0 s).1 := by
  dsimp only [State.meaCtrClear]
  repeat' first
      | with_reducible assumption | exact fun _ => ⟨rfl, rfl⟩ | exact fun _ => rfl
      | exact fun _ => ⟨rfl, rfl, rfl, rfl, rfl⟩ | intro _ | with_reducible apply Only.ite
      | with_reducible apply Only.fst_ite | with_reducible apply Only.snd_ite | with_reducible apply Only.onMea

theorem Only.execMeaCtrClear (a0 : ℕ) (a1 : Reader) (a2 : Word) (hm : m &&& 65795 = 65795) (h : Only m x₀ s) :
    ∀ u, (execMeaCtrClear a0 a1 a2 s) = .next u → Only m x₀ u := by
  intro u e
  obtain rfl := Host.Outcome.next.inj e
  repeat' first
      | with_reducible assumption | exact fun _ => ⟨rfl, rfl⟩ | exact fun _ => rfl
      | exact fun _ => ⟨rfl, rfl, rfl, rfl, rfl⟩ | intro _ | with_reducible apply Only.wt
      | with_reducible apply Only.meaCtrClear | with_reducible apply Only.tick | exact Part.sub hm rfl

end Sys2Proof.Machine
end

