-- ==== Sys2Proof/Laws/OnlyInterject.lean ====
section
/-! SUPPORT. What Interject.lean keeps (Laws/Only.lean). -/

namespace Sys2Proof.Machine

variable {m : Nat} {x₀ s : State}

theorem Only.annotate (a0 : ℕ × ℕ) (hm : m &&& 268435458 = 268435458) (h : Only m x₀ s) :
    Only m x₀ (State.annotate a0 s) := by
  dsimp only [State.annotate]
  repeat' first
      | with_reducible assumption | exact fun _ => ⟨rfl, rfl⟩ | exact fun _ => rfl
      | exact fun _ => ⟨rfl, rfl, rfl, rfl, rfl⟩ | intro _ | with_reducible apply Only.ite
      | with_reducible apply Only.fst_ite | with_reducible apply Only.snd_ite | with_reducible apply Only.onSys_keep
      | with_reducible apply Only.framed | exact Part.sub hm rfl | rfl | exact ⟨rfl, rfl⟩
      | exact ⟨rfl, rfl, rfl, rfl, rfl⟩ | split

/-- A channel's stage change leaves the committed words. -/
theorem OutBlock.onStage_committed (o : OutBlock) (c : Ch) (f : Stage → Stage) :
    (o.onStage c f).committed = o.committed := by
  cases c <;> rfl

theorem Only.actIn (a0 : IntjEntry) (a1 : Ch) (hm : m &&& 8392 = 8392) (h : Only m x₀ s) :
    Only m x₀ (State.actIn a0 a1 s) := by
  dsimp only [State.actIn]
  repeat' first
      | with_reducible assumption | exact fun _ => ⟨rfl, rfl⟩ | exact fun _ => rfl
      | exact fun _ => ⟨rfl, rfl, rfl, rfl, rfl⟩ | intro _ | with_reducible apply Only.forL
      | with_reducible apply Only.forL_fst | with_reducible apply Only.onSto_keep
      | with_reducible apply Only.onSog_keep | with_reducible apply Only.onFab
      | with_reducible apply Only.interjectField | exact Part.sub hm rfl | rfl | exact ⟨rfl, rfl⟩
      | exact ⟨rfl, rfl, rfl, rfl, rfl⟩ | exact OutBlock.onStage_committed _ _ _

theorem Only.interject (a0 : List Ch) (a1 : IntjEntry) (hm : m &&& 306391242 = 306391242) (h : Only m x₀ s) :
    Only m x₀ (State.interject a0 a1 s) := by
  dsimp only [State.interject]
  repeat' first
      | with_reducible assumption | exact fun _ => ⟨rfl, rfl⟩ | exact fun _ => rfl
      | exact fun _ => ⟨rfl, rfl, rfl, rfl, rfl⟩ | intro _ | with_reducible apply Only.forL
      | with_reducible apply Only.forL_fst | with_reducible apply Only.actIn | with_reducible apply Only.extraFrame
      | with_reducible apply Only.onPwr_keep | with_reducible apply Only.record | with_reducible apply Only.darkAborts
      | with_reducible apply Only.annotate | exact Part.sub hm rfl

theorem Only.trigger (a0 : List Ch) (a1 : ℕ) (hm : m &&& 306391242 = 306391242) (h : Only m x₀ s) :
    Only m x₀ (State.trigger a0 a1 s) := by
  dsimp only [State.trigger]
  repeat' first
      | with_reducible assumption | exact fun _ => ⟨rfl, rfl⟩ | exact fun _ => rfl
      | exact fun _ => ⟨rfl, rfl, rfl, rfl, rfl⟩ | intro _ | with_reducible apply Only.ite
      | with_reducible apply Only.fst_ite | with_reducible apply Only.snd_ite | with_reducible apply Only.forL
      | with_reducible apply Only.forL_fst | with_reducible apply Only.interject

end Sys2Proof.Machine
end

