-- ==== Sys2Proof/Laws/OnlyAxes.lean ====
section
/-! SUPPORT. What Axes.lean keeps (Laws/Only.lean). -/

namespace Sys2Proof.Machine

variable {m : Nat} {x₀ s : State}

theorem Only.onAxFn (a0 : ℕ) (a1 : AxFn → AxFn) (hm : m &&& 512 = 512) (h : Only m x₀ s) :
    Only m x₀ (State.onAxFn a0 a1 s) := by
  dsimp only [State.onAxFn]
  repeat' first
      | with_reducible assumption | exact fun _ => ⟨rfl, rfl⟩ | exact fun _ => rfl
      | exact fun _ => ⟨rfl, rfl, rfl, rfl, rfl⟩ | intro _ | with_reducible apply Only.onAxs

theorem Only.adopt (a0 : ℕ) (hm : m &&& 768 = 768) (h : Only m x₀ s) :
    Only m x₀ (State.adopt a0 s) := by
  dsimp only [State.adopt]
  repeat' first
      | with_reducible assumption | exact fun _ => ⟨rfl, rfl⟩ | exact fun _ => rfl
      | exact fun _ => ⟨rfl, rfl, rfl, rfl, rfl⟩ | intro _ | with_reducible apply Only.ite
      | with_reducible apply Only.fst_ite | with_reducible apply Only.snd_ite | with_reducible apply Only.onAxis
      | with_reducible apply Only.onEnc | exact Part.sub hm rfl | rfl | exact ⟨rfl, rfl⟩
      | exact ⟨rfl, rfl, rfl, rfl, rfl⟩ | split

theorem Only.checkRecord (a0 : ℕ) (hm : m &&& 66048 = 66048) (h : Only m x₀ s) :
    Only m x₀ (State.checkRecord a0 s) := by
  dsimp only [State.checkRecord]
  repeat' first
      | with_reducible assumption | exact fun _ => ⟨rfl, rfl⟩ | exact fun _ => rfl
      | exact fun _ => ⟨rfl, rfl, rfl, rfl, rfl⟩ | intro _ | with_reducible apply Only.ite
      | with_reducible apply Only.fst_ite | with_reducible apply Only.snd_ite | with_reducible apply Only.axFail
      | with_reducible apply Only.onAxis | exact Part.sub hm rfl | rfl | exact ⟨rfl, rfl⟩
      | exact ⟨rfl, rfl, rfl, rfl, rfl⟩ | split

theorem Only.takeSources (a0 : ℕ) (hm : m &&& 512 = 512) (h : Only m x₀ s) :
    Only m x₀ (State.takeSources a0 s) := by
  dsimp only [State.takeSources]
  repeat' first
      | with_reducible assumption | exact fun _ => ⟨rfl, rfl⟩ | exact fun _ => rfl
      | exact fun _ => ⟨rfl, rfl, rfl, rfl, rfl⟩ | intro _ | with_reducible apply Only.ite
      | with_reducible apply Only.fst_ite | with_reducible apply Only.snd_ite | with_reducible apply Only.onAxis

theorem Only.compare (a0 : ℕ) (a1 : DriveRec) (a2 : ℤ) (hm : m &&& 66048 = 66048) (h : Only m x₀ s) :
    Only m x₀ (State.compare a0 a1 a2 s) := by
  dsimp only [State.compare]
  repeat' first
      | with_reducible assumption | exact fun _ => ⟨rfl, rfl⟩ | exact fun _ => rfl
      | exact fun _ => ⟨rfl, rfl, rfl, rfl, rfl⟩ | intro _ | with_reducible apply Only.ite
      | with_reducible apply Only.fst_ite | with_reducible apply Only.snd_ite | with_reducible apply Only.onAxs
      | with_reducible apply Only.onAxis | with_reducible apply Only.raise | exact Part.sub hm rfl

theorem Only.crossCheck (a0 : ℕ) (hm : m &&& 66048 = 66048) (h : Only m x₀ s) :
    Only m x₀ (State.crossCheck a0 s) := by
  dsimp only [State.crossCheck]
  repeat' first
      | with_reducible assumption | exact fun _ => ⟨rfl, rfl⟩ | exact fun _ => rfl
      | exact fun _ => ⟨rfl, rfl, rfl, rfl, rfl⟩ | intro _ | with_reducible apply Only.ite
      | with_reducible apply Only.fst_ite | with_reducible apply Only.snd_ite | with_reducible apply Only.onAxis
      | with_reducible apply Only.compare | exact Part.sub hm rfl | rfl | exact ⟨rfl, rfl⟩
      | exact ⟨rfl, rfl, rfl, rfl, rfl⟩ | split

theorem Only.followSpeed (a0 : ℕ) (hm : m &&& 512 = 512) (h : Only m x₀ s) :
    Only m x₀ (State.followSpeed a0 s) := by
  dsimp only [State.followSpeed]
  repeat' first
      | with_reducible assumption | exact fun _ => ⟨rfl, rfl⟩ | exact fun _ => rfl
      | exact fun _ => ⟨rfl, rfl, rfl, rfl, rfl⟩ | intro _ | with_reducible apply Only.ite
      | with_reducible apply Only.fst_ite | with_reducible apply Only.snd_ite | with_reducible apply Only.onAxis

theorem Only.stopStep (a0 : ℕ) (a1 : ℕ) (hm : m &&& 66048 = 66048) (h : Only m x₀ s) :
    Only m x₀ (State.stopStep a0 a1 s) := by
  dsimp only [State.stopStep]
  repeat' first
      | with_reducible assumption | exact fun _ => ⟨rfl, rfl⟩ | exact fun _ => rfl
      | exact fun _ => ⟨rfl, rfl, rfl, rfl, rfl⟩ | intro _ | with_reducible apply Only.ite
      | with_reducible apply Only.fst_ite | with_reducible apply Only.snd_ite | with_reducible apply Only.onAxis
      | with_reducible apply Only.axFail | exact Part.sub hm rfl | rfl | exact ⟨rfl, rfl⟩
      | exact ⟨rfl, rfl, rfl, rfl, rfl⟩ | split

theorem Only.awaitStops (a0 : ℕ) (a1 : ℕ) (hm : m &&& 512 = 512) (h : Only m x₀ s) :
    Only m x₀ (State.awaitStops a0 a1 s) := by
  dsimp only [State.awaitStops]
  repeat' first
      | with_reducible assumption | exact fun _ => ⟨rfl, rfl⟩ | exact fun _ => rfl
      | exact fun _ => ⟨rfl, rfl, rfl, rfl, rfl⟩ | intro _ | with_reducible apply Only.ite
      | with_reducible apply Only.fst_ite | with_reducible apply Only.snd_ite | with_reducible apply Only.forL
      | with_reducible apply Only.forL_fst | with_reducible apply Only.onAxFn

theorem Only.demandSs1 (a0 : ℕ) (a1 : ℕ) (a2 : ℕ) (a3 : FnEntry) (hm : m &&& 512 = 512) (h : Only m x₀ s) :
    Only m x₀ (State.demandSs1 a0 a1 a2 a3 s) := by
  dsimp only [State.demandSs1]
  repeat' first
      | with_reducible assumption | exact fun _ => ⟨rfl, rfl⟩ | exact fun _ => rfl
      | exact fun _ => ⟨rfl, rfl, rfl, rfl, rfl⟩ | intro _ | with_reducible apply Only.ite
      | with_reducible apply Only.fst_ite | with_reducible apply Only.snd_ite | with_reducible apply Only.awaitStops
      | with_reducible apply Only.onAxis

theorem Only.zoneSto (a0 : ℕ) (hm : m &&& 512 = 512) (h : Only m x₀ s) :
    Only m x₀ (State.zoneSto a0 s) := by
  dsimp only [State.zoneSto]
  repeat' first
      | with_reducible assumption | exact fun _ => ⟨rfl, rfl⟩ | exact fun _ => rfl
      | exact fun _ => ⟨rfl, rfl, rfl, rfl, rfl⟩ | intro _ | with_reducible apply Only.ite
      | with_reducible apply Only.fst_ite | with_reducible apply Only.snd_ite | with_reducible apply Only.onAxis

theorem Only.zoneReact (a0 : ℕ) (a1 : ℕ) (hm : m &&& 512 = 512) (h : Only m x₀ s) :
    Only m x₀ (State.zoneReact a0 a1 s) := by
  dsimp only [State.zoneReact]
  repeat' first
      | with_reducible assumption | exact fun _ => ⟨rfl, rfl⟩ | exact fun _ => rfl
      | exact fun _ => ⟨rfl, rfl, rfl, rfl, rfl⟩ | intro _ | with_reducible apply Only.ite
      | with_reducible apply Only.fst_ite | with_reducible apply Only.snd_ite | with_reducible apply Only.onAxis
      | with_reducible apply Only.demandSs1 | with_reducible apply Only.zoneSto | exact Part.sub hm rfl | rfl
      | exact ⟨rfl, rfl⟩ | exact ⟨rfl, rfl, rfl, rfl, rfl⟩ | split

theorem Only.violationReact (a0 : ℕ) (a1 : ℕ) (a2 : FnEntry) (hm : m &&& 512 = 512) (h : Only m x₀ s) :
    Only m x₀ (State.violationReact a0 a1 a2 s) := by
  dsimp only [State.violationReact]
  repeat' first
      | with_reducible assumption | exact fun _ => ⟨rfl, rfl⟩ | exact fun _ => rfl
      | exact fun _ => ⟨rfl, rfl, rfl, rfl, rfl⟩ | intro _ | with_reducible apply Only.ite
      | with_reducible apply Only.fst_ite | with_reducible apply Only.snd_ite | with_reducible apply Only.awaitStops
      | with_reducible apply Only.onAxis | with_reducible apply Only.demandSs1 | exact Part.sub hm rfl | rfl
      | exact ⟨rfl, rfl⟩ | exact ⟨rfl, rfl, rfl, rfl, rfl⟩ | split

theorem Only.monitorStep (a0 : ℕ) (a1 : ℕ) (a2 : FnEntry) (hm : m &&& 66048 = 66048) (h : Only m x₀ s) :
    Only m x₀ (State.monitorStep a0 a1 a2 s) := by
  dsimp only [State.monitorStep]
  repeat' first
      | with_reducible assumption | exact fun _ => ⟨rfl, rfl⟩ | exact fun _ => rfl
      | exact fun _ => ⟨rfl, rfl, rfl, rfl, rfl⟩ | intro _ | with_reducible apply Only.ite
      | with_reducible apply Only.fst_ite | with_reducible apply Only.snd_ite | with_reducible apply Only.onAxFn
      | with_reducible apply Only.violationReact | with_reducible apply Only.axFail | exact Part.sub hm rfl

theorem Only.publishWords (a0 : ℕ) (a1 : ℕ) (hm : m &&& 306391754 = 306391754) (h : Only m x₀ s) :
    Only m x₀ (State.publishWords a0 a1 s) := by
  dsimp only [State.publishWords]
  repeat' first
      | with_reducible assumption | exact fun _ => ⟨rfl, rfl⟩ | exact fun _ => rfl
      | exact fun _ => ⟨rfl, rfl, rfl, rfl, rfl⟩ | intro _ | with_reducible apply Only.forL
      | with_reducible apply Only.forL_fst | with_reducible apply Only.onAxis | with_reducible apply Only.trigger
      | exact Part.sub hm rfl

theorem Only.holdSto (a0 : ℕ) (hm : m &&& 128 = 128) (h : Only m x₀ s) :
    Only m x₀ (State.holdSto a0 s) := by
  dsimp only [State.holdSto]
  repeat' first
      | with_reducible assumption | exact fun _ => ⟨rfl, rfl⟩ | exact fun _ => rfl
      | exact fun _ => ⟨rfl, rfl, rfl, rfl, rfl⟩ | intro _ | with_reducible apply Only.ite
      | with_reducible apply Only.fst_ite | with_reducible apply Only.snd_ite | with_reducible apply Only.onSto_keep

theorem Only.wakeFns (a0 : ℕ) (hm : m &&& 512 = 512) (h : Only m x₀ s) :
    Only m x₀ (State.wakeFns a0 s) := by
  dsimp only [State.wakeFns]
  repeat' first
      | with_reducible assumption | exact fun _ => ⟨rfl, rfl⟩ | exact fun _ => rfl
      | exact fun _ => ⟨rfl, rfl, rfl, rfl, rfl⟩ | intro _ | with_reducible apply Only.ite
      | with_reducible apply Only.fst_ite | with_reducible apply Only.snd_ite | with_reducible apply Only.forL
      | with_reducible apply Only.forL_fst | with_reducible apply Only.onAxFn

theorem Only.axisMeasure (a0 : ℕ) (hm : m &&& 66304 = 66304) (h : Only m x₀ s) :
    Only m x₀ (State.axisMeasure a0 s) := by
  dsimp only [State.axisMeasure]
  repeat' first
      | with_reducible assumption | exact fun _ => ⟨rfl, rfl⟩ | exact fun _ => rfl
      | exact fun _ => ⟨rfl, rfl, rfl, rfl, rfl⟩ | intro _ | with_reducible apply Only.followSpeed
      | with_reducible apply Only.crossCheck | with_reducible apply Only.takeSources | with_reducible apply Only.adopt
      | with_reducible apply Only.checkRecord | exact Part.sub hm rfl

theorem Only.axisUpdate (a0 : ℕ) (a1 : ℕ) (hm : m &&& 306392010 = 306392010) (h : Only m x₀ s) :
    Only m x₀ (State.axisUpdate a0 a1 s) := by
  dsimp only [State.axisUpdate]
  repeat' first
      | with_reducible assumption | exact fun _ => ⟨rfl, rfl⟩ | exact fun _ => rfl
      | exact fun _ => ⟨rfl, rfl, rfl, rfl, rfl⟩ | intro _ | with_reducible apply Only.forL
      | with_reducible apply Only.forL_fst | with_reducible apply Only.wakeFns | with_reducible apply Only.stopStep
      | with_reducible apply Only.zoneReact | with_reducible apply Only.axisMeasure
      | with_reducible apply Only.monitorStep | with_reducible apply Only.holdSto
      | with_reducible apply Only.publishWords | exact Part.sub hm rfl

theorem Only.periodicUpdate (hm : m &&& 306392010 = 306392010) (h : Only m x₀ s) :
    Only m x₀ (State.periodicUpdate s) := by
  dsimp only [State.periodicUpdate]
  repeat' first
      | with_reducible assumption | exact fun _ => ⟨rfl, rfl⟩ | exact fun _ => rfl
      | exact fun _ => ⟨rfl, rfl, rfl, rfl, rfl⟩ | intro _ | with_reducible apply Only.ite
      | with_reducible apply Only.fst_ite | with_reducible apply Only.snd_ite | with_reducible apply Only.forL
      | with_reducible apply Only.forL_fst | with_reducible apply Only.axisUpdate

theorem Only.execPeriodicUpdate (a0 : ℕ) (hm : m &&& 306392011 = 306392011) (h : Only m x₀ s) :
    ∀ u, (execPeriodicUpdate a0 s) = .next u → Only m x₀ u := by
  intro u e
  obtain rfl := Host.Outcome.next.inj e
  repeat' first
      | with_reducible assumption | exact fun _ => ⟨rfl, rfl⟩ | exact fun _ => rfl
      | exact fun _ => ⟨rfl, rfl, rfl, rfl, rfl⟩ | intro _ | with_reducible apply Only.periodicUpdate
      | with_reducible apply Only.tick | exact Part.sub hm rfl

theorem Only.axisMissed (a0 : Ch) (a1 : ℕ) (hm : m &&& 66048 = 66048) (h : Only m x₀ s) :
    Only m x₀ (State.axisMissed a0 a1 s) := by
  dsimp only [State.axisMissed]
  repeat' first
      | with_reducible assumption | exact fun _ => ⟨rfl, rfl⟩ | exact fun _ => rfl
      | exact fun _ => ⟨rfl, rfl, rfl, rfl, rfl⟩ | intro _ | with_reducible apply Only.ite
      | with_reducible apply Only.fst_ite | with_reducible apply Only.snd_ite | with_reducible apply Only.axFail
      | with_reducible apply Only.onAxis | exact Part.sub hm rfl

theorem Only.execAxisExchangeMissed (a0 : ℕ) (a1 : Ch) (a2 : Fin 16) (hm : m &&& 66049 = 66049) (h : Only m x₀ s) :
    ∀ u, (execAxisExchangeMissed a0 a1 a2 s) = .next u → Only m x₀ u := by
  intro u e
  obtain rfl := Host.Outcome.next.inj e
  repeat' first
      | with_reducible assumption | exact fun _ => ⟨rfl, rfl⟩ | exact fun _ => rfl
      | exact fun _ => ⟨rfl, rfl, rfl, rfl, rfl⟩ | intro _ | with_reducible apply Only.axisMissed
      | with_reducible apply Only.tick | exact Part.sub hm rfl

theorem Only.stoDemand (a0 : ℕ) (a1 : FnEntry) (a2 : AxIn) (hm : m &&& 512 = 512) (h : Only m x₀ s) :
    Only m x₀ (State.stoDemand a0 a1 a2 s) := by
  dsimp only [State.stoDemand]
  repeat' first
      | with_reducible assumption | exact fun _ => ⟨rfl, rfl⟩ | exact fun _ => rfl
      | exact fun _ => ⟨rfl, rfl, rfl, rfl, rfl⟩ | intro _ | with_reducible apply Only.ite
      | with_reducible apply Only.fst_ite | with_reducible apply Only.snd_ite | with_reducible apply Only.onAxFn
      | with_reducible apply Only.onAxis

theorem Only.ssDemand (a0 : ℕ) (a1 : ℕ) (a2 : ℤ) (a3 : FnEntry) (a4 : AxIn) (hm : m &&& 512 = 512) (h : Only m x₀ s) :
    Only m x₀ (State.ssDemand a0 a1 a2 a3 a4 s) := by
  dsimp only [State.ssDemand]
  repeat' first
      | with_reducible assumption | exact fun _ => ⟨rfl, rfl⟩ | exact fun _ => rfl
      | exact fun _ => ⟨rfl, rfl, rfl, rfl, rfl⟩ | intro _ | with_reducible apply Only.ite
      | with_reducible apply Only.fst_ite | with_reducible apply Only.snd_ite | with_reducible apply Only.onAxFn
      | with_reducible apply Only.onAxis

theorem Only.monitorDemand (a0 : FnEntry) (a1 : AxIn) (hm : m &&& 512 = 512) (h : Only m x₀ s) :
    Only m x₀ (State.monitorDemand a0 a1 s) := by
  dsimp only [State.monitorDemand]
  repeat' first
      | with_reducible assumption | exact fun _ => ⟨rfl, rfl⟩ | exact fun _ => rfl
      | exact fun _ => ⟨rfl, rfl, rfl, rfl, rfl⟩ | intro _ | with_reducible apply Only.ite
      | with_reducible apply Only.fst_ite | with_reducible apply Only.snd_ite | with_reducible apply Only.onAxFn

theorem Only.returnAxis (a0 : ℕ) (hm : m &&& 512 = 512) (h : Only m x₀ s) :
    Only m x₀ (State.returnAxis a0 s) := by
  dsimp only [State.returnAxis]
  repeat' first
      | with_reducible assumption | exact fun _ => ⟨rfl, rfl⟩ | exact fun _ => rfl
      | exact fun _ => ⟨rfl, rfl, rfl, rfl, rfl⟩ | intro _ | with_reducible apply Only.ite
      | with_reducible apply Only.fst_ite | with_reducible apply Only.snd_ite | with_reducible apply Only.onAxis

theorem Only.axisDemand (a0 : ℕ) (a1 : ℕ → NV) (a2 : ℕ → ℤ) (a3 : ℕ) (hm : m &&& 306391754 = 306391754)
    (h : Only m x₀ s) :
    Only m x₀ (State.axisDemand a0 a1 a2 a3 s) := by
  dsimp only [State.axisDemand]
  repeat' first
      | with_reducible assumption | exact fun _ => ⟨rfl, rfl⟩ | exact fun _ => rfl
      | exact fun _ => ⟨rfl, rfl, rfl, rfl, rfl⟩ | intro _ | with_reducible apply Only.forL
      | with_reducible apply Only.forL_fst | with_reducible apply Only.stoDemand | with_reducible apply Only.ssDemand
      | with_reducible apply Only.monitorDemand | with_reducible apply Only.publishWords
      | with_reducible apply Only.returnAxis | exact Part.sub hm rfl

theorem Only.driveWords (hm : m &&& 8192 = 8192) (h : Only m x₀ s) :
    Only m x₀ (State.driveWords s) := by
  dsimp only [State.driveWords]
  repeat' first
      | with_reducible assumption | exact fun _ => ⟨rfl, rfl⟩ | exact fun _ => rfl
      | exact fun _ => ⟨rfl, rfl, rfl, rfl, rfl⟩ | intro _ | with_reducible apply Only.forL
      | with_reducible apply Only.forL_fst | with_reducible apply Only.onProd | exact Part.sub hm rfl | rfl
      | exact ⟨rfl, rfl⟩ | exact ⟨rfl, rfl, rfl, rfl, rfl⟩ | split

theorem Only.demandUpdate (a0 : ℕ) (a1 : ℕ → NV) (hm : m &&& 306391754 = 306391754) (h : Only m x₀ s) :
    Only m x₀ (State.demandUpdate a0 a1 s) := by
  dsimp only [State.demandUpdate]
  repeat' first
      | with_reducible assumption | exact fun _ => ⟨rfl, rfl⟩ | exact fun _ => rfl
      | exact fun _ => ⟨rfl, rfl, rfl, rfl, rfl⟩ | intro _ | with_reducible apply Only.ite
      | with_reducible apply Only.fst_ite | with_reducible apply Only.snd_ite | with_reducible apply Only.forL
      | with_reducible apply Only.forL_fst | with_reducible apply Only.driveWords
      | with_reducible apply Only.axisDemand | exact Part.sub hm rfl

theorem Only.clearedAxs (a0 : ℕ) (hm : m &&& 512 = 512) (h : Only m x₀ s) :
    Only m x₀ (State.clearedAxs a0 s) := by
  dsimp only [State.clearedAxs]
  repeat' first
      | with_reducible assumption | exact fun _ => ⟨rfl, rfl⟩ | exact fun _ => rfl
      | exact fun _ => ⟨rfl, rfl, rfl, rfl, rfl⟩ | intro _ | with_reducible apply Only.ite
      | with_reducible apply Only.fst_ite | with_reducible apply Only.snd_ite | with_reducible apply Only.onAxs

theorem Only.axesBegin (a0 : Bool) (hm : m &&& 306391754 = 306391754) (h : Only m x₀ s) :
    Only m x₀ (State.axesBegin a0 s) := by
  dsimp only [State.axesBegin]
  repeat' first
      | with_reducible assumption | exact fun _ => ⟨rfl, rfl⟩ | exact fun _ => rfl
      | exact fun _ => ⟨rfl, rfl, rfl, rfl, rfl⟩ | intro _ | with_reducible apply Only.forL
      | with_reducible apply Only.forL_fst | with_reducible apply Only.trigger | with_reducible apply Only.onAxs
      | exact Part.sub hm rfl

theorem Only.axsCtrClear (a0 : Word) (hm : m &&& 512 = 512) (h : Only m x₀ s) :
    Only m x₀ (State.axsCtrClear a0 s).1 := by
  dsimp only [State.axsCtrClear]
  repeat' first
      | with_reducible assumption | exact fun _ => ⟨rfl, rfl⟩ | exact fun _ => rfl
      | exact fun _ => ⟨rfl, rfl, rfl, rfl, rfl⟩ | intro _ | with_reducible apply Only.ite
      | with_reducible apply Only.fst_ite | with_reducible apply Only.snd_ite | with_reducible apply Only.onAxs

theorem Only.execAxsCtrClear (a0 : ℕ) (a1 : Reader) (a2 : Word) (hm : m &&& 66051 = 66051) (h : Only m x₀ s) :
    ∀ u, (execAxsCtrClear a0 a1 a2 s) = .next u → Only m x₀ u := by
  intro u e
  obtain rfl := Host.Outcome.next.inj e
  repeat' first
      | with_reducible assumption | exact fun _ => ⟨rfl, rfl⟩ | exact fun _ => rfl
      | exact fun _ => ⟨rfl, rfl, rfl, rfl, rfl⟩ | intro _ | with_reducible apply Only.wt
      | with_reducible apply Only.axsCtrClear | with_reducible apply Only.tick | exact Part.sub hm rfl

end Sys2Proof.Machine
end

