-- ==== Sys2Proof/Laws/OnlySeparation.lean ====
section
/-! SUPPORT. What Separation.lean keeps (Laws/Only.lean). -/

namespace Sys2Proof.Machine

variable {m : Nat} {x₀ s : State}

theorem Only.onSensor (a0 : ℕ) (a1 : Sensor → Sensor) (hm : m &&& 1024 = 1024) (h : Only m x₀ s) :
    Only m x₀ (State.onSensor a0 a1 s) := by
  dsimp only [State.onSensor]
  repeat' first
      | with_reducible assumption | exact fun _ => ⟨rfl, rfl⟩ | exact fun _ => rfl
      | exact fun _ => ⟨rfl, rfl, rfl, rfl, rfl⟩ | intro _ | with_reducible apply Only.onSep

theorem Only.onChain (a0 : ℕ) (a1 : ChainSt → ChainSt) (hm : m &&& 1024 = 1024) (h : Only m x₀ s) :
    Only m x₀ (State.onChain a0 a1 s) := by
  dsimp only [State.onChain]
  repeat' first
      | with_reducible assumption | exact fun _ => ⟨rfl, rfl⟩ | exact fun _ => rfl
      | exact fun _ => ⟨rfl, rfl, rfl, rfl, rfl⟩ | intro _ | with_reducible apply Only.onSep

theorem Only.sensorHealth (hm : m &&& 65536 = 65536) (h : Only m x₀ s) :
    Only m x₀ (State.sensorHealth s) := by
  dsimp only [State.sensorHealth]
  repeat' first
      | with_reducible assumption | exact fun _ => ⟨rfl, rfl⟩ | exact fun _ => rfl
      | exact fun _ => ⟨rfl, rfl, rfl, rfl, rfl⟩ | intro _ | with_reducible apply Only.ite
      | with_reducible apply Only.fst_ite | with_reducible apply Only.snd_ite | with_reducible apply Only.cond

theorem Only.execSensorStale (a0 : ℕ) (a1 : Fin 8) (hm : m &&& 65537 = 65537) (h : Only m x₀ s) :
    ∀ u, (execSensorStale a0 a1 s) = .next u → Only m x₀ u := by
  intro u e
  obtain rfl := Host.Outcome.next.inj e
  repeat' first
      | with_reducible assumption | exact fun _ => ⟨rfl, rfl⟩ | exact fun _ => rfl
      | exact fun _ => ⟨rfl, rfl, rfl, rfl, rfl⟩ | intro _ | with_reducible apply Only.sensorHealth
      | with_reducible apply Only.tick | exact Part.sub hm rfl

theorem Only.acceptSensor (a0 : ℕ) (a1 : ℕ) (a2 : Bool) (a3 : Bool) (hm : m &&& 66560 = 66560) (h : Only m x₀ s) :
    Only m x₀ (State.acceptSensor a0 a1 a2 a3 s) := by
  dsimp only [State.acceptSensor]
  repeat' first
      | with_reducible assumption | exact fun _ => ⟨rfl, rfl⟩ | exact fun _ => rfl
      | exact fun _ => ⟨rfl, rfl, rfl, rfl, rfl⟩ | intro _ | with_reducible apply Only.sensorHealth
      | with_reducible apply Only.onSep | with_reducible apply Only.onSensor | exact Part.sub hm rfl

theorem Only.rebuildStart (hm : m &&& 1024 = 1024) (h : Only m x₀ s) :
    Only m x₀ (State.rebuildStart s) := by
  dsimp only [State.rebuildStart]
  repeat' first
      | with_reducible assumption | exact fun _ => ⟨rfl, rfl⟩ | exact fun _ => rfl
      | exact fun _ => ⟨rfl, rfl, rfl, rfl, rfl⟩ | intro _ | with_reducible apply Only.ite
      | with_reducible apply Only.fst_ite | with_reducible apply Only.snd_ite | with_reducible apply Only.onSep
      | exact Part.sub hm rfl | rfl | exact ⟨rfl, rfl⟩ | exact ⟨rfl, rfl, rfl, rfl, rfl⟩ | split

theorem Only.execRebuildStart (a0 : ℕ) (hm : m &&& 1025 = 1025) (h : Only m x₀ s) :
    ∀ u, (execRebuildStart a0 s) = .next u → Only m x₀ u := by
  intro u e
  obtain rfl := Host.Outcome.next.inj e
  repeat' first
      | with_reducible assumption | exact fun _ => ⟨rfl, rfl⟩ | exact fun _ => rfl
      | exact fun _ => ⟨rfl, rfl, rfl, rfl, rfl⟩ | intro _ | with_reducible apply Only.rebuildStart
      | with_reducible apply Only.tick | exact Part.sub hm rfl

theorem Only.rebuildComplete (a0 : Ch) (hm : m &&& 1024 = 1024) (h : Only m x₀ s) :
    Only m x₀ (State.rebuildComplete a0 s) := by
  dsimp only [State.rebuildComplete]
  repeat' first
      | with_reducible assumption | exact fun _ => ⟨rfl, rfl⟩ | exact fun _ => rfl
      | exact fun _ => ⟨rfl, rfl, rfl, rfl, rfl⟩ | intro _ | with_reducible apply Only.ite
      | with_reducible apply Only.fst_ite | with_reducible apply Only.snd_ite | with_reducible apply Only.onSep

theorem Only.execRebuildComplete (a0 : ℕ) (a1 : Ch) (hm : m &&& 1025 = 1025) (h : Only m x₀ s) :
    ∀ u, (execRebuildComplete a0 a1 s) = .next u → Only m x₀ u := by
  intro u e
  obtain rfl := Host.Outcome.next.inj e
  repeat' first
      | with_reducible assumption | exact fun _ => ⟨rfl, rfl⟩ | exact fun _ => rfl
      | exact fun _ => ⟨rfl, rfl, rfl, rfl, rfl⟩ | intro _ | with_reducible apply Only.rebuildComplete
      | with_reducible apply Only.tick | exact Part.sub hm rfl

theorem Only.rebuildOverrun (a0 : Ch) (hm : m &&& 65536 = 65536) (h : Only m x₀ s) :
    Only m x₀ (State.rebuildOverrun a0 s) := by
  dsimp only [State.rebuildOverrun]
  repeat' first
      | with_reducible assumption | exact fun _ => ⟨rfl, rfl⟩ | exact fun _ => rfl
      | exact fun _ => ⟨rfl, rfl, rfl, rfl, rfl⟩ | intro _ | with_reducible apply Only.ite
      | with_reducible apply Only.fst_ite | with_reducible apply Only.snd_ite | with_reducible apply Only.raise

theorem Only.execRebuildOverrun (a0 : ℕ) (a1 : Ch) (hm : m &&& 65537 = 65537) (h : Only m x₀ s) :
    ∀ u, (execRebuildOverrun a0 a1 s) = .next u → Only m x₀ u := by
  intro u e
  obtain rfl := Host.Outcome.next.inj e
  repeat' first
      | with_reducible assumption | exact fun _ => ⟨rfl, rfl⟩ | exact fun _ => rfl
      | exact fun _ => ⟨rfl, rfl, rfl, rfl, rfl⟩ | intro _ | with_reducible apply Only.rebuildOverrun
      | with_reducible apply Only.tick | exact Part.sub hm rfl

theorem Only.updateLate (a0 : Ch) (hm : m &&& 66560 = 66560) (h : Only m x₀ s) :
    Only m x₀ (State.updateLate a0 s) := by
  dsimp only [State.updateLate]
  repeat' first
      | with_reducible assumption | exact fun _ => ⟨rfl, rfl⟩ | exact fun _ => rfl
      | exact fun _ => ⟨rfl, rfl, rfl, rfl, rfl⟩ | intro _ | with_reducible apply Only.ite
      | with_reducible apply Only.fst_ite | with_reducible apply Only.snd_ite | with_reducible apply Only.raise
      | with_reducible apply Only.onSep | exact Part.sub hm rfl | rfl | exact ⟨rfl, rfl⟩
      | exact ⟨rfl, rfl, rfl, rfl, rfl⟩ | split

theorem Only.updateOverrun (a0 : Ch) (hm : m &&& 66560 = 66560) (h : Only m x₀ s) :
    Only m x₀ (State.updateOverrun a0 s) := by
  dsimp only [State.updateOverrun]
  repeat' first
      | with_reducible assumption | exact fun _ => ⟨rfl, rfl⟩ | exact fun _ => rfl
      | exact fun _ => ⟨rfl, rfl, rfl, rfl, rfl⟩ | intro _ | with_reducible apply Only.ite
      | with_reducible apply Only.fst_ite | with_reducible apply Only.snd_ite | with_reducible apply Only.updateLate
      | exact Part.sub hm rfl | rfl | exact ⟨rfl, rfl⟩ | exact ⟨rfl, rfl, rfl, rfl, rfl⟩ | split

theorem Only.execSeparationUpdateOverrun (a0 : ℕ) (a1 : Ch) (hm : m &&& 66561 = 66561) (h : Only m x₀ s) :
    ∀ u, (execSeparationUpdateOverrun a0 a1 s) = .next u → Only m x₀ u := by
  intro u e
  obtain rfl := Host.Outcome.next.inj e
  repeat' first
      | with_reducible assumption | exact fun _ => ⟨rfl, rfl⟩ | exact fun _ => rfl
      | exact fun _ => ⟨rfl, rfl, rfl, rfl, rfl⟩ | intro _ | with_reducible apply Only.updateOverrun
      | with_reducible apply Only.tick | exact Part.sub hm rfl

theorem Only.sepClose (hm : m &&& 66560 = 66560) (h : Only m x₀ s) :
    Only m x₀ (State.sepClose s) := by
  dsimp only [State.sepClose]
  repeat' first
      | with_reducible assumption | exact fun _ => ⟨rfl, rfl⟩ | exact fun _ => rfl
      | exact fun _ => ⟨rfl, rfl, rfl, rfl, rfl⟩ | intro _ | with_reducible apply Only.onSep
      | with_reducible apply Only.updateLate | exact Part.sub hm rfl | rfl | exact ⟨rfl, rfl⟩
      | exact ⟨rfl, rfl, rfl, rfl, rfl⟩ | split

theorem Only.sepBegin (a0 : ℕ) (hm : m &&& 1024 = 1024) (h : Only m x₀ s) :
    Only m x₀ (State.sepBegin a0 s) := by
  dsimp only [State.sepBegin]
  repeat' first
      | with_reducible assumption | exact fun _ => ⟨rfl, rfl⟩ | exact fun _ => rfl
      | exact fun _ => ⟨rfl, rfl, rfl, rfl, rfl⟩ | intro _ | with_reducible apply Only.ite
      | with_reducible apply Only.fst_ite | with_reducible apply Only.snd_ite | with_reducible apply Only.onSep
      | exact Part.sub hm rfl | rfl | exact ⟨rfl, rfl⟩ | exact ⟨rfl, rfl, rfl, rfl, rfl⟩ | split

theorem Only.chainFaults (a0 : ChainKin) (a1 : ℕ) (hm : m &&& 65536 = 65536) (h : Only m x₀ s) :
    Only m x₀ (State.chainFaults a0 a1 s) := by
  dsimp only [State.chainFaults]
  repeat' first
      | with_reducible assumption | exact fun _ => ⟨rfl, rfl⟩ | exact fun _ => rfl
      | exact fun _ => ⟨rfl, rfl, rfl, rfl, rfl⟩ | intro _ | with_reducible apply Only.ite
      | with_reducible apply Only.fst_ite | with_reducible apply Only.snd_ite | with_reducible apply Only.raise

theorem Only.chainResult (a0 : Grid) (a1 : SepUpdate) (a2 : ℕ → ChainKin) (a3 : Bool) (a4 : ℕ)
    (hm : m &&& 66560 = 66560) (h : Only m x₀ s) :
    Only m x₀ (State.chainResult a0 a1 a2 a3 a4 s) := by
  dsimp only [State.chainResult]
  repeat' first
      | with_reducible assumption | exact fun _ => ⟨rfl, rfl⟩ | exact fun _ => rfl
      | exact fun _ => ⟨rfl, rfl, rfl, rfl, rfl⟩ | intro _ | with_reducible apply Only.ite
      | with_reducible apply Only.fst_ite | with_reducible apply Only.snd_ite | with_reducible apply Only.onChain
      | with_reducible apply Only.raise | exact Part.sub hm rfl

theorem Only.sepFinish (a0 : Grid) (a1 : SepUpdate) (hm : m &&& 66560 = 66560) (h : Only m x₀ s) :
    Only m x₀ (State.sepFinish a0 a1 s) := by
  dsimp only [State.sepFinish]
  repeat' first
      | with_reducible assumption | exact fun _ => ⟨rfl, rfl⟩ | exact fun _ => rfl
      | exact fun _ => ⟨rfl, rfl, rfl, rfl, rfl⟩ | intro _ | with_reducible apply Only.ite
      | with_reducible apply Only.fst_ite | with_reducible apply Only.snd_ite | with_reducible apply Only.forL
      | with_reducible apply Only.forL_fst | with_reducible apply Only.onSep | with_reducible apply Only.raise
      | with_reducible apply Only.chainResult | with_reducible apply Only.chainFaults | exact Part.sub hm rfl

theorem Only.updateComplete (a0 : Ch) (hm : m &&& 66560 = 66560) (h : Only m x₀ s) :
    Only m x₀ (State.updateComplete a0 s) := by
  dsimp only [State.updateComplete]
  repeat' first
      | with_reducible assumption | exact fun _ => ⟨rfl, rfl⟩ | exact fun _ => rfl
      | exact fun _ => ⟨rfl, rfl, rfl, rfl, rfl⟩ | intro _ | with_reducible apply Only.ite
      | with_reducible apply Only.fst_ite | with_reducible apply Only.snd_ite | with_reducible apply Only.onSep
      | with_reducible apply Only.sepFinish | exact Part.sub hm rfl | rfl | exact ⟨rfl, rfl⟩
      | exact ⟨rfl, rfl, rfl, rfl, rfl⟩ | split

theorem Only.execSeparationUpdateComplete (a0 : ℕ) (a1 : Ch) (hm : m &&& 66561 = 66561) (h : Only m x₀ s) :
    ∀ u, (execSeparationUpdateComplete a0 a1 s) = .next u → Only m x₀ u := by
  intro u e
  obtain rfl := Host.Outcome.next.inj e
  repeat' first
      | with_reducible assumption | exact fun _ => ⟨rfl, rfl⟩ | exact fun _ => rfl
      | exact fun _ => ⟨rfl, rfl, rfl, rfl, rfl⟩ | intro _ | with_reducible apply Only.updateComplete
      | with_reducible apply Only.tick | exact Part.sub hm rfl

theorem Only.sepRedo (a0 : Grid) (a1 : Ch) (a2 : ℕ) (hm : m &&& 66560 = 66560) (h : Only m x₀ s) :
    Only m x₀ (State.sepRedo a0 a1 a2 s) := by
  dsimp only [State.sepRedo]
  repeat' first
      | with_reducible assumption | exact fun _ => ⟨rfl, rfl⟩ | exact fun _ => rfl
      | exact fun _ => ⟨rfl, rfl, rfl, rfl, rfl⟩ | intro _ | with_reducible apply Only.chainResult
      | with_reducible apply Only.onSep | exact Part.sub hm rfl | rfl | exact ⟨rfl, rfl⟩
      | exact ⟨rfl, rfl, rfl, rfl, rfl⟩ | split

theorem Only.sepMissed (a0 : Ch) (a1 : ℕ) (hm : m &&& 66560 = 66560) (h : Only m x₀ s) :
    Only m x₀ (State.sepMissed a0 a1 s) := by
  dsimp only [State.sepMissed]
  repeat' first
      | with_reducible assumption | exact fun _ => ⟨rfl, rfl⟩ | exact fun _ => rfl
      | exact fun _ => ⟨rfl, rfl, rfl, rfl, rfl⟩ | intro _ | with_reducible apply Only.ite
      | with_reducible apply Only.fst_ite | with_reducible apply Only.snd_ite | with_reducible apply Only.raise
      | with_reducible apply Only.onSep | with_reducible apply Only.sepRedo | exact Part.sub hm rfl | rfl
      | exact ⟨rfl, rfl⟩ | exact ⟨rfl, rfl, rfl, rfl, rfl⟩ | split

theorem Only.execSeparationExchangeMissed (a0 : ℕ) (a1 : Ch) (a2 : Fin 4) (hm : m &&& 66561 = 66561)
    (h : Only m x₀ s) :
    ∀ u, (execSeparationExchangeMissed a0 a1 a2 s) = .next u → Only m x₀ u := by
  intro u e
  obtain rfl := Host.Outcome.next.inj e
  repeat' first
      | with_reducible assumption | exact fun _ => ⟨rfl, rfl⟩ | exact fun _ => rfl
      | exact fun _ => ⟨rfl, rfl, rfl, rfl, rfl⟩ | intro _ | with_reducible apply Only.sepMissed
      | with_reducible apply Only.tick | exact Part.sub hm rfl

theorem Only.sepDemand (a0 : ℕ → NV) (hm : m &&& 1024 = 1024) (h : Only m x₀ s) :
    Only m x₀ (State.sepDemand a0 s) := by
  dsimp only [State.sepDemand]
  repeat' first
      | with_reducible assumption | exact fun _ => ⟨rfl, rfl⟩ | exact fun _ => rfl
      | exact fun _ => ⟨rfl, rfl, rfl, rfl, rfl⟩ | intro _ | with_reducible apply Only.ite
      | with_reducible apply Only.fst_ite | with_reducible apply Only.snd_ite | with_reducible apply Only.forL
      | with_reducible apply Only.forL_fst | with_reducible apply Only.onChain | exact Part.sub hm rfl | rfl
      | exact ⟨rfl, rfl⟩ | exact ⟨rfl, rfl, rfl, rfl, rfl⟩ | split

theorem Only.cleared372 (hm : m &&& 1024 = 1024) (h : Only m x₀ s) :
    Only m x₀ (State.cleared372 s) := by
  dsimp only [State.cleared372]
  repeat' first
      | with_reducible assumption | exact fun _ => ⟨rfl, rfl⟩ | exact fun _ => rfl
      | exact fun _ => ⟨rfl, rfl, rfl, rfl, rfl⟩ | intro _ | with_reducible apply Only.onSep

theorem Only.sepCtrClear (a0 : Word) (hm : m &&& 1024 = 1024) (h : Only m x₀ s) :
    Only m x₀ (State.sepCtrClear a0 s).1 := by
  dsimp only [State.sepCtrClear]
  repeat' first
      | with_reducible assumption | exact fun _ => ⟨rfl, rfl⟩ | exact fun _ => rfl
      | exact fun _ => ⟨rfl, rfl, rfl, rfl, rfl⟩ | intro _ | with_reducible apply Only.ite
      | with_reducible apply Only.fst_ite | with_reducible apply Only.snd_ite | with_reducible apply Only.onSep

theorem Only.execSepCtrClear (a0 : ℕ) (a1 : Reader) (a2 : Word) (hm : m &&& 66563 = 66563) (h : Only m x₀ s) :
    ∀ u, (execSepCtrClear a0 a1 a2 s) = .next u → Only m x₀ u := by
  intro u e
  obtain rfl := Host.Outcome.next.inj e
  repeat' first
      | with_reducible assumption | exact fun _ => ⟨rfl, rfl⟩ | exact fun _ => rfl
      | exact fun _ => ⟨rfl, rfl, rfl, rfl, rfl⟩ | intro _ | with_reducible apply Only.wt
      | with_reducible apply Only.sepCtrClear | with_reducible apply Only.tick | exact Part.sub hm rfl

theorem Only.kinCtrClear (a0 : Word) (hm : m &&& 1024 = 1024) (h : Only m x₀ s) :
    Only m x₀ (State.kinCtrClear a0 s).1 := by
  dsimp only [State.kinCtrClear]
  repeat' first
      | with_reducible assumption | exact fun _ => ⟨rfl, rfl⟩ | exact fun _ => rfl
      | exact fun _ => ⟨rfl, rfl, rfl, rfl, rfl⟩ | intro _ | with_reducible apply Only.ite
      | with_reducible apply Only.fst_ite | with_reducible apply Only.snd_ite | with_reducible apply Only.onSep

theorem Only.execKinCtrClear (a0 : ℕ) (a1 : Reader) (a2 : Word) (hm : m &&& 66563 = 66563) (h : Only m x₀ s) :
    ∀ u, (execKinCtrClear a0 a1 a2 s) = .next u → Only m x₀ u := by
  intro u e
  obtain rfl := Host.Outcome.next.inj e
  repeat' first
      | with_reducible assumption | exact fun _ => ⟨rfl, rfl⟩ | exact fun _ => rfl
      | exact fun _ => ⟨rfl, rfl, rfl, rfl, rfl⟩ | intro _ | with_reducible apply Only.wt
      | with_reducible apply Only.kinCtrClear | with_reducible apply Only.tick | exact Part.sub hm rfl

end Sys2Proof.Machine
end

