-- ==== Sys2Proof/Laws/OnlyBulkFrames.lean ====
section
/-! SUPPORT. What BulkFrames.lean keeps (Laws/Only.lean). -/

namespace Sys2Proof.Machine

variable {m : Nat} {x₀ s : State}

theorem Only.setAsm (a0 : ℕ) (a1 : Option Assembly) (a2 : Option Assembly) (hm : m &&& 9216 = 9216)
    (h : Only m x₀ s) :
    Only m x₀ (State.setAsm a0 a1 a2 s) := by
  dsimp only [State.setAsm]
  repeat' first
      | with_reducible assumption | exact fun _ => ⟨rfl, rfl⟩ | exact fun _ => rfl
      | exact fun _ => ⟨rfl, rfl, rfl, rfl, rfl⟩ | intro _ | with_reducible apply Only.onSfr
      | with_reducible apply Only.onSensor | exact Part.sub hm rfl | rfl | exact ⟨rfl, rfl⟩
      | exact ⟨rfl, rfl, rfl, rfl, rfl⟩ | split

theorem Only.refuseSensor (a0 : ℕ) (hm : m &&& 1024 = 1024) (h : Only m x₀ s) :
    Only m x₀ (State.refuseSensor a0 s) := by
  dsimp only [State.refuseSensor]
  repeat' first
      | with_reducible assumption | exact fun _ => ⟨rfl, rfl⟩ | exact fun _ => rfl
      | exact fun _ => ⟨rfl, rfl, rfl, rfl, rfl⟩ | intro _ | with_reducible apply Only.onSensor
      | exact Part.sub hm rfl | rfl | exact ⟨rfl, rfl⟩ | exact ⟨rfl, rfl, rfl, rfl, rfl⟩ | split

theorem Only.bulkAct (a0 : ℕ) (a1 : ConsCfg) (a2 : Decision) (a3 : Option Assembly) (hm : m &&& 75264 = 75264)
    (h : Only m x₀ s) :
    Only m x₀ (State.bulkAct a0 a1 a2 a3 s) := by
  dsimp only [State.bulkAct]
  repeat' first
      | with_reducible assumption | exact fun _ => ⟨rfl, rfl⟩ | exact fun _ => rfl
      | exact fun _ => ⟨rfl, rfl, rfl, rfl, rfl⟩ | intro _ | with_reducible apply Only.ite
      | with_reducible apply Only.fst_ite | with_reducible apply Only.snd_ite | with_reducible apply Only.actOn
      | with_reducible apply Only.acceptSensor | with_reducible apply Only.onSensor | with_reducible apply Only.raise
      | with_reducible apply Only.refuseSensor | with_reducible apply Only.onCons | exact Part.sub hm rfl | rfl
      | exact ⟨rfl, rfl⟩ | exact ⟨rfl, rfl, rfl, rfl, rfl⟩ | split

theorem Only.refuseBulk (a0 : ℕ) (a1 : Option (ℕ × ℕ)) (hm : m &&& 8192 = 8192) (h : Only m x₀ s) :
    Only m x₀ (State.refuseBulk a0 a1 s) := by
  dsimp only [State.refuseBulk]
  repeat' first
      | with_reducible assumption | exact fun _ => ⟨rfl, rfl⟩ | exact fun _ => rfl
      | exact fun _ => ⟨rfl, rfl, rfl, rfl, rfl⟩ | intro _ | with_reducible apply Only.onSfr | exact Part.sub hm rfl
      | rfl | exact ⟨rfl, rfl⟩ | exact ⟨rfl, rfl, rfl, rfl, rfl⟩ | split

theorem Only.receiveBulk (a0 : List Byte) (a1 : List Byte) (hm : m &&& 75264 = 75264) (h : Only m x₀ s) :
    Only m x₀ (State.receiveBulk a0 a1 s) := by
  dsimp only [State.receiveBulk]
  repeat' first
      | with_reducible assumption | exact fun _ => ⟨rfl, rfl⟩ | exact fun _ => rfl
      | exact fun _ => ⟨rfl, rfl, rfl, rfl, rfl⟩ | intro _ | with_reducible apply Only.ite
      | with_reducible apply Only.fst_ite | with_reducible apply Only.snd_ite | with_reducible apply Only.raise
      | with_reducible apply Only.refuseSensor | with_reducible apply Only.refuseBulk
      | with_reducible apply Only.setAsm | with_reducible apply Only.actOn | with_reducible apply Only.bulkAct
      | exact Part.sub hm rfl | rfl | exact ⟨rfl, rfl⟩ | exact ⟨rfl, rfl, rfl, rfl, rfl⟩ | split

theorem Only.execBulkSegmentReceived (a0 : ℕ) (a1 : List Byte) (a2 : List Byte) (hm : m &&& 75265 = 75265)
    (h : Only m x₀ s) :
    ∀ u, (execBulkSegmentReceived a0 a1 a2 s) = .next u → Only m x₀ u := by
  intro u e
  obtain rfl := Host.Outcome.next.inj e
  repeat' first
      | with_reducible assumption | exact fun _ => ⟨rfl, rfl⟩ | exact fun _ => rfl
      | exact fun _ => ⟨rfl, rfl, rfl, rfl, rfl⟩ | intro _ | with_reducible apply Only.receiveBulk
      | with_reducible apply Only.tick | exact Part.sub hm rfl

end Sys2Proof.Machine
end

