-- ==== Sys2Proof/Laws/OnlyBackbone.lean ====
section
/-! SUPPORT. What Backbone.lean keeps (Laws/Only.lean). -/

namespace Sys2Proof.Machine

variable {m : Nat} {x₀ s : State}

theorem Only.frameIn (a0 : ℕ) (a1 : EthFrame) (hm : m &&& 67584 = 67584) (h : Only m x₀ s) :
    Only m x₀ (State.frameIn a0 a1 s) := by
  dsimp only [State.frameIn]
  repeat' first
      | with_reducible assumption | exact fun _ => ⟨rfl, rfl⟩ | exact fun _ => rfl
      | exact fun _ => ⟨rfl, rfl, rfl, rfl, rfl⟩ | intro _ | with_reducible apply Only.ite
      | with_reducible apply Only.fst_ite | with_reducible apply Only.snd_ite | with_reducible apply Only.forward
      | with_reducible apply Only.onPort | exact Part.sub hm rfl

theorem Only.deliverSafe (a0 : EthFrame) (hm : m &&& 75264 = 75264) (h : Only m x₀ s) :
    Only m x₀ (State.deliverSafe a0 s) := by
  dsimp only [State.deliverSafe]
  repeat' first
      | with_reducible assumption | exact fun _ => ⟨rfl, rfl⟩ | exact fun _ => rfl
      | exact fun _ => ⟨rfl, rfl, rfl, rfl, rfl⟩ | intro _ | with_reducible apply Only.ite
      | with_reducible apply Only.fst_ite | with_reducible apply Only.snd_ite | with_reducible apply Only.receiveBulk
      | with_reducible apply Only.receiveData | exact Part.sub hm rfl

theorem Only.frameReceive (a0 : ℕ) (a1 : EthFrame) (hm : m &&& 77312 = 77312) (h : Only m x₀ s) :
    Only m x₀ (State.frameReceive a0 a1 s) := by
  dsimp only [State.frameReceive]
  repeat' first
      | with_reducible assumption | exact fun _ => ⟨rfl, rfl⟩ | exact fun _ => rfl
      | exact fun _ => ⟨rfl, rfl, rfl, rfl, rfl⟩ | intro _ | with_reducible apply Only.forL
      | with_reducible apply Only.forL_fst | with_reducible apply Only.frameIn | with_reducible apply Only.deliverSafe
      | exact Part.sub hm rfl

theorem Only.execFrameReceive (a0 : ℕ) (a1 : Fin 7) (a2 : EthFrame) (hm : m &&& 77313 = 77313) (h : Only m x₀ s) :
    ∀ u, (execFrameReceive a0 a1 a2 s) = .next u → Only m x₀ u := by
  intro u e
  obtain rfl := Host.Outcome.next.inj e
  repeat' first
      | with_reducible assumption | exact fun _ => ⟨rfl, rfl⟩ | exact fun _ => rfl
      | exact fun _ => ⟨rfl, rfl, rfl, rfl, rfl⟩ | intro _ | with_reducible apply Only.frameReceive
      | with_reducible apply Only.tick | exact Part.sub hm rfl

theorem Only.linkUp (a0 : ℕ) (a1 : ℕ) (a2 : Bool) (hm : m &&& 2048 = 2048) (h : Only m x₀ s) :
    Only m x₀ (State.linkUp a0 a1 a2 s) := by
  dsimp only [State.linkUp]
  repeat' first
      | with_reducible assumption | exact fun _ => ⟨rfl, rfl⟩ | exact fun _ => rfl
      | exact fun _ => ⟨rfl, rfl, rfl, rfl, rfl⟩ | intro _ | with_reducible apply Only.ite
      | with_reducible apply Only.fst_ite | with_reducible apply Only.snd_ite | with_reducible apply Only.drainPort
      | with_reducible apply Only.onPort

theorem Only.execLinkUp (a0 : ℕ) (a1 : Fin 6) (a2 : ℕ) (a3 : Bool) (hm : m &&& 2049 = 2049) (h : Only m x₀ s) :
    ∀ u, (execLinkUp a0 a1 a2 a3 s) = .next u → Only m x₀ u := by
  intro u e
  obtain rfl := Host.Outcome.next.inj e
  repeat' first
      | with_reducible assumption | exact fun _ => ⟨rfl, rfl⟩ | exact fun _ => rfl
      | exact fun _ => ⟨rfl, rfl, rfl, rfl, rfl⟩ | intro _ | with_reducible apply Only.linkUp
      | with_reducible apply Only.tick | exact Part.sub hm rfl

theorem Only.fdbAge (a0 : ℕ) (a1 : BitVec 48) (hm : m &&& 2048 = 2048) (h : Only m x₀ s) :
    Only m x₀ (State.fdbAge a0 a1 s) := by
  dsimp only [State.fdbAge]
  repeat' first
      | with_reducible assumption | exact fun _ => ⟨rfl, rfl⟩ | exact fun _ => rfl
      | exact fun _ => ⟨rfl, rfl, rfl, rfl, rfl⟩ | intro _ | with_reducible apply Only.onNet

theorem Only.execFdbAgeing (a0 : ℕ) (a1 : ℕ) (a2 : BitVec 48) (hm : m &&& 2049 = 2049) (h : Only m x₀ s) :
    ∀ u, (execFdbAgeing a0 a1 a2 s) = .next u → Only m x₀ u := by
  intro u e
  obtain rfl := Host.Outcome.next.inj e
  repeat' first
      | with_reducible assumption | exact fun _ => ⟨rfl, rfl⟩ | exact fun _ => rfl
      | exact fun _ => ⟨rfl, rfl, rfl, rfl, rfl⟩ | intro _ | with_reducible apply Only.fdbAge
      | with_reducible apply Only.tick | exact Part.sub hm rfl

theorem Only.gateMove (a0 : ℕ) (hm : m &&& 2048 = 2048) (h : Only m x₀ s) :
    Only m x₀ (State.gateMove a0 s) := by
  dsimp only [State.gateMove]
  repeat' first
      | with_reducible assumption | exact fun _ => ⟨rfl, rfl⟩ | exact fun _ => rfl
      | exact fun _ => ⟨rfl, rfl, rfl, rfl, rfl⟩ | intro _ | with_reducible apply Only.ite
      | with_reducible apply Only.fst_ite | with_reducible apply Only.snd_ite | with_reducible apply Only.drainPort
      | with_reducible apply Only.onPort

theorem Only.execGateEntryChange (a0 : ℕ) (a1 : Fin 6) (hm : m &&& 2049 = 2049) (h : Only m x₀ s) :
    ∀ u, (execGateEntryChange a0 a1 s) = .next u → Only m x₀ u := by
  intro u e
  obtain rfl := Host.Outcome.next.inj e
  repeat' first
      | with_reducible assumption | exact fun _ => ⟨rfl, rfl⟩ | exact fun _ => rfl
      | exact fun _ => ⟨rfl, rfl, rfl, rfl, rfl⟩ | intro _ | with_reducible apply Only.gateMove
      | with_reducible apply Only.tick | exact Part.sub hm rfl

theorem Only.streamGateMove (a0 : ℕ) (hm : m &&& 2048 = 2048) (h : Only m x₀ s) :
    Only m x₀ (State.streamGateMove a0 s) := by
  dsimp only [State.streamGateMove]
  repeat' first
      | with_reducible assumption | exact fun _ => ⟨rfl, rfl⟩ | exact fun _ => rfl
      | exact fun _ => ⟨rfl, rfl, rfl, rfl, rfl⟩ | intro _ | with_reducible apply Only.ite
      | with_reducible apply Only.fst_ite | with_reducible apply Only.snd_ite | with_reducible apply Only.onNet

theorem Only.execStreamGateChange (a0 : ℕ) (a1 : Fin 64) (hm : m &&& 2049 = 2049) (h : Only m x₀ s) :
    ∀ u, (execStreamGateChange a0 a1 s) = .next u → Only m x₀ u := by
  intro u e
  obtain rfl := Host.Outcome.next.inj e
  repeat' first
      | with_reducible assumption | exact fun _ => ⟨rfl, rfl⟩ | exact fun _ => rfl
      | exact fun _ => ⟨rfl, rfl, rfl, rfl, rfl⟩ | intro _ | with_reducible apply Only.streamGateMove
      | with_reducible apply Only.tick | exact Part.sub hm rfl

theorem Only.gatesOpen (hm : m &&& 2048 = 2048) (h : Only m x₀ s) :
    Only m x₀ (State.gatesOpen s) := by
  dsimp only [State.gatesOpen]
  repeat' first
      | with_reducible assumption | exact fun _ => ⟨rfl, rfl⟩ | exact fun _ => rfl
      | exact fun _ => ⟨rfl, rfl, rfl, rfl, rfl⟩ | intro _ | with_reducible apply Only.forN
      | with_reducible apply Only.streamGateMove | with_reducible apply Only.gateMove

theorem Only.cbSilent (a0 : ℕ) (a1 : ℕ) (hm : m &&& 65536 = 65536) (h : Only m x₀ s) :
    Only m x₀ (State.cbSilent a0 a1 s) := by
  dsimp only [State.cbSilent]
  repeat' first
      | with_reducible assumption | exact fun _ => ⟨rfl, rfl⟩ | exact fun _ => rfl
      | exact fun _ => ⟨rfl, rfl, rfl, rfl, rfl⟩ | intro _ | with_reducible apply Only.ite
      | with_reducible apply Only.fst_ite | with_reducible apply Only.snd_ite | with_reducible apply Only.raise

theorem Only.execCbResetTimeout (a0 : ℕ) (a1 : Fin 256) (a2 : ℕ) (hm : m &&& 65537 = 65537) (h : Only m x₀ s) :
    ∀ u, (execCbResetTimeout a0 a1 a2 s) = .next u → Only m x₀ u := by
  intro u e
  obtain rfl := Host.Outcome.next.inj e
  repeat' first
      | with_reducible assumption | exact fun _ => ⟨rfl, rfl⟩ | exact fun _ => rfl
      | exact fun _ => ⟨rfl, rfl, rfl, rfl, rfl⟩ | intro _ | with_reducible apply Only.cbSilent
      | with_reducible apply Only.tick | exact Part.sub hm rfl

theorem Only.execLaneErrorRateHigh (a0 : ℕ) (a1 : Fin 6) (hm : m &&& 65537 = 65537) (h : Only m x₀ s) :
    ∀ u, (execLaneErrorRateHigh a0 a1 s) = .next u → Only m x₀ u := by
  intro u e
  obtain rfl := Host.Outcome.next.inj e
  repeat' first
      | with_reducible assumption | exact fun _ => ⟨rfl, rfl⟩ | exact fun _ => rfl
      | exact fun _ => ⟨rfl, rfl, rfl, rfl, rfl⟩ | intro _ | with_reducible apply Only.raise
      | with_reducible apply Only.tick | exact Part.sub hm rfl

theorem Only.arpAnswer (a0 : BitVec 32) (a1 : BitVec 48) (a2 : BitVec 32) (hm : m &&& 67584 = 67584)
    (h : Only m x₀ s) :
    Only m x₀ (State.arpAnswer a0 a1 a2 s) := by
  dsimp only [State.arpAnswer]
  repeat' first
      | with_reducible assumption | exact fun _ => ⟨rfl, rfl⟩ | exact fun _ => rfl
      | exact fun _ => ⟨rfl, rfl, rfl, rfl, rfl⟩ | intro _ | with_reducible apply Only.ite
      | with_reducible apply Only.fst_ite | with_reducible apply Only.snd_ite | with_reducible apply Only.handPort6

theorem Only.execArpRequest (a0 : ℕ) (a1 : BitVec 32) (a2 : BitVec 48) (a3 : BitVec 32) (hm : m &&& 67585 = 67585)
    (h : Only m x₀ s) :
    ∀ u, (execArpRequest a0 a1 a2 a3 s) = .next u → Only m x₀ u := by
  intro u e
  obtain rfl := Host.Outcome.next.inj e
  repeat' first
      | with_reducible assumption | exact fun _ => ⟨rfl, rfl⟩ | exact fun _ => rfl
      | exact fun _ => ⟨rfl, rfl, rfl, rfl, rfl⟩ | intro _ | with_reducible apply Only.arpAnswer
      | with_reducible apply Only.tick | exact Part.sub hm rfl

theorem Only.neighbourAnswer (a0 : BitVec 128) (a1 : BitVec 48) (a2 : BitVec 128) (hm : m &&& 67584 = 67584)
    (h : Only m x₀ s) :
    Only m x₀ (State.neighbourAnswer a0 a1 a2 s) := by
  dsimp only [State.neighbourAnswer]
  repeat' first
      | with_reducible assumption | exact fun _ => ⟨rfl, rfl⟩ | exact fun _ => rfl
      | exact fun _ => ⟨rfl, rfl, rfl, rfl, rfl⟩ | intro _ | with_reducible apply Only.ite
      | with_reducible apply Only.fst_ite | with_reducible apply Only.snd_ite | with_reducible apply Only.handPort6

theorem Only.execNeighbourSolicitation (a0 : ℕ) (a1 : BitVec 128) (a2 : BitVec 48) (a3 : BitVec 128)
    (hm : m &&& 67585 = 67585) (h : Only m x₀ s) :
    ∀ u, (execNeighbourSolicitation a0 a1 a2 a3 s) = .next u → Only m x₀ u := by
  intro u e
  obtain rfl := Host.Outcome.next.inj e
  repeat' first
      | with_reducible assumption | exact fun _ => ⟨rfl, rfl⟩ | exact fun _ => rfl
      | exact fun _ => ⟨rfl, rfl, rfl, rfl, rfl⟩ | intro _ | with_reducible apply Only.neighbourAnswer
      | with_reducible apply Only.tick | exact Part.sub hm rfl

theorem Only.echoAnswer (a0 : Ip) (a1 : Ip) (a2 : List Byte) (hm : m &&& 67584 = 67584) (h : Only m x₀ s) :
    Only m x₀ (State.echoAnswer a0 a1 a2 s) := by
  dsimp only [State.echoAnswer]
  repeat' first
      | with_reducible assumption | exact fun _ => ⟨rfl, rfl⟩ | exact fun _ => rfl
      | exact fun _ => ⟨rfl, rfl, rfl, rfl, rfl⟩ | intro _ | with_reducible apply Only.ite
      | with_reducible apply Only.fst_ite | with_reducible apply Only.snd_ite | with_reducible apply Only.handPort6
      | exact Part.sub hm rfl | rfl | exact ⟨rfl, rfl⟩ | exact ⟨rfl, rfl, rfl, rfl, rfl⟩ | split

theorem Only.execIcmpEchoRequest (a0 : ℕ) (a1 : Ip) (a2 : Ip) (a3 : List Byte) (hm : m &&& 67585 = 67585)
    (h : Only m x₀ s) :
    ∀ u, (execIcmpEchoRequest a0 a1 a2 a3 s) = .next u → Only m x₀ u := by
  intro u e
  obtain rfl := Host.Outcome.next.inj e
  repeat' first
      | with_reducible assumption | exact fun _ => ⟨rfl, rfl⟩ | exact fun _ => rfl
      | exact fun _ => ⟨rfl, rfl, rfl, rfl, rfl⟩ | intro _ | with_reducible apply Only.echoAnswer
      | with_reducible apply Only.tick | exact Part.sub hm rfl

theorem Only.newGm (a0 : BitVec 64) (a1 : ℕ) (hm : m &&& 69632 = 69632) (h : Only m x₀ s) :
    Only m x₀ (State.newGm a0 a1 s) := by
  dsimp only [State.newGm]
  repeat' first
      | with_reducible assumption | exact fun _ => ⟨rfl, rfl⟩ | exact fun _ => rfl
      | exact fun _ => ⟨rfl, rfl, rfl, rfl, rfl⟩ | intro _ | with_reducible apply Only.ite
      | with_reducible apply Only.fst_ite | with_reducible apply Only.snd_ite | with_reducible apply Only.raise
      | with_reducible apply Only.onTsy | exact Part.sub hm rfl

theorem Only.selectGm (a0 : Option Announce) (a1 : ℕ) (hm : m &&& 69632 = 69632) (h : Only m x₀ s) :
    Only m x₀ (State.selectGm a0 a1 s) := by
  dsimp only [State.selectGm]
  repeat' first
      | with_reducible assumption | exact fun _ => ⟨rfl, rfl⟩ | exact fun _ => rfl
      | exact fun _ => ⟨rfl, rfl, rfl, rfl, rfl⟩ | intro _ | with_reducible apply Only.ite
      | with_reducible apply Only.fst_ite | with_reducible apply Only.snd_ite | with_reducible apply Only.onTsy
      | with_reducible apply Only.newGm | exact Part.sub hm rfl

theorem Only.bmca (hm : m &&& 69632 = 69632) (h : Only m x₀ s) :
    Only m x₀ (State.bmca s) := by
  dsimp only [State.bmca]
  repeat' first
      | with_reducible assumption | exact fun _ => ⟨rfl, rfl⟩ | exact fun _ => rfl
      | exact fun _ => ⟨rfl, rfl, rfl, rfl, rfl⟩ | intro _ | with_reducible apply Only.ite
      | with_reducible apply Only.fst_ite | with_reducible apply Only.snd_ite | with_reducible apply Only.selectGm
      | exact Part.sub hm rfl | rfl | exact ⟨rfl, rfl⟩ | exact ⟨rfl, rfl, rfl, rfl, rfl⟩ | split

theorem Only.takeRole (hm : m &&& 69632 = 69632) (h : Only m x₀ s) :
    Only m x₀ (State.takeRole s) := by
  dsimp only [State.takeRole]
  repeat' first
      | with_reducible assumption | exact fun _ => ⟨rfl, rfl⟩ | exact fun _ => rfl
      | exact fun _ => ⟨rfl, rfl, rfl, rfl, rfl⟩ | intro _ | with_reducible apply Only.selectGm
      | with_reducible apply Only.onTsy | with_reducible apply Only.newGm | exact Part.sub hm rfl | rfl
      | exact ⟨rfl, rfl⟩ | exact ⟨rfl, rfl, rfl, rfl, rfl⟩ | split

theorem Only.firstRole (hm : m &&& 4096 = 4096) (h : Only m x₀ s) :
    Only m x₀ (State.firstRole s) := by
  dsimp only [State.firstRole]
  repeat' first
      | with_reducible assumption | exact fun _ => ⟨rfl, rfl⟩ | exact fun _ => rfl
      | exact fun _ => ⟨rfl, rfl, rfl, rfl, rfl⟩ | intro _ | with_reducible apply Only.ite
      | with_reducible apply Only.fst_ite | with_reducible apply Only.snd_ite | with_reducible apply Only.onTsy

theorem Only.announce (a0 : ℕ) (a1 : Announce) (hm : m &&& 71680 = 71680) (h : Only m x₀ s) :
    Only m x₀ (State.announce a0 a1 s) := by
  dsimp only [State.announce]
  repeat' first
      | with_reducible assumption | exact fun _ => ⟨rfl, rfl⟩ | exact fun _ => rfl
      | exact fun _ => ⟨rfl, rfl, rfl, rfl, rfl⟩ | intro _ | with_reducible apply Only.ite
      | with_reducible apply Only.fst_ite | with_reducible apply Only.snd_ite | with_reducible apply Only.raise
      | with_reducible apply Only.onTsy | with_reducible apply Only.bmca | with_reducible apply Only.onPort
      | with_reducible apply Only.newGm | exact Part.sub hm rfl | rfl | exact ⟨rfl, rfl⟩
      | exact ⟨rfl, rfl, rfl, rfl, rfl⟩ | split

theorem Only.execAnnounceReceived (a0 : ℕ) (a1 : Fin 6) (a2 : Announce) (hm : m &&& 71681 = 71681) (h : Only m x₀ s) :
    ∀ u, (execAnnounceReceived a0 a1 a2 s) = .next u → Only m x₀ u := by
  intro u e
  obtain rfl := Host.Outcome.next.inj e
  repeat' first
      | with_reducible assumption | exact fun _ => ⟨rfl, rfl⟩ | exact fun _ => rfl
      | exact fun _ => ⟨rfl, rfl, rfl, rfl, rfl⟩ | intro _ | with_reducible apply Only.announce
      | with_reducible apply Only.tick | exact Part.sub hm rfl

theorem Only.ptp (a0 : ℕ) (a1 : Byte) (a2 : List Byte) (hm : m &&& 2048 = 2048) (h : Only m x₀ s) :
    Only m x₀ (State.ptp a0 a1 a2 s) := by
  dsimp only [State.ptp]
  repeat' first
      | with_reducible assumption | exact fun _ => ⟨rfl, rfl⟩ | exact fun _ => rfl
      | exact fun _ => ⟨rfl, rfl, rfl, rfl, rfl⟩ | intro _ | with_reducible apply Only.sendOn

theorem Only.linkDown (a0 : ℕ) (hm : m &&& 71680 = 71680) (h : Only m x₀ s) :
    Only m x₀ (State.linkDown a0 s) := by
  dsimp only [State.linkDown]
  repeat' first
      | with_reducible assumption | exact fun _ => ⟨rfl, rfl⟩ | exact fun _ => rfl
      | exact fun _ => ⟨rfl, rfl, rfl, rfl, rfl⟩ | intro _ | with_reducible apply Only.ite
      | with_reducible apply Only.fst_ite | with_reducible apply Only.snd_ite | with_reducible apply Only.onPort
      | with_reducible apply Only.bmca | with_reducible apply Only.raise | exact Part.sub hm rfl

theorem Only.execLinkDown (a0 : ℕ) (a1 : Fin 6) (hm : m &&& 71681 = 71681) (h : Only m x₀ s) :
    ∀ u, (execLinkDown a0 a1 s) = .next u → Only m x₀ u := by
  intro u e
  obtain rfl := Host.Outcome.next.inj e
  repeat' first
      | with_reducible assumption | exact fun _ => ⟨rfl, rfl⟩ | exact fun _ => rfl
      | exact fun _ => ⟨rfl, rfl, rfl, rfl, rfl⟩ | intro _ | with_reducible apply Only.linkDown
      | with_reducible apply Only.tick | exact Part.sub hm rfl

theorem Only.portRestart (a0 : ℕ) (hm : m &&& 71680 = 71680) (h : Only m x₀ s) :
    Only m x₀ (State.portRestart a0 s) := by
  dsimp only [State.portRestart]
  repeat' first
      | with_reducible assumption | exact fun _ => ⟨rfl, rfl⟩ | exact fun _ => rfl
      | exact fun _ => ⟨rfl, rfl, rfl, rfl, rfl⟩ | intro _ | with_reducible apply Only.ite
      | with_reducible apply Only.fst_ite | with_reducible apply Only.snd_ite | with_reducible apply Only.linkDown

theorem Only.netRestart (a0 : Blocks) (hm : m &&& 71680 = 71680) (h : Only m x₀ s) :
    Only m x₀ (State.netRestart a0 s) := by
  dsimp only [State.netRestart]
  repeat' first
      | with_reducible assumption | exact fun _ => ⟨rfl, rfl⟩ | exact fun _ => rfl
      | exact fun _ => ⟨rfl, rfl, rfl, rfl, rfl⟩ | intro _ | with_reducible apply Only.ite
      | with_reducible apply Only.fst_ite | with_reducible apply Only.snd_ite | with_reducible apply Only.forN
      | with_reducible apply Only.portRestart | with_reducible apply Only.takeRole | exact Part.sub hm rfl

theorem Only.pdelayReq (a0 : ℕ) (a1 : ℕ) (hm : m &&& 2048 = 2048) (h : Only m x₀ s) :
    Only m x₀ (State.pdelayReq a0 a1 s) := by
  dsimp only [State.pdelayReq]
  repeat' first
      | with_reducible assumption | exact fun _ => ⟨rfl, rfl⟩ | exact fun _ => rfl
      | exact fun _ => ⟨rfl, rfl, rfl, rfl, rfl⟩ | intro _ | with_reducible apply Only.ite
      | with_reducible apply Only.fst_ite | with_reducible apply Only.snd_ite | with_reducible apply Only.ptp

theorem Only.execPdelayReqReceived (a0 : ℕ) (a1 : Fin 6) (a2 : ℕ) (hm : m &&& 2049 = 2049) (h : Only m x₀ s) :
    ∀ u, (execPdelayReqReceived a0 a1 a2 s) = .next u → Only m x₀ u := by
  intro u e
  obtain rfl := Host.Outcome.next.inj e
  repeat' first
      | with_reducible assumption | exact fun _ => ⟨rfl, rfl⟩ | exact fun _ => rfl
      | exact fun _ => ⟨rfl, rfl, rfl, rfl, rfl⟩ | intro _ | with_reducible apply Only.pdelayReq
      | with_reducible apply Only.tick | exact Part.sub hm rfl

theorem Only.pdelayResp (a0 : ℕ) (a1 : ℕ) (a2 : ℕ) (a3 : ℕ) (a4 : ℕ) (hm : m &&& 71680 = 71680) (h : Only m x₀ s) :
    Only m x₀ (State.pdelayResp a0 a1 a2 a3 a4 s) := by
  dsimp only [State.pdelayResp]
  repeat' first
      | with_reducible assumption | exact fun _ => ⟨rfl, rfl⟩ | exact fun _ => rfl
      | exact fun _ => ⟨rfl, rfl, rfl, rfl, rfl⟩ | intro _ | with_reducible apply Only.ite
      | with_reducible apply Only.fst_ite | with_reducible apply Only.snd_ite | with_reducible apply Only.onPort
      | with_reducible apply Only.bmca | exact Part.sub hm rfl

theorem Only.execPdelayRespReceived (a0 : ℕ) (a1 : Fin 6) (a2 : ℕ) (a3 : ℕ) (a4 : ℕ) (a5 : ℕ)
    (hm : m &&& 71681 = 71681) (h : Only m x₀ s) :
    ∀ u, (execPdelayRespReceived a0 a1 a2 a3 a4 a5 s) = .next u → Only m x₀ u := by
  intro u e
  obtain rfl := Host.Outcome.next.inj e
  repeat' first
      | with_reducible assumption | exact fun _ => ⟨rfl, rfl⟩ | exact fun _ => rfl
      | exact fun _ => ⟨rfl, rfl, rfl, rfl, rfl⟩ | intro _ | with_reducible apply Only.pdelayResp
      | with_reducible apply Only.tick | exact Part.sub hm rfl

theorem Only.syncSend (a0 : ℕ) (hm : m &&& 2048 = 2048) (h : Only m x₀ s) :
    Only m x₀ (State.syncSend a0 s) := by
  dsimp only [State.syncSend]
  repeat' first
      | with_reducible assumption | exact fun _ => ⟨rfl, rfl⟩ | exact fun _ => rfl
      | exact fun _ => ⟨rfl, rfl, rfl, rfl, rfl⟩ | intro _ | with_reducible apply Only.ite
      | with_reducible apply Only.fst_ite | with_reducible apply Only.snd_ite | with_reducible apply Only.ptp

theorem Only.execSyncInterval (a0 : ℕ) (a1 : Fin 6) (hm : m &&& 2049 = 2049) (h : Only m x₀ s) :
    ∀ u, (execSyncInterval a0 a1 s) = .next u → Only m x₀ u := by
  intro u e
  obtain rfl := Host.Outcome.next.inj e
  repeat' first
      | with_reducible assumption | exact fun _ => ⟨rfl, rfl⟩ | exact fun _ => rfl
      | exact fun _ => ⟨rfl, rfl, rfl, rfl, rfl⟩ | intro _ | with_reducible apply Only.syncSend
      | with_reducible apply Only.tick | exact Part.sub hm rfl

theorem Only.execPdelayInterval (a0 : ℕ) (a1 : Fin 6) (hm : m &&& 2049 = 2049) (h : Only m x₀ s) :
    ∀ u, (execPdelayInterval a0 a1 s) = .next u → Only m x₀ u := by
  intro u e
  obtain rfl := Host.Outcome.next.inj e
  repeat' first
      | with_reducible assumption | exact fun _ => ⟨rfl, rfl⟩ | exact fun _ => rfl
      | exact fun _ => ⟨rfl, rfl, rfl, rfl, rfl⟩ | intro _ | with_reducible apply Only.ite
      | with_reducible apply Only.fst_ite | with_reducible apply Only.snd_ite | with_reducible apply Only.tick
      | with_reducible apply Only.ptp | exact Part.sub hm rfl

theorem Only.announceSend (a0 : ℕ) (hm : m &&& 2048 = 2048) (h : Only m x₀ s) :
    Only m x₀ (State.announceSend a0 s) := by
  dsimp only [State.announceSend]
  repeat' first
      | with_reducible assumption | exact fun _ => ⟨rfl, rfl⟩ | exact fun _ => rfl
      | exact fun _ => ⟨rfl, rfl, rfl, rfl, rfl⟩ | intro _ | with_reducible apply Only.ite
      | with_reducible apply Only.fst_ite | with_reducible apply Only.snd_ite | with_reducible apply Only.ptp

theorem Only.execAnnounceInterval (a0 : ℕ) (a1 : Fin 6) (hm : m &&& 2049 = 2049) (h : Only m x₀ s) :
    ∀ u, (execAnnounceInterval a0 a1 s) = .next u → Only m x₀ u := by
  intro u e
  obtain rfl := Host.Outcome.next.inj e
  repeat' first
      | with_reducible assumption | exact fun _ => ⟨rfl, rfl⟩ | exact fun _ => rfl
      | exact fun _ => ⟨rfl, rfl, rfl, rfl, rfl⟩ | intro _ | with_reducible apply Only.announceSend
      | with_reducible apply Only.tick | exact Part.sub hm rfl

theorem Only.sync (a0 : ℕ) (a1 : ℕ) (hm : m &&& 71680 = 71680) (h : Only m x₀ s) :
    Only m x₀ (State.sync a0 a1 s) := by
  dsimp only [State.sync]
  repeat' first
      | with_reducible assumption | exact fun _ => ⟨rfl, rfl⟩ | exact fun _ => rfl
      | exact fun _ => ⟨rfl, rfl, rfl, rfl, rfl⟩ | intro _ | with_reducible apply Only.ite
      | with_reducible apply Only.fst_ite | with_reducible apply Only.snd_ite | with_reducible apply Only.onTsy
      | with_reducible apply Only.onNet | with_reducible apply Only.raise | exact Part.sub hm rfl

theorem Only.execSyncReceived (a0 : ℕ) (a1 : Fin 6) (a2 : ℕ) (hm : m &&& 71681 = 71681) (h : Only m x₀ s) :
    ∀ u, (execSyncReceived a0 a1 a2 s) = .next u → Only m x₀ u := by
  intro u e
  obtain rfl := Host.Outcome.next.inj e
  repeat' first
      | with_reducible assumption | exact fun _ => ⟨rfl, rfl⟩ | exact fun _ => rfl
      | exact fun _ => ⟨rfl, rfl, rfl, rfl, rfl⟩ | intro _ | with_reducible apply Only.sync
      | with_reducible apply Only.tick | exact Part.sub hm rfl

theorem Only.syncLost (hm : m &&& 69632 = 69632) (h : Only m x₀ s) :
    Only m x₀ (State.syncLost s) := by
  dsimp only [State.syncLost]
  repeat' first
      | with_reducible assumption | exact fun _ => ⟨rfl, rfl⟩ | exact fun _ => rfl
      | exact fun _ => ⟨rfl, rfl, rfl, rfl, rfl⟩ | intro _ | with_reducible apply Only.ite
      | with_reducible apply Only.fst_ite | with_reducible apply Only.snd_ite | with_reducible apply Only.raise
      | with_reducible apply Only.onTsy | exact Part.sub hm rfl

theorem Only.execSyncReceiptTimeout (a0 : ℕ) (hm : m &&& 69633 = 69633) (h : Only m x₀ s) :
    ∀ u, (execSyncReceiptTimeout a0 s) = .next u → Only m x₀ u := by
  intro u e
  obtain rfl := Host.Outcome.next.inj e
  repeat' first
      | with_reducible assumption | exact fun _ => ⟨rfl, rfl⟩ | exact fun _ => rfl
      | exact fun _ => ⟨rfl, rfl, rfl, rfl, rfl⟩ | intro _ | with_reducible apply Only.syncLost
      | with_reducible apply Only.tick | exact Part.sub hm rfl

theorem Only.cellLost (hm : m &&& 6144 = 6144) (h : Only m x₀ s) :
    Only m x₀ (State.cellLost s) := by
  dsimp only [State.cellLost]
  repeat' first
      | with_reducible assumption | exact fun _ => ⟨rfl, rfl⟩ | exact fun _ => rfl
      | exact fun _ => ⟨rfl, rfl, rfl, rfl, rfl⟩ | intro _ | with_reducible apply Only.gatesOpen
      | with_reducible apply Only.onTsy | exact Part.sub hm rfl

theorem Only.holdoverEnd (hm : m &&& 71680 = 71680) (h : Only m x₀ s) :
    Only m x₀ (State.holdoverEnd s) := by
  dsimp only [State.holdoverEnd]
  repeat' first
      | with_reducible assumption | exact fun _ => ⟨rfl, rfl⟩ | exact fun _ => rfl
      | exact fun _ => ⟨rfl, rfl, rfl, rfl, rfl⟩ | intro _ | with_reducible apply Only.ite
      | with_reducible apply Only.fst_ite | with_reducible apply Only.snd_ite | with_reducible apply Only.bmca
      | with_reducible apply Only.onPort | with_reducible apply Only.cellLost | exact Part.sub hm rfl | rfl
      | exact ⟨rfl, rfl⟩ | exact ⟨rfl, rfl, rfl, rfl, rfl⟩ | split

theorem Only.execHoldoverTimeout (a0 : ℕ) (hm : m &&& 71681 = 71681) (h : Only m x₀ s) :
    ∀ u, (execHoldoverTimeout a0 s) = .next u → Only m x₀ u := by
  intro u e
  obtain rfl := Host.Outcome.next.inj e
  repeat' first
      | with_reducible assumption | exact fun _ => ⟨rfl, rfl⟩ | exact fun _ => rfl
      | exact fun _ => ⟨rfl, rfl, rfl, rfl, rfl⟩ | intro _ | with_reducible apply Only.holdoverEnd
      | with_reducible apply Only.tick | exact Part.sub hm rfl

theorem Only.startCell (a0 : ℕ) (hm : m &&& 6144 = 6144) (h : Only m x₀ s) :
    Only m x₀ (State.startCell a0 s) := by
  dsimp only [State.startCell]
  repeat' first
      | with_reducible assumption | exact fun _ => ⟨rfl, rfl⟩ | exact fun _ => rfl
      | exact fun _ => ⟨rfl, rfl, rfl, rfl, rfl⟩ | intro _ | with_reducible apply Only.onNet
      | with_reducible apply Only.onTsy | exact Part.sub hm rfl

theorem Only.startAtFloor (hm : m &&& 71680 = 71680) (h : Only m x₀ s) :
    Only m x₀ (State.startAtFloor s) := by
  dsimp only [State.startAtFloor]
  repeat' first
      | with_reducible assumption | exact fun _ => ⟨rfl, rfl⟩ | exact fun _ => rfl
      | exact fun _ => ⟨rfl, rfl, rfl, rfl, rfl⟩ | intro _ | with_reducible apply Only.raise
      | with_reducible apply Only.onTsy | with_reducible apply Only.startCell | exact Part.sub hm rfl

theorem Only.tInitExpire (hm : m &&& 71680 = 71680) (h : Only m x₀ s) :
    Only m x₀ (State.tInitExpire s) := by
  dsimp only [State.tInitExpire]
  repeat' first
      | with_reducible assumption | exact fun _ => ⟨rfl, rfl⟩ | exact fun _ => rfl
      | exact fun _ => ⟨rfl, rfl, rfl, rfl, rfl⟩ | intro _ | with_reducible apply Only.ite
      | with_reducible apply Only.fst_ite | with_reducible apply Only.snd_ite | with_reducible apply Only.onTsy
      | with_reducible apply Only.startAtFloor | exact Part.sub hm rfl

theorem Only.execTInitExpired (a0 : ℕ) (hm : m &&& 71681 = 71681) (h : Only m x₀ s) :
    ∀ u, (execTInitExpired a0 s) = .next u → Only m x₀ u := by
  intro u e
  obtain rfl := Host.Outcome.next.inj e
  repeat' first
      | with_reducible assumption | exact fun _ => ⟨rfl, rfl⟩ | exact fun _ => rfl
      | exact fun _ => ⟨rfl, rfl, rfl, rfl, rfl⟩ | intro _ | with_reducible apply Only.tInitExpire
      | with_reducible apply Only.tick | exact Part.sub hm rfl

theorem Only.overFloor (hm : m &&& 69632 = 69632) (h : Only m x₀ s) :
    Only m x₀ (State.overFloor s) := by
  dsimp only [State.overFloor]
  repeat' first
      | with_reducible assumption | exact fun _ => ⟨rfl, rfl⟩ | exact fun _ => rfl
      | exact fun _ => ⟨rfl, rfl, rfl, rfl, rfl⟩ | intro _ | with_reducible apply Only.ite
      | with_reducible apply Only.fst_ite | with_reducible apply Only.snd_ite | with_reducible apply Only.onTsy
      | with_reducible apply Only.onFcl_keep | exact Part.sub hm rfl

theorem Only.tsySetCmd (hm : m &&& 37951488 = 37951488) (h : Only m x₀ s) :
    Only m x₀ (State.tsySetCmd s).1 := by
  dsimp only [State.tsySetCmd]
  repeat' first
      | with_reducible assumption | exact fun _ => ⟨rfl, rfl⟩ | exact fun _ => rfl
      | exact fun _ => ⟨rfl, rfl, rfl, rfl, rfl⟩ | intro _ | with_reducible apply Only.ite
      | with_reducible apply Only.fst_ite | with_reducible apply Only.snd_ite | with_reducible apply Only.overFloor
      | with_reducible apply Only.startCell | with_reducible apply Only.record | exact Part.sub hm rfl

theorem Only.execTsySet (a0 : ℕ) (a1 : Reader) (a2 : BitVec 16) (hm : m &&& 37951491 = 37951491) (h : Only m x₀ s) :
    ∀ u, (execTsySet a0 a1 a2 s) = .next u → Only m x₀ u := by
  intro u e
  obtain rfl := Host.Outcome.next.inj e
  repeat' first
      | with_reducible assumption | exact fun _ => ⟨rfl, rfl⟩ | exact fun _ => rfl
      | exact fun _ => ⟨rfl, rfl, rfl, rfl, rfl⟩ | intro _ | with_reducible apply Only.wt
      | with_reducible apply Only.tsySetCmd | with_reducible apply Only.tick | exact Part.sub hm rfl

theorem Only.tsySlewCmd (hm : m &&& 4096 = 4096) (h : Only m x₀ s) :
    Only m x₀ (State.tsySlewCmd s).1 := by
  dsimp only [State.tsySlewCmd]
  repeat' first
      | with_reducible assumption | exact fun _ => ⟨rfl, rfl⟩ | exact fun _ => rfl
      | exact fun _ => ⟨rfl, rfl, rfl, rfl, rfl⟩ | intro _ | with_reducible apply Only.ite
      | with_reducible apply Only.fst_ite | with_reducible apply Only.snd_ite | with_reducible apply Only.onTsy

theorem Only.execTsySlew (a0 : ℕ) (a1 : Reader) (a2 : BitVec 16) (hm : m &&& 69635 = 69635) (h : Only m x₀ s) :
    ∀ u, (execTsySlew a0 a1 a2 s) = .next u → Only m x₀ u := by
  intro u e
  obtain rfl := Host.Outcome.next.inj e
  repeat' first
      | with_reducible assumption | exact fun _ => ⟨rfl, rfl⟩ | exact fun _ => rfl
      | exact fun _ => ⟨rfl, rfl, rfl, rfl, rfl⟩ | intro _ | with_reducible apply Only.wt
      | with_reducible apply Only.tsySlewCmd | with_reducible apply Only.tick | exact Part.sub hm rfl

theorem Only.tsyCancelCmd (hm : m &&& 4096 = 4096) (h : Only m x₀ s) :
    Only m x₀ (State.tsyCancelCmd s).1 := by
  dsimp only [State.tsyCancelCmd]
  repeat' first
      | with_reducible assumption | exact fun _ => ⟨rfl, rfl⟩ | exact fun _ => rfl
      | exact fun _ => ⟨rfl, rfl, rfl, rfl, rfl⟩ | intro _ | with_reducible apply Only.onTsy

theorem Only.execTsyCancelSlew (a0 : ℕ) (a1 : Reader) (a2 : BitVec 16) (hm : m &&& 69635 = 69635) (h : Only m x₀ s) :
    ∀ u, (execTsyCancelSlew a0 a1 a2 s) = .next u → Only m x₀ u := by
  intro u e
  obtain rfl := Host.Outcome.next.inj e
  repeat' first
      | with_reducible assumption | exact fun _ => ⟨rfl, rfl⟩ | exact fun _ => rfl
      | exact fun _ => ⟨rfl, rfl, rfl, rfl, rfl⟩ | intro _ | with_reducible apply Only.wt
      | with_reducible apply Only.tsyCancelCmd | with_reducible apply Only.tick | exact Part.sub hm rfl

theorem Only.applyStep (a0 : ℕ) (hm : m &&& 37959680 = 37959680) (h : Only m x₀ s) :
    Only m x₀ (State.applyStep a0 s) := by
  dsimp only [State.applyStep]
  repeat' first
      | with_reducible assumption | exact fun _ => ⟨rfl, rfl⟩ | exact fun _ => rfl
      | exact fun _ => ⟨rfl, rfl, rfl, rfl, rfl⟩ | intro _ | with_reducible apply Only.onTsy
      | with_reducible apply Only.recordWith | with_reducible apply Only.raise | with_reducible apply Only.onNet
      | with_reducible apply Only.onSfr | exact Part.sub hm rfl | rfl | exact ⟨rfl, rfl⟩
      | exact ⟨rfl, rfl, rfl, rfl, rfl⟩ | split

theorem Only.tsyCapture (a0 : ℕ) (a1 : ℕ) (a2 : ℕ) (a3 : ℕ) (hm : m &&& 37959680 = 37959680) (h : Only m x₀ s) :
    Only m x₀ (State.tsyCapture a0 a1 a2 a3 s) := by
  dsimp only [State.tsyCapture]
  repeat' first
      | with_reducible assumption | exact fun _ => ⟨rfl, rfl⟩ | exact fun _ => rfl
      | exact fun _ => ⟨rfl, rfl, rfl, rfl, rfl⟩ | intro _ | with_reducible apply Only.ite
      | with_reducible apply Only.fst_ite | with_reducible apply Only.snd_ite | with_reducible apply Only.raise
      | with_reducible apply Only.startAtFloor | with_reducible apply Only.applyStep | with_reducible apply Only.onTsy
      | exact Part.sub hm rfl

theorem Only.netCtrClear (a0 : Word) (hm : m &&& 2048 = 2048) (h : Only m x₀ s) :
    Only m x₀ (State.netCtrClear a0 s).1 := by
  dsimp only [State.netCtrClear]
  repeat' first
      | with_reducible assumption | exact fun _ => ⟨rfl, rfl⟩ | exact fun _ => rfl
      | exact fun _ => ⟨rfl, rfl, rfl, rfl, rfl⟩ | intro _ | with_reducible apply Only.ite
      | with_reducible apply Only.fst_ite | with_reducible apply Only.snd_ite | with_reducible apply Only.onNet

theorem Only.execNetCtrClear (a0 : ℕ) (a1 : Reader) (a2 : Word) (hm : m &&& 67587 = 67587) (h : Only m x₀ s) :
    ∀ u, (execNetCtrClear a0 a1 a2 s) = .next u → Only m x₀ u := by
  intro u e
  obtain rfl := Host.Outcome.next.inj e
  repeat' first
      | with_reducible assumption | exact fun _ => ⟨rfl, rfl⟩ | exact fun _ => rfl
      | exact fun _ => ⟨rfl, rfl, rfl, rfl, rfl⟩ | intro _ | with_reducible apply Only.wt
      | with_reducible apply Only.netCtrClear | with_reducible apply Only.tick | exact Part.sub hm rfl

theorem Only.cleared395 (hm : m &&& 2048 = 2048) (h : Only m x₀ s) :
    Only m x₀ (State.cleared395 s) := by
  dsimp only [State.cleared395]
  repeat' first
      | with_reducible assumption | exact fun _ => ⟨rfl, rfl⟩ | exact fun _ => rfl
      | exact fun _ => ⟨rfl, rfl, rfl, rfl, rfl⟩ | intro _ | with_reducible apply Only.onNet

end Sys2Proof.Machine
end

