-- ==== Sys2Proof/Laws/OnlyCheckValue.lean ====
section
/-! SUPPORT. What CheckValue.lean keeps (Laws/Only.lean). -/

namespace Sys2Proof.Machine

variable {m : Nat} {x₀ s : State}

theorem Only.cvuWrite (a0 : Reader) (a1 : ℕ) (a2 : State → State × ℕ) (hm : m &&& 65538 = 65538)
    (h_a2 : ∀ t, Only m x₀ t → Only m x₀ (a2 t).1) (h : Only m x₀ s) :
    Only m x₀ (State.cvuWrite a0 a1 a2 s) := by
  dsimp only [State.cvuWrite]
  repeat' first
      | with_reducible assumption | exact fun _ => ⟨rfl, rfl⟩ | exact fun _ => rfl
      | exact fun _ => ⟨rfl, rfl, rfl, rfl, rfl⟩ | intro _ | with_reducible apply Only.ite
      | with_reducible apply Only.fst_ite | with_reducible apply Only.snd_ite | with_reducible apply Only.plain
      | with_reducible apply h_a2

theorem Only.cvuCtrl (a0 : ℕ) (a1 : Word) (hm : m &&& 32768 = 32768) (h : Only m x₀ s) :
    Only m x₀ (State.cvuCtrl a0 a1 s).1 := by
  dsimp only [State.cvuCtrl]
  repeat' first
      | with_reducible assumption | exact fun _ => ⟨rfl, rfl⟩ | exact fun _ => rfl
      | exact fun _ => ⟨rfl, rfl, rfl, rfl, rfl⟩ | intro _ | with_reducible apply Only.ite
      | with_reducible apply Only.fst_ite | with_reducible apply Only.snd_ite | with_reducible apply Only.onCvu

theorem Only.cvuFeed (a0 : ℕ) (a1 : ℕ) (a2 : Word) (hm : m &&& 32768 = 32768) (h : Only m x₀ s) :
    Only m x₀ (State.cvuFeed a0 a1 a2 s).1 := by
  dsimp only [State.cvuFeed]
  repeat' first
      | with_reducible assumption | exact fun _ => ⟨rfl, rfl⟩ | exact fun _ => rfl
      | exact fun _ => ⟨rfl, rfl, rfl, rfl, rfl⟩ | intro _ | with_reducible apply Only.ite
      | with_reducible apply Only.fst_ite | with_reducible apply Only.snd_ite | with_reducible apply Only.onCvu

theorem Only.cvuStateLo (a0 : ℕ) (a1 : Word) (hm : m &&& 32768 = 32768) (h : Only m x₀ s) :
    Only m x₀ (State.cvuStateLo a0 a1 s).1 := by
  dsimp only [State.cvuStateLo]
  repeat' first
      | with_reducible assumption | exact fun _ => ⟨rfl, rfl⟩ | exact fun _ => rfl
      | exact fun _ => ⟨rfl, rfl, rfl, rfl, rfl⟩ | intro _ | with_reducible apply Only.ite
      | with_reducible apply Only.fst_ite | with_reducible apply Only.snd_ite | with_reducible apply Only.onCvu

theorem Only.cvuStateHi (a0 : ℕ) (a1 : Word) (hm : m &&& 32768 = 32768) (h : Only m x₀ s) :
    Only m x₀ (State.cvuStateHi a0 a1 s).1 := by
  dsimp only [State.cvuStateHi]
  repeat' first
      | with_reducible assumption | exact fun _ => ⟨rfl, rfl⟩ | exact fun _ => rfl
      | exact fun _ => ⟨rfl, rfl, rfl, rfl, rfl⟩ | intro _ | with_reducible apply Only.ite
      | with_reducible apply Only.fst_ite | with_reducible apply Only.snd_ite | with_reducible apply Only.onCvu

theorem Only.cvuSetCount (a0 : ℕ) (a1 : Word) (hm : m &&& 32768 = 32768) (h : Only m x₀ s) :
    Only m x₀ (State.cvuSetCount a0 a1 s).1 := by
  dsimp only [State.cvuSetCount]
  repeat' first
      | with_reducible assumption | exact fun _ => ⟨rfl, rfl⟩ | exact fun _ => rfl
      | exact fun _ => ⟨rfl, rfl, rfl, rfl, rfl⟩ | intro _ | with_reducible apply Only.onCvu

theorem Only.cvuGuard (a0 : ℕ) (a1 : Word) (hm : m &&& 32768 = 32768) (h : Only m x₀ s) :
    Only m x₀ (State.cvuGuard a0 a1 s).1 := by
  dsimp only [State.cvuGuard]
  repeat' first
      | with_reducible assumption | exact fun _ => ⟨rfl, rfl⟩ | exact fun _ => rfl
      | exact fun _ => ⟨rfl, rfl, rfl, rfl, rfl⟩ | intro _ | with_reducible apply Only.ite
      | with_reducible apply Only.fst_ite | with_reducible apply Only.snd_ite | with_reducible apply Only.onCvu

theorem Only.cvuAlive (a0 : ℕ) (a1 : Word) (hm : m &&& 98304 = 98304) (h : Only m x₀ s) :
    Only m x₀ (State.cvuAlive a0 a1 s).1 := by
  dsimp only [State.cvuAlive]
  repeat' first
      | with_reducible assumption | exact fun _ => ⟨rfl, rfl⟩ | exact fun _ => rfl
      | exact fun _ => ⟨rfl, rfl, rfl, rfl, rfl⟩ | intro _ | with_reducible apply Only.ite
      | with_reducible apply Only.fst_ite | with_reducible apply Only.snd_ite | with_reducible apply Only.onCvu
      | with_reducible apply Only.cond | exact Part.sub hm rfl

theorem Only.cvuCtrClear (a0 : ℕ) (a1 : Word) (hm : m &&& 32768 = 32768) (h : Only m x₀ s) :
    Only m x₀ (State.cvuCtrClear a0 a1 s).1 := by
  dsimp only [State.cvuCtrClear]
  repeat' first
      | with_reducible assumption | exact fun _ => ⟨rfl, rfl⟩ | exact fun _ => rfl
      | exact fun _ => ⟨rfl, rfl, rfl, rfl, rfl⟩ | intro _ | with_reducible apply Only.ite
      | with_reducible apply Only.fst_ite | with_reducible apply Only.snd_ite | with_reducible apply Only.onCvu

theorem Only.execCvuStart (a0 : ℕ) (a1 : Reader) (a2 : Fin 16) (a3 : Word) (hm : m &&& 98307 = 98307)
    (h : Only m x₀ s) :
    ∀ u, (execCvuStart a0 a1 a2 a3 s) = .next u → Only m x₀ u := by
  intro u e
  obtain rfl := Host.Outcome.next.inj e
  repeat' first
      | with_reducible assumption | exact fun _ => ⟨rfl, rfl⟩ | exact fun _ => rfl
      | exact fun _ => ⟨rfl, rfl, rfl, rfl, rfl⟩ | intro _ | with_reducible apply Only.cvuWrite
      | with_reducible apply Only.cvuCtrl | with_reducible apply Only.tick | exact Part.sub hm rfl

theorem Only.execCvuPolyChange (a0 : ℕ) (a1 : Reader) (a2 : Fin 16) (a3 : Word) (hm : m &&& 98307 = 98307)
    (h : Only m x₀ s) :
    ∀ u, (execCvuPolyChange a0 a1 a2 a3 s) = .next u → Only m x₀ u := by
  intro u e
  obtain rfl := Host.Outcome.next.inj e
  repeat' first
      | with_reducible assumption | exact fun _ => ⟨rfl, rfl⟩ | exact fun _ => rfl
      | exact fun _ => ⟨rfl, rfl, rfl, rfl, rfl⟩ | intro _ | with_reducible apply Only.cvuWrite
      | with_reducible apply Only.cvuCtrl | with_reducible apply Only.tick | exact Part.sub hm rfl

theorem Only.execCvuFeedB (a0 : ℕ) (a1 : Reader) (a2 : Fin 16) (a3 : Word) (hm : m &&& 98307 = 98307)
    (h : Only m x₀ s) :
    ∀ u, (execCvuFeedB a0 a1 a2 a3 s) = .next u → Only m x₀ u := by
  intro u e
  obtain rfl := Host.Outcome.next.inj e
  repeat' first
      | with_reducible assumption | exact fun _ => ⟨rfl, rfl⟩ | exact fun _ => rfl
      | exact fun _ => ⟨rfl, rfl, rfl, rfl, rfl⟩ | intro _ | with_reducible apply Only.cvuWrite
      | with_reducible apply Only.cvuFeed | with_reducible apply Only.tick | exact Part.sub hm rfl

theorem Only.execCvuFeedH (a0 : ℕ) (a1 : Reader) (a2 : Fin 16) (a3 : Word) (hm : m &&& 98307 = 98307)
    (h : Only m x₀ s) :
    ∀ u, (execCvuFeedH a0 a1 a2 a3 s) = .next u → Only m x₀ u := by
  intro u e
  obtain rfl := Host.Outcome.next.inj e
  repeat' first
      | with_reducible assumption | exact fun _ => ⟨rfl, rfl⟩ | exact fun _ => rfl
      | exact fun _ => ⟨rfl, rfl, rfl, rfl, rfl⟩ | intro _ | with_reducible apply Only.cvuWrite
      | with_reducible apply Only.cvuFeed | with_reducible apply Only.tick | exact Part.sub hm rfl

theorem Only.execCvuFeedW (a0 : ℕ) (a1 : Reader) (a2 : Fin 16) (a3 : Word) (hm : m &&& 98307 = 98307)
    (h : Only m x₀ s) :
    ∀ u, (execCvuFeedW a0 a1 a2 a3 s) = .next u → Only m x₀ u := by
  intro u e
  obtain rfl := Host.Outcome.next.inj e
  repeat' first
      | with_reducible assumption | exact fun _ => ⟨rfl, rfl⟩ | exact fun _ => rfl
      | exact fun _ => ⟨rfl, rfl, rfl, rfl, rfl⟩ | intro _ | with_reducible apply Only.cvuWrite
      | with_reducible apply Only.cvuFeed | with_reducible apply Only.tick | exact Part.sub hm rfl

theorem Only.execCvuStateLoWrite (a0 : ℕ) (a1 : Reader) (a2 : Fin 16) (a3 : Word) (hm : m &&& 98307 = 98307)
    (h : Only m x₀ s) :
    ∀ u, (execCvuStateLoWrite a0 a1 a2 a3 s) = .next u → Only m x₀ u := by
  intro u e
  obtain rfl := Host.Outcome.next.inj e
  repeat' first
      | with_reducible assumption | exact fun _ => ⟨rfl, rfl⟩ | exact fun _ => rfl
      | exact fun _ => ⟨rfl, rfl, rfl, rfl, rfl⟩ | intro _ | with_reducible apply Only.cvuWrite
      | with_reducible apply Only.cvuStateLo | with_reducible apply Only.tick | exact Part.sub hm rfl

theorem Only.execCvuStateHiWrite (a0 : ℕ) (a1 : Reader) (a2 : Fin 16) (a3 : Word) (hm : m &&& 98307 = 98307)
    (h : Only m x₀ s) :
    ∀ u, (execCvuStateHiWrite a0 a1 a2 a3 s) = .next u → Only m x₀ u := by
  intro u e
  obtain rfl := Host.Outcome.next.inj e
  repeat' first
      | with_reducible assumption | exact fun _ => ⟨rfl, rfl⟩ | exact fun _ => rfl
      | exact fun _ => ⟨rfl, rfl, rfl, rfl, rfl⟩ | intro _ | with_reducible apply Only.cvuWrite
      | with_reducible apply Only.cvuStateHi | with_reducible apply Only.tick | exact Part.sub hm rfl

theorem Only.execCvuAlive (a0 : ℕ) (a1 : Reader) (a2 : Fin 16) (a3 : Word) (hm : m &&& 98307 = 98307)
    (h : Only m x₀ s) :
    ∀ u, (execCvuAlive a0 a1 a2 a3 s) = .next u → Only m x₀ u := by
  intro u e
  obtain rfl := Host.Outcome.next.inj e
  repeat' first
      | with_reducible assumption | exact fun _ => ⟨rfl, rfl⟩ | exact fun _ => rfl
      | exact fun _ => ⟨rfl, rfl, rfl, rfl, rfl⟩ | intro _ | with_reducible apply Only.cvuWrite
      | with_reducible apply Only.cvuAlive | with_reducible apply Only.tick | exact Part.sub hm rfl

theorem Only.execCvuCtrClear (a0 : ℕ) (a1 : Reader) (a2 : Fin 16) (a3 : Word) (hm : m &&& 98307 = 98307)
    (h : Only m x₀ s) :
    ∀ u, (execCvuCtrClear a0 a1 a2 a3 s) = .next u → Only m x₀ u := by
  intro u e
  obtain rfl := Host.Outcome.next.inj e
  repeat' first
      | with_reducible assumption | exact fun _ => ⟨rfl, rfl⟩ | exact fun _ => rfl
      | exact fun _ => ⟨rfl, rfl, rfl, rfl, rfl⟩ | intro _ | with_reducible apply Only.wt
      | with_reducible apply Only.cvuCtrClear | with_reducible apply Only.tick | exact Part.sub hm rfl

theorem Only.latchCvuState (a0 : ℕ) (a1 : ℕ) (hm : m &&& 32768 = 32768) (h : Only m x₀ s) :
    Only m x₀ (State.latchCvuState a0 a1 s) := by
  dsimp only [State.latchCvuState]
  repeat' first
      | with_reducible assumption | exact fun _ => ⟨rfl, rfl⟩ | exact fun _ => rfl
      | exact fun _ => ⟨rfl, rfl, rfl, rfl, rfl⟩ | intro _ | with_reducible apply Only.onCvu

theorem Only.latchCvuResult (a0 : ℕ) (a1 : ℕ) (hm : m &&& 32768 = 32768) (h : Only m x₀ s) :
    Only m x₀ (State.latchCvuResult a0 a1 s) := by
  dsimp only [State.latchCvuResult]
  repeat' first
      | with_reducible assumption | exact fun _ => ⟨rfl, rfl⟩ | exact fun _ => rfl
      | exact fun _ => ⟨rfl, rfl, rfl, rfl, rfl⟩ | intro _ | with_reducible apply Only.onCvu

theorem Only.execCvuStateLoRead (a0 : ℕ) (a1 : Reader) (a2 : Fin 16) (hm : m &&& 32769 = 32769) (h : Only m x₀ s) :
    ∀ u, (execCvuStateLoRead a0 a1 a2 s) = .next u → Only m x₀ u := by
  intro u e
  obtain rfl := Host.Outcome.next.inj e
  repeat' first
      | with_reducible assumption | exact fun _ => ⟨rfl, rfl⟩ | exact fun _ => rfl
      | exact fun _ => ⟨rfl, rfl, rfl, rfl, rfl⟩ | intro _ | with_reducible apply Only.latchCvuState
      | with_reducible apply Only.tick | exact Part.sub hm rfl

theorem Only.execCvuResultLoRead (a0 : ℕ) (a1 : Reader) (a2 : Fin 16) (hm : m &&& 32769 = 32769) (h : Only m x₀ s) :
    ∀ u, (execCvuResultLoRead a0 a1 a2 s) = .next u → Only m x₀ u := by
  intro u e
  obtain rfl := Host.Outcome.next.inj e
  repeat' first
      | with_reducible assumption | exact fun _ => ⟨rfl, rfl⟩ | exact fun _ => rfl
      | exact fun _ => ⟨rfl, rfl, rfl, rfl, rfl⟩ | intro _ | with_reducible apply Only.latchCvuResult
      | with_reducible apply Only.tick | exact Part.sub hm rfl

end Sys2Proof.Machine
end

