-- ==== Sys2Proof/Laws/OnlySporeRuns.lean ====
section
/-! SUPPORT. What SporeRuns.lean keeps (Laws/Only.lean). -/

namespace Sys2Proof.Machine

variable {m : Nat} {x₀ s : State}

theorem Only.onSeqr (a0 : Ch) (a1 : Seqr → Seqr) (hm : m &&& 262144 = 262144) (h : Only m x₀ s) :
    Only m x₀ (State.onSeqr a0 a1 s) := by
  dsimp only [State.onSeqr]
  repeat' first
      | with_reducible assumption | exact fun _ => ⟨rfl, rfl⟩ | exact fun _ => rfl
      | exact fun _ => ⟨rfl, rfl, rfl, rfl, rfl⟩ | intro _ | with_reducible apply Only.onBst

theorem Only.sporeEnds (a0 : Ch) (a1 : Running) (hm : m &&& 278528 = 278528) (h : Only m x₀ s) :
    Only m x₀ (State.sporeEnds a0 a1 s) := by
  dsimp only [State.sporeEnds]
  repeat' first
      | with_reducible assumption | exact fun _ => ⟨rfl, rfl⟩ | exact fun _ => rfl
      | exact fun _ => ⟨rfl, rfl, rfl, rfl, rfl⟩ | intro _ | with_reducible apply Only.ite
      | with_reducible apply Only.fst_ite | with_reducible apply Only.snd_ite | with_reducible apply Only.onSeqr
      | with_reducible apply Only.onAgr | exact Part.sub hm rfl

theorem Only.sporeDefer (a0 : Ch) (a1 : Running) (hm : m &&& 327680 = 327680) (h : Only m x₀ s) :
    Only m x₀ (State.sporeDefer a0 a1 s) := by
  dsimp only [State.sporeDefer]
  repeat' first
      | with_reducible assumption | exact fun _ => ⟨rfl, rfl⟩ | exact fun _ => rfl
      | exact fun _ => ⟨rfl, rfl, rfl, rfl, rfl⟩ | intro _ | with_reducible apply Only.ite
      | with_reducible apply Only.fst_ite | with_reducible apply Only.snd_ite | with_reducible apply Only.onSeqr
      | with_reducible apply Only.raise | exact Part.sub hm rfl

theorem Only.sporeAbort (a0 : Ch) (a1 : AbortCause) (hm : m &&& 344064 = 344064) (h : Only m x₀ s) :
    Only m x₀ (State.sporeAbort a0 a1 s) := by
  dsimp only [State.sporeAbort]
  repeat' first
      | with_reducible assumption | exact fun _ => ⟨rfl, rfl⟩ | exact fun _ => rfl
      | exact fun _ => ⟨rfl, rfl, rfl, rfl, rfl⟩ | intro _ | with_reducible apply Only.ite
      | with_reducible apply Only.fst_ite | with_reducible apply Only.snd_ite | with_reducible apply Only.onSeqr
      | with_reducible apply Only.sporeEnds | with_reducible apply Only.sporeDefer | exact Part.sub hm rfl | rfl
      | exact ⟨rfl, rfl⟩ | exact ⟨rfl, rfl, rfl, rfl, rfl⟩ | split

theorem Only.sporesHalt (hm : m &&& 344064 = 344064) (h : Only m x₀ s) :
    Only m x₀ (State.sporesHalt s) := by
  dsimp only [State.sporesHalt]
  repeat' first
      | with_reducible assumption | exact fun _ => ⟨rfl, rfl⟩ | exact fun _ => rfl
      | exact fun _ => ⟨rfl, rfl, rfl, rfl, rfl⟩ | intro _ | with_reducible apply Only.sporeAbort

theorem Only.sporesOff (a0 : Block) (hm : m &&& 344064 = 344064) (h : Only m x₀ s) :
    Only m x₀ (State.sporesOff a0 s) := by
  dsimp only [State.sporesOff]
  repeat' first
      | with_reducible assumption | exact fun _ => ⟨rfl, rfl⟩ | exact fun _ => rfl
      | exact fun _ => ⟨rfl, rfl, rfl, rfl, rfl⟩ | intro _ | with_reducible apply Only.ite
      | with_reducible apply Only.fst_ite | with_reducible apply Only.snd_ite | with_reducible apply Only.forL
      | with_reducible apply Only.forL_fst | with_reducible apply Only.sporeAbort | exact Part.sub hm rfl | rfl
      | exact ⟨rfl, rfl⟩ | exact ⟨rfl, rfl, rfl, rfl, rfl⟩ | split

end Sys2Proof.Machine
end

