-- ==== Sys2Proof/Laws/OnlyHalt.lean ====
section
/-! SUPPORT. What Halt.lean keeps (Laws/Only.lean). -/

namespace Sys2Proof.Machine

variable {m : Nat} {x₀ s : State}

theorem Only.stopZones (a0 : BitVec 32) (hm : m &&& 65728 = 65728) (h : Only m x₀ s) :
    Only m x₀ (State.stopZones a0 s) := by
  dsimp only [State.stopZones]
  repeat' first
      | with_reducible assumption | exact fun _ => ⟨rfl, rfl⟩ | exact fun _ => rfl
      | exact fun _ => ⟨rfl, rfl, rfl, rfl, rfl⟩ | intro _ | with_reducible apply Only.darkAborts
      | with_reducible apply Only.onSto_keep | with_reducible apply Only.onSog_keep
      | with_reducible apply Only.onFcl_keep | exact Part.sub hm rfl

theorem Only.enterHalt (hm : m &&& 344256 = 344256) (h : Only m x₀ s) :
    Only m x₀ (State.enterHalt s) := by
  dsimp only [State.enterHalt]
  repeat' first
      | with_reducible assumption | exact fun _ => ⟨rfl, rfl⟩ | exact fun _ => rfl
      | exact fun _ => ⟨rfl, rfl, rfl, rfl, rfl⟩ | intro _ | with_reducible apply Only.ite
      | with_reducible apply Only.fst_ite | with_reducible apply Only.snd_ite | with_reducible apply Only.sporesHalt
      | with_reducible apply Only.darkAborts | with_reducible apply Only.deliverNmi
      | with_reducible apply Only.onSto_keep | with_reducible apply Only.onSog_keep
      | with_reducible apply Only.onFcl_keep | exact Part.sub hm rfl

theorem Only.selfFault (a0 : ℕ) (hm : m &&& 38224064 = 38224064) (h : Only m x₀ s) :
    Only m x₀ (State.selfFault a0 s) := by
  dsimp only [State.selfFault]
  repeat' first
      | with_reducible assumption | exact fun _ => ⟨rfl, rfl⟩ | exact fun _ => rfl
      | exact fun _ => ⟨rfl, rfl, rfl, rfl, rfl⟩ | intro _ | with_reducible apply Only.ite
      | with_reducible apply Only.fst_ite | with_reducible apply Only.snd_ite | with_reducible apply Only.onFcl_keep
      | with_reducible apply Only.enterHalt | with_reducible apply Only.makeRecord | exact Part.sub hm rfl

theorem Only.checkErrPins (a0 : Bool) (a1 : Bool) (hm : m &&& 38224064 = 38224064) (h : Only m x₀ s) :
    Only m x₀ (State.checkErrPins a0 a1 s) := by
  dsimp only [State.checkErrPins]
  repeat' first
      | with_reducible assumption | exact fun _ => ⟨rfl, rfl⟩ | exact fun _ => rfl
      | exact fun _ => ⟨rfl, rfl, rfl, rfl, rfl⟩ | intro _ | with_reducible apply Only.ite
      | with_reducible apply Only.fst_ite | with_reducible apply Only.snd_ite | with_reducible apply Only.onFcl_keep
      | with_reducible apply Only.selfFault | exact Part.sub hm rfl

end Sys2Proof.Machine
end

