-- ==== Sys2Proof/Laws/OnlyTerminals.lean ====
section
/-! SUPPORT. What Terminals.lean keeps (Laws/Only.lean). -/

namespace Sys2Proof.Machine

variable {m : Nat} {x₀ s : State}

theorem Only.onLichen (a0 : ℕ) (a1 : Lichen → Lichen) (hm : m &&& 16 = 16) (h : Only m x₀ s) :
    Only m x₀ (State.onLichen a0 a1 s) := by
  dsimp only [State.onLichen]
  repeat' first
      | with_reducible assumption | exact fun _ => ⟨rfl, rfl⟩ | exact fun _ => rfl
      | exact fun _ => ⟨rfl, rfl, rfl, rfl, rfl⟩ | intro _ | with_reducible apply Only.onLio

theorem Only.lockCond (hm : m &&& 65536 = 65536) (h : Only m x₀ s) :
    Only m x₀ (State.lockCond s) := by
  dsimp only [State.lockCond]
  repeat' first
      | with_reducible assumption | exact fun _ => ⟨rfl, rfl⟩ | exact fun _ => rfl
      | exact fun _ => ⟨rfl, rfl, rfl, rfl, rfl⟩ | intro _ | with_reducible apply Only.cond

theorem Only.signalTriggers (a0 : Blocks) (hm : m &&& 306391242 = 306391242) (h : Only m x₀ s) :
    Only m x₀ (State.signalTriggers a0 s) := by
  dsimp only [State.signalTriggers]
  repeat' first
      | with_reducible assumption | exact fun _ => ⟨rfl, rfl⟩ | exact fun _ => rfl
      | exact fun _ => ⟨rfl, rfl, rfl, rfl, rfl⟩ | intro _ | with_reducible apply Only.forL
      | with_reducible apply Only.forL_fst | with_reducible apply Only.trigger

theorem Only.signalEdges (a0 : Blocks) (hm : m &&& 66048 = 66048) (h : Only m x₀ s) :
    Only m x₀ (State.signalEdges a0 s) := by
  dsimp only [State.signalEdges]
  repeat' first
      | with_reducible assumption | exact fun _ => ⟨rfl, rfl⟩ | exact fun _ => rfl
      | exact fun _ => ⟨rfl, rfl, rfl, rfl, rfl⟩ | intro _ | with_reducible apply Only.forL
      | with_reducible apply Only.forL_fst | with_reducible apply Only.reference

theorem Only.signalsMoved (a0 : Blocks) (hm : m &&& 306391754 = 306391754) (h : Only m x₀ s) :
    Only m x₀ (State.signalsMoved a0 s) := by
  dsimp only [State.signalsMoved]
  repeat' first
      | with_reducible assumption | exact fun _ => ⟨rfl, rfl⟩ | exact fun _ => rfl
      | exact fun _ => ⟨rfl, rfl, rfl, rfl, rfl⟩ | intro _ | with_reducible apply Only.signalTriggers
      | with_reducible apply Only.signalEdges | exact Part.sub hm rfl

theorem Only.exchange (a0 : Ch) (a1 : BitVec 48) (hm : m &&& 16 = 16) (h : Only m x₀ s) :
    Only m x₀ (State.exchange a0 a1 s) := by
  dsimp only [State.exchange]
  repeat' first
      | with_reducible assumption | exact fun _ => ⟨rfl, rfl⟩ | exact fun _ => rfl
      | exact fun _ => ⟨rfl, rfl, rfl, rfl, rfl⟩ | intro _ | with_reducible apply Only.forL
      | with_reducible apply Only.forL_fst | with_reducible apply Only.onLichen

theorem Only.sampleLichens (a0 : Pins) (hm : m &&& 306391770 = 306391770) (h : Only m x₀ s) :
    Only m x₀ (State.sampleLichens a0 s) := by
  dsimp only [State.sampleLichens]
  repeat' first
      | with_reducible assumption | exact fun _ => ⟨rfl, rfl⟩ | exact fun _ => rfl
      | exact fun _ => ⟨rfl, rfl, rfl, rfl, rfl⟩ | intro _ | with_reducible apply Only.ite
      | with_reducible apply Only.fst_ite | with_reducible apply Only.snd_ite | with_reducible apply Only.forL
      | with_reducible apply Only.forL_fst | with_reducible apply Only.onLio | with_reducible apply Only.onLichen
      | with_reducible apply Only.exchange | with_reducible apply Only.cond | with_reducible apply Only.signalsMoved
      | with_reducible apply Only.lockCond | exact Part.sub hm rfl

theorem Only.sampleTpos (a0 : Pins) (hm : m &&& 65584 = 65584) (h : Only m x₀ s) :
    Only m x₀ (State.sampleTpos a0 s) := by
  dsimp only [State.sampleTpos]
  repeat' first
      | with_reducible assumption | exact fun _ => ⟨rfl, rfl⟩ | exact fun _ => rfl
      | exact fun _ => ⟨rfl, rfl, rfl, rfl, rfl⟩ | intro _ | with_reducible apply Only.ite
      | with_reducible apply Only.fst_ite | with_reducible apply Only.snd_ite | with_reducible apply Only.forL
      | with_reducible apply Only.forL_fst | with_reducible apply Only.onTpg | with_reducible apply Only.onLichen
      | with_reducible apply Only.cond | exact Part.sub hm rfl

theorem Only.outCond (a0 : ℕ) (a1 : BitVec 16) (a2 : BitVec 16) (a3 : ℕ → ℕ) (hm : m &&& 65536 = 65536)
    (h : Only m x₀ s) :
    Only m x₀ (State.outCond a0 a1 a2 a3 s) := by
  dsimp only [State.outCond]
  repeat' first
      | with_reducible assumption | exact fun _ => ⟨rfl, rfl⟩ | exact fun _ => rfl
      | exact fun _ => ⟨rfl, rfl, rfl, rfl, rfl⟩ | intro _ | with_reducible apply Only.ite
      | with_reducible apply Only.fst_ite | with_reducible apply Only.snd_ite | with_reducible apply Only.openRound
      | with_reducible apply Only.cond

theorem OutBlock.lockNew_committed (o : OutBlock) (src : Nat) (old v : BitVec 16) :
    (o.lockNew src old v).committed = o.committed := by
  have h : ∀ n, (forN n (fun k o => if v.getLsbD k && !old.getLsbD k then o.dueLock src k else o) o).committed = o.committed := by
    intro n
    induction n with
    | zero => rfl
    | succ n ih => exact (apply_ite OutBlock.committed _ _ _).trans (by rw [show ∀ x : OutBlock, (x.dueLock src n).committed = x.committed from fun _ => rfl, ite_self]; exact ih)
  exact h 16

theorem Only.sampleOutputs (a0 : Pins) (hm : m &&& 65600 = 65600) (h : Only m x₀ s) :
    Only m x₀ (State.sampleOutputs a0 s) := by
  dsimp only [State.sampleOutputs]
  repeat' first
      | with_reducible assumption
      | exact fun _ => (OutBlock.lockNew_committed _ _ _ _).trans (OutBlock.lockNew_committed _ _ _ _) | intro _
      | with_reducible apply Only.ite | with_reducible apply Only.onSog_keep | with_reducible apply Only.outCond
      | exact Part.sub hm rfl

theorem Only.sampleStos (a0 : Pins) (hm : m &&& 65664 = 65664) (h : Only m x₀ s) :
    Only m x₀ (State.sampleStos a0 s) := by
  dsimp only [State.sampleStos]
  repeat' first
      | with_reducible assumption
      | exact fun _ => (OutBlock.lockNew_committed _ _ _ _).trans (OutBlock.lockNew_committed _ _ _ _) | intro _
      | with_reducible apply Only.ite | with_reducible apply Only.onSto_keep | with_reducible apply Only.outCond
      | exact Part.sub hm rfl

theorem Only.sampleErr (a0 : Pins) (hm : m &&& 38224064 = 38224064) (h : Only m x₀ s) :
    Only m x₀ (State.sampleErr a0 s) := by
  dsimp only [State.sampleErr]
  repeat' first
      | with_reducible assumption | exact fun _ => ⟨rfl, rfl⟩ | exact fun _ => rfl
      | exact fun _ => ⟨rfl, rfl, rfl, rfl, rfl⟩ | intro _ | with_reducible apply Only.checkErrPins

theorem Only.sampling (a0 : Pins) (hm : m &&& 306670330 = 306670330) (h : Only m x₀ s) :
    Only m x₀ (State.sampling a0 s) := by
  dsimp only [State.sampling]
  repeat' first
      | with_reducible assumption | exact fun _ => ⟨rfl, rfl⟩ | exact fun _ => rfl
      | exact fun _ => ⟨rfl, rfl, rfl, rfl, rfl⟩ | intro _ | with_reducible apply Only.ite
      | with_reducible apply Only.fst_ite | with_reducible apply Only.snd_ite | with_reducible apply Only.sampleErr
      | with_reducible apply Only.sampleStos | with_reducible apply Only.sampleOutputs
      | with_reducible apply Only.sampleTpos | with_reducible apply Only.sampleLichens | exact Part.sub hm rfl

theorem Only.exchangeMissed (a0 : Ch) (a1 : ℕ) (hm : m &&& 306391770 = 306391770) (h : Only m x₀ s) :
    Only m x₀ (State.exchangeMissed a0 a1 s) := by
  dsimp only [State.exchangeMissed]
  repeat' first
      | with_reducible assumption | exact fun _ => ⟨rfl, rfl⟩ | exact fun _ => rfl
      | exact fun _ => ⟨rfl, rfl, rfl, rfl, rfl⟩ | intro _ | with_reducible apply Only.ite
      | with_reducible apply Only.fst_ite | with_reducible apply Only.snd_ite | with_reducible apply Only.signalsMoved
      | with_reducible apply Only.cond | with_reducible apply Only.onLichen | with_reducible apply Only.onLio
      | exact Part.sub hm rfl

theorem Only.execLichenExchangeMissed (a0 : ℕ) (a1 : Ch) (a2 : Fin 48) (hm : m &&& 306391771 = 306391771)
    (h : Only m x₀ s) :
    ∀ u, (execLichenExchangeMissed a0 a1 a2 s) = .next u → Only m x₀ u := by
  intro u e
  obtain rfl := Host.Outcome.next.inj e
  repeat' first
      | with_reducible assumption | exact fun _ => ⟨rfl, rfl⟩ | exact fun _ => rfl
      | exact fun _ => ⟨rfl, rfl, rfl, rfl, rfl⟩ | intro _ | with_reducible apply Only.exchangeMissed
      | with_reducible apply Only.tick | exact Part.sub hm rfl

theorem Only.discrepancy (a0 : ℕ) (hm : m &&& 306391770 = 306391770) (h : Only m x₀ s) :
    Only m x₀ (State.discrepancy a0 s) := by
  dsimp only [State.discrepancy]
  repeat' first
      | with_reducible assumption | exact fun _ => ⟨rfl, rfl⟩ | exact fun _ => rfl
      | exact fun _ => ⟨rfl, rfl, rfl, rfl, rfl⟩ | intro _ | with_reducible apply Only.ite
      | with_reducible apply Only.fst_ite | with_reducible apply Only.snd_ite | with_reducible apply Only.signalsMoved
      | with_reducible apply Only.cond | with_reducible apply Only.onLichen | exact Part.sub hm rfl

theorem Only.execDiscrepancyTimeout (a0 : ℕ) (a1 : Fin 48) (hm : m &&& 306391771 = 306391771) (h : Only m x₀ s) :
    ∀ u, (execDiscrepancyTimeout a0 a1 s) = .next u → Only m x₀ u := by
  intro u e
  obtain rfl := Host.Outcome.next.inj e
  repeat' first
      | with_reducible assumption | exact fun _ => ⟨rfl, rfl⟩ | exact fun _ => rfl
      | exact fun _ => ⟨rfl, rfl, rfl, rfl, rfl⟩ | intro _ | with_reducible apply Only.discrepancy
      | with_reducible apply Only.tick | exact Part.sub hm rfl

theorem Only.cleared144 (hm : m &&& 16 = 16) (h : Only m x₀ s) :
    Only m x₀ (State.cleared144 s) := by
  dsimp only [State.cleared144]
  repeat' first
      | with_reducible assumption | exact fun _ => ⟨rfl, rfl⟩ | exact fun _ => rfl
      | exact fun _ => ⟨rfl, rfl, rfl, rfl, rfl⟩ | intro _ | with_reducible apply Only.ite
      | with_reducible apply Only.fst_ite | with_reducible apply Only.snd_ite | with_reducible apply Only.onLio

theorem Only.clearedTpf (a0 : ℕ) (hm : m &&& 48 = 48) (h : Only m x₀ s) :
    Only m x₀ (State.clearedTpf a0 s) := by
  dsimp only [State.clearedTpf]
  repeat' first
      | with_reducible assumption | exact fun _ => ⟨rfl, rfl⟩ | exact fun _ => rfl
      | exact fun _ => ⟨rfl, rfl, rfl, rfl, rfl⟩ | intro _ | with_reducible apply Only.ite
      | with_reducible apply Only.fst_ite | with_reducible apply Only.snd_ite | with_reducible apply Only.onTpg
      | with_reducible apply Only.onLio | exact Part.sub hm rfl

theorem Only.tpfConds (a0 : ℕ) (hm : m &&& 65536 = 65536) (h : Only m x₀ s) :
    Only m x₀ (State.tpfConds a0 s) := by
  dsimp only [State.tpfConds]
  repeat' first
      | with_reducible assumption | exact fun _ => ⟨rfl, rfl⟩ | exact fun _ => rfl
      | exact fun _ => ⟨rfl, rfl, rfl, rfl, rfl⟩ | intro _ | with_reducible apply Only.ite
      | with_reducible apply Only.fst_ite | with_reducible apply Only.snd_ite | with_reducible apply Only.forL
      | with_reducible apply Only.forL_fst | with_reducible apply Only.cond

theorem Only.eachLichen (a0 : Blocks → ℕ → Lichen → Lichen) (hm : m &&& 16 = 16) (h : Only m x₀ s) :
    Only m x₀ (State.eachLichen a0 s) := by
  dsimp only [State.eachLichen]
  repeat' first
      | with_reducible assumption | exact fun _ => ⟨rfl, rfl⟩ | exact fun _ => rfl
      | exact fun _ => ⟨rfl, rfl, rfl, rfl, rfl⟩ | intro _ | with_reducible apply Only.ite
      | with_reducible apply Only.fst_ite | with_reducible apply Only.snd_ite | with_reducible apply Only.forL
      | with_reducible apply Only.forL_fst | with_reducible apply Only.onLichen

theorem Only.slotCheck (a0 : ℕ) (a1 : Bool) (hm : m &&& 65536 = 65536) (h : Only m x₀ s) :
    Only m x₀ (State.slotCheck a0 a1 s) := by
  dsimp only [State.slotCheck]
  repeat' first
      | with_reducible assumption | exact fun _ => ⟨rfl, rfl⟩ | exact fun _ => rfl
      | exact fun _ => ⟨rfl, rfl, rfl, rfl, rfl⟩ | intro _ | with_reducible apply Only.ite
      | with_reducible apply Only.fst_ite | with_reducible apply Only.snd_ite | with_reducible apply Only.raise

theorem Only.pulseStart (a0 : ℕ) (hm : m &&& 65584 = 65584) (h : Only m x₀ s) :
    Only m x₀ (State.pulseStart a0 s) := by
  dsimp only [State.pulseStart]
  repeat' first
      | with_reducible assumption | exact fun _ => ⟨rfl, rfl⟩ | exact fun _ => rfl
      | exact fun _ => ⟨rfl, rfl, rfl, rfl, rfl⟩ | intro _ | with_reducible apply Only.ite
      | with_reducible apply Only.fst_ite | with_reducible apply Only.snd_ite | with_reducible apply Only.tpfConds
      | with_reducible apply Only.eachLichen | with_reducible apply Only.onTpg | with_reducible apply Only.slotCheck
      | exact Part.sub hm rfl

theorem Only.pulseEnd (a0 : ℕ) (hm : m &&& 65568 = 65568) (h : Only m x₀ s) :
    Only m x₀ (State.pulseEnd a0 s) := by
  dsimp only [State.pulseEnd]
  repeat' first
      | with_reducible assumption | exact fun _ => ⟨rfl, rfl⟩ | exact fun _ => rfl
      | exact fun _ => ⟨rfl, rfl, rfl, rfl, rfl⟩ | intro _ | with_reducible apply Only.ite
      | with_reducible apply Only.fst_ite | with_reducible apply Only.snd_ite | with_reducible apply Only.onTpg
      | with_reducible apply Only.slotCheck | exact Part.sub hm rfl

theorem Only.windowEnd (a0 : ℕ) (hm : m &&& 65584 = 65584) (h : Only m x₀ s) :
    Only m x₀ (State.windowEnd a0 s) := by
  dsimp only [State.windowEnd]
  repeat' first
      | with_reducible assumption | exact fun _ => ⟨rfl, rfl⟩ | exact fun _ => rfl
      | exact fun _ => ⟨rfl, rfl, rfl, rfl, rfl⟩ | intro _ | with_reducible apply Only.ite
      | with_reducible apply Only.fst_ite | with_reducible apply Only.snd_ite | with_reducible apply Only.onTpg
      | with_reducible apply Only.tpfConds | with_reducible apply Only.eachLichen | exact Part.sub hm rfl

theorem Only.execTestPulseStart (a0 : ℕ) (a1 : Fin 16) (hm : m &&& 65585 = 65585) (h : Only m x₀ s) :
    ∀ u, (execTestPulseStart a0 a1 s) = .next u → Only m x₀ u := by
  intro u e
  obtain rfl := Host.Outcome.next.inj e
  repeat' first
      | with_reducible assumption | exact fun _ => ⟨rfl, rfl⟩ | exact fun _ => rfl
      | exact fun _ => ⟨rfl, rfl, rfl, rfl, rfl⟩ | intro _ | with_reducible apply Only.pulseStart
      | with_reducible apply Only.tick | exact Part.sub hm rfl

theorem Only.execTestPulseEnd (a0 : ℕ) (a1 : Fin 16) (hm : m &&& 65569 = 65569) (h : Only m x₀ s) :
    ∀ u, (execTestPulseEnd a0 a1 s) = .next u → Only m x₀ u := by
  intro u e
  obtain rfl := Host.Outcome.next.inj e
  repeat' first
      | with_reducible assumption | exact fun _ => ⟨rfl, rfl⟩ | exact fun _ => rfl
      | exact fun _ => ⟨rfl, rfl, rfl, rfl, rfl⟩ | intro _ | with_reducible apply Only.pulseEnd
      | with_reducible apply Only.tick | exact Part.sub hm rfl

theorem Only.execMaskWindowEnd (a0 : ℕ) (a1 : Fin 16) (hm : m &&& 65585 = 65585) (h : Only m x₀ s) :
    ∀ u, (execMaskWindowEnd a0 a1 s) = .next u → Only m x₀ u := by
  intro u e
  obtain rfl := Host.Outcome.next.inj e
  repeat' first
      | with_reducible assumption | exact fun _ => ⟨rfl, rfl⟩ | exact fun _ => rfl
      | exact fun _ => ⟨rfl, rfl, rfl, rfl, rfl⟩ | intro _ | with_reducible apply Only.windowEnd
      | with_reducible apply Only.tick | exact Part.sub hm rfl

theorem Only.readbackTimeout (a0 : Ch) (a1 : ℕ) (hm : m &&& 65600 = 65600) (h : Only m x₀ s) :
    Only m x₀ (State.readbackTimeout a0 a1 s) := by
  dsimp only [State.readbackTimeout]
  repeat' first
      | with_reducible assumption | exact fun _ => ⟨rfl, rfl⟩ | exact fun _ => rfl
      | exact fun _ => ⟨rfl, rfl, rfl, rfl, rfl⟩ | intro _ | with_reducible apply Only.ite
      | with_reducible apply Only.fst_ite | with_reducible apply Only.snd_ite | with_reducible apply Only.outCond
      | with_reducible apply Only.onSog_keep | exact Part.sub hm rfl | rfl | exact ⟨rfl, rfl⟩
      | exact ⟨rfl, rfl, rfl, rfl, rfl⟩ | exact OutBlock.onStage_committed _ _ _

theorem Only.execReadbackTimeout (a0 : ℕ) (a1 : Ch) (a2 : Fin 16) (hm : m &&& 65601 = 65601) (h : Only m x₀ s) :
    ∀ u, (execReadbackTimeout a0 a1 a2 s) = .next u → Only m x₀ u := by
  intro u e
  obtain rfl := Host.Outcome.next.inj e
  repeat' first
      | with_reducible assumption | exact fun _ => ⟨rfl, rfl⟩ | exact fun _ => rfl
      | exact fun _ => ⟨rfl, rfl, rfl, rfl, rfl⟩ | intro _ | with_reducible apply Only.readbackTimeout
      | with_reducible apply Only.tick | exact Part.sub hm rfl

theorem Only.feedbackTimeout (a0 : Ch) (a1 : ℕ) (hm : m &&& 65664 = 65664) (h : Only m x₀ s) :
    Only m x₀ (State.feedbackTimeout a0 a1 s) := by
  dsimp only [State.feedbackTimeout]
  repeat' first
      | with_reducible assumption | exact fun _ => ⟨rfl, rfl⟩ | exact fun _ => rfl
      | exact fun _ => ⟨rfl, rfl, rfl, rfl, rfl⟩ | intro _ | with_reducible apply Only.ite
      | with_reducible apply Only.fst_ite | with_reducible apply Only.snd_ite | with_reducible apply Only.outCond
      | with_reducible apply Only.onSto_keep | exact Part.sub hm rfl | rfl | exact ⟨rfl, rfl⟩
      | exact ⟨rfl, rfl, rfl, rfl, rfl⟩ | exact OutBlock.onStage_committed _ _ _

theorem Only.execStoFeedbackTimeout (a0 : ℕ) (a1 : Ch) (a2 : Fin 16) (hm : m &&& 65665 = 65665) (h : Only m x₀ s) :
    ∀ u, (execStoFeedbackTimeout a0 a1 a2 s) = .next u → Only m x₀ u := by
  intro u e
  obtain rfl := Host.Outcome.next.inj e
  repeat' first
      | with_reducible assumption | exact fun _ => ⟨rfl, rfl⟩ | exact fun _ => rfl
      | exact fun _ => ⟨rfl, rfl, rfl, rfl, rfl⟩ | intro _ | with_reducible apply Only.feedbackTimeout
      | with_reducible apply Only.tick | exact Part.sub hm rfl

theorem Only.onDark (a0 : ℕ) (a1 : Dark → Dark) (hm : m &&& 64 = 64) (h : Only m x₀ s) :
    Only m x₀ (State.onDark a0 a1 s) := by
  dsimp only [State.onDark]
  repeat' first
      | with_reducible assumption | exact fun _ => ⟨rfl, rfl⟩ | exact fun _ => rfl
      | exact fun _ => ⟨rfl, rfl, rfl, rfl, rfl⟩ | intro _ | with_reducible apply Only.onSog_keep

theorem Only.darkStart (a0 : ℕ) (hm : m &&& 64 = 64) (h : Only m x₀ s) :
    Only m x₀ (State.darkStart a0 s) := by
  dsimp only [State.darkStart]
  repeat' first
      | with_reducible assumption | exact fun _ => ⟨rfl, rfl⟩ | exact fun _ => rfl
      | exact fun _ => ⟨rfl, rfl, rfl, rfl, rfl⟩ | intro _ | with_reducible apply Only.ite
      | with_reducible apply Only.fst_ite | with_reducible apply Only.snd_ite | with_reducible apply Only.onDark

theorem Only.execDarkTestStart (a0 : ℕ) (a1 : Fin 16) (hm : m &&& 65 = 65) (h : Only m x₀ s) :
    ∀ u, (execDarkTestStart a0 a1 s) = .next u → Only m x₀ u := by
  intro u e
  obtain rfl := Host.Outcome.next.inj e
  repeat' first
      | with_reducible assumption | exact fun _ => ⟨rfl, rfl⟩ | exact fun _ => rfl
      | exact fun _ => ⟨rfl, rfl, rfl, rfl, rfl⟩ | intro _ | with_reducible apply Only.darkStart
      | with_reducible apply Only.tick | exact Part.sub hm rfl

theorem Only.darkEnd (a0 : ℕ) (hm : m &&& 65600 = 65600) (h : Only m x₀ s) :
    Only m x₀ (State.darkEnd a0 s) := by
  dsimp only [State.darkEnd]
  repeat' first
      | with_reducible assumption | exact fun _ => ⟨rfl, rfl⟩ | exact fun _ => rfl
      | exact fun _ => ⟨rfl, rfl, rfl, rfl, rfl⟩ | intro _ | with_reducible apply Only.ite
      | with_reducible apply Only.fst_ite | with_reducible apply Only.snd_ite | with_reducible apply Only.onDark
      | with_reducible apply Only.raise | with_reducible apply Only.onSog_keep | exact Part.sub hm rfl | rfl
      | exact ⟨rfl, rfl⟩ | exact ⟨rfl, rfl, rfl, rfl, rfl⟩ | split

theorem Only.execDarkPulseEnd (a0 : ℕ) (a1 : Fin 16) (hm : m &&& 65601 = 65601) (h : Only m x₀ s) :
    ∀ u, (execDarkPulseEnd a0 a1 s) = .next u → Only m x₀ u := by
  intro u e
  obtain rfl := Host.Outcome.next.inj e
  repeat' first
      | with_reducible assumption | exact fun _ => ⟨rfl, rfl⟩ | exact fun _ => rfl
      | exact fun _ => ⟨rfl, rfl, rfl, rfl, rfl⟩ | intro _ | with_reducible apply Only.darkEnd
      | with_reducible apply Only.tick | exact Part.sub hm rfl

theorem Only.lioCtrClear (a0 : Word) (hm : m &&& 16 = 16) (h : Only m x₀ s) :
    Only m x₀ (State.lioCtrClear a0 s).1 := by
  dsimp only [State.lioCtrClear]
  repeat' first
      | with_reducible assumption | exact fun _ => ⟨rfl, rfl⟩ | exact fun _ => rfl
      | exact fun _ => ⟨rfl, rfl, rfl, rfl, rfl⟩ | intro _ | with_reducible apply Only.ite
      | with_reducible apply Only.fst_ite | with_reducible apply Only.snd_ite | with_reducible apply Only.onLio

theorem Only.execLioCtrClear (a0 : ℕ) (a1 : Reader) (a2 : Word) (hm : m &&& 65555 = 65555) (h : Only m x₀ s) :
    ∀ u, (execLioCtrClear a0 a1 a2 s) = .next u → Only m x₀ u := by
  intro u e
  obtain rfl := Host.Outcome.next.inj e
  repeat' first
      | with_reducible assumption | exact fun _ => ⟨rfl, rfl⟩ | exact fun _ => rfl
      | exact fun _ => ⟨rfl, rfl, rfl, rfl, rfl⟩ | intro _ | with_reducible apply Only.wt
      | with_reducible apply Only.lioCtrClear | with_reducible apply Only.tick | exact Part.sub hm rfl

theorem Only.lioFirstUse (hm : m &&& 306391770 = 306391770) (h : Only m x₀ s) :
    Only m x₀ (State.lioFirstUse s) := by
  dsimp only [State.lioFirstUse]
  repeat' first
      | with_reducible assumption | exact fun _ => ⟨rfl, rfl⟩ | exact fun _ => rfl
      | exact fun _ => ⟨rfl, rfl, rfl, rfl, rfl⟩ | intro _ | with_reducible apply Only.signalsMoved
      | with_reducible apply Only.cond | with_reducible apply Only.onLio | exact Part.sub hm rfl

theorem Only.tpgFirstUse (hm : m &&& 48 = 48) (h : Only m x₀ s) :
    Only m x₀ (State.tpgFirstUse s) := by
  dsimp only [State.tpgFirstUse]
  repeat' first
      | with_reducible assumption | exact fun _ => ⟨rfl, rfl⟩ | exact fun _ => rfl
      | exact fun _ => ⟨rfl, rfl, rfl, rfl, rfl⟩ | intro _ | with_reducible apply Only.onLio
      | with_reducible apply Only.onTpg | exact Part.sub hm rfl

end Sys2Proof.Machine
end

