-- ==== Sys2Proof/Laws/OnlyFabric.lean ====
section
/-! SUPPORT. What Fabric.lean keeps (Laws/Only.lean). -/

namespace Sys2Proof.Machine

variable {m : Nat} {x₀ s : State}

theorem Only.safeFields (hm : m &&& 8192 = 8192) (h : Only m x₀ s) :
    Only m x₀ (State.safeFields s) := by
  dsimp only [State.safeFields]
  repeat' first
      | with_reducible assumption | exact fun _ => ⟨rfl, rfl⟩ | exact fun _ => rfl
      | exact fun _ => ⟨rfl, rfl, rfl, rfl, rfl⟩ | intro _ | with_reducible apply Only.forL
      | with_reducible apply Only.forL_fst | with_reducible apply Only.onProd

theorem Only.commitFields (hm : m &&& 8192 = 8192) (h : Only m x₀ s) :
    Only m x₀ (State.commitFields s) := by
  dsimp only [State.commitFields]
  repeat' first
      | with_reducible assumption | exact fun _ => ⟨rfl, rfl⟩ | exact fun _ => rfl
      | exact fun _ => ⟨rfl, rfl, rfl, rfl, rfl⟩ | intro _ | with_reducible apply Only.ite
      | with_reducible apply Only.fst_ite | with_reducible apply Only.snd_ite | with_reducible apply Only.forL
      | with_reducible apply Only.forL_fst | with_reducible apply Only.onProd

theorem Only.fabCtrClear (a0 : Ch) (a1 : Word) (hm : m &&& 8 = 8) (h : Only m x₀ s) :
    Only m x₀ (State.fabCtrClear a0 a1 s).1 := by
  dsimp only [State.fabCtrClear]
  repeat' first
      | with_reducible assumption | exact fun _ => ⟨rfl, rfl⟩ | exact fun _ => rfl
      | exact fun _ => ⟨rfl, rfl, rfl, rfl, rfl⟩ | intro _ | with_reducible apply Only.onFab

theorem Only.execFabCtrClear (a0 : ℕ) (a1 : Reader) (a2 : Ch) (a3 : Word) (hm : m &&& 65547 = 65547)
    (h : Only m x₀ s) :
    ∀ u, (execFabCtrClear a0 a1 a2 a3 s) = .next u → Only m x₀ u := by
  intro u e
  obtain rfl := Host.Outcome.next.inj e
  repeat' first
      | with_reducible assumption | exact fun _ => ⟨rfl, rfl⟩ | exact fun _ => rfl
      | exact fun _ => ⟨rfl, rfl, rfl, rfl, rfl⟩ | intro _ | with_reducible apply Only.wt
      | with_reducible apply Only.fabCtrClear | with_reducible apply Only.tick | exact Part.sub hm rfl

theorem Only.fabInject (a0 : Ch) (a1 : Word) (hm : m &&& 8 = 8) (h : Only m x₀ s) :
    Only m x₀ (State.fabInject a0 a1 s).1 := by
  dsimp only [State.fabInject]
  repeat' first
      | with_reducible assumption | exact fun _ => ⟨rfl, rfl⟩ | exact fun _ => rfl
      | exact fun _ => ⟨rfl, rfl, rfl, rfl, rfl⟩ | intro _ | with_reducible apply Only.ite
      | with_reducible apply Only.fst_ite | with_reducible apply Only.snd_ite | with_reducible apply Only.onFab

theorem Only.execFabInject (a0 : ℕ) (a1 : Reader) (a2 : Ch) (a3 : Word) (hm : m &&& 37945355 = 37945355)
    (h : Only m x₀ s) :
    ∀ u, (execFabInject a0 a1 a2 a3 s) = .next u → Only m x₀ u := by
  intro u e
  obtain rfl := Host.Outcome.next.inj e
  repeat' first
      | with_reducible assumption | exact fun _ => ⟨rfl, rfl⟩ | exact fun _ => rfl
      | exact fun _ => ⟨rfl, rfl, rfl, rfl, rfl⟩ | intro _ | with_reducible apply Only.ite
      | with_reducible apply Only.fst_ite | with_reducible apply Only.snd_ite | with_reducible apply Only.expertAt
      | with_reducible apply Only.fabInject | with_reducible apply Only.tick | exact Part.sub hm rfl

end Sys2Proof.Machine
end

