-- ==== Sys2Proof/Laws/OnlyFaults.lean ====
section
/-! SUPPORT. What Faults.lean keeps (Laws/Only.lean). -/

namespace Sys2Proof.Machine

variable {m : Nat} {x₀ s : State}

theorem Only.companion (a0 : ℕ × Profile) (a1 : ℕ) (hm : m &&& 37945344 = 37945344) (h : Only m x₀ s) :
    Only m x₀ (State.companion a0 a1 s) := by
  dsimp only [State.companion]
  repeat' first
      | with_reducible assumption | exact fun _ => ⟨rfl, rfl⟩ | exact fun _ => rfl
      | exact fun _ => ⟨rfl, rfl, rfl, rfl, rfl⟩ | intro _ | with_reducible apply Only.makeRecord

theorem Only.recordRound (a0 : List Change) (hm : m &&& 37945344 = 37945344) (h : Only m x₀ s) :
    Only m x₀ (State.recordRound a0 s) := by
  dsimp only [State.recordRound]
  repeat' first
      | with_reducible assumption | exact fun _ => ⟨rfl, rfl⟩ | exact fun _ => rfl
      | exact fun _ => ⟨rfl, rfl, rfl, rfl, rfl⟩ | intro _ | with_reducible apply Only.ite
      | with_reducible apply Only.fst_ite | with_reducible apply Only.snd_ite | with_reducible apply Only.onFcl_keep
      | with_reducible apply Only.makeRecord | with_reducible apply Only.companion | exact Part.sub hm rfl | rfl
      | exact ⟨rfl, rfl⟩ | exact ⟨rfl, rfl, rfl, rfl, rfl⟩ | split

theorem Only.updateReady (hm : m &&& 65536 = 65536) (h : Only m x₀ s) :
    Only m x₀ (State.updateReady s) := by
  dsimp only [State.updateReady]
  repeat' first
      | with_reducible assumption | exact fun _ => ⟨rfl, rfl⟩ | exact fun _ => rfl
      | exact fun _ => ⟨rfl, rfl, rfl, rfl, rfl⟩ | intro _ | with_reducible apply Only.ite
      | with_reducible apply Only.fst_ite | with_reducible apply Only.snd_ite | with_reducible apply Only.forN
      | with_reducible apply Only.onFcl_keep

theorem Only.releaseZones (a0 : ℕ) (a1 : ℕ → Bool) (hm : m &&& 65728 = 65728) (h : Only m x₀ s) :
    Only m x₀ (State.releaseZones a0 a1 s) := by
  dsimp only [State.releaseZones]
  repeat' first
      | with_reducible assumption | exact fun _ => ⟨rfl, rfl⟩ | exact fun _ => rfl
      | exact fun _ => ⟨rfl, rfl, rfl, rfl, rfl⟩ | intro _ | with_reducible apply Only.forL
      | with_reducible apply Only.forL_fst | with_reducible apply Only.onSto_keep
      | with_reducible apply Only.onSog_keep | with_reducible apply Only.onFcl_keep | exact Part.sub hm rfl

theorem Only.rearmStart (hm : m &&& 65536 = 65536) (h : Only m x₀ s) :
    Only m x₀ (State.rearmStart s) := by
  dsimp only [State.rearmStart]
  repeat' first
      | with_reducible assumption | exact fun _ => ⟨rfl, rfl⟩ | exact fun _ => rfl
      | exact fun _ => ⟨rfl, rfl, rfl, rfl, rfl⟩ | intro _ | with_reducible apply Only.ite
      | with_reducible apply Only.fst_ite | with_reducible apply Only.snd_ite | with_reducible apply Only.onFcl_keep

theorem Only.rearmComplete (a0 : ℕ) (a1 : Bool) (a2 : Bool) (hm : m &&& 81920 = 81920) (h : Only m x₀ s) :
    Only m x₀ (State.rearmComplete a0 a1 a2 s) := by
  dsimp only [State.rearmComplete]
  repeat' first
      | with_reducible assumption | exact fun _ => ⟨rfl, rfl⟩ | exact fun _ => rfl
      | exact fun _ => ⟨rfl, rfl, rfl, rfl, rfl⟩ | intro _ | with_reducible apply Only.ite
      | with_reducible apply Only.fst_ite | with_reducible apply Only.snd_ite | with_reducible apply Only.updateReady
      | with_reducible apply Only.onFcl_keep | with_reducible apply Only.blockAll | with_reducible apply Only.raise
      | exact Part.sub hm rfl

theorem Only.execRearmComplete (a0 : ℕ) (a1 : ℕ) (a2 : Bool) (a3 : Bool) (hm : m &&& 81921 = 81921)
    (h : Only m x₀ s) :
    ∀ u, (execRearmComplete a0 a1 a2 a3 s) = .next u → Only m x₀ u := by
  intro u e
  obtain rfl := Host.Outcome.next.inj e
  repeat' first
      | with_reducible assumption | exact fun _ => ⟨rfl, rfl⟩ | exact fun _ => rfl
      | exact fun _ => ⟨rfl, rfl, rfl, rfl, rfl⟩ | intro _ | with_reducible apply Only.rearmComplete
      | with_reducible apply Only.tick | exact Part.sub hm rfl

theorem Only.endHalt (hm : m &&& 65536 = 65536) (h : Only m x₀ s) :
    Only m x₀ (State.endHalt s) := by
  dsimp only [State.endHalt]
  repeat' first
      | with_reducible assumption | exact fun _ => ⟨rfl, rfl⟩ | exact fun _ => rfl
      | exact fun _ => ⟨rfl, rfl, rfl, rfl, rfl⟩ | intro _ | with_reducible apply Only.ite
      | with_reducible apply Only.fst_ite | with_reducible apply Only.snd_ite | with_reducible apply Only.onFcl_keep

theorem Only.execCollectorSelfFault (a0 : ℕ) (a1 : Fin 6) (hm : m &&& 38224065 = 38224065) (h : Only m x₀ s) :
    ∀ u, (execCollectorSelfFault a0 a1 s) = .next u → Only m x₀ u := by
  intro u e
  obtain rfl := Host.Outcome.next.inj e
  repeat' first
      | with_reducible assumption | exact fun _ => ⟨rfl, rfl⟩ | exact fun _ => rfl
      | exact fun _ => ⟨rfl, rfl, rfl, rfl, rfl⟩ | intro _ | with_reducible apply Only.ite
      | with_reducible apply Only.fst_ite | with_reducible apply Only.snd_ite | with_reducible apply Only.tick
      | with_reducible apply Only.selfFault | exact Part.sub hm rfl

theorem Only.chipDue (a0 : ℕ) (hm : m &&& 65536 = 65536) (h : Only m x₀ s) :
    Only m x₀ (State.chipDue a0 s) := by
  dsimp only [State.chipDue]
  repeat' first
      | with_reducible assumption | exact fun _ => ⟨rfl, rfl⟩ | exact fun _ => rfl
      | exact fun _ => ⟨rfl, rfl, rfl, rfl, rfl⟩ | intro _ | with_reducible apply Only.ite
      | with_reducible apply Only.fst_ite | with_reducible apply Only.snd_ite | with_reducible apply Only.onFcl_keep

theorem Only.errStatic (hm : m &&& 65536 = 65536) (h : Only m x₀ s) :
    Only m x₀ (State.errStatic s) := by
  dsimp only [State.errStatic]
  repeat' first
      | with_reducible assumption | exact fun _ => ⟨rfl, rfl⟩ | exact fun _ => rfl
      | exact fun _ => ⟨rfl, rfl, rfl, rfl, rfl⟩ | intro _ | with_reducible apply Only.ite
      | with_reducible apply Only.fst_ite | with_reducible apply Only.snd_ite | with_reducible apply Only.onFcl_keep

theorem Only.errUpdate (hm : m &&& 65536 = 65536) (h : Only m x₀ s) :
    Only m x₀ (State.errUpdate s) := by
  dsimp only [State.errUpdate]
  repeat' first
      | with_reducible assumption | exact fun _ => ⟨rfl, rfl⟩ | exact fun _ => rfl
      | exact fun _ => ⟨rfl, rfl, rfl, rfl, rfl⟩ | intro _ | with_reducible apply Only.ite
      | with_reducible apply Only.fst_ite | with_reducible apply Only.snd_ite | with_reducible apply Only.errStatic
      | with_reducible apply Only.onFcl_keep

theorem Only.errPublish (hm : m &&& 65536 = 65536) (h : Only m x₀ s) :
    Only m x₀ (State.errPublish s) := by
  dsimp only [State.errPublish]
  repeat' first
      | with_reducible assumption | exact fun _ => ⟨rfl, rfl⟩ | exact fun _ => rfl
      | exact fun _ => ⟨rfl, rfl, rfl, rfl, rfl⟩ | intro _ | with_reducible apply Only.ite
      | with_reducible apply Only.fst_ite | with_reducible apply Only.snd_ite | with_reducible apply Only.errUpdate
      | with_reducible apply Only.onFcl_keep

theorem Only.errHalf (hm : m &&& 65536 = 65536) (h : Only m x₀ s) :
    Only m x₀ (State.errHalf s) := by
  dsimp only [State.errHalf]
  repeat' first
      | with_reducible assumption | exact fun _ => ⟨rfl, rfl⟩ | exact fun _ => rfl
      | exact fun _ => ⟨rfl, rfl, rfl, rfl, rfl⟩ | intro _ | with_reducible apply Only.ite
      | with_reducible apply Only.fst_ite | with_reducible apply Only.snd_ite | with_reducible apply Only.onFcl_keep
      | exact Part.sub hm rfl | rfl | exact ⟨rfl, rfl⟩ | exact ⟨rfl, rfl, rfl, rfl, rfl⟩ | split

theorem Only.execErrPinHalfPeriod (a0 : ℕ) (hm : m &&& 65537 = 65537) (h : Only m x₀ s) :
    ∀ u, (execErrPinHalfPeriod a0 s) = .next u → Only m x₀ u := by
  intro u e
  obtain rfl := Host.Outcome.next.inj e
  repeat' first
      | with_reducible assumption | exact fun _ => ⟨rfl, rfl⟩ | exact fun _ => rfl
      | exact fun _ => ⟨rfl, rfl, rfl, rfl, rfl⟩ | intro _ | with_reducible apply Only.errHalf
      | with_reducible apply Only.tick | exact Part.sub hm rfl

theorem Only.fclCtrClear (a0 : Word) (hm : m &&& 65536 = 65536) (h : Only m x₀ s) :
    Only m x₀ (State.fclCtrClear a0 s).1 := by
  dsimp only [State.fclCtrClear]
  repeat' first
      | with_reducible assumption | exact fun _ => ⟨rfl, rfl⟩ | exact fun _ => rfl
      | exact fun _ => ⟨rfl, rfl, rfl, rfl, rfl⟩ | intro _ | with_reducible apply Only.ite
      | with_reducible apply Only.fst_ite | with_reducible apply Only.snd_ite | with_reducible apply Only.onFcl_keep
      | exact Part.sub hm rfl | rfl | exact ⟨rfl, rfl⟩ | exact ⟨rfl, rfl, rfl, rfl, rfl⟩ | split

theorem Only.execFclCtrClear (a0 : ℕ) (a1 : Reader) (a2 : Word) (hm : m &&& 65539 = 65539) (h : Only m x₀ s) :
    ∀ u, (execFclCtrClear a0 a1 a2 s) = .next u → Only m x₀ u := by
  intro u e
  obtain rfl := Host.Outcome.next.inj e
  repeat' first
      | with_reducible assumption | exact fun _ => ⟨rfl, rfl⟩ | exact fun _ => rfl
      | exact fun _ => ⟨rfl, rfl, rfl, rfl, rfl⟩ | intro _ | with_reducible apply Only.wt
      | with_reducible apply Only.fclCtrClear | with_reducible apply Only.tick | exact Part.sub hm rfl

end Sys2Proof.Machine
end

