-- ==== Sys2Proof/Laws/OnlyCounters.lean ====
section
/-! SUPPORT. What Counters.lean keeps (Laws/Only.lean). -/

namespace Sys2Proof.Machine

variable {m : Nat} {x₀ s : State}

theorem Only.cntAdvance (a0 : ℕ) (hm : m &&& 589824 = 589824) (h : Only m x₀ s) :
    Only m x₀ (State.cntAdvance a0 s) := by
  dsimp only [State.cntAdvance]
  repeat' first
      | with_reducible assumption | exact fun _ => ⟨rfl, rfl⟩ | exact fun _ => rfl
      | exact fun _ => ⟨rfl, rfl, rfl, rfl, rfl⟩ | intro _ | with_reducible apply Only.ite
      | with_reducible apply Only.fst_ite | with_reducible apply Only.snd_ite | with_reducible apply Only.raise
      | with_reducible apply Only.onOtp_keep | exact Part.sub hm rfl

theorem Only.cntRaise (a0 : ℕ) (a1 : ℕ) (a2 : ℕ) (hm : m &&& 589824 = 589824) (h : Only m x₀ s) :
    Only m x₀ (State.cntRaise a0 a1 a2 s) := by
  induction a1 generalizing s with
  | zero => exact h
  | succ n ih =>
    dsimp only [State.cntRaise]
    split
    · exact h
    · split
      · exact .cntAdvance _ (Part.sub hm rfl) h
      · exact ih (.cntAdvance _ (Part.sub hm rfl) h)

end Sys2Proof.Machine
end

