-- ==== Sys2Proof/Laws/OnlyNandStore.lean ====
section
/-! SUPPORT. What NandStore.lean keeps (Laws/Only.lean). -/

namespace Sys2Proof.Machine

variable {m : Nat} {x₀ s : State}

theorem Only.nandFail (a0 : ℕ) (hm : m &&& 38469632 = 38469632) (h : Only m x₀ s) :
    Only m x₀ (State.nandFail a0 s) := by
  dsimp only [State.nandFail]
  repeat' first
      | with_reducible assumption | exact fun _ => ⟨rfl, rfl⟩ | exact fun _ => rfl
      | exact fun _ => ⟨rfl, rfl, rfl, rfl, rfl⟩ | intro _ | with_reducible apply Only.ite
      | with_reducible apply Only.fst_ite | with_reducible apply Only.snd_ite | with_reducible apply Only.cntAdvance
      | with_reducible apply Only.onRecd | with_reducible apply Only.cond | with_reducible apply Only.record
      | exact Part.sub hm rfl

theorem Only.nandProgram (a0 : Bool) (hm : m &&& 38469632 = 38469632) (h : Only m x₀ s) :
    Only m x₀ (State.nandProgram a0 s) := by
  dsimp only [State.nandProgram]
  repeat' first
      | with_reducible assumption | exact fun _ => ⟨rfl, rfl⟩ | exact fun _ => rfl
      | exact fun _ => ⟨rfl, rfl, rfl, rfl, rfl⟩ | intro _ | with_reducible apply Only.ite
      | with_reducible apply Only.fst_ite | with_reducible apply Only.snd_ite | with_reducible apply Only.onRecd
      | with_reducible apply Only.nandFail | exact Part.sub hm rfl | rfl | exact ⟨rfl, rfl⟩
      | exact ⟨rfl, rfl, rfl, rfl, rfl⟩ | split

theorem Only.execNandProgramComplete (a0 : ℕ) (a1 : Bool) (hm : m &&& 38469633 = 38469633) (h : Only m x₀ s) :
    ∀ u, (execNandProgramComplete a0 a1 s) = .next u → Only m x₀ u := by
  intro u e
  obtain rfl := Host.Outcome.next.inj e
  repeat' first
      | with_reducible assumption | exact fun _ => ⟨rfl, rfl⟩ | exact fun _ => rfl
      | exact fun _ => ⟨rfl, rfl, rfl, rfl, rfl⟩ | intro _ | with_reducible apply Only.nandProgram
      | with_reducible apply Only.tick | exact Part.sub hm rfl

theorem Only.wearCheck (a0 : ℕ) (hm : m &&& 65536 = 65536) (h : Only m x₀ s) :
    Only m x₀ (State.wearCheck a0 s) := by
  dsimp only [State.wearCheck]
  repeat' first
      | with_reducible assumption | exact fun _ => ⟨rfl, rfl⟩ | exact fun _ => rfl
      | exact fun _ => ⟨rfl, rfl, rfl, rfl, rfl⟩ | intro _ | with_reducible apply Only.ite
      | with_reducible apply Only.fst_ite | with_reducible apply Only.snd_ite | with_reducible apply Only.raise

theorem Only.blockErased (a0 : ℕ) (a1 : Bool) (hm : m &&& 38469632 = 38469632) (h : Only m x₀ s) :
    Only m x₀ (State.blockErased a0 a1 s) := by
  dsimp only [State.blockErased]
  repeat' first
      | with_reducible assumption | exact fun _ => ⟨rfl, rfl⟩ | exact fun _ => rfl
      | exact fun _ => ⟨rfl, rfl, rfl, rfl, rfl⟩ | intro _ | with_reducible apply Only.ite
      | with_reducible apply Only.fst_ite | with_reducible apply Only.snd_ite | with_reducible apply Only.wearCheck
      | with_reducible apply Only.onRecd | with_reducible apply Only.raise | with_reducible apply Only.nandFail
      | exact Part.sub hm rfl

theorem Only.execBlockEraseComplete (a0 : ℕ) (a1 : ℕ) (a2 : Bool) (hm : m &&& 38469633 = 38469633) (h : Only m x₀ s) :
    ∀ u, (execBlockEraseComplete a0 a1 a2 s) = .next u → Only m x₀ u := by
  intro u e
  obtain rfl := Host.Outcome.next.inj e
  repeat' first
      | with_reducible assumption | exact fun _ => ⟨rfl, rfl⟩ | exact fun _ => rfl
      | exact fun _ => ⟨rfl, rfl, rfl, rfl, rfl⟩ | intro _ | with_reducible apply Only.blockErased
      | with_reducible apply Only.tick | exact Part.sub hm rfl

theorem Only.execNandTimeout (a0 : ℕ) (hm : m &&& 38469633 = 38469633) (h : Only m x₀ s) :
    ∀ u, (execNandTimeout a0 s) = .next u → Only m x₀ u := by
  intro u e
  obtain rfl := Host.Outcome.next.inj e
  repeat' first
      | with_reducible assumption | exact fun _ => ⟨rfl, rfl⟩ | exact fun _ => rfl
      | exact fun _ => ⟨rfl, rfl, rfl, rfl, rfl⟩ | intro _ | with_reducible apply Only.ite
      | with_reducible apply Only.fst_ite | with_reducible apply Only.snd_ite | with_reducible apply Only.nandFail
      | with_reducible apply Only.tick | exact Part.sub hm rfl

theorem Only.powerUpRecord (hm : m &&& 37945344 = 37945344) (h : Only m x₀ s) :
    Only m x₀ (State.powerUpRecord s) := by
  dsimp only [State.powerUpRecord]
  repeat' first
      | with_reducible assumption | exact fun _ => ⟨rfl, rfl⟩ | exact fun _ => rfl
      | exact fun _ => ⟨rfl, rfl, rfl, rfl, rfl⟩ | intro _ | with_reducible apply Only.record

theorem Only.enterHeld (a0 : ℕ) (a1 : ℕ) (a2 : Record) (hm : m &&& 37945344 = 37945344) (h : Only m x₀ s) :
    Only m x₀ (State.enterHeld a0 a1 a2 s) := by
  dsimp only [State.enterHeld]
  repeat' first
      | with_reducible assumption | exact fun _ => ⟨rfl, rfl⟩ | exact fun _ => rfl
      | exact fun _ => ⟨rfl, rfl, rfl, rfl, rfl⟩ | intro _ | with_reducible apply Only.makeRecord

theorem Only.lifeRecordAtStart (a0 : Option Record) (hm : m &&& 37945344 = 37945344) (h : Only m x₀ s) :
    Only m x₀ (State.lifeRecordAtStart a0 s) := by
  dsimp only [State.lifeRecordAtStart]
  repeat' first
      | with_reducible assumption | exact fun _ => ⟨rfl, rfl⟩ | exact fun _ => rfl
      | exact fun _ => ⟨rfl, rfl, rfl, rfl, rfl⟩ | intro _ | with_reducible apply Only.ite
      | with_reducible apply Only.fst_ite | with_reducible apply Only.snd_ite | with_reducible apply Only.raise
      | with_reducible apply Only.record | exact Part.sub hm rfl | rfl | exact ⟨rfl, rfl⟩
      | exact ⟨rfl, rfl, rfl, rfl, rfl⟩ | split

theorem Only.headFound (hm : m &&& 2185433094 = 2185433094) (h : Only m x₀ s) :
    Only m x₀ (State.headFound s) := by
  dsimp only [State.headFound]
  repeat' first
      | with_reducible assumption | exact fun _ => ⟨rfl, rfl⟩ | exact fun _ => rfl
      | exact fun _ => ⟨rfl, rfl, rfl, rfl, rfl⟩ | intro _ | with_reducible apply Only.ite
      | with_reducible apply Only.fst_ite | with_reducible apply Only.snd_ite | with_reducible apply Only.forL
      | with_reducible apply Only.forL_fst | with_reducible apply Only.cond | with_reducible apply Only.onSys
      | with_reducible apply Only.onTsy | with_reducible apply Only.onTru | with_reducible apply Only.onRecd
      | with_reducible apply Only.powerUpRecord | with_reducible apply Only.raise
      | with_reducible apply Only.enterHeld | with_reducible apply Only.lifeRecordAtStart | exact Part.sub hm rfl
      | rfl | exact ⟨rfl, rfl⟩ | exact ⟨rfl, rfl, rfl, rfl, rfl⟩ | split

theorem Only.execHeadSearchComplete (a0 : ℕ) (hm : m &&& 2185433095 = 2185433095) (h : Only m x₀ s) :
    ∀ u, (execHeadSearchComplete a0 s) = .next u → Only m x₀ u := by
  intro u e
  obtain rfl := Host.Outcome.next.inj e
  repeat' first
      | with_reducible assumption | exact fun _ => ⟨rfl, rfl⟩ | exact fun _ => rfl
      | exact fun _ => ⟨rfl, rfl, rfl, rfl, rfl⟩ | intro _ | with_reducible apply Only.headFound
      | with_reducible apply Only.tick | exact Part.sub hm rfl

theorem Only.windowLoad (a0 : ℕ) (a1 : Word) (hm : m &&& 134348800 = 134348800) (h : Only m x₀ s) :
    Only m x₀ (State.windowLoad a0 a1 s).1 := by
  dsimp only [State.windowLoad]
  repeat' first
      | with_reducible assumption | exact fun _ => ⟨rfl, rfl⟩ | exact fun _ => rfl
      | exact fun _ => ⟨rfl, rfl, rfl, rfl, rfl⟩ | intro _ | with_reducible apply Only.onRecd
      | with_reducible apply Only.setOwn | exact Part.sub hm rfl

theorem Only.execRecWindowLoad (a0 : ℕ) (a1 : Reader) (a2 : Word) (hm : m &&& 134414339 = 134414339)
    (h : Only m x₀ s) :
    ∀ u, (execRecWindowLoad a0 a1 a2 s) = .next u → Only m x₀ u := by
  intro u e
  obtain rfl := Host.Outcome.next.inj e
  repeat' first
      | with_reducible assumption | exact fun _ => ⟨rfl, rfl⟩ | exact fun _ => rfl
      | exact fun _ => ⟨rfl, rfl, rfl, rfl, rfl⟩ | intro _ | with_reducible apply Only.plain
      | with_reducible apply Only.windowLoad | with_reducible apply Only.tick | exact Part.sub hm rfl

theorem Only.windowRead (a0 : ℕ) (hm : m &&& 131072 = 131072) (h : Only m x₀ s) :
    Only m x₀ (State.windowRead a0 s) := by
  dsimp only [State.windowRead]
  repeat' first
      | with_reducible assumption | exact fun _ => ⟨rfl, rfl⟩ | exact fun _ => rfl
      | exact fun _ => ⟨rfl, rfl, rfl, rfl, rfl⟩ | intro _ | with_reducible apply Only.onRecd

theorem Only.clearRolling (a0 : Reader) (a1 : ℕ) (a2 : ℕ) (hm : m &&& 37945344 = 37945344) (h : Only m x₀ s) :
    Only m x₀ (State.clearRolling a0 a1 a2 s) := by
  dsimp only [State.clearRolling]
  repeat' first
      | with_reducible assumption | exact fun _ => ⟨rfl, rfl⟩ | exact fun _ => rfl
      | exact fun _ => ⟨rfl, rfl, rfl, rfl, rfl⟩ | intro _ | with_reducible apply Only.ite
      | with_reducible apply Only.fst_ite | with_reducible apply Only.snd_ite | with_reducible apply Only.record
      | with_reducible apply Only.onRecd | exact Part.sub hm rfl

theorem Only.recClear (a0 : Reader) (a1 : Word) (hm : m &&& 574816258 = 574816258) (h : Only m x₀ s) :
    Only m x₀ (State.recClear a0 a1 s).1 := by
  dsimp only [State.recClear]
  repeat' first
      | with_reducible assumption | exact fun _ => ⟨rfl, rfl⟩ | exact fun _ => rfl
      | exact fun _ => ⟨rfl, rfl, rfl, rfl, rfl⟩ | intro _ | with_reducible apply Only.ite
      | with_reducible apply Only.fst_ite | with_reducible apply Only.snd_ite | with_reducible apply Only.newNonce
      | with_reducible apply Only.clearRolling | with_reducible apply Only.raise | exact Part.sub hm rfl

theorem Only.execRecClear (a0 : ℕ) (a1 : Reader) (a2 : Word) (hm : m &&& 574816259 = 574816259) (h : Only m x₀ s) :
    ∀ u, (execRecClear a0 a1 a2 s) = .next u → Only m x₀ u := by
  intro u e
  obtain rfl := Host.Outcome.next.inj e
  repeat' first
      | with_reducible assumption | exact fun _ => ⟨rfl, rfl⟩ | exact fun _ => rfl
      | exact fun _ => ⟨rfl, rfl, rfl, rfl, rfl⟩ | intro _ | with_reducible apply Only.wt
      | with_reducible apply Only.recClear | with_reducible apply Only.tick | exact Part.sub hm rfl

theorem Only.clearErased (hm : m &&& 196608 = 196608) (h : Only m x₀ s) :
    Only m x₀ (State.clearErased s) := by
  dsimp only [State.clearErased]
  repeat' first
      | with_reducible assumption | exact fun _ => ⟨rfl, rfl⟩ | exact fun _ => rfl
      | exact fun _ => ⟨rfl, rfl, rfl, rfl, rfl⟩ | intro _ | with_reducible apply Only.ite
      | with_reducible apply Only.fst_ite | with_reducible apply Only.snd_ite | with_reducible apply Only.forL
      | with_reducible apply Only.forL_fst | with_reducible apply Only.wearCheck | with_reducible apply Only.onRecd
      | exact Part.sub hm rfl

theorem Only.execClearEraseComplete (a0 : ℕ) (hm : m &&& 196609 = 196609) (h : Only m x₀ s) :
    ∀ u, (execClearEraseComplete a0 s) = .next u → Only m x₀ u := by
  intro u e
  obtain rfl := Host.Outcome.next.inj e
  repeat' first
      | with_reducible assumption | exact fun _ => ⟨rfl, rfl⟩ | exact fun _ => rfl
      | exact fun _ => ⟨rfl, rfl, rfl, rfl, rfl⟩ | intro _ | with_reducible apply Only.clearErased
      | with_reducible apply Only.tick | exact Part.sub hm rfl

theorem Only.fwRequest (a0 : Word) (hm : m &&& 37945344 = 37945344) (h : Only m x₀ s) :
    Only m x₀ (State.fwRequest a0 s).1 := by
  dsimp only [State.fwRequest]
  repeat' first
      | with_reducible assumption | exact fun _ => ⟨rfl, rfl⟩ | exact fun _ => rfl
      | exact fun _ => ⟨rfl, rfl, rfl, rfl, rfl⟩ | intro _ | with_reducible apply Only.ite
      | with_reducible apply Only.fst_ite | with_reducible apply Only.snd_ite | with_reducible apply Only.record

theorem Only.execRecFwReq (a0 : ℕ) (a1 : Reader) (a2 : Word) (hm : m &&& 37945347 = 37945347) (h : Only m x₀ s) :
    ∀ u, (execRecFwReq a0 a1 a2 s) = .next u → Only m x₀ u := by
  intro u e
  obtain rfl := Host.Outcome.next.inj e
  repeat' first
      | with_reducible assumption | exact fun _ => ⟨rfl, rfl⟩ | exact fun _ => rfl
      | exact fun _ => ⟨rfl, rfl, rfl, rfl, rfl⟩ | intro _ | with_reducible apply Only.wt
      | with_reducible apply Only.fwRequest | with_reducible apply Only.tick | exact Part.sub hm rfl

theorem Only.recCtrClear (a0 : Word) (hm : m &&& 131072 = 131072) (h : Only m x₀ s) :
    Only m x₀ (State.recCtrClear a0 s).1 := by
  dsimp only [State.recCtrClear]
  repeat' first
      | with_reducible assumption | exact fun _ => ⟨rfl, rfl⟩ | exact fun _ => rfl
      | exact fun _ => ⟨rfl, rfl, rfl, rfl, rfl⟩ | intro _ | with_reducible apply Only.ite
      | with_reducible apply Only.fst_ite | with_reducible apply Only.snd_ite | with_reducible apply Only.onRecd

theorem Only.execRecCtrClear (a0 : ℕ) (a1 : Reader) (a2 : Word) (hm : m &&& 196611 = 196611) (h : Only m x₀ s) :
    ∀ u, (execRecCtrClear a0 a1 a2 s) = .next u → Only m x₀ u := by
  intro u e
  obtain rfl := Host.Outcome.next.inj e
  repeat' first
      | with_reducible assumption | exact fun _ => ⟨rfl, rfl⟩ | exact fun _ => rfl
      | exact fun _ => ⟨rfl, rfl, rfl, rfl, rfl⟩ | intro _ | with_reducible apply Only.wt
      | with_reducible apply Only.recCtrClear | with_reducible apply Only.tick | exact Part.sub hm rfl

theorem Only.onExport (a0 : ℕ) (a1 : Export → Export) (hm : m &&& 131072 = 131072) (h : Only m x₀ s) :
    Only m x₀ (State.onExport a0 a1 s) := by
  dsimp only [State.onExport]
  repeat' first
      | with_reducible assumption | exact fun _ => ⟨rfl, rfl⟩ | exact fun _ => rfl
      | exact fun _ => ⟨rfl, rfl, rfl, rfl, rfl⟩ | intro _ | with_reducible apply Only.onRecd

theorem Only.exportBegin (a0 : ℕ) (hm : m &&& 131072 = 131072) (h : Only m x₀ s) :
    Only m x₀ (State.exportBegin a0 s).1 := by
  dsimp only [State.exportBegin]
  repeat' first
      | with_reducible assumption | exact fun _ => ⟨rfl, rfl⟩ | exact fun _ => rfl
      | exact fun _ => ⟨rfl, rfl, rfl, rfl, rfl⟩ | intro _ | with_reducible apply Only.ite
      | with_reducible apply Only.fst_ite | with_reducible apply Only.snd_ite | with_reducible apply Only.onExport

theorem Only.execExportStart (a0 : ℕ) (a1 : Reader) (a2 : BitVec 16) (hm : m &&& 196611 = 196611) (h : Only m x₀ s) :
    ∀ u, (execExportStart a0 a1 a2 s) = .next u → Only m x₀ u := by
  intro u e
  obtain rfl := Host.Outcome.next.inj e
  repeat' first
      | with_reducible assumption | exact fun _ => ⟨rfl, rfl⟩ | exact fun _ => rfl
      | exact fun _ => ⟨rfl, rfl, rfl, rfl, rfl⟩ | intro _ | with_reducible apply Only.wt
      | with_reducible apply Only.exportBegin | with_reducible apply Only.tick | exact Part.sub hm rfl

theorem Only.exportAbandon (a0 : ℕ) (hm : m &&& 131072 = 131072) (h : Only m x₀ s) :
    Only m x₀ (State.exportAbandon a0 s).1 := by
  dsimp only [State.exportAbandon]
  repeat' first
      | with_reducible assumption | exact fun _ => ⟨rfl, rfl⟩ | exact fun _ => rfl
      | exact fun _ => ⟨rfl, rfl, rfl, rfl, rfl⟩ | intro _ | with_reducible apply Only.onExport

theorem Only.execExportAbandon (a0 : ℕ) (a1 : Reader) (a2 : BitVec 16) (hm : m &&& 196611 = 196611)
    (h : Only m x₀ s) :
    ∀ u, (execExportAbandon a0 a1 a2 s) = .next u → Only m x₀ u := by
  intro u e
  obtain rfl := Host.Outcome.next.inj e
  repeat' first
      | with_reducible assumption | exact fun _ => ⟨rfl, rfl⟩ | exact fun _ => rfl
      | exact fun _ => ⟨rfl, rfl, rfl, rfl, rfl⟩ | intro _ | with_reducible apply Only.wt
      | with_reducible apply Only.exportAbandon | with_reducible apply Only.tick | exact Part.sub hm rfl

theorem Only.exportFinish (a0 : ℕ) (hm : m &&& 131072 = 131072) (h : Only m x₀ s) :
    Only m x₀ (State.exportFinish a0 s) := by
  dsimp only [State.exportFinish]
  repeat' first
      | with_reducible assumption | exact fun _ => ⟨rfl, rfl⟩ | exact fun _ => rfl
      | exact fun _ => ⟨rfl, rfl, rfl, rfl, rfl⟩ | intro _ | with_reducible apply Only.ite
      | with_reducible apply Only.fst_ite | with_reducible apply Only.snd_ite | with_reducible apply Only.onExport

theorem Only.execExportComplete (a0 : ℕ) (a1 : Reader) (hm : m &&& 131073 = 131073) (h : Only m x₀ s) :
    ∀ u, (execExportComplete a0 a1 s) = .next u → Only m x₀ u := by
  intro u e
  obtain rfl := Host.Outcome.next.inj e
  repeat' first
      | with_reducible assumption | exact fun _ => ⟨rfl, rfl⟩ | exact fun _ => rfl
      | exact fun _ => ⟨rfl, rfl, rfl, rfl, rfl⟩ | intro _ | with_reducible apply Only.exportFinish
      | with_reducible apply Only.tick | exact Part.sub hm rfl

end Sys2Proof.Machine
end

