-- ==== Sys2Proof/Laws/OnlyBlockReset.lean ====
section
/-! SUPPORT. What BlockReset.lean keeps (Laws/Only.lean). -/

namespace Sys2Proof.Machine

variable {m : Nat} {x₀ s : State}

theorem Only.holdAll (hm : m &&& 192 = 192) (h : Only m x₀ s) :
    Only m x₀ (State.holdAll s) := by
  dsimp only [State.holdAll]
  repeat' first
      | with_reducible assumption | exact fun _ => ⟨rfl, rfl⟩ | exact fun _ => rfl
      | exact fun _ => ⟨rfl, rfl, rfl, rfl, rfl⟩ | intro _ | with_reducible apply Only.forN
      | with_reducible apply Only.onSto_keep | with_reducible apply Only.onSog_keep | exact Part.sub hm rfl

theorem Only.blockFirstUse (a0 : Block) (hm : m &&& 5155319802 = 5155319802) (h : Only m x₀ s) :
    Only m x₀ (State.blockFirstUse a0 s) := by
  dsimp only [State.blockFirstUse]
  repeat' first
      | with_reducible assumption | exact fun _ => ⟨rfl, rfl⟩ | exact fun _ => rfl
      | exact fun _ => ⟨rfl, rfl, rfl, rfl, rfl⟩ | intro _ | with_reducible apply Only.holdAll
      | with_reducible apply Only.onMea | with_reducible apply Only.onFab | with_reducible apply Only.lioFirstUse
      | with_reducible apply Only.tpgFirstUse | with_reducible apply Only.onSog | with_reducible apply Only.onSto
      | with_reducible apply Only.axesBegin | with_reducible apply Only.onSep | with_reducible apply Only.onNet
      | with_reducible apply Only.startSessions | with_reducible apply Only.onRecd | with_reducible apply Only.onBst
      | with_reducible apply Only.onHif | with_reducible apply Only.onPair | with_reducible apply Only.onCvu
      | exact Part.sub hm rfl | rfl | exact ⟨rfl, rfl⟩ | exact ⟨rfl, rfl, rfl, rfl, rfl⟩ | split

theorem Only.fabStops (hm : m &&& 268443714 = 268443714) (h : Only m x₀ s) :
    Only m x₀ (State.fabStops s) := by
  dsimp only [State.fabStops]
  repeat' first
      | with_reducible assumption | exact fun _ => ⟨rfl, rfl⟩ | exact fun _ => rfl
      | exact fun _ => ⟨rfl, rfl, rfl, rfl, rfl⟩ | intro _ | with_reducible apply Only.safeFields
      | with_reducible apply Only.darkAborts | with_reducible apply Only.onSys_keep | with_reducible apply Only.framed
      | exact Part.sub hm rfl

theorem Only.blockStops (a0 : Block) (hm : m &&& 5155319802 = 5155319802) (h : Only m x₀ s) :
    Only m x₀ (State.blockStops a0 s) := by
  unfold State.blockStops
  split
  · exact .onRecd _ (Part.sub hm rfl) (.ite (.onRecd _ (Part.sub hm rfl) h) h)
  · exact .fabStops (Part.sub hm rfl) h
  · exact .darkAborts (Part.sub hm rfl) h
  · exact .blockFirstUse _ (Part.sub hm rfl) (.sporeAbort _ _ (Part.sub hm rfl) (.sporeAbort _ _ (Part.sub hm rfl) h))
  · exact .blockFirstUse _ (Part.sub hm rfl) h

theorem Only.beginReset (a0 : Block) (hm : m &&& 5222428666 = 5222428666) (h : Only m x₀ s) :
    Only m x₀ (State.beginReset a0 s) := by
  dsimp only [State.beginReset]
  repeat' first
      | with_reducible assumption | exact fun _ => ⟨rfl, rfl⟩ | exact fun _ => rfl
      | exact fun _ => ⟨rfl, rfl, rfl, rfl, rfl⟩ | intro _ | with_reducible apply Only.ite
      | with_reducible apply Only.fst_ite | with_reducible apply Only.snd_ite | with_reducible apply Only.blockStops
      | with_reducible apply Only.sporesOff | with_reducible apply Only.on | exact Part.sub hm rfl
      | (constructor <;> first | exact .inr rfl | exact .inr ⟨rfl, rfl⟩ | exact .inr ⟨rfl, rfl, rfl, rfl, rfl⟩ | exact .inl (Part.bit (Part.sub hm rfl)))

theorem Only.completeReset (a0 : Block) (a1 : Bool) (hm : m &&& 5222428666 = 5222428666) (h : Only m x₀ s) :
    Only m x₀ (State.completeReset a0 a1 s) := by
  dsimp only [State.completeReset]
  repeat' first
      | with_reducible assumption | exact fun _ => ⟨rfl, rfl⟩ | exact fun _ => rfl
      | exact fun _ => ⟨rfl, rfl, rfl, rfl, rfl⟩ | intro _ | with_reducible apply Only.ite
      | with_reducible apply Only.fst_ite | with_reducible apply Only.snd_ite | with_reducible apply Only.on
      | with_reducible apply Only.blockFirstUse | with_reducible apply Only.raise | exact Part.sub hm rfl
      | (constructor <;> first | exact .inr rfl | exact .inr ⟨rfl, rfl⟩ | exact .inr ⟨rfl, rfl, rfl, rfl, rfl⟩ | exact .inl (Part.bit (Part.sub hm rfl)))

theorem Only.execBlockResetComplete (a0 : ℕ) (a1 : Block) (a2 : Bool) (hm : m &&& 5222428667 = 5222428667)
    (h : Only m x₀ s) :
    ∀ u, (execBlockResetComplete a0 a1 a2 s) = .next u → Only m x₀ u := by
  intro u e
  obtain rfl := Host.Outcome.next.inj e
  repeat' first
      | with_reducible assumption | exact fun _ => ⟨rfl, rfl⟩ | exact fun _ => rfl
      | exact fun _ => ⟨rfl, rfl, rfl, rfl, rfl⟩ | intro _ | with_reducible apply Only.completeReset
      | with_reducible apply Only.tick | exact Part.sub hm rfl

end Sys2Proof.Machine
end

