-- ==== Sys2Proof/Laws/OnlySpores.lean ====
section
/-! SUPPORT. What Spores.lean keeps (Laws/Only.lean). -/

namespace Sys2Proof.Machine

variable {m : Nat} {x₀ s : State}

theorem Only.sporeStart (a0 : Ch) (hm : m &&& 278528 = 278528) (h : Only m x₀ s) :
    Only m x₀ (State.sporeStart a0 s) := by
  dsimp only [State.sporeStart]
  repeat' first
      | with_reducible assumption | exact fun _ => ⟨rfl, rfl⟩ | exact fun _ => rfl
      | exact fun _ => ⟨rfl, rfl, rfl, rfl, rfl⟩ | intro _ | with_reducible apply Only.ite
      | with_reducible apply Only.fst_ite | with_reducible apply Only.snd_ite | with_reducible apply Only.onSeqr
      | with_reducible apply Only.onPair | exact Part.sub hm rfl | rfl | exact ⟨rfl, rfl⟩
      | exact ⟨rfl, rfl, rfl, rfl, rfl⟩ | split

theorem Only.execSporeStart (a0 : ℕ) (a1 : Ch) (hm : m &&& 278529 = 278529) (h : Only m x₀ s) :
    ∀ u, (execSporeStart a0 a1 s) = .next u → Only m x₀ u := by
  intro u e
  obtain rfl := Host.Outcome.next.inj e
  repeat' first
      | with_reducible assumption | exact fun _ => ⟨rfl, rfl⟩ | exact fun _ => rfl
      | exact fun _ => ⟨rfl, rfl, rfl, rfl, rfl⟩ | intro _ | with_reducible apply Only.sporeStart
      | with_reducible apply Only.tick | exact Part.sub hm rfl

theorem Only.execSporeAbort (a0 : ℕ) (a1 : Ch) (a2 : AbortCause) (hm : m &&& 344065 = 344065) (h : Only m x₀ s) :
    ∀ u, (execSporeAbort a0 a1 a2 s) = .next u → Only m x₀ u := by
  intro u e
  obtain rfl := Host.Outcome.next.inj e
  repeat' first
      | with_reducible assumption | exact fun _ => ⟨rfl, rfl⟩ | exact fun _ => rfl
      | exact fun _ => ⟨rfl, rfl, rfl, rfl, rfl⟩ | intro _ | with_reducible apply Only.sporeAbort
      | with_reducible apply Only.tick | exact Part.sub hm rfl

theorem Only.loseLane (a0 : Ch) (a1 : ℕ) (hm : m &&& 65544 = 65544) (h : Only m x₀ s) :
    Only m x₀ (State.loseLane a0 a1 s) := by
  dsimp only [State.loseLane]
  repeat' first
      | with_reducible assumption | exact fun _ => ⟨rfl, rfl⟩ | exact fun _ => rfl
      | exact fun _ => ⟨rfl, rfl, rfl, rfl, rfl⟩ | intro _ | with_reducible apply Only.raise
      | with_reducible apply Only.onFab | exact Part.sub hm rfl

theorem Only.dropFrames (a0 : List (ℕ × ℕ)) (hm : m &&& 2048 = 2048) (h : Only m x₀ s) :
    Only m x₀ (State.dropFrames a0 s) := by
  dsimp only [State.dropFrames]
  repeat' first
      | with_reducible assumption | exact fun _ => ⟨rfl, rfl⟩ | exact fun _ => rfl
      | exact fun _ => ⟨rfl, rfl, rfl, rfl, rfl⟩ | intro _ | with_reducible apply Only.forL
      | with_reducible apply Only.forL_fst | with_reducible apply Only.onPort

theorem Only.dropRecords (a0 : List ℕ) (hm : m &&& 131072 = 131072) (h : Only m x₀ s) :
    Only m x₀ (State.dropRecords a0 s) := by
  dsimp only [State.dropRecords]
  repeat' first
      | with_reducible assumption | exact fun _ => ⟨rfl, rfl⟩ | exact fun _ => rfl
      | exact fun _ => ⟨rfl, rfl, rfl, rfl, rfl⟩ | intro _ | with_reducible apply Only.onRecd

theorem Only.cacheLost (a0 : Ch) (a1 : ℕ) (hm : m &&& 81920 = 81920) (h : Only m x₀ s) :
    Only m x₀ (State.cacheLost a0 a1 s) := by
  dsimp only [State.cacheLost]
  repeat' first
      | with_reducible assumption | exact fun _ => ⟨rfl, rfl⟩ | exact fun _ => rfl
      | exact fun _ => ⟨rfl, rfl, rfl, rfl, rfl⟩ | intro _ | with_reducible apply Only.raise
      | with_reducible apply Only.onPair | exact Part.sub hm rfl

theorem Only.regionLost (a0 : Ch) (a1 : ℕ) (a2 : LostRegion) (hm : m &&& 5222428666 = 5222428666) (h : Only m x₀ s) :
    Only m x₀ (State.regionLost a0 a1 a2 s) := by
  dsimp only [State.regionLost]
  repeat' first
      | with_reducible assumption | exact fun _ => ⟨rfl, rfl⟩ | exact fun _ => rfl
      | exact fun _ => ⟨rfl, rfl, rfl, rfl, rfl⟩ | intro _ | with_reducible apply Only.loseLane
      | with_reducible apply Only.onFab | with_reducible apply Only.beginReset
      | with_reducible apply Only.memUncorrectable | with_reducible apply Only.cacheLost
      | with_reducible apply Only.dropFrames | with_reducible apply Only.dropRecords | with_reducible apply Only.raise
      | exact Part.sub hm rfl | rfl | exact ⟨rfl, rfl⟩ | exact ⟨rfl, rfl, rfl, rfl, rfl⟩ | split

theorem Only.fallBack (a0 : Ch) (a1 : Running) (a2 : LostRegion) (hm : m &&& 5222428666 = 5222428666)
    (h : Only m x₀ s) :
    Only m x₀ (State.fallBack a0 a1 a2 s) := by
  dsimp only [State.fallBack]
  repeat' first
      | with_reducible assumption | exact fun _ => ⟨rfl, rfl⟩ | exact fun _ => rfl
      | exact fun _ => ⟨rfl, rfl, rfl, rfl, rfl⟩ | intro _ | with_reducible apply Only.raise
      | with_reducible apply Only.onSeqr | with_reducible apply Only.sporeEnds | with_reducible apply Only.regionLost
      | exact Part.sub hm rfl

theorem Only.noteFail (a0 : Ch) (a1 : Running) (a2 : SporeFinding) (hm : m &&& 262144 = 262144) (h : Only m x₀ s) :
    Only m x₀ (State.noteFail a0 a1 a2 s) := by
  dsimp only [State.noteFail]
  repeat' first
      | with_reducible assumption | exact fun _ => ⟨rfl, rfl⟩ | exact fun _ => rfl
      | exact fun _ => ⟨rfl, rfl, rfl, rfl, rfl⟩ | intro _ | with_reducible apply Only.onSeqr

theorem Only.toneFail (a0 : ℕ) (hm : m &&& 65792 = 65792) (h : Only m x₀ s) :
    Only m x₀ (State.toneFail a0 s) := by
  dsimp only [State.toneFail]
  repeat' first
      | with_reducible assumption | exact fun _ => ⟨rfl, rfl⟩ | exact fun _ => rfl
      | exact fun _ => ⟨rfl, rfl, rfl, rfl, rfl⟩ | intro _ | with_reducible apply Only.ite
      | with_reducible apply Only.fst_ite | with_reducible apply Only.snd_ite | with_reducible apply Only.encFail
      | with_reducible apply Only.ainFail

theorem Only.compareMemory (a0 : ℕ) (a1 : SporeFinding) (hm : m &&& 81920 = 81920) (h : Only m x₀ s) :
    Only m x₀ (State.compareMemory a0 a1 s) := by
  dsimp only [State.compareMemory]
  repeat' first
      | with_reducible assumption | exact fun _ => ⟨rfl, rfl⟩ | exact fun _ => rfl
      | exact fun _ => ⟨rfl, rfl, rfl, rfl, rfl⟩ | intro _ | with_reducible apply Only.forL
      | with_reducible apply Only.forL_fst | with_reducible apply Only.memUncorrectable
      | with_reducible apply Only.compareBlock

theorem Only.compareInjections (a0 : SporeFinding) (hm : m &&& 344064 = 344064) (h : Only m x₀ s) :
    Only m x₀ (State.compareInjections a0 s) := by
  dsimp only [State.compareInjections]
  repeat' first
      | with_reducible assumption | exact fun _ => ⟨rfl, rfl⟩ | exact fun _ => rfl
      | exact fun _ => ⟨rfl, rfl, rfl, rfl, rfl⟩ | intro _ | with_reducible apply Only.ite
      | with_reducible apply Only.fst_ite | with_reducible apply Only.snd_ite | with_reducible apply Only.blockAll
      | with_reducible apply Only.raise | with_reducible apply Only.onBst | with_reducible apply Only.onAgr
      | exact Part.sub hm rfl

theorem Only.sporeResult (a0 : Ch) (a1 : Running) (a2 : SporeFinding) (hm : m &&& 344320 = 344320) (h : Only m x₀ s) :
    Only m x₀ (State.sporeResult a0 a1 a2 s) := by
  dsimp only [State.sporeResult]
  repeat' first
      | with_reducible assumption | exact fun _ => ⟨rfl, rfl⟩ | exact fun _ => rfl
      | exact fun _ => ⟨rfl, rfl, rfl, rfl, rfl⟩ | intro _ | with_reducible apply Only.ite
      | with_reducible apply Only.fst_ite | with_reducible apply Only.snd_ite | with_reducible apply Only.raise
      | with_reducible apply Only.noteFail | with_reducible apply Only.compareMemory
      | with_reducible apply Only.compareInjections | with_reducible apply Only.toneFail | exact Part.sub hm rfl | rfl
      | exact ⟨rfl, rfl⟩ | exact ⟨rfl, rfl, rfl, rfl, rfl⟩ | split

theorem Only.passEnds (hm : m &&& 344064 = 344064) (h : Only m x₀ s) :
    Only m x₀ (State.passEnds s) := by
  dsimp only [State.passEnds]
  repeat' first
      | with_reducible assumption | exact fun _ => ⟨rfl, rfl⟩ | exact fun _ => rfl
      | exact fun _ => ⟨rfl, rfl, rfl, rfl, rfl⟩ | intro _ | with_reducible apply Only.ite
      | with_reducible apply Only.fst_ite | with_reducible apply Only.snd_ite | with_reducible apply Only.onAgr
      | with_reducible apply Only.onBst | with_reducible apply Only.cond | exact Part.sub hm rfl

theorem Only.sporeDone (a0 : Ch) (a1 : Running) (hm : m &&& 344064 = 344064) (h : Only m x₀ s) :
    Only m x₀ (State.sporeDone a0 a1 s) := by
  dsimp only [State.sporeDone]
  repeat' first
      | with_reducible assumption | exact fun _ => ⟨rfl, rfl⟩ | exact fun _ => rfl
      | exact fun _ => ⟨rfl, rfl, rfl, rfl, rfl⟩ | intro _ | with_reducible apply Only.ite
      | with_reducible apply Only.fst_ite | with_reducible apply Only.snd_ite | with_reducible apply Only.onSeqr
      | with_reducible apply Only.passEnds | exact Part.sub hm rfl

theorem Only.sporeStep (a0 : Ch) (a1 : SporeFinding) (hm : m &&& 5222428666 = 5222428666) (h : Only m x₀ s) :
    Only m x₀ (State.sporeStep a0 a1 s) := by
  dsimp only [State.sporeStep]
  repeat' first
      | with_reducible assumption | exact fun _ => ⟨rfl, rfl⟩ | exact fun _ => rfl
      | exact fun _ => ⟨rfl, rfl, rfl, rfl, rfl⟩ | intro _ | with_reducible apply Only.ite
      | with_reducible apply Only.fst_ite | with_reducible apply Only.snd_ite | with_reducible apply Only.sporeAbort
      | with_reducible apply Only.fallBack | with_reducible apply Only.sporeDone
      | with_reducible apply Only.sporeResult | with_reducible apply Only.sporeEnds | with_reducible apply Only.onSeqr
      | exact Part.sub hm rfl | rfl | exact ⟨rfl, rfl⟩ | exact ⟨rfl, rfl, rfl, rfl, rfl⟩ | split

theorem Only.execSporeStep (a0 : ℕ) (a1 : Ch) (a2 : SporeFinding) (hm : m &&& 5222428667 = 5222428667)
    (h : Only m x₀ s) :
    ∀ u, (execSporeStep a0 a1 a2 s) = .next u → Only m x₀ u := by
  intro u e
  obtain rfl := Host.Outcome.next.inj e
  repeat' first
      | with_reducible assumption | exact fun _ => ⟨rfl, rfl⟩ | exact fun _ => rfl
      | exact fun _ => ⟨rfl, rfl, rfl, rfl, rfl⟩ | intro _ | with_reducible apply Only.sporeStep
      | with_reducible apply Only.tick | exact Part.sub hm rfl

theorem Only.dtiExceeded (hm : m &&& 65536 = 65536) (h : Only m x₀ s) :
    Only m x₀ (State.dtiExceeded s) := by
  dsimp only [State.dtiExceeded]
  repeat' first
      | with_reducible assumption | exact fun _ => ⟨rfl, rfl⟩ | exact fun _ => rfl
      | exact fun _ => ⟨rfl, rfl, rfl, rfl, rfl⟩ | intro _ | with_reducible apply Only.ite
      | with_reducible apply Only.fst_ite | with_reducible apply Only.snd_ite | with_reducible apply Only.cond

theorem Only.execDtiExceeded (a0 : ℕ) (hm : m &&& 65537 = 65537) (h : Only m x₀ s) :
    ∀ u, (execDtiExceeded a0 s) = .next u → Only m x₀ u := by
  intro u e
  obtain rfl := Host.Outcome.next.inj e
  repeat' first
      | with_reducible assumption | exact fun _ => ⟨rfl, rfl⟩ | exact fun _ => rfl
      | exact fun _ => ⟨rfl, rfl, rfl, rfl, rfl⟩ | intro _ | with_reducible apply Only.dtiExceeded
      | with_reducible apply Only.tick | exact Part.sub hm rfl

theorem Only.bstCtrl (a0 : Ch) (a1 : Word) (hm : m &&& 262144 = 262144) (h : Only m x₀ s) :
    Only m x₀ (State.bstCtrl a0 a1 s).1 := by
  dsimp only [State.bstCtrl]
  repeat' first
      | with_reducible assumption | exact fun _ => ⟨rfl, rfl⟩ | exact fun _ => rfl
      | exact fun _ => ⟨rfl, rfl, rfl, rfl, rfl⟩ | intro _ | with_reducible apply Only.ite
      | with_reducible apply Only.fst_ite | with_reducible apply Only.snd_ite | with_reducible apply Only.onSeqr

theorem Only.execBstSuspend (a0 : ℕ) (a1 : Reader) (a2 : Ch) (a3 : Word) (hm : m &&& 38207491 = 38207491)
    (h : Only m x₀ s) :
    ∀ u, (execBstSuspend a0 a1 a2 a3 s) = .next u → Only m x₀ u := by
  intro u e
  obtain rfl := Host.Outcome.next.inj e
  repeat' first
      | with_reducible assumption | exact fun _ => ⟨rfl, rfl⟩ | exact fun _ => rfl
      | exact fun _ => ⟨rfl, rfl, rfl, rfl, rfl⟩ | intro _ | with_reducible apply Only.expertAt
      | with_reducible apply Only.bstCtrl | with_reducible apply Only.tick | exact Part.sub hm rfl

theorem Only.execBstForce (a0 : ℕ) (a1 : Reader) (a2 : Ch) (a3 : Word) (hm : m &&& 38207491 = 38207491)
    (h : Only m x₀ s) :
    ∀ u, (execBstForce a0 a1 a2 a3 s) = .next u → Only m x₀ u := by
  intro u e
  obtain rfl := Host.Outcome.next.inj e
  repeat' first
      | with_reducible assumption | exact fun _ => ⟨rfl, rfl⟩ | exact fun _ => rfl
      | exact fun _ => ⟨rfl, rfl, rfl, rfl, rfl⟩ | intro _ | with_reducible apply Only.expertAt
      | with_reducible apply Only.bstCtrl | with_reducible apply Only.tick | exact Part.sub hm rfl

theorem Only.bstCtrClear (a0 : Ch) (a1 : Word) (hm : m &&& 262144 = 262144) (h : Only m x₀ s) :
    Only m x₀ (State.bstCtrClear a0 a1 s).1 := by
  dsimp only [State.bstCtrClear]
  repeat' first
      | with_reducible assumption | exact fun _ => ⟨rfl, rfl⟩ | exact fun _ => rfl
      | exact fun _ => ⟨rfl, rfl, rfl, rfl, rfl⟩ | intro _ | with_reducible apply Only.ite
      | with_reducible apply Only.fst_ite | with_reducible apply Only.snd_ite | with_reducible apply Only.onSeqr

theorem Only.execBstCtrClear (a0 : ℕ) (a1 : Reader) (a2 : Ch) (a3 : Word) (hm : m &&& 327683 = 327683)
    (h : Only m x₀ s) :
    ∀ u, (execBstCtrClear a0 a1 a2 a3 s) = .next u → Only m x₀ u := by
  intro u e
  obtain rfl := Host.Outcome.next.inj e
  repeat' first
      | with_reducible assumption | exact fun _ => ⟨rfl, rfl⟩ | exact fun _ => rfl
      | exact fun _ => ⟨rfl, rfl, rfl, rfl, rfl⟩ | intro _ | with_reducible apply Only.wt
      | with_reducible apply Only.bstCtrClear | with_reducible apply Only.tick | exact Part.sub hm rfl

end Sys2Proof.Machine
end

