-- ==== Sys2Proof/Laws/OnlyRounds.lean ====
section
/-! SUPPORT. What Rounds.lean keeps (Laws/Only.lean). -/

namespace Sys2Proof.Machine

variable {m : Nat} {x₀ s : State}

theorem Only.hifPend (a0 : ℕ) (hm : m &&& 16777216 = 16777216) (h : Only m x₀ s) :
    Only m x₀ (State.hifPend a0 s) := by
  dsimp only [State.hifPend]
  repeat' first
      | with_reducible assumption | exact fun _ => ⟨rfl, rfl⟩ | exact fun _ => rfl
      | exact fun _ => ⟨rfl, rfl, rfl, rfl, rfl⟩ | intro _ | with_reducible apply Only.onHif

theorem Only.reactReset (a0 : Change) (hm : m &&& 5222428666 = 5222428666) (h : Only m x₀ s) :
    Only m x₀ (State.reactReset a0 s) := by
  dsimp only [State.reactReset]
  repeat' first
      | with_reducible assumption | exact fun _ => ⟨rfl, rfl⟩ | exact fun _ => rfl
      | exact fun _ => ⟨rfl, rfl, rfl, rfl, rfl⟩ | intro _ | with_reducible apply Only.beginReset
      | exact Part.sub hm rfl | rfl | exact ⟨rfl, rfl⟩ | exact ⟨rfl, rfl, rfl, rfl, rfl⟩ | split

theorem Only.react (a0 : Change) (hm : m &&& 5222428666 = 5222428666) (h : Only m x₀ s) :
    Only m x₀ (State.react a0 s) := by
  dsimp only [State.react]
  repeat' first
      | with_reducible assumption | exact fun _ => ⟨rfl, rfl⟩ | exact fun _ => rfl
      | exact fun _ => ⟨rfl, rfl, rfl, rfl, rfl⟩ | intro _ | with_reducible apply Only.ite
      | with_reducible apply Only.fst_ite | with_reducible apply Only.snd_ite | with_reducible apply Only.enterHalt
      | with_reducible apply Only.stopZones | with_reducible apply Only.deliverNmi
      | with_reducible apply Only.reactReset | with_reducible apply Only.chipDue | with_reducible apply Only.hifPend
      | with_reducible apply Only.onCvu | exact Part.sub hm rfl

theorem Only.onClear (a0 : ℕ) (hm : m &&& 4080 = 4080) (h : Only m x₀ s) :
    Only m x₀ (State.onClear a0 s) := by
  dsimp only [State.onClear]
  repeat' first
      | with_reducible assumption | exact fun _ => ⟨rfl, rfl⟩ | exact fun _ => rfl
      | exact fun _ => ⟨rfl, rfl, rfl, rfl, rfl⟩ | intro _ | with_reducible apply Only.ite
      | with_reducible apply Only.fst_ite | with_reducible apply Only.snd_ite | with_reducible apply Only.cleared144
      | with_reducible apply Only.clearedTpf | with_reducible apply Only.onSog_keep
      | with_reducible apply Only.onSto_keep | with_reducible apply Only.clearedEnc
      | with_reducible apply Only.clearedAin | with_reducible apply Only.clearedAxs
      | with_reducible apply Only.cleared372 | with_reducible apply Only.cleared395 | exact Part.sub hm rfl

theorem Only.unlatch (a0 : Clear) (a1 : ℕ) (a2 : ℕ) (hm : m &&& 1111691248 = 1111691248) (h : Only m x₀ s) :
    Only m x₀ (State.unlatch a0 a1 a2 s) := by
  dsimp only [State.unlatch]
  repeat' first
      | with_reducible assumption | exact fun _ => ⟨rfl, rfl⟩ | exact fun _ => rfl
      | exact fun _ => ⟨rfl, rfl, rfl, rfl, rfl⟩ | intro _ | with_reducible apply Only.ite
      | with_reducible apply Only.fst_ite | with_reducible apply Only.snd_ite | with_reducible apply Only.onFcl
      | with_reducible apply Only.record | with_reducible apply Only.onClear | exact Part.sub hm rfl

theorem Only.runClear (a0 : List Change) (a1 : Clear) (hm : m &&& 1111691250 = 1111691250) (h : Only m x₀ s) :
    Only m x₀ (State.runClear a0 a1 s) := by
  dsimp only [State.runClear]
  repeat' first
      | with_reducible assumption | exact fun _ => ⟨rfl, rfl⟩ | exact fun _ => rfl
      | exact fun _ => ⟨rfl, rfl, rfl, rfl, rfl⟩ | intro _ | with_reducible apply Only.ite
      | with_reducible apply Only.fst_ite | with_reducible apply Only.snd_ite | with_reducible apply Only.forL
      | with_reducible apply Only.forL_fst | with_reducible apply Only.unlatch | with_reducible apply Only.onSys_keep
      | with_reducible apply Only.settle | exact Part.sub hm rfl

theorem OutBlock.applyLocks_committed (o : OutBlock) : o.applyLocks.committed = o.committed := by
  have h : ∀ (l : List (Nat × Nat)) (o : OutBlock),
      (forL l (fun x o => { o with lockBy := nupd o.lockBy x.1 0 fun m => setb m x.2 true }) o).committed = o.committed := by
    intro l
    induction l with
    | nil => exact fun _ => rfl
    | cons x l ih => exact fun o => ih _
  exact h o.lockDue o

theorem Only.applyRound (a0 : List Change) (hm : m &&& 1073807554 = 1073807554) (h : Only m x₀ s) :
    Only m x₀ (State.applyRound a0 s) := by
  dsimp only [State.applyRound]
  exact .onSto_keep _ OutBlock.applyLocks_committed (Part.sub hm rfl)
    (.onSog_keep _ OutBlock.applyLocks_committed (Part.sub hm rfl)
      (.onSys_keep _ (fun _ => ⟨rfl, rfl, rfl, rfl, rfl⟩) (Part.sub hm rfl) (.onFcl _ (Part.sub hm rfl) h)))

theorem Only.newRound (hm : m &&& 65536 = 65536) (h : Only m x₀ s) :
    Only m x₀ (State.newRound s) := by
  dsimp only [State.newRound]
  repeat' first
      | with_reducible assumption | exact fun _ => ⟨rfl, rfl⟩ | exact fun _ => rfl
      | exact fun _ => ⟨rfl, rfl, rfl, rfl, rfl⟩ | intro _ | with_reducible apply Only.onFcl_keep

theorem Only.healthTriggers (a0 : Blocks) (hm : m &&& 306391242 = 306391242) (h : Only m x₀ s) :
    Only m x₀ (State.healthTriggers a0 s) := by
  dsimp only [State.healthTriggers]
  repeat' first
      | with_reducible assumption | exact fun _ => ⟨rfl, rfl⟩ | exact fun _ => rfl
      | exact fun _ => ⟨rfl, rfl, rfl, rfl, rfl⟩ | intro _ | with_reducible apply Only.forL
      | with_reducible apply Only.forL_fst | with_reducible apply Only.trigger

theorem Only.roundClose (hm : m &&& 6296170490 = 6296170490) (h : Only m x₀ s) :
    Only m x₀ (State.roundClose s) := by
  dsimp only [State.roundClose]
  repeat' first
      | with_reducible assumption | exact fun _ => ⟨rfl, rfl⟩ | exact fun _ => rfl
      | exact fun _ => ⟨rfl, rfl, rfl, rfl, rfl⟩ | intro _ | with_reducible apply Only.ite
      | with_reducible apply Only.fst_ite | with_reducible apply Only.snd_ite | with_reducible apply Only.forL
      | with_reducible apply Only.forL_fst | with_reducible apply Only.darkAborts
      | with_reducible apply Only.applyRound | with_reducible apply Only.recordRound
      | with_reducible apply Only.newRound | with_reducible apply Only.react | with_reducible apply Only.runClear
      | with_reducible apply Only.rearmStart | with_reducible apply Only.healthTriggers
      | with_reducible apply Only.errUpdate | with_reducible apply Only.updateReady | exact Part.sub hm rfl

theorem Only.execRoundClose (a0 : ℕ) (hm : m &&& 6296170491 = 6296170491) (h : Only m x₀ s) :
    ∀ u, (execRoundClose a0 s) = .next u → Only m x₀ u := by
  intro u e
  obtain rfl := Host.Outcome.next.inj e
  repeat' first
      | with_reducible assumption | exact fun _ => ⟨rfl, rfl⟩ | exact fun _ => rfl
      | exact fun _ => ⟨rfl, rfl, rfl, rfl, rfl⟩ | intro _ | with_reducible apply Only.roundClose
      | with_reducible apply Only.tick | exact Part.sub hm rfl

end Sys2Proof.Machine
end

