-- ==== Sys2Proof/Laws/OnlyOtp.lean ====
section
/-! SUPPORT. What Otp.lean keeps (Laws/Only.lean). -/

namespace Sys2Proof.Machine

variable {m : Nat} {x₀ s : State}

theorem Only.burnBit (a0 : ℕ) (hm : m &&& 524288 = 524288) (h : Only m x₀ s) :
    Only m x₀ (State.burnBit a0 s) := by
  dsimp only [State.burnBit]
  repeat' first
      | with_reducible assumption | exact fun _ => ⟨rfl, rfl⟩ | exact fun _ => rfl
      | exact fun _ => ⟨rfl, rfl, rfl, rfl, rfl⟩ | intro _ | with_reducible apply Only.onOtp_keep

theorem Only.latchRhizoid (hm : m &&& 17180459008 = 17180459008) (h : Only m x₀ s) :
    Only m x₀ (State.latchRhizoid s) := by
  dsimp only [State.latchRhizoid]
  repeat' first
      | with_reducible assumption | exact fun _ => ⟨rfl, rfl⟩ | exact fun _ => rfl
      | exact fun _ => ⟨rfl, rfl, rfl, rfl, rfl⟩ | intro _ | with_reducible apply Only.ite
      | with_reducible apply Only.fst_ite | with_reducible apply Only.snd_ite | with_reducible apply Only.forL
      | with_reducible apply Only.forL_fst | with_reducible apply Only.onOtp | with_reducible apply Only.raise
      | exact Part.sub hm rfl

theorem Only.readWords (hm : m &&& 589824 = 589824) (h : Only m x₀ s) :
    Only m x₀ (State.readWords s) := by
  dsimp only [State.readWords]
  repeat' first
      | with_reducible assumption | exact fun _ => ⟨rfl, rfl⟩ | exact fun _ => rfl
      | exact fun _ => ⟨rfl, rfl, rfl, rfl, rfl⟩ | intro _ | with_reducible apply Only.ite
      | with_reducible apply Only.fst_ite | with_reducible apply Only.snd_ite | with_reducible apply Only.forL
      | with_reducible apply Only.forL_fst | with_reducible apply Only.onOtp_keep | with_reducible apply Only.raise
      | exact Part.sub hm rfl | rfl | exact ⟨rfl, rfl⟩ | exact ⟨rfl, rfl, rfl, rfl, rfl⟩ | split

theorem Only.readSpares (hm : m &&& 589824 = 589824) (h : Only m x₀ s) :
    Only m x₀ (State.readSpares s) := by
  dsimp only [State.readSpares]
  repeat' first
      | with_reducible assumption | exact fun _ => ⟨rfl, rfl⟩ | exact fun _ => rfl
      | exact fun _ => ⟨rfl, rfl, rfl, rfl, rfl⟩ | intro _ | with_reducible apply Only.ite
      | with_reducible apply Only.fst_ite | with_reducible apply Only.snd_ite | with_reducible apply Only.forL
      | with_reducible apply Only.forL_fst | with_reducible apply Only.raise | with_reducible apply Only.onOtp_keep
      | exact Part.sub hm rfl

theorem Only.readRows (hm : m &&& 589824 = 589824) (h : Only m x₀ s) :
    Only m x₀ (State.readRows s) := by
  dsimp only [State.readRows]
  repeat' first
      | with_reducible assumption | exact fun _ => ⟨rfl, rfl⟩ | exact fun _ => rfl
      | exact fun _ => ⟨rfl, rfl, rfl, rfl, rfl⟩ | intro _ | with_reducible apply Only.forL
      | with_reducible apply Only.forL_fst | with_reducible apply Only.raise | with_reducible apply Only.onOtp_keep
      | exact Part.sub hm rfl

theorem Only.readCounters (hm : m &&& 589824 = 589824) (h : Only m x₀ s) :
    Only m x₀ (State.readCounters s) := by
  dsimp only [State.readCounters]
  repeat' first
      | with_reducible assumption | exact fun _ => ⟨rfl, rfl⟩ | exact fun _ => rfl
      | exact fun _ => ⟨rfl, rfl, rfl, rfl, rfl⟩ | intro _ | with_reducible apply Only.ite
      | with_reducible apply Only.fst_ite | with_reducible apply Only.snd_ite | with_reducible apply Only.forL
      | with_reducible apply Only.forL_fst | with_reducible apply Only.raise | with_reducible apply Only.onOtp_keep
      | exact Part.sub hm rfl

theorem Only.readDigests (hm : m &&& 589824 = 589824) (h : Only m x₀ s) :
    Only m x₀ (State.readDigests s) := by
  dsimp only [State.readDigests]
  repeat' first
      | with_reducible assumption | exact fun _ => ⟨rfl, rfl⟩ | exact fun _ => rfl
      | exact fun _ => ⟨rfl, rfl, rfl, rfl, rfl⟩ | intro _ | with_reducible apply Only.ite
      | with_reducible apply Only.fst_ite | with_reducible apply Only.snd_ite | with_reducible apply Only.forL
      | with_reducible apply Only.forL_fst | with_reducible apply Only.raise | with_reducible apply Only.onOtp_keep
      | exact Part.sub hm rfl

theorem Only.otpStart (hm : m &&& 589824 = 589824) (h : Only m x₀ s) :
    Only m x₀ (State.otpStart s) := by
  dsimp only [State.otpStart]
  repeat' first
      | with_reducible assumption | exact fun _ => ⟨rfl, rfl⟩ | exact fun _ => rfl
      | exact fun _ => ⟨rfl, rfl, rfl, rfl, rfl⟩ | intro _ | with_reducible apply Only.readDigests
      | with_reducible apply Only.readCounters | with_reducible apply Only.readRows
      | with_reducible apply Only.readSpares | with_reducible apply Only.readWords

theorem Only.sessionBegin (a0 : Session) (hm : m &&& 524288 = 524288) (h : Only m x₀ s) :
    Only m x₀ (State.sessionBegin a0 s).1 := by
  dsimp only [State.sessionBegin]
  repeat' first
      | with_reducible assumption | exact fun _ => ⟨rfl, rfl⟩ | exact fun _ => rfl
      | exact fun _ => ⟨rfl, rfl, rfl, rfl, rfl⟩ | intro _ | with_reducible apply Only.onOtp_keep

theorem Only.otpGate (a0 : Reader) (a1 : State → State × ℕ) (h_a1 : ∀ t, Only m x₀ t → Only m x₀ (a1 t).1)
    (h : Only m x₀ s) :
    Only m x₀ (State.otpGate a0 a1 s).1 := by
  dsimp only [State.otpGate]
  repeat' first
      | with_reducible assumption | exact fun _ => ⟨rfl, rfl⟩ | exact fun _ => rfl
      | exact fun _ => ⟨rfl, rfl, rfl, rfl, rfl⟩ | intro _ | with_reducible apply Only.ite
      | with_reducible apply Only.fst_ite | with_reducible apply Only.snd_ite | with_reducible apply h_a1

theorem Only.burnWord (a0 : Reader) (a1 : BitVec 16) (hm : m &&& 524288 = 524288) (h : Only m x₀ s) :
    Only m x₀ (State.burnWord a0 a1 s).1 := by
  dsimp only [State.burnWord]
  repeat' first
      | with_reducible assumption | exact fun _ => ⟨rfl, rfl⟩ | exact fun _ => rfl
      | exact fun _ => ⟨rfl, rfl, rfl, rfl, rfl⟩ | intro _ | with_reducible apply Only.ite
      | with_reducible apply Only.fst_ite | with_reducible apply Only.snd_ite | with_reducible apply Only.otpGate
      | with_reducible apply Only.sessionBegin | exact Part.sub hm rfl | rfl | exact ⟨rfl, rfl⟩
      | exact ⟨rfl, rfl, rfl, rfl, rfl⟩ | split

theorem Only.finalise (a0 : Reader) (a1 : BitVec 16) (a2 : ℕ) (a3 : Bool) (hm : m &&& 524288 = 524288)
    (h : Only m x₀ s) :
    Only m x₀ (State.finalise a0 a1 a2 a3 s).1 := by
  dsimp only [State.finalise]
  repeat' first
      | with_reducible assumption | exact fun _ => ⟨rfl, rfl⟩ | exact fun _ => rfl
      | exact fun _ => ⟨rfl, rfl, rfl, rfl, rfl⟩ | intro _ | with_reducible apply Only.ite
      | with_reducible apply Only.fst_ite | with_reducible apply Only.snd_ite | with_reducible apply Only.otpGate
      | with_reducible apply Only.sessionBegin | exact Part.sub hm rfl | rfl | exact ⟨rfl, rfl⟩
      | exact ⟨rfl, rfl, rfl, rfl, rfl⟩ | split

theorem Only.retire (a0 : Reader) (a1 : ℕ) (hm : m &&& 524288 = 524288) (h : Only m x₀ s) :
    Only m x₀ (State.retire a0 a1 s).1 := by
  dsimp only [State.retire]
  repeat' first
      | with_reducible assumption | exact fun _ => ⟨rfl, rfl⟩ | exact fun _ => rfl
      | exact fun _ => ⟨rfl, rfl, rfl, rfl, rfl⟩ | intro _ | with_reducible apply Only.ite
      | with_reducible apply Only.fst_ite | with_reducible apply Only.snd_ite | with_reducible apply Only.forN
      | with_reducible apply Only.otpGate | with_reducible apply Only.burnBit | with_reducible apply Only.onOtp_keep
      | exact Part.sub hm rfl | rfl | exact ⟨rfl, rfl⟩ | exact ⟨rfl, rfl, rfl, rfl, rfl⟩ | split

theorem Only.burnRow (a0 : Reader) (a1 : BitVec 16) (a2 : ℕ) (hm : m &&& 524288 = 524288) (h : Only m x₀ s) :
    Only m x₀ (State.burnRow a0 a1 a2 s).1 := by
  dsimp only [State.burnRow]
  repeat' first
      | with_reducible assumption | exact fun _ => ⟨rfl, rfl⟩ | exact fun _ => rfl
      | exact fun _ => ⟨rfl, rfl, rfl, rfl, rfl⟩ | intro _ | with_reducible apply Only.ite
      | with_reducible apply Only.fst_ite | with_reducible apply Only.snd_ite | with_reducible apply Only.otpGate
      | with_reducible apply Only.sessionBegin

theorem Only.redirectRow (a0 : Reader) (a1 : BitVec 16) (a2 : ℕ) (hm : m &&& 524288 = 524288) (h : Only m x₀ s) :
    Only m x₀ (State.redirectRow a0 a1 a2 s).1 := by
  dsimp only [State.redirectRow]
  repeat' first
      | with_reducible assumption | exact fun _ => ⟨rfl, rfl⟩ | exact fun _ => rfl
      | exact fun _ => ⟨rfl, rfl, rfl, rfl, rfl⟩ | intro _ | with_reducible apply Only.ite
      | with_reducible apply Only.fst_ite | with_reducible apply Only.snd_ite | with_reducible apply Only.otpGate
      | with_reducible apply Only.sessionBegin | exact Part.sub hm rfl | rfl | exact ⟨rfl, rfl⟩
      | exact ⟨rfl, rfl, rfl, rfl, rfl⟩ | split

theorem Only.otpTurn (a0 : Instr) (a1 : State → State × ℕ) (hm : m &&& 524288 = 524288)
    (h_a1 : ∀ t, Only m x₀ t → Only m x₀ (a1 t).1) (h : Only m x₀ s) :
    Only m x₀ (State.otpTurn a0 a1 s).1 := by
  dsimp only [State.otpTurn]
  repeat' first
      | with_reducible assumption | exact fun _ => ⟨rfl, rfl⟩ | exact fun _ => rfl
      | exact fun _ => ⟨rfl, rfl, rfl, rfl, rfl⟩ | intro _ | with_reducible apply Only.ite
      | with_reducible apply Only.fst_ite | with_reducible apply Only.snd_ite | with_reducible apply Only.onOtp_keep
      | with_reducible apply h_a1

theorem Only.execOtpBurnWord (a0 : ℕ) (a1 : Reader) (a2 : Word) (hm : m &&& 589827 = 589827) (h : Only m x₀ s) :
    ∀ u, (execOtpBurnWord a0 a1 a2 s) = .next u → Only m x₀ u := by
  intro u e
  obtain rfl := Host.Outcome.next.inj e
  repeat' first
      | with_reducible assumption | exact fun _ => ⟨rfl, rfl⟩ | exact fun _ => rfl
      | exact fun _ => ⟨rfl, rfl, rfl, rfl, rfl⟩ | intro _ | with_reducible apply Only.wt
      | with_reducible apply Only.otpTurn | with_reducible apply Only.burnWord | with_reducible apply Only.tick
      | exact Part.sub hm rfl

theorem Only.execOtpFinalise (a0 : ℕ) (a1 : Reader) (a2 : Word) (hm : m &&& 589827 = 589827) (h : Only m x₀ s) :
    ∀ u, (execOtpFinalise a0 a1 a2 s) = .next u → Only m x₀ u := by
  intro u e
  obtain rfl := Host.Outcome.next.inj e
  repeat' first
      | with_reducible assumption | exact fun _ => ⟨rfl, rfl⟩ | exact fun _ => rfl
      | exact fun _ => ⟨rfl, rfl, rfl, rfl, rfl⟩ | intro _ | with_reducible apply Only.wt
      | with_reducible apply Only.otpTurn | with_reducible apply Only.finalise | with_reducible apply Only.tick
      | exact Part.sub hm rfl

theorem Only.execOtpRetire (a0 : ℕ) (a1 : Reader) (a2 : Word) (hm : m &&& 589827 = 589827) (h : Only m x₀ s) :
    ∀ u, (execOtpRetire a0 a1 a2 s) = .next u → Only m x₀ u := by
  intro u e
  obtain rfl := Host.Outcome.next.inj e
  repeat' first
      | with_reducible assumption | exact fun _ => ⟨rfl, rfl⟩ | exact fun _ => rfl
      | exact fun _ => ⟨rfl, rfl, rfl, rfl, rfl⟩ | intro _ | with_reducible apply Only.wt
      | with_reducible apply Only.otpTurn | with_reducible apply Only.retire | with_reducible apply Only.tick
      | exact Part.sub hm rfl

theorem Only.execOtpBurn4408Row (a0 : ℕ) (a1 : Reader) (a2 : Word) (hm : m &&& 589827 = 589827) (h : Only m x₀ s) :
    ∀ u, (execOtpBurn4408Row a0 a1 a2 s) = .next u → Only m x₀ u := by
  intro u e
  obtain rfl := Host.Outcome.next.inj e
  repeat' first
      | with_reducible assumption | exact fun _ => ⟨rfl, rfl⟩ | exact fun _ => rfl
      | exact fun _ => ⟨rfl, rfl, rfl, rfl, rfl⟩ | intro _ | with_reducible apply Only.wt
      | with_reducible apply Only.otpTurn | with_reducible apply Only.burnRow | with_reducible apply Only.tick
      | exact Part.sub hm rfl

theorem Only.execOtpRedirect4408Row (a0 : ℕ) (a1 : Reader) (a2 : Word) (hm : m &&& 589827 = 589827)
    (h : Only m x₀ s) :
    ∀ u, (execOtpRedirect4408Row a0 a1 a2 s) = .next u → Only m x₀ u := by
  intro u e
  obtain rfl := Host.Outcome.next.inj e
  repeat' first
      | with_reducible assumption | exact fun _ => ⟨rfl, rfl⟩ | exact fun _ => rfl
      | exact fun _ => ⟨rfl, rfl, rfl, rfl, rfl⟩ | intro _ | with_reducible apply Only.wt
      | with_reducible apply Only.otpTurn | with_reducible apply Only.redirectRow | with_reducible apply Only.tick
      | exact Part.sub hm rfl

theorem Only.storeWords (a0 : ℕ) (a1 : List (BitVec 72 × BitVec 72)) (hm : m &&& 524288 = 524288) (h : Only m x₀ s) :
    Only m x₀ (State.storeWords a0 a1 s) := by
  dsimp only [State.storeWords]
  repeat' first
      | with_reducible assumption | exact fun _ => ⟨rfl, rfl⟩ | exact fun _ => rfl
      | exact fun _ => ⟨rfl, rfl, rfl, rfl, rfl⟩ | intro _ | with_reducible apply Only.forL
      | with_reducible apply Only.forL_fst | with_reducible apply Only.onOtp_keep

theorem Only.noteSession (a0 : Session) (a1 : BurnOutcome) (a2 : ℕ) (hm : m &&& 524288 = 524288) (h : Only m x₀ s) :
    Only m x₀ (State.noteSession a0 a1 a2 s) := by
  dsimp only [State.noteSession]
  repeat' first
      | with_reducible assumption | exact fun _ => ⟨rfl, rfl⟩ | exact fun _ => rfl
      | exact fun _ => ⟨rfl, rfl, rfl, rfl, rfl⟩ | intro _ | with_reducible apply Only.onOtp_keep

theorem Only.storeSession (a0 : Session) (a1 : BurnOutcome) (hm : m &&& 524288 = 524288) (h : Only m x₀ s) :
    Only m x₀ (State.storeSession a0 a1 s) := by
  dsimp only [State.storeSession]
  repeat' first
      | with_reducible assumption | exact fun _ => ⟨rfl, rfl⟩ | exact fun _ => rfl
      | exact fun _ => ⟨rfl, rfl, rfl, rfl, rfl⟩ | intro _ | with_reducible apply Only.ite
      | with_reducible apply Only.fst_ite | with_reducible apply Only.snd_ite | with_reducible apply Only.onOtp_keep
      | with_reducible apply Only.storeWords | exact Part.sub hm rfl | rfl | exact ⟨rfl, rfl⟩
      | exact ⟨rfl, rfl, rfl, rfl, rfl⟩ | split

theorem Only.lockRegion (a0 : ℕ) (a1 : Bool) (hm : m &&& 524288 = 524288) (h : Only m x₀ s) :
    Only m x₀ (State.lockRegion a0 a1 s) := by
  dsimp only [State.lockRegion]
  repeat' first
      | with_reducible assumption | exact fun _ => ⟨rfl, rfl⟩ | exact fun _ => rfl
      | exact fun _ => ⟨rfl, rfl, rfl, rfl, rfl⟩ | intro _ | with_reducible apply Only.ite
      | with_reducible apply Only.fst_ite | with_reducible apply Only.snd_ite | with_reducible apply Only.burnBit
      | exact Part.sub hm rfl | rfl | exact ⟨rfl, rfl⟩ | exact ⟨rfl, rfl, rfl, rfl, rfl⟩ | split

theorem Only.sessionEnds (a0 : Session) (a1 : BurnOutcome) (hm : m &&& 589824 = 589824) (h : Only m x₀ s) :
    Only m x₀ (State.sessionEnds a0 a1 s).1 := by
  dsimp only [State.sessionEnds]
  repeat' first
      | with_reducible assumption | exact fun _ => ⟨rfl, rfl⟩ | exact fun _ => rfl
      | exact fun _ => ⟨rfl, rfl, rfl, rfl, rfl⟩ | intro _ | with_reducible apply Only.ite
      | with_reducible apply Only.fst_ite | with_reducible apply Only.snd_ite | with_reducible apply Only.noteSession
      | with_reducible apply Only.storeSession | with_reducible apply Only.onOtp_keep
      | with_reducible apply Only.raise | with_reducible apply Only.lockRegion | exact Part.sub hm rfl

theorem Only.vppEnds (a0 : Session) (a1 : ℕ) (a2 : List (BitVec 72 × BitVec 72)) (hm : m &&& 589826 = 589826)
    (h : Only m x₀ s) :
    Only m x₀ (State.vppEnds a0 a1 a2 s) := by
  dsimp only [State.vppEnds]
  repeat' first
      | with_reducible assumption | exact fun _ => ⟨rfl, rfl⟩ | exact fun _ => rfl
      | exact fun _ => ⟨rfl, rfl, rfl, rfl, rfl⟩ | intro _ | with_reducible apply Only.onOtp_keep
      | with_reducible apply Only.storeSession | with_reducible apply Only.settle | with_reducible apply Only.raise
      | exact Part.sub hm rfl

theorem Only.otpReadCmd (a0 : ℕ) (a1 : Word) (hm : m &&& 524288 = 524288) (h : Only m x₀ s) :
    Only m x₀ (State.otpReadCmd a0 a1 s).1 := by
  dsimp only [State.otpReadCmd]
  repeat' first
      | with_reducible assumption | exact fun _ => ⟨rfl, rfl⟩ | exact fun _ => rfl
      | exact fun _ => ⟨rfl, rfl, rfl, rfl, rfl⟩ | intro _ | with_reducible apply Only.ite
      | with_reducible apply Only.fst_ite | with_reducible apply Only.snd_ite | with_reducible apply Only.onOtp_keep

theorem Only.execOtpRead (a0 : ℕ) (a1 : Reader) (a2 : Word) (hm : m &&& 589827 = 589827) (h : Only m x₀ s) :
    ∀ u, (execOtpRead a0 a1 a2 s) = .next u → Only m x₀ u := by
  intro u e
  obtain rfl := Host.Outcome.next.inj e
  repeat' first
      | with_reducible assumption | exact fun _ => ⟨rfl, rfl⟩ | exact fun _ => rfl
      | exact fun _ => ⟨rfl, rfl, rfl, rfl, rfl⟩ | intro _ | with_reducible apply Only.plain
      | with_reducible apply Only.otpReadCmd | with_reducible apply Only.tick | exact Part.sub hm rfl

end Sys2Proof.Machine
end

