-- ==== Sys2Proof/Laws/OnlyIdentity.lean ====
section
/-! SUPPORT. What Identity.lean keeps (Laws/Only.lean). -/

namespace Sys2Proof.Machine

variable {m : Nat} {x₀ s : State}

theorem Only.lcsRefuse (a0 : ℕ) (hm : m &&& 1114112 = 1114112) (h : Only m x₀ s) :
    Only m x₀ (State.lcsRefuse a0 s).1 := by
  dsimp only [State.lcsRefuse]
  repeat' first
      | with_reducible assumption | exact fun _ => ⟨rfl, rfl⟩ | exact fun _ => rfl
      | exact fun _ => ⟨rfl, rfl, rfl, rfl, rfl⟩ | intro _ | with_reducible apply Only.ite
      | with_reducible apply Only.fst_ite | with_reducible apply Only.snd_ite | with_reducible apply Only.raise
      | with_reducible apply Only.onLcs | exact Part.sub hm rfl

theorem Only.lcsGate (a0 : Reader) (a1 : ℕ) (a2 : Word) (a3 : State → State × ℕ)
    (hm : m &&& 537985026 = 537985026) (h_a3 : ∀ t, Only m x₀ t → Only m x₀ (a3 t).1) (h : Only m x₀ s) :
    Only m x₀ (State.lcsGate a0 a1 a2 a3 s).1 := by
  dsimp only [State.lcsGate]
  repeat' first
      | with_reducible assumption | exact fun _ => ⟨rfl, rfl⟩ | exact fun _ => rfl
      | exact fun _ => ⟨rfl, rfl, rfl, rfl, rfl⟩ | intro _ | with_reducible apply Only.ite
      | with_reducible apply Only.fst_ite | with_reducible apply Only.snd_ite | with_reducible apply Only.newNonce
      | with_reducible apply Only.lcsRefuse | with_reducible apply Only.onLcs | with_reducible apply h_a3
      | exact Part.sub hm rfl

theorem Only.lcsBlockEnd (a0 : ℕ) (hm : m &&& 1048576 = 1048576) (h : Only m x₀ s) :
    Only m x₀ (State.lcsBlockEnd a0 s) := by
  dsimp only [State.lcsBlockEnd]
  repeat' first
      | with_reducible assumption | exact fun _ => ⟨rfl, rfl⟩ | exact fun _ => rfl
      | exact fun _ => ⟨rfl, rfl, rfl, rfl, rfl⟩ | intro _ | with_reducible apply Only.ite
      | with_reducible apply Only.fst_ite | with_reducible apply Only.snd_ite | with_reducible apply Only.onLcs
      | exact Part.sub hm rfl | rfl | exact ⟨rfl, rfl⟩ | exact ⟨rfl, rfl, rfl, rfl, rfl⟩ | split

theorem Only.execLcsBlockEnd (a0 : ℕ) (a1 : Reader) (hm : m &&& 1048577 = 1048577) (h : Only m x₀ s) :
    ∀ u, (execLcsBlockEnd a0 a1 s) = .next u → Only m x₀ u := by
  intro u e
  obtain rfl := Host.Outcome.next.inj e
  repeat' first
      | with_reducible assumption | exact fun _ => ⟨rfl, rfl⟩ | exact fun _ => rfl
      | exact fun _ => ⟨rfl, rfl, rfl, rfl, rfl⟩ | intro _ | with_reducible apply Only.lcsBlockEnd
      | with_reducible apply Only.tick | exact Part.sub hm rfl

theorem Only.lcsHalt (a0 : ℕ) (hm : m &&& 196608 = 196608) (h : Only m x₀ s) :
    Only m x₀ (State.lcsHalt a0 s) := by
  dsimp only [State.lcsHalt]
  repeat' first
      | with_reducible assumption | exact fun _ => ⟨rfl, rfl⟩ | exact fun _ => rfl
      | exact fun _ => ⟨rfl, rfl, rfl, rfl, rfl⟩ | intro _ | with_reducible apply Only.ite
      | with_reducible apply Only.fst_ite | with_reducible apply Only.snd_ite | with_reducible apply Only.raise
      | with_reducible apply Only.onRecd | exact Part.sub hm rfl

theorem Only.lcsBegin (a0 : Reader) (a1 : ℕ) (a2 : BitVec 16) (hm : m &&& 1245184 = 1245184) (h : Only m x₀ s) :
    Only m x₀ (State.lcsBegin a0 a1 a2 s).1 := by
  dsimp only [State.lcsBegin]
  repeat' first
      | with_reducible assumption | exact fun _ => ⟨rfl, rfl⟩ | exact fun _ => rfl
      | exact fun _ => ⟨rfl, rfl, rfl, rfl, rfl⟩ | intro _ | with_reducible apply Only.onLcs
      | with_reducible apply Only.lcsHalt | exact Part.sub hm rfl

theorem Only.toManufacture (a0 : Reader) (a1 : Word) (hm : m &&& 538116098 = 538116098) (h : Only m x₀ s) :
    Only m x₀ (State.toManufacture a0 a1 s).1 := by
  dsimp only [State.toManufacture]
  repeat' first
      | with_reducible assumption | exact fun _ => ⟨rfl, rfl⟩ | exact fun _ => rfl
      | exact fun _ => ⟨rfl, rfl, rfl, rfl, rfl⟩ | intro _ | with_reducible apply Only.ite
      | with_reducible apply Only.fst_ite | with_reducible apply Only.snd_ite | with_reducible apply Only.lcsGate
      | with_reducible apply Only.lcsBegin | exact Part.sub hm rfl

theorem Only.storeKey (a0 : BitVec 256) (hm : m &&& 2621440 = 2621440) (h : Only m x₀ s) :
    Only m x₀ (State.storeKey a0 s) := by
  dsimp only [State.storeKey]
  repeat' first
      | with_reducible assumption | exact fun _ => ⟨rfl, rfl⟩ | exact fun _ => rfl
      | exact fun _ => ⟨rfl, rfl, rfl, rfl, rfl⟩ | intro _ | with_reducible apply Only.lockRegion
      | with_reducible apply Only.storeWords | with_reducible apply Only.onKey | with_reducible apply Only.burnBit
      | exact Part.sub hm rfl | rfl | exact ⟨rfl, rfl⟩ | exact ⟨rfl, rfl, rfl, rfl, rfl⟩ | split

theorem Only.spoilKey (a0 : BitVec 256) (hm : m &&& 537460736 = 537460736) (h : Only m x₀ s) :
    Only m x₀ (State.spoilKey a0 s) := by
  unfold State.spoilKey
  extract_lets n left s1
  have h1 : Only m x₀ s1 := by
    unfold s1
    split
    · exact .storeWords _ _ (Part.sub hm rfl) h
    · exact h
  exact .drew _ _ (Part.sub hm rfl) (.raise _ _ _ _ _ (Part.sub hm rfl) h1)

theorem Only.generateKey (a0 : Reader) (a1 : Word) (a2 : Bool) (a3 : Bool)
    (hm : m &&& 540737538 = 540737538) (h : Only m x₀ s) :
    Only m x₀ (State.generateKey a0 a1 a2 a3 s).1 := by
  dsimp only [State.generateKey]
  repeat' first
      | with_reducible assumption | exact fun _ => ⟨rfl, rfl⟩ | exact fun _ => rfl
      | exact fun _ => ⟨rfl, rfl, rfl, rfl, rfl⟩ | intro _ | with_reducible apply Only.ite
      | with_reducible apply Only.fst_ite | with_reducible apply Only.snd_ite | with_reducible apply Only.lcsGate
      | with_reducible apply Only.lcsHalt | with_reducible apply Only.raise | with_reducible apply Only.draw
      | with_reducible apply Only.spoilKey | with_reducible apply Only.storeKey | exact Part.sub hm rfl

theorem Only.toProvisioned (a0 : Reader) (a1 : Word) (hm : m &&& 538116098 = 538116098) (h : Only m x₀ s) :
    Only m x₀ (State.toProvisioned a0 a1 s).1 := by
  dsimp only [State.toProvisioned]
  repeat' first
      | with_reducible assumption | exact fun _ => ⟨rfl, rfl⟩ | exact fun _ => rfl
      | exact fun _ => ⟨rfl, rfl, rfl, rfl, rfl⟩ | intro _ | with_reducible apply Only.ite
      | with_reducible apply Only.fst_ite | with_reducible apply Only.snd_ite | with_reducible apply Only.lcsGate
      | with_reducible apply Only.lcsBegin | exact Part.sub hm rfl

theorem Only.toDeployed (a0 : Reader) (a1 : Word) (hm : m &&& 538116098 = 538116098) (h : Only m x₀ s) :
    Only m x₀ (State.toDeployed a0 a1 s).1 := by
  dsimp only [State.toDeployed]
  repeat' first
      | with_reducible assumption | exact fun _ => ⟨rfl, rfl⟩ | exact fun _ => rfl
      | exact fun _ => ⟨rfl, rfl, rfl, rfl, rfl⟩ | intro _ | with_reducible apply Only.ite
      | with_reducible apply Only.fst_ite | with_reducible apply Only.snd_ite | with_reducible apply Only.lcsGate
      | with_reducible apply Only.lcsBegin | exact Part.sub hm rfl

theorem Only.leaveKey (hm : m &&& 537395200 = 537395200) (h : Only m x₀ s) :
    Only m x₀ (State.leaveKey s) := by
  unfold State.leaveKey
  exact .drew _ _ (Part.sub hm rfl) (.forL _ (fun x t ht => .onOtp_keep _ (fun _ => rfl) (Part.sub hm rfl) ht) h)

theorem Only.destroyKey (a0 : Bool) (hm : m &&& 539492352 = 539492352) (h : Only m x₀ s) :
    Only m x₀ (State.destroyKey a0 s) := by
  dsimp only [State.destroyKey]
  repeat' first
      | with_reducible assumption | exact fun _ => ⟨rfl, rfl⟩ | exact fun _ => rfl
      | exact fun _ => ⟨rfl, rfl, rfl, rfl, rfl⟩ | intro _ | with_reducible apply Only.ite
      | with_reducible apply Only.fst_ite | with_reducible apply Only.snd_ite | with_reducible apply Only.forL
      | with_reducible apply Only.forL_fst | with_reducible apply Only.onKey | with_reducible apply Only.burnBit
      | with_reducible apply Only.onOtp_keep | with_reducible apply Only.leaveKey | exact Part.sub hm rfl

theorem Only.toReturned (a0 : Reader) (a1 : Word) (a2 : Bool) (hm : m &&& 540737538 = 540737538) (h : Only m x₀ s) :
    Only m x₀ (State.toReturned a0 a1 a2 s).1 := by
  dsimp only [State.toReturned]
  repeat' first
      | with_reducible assumption | exact fun _ => ⟨rfl, rfl⟩ | exact fun _ => rfl
      | exact fun _ => ⟨rfl, rfl, rfl, rfl, rfl⟩ | intro _ | with_reducible apply Only.ite
      | with_reducible apply Only.fst_ite | with_reducible apply Only.snd_ite | with_reducible apply Only.lcsGate
      | with_reducible apply Only.destroyKey | with_reducible apply Only.lcsHalt | with_reducible apply Only.onLcs
      | with_reducible apply Only.raise | exact Part.sub hm rfl

theorem Only.debugUnlock (a0 : Reader) (a1 : Word) (hm : m &&& 575864834 = 575864834) (h : Only m x₀ s) :
    Only m x₀ (State.debugUnlock a0 a1 s).1 := by
  dsimp only [State.debugUnlock]
  repeat' first
      | with_reducible assumption | exact fun _ => ⟨rfl, rfl⟩ | exact fun _ => rfl
      | exact fun _ => ⟨rfl, rfl, rfl, rfl, rfl⟩ | intro _ | with_reducible apply Only.lcsGate
      | with_reducible apply Only.record | with_reducible apply Only.onLcs | with_reducible apply Only.raise
      | exact Part.sub hm rfl

theorem Only.openScan (a0 : Reader) (a1 : Word) (hm : m &&& 538116098 = 538116098) (h : Only m x₀ s) :
    Only m x₀ (State.openScan a0 a1 s).1 := by
  dsimp only [State.openScan]
  repeat' first
      | with_reducible assumption | exact fun _ => ⟨rfl, rfl⟩ | exact fun _ => rfl
      | exact fun _ => ⟨rfl, rfl, rfl, rfl, rfl⟩ | intro _ | with_reducible apply Only.lcsGate
      | with_reducible apply Only.lcsBegin | exact Part.sub hm rfl

theorem Only.execLcToManufacture (a0 : ℕ) (a1 : Reader) (a2 : Word) (hm : m &&& 538640387 = 538640387)
    (h : Only m x₀ s) :
    ∀ u, (execLcToManufacture a0 a1 a2 s) = .next u → Only m x₀ u := by
  intro u e
  obtain rfl := Host.Outcome.next.inj e
  repeat' first
      | with_reducible assumption | exact fun _ => ⟨rfl, rfl⟩ | exact fun _ => rfl
      | exact fun _ => ⟨rfl, rfl, rfl, rfl, rfl⟩ | intro _ | with_reducible apply Only.wt
      | with_reducible apply Only.otpTurn | with_reducible apply Only.toManufacture | with_reducible apply Only.tick
      | exact Part.sub hm rfl

theorem Only.execGenerateKey (a0 : ℕ) (a1 : Reader) (a2 : Word) (a3 : Bool) (a4 : Bool)
    (hm : m &&& 540737539 = 540737539) (h : Only m x₀ s) :
    ∀ u, (execGenerateKey a0 a1 a2 a3 a4 s) = .next u → Only m x₀ u := by
  intro u e
  obtain rfl := Host.Outcome.next.inj e
  repeat' first
      | with_reducible assumption | exact fun _ => ⟨rfl, rfl⟩ | exact fun _ => rfl
      | exact fun _ => ⟨rfl, rfl, rfl, rfl, rfl⟩ | intro _ | with_reducible apply Only.wt
      | with_reducible apply Only.otpTurn | with_reducible apply Only.generateKey | with_reducible apply Only.tick
      | exact Part.sub hm rfl

theorem Only.execLcToProvisioned (a0 : ℕ) (a1 : Reader) (a2 : Word) (hm : m &&& 538640387 = 538640387)
    (h : Only m x₀ s) :
    ∀ u, (execLcToProvisioned a0 a1 a2 s) = .next u → Only m x₀ u := by
  intro u e
  obtain rfl := Host.Outcome.next.inj e
  repeat' first
      | with_reducible assumption | exact fun _ => ⟨rfl, rfl⟩ | exact fun _ => rfl
      | exact fun _ => ⟨rfl, rfl, rfl, rfl, rfl⟩ | intro _ | with_reducible apply Only.wt
      | with_reducible apply Only.otpTurn | with_reducible apply Only.toProvisioned | with_reducible apply Only.tick
      | exact Part.sub hm rfl

theorem Only.execLcToDeployed (a0 : ℕ) (a1 : Reader) (a2 : Word) (hm : m &&& 538640387 = 538640387)
    (h : Only m x₀ s) :
    ∀ u, (execLcToDeployed a0 a1 a2 s) = .next u → Only m x₀ u := by
  intro u e
  obtain rfl := Host.Outcome.next.inj e
  repeat' first
      | with_reducible assumption | exact fun _ => ⟨rfl, rfl⟩ | exact fun _ => rfl
      | exact fun _ => ⟨rfl, rfl, rfl, rfl, rfl⟩ | intro _ | with_reducible apply Only.wt
      | with_reducible apply Only.otpTurn | with_reducible apply Only.toDeployed | with_reducible apply Only.tick
      | exact Part.sub hm rfl

theorem Only.execLcToReturned (a0 : ℕ) (a1 : Reader) (a2 : Word) (a3 : Bool) (hm : m &&& 540737539 = 540737539)
    (h : Only m x₀ s) :
    ∀ u, (execLcToReturned a0 a1 a2 a3 s) = .next u → Only m x₀ u := by
  intro u e
  obtain rfl := Host.Outcome.next.inj e
  repeat' first
      | with_reducible assumption | exact fun _ => ⟨rfl, rfl⟩ | exact fun _ => rfl
      | exact fun _ => ⟨rfl, rfl, rfl, rfl, rfl⟩ | intro _ | with_reducible apply Only.wt
      | with_reducible apply Only.otpTurn | with_reducible apply Only.toReturned | with_reducible apply Only.tick
      | exact Part.sub hm rfl

theorem Only.execDebugUnlock (a0 : ℕ) (a1 : Reader) (a2 : Word) (hm : m &&& 576389123 = 576389123) (h : Only m x₀ s) :
    ∀ u, (execDebugUnlock a0 a1 a2 s) = .next u → Only m x₀ u := by
  intro u e
  obtain rfl := Host.Outcome.next.inj e
  repeat' first
      | with_reducible assumption | exact fun _ => ⟨rfl, rfl⟩ | exact fun _ => rfl
      | exact fun _ => ⟨rfl, rfl, rfl, rfl, rfl⟩ | intro _ | with_reducible apply Only.wt
      | with_reducible apply Only.otpTurn | with_reducible apply Only.debugUnlock | with_reducible apply Only.tick
      | exact Part.sub hm rfl

theorem Only.execOpenScan (a0 : ℕ) (a1 : Reader) (a2 : Word) (hm : m &&& 538640387 = 538640387) (h : Only m x₀ s) :
    ∀ u, (execOpenScan a0 a1 a2 s) = .next u → Only m x₀ u := by
  intro u e
  obtain rfl := Host.Outcome.next.inj e
  repeat' first
      | with_reducible assumption | exact fun _ => ⟨rfl, rfl⟩ | exact fun _ => rfl
      | exact fun _ => ⟨rfl, rfl, rfl, rfl, rfl⟩ | intro _ | with_reducible apply Only.wt
      | with_reducible apply Only.otpTurn | with_reducible apply Only.openScan | with_reducible apply Only.tick
      | exact Part.sub hm rfl

theorem Only.certStart (hm : m &&& 2097152 = 2097152) (h : Only m x₀ s) :
    Only m x₀ (State.certStart s) := by
  dsimp only [State.certStart]
  repeat' first
      | with_reducible assumption | exact fun _ => ⟨rfl, rfl⟩ | exact fun _ => rfl
      | exact fun _ => ⟨rfl, rfl, rfl, rfl, rfl⟩ | intro _ | with_reducible apply Only.forN
      | with_reducible apply Only.onKey

theorem Only.keyStart (a0 : Bool) (hm : m &&& 2162688 = 2162688) (h : Only m x₀ s) :
    Only m x₀ (State.keyStart a0 s) := by
  dsimp only [State.keyStart]
  repeat' first
      | with_reducible assumption | exact fun _ => ⟨rfl, rfl⟩ | exact fun _ => rfl
      | exact fun _ => ⟨rfl, rfl, rfl, rfl, rfl⟩ | intro _ | with_reducible apply Only.ite
      | with_reducible apply Only.fst_ite | with_reducible apply Only.snd_ite | with_reducible apply Only.onKey
      | with_reducible apply Only.certStart | with_reducible apply Only.raise | exact Part.sub hm rfl

theorem Only.onAtt (a0 : ℕ) (a1 : Attest → Attest) (hm : m &&& 2097152 = 2097152) (h : Only m x₀ s) :
    Only m x₀ (State.onAtt a0 a1 s) := by
  dsimp only [State.onAtt]
  repeat' first
      | with_reducible assumption | exact fun _ => ⟨rfl, rfl⟩ | exact fun _ => rfl
      | exact fun _ => ⟨rfl, rfl, rfl, rfl, rfl⟩ | intro _ | with_reducible apply Only.onKey

theorem Only.attestStart (a0 : ℕ) (a1 : Word) (hm : m &&& 2097152 = 2097152) (h : Only m x₀ s) :
    Only m x₀ (State.attestStart a0 a1 s).1 := by
  dsimp only [State.attestStart]
  repeat' first
      | with_reducible assumption | exact fun _ => ⟨rfl, rfl⟩ | exact fun _ => rfl
      | exact fun _ => ⟨rfl, rfl, rfl, rfl, rfl⟩ | intro _ | with_reducible apply Only.ite
      | with_reducible apply Only.fst_ite | with_reducible apply Only.snd_ite | with_reducible apply Only.onAtt

theorem Only.attestFinish (a0 : ℕ) (hm : m &&& 2097152 = 2097152) (h : Only m x₀ s) :
    Only m x₀ (State.attestFinish a0 s) := by
  dsimp only [State.attestFinish]
  repeat' first
      | with_reducible assumption | exact fun _ => ⟨rfl, rfl⟩ | exact fun _ => rfl
      | exact fun _ => ⟨rfl, rfl, rfl, rfl, rfl⟩ | intro _ | with_reducible apply Only.ite
      | with_reducible apply Only.fst_ite | with_reducible apply Only.snd_ite | with_reducible apply Only.onAtt

theorem Only.execAttestationStart (a0 : ℕ) (a1 : Reader) (a2 : Word) (hm : m &&& 2162691 = 2162691)
    (h : Only m x₀ s) :
    ∀ u, (execAttestationStart a0 a1 a2 s) = .next u → Only m x₀ u := by
  intro u e
  obtain rfl := Host.Outcome.next.inj e
  repeat' first
      | with_reducible assumption | exact fun _ => ⟨rfl, rfl⟩ | exact fun _ => rfl
      | exact fun _ => ⟨rfl, rfl, rfl, rfl, rfl⟩ | intro _ | with_reducible apply Only.wt
      | with_reducible apply Only.attestStart | with_reducible apply Only.tick | exact Part.sub hm rfl

theorem Only.execAttestationComplete (a0 : ℕ) (a1 : Reader) (hm : m &&& 2097153 = 2097153) (h : Only m x₀ s) :
    ∀ u, (execAttestationComplete a0 a1 s) = .next u → Only m x₀ u := by
  intro u e
  obtain rfl := Host.Outcome.next.inj e
  repeat' first
      | with_reducible assumption | exact fun _ => ⟨rfl, rfl⟩ | exact fun _ => rfl
      | exact fun _ => ⟨rfl, rfl, rfl, rfl, rfl⟩ | intro _ | with_reducible apply Only.attestFinish
      | with_reducible apply Only.tick | exact Part.sub hm rfl

end Sys2Proof.Machine
end

