-- ==== Sys2Proof/Laws/OnlyPower.lean ====
section
/-! SUPPORT. What Power.lean keeps (Laws/Only.lean). -/

namespace Sys2Proof.Machine

variable {m : Nat} {x₀ s : State}

theorem Only.wiped (a0 : Bool) (hm : m &&& 51539607550 = 51539607550) (h : Only m x₀ s) :
    Only m x₀ (State.wiped a0 s) := by
  constructor
  · constructor <;> first
      | exact h.b.now
      | exact h.b.lifeBits
      | exact .inl (Part.bit (Part.sub hm rfl))
  · exact .inl (Part.bit (Part.sub hm rfl))
  · exact .inl (Part.bit (Part.sub hm rfl))
  · exact h.queue

theorem Only.thermal (hm : m &&& 65536 = 65536) (h : Only m x₀ s) :
    Only m x₀ (State.thermal s) := by
  dsimp only [State.thermal]
  repeat' first
      | with_reducible assumption | exact fun _ => ⟨rfl, rfl⟩ | exact fun _ => rfl
      | exact fun _ => ⟨rfl, rfl, rfl, rfl, rfl⟩ | intro _ | with_reducible apply Only.cond

theorem Only.tjRead (a0 : ℤ) (a1 : ℤ) (hm : m &&& 4259840 = 4259840) (h : Only m x₀ s) :
    Only m x₀ (State.tjRead a0 a1 s) := by
  dsimp only [State.tjRead]
  repeat' first
      | with_reducible assumption | exact fun _ => ⟨rfl, rfl⟩ | exact fun _ => rfl
      | exact fun _ => ⟨rfl, rfl, rfl, rfl, rfl⟩ | intro _ | with_reducible apply Only.thermal
      | with_reducible apply Only.onPwr_keep | exact Part.sub hm rfl

theorem Only.execTjThreshold (a0 : ℕ) (a1 : ℤ) (a2 : ℤ) (hm : m &&& 4259841 = 4259841) (h : Only m x₀ s) :
    ∀ u, (execTjThreshold a0 a1 a2 s) = .next u → Only m x₀ u := by
  intro u e
  obtain rfl := Host.Outcome.next.inj e
  repeat' first
      | with_reducible assumption | exact fun _ => ⟨rfl, rfl⟩ | exact fun _ => rfl
      | exact fun _ => ⟨rfl, rfl, rfl, rfl, rfl⟩ | intro _ | with_reducible apply Only.tjRead
      | with_reducible apply Only.tick | exact Part.sub hm rfl

theorem Only.release (hm : m &&& 34364260352 = 34364260352) (h : Only m x₀ s) :
    Only m x₀ (State.release s) := by
  dsimp only [State.release]
  repeat' first
      | with_reducible assumption | exact fun _ => ⟨rfl, rfl⟩ | exact fun _ => rfl
      | exact fun _ => ⟨rfl, rfl, rfl, rfl, rfl⟩ | intro _ | with_reducible apply Only.thermal
      | with_reducible apply Only.onBst | with_reducible apply Only.onFcl_keep | with_reducible apply Only.onPwr
      | exact Part.sub hm rfl

theorem Only.chipReset (a0 : ℕ) (hm : m &&& 51539607550 = 51539607550) (h : Only m x₀ s) :
    Only m x₀ (State.chipReset a0 s) := by
  dsimp only [State.chipReset]
  repeat' first
      | with_reducible assumption | exact fun _ => ⟨rfl, rfl⟩ | exact fun _ => rfl
      | exact fun _ => ⟨rfl, rfl, rfl, rfl, rfl⟩ | intro _ | with_reducible apply Only.ite
      | with_reducible apply Only.fst_ite | with_reducible apply Only.snd_ite | with_reducible apply Only.onPwr
      | with_reducible apply Only.wiped | with_reducible apply Only.release | exact Part.sub hm rfl

theorem Only.flushAll (a0 : ℕ) (hm : m &&& 4325376 = 4325376) (h : Only m x₀ s) :
    Only m x₀ (State.flushAll a0 s) := by
  dsimp only [State.flushAll]
  repeat' first
      | with_reducible assumption | exact fun _ => ⟨rfl, rfl⟩ | exact fun _ => rfl
      | exact fun _ => ⟨rfl, rfl, rfl, rfl, rfl⟩ | intro _ | with_reducible apply Only.ite
      | with_reducible apply Only.fst_ite | with_reducible apply Only.snd_ite | with_reducible apply Only.onRecd
      | with_reducible apply Only.onPwr_keep | exact Part.sub hm rfl

theorem Only.afterWait (a0 : Reader) (a1 : ℕ) (a2 : Word) (a3 : State → State × ℕ) (hm : m &&& 2 = 2)
    (h_a3 : ∀ t, Only m x₀ t → Only m x₀ (a3 t).1) (h : Only m x₀ s) :
    Only m x₀ (State.afterWait a0 a1 a2 a3 s) := by
  dsimp only [State.afterWait]
  repeat' first
      | with_reducible assumption | exact fun _ => ⟨rfl, rfl⟩ | exact fun _ => rfl
      | exact fun _ => ⟨rfl, rfl, rfl, rfl, rfl⟩ | intro _ | with_reducible apply Only.ite
      | with_reducible apply Only.fst_ite | with_reducible apply Only.snd_ite | with_reducible apply Only.settle
      | with_reducible apply h_a3

theorem Only.runWaiting (a0 : Instr) (hm : m &&& 578486274 = 578486274) (h : Only m x₀ s) :
    Only m x₀ (State.runWaiting a0 s) := by
  dsimp only [State.runWaiting]
  repeat' first
      | with_reducible assumption | exact fun _ => ⟨rfl, rfl⟩ | exact fun _ => rfl
      | exact fun _ => ⟨rfl, rfl, rfl, rfl, rfl⟩ | intro _ | with_reducible apply Only.afterWait
      | with_reducible apply Only.burnWord | with_reducible apply Only.finalise | with_reducible apply Only.retire
      | with_reducible apply Only.burnRow | with_reducible apply Only.redirectRow
      | with_reducible apply Only.toManufacture | with_reducible apply Only.generateKey
      | with_reducible apply Only.toProvisioned | with_reducible apply Only.toDeployed
      | with_reducible apply Only.toReturned | with_reducible apply Only.debugUnlock
      | with_reducible apply Only.openScan | exact Part.sub hm rfl | rfl | exact ⟨rfl, rfl⟩
      | exact ⟨rfl, rfl, rfl, rfl, rfl⟩ | split

theorem Only.drainWaiting (a0 : ℕ) (hm : m &&& 578486274 = 578486274) (h : Only m x₀ s) :
    Only m x₀ (State.drainWaiting a0 s) := by
  induction a0 generalizing s with
  | zero => exact h
  | succ n ih =>
    dsimp only [State.drainWaiting]
    split
    · exact h
    · split
      · exact h
      · exact ih (.runWaiting _ (Part.sub hm rfl) (.onOtp_keep _ (fun _ => rfl) (Part.sub hm rfl) h))

theorem Only.drainAll (hm : m &&& 578486274 = 578486274) (h : Only m x₀ s) :
    Only m x₀ (State.drainAll s) := by
  dsimp only [State.drainAll]
  repeat' first
      | with_reducible assumption | exact fun _ => ⟨rfl, rfl⟩ | exact fun _ => rfl
      | exact fun _ => ⟨rfl, rfl, rfl, rfl, rfl⟩ | intro _ | with_reducible apply Only.drainWaiting

theorem Only.sessionDone (a0 : BurnOutcome) (hm : m &&& 578486274 = 578486274) (h : Only m x₀ s) :
    Only m x₀ (State.sessionDone a0 s) := by
  dsimp only [State.sessionDone]
  repeat' first
      | with_reducible assumption | exact fun _ => ⟨rfl, rfl⟩ | exact fun _ => rfl
      | exact fun _ => ⟨rfl, rfl, rfl, rfl, rfl⟩ | intro _ | with_reducible apply Only.sessionEnds
      | with_reducible apply Only.drainAll | with_reducible apply Only.settle | exact Part.sub hm rfl | rfl
      | exact ⟨rfl, rfl⟩ | exact ⟨rfl, rfl, rfl, rfl, rfl⟩ | split

theorem Only.vppFails (a0 : ℕ) (a1 : List (BitVec 72 × BitVec 72)) (hm : m &&& 578486274 = 578486274)
    (h : Only m x₀ s) :
    Only m x₀ (State.vppFails a0 a1 s) := by
  dsimp only [State.vppFails]
  repeat' first
      | with_reducible assumption | exact fun _ => ⟨rfl, rfl⟩ | exact fun _ => rfl
      | exact fun _ => ⟨rfl, rfl, rfl, rfl, rfl⟩ | intro _ | with_reducible apply Only.ite
      | with_reducible apply Only.fst_ite | with_reducible apply Only.snd_ite | with_reducible apply Only.drainAll
      | with_reducible apply Only.vppEnds | exact Part.sub hm rfl | rfl | exact ⟨rfl, rfl⟩
      | exact ⟨rfl, rfl, rfl, rfl, rfl⟩ | split

theorem Only.execOtpSessionComplete (a0 : ℕ) (a1 : BurnOutcome) (hm : m &&& 578486275 = 578486275) (h : Only m x₀ s) :
    ∀ u, (execOtpSessionComplete a0 a1 s) = .next u → Only m x₀ u := by
  intro u e
  obtain rfl := Host.Outcome.next.inj e
  repeat' first
      | with_reducible assumption | exact fun _ => ⟨rfl, rfl⟩ | exact fun _ => rfl
      | exact fun _ => ⟨rfl, rfl, rfl, rfl, rfl⟩ | intro _ | with_reducible apply Only.sessionDone
      | with_reducible apply Only.tick | exact Part.sub hm rfl

theorem Only.execOtpVppOutOfRange (a0 : ℕ) (a1 : ℕ) (a2 : List (BitVec 72 × BitVec 72))
    (hm : m &&& 578486275 = 578486275) (h : Only m x₀ s) :
    ∀ u, (execOtpVppOutOfRange a0 a1 a2 s) = .next u → Only m x₀ u := by
  intro u e
  obtain rfl := Host.Outcome.next.inj e
  repeat' first
      | with_reducible assumption | exact fun _ => ⟨rfl, rfl⟩ | exact fun _ => rfl
      | exact fun _ => ⟨rfl, rfl, rfl, rfl, rfl⟩ | intro _ | with_reducible apply Only.vppFails
      | with_reducible apply Only.tick | exact Part.sub hm rfl

theorem Only.cutWords (a0 : Session) (hm : m &&& 537395200 = 537395200) (h : Only m x₀ s) :
    Only m x₀ (State.cutWords a0 s) := by
  unfold State.cutWords
  exact .drew _ _ (Part.sub hm rfl)
    (.ite (.onOtp_keep _ (fun _ => rfl) (Part.sub hm rfl) h) (.forL _ (fun x t ht => .onOtp_keep _ (fun _ => rfl) (Part.sub hm rfl) ht) h))

theorem Only.cutSession (hm : m &&& 537395202 = 537395202) (h : Only m x₀ s) :
    Only m x₀ (State.cutSession s) := by
  dsimp only [State.cutSession]
  repeat' first
      | with_reducible assumption | exact fun _ => ⟨rfl, rfl⟩ | exact fun _ => rfl
      | exact fun _ => ⟨rfl, rfl, rfl, rfl, rfl⟩ | intro _ | with_reducible apply Only.settle
      | with_reducible apply Only.onOtp_keep | with_reducible apply Only.cutWords | exact Part.sub hm rfl | rfl
      | exact ⟨rfl, rfl⟩ | exact ⟨rfl, rfl, rfl, rfl, rfl⟩ | split

theorem Only.refuseWaiting (hm : m &&& 524290 = 524290) (h : Only m x₀ s) :
    Only m x₀ (State.refuseWaiting s) := by
  dsimp only [State.refuseWaiting]
  repeat' first
      | with_reducible assumption | exact fun _ => ⟨rfl, rfl⟩ | exact fun _ => rfl
      | exact fun _ => ⟨rfl, rfl, rfl, rfl, rfl⟩ | intro _ | with_reducible apply Only.forL
      | with_reducible apply Only.forL_fst | with_reducible apply Only.settle | with_reducible apply Only.onOtp_keep
      | exact Part.sub hm rfl | rfl | exact ⟨rfl, rfl⟩ | exact ⟨rfl, rfl, rfl, rfl, rfl⟩ | split

theorem Only.chipReaction (hm : m &&& 51539607550 = 51539607550) (h : Only m x₀ s) :
    Only m x₀ (State.chipReaction s) := by
  dsimp only [State.chipReaction]
  repeat' first
      | with_reducible assumption | exact fun _ => ⟨rfl, rfl⟩ | exact fun _ => rfl
      | exact fun _ => ⟨rfl, rfl, rfl, rfl, rfl⟩ | intro _ | with_reducible apply Only.ite
      | with_reducible apply Only.fst_ite | with_reducible apply Only.snd_ite | with_reducible apply Only.chipReset
      | with_reducible apply Only.cutSession | with_reducible apply Only.flushAll | exact Part.sub hm rfl

theorem Only.execChipResetReaction (a0 : ℕ) (hm : m &&& 51539607551 = 51539607551) (h : Only m x₀ s) :
    ∀ u, (execChipResetReaction a0 s) = .next u → Only m x₀ u := by
  intro u e
  obtain rfl := Host.Outcome.next.inj e
  repeat' first
      | with_reducible assumption | exact fun _ => ⟨rfl, rfl⟩ | exact fun _ => rfl
      | exact fun _ => ⟨rfl, rfl, rfl, rfl, rfl⟩ | intro _ | with_reducible apply Only.chipReaction
      | with_reducible apply Only.tick | exact Part.sub hm rfl

theorem Only.burnNew (a0 : ℕ) (hm : m &&& 524288 = 524288) (h : Only m x₀ s) :
    Only m x₀ (State.burnNew a0 s) := by
  dsimp only [State.burnNew]
  repeat' first
      | with_reducible assumption | exact fun _ => ⟨rfl, rfl⟩ | exact fun _ => rfl
      | exact fun _ => ⟨rfl, rfl, rfl, rfl, rfl⟩ | intro _ | with_reducible apply Only.ite
      | with_reducible apply Only.fst_ite | with_reducible apply Only.snd_ite | with_reducible apply Only.burnBit

theorem Only.burnOver (a0 : ℕ) (a1 : BitVec 64) (hm : m &&& 524288 = 524288) (h : Only m x₀ s) :
    Only m x₀ (State.burnOver a0 a1 s) := by
  dsimp only [State.burnOver]
  repeat' first
      | with_reducible assumption | exact fun _ => ⟨rfl, rfl⟩ | exact fun _ => rfl
      | exact fun _ => ⟨rfl, rfl, rfl, rfl, rfl⟩ | intro _ | with_reducible apply Only.onOtp_keep

theorem Only.certBurns (b : Blocks)
    (hm : m &&& 51539607550 = 51539607550) : ∀ f ∈ b.certBurns, ∀ t, Only m x₀ t → Only m x₀ (f t) := by
  intro f hf t ht
  unfold Blocks.certBurns at hf
  split at hf
  · simp only [List.mem_append, List.mem_map, List.mem_singleton] at hf
    rcases hf with (⟨x, -, rfl⟩ | ⟨x, -, rfl⟩) | rfl
    · exact .burnOver _ _ (Part.sub hm rfl) ht
    · exact .burnOver _ _ (Part.sub hm rfl) ht
    · exact .lockRegion _ _ (Part.sub hm rfl) ht
  · exact absurd hf List.not_mem_nil

theorem Only.lcsBurns (b : Blocks) (op : Nat)
    (hm : m &&& 51539607550 = 51539607550) : ∀ f ∈ b.lcsBurns op, ∀ t, Only m x₀ t → Only m x₀ (f t) := by
  intro f hf t ht
  unfold Blocks.lcsBurns at hf
  split at hf
  · rw [List.mem_singleton] at hf; subst hf; exact .burnNew _ (Part.sub hm rfl) ht
  · rcases List.mem_append.mp hf with hf | hf
    · exact .certBurns b hm f hf t ht
    · simp only [List.mem_cons, List.not_mem_nil, or_false] at hf
      rcases hf with rfl | rfl | rfl <;> exact .burnNew _ (Part.sub hm rfl) ht
  · simp only [List.mem_cons, List.not_mem_nil, or_false] at hf
    rcases hf with rfl | rfl | rfl | rfl
    · exact .burnNew _ (Part.sub hm rfl) ht
    · exact .burnNew _ (Part.sub hm rfl) ht
    · exact .cntRaise _ _ _ (Part.sub hm rfl) ht
    · exact .burnNew _ (Part.sub hm rfl) ht
  · simp only [List.mem_cons, List.not_mem_nil, or_false] at hf
    rcases hf with rfl | rfl
    · exact .cntAdvance _ (Part.sub hm rfl) ht
    · exact .burnNew _ (Part.sub hm rfl) ht
  · split at hf
    · rw [List.mem_singleton] at hf; subst hf; exact .cntAdvance _ (Part.sub hm rfl) ht
    · exact absurd hf List.not_mem_nil

theorem Only.lcsFinish (a0 : Bool) (hm : m &&& 51539607550 = 51539607550) (h : Only m x₀ s) :
    Only m x₀ (State.lcsFinish a0 s) := by
  unfold State.lcsFinish
  split
  · exact h
  · next op _ =>
    have hb := Only.lcsBurns (x₀ := x₀) s.b op (Part.sub hm rfl)
    split
    · exact .chipReset _ (Part.sub hm rfl) (.onLcs _ (Part.sub hm rfl) (.flushAll _ (Part.sub hm rfl) (.record _ _ (Part.sub hm rfl) (.forL_mem _ hb h))))
    · exact .drainAll (Part.sub hm rfl) (.settle _ _ _ _ (Part.sub hm rfl) (.raise _ _ _ _ _ (Part.sub hm rfl) (.onLcs _ (Part.sub hm rfl)
        (.forL_mem _ (fun f hf => hb f (List.mem_of_mem_take hf)) (.drew _ _ (Part.sub hm rfl) h)))))

theorem Only.execLifeCycleReset (a0 : ℕ) (a1 : Bool) (hm : m &&& 51539607551 = 51539607551) (h : Only m x₀ s) :
    ∀ u, (execLifeCycleReset a0 a1 s) = .next u → Only m x₀ u := by
  intro u e
  obtain rfl := Host.Outcome.next.inj e
  repeat' first
      | with_reducible assumption | exact fun _ => ⟨rfl, rfl⟩ | exact fun _ => rfl
      | exact fun _ => ⟨rfl, rfl, rfl, rfl, rfl⟩ | intro _ | with_reducible apply Only.lcsFinish
      | with_reducible apply Only.tick | exact Part.sub hm rfl

theorem Only.vcoreRead (a0 : Ch) (a1 : ℕ) (hm : m &&& 4194304 = 4194304) (h : Only m x₀ s) :
    Only m x₀ (State.vcoreRead a0 a1 s) := by
  dsimp only [State.vcoreRead]
  repeat' first
      | with_reducible assumption | exact fun _ => ⟨rfl, rfl⟩ | exact fun _ => rfl
      | exact fun _ => ⟨rfl, rfl, rfl, rfl, rfl⟩ | intro _ | with_reducible apply Only.onPwr_keep
      | exact Part.sub hm rfl | rfl | exact ⟨rfl, rfl⟩ | exact ⟨rfl, rfl, rfl, rfl, rfl⟩ | split

theorem Only.railOut (a0 : Rail) (a1 : ℕ) (hm : m &&& 51539607550 = 51539607550) (h : Only m x₀ s) :
    Only m x₀ (State.railOut a0 a1 s) := by
  unfold State.railOut
  extract_lets s1 l src s2
  have h1 : Only m x₀ s1 := by
    cases a0 <;> first | exact h | exact .vcoreRead _ _ (Part.sub hm rfl) h
  have h2 : Only m x₀ s2 := .onPwr _ (Part.sub hm rfl) (.drew _ _ (Part.sub hm rfl) (.wiped _ (Part.sub hm rfl) h1))
  exact .ite h1 (.ite (.raise _ _ _ _ _ (Part.sub hm rfl) h2) h2)

theorem Only.execRailOutOfRange (a0 : ℕ) (a1 : Rail) (a2 : ℕ) (hm : m &&& 51539607551 = 51539607551)
    (h : Only m x₀ s) :
    ∀ u, (execRailOutOfRange a0 a1 a2 s) = .next u → Only m x₀ u := by
  intro u e
  obtain rfl := Host.Outcome.next.inj e
  repeat' first
      | with_reducible assumption | exact fun _ => ⟨rfl, rfl⟩ | exact fun _ => rfl
      | exact fun _ => ⟨rfl, rfl, rfl, rfl, rfl⟩ | intro _ | with_reducible apply Only.railOut
      | with_reducible apply Only.tick | exact Part.sub hm rfl

theorem Only.execVcoreMonitorDisagree (a0 : ℕ) (a1 : ℕ) (a2 : ℕ) (hm : m &&& 4259841 = 4259841) (h : Only m x₀ s) :
    ∀ u, (execVcoreMonitorDisagree a0 a1 a2 s) = .next u → Only m x₀ u := by
  intro u e
  obtain rfl := Host.Outcome.next.inj e
  repeat' first
      | with_reducible assumption | exact fun _ => ⟨rfl, rfl⟩ | exact fun _ => rfl
      | exact fun _ => ⟨rfl, rfl, rfl, rfl, rfl⟩ | intro _ | with_reducible apply Only.ite
      | with_reducible apply Only.fst_ite | with_reducible apply Only.snd_ite | with_reducible apply Only.vcoreRead
      | with_reducible apply Only.tick | with_reducible apply Only.raise | exact Part.sub hm rfl

theorem Only.porEnd (hm : m &&& 51539607550 = 51539607550) (h : Only m x₀ s) :
    Only m x₀ (State.porEnd s) := by
  dsimp only [State.porEnd]
  repeat' first
      | with_reducible assumption | exact fun _ => ⟨rfl, rfl⟩ | exact fun _ => rfl
      | exact fun _ => ⟨rfl, rfl, rfl, rfl, rfl⟩ | intro _ | with_reducible apply Only.ite
      | with_reducible apply Only.fst_ite | with_reducible apply Only.snd_ite | with_reducible apply Only.onPwr
      | with_reducible apply Only.wiped | with_reducible apply Only.release | exact Part.sub hm rfl

theorem Only.execPowerOnResetEnd (a0 : ℕ) (hm : m &&& 51539607551 = 51539607551) (h : Only m x₀ s) :
    ∀ u, (execPowerOnResetEnd a0 s) = .next u → Only m x₀ u := by
  intro u e
  obtain rfl := Host.Outcome.next.inj e
  repeat' first
      | with_reducible assumption | exact fun _ => ⟨rfl, rfl⟩ | exact fun _ => rfl
      | exact fun _ => ⟨rfl, rfl, rfl, rfl, rfl⟩ | intro _ | with_reducible apply Only.porEnd
      | with_reducible apply Only.tick | exact Part.sub hm rfl

theorem Only.refuseTransition (hm : m &&& 1048578 = 1048578) (h : Only m x₀ s) :
    Only m x₀ (State.refuseTransition s) := by
  dsimp only [State.refuseTransition]
  repeat' first
      | with_reducible assumption | exact fun _ => ⟨rfl, rfl⟩ | exact fun _ => rfl
      | exact fun _ => ⟨rfl, rfl, rfl, rfl, rfl⟩ | intro _ | with_reducible apply Only.settle
      | with_reducible apply Only.onLcs | exact Part.sub hm rfl | rfl | exact ⟨rfl, rfl⟩
      | exact ⟨rfl, rfl, rfl, rfl, rfl⟩ | split

theorem Only.supplyWarning (a0 : WarnCause) (hm : m &&& 542834690 = 542834690) (h : Only m x₀ s) :
    Only m x₀ (State.supplyWarning a0 s) := by
  dsimp only [State.supplyWarning]
  repeat' first
      | with_reducible assumption | exact fun _ => ⟨rfl, rfl⟩ | exact fun _ => rfl
      | exact fun _ => ⟨rfl, rfl, rfl, rfl, rfl⟩ | intro _ | with_reducible apply Only.ite
      | with_reducible apply Only.fst_ite | with_reducible apply Only.snd_ite | with_reducible apply Only.onFcl_keep
      | with_reducible apply Only.onRecd | with_reducible apply Only.onPwr_keep | with_reducible apply Only.raise
      | with_reducible apply Only.refuseWaiting | with_reducible apply Only.refuseTransition
      | with_reducible apply Only.cutSession | exact Part.sub hm rfl | rfl | exact ⟨rfl, rfl⟩
      | exact ⟨rfl, rfl, rfl, rfl, rfl⟩ | split

theorem Only.execSupplyLossWarning (a0 : ℕ) (a1 : WarnCause) (hm : m &&& 542834691 = 542834691) (h : Only m x₀ s) :
    ∀ u, (execSupplyLossWarning a0 a1 s) = .next u → Only m x₀ u := by
  intro u e
  obtain rfl := Host.Outcome.next.inj e
  repeat' first
      | with_reducible assumption | exact fun _ => ⟨rfl, rfl⟩ | exact fun _ => rfl
      | exact fun _ => ⟨rfl, rfl, rfl, rfl, rfl⟩ | intro _ | with_reducible apply Only.supplyWarning
      | with_reducible apply Only.tick | exact Part.sub hm rfl

theorem Only.flushDone (hm : m &&& 4325376 = 4325376) (h : Only m x₀ s) :
    Only m x₀ (State.flushDone s) := by
  dsimp only [State.flushDone]
  repeat' first
      | with_reducible assumption | exact fun _ => ⟨rfl, rfl⟩ | exact fun _ => rfl
      | exact fun _ => ⟨rfl, rfl, rfl, rfl, rfl⟩ | intro _ | with_reducible apply Only.ite
      | with_reducible apply Only.fst_ite | with_reducible apply Only.snd_ite | with_reducible apply Only.flushAll
      | with_reducible apply Only.onRecd | exact Part.sub hm rfl

theorem Only.execFlushComplete (a0 : ℕ) (hm : m &&& 4325377 = 4325377) (h : Only m x₀ s) :
    ∀ u, (execFlushComplete a0 s) = .next u → Only m x₀ u := by
  intro u e
  obtain rfl := Host.Outcome.next.inj e
  repeat' first
      | with_reducible assumption | exact fun _ => ⟨rfl, rfl⟩ | exact fun _ => rfl
      | exact fun _ => ⟨rfl, rfl, rfl, rfl, rfl⟩ | intro _ | with_reducible apply Only.flushDone
      | with_reducible apply Only.tick | exact Part.sub hm rfl

theorem Only.execSupplyRecovery (a0 : ℕ) (hm : m &&& 51539607551 = 51539607551) (h : Only m x₀ s) :
    ∀ u, (execSupplyRecovery a0 s) = .next u → Only m x₀ u := by
  intro u e
  obtain rfl := Host.Outcome.next.inj e
  repeat' first
      | with_reducible assumption | exact fun _ => ⟨rfl, rfl⟩ | exact fun _ => rfl
      | exact fun _ => ⟨rfl, rfl, rfl, rfl, rfl⟩ | intro _ | with_reducible apply Only.ite
      | with_reducible apply Only.fst_ite | with_reducible apply Only.snd_ite | with_reducible apply Only.chipReset
      | with_reducible apply Only.tick | exact Part.sub hm rfl

theorem Only.resetAssert (a0 : ℕ) (hm : m &&& 51539607550 = 51539607550) (h : Only m x₀ s) :
    Only m x₀ (State.resetAssert a0 s) := by
  dsimp only [State.resetAssert]
  repeat' first
      | with_reducible assumption | exact fun _ => ⟨rfl, rfl⟩ | exact fun _ => rfl
      | exact fun _ => ⟨rfl, rfl, rfl, rfl, rfl⟩ | intro _ | with_reducible apply Only.ite
      | with_reducible apply Only.fst_ite | with_reducible apply Only.snd_ite | with_reducible apply Only.onPwr_keep
      | with_reducible apply Only.chipReset | with_reducible apply Only.cutSession | with_reducible apply Only.drew
      | exact Part.sub hm rfl

theorem Only.execResetNAssert (a0 : ℕ) (a1 : ℕ) (hm : m &&& 51539607551 = 51539607551) (h : Only m x₀ s) :
    ∀ u, (execResetNAssert a0 a1 s) = .next u → Only m x₀ u := by
  intro u e
  obtain rfl := Host.Outcome.next.inj e
  repeat' first
      | with_reducible assumption | exact fun _ => ⟨rfl, rfl⟩ | exact fun _ => rfl
      | exact fun _ => ⟨rfl, rfl, rfl, rfl, rfl⟩ | intro _ | with_reducible apply Only.resetAssert
      | with_reducible apply Only.tick | exact Part.sub hm rfl

theorem Only.resetRelease (hm : m &&& 34364260352 = 34364260352) (h : Only m x₀ s) :
    Only m x₀ (State.resetRelease s) := by
  dsimp only [State.resetRelease]
  repeat' first
      | with_reducible assumption | exact fun _ => ⟨rfl, rfl⟩ | exact fun _ => rfl
      | exact fun _ => ⟨rfl, rfl, rfl, rfl, rfl⟩ | intro _ | with_reducible apply Only.ite
      | with_reducible apply Only.fst_ite | with_reducible apply Only.snd_ite | with_reducible apply Only.onPwr_keep
      | with_reducible apply Only.release | exact Part.sub hm rfl

theorem Only.execResetNRelease (a0 : ℕ) (hm : m &&& 34364260353 = 34364260353) (h : Only m x₀ s) :
    ∀ u, (execResetNRelease a0 s) = .next u → Only m x₀ u := by
  intro u e
  obtain rfl := Host.Outcome.next.inj e
  repeat' first
      | with_reducible assumption | exact fun _ => ⟨rfl, rfl⟩ | exact fun _ => rfl
      | exact fun _ => ⟨rfl, rfl, rfl, rfl, rfl⟩ | intro _ | with_reducible apply Only.resetRelease
      | with_reducible apply Only.tick | exact Part.sub hm rfl

theorem Only.stopStart (a0 : ℕ) (a1 : ℕ) (hm : m &&& 34363998208 = 34363998208) (h : Only m x₀ s) :
    Only m x₀ (State.stopStart a0 a1 s) := by
  dsimp only [State.stopStart]
  repeat' first
      | with_reducible assumption | exact fun _ => ⟨rfl, rfl⟩ | exact fun _ => rfl
      | exact fun _ => ⟨rfl, rfl, rfl, rfl, rfl⟩ | intro _ | with_reducible apply Only.raise
      | with_reducible apply Only.onPwr | exact Part.sub hm rfl

theorem Only.retentionStart (a0 : Bool) (hm : m &&& 4259840 = 4259840) (h : Only m x₀ s) :
    Only m x₀ (State.retentionStart a0 s) := by
  dsimp only [State.retentionStart]
  repeat' first
      | with_reducible assumption | exact fun _ => ⟨rfl, rfl⟩ | exact fun _ => rfl
      | exact fun _ => ⟨rfl, rfl, rfl, rfl, rfl⟩ | intro _ | with_reducible apply Only.ite
      | with_reducible apply Only.fst_ite | with_reducible apply Only.snd_ite | with_reducible apply Only.onPwr_keep
      | with_reducible apply Only.raise | exact Part.sub hm rfl

theorem Only.sensed (a0 : FiddleIn) (hm : m &&& 524288 = 524288) (h : Only m x₀ s) :
    Only m x₀ (State.sensed a0 s) := by
  dsimp only [State.sensed]
  repeat' first
      | with_reducible assumption | exact fun _ => ⟨rfl, rfl⟩ | exact fun _ => rfl
      | exact fun _ => ⟨rfl, rfl, rfl, rfl, rfl⟩ | intro _ | with_reducible apply Only.onOtp_keep

theorem Only.rulersStart (a0 : FiddleIn) (hm : m &&& 536870916 = 536870916) (h : Only m x₀ s) :
    Only m x₀ (State.rulersStart a0 s) := by
  unfold State.rulersStart
  exact .drew _ _ (Part.sub hm rfl) (.onTru _ (Part.sub hm rfl) h)

theorem Only.fiddleSteps (a0 : FiddleIn) (hm : m &&& 34904031236 = 34904031236) (h : Only m x₀ s) :
    Only m x₀ (State.fiddleSteps a0 s) := by
  dsimp only [State.fiddleSteps]
  repeat' first
      | with_reducible assumption | exact fun _ => ⟨rfl, rfl⟩ | exact fun _ => rfl
      | exact fun _ => ⟨rfl, rfl, rfl, rfl, rfl⟩ | intro _ | with_reducible apply Only.ite
      | with_reducible apply Only.fst_ite | with_reducible apply Only.snd_ite | with_reducible apply Only.rulersStart
      | with_reducible apply Only.stopStart | with_reducible apply Only.onLcs | with_reducible apply Only.onAgr
      | with_reducible apply Only.raise | with_reducible apply Only.onPwr | with_reducible apply Only.keyStart
      | exact Part.sub hm rfl

theorem Only.fiddlehead (a0 : FiddleIn) (hm : m &&& 52084424708 = 52084424708) (h : Only m x₀ s) :
    Only m x₀ (State.fiddlehead a0 s) := by
  dsimp only [State.fiddlehead]
  repeat' first
      | with_reducible assumption | exact fun _ => ⟨rfl, rfl⟩ | exact fun _ => rfl
      | exact fun _ => ⟨rfl, rfl, rfl, rfl, rfl⟩ | intro _ | with_reducible apply Only.ite
      | with_reducible apply Only.fst_ite | with_reducible apply Only.snd_ite | with_reducible apply Only.onPwr_keep
      | with_reducible apply Only.fiddleSteps | with_reducible apply Only.otpStart
      | with_reducible apply Only.retentionStart | with_reducible apply Only.latchRhizoid
      | with_reducible apply Only.sensed | exact Part.sub hm rfl

theorem Only.execFiddlehead (a0 : ℕ) (a1 : FiddleIn) (hm : m &&& 52084424709 = 52084424709) (h : Only m x₀ s) :
    ∀ u, (execFiddlehead a0 a1 s) = .next u → Only m x₀ u := by
  intro u e
  obtain rfl := Host.Outcome.next.inj e
  repeat' first
      | with_reducible assumption | exact fun _ => ⟨rfl, rfl⟩ | exact fun _ => rfl
      | exact fun _ => ⟨rfl, rfl, rfl, rfl, rfl⟩ | intro _ | with_reducible apply Only.fiddlehead
      | with_reducible apply Only.tick | exact Part.sub hm rfl

theorem Only.fwReject (a0 : ℕ) (hm : m &&& 65536 = 65536) (h : Only m x₀ s) :
    Only m x₀ (State.fwReject a0 s) := by
  dsimp only [State.fwReject]
  repeat' first
      | with_reducible assumption | exact fun _ => ⟨rfl, rfl⟩ | exact fun _ => rfl
      | exact fun _ => ⟨rfl, rfl, rfl, rfl, rfl⟩ | intro _ | with_reducible apply Only.raise | exact Part.sub hm rfl
      | rfl | exact ⟨rfl, rfl⟩ | exact ⟨rfl, rfl, rfl, rfl, rfl⟩ | split

theorem Only.fwRun (a0 : ℕ) (a1 : FwImage) (a2 : Bool) (hm : m &&& 34363949056 = 34363949056) (h : Only m x₀ s) :
    Only m x₀ (State.fwRun a0 a1 a2 s) := by
  dsimp only [State.fwRun]
  repeat' first
      | with_reducible assumption | exact fun _ => ⟨rfl, rfl⟩ | exact fun _ => rfl
      | exact fun _ => ⟨rfl, rfl, rfl, rfl, rfl⟩ | intro _ | with_reducible apply Only.pairRelease
      | with_reducible apply Only.onPwr | exact Part.sub hm rfl

theorem Only.firmwareLoad (hm : m &&& 34364014592 = 34364014592) (h : Only m x₀ s) :
    ∀ u, (State.firmwareLoad s) = .next u → Only m x₀ u := by
  intro u e
  have h1 : ∀ l : List Nat, Only m x₀ (Machine.forL l (fun k s => s.fwReject k) s) := fun l =>
    .forL _ (fun _ _ ht => .fwReject _ (Part.sub hm rfl) ht) h
  unfold State.firmwareLoad at e
  split at e
  · cases e; exact h
  · dsimp only at e
    split at e
    · cases e; exact .stopStart _ _ (Part.sub hm rfl) (h1 _)
    · split at e
      · cases e; exact h1 _
      · split at e
        · cases e; exact .fwRun _ _ _ (Part.sub hm rfl) (h1 _)
        · cases e

theorem Only.execFirmwareLoad (a0 : ℕ) (hm : m &&& 34364014593 = 34364014593) (h : Only m x₀ s) :
    ∀ u, (execFirmwareLoad a0 s) = .next u → Only m x₀ u := Only.firmwareLoad (Part.sub hm rfl) (.tick _ (Part.sub hm rfl) h)

theorem Only.antiRollback (hm : m &&& 589824 = 589824) (h : Only m x₀ s) :
    Only m x₀ (State.antiRollback s) := by
  dsimp only [State.antiRollback]
  repeat' first
      | with_reducible assumption | exact fun _ => ⟨rfl, rfl⟩ | exact fun _ => rfl
      | exact fun _ => ⟨rfl, rfl, rfl, rfl, rfl⟩ | intro _ | with_reducible apply Only.ite
      | with_reducible apply Only.fst_ite | with_reducible apply Only.snd_ite | with_reducible apply Only.cntAdvance

theorem Only.execAntiRollbackAdvance (a0 : ℕ) (hm : m &&& 589825 = 589825) (h : Only m x₀ s) :
    ∀ u, (execAntiRollbackAdvance a0 s) = .next u → Only m x₀ u := by
  intro u e
  obtain rfl := Host.Outcome.next.inj e
  repeat' first
      | with_reducible assumption | exact fun _ => ⟨rfl, rfl⟩ | exact fun _ => rfl
      | exact fun _ => ⟨rfl, rfl, rfl, rfl, rfl⟩ | intro _ | with_reducible apply Only.antiRollback
      | with_reducible apply Only.tick | exact Part.sub hm rfl

theorem Only.paceWindow (a0 : List ℕ) (a1 : List ℕ) (hm : m &&& 4259840 = 4259840) (h : Only m x₀ s) :
    Only m x₀ (State.paceWindow a0 a1 s) := by
  dsimp only [State.paceWindow]
  repeat' first
      | with_reducible assumption | exact fun _ => ⟨rfl, rfl⟩ | exact fun _ => rfl
      | exact fun _ => ⟨rfl, rfl, rfl, rfl, rfl⟩ | intro _ | with_reducible apply Only.ite
      | with_reducible apply Only.fst_ite | with_reducible apply Only.snd_ite | with_reducible apply Only.forN
      | with_reducible apply Only.cond | with_reducible apply Only.onPwr_keep | exact Part.sub hm rfl | rfl
      | exact ⟨rfl, rfl⟩ | exact ⟨rfl, rfl, rfl, rfl, rfl⟩ | split

theorem Only.execPaceWindowEnd (a0 : ℕ) (a1 : List ℕ) (a2 : List ℕ) (hm : m &&& 4259841 = 4259841) (h : Only m x₀ s) :
    ∀ u, (execPaceWindowEnd a0 a1 a2 s) = .next u → Only m x₀ u := by
  intro u e
  obtain rfl := Host.Outcome.next.inj e
  repeat' first
      | with_reducible assumption | exact fun _ => ⟨rfl, rfl⟩ | exact fun _ => rfl
      | exact fun _ => ⟨rfl, rfl, rfl, rfl, rfl⟩ | intro _ | with_reducible apply Only.ite
      | with_reducible apply Only.fst_ite | with_reducible apply Only.snd_ite | with_reducible apply Only.paceWindow
      | with_reducible apply Only.tick | exact Part.sub hm rfl

theorem Only.crystalStops (a0 : Ch) (hm : m &&& 65540 = 65540) (h : Only m x₀ s) :
    Only m x₀ (State.crystalStops a0 s) := by
  dsimp only [State.crystalStops]
  repeat' first
      | with_reducible assumption | exact fun _ => ⟨rfl, rfl⟩ | exact fun _ => rfl
      | exact fun _ => ⟨rfl, rfl, rfl, rfl, rfl⟩ | intro _ | with_reducible apply Only.ite
      | with_reducible apply Only.fst_ite | with_reducible apply Only.snd_ite | with_reducible apply Only.raise
      | with_reducible apply Only.onTru | exact Part.sub hm rfl | rfl | exact ⟨rfl, rfl⟩
      | exact ⟨rfl, rfl, rfl, rfl, rfl⟩ | split

theorem Only.execOscillatorStop (a0 : ℕ) (a1 : Ch) (hm : m &&& 65541 = 65541) (h : Only m x₀ s) :
    ∀ u, (execOscillatorStop a0 a1 s) = .next u → Only m x₀ u := by
  intro u e
  obtain rfl := Host.Outcome.next.inj e
  repeat' first
      | with_reducible assumption | exact fun _ => ⟨rfl, rfl⟩ | exact fun _ => rfl
      | exact fun _ => ⟨rfl, rfl, rfl, rfl, rfl⟩ | intro _ | with_reducible apply Only.crystalStops
      | with_reducible apply Only.tick | exact Part.sub hm rfl

theorem Only.pwrCtrClear (a0 : Word) (hm : m &&& 4194304 = 4194304) (h : Only m x₀ s) :
    Only m x₀ (State.pwrCtrClear a0 s).1 := by
  dsimp only [State.pwrCtrClear]
  repeat' first
      | with_reducible assumption | exact fun _ => ⟨rfl, rfl⟩ | exact fun _ => rfl
      | exact fun _ => ⟨rfl, rfl, rfl, rfl, rfl⟩ | intro _ | with_reducible apply Only.ite
      | with_reducible apply Only.fst_ite | with_reducible apply Only.snd_ite | with_reducible apply Only.onPwr_keep

theorem Only.execPwrCtrClear (a0 : ℕ) (a1 : Reader) (a2 : Word) (hm : m &&& 4259843 = 4259843) (h : Only m x₀ s) :
    ∀ u, (execPwrCtrClear a0 a1 a2 s) = .next u → Only m x₀ u := by
  intro u e
  obtain rfl := Host.Outcome.next.inj e
  repeat' first
      | with_reducible assumption | exact fun _ => ⟨rfl, rfl⟩ | exact fun _ => rfl
      | exact fun _ => ⟨rfl, rfl, rfl, rfl, rfl⟩ | intro _ | with_reducible apply Only.wt
      | with_reducible apply Only.pwrCtrClear | with_reducible apply Only.tick | exact Part.sub hm rfl

end Sys2Proof.Machine
end

