-- ==== Sys2Proof/Laws/OnlyConfigPage.lean ====
section
/-! SUPPORT. What ConfigPage.lean keeps (Laws/Only.lean). -/

namespace Sys2Proof.Machine

variable {m : Nat} {x₀ s : State}

theorem Only.hifCtrClear (a0 : Word) (hm : m &&& 16777216 = 16777216) (h : Only m x₀ s) :
    Only m x₀ (State.hifCtrClear a0 s).1 := by
  dsimp only [State.hifCtrClear]
  repeat' first
      | with_reducible assumption | exact fun _ => ⟨rfl, rfl⟩ | exact fun _ => rfl
      | exact fun _ => ⟨rfl, rfl, rfl, rfl, rfl⟩ | intro _ | with_reducible apply Only.ite
      | with_reducible apply Only.fst_ite | with_reducible apply Only.snd_ite | with_reducible apply Only.onHif

end Sys2Proof.Machine
end

