-- ==== Sys2Proof/Laws/OnlySettings.lean ====
section
/-! SUPPORT. What Settings.lean keeps (Laws/Only.lean). -/

namespace Sys2Proof.Machine

variable {m : Nat} {x₀ s : State}

theorem Only.tpoRestart (a0 : ℕ) (hm : m &&& 48 = 48) (h : Only m x₀ s) :
    Only m x₀ (State.tpoRestart a0 s) := by
  dsimp only [State.tpoRestart]
  repeat' first
      | with_reducible assumption | exact fun _ => ⟨rfl, rfl⟩ | exact fun _ => rfl
      | exact fun _ => ⟨rfl, rfl, rfl, rfl, rfl⟩ | intro _ | with_reducible apply Only.ite
      | with_reducible apply Only.fst_ite | with_reducible apply Only.snd_ite | with_reducible apply Only.onLio
      | with_reducible apply Only.onTpg | exact Part.sub hm rfl

theorem Only.lichenRestart (a0 : ℕ) (hm : m &&& 306391770 = 306391770) (h : Only m x₀ s) :
    Only m x₀ (State.lichenRestart a0 s) := by
  dsimp only [State.lichenRestart]
  repeat' first
      | with_reducible assumption | exact fun _ => ⟨rfl, rfl⟩ | exact fun _ => rfl
      | exact fun _ => ⟨rfl, rfl, rfl, rfl, rfl⟩ | intro _ | with_reducible apply Only.onLichen
      | with_reducible apply Only.signalsMoved | with_reducible apply Only.lockCond | exact Part.sub hm rfl

theorem Only.ainRestart (a0 : ℕ) (hm : m &&& 256 = 256) (h : Only m x₀ s) :
    Only m x₀ (State.ainRestart a0 s) := by
  dsimp only [State.ainRestart]
  repeat' first
      | with_reducible assumption | exact fun _ => ⟨rfl, rfl⟩ | exact fun _ => rfl
      | exact fun _ => ⟨rfl, rfl, rfl, rfl, rfl⟩ | intro _ | with_reducible apply Only.onMea

theorem Only.restartFor (a0 : ℕ) (hm : m &&& 4601359354 = 4601359354) (h : Only m x₀ s) :
    Only m x₀ (State.restartFor a0 s) := by
  dsimp only [State.restartFor]
  repeat' first
      | with_reducible assumption | exact fun _ => ⟨rfl, rfl⟩ | exact fun _ => rfl
      | exact fun _ => ⟨rfl, rfl, rfl, rfl, rfl⟩ | intro _ | with_reducible apply Only.ite
      | with_reducible apply Only.fst_ite | with_reducible apply Only.snd_ite | with_reducible apply Only.forN
      | with_reducible apply Only.lichenRestart | with_reducible apply Only.tpoRestart
      | with_reducible apply Only.onSog | with_reducible apply Only.onSto | with_reducible apply Only.ainRestart
      | exact Part.sub hm rfl

end Sys2Proof.Machine
end

