-- ==== Sys2Proof/Laws/OnlySentence.lean ====
section
/-! SUPPORT. What Sentence.lean keeps (Laws/Only.lean). -/

namespace Sys2Proof.Machine

variable {m : Nat} {x₀ s : State}

theorem Only.publishState (a0 : Bool) (hm : m &&& 29442050 = 29442050) (h : Only m x₀ s) :
    Only m x₀ (State.publishState a0 s) := by
  dsimp only [State.publishState]
  repeat' first
      | with_reducible assumption | exact fun _ => ⟨rfl, rfl⟩ | exact fun _ => rfl
      | exact fun _ => ⟨rfl, rfl, rfl, rfl, rfl⟩ | intro _ | with_reducible apply Only.ite
      | with_reducible apply Only.fst_ite | with_reducible apply Only.snd_ite | with_reducible apply Only.forN
      | with_reducible apply Only.onPwr_keep | with_reducible apply Only.onSys_keep
      | with_reducible apply Only.rdselPublish | with_reducible apply Only.errPublish
      | with_reducible apply Only.onCfg_keep | with_reducible apply Only.pairEvent | with_reducible apply Only.hifPend
      | exact Part.sub hm rfl

theorem Only.fnRecords (a0 : Snapshot) (a1 : Snapshot) (hm : m &&& 37945344 = 37945344) (h : Only m x₀ s) :
    Only m x₀ (State.fnRecords a0 a1 s) := by
  dsimp only [State.fnRecords]
  repeat' first
      | with_reducible assumption | exact fun _ => ⟨rfl, rfl⟩ | exact fun _ => rfl
      | exact fun _ => ⟨rfl, rfl, rfl, rfl, rfl⟩ | intro _ | with_reducible apply Only.ite
      | with_reducible apply Only.fst_ite | with_reducible apply Only.snd_ite | with_reducible apply Only.forL
      | with_reducible apply Only.forL_fst | with_reducible apply Only.recordFn

theorem Only.publish (a0 : Bool) (hm : m &&& 331563010 = 331563010) (h : Only m x₀ s) :
    Only m x₀ (State.publish a0 s) := by
  unfold State.publish
  extract_lets s1 p s2
  have h2 : Only m x₀ s2 := .framed _ _ _ _ (Part.sub hm rfl) (.publishState _ (Part.sub hm rfl) h)
  split
  · exact .fnRecords _ _ (Part.sub hm rfl) h2
  · exact h2

theorem Only.abandon (hm : m &&& 6304559098 = 6304559098) (h : Only m x₀ s) :
    Only m x₀ (State.abandon s) := by
  dsimp only [State.abandon]
  repeat' first
      | with_reducible assumption | exact fun _ => ⟨rfl, rfl⟩ | exact fun _ => rfl
      | exact fun _ => ⟨rfl, rfl, rfl, rfl, rfl⟩ | intro _ | with_reducible apply Only.publish
      | with_reducible apply Only.onAgr | with_reducible apply Only.roundClose | exact Part.sub hm rfl

theorem Only.late (hm : m &&& 65538 = 65538) (h : Only m x₀ s) :
    Only m x₀ (State.late s) := by
  dsimp only [State.late]
  repeat' first
      | with_reducible assumption | exact fun _ => ⟨rfl, rfl⟩ | exact fun _ => rfl
      | exact fun _ => ⟨rfl, rfl, rfl, rfl, rfl⟩ | intro _ | with_reducible apply Only.cond
      | with_reducible apply Only.onSys_keep | exact Part.sub hm rfl

theorem Only.deadlinePassed (hm : m &&& 6304559098 = 6304559098) (h : Only m x₀ s) :
    Only m x₀ (State.deadlinePassed s) := by
  dsimp only [State.deadlinePassed]
  repeat' first
      | with_reducible assumption | exact fun _ => ⟨rfl, rfl⟩ | exact fun _ => rfl
      | exact fun _ => ⟨rfl, rfl, rfl, rfl, rfl⟩ | intro _ | with_reducible apply Only.ite
      | with_reducible apply Only.fst_ite | with_reducible apply Only.snd_ite | with_reducible apply Only.abandon
      | with_reducible apply Only.late | exact Part.sub hm rfl

theorem Only.sentenceDeadline (hm : m &&& 6304559098 = 6304559098) (h : Only m x₀ s) :
    Only m x₀ (State.sentenceDeadline s) := by
  dsimp only [State.sentenceDeadline]
  repeat' first
      | with_reducible assumption | exact fun _ => ⟨rfl, rfl⟩ | exact fun _ => rfl
      | exact fun _ => ⟨rfl, rfl, rfl, rfl, rfl⟩ | intro _ | with_reducible apply Only.ite
      | with_reducible apply Only.fst_ite | with_reducible apply Only.snd_ite
      | with_reducible apply Only.deadlinePassed

theorem Only.execSentenceDeadline (a0 : ℕ) (hm : m &&& 6304559099 = 6304559099) (h : Only m x₀ s) :
    ∀ u, (execSentenceDeadline a0 s) = .next u → Only m x₀ u := by
  intro u e
  obtain rfl := Host.Outcome.next.inj e
  repeat' first
      | with_reducible assumption | exact fun _ => ⟨rfl, rfl⟩ | exact fun _ => rfl
      | exact fun _ => ⟨rfl, rfl, rfl, rfl, rfl⟩ | intro _ | with_reducible apply Only.sentenceDeadline
      | with_reducible apply Only.tick | exact Part.sub hm rfl

theorem Only.evalOverrun (a0 : Ch) (hm : m &&& 65538 = 65538) (h : Only m x₀ s) :
    Only m x₀ (State.evalOverrun a0 s) := by
  dsimp only [State.evalOverrun]
  repeat' first
      | with_reducible assumption | exact fun _ => ⟨rfl, rfl⟩ | exact fun _ => rfl
      | exact fun _ => ⟨rfl, rfl, rfl, rfl, rfl⟩ | intro _ | with_reducible apply Only.ite
      | with_reducible apply Only.fst_ite | with_reducible apply Only.snd_ite | with_reducible apply Only.cond
      | with_reducible apply Only.onSys_keep | exact Part.sub hm rfl

theorem Only.execEvaluationOverrun (a0 : ℕ) (a1 : Ch) (hm : m &&& 65539 = 65539) (h : Only m x₀ s) :
    ∀ u, (execEvaluationOverrun a0 a1 s) = .next u → Only m x₀ u := by
  intro u e
  obtain rfl := Host.Outcome.next.inj e
  repeat' first
      | with_reducible assumption | exact fun _ => ⟨rfl, rfl⟩ | exact fun _ => rfl
      | exact fun _ => ⟨rfl, rfl, rfl, rfl, rfl⟩ | intro _ | with_reducible apply Only.evalOverrun
      | with_reducible apply Only.tick | exact Part.sub hm rfl

theorem Only.emptySet (a0 : ℕ) (a1 : ℕ) (hm : m &&& 2 = 2) (h : Only m x₀ s) :
    Only m x₀ (State.emptySet a0 a1 s) := by
  dsimp only [State.emptySet]
  repeat' first
      | with_reducible assumption | exact fun _ => ⟨rfl, rfl⟩ | exact fun _ => rfl
      | exact fun _ => ⟨rfl, rfl, rfl, rfl, rfl⟩ | intro _ | with_reducible apply Only.settle
      | with_reducible apply Only.onStaging

theorem Only.inForce (a0 : List (ℕ × Word)) (hm : m &&& 13199686650 = 13199686650) (h : Only m x₀ s) :
    Only m x₀ (State.inForce a0 s) := by
  dsimp only [State.inForce]
  repeat' first
      | with_reducible assumption | exact fun _ => ⟨rfl, rfl⟩ | exact fun _ => rfl
      | exact fun _ => ⟨rfl, rfl, rfl, rfl, rfl⟩ | intro _ | with_reducible apply Only.ite
      | with_reducible apply Only.fst_ite | with_reducible apply Only.snd_ite | with_reducible apply Only.forL
      | with_reducible apply Only.forL_fst | with_reducible apply Only.on | with_reducible apply Only.onTsy
      | with_reducible apply Only.netRestart | with_reducible apply Only.restartFor | exact Part.sub hm rfl
      | (constructor <;> first | exact .inr rfl | exact .inr ⟨rfl, rfl⟩ | exact .inr ⟨rfl, rfl, rfl, rfl, rfl⟩ | exact .inl (Part.bit (Part.sub hm rfl)))

theorem Only.overrides (a0 : ℕ) (a1 : List (ℕ × Word)) (a2 : List (ℕ × List (ℕ × Word))) (hm : m &&& 2 = 2)
    (h : Only m x₀ s) :
    Only m x₀ (State.overrides a0 a1 a2 s) := by
  dsimp only [State.overrides]
  repeat' first
      | with_reducible assumption | exact fun _ => ⟨rfl, rfl⟩ | exact fun _ => rfl
      | exact fun _ => ⟨rfl, rfl, rfl, rfl, rfl⟩ | intro _ | with_reducible apply Only.ite
      | with_reducible apply Only.fst_ite | with_reducible apply Only.snd_ite | with_reducible apply Only.forL
      | with_reducible apply Only.forL_fst | with_reducible apply Only.onStaging

theorem Only.applySet (a0 : ℕ) (a1 : ℕ) (a2 : State × List (ℕ × List (ℕ × Word)))
    (hm : m &&& 13216480250 = 13216480250) (h_a2 : Only m x₀ a2.1) :
    Only m x₀ (State.applySet a0 a1 a2).1 := by
  dsimp only [State.applySet]
  repeat' first
      | with_reducible assumption | exact fun _ => ⟨rfl, rfl⟩ | exact fun _ => rfl
      | exact fun _ => ⟨rfl, rfl, rfl, rfl, rfl⟩ | intro _ | with_reducible apply Only.ite
      | with_reducible apply Only.fst_ite | with_reducible apply Only.snd_ite | with_reducible apply Only.raise
      | with_reducible apply Only.emptySet | with_reducible apply Only.overrides | with_reducible apply Only.inForce
      | with_reducible apply Only.onStaging | with_reducible apply Only.pairEvent | with_reducible apply Only.hifPend
      | exact Part.sub hm rfl

theorem Only.applySets (a0 : ℕ) (hm : m &&& 13216480250 = 13216480250) (h : Only m x₀ s) :
    Only m x₀ (State.applySets a0 s) := by
  dsimp only [State.applySets]
  repeat' first
      | with_reducible assumption | exact fun _ => ⟨rfl, rfl⟩ | exact fun _ => rfl
      | exact fun _ => ⟨rfl, rfl, rfl, rfl, rfl⟩ | intro _ | with_reducible apply Only.forL
      | with_reducible apply Only.forL_fst | with_reducible apply Only.applySet

theorem Only.crossCheckRulers (a0 : CaptureIn) (hm : m &&& 65540 = 65540) (h : Only m x₀ s) :
    Only m x₀ (State.crossCheckRulers a0 s) := by
  dsimp only [State.crossCheckRulers]
  repeat' first
      | with_reducible assumption | exact fun _ => ⟨rfl, rfl⟩ | exact fun _ => rfl
      | exact fun _ => ⟨rfl, rfl, rfl, rfl, rfl⟩ | intro _ | with_reducible apply Only.ite
      | with_reducible apply Only.fst_ite | with_reducible apply Only.snd_ite | with_reducible apply Only.onTru
      | with_reducible apply Only.raise | exact Part.sub hm rfl

theorem Only.beginLoad (hm : m &&& 8396866 = 8396866) (h : Only m x₀ s) :
    Only m x₀ (State.beginLoad s) := by
  dsimp only [State.beginLoad]
  repeat' first
      | with_reducible assumption | exact fun _ => ⟨rfl, rfl⟩ | exact fun _ => rfl
      | exact fun _ => ⟨rfl, rfl, rfl, rfl, rfl⟩ | intro _ | with_reducible apply Only.ite
      | with_reducible apply Only.fst_ite | with_reducible apply Only.snd_ite | with_reducible apply Only.forL
      | with_reducible apply Only.forL_fst | with_reducible apply Only.onCfg_keep | with_reducible apply Only.emptySet
      | with_reducible apply Only.onStaging | with_reducible apply Only.safeFields
      | with_reducible apply Only.darkAborts | exact Part.sub hm rfl | rfl | exact ⟨rfl, rfl⟩
      | exact ⟨rfl, rfl, rfl, rfl, rfl⟩ | split

theorem Only.endDry (hm : m &&& 8454336 = 8454336) (h : Only m x₀ s) :
    Only m x₀ (State.endDry s) := by
  dsimp only [State.endDry]
  repeat' first
      | with_reducible assumption | exact fun _ => ⟨rfl, rfl⟩ | exact fun _ => rfl
      | exact fun _ => ⟨rfl, rfl, rfl, rfl, rfl⟩ | intro _ | with_reducible apply Only.ite
      | with_reducible apply Only.fst_ite | with_reducible apply Only.snd_ite | with_reducible apply Only.updateReady
      | with_reducible apply Only.stopZones | with_reducible apply Only.onCfg_keep | exact Part.sub hm rfl

theorem Only.followPress (hm : m &&& 8388608 = 8388608) (h : Only m x₀ s) :
    Only m x₀ (State.followPress s) := by
  dsimp only [State.followPress]
  repeat' first
      | with_reducible assumption | exact fun _ => ⟨rfl, rfl⟩ | exact fun _ => rfl
      | exact fun _ => ⟨rfl, rfl, rfl, rfl, rfl⟩ | intro _ | with_reducible apply Only.ite
      | with_reducible apply Only.fst_ite | with_reducible apply Only.snd_ite | with_reducible apply Only.onCfg_keep

theorem Only.takeNumber (hm : m &&& 2147549186 = 2147549186) (h : Only m x₀ s) :
    Only m x₀ (State.takeNumber s) := by
  dsimp only [State.takeNumber]
  repeat' first
      | with_reducible assumption | exact fun _ => ⟨rfl, rfl⟩ | exact fun _ => rfl
      | exact fun _ => ⟨rfl, rfl, rfl, rfl, rfl⟩ | intro _ | with_reducible apply Only.ite
      | with_reducible apply Only.fst_ite | with_reducible apply Only.snd_ite | with_reducible apply Only.onSys
      | with_reducible apply Only.raise | exact Part.sub hm rfl

theorem Only.atCapture (a0 : CaptureIn) (hm : m &&& 15363964926 = 15363964926) (h : Only m x₀ s) :
    Only m x₀ (State.atCapture a0 s) := by
  dsimp only [State.atCapture]
  repeat' first
      | with_reducible assumption | exact fun _ => ⟨rfl, rfl⟩ | exact fun _ => rfl
      | exact fun _ => ⟨rfl, rfl, rfl, rfl, rfl⟩ | intro _ | with_reducible apply Only.ite
      | with_reducible apply Only.fst_ite | with_reducible apply Only.snd_ite | with_reducible apply Only.forN
      | with_reducible apply Only.applySets | with_reducible apply Only.beginLoad
      | with_reducible apply Only.takeNumber | with_reducible apply Only.crossCheckRulers
      | with_reducible apply Only.raise | with_reducible apply Only.dropWords | with_reducible apply Only.judgeAlive
      | with_reducible apply Only.sepClose | with_reducible apply Only.endDry | with_reducible apply Only.endHalt
      | with_reducible apply Only.sensorHealth | with_reducible apply Only.judgeSessions
      | with_reducible apply Only.tsyCapture | with_reducible apply Only.on | with_reducible apply Only.followPress
      | with_reducible apply Only.onSfr | with_reducible apply Only.onLio | exact Part.sub hm rfl
      | (constructor <;> first | exact .inr rfl | exact .inr ⟨rfl, rfl⟩ | exact .inr ⟨rfl, rfl, rfl, rfl, rfl⟩ | exact .inl (Part.bit (Part.sub hm rfl)))

theorem Only.freezeImage (hm : m &&& 2415922178 = 2415922178) (h : Only m x₀ s) :
    Only m x₀ (State.freezeImage s) := by
  dsimp only [State.freezeImage]
  repeat' first
      | with_reducible assumption | exact fun _ => ⟨rfl, rfl⟩ | exact fun _ => rfl
      | exact fun _ => ⟨rfl, rfl, rfl, rfl, rfl⟩ | intro _ | with_reducible apply Only.onSys
      | with_reducible apply Only.sepBegin | with_reducible apply Only.onNet | with_reducible apply Only.framed
      | exact Part.sub hm rfl

theorem Only.capture (a0 : CaptureIn) (hm : m &&& 17041981438 = 17041981438) (h : Only m x₀ s) :
    Only m x₀ (State.capture a0 s) := by
  dsimp only [State.capture]
  repeat' first
      | with_reducible assumption | exact fun _ => ⟨rfl, rfl⟩ | exact fun _ => rfl
      | exact fun _ => ⟨rfl, rfl, rfl, rfl, rfl⟩ | intro _ | with_reducible apply Only.ite
      | with_reducible apply Only.fst_ite | with_reducible apply Only.snd_ite | with_reducible apply Only.freezeImage
      | with_reducible apply Only.atCapture | with_reducible apply Only.deadlinePassed | exact Part.sub hm rfl

theorem Only.execCapture (a0 : ℕ) (a1 : CaptureIn) (hm : m &&& 17041981439 = 17041981439) (h : Only m x₀ s) :
    ∀ u, (execCapture a0 a1 s) = .next u → Only m x₀ u := by
  intro u e
  obtain rfl := Host.Outcome.next.inj e
  repeat' first
      | with_reducible assumption | exact fun _ => ⟨rfl, rfl⟩ | exact fun _ => rfl
      | exact fun _ => ⟨rfl, rfl, rfl, rfl, rfl⟩ | intro _ | with_reducible apply Only.capture
      | with_reducible apply Only.tick | exact Part.sub hm rfl

theorem Only.fnSources (a0 : NMap FnSt) (hm : m &&& 65536 = 65536) (h : Only m x₀ s) :
    Only m x₀ (State.fnSources a0 s) := by
  dsimp only [State.fnSources]
  repeat' first
      | with_reducible assumption | exact fun _ => ⟨rfl, rfl⟩ | exact fun _ => rfl
      | exact fun _ => ⟨rfl, rfl, rfl, rfl, rfl⟩ | intro _ | with_reducible apply Only.ite
      | with_reducible apply Only.fst_ite | with_reducible apply Only.snd_ite | with_reducible apply Only.forL
      | with_reducible apply Only.forL_fst | with_reducible apply Only.raise | with_reducible apply Only.cond

theorem Only.commitOutputs (a0 : Blocks) (hm : m &&& 4601360074 = 4601360074) (h : Only m x₀ s) :
    Only m x₀ (State.commitOutputs a0 s) := by
  dsimp only [State.commitOutputs]
  repeat' first
      | with_reducible assumption | exact fun _ => ⟨rfl, rfl⟩ | exact fun _ => rfl
      | exact fun _ => ⟨rfl, rfl, rfl, rfl, rfl⟩ | intro _ | with_reducible apply Only.releaseZones
      | with_reducible apply Only.onSto | with_reducible apply Only.onSog | with_reducible apply Only.onSfr
      | with_reducible apply Only.onFab | with_reducible apply Only.demandUpdate
      | with_reducible apply Only.commitFields | with_reducible apply Only.sendDue
      | with_reducible apply Only.fnSources | with_reducible apply Only.darkAborts
      | with_reducible apply Only.sepDemand | exact Part.sub hm rfl

theorem Only.overrunEnds (hm : m &&& 65536 = 65536) (h : Only m x₀ s) :
    Only m x₀ (State.overrunEnds s) := by
  dsimp only [State.overrunEnds]
  repeat' first
      | with_reducible assumption | exact fun _ => ⟨rfl, rfl⟩ | exact fun _ => rfl
      | exact fun _ => ⟨rfl, rfl, rfl, rfl, rfl⟩ | intro _ | with_reducible apply Only.ite
      | with_reducible apply Only.fst_ite | with_reducible apply Only.snd_ite | with_reducible apply Only.cond

theorem Only.commitEnds (a0 : Blocks) (a1 : Bool) (hm : m &&& 1114114 = 1114114) (h : Only m x₀ s) :
    Only m x₀ (State.commitEnds a0 a1 s) := by
  dsimp only [State.commitEnds]
  repeat' first
      | with_reducible assumption | exact fun _ => ⟨rfl, rfl⟩ | exact fun _ => rfl
      | exact fun _ => ⟨rfl, rfl, rfl, rfl, rfl⟩ | intro _ | with_reducible apply Only.ite
      | with_reducible apply Only.fst_ite | with_reducible apply Only.snd_ite | with_reducible apply Only.cond
      | with_reducible apply Only.late | with_reducible apply Only.onLcs | exact Part.sub hm rfl

theorem Only.channelDone (a0 : Blocks) (a1 : Ch) (a2 : ℕ) (hm : m &&& 65546 = 65546) (h : Only m x₀ s) :
    Only m x₀ (State.channelDone a0 a1 a2 s) := by
  dsimp only [State.channelDone]
  repeat' first
      | with_reducible assumption | exact fun _ => ⟨rfl, rfl⟩ | exact fun _ => rfl
      | exact fun _ => ⟨rfl, rfl, rfl, rfl, rfl⟩ | intro _ | with_reducible apply Only.ite
      | with_reducible apply Only.fst_ite | with_reducible apply Only.snd_ite | with_reducible apply Only.onFab
      | with_reducible apply Only.onSys_keep | with_reducible apply Only.raise | exact Part.sub hm rfl | rfl
      | exact ⟨rfl, rfl⟩ | exact ⟨rfl, rfl, rfl, rfl, rfl⟩ | split

theorem Only.commit (a0 : Blocks) (hm : m &&& 4627590858 = 4627590858) (h : Only m x₀ s) :
    Only m x₀ (State.commit a0 s) := by
  dsimp only [State.commit]
  repeat' first
      | with_reducible assumption | exact fun _ => ⟨rfl, rfl⟩ | exact fun _ => rfl
      | exact fun _ => ⟨rfl, rfl, rfl, rfl, rfl⟩ | intro _ | with_reducible apply Only.publish
      | with_reducible apply Only.commitEnds | with_reducible apply Only.commitOutputs
      | with_reducible apply Only.onAgr | exact Part.sub hm rfl

theorem Only.agree (a0 : Blocks) (hm : m &&& 6305607674 = 6305607674) (h : Only m x₀ s) :
    Only m x₀ (State.agree a0 s) := by
  dsimp only [State.agree]
  repeat' first
      | with_reducible assumption | exact fun _ => ⟨rfl, rfl⟩ | exact fun _ => rfl
      | exact fun _ => ⟨rfl, rfl, rfl, rfl, rfl⟩ | intro _ | with_reducible apply Only.ite
      | with_reducible apply Only.fst_ite | with_reducible apply Only.snd_ite | with_reducible apply Only.abandon
      | with_reducible apply Only.raise | with_reducible apply Only.overrunEnds | with_reducible apply Only.onAgr
      | with_reducible apply Only.commit | with_reducible apply Only.deadlinePassed | exact Part.sub hm rfl | rfl
      | exact ⟨rfl, rfl⟩ | exact ⟨rfl, rfl, rfl, rfl, rfl⟩ | split

theorem Only.evalComplete (a0 : Ch) (a1 : ℕ) (hm : m &&& 6305607674 = 6305607674) (h : Only m x₀ s) :
    Only m x₀ (State.evalComplete a0 a1 s) := by
  dsimp only [State.evalComplete]
  repeat' first
      | with_reducible assumption | exact fun _ => ⟨rfl, rfl⟩ | exact fun _ => rfl
      | exact fun _ => ⟨rfl, rfl, rfl, rfl, rfl⟩ | intro _ | with_reducible apply Only.ite
      | with_reducible apply Only.fst_ite | with_reducible apply Only.snd_ite
      | with_reducible apply Only.deadlinePassed | with_reducible apply Only.channelDone
      | with_reducible apply Only.agree | exact Part.sub hm rfl | rfl | exact ⟨rfl, rfl⟩
      | exact ⟨rfl, rfl, rfl, rfl, rfl⟩ | split

theorem Only.execEvaluationComplete (a0 : ℕ) (a1 : Ch) (a2 : ℕ) (hm : m &&& 6305607675 = 6305607675)
    (h : Only m x₀ s) :
    ∀ u, (execEvaluationComplete a0 a1 a2 s) = .next u → Only m x₀ u := by
  intro u e
  obtain rfl := Host.Outcome.next.inj e
  repeat' first
      | with_reducible assumption | exact fun _ => ⟨rfl, rfl⟩ | exact fun _ => rfl
      | exact fun _ => ⟨rfl, rfl, rfl, rfl, rfl⟩ | intro _ | with_reducible apply Only.evalComplete
      | with_reducible apply Only.tick | exact Part.sub hm rfl

end Sys2Proof.Machine
end

