-- ==== Sys2Proof/Laws/OnlyConfiguration.lean ====
section
/-! SUPPORT. What Configuration.lean keeps (Laws/Only.lean). -/

namespace Sys2Proof.Machine

variable {m : Nat} {x₀ s : State}

theorem Only.onSlot (a0 : ℕ) (a1 : Slot → Slot) (hm : m &&& 8388608 = 8388608) (h : Only m x₀ s) :
    Only m x₀ (State.onSlot a0 a1 s) := by
  dsimp only [State.onSlot]
  repeat' first
      | with_reducible assumption | exact fun _ => ⟨rfl, rfl⟩ | exact fun _ => rfl
      | exact fun _ => ⟨rfl, rfl, rfl, rfl, rfl⟩ | intro _ | with_reducible apply Only.onCfg_keep

theorem Only.addMark (a0 : ℕ) (a1 : ℕ) (hm : m &&& 8388608 = 8388608) (h : Only m x₀ s) :
    Only m x₀ (State.addMark a0 a1 s) := by
  dsimp only [State.addMark]
  repeat' first
      | with_reducible assumption | exact fun _ => ⟨rfl, rfl⟩ | exact fun _ => rfl
      | exact fun _ => ⟨rfl, rfl, rfl, rfl, rfl⟩ | intro _ | with_reducible apply Only.onSlot

theorem Only.settleBy (a0 : Option (ℕ × BitVec 16)) (a1 : ℕ) (hm : m &&& 2 = 2) (h : Only m x₀ s) :
    Only m x₀ (State.settleBy a0 a1 s) := by
  dsimp only [State.settleBy]
  repeat' first
      | with_reducible assumption | exact fun _ => ⟨rfl, rfl⟩ | exact fun _ => rfl
      | exact fun _ => ⟨rfl, rfl, rfl, rfl, rfl⟩ | intro _ | with_reducible apply Only.settle | exact Part.sub hm rfl
      | rfl | exact ⟨rfl, rfl⟩ | exact ⟨rfl, rfl, rfl, rfl, rfl⟩ | split

theorem Only.refuseImage (a0 : ℕ) (a1 : ℕ × ℕ) (hm : m &&& 8454144 = 8454144) (h : Only m x₀ s) :
    Only m x₀ (State.refuseImage a0 a1 s) := by
  dsimp only [State.refuseImage]
  repeat' first
      | with_reducible assumption | exact fun _ => ⟨rfl, rfl⟩ | exact fun _ => rfl
      | exact fun _ => ⟨rfl, rfl, rfl, rfl, rfl⟩ | intro _ | with_reducible apply Only.raise
      | with_reducible apply Only.onCfg_keep | exact Part.sub hm rfl

theorem Only.firstUse (hm : m &&& 5155319802 = 5155319802) (h : Only m x₀ s) :
    Only m x₀ (State.firstUse s) := by
  dsimp only [State.firstUse]
  repeat' first
      | with_reducible assumption | exact fun _ => ⟨rfl, rfl⟩ | exact fun _ => rfl
      | exact fun _ => ⟨rfl, rfl, rfl, rfl, rfl⟩ | intro _ | with_reducible apply Only.forL
      | with_reducible apply Only.forL_fst | with_reducible apply Only.onFab | with_reducible apply Only.blockFirstUse
      | with_reducible apply Only.pairRelease | with_reducible apply Only.onPair | exact Part.sub hm rfl

theorem Only.enterImage (a0 : ℕ) (a1 : Image) (a2 : Bool) (a3 : Bool) (hm : m &&& 13753647098 = 13753647098)
    (h : Only m x₀ s) :
    Only m x₀ (State.enterImage a0 a1 a2 a3 s) := by
  dsimp only [State.enterImage]
  repeat' first
      | with_reducible assumption | exact fun _ => ⟨rfl, rfl⟩ | exact fun _ => rfl
      | exact fun _ => ⟨rfl, rfl, rfl, rfl, rfl⟩ | intro _ | with_reducible apply Only.on
      | with_reducible apply Only.onTsy | with_reducible apply Only.netRestart | with_reducible apply Only.firstRole
      | with_reducible apply Only.firstUse | exact Part.sub hm rfl
      | (constructor <;> first | exact .inr rfl | exact .inr ⟨rfl, rfl⟩ | exact .inr ⟨rfl, rfl, rfl, rfl, rfl⟩ | exact .inl (Part.bit (Part.sub hm rfl)))

theorem Only.beginStopped (hm : m &&& 65728 = 65728) (h : Only m x₀ s) :
    Only m x₀ (State.beginStopped s) := by
  dsimp only [State.beginStopped]
  repeat' first
      | with_reducible assumption | exact fun _ => ⟨rfl, rfl⟩ | exact fun _ => rfl
      | exact fun _ => ⟨rfl, rfl, rfl, rfl, rfl⟩ | intro _ | with_reducible apply Only.ite
      | with_reducible apply Only.fst_ite | with_reducible apply Only.snd_ite | with_reducible apply Only.updateReady
      | with_reducible apply Only.stopZones | exact Part.sub hm rfl

theorem Only.plugStart (a0 : Image) (a1 : Option (ℕ × BitVec 16)) (hm : m &&& 8454144 = 8454144) (h : Only m x₀ s) :
    Only m x₀ (State.plugStart a0 a1 s).1 := by
  dsimp only [State.plugStart]
  repeat' first
      | with_reducible assumption | exact fun _ => ⟨rfl, rfl⟩ | exact fun _ => rfl
      | exact fun _ => ⟨rfl, rfl, rfl, rfl, rfl⟩ | intro _ | with_reducible apply Only.ite
      | with_reducible apply Only.fst_ite | with_reducible apply Only.snd_ite | with_reducible apply Only.raise
      | with_reducible apply Only.onCfg_keep | exact Part.sub hm rfl

theorem Only.plugDone (a0 : ℕ) (hm : m &&& 8454146 = 8454146) (h : Only m x₀ s) :
    Only m x₀ (State.plugDone a0 s) := by
  dsimp only [State.plugDone]
  repeat' first
      | with_reducible assumption | exact fun _ => ⟨rfl, rfl⟩ | exact fun _ => rfl
      | exact fun _ => ⟨rfl, rfl, rfl, rfl, rfl⟩ | intro _ | with_reducible apply Only.ite
      | with_reducible apply Only.fst_ite | with_reducible apply Only.snd_ite | with_reducible apply Only.onCfg_keep
      | with_reducible apply Only.settleBy | with_reducible apply Only.raise | exact Part.sub hm rfl | rfl
      | exact ⟨rfl, rfl⟩ | exact ⟨rfl, rfl, rfl, rfl, rfl⟩ | split

theorem Only.execPlugWriteComplete (a0 : ℕ) (a1 : ℕ) (hm : m &&& 8454147 = 8454147) (h : Only m x₀ s) :
    ∀ u, (execPlugWriteComplete a0 a1 s) = .next u → Only m x₀ u := by
  intro u e
  obtain rfl := Host.Outcome.next.inj e
  repeat' first
      | with_reducible assumption | exact fun _ => ⟨rfl, rfl⟩ | exact fun _ => rfl
      | exact fun _ => ⟨rfl, rfl, rfl, rfl, rfl⟩ | intro _ | with_reducible apply Only.plugDone
      | with_reducible apply Only.tick | exact Part.sub hm rfl

theorem Only.plugFound (a0 : PlugFind) (hm : m &&& 8454144 = 8454144) (h : Only m x₀ s) :
    Only m x₀ (State.plugFound a0 s) := by
  dsimp only [State.plugFound]
  repeat' first
      | with_reducible assumption | exact fun _ => ⟨rfl, rfl⟩ | exact fun _ => rfl
      | exact fun _ => ⟨rfl, rfl, rfl, rfl, rfl⟩ | intro _ | with_reducible apply Only.ite
      | with_reducible apply Only.fst_ite | with_reducible apply Only.snd_ite | with_reducible apply Only.onCfg_keep
      | with_reducible apply Only.plugStart | with_reducible apply Only.raise | exact Part.sub hm rfl | rfl
      | exact ⟨rfl, rfl⟩ | exact ⟨rfl, rfl, rfl, rfl, rfl⟩ | split

theorem Only.plugCopy (a0 : Image) (hm : m &&& 8454144 = 8454144) (h : Only m x₀ s) :
    Only m x₀ (State.plugCopy a0 s).1 := by
  dsimp only [State.plugCopy]
  repeat' first
      | with_reducible assumption | exact fun _ => ⟨rfl, rfl⟩ | exact fun _ => rfl
      | exact fun _ => ⟨rfl, rfl, rfl, rfl, rfl⟩ | intro _ | with_reducible apply Only.onSlot
      | with_reducible apply Only.refuseImage | exact Part.sub hm rfl | rfl | exact ⟨rfl, rfl⟩
      | exact ⟨rfl, rfl, rfl, rfl, rfl⟩ | split

theorem Only.startRuns (hm : m &&& 34363932672 = 34363932672) (h : Only m x₀ s) :
    Only m x₀ (State.startRuns s) := by
  dsimp only [State.startRuns]
  repeat' first
      | with_reducible assumption | exact fun _ => ⟨rfl, rfl⟩ | exact fun _ => rfl
      | exact fun _ => ⟨rfl, rfl, rfl, rfl, rfl⟩ | intro _ | with_reducible apply Only.onPwr

theorem Only.loadRecords (a0 : ℕ) (a1 : Image) (a2 : List ℕ) (hm : m &&& 37945344 = 37945344) (h : Only m x₀ s) :
    Only m x₀ (State.loadRecords a0 a1 a2 s) := by
  dsimp only [State.loadRecords]
  repeat' first
      | with_reducible assumption | exact fun _ => ⟨rfl, rfl⟩ | exact fun _ => rfl
      | exact fun _ => ⟨rfl, rfl, rfl, rfl, rfl⟩ | intro _ | with_reducible apply Only.forL
      | with_reducible apply Only.forL_fst | with_reducible apply Only.recordConfig

theorem Only.startPlug (a0 : ℕ) (a1 : Image) (a2 : Bool) (hm : m &&& 48113385466 = 48113385466) (h : Only m x₀ s) :
    Only m x₀ (State.startPlug a0 a1 a2 s) := by
  dsimp only [State.startPlug]
  repeat' first
      | with_reducible assumption | exact fun _ => ⟨rfl, rfl⟩ | exact fun _ => rfl
      | exact fun _ => ⟨rfl, rfl, rfl, rfl, rfl⟩ | intro _ | with_reducible apply Only.loadRecords
      | with_reducible apply Only.addMark | with_reducible apply Only.enterImage | with_reducible apply Only.startRuns
      | exact Part.sub hm rfl

theorem Only.startStored (a0 : ℕ) (a1 : Image) (hm : m &&& 48113385466 = 48113385466) (h : Only m x₀ s) :
    Only m x₀ (State.startStored a0 a1 s) := by
  dsimp only [State.startStored]
  repeat' first
      | with_reducible assumption | exact fun _ => ⟨rfl, rfl⟩ | exact fun _ => rfl
      | exact fun _ => ⟨rfl, rfl, rfl, rfl, rfl⟩ | intro _ | with_reducible apply Only.ite
      | with_reducible apply Only.fst_ite | with_reducible apply Only.snd_ite | with_reducible apply Only.beginStopped
      | with_reducible apply Only.enterImage | with_reducible apply Only.startRuns
      | with_reducible apply Only.loadRecords | exact Part.sub hm rfl

theorem Only.stopAtSeven (a0 : Bool) (hm : m &&& 34363932672 = 34363932672) (h : Only m x₀ s) :
    Only m x₀ (State.stopAtSeven a0 s) := by
  dsimp only [State.stopAtSeven]
  repeat' first
      | with_reducible assumption | exact fun _ => ⟨rfl, rfl⟩ | exact fun _ => rfl
      | exact fun _ => ⟨rfl, rfl, rfl, rfl, rfl⟩ | intro _ | with_reducible apply Only.ite
      | with_reducible apply Only.fst_ite | with_reducible apply Only.snd_ite | with_reducible apply Only.onPwr

theorem Only.lastResort (a0 : PlugFind) (a1 : Bool) (a2 : Bool) (hm : m &&& 48113385466 = 48113385466)
    (h : Only m x₀ s) :
    Only m x₀ (State.lastResort a0 a1 a2 s) := by
  unfold State.lastResort
  split
  · next im =>
    have hp : Only m x₀ (s.plugCopy im).1 := .plugCopy _ (Part.sub hm rfl) h
    refine .ite (.stopAtSeven _ (Part.sub hm rfl) h) ?_
    split
    · next s1 k e => rw [e] at hp; exact .startPlug _ _ _ (Part.sub hm rfl) hp
    · next s1 e => rw [e] at hp; exact .stopAtSeven _ (Part.sub hm rfl) hp
  · exact .stopAtSeven _ (Part.sub hm rfl) h

theorem Only.tryStored (a0 : PlugFind) (a1 : Bool) (a2 : List ℕ) (a3 : Bool)
    (hm : m &&& 48113385466 = 48113385466) (h : Only m x₀ s) :
    Only m x₀ (State.tryStored a0 a1 a2 a3 s) := by
  induction a2 generalizing s a3 with
  | nil => exact .lastResort _ _ _ (Part.sub hm rfl) h
  | cons k l ih =>
    dsimp only [State.tryStored]
    split
    · exact .startStored _ _ (Part.sub hm rfl) h
    · exact ih _ (.refuseImage _ _ (Part.sub hm rfl) h)
    · exact ih _ h

theorem Only.configLoad (a0 : PlugFind) (hm : m &&& 48113385466 = 48113385466) (h : Only m x₀ s) :
    Only m x₀ (State.configLoad a0 s) := by
  unfold State.configLoad
  refine .ite h (.ite (.tryStored _ _ _ _ (Part.sub hm rfl) h) ?_)
  extract_lets v s1
  have h1 : Only m x₀ s1 := .plugFound _ (Part.sub hm rfl) h
  split
  · next im =>
    have hp : Only m x₀ (s1.plugCopy im).1 := .plugCopy _ (Part.sub hm rfl) h1
    refine .ite ?_ (.tryStored _ _ _ _ (Part.sub hm rfl) h1)
    split
    · next s2 k e => rw [e] at hp; exact .startPlug _ _ _ (Part.sub hm rfl) hp
    · next s2 e => rw [e] at hp; exact .tryStored _ _ _ _ (Part.sub hm rfl) hp
  · exact .tryStored _ _ _ _ (Part.sub hm rfl) h1

theorem Only.execConfigLoad (a0 : ℕ) (a1 : PlugFind) (hm : m &&& 48113385467 = 48113385467) (h : Only m x₀ s) :
    ∀ u, (execConfigLoad a0 a1 s) = .next u → Only m x₀ u := by
  intro u e
  obtain rfl := Host.Outcome.next.inj e
  repeat' first
      | with_reducible assumption | exact fun _ => ⟨rfl, rfl⟩ | exact fun _ => rfl
      | exact fun _ => ⟨rfl, rfl, rfl, rfl, rfl⟩ | intro _ | with_reducible apply Only.configLoad
      | with_reducible apply Only.tick | exact Part.sub hm rfl

theorem Only.loadDone (hm : m &&& 48113385466 = 48113385466) (h : Only m x₀ s) :
    Only m x₀ (State.loadDone s) := by
  dsimp only [State.loadDone]
  repeat' first
      | with_reducible assumption | exact fun _ => ⟨rfl, rfl⟩ | exact fun _ => rfl
      | exact fun _ => ⟨rfl, rfl, rfl, rfl, rfl⟩ | intro _ | with_reducible apply Only.ite
      | with_reducible apply Only.fst_ite | with_reducible apply Only.snd_ite | with_reducible apply Only.onCfg_keep
      | with_reducible apply Only.startRuns | with_reducible apply Only.settleBy
      | with_reducible apply Only.loadRecords | with_reducible apply Only.addMark
      | with_reducible apply Only.enterImage | with_reducible apply Only.refuseImage | exact Part.sub hm rfl | rfl
      | exact ⟨rfl, rfl⟩ | exact ⟨rfl, rfl, rfl, rfl, rfl⟩ | split

theorem Only.execConfigLoadComplete (a0 : ℕ) (hm : m &&& 48113385467 = 48113385467) (h : Only m x₀ s) :
    ∀ u, (execConfigLoadComplete a0 s) = .next u → Only m x₀ u := by
  intro u e
  obtain rfl := Host.Outcome.next.inj e
  repeat' first
      | with_reducible assumption | exact fun _ => ⟨rfl, rfl⟩ | exact fun _ => rfl
      | exact fun _ => ⟨rfl, rfl, rfl, rfl, rfl⟩ | intro _ | with_reducible apply Only.loadDone
      | with_reducible apply Only.tick | exact Part.sub hm rfl

theorem Only.cfgOp (a0 : Reader) (a1 : ℕ) (a2 : Word) (a3 : ℕ → State → State × ℕ) (hm : m &&& 8388608 = 8388608)
    (h_a3 : ∀ y0 t, Only m x₀ t → Only m x₀ (a3 y0 t).1) (h : Only m x₀ s) :
    Only m x₀ (State.cfgOp a0 a1 a2 a3 s).1 := by
  dsimp only [State.cfgOp]
  repeat' first
      | with_reducible assumption | exact fun _ => ⟨rfl, rfl⟩ | exact fun _ => rfl
      | exact fun _ => ⟨rfl, rfl, rfl, rfl, rfl⟩ | intro _ | with_reducible apply Only.ite
      | with_reducible apply Only.fst_ite | with_reducible apply Only.snd_ite | with_reducible apply Only.onCfg_keep
      | with_reducible apply h_a3

theorem Only.cfgCmd (a0 : ℕ) (a1 : Reader) (a2 : ℕ) (a3 : Word) (a4 : ℕ → State → State × ℕ)
    (hm : m &&& 8454147 = 8454147) (h_a4 : ∀ y0 t, Only m x₀ t → Only m x₀ (a4 y0 t).1) (h : Only m x₀ s) :
    ∀ u, (State.cfgCmd a0 a1 a2 a3 a4 s) = .next u → Only m x₀ u := by
  intro u e
  obtain rfl := Host.Outcome.next.inj e
  repeat' first
      | with_reducible assumption | exact fun _ => ⟨rfl, rfl⟩ | exact fun _ => rfl
      | exact fun _ => ⟨rfl, rfl, rfl, rfl, rfl⟩ | intro _ | with_reducible apply Only.wt
      | with_reducible apply Only.cfgOp | with_reducible apply Only.tick | with_reducible apply h_a4
      | exact Part.sub hm rfl

theorem Only.slotOpen (a0 : ℕ) (hm : m &&& 8388608 = 8388608) (h : Only m x₀ s) :
    Only m x₀ (State.slotOpen a0 s).1 := by
  dsimp only [State.slotOpen]
  repeat' first
      | with_reducible assumption | exact fun _ => ⟨rfl, rfl⟩ | exact fun _ => rfl
      | exact fun _ => ⟨rfl, rfl, rfl, rfl, rfl⟩ | intro _ | with_reducible apply Only.ite
      | with_reducible apply Only.fst_ite | with_reducible apply Only.snd_ite | with_reducible apply Only.onSlot

theorem Only.execCfgOpen (a0 : ℕ) (a1 : Reader) (a2 : Word) (hm : m &&& 8454147 = 8454147) (h : Only m x₀ s) :
    ∀ u, (execCfgOpen a0 a1 a2 s) = .next u → Only m x₀ u := by
  unfold Machine.execCfgOpen
  with_reducible apply Only.cfgCmd
  all_goals repeat' first
      | with_reducible assumption | exact fun _ => ⟨rfl, rfl⟩ | exact fun _ => rfl
      | exact fun _ => ⟨rfl, rfl, rfl, rfl, rfl⟩ | intro _ | with_reducible apply Only.slotOpen
      | exact Part.sub hm rfl

theorem Only.program (a0 : ℕ) (a1 : ℕ) (a2 : List Byte) (a3 : Spells) (hm : m &&& 8388608 = 8388608)
    (h : Only m x₀ s) :
    Only m x₀ (State.program a0 a1 a2 a3 s).1 := by
  dsimp only [State.program]
  repeat' first
      | with_reducible assumption | exact fun _ => ⟨rfl, rfl⟩ | exact fun _ => rfl
      | exact fun _ => ⟨rfl, rfl, rfl, rfl, rfl⟩ | intro _ | with_reducible apply Only.ite
      | with_reducible apply Only.fst_ite | with_reducible apply Only.snd_ite | with_reducible apply Only.onSlot

theorem Only.programWindow (a0 : ℕ) (a1 : Spells) (a2 : ℕ) (hm : m &&& 8388608 = 8388608) (h : Only m x₀ s) :
    Only m x₀ (State.programWindow a0 a1 a2 s).1 := by
  dsimp only [State.programWindow]
  repeat' first
      | with_reducible assumption | exact fun _ => ⟨rfl, rfl⟩ | exact fun _ => rfl
      | exact fun _ => ⟨rfl, rfl, rfl, rfl, rfl⟩ | intro _ | with_reducible apply Only.ite
      | with_reducible apply Only.fst_ite | with_reducible apply Only.snd_ite | with_reducible apply Only.program
      | with_reducible apply Only.onCfg_keep

theorem Only.execCfgProgramWindow (a0 : ℕ) (a1 : Reader) (a2 : Word) (a3 : Spells) (hm : m &&& 8454147 = 8454147)
    (h : Only m x₀ s) :
    ∀ u, (execCfgProgramWindow a0 a1 a2 a3 s) = .next u → Only m x₀ u := by
  unfold Machine.execCfgProgramWindow
  with_reducible apply Only.cfgCmd
  all_goals repeat' first
      | with_reducible assumption | exact fun _ => ⟨rfl, rfl⟩ | exact fun _ => rfl
      | exact fun _ => ⟨rfl, rfl, rfl, rfl, rfl⟩ | intro _ | with_reducible apply Only.programWindow
      | exact Part.sub hm rfl

theorem Only.slotSeal (a0 : ℕ) (hm : m &&& 8454144 = 8454144) (h : Only m x₀ s) :
    Only m x₀ (State.slotSeal a0 s).1 := by
  dsimp only [State.slotSeal]
  repeat' first
      | with_reducible assumption | exact fun _ => ⟨rfl, rfl⟩ | exact fun _ => rfl
      | exact fun _ => ⟨rfl, rfl, rfl, rfl, rfl⟩ | intro _ | with_reducible apply Only.ite
      | with_reducible apply Only.fst_ite | with_reducible apply Only.snd_ite | with_reducible apply Only.onSlot
      | with_reducible apply Only.addMark | with_reducible apply Only.refuseImage | with_reducible apply Only.raise
      | with_reducible apply Only.onCfg_keep | exact Part.sub hm rfl | rfl | exact ⟨rfl, rfl⟩
      | exact ⟨rfl, rfl, rfl, rfl, rfl⟩ | split

theorem Only.execCfgSeal (a0 : ℕ) (a1 : Reader) (a2 : Word) (hm : m &&& 8454147 = 8454147) (h : Only m x₀ s) :
    ∀ u, (execCfgSeal a0 a1 a2 s) = .next u → Only m x₀ u := by
  unfold Machine.execCfgSeal
  with_reducible apply Only.cfgCmd
  all_goals repeat' first
      | with_reducible assumption | exact fun _ => ⟨rfl, rfl⟩ | exact fun _ => rfl
      | exact fun _ => ⟨rfl, rfl, rfl, rfl, rfl⟩ | intro _ | with_reducible apply Only.slotSeal
      | exact Part.sub hm rfl

theorem Only.acceptEnds (a0 : ℕ) (hm : m &&& 8454144 = 8454144) (h : Only m x₀ s) :
    Only m x₀ (State.acceptEnds a0 s) := by
  dsimp only [State.acceptEnds]
  repeat' first
      | with_reducible assumption | exact fun _ => ⟨rfl, rfl⟩ | exact fun _ => rfl
      | exact fun _ => ⟨rfl, rfl, rfl, rfl, rfl⟩ | intro _ | with_reducible apply Only.raise
      | with_reducible apply Only.onCfg_keep | exact Part.sub hm rfl

theorem Only.slotLoad (a0 : ℕ) (a1 : BitVec 16) (a2 : ℕ) (hm : m &&& 8454144 = 8454144) (h : Only m x₀ s) :
    Only m x₀ (State.slotLoad a0 a1 a2 s).1 := by
  dsimp only [State.slotLoad]
  repeat' first
      | with_reducible assumption | exact fun _ => ⟨rfl, rfl⟩ | exact fun _ => rfl
      | exact fun _ => ⟨rfl, rfl, rfl, rfl, rfl⟩ | intro _ | with_reducible apply Only.ite
      | with_reducible apply Only.fst_ite | with_reducible apply Only.snd_ite | with_reducible apply Only.acceptEnds
      | with_reducible apply Only.onCfg_keep | exact Part.sub hm rfl

theorem Only.execCfgLoad (a0 : ℕ) (a1 : Reader) (a2 : Word) (hm : m &&& 8454147 = 8454147) (h : Only m x₀ s) :
    ∀ u, (execCfgLoad a0 a1 a2 s) = .next u → Only m x₀ u := by
  unfold Machine.execCfgLoad
  with_reducible apply Only.cfgCmd
  all_goals repeat' first
      | with_reducible assumption | exact fun _ => ⟨rfl, rfl⟩ | exact fun _ => rfl
      | exact fun _ => ⟨rfl, rfl, rfl, rfl, rfl⟩ | intro _ | with_reducible apply Only.slotLoad
      | exact Part.sub hm rfl

theorem Only.accept (a0 : Reader) (a1 : BitVec 16) (hm : m &&& 562102274 = 562102274) (h : Only m x₀ s) :
    Only m x₀ (State.accept a0 a1 s).1 := by
  dsimp only [State.accept]
  repeat' first
      | with_reducible assumption | exact fun _ => ⟨rfl, rfl⟩ | exact fun _ => rfl
      | exact fun _ => ⟨rfl, rfl, rfl, rfl, rfl⟩ | intro _ | with_reducible apply Only.ite
      | with_reducible apply Only.fst_ite | with_reducible apply Only.snd_ite | with_reducible apply Only.raise
      | with_reducible apply Only.newNonce | with_reducible apply Only.hifPend | with_reducible apply Only.onCfg_keep
      | exact Part.sub hm rfl

theorem Only.execCfgAccept (a0 : ℕ) (a1 : Reader) (a2 : Word) (hm : m &&& 562102275 = 562102275) (h : Only m x₀ s) :
    ∀ u, (execCfgAccept a0 a1 a2 s) = .next u → Only m x₀ u := by
  unfold Machine.execCfgAccept
  with_reducible apply Only.cfgCmd
  all_goals repeat' first
      | with_reducible assumption | exact fun _ => ⟨rfl, rfl⟩ | exact fun _ => rfl
      | exact fun _ => ⟨rfl, rfl, rfl, rfl, rfl⟩ | intro _ | with_reducible apply Only.accept | exact Part.sub hm rfl

theorem Only.cancelAccept (hm : m &&& 8454144 = 8454144) (h : Only m x₀ s) :
    Only m x₀ (State.cancelAccept s).1 := by
  dsimp only [State.cancelAccept]
  repeat' first
      | with_reducible assumption | exact fun _ => ⟨rfl, rfl⟩ | exact fun _ => rfl
      | exact fun _ => ⟨rfl, rfl, rfl, rfl, rfl⟩ | intro _ | with_reducible apply Only.ite
      | with_reducible apply Only.fst_ite | with_reducible apply Only.snd_ite | with_reducible apply Only.acceptEnds

theorem Only.execCfgCancelAccept (a0 : ℕ) (a1 : Reader) (a2 : Word) (hm : m &&& 8454147 = 8454147) (h : Only m x₀ s) :
    ∀ u, (execCfgCancelAccept a0 a1 a2 s) = .next u → Only m x₀ u := by
  unfold Machine.execCfgCancelAccept
  with_reducible apply Only.cfgCmd
  all_goals repeat' first
      | with_reducible assumption | exact fun _ => ⟨rfl, rfl⟩ | exact fun _ => rfl
      | exact fun _ => ⟨rfl, rfl, rfl, rfl, rfl⟩ | intro _ | with_reducible apply Only.cancelAccept
      | exact Part.sub hm rfl

theorem Only.slotDiscard (a0 : ℕ) (hm : m &&& 8388608 = 8388608) (h : Only m x₀ s) :
    Only m x₀ (State.slotDiscard a0 s).1 := by
  dsimp only [State.slotDiscard]
  repeat' first
      | with_reducible assumption | exact fun _ => ⟨rfl, rfl⟩ | exact fun _ => rfl
      | exact fun _ => ⟨rfl, rfl, rfl, rfl, rfl⟩ | intro _ | with_reducible apply Only.ite
      | with_reducible apply Only.fst_ite | with_reducible apply Only.snd_ite | with_reducible apply Only.onSlot

theorem Only.execCfgDiscard (a0 : ℕ) (a1 : Reader) (a2 : Word) (hm : m &&& 8454147 = 8454147) (h : Only m x₀ s) :
    ∀ u, (execCfgDiscard a0 a1 a2 s) = .next u → Only m x₀ u := by
  unfold Machine.execCfgDiscard
  with_reducible apply Only.cfgCmd
  all_goals repeat' first
      | with_reducible assumption | exact fun _ => ⟨rfl, rfl⟩ | exact fun _ => rfl
      | exact fun _ => ⟨rfl, rfl, rfl, rfl, rfl⟩ | intro _ | with_reducible apply Only.slotDiscard
      | exact Part.sub hm rfl

theorem Only.writePlug (a0 : ℕ) (a1 : BitVec 16) (hm : m &&& 8454144 = 8454144) (h : Only m x₀ s) :
    Only m x₀ (State.writePlug a0 a1 s).1 := by
  dsimp only [State.writePlug]
  repeat' first
      | with_reducible assumption | exact fun _ => ⟨rfl, rfl⟩ | exact fun _ => rfl
      | exact fun _ => ⟨rfl, rfl, rfl, rfl, rfl⟩ | intro _ | with_reducible apply Only.ite
      | with_reducible apply Only.fst_ite | with_reducible apply Only.snd_ite | with_reducible apply Only.plugStart
      | exact Part.sub hm rfl | rfl | exact ⟨rfl, rfl⟩ | exact ⟨rfl, rfl, rfl, rfl, rfl⟩ | split

theorem Only.execCfgWritePlug (a0 : ℕ) (a1 : Reader) (a2 : Word) (hm : m &&& 8454147 = 8454147) (h : Only m x₀ s) :
    ∀ u, (execCfgWritePlug a0 a1 a2 s) = .next u → Only m x₀ u := by
  unfold Machine.execCfgWritePlug
  with_reducible apply Only.cfgCmd
  all_goals repeat' first
      | with_reducible assumption | exact fun _ => ⟨rfl, rfl⟩ | exact fun _ => rfl
      | exact fun _ => ⟨rfl, rfl, rfl, rfl, rfl⟩ | intro _ | with_reducible apply Only.writePlug
      | exact Part.sub hm rfl

theorem Only.acceptAck (hm : m &&& 46858242 = 46858242) (h : Only m x₀ s) :
    Only m x₀ (State.acceptAck s) := by
  dsimp only [State.acceptAck]
  repeat' first
      | with_reducible assumption | exact fun _ => ⟨rfl, rfl⟩ | exact fun _ => rfl
      | exact fun _ => ⟨rfl, rfl, rfl, rfl, rfl⟩ | intro _ | with_reducible apply Only.ite
      | with_reducible apply Only.fst_ite | with_reducible apply Only.snd_ite | with_reducible apply Only.cntRaise
      | with_reducible apply Only.recordConfig | with_reducible apply Only.addMark
      | with_reducible apply Only.settleBy | with_reducible apply Only.onCfg_keep
      | with_reducible apply Only.plugStart | exact Part.sub hm rfl | rfl | exact ⟨rfl, rfl⟩
      | exact ⟨rfl, rfl, rfl, rfl, rfl⟩ | split

theorem Only.execAcceptanceAck (a0 : ℕ) (hm : m &&& 46858243 = 46858243) (h : Only m x₀ s) :
    ∀ u, (execAcceptanceAck a0 s) = .next u → Only m x₀ u := by
  intro u e
  obtain rfl := Host.Outcome.next.inj e
  repeat' first
      | with_reducible assumption | exact fun _ => ⟨rfl, rfl⟩ | exact fun _ => rfl
      | exact fun _ => ⟨rfl, rfl, rfl, rfl, rfl⟩ | intro _ | with_reducible apply Only.acceptAck
      | with_reducible apply Only.tick | exact Part.sub hm rfl

theorem Only.acceptTimeout (hm : m &&& 8454146 = 8454146) (h : Only m x₀ s) :
    Only m x₀ (State.acceptTimeout s) := by
  dsimp only [State.acceptTimeout]
  repeat' first
      | with_reducible assumption | exact fun _ => ⟨rfl, rfl⟩ | exact fun _ => rfl
      | exact fun _ => ⟨rfl, rfl, rfl, rfl, rfl⟩ | intro _ | with_reducible apply Only.ite
      | with_reducible apply Only.fst_ite | with_reducible apply Only.snd_ite | with_reducible apply Only.settleBy
      | with_reducible apply Only.acceptEnds | exact Part.sub hm rfl

theorem Only.execAcceptanceTimeout (a0 : ℕ) (hm : m &&& 8454147 = 8454147) (h : Only m x₀ s) :
    ∀ u, (execAcceptanceTimeout a0 s) = .next u → Only m x₀ u := by
  intro u e
  obtain rfl := Host.Outcome.next.inj e
  repeat' first
      | with_reducible assumption | exact fun _ => ⟨rfl, rfl⟩ | exact fun _ => rfl
      | exact fun _ => ⟨rfl, rfl, rfl, rfl, rfl⟩ | intro _ | with_reducible apply Only.acceptTimeout
      | with_reducible apply Only.tick | exact Part.sub hm rfl

end Sys2Proof.Machine
end

