-- ==== Sys2Proof/Laws/OnlyAccess.lean ====
section
/-! SUPPORT. What Access.lean keeps (Laws/Only.lean). -/

namespace Sys2Proof.Machine

variable {m : Nat} {x₀ s : State}

theorem Only.readLatch (a0 : ℕ) (a1 : ℕ) (hm : m &&& 163844 = 163844) (h : Only m x₀ s) :
    Only m x₀ (State.readLatch a0 a1 s) := by
  dsimp only [State.readLatch]
  repeat' first
      | with_reducible assumption | exact fun _ => ⟨rfl, rfl⟩ | exact fun _ => rfl
      | exact fun _ => ⟨rfl, rfl, rfl, rfl, rfl⟩ | intro _ | with_reducible apply Only.ite
      | with_reducible apply Only.fst_ite | with_reducible apply Only.snd_ite | with_reducible apply Only.latchOptime
      | with_reducible apply Only.latchCell | with_reducible apply Only.windowRead
      | with_reducible apply Only.latchCvuState | with_reducible apply Only.latchCvuResult | exact Part.sub hm rfl

theorem Only.load (a0 : Reader) (a1 : ℕ) (hm : m &&& 163844 = 163844) (h : Only m x₀ s) :
    Only m x₀ (State.load a0 a1 s).2 := by
  dsimp only [State.load]
  repeat' first
      | with_reducible assumption | exact fun _ => ⟨rfl, rfl⟩ | exact fun _ => rfl
      | exact fun _ => ⟨rfl, rfl, rfl, rfl, rfl⟩ | intro _ | with_reducible apply Only.readLatch

theorem Only.stage (a0 : ℕ) (a1 : ℕ) (a2 : Word) (hm : m &&& 2 = 2) (h : Only m x₀ s) :
    Only m x₀ (State.stage a0 a1 a2 s).1 := by
  dsimp only [State.stage]
  repeat' first
      | with_reducible assumption | exact fun _ => ⟨rfl, rfl⟩ | exact fun _ => rfl
      | exact fun _ => ⟨rfl, rfl, rfl, rfl, rfl⟩ | intro _ | with_reducible apply Only.ite
      | with_reducible apply Only.fst_ite | with_reducible apply Only.snd_ite | with_reducible apply Only.onStaging

theorem Only.hifIrq (a0 : Word) (hm : m &&& 16777216 = 16777216) (h : Only m x₀ s) :
    Only m x₀ (State.hifIrq a0 s).1 := by
  dsimp only [State.hifIrq]
  repeat' first
      | with_reducible assumption | exact fun _ => ⟨rfl, rfl⟩ | exact fun _ => rfl
      | exact fun _ => ⟨rfl, rfl, rfl, rfl, rfl⟩ | intro _ | with_reducible apply Only.onHif

theorem Only.cprEvt (a0 : ℕ) (a1 : Word) (hm : m &&& 16384 = 16384) (h : Only m x₀ s) :
    Only m x₀ (State.cprEvt a0 a1 s).1 := by
  dsimp only [State.cprEvt]
  repeat' first
      | with_reducible assumption | exact fun _ => ⟨rfl, rfl⟩ | exact fun _ => rfl
      | exact fun _ => ⟨rfl, rfl, rfl, rfl, rfl⟩ | intro _ | with_reducible apply Only.onPair

theorem Only.mtimecmp (a0 : ℕ) (a1 : Bool) (a2 : Word) (hm : m &&& 16384 = 16384) (h : Only m x₀ s) :
    Only m x₀ (State.mtimecmp a0 a1 a2 s).1 := by
  dsimp only [State.mtimecmp]
  repeat' first
      | with_reducible assumption | exact fun _ => ⟨rfl, rfl⟩ | exact fun _ => rfl
      | exact fun _ => ⟨rfl, rfl, rfl, rfl, rfl⟩ | intro _ | with_reducible apply Only.ite
      | with_reducible apply Only.fst_ite | with_reducible apply Only.snd_ite | with_reducible apply Only.timerLine
      | with_reducible apply Only.onPair

theorem Only.irqEnable (a0 : ℕ) (a1 : ℕ) (a2 : Word) (hm : m &&& 16384 = 16384) (h : Only m x₀ s) :
    Only m x₀ (State.irqEnable a0 a1 a2 s).1 := by
  dsimp only [State.irqEnable]
  repeat' first
      | with_reducible assumption | exact fun _ => ⟨rfl, rfl⟩ | exact fun _ => rfl
      | exact fun _ => ⟨rfl, rfl, rfl, rfl, rfl⟩ | intro _ | with_reducible apply Only.onPair

theorem Only.upOffset (a0 : ℕ) (a1 : Word) (hm : m &&& 8388608 = 8388608) (h : Only m x₀ s) :
    Only m x₀ (State.upOffset a0 a1 s).1 := by
  dsimp only [State.upOffset]
  repeat' first
      | with_reducible assumption | exact fun _ => ⟨rfl, rfl⟩ | exact fun _ => rfl
      | exact fun _ => ⟨rfl, rfl, rfl, rfl, rfl⟩ | intro _ | with_reducible apply Only.ite
      | with_reducible apply Only.fst_ite | with_reducible apply Only.snd_ite | with_reducible apply Only.onCfg_keep

theorem Only.upData (a0 : ℕ) (a1 : ℕ) (a2 : Word) (hm : m &&& 8388608 = 8388608) (h : Only m x₀ s) :
    Only m x₀ (State.upData a0 a1 a2 s).1 := by
  dsimp only [State.upData]
  repeat' first
      | with_reducible assumption | exact fun _ => ⟨rfl, rfl⟩ | exact fun _ => rfl
      | exact fun _ => ⟨rfl, rfl, rfl, rfl, rfl⟩ | intro _ | with_reducible apply Only.onCfg_keep

theorem Only.proofWord (a0 : ℕ) (a1 : ℕ) (a2 : Word) (hm : m &&& 2 = 2) (h : Only m x₀ s) :
    Only m x₀ (State.proofWord a0 a1 a2 s).1 := by
  dsimp only [State.proofWord]
  repeat' first
      | with_reducible assumption | exact fun _ => ⟨rfl, rfl⟩ | exact fun _ => rfl
      | exact fun _ => ⟨rfl, rfl, rfl, rfl, rfl⟩ | intro _ | with_reducible apply Only.onExpert

theorem Only.recSig (a0 : ℕ) (a1 : Word) (hm : m &&& 131072 = 131072) (h : Only m x₀ s) :
    Only m x₀ (State.recSig a0 a1 s).1 := by
  dsimp only [State.recSig]
  repeat' first
      | with_reducible assumption | exact fun _ => ⟨rfl, rfl⟩ | exact fun _ => rfl
      | exact fun _ => ⟨rfl, rfl, rfl, rfl, rfl⟩ | intro _ | with_reducible apply Only.onRecd

theorem Only.lcsSig (a0 : ℕ) (a1 : Word) (hm : m &&& 1048576 = 1048576) (h : Only m x₀ s) :
    Only m x₀ (State.lcsSig a0 a1 s).1 := by
  dsimp only [State.lcsSig]
  repeat' first
      | with_reducible assumption | exact fun _ => ⟨rfl, rfl⟩ | exact fun _ => rfl
      | exact fun _ => ⟨rfl, rfl, rfl, rfl, rfl⟩ | intro _ | with_reducible apply Only.onLcs

theorem Only.certWrite (a0 : ℕ) (a1 : Word) (hm : m &&& 2097152 = 2097152) (h : Only m x₀ s) :
    Only m x₀ (State.certWrite a0 a1 s).1 := by
  dsimp only [State.certWrite]
  repeat' first
      | with_reducible assumption | exact fun _ => ⟨rfl, rfl⟩ | exact fun _ => rfl
      | exact fun _ => ⟨rfl, rfl, rfl, rfl, rfl⟩ | intro _ | with_reducible apply Only.ite
      | with_reducible apply Only.fst_ite | with_reducible apply Only.snd_ite | with_reducible apply Only.onKey

theorem Only.attNonce (a0 : ℕ) (a1 : ℕ) (a2 : Word) (hm : m &&& 2097152 = 2097152) (h : Only m x₀ s) :
    Only m x₀ (State.attNonce a0 a1 a2 s).1 := by
  dsimp only [State.attNonce]
  repeat' first
      | with_reducible assumption | exact fun _ => ⟨rfl, rfl⟩ | exact fun _ => rfl
      | exact fun _ => ⟨rfl, rfl, rfl, rfl, rfl⟩ | intro _ | with_reducible apply Only.onAtt

theorem Only.otpProg (a0 : ℕ) (a1 : Word) (hm : m &&& 524288 = 524288) (h : Only m x₀ s) :
    Only m x₀ (State.otpProg a0 a1 s).1 := by
  dsimp only [State.otpProg]
  repeat' first
      | with_reducible assumption | exact fun _ => ⟨rfl, rfl⟩ | exact fun _ => rfl
      | exact fun _ => ⟨rfl, rfl, rfl, rfl, rfl⟩ | intro _ | with_reducible apply Only.ite
      | with_reducible apply Only.fst_ite | with_reducible apply Only.snd_ite | with_reducible apply Only.onOtp_keep
      | exact Part.sub hm rfl | rfl | exact ⟨rfl, rfl⟩ | exact ⟨rfl, rfl, rfl, rfl, rfl⟩ | split

theorem Only.otpShadow (a0 : ℕ) (a1 : Word) (hm : m &&& 524288 = 524288) (h : Only m x₀ s) :
    Only m x₀ (State.otpShadow a0 a1 s).1 := by
  dsimp only [State.otpShadow]
  repeat' first
      | with_reducible assumption | exact fun _ => ⟨rfl, rfl⟩ | exact fun _ => rfl
      | exact fun _ => ⟨rfl, rfl, rfl, rfl, rfl⟩ | intro _ | with_reducible apply Only.ite
      | with_reducible apply Only.fst_ite | with_reducible apply Only.snd_ite | with_reducible apply Only.onOtp_keep

theorem OnlyO.writeRw (a0 : Reader) (a1 : ℕ) (a2 : Word) (hm : m &&& 200998914 = 200998914) (h : Only m x₀ s) :
    OnlyO m x₀ (State.writeRw a0 a1 a2 s) := by
  have hw : ∀ (page : Nat) (run : State → State × Nat), (∀ t, Only m x₀ t → Only m x₀ (run t).1) →
      OnlyO m x₀ (some (s.plain a0 page run)) := fun _ _ hr => .ofSome (.plain _ _ _ (Part.sub hm rfl) hr h)
  unfold State.writeRw
  extract_lets r page off plain
  refine .ite (.bind _ _ fun _ => hw _ _ fun _ ht => .proofWord _ _ _ (Part.sub hm rfl) ht) (.ite (.bind _ _ fun _ => .ofSome
    (.plain _ _ _ (Part.sub hm rfl) (fun _ ht => .setOwn _ _ _ (Part.sub hm rfl) ht) h)) (.ite ?_ (.ite ?_ (.ite
    (.bind _ _ fun _ => hw _ _ fun _ ht => .lcsSig _ _ (Part.sub hm rfl) ht) (.ite ?_ (.ite
    (.ite (hw _ _ fun _ ht => .upOffset _ _ (Part.sub hm rfl) ht)
      (.bind _ _ fun _ => hw _ _ fun _ ht => .upData _ _ _ (Part.sub hm rfl) ht))
    (.ite (.ite (hw _ _ fun _ ht => .hifIrq _ (Part.sub hm rfl) ht) .ofNone) .ofNone)))))))
  · split
    · exact hw _ _ fun _ ht => .recSig _ _ (Part.sub hm rfl) ht
    · exact .ite (.ofSome (.plain _ _ _ (Part.sub hm rfl) (fun _ ht => .onExport _ _ (Part.sub hm rfl) ht) h)) .ofNone
  · exact .ite (.ofSome (.expert _ _ _ _ (Part.sub hm rfl) (fun _ ht => .otpProg _ _ (Part.sub hm rfl) ht) h))
      (.ite (.ofSome (.expert _ _ _ _ (Part.sub hm rfl) (fun _ ht => .otpShadow _ _ (Part.sub hm rfl) ht) h)) .ofNone)
  · split
    · exact hw _ _ fun _ ht => .attNonce _ _ _ (Part.sub hm rfl) ht
    · exact .ite (hw _ _ fun _ ht => .certWrite _ _ (Part.sub hm rfl) ht) .ofNone

theorem OnlyO.writeCpr (a0 : Reader) (a1 : Fin 4) (a2 : ℕ) (a3 : Word) (hm : m &&& 83970 = 83970) (h : Only m x₀ s) :
    OnlyO m x₀ (State.writeCpr a0 a1 a2 a3 s) := by
  have hw : ∀ run : State → State × Nat, (∀ t, Only m x₀ t → Only m x₀ (run t).1) →
      OnlyO m x₀ (some (s.ownPair a0 a1.val run)) := fun _ hr => .ofSome (.ownPair _ _ _ (Part.sub hm rfl) hr h)
  unfold State.writeCpr
  refine .ite (hw _ fun _ ht => .cprAlive _ (Part.sub hm rfl) ht) (.ite
    (.ofSome (.ownWt _ _ _ _ (Part.sub hm rfl) (fun _ ht => .cfwInv _ _ (Part.sub hm rfl) ht) h)) (.ite
    (hw _ fun _ ht => .mtimecmp _ _ _ (Part.sub hm rfl) ht) (.ite (hw _ fun _ ht => .mtimecmp _ _ _ (Part.sub hm rfl) ht) (.ite
    (hw _ fun _ ht => .cprTx _ _ (Part.sub hm rfl) ht) (.ite
      (.ofSome (.plain _ _ _ (Part.sub hm rfl) (fun _ ht => .cprEvt _ _ (Part.sub hm rfl) ht) h)) (.ite
    (.ofSome (.wt _ _ _ _ (Part.sub hm rfl) (fun _ ht => .cprCtrClear _ _ (Part.sub hm rfl) ht) h)) ?_))))))
  split
  · exact hw _ fun _ ht => .irqEnable _ _ _ (Part.sub hm rfl) ht
  · exact hw _ fun _ ht => .rdsel _ _ _ (Part.sub hm rfl) ht
  · exact hw _ fun _ ht => .cfwWrite _ _ _ (Part.sub hm rfl) ht
  · exact .ofNone

theorem OnlyO.writeCvu (a0 : Reader) (a1 : ℕ) (a2 : ℕ) (a3 : Word) (hm : m &&& 98306 = 98306) (h : Only m x₀ s) :
    OnlyO m x₀ (State.writeCvu a0 a1 a2 a3 s) := by
  have hw : ∀ run : State → State × Nat, (∀ t, Only m x₀ t → Only m x₀ (run t).1) → OnlyO m x₀ (some (s.cvuWrite a0 a1 run)) :=
    fun _ hr => .ofSome (.cvuWrite _ _ _ (Part.sub hm rfl) hr h)
  unfold State.writeCvu
  split
  · exact hw _ fun _ ht => .cvuCtrl _ _ (Part.sub hm rfl) ht
  · exact hw _ fun _ ht => .cvuFeed _ _ _ (Part.sub hm rfl) ht
  · exact hw _ fun _ ht => .cvuFeed _ _ _ (Part.sub hm rfl) ht
  · exact hw _ fun _ ht => .cvuFeed _ _ _ (Part.sub hm rfl) ht
  · exact hw _ fun _ ht => .cvuStateLo _ _ (Part.sub hm rfl) ht
  · exact hw _ fun _ ht => .cvuStateHi _ _ (Part.sub hm rfl) ht
  · exact hw _ fun _ ht => .cvuSetCount _ _ (Part.sub hm rfl) ht
  · exact hw _ fun _ ht => .cvuAlive _ _ (Part.sub hm rfl) ht
  · exact hw _ fun _ ht => .cvuGuard _ _ (Part.sub hm rfl) ht
  · exact .ofSome (.wt _ _ _ _ (Part.sub hm rfl) (fun _ ht => .cvuCtrClear _ _ (Part.sub hm rfl) ht) h)
  · exact hw _ fun _ ht => ht

theorem Only.badOp (a0 : Reader) (a1 : ℕ) (a2 : Word) (hm : m &&& 65538 = 65538) (h : Only m x₀ s) :
    Only m x₀ (State.badOp a0 a1 a2 s) := by
  dsimp only [State.badOp]
  repeat' first
      | with_reducible assumption | exact fun _ => ⟨rfl, rfl⟩ | exact fun _ => rfl
      | exact fun _ => ⟨rfl, rfl, rfl, rfl, rfl⟩ | intro _ | with_reducible apply Only.wt

theorem OnlyO.sysCmd (a0 : Reader) (a1 : ℕ) (a2 : Word) (hm : m &&& 805371907 = 805371907) (h : Only m x₀ s) :
    OnlyO m x₀ (State.sysCmd a0 a1 a2 s) := by
  dsimp only [State.sysCmd]
  repeat' first
    | exact Part.sub hm rfl
    | with_reducible refine OnlyO.ofNone
    | with_reducible refine OnlyO.ite ?_ ?_
    | with_reducible refine OnlyO.ofSome ?_
    | with_reducible refine .badOp _ _ _ ?_ h
    | with_reducible refine .via _ (.execStageCommit _ _ _ ?_ ‹_›) ‹_›
    | with_reducible refine .via _ (.execStageDiscard _ _ _ ?_ ‹_›) ‹_›
    | with_reducible refine .via _ (.execFreeze _ _ _ ?_ ‹_›) ‹_›
    | with_reducible refine .via _ (.execFreezeRelease _ _ _ ?_ ‹_›) ‹_›
    | with_reducible refine .via _ (.execExpertUnlock _ _ _ ?_ ‹_›) ‹_›
    | with_reducible refine .via _ (.execExpertLock _ _ _ ?_ ‹_›) ‹_›
    | split

theorem Only.tsyCmd (a0 : Reader) (a1 : Word) (hm : m &&& 37951491 = 37951491) (h : Only m x₀ s) :
    Only m x₀ (State.tsyCmd a0 a1 s) := by
  dsimp only [State.tsyCmd]
  repeat' first
    | exact Part.sub hm rfl
    | with_reducible refine .badOp _ _ _ ?_ h
    | with_reducible refine .via _ (.execTsySet _ _ _ ?_ ‹_›) ‹_›
    | with_reducible refine .via _ (.execTsySlew _ _ _ ?_ ‹_›) ‹_›
    | with_reducible refine .via _ (.execTsyCancelSlew _ _ _ ?_ ‹_›) ‹_›
    | split

theorem Only.exportCmd (a0 : Reader) (a1 : Word) (hm : m &&& 196611 = 196611) (h : Only m x₀ s) :
    Only m x₀ (State.exportCmd a0 a1 s) := by
  dsimp only [State.exportCmd]
  repeat' first
    | exact Part.sub hm rfl
    | with_reducible refine .badOp _ _ _ ?_ h
    | with_reducible refine .via _ (.execExportStart _ _ _ ?_ ‹_›) ‹_›
    | with_reducible refine .via _ (.execExportAbandon _ _ _ ?_ ‹_›) ‹_›
    | split

theorem Only.otpCmd (a0 : Reader) (a1 : Word) (hm : m &&& 589827 = 589827) (h : Only m x₀ s) :
    Only m x₀ (State.otpCmd a0 a1 s) := by
  dsimp only [State.otpCmd]
  repeat' first
    | exact Part.sub hm rfl
    | with_reducible refine .badOp _ _ _ ?_ h
    | with_reducible refine .via _ (.execOtpBurnWord _ _ _ ?_ ‹_›) ‹_›
    | with_reducible refine .via _ (.execOtpFinalise _ _ _ ?_ ‹_›) ‹_›
    | with_reducible refine .via _ (.execOtpRetire _ _ _ ?_ ‹_›) ‹_›
    | with_reducible refine .via _ (.execOtpBurn4408Row _ _ _ ?_ ‹_›) ‹_›
    | with_reducible refine .via _ (.execOtpRedirect4408Row _ _ _ ?_ ‹_›) ‹_›
    | split

theorem Only.lcsCmd (a0 : Reader) (a1 : Word) (hm : m &&& 578486275 = 578486275) (h : Only m x₀ s) :
    Only m x₀ (State.lcsCmd a0 a1 s) := by
  dsimp only [State.lcsCmd]
  repeat' first
    | exact Part.sub hm rfl
    | with_reducible refine .badOp _ _ _ ?_ h
    | with_reducible refine .via _ (.execLcToManufacture _ _ _ ?_ ‹_›) ‹_›
    | with_reducible refine .via _ (.execGenerateKey _ _ _ _ _ ?_ ‹_›) ‹_›
    | with_reducible refine .via _ (.execLcToProvisioned _ _ _ ?_ ‹_›) ‹_›
    | with_reducible refine .via _ (.execLcToDeployed _ _ _ ?_ ‹_›) ‹_›
    | with_reducible refine .via _ (.execLcToReturned _ _ _ _ ?_ ‹_›) ‹_›
    | with_reducible refine .via _ (.execDebugUnlock _ _ _ ?_ ‹_›) ‹_›
    | with_reducible refine .via _ (.execOpenScan _ _ _ ?_ ‹_›) ‹_›
    | with_reducible refine .via _ (.execGenerateKey _ _ _ _ _ ?_ (.drew _ _ ?_ h)) (.drew _ _ ?_ h)
    | with_reducible refine .via _ (.execLcToReturned _ _ _ _ ?_ (.drew _ _ ?_ h)) (.drew _ _ ?_ h)
    | split

theorem Only.cfgReg (a0 : Reader) (a1 : Word) (hm : m &&& 562102275 = 562102275) (h : Only m x₀ s) :
    Only m x₀ (State.cfgReg a0 a1 s) := by
  dsimp only [State.cfgReg]
  repeat' first
    | exact Part.sub hm rfl
    | with_reducible refine .badOp _ _ _ ?_ h
    | with_reducible refine .via _ (.execCfgOpen _ _ _ ?_ ‹_›) ‹_›
    | with_reducible refine .via _ (.execCfgProgramWindow _ _ _ _ ?_ ‹_›) ‹_›
    | with_reducible refine .via _ (.execCfgSeal _ _ _ ?_ ‹_›) ‹_›
    | with_reducible refine .via _ (.execCfgLoad _ _ _ ?_ ‹_›) ‹_›
    | with_reducible refine .via _ (.execCfgAccept _ _ _ ?_ ‹_›) ‹_›
    | with_reducible refine .via _ (.execCfgCancelAccept _ _ _ ?_ ‹_›) ‹_›
    | with_reducible refine .via _ (.execCfgDiscard _ _ _ ?_ ‹_›) ‹_›
    | with_reducible refine .via _ (.execCfgWritePlug _ _ _ ?_ ‹_›) ‹_›
    | with_reducible refine .via _ (.cfgCmd _ _ _ _ _ ?_ ‹_›) ‹_›
    | with_reducible refine .via _ (.cfgCmd _ _ _ _ _ ?_ (fun _ _ ht => ht) h) h
    | split

theorem OnlyO.safetyCmd (a0 : Reader) (a1 : Ch) (a2 : ℕ) (a3 : Word) (hm : m &&& 574848799 = 574848799)
    (h : Only m x₀ s) :
    OnlyO m x₀ (State.safetyCmd a0 a1 a2 a3 s) := by
  dsimp only [State.safetyCmd]
  repeat' first
    | exact Part.sub hm rfl
    | with_reducible refine OnlyO.ofNone
    | with_reducible refine OnlyO.ite ?_ ?_
    | with_reducible refine OnlyO.ofSome ?_
    | with_reducible refine .via _ (.execTruInject _ _ _ ?_ ‹_›) ‹_›
    | with_reducible refine .via _ (.execFabCtrClear _ _ _ _ ?_ ‹_›) ‹_›
    | with_reducible refine .via _ (.execFabInject _ _ _ _ ?_ ‹_›) ‹_›
    | with_reducible refine .via _ (.execLioCtrClear _ _ _ ?_ ‹_›) ‹_›
    | with_reducible refine .via _ (.execMeaCtrClear _ _ _ ?_ ‹_›) ‹_›
    | with_reducible refine .via _ (.execAxsCtrClear _ _ _ ?_ ‹_›) ‹_›
    | with_reducible refine .via _ (.execSepCtrClear _ _ _ ?_ ‹_›) ‹_›
    | with_reducible refine .via _ (.execKinCtrClear _ _ _ ?_ ‹_›) ‹_›
    | with_reducible refine .via _ (.execNetCtrClear _ _ _ ?_ ‹_›) ‹_›
    | with_reducible refine .via _ (.execSfrCtrClear _ _ _ ?_ ‹_›) ‹_›
    | with_reducible refine .via _ (.execSfrRestart _ _ _ ?_ ‹_›) ‹_›
    | with_reducible refine .via _ (.execAgrCtrClear _ _ _ ?_ ‹_›) ‹_›
    | with_reducible refine .via _ (.execAgrInject _ _ _ ?_ ‹_›) ‹_›
    | with_reducible refine .tsyCmd _ _ ?_ h
    | with_reducible refine .exportCmd _ _ ?_ h
    | with_reducible refine .otpCmd _ _ ?_ h
    | with_reducible refine .lcsCmd _ _ ?_ h
    | with_reducible refine .cfgReg _ _ ?_ h
    | with_reducible refine .wt _ _ _ _ ?_ (fun _ ht => .hifCtrClear _ ?_ ht) h

theorem OnlyO.serviceCmd (a0 : Reader) (a1 : Ch) (a2 : ℕ) (a3 : Word) (hm : m &&& 738131971 = 738131971)
    (h : Only m x₀ s) :
    OnlyO m x₀ (State.serviceCmd a0 a1 a2 a3 s) := by
  dsimp only [State.serviceCmd]
  repeat' first
    | exact Part.sub hm rfl
    | with_reducible refine OnlyO.ofNone
    | with_reducible refine OnlyO.ite ?_ ?_
    | with_reducible refine OnlyO.ofSome ?_
    | with_reducible refine .via _ (.execFclClear _ _ _ ?_ ‹_›) ‹_›
    | with_reducible refine .via _ (.execFclCtrClear _ _ _ ?_ ‹_›) ‹_›
    | with_reducible refine .via _ (.execRecWindowLoad _ _ _ ?_ ‹_›) ‹_›
    | with_reducible refine .via _ (.execRecClear _ _ _ ?_ ‹_›) ‹_›
    | with_reducible refine .via _ (.execRecFwReq _ _ _ ?_ ‹_›) ‹_›
    | with_reducible refine .via _ (.execRecCtrClear _ _ _ ?_ ‹_›) ‹_›
    | with_reducible refine .via _ (.execBstCtrClear _ _ _ _ ?_ ‹_›) ‹_›
    | with_reducible refine .via _ (.execBstForce _ _ _ _ ?_ ‹_›) ‹_›
    | with_reducible refine .via _ (.execOtpRead _ _ _ ?_ ‹_›) ‹_›
    | with_reducible refine .via _ (.execAttestationStart _ _ _ ?_ ‹_›) ‹_›
    | with_reducible refine .via _ (.execPwrCtrClear _ _ _ ?_ ‹_›) ‹_›
    | with_reducible refine .tsyCmd _ _ ?_ h
    | with_reducible refine .exportCmd _ _ ?_ h
    | with_reducible refine .otpCmd _ _ ?_ h
    | with_reducible refine .lcsCmd _ _ ?_ h
    | with_reducible refine .cfgReg _ _ ?_ h
    | with_reducible refine .wt _ _ _ _ ?_ (fun _ ht => .hifCtrClear _ ?_ ht) h

theorem OnlyO.writeKnown (a0 : Reader) (a1 : Ch) (a2 : ℕ) (a3 : Word) (hm : m &&& 1006632735 = 1006632735)
    (h : Only m x₀ s) :
    OnlyO m x₀ (State.writeKnown a0 a1 a2 a3 s) := by
  unfold State.writeKnown
  refine .ite (.ofSome (.pageClear _ _ _ (Part.sub hm rfl) h)) (.ite .ofNone ?_)
  split
  · exact .ofSome (.plain _ _ _ (Part.sub hm rfl) (fun _ ht => .setOwn _ _ _ (Part.sub hm rfl) ht) h)
  · exact .ofSome (.plain _ _ _ (Part.sub hm rfl) (fun _ ht => .setRw _ _ (Part.sub hm rfl) ht) h)
  · exact .ite (.sysCmd _ _ _ (Part.sub hm rfl) h) (.ite (.writeCpr _ _ _ _ (Part.sub hm rfl) h)
    (.ite (.writeCvu _ _ _ _ (Part.sub hm rfl) h)
      (.orElse (.orElse (.safetyCmd _ _ _ _ (Part.sub hm rfl) h) (.serviceCmd _ _ _ _ (Part.sub hm rfl) h)) (.writeRw _ _ _ (Part.sub hm rfl) h))))

theorem Only.writeWord (a0 : Reader) (a1 : ℕ) (a2 : Word) (hm : m &&& 1006632735 = 1006632735) (h : Only m x₀ s) :
    Only m x₀ (State.writeWord a0 a1 a2 s) := by
  unfold State.writeWord
  split
  · exact h
  · refine .ite (.plain _ _ _ (Part.sub hm rfl) (fun _ ht => .stage _ _ _ (Part.sub hm rfl) ht) h) ?_
    split
    · exact OnlyO.writeKnown _ _ _ _ (Part.sub hm rfl) h _ ‹_›
    · exact .plain _ _ _ (Part.sub hm rfl) (fun _ ht => ht) h

theorem Only.busWrite (a0 : Reader) (a1 : ℕ) (a2 : ℕ) (a3 : Word) (hm : m &&& 1006632735 = 1006632735)
    (h : Only m x₀ s) :
    Only m x₀ (State.busWrite a0 a1 a2 a3 s) := by
  dsimp only [State.busWrite]
  repeat' first
      | with_reducible assumption | exact fun _ => ⟨rfl, rfl⟩ | exact fun _ => rfl
      | exact fun _ => ⟨rfl, rfl, rfl, rfl, rfl⟩ | intro _ | with_reducible apply Only.ite
      | with_reducible apply Only.fst_ite | with_reducible apply Only.snd_ite | with_reducible apply Only.writeWord
      | with_reducible apply Only.result | exact Part.sub hm rfl | rfl | exact ⟨rfl, rfl⟩
      | exact ⟨rfl, rfl, rfl, rfl, rfl⟩ | split

theorem Only.execRegisterWrite (a0 : ℕ) (a1 : Reader) (a2 : ℕ) (a3 : ℕ) (a4 : Word)
    (hm : m &&& 1006632735 = 1006632735) (h : Only m x₀ s) :
    ∀ u, (execRegisterWrite a0 a1 a2 a3 a4 s) = .next u → Only m x₀ u := by
  intro u e
  obtain rfl := Host.Outcome.next.inj e
  repeat' first
      | with_reducible assumption | exact fun _ => ⟨rfl, rfl⟩ | exact fun _ => rfl
      | exact fun _ => ⟨rfl, rfl, rfl, rfl, rfl⟩ | intro _ | with_reducible apply Only.busWrite
      | with_reducible apply Only.tick | exact Part.sub hm rfl

theorem Only.execStagedWrite (a0 : ℕ) (a1 : Reader) (a2 : ℕ) (a3 : ℕ) (a4 : Word)
    (hm : m &&& 1006632735 = 1006632735) (h : Only m x₀ s) :
    ∀ u, (execStagedWrite a0 a1 a2 a3 a4 s) = .next u → Only m x₀ u := by
  intro u e
  obtain rfl := Host.Outcome.next.inj e
  repeat' first
      | with_reducible assumption | exact fun _ => ⟨rfl, rfl⟩ | exact fun _ => rfl
      | exact fun _ => ⟨rfl, rfl, rfl, rfl, rfl⟩ | intro _ | with_reducible apply Only.busWrite
      | with_reducible apply Only.tick | exact Part.sub hm rfl

end Sys2Proof.Machine
end

