-- ==== Sys2Proof/Laws/OnlyCheckpoints.lean ====
section
/-! SUPPORT. What Checkpoints.lean keeps (Laws/Only.lean). -/

namespace Sys2Proof.Machine

variable {m : Nat} {x₀ s : State}

theorem Only.served (a0 : Fin 4) (a1 : ℕ) (a2 : Entry) (hm : m &&& 163844 = 163844) (h : Only m x₀ s) :
    Only m x₀ (State.served a0 a1 a2 s).2 := by
  dsimp only [State.served]
  repeat' first
      | with_reducible assumption | exact fun _ => ⟨rfl, rfl⟩ | exact fun _ => rfl
      | exact fun _ => ⟨rfl, rfl, rfl, rfl, rfl⟩ | intro _ | with_reducible apply Only.load | exact Part.sub hm rfl
      | rfl | exact ⟨rfl, rfl⟩ | exact ⟨rfl, rfl, rfl, rfl, rfl⟩ | split

theorem Only.cacheErrors (a0 : ℕ) (a1 : Ch) (a2 : ℕ) (hm : m &&& 81920 = 81920) (h : Only m x₀ s) :
    Only m x₀ (State.cacheErrors a0 a1 a2 s) := by
  dsimp only [State.cacheErrors]
  repeat' first
      | with_reducible assumption | exact fun _ => ⟨rfl, rfl⟩ | exact fun _ => rfl
      | exact fun _ => ⟨rfl, rfl, rfl, rfl, rfl⟩ | intro _ | with_reducible apply Only.ite
      | with_reducible apply Only.fst_ite | with_reducible apply Only.snd_ite | with_reducible apply Only.raise
      | with_reducible apply Only.onPair | exact Part.sub hm rfl

theorem Only.answered (a0 : Fin 4) (a1 : Ch) (a2 : Entry) (hm : m &&& 163844 = 163844) (h : Only m x₀ s) :
    Only m x₀ (State.answered a0 a1 a2 s).2 := by
  dsimp only [State.answered]
  repeat' first
      | with_reducible assumption | exact fun _ => ⟨rfl, rfl⟩ | exact fun _ => rfl
      | exact fun _ => ⟨rfl, rfl, rfl, rfl, rfl⟩ | intro _ | with_reducible apply Only.served | exact Part.sub hm rfl
      | rfl | exact ⟨rfl, rfl⟩ | exact ⟨rfl, rfl, rfl, rfl, rfl⟩ | split

theorem Only.enqueue (a0 : Fin 4) (a1 : Ch) (a2 : Entry) (hm : m &&& 245764 = 245764) (h : Only m x₀ s) :
    Only m x₀ (State.enqueue a0 a1 a2 s) := by
  dsimp only [State.enqueue]
  repeat' first
      | with_reducible assumption | exact fun _ => ⟨rfl, rfl⟩ | exact fun _ => rfl
      | exact fun _ => ⟨rfl, rfl, rfl, rfl, rfl⟩ | intro _ | with_reducible apply Only.ite
      | with_reducible apply Only.fst_ite | with_reducible apply Only.snd_ite | with_reducible apply Only.answered
      | with_reducible apply Only.onAgr | with_reducible apply Only.onPair | with_reducible apply Only.cacheErrors
      | exact Part.sub hm rfl

theorem Only.alone (a0 : Fin 4) (a1 : Ch) (a2 : Entry) (hm : m &&& 245764 = 245764) (h : Only m x₀ s) :
    Only m x₀ (State.alone a0 a1 a2 s) := by
  dsimp only [State.alone]
  repeat' first
      | with_reducible assumption | exact fun _ => ⟨rfl, rfl⟩ | exact fun _ => rfl
      | exact fun _ => ⟨rfl, rfl, rfl, rfl, rfl⟩ | intro _ | with_reducible apply Only.served
      | with_reducible apply Only.cacheErrors | with_reducible apply Only.onPair | exact Part.sub hm rfl

theorem Only.checkpointPush (a0 : Fin 4) (a1 : Ch) (a2 : Entry) (hm : m &&& 245764 = 245764) (h : Only m x₀ s) :
    Only m x₀ (State.checkpointPush a0 a1 a2 s) := by
  dsimp only [State.checkpointPush]
  repeat' first
      | with_reducible assumption | exact fun _ => ⟨rfl, rfl⟩ | exact fun _ => rfl
      | exact fun _ => ⟨rfl, rfl, rfl, rfl, rfl⟩ | intro _ | with_reducible apply Only.ite
      | with_reducible apply Only.fst_ite | with_reducible apply Only.snd_ite | with_reducible apply Only.enqueue
      | with_reducible apply Only.alone

theorem Only.execCheckpointPush (a0 : ℕ) (a1 : Fin 4) (a2 : Ch) (a3 : Entry) (hm : m &&& 245765 = 245765)
    (h : Only m x₀ s) :
    ∀ u, (execCheckpointPush a0 a1 a2 a3 s) = .next u → Only m x₀ u := by
  intro u e
  obtain rfl := Host.Outcome.next.inj e
  repeat' first
      | with_reducible assumption | exact fun _ => ⟨rfl, rfl⟩ | exact fun _ => rfl
      | exact fun _ => ⟨rfl, rfl, rfl, rfl, rfl⟩ | intro _ | with_reducible apply Only.checkpointPush
      | with_reducible apply Only.tick | exact Part.sub hm rfl

theorem Only.releaseEntry (a0 : Fin 4) (a1 : Entry) (hm : m &&& 1006632735 = 1006632735) (h : Only m x₀ s) :
    Only m x₀ (State.releaseEntry a0 a1 s) := by
  dsimp only [State.releaseEntry]
  repeat' first
      | with_reducible assumption | exact fun _ => ⟨rfl, rfl⟩ | exact fun _ => rfl
      | exact fun _ => ⟨rfl, rfl, rfl, rfl, rfl⟩ | intro _ | with_reducible apply Only.ite
      | with_reducible apply Only.fst_ite | with_reducible apply Only.snd_ite | with_reducible apply Only.busWrite

theorem Only.compareHeads (a0 : Fin 4) (a1 : Entry) (a2 : Entry) (hm : m &&& 1006632735 = 1006632735)
    (h : Only m x₀ s) :
    Only m x₀ (State.compareHeads a0 a1 a2 s) := by
  dsimp only [State.compareHeads]
  repeat' first
      | with_reducible assumption | exact fun _ => ⟨rfl, rfl⟩ | exact fun _ => rfl
      | exact fun _ => ⟨rfl, rfl, rfl, rfl, rfl⟩ | intro _ | with_reducible apply Only.ite
      | with_reducible apply Only.fst_ite | with_reducible apply Only.snd_ite | with_reducible apply Only.blockAll
      | with_reducible apply Only.raise | with_reducible apply Only.onAgr | with_reducible apply Only.releaseEntry
      | with_reducible apply Only.onPair | with_reducible apply Only.failPair | exact Part.sub hm rfl

theorem Only.noteCorrected (a0 : ℕ) (a1 : Entry) (a2 : Entry) (hm : m &&& 65536 = 65536) (h : Only m x₀ s) :
    Only m x₀ (State.noteCorrected a0 a1 a2 s) := by
  dsimp only [State.noteCorrected]
  repeat' first
      | with_reducible assumption | exact fun _ => ⟨rfl, rfl⟩ | exact fun _ => rfl
      | exact fun _ => ⟨rfl, rfl, rfl, rfl, rfl⟩ | intro _ | with_reducible apply Only.ite
      | with_reducible apply Only.fst_ite | with_reducible apply Only.snd_ite | with_reducible apply Only.raise

theorem Only.checkpointMatch (a0 : Fin 4) (hm : m &&& 1006632735 = 1006632735) (h : Only m x₀ s) :
    Only m x₀ (State.checkpointMatch a0 s) := by
  dsimp only [State.checkpointMatch]
  repeat' first
      | with_reducible assumption | exact fun _ => ⟨rfl, rfl⟩ | exact fun _ => rfl
      | exact fun _ => ⟨rfl, rfl, rfl, rfl, rfl⟩ | intro _ | with_reducible apply Only.ite
      | with_reducible apply Only.fst_ite | with_reducible apply Only.snd_ite | with_reducible apply Only.failPair
      | with_reducible apply Only.noteCorrected | with_reducible apply Only.compareHeads | exact Part.sub hm rfl | rfl
      | exact ⟨rfl, rfl⟩ | exact ⟨rfl, rfl, rfl, rfl, rfl⟩ | split

theorem Only.execCheckpointMatch (a0 : ℕ) (a1 : Fin 4) (hm : m &&& 1006632735 = 1006632735) (h : Only m x₀ s) :
    ∀ u, (execCheckpointMatch a0 a1 s) = .next u → Only m x₀ u := by
  intro u e
  obtain rfl := Host.Outcome.next.inj e
  repeat' first
      | with_reducible assumption | exact fun _ => ⟨rfl, rfl⟩ | exact fun _ => rfl
      | exact fun _ => ⟨rfl, rfl, rfl, rfl, rfl⟩ | intro _ | with_reducible apply Only.checkpointMatch
      | with_reducible apply Only.tick | exact Part.sub hm rfl

end Sys2Proof.Machine
end

