-- ==== Sys2Proof/Laws/OnlyDetectors.lean ====
section
/-! SUPPORT. What Detectors.lean keeps (Laws/Only.lean). -/

namespace Sys2Proof.Machine

variable {m : Nat} {x₀ s : State}

theorem Only.finding (a0 : Finding) (hm : m &&& 83968 = 83968) (h : Only m x₀ s) :
    Only m x₀ (State.finding a0 s) := by
  dsimp only [State.finding]
  repeat' first
      | with_reducible assumption | exact fun _ => ⟨rfl, rfl⟩ | exact fun _ => rfl
      | exact fun _ => ⟨rfl, rfl, rfl, rfl, rfl⟩ | intro _ | with_reducible apply Only.ite
      | with_reducible apply Only.fst_ite | with_reducible apply Only.snd_ite | with_reducible apply Only.raise
      | with_reducible apply Only.loseQueued | with_reducible apply Only.blockAll | with_reducible apply Only.failPair
      | with_reducible apply Only.memDiffers | with_reducible apply Only.memUncorrectable | exact Part.sub hm rfl
      | rfl | exact ⟨rfl, rfl⟩ | exact ⟨rfl, rfl, rfl, rfl, rfl⟩ | split

theorem Only.sampled (a0 : Pins) (hm : m &&& 306670330 = 306670330) (h : Only m x₀ s) :
    Only m x₀ (State.sampled a0 s) := by
  dsimp only [State.sampled]
  repeat' first
      | with_reducible assumption | exact fun _ => ⟨rfl, rfl⟩ | exact fun _ => rfl
      | exact fun _ => ⟨rfl, rfl, rfl, rfl, rfl⟩ | intro _ | with_reducible apply Only.forL
      | with_reducible apply Only.forL_fst | with_reducible apply Only.sampling | with_reducible apply Only.finding
      | exact Part.sub hm rfl

theorem Only.execSamplingInstant (a0 : ℕ) (a1 : Pins) (hm : m &&& 306670331 = 306670331) (h : Only m x₀ s) :
    ∀ u, (execSamplingInstant a0 a1 s) = .next u → Only m x₀ u := by
  intro u e
  obtain rfl := Host.Outcome.next.inj e
  repeat' first
      | with_reducible assumption | exact fun _ => ⟨rfl, rfl⟩ | exact fun _ => rfl
      | exact fun _ => ⟨rfl, rfl, rfl, rfl, rfl⟩ | intro _ | with_reducible apply Only.sampled
      | with_reducible apply Only.tick | exact Part.sub hm rfl

end Sys2Proof.Machine
end

