-- ==== Sys2Proof/Laws/OnlyHostPort.lean ====
section
/-! SUPPORT. What HostPort.lean keeps (Laws/Only.lean). -/

namespace Sys2Proof.Machine

variable {m : Nat} {x₀ s : State}

theorem Only.readRun (a0 : Reader) (a1 : ℕ) (a2 : ℕ) (hm : m &&& 163844 = 163844) (h : Only m x₀ s) :
    Only m x₀ (State.readRun a0 a1 a2 s).2.2 := by
  induction a2 generalizing s a1 with
  | zero => exact h
  | succ n ih =>
    refine ih _ ?_
    split
    · exact .load _ _ (Part.sub hm rfl) h
    · exact h

theorem Only.writeWords (a0 : Reader) (a1 : ℕ) (a2 : List Word) (hm : m &&& 1006632735 = 1006632735)
    (h : Only m x₀ s) :
    Only m x₀ (State.writeWords a0 a1 a2 s).2 := by
  induction a2 generalizing s a1 with
  | nil => exact h
  | cons w l ih => exact ih _ (.busWrite _ _ _ _ (Part.sub hm rfl) h)

theorem Only.hifSend (a0 : List Byte) (hm : m &&& 16777216 = 16777216) (h : Only m x₀ s) :
    Only m x₀ (State.hifSend a0 s) := by
  dsimp only [State.hifSend]
  repeat' first
      | with_reducible assumption | exact fun _ => ⟨rfl, rfl⟩ | exact fun _ => rfl
      | exact fun _ => ⟨rfl, rfl, rfl, rfl, rfl⟩ | intro _ | with_reducible apply Only.onHif

theorem Only.hifRun (a0 : List Byte) (hm : m &&& 1006632735 = 1006632735) (h : Only m x₀ s) :
    Only m x₀ (State.hifRun a0 s).2 := by
  dsimp only [State.hifRun]
  repeat' first
      | with_reducible assumption | exact fun _ => ⟨rfl, rfl⟩ | exact fun _ => rfl
      | exact fun _ => ⟨rfl, rfl, rfl, rfl, rfl⟩ | intro _ | with_reducible apply Only.ite
      | with_reducible apply Only.fst_ite | with_reducible apply Only.snd_ite | with_reducible apply Only.writeWords
      | with_reducible apply Only.readRun | exact Part.sub hm rfl

theorem Only.hifExecute (a0 : List Byte) (hm : m &&& 1006632735 = 1006632735) (h : Only m x₀ s) :
    Only m x₀ (State.hifExecute a0 s) := by
  dsimp only [State.hifExecute]
  repeat' first
      | with_reducible assumption | exact fun _ => ⟨rfl, rfl⟩ | exact fun _ => rfl
      | exact fun _ => ⟨rfl, rfl, rfl, rfl, rfl⟩ | intro _ | with_reducible apply Only.hifRun
      | with_reducible apply Only.onHif | with_reducible apply Only.hifSend | exact Part.sub hm rfl

theorem Only.hifRequest (a0 : List Byte) (hm : m &&& 1006632735 = 1006632735) (h : Only m x₀ s) :
    Only m x₀ (State.hifRequest a0 s) := by
  dsimp only [State.hifRequest]
  repeat' first
      | with_reducible assumption | exact fun _ => ⟨rfl, rfl⟩ | exact fun _ => rfl
      | exact fun _ => ⟨rfl, rfl, rfl, rfl, rfl⟩ | intro _ | with_reducible apply Only.ite
      | with_reducible apply Only.fst_ite | with_reducible apply Only.snd_ite | with_reducible apply Only.hifSend
      | with_reducible apply Only.raise | with_reducible apply Only.onHif | with_reducible apply Only.hifExecute
      | exact Part.sub hm rfl | rfl | exact ⟨rfl, rfl⟩ | exact ⟨rfl, rfl, rfl, rfl, rfl⟩ | split

theorem Only.hifCut (hm : m &&& 65536 = 65536) (h : Only m x₀ s) :
    Only m x₀ (State.hifCut s) := by
  dsimp only [State.hifCut]
  repeat' first
      | with_reducible assumption | exact fun _ => ⟨rfl, rfl⟩ | exact fun _ => rfl
      | exact fun _ => ⟨rfl, rfl, rfl, rfl, rfl⟩ | intro _ | with_reducible apply Only.raise

theorem Only.hifFrame (a0 : List Byte) (hm : m &&& 1006632735 = 1006632735) (h : Only m x₀ s) :
    Only m x₀ (State.hifFrame a0 s) := by
  dsimp only [State.hifFrame]
  repeat' first
      | with_reducible assumption | exact fun _ => ⟨rfl, rfl⟩ | exact fun _ => rfl
      | exact fun _ => ⟨rfl, rfl, rfl, rfl, rfl⟩ | intro _ | with_reducible apply Only.ite
      | with_reducible apply Only.fst_ite | with_reducible apply Only.snd_ite | with_reducible apply Only.hifCut
      | with_reducible apply Only.hifRequest | exact Part.sub hm rfl

theorem Only.execHifRead (a0 : ℕ) (a1 : List Byte) (hm : m &&& 1006632735 = 1006632735) (h : Only m x₀ s) :
    ∀ u, (execHifRead a0 a1 s) = .next u → Only m x₀ u := by
  intro u e
  obtain rfl := Host.Outcome.next.inj e
  repeat' first
      | with_reducible assumption | exact fun _ => ⟨rfl, rfl⟩ | exact fun _ => rfl
      | exact fun _ => ⟨rfl, rfl, rfl, rfl, rfl⟩ | intro _ | with_reducible apply Only.hifFrame
      | with_reducible apply Only.tick | exact Part.sub hm rfl

theorem Only.execHifWrite (a0 : ℕ) (a1 : List Byte) (hm : m &&& 1006632735 = 1006632735) (h : Only m x₀ s) :
    ∀ u, (execHifWrite a0 a1 s) = .next u → Only m x₀ u := by
  intro u e
  obtain rfl := Host.Outcome.next.inj e
  repeat' first
      | with_reducible assumption | exact fun _ => ⟨rfl, rfl⟩ | exact fun _ => rfl
      | exact fun _ => ⟨rfl, rfl, rfl, rfl, rfl⟩ | intro _ | with_reducible apply Only.hifFrame
      | with_reducible apply Only.tick | exact Part.sub hm rfl

theorem Only.hifAbort (hm : m &&& 65536 = 65536) (h : Only m x₀ s) :
    Only m x₀ (State.hifAbort s) := by
  dsimp only [State.hifAbort]
  repeat' first
      | with_reducible assumption | exact fun _ => ⟨rfl, rfl⟩ | exact fun _ => rfl
      | exact fun _ => ⟨rfl, rfl, rfl, rfl, rfl⟩ | intro _ | with_reducible apply Only.ite
      | with_reducible apply Only.fst_ite | with_reducible apply Only.snd_ite | with_reducible apply Only.hifCut

theorem Only.execHifFrameAbort (a0 : ℕ) (hm : m &&& 65537 = 65537) (h : Only m x₀ s) :
    ∀ u, (execHifFrameAbort a0 s) = .next u → Only m x₀ u := by
  intro u e
  obtain rfl := Host.Outcome.next.inj e
  repeat' first
      | with_reducible assumption | exact fun _ => ⟨rfl, rfl⟩ | exact fun _ => rfl
      | exact fun _ => ⟨rfl, rfl, rfl, rfl, rfl⟩ | intro _ | with_reducible apply Only.hifAbort
      | with_reducible apply Only.tick | exact Part.sub hm rfl

theorem Only.execHifCtrClear (a0 : ℕ) (a1 : Reader) (a2 : Word) (hm : m &&& 16842755 = 16842755) (h : Only m x₀ s) :
    ∀ u, (execHifCtrClear a0 a1 a2 s) = .next u → Only m x₀ u := by
  intro u e
  obtain rfl := Host.Outcome.next.inj e
  repeat' first
      | with_reducible assumption | exact fun _ => ⟨rfl, rfl⟩ | exact fun _ => rfl
      | exact fun _ => ⟨rfl, rfl, rfl, rfl, rfl⟩ | intro _ | with_reducible apply Only.wt
      | with_reducible apply Only.hifCtrClear | with_reducible apply Only.tick | exact Part.sub hm rfl

theorem Only.forgetReader (a0 : ℕ) (hm : m &&& 950697990 = 950697990) (h : Only m x₀ s) :
    Only m x₀ (State.forgetReader a0 s) := by
  dsimp only [State.forgetReader]
  repeat' first
      | with_reducible assumption | exact fun _ => ⟨rfl, rfl⟩ | exact fun _ => rfl
      | exact fun _ => ⟨rfl, rfl, rfl, rfl, rfl⟩ | intro _ | with_reducible apply Only.on
      | with_reducible apply Only.onSys_keep | with_reducible apply Only.newNonce | with_reducible apply Only.framed
      | exact Part.sub hm rfl
      | (constructor <;> first | exact .inr rfl | exact .inr ⟨rfl, rfl⟩ | exact .inr ⟨rfl, rfl, rfl, rfl, rfl⟩ | exact .inl (Part.bit (Part.sub hm rfl)))

theorem Only.handshake (a0 : Fin 4) (a1 : ℕ) (a2 : Bool) (hm : m &&& 984252422 = 984252422) (h : Only m x₀ s) :
    Only m x₀ (State.handshake a0 a1 a2 s) := by
  dsimp only [State.handshake]
  repeat' first
      | with_reducible assumption | exact fun _ => ⟨rfl, rfl⟩ | exact fun _ => rfl
      | exact fun _ => ⟨rfl, rfl, rfl, rfl, rfl⟩ | intro _ | with_reducible apply Only.ite
      | with_reducible apply Only.fst_ite | with_reducible apply Only.snd_ite | with_reducible apply Only.onMgmt
      | with_reducible apply Only.forgetReader | exact Part.sub hm rfl

theorem Only.execDtlsHandshake (a0 : ℕ) (a1 : Fin 4) (a2 : Fin 4) (a3 : Bool) (hm : m &&& 984252423 = 984252423)
    (h : Only m x₀ s) :
    ∀ u, (execDtlsHandshake a0 a1 a2 a3 s) = .next u → Only m x₀ u := by
  intro u e
  obtain rfl := Host.Outcome.next.inj e
  repeat' first
      | with_reducible assumption | exact fun _ => ⟨rfl, rfl⟩ | exact fun _ => rfl
      | exact fun _ => ⟨rfl, rfl, rfl, rfl, rfl⟩ | intro _ | with_reducible apply Only.handshake
      | with_reducible apply Only.tick | exact Part.sub hm rfl

theorem Only.mgmtSend (a0 : ℕ) (a1 : List (List Byte)) (hm : m &&& 33554432 = 33554432) (h : Only m x₀ s) :
    Only m x₀ (State.mgmtSend a0 a1 s) := by
  dsimp only [State.mgmtSend]
  repeat' first
      | with_reducible assumption | exact fun _ => ⟨rfl, rfl⟩ | exact fun _ => rfl
      | exact fun _ => ⟨rfl, rfl, rfl, rfl, rfl⟩ | intro _ | with_reducible apply Only.onMgmt

theorem Only.mgmtRequest (a0 : Fin 4) (a1 : ℕ) (a2 : List Byte) (a3 : List Byte → Bool) (a4 : MgmtAction)
    (hm : m &&& 33619968 = 33619968) (h_a4 : ∀ y t, Only m x₀ t → Only m x₀ (a4 y t).2.2) (h : Only m x₀ s) :
    Only m x₀ (State.mgmtRequest a0 a1 a2 a3 a4 s) := by
  dsimp only [State.mgmtRequest]
  repeat' first
      | with_reducible assumption | exact fun _ => ⟨rfl, rfl⟩ | exact fun _ => rfl
      | exact fun _ => ⟨rfl, rfl, rfl, rfl, rfl⟩ | intro _ | with_reducible apply Only.ite
      | with_reducible apply Only.fst_ite | with_reducible apply Only.snd_ite | with_reducible apply Only.mgmtSend
      | with_reducible apply Only.raise | with_reducible apply Only.onMgmt | with_reducible apply h_a4
      | exact Part.sub hm rfl | rfl | exact ⟨rfl, rfl⟩ | exact ⟨rfl, rfl, rfl, rfl, rfl⟩ | split

theorem Only.execMgmtRead (a0 : ℕ) (a1 : Fin 4) (a2 : List Byte) (hm : m &&& 33783813 = 33783813) (h : Only m x₀ s) :
    ∀ u, (execMgmtRead a0 a1 a2 s) = .next u → Only m x₀ u := by
  intro u e
  obtain rfl := Host.Outcome.next.inj e
  exact .mgmtRequest _ _ _ _ _ (Part.sub hm rfl) (fun _ _ ht => .readRun _ _ _ (Part.sub hm rfl) ht) (.tick _ (Part.sub hm rfl) h)

theorem Only.execMgmtWrite (a0 : ℕ) (a1 : Fin 4) (a2 : List Byte) (hm : m &&& 1006632735 = 1006632735)
    (h : Only m x₀ s) :
    ∀ u, (execMgmtWrite a0 a1 a2 s) = .next u → Only m x₀ u := by
  intro u e
  obtain rfl := Host.Outcome.next.inj e
  exact .mgmtRequest _ _ _ _ _ (Part.sub hm rfl) (fun _ _ ht => .writeWords _ _ _ (Part.sub hm rfl) ht) (.tick _ (Part.sub hm rfl) h)

theorem Only.uploadWindows (a0 : Reader) (a1 : ℕ) (a2 : Spells) (a3 : ℕ) (a4 : List (List Byte))
    (hm : m &&& 8388608 = 8388608) (h : Only m x₀ s) :
    Only m x₀ (State.uploadWindows a0 a1 a2 a3 a4 s).2 := by
  induction a4 generalizing s a3 with
  | nil => exact h
  | cons x l ih =>
    unfold State.uploadWindows
    extract_lets found r
    have hr : Only m x₀ r.1 := .cfgOp _ _ _ _ (Part.sub hm rfl) (fun _ _ ht => .program _ _ _ _ (Part.sub hm rfl) ht) h
    split
    · exact ih _ hr
    · exact hr

theorem Only.execMgmtUpload (a0 : ℕ) (a1 : Fin 4) (a2 : List Byte) (a3 : Spells) (hm : m &&& 42008579 = 42008579)
    (h : Only m x₀ s) :
    ∀ u, (execMgmtUpload a0 a1 a2 a3 s) = .next u → Only m x₀ u := by
  intro u e
  obtain rfl := Host.Outcome.next.inj e
  exact .mgmtRequest _ _ _ _ _ (Part.sub hm rfl) (fun _ _ ht => .result _ _ _ (Part.sub hm rfl) (.uploadWindows _ _ _ _ _ (Part.sub hm rfl) ht)) (.tick _ (Part.sub hm rfl) h)

theorem Only.execMgmtRecords (a0 : ℕ) (a1 : Fin 4) (a2 : List Byte) (hm : m &&& 33619969 = 33619969)
    (h : Only m x₀ s) :
    ∀ u, (execMgmtRecords a0 a1 a2 s) = .next u → Only m x₀ u := by
  intro u e
  obtain rfl := Host.Outcome.next.inj e
  exact .mgmtRequest _ _ _ _ _ (Part.sub hm rfl) (fun _ _ ht => ht) (.tick _ (Part.sub hm rfl) h)

theorem Only.execMgmtExport (a0 : ℕ) (a1 : Fin 4) (a2 : List Byte) (hm : m &&& 33751041 = 33751041)
    (h : Only m x₀ s) :
    ∀ u, (execMgmtExport a0 a1 a2 s) = .next u → Only m x₀ u := by
  intro u e
  obtain rfl := Host.Outcome.next.inj e
  refine .mgmtRequest _ _ _ _ _ (Part.sub hm rfl) (fun y t ht => ?_) (.tick _ (Part.sub hm rfl) h)
  unfold mgmtExportRun
  extract_lets s1 r s2 x
  have hr : Only m x₀ r.1 := .exportBegin _ (Part.sub hm rfl) (.onExport _ _ (Part.sub hm rfl) ht)
  have h2 : Only m x₀ s2 := .ite (.exportFinish _ (Part.sub hm rfl) hr) hr
  split <;> exact h2

theorem Only.execMgmtNotices (a0 : ℕ) (a1 : Fin 4) (a2 : List Byte) (hm : m &&& 33619969 = 33619969)
    (h : Only m x₀ s) :
    ∀ u, (execMgmtNotices a0 a1 a2 s) = .next u → Only m x₀ u := by
  intro u e
  obtain rfl := Host.Outcome.next.inj e
  refine .mgmtRequest _ _ _ _ _ (Part.sub hm rfl) (fun y t ht => ?_) (.tick _ (Part.sub hm rfl) h)
  unfold mgmtNoticesRun
  split
  · exact .onMgmt _ _ (Part.sub hm rfl) ht
  · exact ht

end Sys2Proof.Machine
end

