-- ==== Sys2Proof/Laws/Onward.lean ====
section
/-! SUPPORT. What no command takes back: the queue stays, time and the count of draws never fall, a burned counter step stays
burned, memories in canonical form stay so. One lemma per operation says that it keeps all five. -/

namespace Sys2Proof.Machine

/-- `s` comes after `r` with nothing of the five taken back. -/
structure Onward (r s : State) : Prop where
  queue : s.pending = r.pending
  time : r.b.now ≤ s.b.now
  drawn : r.draws ≤ s.draws
  burned : ∀ c i, i ∈ nget r.b.otp.counters c [] → i ∈ nget s.b.otp.counters c []
  mem : r.b.memWf = true → s.b.memWf = true

theorem Onward.refl (s : State) : Onward s s := ⟨rfl, Nat.le_refl _, Nat.le_refl _, fun _ _ h => h, fun h => h⟩

/-- The part of `Onward` that the blocks show. -/
structure BlocksOnward (x y : Blocks) : Prop where
  time : x.now ≤ y.now
  burned : ∀ c i, i ∈ nget x.otp.counters c [] → i ∈ nget y.otp.counters c []
  mem : x.memWf = true → y.memWf = true

/-- Blocks whose clock, counters, pairs and NAND are as before. -/
theorem BlocksOnward.of_eq {x y : Blocks} (h1 : y.now = x.now) (h2 : y.otp.counters = x.otp.counters)
    (h3 : y.agr.pairs = x.agr.pairs) (h4 : y.recd.nand = x.recd.nand) : BlocksOnward x y :=
  ⟨Nat.le_of_eq h1.symm, fun _ _ h => by rw [h2]; exact h, fun h => by unfold Blocks.memWf at h ⊢; rw [h3, h4]; exact h⟩

variable {r s : State}

theorem Onward.blocks (h : Onward r s) {t : State} (hq : t.pending = s.pending) (hd : s.draws ≤ t.draws)
    (hb : BlocksOnward s.b t.b) : Onward r t :=
  ⟨hq.trans h.queue, Nat.le_trans h.time hb.time, Nat.le_trans h.drawn hd, fun c i hi => hb.burned c i (h.burned c i hi),
    fun hm => hb.mem (h.mem hm)⟩

theorem Onward.trans {t : State} (h : Onward r s) (g : Onward s t) : Onward r t :=
  h.blocks g.queue g.drawn ⟨g.time, g.burned, g.mem⟩

theorem Onward.on (f : Blocks → Blocks) (h : Onward r s) (hf : BlocksOnward s.b (f s.b)) : Onward r (s.on f) :=
  h.blocks rfl (Nat.le_refl _) hf

theorem Onward.ite {c : Prop} [Decidable c] {a b : State} (ha : Onward r a) (hb : Onward r b) :
    Onward r (if c then a else b) := by split <;> assumption

theorem Onward.fst_ite {α : Type} {c : Prop} [Decidable c] {a b : State × α} (ha : Onward r a.1) (hb : Onward r b.1) :
    Onward r (if c then a else b).1 := by split <;> assumption

theorem Onward.snd_ite {α : Type} {c : Prop} [Decidable c] {a b : α × State} (ha : Onward r a.2) (hb : Onward r b.2) :
    Onward r (if c then a else b).2 := by split <;> assumption

theorem Onward.forL {α : Type} {f : α → State → State} (l : List α) (hf : ∀ x t, Onward r t → Onward r (f x t))
    (h : Onward r s) : Onward r (Machine.forL l f s) := by
  induction l generalizing s with
  | nil => exact h
  | cons x l ih => exact ih (hf x s h)

theorem Onward.forL_mem {α : Type} {f : α → State → State} (l : List α)
    (hf : ∀ x ∈ l, ∀ t, Onward r t → Onward r (f x t)) (h : Onward r s) : Onward r (Machine.forL l f s) := by
  induction l generalizing s with
  | nil => exact h
  | cons x l ih => exact ih (fun y hy => hf y (List.mem_cons_of_mem _ hy)) (hf x List.mem_cons_self s h)

theorem Onward.forN {f : Nat → State → State} (n : Nat) (hf : ∀ i t, Onward r t → Onward r (f i t)) (h : Onward r s) :
    Onward r (Machine.forN n f s) := by
  induction n with
  | zero => exact h
  | succ n ih => exact hf n _ ih

theorem Onward.forL_fst {α β : Type} {f : α → State × β → State × β} (l : List α) {x : State × β}
    (hf : ∀ a t, Onward r t.1 → Onward r (f a t).1) (h : Onward r x.1) : Onward r (Machine.forL l f x).1 := by
  induction l generalizing x with
  | nil => exact h
  | cons a l ih => exact ih (hf a x h)

/-- What is read, shown and held of the sentences plays no part. -/
theorem Onward.framed (s : State) (c : Option Blocks) (p : Option Snapshot) (l : NMap (Option Snapshot))
    (h : Onward r s) :
    Onward r ⟨s.b, c, p, l, s.draws, s.pending⟩ := h.blocks rfl (Nat.le_refl _) ⟨Nat.le_refl _, fun _ _ h => h, fun h => h⟩

/-- What a writer answers, if it answers. -/
def OnwardO (r : State) (o : Option State) : Prop := ∀ u, o = some u → Onward r u

theorem OnwardO.ofNone : OnwardO r none := fun _ e => nomatch e
theorem OnwardO.ofSome (h : Onward r s) : OnwardO r (some s) := fun _ e => Option.some.inj e ▸ h
theorem OnwardO.ite {c : Prop} [Decidable c] {a b : Option State} (ha : OnwardO r a) (hb : OnwardO r b) :
    OnwardO r (if c then a else b) := by split <;> assumption
theorem OnwardO.bind {α : Type} (x : Option α) (f : α → Option State) (hf : ∀ j, OnwardO r (f j)) :
    OnwardO r (x.bind f) := by
  cases x with
  | none => exact .ofNone
  | some j => exact hf j
theorem OnwardO.orElse {a b : Option State} (ha : OnwardO r a) (hb : OnwardO r b) :
    OnwardO r (a.orElse fun _ => b) := by
  cases a with
  | none => exact hb
  | some u => exact ha

/-- A command run as a change of state. -/
theorem Onward.via (f : State → Host.Outcome State Fault Refusal) (hf : ∀ u, f s = .next u → Onward r u)
    (h : Onward r s) :
    Onward r (s.via f) := by
  unfold State.via
  split
  · exact hf _ ‹_›
  · exact h

/-! ### The updaters -/

theorem Onward.onSys (f : Sys → Sys) (h : Onward r s) : Onward r (s.onSys f) :=
  h.blocks rfl (Nat.le_refl _) (.of_eq rfl rfl rfl rfl)
theorem Onward.onTru (f : Tru → Tru) (h : Onward r s) : Onward r (s.onTru f) :=
  h.blocks rfl (Nat.le_refl _) (.of_eq rfl rfl rfl rfl)
theorem Onward.onFab (f : Fab → Fab) (h : Onward r s) : Onward r (s.onFab f) :=
  h.blocks rfl (Nat.le_refl _) (.of_eq rfl rfl rfl rfl)
theorem Onward.onLio (f : Lio → Lio) (h : Onward r s) : Onward r (s.onLio f) :=
  h.blocks rfl (Nat.le_refl _) (.of_eq rfl rfl rfl rfl)
theorem Onward.onTpg (f : Tpg → Tpg) (h : Onward r s) : Onward r (s.onTpg f) :=
  h.blocks rfl (Nat.le_refl _) (.of_eq rfl rfl rfl rfl)
theorem Onward.onSog (f : OutBlock → OutBlock) (h : Onward r s) : Onward r (s.onSog f) :=
  h.blocks rfl (Nat.le_refl _) (.of_eq rfl rfl rfl rfl)
theorem Onward.onSto (f : OutBlock → OutBlock) (h : Onward r s) : Onward r (s.onSto f) :=
  h.blocks rfl (Nat.le_refl _) (.of_eq rfl rfl rfl rfl)
theorem Onward.onMea (f : Mea → Mea) (h : Onward r s) : Onward r (s.onMea f) :=
  h.blocks rfl (Nat.le_refl _) (.of_eq rfl rfl rfl rfl)
theorem Onward.onAxs (f : Axs → Axs) (h : Onward r s) : Onward r (s.onAxs f) :=
  h.blocks rfl (Nat.le_refl _) (.of_eq rfl rfl rfl rfl)
theorem Onward.onSep (f : Sep → Sep) (h : Onward r s) : Onward r (s.onSep f) :=
  h.blocks rfl (Nat.le_refl _) (.of_eq rfl rfl rfl rfl)
theorem Onward.onNet (f : Net → Net) (h : Onward r s) : Onward r (s.onNet f) :=
  h.blocks rfl (Nat.le_refl _) (.of_eq rfl rfl rfl rfl)
theorem Onward.onTsy (f : Tsy → Tsy) (h : Onward r s) : Onward r (s.onTsy f) :=
  h.blocks rfl (Nat.le_refl _) (.of_eq rfl rfl rfl rfl)
theorem Onward.onSfr (f : Sfr → Sfr) (h : Onward r s) : Onward r (s.onSfr f) :=
  h.blocks rfl (Nat.le_refl _) (.of_eq rfl rfl rfl rfl)
theorem Onward.onFcl (f : Fcl → Fcl) (h : Onward r s) : Onward r (s.onFcl f) :=
  h.blocks rfl (Nat.le_refl _) (.of_eq rfl rfl rfl rfl)
theorem Onward.onBst (f : Bst → Bst) (h : Onward r s) : Onward r (s.onBst f) :=
  h.blocks rfl (Nat.le_refl _) (.of_eq rfl rfl rfl rfl)
theorem Onward.onLcs (f : Lcs → Lcs) (h : Onward r s) : Onward r (s.onLcs f) :=
  h.blocks rfl (Nat.le_refl _) (.of_eq rfl rfl rfl rfl)
theorem Onward.onKey (f : Key → Key) (h : Onward r s) : Onward r (s.onKey f) :=
  h.blocks rfl (Nat.le_refl _) (.of_eq rfl rfl rfl rfl)
theorem Onward.onPwr (f : Pwr → Pwr) (h : Onward r s) : Onward r (s.onPwr f) :=
  h.blocks rfl (Nat.le_refl _) (.of_eq rfl rfl rfl rfl)
theorem Onward.onCfg (f : Cfg → Cfg) (h : Onward r s) : Onward r (s.onCfg f) :=
  h.blocks rfl (Nat.le_refl _) (.of_eq rfl rfl rfl rfl)
theorem Onward.onHif (f : Hif → Hif) (h : Onward r s) : Onward r (s.onHif f) :=
  h.blocks rfl (Nat.le_refl _) (.of_eq rfl rfl rfl rfl)
theorem Onward.onCvu (u : Nat) (f : Cvu → Cvu) (h : Onward r s) : Onward r (s.onCvu u f) :=
  h.blocks rfl (Nat.le_refl _) (.of_eq rfl rfl rfl rfl)
theorem Onward.onMgmt (j : Nat) (f : MgmtSession → MgmtSession) (h : Onward r s) : Onward r (s.onMgmt j f) :=
  h.blocks rfl (Nat.le_refl _) (.of_eq rfl rfl rfl rfl)

/-- The antifuse block: the counters are as before. -/
theorem Onward.onOtp (f : Otp → Otp) (h : Onward r s) (hf : (f s.b.otp).counters = s.b.otp.counters) :
    Onward r (s.onOtp f) := h.blocks rfl (Nat.le_refl _) (.of_eq rfl hf rfl rfl)

/-- Both copies of a pair's memory are canonical. -/
def Pair.memWf (p : Pair) : Bool := Memory.wf p.memA && Memory.wf p.memB

theorem Blocks.memWf_iff (b : Blocks) :
    b.memWf = true ↔ (b.agr.pairs.all fun x => x.2.memWf) = true ∧ nwf none b.recd.nand = true := by
  unfold Blocks.memWf; rw [Bool.and_eq_true]; exact Iff.rfl

/-- The agreement unit: the pairs are as before. -/
theorem Onward.onAgr (f : Agr → Agr) (h : Onward r s) (hf : (f s.b.agr).pairs = s.b.agr.pairs) :
    Onward r (s.onAgr f) := h.blocks rfl (Nat.le_refl _) (.of_eq rfl rfl hf rfl)

/-- The agreement unit: the pairs' memories are canonical if they were. -/
theorem Onward.onAgr_wf (f : Agr → Agr) (h : Onward r s)
    (hf : (s.b.agr.pairs.all fun x => x.2.memWf) = true → ((f s.b.agr).pairs.all fun x => x.2.memWf) = true) :
    Onward r (s.onAgr f) := by
  refine h.blocks rfl (Nat.le_refl _) ⟨Nat.le_refl _, fun _ _ h => h, fun hm => ?_⟩
  rw [Blocks.memWf_iff] at hm ⊢
  exact ⟨hf hm.1, hm.2⟩

theorem Pair.memWf_onCore (p : Pair) (c : Ch) (f : Core → Core) : (p.onCore c f).memWf = p.memWf := by
  cases c <;> rfl

theorem Blocks.memWf_released (b : Blocks) (k : Nat) (p : Pair) (h : p.memWf = true) :
    (b.released k p).memWf = true := by
  unfold Blocks.released
  split
  · split <;> exact h
  · exact Bool.and_eq_true_iff.mpr ⟨nwf_nnorm _ _, nwf_nnorm _ _⟩

/-- Bytes written one after another into one copy of a memory. -/
theorem Pair.memWf_copyWord (p : Pair) (c : Bool) (o : Nat) (h : p.memWf = true) : (p.copyWord c o).memWf = true := by
  unfold Pair.copyWord
  suffices g : ∀ n, (forN n (fun i (p : Pair) =>
      if c then { p with memB := nset p.memB (o + i) (nget p.memA (o + i) 0) 0 }
      else { p with memA := nset p.memA (o + i) (nget p.memB (o + i) 0) 0 }) p).memWf = true from g 8
  intro n
  induction n with
  | zero => exact h
  | succ n ih =>
    obtain ⟨ha, hb⟩ := Bool.and_eq_true_iff.mp ih
    cases c
    · exact Bool.and_eq_true_iff.mpr ⟨nwf_nset _ _ ha, hb⟩
    · exact Bool.and_eq_true_iff.mpr ⟨ha, nwf_nset _ _ hb⟩

theorem Pair.memWf_nget {m : NMap Pair} (k : Nat) (h : (m.all fun x => x.2.memWf) = true) :
    (nget m k {}).memWf = true :=
  nget_of_all (p := fun p : Pair => p.memWf = true) k (fun x hx => List.all_eq_true.mp h x hx) rfl

theorem Pair.all_nupd {m : NMap Pair} (k : Nat) (f : Pair → Pair) (h : (m.all fun x => x.2.memWf) = true)
    (hf : ∀ p, p.memWf = true → (f p).memWf = true) : ((nupd m k {} f).all fun x => x.2.memWf) = true :=
  all_nset _ _ h (hf _ (Pair.memWf_nget k h))

theorem Pair.all_nmapv {m : NMap Pair} (f : Nat → Pair → Pair) (h : (m.all fun x => x.2.memWf) = true)
    (hf : ∀ k p, p.memWf = true → (f k p).memWf = true) : ((nmapv m {} f).all fun x => x.2.memWf) = true := by
  rw [List.all_eq_true] at h ⊢
  intro x hx
  obtain ⟨⟨v, hv, e⟩, -⟩ := mem_nmapv hx
  rw [e]
  exact hf _ _ (h _ hv)

/-- One pair: its memories are canonical if they were. -/
theorem Onward.onPair (k : Nat) (f : Pair → Pair) (h : Onward r s)
    (hf : ∀ p : Pair, p.memWf = true → (f p).memWf = true) : Onward r (s.onPair k f) :=
  h.onAgr_wf _ fun hm => Pair.all_nupd k f hm hf

/-- The recorder: NAND is canonical if it was. -/
theorem Onward.onRecd (f : Recorder → Recorder) (h : Onward r s)
    (hf : nwf none s.b.recd.nand = true → nwf none (f s.b.recd).nand = true) : Onward r (s.onRecd f) := by
  refine h.blocks rfl (Nat.le_refl _) ⟨Nat.le_refl _, fun _ _ h => h, fun hm => ?_⟩
  rw [Blocks.memWf_iff] at hm ⊢
  exact ⟨hm.1, hf hm.2⟩

theorem Recorder.nand_program (r : Recorder) (ok : Bool) (h : nwf none r.nand = true) :
    nwf none (r.program ok).nand = true := by
  unfold Recorder.program
  split
  · exact h
  · extract_lets slot y src r1
    have h1 := nwf_nset slot (some { record := y, marked := ok }) h
    split <;> exact h1

theorem Recorder.nand_emptied (r : Recorder) (k : Nat) (h : nwf none r.nand = true) :
    nwf none (r.emptied k).nand = true := nwf_filter _ h

theorem Recorder.nand_flush (n : Nat) (r : Recorder) (h : nwf none r.nand = true) : nwf none
    (r.flush n).nand = true := by
  induction n generalizing r with
  | zero => exact h
  | succ n ih =>
    refine ih _ (Recorder.nand_program _ _ ?_)
    split
    · split
      · exact nwf_filter _ h
      · exact h
    · exact h

theorem Recorder.nand_rebuilt (r : Recorder) (n : Nat) (h : nwf none r.nand = true) : nwf none
    (r.rebuilt n).nand = true := by
  have e : (r.rebuilt n).nand = r.nand := by
    unfold Recorder.rebuilt
    dsimp only
    split <;> rfl
  rw [e]
  exact h

/-- The count of draws set to one not below the first. -/
theorem Onward.drawsTo (n : Nat) (hn : r.draws ≤ n) (h : Onward r s) : Onward r { s with draws := n } :=
  ⟨h.queue, h.time, hn, h.burned, h.mem⟩

/-- A number of values drawn. -/
theorem Onward.drew (n : Nat) (h : Onward r s) : Onward r { s with draws := s.draws + n } :=
  h.blocks rfl (Nat.le_add_right _ _) (.of_eq rfl rfl rfl rfl)

theorem Onward.tick (t : Nat) (h : Onward r s) : Onward r (s.tick t) :=
  h.blocks rfl (Nat.le_refl _) ⟨Nat.le_max_left _ _, fun _ _ h => h, fun h => h⟩

end Sys2Proof.Machine
end

