-- ==== Sys2Proof/Laws/OnwardOps.lean ====
section
/-! SUPPORT. What Ops.lean keeps (Laws/Onward.lean). -/

namespace Sys2Proof.Machine

variable {x₀ s : State}

theorem Onward.draw (h : Onward x₀ s) :
    Onward x₀ (State.draw s).2 := by
  dsimp only [State.draw]
  exact h.blocks rfl (Nat.le_succ _) (.of_eq rfl rfl rfl rfl)

theorem Onward.post (a0 : Arrival) (h : Onward x₀ s) :
    Onward x₀ (State.post a0 s) := by
  dsimp only [State.post]
  repeat' first | with_reducible assumption | intro _ | with_reducible apply Onward.onFcl

theorem Onward.openRound (h : Onward x₀ s) :
    Onward x₀ (State.openRound s) := by
  dsimp only [State.openRound]
  repeat' first | with_reducible assumption | intro _ | with_reducible apply Onward.onFcl

theorem Onward.raise (a0 : ℕ) (a1 : Word) (a2 : Option ℕ) (a3 : ℕ) (a4 : Option Block) (h : Onward x₀ s) :
    Onward x₀ (State.raise a0 a1 a2 a3 a4 s) := by
  dsimp only [State.raise]
  repeat' first | with_reducible assumption | intro _ | with_reducible apply Onward.post

theorem Onward.cond (a0 : ℕ) (a1 : Bool) (a2 : Word) (a3 : Option ℕ) (a4 : ℕ) (a5 : Option Block) (h : Onward x₀ s) :
    Onward x₀ (State.cond a0 a1 a2 a3 a4 a5 s) := by
  dsimp only [State.cond]
  repeat' first
      | with_reducible assumption | intro _ | with_reducible apply Onward.ite | with_reducible apply Onward.fst_ite
      | with_reducible apply Onward.snd_ite | with_reducible apply Onward.post | with_reducible apply Onward.onFcl

theorem Onward.onToken (a0 : ℕ) (a1 : ℕ) (a2 : Token → Token) (h : Onward x₀ s) :
    Onward x₀ (State.onToken a0 a1 a2 s) := by
  dsimp only [State.onToken]
  repeat' first | with_reducible assumption | intro _ | with_reducible apply Onward.onSys

theorem Onward.result (a0 : Reader) (a1 : ℕ) (a2 : ℕ) (h : Onward x₀ s) :
    Onward x₀ (State.result a0 a1 a2 s) := by
  dsimp only [State.result]
  repeat' first | with_reducible assumption | intro _ | with_reducible apply Onward.onToken

theorem Onward.refuseWrite (a0 : Reader) (a1 : ℕ) (h : Onward x₀ s) :
    Onward x₀ (State.refuseWrite a0 a1 s) := by
  dsimp only [State.refuseWrite]
  repeat' first
      | with_reducible assumption | intro _ | with_reducible apply Onward.raise | with_reducible apply Onward.result

theorem Onward.refuseCommand (a0 : Reader) (a1 : ℕ) (h : Onward x₀ s) :
    Onward x₀ (State.refuseCommand a0 a1 s) := by
  dsimp only [State.refuseCommand]
  repeat' first
      | with_reducible assumption | intro _ | with_reducible apply Onward.onToken
      | with_reducible apply Onward.refuseWrite

theorem Onward.wt (a0 : Reader) (a1 : ℕ) (a2 : BitVec 16) (a3 : State → State × ℕ)
    (h_a3 : ∀ t, Onward x₀ t → Onward x₀ (a3 t).1) (h : Onward x₀ s) :
    Onward x₀ (State.wt a0 a1 a2 a3 s) := by
  dsimp only [State.wt]
  repeat' first
      | with_reducible assumption | intro _ | with_reducible apply Onward.ite | with_reducible apply Onward.fst_ite
      | with_reducible apply Onward.snd_ite | with_reducible apply Onward.refuseCommand
      | with_reducible apply Onward.onToken | with_reducible apply h_a3

theorem Onward.plain (a0 : Reader) (a1 : ℕ) (a2 : State → State × ℕ) (h_a2 : ∀ t, Onward x₀ t → Onward x₀
    (a2 t).1) (h : Onward x₀ s) :
    Onward x₀ (State.plain a0 a1 a2 s) := by
  dsimp only [State.plain]
  repeat' first
      | with_reducible assumption | intro _ | with_reducible apply Onward.ite | with_reducible apply Onward.fst_ite
      | with_reducible apply Onward.snd_ite | with_reducible apply Onward.refuseWrite
      | with_reducible apply Onward.result | with_reducible apply h_a2

theorem Onward.settle (a0 : ℕ) (a1 : ℕ) (a2 : BitVec 16) (a3 : ℕ) (h : Onward x₀ s) :
    Onward x₀ (State.settle a0 a1 a2 a3 s) := by
  dsimp only [State.settle]
  repeat' first
      | with_reducible assumption | intro _ | with_reducible apply Onward.ite | with_reducible apply Onward.fst_ite
      | with_reducible apply Onward.snd_ite | with_reducible apply Onward.onToken

theorem Onward.setOwn (a0 : ℕ) (a1 : ℕ) (a2 : Word) (h : Onward x₀ s) :
    Onward x₀ (State.setOwn a0 a1 a2 s) := by
  dsimp only [State.setOwn]
  repeat' first | with_reducible assumption | intro _ | with_reducible apply Onward.on | exact .of_eq rfl rfl rfl rfl

theorem Onward.setRw (a0 : ℕ) (a1 : Word) (h : Onward x₀ s) :
    Onward x₀ (State.setRw a0 a1 s) := by
  dsimp only [State.setRw]
  repeat' first | with_reducible assumption | intro _ | with_reducible apply Onward.onCfg

end Sys2Proof.Machine
end

