-- ==== Sys2Proof/Laws/OnwardSwitch.lean ====
section
/-! SUPPORT. What Switch.lean keeps (Laws/Onward.lean). -/

namespace Sys2Proof.Machine

variable {x₀ s : State}

theorem Onward.onPort (a0 : ℕ) (a1 : PortSt → PortSt) (h : Onward x₀ s) :
    Onward x₀ (State.onPort a0 a1 s) := by
  dsimp only [State.onPort]
  repeat' first | with_reducible assumption | intro _ | with_reducible apply Onward.onNet

theorem Onward.learn (a0 : ℕ) (a1 : ℕ) (a2 : BitVec 48) (h : Onward x₀ s) :
    Onward x₀ (State.learn a0 a1 a2 s) := by
  dsimp only [State.learn]
  repeat' first
      | with_reducible assumption | intro _ | with_reducible apply Onward.ite | with_reducible apply Onward.fst_ite
      | with_reducible apply Onward.snd_ite | with_reducible apply Onward.onNet

theorem Onward.qciDiscard (a0 : ℕ) (h : Onward x₀ s) :
    Onward x₀ (State.qciDiscard a0 s) := by
  dsimp only [State.qciDiscard]
  repeat' first
      | with_reducible assumption | intro _ | with_reducible apply Onward.ite | with_reducible apply Onward.fst_ite
      | with_reducible apply Onward.snd_ite | with_reducible apply Onward.onNet | with_reducible apply Onward.raise

theorem Onward.police (a0 : Option ℕ) (a1 : EthFrame) (h : Onward x₀ s) :
    Onward x₀ (State.police a0 a1 s).1 := by
  dsimp only [State.police]
  repeat' first
      | with_reducible assumption | intro _ | with_reducible apply Onward.ite | with_reducible apply Onward.fst_ite
      | with_reducible apply Onward.snd_ite | with_reducible apply Onward.qciDiscard
      | with_reducible apply Onward.onNet | rfl | split

theorem Onward.cbPass (a0 : ℕ) (a1 : Option ℕ) (a2 : EthFrame) (h : Onward x₀ s) :
    Onward x₀ (State.cbPass a0 a1 a2 s).1 := by
  dsimp only [State.cbPass]
  repeat' first
      | with_reducible assumption | intro _ | with_reducible apply Onward.ite | with_reducible apply Onward.fst_ite
      | with_reducible apply Onward.snd_ite | with_reducible apply Onward.onNet | rfl | split

theorem Onward.sendOn (a0 : ℕ) (a1 : EthFrame) (h : Onward x₀ s) :
    Onward x₀ (State.sendOn a0 a1 s) := by
  dsimp only [State.sendOn]
  repeat' first
      | with_reducible assumption | intro _ | with_reducible apply Onward.onNet | with_reducible apply Onward.onPort

theorem Onward.egress (a0 : ℕ) (a1 : EthFrame) (h : Onward x₀ s) :
    Onward x₀ (State.egress a0 a1 s) := by
  dsimp only [State.egress]
  repeat' first
      | with_reducible assumption | intro _ | with_reducible apply Onward.ite | with_reducible apply Onward.fst_ite
      | with_reducible apply Onward.snd_ite | with_reducible apply Onward.onNet | with_reducible apply Onward.onPort
      | with_reducible apply Onward.sendOn

theorem Onward.drain (a0 : ℕ) (a1 : ℕ) (h : Onward x₀ s) :
    Onward x₀ (State.drain a0 a1 s) := by
  induction a1 generalizing s with
  | zero => exact h
  | succ n ih =>
    dsimp only [State.drain]
    split
    · exact h
    · exact ih (.sendOn _ _ (.onPort _ _ h))

theorem Onward.drainPort (a0 : ℕ) (h : Onward x₀ s) :
    Onward x₀ (State.drainPort a0 s) := by
  dsimp only [State.drainPort]
  repeat' first
      | with_reducible assumption | intro _ | with_reducible apply Onward.ite | with_reducible apply Onward.fst_ite
      | with_reducible apply Onward.snd_ite | with_reducible apply Onward.drain

theorem Onward.loseQueued (a0 : ℕ) (a1 : ℕ) (h : Onward x₀ s) :
    Onward x₀ (State.loseQueued a0 a1 s) := by
  dsimp only [State.loseQueued]
  repeat' first | with_reducible assumption | intro _ | with_reducible apply Onward.onPort

theorem Onward.forwardTo (a0 : ℕ) (a1 : EthFrame) (a2 : ℕ) (h : Onward x₀ s) :
    Onward x₀ (State.forwardTo a0 a1 a2 s) := by
  dsimp only [State.forwardTo]
  repeat' first
      | with_reducible assumption | intro _ | with_reducible apply Onward.ite | with_reducible apply Onward.fst_ite
      | with_reducible apply Onward.snd_ite | with_reducible apply Onward.onNet | with_reducible apply Onward.sendOn
      | with_reducible apply Onward.raise | with_reducible apply Onward.egress

theorem Onward.forward (a0 : ℕ) (a1 : EthFrame) (h : Onward x₀ s) :
    Onward x₀ (State.forward a0 a1 s) := by
  unfold State.forward
  refine .ite h ?_
  extract_lets v f0 hh q c
  have hq : Onward x₀ q.1 := .police _ _ h
  have hc : Onward x₀ c.1 := .cbPass _ _ _ hq
  clear_value c q
  refine .ite hq ?_
  obtain ⟨c1, c2⟩ := c
  cases c2 with
  | none => exact hc
  | some f1 =>
    have h2 := Onward.forL (f := fun e s => s.forwardTo a0 f1 e) ((c1.learn a0 v f1.src).b.egressOf a0 v f1.dst)
      (fun e t ht => .forwardTo _ _ _ ht) (.learn a0 v f1.src hc)
    exact .ite (.onPort _ _ h2) h2

theorem Onward.handPort6 (a0 : EthFrame) (h : Onward x₀ s) :
    Onward x₀ (State.handPort6 a0 s) := by
  dsimp only [State.handPort6]
  repeat' first | with_reducible assumption | intro _ | with_reducible apply Onward.forward

end Sys2Proof.Machine
end

