-- ==== Sys2Proof/Laws/OnwardRecorder.lean ====
section
/-! SUPPORT. What Recorder.lean keeps (Laws/Onward.lean). -/

namespace Sys2Proof.Machine

variable {x₀ s : State}

theorem Onward.loseRecord (h : Onward x₀ s) :
    Onward x₀ (State.loseRecord s) := by
  dsimp only [State.loseRecord]
  repeat' first | with_reducible assumption | intro _ | with_reducible apply Onward.onRecd

theorem Onward.notify (h : Onward x₀ s) :
    Onward x₀ (State.notify s) := by
  dsimp only [State.notify]
  repeat' first
      | with_reducible assumption | intro _ | with_reducible apply Onward.ite | with_reducible apply Onward.fst_ite
      | with_reducible apply Onward.snd_ite | with_reducible apply Onward.on | exact .of_eq rfl rfl rfl rfl

theorem Onward.enterRecord (a0 : Record) (h : Onward x₀ s) :
    Onward x₀ (State.enterRecord a0 s) := by
  dsimp only [State.enterRecord]
  repeat' first
      | with_reducible assumption | intro _ | with_reducible apply Onward.ite | with_reducible apply Onward.fst_ite
      | with_reducible apply Onward.snd_ite | with_reducible apply Onward.onRecd | with_reducible apply Onward.onPwr
      | with_reducible apply Onward.notify | with_reducible apply Onward.raise | rfl | split | assumption

theorem Onward.holdRecord (a0 : Record) (h : Onward x₀ s) :
    Onward x₀ (State.holdRecord a0 s) := by
  dsimp only [State.holdRecord]
  repeat' first | with_reducible assumption | intro _ | with_reducible apply Onward.onRecd

theorem Onward.makeRecord (a0 : Bool) (a1 : Record) (h : Onward x₀ s) :
    Onward x₀ (State.makeRecord a0 a1 s) := by
  dsimp only [State.makeRecord]
  repeat' first
      | with_reducible assumption | intro _ | with_reducible apply Onward.ite | with_reducible apply Onward.fst_ite
      | with_reducible apply Onward.snd_ite | with_reducible apply Onward.loseRecord
      | with_reducible apply Onward.holdRecord | with_reducible apply Onward.raise
      | with_reducible apply Onward.onRecd | with_reducible apply Onward.enterRecord

theorem Onward.recordWith (a0 : ℕ) (a1 : List Byte) (a2 : Bool) (a3 : Profile → Bool) (a4 : Byte) (h : Onward x₀ s) :
    Onward x₀ (State.recordWith a0 a1 a2 a3 a4 s) := by
  dsimp only [State.recordWith]
  repeat' first
      | with_reducible assumption | intro _ | with_reducible apply Onward.ite | with_reducible apply Onward.fst_ite
      | with_reducible apply Onward.snd_ite | with_reducible apply Onward.makeRecord | rfl | split

theorem Onward.record (a0 : ℕ) (a1 : List Byte) (h : Onward x₀ s) :
    Onward x₀ (State.record a0 a1 s) := by
  dsimp only [State.record]
  repeat' first | with_reducible assumption | intro _ | with_reducible apply Onward.recordWith

theorem Onward.recordConfig (a0 : ℕ) (a1 : ℕ) (a2 : Image) (h : Onward x₀ s) :
    Onward x₀ (State.recordConfig a0 a1 a2 s) := by
  dsimp only [State.recordConfig]
  repeat' first | with_reducible assumption | intro _ | with_reducible apply Onward.recordWith

theorem Onward.recordFn (a0 : ℕ) (a1 : ℕ) (a2 : ℕ) (a3 : ℕ) (a4 : ℕ) (h : Onward x₀ s) :
    Onward x₀ (State.recordFn a0 a1 a2 a3 a4 s) := by
  dsimp only [State.recordFn]
  repeat' first | with_reducible assumption | intro _ | with_reducible apply Onward.recordWith

end Sys2Proof.Machine
end

