-- ==== Sys2Proof/Laws/OnwardSys.lean ====
section
/-! SUPPORT. What Sys.lean keeps (Laws/Onward.lean). -/

namespace Sys2Proof.Machine

variable {x₀ s : State}

theorem Onward.latchOptime (a0 : ℕ) (h : Onward x₀ s) :
    Onward x₀ (State.latchOptime a0 s) := by
  dsimp only [State.latchOptime]
  repeat' first | with_reducible assumption | intro _ | with_reducible apply Onward.onTru

theorem Onward.latchCell (a0 : ℕ) (h : Onward x₀ s) :
    Onward x₀ (State.latchCell a0 s) := by
  dsimp only [State.latchCell]
  repeat' first | with_reducible assumption | intro _ | with_reducible apply Onward.onTru

theorem Onward.execTruOptimeLoRead (a0 : ℕ) (a1 : Reader) (h : Onward x₀ s) :
    ∀ u, (execTruOptimeLoRead a0 a1 s) = .next u → Onward x₀ u := by
  intro u e
  obtain rfl := Host.Outcome.next.inj e
  repeat' first
      | with_reducible assumption | intro _ | with_reducible apply Onward.latchOptime
      | with_reducible apply Onward.tick

theorem Onward.execTruCellNsRead (a0 : ℕ) (a1 : Reader) (h : Onward x₀ s) :
    ∀ u, (execTruCellNsRead a0 a1 s) = .next u → Onward x₀ u := by
  intro u e
  obtain rfl := Host.Outcome.next.inj e
  repeat' first
      | with_reducible assumption | intro _ | with_reducible apply Onward.latchCell | with_reducible apply Onward.tick

theorem Onward.expertAt (a0 : Reader) (a1 : ℕ) (a2 : ℕ) (a3 : Word) (a4 : State → State × ℕ)
    (h_a4 : ∀ t, Onward x₀ t → Onward x₀ (a4 t).1) (h : Onward x₀ s) :
    Onward x₀ (State.expertAt a0 a1 a2 a3 a4 s) := by
  dsimp only [State.expertAt]
  repeat' first
      | with_reducible assumption | intro _ | with_reducible apply Onward.ite | with_reducible apply Onward.fst_ite
      | with_reducible apply Onward.snd_ite | with_reducible apply Onward.plain | with_reducible apply Onward.record
      | with_reducible apply Onward.onSys | with_reducible apply h_a4

theorem Onward.expert (a0 : Reader) (a1 : ℕ) (a2 : Word) (a3 : State → State × ℕ)
    (h_a3 : ∀ t, Onward x₀ t → Onward x₀ (a3 t).1) (h : Onward x₀ s) :
    Onward x₀ (State.expert a0 a1 a2 a3 s) := by
  dsimp only [State.expert]
  repeat' first | with_reducible assumption | intro _ | with_reducible apply Onward.expertAt

theorem Onward.truInject (a0 : Word) (h : Onward x₀ s) :
    Onward x₀ (State.truInject a0 s).1 := by
  dsimp only [State.truInject]
  repeat' first
      | with_reducible assumption | intro _ | with_reducible apply Onward.ite | with_reducible apply Onward.fst_ite
      | with_reducible apply Onward.snd_ite | with_reducible apply Onward.onTru

theorem Onward.execTruInject (a0 : ℕ) (a1 : Reader) (a2 : Word) (h : Onward x₀ s) :
    ∀ u, (execTruInject a0 a1 a2 s) = .next u → Onward x₀ u := by
  intro u e
  obtain rfl := Host.Outcome.next.inj e
  repeat' first
      | with_reducible assumption | intro _ | with_reducible apply Onward.expert
      | with_reducible apply Onward.truInject | with_reducible apply Onward.tick

theorem Onward.queueClear (a0 : ℕ) (a1 : ℕ) (a2 : Bool) (a3 : Word) (h : Onward x₀ s) :
    Onward x₀ (State.queueClear a0 a1 a2 a3 s).1 := by
  dsimp only [State.queueClear]
  repeat' first
      | with_reducible assumption | intro _ | with_reducible apply Onward.ite | with_reducible apply Onward.fst_ite
      | with_reducible apply Onward.snd_ite | with_reducible apply Onward.onFcl

theorem Onward.pageClear (a0 : Reader) (a1 : ℕ) (a2 : Word) (h : Onward x₀ s) :
    Onward x₀ (State.pageClear a0 a1 a2 s) := by
  dsimp only [State.pageClear]
  repeat' first
      | with_reducible assumption | intro _ | with_reducible apply Onward.ite | with_reducible apply Onward.fst_ite
      | with_reducible apply Onward.snd_ite | with_reducible apply Onward.refuseCommand
      | with_reducible apply Onward.wt | with_reducible apply Onward.queueClear

theorem Onward.fclClear (a0 : Reader) (a1 : Word) (h : Onward x₀ s) :
    Onward x₀ (State.fclClear a0 a1 s) := by
  dsimp only [State.fclClear]
  repeat' first
      | with_reducible assumption | intro _ | with_reducible apply Onward.wt | with_reducible apply Onward.queueClear

theorem Onward.execPageFltLatchClear (a0 : ℕ) (a1 : Reader) (a2 : ℕ) (a3 : Word) (h : Onward x₀ s) :
    ∀ u, (execPageFltLatchClear a0 a1 a2 a3 s) = .next u → Onward x₀ u := by
  intro u e
  obtain rfl := Host.Outcome.next.inj e
  repeat' first
      | with_reducible assumption | intro _ | with_reducible apply Onward.pageClear | with_reducible apply Onward.tick
      | rfl | split

theorem Onward.execFclClear (a0 : ℕ) (a1 : Reader) (a2 : Word) (h : Onward x₀ s) :
    ∀ u, (execFclClear a0 a1 a2 s) = .next u → Onward x₀ u := by
  intro u e
  obtain rfl := Host.Outcome.next.inj e
  repeat' first
      | with_reducible assumption | intro _ | with_reducible apply Onward.fclClear | with_reducible apply Onward.tick

theorem Onward.onStaging (a0 : ℕ) (a1 : Staging → Staging) (h : Onward x₀ s) :
    Onward x₀ (State.onStaging a0 a1 s) := by
  dsimp only [State.onStaging]
  repeat' first | with_reducible assumption | intro _ | with_reducible apply Onward.onSys

theorem Onward.stageCommit (a0 : ℕ) (a1 : BitVec 16) (h : Onward x₀ s) :
    Onward x₀ (State.stageCommit a0 a1 s).1 := by
  dsimp only [State.stageCommit]
  repeat' first
      | with_reducible assumption | intro _ | with_reducible apply Onward.ite | with_reducible apply Onward.fst_ite
      | with_reducible apply Onward.snd_ite | with_reducible apply Onward.onStaging

theorem Onward.stageDiscard (a0 : ℕ) (h : Onward x₀ s) :
    Onward x₀ (State.stageDiscard a0 s).1 := by
  dsimp only [State.stageDiscard]
  repeat' first
      | with_reducible assumption | intro _ | with_reducible apply Onward.ite | with_reducible apply Onward.fst_ite
      | with_reducible apply Onward.snd_ite | with_reducible apply Onward.onStaging

theorem Onward.execStageCommit (a0 : ℕ) (a1 : Reader) (a2 : BitVec 16) (h : Onward x₀ s) :
    ∀ u, (execStageCommit a0 a1 a2 s) = .next u → Onward x₀ u := by
  intro u e
  obtain rfl := Host.Outcome.next.inj e
  repeat' first
      | with_reducible assumption | intro _ | with_reducible apply Onward.wt | with_reducible apply Onward.stageCommit
      | with_reducible apply Onward.tick

theorem Onward.execStageDiscard (a0 : ℕ) (a1 : Reader) (a2 : BitVec 16) (h : Onward x₀ s) :
    ∀ u, (execStageDiscard a0 a1 a2 s) = .next u → Onward x₀ u := by
  intro u e
  obtain rfl := Host.Outcome.next.inj e
  repeat' first
      | with_reducible assumption | intro _ | with_reducible apply Onward.wt
      | with_reducible apply Onward.stageDiscard | with_reducible apply Onward.tick

theorem Onward.onFreeze (a0 : ℕ) (a1 : Freeze → Freeze) (h : Onward x₀ s) :
    Onward x₀ (State.onFreeze a0 a1 s) := by
  dsimp only [State.onFreeze]
  repeat' first | with_reducible assumption | intro _ | with_reducible apply Onward.onSys

theorem Onward.freeze (a0 : ℕ) (h : Onward x₀ s) :
    Onward x₀ (State.freeze a0 s).1 := by
  dsimp only [State.freeze]
  repeat' first
      | with_reducible assumption | intro _ | with_reducible apply Onward.onFreeze
      | with_reducible apply Onward.framed

theorem Onward.unfreeze (a0 : ℕ) (h : Onward x₀ s) :
    Onward x₀ (State.unfreeze a0 s).1 := by
  dsimp only [State.unfreeze]
  repeat' first
      | with_reducible assumption | intro _ | with_reducible apply Onward.onFreeze
      | with_reducible apply Onward.framed

theorem Onward.freezeExpire (a0 : ℕ) (h : Onward x₀ s) :
    Onward x₀ (State.freezeExpire a0 s) := by
  dsimp only [State.freezeExpire]
  repeat' first
      | with_reducible assumption | intro _ | with_reducible apply Onward.ite | with_reducible apply Onward.fst_ite
      | with_reducible apply Onward.snd_ite | with_reducible apply Onward.raise | with_reducible apply Onward.onFreeze
      | with_reducible apply Onward.framed

theorem Onward.execFreeze (a0 : ℕ) (a1 : Reader) (a2 : BitVec 16) (h : Onward x₀ s) :
    ∀ u, (execFreeze a0 a1 a2 s) = .next u → Onward x₀ u := by
  intro u e
  obtain rfl := Host.Outcome.next.inj e
  repeat' first
      | with_reducible assumption | intro _ | with_reducible apply Onward.wt | with_reducible apply Onward.freeze
      | with_reducible apply Onward.tick

theorem Onward.execFreezeRelease (a0 : ℕ) (a1 : Reader) (a2 : BitVec 16) (h : Onward x₀ s) :
    ∀ u, (execFreezeRelease a0 a1 a2 s) = .next u → Onward x₀ u := by
  intro u e
  obtain rfl := Host.Outcome.next.inj e
  repeat' first
      | with_reducible assumption | intro _ | with_reducible apply Onward.wt | with_reducible apply Onward.unfreeze
      | with_reducible apply Onward.tick

theorem Onward.execFreezeExpired (a0 : ℕ) (a1 : Reader) (h : Onward x₀ s) :
    ∀ u, (execFreezeExpired a0 a1 s) = .next u → Onward x₀ u := by
  intro u e
  obtain rfl := Host.Outcome.next.inj e
  repeat' first
      | with_reducible assumption | intro _ | with_reducible apply Onward.freezeExpire
      | with_reducible apply Onward.tick

theorem Onward.onExpert (a0 : ℕ) (a1 : Expert → Expert) (h : Onward x₀ s) :
    Onward x₀ (State.onExpert a0 a1 s) := by
  dsimp only [State.onExpert]
  repeat' first | with_reducible assumption | intro _ | with_reducible apply Onward.onSys

theorem Onward.newNonce (a0 : ℕ) (h : Onward x₀ s) :
    Onward x₀ (State.newNonce a0 s) := by
  unfold State.newNonce
  exact (Onward.onExpert _ _ h).blocks rfl (Nat.le_succ _) (.of_eq rfl rfl rfl rfl)

theorem Onward.unlock (a0 : Reader) (h : Onward x₀ s) :
    Onward x₀ (State.unlock a0 s).1 := by
  dsimp only [State.unlock]
  repeat' first
      | with_reducible assumption | intro _ | with_reducible apply Onward.ite | with_reducible apply Onward.fst_ite
      | with_reducible apply Onward.snd_ite | with_reducible apply Onward.newNonce
      | with_reducible apply Onward.onExpert | with_reducible apply Onward.raise

theorem Onward.lock (a0 : ℕ) (h : Onward x₀ s) :
    Onward x₀ (State.lock a0 s).1 := by
  dsimp only [State.lock]
  repeat' first | with_reducible assumption | intro _ | with_reducible apply Onward.onExpert

theorem Onward.expertIdle (a0 : ℕ) (h : Onward x₀ s) :
    Onward x₀ (State.expertIdle a0 s) := by
  dsimp only [State.expertIdle]
  repeat' first
      | with_reducible assumption | intro _ | with_reducible apply Onward.ite | with_reducible apply Onward.fst_ite
      | with_reducible apply Onward.snd_ite | with_reducible apply Onward.onExpert

theorem Onward.expertBlockEnd (a0 : ℕ) (h : Onward x₀ s) :
    Onward x₀ (State.expertBlockEnd a0 s) := by
  dsimp only [State.expertBlockEnd]
  repeat' first
      | with_reducible assumption | intro _ | with_reducible apply Onward.ite | with_reducible apply Onward.fst_ite
      | with_reducible apply Onward.snd_ite | with_reducible apply Onward.onExpert | rfl | split

theorem Onward.execExpertUnlock (a0 : ℕ) (a1 : Reader) (a2 : BitVec 16) (h : Onward x₀ s) :
    ∀ u, (execExpertUnlock a0 a1 a2 s) = .next u → Onward x₀ u := by
  intro u e
  obtain rfl := Host.Outcome.next.inj e
  repeat' first
      | with_reducible assumption | intro _ | with_reducible apply Onward.wt | with_reducible apply Onward.unlock
      | with_reducible apply Onward.tick

theorem Onward.execExpertLock (a0 : ℕ) (a1 : Reader) (a2 : BitVec 16) (h : Onward x₀ s) :
    ∀ u, (execExpertLock a0 a1 a2 s) = .next u → Onward x₀ u := by
  intro u e
  obtain rfl := Host.Outcome.next.inj e
  repeat' first
      | with_reducible assumption | intro _ | with_reducible apply Onward.wt | with_reducible apply Onward.lock
      | with_reducible apply Onward.tick

theorem Onward.execExpertIdleTimeout (a0 : ℕ) (a1 : Reader) (h : Onward x₀ s) :
    ∀ u, (execExpertIdleTimeout a0 a1 s) = .next u → Onward x₀ u := by
  intro u e
  obtain rfl := Host.Outcome.next.inj e
  repeat' first
      | with_reducible assumption | intro _ | with_reducible apply Onward.expertIdle
      | with_reducible apply Onward.tick

theorem Onward.execExpertBlockEnd (a0 : ℕ) (a1 : Reader) (h : Onward x₀ s) :
    ∀ u, (execExpertBlockEnd a0 a1 s) = .next u → Onward x₀ u := by
  intro u e
  obtain rfl := Host.Outcome.next.inj e
  repeat' first
      | with_reducible assumption | intro _ | with_reducible apply Onward.expertBlockEnd
      | with_reducible apply Onward.tick

end Sys2Proof.Machine
end

