-- ==== Sys2Proof/Laws/OnwardCores.lean ====
section
/-! SUPPORT. What Cores.lean keeps (Laws/Onward.lean). -/

namespace Sys2Proof.Machine

variable {x₀ s : State}

theorem Onward.blockPair (a0 : ℕ) (h : Onward x₀ s) :
    Onward x₀ (State.blockPair a0 s) := by
  dsimp only [State.blockPair]
  repeat' first
      | with_reducible assumption | intro _ | with_reducible apply Onward.ite | with_reducible apply Onward.fst_ite
      | with_reducible apply Onward.snd_ite | with_reducible apply Onward.onPair | rfl | split | assumption

theorem Onward.blockAll (h : Onward x₀ s) :
    Onward x₀ (State.blockAll s) := by
  dsimp only [State.blockAll]
  repeat' first
      | with_reducible assumption | intro _ | with_reducible apply Onward.forN | with_reducible apply Onward.blockPair

theorem Onward.failPair (a0 : ℕ) (a1 : ℕ) (h : Onward x₀ s) :
    Onward x₀ (State.failPair a0 a1 s) := by
  dsimp only [State.failPair]
  repeat' first
      | with_reducible assumption | intro _ | with_reducible apply Onward.blockPair
      | with_reducible apply Onward.raise

theorem Onward.agreementTimeout (a0 : ℕ) (h : Onward x₀ s) :
    Onward x₀ (State.agreementTimeout a0 s) := by
  dsimp only [State.agreementTimeout]
  repeat' first
      | with_reducible assumption | intro _ | with_reducible apply Onward.ite | with_reducible apply Onward.fst_ite
      | with_reducible apply Onward.snd_ite | with_reducible apply Onward.failPair
      | with_reducible apply Onward.onPair | rfl | split | assumption

theorem Onward.execAgreementTimeout (a0 : ℕ) (a1 : Fin 4) (h : Onward x₀ s) :
    ∀ u, (execAgreementTimeout a0 a1 s) = .next u → Onward x₀ u := by
  intro u e
  obtain rfl := Host.Outcome.next.inj e
  repeat' first
      | with_reducible assumption | intro _ | with_reducible apply Onward.agreementTimeout
      | with_reducible apply Onward.tick

theorem Onward.pairRelease (a0 : ℕ) (h : Onward x₀ s) :
    Onward x₀ (State.pairRelease a0 s) := by
  unfold State.pairRelease
  exact .ite (.onPair _ _ h (Blocks.memWf_released _ _)) h

theorem Onward.execPairRelease (a0 : ℕ) (a1 : Fin 4) (h : Onward x₀ s) :
    ∀ u, (execPairRelease a0 a1 s) = .next u → Onward x₀ u := by
  intro u e
  obtain rfl := Host.Outcome.next.inj e
  repeat' first
      | with_reducible assumption | intro _ | with_reducible apply Onward.pairRelease
      | with_reducible apply Onward.tick

theorem Onward.ownPair (a0 : Reader) (a1 : ℕ) (a2 : State → State × ℕ) (h_a2 : ∀ t, Onward x₀ t → Onward x₀
    (a2 t).1) (h : Onward x₀ s) :
    Onward x₀ (State.ownPair a0 a1 a2 s) := by
  dsimp only [State.ownPair]
  repeat' first
      | with_reducible assumption | intro _ | with_reducible apply Onward.ite | with_reducible apply Onward.fst_ite
      | with_reducible apply Onward.snd_ite | with_reducible apply Onward.result
      | with_reducible apply Onward.refuseWrite | with_reducible apply h_a2 | rfl | split

theorem Onward.cfwWrite (a0 : ℕ) (a1 : ℕ) (a2 : Word) (h : Onward x₀ s) :
    Onward x₀ (State.cfwWrite a0 a1 a2 s).1 := by
  dsimp only [State.cfwWrite]
  repeat' first
      | with_reducible assumption | intro _ | with_reducible apply Onward.ite | with_reducible apply Onward.fst_ite
      | with_reducible apply Onward.snd_ite | with_reducible apply Onward.onPair | rfl | split | assumption

theorem Onward.execCprCfwWrite (a0 : ℕ) (a1 : Reader) (a2 : Fin 4) (a3 : ℕ) (a4 : Word) (h : Onward x₀ s) :
    ∀ u, (execCprCfwWrite a0 a1 a2 a3 a4 s) = .next u → Onward x₀ u := by
  intro u e
  obtain rfl := Host.Outcome.next.inj e
  repeat' first
      | with_reducible assumption | intro _ | with_reducible apply Onward.ownPair
      | with_reducible apply Onward.cfwWrite | with_reducible apply Onward.tick

theorem Onward.cfwInv (a0 : ℕ) (a1 : Word) (h : Onward x₀ s) :
    Onward x₀ (State.cfwInv a0 a1 s).1 := by
  dsimp only [State.cfwInv]
  repeat' first
      | with_reducible assumption | intro _ | with_reducible apply Onward.ite | with_reducible apply Onward.fst_ite
      | with_reducible apply Onward.snd_ite | with_reducible apply Onward.onPair | rfl | split | assumption

theorem Onward.ownWt (a0 : Reader) (a1 : ℕ) (a2 : Word) (a3 : State → State × ℕ)
    (h_a3 : ∀ t, Onward x₀ t → Onward x₀ (a3 t).1) (h : Onward x₀ s) :
    Onward x₀ (State.ownWt a0 a1 a2 a3 s) := by
  dsimp only [State.ownWt]
  repeat' first
      | with_reducible assumption | intro _ | with_reducible apply Onward.ite | with_reducible apply Onward.fst_ite
      | with_reducible apply Onward.snd_ite | with_reducible apply Onward.wt
      | with_reducible apply Onward.refuseCommand | with_reducible apply Onward.onToken
      | with_reducible apply Onward.result | with_reducible apply h_a3 | rfl | split

theorem Onward.execCprCfwInv (a0 : ℕ) (a1 : Reader) (a2 : Fin 4) (a3 : Word) (h : Onward x₀ s) :
    ∀ u, (execCprCfwInv a0 a1 a2 a3 s) = .next u → Onward x₀ u := by
  intro u e
  obtain rfl := Host.Outcome.next.inj e
  repeat' first
      | with_reducible assumption | intro _ | with_reducible apply Onward.ownWt | with_reducible apply Onward.cfwInv
      | with_reducible apply Onward.tick

theorem Onward.cprAlive (a0 : ℕ) (h : Onward x₀ s) :
    Onward x₀ (State.cprAlive a0 s).1 := by
  dsimp only [State.cprAlive]
  repeat' first | with_reducible assumption | intro _ | with_reducible apply Onward.onPair | rfl | assumption

theorem Onward.execCprAliveWrite (a0 : ℕ) (a1 : Reader) (a2 : Fin 4) (a3 : Word) (h : Onward x₀ s) :
    ∀ u, (execCprAliveWrite a0 a1 a2 a3 s) = .next u → Onward x₀ u := by
  intro u e
  obtain rfl := Host.Outcome.next.inj e
  repeat' first
      | with_reducible assumption | intro _ | with_reducible apply Onward.ownPair
      | with_reducible apply Onward.cprAlive | with_reducible apply Onward.tick

theorem Onward.judgeAlive (a0 : ℕ) (h : Onward x₀ s) :
    Onward x₀ (State.judgeAlive a0 s) := by
  dsimp only [State.judgeAlive]
  repeat' first
      | with_reducible assumption | intro _ | with_reducible apply Onward.ite | with_reducible apply Onward.fst_ite
      | with_reducible apply Onward.snd_ite | with_reducible apply Onward.raise | with_reducible apply Onward.onPair
      | rfl | split | assumption

theorem Onward.execAliveExpired (a0 : ℕ) (a1 : Fin 4) (h : Onward x₀ s) :
    ∀ u, (execAliveExpired a0 a1 s) = .next u → Onward x₀ u := by
  intro u e
  obtain rfl := Host.Outcome.next.inj e
  repeat' first
      | with_reducible assumption | intro _ | with_reducible apply Onward.ite | with_reducible apply Onward.fst_ite
      | with_reducible apply Onward.snd_ite | with_reducible apply Onward.tick
      | with_reducible apply Onward.judgeAlive

theorem Onward.dropWords (a0 : ℕ) (h : Onward x₀ s) :
    Onward x₀ (State.dropWords a0 s) := by
  dsimp only [State.dropWords]
  repeat' first
      | with_reducible assumption | intro _ | with_reducible apply Onward.ite | with_reducible apply Onward.fst_ite
      | with_reducible apply Onward.snd_ite | with_reducible apply Onward.onPair | rfl | split | assumption

theorem Onward.rdsel (a0 : ℕ) (a1 : ℕ) (a2 : Word) (h : Onward x₀ s) :
    Onward x₀ (State.rdsel a0 a1 a2 s).1 := by
  dsimp only [State.rdsel]
  repeat' first
      | with_reducible assumption | intro _ | with_reducible apply Onward.ite | with_reducible apply Onward.fst_ite
      | with_reducible apply Onward.snd_ite | with_reducible apply Onward.onPair | rfl | split | assumption

theorem Onward.execCprRdselWrite (a0 : ℕ) (a1 : Reader) (a2 : Fin 4) (a3 : Fin 64) (a4 : Word) (h : Onward x₀ s) :
    ∀ u, (execCprRdselWrite a0 a1 a2 a3 a4 s) = .next u → Onward x₀ u := by
  intro u e
  obtain rfl := Host.Outcome.next.inj e
  repeat' first
      | with_reducible assumption | intro _ | with_reducible apply Onward.ownPair | with_reducible apply Onward.rdsel
      | with_reducible apply Onward.tick

theorem Onward.rdselPublish (h : Onward x₀ s) :
    Onward x₀ (State.rdselPublish s) := by
  dsimp only [State.rdselPublish]
  repeat' first
      | with_reducible assumption | intro _ | with_reducible apply Onward.onAgr_wf | rfl
      | exact Pair.all_nmapv _ ‹_› fun _ _ h => h

theorem Onward.cprCtrClear (a0 : ℕ) (a1 : Word) (h : Onward x₀ s) :
    Onward x₀ (State.cprCtrClear a0 a1 s).1 := by
  dsimp only [State.cprCtrClear]
  repeat' first
      | with_reducible assumption | intro _ | with_reducible apply Onward.ite | with_reducible apply Onward.fst_ite
      | with_reducible apply Onward.snd_ite | with_reducible apply Onward.onPair | rfl | split | assumption

theorem Onward.execCprCtrClear (a0 : ℕ) (a1 : Reader) (a2 : Fin 4) (a3 : Word) (h : Onward x₀ s) :
    ∀ u, (execCprCtrClear a0 a1 a2 a3 s) = .next u → Onward x₀ u := by
  intro u e
  obtain rfl := Host.Outcome.next.inj e
  repeat' first
      | with_reducible assumption | intro _ | with_reducible apply Onward.wt | with_reducible apply Onward.cprCtrClear
      | with_reducible apply Onward.tick

theorem Onward.agrCtrClear (a0 : Word) (h : Onward x₀ s) :
    Onward x₀ (State.agrCtrClear a0 s).1 := by
  dsimp only [State.agrCtrClear]
  repeat' first
      | with_reducible assumption | intro _ | with_reducible apply Onward.ite | with_reducible apply Onward.fst_ite
      | with_reducible apply Onward.snd_ite | with_reducible apply Onward.onAgr_wf | rfl | split
      | exact Pair.all_nmapv _ ‹_› fun _ _ h => h

theorem Onward.execAgrCtrClear (a0 : ℕ) (a1 : Reader) (a2 : Word) (h : Onward x₀ s) :
    ∀ u, (execAgrCtrClear a0 a1 a2 s) = .next u → Onward x₀ u := by
  intro u e
  obtain rfl := Host.Outcome.next.inj e
  repeat' first
      | with_reducible assumption | intro _ | with_reducible apply Onward.wt | with_reducible apply Onward.agrCtrClear
      | with_reducible apply Onward.tick

theorem Onward.agrInject (a0 : Word) (h : Onward x₀ s) :
    Onward x₀ (State.agrInject a0 s).1 := by
  dsimp only [State.agrInject]
  repeat' first
      | with_reducible assumption | intro _ | with_reducible apply Onward.ite | with_reducible apply Onward.fst_ite
      | with_reducible apply Onward.snd_ite | with_reducible apply Onward.onAgr | rfl

theorem Onward.execAgrInject (a0 : ℕ) (a1 : Reader) (a2 : Word) (h : Onward x₀ s) :
    ∀ u, (execAgrInject a0 a1 a2 s) = .next u → Onward x₀ u := by
  intro u e
  obtain rfl := Host.Outcome.next.inj e
  repeat' first
      | with_reducible assumption | intro _ | with_reducible apply Onward.expert
      | with_reducible apply Onward.agrInject | with_reducible apply Onward.tick

theorem Onward.cprTx (a0 : ℕ) (a1 : Word) (h : Onward x₀ s) :
    Onward x₀ (State.cprTx a0 a1 s).1 := by
  dsimp only [State.cprTx]
  repeat' first
      | with_reducible assumption | intro _ | with_reducible apply Onward.ite | with_reducible apply Onward.fst_ite
      | with_reducible apply Onward.snd_ite | with_reducible apply Onward.handPort6
      | with_reducible apply Onward.onPair | with_reducible apply Onward.failPair | rfl | split | assumption

theorem Onward.execCprTx (a0 : ℕ) (a1 : Reader) (a2 : Fin 4) (a3 : Word) (h : Onward x₀ s) :
    ∀ u, (execCprTx a0 a1 a2 a3 s) = .next u → Onward x₀ u := by
  intro u e
  obtain rfl := Host.Outcome.next.inj e
  repeat' first
      | with_reducible assumption | intro _ | with_reducible apply Onward.ownPair | with_reducible apply Onward.cprTx
      | with_reducible apply Onward.tick

theorem Onward.pairFrame (a0 : ℕ) (a1 : List Byte) (h : Onward x₀ s) :
    Onward x₀ (State.pairFrame a0 a1 s) := by
  dsimp only [State.pairFrame]
  repeat' first
      | with_reducible assumption | intro _ | with_reducible apply Onward.ite | with_reducible apply Onward.fst_ite
      | with_reducible apply Onward.snd_ite | with_reducible apply Onward.onPair | rfl | split | assumption

theorem Onward.execPairFrameReceived (a0 : ℕ) (a1 : Fin 4) (a2 : List Byte) (h : Onward x₀ s) :
    ∀ u, (execPairFrameReceived a0 a1 a2 s) = .next u → Onward x₀ u := by
  intro u e
  obtain rfl := Host.Outcome.next.inj e
  repeat' first
      | with_reducible assumption | intro _ | with_reducible apply Onward.pairFrame | with_reducible apply Onward.tick

theorem Onward.timerLine (a0 : ℕ) (h : Onward x₀ s) :
    Onward x₀ (State.timerLine a0 s) := by
  dsimp only [State.timerLine]
  repeat' first
      | with_reducible assumption | intro _ | with_reducible apply Onward.ite | with_reducible apply Onward.fst_ite
      | with_reducible apply Onward.snd_ite | with_reducible apply Onward.onPair | rfl | split | assumption

theorem Onward.execMtimecmpReached (a0 : ℕ) (a1 : Fin 4) (h : Onward x₀ s) :
    ∀ u, (execMtimecmpReached a0 a1 s) = .next u → Onward x₀ u := by
  intro u e
  obtain rfl := Host.Outcome.next.inj e
  repeat' first
      | with_reducible assumption | intro _ | with_reducible apply Onward.timerLine | with_reducible apply Onward.tick

theorem Onward.pairEvent (a0 : ℕ) (a1 : ℕ) (h : Onward x₀ s) :
    Onward x₀ (State.pairEvent a0 a1 s) := by
  dsimp only [State.pairEvent]
  repeat' first | with_reducible assumption | intro _ | with_reducible apply Onward.onPair | rfl | assumption

theorem Onward.deliverNmi (h : Onward x₀ s) :
    Onward x₀ (State.deliverNmi s) := by
  dsimp only [State.deliverNmi]
  repeat' first
      | with_reducible assumption | intro _ | with_reducible apply Onward.ite | with_reducible apply Onward.fst_ite
      | with_reducible apply Onward.snd_ite | with_reducible apply Onward.forN | with_reducible apply Onward.onPair
      | rfl | split | assumption

theorem Onward.splitPair (a0 : ℕ) (a1 : Ch) (h : Onward x₀ s) :
    Onward x₀ (State.splitPair a0 a1 s) := by
  dsimp only [State.splitPair]
  repeat' first
      | with_reducible assumption | intro _ | with_reducible apply Onward.ite | with_reducible apply Onward.fst_ite
      | with_reducible apply Onward.snd_ite | with_reducible apply Onward.onAgr | with_reducible apply Onward.onPair
      | with_reducible apply Onward.record | with_reducible apply Onward.raise | rfl | split | assumption

theorem Onward.debugHalt (a0 : ℕ) (a1 : Ch) (h : Onward x₀ s) :
    Onward x₀ (State.debugHalt a0 a1 s) := by
  dsimp only [State.debugHalt]
  repeat' first
      | with_reducible assumption | intro _ | with_reducible apply Onward.ite | with_reducible apply Onward.fst_ite
      | with_reducible apply Onward.snd_ite | with_reducible apply Onward.onPair
      | with_reducible apply Onward.splitPair | rfl | split | exact (Pair.memWf_onCore _ _ _).trans ‹_›

theorem Onward.execDebugHalt (a0 : ℕ) (a1 : Fin 4) (a2 : Ch) (h : Onward x₀ s) :
    ∀ u, (execDebugHalt a0 a1 a2 s) = .next u → Onward x₀ u := by
  intro u e
  obtain rfl := Host.Outcome.next.inj e
  repeat' first
      | with_reducible assumption | intro _ | with_reducible apply Onward.debugHalt | with_reducible apply Onward.tick

theorem Onward.debugStep (a0 : ℕ) (a1 : Ch) (h : Onward x₀ s) :
    Onward x₀ (State.debugStep a0 a1 s) := by
  dsimp only [State.debugStep]
  repeat' first
      | with_reducible assumption | intro _ | with_reducible apply Onward.ite | with_reducible apply Onward.fst_ite
      | with_reducible apply Onward.snd_ite | with_reducible apply Onward.onPair
      | with_reducible apply Onward.splitPair | rfl | split | exact (Pair.memWf_onCore _ _ _).trans ‹_›

theorem Onward.execDebugStep (a0 : ℕ) (a1 : Fin 4) (a2 : Ch) (h : Onward x₀ s) :
    ∀ u, (execDebugStep a0 a1 a2 s) = .next u → Onward x₀ u := by
  intro u e
  obtain rfl := Host.Outcome.next.inj e
  repeat' first
      | with_reducible assumption | intro _ | with_reducible apply Onward.debugStep | with_reducible apply Onward.tick

theorem Onward.debugResume (a0 : ℕ) (a1 : Ch) (h : Onward x₀ s) :
    Onward x₀ (State.debugResume a0 a1 s) := by
  dsimp only [State.debugResume]
  repeat' first
      | with_reducible assumption | intro _ | with_reducible apply Onward.ite | with_reducible apply Onward.fst_ite
      | with_reducible apply Onward.snd_ite | with_reducible apply Onward.onPair | rfl | split
      | exact (Pair.memWf_onCore _ _ _).trans ‹_›

theorem Onward.execDebugResume (a0 : ℕ) (a1 : Fin 4) (a2 : Ch) (h : Onward x₀ s) :
    ∀ u, (execDebugResume a0 a1 a2 s) = .next u → Onward x₀ u := by
  intro u e
  obtain rfl := Host.Outcome.next.inj e
  repeat' first
      | with_reducible assumption | intro _ | with_reducible apply Onward.debugResume
      | with_reducible apply Onward.tick

theorem Onward.debugRegister (a0 : ℕ) (a1 : Ch) (a2 : ℕ) (a3 : Option (BitVec 64)) (h : Onward x₀ s) :
    Onward x₀ (State.debugRegister a0 a1 a2 a3 s) := by
  dsimp only [State.debugRegister]
  repeat' first
      | with_reducible assumption | intro _ | with_reducible apply Onward.ite | with_reducible apply Onward.fst_ite
      | with_reducible apply Onward.snd_ite | with_reducible apply Onward.onPair | rfl | split
      | exact (Pair.memWf_onCore _ _ _).trans ‹_›

theorem Onward.execDebugRegisterAccess (a0 : ℕ) (a1 : Fin 4) (a2 : Ch) (a3 : ℕ) (a4 : Option (BitVec 64))
    (h : Onward x₀ s) :
    ∀ u, (execDebugRegisterAccess a0 a1 a2 a3 a4 s) = .next u → Onward x₀ u := by
  intro u e
  obtain rfl := Host.Outcome.next.inj e
  repeat' first
      | with_reducible assumption | intro _ | with_reducible apply Onward.debugRegister
      | with_reducible apply Onward.tick

theorem Onward.memDiffers (a0 : ℕ) (a1 : ℕ) (h : Onward x₀ s) :
    Onward x₀ (State.memDiffers a0 a1 s) := by
  unfold State.memDiffers
  extract_lets a s1
  have h1 : Onward x₀ s1 := .onAgr _ h rfl
  exact .ite (.raise _ _ _ _ _ (.onPair _ _ h1 fun p hp => p.memWf_copyWord _ _ hp)) (.blockPair _ (.raise _ _ _ _ _ h1))

theorem Onward.compareBlock (a0 : ℕ) (h : Onward x₀ s) :
    Onward x₀ (State.compareBlock a0 s) := by
  dsimp only [State.compareBlock]
  repeat' first
      | with_reducible assumption | intro _ | with_reducible apply Onward.ite | with_reducible apply Onward.fst_ite
      | with_reducible apply Onward.snd_ite | with_reducible apply Onward.forL | with_reducible apply Onward.forL_fst
      | with_reducible apply Onward.memDiffers | rfl | split

theorem Onward.memUncorrectable (a0 : ℕ) (a1 : Bool) (a2 : Bool) (h : Onward x₀ s) :
    Onward x₀ (State.memUncorrectable a0 a1 a2 s) := by
  unfold State.memUncorrectable
  extract_lets k
  refine .ite (.raise _ _ _ _ _ h) (.ite (.raise _ _ _ _ _ ?_) h)
  split
  · exact h
  · exact .onPair _ _ h fun p hp => p.memWf_copyWord _ _ hp

end Sys2Proof.Machine
end

