-- ==== Sys2Proof/Laws/OnwardOutputs.lean ====
section
/-! SUPPORT. What Outputs.lean keeps (Laws/Onward.lean). -/

namespace Sys2Proof.Machine

variable {x₀ s : State}

theorem Onward.darkAborts (h : Onward x₀ s) :
    Onward x₀ (State.darkAborts s) := by
  dsimp only [State.darkAborts]
  repeat' first
      | with_reducible assumption | intro _ | with_reducible apply Onward.ite | with_reducible apply Onward.fst_ite
      | with_reducible apply Onward.snd_ite | with_reducible apply Onward.onSog

end Sys2Proof.Machine
end

