-- ==== Sys2Proof/Laws/OnwardDriveRecord.lean ====
section
/-! SUPPORT. What DriveRecord.lean keeps (Laws/Onward.lean). -/

namespace Sys2Proof.Machine

variable {x₀ s : State}

theorem Onward.onAxis (a0 : ℕ) (a1 : Axis → Axis) (h : Onward x₀ s) :
    Onward x₀ (State.onAxis a0 a1 s) := by
  dsimp only [State.onAxis]
  repeat' first | with_reducible assumption | intro _ | with_reducible apply Onward.onAxs

theorem Onward.axFail (a0 : ℕ) (a1 : ℕ) (a2 : ℕ) (h : Onward x₀ s) :
    Onward x₀ (State.axFail a0 a1 a2 s) := by
  dsimp only [State.axFail]
  repeat' first
      | with_reducible assumption | intro _ | with_reducible apply Onward.ite | with_reducible apply Onward.fst_ite
      | with_reducible apply Onward.snd_ite | with_reducible apply Onward.raise | with_reducible apply Onward.onAxis

theorem Onward.takeRecord (a0 : ℕ) (a1 : ℕ) (a2 : DriveRec) (h : Onward x₀ s) :
    Onward x₀ (State.takeRecord a0 a1 a2 s) := by
  dsimp only [State.takeRecord]
  repeat' first
      | with_reducible assumption | intro _ | with_reducible apply Onward.ite | with_reducible apply Onward.fst_ite
      | with_reducible apply Onward.snd_ite | with_reducible apply Onward.onAxis | with_reducible apply Onward.axFail

theorem Onward.takeDrives (a0 : ℕ) (a1 : ℕ) (a2 : List Byte) (h : Onward x₀ s) :
    Onward x₀ (State.takeDrives a0 a1 a2 s) := by
  dsimp only [State.takeDrives]
  repeat' first
      | with_reducible assumption | intro _ | with_reducible apply Onward.forL | with_reducible apply Onward.forL_fst
      | with_reducible apply Onward.takeRecord | rfl | split

end Sys2Proof.Machine
end

