-- ==== Sys2Proof/Laws/OnwardSafeFrames.lean ====
section
/-! SUPPORT. What SafeFrames.lean keeps (Laws/Onward.lean). -/

namespace Sys2Proof.Machine

variable {x₀ s : State}

theorem Onward.onCons (a0 : ℕ) (a1 : Cons → Cons) (h : Onward x₀ s) :
    Onward x₀ (State.onCons a0 a1 s) := by
  dsimp only [State.onCons]
  repeat' first | with_reducible assumption | intro _ | with_reducible apply Onward.onSfr

theorem Onward.onProd (a0 : ℕ) (a1 : Prod → Prod) (h : Onward x₀ s) :
    Onward x₀ (State.onProd a0 a1 s) := by
  dsimp only [State.onProd]
  repeat' first | with_reducible assumption | intro _ | with_reducible apply Onward.onSfr

theorem Onward.enterSetup (a0 : ℕ) (h : Onward x₀ s) :
    Onward x₀ (State.enterSetup a0 s) := by
  dsimp only [State.enterSetup]
  repeat' first | with_reducible assumption | intro _ | with_reducible apply Onward.onCons

theorem Onward.raiseBadFields (a0 : ℕ) (a1 : ConsCfg) (a2 : List Byte) (h : Onward x₀ s) :
    Onward x₀ (State.raiseBadFields a0 a1 a2 s) := by
  dsimp only [State.raiseBadFields]
  repeat' first
      | with_reducible assumption | intro _ | with_reducible apply Onward.ite | with_reducible apply Onward.fst_ite
      | with_reducible apply Onward.snd_ite | with_reducible apply Onward.forL | with_reducible apply Onward.forL_fst
      | with_reducible apply Onward.raise

theorem Onward.actOn (a0 : ℕ) (a1 : ConsCfg) (a2 : FrameHead) (a3 : List Byte) (a4 : Decision) (h : Onward x₀ s) :
    Onward x₀ (State.actOn a0 a1 a2 a3 a4 s) := by
  dsimp only [State.actOn]
  repeat' first
      | with_reducible assumption | intro _ | with_reducible apply Onward.onCons | with_reducible apply Onward.onSfr
      | with_reducible apply Onward.raise | with_reducible apply Onward.enterSetup
      | with_reducible apply Onward.takeDrives | with_reducible apply Onward.raiseBadFields
      | with_reducible apply Onward.cond | rfl | split

theorem Onward.receiveData (a0 : List Byte) (a1 : List Byte) (h : Onward x₀ s) :
    Onward x₀ (State.receiveData a0 a1 s) := by
  dsimp only [State.receiveData]
  repeat' first
      | with_reducible assumption | intro _ | with_reducible apply Onward.ite | with_reducible apply Onward.fst_ite
      | with_reducible apply Onward.snd_ite | with_reducible apply Onward.raise | with_reducible apply Onward.actOn
      | rfl | split

theorem Onward.execSafeFrameReceived (a0 : ℕ) (a1 : List Byte) (a2 : List Byte) (h : Onward x₀ s) :
    ∀ u, (execSafeFrameReceived a0 a1 a2 s) = .next u → Onward x₀ u := by
  intro u e
  obtain rfl := Host.Outcome.next.inj e
  repeat' first
      | with_reducible assumption | intro _ | with_reducible apply Onward.receiveData
      | with_reducible apply Onward.tick

theorem Onward.setupTimeout (a0 : ℕ) (h : Onward x₀ s) :
    Onward x₀ (State.setupTimeout a0 s) := by
  dsimp only [State.setupTimeout]
  repeat' first
      | with_reducible assumption | intro _ | with_reducible apply Onward.ite | with_reducible apply Onward.fst_ite
      | with_reducible apply Onward.snd_ite | with_reducible apply Onward.cond | with_reducible apply Onward.onCons
      | rfl | split

theorem Onward.execSetupTimeout (a0 : ℕ) (a1 : Fin 128) (h : Onward x₀ s) :
    ∀ u, (execSetupTimeout a0 a1 s) = .next u → Onward x₀ u := by
  intro u e
  obtain rfl := Host.Outcome.next.inj e
  repeat' first
      | with_reducible assumption | intro _ | with_reducible apply Onward.setupTimeout
      | with_reducible apply Onward.tick

theorem Onward.judgeSessions (h : Onward x₀ s) :
    Onward x₀ (State.judgeSessions s) := by
  dsimp only [State.judgeSessions]
  repeat' first
      | with_reducible assumption | intro _ | with_reducible apply Onward.forL | with_reducible apply Onward.forL_fst
      | with_reducible apply Onward.onCons | with_reducible apply Onward.cond

theorem Onward.sendFrame (a0 : ℕ) (a1 : ProdCfg) (h : Onward x₀ s) :
    Onward x₀ (State.sendFrame a0 a1 s) := by
  dsimp only [State.sendFrame]
  repeat' first
      | with_reducible assumption | intro _ | with_reducible apply Onward.ite | with_reducible apply Onward.fst_ite
      | with_reducible apply Onward.snd_ite | with_reducible apply Onward.raise
      | with_reducible apply Onward.handPort6 | with_reducible apply Onward.onProd

theorem Onward.sendDue (a0 : ℕ) (h : Onward x₀ s) :
    Onward x₀ (State.sendDue a0 s) := by
  dsimp only [State.sendDue]
  repeat' first
      | with_reducible assumption | intro _ | with_reducible apply Onward.ite | with_reducible apply Onward.fst_ite
      | with_reducible apply Onward.snd_ite | with_reducible apply Onward.forL | with_reducible apply Onward.forL_fst
      | with_reducible apply Onward.sendFrame

theorem Onward.interjectField (a0 : Ch) (a1 : ℕ) (h : Onward x₀ s) :
    Onward x₀ (State.interjectField a0 a1 s) := by
  dsimp only [State.interjectField]
  repeat' first | with_reducible assumption | intro _ | with_reducible apply Onward.onProd | rfl | split

theorem Onward.extraFrame (a0 : ℕ) (h : Onward x₀ s) :
    Onward x₀ (State.extraFrame a0 s) := by
  dsimp only [State.extraFrame]
  repeat' first
      | with_reducible assumption | intro _ | with_reducible apply Onward.ite | with_reducible apply Onward.fst_ite
      | with_reducible apply Onward.snd_ite | with_reducible apply Onward.sendFrame
      | with_reducible apply Onward.onProd | rfl | split

theorem Onward.startProd (a0 : ℕ) (h : Onward x₀ s) :
    Onward x₀ (State.startProd a0 s) := by
  dsimp only [State.startProd]
  repeat' first
      | with_reducible assumption | intro _ | with_reducible apply Onward.draw | with_reducible apply Onward.onProd

theorem Onward.startSessions (h : Onward x₀ s) :
    Onward x₀ (State.startSessions s) := by
  dsimp only [State.startSessions]
  repeat' first
      | with_reducible assumption | intro _ | with_reducible apply Onward.forL | with_reducible apply Onward.forL_fst
      | with_reducible apply Onward.onSfr | with_reducible apply Onward.onCons | with_reducible apply Onward.cond
      | with_reducible apply Onward.startProd

theorem Onward.sfrRestart (a0 : Reader) (a1 : Word) (h : Onward x₀ s) :
    Onward x₀ (State.sfrRestart a0 a1 s).1 := by
  dsimp only [State.sfrRestart]
  repeat' first
      | with_reducible assumption | intro _ | with_reducible apply Onward.ite | with_reducible apply Onward.fst_ite
      | with_reducible apply Onward.snd_ite | with_reducible apply Onward.startProd
      | with_reducible apply Onward.enterSetup | with_reducible apply Onward.record

theorem Onward.execSfrRestart (a0 : ℕ) (a1 : Reader) (a2 : Word) (h : Onward x₀ s) :
    ∀ u, (execSfrRestart a0 a1 a2 s) = .next u → Onward x₀ u := by
  intro u e
  obtain rfl := Host.Outcome.next.inj e
  repeat' first
      | with_reducible assumption | intro _ | with_reducible apply Onward.wt | with_reducible apply Onward.sfrRestart
      | with_reducible apply Onward.tick

theorem Onward.sfrCtrClear (a0 : Word) (h : Onward x₀ s) :
    Onward x₀ (State.sfrCtrClear a0 s).1 := by
  dsimp only [State.sfrCtrClear]
  repeat' first
      | with_reducible assumption | intro _ | with_reducible apply Onward.ite | with_reducible apply Onward.fst_ite
      | with_reducible apply Onward.snd_ite | with_reducible apply Onward.onSfr

theorem Onward.execSfrCtrClear (a0 : ℕ) (a1 : Reader) (a2 : Word) (h : Onward x₀ s) :
    ∀ u, (execSfrCtrClear a0 a1 a2 s) = .next u → Onward x₀ u := by
  intro u e
  obtain rfl := Host.Outcome.next.inj e
  repeat' first
      | with_reducible assumption | intro _ | with_reducible apply Onward.wt | with_reducible apply Onward.sfrCtrClear
      | with_reducible apply Onward.tick

end Sys2Proof.Machine
end

