-- ==== Sys2Proof/Laws/OnwardEncoder.lean ====
section
/-! SUPPORT. What Encoder.lean keeps (Laws/Onward.lean). -/

namespace Sys2Proof.Machine

variable {x₀ s : State}

theorem Onward.onEnc (a0 : ℕ) (a1 : Encoder → Encoder) (h : Onward x₀ s) :
    Onward x₀ (State.onEnc a0 a1 s) := by
  dsimp only [State.onEnc]
  repeat' first | with_reducible assumption | intro _ | with_reducible apply Onward.onMea

theorem Onward.encFail (a0 : ℕ) (a1 : ℕ) (a2 : Bool) (h : Onward x₀ s) :
    Onward x₀ (State.encFail a0 a1 a2 s) := by
  dsimp only [State.encFail]
  repeat' first
      | with_reducible assumption | intro _ | with_reducible apply Onward.ite | with_reducible apply Onward.fst_ite
      | with_reducible apply Onward.snd_ite | with_reducible apply Onward.raise | with_reducible apply Onward.onEnc

theorem Onward.encSample (a0 : ℕ) (a1 : BitVec 20) (a2 : BitVec 20) (h : Onward x₀ s) :
    Onward x₀ (State.encSample a0 a1 a2 s) := by
  dsimp only [State.encSample]
  repeat' first
      | with_reducible assumption | intro _ | with_reducible apply Onward.ite | with_reducible apply Onward.fst_ite
      | with_reducible apply Onward.snd_ite | with_reducible apply Onward.onEnc | with_reducible apply Onward.encFail

theorem Onward.execEncoderSample (a0 : ℕ) (a1 : Fin 16) (a2 : BitVec 20) (a3 : BitVec 20) (h : Onward x₀ s) :
    ∀ u, (execEncoderSample a0 a1 a2 a3 s) = .next u → Onward x₀ u := by
  intro u e
  obtain rfl := Host.Outcome.next.inj e
  repeat' first
      | with_reducible assumption | intro _ | with_reducible apply Onward.encSample | with_reducible apply Onward.tick

theorem Onward.quadrantMove (a0 : ℕ) (a1 : Bool) (a2 : Bool) (h : Onward x₀ s) :
    Onward x₀ (State.quadrantMove a0 a1 a2 s) := by
  dsimp only [State.quadrantMove]
  repeat' first
      | with_reducible assumption | intro _ | with_reducible apply Onward.ite | with_reducible apply Onward.fst_ite
      | with_reducible apply Onward.snd_ite | with_reducible apply Onward.encFail | with_reducible apply Onward.onEnc

theorem Onward.execQuadrantCounterTransition (a0 : ℕ) (a1 : Fin 16) (a2 : Bool) (a3 : Bool) (h : Onward x₀ s) :
    ∀ u, (execQuadrantCounterTransition a0 a1 a2 a3 s) = .next u → Onward x₀ u := by
  intro u e
  obtain rfl := Host.Outcome.next.inj e
  repeat' first
      | with_reducible assumption | intro _ | with_reducible apply Onward.quadrantMove
      | with_reducible apply Onward.tick

theorem Onward.clearedEnc (a0 : ℕ) (h : Onward x₀ s) :
    Onward x₀ (State.clearedEnc a0 s) := by
  dsimp only [State.clearedEnc]
  repeat' first
      | with_reducible assumption | intro _ | with_reducible apply Onward.ite | with_reducible apply Onward.fst_ite
      | with_reducible apply Onward.snd_ite | with_reducible apply Onward.onMea

theorem Onward.reference (a0 : ℕ) (a1 : Bool) (h : Onward x₀ s) :
    Onward x₀ (State.reference a0 a1 s) := by
  dsimp only [State.reference]
  repeat' first
      | with_reducible assumption | intro _ | with_reducible apply Onward.ite | with_reducible apply Onward.fst_ite
      | with_reducible apply Onward.snd_ite | with_reducible apply Onward.forL | with_reducible apply Onward.forL_fst
      | with_reducible apply Onward.onAxis | with_reducible apply Onward.axFail

theorem Onward.onAin (a0 : ℕ) (a1 : Analogue → Analogue) (h : Onward x₀ s) :
    Onward x₀ (State.onAin a0 a1 s) := by
  dsimp only [State.onAin]
  repeat' first | with_reducible assumption | intro _ | with_reducible apply Onward.onMea

theorem Onward.ainFail (a0 : ℕ) (a1 : ℕ) (h : Onward x₀ s) :
    Onward x₀ (State.ainFail a0 a1 s) := by
  dsimp only [State.ainFail]
  repeat' first
      | with_reducible assumption | intro _ | with_reducible apply Onward.ite | with_reducible apply Onward.fst_ite
      | with_reducible apply Onward.snd_ite | with_reducible apply Onward.raise | with_reducible apply Onward.onAin

theorem Onward.ainSample (a0 : ℕ) (a1 : BitVec 20) (a2 : BitVec 20) (h : Onward x₀ s) :
    Onward x₀ (State.ainSample a0 a1 a2 s) := by
  dsimp only [State.ainSample]
  repeat' first
      | with_reducible assumption | intro _ | with_reducible apply Onward.ite | with_reducible apply Onward.fst_ite
      | with_reducible apply Onward.snd_ite | with_reducible apply Onward.onAin | with_reducible apply Onward.ainFail

theorem Onward.execAnalogueSample (a0 : ℕ) (a1 : Fin 8) (a2 : BitVec 20) (a3 : BitVec 20) (h : Onward x₀ s) :
    ∀ u, (execAnalogueSample a0 a1 a2 a3 s) = .next u → Onward x₀ u := by
  intro u e
  obtain rfl := Host.Outcome.next.inj e
  repeat' first
      | with_reducible assumption | intro _ | with_reducible apply Onward.ainSample | with_reducible apply Onward.tick

theorem Onward.ainTimeout (a0 : ℕ) (h : Onward x₀ s) :
    Onward x₀ (State.ainTimeout a0 s) := by
  dsimp only [State.ainTimeout]
  repeat' first
      | with_reducible assumption | intro _ | with_reducible apply Onward.ite | with_reducible apply Onward.fst_ite
      | with_reducible apply Onward.snd_ite | with_reducible apply Onward.ainFail | rfl | split

theorem Onward.execAnalogueDiscrepancyTimeout (a0 : ℕ) (a1 : Fin 8) (h : Onward x₀ s) :
    ∀ u, (execAnalogueDiscrepancyTimeout a0 a1 s) = .next u → Onward x₀ u := by
  intro u e
  obtain rfl := Host.Outcome.next.inj e
  repeat' first
      | with_reducible assumption | intro _ | with_reducible apply Onward.ainTimeout
      | with_reducible apply Onward.tick

theorem Onward.clearedAin (a0 : ℕ) (h : Onward x₀ s) :
    Onward x₀ (State.clearedAin a0 s) := by
  dsimp only [State.clearedAin]
  repeat' first | with_reducible assumption | intro _ | with_reducible apply Onward.onMea

theorem Onward.meaCtrClear (a0 : Word) (h : Onward x₀ s) :
    Onward x₀ (State.meaCtrClear a0 s).1 := by
  dsimp only [State.meaCtrClear]
  repeat' first
      | with_reducible assumption | intro _ | with_reducible apply Onward.ite | with_reducible apply Onward.fst_ite
      | with_reducible apply Onward.snd_ite | with_reducible apply Onward.onMea

theorem Onward.execMeaCtrClear (a0 : ℕ) (a1 : Reader) (a2 : Word) (h : Onward x₀ s) :
    ∀ u, (execMeaCtrClear a0 a1 a2 s) = .next u → Onward x₀ u := by
  intro u e
  obtain rfl := Host.Outcome.next.inj e
  repeat' first
      | with_reducible assumption | intro _ | with_reducible apply Onward.wt | with_reducible apply Onward.meaCtrClear
      | with_reducible apply Onward.tick

end Sys2Proof.Machine
end

