-- ==== Sys2Proof/Laws/OnwardInterject.lean ====
section
/-! SUPPORT. What Interject.lean keeps (Laws/Onward.lean). -/

namespace Sys2Proof.Machine

variable {x₀ s : State}

theorem Onward.annotate (a0 : ℕ × ℕ) (h : Onward x₀ s) :
    Onward x₀ (State.annotate a0 s) := by
  dsimp only [State.annotate]
  repeat' first
      | with_reducible assumption | intro _ | with_reducible apply Onward.ite | with_reducible apply Onward.fst_ite
      | with_reducible apply Onward.snd_ite | with_reducible apply Onward.onSys | with_reducible apply Onward.framed

theorem Onward.actIn (a0 : IntjEntry) (a1 : Ch) (h : Onward x₀ s) :
    Onward x₀ (State.actIn a0 a1 s) := by
  dsimp only [State.actIn]
  repeat' first
      | with_reducible assumption | intro _ | with_reducible apply Onward.forL | with_reducible apply Onward.forL_fst
      | with_reducible apply Onward.onSto | with_reducible apply Onward.onSog | with_reducible apply Onward.onFab
      | with_reducible apply Onward.interjectField

theorem Onward.interject (a0 : List Ch) (a1 : IntjEntry) (h : Onward x₀ s) :
    Onward x₀ (State.interject a0 a1 s) := by
  dsimp only [State.interject]
  repeat' first
      | with_reducible assumption | intro _ | with_reducible apply Onward.forL | with_reducible apply Onward.forL_fst
      | with_reducible apply Onward.actIn | with_reducible apply Onward.extraFrame | with_reducible apply Onward.onPwr
      | with_reducible apply Onward.record | with_reducible apply Onward.darkAborts
      | with_reducible apply Onward.annotate

theorem Onward.trigger (a0 : List Ch) (a1 : ℕ) (h : Onward x₀ s) :
    Onward x₀ (State.trigger a0 a1 s) := by
  dsimp only [State.trigger]
  repeat' first
      | with_reducible assumption | intro _ | with_reducible apply Onward.ite | with_reducible apply Onward.fst_ite
      | with_reducible apply Onward.snd_ite | with_reducible apply Onward.forL | with_reducible apply Onward.forL_fst
      | with_reducible apply Onward.interject

end Sys2Proof.Machine
end

