-- ==== Sys2Proof/Laws/OnwardAxes.lean ====
section
/-! SUPPORT. What Axes.lean keeps (Laws/Onward.lean). -/

namespace Sys2Proof.Machine

variable {x₀ s : State}

theorem Onward.onAxFn (a0 : ℕ) (a1 : AxFn → AxFn) (h : Onward x₀ s) :
    Onward x₀ (State.onAxFn a0 a1 s) := by
  dsimp only [State.onAxFn]
  repeat' first | with_reducible assumption | intro _ | with_reducible apply Onward.onAxs

theorem Onward.adopt (a0 : ℕ) (h : Onward x₀ s) :
    Onward x₀ (State.adopt a0 s) := by
  dsimp only [State.adopt]
  repeat' first
      | with_reducible assumption | intro _ | with_reducible apply Onward.ite | with_reducible apply Onward.fst_ite
      | with_reducible apply Onward.snd_ite | with_reducible apply Onward.onAxis | with_reducible apply Onward.onEnc
      | rfl | split

theorem Onward.checkRecord (a0 : ℕ) (h : Onward x₀ s) :
    Onward x₀ (State.checkRecord a0 s) := by
  dsimp only [State.checkRecord]
  repeat' first
      | with_reducible assumption | intro _ | with_reducible apply Onward.ite | with_reducible apply Onward.fst_ite
      | with_reducible apply Onward.snd_ite | with_reducible apply Onward.axFail | with_reducible apply Onward.onAxis
      | rfl | split

theorem Onward.takeSources (a0 : ℕ) (h : Onward x₀ s) :
    Onward x₀ (State.takeSources a0 s) := by
  dsimp only [State.takeSources]
  repeat' first
      | with_reducible assumption | intro _ | with_reducible apply Onward.ite | with_reducible apply Onward.fst_ite
      | with_reducible apply Onward.snd_ite | with_reducible apply Onward.onAxis

theorem Onward.compare (a0 : ℕ) (a1 : DriveRec) (a2 : ℤ) (h : Onward x₀ s) :
    Onward x₀ (State.compare a0 a1 a2 s) := by
  dsimp only [State.compare]
  repeat' first
      | with_reducible assumption | intro _ | with_reducible apply Onward.ite | with_reducible apply Onward.fst_ite
      | with_reducible apply Onward.snd_ite | with_reducible apply Onward.onAxs | with_reducible apply Onward.onAxis
      | with_reducible apply Onward.raise

theorem Onward.crossCheck (a0 : ℕ) (h : Onward x₀ s) :
    Onward x₀ (State.crossCheck a0 s) := by
  dsimp only [State.crossCheck]
  repeat' first
      | with_reducible assumption | intro _ | with_reducible apply Onward.ite | with_reducible apply Onward.fst_ite
      | with_reducible apply Onward.snd_ite | with_reducible apply Onward.onAxis | with_reducible apply Onward.compare
      | rfl | split

theorem Onward.followSpeed (a0 : ℕ) (h : Onward x₀ s) :
    Onward x₀ (State.followSpeed a0 s) := by
  dsimp only [State.followSpeed]
  repeat' first
      | with_reducible assumption | intro _ | with_reducible apply Onward.ite | with_reducible apply Onward.fst_ite
      | with_reducible apply Onward.snd_ite | with_reducible apply Onward.onAxis

theorem Onward.stopStep (a0 : ℕ) (a1 : ℕ) (h : Onward x₀ s) :
    Onward x₀ (State.stopStep a0 a1 s) := by
  dsimp only [State.stopStep]
  repeat' first
      | with_reducible assumption | intro _ | with_reducible apply Onward.ite | with_reducible apply Onward.fst_ite
      | with_reducible apply Onward.snd_ite | with_reducible apply Onward.onAxis | with_reducible apply Onward.axFail
      | rfl | split

theorem Onward.awaitStops (a0 : ℕ) (a1 : ℕ) (h : Onward x₀ s) :
    Onward x₀ (State.awaitStops a0 a1 s) := by
  dsimp only [State.awaitStops]
  repeat' first
      | with_reducible assumption | intro _ | with_reducible apply Onward.ite | with_reducible apply Onward.fst_ite
      | with_reducible apply Onward.snd_ite | with_reducible apply Onward.forL | with_reducible apply Onward.forL_fst
      | with_reducible apply Onward.onAxFn

theorem Onward.demandSs1 (a0 : ℕ) (a1 : ℕ) (a2 : ℕ) (a3 : FnEntry) (h : Onward x₀ s) :
    Onward x₀ (State.demandSs1 a0 a1 a2 a3 s) := by
  dsimp only [State.demandSs1]
  repeat' first
      | with_reducible assumption | intro _ | with_reducible apply Onward.ite | with_reducible apply Onward.fst_ite
      | with_reducible apply Onward.snd_ite | with_reducible apply Onward.awaitStops
      | with_reducible apply Onward.onAxis

theorem Onward.zoneSto (a0 : ℕ) (h : Onward x₀ s) :
    Onward x₀ (State.zoneSto a0 s) := by
  dsimp only [State.zoneSto]
  repeat' first
      | with_reducible assumption | intro _ | with_reducible apply Onward.ite | with_reducible apply Onward.fst_ite
      | with_reducible apply Onward.snd_ite | with_reducible apply Onward.onAxis

theorem Onward.zoneReact (a0 : ℕ) (a1 : ℕ) (h : Onward x₀ s) :
    Onward x₀ (State.zoneReact a0 a1 s) := by
  dsimp only [State.zoneReact]
  repeat' first
      | with_reducible assumption | intro _ | with_reducible apply Onward.ite | with_reducible apply Onward.fst_ite
      | with_reducible apply Onward.snd_ite | with_reducible apply Onward.onAxis
      | with_reducible apply Onward.demandSs1 | with_reducible apply Onward.zoneSto | rfl | split

theorem Onward.violationReact (a0 : ℕ) (a1 : ℕ) (a2 : FnEntry) (h : Onward x₀ s) :
    Onward x₀ (State.violationReact a0 a1 a2 s) := by
  dsimp only [State.violationReact]
  repeat' first
      | with_reducible assumption | intro _ | with_reducible apply Onward.ite | with_reducible apply Onward.fst_ite
      | with_reducible apply Onward.snd_ite | with_reducible apply Onward.awaitStops
      | with_reducible apply Onward.onAxis | with_reducible apply Onward.demandSs1 | rfl | split

theorem Onward.monitorStep (a0 : ℕ) (a1 : ℕ) (a2 : FnEntry) (h : Onward x₀ s) :
    Onward x₀ (State.monitorStep a0 a1 a2 s) := by
  dsimp only [State.monitorStep]
  repeat' first
      | with_reducible assumption | intro _ | with_reducible apply Onward.ite | with_reducible apply Onward.fst_ite
      | with_reducible apply Onward.snd_ite | with_reducible apply Onward.onAxFn
      | with_reducible apply Onward.violationReact | with_reducible apply Onward.axFail

theorem Onward.publishWords (a0 : ℕ) (a1 : ℕ) (h : Onward x₀ s) :
    Onward x₀ (State.publishWords a0 a1 s) := by
  dsimp only [State.publishWords]
  repeat' first
      | with_reducible assumption | intro _ | with_reducible apply Onward.forL | with_reducible apply Onward.forL_fst
      | with_reducible apply Onward.onAxis | with_reducible apply Onward.trigger

theorem Onward.holdSto (a0 : ℕ) (h : Onward x₀ s) :
    Onward x₀ (State.holdSto a0 s) := by
  dsimp only [State.holdSto]
  repeat' first
      | with_reducible assumption | intro _ | with_reducible apply Onward.ite | with_reducible apply Onward.fst_ite
      | with_reducible apply Onward.snd_ite | with_reducible apply Onward.onSto

theorem Onward.wakeFns (a0 : ℕ) (h : Onward x₀ s) :
    Onward x₀ (State.wakeFns a0 s) := by
  dsimp only [State.wakeFns]
  repeat' first
      | with_reducible assumption | intro _ | with_reducible apply Onward.ite | with_reducible apply Onward.fst_ite
      | with_reducible apply Onward.snd_ite | with_reducible apply Onward.forL | with_reducible apply Onward.forL_fst
      | with_reducible apply Onward.onAxFn

theorem Onward.axisMeasure (a0 : ℕ) (h : Onward x₀ s) :
    Onward x₀ (State.axisMeasure a0 s) := by
  dsimp only [State.axisMeasure]
  repeat' first
      | with_reducible assumption | intro _ | with_reducible apply Onward.followSpeed
      | with_reducible apply Onward.crossCheck | with_reducible apply Onward.takeSources
      | with_reducible apply Onward.adopt | with_reducible apply Onward.checkRecord

theorem Onward.axisUpdate (a0 : ℕ) (a1 : ℕ) (h : Onward x₀ s) :
    Onward x₀ (State.axisUpdate a0 a1 s) := by
  dsimp only [State.axisUpdate]
  repeat' first
      | with_reducible assumption | intro _ | with_reducible apply Onward.forL | with_reducible apply Onward.forL_fst
      | with_reducible apply Onward.wakeFns | with_reducible apply Onward.stopStep
      | with_reducible apply Onward.zoneReact | with_reducible apply Onward.axisMeasure
      | with_reducible apply Onward.monitorStep | with_reducible apply Onward.holdSto
      | with_reducible apply Onward.publishWords

theorem Onward.periodicUpdate (h : Onward x₀ s) :
    Onward x₀ (State.periodicUpdate s) := by
  dsimp only [State.periodicUpdate]
  repeat' first
      | with_reducible assumption | intro _ | with_reducible apply Onward.ite | with_reducible apply Onward.fst_ite
      | with_reducible apply Onward.snd_ite | with_reducible apply Onward.forL | with_reducible apply Onward.forL_fst
      | with_reducible apply Onward.axisUpdate

theorem Onward.execPeriodicUpdate (a0 : ℕ) (h : Onward x₀ s) :
    ∀ u, (execPeriodicUpdate a0 s) = .next u → Onward x₀ u := by
  intro u e
  obtain rfl := Host.Outcome.next.inj e
  repeat' first
      | with_reducible assumption | intro _ | with_reducible apply Onward.periodicUpdate
      | with_reducible apply Onward.tick

theorem Onward.axisMissed (a0 : Ch) (a1 : ℕ) (h : Onward x₀ s) :
    Onward x₀ (State.axisMissed a0 a1 s) := by
  dsimp only [State.axisMissed]
  repeat' first
      | with_reducible assumption | intro _ | with_reducible apply Onward.ite | with_reducible apply Onward.fst_ite
      | with_reducible apply Onward.snd_ite | with_reducible apply Onward.axFail | with_reducible apply Onward.onAxis

theorem Onward.execAxisExchangeMissed (a0 : ℕ) (a1 : Ch) (a2 : Fin 16) (h : Onward x₀ s) :
    ∀ u, (execAxisExchangeMissed a0 a1 a2 s) = .next u → Onward x₀ u := by
  intro u e
  obtain rfl := Host.Outcome.next.inj e
  repeat' first
      | with_reducible assumption | intro _ | with_reducible apply Onward.axisMissed
      | with_reducible apply Onward.tick

theorem Onward.stoDemand (a0 : ℕ) (a1 : FnEntry) (a2 : AxIn) (h : Onward x₀ s) :
    Onward x₀ (State.stoDemand a0 a1 a2 s) := by
  dsimp only [State.stoDemand]
  repeat' first
      | with_reducible assumption | intro _ | with_reducible apply Onward.ite | with_reducible apply Onward.fst_ite
      | with_reducible apply Onward.snd_ite | with_reducible apply Onward.onAxFn | with_reducible apply Onward.onAxis

theorem Onward.ssDemand (a0 : ℕ) (a1 : ℕ) (a2 : ℤ) (a3 : FnEntry) (a4 : AxIn) (h : Onward x₀ s) :
    Onward x₀ (State.ssDemand a0 a1 a2 a3 a4 s) := by
  dsimp only [State.ssDemand]
  repeat' first
      | with_reducible assumption | intro _ | with_reducible apply Onward.ite | with_reducible apply Onward.fst_ite
      | with_reducible apply Onward.snd_ite | with_reducible apply Onward.onAxFn | with_reducible apply Onward.onAxis

theorem Onward.monitorDemand (a0 : FnEntry) (a1 : AxIn) (h : Onward x₀ s) :
    Onward x₀ (State.monitorDemand a0 a1 s) := by
  dsimp only [State.monitorDemand]
  repeat' first
      | with_reducible assumption | intro _ | with_reducible apply Onward.ite | with_reducible apply Onward.fst_ite
      | with_reducible apply Onward.snd_ite | with_reducible apply Onward.onAxFn

theorem Onward.returnAxis (a0 : ℕ) (h : Onward x₀ s) :
    Onward x₀ (State.returnAxis a0 s) := by
  dsimp only [State.returnAxis]
  repeat' first
      | with_reducible assumption | intro _ | with_reducible apply Onward.ite | with_reducible apply Onward.fst_ite
      | with_reducible apply Onward.snd_ite | with_reducible apply Onward.onAxis

theorem Onward.axisDemand (a0 : ℕ) (a1 : ℕ → NV) (a2 : ℕ → ℤ) (a3 : ℕ) (h : Onward x₀ s) :
    Onward x₀ (State.axisDemand a0 a1 a2 a3 s) := by
  dsimp only [State.axisDemand]
  repeat' first
      | with_reducible assumption | intro _ | with_reducible apply Onward.forL | with_reducible apply Onward.forL_fst
      | with_reducible apply Onward.stoDemand | with_reducible apply Onward.ssDemand
      | with_reducible apply Onward.monitorDemand | with_reducible apply Onward.publishWords
      | with_reducible apply Onward.returnAxis

theorem Onward.driveWords (h : Onward x₀ s) :
    Onward x₀ (State.driveWords s) := by
  dsimp only [State.driveWords]
  repeat' first
      | with_reducible assumption | intro _ | with_reducible apply Onward.forL | with_reducible apply Onward.forL_fst
      | with_reducible apply Onward.onProd | rfl | split

theorem Onward.demandUpdate (a0 : ℕ) (a1 : ℕ → NV) (h : Onward x₀ s) :
    Onward x₀ (State.demandUpdate a0 a1 s) := by
  dsimp only [State.demandUpdate]
  repeat' first
      | with_reducible assumption | intro _ | with_reducible apply Onward.ite | with_reducible apply Onward.fst_ite
      | with_reducible apply Onward.snd_ite | with_reducible apply Onward.forL | with_reducible apply Onward.forL_fst
      | with_reducible apply Onward.driveWords | with_reducible apply Onward.axisDemand

theorem Onward.clearedAxs (a0 : ℕ) (h : Onward x₀ s) :
    Onward x₀ (State.clearedAxs a0 s) := by
  dsimp only [State.clearedAxs]
  repeat' first
      | with_reducible assumption | intro _ | with_reducible apply Onward.ite | with_reducible apply Onward.fst_ite
      | with_reducible apply Onward.snd_ite | with_reducible apply Onward.onAxs

theorem Onward.axesBegin (a0 : Bool) (h : Onward x₀ s) :
    Onward x₀ (State.axesBegin a0 s) := by
  dsimp only [State.axesBegin]
  repeat' first
      | with_reducible assumption | intro _ | with_reducible apply Onward.forL | with_reducible apply Onward.forL_fst
      | with_reducible apply Onward.trigger | with_reducible apply Onward.onAxs

theorem Onward.axsCtrClear (a0 : Word) (h : Onward x₀ s) :
    Onward x₀ (State.axsCtrClear a0 s).1 := by
  dsimp only [State.axsCtrClear]
  repeat' first
      | with_reducible assumption | intro _ | with_reducible apply Onward.ite | with_reducible apply Onward.fst_ite
      | with_reducible apply Onward.snd_ite | with_reducible apply Onward.onAxs

theorem Onward.execAxsCtrClear (a0 : ℕ) (a1 : Reader) (a2 : Word) (h : Onward x₀ s) :
    ∀ u, (execAxsCtrClear a0 a1 a2 s) = .next u → Onward x₀ u := by
  intro u e
  obtain rfl := Host.Outcome.next.inj e
  repeat' first
      | with_reducible assumption | intro _ | with_reducible apply Onward.wt | with_reducible apply Onward.axsCtrClear
      | with_reducible apply Onward.tick

end Sys2Proof.Machine
end

