-- ==== Sys2Proof/Laws/OnwardSeparation.lean ====
section
/-! SUPPORT. What Separation.lean keeps (Laws/Onward.lean). -/

namespace Sys2Proof.Machine

variable {x₀ s : State}

theorem Onward.onSensor (a0 : ℕ) (a1 : Sensor → Sensor) (h : Onward x₀ s) :
    Onward x₀ (State.onSensor a0 a1 s) := by
  dsimp only [State.onSensor]
  repeat' first | with_reducible assumption | intro _ | with_reducible apply Onward.onSep

theorem Onward.onChain (a0 : ℕ) (a1 : ChainSt → ChainSt) (h : Onward x₀ s) :
    Onward x₀ (State.onChain a0 a1 s) := by
  dsimp only [State.onChain]
  repeat' first | with_reducible assumption | intro _ | with_reducible apply Onward.onSep

theorem Onward.sensorHealth (h : Onward x₀ s) :
    Onward x₀ (State.sensorHealth s) := by
  dsimp only [State.sensorHealth]
  repeat' first
      | with_reducible assumption | intro _ | with_reducible apply Onward.ite | with_reducible apply Onward.fst_ite
      | with_reducible apply Onward.snd_ite | with_reducible apply Onward.cond

theorem Onward.execSensorStale (a0 : ℕ) (a1 : Fin 8) (h : Onward x₀ s) :
    ∀ u, (execSensorStale a0 a1 s) = .next u → Onward x₀ u := by
  intro u e
  obtain rfl := Host.Outcome.next.inj e
  repeat' first
      | with_reducible assumption | intro _ | with_reducible apply Onward.sensorHealth
      | with_reducible apply Onward.tick

theorem Onward.acceptSensor (a0 : ℕ) (a1 : ℕ) (a2 : Bool) (a3 : Bool) (h : Onward x₀ s) :
    Onward x₀ (State.acceptSensor a0 a1 a2 a3 s) := by
  dsimp only [State.acceptSensor]
  repeat' first
      | with_reducible assumption | intro _ | with_reducible apply Onward.sensorHealth
      | with_reducible apply Onward.onSep | with_reducible apply Onward.onSensor

theorem Onward.rebuildStart (h : Onward x₀ s) :
    Onward x₀ (State.rebuildStart s) := by
  dsimp only [State.rebuildStart]
  repeat' first
      | with_reducible assumption | intro _ | with_reducible apply Onward.ite | with_reducible apply Onward.fst_ite
      | with_reducible apply Onward.snd_ite | with_reducible apply Onward.onSep | rfl | split

theorem Onward.execRebuildStart (a0 : ℕ) (h : Onward x₀ s) :
    ∀ u, (execRebuildStart a0 s) = .next u → Onward x₀ u := by
  intro u e
  obtain rfl := Host.Outcome.next.inj e
  repeat' first
      | with_reducible assumption | intro _ | with_reducible apply Onward.rebuildStart
      | with_reducible apply Onward.tick

theorem Onward.rebuildComplete (a0 : Ch) (h : Onward x₀ s) :
    Onward x₀ (State.rebuildComplete a0 s) := by
  dsimp only [State.rebuildComplete]
  repeat' first
      | with_reducible assumption | intro _ | with_reducible apply Onward.ite | with_reducible apply Onward.fst_ite
      | with_reducible apply Onward.snd_ite | with_reducible apply Onward.onSep

theorem Onward.execRebuildComplete (a0 : ℕ) (a1 : Ch) (h : Onward x₀ s) :
    ∀ u, (execRebuildComplete a0 a1 s) = .next u → Onward x₀ u := by
  intro u e
  obtain rfl := Host.Outcome.next.inj e
  repeat' first
      | with_reducible assumption | intro _ | with_reducible apply Onward.rebuildComplete
      | with_reducible apply Onward.tick

theorem Onward.rebuildOverrun (a0 : Ch) (h : Onward x₀ s) :
    Onward x₀ (State.rebuildOverrun a0 s) := by
  dsimp only [State.rebuildOverrun]
  repeat' first
      | with_reducible assumption | intro _ | with_reducible apply Onward.ite | with_reducible apply Onward.fst_ite
      | with_reducible apply Onward.snd_ite | with_reducible apply Onward.raise

theorem Onward.execRebuildOverrun (a0 : ℕ) (a1 : Ch) (h : Onward x₀ s) :
    ∀ u, (execRebuildOverrun a0 a1 s) = .next u → Onward x₀ u := by
  intro u e
  obtain rfl := Host.Outcome.next.inj e
  repeat' first
      | with_reducible assumption | intro _ | with_reducible apply Onward.rebuildOverrun
      | with_reducible apply Onward.tick

theorem Onward.updateLate (a0 : Ch) (h : Onward x₀ s) :
    Onward x₀ (State.updateLate a0 s) := by
  dsimp only [State.updateLate]
  repeat' first
      | with_reducible assumption | intro _ | with_reducible apply Onward.ite | with_reducible apply Onward.fst_ite
      | with_reducible apply Onward.snd_ite | with_reducible apply Onward.raise | with_reducible apply Onward.onSep
      | rfl | split

theorem Onward.updateOverrun (a0 : Ch) (h : Onward x₀ s) :
    Onward x₀ (State.updateOverrun a0 s) := by
  dsimp only [State.updateOverrun]
  repeat' first
      | with_reducible assumption | intro _ | with_reducible apply Onward.ite | with_reducible apply Onward.fst_ite
      | with_reducible apply Onward.snd_ite | with_reducible apply Onward.updateLate | rfl | split

theorem Onward.execSeparationUpdateOverrun (a0 : ℕ) (a1 : Ch) (h : Onward x₀ s) :
    ∀ u, (execSeparationUpdateOverrun a0 a1 s) = .next u → Onward x₀ u := by
  intro u e
  obtain rfl := Host.Outcome.next.inj e
  repeat' first
      | with_reducible assumption | intro _ | with_reducible apply Onward.updateOverrun
      | with_reducible apply Onward.tick

theorem Onward.sepClose (h : Onward x₀ s) :
    Onward x₀ (State.sepClose s) := by
  dsimp only [State.sepClose]
  repeat' first
      | with_reducible assumption | intro _ | with_reducible apply Onward.onSep
      | with_reducible apply Onward.updateLate | rfl | split

theorem Onward.sepBegin (a0 : ℕ) (h : Onward x₀ s) :
    Onward x₀ (State.sepBegin a0 s) := by
  dsimp only [State.sepBegin]
  repeat' first
      | with_reducible assumption | intro _ | with_reducible apply Onward.ite | with_reducible apply Onward.fst_ite
      | with_reducible apply Onward.snd_ite | with_reducible apply Onward.onSep | rfl | split

theorem Onward.chainFaults (a0 : ChainKin) (a1 : ℕ) (h : Onward x₀ s) :
    Onward x₀ (State.chainFaults a0 a1 s) := by
  dsimp only [State.chainFaults]
  repeat' first
      | with_reducible assumption | intro _ | with_reducible apply Onward.ite | with_reducible apply Onward.fst_ite
      | with_reducible apply Onward.snd_ite | with_reducible apply Onward.raise

theorem Onward.chainResult (a0 : Grid) (a1 : SepUpdate) (a2 : ℕ → ChainKin) (a3 : Bool) (a4 : ℕ) (h : Onward x₀ s) :
    Onward x₀ (State.chainResult a0 a1 a2 a3 a4 s) := by
  dsimp only [State.chainResult]
  repeat' first
      | with_reducible assumption | intro _ | with_reducible apply Onward.ite | with_reducible apply Onward.fst_ite
      | with_reducible apply Onward.snd_ite | with_reducible apply Onward.onChain | with_reducible apply Onward.raise

theorem Onward.sepFinish (a0 : Grid) (a1 : SepUpdate) (h : Onward x₀ s) :
    Onward x₀ (State.sepFinish a0 a1 s) := by
  dsimp only [State.sepFinish]
  repeat' first
      | with_reducible assumption | intro _ | with_reducible apply Onward.ite | with_reducible apply Onward.fst_ite
      | with_reducible apply Onward.snd_ite | with_reducible apply Onward.forL | with_reducible apply Onward.forL_fst
      | with_reducible apply Onward.onSep | with_reducible apply Onward.raise
      | with_reducible apply Onward.chainResult | with_reducible apply Onward.chainFaults

theorem Onward.updateComplete (a0 : Ch) (h : Onward x₀ s) :
    Onward x₀ (State.updateComplete a0 s) := by
  dsimp only [State.updateComplete]
  repeat' first
      | with_reducible assumption | intro _ | with_reducible apply Onward.ite | with_reducible apply Onward.fst_ite
      | with_reducible apply Onward.snd_ite | with_reducible apply Onward.onSep
      | with_reducible apply Onward.sepFinish | rfl | split

theorem Onward.execSeparationUpdateComplete (a0 : ℕ) (a1 : Ch) (h : Onward x₀ s) :
    ∀ u, (execSeparationUpdateComplete a0 a1 s) = .next u → Onward x₀ u := by
  intro u e
  obtain rfl := Host.Outcome.next.inj e
  repeat' first
      | with_reducible assumption | intro _ | with_reducible apply Onward.updateComplete
      | with_reducible apply Onward.tick

theorem Onward.sepRedo (a0 : Grid) (a1 : Ch) (a2 : ℕ) (h : Onward x₀ s) :
    Onward x₀ (State.sepRedo a0 a1 a2 s) := by
  dsimp only [State.sepRedo]
  repeat' first
      | with_reducible assumption | intro _ | with_reducible apply Onward.chainResult
      | with_reducible apply Onward.onSep | rfl | split

theorem Onward.sepMissed (a0 : Ch) (a1 : ℕ) (h : Onward x₀ s) :
    Onward x₀ (State.sepMissed a0 a1 s) := by
  dsimp only [State.sepMissed]
  repeat' first
      | with_reducible assumption | intro _ | with_reducible apply Onward.ite | with_reducible apply Onward.fst_ite
      | with_reducible apply Onward.snd_ite | with_reducible apply Onward.raise | with_reducible apply Onward.onSep
      | with_reducible apply Onward.sepRedo | rfl | split

theorem Onward.execSeparationExchangeMissed (a0 : ℕ) (a1 : Ch) (a2 : Fin 4) (h : Onward x₀ s) :
    ∀ u, (execSeparationExchangeMissed a0 a1 a2 s) = .next u → Onward x₀ u := by
  intro u e
  obtain rfl := Host.Outcome.next.inj e
  repeat' first
      | with_reducible assumption | intro _ | with_reducible apply Onward.sepMissed | with_reducible apply Onward.tick

theorem Onward.sepDemand (a0 : ℕ → NV) (h : Onward x₀ s) :
    Onward x₀ (State.sepDemand a0 s) := by
  dsimp only [State.sepDemand]
  repeat' first
      | with_reducible assumption | intro _ | with_reducible apply Onward.ite | with_reducible apply Onward.fst_ite
      | with_reducible apply Onward.snd_ite | with_reducible apply Onward.forL | with_reducible apply Onward.forL_fst
      | with_reducible apply Onward.onChain | rfl | split

theorem Onward.cleared372 (h : Onward x₀ s) :
    Onward x₀ (State.cleared372 s) := by
  dsimp only [State.cleared372]
  repeat' first | with_reducible assumption | intro _ | with_reducible apply Onward.onSep

theorem Onward.sepCtrClear (a0 : Word) (h : Onward x₀ s) :
    Onward x₀ (State.sepCtrClear a0 s).1 := by
  dsimp only [State.sepCtrClear]
  repeat' first
      | with_reducible assumption | intro _ | with_reducible apply Onward.ite | with_reducible apply Onward.fst_ite
      | with_reducible apply Onward.snd_ite | with_reducible apply Onward.onSep

theorem Onward.execSepCtrClear (a0 : ℕ) (a1 : Reader) (a2 : Word) (h : Onward x₀ s) :
    ∀ u, (execSepCtrClear a0 a1 a2 s) = .next u → Onward x₀ u := by
  intro u e
  obtain rfl := Host.Outcome.next.inj e
  repeat' first
      | with_reducible assumption | intro _ | with_reducible apply Onward.wt | with_reducible apply Onward.sepCtrClear
      | with_reducible apply Onward.tick

theorem Onward.kinCtrClear (a0 : Word) (h : Onward x₀ s) :
    Onward x₀ (State.kinCtrClear a0 s).1 := by
  dsimp only [State.kinCtrClear]
  repeat' first
      | with_reducible assumption | intro _ | with_reducible apply Onward.ite | with_reducible apply Onward.fst_ite
      | with_reducible apply Onward.snd_ite | with_reducible apply Onward.onSep

theorem Onward.execKinCtrClear (a0 : ℕ) (a1 : Reader) (a2 : Word) (h : Onward x₀ s) :
    ∀ u, (execKinCtrClear a0 a1 a2 s) = .next u → Onward x₀ u := by
  intro u e
  obtain rfl := Host.Outcome.next.inj e
  repeat' first
      | with_reducible assumption | intro _ | with_reducible apply Onward.wt | with_reducible apply Onward.kinCtrClear
      | with_reducible apply Onward.tick

end Sys2Proof.Machine
end

