-- ==== Sys2Proof/Laws/OnwardBulkFrames.lean ====
section
/-! SUPPORT. What BulkFrames.lean keeps (Laws/Onward.lean). -/

namespace Sys2Proof.Machine

variable {x₀ s : State}

theorem Onward.setAsm (a0 : ℕ) (a1 : Option Assembly) (a2 : Option Assembly) (h : Onward x₀ s) :
    Onward x₀ (State.setAsm a0 a1 a2 s) := by
  dsimp only [State.setAsm]
  repeat' first
      | with_reducible assumption | intro _ | with_reducible apply Onward.onSfr | with_reducible apply Onward.onSensor
      | rfl | split

theorem Onward.refuseSensor (a0 : ℕ) (h : Onward x₀ s) :
    Onward x₀ (State.refuseSensor a0 s) := by
  dsimp only [State.refuseSensor]
  repeat' first | with_reducible assumption | intro _ | with_reducible apply Onward.onSensor | rfl | split

theorem Onward.bulkAct (a0 : ℕ) (a1 : ConsCfg) (a2 : Decision) (a3 : Option Assembly) (h : Onward x₀ s) :
    Onward x₀ (State.bulkAct a0 a1 a2 a3 s) := by
  dsimp only [State.bulkAct]
  repeat' first
      | with_reducible assumption | intro _ | with_reducible apply Onward.ite | with_reducible apply Onward.fst_ite
      | with_reducible apply Onward.snd_ite | with_reducible apply Onward.actOn
      | with_reducible apply Onward.acceptSensor | with_reducible apply Onward.onSensor
      | with_reducible apply Onward.raise | with_reducible apply Onward.refuseSensor
      | with_reducible apply Onward.onCons | rfl | split

theorem Onward.refuseBulk (a0 : ℕ) (a1 : Option (ℕ × ℕ)) (h : Onward x₀ s) :
    Onward x₀ (State.refuseBulk a0 a1 s) := by
  dsimp only [State.refuseBulk]
  repeat' first | with_reducible assumption | intro _ | with_reducible apply Onward.onSfr | rfl | split

theorem Onward.receiveBulk (a0 : List Byte) (a1 : List Byte) (h : Onward x₀ s) :
    Onward x₀ (State.receiveBulk a0 a1 s) := by
  dsimp only [State.receiveBulk]
  repeat' first
      | with_reducible assumption | intro _ | with_reducible apply Onward.ite | with_reducible apply Onward.fst_ite
      | with_reducible apply Onward.snd_ite | with_reducible apply Onward.raise
      | with_reducible apply Onward.refuseSensor | with_reducible apply Onward.refuseBulk
      | with_reducible apply Onward.setAsm | with_reducible apply Onward.actOn | with_reducible apply Onward.bulkAct
      | rfl | split

theorem Onward.execBulkSegmentReceived (a0 : ℕ) (a1 : List Byte) (a2 : List Byte) (h : Onward x₀ s) :
    ∀ u, (execBulkSegmentReceived a0 a1 a2 s) = .next u → Onward x₀ u := by
  intro u e
  obtain rfl := Host.Outcome.next.inj e
  repeat' first
      | with_reducible assumption | intro _ | with_reducible apply Onward.receiveBulk
      | with_reducible apply Onward.tick

end Sys2Proof.Machine
end

