-- ==== Sys2Proof/Laws/OnwardBackbone.lean ====
section
/-! SUPPORT. What Backbone.lean keeps (Laws/Onward.lean). -/

namespace Sys2Proof.Machine

variable {x₀ s : State}

theorem Onward.frameIn (a0 : ℕ) (a1 : EthFrame) (h : Onward x₀ s) :
    Onward x₀ (State.frameIn a0 a1 s) := by
  dsimp only [State.frameIn]
  repeat' first
      | with_reducible assumption | intro _ | with_reducible apply Onward.ite | with_reducible apply Onward.fst_ite
      | with_reducible apply Onward.snd_ite | with_reducible apply Onward.forward | with_reducible apply Onward.onPort

theorem Onward.deliverSafe (a0 : EthFrame) (h : Onward x₀ s) :
    Onward x₀ (State.deliverSafe a0 s) := by
  dsimp only [State.deliverSafe]
  repeat' first
      | with_reducible assumption | intro _ | with_reducible apply Onward.ite | with_reducible apply Onward.fst_ite
      | with_reducible apply Onward.snd_ite | with_reducible apply Onward.receiveBulk
      | with_reducible apply Onward.receiveData

theorem Onward.frameReceive (a0 : ℕ) (a1 : EthFrame) (h : Onward x₀ s) :
    Onward x₀ (State.frameReceive a0 a1 s) := by
  dsimp only [State.frameReceive]
  repeat' first
      | with_reducible assumption | intro _ | with_reducible apply Onward.forL | with_reducible apply Onward.forL_fst
      | with_reducible apply Onward.frameIn | with_reducible apply Onward.deliverSafe

theorem Onward.execFrameReceive (a0 : ℕ) (a1 : Fin 7) (a2 : EthFrame) (h : Onward x₀ s) :
    ∀ u, (execFrameReceive a0 a1 a2 s) = .next u → Onward x₀ u := by
  intro u e
  obtain rfl := Host.Outcome.next.inj e
  repeat' first
      | with_reducible assumption | intro _ | with_reducible apply Onward.frameReceive
      | with_reducible apply Onward.tick

theorem Onward.linkUp (a0 : ℕ) (a1 : ℕ) (a2 : Bool) (h : Onward x₀ s) :
    Onward x₀ (State.linkUp a0 a1 a2 s) := by
  dsimp only [State.linkUp]
  repeat' first
      | with_reducible assumption | intro _ | with_reducible apply Onward.ite | with_reducible apply Onward.fst_ite
      | with_reducible apply Onward.snd_ite | with_reducible apply Onward.drainPort
      | with_reducible apply Onward.onPort

theorem Onward.execLinkUp (a0 : ℕ) (a1 : Fin 6) (a2 : ℕ) (a3 : Bool) (h : Onward x₀ s) :
    ∀ u, (execLinkUp a0 a1 a2 a3 s) = .next u → Onward x₀ u := by
  intro u e
  obtain rfl := Host.Outcome.next.inj e
  repeat' first
      | with_reducible assumption | intro _ | with_reducible apply Onward.linkUp | with_reducible apply Onward.tick

theorem Onward.fdbAge (a0 : ℕ) (a1 : BitVec 48) (h : Onward x₀ s) :
    Onward x₀ (State.fdbAge a0 a1 s) := by
  dsimp only [State.fdbAge]
  repeat' first | with_reducible assumption | intro _ | with_reducible apply Onward.onNet

theorem Onward.execFdbAgeing (a0 : ℕ) (a1 : ℕ) (a2 : BitVec 48) (h : Onward x₀ s) :
    ∀ u, (execFdbAgeing a0 a1 a2 s) = .next u → Onward x₀ u := by
  intro u e
  obtain rfl := Host.Outcome.next.inj e
  repeat' first
      | with_reducible assumption | intro _ | with_reducible apply Onward.fdbAge | with_reducible apply Onward.tick

theorem Onward.gateMove (a0 : ℕ) (h : Onward x₀ s) :
    Onward x₀ (State.gateMove a0 s) := by
  dsimp only [State.gateMove]
  repeat' first
      | with_reducible assumption | intro _ | with_reducible apply Onward.ite | with_reducible apply Onward.fst_ite
      | with_reducible apply Onward.snd_ite | with_reducible apply Onward.drainPort
      | with_reducible apply Onward.onPort

theorem Onward.execGateEntryChange (a0 : ℕ) (a1 : Fin 6) (h : Onward x₀ s) :
    ∀ u, (execGateEntryChange a0 a1 s) = .next u → Onward x₀ u := by
  intro u e
  obtain rfl := Host.Outcome.next.inj e
  repeat' first
      | with_reducible assumption | intro _ | with_reducible apply Onward.gateMove | with_reducible apply Onward.tick

theorem Onward.streamGateMove (a0 : ℕ) (h : Onward x₀ s) :
    Onward x₀ (State.streamGateMove a0 s) := by
  dsimp only [State.streamGateMove]
  repeat' first
      | with_reducible assumption | intro _ | with_reducible apply Onward.ite | with_reducible apply Onward.fst_ite
      | with_reducible apply Onward.snd_ite | with_reducible apply Onward.onNet

theorem Onward.execStreamGateChange (a0 : ℕ) (a1 : Fin 64) (h : Onward x₀ s) :
    ∀ u, (execStreamGateChange a0 a1 s) = .next u → Onward x₀ u := by
  intro u e
  obtain rfl := Host.Outcome.next.inj e
  repeat' first
      | with_reducible assumption | intro _ | with_reducible apply Onward.streamGateMove
      | with_reducible apply Onward.tick

theorem Onward.gatesOpen (h : Onward x₀ s) :
    Onward x₀ (State.gatesOpen s) := by
  dsimp only [State.gatesOpen]
  repeat' first
      | with_reducible assumption | intro _ | with_reducible apply Onward.forN
      | with_reducible apply Onward.streamGateMove | with_reducible apply Onward.gateMove

theorem Onward.cbSilent (a0 : ℕ) (a1 : ℕ) (h : Onward x₀ s) :
    Onward x₀ (State.cbSilent a0 a1 s) := by
  dsimp only [State.cbSilent]
  repeat' first
      | with_reducible assumption | intro _ | with_reducible apply Onward.ite | with_reducible apply Onward.fst_ite
      | with_reducible apply Onward.snd_ite | with_reducible apply Onward.raise

theorem Onward.execCbResetTimeout (a0 : ℕ) (a1 : Fin 256) (a2 : ℕ) (h : Onward x₀ s) :
    ∀ u, (execCbResetTimeout a0 a1 a2 s) = .next u → Onward x₀ u := by
  intro u e
  obtain rfl := Host.Outcome.next.inj e
  repeat' first
      | with_reducible assumption | intro _ | with_reducible apply Onward.cbSilent | with_reducible apply Onward.tick

theorem Onward.execLaneErrorRateHigh (a0 : ℕ) (a1 : Fin 6) (h : Onward x₀ s) :
    ∀ u, (execLaneErrorRateHigh a0 a1 s) = .next u → Onward x₀ u := by
  intro u e
  obtain rfl := Host.Outcome.next.inj e
  repeat' first
      | with_reducible assumption | intro _ | with_reducible apply Onward.raise | with_reducible apply Onward.tick

theorem Onward.arpAnswer (a0 : BitVec 32) (a1 : BitVec 48) (a2 : BitVec 32) (h : Onward x₀ s) :
    Onward x₀ (State.arpAnswer a0 a1 a2 s) := by
  dsimp only [State.arpAnswer]
  repeat' first
      | with_reducible assumption | intro _ | with_reducible apply Onward.ite | with_reducible apply Onward.fst_ite
      | with_reducible apply Onward.snd_ite | with_reducible apply Onward.handPort6

theorem Onward.execArpRequest (a0 : ℕ) (a1 : BitVec 32) (a2 : BitVec 48) (a3 : BitVec 32) (h : Onward x₀ s) :
    ∀ u, (execArpRequest a0 a1 a2 a3 s) = .next u → Onward x₀ u := by
  intro u e
  obtain rfl := Host.Outcome.next.inj e
  repeat' first
      | with_reducible assumption | intro _ | with_reducible apply Onward.arpAnswer | with_reducible apply Onward.tick

theorem Onward.neighbourAnswer (a0 : BitVec 128) (a1 : BitVec 48) (a2 : BitVec 128) (h : Onward x₀ s) :
    Onward x₀ (State.neighbourAnswer a0 a1 a2 s) := by
  dsimp only [State.neighbourAnswer]
  repeat' first
      | with_reducible assumption | intro _ | with_reducible apply Onward.ite | with_reducible apply Onward.fst_ite
      | with_reducible apply Onward.snd_ite | with_reducible apply Onward.handPort6

theorem Onward.execNeighbourSolicitation (a0 : ℕ) (a1 : BitVec 128) (a2 : BitVec 48) (a3 : BitVec 128)
    (h : Onward x₀ s) :
    ∀ u, (execNeighbourSolicitation a0 a1 a2 a3 s) = .next u → Onward x₀ u := by
  intro u e
  obtain rfl := Host.Outcome.next.inj e
  repeat' first
      | with_reducible assumption | intro _ | with_reducible apply Onward.neighbourAnswer
      | with_reducible apply Onward.tick

theorem Onward.echoAnswer (a0 : Ip) (a1 : Ip) (a2 : List Byte) (h : Onward x₀ s) :
    Onward x₀ (State.echoAnswer a0 a1 a2 s) := by
  dsimp only [State.echoAnswer]
  repeat' first
      | with_reducible assumption | intro _ | with_reducible apply Onward.ite | with_reducible apply Onward.fst_ite
      | with_reducible apply Onward.snd_ite | with_reducible apply Onward.handPort6 | rfl | split

theorem Onward.execIcmpEchoRequest (a0 : ℕ) (a1 : Ip) (a2 : Ip) (a3 : List Byte) (h : Onward x₀ s) :
    ∀ u, (execIcmpEchoRequest a0 a1 a2 a3 s) = .next u → Onward x₀ u := by
  intro u e
  obtain rfl := Host.Outcome.next.inj e
  repeat' first
      | with_reducible assumption | intro _ | with_reducible apply Onward.echoAnswer
      | with_reducible apply Onward.tick

theorem Onward.newGm (a0 : BitVec 64) (a1 : ℕ) (h : Onward x₀ s) :
    Onward x₀ (State.newGm a0 a1 s) := by
  dsimp only [State.newGm]
  repeat' first
      | with_reducible assumption | intro _ | with_reducible apply Onward.ite | with_reducible apply Onward.fst_ite
      | with_reducible apply Onward.snd_ite | with_reducible apply Onward.raise | with_reducible apply Onward.onTsy

theorem Onward.selectGm (a0 : Option Announce) (a1 : ℕ) (h : Onward x₀ s) :
    Onward x₀ (State.selectGm a0 a1 s) := by
  dsimp only [State.selectGm]
  repeat' first
      | with_reducible assumption | intro _ | with_reducible apply Onward.ite | with_reducible apply Onward.fst_ite
      | with_reducible apply Onward.snd_ite | with_reducible apply Onward.onTsy | with_reducible apply Onward.newGm

theorem Onward.bmca (h : Onward x₀ s) :
    Onward x₀ (State.bmca s) := by
  dsimp only [State.bmca]
  repeat' first
      | with_reducible assumption | intro _ | with_reducible apply Onward.ite | with_reducible apply Onward.fst_ite
      | with_reducible apply Onward.snd_ite | with_reducible apply Onward.selectGm | rfl | split

theorem Onward.takeRole (h : Onward x₀ s) :
    Onward x₀ (State.takeRole s) := by
  dsimp only [State.takeRole]
  repeat' first
      | with_reducible assumption | intro _ | with_reducible apply Onward.selectGm | with_reducible apply Onward.onTsy
      | with_reducible apply Onward.newGm | rfl | split

theorem Onward.firstRole (h : Onward x₀ s) :
    Onward x₀ (State.firstRole s) := by
  dsimp only [State.firstRole]
  repeat' first
      | with_reducible assumption | intro _ | with_reducible apply Onward.ite | with_reducible apply Onward.fst_ite
      | with_reducible apply Onward.snd_ite | with_reducible apply Onward.onTsy

theorem Onward.announce (a0 : ℕ) (a1 : Announce) (h : Onward x₀ s) :
    Onward x₀ (State.announce a0 a1 s) := by
  dsimp only [State.announce]
  repeat' first
      | with_reducible assumption | intro _ | with_reducible apply Onward.ite | with_reducible apply Onward.fst_ite
      | with_reducible apply Onward.snd_ite | with_reducible apply Onward.raise | with_reducible apply Onward.onTsy
      | with_reducible apply Onward.bmca | with_reducible apply Onward.onPort | with_reducible apply Onward.newGm
      | rfl | split

theorem Onward.execAnnounceReceived (a0 : ℕ) (a1 : Fin 6) (a2 : Announce) (h : Onward x₀ s) :
    ∀ u, (execAnnounceReceived a0 a1 a2 s) = .next u → Onward x₀ u := by
  intro u e
  obtain rfl := Host.Outcome.next.inj e
  repeat' first
      | with_reducible assumption | intro _ | with_reducible apply Onward.announce | with_reducible apply Onward.tick

theorem Onward.ptp (a0 : ℕ) (a1 : Byte) (a2 : List Byte) (h : Onward x₀ s) :
    Onward x₀ (State.ptp a0 a1 a2 s) := by
  dsimp only [State.ptp]
  repeat' first | with_reducible assumption | intro _ | with_reducible apply Onward.sendOn

theorem Onward.linkDown (a0 : ℕ) (h : Onward x₀ s) :
    Onward x₀ (State.linkDown a0 s) := by
  dsimp only [State.linkDown]
  repeat' first
      | with_reducible assumption | intro _ | with_reducible apply Onward.ite | with_reducible apply Onward.fst_ite
      | with_reducible apply Onward.snd_ite | with_reducible apply Onward.onPort | with_reducible apply Onward.bmca
      | with_reducible apply Onward.raise

theorem Onward.execLinkDown (a0 : ℕ) (a1 : Fin 6) (h : Onward x₀ s) :
    ∀ u, (execLinkDown a0 a1 s) = .next u → Onward x₀ u := by
  intro u e
  obtain rfl := Host.Outcome.next.inj e
  repeat' first
      | with_reducible assumption | intro _ | with_reducible apply Onward.linkDown | with_reducible apply Onward.tick

theorem Onward.portRestart (a0 : ℕ) (h : Onward x₀ s) :
    Onward x₀ (State.portRestart a0 s) := by
  dsimp only [State.portRestart]
  repeat' first
      | with_reducible assumption | intro _ | with_reducible apply Onward.ite | with_reducible apply Onward.fst_ite
      | with_reducible apply Onward.snd_ite | with_reducible apply Onward.linkDown

theorem Onward.netRestart (a0 : Blocks) (h : Onward x₀ s) :
    Onward x₀ (State.netRestart a0 s) := by
  dsimp only [State.netRestart]
  repeat' first
      | with_reducible assumption | intro _ | with_reducible apply Onward.ite | with_reducible apply Onward.fst_ite
      | with_reducible apply Onward.snd_ite | with_reducible apply Onward.forN
      | with_reducible apply Onward.portRestart | with_reducible apply Onward.takeRole

theorem Onward.pdelayReq (a0 : ℕ) (a1 : ℕ) (h : Onward x₀ s) :
    Onward x₀ (State.pdelayReq a0 a1 s) := by
  dsimp only [State.pdelayReq]
  repeat' first
      | with_reducible assumption | intro _ | with_reducible apply Onward.ite | with_reducible apply Onward.fst_ite
      | with_reducible apply Onward.snd_ite | with_reducible apply Onward.ptp

theorem Onward.execPdelayReqReceived (a0 : ℕ) (a1 : Fin 6) (a2 : ℕ) (h : Onward x₀ s) :
    ∀ u, (execPdelayReqReceived a0 a1 a2 s) = .next u → Onward x₀ u := by
  intro u e
  obtain rfl := Host.Outcome.next.inj e
  repeat' first
      | with_reducible assumption | intro _ | with_reducible apply Onward.pdelayReq | with_reducible apply Onward.tick

theorem Onward.pdelayResp (a0 : ℕ) (a1 : ℕ) (a2 : ℕ) (a3 : ℕ) (a4 : ℕ) (h : Onward x₀ s) :
    Onward x₀ (State.pdelayResp a0 a1 a2 a3 a4 s) := by
  dsimp only [State.pdelayResp]
  repeat' first
      | with_reducible assumption | intro _ | with_reducible apply Onward.ite | with_reducible apply Onward.fst_ite
      | with_reducible apply Onward.snd_ite | with_reducible apply Onward.onPort | with_reducible apply Onward.bmca

theorem Onward.execPdelayRespReceived (a0 : ℕ) (a1 : Fin 6) (a2 : ℕ) (a3 : ℕ) (a4 : ℕ) (a5 : ℕ) (h : Onward x₀ s) :
    ∀ u, (execPdelayRespReceived a0 a1 a2 a3 a4 a5 s) = .next u → Onward x₀ u := by
  intro u e
  obtain rfl := Host.Outcome.next.inj e
  repeat' first
      | with_reducible assumption | intro _ | with_reducible apply Onward.pdelayResp
      | with_reducible apply Onward.tick

theorem Onward.syncSend (a0 : ℕ) (h : Onward x₀ s) :
    Onward x₀ (State.syncSend a0 s) := by
  dsimp only [State.syncSend]
  repeat' first
      | with_reducible assumption | intro _ | with_reducible apply Onward.ite | with_reducible apply Onward.fst_ite
      | with_reducible apply Onward.snd_ite | with_reducible apply Onward.ptp

theorem Onward.execSyncInterval (a0 : ℕ) (a1 : Fin 6) (h : Onward x₀ s) :
    ∀ u, (execSyncInterval a0 a1 s) = .next u → Onward x₀ u := by
  intro u e
  obtain rfl := Host.Outcome.next.inj e
  repeat' first
      | with_reducible assumption | intro _ | with_reducible apply Onward.syncSend | with_reducible apply Onward.tick

theorem Onward.execPdelayInterval (a0 : ℕ) (a1 : Fin 6) (h : Onward x₀ s) :
    ∀ u, (execPdelayInterval a0 a1 s) = .next u → Onward x₀ u := by
  intro u e
  obtain rfl := Host.Outcome.next.inj e
  repeat' first
      | with_reducible assumption | intro _ | with_reducible apply Onward.ite | with_reducible apply Onward.fst_ite
      | with_reducible apply Onward.snd_ite | with_reducible apply Onward.tick | with_reducible apply Onward.ptp

theorem Onward.announceSend (a0 : ℕ) (h : Onward x₀ s) :
    Onward x₀ (State.announceSend a0 s) := by
  dsimp only [State.announceSend]
  repeat' first
      | with_reducible assumption | intro _ | with_reducible apply Onward.ite | with_reducible apply Onward.fst_ite
      | with_reducible apply Onward.snd_ite | with_reducible apply Onward.ptp

theorem Onward.execAnnounceInterval (a0 : ℕ) (a1 : Fin 6) (h : Onward x₀ s) :
    ∀ u, (execAnnounceInterval a0 a1 s) = .next u → Onward x₀ u := by
  intro u e
  obtain rfl := Host.Outcome.next.inj e
  repeat' first
      | with_reducible assumption | intro _ | with_reducible apply Onward.announceSend
      | with_reducible apply Onward.tick

theorem Onward.sync (a0 : ℕ) (a1 : ℕ) (h : Onward x₀ s) :
    Onward x₀ (State.sync a0 a1 s) := by
  dsimp only [State.sync]
  repeat' first
      | with_reducible assumption | intro _ | with_reducible apply Onward.ite | with_reducible apply Onward.fst_ite
      | with_reducible apply Onward.snd_ite | with_reducible apply Onward.onTsy | with_reducible apply Onward.onNet
      | with_reducible apply Onward.raise

theorem Onward.execSyncReceived (a0 : ℕ) (a1 : Fin 6) (a2 : ℕ) (h : Onward x₀ s) :
    ∀ u, (execSyncReceived a0 a1 a2 s) = .next u → Onward x₀ u := by
  intro u e
  obtain rfl := Host.Outcome.next.inj e
  repeat' first
      | with_reducible assumption | intro _ | with_reducible apply Onward.sync | with_reducible apply Onward.tick

theorem Onward.syncLost (h : Onward x₀ s) :
    Onward x₀ (State.syncLost s) := by
  dsimp only [State.syncLost]
  repeat' first
      | with_reducible assumption | intro _ | with_reducible apply Onward.ite | with_reducible apply Onward.fst_ite
      | with_reducible apply Onward.snd_ite | with_reducible apply Onward.raise | with_reducible apply Onward.onTsy

theorem Onward.execSyncReceiptTimeout (a0 : ℕ) (h : Onward x₀ s) :
    ∀ u, (execSyncReceiptTimeout a0 s) = .next u → Onward x₀ u := by
  intro u e
  obtain rfl := Host.Outcome.next.inj e
  repeat' first
      | with_reducible assumption | intro _ | with_reducible apply Onward.syncLost | with_reducible apply Onward.tick

theorem Onward.cellLost (h : Onward x₀ s) :
    Onward x₀ (State.cellLost s) := by
  dsimp only [State.cellLost]
  repeat' first
      | with_reducible assumption | intro _ | with_reducible apply Onward.gatesOpen
      | with_reducible apply Onward.onTsy

theorem Onward.holdoverEnd (h : Onward x₀ s) :
    Onward x₀ (State.holdoverEnd s) := by
  dsimp only [State.holdoverEnd]
  repeat' first
      | with_reducible assumption | intro _ | with_reducible apply Onward.ite | with_reducible apply Onward.fst_ite
      | with_reducible apply Onward.snd_ite | with_reducible apply Onward.bmca | with_reducible apply Onward.onPort
      | with_reducible apply Onward.cellLost | rfl | split

theorem Onward.execHoldoverTimeout (a0 : ℕ) (h : Onward x₀ s) :
    ∀ u, (execHoldoverTimeout a0 s) = .next u → Onward x₀ u := by
  intro u e
  obtain rfl := Host.Outcome.next.inj e
  repeat' first
      | with_reducible assumption | intro _ | with_reducible apply Onward.holdoverEnd
      | with_reducible apply Onward.tick

theorem Onward.startCell (a0 : ℕ) (h : Onward x₀ s) :
    Onward x₀ (State.startCell a0 s) := by
  dsimp only [State.startCell]
  repeat' first
      | with_reducible assumption | intro _ | with_reducible apply Onward.onNet | with_reducible apply Onward.onTsy

theorem Onward.startAtFloor (h : Onward x₀ s) :
    Onward x₀ (State.startAtFloor s) := by
  dsimp only [State.startAtFloor]
  repeat' first
      | with_reducible assumption | intro _ | with_reducible apply Onward.raise | with_reducible apply Onward.onTsy
      | with_reducible apply Onward.startCell

theorem Onward.tInitExpire (h : Onward x₀ s) :
    Onward x₀ (State.tInitExpire s) := by
  dsimp only [State.tInitExpire]
  repeat' first
      | with_reducible assumption | intro _ | with_reducible apply Onward.ite | with_reducible apply Onward.fst_ite
      | with_reducible apply Onward.snd_ite | with_reducible apply Onward.onTsy
      | with_reducible apply Onward.startAtFloor

theorem Onward.execTInitExpired (a0 : ℕ) (h : Onward x₀ s) :
    ∀ u, (execTInitExpired a0 s) = .next u → Onward x₀ u := by
  intro u e
  obtain rfl := Host.Outcome.next.inj e
  repeat' first
      | with_reducible assumption | intro _ | with_reducible apply Onward.tInitExpire
      | with_reducible apply Onward.tick

theorem Onward.overFloor (h : Onward x₀ s) :
    Onward x₀ (State.overFloor s) := by
  dsimp only [State.overFloor]
  repeat' first
      | with_reducible assumption | intro _ | with_reducible apply Onward.ite | with_reducible apply Onward.fst_ite
      | with_reducible apply Onward.snd_ite | with_reducible apply Onward.onTsy | with_reducible apply Onward.onFcl

theorem Onward.tsySetCmd (h : Onward x₀ s) :
    Onward x₀ (State.tsySetCmd s).1 := by
  dsimp only [State.tsySetCmd]
  repeat' first
      | with_reducible assumption | intro _ | with_reducible apply Onward.ite | with_reducible apply Onward.fst_ite
      | with_reducible apply Onward.snd_ite | with_reducible apply Onward.overFloor
      | with_reducible apply Onward.startCell | with_reducible apply Onward.record

theorem Onward.execTsySet (a0 : ℕ) (a1 : Reader) (a2 : BitVec 16) (h : Onward x₀ s) :
    ∀ u, (execTsySet a0 a1 a2 s) = .next u → Onward x₀ u := by
  intro u e
  obtain rfl := Host.Outcome.next.inj e
  repeat' first
      | with_reducible assumption | intro _ | with_reducible apply Onward.wt | with_reducible apply Onward.tsySetCmd
      | with_reducible apply Onward.tick

theorem Onward.tsySlewCmd (h : Onward x₀ s) :
    Onward x₀ (State.tsySlewCmd s).1 := by
  dsimp only [State.tsySlewCmd]
  repeat' first
      | with_reducible assumption | intro _ | with_reducible apply Onward.ite | with_reducible apply Onward.fst_ite
      | with_reducible apply Onward.snd_ite | with_reducible apply Onward.onTsy

theorem Onward.execTsySlew (a0 : ℕ) (a1 : Reader) (a2 : BitVec 16) (h : Onward x₀ s) :
    ∀ u, (execTsySlew a0 a1 a2 s) = .next u → Onward x₀ u := by
  intro u e
  obtain rfl := Host.Outcome.next.inj e
  repeat' first
      | with_reducible assumption | intro _ | with_reducible apply Onward.wt | with_reducible apply Onward.tsySlewCmd
      | with_reducible apply Onward.tick

theorem Onward.tsyCancelCmd (h : Onward x₀ s) :
    Onward x₀ (State.tsyCancelCmd s).1 := by
  dsimp only [State.tsyCancelCmd]
  repeat' first | with_reducible assumption | intro _ | with_reducible apply Onward.onTsy

theorem Onward.execTsyCancelSlew (a0 : ℕ) (a1 : Reader) (a2 : BitVec 16) (h : Onward x₀ s) :
    ∀ u, (execTsyCancelSlew a0 a1 a2 s) = .next u → Onward x₀ u := by
  intro u e
  obtain rfl := Host.Outcome.next.inj e
  repeat' first
      | with_reducible assumption | intro _ | with_reducible apply Onward.wt
      | with_reducible apply Onward.tsyCancelCmd | with_reducible apply Onward.tick

theorem Onward.applyStep (a0 : ℕ) (h : Onward x₀ s) :
    Onward x₀ (State.applyStep a0 s) := by
  dsimp only [State.applyStep]
  repeat' first
      | with_reducible assumption | intro _ | with_reducible apply Onward.onTsy
      | with_reducible apply Onward.recordWith | with_reducible apply Onward.raise | with_reducible apply Onward.onNet
      | with_reducible apply Onward.onSfr | rfl | split

theorem Onward.tsyCapture (a0 : ℕ) (a1 : ℕ) (a2 : ℕ) (a3 : ℕ) (h : Onward x₀ s) :
    Onward x₀ (State.tsyCapture a0 a1 a2 a3 s) := by
  dsimp only [State.tsyCapture]
  repeat' first
      | with_reducible assumption | intro _ | with_reducible apply Onward.ite | with_reducible apply Onward.fst_ite
      | with_reducible apply Onward.snd_ite | with_reducible apply Onward.raise
      | with_reducible apply Onward.startAtFloor | with_reducible apply Onward.applyStep
      | with_reducible apply Onward.onTsy

theorem Onward.netCtrClear (a0 : Word) (h : Onward x₀ s) :
    Onward x₀ (State.netCtrClear a0 s).1 := by
  dsimp only [State.netCtrClear]
  repeat' first
      | with_reducible assumption | intro _ | with_reducible apply Onward.ite | with_reducible apply Onward.fst_ite
      | with_reducible apply Onward.snd_ite | with_reducible apply Onward.onNet

theorem Onward.execNetCtrClear (a0 : ℕ) (a1 : Reader) (a2 : Word) (h : Onward x₀ s) :
    ∀ u, (execNetCtrClear a0 a1 a2 s) = .next u → Onward x₀ u := by
  intro u e
  obtain rfl := Host.Outcome.next.inj e
  repeat' first
      | with_reducible assumption | intro _ | with_reducible apply Onward.wt | with_reducible apply Onward.netCtrClear
      | with_reducible apply Onward.tick

theorem Onward.cleared395 (h : Onward x₀ s) :
    Onward x₀ (State.cleared395 s) := by
  dsimp only [State.cleared395]
  repeat' first | with_reducible assumption | intro _ | with_reducible apply Onward.onNet

end Sys2Proof.Machine
end

