-- ==== Sys2Proof/Laws/OnwardCheckValue.lean ====
section
/-! SUPPORT. What CheckValue.lean keeps (Laws/Onward.lean). -/

namespace Sys2Proof.Machine

variable {x₀ s : State}

theorem Onward.cvuWrite (a0 : Reader) (a1 : ℕ) (a2 : State → State × ℕ) (h_a2 : ∀ t, Onward x₀ t → Onward x₀
    (a2 t).1) (h : Onward x₀ s) :
    Onward x₀ (State.cvuWrite a0 a1 a2 s) := by
  dsimp only [State.cvuWrite]
  repeat' first
      | with_reducible assumption | intro _ | with_reducible apply Onward.ite | with_reducible apply Onward.fst_ite
      | with_reducible apply Onward.snd_ite | with_reducible apply Onward.plain | with_reducible apply h_a2

theorem Onward.cvuCtrl (a0 : ℕ) (a1 : Word) (h : Onward x₀ s) :
    Onward x₀ (State.cvuCtrl a0 a1 s).1 := by
  dsimp only [State.cvuCtrl]
  repeat' first
      | with_reducible assumption | intro _ | with_reducible apply Onward.ite | with_reducible apply Onward.fst_ite
      | with_reducible apply Onward.snd_ite | with_reducible apply Onward.onCvu

theorem Onward.cvuFeed (a0 : ℕ) (a1 : ℕ) (a2 : Word) (h : Onward x₀ s) :
    Onward x₀ (State.cvuFeed a0 a1 a2 s).1 := by
  dsimp only [State.cvuFeed]
  repeat' first
      | with_reducible assumption | intro _ | with_reducible apply Onward.ite | with_reducible apply Onward.fst_ite
      | with_reducible apply Onward.snd_ite | with_reducible apply Onward.onCvu

theorem Onward.cvuStateLo (a0 : ℕ) (a1 : Word) (h : Onward x₀ s) :
    Onward x₀ (State.cvuStateLo a0 a1 s).1 := by
  dsimp only [State.cvuStateLo]
  repeat' first
      | with_reducible assumption | intro _ | with_reducible apply Onward.ite | with_reducible apply Onward.fst_ite
      | with_reducible apply Onward.snd_ite | with_reducible apply Onward.onCvu

theorem Onward.cvuStateHi (a0 : ℕ) (a1 : Word) (h : Onward x₀ s) :
    Onward x₀ (State.cvuStateHi a0 a1 s).1 := by
  dsimp only [State.cvuStateHi]
  repeat' first
      | with_reducible assumption | intro _ | with_reducible apply Onward.ite | with_reducible apply Onward.fst_ite
      | with_reducible apply Onward.snd_ite | with_reducible apply Onward.onCvu

theorem Onward.cvuSetCount (a0 : ℕ) (a1 : Word) (h : Onward x₀ s) :
    Onward x₀ (State.cvuSetCount a0 a1 s).1 := by
  dsimp only [State.cvuSetCount]
  repeat' first | with_reducible assumption | intro _ | with_reducible apply Onward.onCvu

theorem Onward.cvuGuard (a0 : ℕ) (a1 : Word) (h : Onward x₀ s) :
    Onward x₀ (State.cvuGuard a0 a1 s).1 := by
  dsimp only [State.cvuGuard]
  repeat' first
      | with_reducible assumption | intro _ | with_reducible apply Onward.ite | with_reducible apply Onward.fst_ite
      | with_reducible apply Onward.snd_ite | with_reducible apply Onward.onCvu

theorem Onward.cvuAlive (a0 : ℕ) (a1 : Word) (h : Onward x₀ s) :
    Onward x₀ (State.cvuAlive a0 a1 s).1 := by
  dsimp only [State.cvuAlive]
  repeat' first
      | with_reducible assumption | intro _ | with_reducible apply Onward.ite | with_reducible apply Onward.fst_ite
      | with_reducible apply Onward.snd_ite | with_reducible apply Onward.onCvu | with_reducible apply Onward.cond

theorem Onward.cvuCtrClear (a0 : ℕ) (a1 : Word) (h : Onward x₀ s) :
    Onward x₀ (State.cvuCtrClear a0 a1 s).1 := by
  dsimp only [State.cvuCtrClear]
  repeat' first
      | with_reducible assumption | intro _ | with_reducible apply Onward.ite | with_reducible apply Onward.fst_ite
      | with_reducible apply Onward.snd_ite | with_reducible apply Onward.onCvu

theorem Onward.execCvuStart (a0 : ℕ) (a1 : Reader) (a2 : Fin 16) (a3 : Word) (h : Onward x₀ s) :
    ∀ u, (execCvuStart a0 a1 a2 a3 s) = .next u → Onward x₀ u := by
  intro u e
  obtain rfl := Host.Outcome.next.inj e
  repeat' first
      | with_reducible assumption | intro _ | with_reducible apply Onward.cvuWrite
      | with_reducible apply Onward.cvuCtrl | with_reducible apply Onward.tick

theorem Onward.execCvuPolyChange (a0 : ℕ) (a1 : Reader) (a2 : Fin 16) (a3 : Word) (h : Onward x₀ s) :
    ∀ u, (execCvuPolyChange a0 a1 a2 a3 s) = .next u → Onward x₀ u := by
  intro u e
  obtain rfl := Host.Outcome.next.inj e
  repeat' first
      | with_reducible assumption | intro _ | with_reducible apply Onward.cvuWrite
      | with_reducible apply Onward.cvuCtrl | with_reducible apply Onward.tick

theorem Onward.execCvuFeedB (a0 : ℕ) (a1 : Reader) (a2 : Fin 16) (a3 : Word) (h : Onward x₀ s) :
    ∀ u, (execCvuFeedB a0 a1 a2 a3 s) = .next u → Onward x₀ u := by
  intro u e
  obtain rfl := Host.Outcome.next.inj e
  repeat' first
      | with_reducible assumption | intro _ | with_reducible apply Onward.cvuWrite
      | with_reducible apply Onward.cvuFeed | with_reducible apply Onward.tick

theorem Onward.execCvuFeedH (a0 : ℕ) (a1 : Reader) (a2 : Fin 16) (a3 : Word) (h : Onward x₀ s) :
    ∀ u, (execCvuFeedH a0 a1 a2 a3 s) = .next u → Onward x₀ u := by
  intro u e
  obtain rfl := Host.Outcome.next.inj e
  repeat' first
      | with_reducible assumption | intro _ | with_reducible apply Onward.cvuWrite
      | with_reducible apply Onward.cvuFeed | with_reducible apply Onward.tick

theorem Onward.execCvuFeedW (a0 : ℕ) (a1 : Reader) (a2 : Fin 16) (a3 : Word) (h : Onward x₀ s) :
    ∀ u, (execCvuFeedW a0 a1 a2 a3 s) = .next u → Onward x₀ u := by
  intro u e
  obtain rfl := Host.Outcome.next.inj e
  repeat' first
      | with_reducible assumption | intro _ | with_reducible apply Onward.cvuWrite
      | with_reducible apply Onward.cvuFeed | with_reducible apply Onward.tick

theorem Onward.execCvuStateLoWrite (a0 : ℕ) (a1 : Reader) (a2 : Fin 16) (a3 : Word) (h : Onward x₀ s) :
    ∀ u, (execCvuStateLoWrite a0 a1 a2 a3 s) = .next u → Onward x₀ u := by
  intro u e
  obtain rfl := Host.Outcome.next.inj e
  repeat' first
      | with_reducible assumption | intro _ | with_reducible apply Onward.cvuWrite
      | with_reducible apply Onward.cvuStateLo | with_reducible apply Onward.tick

theorem Onward.execCvuStateHiWrite (a0 : ℕ) (a1 : Reader) (a2 : Fin 16) (a3 : Word) (h : Onward x₀ s) :
    ∀ u, (execCvuStateHiWrite a0 a1 a2 a3 s) = .next u → Onward x₀ u := by
  intro u e
  obtain rfl := Host.Outcome.next.inj e
  repeat' first
      | with_reducible assumption | intro _ | with_reducible apply Onward.cvuWrite
      | with_reducible apply Onward.cvuStateHi | with_reducible apply Onward.tick

theorem Onward.execCvuAlive (a0 : ℕ) (a1 : Reader) (a2 : Fin 16) (a3 : Word) (h : Onward x₀ s) :
    ∀ u, (execCvuAlive a0 a1 a2 a3 s) = .next u → Onward x₀ u := by
  intro u e
  obtain rfl := Host.Outcome.next.inj e
  repeat' first
      | with_reducible assumption | intro _ | with_reducible apply Onward.cvuWrite
      | with_reducible apply Onward.cvuAlive | with_reducible apply Onward.tick

theorem Onward.execCvuCtrClear (a0 : ℕ) (a1 : Reader) (a2 : Fin 16) (a3 : Word) (h : Onward x₀ s) :
    ∀ u, (execCvuCtrClear a0 a1 a2 a3 s) = .next u → Onward x₀ u := by
  intro u e
  obtain rfl := Host.Outcome.next.inj e
  repeat' first
      | with_reducible assumption | intro _ | with_reducible apply Onward.wt | with_reducible apply Onward.cvuCtrClear
      | with_reducible apply Onward.tick

theorem Onward.latchCvuState (a0 : ℕ) (a1 : ℕ) (h : Onward x₀ s) :
    Onward x₀ (State.latchCvuState a0 a1 s) := by
  dsimp only [State.latchCvuState]
  repeat' first | with_reducible assumption | intro _ | with_reducible apply Onward.onCvu

theorem Onward.latchCvuResult (a0 : ℕ) (a1 : ℕ) (h : Onward x₀ s) :
    Onward x₀ (State.latchCvuResult a0 a1 s) := by
  dsimp only [State.latchCvuResult]
  repeat' first | with_reducible assumption | intro _ | with_reducible apply Onward.onCvu

theorem Onward.execCvuStateLoRead (a0 : ℕ) (a1 : Reader) (a2 : Fin 16) (h : Onward x₀ s) :
    ∀ u, (execCvuStateLoRead a0 a1 a2 s) = .next u → Onward x₀ u := by
  intro u e
  obtain rfl := Host.Outcome.next.inj e
  repeat' first
      | with_reducible assumption | intro _ | with_reducible apply Onward.latchCvuState
      | with_reducible apply Onward.tick

theorem Onward.execCvuResultLoRead (a0 : ℕ) (a1 : Reader) (a2 : Fin 16) (h : Onward x₀ s) :
    ∀ u, (execCvuResultLoRead a0 a1 a2 s) = .next u → Onward x₀ u := by
  intro u e
  obtain rfl := Host.Outcome.next.inj e
  repeat' first
      | with_reducible assumption | intro _ | with_reducible apply Onward.latchCvuResult
      | with_reducible apply Onward.tick

end Sys2Proof.Machine
end

