-- ==== Sys2Proof/Laws/OnwardSporeRuns.lean ====
section
/-! SUPPORT. What SporeRuns.lean keeps (Laws/Onward.lean). -/

namespace Sys2Proof.Machine

variable {x₀ s : State}

theorem Onward.onSeqr (a0 : Ch) (a1 : Seqr → Seqr) (h : Onward x₀ s) :
    Onward x₀ (State.onSeqr a0 a1 s) := by
  dsimp only [State.onSeqr]
  repeat' first | with_reducible assumption | intro _ | with_reducible apply Onward.onBst

theorem Onward.sporeEnds (a0 : Ch) (a1 : Running) (h : Onward x₀ s) :
    Onward x₀ (State.sporeEnds a0 a1 s) := by
  dsimp only [State.sporeEnds]
  repeat' first
      | with_reducible assumption | intro _ | with_reducible apply Onward.ite | with_reducible apply Onward.fst_ite
      | with_reducible apply Onward.snd_ite | with_reducible apply Onward.onSeqr
      | with_reducible apply Onward.onAgr_wf | rfl | split
      | exact Pair.all_nmapv _ ‹_› fun _ _ h => h

theorem Onward.sporeDefer (a0 : Ch) (a1 : Running) (h : Onward x₀ s) :
    Onward x₀ (State.sporeDefer a0 a1 s) := by
  dsimp only [State.sporeDefer]
  repeat' first
      | with_reducible assumption | intro _ | with_reducible apply Onward.ite | with_reducible apply Onward.fst_ite
      | with_reducible apply Onward.snd_ite | with_reducible apply Onward.onSeqr | with_reducible apply Onward.raise

theorem Onward.sporeAbort (a0 : Ch) (a1 : AbortCause) (h : Onward x₀ s) :
    Onward x₀ (State.sporeAbort a0 a1 s) := by
  dsimp only [State.sporeAbort]
  repeat' first
      | with_reducible assumption | intro _ | with_reducible apply Onward.ite | with_reducible apply Onward.fst_ite
      | with_reducible apply Onward.snd_ite | with_reducible apply Onward.onSeqr
      | with_reducible apply Onward.sporeEnds | with_reducible apply Onward.sporeDefer | rfl | split

theorem Onward.sporesHalt (h : Onward x₀ s) :
    Onward x₀ (State.sporesHalt s) := by
  dsimp only [State.sporesHalt]
  repeat' first | with_reducible assumption | intro _ | with_reducible apply Onward.sporeAbort

theorem Onward.sporesOff (a0 : Block) (h : Onward x₀ s) :
    Onward x₀ (State.sporesOff a0 s) := by
  dsimp only [State.sporesOff]
  repeat' first
      | with_reducible assumption | intro _ | with_reducible apply Onward.ite | with_reducible apply Onward.fst_ite
      | with_reducible apply Onward.snd_ite | with_reducible apply Onward.forL | with_reducible apply Onward.forL_fst
      | with_reducible apply Onward.sporeAbort | rfl | split

end Sys2Proof.Machine
end

