-- ==== Sys2Proof/Laws/OnwardHalt.lean ====
section
/-! SUPPORT. What Halt.lean keeps (Laws/Onward.lean). -/

namespace Sys2Proof.Machine

variable {x₀ s : State}

theorem Onward.stopZones (a0 : BitVec 32) (h : Onward x₀ s) :
    Onward x₀ (State.stopZones a0 s) := by
  dsimp only [State.stopZones]
  repeat' first
      | with_reducible assumption | intro _ | with_reducible apply Onward.darkAborts
      | with_reducible apply Onward.onSto | with_reducible apply Onward.onSog | with_reducible apply Onward.onFcl

theorem Onward.enterHalt (h : Onward x₀ s) :
    Onward x₀ (State.enterHalt s) := by
  dsimp only [State.enterHalt]
  repeat' first
      | with_reducible assumption | intro _ | with_reducible apply Onward.ite | with_reducible apply Onward.fst_ite
      | with_reducible apply Onward.snd_ite | with_reducible apply Onward.sporesHalt
      | with_reducible apply Onward.darkAborts | with_reducible apply Onward.deliverNmi
      | with_reducible apply Onward.onSto | with_reducible apply Onward.onSog | with_reducible apply Onward.onFcl

theorem Onward.selfFault (a0 : ℕ) (h : Onward x₀ s) :
    Onward x₀ (State.selfFault a0 s) := by
  dsimp only [State.selfFault]
  repeat' first
      | with_reducible assumption | intro _ | with_reducible apply Onward.ite | with_reducible apply Onward.fst_ite
      | with_reducible apply Onward.snd_ite | with_reducible apply Onward.onFcl
      | with_reducible apply Onward.enterHalt | with_reducible apply Onward.makeRecord

theorem Onward.checkErrPins (a0 : Bool) (a1 : Bool) (h : Onward x₀ s) :
    Onward x₀ (State.checkErrPins a0 a1 s) := by
  dsimp only [State.checkErrPins]
  repeat' first
      | with_reducible assumption | intro _ | with_reducible apply Onward.ite | with_reducible apply Onward.fst_ite
      | with_reducible apply Onward.snd_ite | with_reducible apply Onward.onFcl
      | with_reducible apply Onward.selfFault

end Sys2Proof.Machine
end

