-- ==== Sys2Proof/Laws/OnwardTerminals.lean ====
section
/-! SUPPORT. What Terminals.lean keeps (Laws/Onward.lean). -/

namespace Sys2Proof.Machine

variable {x₀ s : State}

theorem Onward.onLichen (a0 : ℕ) (a1 : Lichen → Lichen) (h : Onward x₀ s) :
    Onward x₀ (State.onLichen a0 a1 s) := by
  dsimp only [State.onLichen]
  repeat' first | with_reducible assumption | intro _ | with_reducible apply Onward.onLio

theorem Onward.lockCond (h : Onward x₀ s) :
    Onward x₀ (State.lockCond s) := by
  dsimp only [State.lockCond]
  repeat' first | with_reducible assumption | intro _ | with_reducible apply Onward.cond

theorem Onward.signalTriggers (a0 : Blocks) (h : Onward x₀ s) :
    Onward x₀ (State.signalTriggers a0 s) := by
  dsimp only [State.signalTriggers]
  repeat' first
      | with_reducible assumption | intro _ | with_reducible apply Onward.forL | with_reducible apply Onward.forL_fst
      | with_reducible apply Onward.trigger

theorem Onward.signalEdges (a0 : Blocks) (h : Onward x₀ s) :
    Onward x₀ (State.signalEdges a0 s) := by
  dsimp only [State.signalEdges]
  repeat' first
      | with_reducible assumption | intro _ | with_reducible apply Onward.forL | with_reducible apply Onward.forL_fst
      | with_reducible apply Onward.reference

theorem Onward.signalsMoved (a0 : Blocks) (h : Onward x₀ s) :
    Onward x₀ (State.signalsMoved a0 s) := by
  dsimp only [State.signalsMoved]
  repeat' first
      | with_reducible assumption | intro _ | with_reducible apply Onward.signalTriggers
      | with_reducible apply Onward.signalEdges

theorem Onward.exchange (a0 : Ch) (a1 : BitVec 48) (h : Onward x₀ s) :
    Onward x₀ (State.exchange a0 a1 s) := by
  dsimp only [State.exchange]
  repeat' first
      | with_reducible assumption | intro _ | with_reducible apply Onward.forL | with_reducible apply Onward.forL_fst
      | with_reducible apply Onward.onLichen

theorem Onward.sampleLichens (a0 : Pins) (h : Onward x₀ s) :
    Onward x₀ (State.sampleLichens a0 s) := by
  dsimp only [State.sampleLichens]
  repeat' first
      | with_reducible assumption | intro _ | with_reducible apply Onward.ite | with_reducible apply Onward.fst_ite
      | with_reducible apply Onward.snd_ite | with_reducible apply Onward.forL | with_reducible apply Onward.forL_fst
      | with_reducible apply Onward.onLio | with_reducible apply Onward.onLichen
      | with_reducible apply Onward.exchange | with_reducible apply Onward.cond
      | with_reducible apply Onward.signalsMoved | with_reducible apply Onward.lockCond

theorem Onward.sampleTpos (a0 : Pins) (h : Onward x₀ s) :
    Onward x₀ (State.sampleTpos a0 s) := by
  dsimp only [State.sampleTpos]
  repeat' first
      | with_reducible assumption | intro _ | with_reducible apply Onward.ite | with_reducible apply Onward.fst_ite
      | with_reducible apply Onward.snd_ite | with_reducible apply Onward.forL | with_reducible apply Onward.forL_fst
      | with_reducible apply Onward.onTpg | with_reducible apply Onward.onLichen | with_reducible apply Onward.cond

theorem Onward.outCond (a0 : ℕ) (a1 : BitVec 16) (a2 : BitVec 16) (a3 : ℕ → ℕ) (h : Onward x₀ s) :
    Onward x₀ (State.outCond a0 a1 a2 a3 s) := by
  dsimp only [State.outCond]
  repeat' first
      | with_reducible assumption | intro _ | with_reducible apply Onward.ite | with_reducible apply Onward.fst_ite
      | with_reducible apply Onward.snd_ite | with_reducible apply Onward.openRound | with_reducible apply Onward.cond

theorem Onward.sampleOutputs (a0 : Pins) (h : Onward x₀ s) :
    Onward x₀ (State.sampleOutputs a0 s) := by
  dsimp only [State.sampleOutputs]
  repeat' first
      | with_reducible assumption | intro _ | with_reducible apply Onward.ite | with_reducible apply Onward.fst_ite
      | with_reducible apply Onward.snd_ite | with_reducible apply Onward.onSog | with_reducible apply Onward.outCond

theorem Onward.sampleStos (a0 : Pins) (h : Onward x₀ s) :
    Onward x₀ (State.sampleStos a0 s) := by
  dsimp only [State.sampleStos]
  repeat' first
      | with_reducible assumption | intro _ | with_reducible apply Onward.ite | with_reducible apply Onward.fst_ite
      | with_reducible apply Onward.snd_ite | with_reducible apply Onward.onSto | with_reducible apply Onward.outCond

theorem Onward.sampleErr (a0 : Pins) (h : Onward x₀ s) :
    Onward x₀ (State.sampleErr a0 s) := by
  dsimp only [State.sampleErr]
  repeat' first | with_reducible assumption | intro _ | with_reducible apply Onward.checkErrPins

theorem Onward.sampling (a0 : Pins) (h : Onward x₀ s) :
    Onward x₀ (State.sampling a0 s) := by
  dsimp only [State.sampling]
  repeat' first
      | with_reducible assumption | intro _ | with_reducible apply Onward.ite | with_reducible apply Onward.fst_ite
      | with_reducible apply Onward.snd_ite | with_reducible apply Onward.sampleErr
      | with_reducible apply Onward.sampleStos | with_reducible apply Onward.sampleOutputs
      | with_reducible apply Onward.sampleTpos | with_reducible apply Onward.sampleLichens

theorem Onward.exchangeMissed (a0 : Ch) (a1 : ℕ) (h : Onward x₀ s) :
    Onward x₀ (State.exchangeMissed a0 a1 s) := by
  dsimp only [State.exchangeMissed]
  repeat' first
      | with_reducible assumption | intro _ | with_reducible apply Onward.ite | with_reducible apply Onward.fst_ite
      | with_reducible apply Onward.snd_ite | with_reducible apply Onward.signalsMoved
      | with_reducible apply Onward.cond | with_reducible apply Onward.onLichen | with_reducible apply Onward.onLio

theorem Onward.execLichenExchangeMissed (a0 : ℕ) (a1 : Ch) (a2 : Fin 48) (h : Onward x₀ s) :
    ∀ u, (execLichenExchangeMissed a0 a1 a2 s) = .next u → Onward x₀ u := by
  intro u e
  obtain rfl := Host.Outcome.next.inj e
  repeat' first
      | with_reducible assumption | intro _ | with_reducible apply Onward.exchangeMissed
      | with_reducible apply Onward.tick

theorem Onward.discrepancy (a0 : ℕ) (h : Onward x₀ s) :
    Onward x₀ (State.discrepancy a0 s) := by
  dsimp only [State.discrepancy]
  repeat' first
      | with_reducible assumption | intro _ | with_reducible apply Onward.ite | with_reducible apply Onward.fst_ite
      | with_reducible apply Onward.snd_ite | with_reducible apply Onward.signalsMoved
      | with_reducible apply Onward.cond | with_reducible apply Onward.onLichen

theorem Onward.execDiscrepancyTimeout (a0 : ℕ) (a1 : Fin 48) (h : Onward x₀ s) :
    ∀ u, (execDiscrepancyTimeout a0 a1 s) = .next u → Onward x₀ u := by
  intro u e
  obtain rfl := Host.Outcome.next.inj e
  repeat' first
      | with_reducible assumption | intro _ | with_reducible apply Onward.discrepancy
      | with_reducible apply Onward.tick

theorem Onward.cleared144 (h : Onward x₀ s) :
    Onward x₀ (State.cleared144 s) := by
  dsimp only [State.cleared144]
  repeat' first
      | with_reducible assumption | intro _ | with_reducible apply Onward.ite | with_reducible apply Onward.fst_ite
      | with_reducible apply Onward.snd_ite | with_reducible apply Onward.onLio

theorem Onward.clearedTpf (a0 : ℕ) (h : Onward x₀ s) :
    Onward x₀ (State.clearedTpf a0 s) := by
  dsimp only [State.clearedTpf]
  repeat' first
      | with_reducible assumption | intro _ | with_reducible apply Onward.ite | with_reducible apply Onward.fst_ite
      | with_reducible apply Onward.snd_ite | with_reducible apply Onward.onTpg | with_reducible apply Onward.onLio

theorem Onward.tpfConds (a0 : ℕ) (h : Onward x₀ s) :
    Onward x₀ (State.tpfConds a0 s) := by
  dsimp only [State.tpfConds]
  repeat' first
      | with_reducible assumption | intro _ | with_reducible apply Onward.ite | with_reducible apply Onward.fst_ite
      | with_reducible apply Onward.snd_ite | with_reducible apply Onward.forL | with_reducible apply Onward.forL_fst
      | with_reducible apply Onward.cond

theorem Onward.eachLichen (a0 : Blocks → ℕ → Lichen → Lichen) (h : Onward x₀ s) :
    Onward x₀ (State.eachLichen a0 s) := by
  dsimp only [State.eachLichen]
  repeat' first
      | with_reducible assumption | intro _ | with_reducible apply Onward.ite | with_reducible apply Onward.fst_ite
      | with_reducible apply Onward.snd_ite | with_reducible apply Onward.forL | with_reducible apply Onward.forL_fst
      | with_reducible apply Onward.onLichen

theorem Onward.slotCheck (a0 : ℕ) (a1 : Bool) (h : Onward x₀ s) :
    Onward x₀ (State.slotCheck a0 a1 s) := by
  dsimp only [State.slotCheck]
  repeat' first
      | with_reducible assumption | intro _ | with_reducible apply Onward.ite | with_reducible apply Onward.fst_ite
      | with_reducible apply Onward.snd_ite | with_reducible apply Onward.raise

theorem Onward.pulseStart (a0 : ℕ) (h : Onward x₀ s) :
    Onward x₀ (State.pulseStart a0 s) := by
  dsimp only [State.pulseStart]
  repeat' first
      | with_reducible assumption | intro _ | with_reducible apply Onward.ite | with_reducible apply Onward.fst_ite
      | with_reducible apply Onward.snd_ite | with_reducible apply Onward.tpfConds
      | with_reducible apply Onward.eachLichen | with_reducible apply Onward.onTpg
      | with_reducible apply Onward.slotCheck

theorem Onward.pulseEnd (a0 : ℕ) (h : Onward x₀ s) :
    Onward x₀ (State.pulseEnd a0 s) := by
  dsimp only [State.pulseEnd]
  repeat' first
      | with_reducible assumption | intro _ | with_reducible apply Onward.ite | with_reducible apply Onward.fst_ite
      | with_reducible apply Onward.snd_ite | with_reducible apply Onward.onTpg
      | with_reducible apply Onward.slotCheck

theorem Onward.windowEnd (a0 : ℕ) (h : Onward x₀ s) :
    Onward x₀ (State.windowEnd a0 s) := by
  dsimp only [State.windowEnd]
  repeat' first
      | with_reducible assumption | intro _ | with_reducible apply Onward.ite | with_reducible apply Onward.fst_ite
      | with_reducible apply Onward.snd_ite | with_reducible apply Onward.onTpg | with_reducible apply Onward.tpfConds
      | with_reducible apply Onward.eachLichen

theorem Onward.execTestPulseStart (a0 : ℕ) (a1 : Fin 16) (h : Onward x₀ s) :
    ∀ u, (execTestPulseStart a0 a1 s) = .next u → Onward x₀ u := by
  intro u e
  obtain rfl := Host.Outcome.next.inj e
  repeat' first
      | with_reducible assumption | intro _ | with_reducible apply Onward.pulseStart
      | with_reducible apply Onward.tick

theorem Onward.execTestPulseEnd (a0 : ℕ) (a1 : Fin 16) (h : Onward x₀ s) :
    ∀ u, (execTestPulseEnd a0 a1 s) = .next u → Onward x₀ u := by
  intro u e
  obtain rfl := Host.Outcome.next.inj e
  repeat' first
      | with_reducible assumption | intro _ | with_reducible apply Onward.pulseEnd | with_reducible apply Onward.tick

theorem Onward.execMaskWindowEnd (a0 : ℕ) (a1 : Fin 16) (h : Onward x₀ s) :
    ∀ u, (execMaskWindowEnd a0 a1 s) = .next u → Onward x₀ u := by
  intro u e
  obtain rfl := Host.Outcome.next.inj e
  repeat' first
      | with_reducible assumption | intro _ | with_reducible apply Onward.windowEnd | with_reducible apply Onward.tick

theorem Onward.readbackTimeout (a0 : Ch) (a1 : ℕ) (h : Onward x₀ s) :
    Onward x₀ (State.readbackTimeout a0 a1 s) := by
  dsimp only [State.readbackTimeout]
  repeat' first
      | with_reducible assumption | intro _ | with_reducible apply Onward.ite | with_reducible apply Onward.fst_ite
      | with_reducible apply Onward.snd_ite | with_reducible apply Onward.outCond | with_reducible apply Onward.onSog

theorem Onward.execReadbackTimeout (a0 : ℕ) (a1 : Ch) (a2 : Fin 16) (h : Onward x₀ s) :
    ∀ u, (execReadbackTimeout a0 a1 a2 s) = .next u → Onward x₀ u := by
  intro u e
  obtain rfl := Host.Outcome.next.inj e
  repeat' first
      | with_reducible assumption | intro _ | with_reducible apply Onward.readbackTimeout
      | with_reducible apply Onward.tick

theorem Onward.feedbackTimeout (a0 : Ch) (a1 : ℕ) (h : Onward x₀ s) :
    Onward x₀ (State.feedbackTimeout a0 a1 s) := by
  dsimp only [State.feedbackTimeout]
  repeat' first
      | with_reducible assumption | intro _ | with_reducible apply Onward.ite | with_reducible apply Onward.fst_ite
      | with_reducible apply Onward.snd_ite | with_reducible apply Onward.outCond | with_reducible apply Onward.onSto

theorem Onward.execStoFeedbackTimeout (a0 : ℕ) (a1 : Ch) (a2 : Fin 16) (h : Onward x₀ s) :
    ∀ u, (execStoFeedbackTimeout a0 a1 a2 s) = .next u → Onward x₀ u := by
  intro u e
  obtain rfl := Host.Outcome.next.inj e
  repeat' first
      | with_reducible assumption | intro _ | with_reducible apply Onward.feedbackTimeout
      | with_reducible apply Onward.tick

theorem Onward.onDark (a0 : ℕ) (a1 : Dark → Dark) (h : Onward x₀ s) :
    Onward x₀ (State.onDark a0 a1 s) := by
  dsimp only [State.onDark]
  repeat' first | with_reducible assumption | intro _ | with_reducible apply Onward.onSog

theorem Onward.darkStart (a0 : ℕ) (h : Onward x₀ s) :
    Onward x₀ (State.darkStart a0 s) := by
  dsimp only [State.darkStart]
  repeat' first
      | with_reducible assumption | intro _ | with_reducible apply Onward.ite | with_reducible apply Onward.fst_ite
      | with_reducible apply Onward.snd_ite | with_reducible apply Onward.onDark

theorem Onward.execDarkTestStart (a0 : ℕ) (a1 : Fin 16) (h : Onward x₀ s) :
    ∀ u, (execDarkTestStart a0 a1 s) = .next u → Onward x₀ u := by
  intro u e
  obtain rfl := Host.Outcome.next.inj e
  repeat' first
      | with_reducible assumption | intro _ | with_reducible apply Onward.darkStart | with_reducible apply Onward.tick

theorem Onward.darkEnd (a0 : ℕ) (h : Onward x₀ s) :
    Onward x₀ (State.darkEnd a0 s) := by
  dsimp only [State.darkEnd]
  repeat' first
      | with_reducible assumption | intro _ | with_reducible apply Onward.ite | with_reducible apply Onward.fst_ite
      | with_reducible apply Onward.snd_ite | with_reducible apply Onward.onDark | with_reducible apply Onward.raise
      | with_reducible apply Onward.onSog | rfl | split

theorem Onward.execDarkPulseEnd (a0 : ℕ) (a1 : Fin 16) (h : Onward x₀ s) :
    ∀ u, (execDarkPulseEnd a0 a1 s) = .next u → Onward x₀ u := by
  intro u e
  obtain rfl := Host.Outcome.next.inj e
  repeat' first
      | with_reducible assumption | intro _ | with_reducible apply Onward.darkEnd | with_reducible apply Onward.tick

theorem Onward.lioCtrClear (a0 : Word) (h : Onward x₀ s) :
    Onward x₀ (State.lioCtrClear a0 s).1 := by
  dsimp only [State.lioCtrClear]
  repeat' first
      | with_reducible assumption | intro _ | with_reducible apply Onward.ite | with_reducible apply Onward.fst_ite
      | with_reducible apply Onward.snd_ite | with_reducible apply Onward.onLio

theorem Onward.execLioCtrClear (a0 : ℕ) (a1 : Reader) (a2 : Word) (h : Onward x₀ s) :
    ∀ u, (execLioCtrClear a0 a1 a2 s) = .next u → Onward x₀ u := by
  intro u e
  obtain rfl := Host.Outcome.next.inj e
  repeat' first
      | with_reducible assumption | intro _ | with_reducible apply Onward.wt | with_reducible apply Onward.lioCtrClear
      | with_reducible apply Onward.tick

theorem Onward.lioFirstUse (h : Onward x₀ s) :
    Onward x₀ (State.lioFirstUse s) := by
  dsimp only [State.lioFirstUse]
  repeat' first
      | with_reducible assumption | intro _ | with_reducible apply Onward.signalsMoved
      | with_reducible apply Onward.cond | with_reducible apply Onward.onLio

theorem Onward.tpgFirstUse (h : Onward x₀ s) :
    Onward x₀ (State.tpgFirstUse s) := by
  dsimp only [State.tpgFirstUse]
  repeat' first
      | with_reducible assumption | intro _ | with_reducible apply Onward.onLio | with_reducible apply Onward.onTpg

end Sys2Proof.Machine
end

