-- ==== Sys2Proof/Laws/OnwardFabric.lean ====
section
/-! SUPPORT. What Fabric.lean keeps (Laws/Onward.lean). -/

namespace Sys2Proof.Machine

variable {x₀ s : State}

theorem Onward.safeFields (h : Onward x₀ s) :
    Onward x₀ (State.safeFields s) := by
  dsimp only [State.safeFields]
  repeat' first
      | with_reducible assumption | intro _ | with_reducible apply Onward.forL | with_reducible apply Onward.forL_fst
      | with_reducible apply Onward.onProd

theorem Onward.commitFields (h : Onward x₀ s) :
    Onward x₀ (State.commitFields s) := by
  dsimp only [State.commitFields]
  repeat' first
      | with_reducible assumption | intro _ | with_reducible apply Onward.ite | with_reducible apply Onward.fst_ite
      | with_reducible apply Onward.snd_ite | with_reducible apply Onward.forL | with_reducible apply Onward.forL_fst
      | with_reducible apply Onward.onProd

theorem Onward.fabCtrClear (a0 : Ch) (a1 : Word) (h : Onward x₀ s) :
    Onward x₀ (State.fabCtrClear a0 a1 s).1 := by
  dsimp only [State.fabCtrClear]
  repeat' first | with_reducible assumption | intro _ | with_reducible apply Onward.onFab

theorem Onward.execFabCtrClear (a0 : ℕ) (a1 : Reader) (a2 : Ch) (a3 : Word) (h : Onward x₀ s) :
    ∀ u, (execFabCtrClear a0 a1 a2 a3 s) = .next u → Onward x₀ u := by
  intro u e
  obtain rfl := Host.Outcome.next.inj e
  repeat' first
      | with_reducible assumption | intro _ | with_reducible apply Onward.wt | with_reducible apply Onward.fabCtrClear
      | with_reducible apply Onward.tick

theorem Onward.fabInject (a0 : Ch) (a1 : Word) (h : Onward x₀ s) :
    Onward x₀ (State.fabInject a0 a1 s).1 := by
  dsimp only [State.fabInject]
  repeat' first
      | with_reducible assumption | intro _ | with_reducible apply Onward.ite | with_reducible apply Onward.fst_ite
      | with_reducible apply Onward.snd_ite | with_reducible apply Onward.onFab

theorem Onward.execFabInject (a0 : ℕ) (a1 : Reader) (a2 : Ch) (a3 : Word) (h : Onward x₀ s) :
    ∀ u, (execFabInject a0 a1 a2 a3 s) = .next u → Onward x₀ u := by
  intro u e
  obtain rfl := Host.Outcome.next.inj e
  repeat' first
      | with_reducible assumption | intro _ | with_reducible apply Onward.ite | with_reducible apply Onward.fst_ite
      | with_reducible apply Onward.snd_ite | with_reducible apply Onward.expertAt
      | with_reducible apply Onward.fabInject | with_reducible apply Onward.tick

end Sys2Proof.Machine
end

