-- ==== Sys2Proof/Laws/OnwardFaults.lean ====
section
/-! SUPPORT. What Faults.lean keeps (Laws/Onward.lean). -/

namespace Sys2Proof.Machine

variable {x₀ s : State}

theorem Onward.companion (a0 : ℕ × Profile) (a1 : ℕ) (h : Onward x₀ s) :
    Onward x₀ (State.companion a0 a1 s) := by
  dsimp only [State.companion]
  repeat' first | with_reducible assumption | intro _ | with_reducible apply Onward.makeRecord

theorem Onward.recordRound (a0 : List Change) (h : Onward x₀ s) :
    Onward x₀ (State.recordRound a0 s) := by
  dsimp only [State.recordRound]
  repeat' first
      | with_reducible assumption | intro _ | with_reducible apply Onward.ite | with_reducible apply Onward.fst_ite
      | with_reducible apply Onward.snd_ite | with_reducible apply Onward.onFcl
      | with_reducible apply Onward.makeRecord | with_reducible apply Onward.companion | rfl | split

theorem Onward.updateReady (h : Onward x₀ s) :
    Onward x₀ (State.updateReady s) := by
  dsimp only [State.updateReady]
  repeat' first
      | with_reducible assumption | intro _ | with_reducible apply Onward.ite | with_reducible apply Onward.fst_ite
      | with_reducible apply Onward.snd_ite | with_reducible apply Onward.forN | with_reducible apply Onward.onFcl

theorem Onward.releaseZones (a0 : ℕ) (a1 : ℕ → Bool) (h : Onward x₀ s) :
    Onward x₀ (State.releaseZones a0 a1 s) := by
  dsimp only [State.releaseZones]
  repeat' first
      | with_reducible assumption | intro _ | with_reducible apply Onward.forL | with_reducible apply Onward.forL_fst
      | with_reducible apply Onward.onSto | with_reducible apply Onward.onSog | with_reducible apply Onward.onFcl

theorem Onward.rearmStart (h : Onward x₀ s) :
    Onward x₀ (State.rearmStart s) := by
  dsimp only [State.rearmStart]
  repeat' first
      | with_reducible assumption | intro _ | with_reducible apply Onward.ite | with_reducible apply Onward.fst_ite
      | with_reducible apply Onward.snd_ite | with_reducible apply Onward.onFcl

theorem Onward.rearmComplete (a0 : ℕ) (a1 : Bool) (a2 : Bool) (h : Onward x₀ s) :
    Onward x₀ (State.rearmComplete a0 a1 a2 s) := by
  dsimp only [State.rearmComplete]
  repeat' first
      | with_reducible assumption | intro _ | with_reducible apply Onward.ite | with_reducible apply Onward.fst_ite
      | with_reducible apply Onward.snd_ite | with_reducible apply Onward.updateReady
      | with_reducible apply Onward.onFcl | with_reducible apply Onward.blockAll | with_reducible apply Onward.raise

theorem Onward.execRearmComplete (a0 : ℕ) (a1 : ℕ) (a2 : Bool) (a3 : Bool) (h : Onward x₀ s) :
    ∀ u, (execRearmComplete a0 a1 a2 a3 s) = .next u → Onward x₀ u := by
  intro u e
  obtain rfl := Host.Outcome.next.inj e
  repeat' first
      | with_reducible assumption | intro _ | with_reducible apply Onward.rearmComplete
      | with_reducible apply Onward.tick

theorem Onward.endHalt (h : Onward x₀ s) :
    Onward x₀ (State.endHalt s) := by
  dsimp only [State.endHalt]
  repeat' first
      | with_reducible assumption | intro _ | with_reducible apply Onward.ite | with_reducible apply Onward.fst_ite
      | with_reducible apply Onward.snd_ite | with_reducible apply Onward.onFcl

theorem Onward.execCollectorSelfFault (a0 : ℕ) (a1 : Fin 6) (h : Onward x₀ s) :
    ∀ u, (execCollectorSelfFault a0 a1 s) = .next u → Onward x₀ u := by
  intro u e
  obtain rfl := Host.Outcome.next.inj e
  repeat' first
      | with_reducible assumption | intro _ | with_reducible apply Onward.ite | with_reducible apply Onward.fst_ite
      | with_reducible apply Onward.snd_ite | with_reducible apply Onward.tick | with_reducible apply Onward.selfFault

theorem Onward.chipDue (a0 : ℕ) (h : Onward x₀ s) :
    Onward x₀ (State.chipDue a0 s) := by
  dsimp only [State.chipDue]
  repeat' first
      | with_reducible assumption | intro _ | with_reducible apply Onward.ite | with_reducible apply Onward.fst_ite
      | with_reducible apply Onward.snd_ite | with_reducible apply Onward.onFcl

theorem Onward.errStatic (h : Onward x₀ s) :
    Onward x₀ (State.errStatic s) := by
  dsimp only [State.errStatic]
  repeat' first
      | with_reducible assumption | intro _ | with_reducible apply Onward.ite | with_reducible apply Onward.fst_ite
      | with_reducible apply Onward.snd_ite | with_reducible apply Onward.onFcl

theorem Onward.errUpdate (h : Onward x₀ s) :
    Onward x₀ (State.errUpdate s) := by
  dsimp only [State.errUpdate]
  repeat' first
      | with_reducible assumption | intro _ | with_reducible apply Onward.ite | with_reducible apply Onward.fst_ite
      | with_reducible apply Onward.snd_ite | with_reducible apply Onward.errStatic
      | with_reducible apply Onward.onFcl

theorem Onward.errPublish (h : Onward x₀ s) :
    Onward x₀ (State.errPublish s) := by
  dsimp only [State.errPublish]
  repeat' first
      | with_reducible assumption | intro _ | with_reducible apply Onward.ite | with_reducible apply Onward.fst_ite
      | with_reducible apply Onward.snd_ite | with_reducible apply Onward.errUpdate
      | with_reducible apply Onward.onFcl

theorem Onward.errHalf (h : Onward x₀ s) :
    Onward x₀ (State.errHalf s) := by
  dsimp only [State.errHalf]
  repeat' first
      | with_reducible assumption | intro _ | with_reducible apply Onward.ite | with_reducible apply Onward.fst_ite
      | with_reducible apply Onward.snd_ite | with_reducible apply Onward.onFcl

theorem Onward.execErrPinHalfPeriod (a0 : ℕ) (h : Onward x₀ s) :
    ∀ u, (execErrPinHalfPeriod a0 s) = .next u → Onward x₀ u := by
  intro u e
  obtain rfl := Host.Outcome.next.inj e
  repeat' first
      | with_reducible assumption | intro _ | with_reducible apply Onward.errHalf | with_reducible apply Onward.tick

theorem Onward.fclCtrClear (a0 : Word) (h : Onward x₀ s) :
    Onward x₀ (State.fclCtrClear a0 s).1 := by
  dsimp only [State.fclCtrClear]
  repeat' first
      | with_reducible assumption | intro _ | with_reducible apply Onward.ite | with_reducible apply Onward.fst_ite
      | with_reducible apply Onward.snd_ite | with_reducible apply Onward.onFcl

theorem Onward.execFclCtrClear (a0 : ℕ) (a1 : Reader) (a2 : Word) (h : Onward x₀ s) :
    ∀ u, (execFclCtrClear a0 a1 a2 s) = .next u → Onward x₀ u := by
  intro u e
  obtain rfl := Host.Outcome.next.inj e
  repeat' first
      | with_reducible assumption | intro _ | with_reducible apply Onward.wt | with_reducible apply Onward.fclCtrClear
      | with_reducible apply Onward.tick

end Sys2Proof.Machine
end

