-- ==== Sys2Proof/Laws/OnwardCounters.lean ====
section
/-! SUPPORT. What Counters.lean keeps (Laws/Onward.lean). -/

namespace Sys2Proof.Machine

variable {x₀ s : State}

theorem Onward.cntAdvance (a0 : ℕ) (h : Onward x₀ s) :
    Onward x₀ (State.cntAdvance a0 s) := by
  unfold State.cntAdvance
  refine .ite (.raise _ _ _ _ _ h) (h.blocks rfl (Nat.le_refl _) ⟨Nat.le_refl _, fun c i hi => ?_, fun h => h⟩)
  show i ∈ nget (nupd s.b.otp.counters a0 [] fun l => s.b.cntValue a0 :: l) c []
  rw [nget_nupd]
  split
  · subst c; exact List.mem_cons_of_mem _ hi
  · exact hi

theorem Onward.cntRaise (a0 : ℕ) (a1 : ℕ) (a2 : ℕ) (h : Onward x₀ s) :
    Onward x₀ (State.cntRaise a0 a1 a2 s) := by
  induction a1 generalizing s with
  | zero => exact h
  | succ n ih =>
    dsimp only [State.cntRaise]
    split
    · exact h
    · split
      · exact .cntAdvance _ h
      · exact ih (.cntAdvance _ h)

end Sys2Proof.Machine
end

