-- ==== Sys2Proof/Laws/OnwardNandStore.lean ====
section
/-! SUPPORT. What NandStore.lean keeps (Laws/Onward.lean). -/

namespace Sys2Proof.Machine

variable {x₀ s : State}

theorem Onward.nandFail (a0 : ℕ) (h : Onward x₀ s) :
    Onward x₀ (State.nandFail a0 s) := by
  dsimp only [State.nandFail]
  repeat' first
      | with_reducible assumption | intro _ | with_reducible apply Onward.ite | with_reducible apply Onward.fst_ite
      | with_reducible apply Onward.snd_ite | with_reducible apply Onward.cntAdvance
      | with_reducible apply Onward.onRecd | with_reducible apply Onward.cond | with_reducible apply Onward.record

theorem Onward.nandProgram (a0 : Bool) (h : Onward x₀ s) :
    Onward x₀ (State.nandProgram a0 s) := by
  dsimp only [State.nandProgram]
  repeat' first
      | with_reducible assumption | intro _ | with_reducible apply Onward.ite | with_reducible apply Onward.fst_ite
      | with_reducible apply Onward.snd_ite | with_reducible apply Onward.onRecd
      | with_reducible apply Onward.nandFail | rfl | split | assumption | exact Recorder.nand_program _ _ ‹_›

theorem Onward.execNandProgramComplete (a0 : ℕ) (a1 : Bool) (h : Onward x₀ s) :
    ∀ u, (execNandProgramComplete a0 a1 s) = .next u → Onward x₀ u := by
  intro u e
  obtain rfl := Host.Outcome.next.inj e
  repeat' first
      | with_reducible assumption | intro _ | with_reducible apply Onward.nandProgram
      | with_reducible apply Onward.tick

theorem Onward.wearCheck (a0 : ℕ) (h : Onward x₀ s) :
    Onward x₀ (State.wearCheck a0 s) := by
  dsimp only [State.wearCheck]
  repeat' first
      | with_reducible assumption | intro _ | with_reducible apply Onward.ite | with_reducible apply Onward.fst_ite
      | with_reducible apply Onward.snd_ite | with_reducible apply Onward.raise

theorem Onward.blockErased (a0 : ℕ) (a1 : Bool) (h : Onward x₀ s) :
    Onward x₀ (State.blockErased a0 a1 s) := by
  dsimp only [State.blockErased]
  repeat' first
      | with_reducible assumption | intro _ | with_reducible apply Onward.ite | with_reducible apply Onward.fst_ite
      | with_reducible apply Onward.snd_ite | with_reducible apply Onward.wearCheck
      | with_reducible apply Onward.onRecd | with_reducible apply Onward.raise | with_reducible apply Onward.nandFail
      | rfl | split | assumption | exact Recorder.nand_emptied _ _ ‹_›

theorem Onward.execBlockEraseComplete (a0 : ℕ) (a1 : ℕ) (a2 : Bool) (h : Onward x₀ s) :
    ∀ u, (execBlockEraseComplete a0 a1 a2 s) = .next u → Onward x₀ u := by
  intro u e
  obtain rfl := Host.Outcome.next.inj e
  repeat' first
      | with_reducible assumption | intro _ | with_reducible apply Onward.blockErased
      | with_reducible apply Onward.tick

theorem Onward.execNandTimeout (a0 : ℕ) (h : Onward x₀ s) :
    ∀ u, (execNandTimeout a0 s) = .next u → Onward x₀ u := by
  intro u e
  obtain rfl := Host.Outcome.next.inj e
  repeat' first
      | with_reducible assumption | intro _ | with_reducible apply Onward.ite | with_reducible apply Onward.fst_ite
      | with_reducible apply Onward.snd_ite | with_reducible apply Onward.nandFail | with_reducible apply Onward.tick

theorem Onward.powerUpRecord (h : Onward x₀ s) :
    Onward x₀ (State.powerUpRecord s) := by
  dsimp only [State.powerUpRecord]
  repeat' first | with_reducible assumption | intro _ | with_reducible apply Onward.record

theorem Onward.enterHeld (a0 : ℕ) (a1 : ℕ) (a2 : Record) (h : Onward x₀ s) :
    Onward x₀ (State.enterHeld a0 a1 a2 s) := by
  dsimp only [State.enterHeld]
  repeat' first | with_reducible assumption | intro _ | with_reducible apply Onward.makeRecord

theorem Onward.lifeRecordAtStart (a0 : Option Record) (h : Onward x₀ s) :
    Onward x₀ (State.lifeRecordAtStart a0 s) := by
  dsimp only [State.lifeRecordAtStart]
  repeat' first
      | with_reducible assumption | intro _ | with_reducible apply Onward.ite | with_reducible apply Onward.fst_ite
      | with_reducible apply Onward.snd_ite | with_reducible apply Onward.raise | with_reducible apply Onward.record
      | rfl | split

theorem Onward.headFound (h : Onward x₀ s) :
    Onward x₀ (State.headFound s) := by
  dsimp only [State.headFound]
  repeat' first
      | with_reducible assumption | intro _ | with_reducible apply Onward.ite | with_reducible apply Onward.fst_ite
      | with_reducible apply Onward.snd_ite | with_reducible apply Onward.forL | with_reducible apply Onward.forL_fst
      | with_reducible apply Onward.cond | with_reducible apply Onward.onSys | with_reducible apply Onward.onTsy
      | with_reducible apply Onward.onTru | with_reducible apply Onward.onRecd
      | with_reducible apply Onward.powerUpRecord | with_reducible apply Onward.raise
      | with_reducible apply Onward.enterHeld | with_reducible apply Onward.lifeRecordAtStart | rfl | split
      | assumption

theorem Onward.execHeadSearchComplete (a0 : ℕ) (h : Onward x₀ s) :
    ∀ u, (execHeadSearchComplete a0 s) = .next u → Onward x₀ u := by
  intro u e
  obtain rfl := Host.Outcome.next.inj e
  repeat' first
      | with_reducible assumption | intro _ | with_reducible apply Onward.headFound | with_reducible apply Onward.tick

theorem Onward.windowLoad (a0 : ℕ) (a1 : Word) (h : Onward x₀ s) :
    Onward x₀ (State.windowLoad a0 a1 s).1 := by
  dsimp only [State.windowLoad]
  repeat' first
      | with_reducible assumption | intro _ | with_reducible apply Onward.onRecd | with_reducible apply Onward.setOwn

theorem Onward.execRecWindowLoad (a0 : ℕ) (a1 : Reader) (a2 : Word) (h : Onward x₀ s) :
    ∀ u, (execRecWindowLoad a0 a1 a2 s) = .next u → Onward x₀ u := by
  intro u e
  obtain rfl := Host.Outcome.next.inj e
  repeat' first
      | with_reducible assumption | intro _ | with_reducible apply Onward.plain
      | with_reducible apply Onward.windowLoad | with_reducible apply Onward.tick

theorem Onward.windowRead (a0 : ℕ) (h : Onward x₀ s) :
    Onward x₀ (State.windowRead a0 s) := by
  dsimp only [State.windowRead]
  repeat' first | with_reducible assumption | intro _ | with_reducible apply Onward.onRecd

theorem Onward.clearRolling (a0 : Reader) (a1 : ℕ) (a2 : ℕ) (h : Onward x₀ s) :
    Onward x₀ (State.clearRolling a0 a1 a2 s) := by
  dsimp only [State.clearRolling]
  repeat' first
      | with_reducible assumption | intro _ | with_reducible apply Onward.ite | with_reducible apply Onward.fst_ite
      | with_reducible apply Onward.snd_ite | with_reducible apply Onward.record | with_reducible apply Onward.onRecd

theorem Onward.recClear (a0 : Reader) (a1 : Word) (h : Onward x₀ s) :
    Onward x₀ (State.recClear a0 a1 s).1 := by
  dsimp only [State.recClear]
  repeat' first
      | with_reducible assumption | intro _ | with_reducible apply Onward.ite | with_reducible apply Onward.fst_ite
      | with_reducible apply Onward.snd_ite | with_reducible apply Onward.newNonce
      | with_reducible apply Onward.clearRolling | with_reducible apply Onward.raise

theorem Onward.execRecClear (a0 : ℕ) (a1 : Reader) (a2 : Word) (h : Onward x₀ s) :
    ∀ u, (execRecClear a0 a1 a2 s) = .next u → Onward x₀ u := by
  intro u e
  obtain rfl := Host.Outcome.next.inj e
  repeat' first
      | with_reducible assumption | intro _ | with_reducible apply Onward.wt | with_reducible apply Onward.recClear
      | with_reducible apply Onward.tick

theorem Onward.clearErased (h : Onward x₀ s) :
    Onward x₀ (State.clearErased s) := by
  dsimp only [State.clearErased]
  repeat' first
      | with_reducible assumption | intro _ | with_reducible apply Onward.ite | with_reducible apply Onward.fst_ite
      | with_reducible apply Onward.snd_ite | with_reducible apply Onward.forL | with_reducible apply Onward.forL_fst
      | with_reducible apply Onward.wearCheck | with_reducible apply Onward.onRecd | rfl | split | assumption
      | exact Recorder.nand_emptied _ _ ‹_›

theorem Onward.execClearEraseComplete (a0 : ℕ) (h : Onward x₀ s) :
    ∀ u, (execClearEraseComplete a0 s) = .next u → Onward x₀ u := by
  intro u e
  obtain rfl := Host.Outcome.next.inj e
  repeat' first
      | with_reducible assumption | intro _ | with_reducible apply Onward.clearErased
      | with_reducible apply Onward.tick

theorem Onward.fwRequest (a0 : Word) (h : Onward x₀ s) :
    Onward x₀ (State.fwRequest a0 s).1 := by
  dsimp only [State.fwRequest]
  repeat' first
      | with_reducible assumption | intro _ | with_reducible apply Onward.ite | with_reducible apply Onward.fst_ite
      | with_reducible apply Onward.snd_ite | with_reducible apply Onward.record

theorem Onward.execRecFwReq (a0 : ℕ) (a1 : Reader) (a2 : Word) (h : Onward x₀ s) :
    ∀ u, (execRecFwReq a0 a1 a2 s) = .next u → Onward x₀ u := by
  intro u e
  obtain rfl := Host.Outcome.next.inj e
  repeat' first
      | with_reducible assumption | intro _ | with_reducible apply Onward.wt | with_reducible apply Onward.fwRequest
      | with_reducible apply Onward.tick

theorem Onward.recCtrClear (a0 : Word) (h : Onward x₀ s) :
    Onward x₀ (State.recCtrClear a0 s).1 := by
  dsimp only [State.recCtrClear]
  repeat' first
      | with_reducible assumption | intro _ | with_reducible apply Onward.ite | with_reducible apply Onward.fst_ite
      | with_reducible apply Onward.snd_ite | with_reducible apply Onward.onRecd

theorem Onward.execRecCtrClear (a0 : ℕ) (a1 : Reader) (a2 : Word) (h : Onward x₀ s) :
    ∀ u, (execRecCtrClear a0 a1 a2 s) = .next u → Onward x₀ u := by
  intro u e
  obtain rfl := Host.Outcome.next.inj e
  repeat' first
      | with_reducible assumption | intro _ | with_reducible apply Onward.wt | with_reducible apply Onward.recCtrClear
      | with_reducible apply Onward.tick

theorem Onward.onExport (a0 : ℕ) (a1 : Export → Export) (h : Onward x₀ s) :
    Onward x₀ (State.onExport a0 a1 s) := by
  dsimp only [State.onExport]
  repeat' first | with_reducible assumption | intro _ | with_reducible apply Onward.onRecd

theorem Onward.exportBegin (a0 : ℕ) (h : Onward x₀ s) :
    Onward x₀ (State.exportBegin a0 s).1 := by
  dsimp only [State.exportBegin]
  repeat' first
      | with_reducible assumption | intro _ | with_reducible apply Onward.ite | with_reducible apply Onward.fst_ite
      | with_reducible apply Onward.snd_ite | with_reducible apply Onward.onExport

theorem Onward.execExportStart (a0 : ℕ) (a1 : Reader) (a2 : BitVec 16) (h : Onward x₀ s) :
    ∀ u, (execExportStart a0 a1 a2 s) = .next u → Onward x₀ u := by
  intro u e
  obtain rfl := Host.Outcome.next.inj e
  repeat' first
      | with_reducible assumption | intro _ | with_reducible apply Onward.wt | with_reducible apply Onward.exportBegin
      | with_reducible apply Onward.tick

theorem Onward.exportAbandon (a0 : ℕ) (h : Onward x₀ s) :
    Onward x₀ (State.exportAbandon a0 s).1 := by
  dsimp only [State.exportAbandon]
  repeat' first | with_reducible assumption | intro _ | with_reducible apply Onward.onExport

theorem Onward.execExportAbandon (a0 : ℕ) (a1 : Reader) (a2 : BitVec 16) (h : Onward x₀ s) :
    ∀ u, (execExportAbandon a0 a1 a2 s) = .next u → Onward x₀ u := by
  intro u e
  obtain rfl := Host.Outcome.next.inj e
  repeat' first
      | with_reducible assumption | intro _ | with_reducible apply Onward.wt
      | with_reducible apply Onward.exportAbandon | with_reducible apply Onward.tick

theorem Onward.exportFinish (a0 : ℕ) (h : Onward x₀ s) :
    Onward x₀ (State.exportFinish a0 s) := by
  dsimp only [State.exportFinish]
  repeat' first
      | with_reducible assumption | intro _ | with_reducible apply Onward.ite | with_reducible apply Onward.fst_ite
      | with_reducible apply Onward.snd_ite | with_reducible apply Onward.onExport

theorem Onward.execExportComplete (a0 : ℕ) (a1 : Reader) (h : Onward x₀ s) :
    ∀ u, (execExportComplete a0 a1 s) = .next u → Onward x₀ u := by
  intro u e
  obtain rfl := Host.Outcome.next.inj e
  repeat' first
      | with_reducible assumption | intro _ | with_reducible apply Onward.exportFinish
      | with_reducible apply Onward.tick

end Sys2Proof.Machine
end

