-- ==== Sys2Proof/Laws/OnwardBlockReset.lean ====
section
/-! SUPPORT. What BlockReset.lean keeps (Laws/Onward.lean). -/

namespace Sys2Proof.Machine

variable {x₀ s : State}

theorem Onward.holdAll (h : Onward x₀ s) :
    Onward x₀ (State.holdAll s) := by
  dsimp only [State.holdAll]
  repeat' first
      | with_reducible assumption | intro _ | with_reducible apply Onward.forN | with_reducible apply Onward.onSto
      | with_reducible apply Onward.onSog

theorem Onward.blockFirstUse (a0 : Block) (h : Onward x₀ s) :
    Onward x₀ (State.blockFirstUse a0 s) := by
  dsimp only [State.blockFirstUse]
  repeat' first
      | with_reducible assumption | intro _ | with_reducible apply Onward.holdAll | with_reducible apply Onward.onMea
      | with_reducible apply Onward.onFab | with_reducible apply Onward.lioFirstUse
      | with_reducible apply Onward.tpgFirstUse | with_reducible apply Onward.onSog
      | with_reducible apply Onward.onSto | with_reducible apply Onward.axesBegin | with_reducible apply Onward.onSep
      | with_reducible apply Onward.onNet | with_reducible apply Onward.startSessions
      | with_reducible apply Onward.onRecd | with_reducible apply Onward.onBst | with_reducible apply Onward.onHif
      | with_reducible apply Onward.onPair | with_reducible apply Onward.onCvu | rfl | split

theorem Onward.fabStops (h : Onward x₀ s) :
    Onward x₀ (State.fabStops s) := by
  dsimp only [State.fabStops]
  repeat' first
      | with_reducible assumption | intro _ | with_reducible apply Onward.safeFields
      | with_reducible apply Onward.darkAborts | with_reducible apply Onward.onSys
      | with_reducible apply Onward.framed

theorem Onward.blockStops (a0 : Block) (h : Onward x₀ s) :
    Onward x₀ (State.blockStops a0 s) := by
  unfold State.blockStops
  split
  · exact .onRecd _ (.ite (.onRecd _ h (Recorder.nand_flush _ _)) h) (Recorder.nand_rebuilt _ _)
  · exact .fabStops h
  · exact .darkAborts h
  · exact .blockFirstUse _ (.sporeAbort _ _ (.sporeAbort _ _ h))
  · exact .blockFirstUse _ h

theorem Onward.beginReset (a0 : Block) (h : Onward x₀ s) :
    Onward x₀ (State.beginReset a0 s) := by
  dsimp only [State.beginReset]
  repeat' first
      | with_reducible assumption | intro _ | with_reducible apply Onward.ite | with_reducible apply Onward.fst_ite
      | with_reducible apply Onward.snd_ite | with_reducible apply Onward.blockStops
      | with_reducible apply Onward.sporesOff | with_reducible apply Onward.on | exact .of_eq rfl rfl rfl rfl

theorem Onward.completeReset (a0 : Block) (a1 : Bool) (h : Onward x₀ s) :
    Onward x₀ (State.completeReset a0 a1 s) := by
  dsimp only [State.completeReset]
  repeat' first
      | with_reducible assumption | intro _ | with_reducible apply Onward.ite | with_reducible apply Onward.fst_ite
      | with_reducible apply Onward.snd_ite | with_reducible apply Onward.on
      | with_reducible apply Onward.blockFirstUse | with_reducible apply Onward.raise | exact .of_eq rfl rfl rfl rfl

theorem Onward.execBlockResetComplete (a0 : ℕ) (a1 : Block) (a2 : Bool) (h : Onward x₀ s) :
    ∀ u, (execBlockResetComplete a0 a1 a2 s) = .next u → Onward x₀ u := by
  intro u e
  obtain rfl := Host.Outcome.next.inj e
  repeat' first
      | with_reducible assumption | intro _ | with_reducible apply Onward.completeReset
      | with_reducible apply Onward.tick

end Sys2Proof.Machine
end

