-- ==== Sys2Proof/Laws/OnwardSpores.lean ====
section
/-! SUPPORT. What Spores.lean keeps (Laws/Onward.lean). -/

namespace Sys2Proof.Machine

variable {x₀ s : State}

theorem Onward.sporeStart (a0 : Ch) (h : Onward x₀ s) :
    Onward x₀ (State.sporeStart a0 s) := by
  dsimp only [State.sporeStart]
  repeat' first
      | with_reducible assumption | intro _ | with_reducible apply Onward.ite | with_reducible apply Onward.fst_ite
      | with_reducible apply Onward.snd_ite | with_reducible apply Onward.onSeqr | with_reducible apply Onward.onPair
      | rfl | split | assumption

theorem Onward.execSporeStart (a0 : ℕ) (a1 : Ch) (h : Onward x₀ s) :
    ∀ u, (execSporeStart a0 a1 s) = .next u → Onward x₀ u := by
  intro u e
  obtain rfl := Host.Outcome.next.inj e
  repeat' first
      | with_reducible assumption | intro _ | with_reducible apply Onward.sporeStart
      | with_reducible apply Onward.tick

theorem Onward.execSporeAbort (a0 : ℕ) (a1 : Ch) (a2 : AbortCause) (h : Onward x₀ s) :
    ∀ u, (execSporeAbort a0 a1 a2 s) = .next u → Onward x₀ u := by
  intro u e
  obtain rfl := Host.Outcome.next.inj e
  repeat' first
      | with_reducible assumption | intro _ | with_reducible apply Onward.sporeAbort
      | with_reducible apply Onward.tick

theorem Onward.loseLane (a0 : Ch) (a1 : ℕ) (h : Onward x₀ s) :
    Onward x₀ (State.loseLane a0 a1 s) := by
  dsimp only [State.loseLane]
  repeat' first
      | with_reducible assumption | intro _ | with_reducible apply Onward.raise | with_reducible apply Onward.onFab

theorem Onward.dropFrames (a0 : List (ℕ × ℕ)) (h : Onward x₀ s) :
    Onward x₀ (State.dropFrames a0 s) := by
  dsimp only [State.dropFrames]
  repeat' first
      | with_reducible assumption | intro _ | with_reducible apply Onward.forL | with_reducible apply Onward.forL_fst
      | with_reducible apply Onward.onPort

theorem Onward.dropRecords (a0 : List ℕ) (h : Onward x₀ s) :
    Onward x₀ (State.dropRecords a0 s) := by
  dsimp only [State.dropRecords]
  repeat' first | with_reducible assumption | intro _ | with_reducible apply Onward.onRecd

theorem Onward.cacheLost (a0 : Ch) (a1 : ℕ) (h : Onward x₀ s) :
    Onward x₀ (State.cacheLost a0 a1 s) := by
  dsimp only [State.cacheLost]
  repeat' first
      | with_reducible assumption | intro _ | with_reducible apply Onward.raise | with_reducible apply Onward.onPair
      | rfl | exact (Pair.memWf_onCore _ _ _).trans ‹_›

theorem Onward.regionLost (a0 : Ch) (a1 : ℕ) (a2 : LostRegion) (h : Onward x₀ s) :
    Onward x₀ (State.regionLost a0 a1 a2 s) := by
  dsimp only [State.regionLost]
  repeat' first
      | with_reducible assumption | intro _ | with_reducible apply Onward.loseLane | with_reducible apply Onward.onFab
      | with_reducible apply Onward.beginReset | with_reducible apply Onward.memUncorrectable
      | with_reducible apply Onward.cacheLost | with_reducible apply Onward.dropFrames
      | with_reducible apply Onward.dropRecords | with_reducible apply Onward.raise | rfl | split

theorem Onward.fallBack (a0 : Ch) (a1 : Running) (a2 : LostRegion) (h : Onward x₀ s) :
    Onward x₀ (State.fallBack a0 a1 a2 s) := by
  dsimp only [State.fallBack]
  repeat' first
      | with_reducible assumption | intro _ | with_reducible apply Onward.raise | with_reducible apply Onward.onSeqr
      | with_reducible apply Onward.sporeEnds | with_reducible apply Onward.regionLost

theorem Onward.noteFail (a0 : Ch) (a1 : Running) (a2 : SporeFinding) (h : Onward x₀ s) :
    Onward x₀ (State.noteFail a0 a1 a2 s) := by
  dsimp only [State.noteFail]
  repeat' first | with_reducible assumption | intro _ | with_reducible apply Onward.onSeqr

theorem Onward.toneFail (a0 : ℕ) (h : Onward x₀ s) :
    Onward x₀ (State.toneFail a0 s) := by
  dsimp only [State.toneFail]
  repeat' first
      | with_reducible assumption | intro _ | with_reducible apply Onward.ite | with_reducible apply Onward.fst_ite
      | with_reducible apply Onward.snd_ite | with_reducible apply Onward.encFail
      | with_reducible apply Onward.ainFail

theorem Onward.compareMemory (a0 : ℕ) (a1 : SporeFinding) (h : Onward x₀ s) :
    Onward x₀ (State.compareMemory a0 a1 s) := by
  dsimp only [State.compareMemory]
  repeat' first
      | with_reducible assumption | intro _ | with_reducible apply Onward.forL | with_reducible apply Onward.forL_fst
      | with_reducible apply Onward.memUncorrectable | with_reducible apply Onward.compareBlock

theorem Onward.compareInjections (a0 : SporeFinding) (h : Onward x₀ s) :
    Onward x₀ (State.compareInjections a0 s) := by
  dsimp only [State.compareInjections]
  repeat' first
      | with_reducible assumption | intro _ | with_reducible apply Onward.ite | with_reducible apply Onward.fst_ite
      | with_reducible apply Onward.snd_ite | with_reducible apply Onward.blockAll | with_reducible apply Onward.raise
      | with_reducible apply Onward.onBst | with_reducible apply Onward.onAgr | rfl

theorem Onward.sporeResult (a0 : Ch) (a1 : Running) (a2 : SporeFinding) (h : Onward x₀ s) :
    Onward x₀ (State.sporeResult a0 a1 a2 s) := by
  dsimp only [State.sporeResult]
  repeat' first
      | with_reducible assumption | intro _ | with_reducible apply Onward.ite | with_reducible apply Onward.fst_ite
      | with_reducible apply Onward.snd_ite | with_reducible apply Onward.raise | with_reducible apply Onward.noteFail
      | with_reducible apply Onward.compareMemory | with_reducible apply Onward.compareInjections
      | with_reducible apply Onward.toneFail | rfl | split

theorem Onward.passEnds (h : Onward x₀ s) :
    Onward x₀ (State.passEnds s) := by
  dsimp only [State.passEnds]
  repeat' first
      | with_reducible assumption | intro _ | with_reducible apply Onward.ite | with_reducible apply Onward.fst_ite
      | with_reducible apply Onward.snd_ite | with_reducible apply Onward.onAgr | with_reducible apply Onward.onBst
      | with_reducible apply Onward.cond | rfl

theorem Onward.sporeDone (a0 : Ch) (a1 : Running) (h : Onward x₀ s) :
    Onward x₀ (State.sporeDone a0 a1 s) := by
  dsimp only [State.sporeDone]
  repeat' first
      | with_reducible assumption | intro _ | with_reducible apply Onward.ite | with_reducible apply Onward.fst_ite
      | with_reducible apply Onward.snd_ite | with_reducible apply Onward.onSeqr
      | with_reducible apply Onward.passEnds

theorem Onward.sporeStep (a0 : Ch) (a1 : SporeFinding) (h : Onward x₀ s) :
    Onward x₀ (State.sporeStep a0 a1 s) := by
  dsimp only [State.sporeStep]
  repeat' first
      | with_reducible assumption | intro _ | with_reducible apply Onward.ite | with_reducible apply Onward.fst_ite
      | with_reducible apply Onward.snd_ite | with_reducible apply Onward.sporeAbort
      | with_reducible apply Onward.fallBack | with_reducible apply Onward.sporeDone
      | with_reducible apply Onward.sporeResult | with_reducible apply Onward.sporeEnds
      | with_reducible apply Onward.onSeqr | rfl | split

theorem Onward.execSporeStep (a0 : ℕ) (a1 : Ch) (a2 : SporeFinding) (h : Onward x₀ s) :
    ∀ u, (execSporeStep a0 a1 a2 s) = .next u → Onward x₀ u := by
  intro u e
  obtain rfl := Host.Outcome.next.inj e
  repeat' first
      | with_reducible assumption | intro _ | with_reducible apply Onward.sporeStep | with_reducible apply Onward.tick

theorem Onward.dtiExceeded (h : Onward x₀ s) :
    Onward x₀ (State.dtiExceeded s) := by
  dsimp only [State.dtiExceeded]
  repeat' first
      | with_reducible assumption | intro _ | with_reducible apply Onward.ite | with_reducible apply Onward.fst_ite
      | with_reducible apply Onward.snd_ite | with_reducible apply Onward.cond

theorem Onward.execDtiExceeded (a0 : ℕ) (h : Onward x₀ s) :
    ∀ u, (execDtiExceeded a0 s) = .next u → Onward x₀ u := by
  intro u e
  obtain rfl := Host.Outcome.next.inj e
  repeat' first
      | with_reducible assumption | intro _ | with_reducible apply Onward.dtiExceeded
      | with_reducible apply Onward.tick

theorem Onward.bstCtrl (a0 : Ch) (a1 : Word) (h : Onward x₀ s) :
    Onward x₀ (State.bstCtrl a0 a1 s).1 := by
  dsimp only [State.bstCtrl]
  repeat' first
      | with_reducible assumption | intro _ | with_reducible apply Onward.ite | with_reducible apply Onward.fst_ite
      | with_reducible apply Onward.snd_ite | with_reducible apply Onward.onSeqr

theorem Onward.execBstSuspend (a0 : ℕ) (a1 : Reader) (a2 : Ch) (a3 : Word) (h : Onward x₀ s) :
    ∀ u, (execBstSuspend a0 a1 a2 a3 s) = .next u → Onward x₀ u := by
  intro u e
  obtain rfl := Host.Outcome.next.inj e
  repeat' first
      | with_reducible assumption | intro _ | with_reducible apply Onward.expertAt
      | with_reducible apply Onward.bstCtrl | with_reducible apply Onward.tick

theorem Onward.execBstForce (a0 : ℕ) (a1 : Reader) (a2 : Ch) (a3 : Word) (h : Onward x₀ s) :
    ∀ u, (execBstForce a0 a1 a2 a3 s) = .next u → Onward x₀ u := by
  intro u e
  obtain rfl := Host.Outcome.next.inj e
  repeat' first
      | with_reducible assumption | intro _ | with_reducible apply Onward.expertAt
      | with_reducible apply Onward.bstCtrl | with_reducible apply Onward.tick

theorem Onward.bstCtrClear (a0 : Ch) (a1 : Word) (h : Onward x₀ s) :
    Onward x₀ (State.bstCtrClear a0 a1 s).1 := by
  dsimp only [State.bstCtrClear]
  repeat' first
      | with_reducible assumption | intro _ | with_reducible apply Onward.ite | with_reducible apply Onward.fst_ite
      | with_reducible apply Onward.snd_ite | with_reducible apply Onward.onSeqr

theorem Onward.execBstCtrClear (a0 : ℕ) (a1 : Reader) (a2 : Ch) (a3 : Word) (h : Onward x₀ s) :
    ∀ u, (execBstCtrClear a0 a1 a2 a3 s) = .next u → Onward x₀ u := by
  intro u e
  obtain rfl := Host.Outcome.next.inj e
  repeat' first
      | with_reducible assumption | intro _ | with_reducible apply Onward.wt | with_reducible apply Onward.bstCtrClear
      | with_reducible apply Onward.tick

end Sys2Proof.Machine
end

