-- ==== Sys2Proof/Laws/OnwardRounds.lean ====
section
/-! SUPPORT. What Rounds.lean keeps (Laws/Onward.lean). -/

namespace Sys2Proof.Machine

variable {x₀ s : State}

theorem Onward.hifPend (a0 : ℕ) (h : Onward x₀ s) :
    Onward x₀ (State.hifPend a0 s) := by
  dsimp only [State.hifPend]
  repeat' first | with_reducible assumption | intro _ | with_reducible apply Onward.onHif

theorem Onward.reactReset (a0 : Change) (h : Onward x₀ s) :
    Onward x₀ (State.reactReset a0 s) := by
  dsimp only [State.reactReset]
  repeat' first | with_reducible assumption | intro _ | with_reducible apply Onward.beginReset | rfl | split

theorem Onward.react (a0 : Change) (h : Onward x₀ s) :
    Onward x₀ (State.react a0 s) := by
  dsimp only [State.react]
  repeat' first
      | with_reducible assumption | intro _ | with_reducible apply Onward.ite | with_reducible apply Onward.fst_ite
      | with_reducible apply Onward.snd_ite | with_reducible apply Onward.enterHalt
      | with_reducible apply Onward.stopZones | with_reducible apply Onward.deliverNmi
      | with_reducible apply Onward.reactReset | with_reducible apply Onward.chipDue
      | with_reducible apply Onward.hifPend | with_reducible apply Onward.onCvu

theorem Onward.onClear (a0 : ℕ) (h : Onward x₀ s) :
    Onward x₀ (State.onClear a0 s) := by
  dsimp only [State.onClear]
  repeat' first
      | with_reducible assumption | intro _ | with_reducible apply Onward.ite | with_reducible apply Onward.fst_ite
      | with_reducible apply Onward.snd_ite | with_reducible apply Onward.cleared144
      | with_reducible apply Onward.clearedTpf | with_reducible apply Onward.onSog | with_reducible apply Onward.onSto
      | with_reducible apply Onward.clearedEnc | with_reducible apply Onward.clearedAin
      | with_reducible apply Onward.clearedAxs | with_reducible apply Onward.cleared372
      | with_reducible apply Onward.cleared395

theorem Onward.unlatch (a0 : Clear) (a1 : ℕ) (a2 : ℕ) (h : Onward x₀ s) :
    Onward x₀ (State.unlatch a0 a1 a2 s) := by
  dsimp only [State.unlatch]
  repeat' first
      | with_reducible assumption | intro _ | with_reducible apply Onward.ite | with_reducible apply Onward.fst_ite
      | with_reducible apply Onward.snd_ite | with_reducible apply Onward.onFcl | with_reducible apply Onward.record
      | with_reducible apply Onward.onClear

theorem Onward.runClear (a0 : List Change) (a1 : Clear) (h : Onward x₀ s) :
    Onward x₀ (State.runClear a0 a1 s) := by
  dsimp only [State.runClear]
  repeat' first
      | with_reducible assumption | intro _ | with_reducible apply Onward.ite | with_reducible apply Onward.fst_ite
      | with_reducible apply Onward.snd_ite | with_reducible apply Onward.forL | with_reducible apply Onward.forL_fst
      | with_reducible apply Onward.unlatch | with_reducible apply Onward.onSys | with_reducible apply Onward.settle

theorem Onward.applyRound (a0 : List Change) (h : Onward x₀ s) :
    Onward x₀ (State.applyRound a0 s) := by
  dsimp only [State.applyRound]
  repeat' first
      | with_reducible assumption | intro _ | with_reducible apply Onward.onSto | with_reducible apply Onward.onSog
      | with_reducible apply Onward.onSys | with_reducible apply Onward.onFcl

theorem Onward.newRound (h : Onward x₀ s) :
    Onward x₀ (State.newRound s) := by
  dsimp only [State.newRound]
  repeat' first | with_reducible assumption | intro _ | with_reducible apply Onward.onFcl

theorem Onward.healthTriggers (a0 : Blocks) (h : Onward x₀ s) :
    Onward x₀ (State.healthTriggers a0 s) := by
  dsimp only [State.healthTriggers]
  repeat' first
      | with_reducible assumption | intro _ | with_reducible apply Onward.forL | with_reducible apply Onward.forL_fst
      | with_reducible apply Onward.trigger

theorem Onward.roundClose (h : Onward x₀ s) :
    Onward x₀ (State.roundClose s) := by
  dsimp only [State.roundClose]
  repeat' first
      | with_reducible assumption | intro _ | with_reducible apply Onward.ite | with_reducible apply Onward.fst_ite
      | with_reducible apply Onward.snd_ite | with_reducible apply Onward.forL | with_reducible apply Onward.forL_fst
      | with_reducible apply Onward.darkAborts | with_reducible apply Onward.applyRound
      | with_reducible apply Onward.recordRound | with_reducible apply Onward.newRound
      | with_reducible apply Onward.react | with_reducible apply Onward.runClear
      | with_reducible apply Onward.rearmStart | with_reducible apply Onward.healthTriggers
      | with_reducible apply Onward.errUpdate | with_reducible apply Onward.updateReady

theorem Onward.execRoundClose (a0 : ℕ) (h : Onward x₀ s) :
    ∀ u, (execRoundClose a0 s) = .next u → Onward x₀ u := by
  intro u e
  obtain rfl := Host.Outcome.next.inj e
  repeat' first
      | with_reducible assumption | intro _ | with_reducible apply Onward.roundClose
      | with_reducible apply Onward.tick

end Sys2Proof.Machine
end

