-- ==== Sys2Proof/Laws/OnwardOtp.lean ====
section
/-! SUPPORT. What Otp.lean keeps (Laws/Onward.lean). -/

namespace Sys2Proof.Machine

variable {x₀ s : State}

theorem Onward.burnBit (a0 : ℕ) (h : Onward x₀ s) :
    Onward x₀ (State.burnBit a0 s) := by
  dsimp only [State.burnBit]
  repeat' first | with_reducible assumption | intro _ | with_reducible apply Onward.onOtp | rfl

theorem Onward.latchRhizoid (h : Onward x₀ s) :
    Onward x₀ (State.latchRhizoid s) := by
  dsimp only [State.latchRhizoid]
  repeat' first
      | with_reducible assumption | intro _ | with_reducible apply Onward.ite | with_reducible apply Onward.fst_ite
      | with_reducible apply Onward.snd_ite | with_reducible apply Onward.forL | with_reducible apply Onward.forL_fst
      | with_reducible apply Onward.onOtp | with_reducible apply Onward.raise | rfl

theorem Onward.readWords (h : Onward x₀ s) :
    Onward x₀ (State.readWords s) := by
  dsimp only [State.readWords]
  repeat' first
      | with_reducible assumption | intro _ | with_reducible apply Onward.ite | with_reducible apply Onward.fst_ite
      | with_reducible apply Onward.snd_ite | with_reducible apply Onward.forL | with_reducible apply Onward.forL_fst
      | with_reducible apply Onward.onOtp | with_reducible apply Onward.raise | rfl | split

theorem Onward.readSpares (h : Onward x₀ s) :
    Onward x₀ (State.readSpares s) := by
  dsimp only [State.readSpares]
  repeat' first
      | with_reducible assumption | intro _ | with_reducible apply Onward.ite | with_reducible apply Onward.fst_ite
      | with_reducible apply Onward.snd_ite | with_reducible apply Onward.forL | with_reducible apply Onward.forL_fst
      | with_reducible apply Onward.raise | with_reducible apply Onward.onOtp | rfl

theorem Onward.readRows (h : Onward x₀ s) :
    Onward x₀ (State.readRows s) := by
  dsimp only [State.readRows]
  repeat' first
      | with_reducible assumption | intro _ | with_reducible apply Onward.forL | with_reducible apply Onward.forL_fst
      | with_reducible apply Onward.raise | with_reducible apply Onward.onOtp | rfl

theorem Onward.readCounters (h : Onward x₀ s) :
    Onward x₀ (State.readCounters s) := by
  dsimp only [State.readCounters]
  repeat' first
      | with_reducible assumption | intro _ | with_reducible apply Onward.ite | with_reducible apply Onward.fst_ite
      | with_reducible apply Onward.snd_ite | with_reducible apply Onward.forL | with_reducible apply Onward.forL_fst
      | with_reducible apply Onward.raise | with_reducible apply Onward.onOtp | rfl

theorem Onward.readDigests (h : Onward x₀ s) :
    Onward x₀ (State.readDigests s) := by
  dsimp only [State.readDigests]
  repeat' first
      | with_reducible assumption | intro _ | with_reducible apply Onward.ite | with_reducible apply Onward.fst_ite
      | with_reducible apply Onward.snd_ite | with_reducible apply Onward.forL | with_reducible apply Onward.forL_fst
      | with_reducible apply Onward.raise | with_reducible apply Onward.onOtp | rfl

theorem Onward.otpStart (h : Onward x₀ s) :
    Onward x₀ (State.otpStart s) := by
  dsimp only [State.otpStart]
  repeat' first
      | with_reducible assumption | intro _ | with_reducible apply Onward.readDigests
      | with_reducible apply Onward.readCounters | with_reducible apply Onward.readRows
      | with_reducible apply Onward.readSpares | with_reducible apply Onward.readWords

theorem Onward.sessionBegin (a0 : Session) (h : Onward x₀ s) :
    Onward x₀ (State.sessionBegin a0 s).1 := by
  dsimp only [State.sessionBegin]
  repeat' first | with_reducible assumption | intro _ | with_reducible apply Onward.onOtp | rfl

theorem Onward.otpGate (a0 : Reader) (a1 : State → State × ℕ) (h_a1 : ∀ t, Onward x₀ t → Onward x₀ (a1 t).1)
    (h : Onward x₀ s) :
    Onward x₀ (State.otpGate a0 a1 s).1 := by
  dsimp only [State.otpGate]
  repeat' first
      | with_reducible assumption | intro _ | with_reducible apply Onward.ite | with_reducible apply Onward.fst_ite
      | with_reducible apply Onward.snd_ite | with_reducible apply h_a1

theorem Onward.burnWord (a0 : Reader) (a1 : BitVec 16) (h : Onward x₀ s) :
    Onward x₀ (State.burnWord a0 a1 s).1 := by
  dsimp only [State.burnWord]
  repeat' first
      | with_reducible assumption | intro _ | with_reducible apply Onward.ite | with_reducible apply Onward.fst_ite
      | with_reducible apply Onward.snd_ite | with_reducible apply Onward.otpGate
      | with_reducible apply Onward.sessionBegin | rfl | split

theorem Onward.finalise (a0 : Reader) (a1 : BitVec 16) (a2 : ℕ) (a3 : Bool) (h : Onward x₀ s) :
    Onward x₀ (State.finalise a0 a1 a2 a3 s).1 := by
  dsimp only [State.finalise]
  repeat' first
      | with_reducible assumption | intro _ | with_reducible apply Onward.ite | with_reducible apply Onward.fst_ite
      | with_reducible apply Onward.snd_ite | with_reducible apply Onward.otpGate
      | with_reducible apply Onward.sessionBegin | rfl | split

theorem Onward.retire (a0 : Reader) (a1 : ℕ) (h : Onward x₀ s) :
    Onward x₀ (State.retire a0 a1 s).1 := by
  dsimp only [State.retire]
  repeat' first
      | with_reducible assumption | intro _ | with_reducible apply Onward.ite | with_reducible apply Onward.fst_ite
      | with_reducible apply Onward.snd_ite | with_reducible apply Onward.forN | with_reducible apply Onward.otpGate
      | with_reducible apply Onward.burnBit | with_reducible apply Onward.onOtp | rfl | split

theorem Onward.burnRow (a0 : Reader) (a1 : BitVec 16) (a2 : ℕ) (h : Onward x₀ s) :
    Onward x₀ (State.burnRow a0 a1 a2 s).1 := by
  dsimp only [State.burnRow]
  repeat' first
      | with_reducible assumption | intro _ | with_reducible apply Onward.ite | with_reducible apply Onward.fst_ite
      | with_reducible apply Onward.snd_ite | with_reducible apply Onward.otpGate
      | with_reducible apply Onward.sessionBegin

theorem Onward.redirectRow (a0 : Reader) (a1 : BitVec 16) (a2 : ℕ) (h : Onward x₀ s) :
    Onward x₀ (State.redirectRow a0 a1 a2 s).1 := by
  dsimp only [State.redirectRow]
  repeat' first
      | with_reducible assumption | intro _ | with_reducible apply Onward.ite | with_reducible apply Onward.fst_ite
      | with_reducible apply Onward.snd_ite | with_reducible apply Onward.otpGate
      | with_reducible apply Onward.sessionBegin | rfl | split

theorem Onward.otpTurn (a0 : Instr) (a1 : State → State × ℕ) (h_a1 : ∀ t, Onward x₀ t → Onward x₀ (a1 t).1)
    (h : Onward x₀ s) :
    Onward x₀ (State.otpTurn a0 a1 s).1 := by
  dsimp only [State.otpTurn]
  repeat' first
      | with_reducible assumption | intro _ | with_reducible apply Onward.ite | with_reducible apply Onward.fst_ite
      | with_reducible apply Onward.snd_ite | with_reducible apply Onward.onOtp | with_reducible apply h_a1 | rfl

theorem Onward.execOtpBurnWord (a0 : ℕ) (a1 : Reader) (a2 : Word) (h : Onward x₀ s) :
    ∀ u, (execOtpBurnWord a0 a1 a2 s) = .next u → Onward x₀ u := by
  intro u e
  obtain rfl := Host.Outcome.next.inj e
  repeat' first
      | with_reducible assumption | intro _ | with_reducible apply Onward.wt | with_reducible apply Onward.otpTurn
      | with_reducible apply Onward.burnWord | with_reducible apply Onward.tick

theorem Onward.execOtpFinalise (a0 : ℕ) (a1 : Reader) (a2 : Word) (h : Onward x₀ s) :
    ∀ u, (execOtpFinalise a0 a1 a2 s) = .next u → Onward x₀ u := by
  intro u e
  obtain rfl := Host.Outcome.next.inj e
  repeat' first
      | with_reducible assumption | intro _ | with_reducible apply Onward.wt | with_reducible apply Onward.otpTurn
      | with_reducible apply Onward.finalise | with_reducible apply Onward.tick

theorem Onward.execOtpRetire (a0 : ℕ) (a1 : Reader) (a2 : Word) (h : Onward x₀ s) :
    ∀ u, (execOtpRetire a0 a1 a2 s) = .next u → Onward x₀ u := by
  intro u e
  obtain rfl := Host.Outcome.next.inj e
  repeat' first
      | with_reducible assumption | intro _ | with_reducible apply Onward.wt | with_reducible apply Onward.otpTurn
      | with_reducible apply Onward.retire | with_reducible apply Onward.tick

theorem Onward.execOtpBurn4408Row (a0 : ℕ) (a1 : Reader) (a2 : Word) (h : Onward x₀ s) :
    ∀ u, (execOtpBurn4408Row a0 a1 a2 s) = .next u → Onward x₀ u := by
  intro u e
  obtain rfl := Host.Outcome.next.inj e
  repeat' first
      | with_reducible assumption | intro _ | with_reducible apply Onward.wt | with_reducible apply Onward.otpTurn
      | with_reducible apply Onward.burnRow | with_reducible apply Onward.tick

theorem Onward.execOtpRedirect4408Row (a0 : ℕ) (a1 : Reader) (a2 : Word) (h : Onward x₀ s) :
    ∀ u, (execOtpRedirect4408Row a0 a1 a2 s) = .next u → Onward x₀ u := by
  intro u e
  obtain rfl := Host.Outcome.next.inj e
  repeat' first
      | with_reducible assumption | intro _ | with_reducible apply Onward.wt | with_reducible apply Onward.otpTurn
      | with_reducible apply Onward.redirectRow | with_reducible apply Onward.tick

theorem Onward.storeWords (a0 : ℕ) (a1 : List (BitVec 72 × BitVec 72)) (h : Onward x₀ s) :
    Onward x₀ (State.storeWords a0 a1 s) := by
  dsimp only [State.storeWords]
  repeat' first
      | with_reducible assumption | intro _ | with_reducible apply Onward.forL | with_reducible apply Onward.forL_fst
      | with_reducible apply Onward.onOtp | rfl

theorem Onward.noteSession (a0 : Session) (a1 : BurnOutcome) (a2 : ℕ) (h : Onward x₀ s) :
    Onward x₀ (State.noteSession a0 a1 a2 s) := by
  dsimp only [State.noteSession]
  repeat' first | with_reducible assumption | intro _ | with_reducible apply Onward.onOtp | rfl

theorem Onward.storeSession (a0 : Session) (a1 : BurnOutcome) (h : Onward x₀ s) :
    Onward x₀ (State.storeSession a0 a1 s) := by
  dsimp only [State.storeSession]
  repeat' first
      | with_reducible assumption | intro _ | with_reducible apply Onward.ite | with_reducible apply Onward.fst_ite
      | with_reducible apply Onward.snd_ite | with_reducible apply Onward.onOtp
      | with_reducible apply Onward.storeWords | rfl | split

theorem Onward.lockRegion (a0 : ℕ) (a1 : Bool) (h : Onward x₀ s) :
    Onward x₀ (State.lockRegion a0 a1 s) := by
  dsimp only [State.lockRegion]
  repeat' first
      | with_reducible assumption | intro _ | with_reducible apply Onward.ite | with_reducible apply Onward.fst_ite
      | with_reducible apply Onward.snd_ite | with_reducible apply Onward.burnBit | rfl | split

theorem Onward.sessionEnds (a0 : Session) (a1 : BurnOutcome) (h : Onward x₀ s) :
    Onward x₀ (State.sessionEnds a0 a1 s).1 := by
  dsimp only [State.sessionEnds]
  repeat' first
      | with_reducible assumption | intro _ | with_reducible apply Onward.ite | with_reducible apply Onward.fst_ite
      | with_reducible apply Onward.snd_ite | with_reducible apply Onward.noteSession
      | with_reducible apply Onward.storeSession | with_reducible apply Onward.onOtp
      | with_reducible apply Onward.raise | with_reducible apply Onward.lockRegion | rfl

theorem Onward.vppEnds (a0 : Session) (a1 : ℕ) (a2 : List (BitVec 72 × BitVec 72)) (h : Onward x₀ s) :
    Onward x₀ (State.vppEnds a0 a1 a2 s) := by
  dsimp only [State.vppEnds]
  repeat' first
      | with_reducible assumption | intro _ | with_reducible apply Onward.onOtp
      | with_reducible apply Onward.storeSession | with_reducible apply Onward.settle
      | with_reducible apply Onward.raise | rfl

theorem Onward.otpReadCmd (a0 : ℕ) (a1 : Word) (h : Onward x₀ s) :
    Onward x₀ (State.otpReadCmd a0 a1 s).1 := by
  dsimp only [State.otpReadCmd]
  repeat' first
      | with_reducible assumption | intro _ | with_reducible apply Onward.ite | with_reducible apply Onward.fst_ite
      | with_reducible apply Onward.snd_ite | with_reducible apply Onward.onOtp | rfl

theorem Onward.execOtpRead (a0 : ℕ) (a1 : Reader) (a2 : Word) (h : Onward x₀ s) :
    ∀ u, (execOtpRead a0 a1 a2 s) = .next u → Onward x₀ u := by
  intro u e
  obtain rfl := Host.Outcome.next.inj e
  repeat' first
      | with_reducible assumption | intro _ | with_reducible apply Onward.plain
      | with_reducible apply Onward.otpReadCmd | with_reducible apply Onward.tick

end Sys2Proof.Machine
end

