-- ==== Sys2Proof/Laws/OnwardIdentity.lean ====
section
/-! SUPPORT. What Identity.lean keeps (Laws/Onward.lean). -/

namespace Sys2Proof.Machine

variable {x₀ s : State}

theorem Onward.lcsRefuse (a0 : ℕ) (h : Onward x₀ s) :
    Onward x₀ (State.lcsRefuse a0 s).1 := by
  dsimp only [State.lcsRefuse]
  repeat' first
      | with_reducible assumption | intro _ | with_reducible apply Onward.ite | with_reducible apply Onward.fst_ite
      | with_reducible apply Onward.snd_ite | with_reducible apply Onward.raise | with_reducible apply Onward.onLcs

theorem Onward.lcsGate (a0 : Reader) (a1 : ℕ) (a2 : Word) (a3 : State → State × ℕ)
    (h_a3 : ∀ t, Onward x₀ t → Onward x₀ (a3 t).1) (h : Onward x₀ s) :
    Onward x₀ (State.lcsGate a0 a1 a2 a3 s).1 := by
  dsimp only [State.lcsGate]
  repeat' first
      | with_reducible assumption | intro _ | with_reducible apply Onward.ite | with_reducible apply Onward.fst_ite
      | with_reducible apply Onward.snd_ite | with_reducible apply Onward.newNonce
      | with_reducible apply Onward.lcsRefuse | with_reducible apply Onward.onLcs | with_reducible apply h_a3

theorem Onward.lcsBlockEnd (a0 : ℕ) (h : Onward x₀ s) :
    Onward x₀ (State.lcsBlockEnd a0 s) := by
  dsimp only [State.lcsBlockEnd]
  repeat' first
      | with_reducible assumption | intro _ | with_reducible apply Onward.ite | with_reducible apply Onward.fst_ite
      | with_reducible apply Onward.snd_ite | with_reducible apply Onward.onLcs | rfl | split

theorem Onward.execLcsBlockEnd (a0 : ℕ) (a1 : Reader) (h : Onward x₀ s) :
    ∀ u, (execLcsBlockEnd a0 a1 s) = .next u → Onward x₀ u := by
  intro u e
  obtain rfl := Host.Outcome.next.inj e
  repeat' first
      | with_reducible assumption | intro _ | with_reducible apply Onward.lcsBlockEnd
      | with_reducible apply Onward.tick

theorem Onward.lcsHalt (a0 : ℕ) (h : Onward x₀ s) :
    Onward x₀ (State.lcsHalt a0 s) := by
  dsimp only [State.lcsHalt]
  repeat' first
      | with_reducible assumption | intro _ | with_reducible apply Onward.ite | with_reducible apply Onward.fst_ite
      | with_reducible apply Onward.snd_ite | with_reducible apply Onward.raise | with_reducible apply Onward.onRecd
      | rfl | split | assumption | exact Recorder.nand_flush _ _ ‹_›

theorem Onward.lcsBegin (a0 : Reader) (a1 : ℕ) (a2 : BitVec 16) (h : Onward x₀ s) :
    Onward x₀ (State.lcsBegin a0 a1 a2 s).1 := by
  dsimp only [State.lcsBegin]
  repeat' first
      | with_reducible assumption | intro _ | with_reducible apply Onward.onLcs | with_reducible apply Onward.lcsHalt

theorem Onward.toManufacture (a0 : Reader) (a1 : Word) (h : Onward x₀ s) :
    Onward x₀ (State.toManufacture a0 a1 s).1 := by
  dsimp only [State.toManufacture]
  repeat' first
      | with_reducible assumption | intro _ | with_reducible apply Onward.ite | with_reducible apply Onward.fst_ite
      | with_reducible apply Onward.snd_ite | with_reducible apply Onward.lcsGate
      | with_reducible apply Onward.lcsBegin

theorem Onward.storeKey (a0 : BitVec 256) (h : Onward x₀ s) :
    Onward x₀ (State.storeKey a0 s) := by
  dsimp only [State.storeKey]
  repeat' first
      | with_reducible assumption | intro _ | with_reducible apply Onward.lockRegion
      | with_reducible apply Onward.storeWords | with_reducible apply Onward.onKey
      | with_reducible apply Onward.burnBit | rfl | split

theorem Onward.spoilKey (a0 : BitVec 256) (h : Onward x₀ s) :
    Onward x₀ (State.spoilKey a0 s) := by
  unfold State.spoilKey
  extract_lets n left s1
  have h1 : Onward x₀ s1 := by
    unfold s1
    split
    · exact .storeWords _ _ h
    · exact h
  exact .drawsTo _ (Nat.le_add_right_of_le h.drawn) (.raise _ _ _ _ _ h1)

theorem Onward.generateKey (a0 : Reader) (a1 : Word) (a2 : Bool) (a3 : Bool) (h : Onward x₀ s) :
    Onward x₀ (State.generateKey a0 a1 a2 a3 s).1 := by
  dsimp only [State.generateKey]
  repeat' first
      | with_reducible assumption | intro _ | with_reducible apply Onward.ite | with_reducible apply Onward.fst_ite
      | with_reducible apply Onward.snd_ite | with_reducible apply Onward.lcsGate
      | with_reducible apply Onward.lcsHalt | with_reducible apply Onward.raise | with_reducible apply Onward.draw
      | with_reducible apply Onward.spoilKey | with_reducible apply Onward.storeKey

theorem Onward.toProvisioned (a0 : Reader) (a1 : Word) (h : Onward x₀ s) :
    Onward x₀ (State.toProvisioned a0 a1 s).1 := by
  dsimp only [State.toProvisioned]
  repeat' first
      | with_reducible assumption | intro _ | with_reducible apply Onward.ite | with_reducible apply Onward.fst_ite
      | with_reducible apply Onward.snd_ite | with_reducible apply Onward.lcsGate
      | with_reducible apply Onward.lcsBegin

theorem Onward.toDeployed (a0 : Reader) (a1 : Word) (h : Onward x₀ s) :
    Onward x₀ (State.toDeployed a0 a1 s).1 := by
  dsimp only [State.toDeployed]
  repeat' first
      | with_reducible assumption | intro _ | with_reducible apply Onward.ite | with_reducible apply Onward.fst_ite
      | with_reducible apply Onward.snd_ite | with_reducible apply Onward.lcsGate
      | with_reducible apply Onward.lcsBegin

theorem Onward.leaveKey (h : Onward x₀ s) :
    Onward x₀ (State.leaveKey s) := by
  unfold State.leaveKey
  exact .drawsTo _ (Nat.le_add_right_of_le h.drawn) (.forL _ (fun x t ht => .onOtp _ ht rfl) h)

theorem Onward.destroyKey (a0 : Bool) (h : Onward x₀ s) :
    Onward x₀ (State.destroyKey a0 s) := by
  dsimp only [State.destroyKey]
  repeat' first
      | with_reducible assumption | intro _ | with_reducible apply Onward.ite | with_reducible apply Onward.fst_ite
      | with_reducible apply Onward.snd_ite | with_reducible apply Onward.forL | with_reducible apply Onward.forL_fst
      | with_reducible apply Onward.onKey | with_reducible apply Onward.burnBit | with_reducible apply Onward.onOtp
      | with_reducible apply Onward.leaveKey | rfl

theorem Onward.toReturned (a0 : Reader) (a1 : Word) (a2 : Bool) (h : Onward x₀ s) :
    Onward x₀ (State.toReturned a0 a1 a2 s).1 := by
  dsimp only [State.toReturned]
  repeat' first
      | with_reducible assumption | intro _ | with_reducible apply Onward.ite | with_reducible apply Onward.fst_ite
      | with_reducible apply Onward.snd_ite | with_reducible apply Onward.lcsGate
      | with_reducible apply Onward.destroyKey | with_reducible apply Onward.lcsHalt
      | with_reducible apply Onward.onLcs | with_reducible apply Onward.raise

theorem Onward.debugUnlock (a0 : Reader) (a1 : Word) (h : Onward x₀ s) :
    Onward x₀ (State.debugUnlock a0 a1 s).1 := by
  dsimp only [State.debugUnlock]
  repeat' first
      | with_reducible assumption | intro _ | with_reducible apply Onward.lcsGate | with_reducible apply Onward.record
      | with_reducible apply Onward.onLcs | with_reducible apply Onward.raise

theorem Onward.openScan (a0 : Reader) (a1 : Word) (h : Onward x₀ s) :
    Onward x₀ (State.openScan a0 a1 s).1 := by
  dsimp only [State.openScan]
  repeat' first
      | with_reducible assumption | intro _ | with_reducible apply Onward.lcsGate
      | with_reducible apply Onward.lcsBegin

theorem Onward.execLcToManufacture (a0 : ℕ) (a1 : Reader) (a2 : Word) (h : Onward x₀ s) :
    ∀ u, (execLcToManufacture a0 a1 a2 s) = .next u → Onward x₀ u := by
  intro u e
  obtain rfl := Host.Outcome.next.inj e
  repeat' first
      | with_reducible assumption | intro _ | with_reducible apply Onward.wt | with_reducible apply Onward.otpTurn
      | with_reducible apply Onward.toManufacture | with_reducible apply Onward.tick

theorem Onward.execGenerateKey (a0 : ℕ) (a1 : Reader) (a2 : Word) (a3 : Bool) (a4 : Bool)
    (h : Onward x₀ s) :
    ∀ u, (execGenerateKey a0 a1 a2 a3 a4 s) = .next u → Onward x₀ u := by
  intro u e
  obtain rfl := Host.Outcome.next.inj e
  repeat' first
      | with_reducible assumption | intro _ | with_reducible apply Onward.wt | with_reducible apply Onward.otpTurn
      | with_reducible apply Onward.generateKey | with_reducible apply Onward.tick

theorem Onward.execLcToProvisioned (a0 : ℕ) (a1 : Reader) (a2 : Word) (h : Onward x₀ s) :
    ∀ u, (execLcToProvisioned a0 a1 a2 s) = .next u → Onward x₀ u := by
  intro u e
  obtain rfl := Host.Outcome.next.inj e
  repeat' first
      | with_reducible assumption | intro _ | with_reducible apply Onward.wt | with_reducible apply Onward.otpTurn
      | with_reducible apply Onward.toProvisioned | with_reducible apply Onward.tick

theorem Onward.execLcToDeployed (a0 : ℕ) (a1 : Reader) (a2 : Word) (h : Onward x₀ s) :
    ∀ u, (execLcToDeployed a0 a1 a2 s) = .next u → Onward x₀ u := by
  intro u e
  obtain rfl := Host.Outcome.next.inj e
  repeat' first
      | with_reducible assumption | intro _ | with_reducible apply Onward.wt | with_reducible apply Onward.otpTurn
      | with_reducible apply Onward.toDeployed | with_reducible apply Onward.tick

theorem Onward.execLcToReturned (a0 : ℕ) (a1 : Reader) (a2 : Word) (a3 : Bool) (h : Onward x₀ s) :
    ∀ u, (execLcToReturned a0 a1 a2 a3 s) = .next u → Onward x₀ u := by
  intro u e
  obtain rfl := Host.Outcome.next.inj e
  repeat' first
      | with_reducible assumption | intro _ | with_reducible apply Onward.wt | with_reducible apply Onward.otpTurn
      | with_reducible apply Onward.toReturned | with_reducible apply Onward.tick

theorem Onward.execDebugUnlock (a0 : ℕ) (a1 : Reader) (a2 : Word) (h : Onward x₀ s) :
    ∀ u, (execDebugUnlock a0 a1 a2 s) = .next u → Onward x₀ u := by
  intro u e
  obtain rfl := Host.Outcome.next.inj e
  repeat' first
      | with_reducible assumption | intro _ | with_reducible apply Onward.wt | with_reducible apply Onward.otpTurn
      | with_reducible apply Onward.debugUnlock | with_reducible apply Onward.tick

theorem Onward.execOpenScan (a0 : ℕ) (a1 : Reader) (a2 : Word) (h : Onward x₀ s) :
    ∀ u, (execOpenScan a0 a1 a2 s) = .next u → Onward x₀ u := by
  intro u e
  obtain rfl := Host.Outcome.next.inj e
  repeat' first
      | with_reducible assumption | intro _ | with_reducible apply Onward.wt | with_reducible apply Onward.otpTurn
      | with_reducible apply Onward.openScan | with_reducible apply Onward.tick

theorem Onward.certStart (h : Onward x₀ s) :
    Onward x₀ (State.certStart s) := by
  dsimp only [State.certStart]
  repeat' first
      | with_reducible assumption | intro _ | with_reducible apply Onward.forN | with_reducible apply Onward.onKey

theorem Onward.keyStart (a0 : Bool) (h : Onward x₀ s) :
    Onward x₀ (State.keyStart a0 s) := by
  dsimp only [State.keyStart]
  repeat' first
      | with_reducible assumption | intro _ | with_reducible apply Onward.ite | with_reducible apply Onward.fst_ite
      | with_reducible apply Onward.snd_ite | with_reducible apply Onward.onKey
      | with_reducible apply Onward.certStart | with_reducible apply Onward.raise

theorem Onward.onAtt (a0 : ℕ) (a1 : Attest → Attest) (h : Onward x₀ s) :
    Onward x₀ (State.onAtt a0 a1 s) := by
  dsimp only [State.onAtt]
  repeat' first | with_reducible assumption | intro _ | with_reducible apply Onward.onKey

theorem Onward.attestStart (a0 : ℕ) (a1 : Word) (h : Onward x₀ s) :
    Onward x₀ (State.attestStart a0 a1 s).1 := by
  dsimp only [State.attestStart]
  repeat' first
      | with_reducible assumption | intro _ | with_reducible apply Onward.ite | with_reducible apply Onward.fst_ite
      | with_reducible apply Onward.snd_ite | with_reducible apply Onward.onAtt

theorem Onward.attestFinish (a0 : ℕ) (h : Onward x₀ s) :
    Onward x₀ (State.attestFinish a0 s) := by
  dsimp only [State.attestFinish]
  repeat' first
      | with_reducible assumption | intro _ | with_reducible apply Onward.ite | with_reducible apply Onward.fst_ite
      | with_reducible apply Onward.snd_ite | with_reducible apply Onward.onAtt

theorem Onward.execAttestationStart (a0 : ℕ) (a1 : Reader) (a2 : Word) (h : Onward x₀ s) :
    ∀ u, (execAttestationStart a0 a1 a2 s) = .next u → Onward x₀ u := by
  intro u e
  obtain rfl := Host.Outcome.next.inj e
  repeat' first
      | with_reducible assumption | intro _ | with_reducible apply Onward.wt | with_reducible apply Onward.attestStart
      | with_reducible apply Onward.tick

theorem Onward.execAttestationComplete (a0 : ℕ) (a1 : Reader) (h : Onward x₀ s) :
    ∀ u, (execAttestationComplete a0 a1 s) = .next u → Onward x₀ u := by
  intro u e
  obtain rfl := Host.Outcome.next.inj e
  repeat' first
      | with_reducible assumption | intro _ | with_reducible apply Onward.attestFinish
      | with_reducible apply Onward.tick

end Sys2Proof.Machine
end

