-- ==== Sys2Proof/Laws/OnwardPower.lean ====
section
/-! SUPPORT. What Power.lean keeps (Laws/Onward.lean). -/

namespace Sys2Proof.Machine

variable {x₀ s : State}

theorem Onward.wiped (a0 : Bool) (h : Onward x₀ s) :
    Onward x₀ (State.wiped a0 s) := by
  refine ⟨h.queue, h.time, Nat.le_add_right_of_le h.drawn, h.burned, fun hm => ?_⟩
  have hm := (Blocks.memWf_iff _).mp (h.mem hm)
  refine (Blocks.memWf_iff _).mpr ⟨?_, hm.2⟩
  unfold State.wiped Blocks.wiped
  cases a0 <;> rfl

theorem Onward.thermal (h : Onward x₀ s) :
    Onward x₀ (State.thermal s) := by
  dsimp only [State.thermal]
  repeat' first | with_reducible assumption | intro _ | with_reducible apply Onward.cond

theorem Onward.tjRead (a0 : ℤ) (a1 : ℤ) (h : Onward x₀ s) :
    Onward x₀ (State.tjRead a0 a1 s) := by
  dsimp only [State.tjRead]
  repeat' first
      | with_reducible assumption | intro _ | with_reducible apply Onward.thermal | with_reducible apply Onward.onPwr

theorem Onward.execTjThreshold (a0 : ℕ) (a1 : ℤ) (a2 : ℤ) (h : Onward x₀ s) :
    ∀ u, (execTjThreshold a0 a1 a2 s) = .next u → Onward x₀ u := by
  intro u e
  obtain rfl := Host.Outcome.next.inj e
  repeat' first
      | with_reducible assumption | intro _ | with_reducible apply Onward.tjRead | with_reducible apply Onward.tick

theorem Onward.release (h : Onward x₀ s) :
    Onward x₀ (State.release s) := by
  dsimp only [State.release]
  repeat' first
      | with_reducible assumption | intro _ | with_reducible apply Onward.thermal | with_reducible apply Onward.onBst
      | with_reducible apply Onward.onFcl | with_reducible apply Onward.onPwr

theorem Onward.chipReset (a0 : ℕ) (h : Onward x₀ s) :
    Onward x₀ (State.chipReset a0 s) := by
  dsimp only [State.chipReset]
  repeat' first
      | with_reducible assumption | intro _ | with_reducible apply Onward.ite | with_reducible apply Onward.fst_ite
      | with_reducible apply Onward.snd_ite | with_reducible apply Onward.onPwr | with_reducible apply Onward.wiped
      | with_reducible apply Onward.release

theorem Onward.flushAll (a0 : ℕ) (h : Onward x₀ s) :
    Onward x₀ (State.flushAll a0 s) := by
  dsimp only [State.flushAll]
  repeat' first
      | with_reducible assumption | intro _ | with_reducible apply Onward.ite | with_reducible apply Onward.fst_ite
      | with_reducible apply Onward.snd_ite | with_reducible apply Onward.onRecd | with_reducible apply Onward.onPwr
      | rfl | split | assumption | exact Recorder.nand_flush _ _ ‹_›

theorem Onward.afterWait (a0 : Reader) (a1 : ℕ) (a2 : Word) (a3 : State → State × ℕ)
    (h_a3 : ∀ t, Onward x₀ t → Onward x₀ (a3 t).1) (h : Onward x₀ s) :
    Onward x₀ (State.afterWait a0 a1 a2 a3 s) := by
  dsimp only [State.afterWait]
  repeat' first
      | with_reducible assumption | intro _ | with_reducible apply Onward.ite | with_reducible apply Onward.fst_ite
      | with_reducible apply Onward.snd_ite | with_reducible apply Onward.settle | with_reducible apply h_a3

theorem Onward.runWaiting (a0 : Instr) (h : Onward x₀ s) :
    Onward x₀ (State.runWaiting a0 s) := by
  dsimp only [State.runWaiting]
  repeat' first
      | with_reducible assumption | intro _ | with_reducible apply Onward.afterWait
      | with_reducible apply Onward.burnWord | with_reducible apply Onward.finalise
      | with_reducible apply Onward.retire | with_reducible apply Onward.burnRow
      | with_reducible apply Onward.redirectRow | with_reducible apply Onward.toManufacture
      | with_reducible apply Onward.generateKey | with_reducible apply Onward.toProvisioned
      | with_reducible apply Onward.toDeployed | with_reducible apply Onward.toReturned
      | with_reducible apply Onward.debugUnlock | with_reducible apply Onward.openScan | rfl | split

theorem Onward.drainWaiting (a0 : ℕ) (h : Onward x₀ s) :
    Onward x₀ (State.drainWaiting a0 s) := by
  induction a0 generalizing s with
  | zero => exact h
  | succ n ih =>
    dsimp only [State.drainWaiting]
    split
    · exact h
    · split
      · exact h
      · exact ih (.runWaiting _ (.onOtp _ h rfl))

theorem Onward.drainAll (h : Onward x₀ s) :
    Onward x₀ (State.drainAll s) := by
  dsimp only [State.drainAll]
  repeat' first | with_reducible assumption | intro _ | with_reducible apply Onward.drainWaiting

theorem Onward.sessionDone (a0 : BurnOutcome) (h : Onward x₀ s) :
    Onward x₀ (State.sessionDone a0 s) := by
  dsimp only [State.sessionDone]
  repeat' first
      | with_reducible assumption | intro _ | with_reducible apply Onward.sessionEnds
      | with_reducible apply Onward.drainAll | with_reducible apply Onward.settle | rfl | split

theorem Onward.vppFails (a0 : ℕ) (a1 : List (BitVec 72 × BitVec 72)) (h : Onward x₀ s) :
    Onward x₀ (State.vppFails a0 a1 s) := by
  dsimp only [State.vppFails]
  repeat' first
      | with_reducible assumption | intro _ | with_reducible apply Onward.ite | with_reducible apply Onward.fst_ite
      | with_reducible apply Onward.snd_ite | with_reducible apply Onward.drainAll
      | with_reducible apply Onward.vppEnds | rfl | split

theorem Onward.execOtpSessionComplete (a0 : ℕ) (a1 : BurnOutcome) (h : Onward x₀ s) :
    ∀ u, (execOtpSessionComplete a0 a1 s) = .next u → Onward x₀ u := by
  intro u e
  obtain rfl := Host.Outcome.next.inj e
  repeat' first
      | with_reducible assumption | intro _ | with_reducible apply Onward.sessionDone
      | with_reducible apply Onward.tick

theorem Onward.execOtpVppOutOfRange (a0 : ℕ) (a1 : ℕ) (a2 : List (BitVec 72 × BitVec 72)) (h : Onward x₀ s) :
    ∀ u, (execOtpVppOutOfRange a0 a1 a2 s) = .next u → Onward x₀ u := by
  intro u e
  obtain rfl := Host.Outcome.next.inj e
  repeat' first
      | with_reducible assumption | intro _ | with_reducible apply Onward.vppFails | with_reducible apply Onward.tick

theorem Onward.cutWords (a0 : Session) (h : Onward x₀ s) :
    Onward x₀ (State.cutWords a0 s) := by
  unfold State.cutWords
  exact .drawsTo _ (Nat.le_add_right_of_le h.drawn)
    (.ite (.onOtp _ h rfl) (.forL _ (fun x t ht => .onOtp _ ht rfl) h))

theorem Onward.cutSession (h : Onward x₀ s) :
    Onward x₀ (State.cutSession s) := by
  dsimp only [State.cutSession]
  repeat' first
      | with_reducible assumption | intro _ | with_reducible apply Onward.settle | with_reducible apply Onward.onOtp
      | with_reducible apply Onward.cutWords | rfl | split

theorem Onward.refuseWaiting (h : Onward x₀ s) :
    Onward x₀ (State.refuseWaiting s) := by
  dsimp only [State.refuseWaiting]
  repeat' first
      | with_reducible assumption | intro _ | with_reducible apply Onward.forL | with_reducible apply Onward.forL_fst
      | with_reducible apply Onward.settle | with_reducible apply Onward.onOtp | rfl | split

theorem Onward.chipReaction (h : Onward x₀ s) :
    Onward x₀ (State.chipReaction s) := by
  dsimp only [State.chipReaction]
  repeat' first
      | with_reducible assumption | intro _ | with_reducible apply Onward.ite | with_reducible apply Onward.fst_ite
      | with_reducible apply Onward.snd_ite | with_reducible apply Onward.chipReset
      | with_reducible apply Onward.cutSession | with_reducible apply Onward.flushAll

theorem Onward.execChipResetReaction (a0 : ℕ) (h : Onward x₀ s) :
    ∀ u, (execChipResetReaction a0 s) = .next u → Onward x₀ u := by
  intro u e
  obtain rfl := Host.Outcome.next.inj e
  repeat' first
      | with_reducible assumption | intro _ | with_reducible apply Onward.chipReaction
      | with_reducible apply Onward.tick

theorem Onward.burnNew (a0 : ℕ) (h : Onward x₀ s) :
    Onward x₀ (State.burnNew a0 s) := by
  dsimp only [State.burnNew]
  repeat' first
      | with_reducible assumption | intro _ | with_reducible apply Onward.ite | with_reducible apply Onward.fst_ite
      | with_reducible apply Onward.snd_ite | with_reducible apply Onward.burnBit

theorem Onward.burnOver (a0 : ℕ) (a1 : BitVec 64) (h : Onward x₀ s) :
    Onward x₀ (State.burnOver a0 a1 s) := by
  dsimp only [State.burnOver]
  repeat' first | with_reducible assumption | intro _ | with_reducible apply Onward.onOtp | rfl

theorem Onward.certBurns (b : Blocks) : ∀ f ∈ b.certBurns, ∀ t, Onward x₀ t → Onward x₀ (f t) := by
  intro f hf t ht
  unfold Blocks.certBurns at hf
  split at hf
  · simp only [List.mem_append, List.mem_map, List.mem_singleton] at hf
    rcases hf with (⟨x, -, rfl⟩ | ⟨x, -, rfl⟩) | rfl
    · exact .burnOver _ _ ht
    · exact .burnOver _ _ ht
    · exact .lockRegion _ _ ht
  · exact absurd hf List.not_mem_nil

theorem Onward.lcsBurns (b : Blocks) (op : Nat) : ∀ f ∈ b.lcsBurns op, ∀ t, Onward x₀ t → Onward x₀ (f t) := by
  intro f hf t ht
  unfold Blocks.lcsBurns at hf
  split at hf
  · rw [List.mem_singleton] at hf; subst hf; exact .burnNew _ ht
  · rcases List.mem_append.mp hf with hf | hf
    · exact .certBurns b f hf t ht
    · simp only [List.mem_cons, List.not_mem_nil, or_false] at hf
      rcases hf with rfl | rfl | rfl <;> exact .burnNew _ ht
  · simp only [List.mem_cons, List.not_mem_nil, or_false] at hf
    rcases hf with rfl | rfl | rfl | rfl
    · exact .burnNew _ ht
    · exact .burnNew _ ht
    · exact .cntRaise _ _ _ ht
    · exact .burnNew _ ht
  · simp only [List.mem_cons, List.not_mem_nil, or_false] at hf
    rcases hf with rfl | rfl
    · exact .cntAdvance _ ht
    · exact .burnNew _ ht
  · split at hf
    · rw [List.mem_singleton] at hf; subst hf; exact .cntAdvance _ ht
    · exact absurd hf List.not_mem_nil

theorem Onward.lcsFinish (a0 : Bool) (h : Onward x₀ s) :
    Onward x₀ (State.lcsFinish a0 s) := by
  unfold State.lcsFinish
  split
  · exact h
  · next op _ =>
    have hb := Onward.lcsBurns (x₀ := x₀) s.b op
    split
    · exact .chipReset _ (.onLcs _ (.flushAll _ (.record _ _ (.forL_mem _ hb h))))
    · exact .drainAll (.settle _ _ _ _ (.raise _ _ _ _ _ (.onLcs _
        (.forL_mem _ (fun f hf => hb f (List.mem_of_mem_take hf)) (.drew 1 h)))))

theorem Onward.execLifeCycleReset (a0 : ℕ) (a1 : Bool) (h : Onward x₀ s) :
    ∀ u, (execLifeCycleReset a0 a1 s) = .next u → Onward x₀ u := by
  intro u e
  obtain rfl := Host.Outcome.next.inj e
  repeat' first
      | with_reducible assumption | intro _ | with_reducible apply Onward.lcsFinish | with_reducible apply Onward.tick

theorem Onward.vcoreRead (a0 : Ch) (a1 : ℕ) (h : Onward x₀ s) :
    Onward x₀ (State.vcoreRead a0 a1 s) := by
  dsimp only [State.vcoreRead]
  repeat' first | with_reducible assumption | intro _ | with_reducible apply Onward.onPwr

theorem Onward.railOut (a0 : Rail) (a1 : ℕ) (h : Onward x₀ s) :
    Onward x₀ (State.railOut a0 a1 s) := by
  unfold State.railOut
  extract_lets s1 l src s2
  have h1 : Onward x₀ s1 := by
    cases a0 <;> first | exact h | exact .vcoreRead _ _ h
  have h2 : Onward x₀ s2 := .onPwr _ (.drawsTo _ (Nat.le_add_right_of_le h1.drawn) (.wiped _ h1))
  exact .ite h1 (.ite (.raise _ _ _ _ _ h2) h2)

theorem Onward.execRailOutOfRange (a0 : ℕ) (a1 : Rail) (a2 : ℕ) (h : Onward x₀ s) :
    ∀ u, (execRailOutOfRange a0 a1 a2 s) = .next u → Onward x₀ u := by
  intro u e
  obtain rfl := Host.Outcome.next.inj e
  repeat' first
      | with_reducible assumption | intro _ | with_reducible apply Onward.railOut | with_reducible apply Onward.tick

theorem Onward.execVcoreMonitorDisagree (a0 : ℕ) (a1 : ℕ) (a2 : ℕ) (h : Onward x₀ s) :
    ∀ u, (execVcoreMonitorDisagree a0 a1 a2 s) = .next u → Onward x₀ u := by
  intro u e
  obtain rfl := Host.Outcome.next.inj e
  repeat' first
      | with_reducible assumption | intro _ | with_reducible apply Onward.ite | with_reducible apply Onward.fst_ite
      | with_reducible apply Onward.snd_ite | with_reducible apply Onward.vcoreRead | with_reducible apply Onward.tick
      | with_reducible apply Onward.raise

theorem Onward.porEnd (h : Onward x₀ s) :
    Onward x₀ (State.porEnd s) := by
  dsimp only [State.porEnd]
  repeat' first
      | with_reducible assumption | intro _ | with_reducible apply Onward.ite | with_reducible apply Onward.fst_ite
      | with_reducible apply Onward.snd_ite | with_reducible apply Onward.onPwr | with_reducible apply Onward.wiped
      | with_reducible apply Onward.release

theorem Onward.execPowerOnResetEnd (a0 : ℕ) (h : Onward x₀ s) :
    ∀ u, (execPowerOnResetEnd a0 s) = .next u → Onward x₀ u := by
  intro u e
  obtain rfl := Host.Outcome.next.inj e
  repeat' first
      | with_reducible assumption | intro _ | with_reducible apply Onward.porEnd | with_reducible apply Onward.tick

theorem Onward.refuseTransition (h : Onward x₀ s) :
    Onward x₀ (State.refuseTransition s) := by
  dsimp only [State.refuseTransition]
  repeat' first
      | with_reducible assumption | intro _ | with_reducible apply Onward.settle | with_reducible apply Onward.onLcs
      | rfl | split

theorem Onward.supplyWarning (a0 : WarnCause) (h : Onward x₀ s) :
    Onward x₀ (State.supplyWarning a0 s) := by
  dsimp only [State.supplyWarning]
  repeat' first
      | with_reducible assumption | intro _ | with_reducible apply Onward.ite | with_reducible apply Onward.fst_ite
      | with_reducible apply Onward.snd_ite | with_reducible apply Onward.onFcl | with_reducible apply Onward.onRecd
      | with_reducible apply Onward.onPwr | with_reducible apply Onward.raise
      | with_reducible apply Onward.refuseWaiting | with_reducible apply Onward.refuseTransition
      | with_reducible apply Onward.cutSession

theorem Onward.execSupplyLossWarning (a0 : ℕ) (a1 : WarnCause) (h : Onward x₀ s) :
    ∀ u, (execSupplyLossWarning a0 a1 s) = .next u → Onward x₀ u := by
  intro u e
  obtain rfl := Host.Outcome.next.inj e
  repeat' first
      | with_reducible assumption | intro _ | with_reducible apply Onward.supplyWarning
      | with_reducible apply Onward.tick

theorem Onward.flushDone (h : Onward x₀ s) :
    Onward x₀ (State.flushDone s) := by
  dsimp only [State.flushDone]
  repeat' first
      | with_reducible assumption | intro _ | with_reducible apply Onward.ite | with_reducible apply Onward.fst_ite
      | with_reducible apply Onward.snd_ite | with_reducible apply Onward.flushAll
      | with_reducible apply Onward.onRecd

theorem Onward.execFlushComplete (a0 : ℕ) (h : Onward x₀ s) :
    ∀ u, (execFlushComplete a0 s) = .next u → Onward x₀ u := by
  intro u e
  obtain rfl := Host.Outcome.next.inj e
  repeat' first
      | with_reducible assumption | intro _ | with_reducible apply Onward.flushDone | with_reducible apply Onward.tick

theorem Onward.execSupplyRecovery (a0 : ℕ) (h : Onward x₀ s) :
    ∀ u, (execSupplyRecovery a0 s) = .next u → Onward x₀ u := by
  intro u e
  obtain rfl := Host.Outcome.next.inj e
  repeat' first
      | with_reducible assumption | intro _ | with_reducible apply Onward.ite | with_reducible apply Onward.fst_ite
      | with_reducible apply Onward.snd_ite | with_reducible apply Onward.chipReset | with_reducible apply Onward.tick

theorem Onward.resetAssert (a0 : ℕ) (h : Onward x₀ s) :
    Onward x₀ (State.resetAssert a0 s) := by
  dsimp only [State.resetAssert]
  repeat' first
      | with_reducible assumption | intro _ | with_reducible apply Onward.ite | with_reducible apply Onward.fst_ite
      | with_reducible apply Onward.snd_ite | with_reducible apply Onward.onPwr
      | with_reducible apply Onward.chipReset | with_reducible apply Onward.cutSession
      | with_reducible apply Onward.drew

theorem Onward.execResetNAssert (a0 : ℕ) (a1 : ℕ) (h : Onward x₀ s) :
    ∀ u, (execResetNAssert a0 a1 s) = .next u → Onward x₀ u := by
  intro u e
  obtain rfl := Host.Outcome.next.inj e
  repeat' first
      | with_reducible assumption | intro _ | with_reducible apply Onward.resetAssert
      | with_reducible apply Onward.tick

theorem Onward.resetRelease (h : Onward x₀ s) :
    Onward x₀ (State.resetRelease s) := by
  dsimp only [State.resetRelease]
  repeat' first
      | with_reducible assumption | intro _ | with_reducible apply Onward.ite | with_reducible apply Onward.fst_ite
      | with_reducible apply Onward.snd_ite | with_reducible apply Onward.onPwr | with_reducible apply Onward.release

theorem Onward.execResetNRelease (a0 : ℕ) (h : Onward x₀ s) :
    ∀ u, (execResetNRelease a0 s) = .next u → Onward x₀ u := by
  intro u e
  obtain rfl := Host.Outcome.next.inj e
  repeat' first
      | with_reducible assumption | intro _ | with_reducible apply Onward.resetRelease
      | with_reducible apply Onward.tick

theorem Onward.stopStart (a0 : ℕ) (a1 : ℕ) (h : Onward x₀ s) :
    Onward x₀ (State.stopStart a0 a1 s) := by
  dsimp only [State.stopStart]
  repeat' first
      | with_reducible assumption | intro _ | with_reducible apply Onward.raise | with_reducible apply Onward.onPwr

theorem Onward.retentionStart (a0 : Bool) (h : Onward x₀ s) :
    Onward x₀ (State.retentionStart a0 s) := by
  dsimp only [State.retentionStart]
  repeat' first
      | with_reducible assumption | intro _ | with_reducible apply Onward.ite | with_reducible apply Onward.fst_ite
      | with_reducible apply Onward.snd_ite | with_reducible apply Onward.onPwr | with_reducible apply Onward.raise

theorem Onward.sensed (a0 : FiddleIn) (h : Onward x₀ s) :
    Onward x₀ (State.sensed a0 s) := by
  dsimp only [State.sensed]
  repeat' first | with_reducible assumption | intro _ | with_reducible apply Onward.onOtp | rfl

theorem Onward.rulersStart (a0 : FiddleIn) (h : Onward x₀ s) :
    Onward x₀ (State.rulersStart a0 s) := by
  unfold State.rulersStart
  exact .drawsTo _ (Nat.le_add_right_of_le h.drawn) (.onTru _ h)

theorem Onward.fiddleSteps (a0 : FiddleIn) (h : Onward x₀ s) :
    Onward x₀ (State.fiddleSteps a0 s) := by
  dsimp only [State.fiddleSteps]
  repeat' first
      | with_reducible assumption | intro _ | with_reducible apply Onward.ite | with_reducible apply Onward.fst_ite
      | with_reducible apply Onward.snd_ite | with_reducible apply Onward.rulersStart
      | with_reducible apply Onward.stopStart | with_reducible apply Onward.onLcs | with_reducible apply Onward.onAgr
      | with_reducible apply Onward.raise | with_reducible apply Onward.onPwr | with_reducible apply Onward.keyStart
      | rfl

theorem Onward.fiddlehead (a0 : FiddleIn) (h : Onward x₀ s) :
    Onward x₀ (State.fiddlehead a0 s) := by
  dsimp only [State.fiddlehead]
  repeat' first
      | with_reducible assumption | intro _ | with_reducible apply Onward.ite | with_reducible apply Onward.fst_ite
      | with_reducible apply Onward.snd_ite | with_reducible apply Onward.onPwr
      | with_reducible apply Onward.fiddleSteps | with_reducible apply Onward.otpStart
      | with_reducible apply Onward.retentionStart | with_reducible apply Onward.latchRhizoid
      | with_reducible apply Onward.sensed

theorem Onward.execFiddlehead (a0 : ℕ) (a1 : FiddleIn) (h : Onward x₀ s) :
    ∀ u, (execFiddlehead a0 a1 s) = .next u → Onward x₀ u := by
  intro u e
  obtain rfl := Host.Outcome.next.inj e
  repeat' first
      | with_reducible assumption | intro _ | with_reducible apply Onward.fiddlehead
      | with_reducible apply Onward.tick

theorem Onward.fwReject (a0 : ℕ) (h : Onward x₀ s) :
    Onward x₀ (State.fwReject a0 s) := by
  dsimp only [State.fwReject]
  repeat' first | with_reducible assumption | intro _ | with_reducible apply Onward.raise | rfl | split

theorem Onward.fwRun (a0 : ℕ) (a1 : FwImage) (a2 : Bool) (h : Onward x₀ s) :
    Onward x₀ (State.fwRun a0 a1 a2 s) := by
  dsimp only [State.fwRun]
  repeat' first
      | with_reducible assumption | intro _ | with_reducible apply Onward.pairRelease
      | with_reducible apply Onward.onPwr

theorem Onward.firmwareLoad (h : Onward x₀ s) :
    ∀ u, (State.firmwareLoad s) = .next u → Onward x₀ u := by
  intro u e
  have h1 : ∀ l : List Nat, Onward x₀ (Machine.forL l (fun k s => s.fwReject k) s) := fun l =>
    .forL _ (fun _ _ ht => .fwReject _ ht) h
  unfold State.firmwareLoad at e
  split at e
  · cases e; exact h
  · dsimp only at e
    split at e
    · cases e; exact .stopStart _ _ (h1 _)
    · split at e
      · cases e; exact h1 _
      · split at e
        · cases e; exact .fwRun _ _ _ (h1 _)
        · cases e

theorem Onward.execFirmwareLoad (a0 : ℕ) (h : Onward x₀ s) :
    ∀ u, (execFirmwareLoad a0 s) = .next u → Onward x₀ u := Onward.firmwareLoad (.tick _ h)

theorem Onward.antiRollback (h : Onward x₀ s) :
    Onward x₀ (State.antiRollback s) := by
  dsimp only [State.antiRollback]
  repeat' first
      | with_reducible assumption | intro _ | with_reducible apply Onward.ite | with_reducible apply Onward.fst_ite
      | with_reducible apply Onward.snd_ite | with_reducible apply Onward.cntAdvance

theorem Onward.execAntiRollbackAdvance (a0 : ℕ) (h : Onward x₀ s) :
    ∀ u, (execAntiRollbackAdvance a0 s) = .next u → Onward x₀ u := by
  intro u e
  obtain rfl := Host.Outcome.next.inj e
  repeat' first
      | with_reducible assumption | intro _ | with_reducible apply Onward.antiRollback
      | with_reducible apply Onward.tick

theorem Onward.paceWindow (a0 : List ℕ) (a1 : List ℕ) (h : Onward x₀ s) :
    Onward x₀ (State.paceWindow a0 a1 s) := by
  dsimp only [State.paceWindow]
  repeat' first
      | with_reducible assumption | intro _ | with_reducible apply Onward.ite | with_reducible apply Onward.fst_ite
      | with_reducible apply Onward.snd_ite | with_reducible apply Onward.forN | with_reducible apply Onward.cond
      | with_reducible apply Onward.onPwr | rfl | split

theorem Onward.execPaceWindowEnd (a0 : ℕ) (a1 : List ℕ) (a2 : List ℕ) (h : Onward x₀ s) :
    ∀ u, (execPaceWindowEnd a0 a1 a2 s) = .next u → Onward x₀ u := by
  intro u e
  obtain rfl := Host.Outcome.next.inj e
  repeat' first
      | with_reducible assumption | intro _ | with_reducible apply Onward.ite | with_reducible apply Onward.fst_ite
      | with_reducible apply Onward.snd_ite | with_reducible apply Onward.paceWindow
      | with_reducible apply Onward.tick

theorem Onward.crystalStops (a0 : Ch) (h : Onward x₀ s) :
    Onward x₀ (State.crystalStops a0 s) := by
  dsimp only [State.crystalStops]
  repeat' first
      | with_reducible assumption | intro _ | with_reducible apply Onward.ite | with_reducible apply Onward.fst_ite
      | with_reducible apply Onward.snd_ite | with_reducible apply Onward.raise | with_reducible apply Onward.onTru
      | rfl | split

theorem Onward.execOscillatorStop (a0 : ℕ) (a1 : Ch) (h : Onward x₀ s) :
    ∀ u, (execOscillatorStop a0 a1 s) = .next u → Onward x₀ u := by
  intro u e
  obtain rfl := Host.Outcome.next.inj e
  repeat' first
      | with_reducible assumption | intro _ | with_reducible apply Onward.crystalStops
      | with_reducible apply Onward.tick

theorem Onward.pwrCtrClear (a0 : Word) (h : Onward x₀ s) :
    Onward x₀ (State.pwrCtrClear a0 s).1 := by
  dsimp only [State.pwrCtrClear]
  repeat' first
      | with_reducible assumption | intro _ | with_reducible apply Onward.ite | with_reducible apply Onward.fst_ite
      | with_reducible apply Onward.snd_ite | with_reducible apply Onward.onPwr

theorem Onward.execPwrCtrClear (a0 : ℕ) (a1 : Reader) (a2 : Word) (h : Onward x₀ s) :
    ∀ u, (execPwrCtrClear a0 a1 a2 s) = .next u → Onward x₀ u := by
  intro u e
  obtain rfl := Host.Outcome.next.inj e
  repeat' first
      | with_reducible assumption | intro _ | with_reducible apply Onward.wt | with_reducible apply Onward.pwrCtrClear
      | with_reducible apply Onward.tick

end Sys2Proof.Machine
end

