-- ==== Sys2Proof/Laws/OnwardConfigPage.lean ====
section
/-! SUPPORT. What ConfigPage.lean keeps (Laws/Onward.lean). -/

namespace Sys2Proof.Machine

variable {x₀ s : State}

theorem Onward.hifCtrClear (a0 : Word) (h : Onward x₀ s) :
    Onward x₀ (State.hifCtrClear a0 s).1 := by
  dsimp only [State.hifCtrClear]
  repeat' first
      | with_reducible assumption | intro _ | with_reducible apply Onward.ite | with_reducible apply Onward.fst_ite
      | with_reducible apply Onward.snd_ite | with_reducible apply Onward.onHif

end Sys2Proof.Machine
end

