-- ==== Sys2Proof/Laws/OnwardSettings.lean ====
section
/-! SUPPORT. What Settings.lean keeps (Laws/Onward.lean). -/

namespace Sys2Proof.Machine

variable {x₀ s : State}

theorem Onward.tpoRestart (a0 : ℕ) (h : Onward x₀ s) :
    Onward x₀ (State.tpoRestart a0 s) := by
  dsimp only [State.tpoRestart]
  repeat' first
      | with_reducible assumption | intro _ | with_reducible apply Onward.ite | with_reducible apply Onward.fst_ite
      | with_reducible apply Onward.snd_ite | with_reducible apply Onward.onLio | with_reducible apply Onward.onTpg

theorem Onward.lichenRestart (a0 : ℕ) (h : Onward x₀ s) :
    Onward x₀ (State.lichenRestart a0 s) := by
  dsimp only [State.lichenRestart]
  repeat' first
      | with_reducible assumption | intro _ | with_reducible apply Onward.onLichen
      | with_reducible apply Onward.signalsMoved | with_reducible apply Onward.lockCond

theorem Onward.ainRestart (a0 : ℕ) (h : Onward x₀ s) :
    Onward x₀ (State.ainRestart a0 s) := by
  dsimp only [State.ainRestart]
  repeat' first | with_reducible assumption | intro _ | with_reducible apply Onward.onMea

theorem Onward.restartFor (a0 : ℕ) (h : Onward x₀ s) :
    Onward x₀ (State.restartFor a0 s) := by
  dsimp only [State.restartFor]
  repeat' first
      | with_reducible assumption | intro _ | with_reducible apply Onward.ite | with_reducible apply Onward.fst_ite
      | with_reducible apply Onward.snd_ite | with_reducible apply Onward.forN
      | with_reducible apply Onward.lichenRestart | with_reducible apply Onward.tpoRestart
      | with_reducible apply Onward.onSog | with_reducible apply Onward.onSto | with_reducible apply Onward.ainRestart

end Sys2Proof.Machine
end

