-- ==== Sys2Proof/Laws/OnwardSentence.lean ====
section
/-! SUPPORT. What Sentence.lean keeps (Laws/Onward.lean). -/

namespace Sys2Proof.Machine

variable {x₀ s : State}

theorem Onward.publishState (a0 : Bool) (h : Onward x₀ s) :
    Onward x₀ (State.publishState a0 s) := by
  dsimp only [State.publishState]
  repeat' first
      | with_reducible assumption | intro _ | with_reducible apply Onward.ite | with_reducible apply Onward.fst_ite
      | with_reducible apply Onward.snd_ite | with_reducible apply Onward.forN | with_reducible apply Onward.onPwr
      | with_reducible apply Onward.onSys | with_reducible apply Onward.rdselPublish
      | with_reducible apply Onward.errPublish | with_reducible apply Onward.onCfg
      | with_reducible apply Onward.pairEvent | with_reducible apply Onward.hifPend

theorem Onward.fnRecords (a0 : Snapshot) (a1 : Snapshot) (h : Onward x₀ s) :
    Onward x₀ (State.fnRecords a0 a1 s) := by
  dsimp only [State.fnRecords]
  repeat' first
      | with_reducible assumption | intro _ | with_reducible apply Onward.ite | with_reducible apply Onward.fst_ite
      | with_reducible apply Onward.snd_ite | with_reducible apply Onward.forL | with_reducible apply Onward.forL_fst
      | with_reducible apply Onward.recordFn

theorem Onward.publish (a0 : Bool) (h : Onward x₀ s) :
    Onward x₀ (State.publish a0 s) := by
  unfold State.publish
  extract_lets s1 p s2
  have h2 : Onward x₀ s2 := .framed _ _ _ _ (.publishState _ h)
  split
  · exact .fnRecords _ _ h2
  · exact h2

theorem Onward.abandon (h : Onward x₀ s) :
    Onward x₀ (State.abandon s) := by
  dsimp only [State.abandon]
  repeat' first
      | with_reducible assumption | intro _ | with_reducible apply Onward.publish | with_reducible apply Onward.onAgr
      | with_reducible apply Onward.roundClose | rfl

theorem Onward.late (h : Onward x₀ s) :
    Onward x₀ (State.late s) := by
  dsimp only [State.late]
  repeat' first
      | with_reducible assumption | intro _ | with_reducible apply Onward.cond | with_reducible apply Onward.onSys

theorem Onward.deadlinePassed (h : Onward x₀ s) :
    Onward x₀ (State.deadlinePassed s) := by
  dsimp only [State.deadlinePassed]
  repeat' first
      | with_reducible assumption | intro _ | with_reducible apply Onward.ite | with_reducible apply Onward.fst_ite
      | with_reducible apply Onward.snd_ite | with_reducible apply Onward.abandon | with_reducible apply Onward.late

theorem Onward.sentenceDeadline (h : Onward x₀ s) :
    Onward x₀ (State.sentenceDeadline s) := by
  dsimp only [State.sentenceDeadline]
  repeat' first
      | with_reducible assumption | intro _ | with_reducible apply Onward.ite | with_reducible apply Onward.fst_ite
      | with_reducible apply Onward.snd_ite | with_reducible apply Onward.deadlinePassed

theorem Onward.execSentenceDeadline (a0 : ℕ) (h : Onward x₀ s) :
    ∀ u, (execSentenceDeadline a0 s) = .next u → Onward x₀ u := by
  intro u e
  obtain rfl := Host.Outcome.next.inj e
  repeat' first
      | with_reducible assumption | intro _ | with_reducible apply Onward.sentenceDeadline
      | with_reducible apply Onward.tick

theorem Onward.evalOverrun (a0 : Ch) (h : Onward x₀ s) :
    Onward x₀ (State.evalOverrun a0 s) := by
  dsimp only [State.evalOverrun]
  repeat' first
      | with_reducible assumption | intro _ | with_reducible apply Onward.ite | with_reducible apply Onward.fst_ite
      | with_reducible apply Onward.snd_ite | with_reducible apply Onward.cond | with_reducible apply Onward.onSys

theorem Onward.execEvaluationOverrun (a0 : ℕ) (a1 : Ch) (h : Onward x₀ s) :
    ∀ u, (execEvaluationOverrun a0 a1 s) = .next u → Onward x₀ u := by
  intro u e
  obtain rfl := Host.Outcome.next.inj e
  repeat' first
      | with_reducible assumption | intro _ | with_reducible apply Onward.evalOverrun
      | with_reducible apply Onward.tick

theorem Onward.emptySet (a0 : ℕ) (a1 : ℕ) (h : Onward x₀ s) :
    Onward x₀ (State.emptySet a0 a1 s) := by
  dsimp only [State.emptySet]
  repeat' first
      | with_reducible assumption | intro _ | with_reducible apply Onward.settle
      | with_reducible apply Onward.onStaging

theorem Onward.inForce (a0 : List (ℕ × Word)) (h : Onward x₀ s) :
    Onward x₀ (State.inForce a0 s) := by
  dsimp only [State.inForce]
  repeat' first
      | with_reducible assumption | intro _ | with_reducible apply Onward.ite | with_reducible apply Onward.fst_ite
      | with_reducible apply Onward.snd_ite | with_reducible apply Onward.forL | with_reducible apply Onward.forL_fst
      | with_reducible apply Onward.on | with_reducible apply Onward.onTsy | with_reducible apply Onward.netRestart
      | with_reducible apply Onward.restartFor | exact .of_eq rfl rfl rfl rfl

theorem Onward.overrides (a0 : ℕ) (a1 : List (ℕ × Word)) (a2 : List (ℕ × List (ℕ × Word))) (h : Onward x₀ s) :
    Onward x₀ (State.overrides a0 a1 a2 s) := by
  dsimp only [State.overrides]
  repeat' first
      | with_reducible assumption | intro _ | with_reducible apply Onward.ite | with_reducible apply Onward.fst_ite
      | with_reducible apply Onward.snd_ite | with_reducible apply Onward.forL | with_reducible apply Onward.forL_fst
      | with_reducible apply Onward.onStaging

theorem Onward.applySet (a0 : ℕ) (a1 : ℕ) (a2 : State × List (ℕ × List (ℕ × Word))) (h_a2 : Onward x₀ a2.1) :
    Onward x₀ (State.applySet a0 a1 a2).1 := by
  dsimp only [State.applySet]
  repeat' first
      | with_reducible assumption | intro _ | with_reducible apply Onward.ite | with_reducible apply Onward.fst_ite
      | with_reducible apply Onward.snd_ite | with_reducible apply Onward.raise | with_reducible apply Onward.emptySet
      | with_reducible apply Onward.overrides | with_reducible apply Onward.inForce
      | with_reducible apply Onward.onStaging | with_reducible apply Onward.pairEvent
      | with_reducible apply Onward.hifPend

theorem Onward.applySets (a0 : ℕ) (h : Onward x₀ s) :
    Onward x₀ (State.applySets a0 s) := by
  dsimp only [State.applySets]
  repeat' first
      | with_reducible assumption | intro _ | with_reducible apply Onward.forL | with_reducible apply Onward.forL_fst
      | with_reducible apply Onward.applySet

theorem Onward.crossCheckRulers (a0 : CaptureIn) (h : Onward x₀ s) :
    Onward x₀ (State.crossCheckRulers a0 s) := by
  dsimp only [State.crossCheckRulers]
  repeat' first
      | with_reducible assumption | intro _ | with_reducible apply Onward.ite | with_reducible apply Onward.fst_ite
      | with_reducible apply Onward.snd_ite | with_reducible apply Onward.onTru | with_reducible apply Onward.raise

theorem Onward.beginLoad (h : Onward x₀ s) :
    Onward x₀ (State.beginLoad s) := by
  dsimp only [State.beginLoad]
  repeat' first
      | with_reducible assumption | intro _ | with_reducible apply Onward.ite | with_reducible apply Onward.fst_ite
      | with_reducible apply Onward.snd_ite | with_reducible apply Onward.forL | with_reducible apply Onward.forL_fst
      | with_reducible apply Onward.onCfg | with_reducible apply Onward.emptySet
      | with_reducible apply Onward.onStaging | with_reducible apply Onward.safeFields
      | with_reducible apply Onward.darkAborts | rfl | split

theorem Onward.endDry (h : Onward x₀ s) :
    Onward x₀ (State.endDry s) := by
  dsimp only [State.endDry]
  repeat' first
      | with_reducible assumption | intro _ | with_reducible apply Onward.ite | with_reducible apply Onward.fst_ite
      | with_reducible apply Onward.snd_ite | with_reducible apply Onward.updateReady
      | with_reducible apply Onward.stopZones | with_reducible apply Onward.onCfg

theorem Onward.followPress (h : Onward x₀ s) :
    Onward x₀ (State.followPress s) := by
  dsimp only [State.followPress]
  repeat' first
      | with_reducible assumption | intro _ | with_reducible apply Onward.ite | with_reducible apply Onward.fst_ite
      | with_reducible apply Onward.snd_ite | with_reducible apply Onward.onCfg

theorem Onward.takeNumber (h : Onward x₀ s) :
    Onward x₀ (State.takeNumber s) := by
  dsimp only [State.takeNumber]
  repeat' first
      | with_reducible assumption | intro _ | with_reducible apply Onward.ite | with_reducible apply Onward.fst_ite
      | with_reducible apply Onward.snd_ite | with_reducible apply Onward.onSys | with_reducible apply Onward.raise

theorem Onward.atCapture (a0 : CaptureIn) (h : Onward x₀ s) :
    Onward x₀ (State.atCapture a0 s) := by
  dsimp only [State.atCapture]
  repeat' first
      | with_reducible assumption | intro _ | with_reducible apply Onward.ite | with_reducible apply Onward.fst_ite
      | with_reducible apply Onward.snd_ite | with_reducible apply Onward.forN | with_reducible apply Onward.applySets
      | with_reducible apply Onward.beginLoad | with_reducible apply Onward.takeNumber
      | with_reducible apply Onward.crossCheckRulers | with_reducible apply Onward.raise
      | with_reducible apply Onward.dropWords | with_reducible apply Onward.judgeAlive
      | with_reducible apply Onward.sepClose | with_reducible apply Onward.endDry
      | with_reducible apply Onward.endHalt | with_reducible apply Onward.sensorHealth
      | with_reducible apply Onward.judgeSessions | with_reducible apply Onward.tsyCapture
      | with_reducible apply Onward.on | with_reducible apply Onward.followPress | with_reducible apply Onward.onSfr
      | with_reducible apply Onward.onLio | exact .of_eq rfl rfl rfl rfl

theorem Onward.freezeImage (h : Onward x₀ s) :
    Onward x₀ (State.freezeImage s) := by
  dsimp only [State.freezeImage]
  repeat' first
      | with_reducible assumption | intro _ | with_reducible apply Onward.onSys | with_reducible apply Onward.sepBegin
      | with_reducible apply Onward.onNet | with_reducible apply Onward.framed

theorem Onward.capture (a0 : CaptureIn) (h : Onward x₀ s) :
    Onward x₀ (State.capture a0 s) := by
  dsimp only [State.capture]
  repeat' first
      | with_reducible assumption | intro _ | with_reducible apply Onward.ite | with_reducible apply Onward.fst_ite
      | with_reducible apply Onward.snd_ite | with_reducible apply Onward.freezeImage
      | with_reducible apply Onward.atCapture | with_reducible apply Onward.deadlinePassed

theorem Onward.execCapture (a0 : ℕ) (a1 : CaptureIn) (h : Onward x₀ s) :
    ∀ u, (execCapture a0 a1 s) = .next u → Onward x₀ u := by
  intro u e
  obtain rfl := Host.Outcome.next.inj e
  repeat' first
      | with_reducible assumption | intro _ | with_reducible apply Onward.capture | with_reducible apply Onward.tick

theorem Onward.fnSources (a0 : NMap FnSt) (h : Onward x₀ s) :
    Onward x₀ (State.fnSources a0 s) := by
  dsimp only [State.fnSources]
  repeat' first
      | with_reducible assumption | intro _ | with_reducible apply Onward.ite | with_reducible apply Onward.fst_ite
      | with_reducible apply Onward.snd_ite | with_reducible apply Onward.forL | with_reducible apply Onward.forL_fst
      | with_reducible apply Onward.raise | with_reducible apply Onward.cond

theorem Onward.commitOutputs (a0 : Blocks) (h : Onward x₀ s) :
    Onward x₀ (State.commitOutputs a0 s) := by
  dsimp only [State.commitOutputs]
  repeat' first
      | with_reducible assumption | intro _ | with_reducible apply Onward.releaseZones
      | with_reducible apply Onward.onSto | with_reducible apply Onward.onSog | with_reducible apply Onward.onSfr
      | with_reducible apply Onward.onFab | with_reducible apply Onward.demandUpdate
      | with_reducible apply Onward.commitFields | with_reducible apply Onward.sendDue
      | with_reducible apply Onward.fnSources | with_reducible apply Onward.darkAborts
      | with_reducible apply Onward.sepDemand

theorem Onward.overrunEnds (h : Onward x₀ s) :
    Onward x₀ (State.overrunEnds s) := by
  dsimp only [State.overrunEnds]
  repeat' first
      | with_reducible assumption | intro _ | with_reducible apply Onward.ite | with_reducible apply Onward.fst_ite
      | with_reducible apply Onward.snd_ite | with_reducible apply Onward.cond

theorem Onward.commitEnds (a0 : Blocks) (a1 : Bool) (h : Onward x₀ s) :
    Onward x₀ (State.commitEnds a0 a1 s) := by
  dsimp only [State.commitEnds]
  repeat' first
      | with_reducible assumption | intro _ | with_reducible apply Onward.ite | with_reducible apply Onward.fst_ite
      | with_reducible apply Onward.snd_ite | with_reducible apply Onward.cond | with_reducible apply Onward.late
      | with_reducible apply Onward.onLcs

theorem Onward.channelDone (a0 : Blocks) (a1 : Ch) (a2 : ℕ) (h : Onward x₀ s) :
    Onward x₀ (State.channelDone a0 a1 a2 s) := by
  dsimp only [State.channelDone]
  repeat' first
      | with_reducible assumption | intro _ | with_reducible apply Onward.ite | with_reducible apply Onward.fst_ite
      | with_reducible apply Onward.snd_ite | with_reducible apply Onward.onFab | with_reducible apply Onward.onSys
      | with_reducible apply Onward.raise

theorem Onward.commit (a0 : Blocks) (h : Onward x₀ s) :
    Onward x₀ (State.commit a0 s) := by
  dsimp only [State.commit]
  repeat' first
      | with_reducible assumption | intro _ | with_reducible apply Onward.publish
      | with_reducible apply Onward.commitEnds | with_reducible apply Onward.commitOutputs
      | with_reducible apply Onward.onAgr | rfl

theorem Onward.agree (a0 : Blocks) (h : Onward x₀ s) :
    Onward x₀ (State.agree a0 s) := by
  dsimp only [State.agree]
  repeat' first
      | with_reducible assumption | intro _ | with_reducible apply Onward.ite | with_reducible apply Onward.fst_ite
      | with_reducible apply Onward.snd_ite | with_reducible apply Onward.abandon | with_reducible apply Onward.raise
      | with_reducible apply Onward.overrunEnds | with_reducible apply Onward.onAgr
      | with_reducible apply Onward.commit | with_reducible apply Onward.deadlinePassed | rfl | split

theorem Onward.evalComplete (a0 : Ch) (a1 : ℕ) (h : Onward x₀ s) :
    Onward x₀ (State.evalComplete a0 a1 s) := by
  dsimp only [State.evalComplete]
  repeat' first
      | with_reducible assumption | intro _ | with_reducible apply Onward.ite | with_reducible apply Onward.fst_ite
      | with_reducible apply Onward.snd_ite | with_reducible apply Onward.deadlinePassed
      | with_reducible apply Onward.channelDone | with_reducible apply Onward.agree | rfl | split

theorem Onward.execEvaluationComplete (a0 : ℕ) (a1 : Ch) (a2 : ℕ) (h : Onward x₀ s) :
    ∀ u, (execEvaluationComplete a0 a1 a2 s) = .next u → Onward x₀ u := by
  intro u e
  obtain rfl := Host.Outcome.next.inj e
  repeat' first
      | with_reducible assumption | intro _ | with_reducible apply Onward.evalComplete
      | with_reducible apply Onward.tick

end Sys2Proof.Machine
end

