-- ==== Sys2Proof/Laws/OnwardConfiguration.lean ====
section
/-! SUPPORT. What Configuration.lean keeps (Laws/Onward.lean). -/

namespace Sys2Proof.Machine

variable {x₀ s : State}

theorem Onward.onSlot (a0 : ℕ) (a1 : Slot → Slot) (h : Onward x₀ s) :
    Onward x₀ (State.onSlot a0 a1 s) := by
  dsimp only [State.onSlot]
  repeat' first | with_reducible assumption | intro _ | with_reducible apply Onward.onCfg

theorem Onward.addMark (a0 : ℕ) (a1 : ℕ) (h : Onward x₀ s) :
    Onward x₀ (State.addMark a0 a1 s) := by
  dsimp only [State.addMark]
  repeat' first | with_reducible assumption | intro _ | with_reducible apply Onward.onSlot

theorem Onward.settleBy (a0 : Option (ℕ × BitVec 16)) (a1 : ℕ) (h : Onward x₀ s) :
    Onward x₀ (State.settleBy a0 a1 s) := by
  dsimp only [State.settleBy]
  repeat' first | with_reducible assumption | intro _ | with_reducible apply Onward.settle | rfl | split

theorem Onward.refuseImage (a0 : ℕ) (a1 : ℕ × ℕ) (h : Onward x₀ s) :
    Onward x₀ (State.refuseImage a0 a1 s) := by
  dsimp only [State.refuseImage]
  repeat' first
      | with_reducible assumption | intro _ | with_reducible apply Onward.raise | with_reducible apply Onward.onCfg

theorem Onward.firstUse (h : Onward x₀ s) :
    Onward x₀ (State.firstUse s) := by
  dsimp only [State.firstUse]
  repeat' first
      | with_reducible assumption | intro _ | with_reducible apply Onward.forL | with_reducible apply Onward.forL_fst
      | with_reducible apply Onward.onFab | with_reducible apply Onward.blockFirstUse
      | with_reducible apply Onward.pairRelease | with_reducible apply Onward.onPair | rfl

theorem Onward.enterImage (a0 : ℕ) (a1 : Image) (a2 : Bool) (a3 : Bool) (h : Onward x₀ s) :
    Onward x₀ (State.enterImage a0 a1 a2 a3 s) := by
  dsimp only [State.enterImage]
  repeat' first
      | with_reducible assumption | intro _ | with_reducible apply Onward.on | with_reducible apply Onward.onTsy
      | with_reducible apply Onward.netRestart | with_reducible apply Onward.firstRole
      | with_reducible apply Onward.firstUse | exact .of_eq rfl rfl rfl rfl

theorem Onward.beginStopped (h : Onward x₀ s) :
    Onward x₀ (State.beginStopped s) := by
  dsimp only [State.beginStopped]
  repeat' first
      | with_reducible assumption | intro _ | with_reducible apply Onward.ite | with_reducible apply Onward.fst_ite
      | with_reducible apply Onward.snd_ite | with_reducible apply Onward.updateReady
      | with_reducible apply Onward.stopZones

theorem Onward.plugStart (a0 : Image) (a1 : Option (ℕ × BitVec 16)) (h : Onward x₀ s) :
    Onward x₀ (State.plugStart a0 a1 s).1 := by
  dsimp only [State.plugStart]
  repeat' first
      | with_reducible assumption | intro _ | with_reducible apply Onward.ite | with_reducible apply Onward.fst_ite
      | with_reducible apply Onward.snd_ite | with_reducible apply Onward.raise | with_reducible apply Onward.onCfg

theorem Onward.plugDone (a0 : ℕ) (h : Onward x₀ s) :
    Onward x₀ (State.plugDone a0 s) := by
  dsimp only [State.plugDone]
  repeat' first
      | with_reducible assumption | intro _ | with_reducible apply Onward.ite | with_reducible apply Onward.fst_ite
      | with_reducible apply Onward.snd_ite | with_reducible apply Onward.onCfg | with_reducible apply Onward.settleBy
      | with_reducible apply Onward.raise | rfl | split

theorem Onward.execPlugWriteComplete (a0 : ℕ) (a1 : ℕ) (h : Onward x₀ s) :
    ∀ u, (execPlugWriteComplete a0 a1 s) = .next u → Onward x₀ u := by
  intro u e
  obtain rfl := Host.Outcome.next.inj e
  repeat' first
      | with_reducible assumption | intro _ | with_reducible apply Onward.plugDone | with_reducible apply Onward.tick

theorem Onward.plugFound (a0 : PlugFind) (h : Onward x₀ s) :
    Onward x₀ (State.plugFound a0 s) := by
  dsimp only [State.plugFound]
  repeat' first
      | with_reducible assumption | intro _ | with_reducible apply Onward.ite | with_reducible apply Onward.fst_ite
      | with_reducible apply Onward.snd_ite | with_reducible apply Onward.onCfg
      | with_reducible apply Onward.plugStart | with_reducible apply Onward.raise | rfl | split

theorem Onward.plugCopy (a0 : Image) (h : Onward x₀ s) :
    Onward x₀ (State.plugCopy a0 s).1 := by
  dsimp only [State.plugCopy]
  repeat' first
      | with_reducible assumption | intro _ | with_reducible apply Onward.onSlot
      | with_reducible apply Onward.refuseImage | rfl | split

theorem Onward.startRuns (h : Onward x₀ s) :
    Onward x₀ (State.startRuns s) := by
  dsimp only [State.startRuns]
  repeat' first | with_reducible assumption | intro _ | with_reducible apply Onward.onPwr

theorem Onward.loadRecords (a0 : ℕ) (a1 : Image) (a2 : List ℕ) (h : Onward x₀ s) :
    Onward x₀ (State.loadRecords a0 a1 a2 s) := by
  dsimp only [State.loadRecords]
  repeat' first
      | with_reducible assumption | intro _ | with_reducible apply Onward.forL | with_reducible apply Onward.forL_fst
      | with_reducible apply Onward.recordConfig

theorem Onward.startPlug (a0 : ℕ) (a1 : Image) (a2 : Bool) (h : Onward x₀ s) :
    Onward x₀ (State.startPlug a0 a1 a2 s) := by
  dsimp only [State.startPlug]
  repeat' first
      | with_reducible assumption | intro _ | with_reducible apply Onward.loadRecords
      | with_reducible apply Onward.addMark | with_reducible apply Onward.enterImage
      | with_reducible apply Onward.startRuns

theorem Onward.startStored (a0 : ℕ) (a1 : Image) (h : Onward x₀ s) :
    Onward x₀ (State.startStored a0 a1 s) := by
  dsimp only [State.startStored]
  repeat' first
      | with_reducible assumption | intro _ | with_reducible apply Onward.ite | with_reducible apply Onward.fst_ite
      | with_reducible apply Onward.snd_ite | with_reducible apply Onward.beginStopped
      | with_reducible apply Onward.enterImage | with_reducible apply Onward.startRuns
      | with_reducible apply Onward.loadRecords

theorem Onward.stopAtSeven (a0 : Bool) (h : Onward x₀ s) :
    Onward x₀ (State.stopAtSeven a0 s) := by
  dsimp only [State.stopAtSeven]
  repeat' first
      | with_reducible assumption | intro _ | with_reducible apply Onward.ite | with_reducible apply Onward.fst_ite
      | with_reducible apply Onward.snd_ite | with_reducible apply Onward.onPwr

theorem Onward.lastResort (a0 : PlugFind) (a1 : Bool) (a2 : Bool) (h : Onward x₀ s) :
    Onward x₀ (State.lastResort a0 a1 a2 s) := by
  unfold State.lastResort
  split
  · next im =>
    have hp : Onward x₀ (s.plugCopy im).1 := .plugCopy _ h
    refine .ite (.stopAtSeven _ h) ?_
    split
    · next s1 k e => rw [e] at hp; exact .startPlug _ _ _ hp
    · next s1 e => rw [e] at hp; exact .stopAtSeven _ hp
  · exact .stopAtSeven _ h

theorem Onward.tryStored (a0 : PlugFind) (a1 : Bool) (a2 : List ℕ) (a3 : Bool) (h : Onward x₀ s) :
    Onward x₀ (State.tryStored a0 a1 a2 a3 s) := by
  induction a2 generalizing s a3 with
  | nil => exact .lastResort _ _ _ h
  | cons k l ih =>
    dsimp only [State.tryStored]
    split
    · exact .startStored _ _ h
    · exact ih _ (.refuseImage _ _ h)
    · exact ih _ h

theorem Onward.configLoad (a0 : PlugFind) (h : Onward x₀ s) :
    Onward x₀ (State.configLoad a0 s) := by
  unfold State.configLoad
  refine .ite h (.ite (.tryStored _ _ _ _ h) ?_)
  extract_lets v s1
  have h1 : Onward x₀ s1 := .plugFound _ h
  split
  · next im =>
    have hp : Onward x₀ (s1.plugCopy im).1 := .plugCopy _ h1
    refine .ite ?_ (.tryStored _ _ _ _ h1)
    split
    · next s2 k e => rw [e] at hp; exact .startPlug _ _ _ hp
    · next s2 e => rw [e] at hp; exact .tryStored _ _ _ _ hp
  · exact .tryStored _ _ _ _ h1

theorem Onward.execConfigLoad (a0 : ℕ) (a1 : PlugFind) (h : Onward x₀ s) :
    ∀ u, (execConfigLoad a0 a1 s) = .next u → Onward x₀ u := by
  intro u e
  obtain rfl := Host.Outcome.next.inj e
  repeat' first
      | with_reducible assumption | intro _ | with_reducible apply Onward.configLoad
      | with_reducible apply Onward.tick

theorem Onward.loadDone (h : Onward x₀ s) :
    Onward x₀ (State.loadDone s) := by
  dsimp only [State.loadDone]
  repeat' first
      | with_reducible assumption | intro _ | with_reducible apply Onward.ite | with_reducible apply Onward.fst_ite
      | with_reducible apply Onward.snd_ite | with_reducible apply Onward.onCfg
      | with_reducible apply Onward.startRuns | with_reducible apply Onward.settleBy
      | with_reducible apply Onward.loadRecords | with_reducible apply Onward.addMark
      | with_reducible apply Onward.enterImage | with_reducible apply Onward.refuseImage | rfl | split

theorem Onward.execConfigLoadComplete (a0 : ℕ) (h : Onward x₀ s) :
    ∀ u, (execConfigLoadComplete a0 s) = .next u → Onward x₀ u := by
  intro u e
  obtain rfl := Host.Outcome.next.inj e
  repeat' first
      | with_reducible assumption | intro _ | with_reducible apply Onward.loadDone | with_reducible apply Onward.tick

theorem Onward.cfgOp (a0 : Reader) (a1 : ℕ) (a2 : Word) (a3 : ℕ → State → State × ℕ)
    (h_a3 : ∀ y0 t, Onward x₀ t → Onward x₀ (a3 y0 t).1) (h : Onward x₀ s) :
    Onward x₀ (State.cfgOp a0 a1 a2 a3 s).1 := by
  dsimp only [State.cfgOp]
  repeat' first
      | with_reducible assumption | intro _ | with_reducible apply Onward.ite | with_reducible apply Onward.fst_ite
      | with_reducible apply Onward.snd_ite | with_reducible apply Onward.onCfg | with_reducible apply h_a3

theorem Onward.cfgCmd (a0 : ℕ) (a1 : Reader) (a2 : ℕ) (a3 : Word) (a4 : ℕ → State → State × ℕ)
    (h_a4 : ∀ y0 t, Onward x₀ t → Onward x₀ (a4 y0 t).1) (h : Onward x₀ s) :
    ∀ u, (State.cfgCmd a0 a1 a2 a3 a4 s) = .next u → Onward x₀ u := by
  intro u e
  obtain rfl := Host.Outcome.next.inj e
  repeat' first
      | with_reducible assumption | intro _ | with_reducible apply Onward.wt | with_reducible apply Onward.cfgOp
      | with_reducible apply Onward.tick

theorem Onward.slotOpen (a0 : ℕ) (h : Onward x₀ s) :
    Onward x₀ (State.slotOpen a0 s).1 := by
  dsimp only [State.slotOpen]
  repeat' first
      | with_reducible assumption | intro _ | with_reducible apply Onward.ite | with_reducible apply Onward.fst_ite
      | with_reducible apply Onward.snd_ite | with_reducible apply Onward.onSlot

theorem Onward.execCfgOpen (a0 : ℕ) (a1 : Reader) (a2 : Word) (h : Onward x₀ s) :
    ∀ u, (execCfgOpen a0 a1 a2 s) = .next u → Onward x₀ u := by
  unfold Machine.execCfgOpen
  with_reducible apply Onward.cfgCmd
  all_goals repeat' first | with_reducible assumption | intro _ | with_reducible apply Onward.slotOpen

theorem Onward.program (a0 : ℕ) (a1 : ℕ) (a2 : List Byte) (a3 : Spells) (h : Onward x₀ s) :
    Onward x₀ (State.program a0 a1 a2 a3 s).1 := by
  dsimp only [State.program]
  repeat' first
      | with_reducible assumption | intro _ | with_reducible apply Onward.ite | with_reducible apply Onward.fst_ite
      | with_reducible apply Onward.snd_ite | with_reducible apply Onward.onSlot

theorem Onward.programWindow (a0 : ℕ) (a1 : Spells) (a2 : ℕ) (h : Onward x₀ s) :
    Onward x₀ (State.programWindow a0 a1 a2 s).1 := by
  dsimp only [State.programWindow]
  repeat' first
      | with_reducible assumption | intro _ | with_reducible apply Onward.ite | with_reducible apply Onward.fst_ite
      | with_reducible apply Onward.snd_ite | with_reducible apply Onward.program | with_reducible apply Onward.onCfg

theorem Onward.execCfgProgramWindow (a0 : ℕ) (a1 : Reader) (a2 : Word) (a3 : Spells) (h : Onward x₀ s) :
    ∀ u, (execCfgProgramWindow a0 a1 a2 a3 s) = .next u → Onward x₀ u := by
  unfold Machine.execCfgProgramWindow
  with_reducible apply Onward.cfgCmd
  all_goals repeat' first | with_reducible assumption | intro _ | with_reducible apply Onward.programWindow

theorem Onward.slotSeal (a0 : ℕ) (h : Onward x₀ s) :
    Onward x₀ (State.slotSeal a0 s).1 := by
  dsimp only [State.slotSeal]
  repeat' first
      | with_reducible assumption | intro _ | with_reducible apply Onward.ite | with_reducible apply Onward.fst_ite
      | with_reducible apply Onward.snd_ite | with_reducible apply Onward.onSlot | with_reducible apply Onward.addMark
      | with_reducible apply Onward.refuseImage | with_reducible apply Onward.raise
      | with_reducible apply Onward.onCfg | rfl | split

theorem Onward.execCfgSeal (a0 : ℕ) (a1 : Reader) (a2 : Word) (h : Onward x₀ s) :
    ∀ u, (execCfgSeal a0 a1 a2 s) = .next u → Onward x₀ u := by
  unfold Machine.execCfgSeal
  with_reducible apply Onward.cfgCmd
  all_goals repeat' first | with_reducible assumption | intro _ | with_reducible apply Onward.slotSeal

theorem Onward.acceptEnds (a0 : ℕ) (h : Onward x₀ s) :
    Onward x₀ (State.acceptEnds a0 s) := by
  dsimp only [State.acceptEnds]
  repeat' first
      | with_reducible assumption | intro _ | with_reducible apply Onward.raise | with_reducible apply Onward.onCfg

theorem Onward.slotLoad (a0 : ℕ) (a1 : BitVec 16) (a2 : ℕ) (h : Onward x₀ s) :
    Onward x₀ (State.slotLoad a0 a1 a2 s).1 := by
  dsimp only [State.slotLoad]
  repeat' first
      | with_reducible assumption | intro _ | with_reducible apply Onward.ite | with_reducible apply Onward.fst_ite
      | with_reducible apply Onward.snd_ite | with_reducible apply Onward.acceptEnds
      | with_reducible apply Onward.onCfg

theorem Onward.execCfgLoad (a0 : ℕ) (a1 : Reader) (a2 : Word) (h : Onward x₀ s) :
    ∀ u, (execCfgLoad a0 a1 a2 s) = .next u → Onward x₀ u := by
  unfold Machine.execCfgLoad
  with_reducible apply Onward.cfgCmd
  all_goals repeat' first | with_reducible assumption | intro _ | with_reducible apply Onward.slotLoad

theorem Onward.accept (a0 : Reader) (a1 : BitVec 16) (h : Onward x₀ s) :
    Onward x₀ (State.accept a0 a1 s).1 := by
  dsimp only [State.accept]
  repeat' first
      | with_reducible assumption | intro _ | with_reducible apply Onward.ite | with_reducible apply Onward.fst_ite
      | with_reducible apply Onward.snd_ite | with_reducible apply Onward.raise | with_reducible apply Onward.newNonce
      | with_reducible apply Onward.hifPend | with_reducible apply Onward.onCfg

theorem Onward.execCfgAccept (a0 : ℕ) (a1 : Reader) (a2 : Word) (h : Onward x₀ s) :
    ∀ u, (execCfgAccept a0 a1 a2 s) = .next u → Onward x₀ u := by
  unfold Machine.execCfgAccept
  with_reducible apply Onward.cfgCmd
  all_goals repeat' first | with_reducible assumption | intro _ | with_reducible apply Onward.accept

theorem Onward.cancelAccept (h : Onward x₀ s) :
    Onward x₀ (State.cancelAccept s).1 := by
  dsimp only [State.cancelAccept]
  repeat' first
      | with_reducible assumption | intro _ | with_reducible apply Onward.ite | with_reducible apply Onward.fst_ite
      | with_reducible apply Onward.snd_ite | with_reducible apply Onward.acceptEnds

theorem Onward.execCfgCancelAccept (a0 : ℕ) (a1 : Reader) (a2 : Word) (h : Onward x₀ s) :
    ∀ u, (execCfgCancelAccept a0 a1 a2 s) = .next u → Onward x₀ u := by
  unfold Machine.execCfgCancelAccept
  with_reducible apply Onward.cfgCmd
  all_goals repeat' first | with_reducible assumption | intro _ | with_reducible apply Onward.cancelAccept

theorem Onward.slotDiscard (a0 : ℕ) (h : Onward x₀ s) :
    Onward x₀ (State.slotDiscard a0 s).1 := by
  dsimp only [State.slotDiscard]
  repeat' first
      | with_reducible assumption | intro _ | with_reducible apply Onward.ite | with_reducible apply Onward.fst_ite
      | with_reducible apply Onward.snd_ite | with_reducible apply Onward.onSlot

theorem Onward.execCfgDiscard (a0 : ℕ) (a1 : Reader) (a2 : Word) (h : Onward x₀ s) :
    ∀ u, (execCfgDiscard a0 a1 a2 s) = .next u → Onward x₀ u := by
  unfold Machine.execCfgDiscard
  with_reducible apply Onward.cfgCmd
  all_goals repeat' first | with_reducible assumption | intro _ | with_reducible apply Onward.slotDiscard

theorem Onward.writePlug (a0 : ℕ) (a1 : BitVec 16) (h : Onward x₀ s) :
    Onward x₀ (State.writePlug a0 a1 s).1 := by
  dsimp only [State.writePlug]
  repeat' first
      | with_reducible assumption | intro _ | with_reducible apply Onward.ite | with_reducible apply Onward.fst_ite
      | with_reducible apply Onward.snd_ite | with_reducible apply Onward.plugStart | rfl | split

theorem Onward.execCfgWritePlug (a0 : ℕ) (a1 : Reader) (a2 : Word) (h : Onward x₀ s) :
    ∀ u, (execCfgWritePlug a0 a1 a2 s) = .next u → Onward x₀ u := by
  unfold Machine.execCfgWritePlug
  with_reducible apply Onward.cfgCmd
  all_goals repeat' first | with_reducible assumption | intro _ | with_reducible apply Onward.writePlug

theorem Onward.acceptAck (h : Onward x₀ s) :
    Onward x₀ (State.acceptAck s) := by
  dsimp only [State.acceptAck]
  repeat' first
      | with_reducible assumption | intro _ | with_reducible apply Onward.ite | with_reducible apply Onward.fst_ite
      | with_reducible apply Onward.snd_ite | with_reducible apply Onward.cntRaise
      | with_reducible apply Onward.recordConfig | with_reducible apply Onward.addMark
      | with_reducible apply Onward.settleBy | with_reducible apply Onward.onCfg
      | with_reducible apply Onward.plugStart | rfl | split

theorem Onward.execAcceptanceAck (a0 : ℕ) (h : Onward x₀ s) :
    ∀ u, (execAcceptanceAck a0 s) = .next u → Onward x₀ u := by
  intro u e
  obtain rfl := Host.Outcome.next.inj e
  repeat' first
      | with_reducible assumption | intro _ | with_reducible apply Onward.acceptAck | with_reducible apply Onward.tick

theorem Onward.acceptTimeout (h : Onward x₀ s) :
    Onward x₀ (State.acceptTimeout s) := by
  dsimp only [State.acceptTimeout]
  repeat' first
      | with_reducible assumption | intro _ | with_reducible apply Onward.ite | with_reducible apply Onward.fst_ite
      | with_reducible apply Onward.snd_ite | with_reducible apply Onward.settleBy
      | with_reducible apply Onward.acceptEnds

theorem Onward.execAcceptanceTimeout (a0 : ℕ) (h : Onward x₀ s) :
    ∀ u, (execAcceptanceTimeout a0 s) = .next u → Onward x₀ u := by
  intro u e
  obtain rfl := Host.Outcome.next.inj e
  repeat' first
      | with_reducible assumption | intro _ | with_reducible apply Onward.acceptTimeout
      | with_reducible apply Onward.tick

end Sys2Proof.Machine
end

