-- ==== Sys2Proof/Laws/OnwardAccess.lean ====
section
/-! SUPPORT. What Access.lean keeps (Laws/Onward.lean). -/

namespace Sys2Proof.Machine

variable {x₀ s : State}

theorem Onward.readLatch (a0 : ℕ) (a1 : ℕ) (h : Onward x₀ s) :
    Onward x₀ (State.readLatch a0 a1 s) := by
  dsimp only [State.readLatch]
  repeat' first
      | with_reducible assumption | intro _ | with_reducible apply Onward.ite | with_reducible apply Onward.fst_ite
      | with_reducible apply Onward.snd_ite | with_reducible apply Onward.latchOptime
      | with_reducible apply Onward.latchCell | with_reducible apply Onward.windowRead
      | with_reducible apply Onward.latchCvuState | with_reducible apply Onward.latchCvuResult

theorem Onward.load (a0 : Reader) (a1 : ℕ) (h : Onward x₀ s) :
    Onward x₀ (State.load a0 a1 s).2 := by
  dsimp only [State.load]
  repeat' first | with_reducible assumption | intro _ | with_reducible apply Onward.readLatch

theorem Onward.stage (a0 : ℕ) (a1 : ℕ) (a2 : Word) (h : Onward x₀ s) :
    Onward x₀ (State.stage a0 a1 a2 s).1 := by
  dsimp only [State.stage]
  repeat' first
      | with_reducible assumption | intro _ | with_reducible apply Onward.ite | with_reducible apply Onward.fst_ite
      | with_reducible apply Onward.snd_ite | with_reducible apply Onward.onStaging

theorem Onward.hifIrq (a0 : Word) (h : Onward x₀ s) :
    Onward x₀ (State.hifIrq a0 s).1 := by
  dsimp only [State.hifIrq]
  repeat' first | with_reducible assumption | intro _ | with_reducible apply Onward.onHif

theorem Onward.cprEvt (a0 : ℕ) (a1 : Word) (h : Onward x₀ s) :
    Onward x₀ (State.cprEvt a0 a1 s).1 := by
  dsimp only [State.cprEvt]
  repeat' first | with_reducible assumption | intro _ | with_reducible apply Onward.onPair | rfl | assumption

theorem Onward.mtimecmp (a0 : ℕ) (a1 : Bool) (a2 : Word) (h : Onward x₀ s) :
    Onward x₀ (State.mtimecmp a0 a1 a2 s).1 := by
  dsimp only [State.mtimecmp]
  repeat' first
      | with_reducible assumption | intro _ | with_reducible apply Onward.ite | with_reducible apply Onward.fst_ite
      | with_reducible apply Onward.snd_ite | with_reducible apply Onward.timerLine
      | with_reducible apply Onward.onPair | rfl | split | assumption

theorem Onward.irqEnable (a0 : ℕ) (a1 : ℕ) (a2 : Word) (h : Onward x₀ s) :
    Onward x₀ (State.irqEnable a0 a1 a2 s).1 := by
  dsimp only [State.irqEnable]
  repeat' first | with_reducible assumption | intro _ | with_reducible apply Onward.onPair | rfl | assumption

theorem Onward.upOffset (a0 : ℕ) (a1 : Word) (h : Onward x₀ s) :
    Onward x₀ (State.upOffset a0 a1 s).1 := by
  dsimp only [State.upOffset]
  repeat' first
      | with_reducible assumption | intro _ | with_reducible apply Onward.ite | with_reducible apply Onward.fst_ite
      | with_reducible apply Onward.snd_ite | with_reducible apply Onward.onCfg

theorem Onward.upData (a0 : ℕ) (a1 : ℕ) (a2 : Word) (h : Onward x₀ s) :
    Onward x₀ (State.upData a0 a1 a2 s).1 := by
  dsimp only [State.upData]
  repeat' first | with_reducible assumption | intro _ | with_reducible apply Onward.onCfg

theorem Onward.proofWord (a0 : ℕ) (a1 : ℕ) (a2 : Word) (h : Onward x₀ s) :
    Onward x₀ (State.proofWord a0 a1 a2 s).1 := by
  dsimp only [State.proofWord]
  repeat' first | with_reducible assumption | intro _ | with_reducible apply Onward.onExpert

theorem Onward.recSig (a0 : ℕ) (a1 : Word) (h : Onward x₀ s) :
    Onward x₀ (State.recSig a0 a1 s).1 := by
  dsimp only [State.recSig]
  repeat' first | with_reducible assumption | intro _ | with_reducible apply Onward.onRecd

theorem Onward.lcsSig (a0 : ℕ) (a1 : Word) (h : Onward x₀ s) :
    Onward x₀ (State.lcsSig a0 a1 s).1 := by
  dsimp only [State.lcsSig]
  repeat' first | with_reducible assumption | intro _ | with_reducible apply Onward.onLcs

theorem Onward.certWrite (a0 : ℕ) (a1 : Word) (h : Onward x₀ s) :
    Onward x₀ (State.certWrite a0 a1 s).1 := by
  dsimp only [State.certWrite]
  repeat' first
      | with_reducible assumption | intro _ | with_reducible apply Onward.ite | with_reducible apply Onward.fst_ite
      | with_reducible apply Onward.snd_ite | with_reducible apply Onward.onKey

theorem Onward.attNonce (a0 : ℕ) (a1 : ℕ) (a2 : Word) (h : Onward x₀ s) :
    Onward x₀ (State.attNonce a0 a1 a2 s).1 := by
  dsimp only [State.attNonce]
  repeat' first | with_reducible assumption | intro _ | with_reducible apply Onward.onAtt

theorem Onward.otpProg (a0 : ℕ) (a1 : Word) (h : Onward x₀ s) :
    Onward x₀ (State.otpProg a0 a1 s).1 := by
  dsimp only [State.otpProg]
  repeat' first
      | with_reducible assumption | intro _ | with_reducible apply Onward.ite | with_reducible apply Onward.fst_ite
      | with_reducible apply Onward.snd_ite | with_reducible apply Onward.onOtp | rfl | split

theorem Onward.otpShadow (a0 : ℕ) (a1 : Word) (h : Onward x₀ s) :
    Onward x₀ (State.otpShadow a0 a1 s).1 := by
  dsimp only [State.otpShadow]
  repeat' first
      | with_reducible assumption | intro _ | with_reducible apply Onward.ite | with_reducible apply Onward.fst_ite
      | with_reducible apply Onward.snd_ite | with_reducible apply Onward.onOtp | rfl

theorem OnwardO.writeRw (a0 : Reader) (a1 : ℕ) (a2 : Word) (h : Onward x₀ s) :
    OnwardO x₀ (State.writeRw a0 a1 a2 s) := by
  have hw : ∀ (page : Nat) (run : State → State × Nat), (∀ t, Onward x₀ t → Onward x₀ (run t).1) →
      OnwardO x₀ (some (s.plain a0 page run)) := fun _ _ hr => .ofSome (.plain _ _ _ hr h)
  unfold State.writeRw
  extract_lets r page off plain
  refine .ite (.bind _ _ fun _ => hw _ _ fun _ ht => .proofWord _ _ _ ht) (.ite (.bind _ _ fun _ => .ofSome
    (.plain _ _ _ (fun _ ht => .setOwn _ _ _ ht) h)) (.ite ?_ (.ite ?_ (.ite (.bind _ _ fun _ => hw _ _ fun _ ht => .lcsSig _ _ ht) (.ite ?_ (.ite
    (.ite (hw _ _ fun _ ht => .upOffset _ _ ht) (.bind _ _ fun _ => hw _ _ fun _ ht => .upData _ _ _ ht))
    (.ite (.ite (hw _ _ fun _ ht => .hifIrq _ ht) .ofNone) .ofNone)))))))
  · split
    · exact hw _ _ fun _ ht => .recSig _ _ ht
    · exact .ite (.ofSome (.plain _ _ _ (fun _ ht => .onExport _ _ ht) h)) .ofNone
  · exact .ite (.ofSome (.expert _ _ _ _ (fun _ ht => .otpProg _ _ ht) h))
      (.ite (.ofSome (.expert _ _ _ _ (fun _ ht => .otpShadow _ _ ht) h)) .ofNone)
  · split
    · exact hw _ _ fun _ ht => .attNonce _ _ _ ht
    · exact .ite (hw _ _ fun _ ht => .certWrite _ _ ht) .ofNone

theorem OnwardO.writeCpr (a0 : Reader) (a1 : Fin 4) (a2 : ℕ) (a3 : Word) (h : Onward x₀ s) :
    OnwardO x₀ (State.writeCpr a0 a1 a2 a3 s) := by
  have hw : ∀ run : State → State × Nat, (∀ t, Onward x₀ t → Onward x₀ (run t).1) →
      OnwardO x₀ (some (s.ownPair a0 a1.val run)) := fun _ hr => .ofSome (.ownPair _ _ _ hr h)
  unfold State.writeCpr
  refine .ite (hw _ fun _ ht => .cprAlive _ ht) (.ite (.ofSome (.ownWt _ _ _ _ (fun _ ht => .cfwInv _ _ ht) h)) (.ite
    (hw _ fun _ ht => .mtimecmp _ _ _ ht) (.ite (hw _ fun _ ht => .mtimecmp _ _ _ ht) (.ite
    (hw _ fun _ ht => .cprTx _ _ ht) (.ite (.ofSome (.plain _ _ _ (fun _ ht => .cprEvt _ _ ht) h)) (.ite
    (.ofSome (.wt _ _ _ _ (fun _ ht => .cprCtrClear _ _ ht) h)) ?_))))))
  split
  · exact hw _ fun _ ht => .irqEnable _ _ _ ht
  · exact hw _ fun _ ht => .rdsel _ _ _ ht
  · exact hw _ fun _ ht => .cfwWrite _ _ _ ht
  · exact .ofNone

theorem OnwardO.writeCvu (a0 : Reader) (a1 : ℕ) (a2 : ℕ) (a3 : Word) (h : Onward x₀ s) :
    OnwardO x₀ (State.writeCvu a0 a1 a2 a3 s) := by
  have hw : ∀ run : State → State × Nat, (∀ t, Onward x₀ t → Onward x₀ (run t).1) → OnwardO x₀ (some (s.cvuWrite a0 a1 run)) :=
    fun _ hr => .ofSome (.cvuWrite _ _ _ hr h)
  unfold State.writeCvu
  split
  · exact hw _ fun _ ht => .cvuCtrl _ _ ht
  · exact hw _ fun _ ht => .cvuFeed _ _ _ ht
  · exact hw _ fun _ ht => .cvuFeed _ _ _ ht
  · exact hw _ fun _ ht => .cvuFeed _ _ _ ht
  · exact hw _ fun _ ht => .cvuStateLo _ _ ht
  · exact hw _ fun _ ht => .cvuStateHi _ _ ht
  · exact hw _ fun _ ht => .cvuSetCount _ _ ht
  · exact hw _ fun _ ht => .cvuAlive _ _ ht
  · exact hw _ fun _ ht => .cvuGuard _ _ ht
  · exact .ofSome (.wt _ _ _ _ (fun _ ht => .cvuCtrClear _ _ ht) h)
  · exact hw _ fun _ ht => ht

theorem Onward.badOp (a0 : Reader) (a1 : ℕ) (a2 : Word) (h : Onward x₀ s) :
    Onward x₀ (State.badOp a0 a1 a2 s) := by
  dsimp only [State.badOp]
  repeat' first | with_reducible assumption | intro _ | with_reducible apply Onward.wt

theorem OnwardO.sysCmd (a0 : Reader) (a1 : ℕ) (a2 : Word) (h : Onward x₀ s) :
    OnwardO x₀ (State.sysCmd a0 a1 a2 s) := by
  dsimp only [State.sysCmd]
  repeat' first
    | with_reducible exact OnwardO.ofNone
    | with_reducible refine OnwardO.ite ?_ ?_
    | with_reducible refine OnwardO.ofSome ?_
    | with_reducible exact .badOp _ _ _ h
    | with_reducible exact .via _ (.execStageCommit _ _ _ ‹_›) ‹_›
    | with_reducible exact .via _ (.execStageDiscard _ _ _ ‹_›) ‹_›
    | with_reducible exact .via _ (.execFreeze _ _ _ ‹_›) ‹_›
    | with_reducible exact .via _ (.execFreezeRelease _ _ _ ‹_›) ‹_›
    | with_reducible exact .via _ (.execExpertUnlock _ _ _ ‹_›) ‹_›
    | with_reducible exact .via _ (.execExpertLock _ _ _ ‹_›) ‹_›
    | split

theorem Onward.tsyCmd (a0 : Reader) (a1 : Word) (h : Onward x₀ s) :
    Onward x₀ (State.tsyCmd a0 a1 s) := by
  dsimp only [State.tsyCmd]
  repeat' first
    | with_reducible exact .badOp _ _ _ h
    | with_reducible exact .via _ (.execTsySet _ _ _ ‹_›) ‹_›
    | with_reducible exact .via _ (.execTsySlew _ _ _ ‹_›) ‹_›
    | with_reducible exact .via _ (.execTsyCancelSlew _ _ _ ‹_›) ‹_›
    | split

theorem Onward.exportCmd (a0 : Reader) (a1 : Word) (h : Onward x₀ s) :
    Onward x₀ (State.exportCmd a0 a1 s) := by
  dsimp only [State.exportCmd]
  repeat' first
    | with_reducible exact .badOp _ _ _ h
    | with_reducible exact .via _ (.execExportStart _ _ _ ‹_›) ‹_›
    | with_reducible exact .via _ (.execExportAbandon _ _ _ ‹_›) ‹_›
    | split

theorem Onward.otpCmd (a0 : Reader) (a1 : Word) (h : Onward x₀ s) :
    Onward x₀ (State.otpCmd a0 a1 s) := by
  dsimp only [State.otpCmd]
  repeat' first
    | with_reducible exact .badOp _ _ _ h
    | with_reducible exact .via _ (.execOtpBurnWord _ _ _ ‹_›) ‹_›
    | with_reducible exact .via _ (.execOtpFinalise _ _ _ ‹_›) ‹_›
    | with_reducible exact .via _ (.execOtpRetire _ _ _ ‹_›) ‹_›
    | with_reducible exact .via _ (.execOtpBurn4408Row _ _ _ ‹_›) ‹_›
    | with_reducible exact .via _ (.execOtpRedirect4408Row _ _ _ ‹_›) ‹_›
    | split

theorem Onward.lcsCmd (a0 : Reader) (a1 : Word) (h : Onward x₀ s) :
    Onward x₀ (State.lcsCmd a0 a1 s) := by
  dsimp only [State.lcsCmd]
  repeat' first
    | with_reducible exact .badOp _ _ _ h
    | with_reducible exact .via _ (.execLcToManufacture _ _ _ ‹_›) ‹_›
    | with_reducible exact .via _ (.execGenerateKey _ _ _ _ _ ‹_›) ‹_›
    | with_reducible exact .via _ (.execLcToProvisioned _ _ _ ‹_›) ‹_›
    | with_reducible exact .via _ (.execLcToDeployed _ _ _ ‹_›) ‹_›
    | with_reducible exact .via _ (.execLcToReturned _ _ _ _ ‹_›) ‹_›
    | with_reducible exact .via _ (.execDebugUnlock _ _ _ ‹_›) ‹_›
    | with_reducible exact .via _ (.execOpenScan _ _ _ ‹_›) ‹_›
    | with_reducible exact .via _ (.execGenerateKey _ _ _ _ _ (.drew 1 h)) (.drew 1 h)
    | with_reducible exact .via _ (.execLcToReturned _ _ _ _ (.drew 1 h)) (.drew 1 h)
    | split

theorem Onward.cfgReg (a0 : Reader) (a1 : Word) (h : Onward x₀ s) :
    Onward x₀ (State.cfgReg a0 a1 s) := by
  dsimp only [State.cfgReg]
  repeat' first
    | with_reducible exact .badOp _ _ _ h
    | with_reducible exact .via _ (.execCfgOpen _ _ _ ‹_›) ‹_›
    | with_reducible exact .via _ (.execCfgProgramWindow _ _ _ _ ‹_›) ‹_›
    | with_reducible exact .via _ (.execCfgSeal _ _ _ ‹_›) ‹_›
    | with_reducible exact .via _ (.execCfgLoad _ _ _ ‹_›) ‹_›
    | with_reducible exact .via _ (.execCfgAccept _ _ _ ‹_›) ‹_›
    | with_reducible exact .via _ (.execCfgCancelAccept _ _ _ ‹_›) ‹_›
    | with_reducible exact .via _ (.execCfgDiscard _ _ _ ‹_›) ‹_›
    | with_reducible exact .via _ (.execCfgWritePlug _ _ _ ‹_›) ‹_›
    | with_reducible exact .via _ (.cfgCmd _ _ _ _ _ ‹_›) ‹_›
    | with_reducible exact .via _ (.cfgCmd _ _ _ _ _ (fun _ _ ht => ht) h) h
    | split

theorem OnwardO.safetyCmd (a0 : Reader) (a1 : Ch) (a2 : ℕ) (a3 : Word) (h : Onward x₀ s) :
    OnwardO x₀ (State.safetyCmd a0 a1 a2 a3 s) := by
  dsimp only [State.safetyCmd]
  repeat' first
    | with_reducible exact OnwardO.ofNone
    | with_reducible refine OnwardO.ite ?_ ?_
    | with_reducible refine OnwardO.ofSome ?_
    | with_reducible exact .via _ (.execTruInject _ _ _ ‹_›) ‹_›
    | with_reducible exact .via _ (.execFabCtrClear _ _ _ _ ‹_›) ‹_›
    | with_reducible exact .via _ (.execFabInject _ _ _ _ ‹_›) ‹_›
    | with_reducible exact .via _ (.execLioCtrClear _ _ _ ‹_›) ‹_›
    | with_reducible exact .via _ (.execMeaCtrClear _ _ _ ‹_›) ‹_›
    | with_reducible exact .via _ (.execAxsCtrClear _ _ _ ‹_›) ‹_›
    | with_reducible exact .via _ (.execSepCtrClear _ _ _ ‹_›) ‹_›
    | with_reducible exact .via _ (.execKinCtrClear _ _ _ ‹_›) ‹_›
    | with_reducible exact .via _ (.execNetCtrClear _ _ _ ‹_›) ‹_›
    | with_reducible exact .via _ (.execSfrCtrClear _ _ _ ‹_›) ‹_›
    | with_reducible exact .via _ (.execSfrRestart _ _ _ ‹_›) ‹_›
    | with_reducible exact .via _ (.execAgrCtrClear _ _ _ ‹_›) ‹_›
    | with_reducible exact .via _ (.execAgrInject _ _ _ ‹_›) ‹_›
    | with_reducible exact .tsyCmd _ _ h
    | with_reducible exact .exportCmd _ _ h
    | with_reducible exact .otpCmd _ _ h
    | with_reducible exact .lcsCmd _ _ h
    | with_reducible exact .cfgReg _ _ h
    | with_reducible exact .wt _ _ _ _ (fun _ ht => .hifCtrClear _ ht) h

theorem OnwardO.serviceCmd (a0 : Reader) (a1 : Ch) (a2 : ℕ) (a3 : Word) (h : Onward x₀ s) :
    OnwardO x₀ (State.serviceCmd a0 a1 a2 a3 s) := by
  dsimp only [State.serviceCmd]
  repeat' first
    | with_reducible exact OnwardO.ofNone
    | with_reducible refine OnwardO.ite ?_ ?_
    | with_reducible refine OnwardO.ofSome ?_
    | with_reducible exact .via _ (.execFclClear _ _ _ ‹_›) ‹_›
    | with_reducible exact .via _ (.execFclCtrClear _ _ _ ‹_›) ‹_›
    | with_reducible exact .via _ (.execRecWindowLoad _ _ _ ‹_›) ‹_›
    | with_reducible exact .via _ (.execRecClear _ _ _ ‹_›) ‹_›
    | with_reducible exact .via _ (.execRecFwReq _ _ _ ‹_›) ‹_›
    | with_reducible exact .via _ (.execRecCtrClear _ _ _ ‹_›) ‹_›
    | with_reducible exact .via _ (.execBstCtrClear _ _ _ _ ‹_›) ‹_›
    | with_reducible exact .via _ (.execBstForce _ _ _ _ ‹_›) ‹_›
    | with_reducible exact .via _ (.execOtpRead _ _ _ ‹_›) ‹_›
    | with_reducible exact .via _ (.execAttestationStart _ _ _ ‹_›) ‹_›
    | with_reducible exact .via _ (.execPwrCtrClear _ _ _ ‹_›) ‹_›
    | with_reducible exact .tsyCmd _ _ h
    | with_reducible exact .exportCmd _ _ h
    | with_reducible exact .otpCmd _ _ h
    | with_reducible exact .lcsCmd _ _ h
    | with_reducible exact .cfgReg _ _ h
    | with_reducible exact .wt _ _ _ _ (fun _ ht => .hifCtrClear _ ht) h

theorem OnwardO.writeKnown (a0 : Reader) (a1 : Ch) (a2 : ℕ) (a3 : Word) (h : Onward x₀ s) :
    OnwardO x₀ (State.writeKnown a0 a1 a2 a3 s) := by
  unfold State.writeKnown
  refine .ite (.ofSome (.pageClear _ _ _ h)) (.ite .ofNone ?_)
  split
  · exact .ofSome (.plain _ _ _ (fun _ ht => .setOwn _ _ _ ht) h)
  · exact .ofSome (.plain _ _ _ (fun _ ht => .setRw _ _ ht) h)
  · exact .ite (.sysCmd _ _ _ h) (.ite (.writeCpr _ _ _ _ h) (.ite (.writeCvu _ _ _ _ h)
      (.orElse (.orElse (.safetyCmd _ _ _ _ h) (.serviceCmd _ _ _ _ h)) (.writeRw _ _ _ h))))

theorem Onward.writeWord (a0 : Reader) (a1 : ℕ) (a2 : Word) (h : Onward x₀ s) :
    Onward x₀ (State.writeWord a0 a1 a2 s) := by
  unfold State.writeWord
  split
  · exact h
  · refine .ite (.plain _ _ _ (fun _ ht => .stage _ _ _ ht) h) ?_
    split
    · exact OnwardO.writeKnown _ _ _ _ h _ ‹_›
    · exact .plain _ _ _ (fun _ ht => ht) h

theorem Onward.busWrite (a0 : Reader) (a1 : ℕ) (a2 : ℕ) (a3 : Word) (h : Onward x₀ s) :
    Onward x₀ (State.busWrite a0 a1 a2 a3 s) := by
  dsimp only [State.busWrite]
  repeat' first
      | with_reducible assumption | intro _ | with_reducible apply Onward.ite | with_reducible apply Onward.fst_ite
      | with_reducible apply Onward.snd_ite | with_reducible apply Onward.writeWord
      | with_reducible apply Onward.result | rfl | split

theorem Onward.execRegisterWrite (a0 : ℕ) (a1 : Reader) (a2 : ℕ) (a3 : ℕ) (a4 : Word) (h : Onward x₀ s) :
    ∀ u, (execRegisterWrite a0 a1 a2 a3 a4 s) = .next u → Onward x₀ u := by
  intro u e
  obtain rfl := Host.Outcome.next.inj e
  repeat' first
      | with_reducible assumption | intro _ | with_reducible apply Onward.busWrite | with_reducible apply Onward.tick

theorem Onward.execStagedWrite (a0 : ℕ) (a1 : Reader) (a2 : ℕ) (a3 : ℕ) (a4 : Word) (h : Onward x₀ s) :
    ∀ u, (execStagedWrite a0 a1 a2 a3 a4 s) = .next u → Onward x₀ u := by
  intro u e
  obtain rfl := Host.Outcome.next.inj e
  repeat' first
      | with_reducible assumption | intro _ | with_reducible apply Onward.busWrite | with_reducible apply Onward.tick

end Sys2Proof.Machine
end

