-- ==== Sys2Proof/Laws/OnwardCheckpoints.lean ====
section
/-! SUPPORT. What Checkpoints.lean keeps (Laws/Onward.lean). -/

namespace Sys2Proof.Machine

variable {x₀ s : State}

theorem Onward.served (a0 : Fin 4) (a1 : ℕ) (a2 : Entry) (h : Onward x₀ s) :
    Onward x₀ (State.served a0 a1 a2 s).2 := by
  dsimp only [State.served]
  repeat' first | with_reducible assumption | intro _ | with_reducible apply Onward.load | rfl | split

theorem Onward.cacheErrors (a0 : ℕ) (a1 : Ch) (a2 : ℕ) (h : Onward x₀ s) :
    Onward x₀ (State.cacheErrors a0 a1 a2 s) := by
  dsimp only [State.cacheErrors]
  repeat' first
      | with_reducible assumption | intro _ | with_reducible apply Onward.ite | with_reducible apply Onward.fst_ite
      | with_reducible apply Onward.snd_ite | with_reducible apply Onward.raise | with_reducible apply Onward.onPair
      | rfl | split | exact (Pair.memWf_onCore _ _ _).trans ‹_›

theorem Onward.answered (a0 : Fin 4) (a1 : Ch) (a2 : Entry) (h : Onward x₀ s) :
    Onward x₀ (State.answered a0 a1 a2 s).2 := by
  dsimp only [State.answered]
  repeat' first | with_reducible assumption | intro _ | with_reducible apply Onward.served | rfl | split

/-- The judged heads change no memory. -/
theorem Pair.memWf_meets (p : Pair) : p.meets.memWf = p.memWf := by
  unfold Pair.meets
  split <;> rfl

theorem Onward.enqueue (a0 : Fin 4) (a1 : Ch) (a2 : Entry) (h : Onward x₀ s) :
    Onward x₀ (State.enqueue a0 a1 a2 s) := by
  dsimp only [State.enqueue]
  repeat' first
      | with_reducible assumption | intro _ | with_reducible apply Onward.ite | with_reducible apply Onward.fst_ite
      | with_reducible apply Onward.snd_ite | with_reducible apply Onward.answered | with_reducible apply Onward.onAgr
      | with_reducible apply Onward.onPair | with_reducible apply Onward.cacheErrors | rfl | split
      | exact (Pair.memWf_onCore _ _ _).trans ‹_› | exact (Pair.memWf_meets _).trans ‹_›

theorem Onward.alone (a0 : Fin 4) (a1 : Ch) (a2 : Entry) (h : Onward x₀ s) :
    Onward x₀ (State.alone a0 a1 a2 s) := by
  dsimp only [State.alone]
  repeat' first
      | with_reducible assumption | intro _ | with_reducible apply Onward.served
      | with_reducible apply Onward.cacheErrors | with_reducible apply Onward.onPair | rfl
      | exact (Pair.memWf_onCore _ _ _).trans ‹_›

theorem Onward.checkpointPush (a0 : Fin 4) (a1 : Ch) (a2 : Entry) (h : Onward x₀ s) :
    Onward x₀ (State.checkpointPush a0 a1 a2 s) := by
  dsimp only [State.checkpointPush]
  repeat' first
      | with_reducible assumption | intro _ | with_reducible apply Onward.ite | with_reducible apply Onward.fst_ite
      | with_reducible apply Onward.snd_ite | with_reducible apply Onward.enqueue | with_reducible apply Onward.alone

theorem Onward.execCheckpointPush (a0 : ℕ) (a1 : Fin 4) (a2 : Ch) (a3 : Entry) (h : Onward x₀ s) :
    ∀ u, (execCheckpointPush a0 a1 a2 a3 s) = .next u → Onward x₀ u := by
  intro u e
  obtain rfl := Host.Outcome.next.inj e
  repeat' first
      | with_reducible assumption | intro _ | with_reducible apply Onward.checkpointPush
      | with_reducible apply Onward.tick

theorem Onward.releaseEntry (a0 : Fin 4) (a1 : Entry) (h : Onward x₀ s) :
    Onward x₀ (State.releaseEntry a0 a1 s) := by
  dsimp only [State.releaseEntry]
  repeat' first
      | with_reducible assumption | intro _ | with_reducible apply Onward.ite | with_reducible apply Onward.fst_ite
      | with_reducible apply Onward.snd_ite | with_reducible apply Onward.busWrite

theorem Onward.compareHeads (a0 : Fin 4) (a1 : Entry) (a2 : Entry) (h : Onward x₀ s) :
    Onward x₀ (State.compareHeads a0 a1 a2 s) := by
  dsimp only [State.compareHeads]
  repeat' first
      | with_reducible assumption | intro _ | with_reducible apply Onward.ite | with_reducible apply Onward.fst_ite
      | with_reducible apply Onward.snd_ite | with_reducible apply Onward.blockAll | with_reducible apply Onward.raise
      | with_reducible apply Onward.onAgr | with_reducible apply Onward.releaseEntry
      | with_reducible apply Onward.onPair | with_reducible apply Onward.failPair | rfl | split | assumption

theorem Onward.noteCorrected (a0 : ℕ) (a1 : Entry) (a2 : Entry) (h : Onward x₀ s) :
    Onward x₀ (State.noteCorrected a0 a1 a2 s) := by
  dsimp only [State.noteCorrected]
  repeat' first
      | with_reducible assumption | intro _ | with_reducible apply Onward.ite | with_reducible apply Onward.fst_ite
      | with_reducible apply Onward.snd_ite | with_reducible apply Onward.raise

theorem Onward.checkpointMatch (a0 : Fin 4) (h : Onward x₀ s) :
    Onward x₀ (State.checkpointMatch a0 s) := by
  dsimp only [State.checkpointMatch]
  repeat' first
      | with_reducible assumption | intro _ | with_reducible apply Onward.ite | with_reducible apply Onward.fst_ite
      | with_reducible apply Onward.snd_ite | with_reducible apply Onward.failPair
      | with_reducible apply Onward.noteCorrected | with_reducible apply Onward.compareHeads | rfl | split

theorem Onward.execCheckpointMatch (a0 : ℕ) (a1 : Fin 4) (h : Onward x₀ s) :
    ∀ u, (execCheckpointMatch a0 a1 s) = .next u → Onward x₀ u := by
  intro u e
  obtain rfl := Host.Outcome.next.inj e
  repeat' first
      | with_reducible assumption | intro _ | with_reducible apply Onward.checkpointMatch
      | with_reducible apply Onward.tick

end Sys2Proof.Machine
end

