-- ==== Sys2Proof/Laws/OnwardDetectors.lean ====
section
/-! SUPPORT. What Detectors.lean keeps (Laws/Onward.lean). -/

namespace Sys2Proof.Machine

variable {x₀ s : State}

theorem Onward.finding (a0 : Finding) (h : Onward x₀ s) :
    Onward x₀ (State.finding a0 s) := by
  dsimp only [State.finding]
  repeat' first
      | with_reducible assumption | intro _ | with_reducible apply Onward.ite | with_reducible apply Onward.fst_ite
      | with_reducible apply Onward.snd_ite | with_reducible apply Onward.raise
      | with_reducible apply Onward.loseQueued | with_reducible apply Onward.blockAll
      | with_reducible apply Onward.failPair | with_reducible apply Onward.memDiffers
      | with_reducible apply Onward.memUncorrectable | rfl | split

theorem Onward.sampled (a0 : Pins) (h : Onward x₀ s) :
    Onward x₀ (State.sampled a0 s) := by
  dsimp only [State.sampled]
  repeat' first
      | with_reducible assumption | intro _ | with_reducible apply Onward.forL | with_reducible apply Onward.forL_fst
      | with_reducible apply Onward.sampling | with_reducible apply Onward.finding

theorem Onward.execSamplingInstant (a0 : ℕ) (a1 : Pins) (h : Onward x₀ s) :
    ∀ u, (execSamplingInstant a0 a1 s) = .next u → Onward x₀ u := by
  intro u e
  obtain rfl := Host.Outcome.next.inj e
  repeat' first
      | with_reducible assumption | intro _ | with_reducible apply Onward.sampled | with_reducible apply Onward.tick

end Sys2Proof.Machine
end

