-- ==== Sys2Proof/Laws/OnwardHostPort.lean ====
section
/-! SUPPORT. What HostPort.lean keeps (Laws/Onward.lean). -/

namespace Sys2Proof.Machine

variable {x₀ s : State}

theorem Onward.readRun (a0 : Reader) (a1 : ℕ) (a2 : ℕ) (h : Onward x₀ s) :
    Onward x₀ (State.readRun a0 a1 a2 s).2.2 := by
  induction a2 generalizing s a1 with
  | zero => exact h
  | succ n ih =>
    refine ih _ ?_
    split
    · exact .load _ _ h
    · exact h

theorem Onward.writeWords (a0 : Reader) (a1 : ℕ) (a2 : List Word) (h : Onward x₀ s) :
    Onward x₀ (State.writeWords a0 a1 a2 s).2 := by
  induction a2 generalizing s a1 with
  | nil => exact h
  | cons w l ih => exact ih _ (.busWrite _ _ _ _ h)

theorem Onward.hifSend (a0 : List Byte) (h : Onward x₀ s) :
    Onward x₀ (State.hifSend a0 s) := by
  dsimp only [State.hifSend]
  repeat' first | with_reducible assumption | intro _ | with_reducible apply Onward.onHif

theorem Onward.hifRun (a0 : List Byte) (h : Onward x₀ s) :
    Onward x₀ (State.hifRun a0 s).2 := by
  dsimp only [State.hifRun]
  repeat' first
      | with_reducible assumption | intro _ | with_reducible apply Onward.ite | with_reducible apply Onward.fst_ite
      | with_reducible apply Onward.snd_ite | with_reducible apply Onward.writeWords
      | with_reducible apply Onward.readRun

theorem Onward.hifExecute (a0 : List Byte) (h : Onward x₀ s) :
    Onward x₀ (State.hifExecute a0 s) := by
  dsimp only [State.hifExecute]
  repeat' first
      | with_reducible assumption | intro _ | with_reducible apply Onward.hifRun | with_reducible apply Onward.onHif
      | with_reducible apply Onward.hifSend

theorem Onward.hifRequest (a0 : List Byte) (h : Onward x₀ s) :
    Onward x₀ (State.hifRequest a0 s) := by
  dsimp only [State.hifRequest]
  repeat' first
      | with_reducible assumption | intro _ | with_reducible apply Onward.ite | with_reducible apply Onward.fst_ite
      | with_reducible apply Onward.snd_ite | with_reducible apply Onward.hifSend | with_reducible apply Onward.raise
      | with_reducible apply Onward.onHif | with_reducible apply Onward.hifExecute | rfl | split

theorem Onward.hifCut (h : Onward x₀ s) :
    Onward x₀ (State.hifCut s) := by
  dsimp only [State.hifCut]
  repeat' first | with_reducible assumption | intro _ | with_reducible apply Onward.raise

theorem Onward.hifFrame (a0 : List Byte) (h : Onward x₀ s) :
    Onward x₀ (State.hifFrame a0 s) := by
  dsimp only [State.hifFrame]
  repeat' first
      | with_reducible assumption | intro _ | with_reducible apply Onward.ite | with_reducible apply Onward.fst_ite
      | with_reducible apply Onward.snd_ite | with_reducible apply Onward.hifCut
      | with_reducible apply Onward.hifRequest

theorem Onward.execHifRead (a0 : ℕ) (a1 : List Byte) (h : Onward x₀ s) :
    ∀ u, (execHifRead a0 a1 s) = .next u → Onward x₀ u := by
  intro u e
  obtain rfl := Host.Outcome.next.inj e
  repeat' first
      | with_reducible assumption | intro _ | with_reducible apply Onward.hifFrame | with_reducible apply Onward.tick

theorem Onward.execHifWrite (a0 : ℕ) (a1 : List Byte) (h : Onward x₀ s) :
    ∀ u, (execHifWrite a0 a1 s) = .next u → Onward x₀ u := by
  intro u e
  obtain rfl := Host.Outcome.next.inj e
  repeat' first
      | with_reducible assumption | intro _ | with_reducible apply Onward.hifFrame | with_reducible apply Onward.tick

theorem Onward.hifAbort (h : Onward x₀ s) :
    Onward x₀ (State.hifAbort s) := by
  dsimp only [State.hifAbort]
  repeat' first
      | with_reducible assumption | intro _ | with_reducible apply Onward.ite | with_reducible apply Onward.fst_ite
      | with_reducible apply Onward.snd_ite | with_reducible apply Onward.hifCut

theorem Onward.execHifFrameAbort (a0 : ℕ) (h : Onward x₀ s) :
    ∀ u, (execHifFrameAbort a0 s) = .next u → Onward x₀ u := by
  intro u e
  obtain rfl := Host.Outcome.next.inj e
  repeat' first
      | with_reducible assumption | intro _ | with_reducible apply Onward.hifAbort | with_reducible apply Onward.tick

theorem Onward.execHifCtrClear (a0 : ℕ) (a1 : Reader) (a2 : Word) (h : Onward x₀ s) :
    ∀ u, (execHifCtrClear a0 a1 a2 s) = .next u → Onward x₀ u := by
  intro u e
  obtain rfl := Host.Outcome.next.inj e
  repeat' first
      | with_reducible assumption | intro _ | with_reducible apply Onward.wt | with_reducible apply Onward.hifCtrClear
      | with_reducible apply Onward.tick

theorem Onward.forgetReader (a0 : ℕ) (h : Onward x₀ s) :
    Onward x₀ (State.forgetReader a0 s) := by
  dsimp only [State.forgetReader]
  repeat' first
      | with_reducible assumption | intro _ | with_reducible apply Onward.on | with_reducible apply Onward.onSys
      | with_reducible apply Onward.newNonce | with_reducible apply Onward.framed | exact .of_eq rfl rfl rfl rfl

theorem Onward.handshake (a0 : Fin 4) (a1 : ℕ) (a2 : Bool) (h : Onward x₀ s) :
    Onward x₀ (State.handshake a0 a1 a2 s) := by
  dsimp only [State.handshake]
  repeat' first
      | with_reducible assumption | intro _ | with_reducible apply Onward.ite | with_reducible apply Onward.fst_ite
      | with_reducible apply Onward.snd_ite | with_reducible apply Onward.onMgmt
      | with_reducible apply Onward.forgetReader

theorem Onward.execDtlsHandshake (a0 : ℕ) (a1 : Fin 4) (a2 : Fin 4) (a3 : Bool) (h : Onward x₀ s) :
    ∀ u, (execDtlsHandshake a0 a1 a2 a3 s) = .next u → Onward x₀ u := by
  intro u e
  obtain rfl := Host.Outcome.next.inj e
  repeat' first
      | with_reducible assumption | intro _ | with_reducible apply Onward.handshake | with_reducible apply Onward.tick

theorem Onward.mgmtSend (a0 : ℕ) (a1 : List (List Byte)) (h : Onward x₀ s) :
    Onward x₀ (State.mgmtSend a0 a1 s) := by
  dsimp only [State.mgmtSend]
  repeat' first | with_reducible assumption | intro _ | with_reducible apply Onward.onMgmt

theorem Onward.mgmtRequest (a0 : Fin 4) (a1 : ℕ) (a2 : List Byte) (a3 : List Byte → Bool) (a4 : MgmtAction)
    (h_a4 : ∀ y t, Onward x₀ t → Onward x₀ (a4 y t).2.2) (h : Onward x₀ s) :
    Onward x₀ (State.mgmtRequest a0 a1 a2 a3 a4 s) := by
  dsimp only [State.mgmtRequest]
  repeat' first
      | with_reducible assumption | intro _ | with_reducible apply Onward.ite | with_reducible apply Onward.fst_ite
      | with_reducible apply Onward.snd_ite | with_reducible apply Onward.mgmtSend | with_reducible apply Onward.raise
      | with_reducible apply Onward.onMgmt | with_reducible apply h_a4 | rfl | split

theorem Onward.execMgmtRead (a0 : ℕ) (a1 : Fin 4) (a2 : List Byte) (h : Onward x₀ s) :
    ∀ u, (execMgmtRead a0 a1 a2 s) = .next u → Onward x₀ u := by
  intro u e
  obtain rfl := Host.Outcome.next.inj e
  exact .mgmtRequest _ _ _ _ _ (fun _ _ ht => .readRun _ _ _ ht) (.tick _ h)

theorem Onward.execMgmtWrite (a0 : ℕ) (a1 : Fin 4) (a2 : List Byte) (h : Onward x₀ s) :
    ∀ u, (execMgmtWrite a0 a1 a2 s) = .next u → Onward x₀ u := by
  intro u e
  obtain rfl := Host.Outcome.next.inj e
  exact .mgmtRequest _ _ _ _ _ (fun _ _ ht => .writeWords _ _ _ ht) (.tick _ h)

theorem Onward.uploadWindows (a0 : Reader) (a1 : ℕ) (a2 : Spells) (a3 : ℕ) (a4 : List (List Byte)) (h : Onward x₀ s) :
    Onward x₀ (State.uploadWindows a0 a1 a2 a3 a4 s).2 := by
  induction a4 generalizing s a3 with
  | nil => exact h
  | cons x l ih =>
    unfold State.uploadWindows
    extract_lets found r
    have hr : Onward x₀ r.1 := .cfgOp _ _ _ _ (fun _ _ ht => .program _ _ _ _ ht) h
    split
    · exact ih _ hr
    · exact hr

theorem Onward.execMgmtUpload (a0 : ℕ) (a1 : Fin 4) (a2 : List Byte) (a3 : Spells) (h : Onward x₀ s) :
    ∀ u, (execMgmtUpload a0 a1 a2 a3 s) = .next u → Onward x₀ u := by
  intro u e
  obtain rfl := Host.Outcome.next.inj e
  exact .mgmtRequest _ _ _ _ _ (fun _ _ ht => .result _ _ _ (.uploadWindows _ _ _ _ _ ht)) (.tick _ h)

theorem Onward.execMgmtRecords (a0 : ℕ) (a1 : Fin 4) (a2 : List Byte) (h : Onward x₀ s) :
    ∀ u, (execMgmtRecords a0 a1 a2 s) = .next u → Onward x₀ u := by
  intro u e
  obtain rfl := Host.Outcome.next.inj e
  exact .mgmtRequest _ _ _ _ _ (fun _ _ ht => ht) (.tick _ h)

theorem Onward.execMgmtExport (a0 : ℕ) (a1 : Fin 4) (a2 : List Byte) (h : Onward x₀ s) :
    ∀ u, (execMgmtExport a0 a1 a2 s) = .next u → Onward x₀ u := by
  intro u e
  obtain rfl := Host.Outcome.next.inj e
  refine .mgmtRequest _ _ _ _ _ (fun y t ht => ?_) (.tick _ h)
  unfold mgmtExportRun
  extract_lets s1 r s2 x
  have hr : Onward x₀ r.1 := .exportBegin _ (.onExport _ _ ht)
  have h2 : Onward x₀ s2 := .ite (.exportFinish _ hr) hr
  split <;> exact h2

theorem Onward.execMgmtNotices (a0 : ℕ) (a1 : Fin 4) (a2 : List Byte) (h : Onward x₀ s) :
    ∀ u, (execMgmtNotices a0 a1 a2 s) = .next u → Onward x₀ u := by
  intro u e
  obtain rfl := Host.Outcome.next.inj e
  refine .mgmtRequest _ _ _ _ _ (fun y t ht => ?_) (.tick _ h)
  unfold mgmtNoticesRun
  split
  · exact .onMgmt _ _ ht
  · exact ht

end Sys2Proof.Machine
end

