-- ==== Sys2Proof/Laws/State.lean ====
section
/-! SUPPORT. What each updater of Machine/Ops.lean leaves in each field: one lemma per field per updater. -/

namespace Sys2Proof.Machine

section
variable (f : Sys → Sys) (s : State)
@[simp] theorem State.onSys_now : (s.onSys f).b.now = s.b.now := rfl
@[simp] theorem State.onSys_sys : (s.onSys f).b.sys = f s.b.sys := rfl
@[simp] theorem State.onSys_tru : (s.onSys f).b.tru = s.b.tru := rfl
@[simp] theorem State.onSys_fab : (s.onSys f).b.fab = s.b.fab := rfl
@[simp] theorem State.onSys_lio : (s.onSys f).b.lio = s.b.lio := rfl
@[simp] theorem State.onSys_tpg : (s.onSys f).b.tpg = s.b.tpg := rfl
@[simp] theorem State.onSys_sog : (s.onSys f).b.sog = s.b.sog := rfl
@[simp] theorem State.onSys_sto : (s.onSys f).b.sto = s.b.sto := rfl
@[simp] theorem State.onSys_mea : (s.onSys f).b.mea = s.b.mea := rfl
@[simp] theorem State.onSys_axs : (s.onSys f).b.axs = s.b.axs := rfl
@[simp] theorem State.onSys_sep : (s.onSys f).b.sep = s.b.sep := rfl
@[simp] theorem State.onSys_net : (s.onSys f).b.net = s.b.net := rfl
@[simp] theorem State.onSys_tsy : (s.onSys f).b.tsy = s.b.tsy := rfl
@[simp] theorem State.onSys_sfr : (s.onSys f).b.sfr = s.b.sfr := rfl
@[simp] theorem State.onSys_agr : (s.onSys f).b.agr = s.b.agr := rfl
@[simp] theorem State.onSys_cvu : (s.onSys f).b.cvu = s.b.cvu := rfl
@[simp] theorem State.onSys_fcl : (s.onSys f).b.fcl = s.b.fcl := rfl
@[simp] theorem State.onSys_recd : (s.onSys f).b.recd = s.b.recd := rfl
@[simp] theorem State.onSys_bst : (s.onSys f).b.bst = s.b.bst := rfl
@[simp] theorem State.onSys_otp : (s.onSys f).b.otp = s.b.otp := rfl
@[simp] theorem State.onSys_lcs : (s.onSys f).b.lcs = s.b.lcs := rfl
@[simp] theorem State.onSys_key : (s.onSys f).b.key = s.b.key := rfl
@[simp] theorem State.onSys_pwr : (s.onSys f).b.pwr = s.b.pwr := rfl
@[simp] theorem State.onSys_cfg : (s.onSys f).b.cfg = s.b.cfg := rfl
@[simp] theorem State.onSys_hif : (s.onSys f).b.hif = s.b.hif := rfl
@[simp] theorem State.onSys_mgmt : (s.onSys f).b.mgmt = s.b.mgmt := rfl
@[simp] theorem State.onSys_inReset : (s.onSys f).b.inReset = s.b.inReset := rfl
@[simp] theorem State.onSys_sel : (s.onSys f).b.sel = s.b.sel := rfl
@[simp] theorem State.onSys_cap : (s.onSys f).cap = s.cap := rfl
@[simp] theorem State.onSys_shown : (s.onSys f).shown = s.shown := rfl
@[simp] theorem State.onSys_holds : (s.onSys f).holds = s.holds := rfl
@[simp] theorem State.onSys_draws : (s.onSys f).draws = s.draws := rfl
@[simp] theorem State.onSys_pending : (s.onSys f).pending = s.pending := rfl
end

section
variable (f : Tru → Tru) (s : State)
@[simp] theorem State.onTru_now : (s.onTru f).b.now = s.b.now := rfl
@[simp] theorem State.onTru_sys : (s.onTru f).b.sys = s.b.sys := rfl
@[simp] theorem State.onTru_tru : (s.onTru f).b.tru = f s.b.tru := rfl
@[simp] theorem State.onTru_fab : (s.onTru f).b.fab = s.b.fab := rfl
@[simp] theorem State.onTru_lio : (s.onTru f).b.lio = s.b.lio := rfl
@[simp] theorem State.onTru_tpg : (s.onTru f).b.tpg = s.b.tpg := rfl
@[simp] theorem State.onTru_sog : (s.onTru f).b.sog = s.b.sog := rfl
@[simp] theorem State.onTru_sto : (s.onTru f).b.sto = s.b.sto := rfl
@[simp] theorem State.onTru_mea : (s.onTru f).b.mea = s.b.mea := rfl
@[simp] theorem State.onTru_axs : (s.onTru f).b.axs = s.b.axs := rfl
@[simp] theorem State.onTru_sep : (s.onTru f).b.sep = s.b.sep := rfl
@[simp] theorem State.onTru_net : (s.onTru f).b.net = s.b.net := rfl
@[simp] theorem State.onTru_tsy : (s.onTru f).b.tsy = s.b.tsy := rfl
@[simp] theorem State.onTru_sfr : (s.onTru f).b.sfr = s.b.sfr := rfl
@[simp] theorem State.onTru_agr : (s.onTru f).b.agr = s.b.agr := rfl
@[simp] theorem State.onTru_cvu : (s.onTru f).b.cvu = s.b.cvu := rfl
@[simp] theorem State.onTru_fcl : (s.onTru f).b.fcl = s.b.fcl := rfl
@[simp] theorem State.onTru_recd : (s.onTru f).b.recd = s.b.recd := rfl
@[simp] theorem State.onTru_bst : (s.onTru f).b.bst = s.b.bst := rfl
@[simp] theorem State.onTru_otp : (s.onTru f).b.otp = s.b.otp := rfl
@[simp] theorem State.onTru_lcs : (s.onTru f).b.lcs = s.b.lcs := rfl
@[simp] theorem State.onTru_key : (s.onTru f).b.key = s.b.key := rfl
@[simp] theorem State.onTru_pwr : (s.onTru f).b.pwr = s.b.pwr := rfl
@[simp] theorem State.onTru_cfg : (s.onTru f).b.cfg = s.b.cfg := rfl
@[simp] theorem State.onTru_hif : (s.onTru f).b.hif = s.b.hif := rfl
@[simp] theorem State.onTru_mgmt : (s.onTru f).b.mgmt = s.b.mgmt := rfl
@[simp] theorem State.onTru_inReset : (s.onTru f).b.inReset = s.b.inReset := rfl
@[simp] theorem State.onTru_sel : (s.onTru f).b.sel = s.b.sel := rfl
@[simp] theorem State.onTru_cap : (s.onTru f).cap = s.cap := rfl
@[simp] theorem State.onTru_shown : (s.onTru f).shown = s.shown := rfl
@[simp] theorem State.onTru_holds : (s.onTru f).holds = s.holds := rfl
@[simp] theorem State.onTru_draws : (s.onTru f).draws = s.draws := rfl
@[simp] theorem State.onTru_pending : (s.onTru f).pending = s.pending := rfl
end

section
variable (f : Fab → Fab) (s : State)
@[simp] theorem State.onFab_now : (s.onFab f).b.now = s.b.now := rfl
@[simp] theorem State.onFab_sys : (s.onFab f).b.sys = s.b.sys := rfl
@[simp] theorem State.onFab_tru : (s.onFab f).b.tru = s.b.tru := rfl
@[simp] theorem State.onFab_fab : (s.onFab f).b.fab = f s.b.fab := rfl
@[simp] theorem State.onFab_lio : (s.onFab f).b.lio = s.b.lio := rfl
@[simp] theorem State.onFab_tpg : (s.onFab f).b.tpg = s.b.tpg := rfl
@[simp] theorem State.onFab_sog : (s.onFab f).b.sog = s.b.sog := rfl
@[simp] theorem State.onFab_sto : (s.onFab f).b.sto = s.b.sto := rfl
@[simp] theorem State.onFab_mea : (s.onFab f).b.mea = s.b.mea := rfl
@[simp] theorem State.onFab_axs : (s.onFab f).b.axs = s.b.axs := rfl
@[simp] theorem State.onFab_sep : (s.onFab f).b.sep = s.b.sep := rfl
@[simp] theorem State.onFab_net : (s.onFab f).b.net = s.b.net := rfl
@[simp] theorem State.onFab_tsy : (s.onFab f).b.tsy = s.b.tsy := rfl
@[simp] theorem State.onFab_sfr : (s.onFab f).b.sfr = s.b.sfr := rfl
@[simp] theorem State.onFab_agr : (s.onFab f).b.agr = s.b.agr := rfl
@[simp] theorem State.onFab_cvu : (s.onFab f).b.cvu = s.b.cvu := rfl
@[simp] theorem State.onFab_fcl : (s.onFab f).b.fcl = s.b.fcl := rfl
@[simp] theorem State.onFab_recd : (s.onFab f).b.recd = s.b.recd := rfl
@[simp] theorem State.onFab_bst : (s.onFab f).b.bst = s.b.bst := rfl
@[simp] theorem State.onFab_otp : (s.onFab f).b.otp = s.b.otp := rfl
@[simp] theorem State.onFab_lcs : (s.onFab f).b.lcs = s.b.lcs := rfl
@[simp] theorem State.onFab_key : (s.onFab f).b.key = s.b.key := rfl
@[simp] theorem State.onFab_pwr : (s.onFab f).b.pwr = s.b.pwr := rfl
@[simp] theorem State.onFab_cfg : (s.onFab f).b.cfg = s.b.cfg := rfl
@[simp] theorem State.onFab_hif : (s.onFab f).b.hif = s.b.hif := rfl
@[simp] theorem State.onFab_mgmt : (s.onFab f).b.mgmt = s.b.mgmt := rfl
@[simp] theorem State.onFab_inReset : (s.onFab f).b.inReset = s.b.inReset := rfl
@[simp] theorem State.onFab_sel : (s.onFab f).b.sel = s.b.sel := rfl
@[simp] theorem State.onFab_cap : (s.onFab f).cap = s.cap := rfl
@[simp] theorem State.onFab_shown : (s.onFab f).shown = s.shown := rfl
@[simp] theorem State.onFab_holds : (s.onFab f).holds = s.holds := rfl
@[simp] theorem State.onFab_draws : (s.onFab f).draws = s.draws := rfl
@[simp] theorem State.onFab_pending : (s.onFab f).pending = s.pending := rfl
end

section
variable (f : Lio → Lio) (s : State)
@[simp] theorem State.onLio_now : (s.onLio f).b.now = s.b.now := rfl
@[simp] theorem State.onLio_sys : (s.onLio f).b.sys = s.b.sys := rfl
@[simp] theorem State.onLio_tru : (s.onLio f).b.tru = s.b.tru := rfl
@[simp] theorem State.onLio_fab : (s.onLio f).b.fab = s.b.fab := rfl
@[simp] theorem State.onLio_lio : (s.onLio f).b.lio = f s.b.lio := rfl
@[simp] theorem State.onLio_tpg : (s.onLio f).b.tpg = s.b.tpg := rfl
@[simp] theorem State.onLio_sog : (s.onLio f).b.sog = s.b.sog := rfl
@[simp] theorem State.onLio_sto : (s.onLio f).b.sto = s.b.sto := rfl
@[simp] theorem State.onLio_mea : (s.onLio f).b.mea = s.b.mea := rfl
@[simp] theorem State.onLio_axs : (s.onLio f).b.axs = s.b.axs := rfl
@[simp] theorem State.onLio_sep : (s.onLio f).b.sep = s.b.sep := rfl
@[simp] theorem State.onLio_net : (s.onLio f).b.net = s.b.net := rfl
@[simp] theorem State.onLio_tsy : (s.onLio f).b.tsy = s.b.tsy := rfl
@[simp] theorem State.onLio_sfr : (s.onLio f).b.sfr = s.b.sfr := rfl
@[simp] theorem State.onLio_agr : (s.onLio f).b.agr = s.b.agr := rfl
@[simp] theorem State.onLio_cvu : (s.onLio f).b.cvu = s.b.cvu := rfl
@[simp] theorem State.onLio_fcl : (s.onLio f).b.fcl = s.b.fcl := rfl
@[simp] theorem State.onLio_recd : (s.onLio f).b.recd = s.b.recd := rfl
@[simp] theorem State.onLio_bst : (s.onLio f).b.bst = s.b.bst := rfl
@[simp] theorem State.onLio_otp : (s.onLio f).b.otp = s.b.otp := rfl
@[simp] theorem State.onLio_lcs : (s.onLio f).b.lcs = s.b.lcs := rfl
@[simp] theorem State.onLio_key : (s.onLio f).b.key = s.b.key := rfl
@[simp] theorem State.onLio_pwr : (s.onLio f).b.pwr = s.b.pwr := rfl
@[simp] theorem State.onLio_cfg : (s.onLio f).b.cfg = s.b.cfg := rfl
@[simp] theorem State.onLio_hif : (s.onLio f).b.hif = s.b.hif := rfl
@[simp] theorem State.onLio_mgmt : (s.onLio f).b.mgmt = s.b.mgmt := rfl
@[simp] theorem State.onLio_inReset : (s.onLio f).b.inReset = s.b.inReset := rfl
@[simp] theorem State.onLio_sel : (s.onLio f).b.sel = s.b.sel := rfl
@[simp] theorem State.onLio_cap : (s.onLio f).cap = s.cap := rfl
@[simp] theorem State.onLio_shown : (s.onLio f).shown = s.shown := rfl
@[simp] theorem State.onLio_holds : (s.onLio f).holds = s.holds := rfl
@[simp] theorem State.onLio_draws : (s.onLio f).draws = s.draws := rfl
@[simp] theorem State.onLio_pending : (s.onLio f).pending = s.pending := rfl
end

section
variable (f : Tpg → Tpg) (s : State)
@[simp] theorem State.onTpg_now : (s.onTpg f).b.now = s.b.now := rfl
@[simp] theorem State.onTpg_sys : (s.onTpg f).b.sys = s.b.sys := rfl
@[simp] theorem State.onTpg_tru : (s.onTpg f).b.tru = s.b.tru := rfl
@[simp] theorem State.onTpg_fab : (s.onTpg f).b.fab = s.b.fab := rfl
@[simp] theorem State.onTpg_lio : (s.onTpg f).b.lio = s.b.lio := rfl
@[simp] theorem State.onTpg_tpg : (s.onTpg f).b.tpg = f s.b.tpg := rfl
@[simp] theorem State.onTpg_sog : (s.onTpg f).b.sog = s.b.sog := rfl
@[simp] theorem State.onTpg_sto : (s.onTpg f).b.sto = s.b.sto := rfl
@[simp] theorem State.onTpg_mea : (s.onTpg f).b.mea = s.b.mea := rfl
@[simp] theorem State.onTpg_axs : (s.onTpg f).b.axs = s.b.axs := rfl
@[simp] theorem State.onTpg_sep : (s.onTpg f).b.sep = s.b.sep := rfl
@[simp] theorem State.onTpg_net : (s.onTpg f).b.net = s.b.net := rfl
@[simp] theorem State.onTpg_tsy : (s.onTpg f).b.tsy = s.b.tsy := rfl
@[simp] theorem State.onTpg_sfr : (s.onTpg f).b.sfr = s.b.sfr := rfl
@[simp] theorem State.onTpg_agr : (s.onTpg f).b.agr = s.b.agr := rfl
@[simp] theorem State.onTpg_cvu : (s.onTpg f).b.cvu = s.b.cvu := rfl
@[simp] theorem State.onTpg_fcl : (s.onTpg f).b.fcl = s.b.fcl := rfl
@[simp] theorem State.onTpg_recd : (s.onTpg f).b.recd = s.b.recd := rfl
@[simp] theorem State.onTpg_bst : (s.onTpg f).b.bst = s.b.bst := rfl
@[simp] theorem State.onTpg_otp : (s.onTpg f).b.otp = s.b.otp := rfl
@[simp] theorem State.onTpg_lcs : (s.onTpg f).b.lcs = s.b.lcs := rfl
@[simp] theorem State.onTpg_key : (s.onTpg f).b.key = s.b.key := rfl
@[simp] theorem State.onTpg_pwr : (s.onTpg f).b.pwr = s.b.pwr := rfl
@[simp] theorem State.onTpg_cfg : (s.onTpg f).b.cfg = s.b.cfg := rfl
@[simp] theorem State.onTpg_hif : (s.onTpg f).b.hif = s.b.hif := rfl
@[simp] theorem State.onTpg_mgmt : (s.onTpg f).b.mgmt = s.b.mgmt := rfl
@[simp] theorem State.onTpg_inReset : (s.onTpg f).b.inReset = s.b.inReset := rfl
@[simp] theorem State.onTpg_sel : (s.onTpg f).b.sel = s.b.sel := rfl
@[simp] theorem State.onTpg_cap : (s.onTpg f).cap = s.cap := rfl
@[simp] theorem State.onTpg_shown : (s.onTpg f).shown = s.shown := rfl
@[simp] theorem State.onTpg_holds : (s.onTpg f).holds = s.holds := rfl
@[simp] theorem State.onTpg_draws : (s.onTpg f).draws = s.draws := rfl
@[simp] theorem State.onTpg_pending : (s.onTpg f).pending = s.pending := rfl
end

section
variable (f : OutBlock → OutBlock) (s : State)
@[simp] theorem State.onSog_now : (s.onSog f).b.now = s.b.now := rfl
@[simp] theorem State.onSog_sys : (s.onSog f).b.sys = s.b.sys := rfl
@[simp] theorem State.onSog_tru : (s.onSog f).b.tru = s.b.tru := rfl
@[simp] theorem State.onSog_fab : (s.onSog f).b.fab = s.b.fab := rfl
@[simp] theorem State.onSog_lio : (s.onSog f).b.lio = s.b.lio := rfl
@[simp] theorem State.onSog_tpg : (s.onSog f).b.tpg = s.b.tpg := rfl
@[simp] theorem State.onSog_sog : (s.onSog f).b.sog = f s.b.sog := rfl
@[simp] theorem State.onSog_sto : (s.onSog f).b.sto = s.b.sto := rfl
@[simp] theorem State.onSog_mea : (s.onSog f).b.mea = s.b.mea := rfl
@[simp] theorem State.onSog_axs : (s.onSog f).b.axs = s.b.axs := rfl
@[simp] theorem State.onSog_sep : (s.onSog f).b.sep = s.b.sep := rfl
@[simp] theorem State.onSog_net : (s.onSog f).b.net = s.b.net := rfl
@[simp] theorem State.onSog_tsy : (s.onSog f).b.tsy = s.b.tsy := rfl
@[simp] theorem State.onSog_sfr : (s.onSog f).b.sfr = s.b.sfr := rfl
@[simp] theorem State.onSog_agr : (s.onSog f).b.agr = s.b.agr := rfl
@[simp] theorem State.onSog_cvu : (s.onSog f).b.cvu = s.b.cvu := rfl
@[simp] theorem State.onSog_fcl : (s.onSog f).b.fcl = s.b.fcl := rfl
@[simp] theorem State.onSog_recd : (s.onSog f).b.recd = s.b.recd := rfl
@[simp] theorem State.onSog_bst : (s.onSog f).b.bst = s.b.bst := rfl
@[simp] theorem State.onSog_otp : (s.onSog f).b.otp = s.b.otp := rfl
@[simp] theorem State.onSog_lcs : (s.onSog f).b.lcs = s.b.lcs := rfl
@[simp] theorem State.onSog_key : (s.onSog f).b.key = s.b.key := rfl
@[simp] theorem State.onSog_pwr : (s.onSog f).b.pwr = s.b.pwr := rfl
@[simp] theorem State.onSog_cfg : (s.onSog f).b.cfg = s.b.cfg := rfl
@[simp] theorem State.onSog_hif : (s.onSog f).b.hif = s.b.hif := rfl
@[simp] theorem State.onSog_mgmt : (s.onSog f).b.mgmt = s.b.mgmt := rfl
@[simp] theorem State.onSog_inReset : (s.onSog f).b.inReset = s.b.inReset := rfl
@[simp] theorem State.onSog_sel : (s.onSog f).b.sel = s.b.sel := rfl
@[simp] theorem State.onSog_cap : (s.onSog f).cap = s.cap := rfl
@[simp] theorem State.onSog_shown : (s.onSog f).shown = s.shown := rfl
@[simp] theorem State.onSog_holds : (s.onSog f).holds = s.holds := rfl
@[simp] theorem State.onSog_draws : (s.onSog f).draws = s.draws := rfl
@[simp] theorem State.onSog_pending : (s.onSog f).pending = s.pending := rfl
end

section
variable (f : OutBlock → OutBlock) (s : State)
@[simp] theorem State.onSto_now : (s.onSto f).b.now = s.b.now := rfl
@[simp] theorem State.onSto_sys : (s.onSto f).b.sys = s.b.sys := rfl
@[simp] theorem State.onSto_tru : (s.onSto f).b.tru = s.b.tru := rfl
@[simp] theorem State.onSto_fab : (s.onSto f).b.fab = s.b.fab := rfl
@[simp] theorem State.onSto_lio : (s.onSto f).b.lio = s.b.lio := rfl
@[simp] theorem State.onSto_tpg : (s.onSto f).b.tpg = s.b.tpg := rfl
@[simp] theorem State.onSto_sog : (s.onSto f).b.sog = s.b.sog := rfl
@[simp] theorem State.onSto_sto : (s.onSto f).b.sto = f s.b.sto := rfl
@[simp] theorem State.onSto_mea : (s.onSto f).b.mea = s.b.mea := rfl
@[simp] theorem State.onSto_axs : (s.onSto f).b.axs = s.b.axs := rfl
@[simp] theorem State.onSto_sep : (s.onSto f).b.sep = s.b.sep := rfl
@[simp] theorem State.onSto_net : (s.onSto f).b.net = s.b.net := rfl
@[simp] theorem State.onSto_tsy : (s.onSto f).b.tsy = s.b.tsy := rfl
@[simp] theorem State.onSto_sfr : (s.onSto f).b.sfr = s.b.sfr := rfl
@[simp] theorem State.onSto_agr : (s.onSto f).b.agr = s.b.agr := rfl
@[simp] theorem State.onSto_cvu : (s.onSto f).b.cvu = s.b.cvu := rfl
@[simp] theorem State.onSto_fcl : (s.onSto f).b.fcl = s.b.fcl := rfl
@[simp] theorem State.onSto_recd : (s.onSto f).b.recd = s.b.recd := rfl
@[simp] theorem State.onSto_bst : (s.onSto f).b.bst = s.b.bst := rfl
@[simp] theorem State.onSto_otp : (s.onSto f).b.otp = s.b.otp := rfl
@[simp] theorem State.onSto_lcs : (s.onSto f).b.lcs = s.b.lcs := rfl
@[simp] theorem State.onSto_key : (s.onSto f).b.key = s.b.key := rfl
@[simp] theorem State.onSto_pwr : (s.onSto f).b.pwr = s.b.pwr := rfl
@[simp] theorem State.onSto_cfg : (s.onSto f).b.cfg = s.b.cfg := rfl
@[simp] theorem State.onSto_hif : (s.onSto f).b.hif = s.b.hif := rfl
@[simp] theorem State.onSto_mgmt : (s.onSto f).b.mgmt = s.b.mgmt := rfl
@[simp] theorem State.onSto_inReset : (s.onSto f).b.inReset = s.b.inReset := rfl
@[simp] theorem State.onSto_sel : (s.onSto f).b.sel = s.b.sel := rfl
@[simp] theorem State.onSto_cap : (s.onSto f).cap = s.cap := rfl
@[simp] theorem State.onSto_shown : (s.onSto f).shown = s.shown := rfl
@[simp] theorem State.onSto_holds : (s.onSto f).holds = s.holds := rfl
@[simp] theorem State.onSto_draws : (s.onSto f).draws = s.draws := rfl
@[simp] theorem State.onSto_pending : (s.onSto f).pending = s.pending := rfl
end

section
variable (f : Mea → Mea) (s : State)
@[simp] theorem State.onMea_now : (s.onMea f).b.now = s.b.now := rfl
@[simp] theorem State.onMea_sys : (s.onMea f).b.sys = s.b.sys := rfl
@[simp] theorem State.onMea_tru : (s.onMea f).b.tru = s.b.tru := rfl
@[simp] theorem State.onMea_fab : (s.onMea f).b.fab = s.b.fab := rfl
@[simp] theorem State.onMea_lio : (s.onMea f).b.lio = s.b.lio := rfl
@[simp] theorem State.onMea_tpg : (s.onMea f).b.tpg = s.b.tpg := rfl
@[simp] theorem State.onMea_sog : (s.onMea f).b.sog = s.b.sog := rfl
@[simp] theorem State.onMea_sto : (s.onMea f).b.sto = s.b.sto := rfl
@[simp] theorem State.onMea_mea : (s.onMea f).b.mea = f s.b.mea := rfl
@[simp] theorem State.onMea_axs : (s.onMea f).b.axs = s.b.axs := rfl
@[simp] theorem State.onMea_sep : (s.onMea f).b.sep = s.b.sep := rfl
@[simp] theorem State.onMea_net : (s.onMea f).b.net = s.b.net := rfl
@[simp] theorem State.onMea_tsy : (s.onMea f).b.tsy = s.b.tsy := rfl
@[simp] theorem State.onMea_sfr : (s.onMea f).b.sfr = s.b.sfr := rfl
@[simp] theorem State.onMea_agr : (s.onMea f).b.agr = s.b.agr := rfl
@[simp] theorem State.onMea_cvu : (s.onMea f).b.cvu = s.b.cvu := rfl
@[simp] theorem State.onMea_fcl : (s.onMea f).b.fcl = s.b.fcl := rfl
@[simp] theorem State.onMea_recd : (s.onMea f).b.recd = s.b.recd := rfl
@[simp] theorem State.onMea_bst : (s.onMea f).b.bst = s.b.bst := rfl
@[simp] theorem State.onMea_otp : (s.onMea f).b.otp = s.b.otp := rfl
@[simp] theorem State.onMea_lcs : (s.onMea f).b.lcs = s.b.lcs := rfl
@[simp] theorem State.onMea_key : (s.onMea f).b.key = s.b.key := rfl
@[simp] theorem State.onMea_pwr : (s.onMea f).b.pwr = s.b.pwr := rfl
@[simp] theorem State.onMea_cfg : (s.onMea f).b.cfg = s.b.cfg := rfl
@[simp] theorem State.onMea_hif : (s.onMea f).b.hif = s.b.hif := rfl
@[simp] theorem State.onMea_mgmt : (s.onMea f).b.mgmt = s.b.mgmt := rfl
@[simp] theorem State.onMea_inReset : (s.onMea f).b.inReset = s.b.inReset := rfl
@[simp] theorem State.onMea_sel : (s.onMea f).b.sel = s.b.sel := rfl
@[simp] theorem State.onMea_cap : (s.onMea f).cap = s.cap := rfl
@[simp] theorem State.onMea_shown : (s.onMea f).shown = s.shown := rfl
@[simp] theorem State.onMea_holds : (s.onMea f).holds = s.holds := rfl
@[simp] theorem State.onMea_draws : (s.onMea f).draws = s.draws := rfl
@[simp] theorem State.onMea_pending : (s.onMea f).pending = s.pending := rfl
end

section
variable (f : Axs → Axs) (s : State)
@[simp] theorem State.onAxs_now : (s.onAxs f).b.now = s.b.now := rfl
@[simp] theorem State.onAxs_sys : (s.onAxs f).b.sys = s.b.sys := rfl
@[simp] theorem State.onAxs_tru : (s.onAxs f).b.tru = s.b.tru := rfl
@[simp] theorem State.onAxs_fab : (s.onAxs f).b.fab = s.b.fab := rfl
@[simp] theorem State.onAxs_lio : (s.onAxs f).b.lio = s.b.lio := rfl
@[simp] theorem State.onAxs_tpg : (s.onAxs f).b.tpg = s.b.tpg := rfl
@[simp] theorem State.onAxs_sog : (s.onAxs f).b.sog = s.b.sog := rfl
@[simp] theorem State.onAxs_sto : (s.onAxs f).b.sto = s.b.sto := rfl
@[simp] theorem State.onAxs_mea : (s.onAxs f).b.mea = s.b.mea := rfl
@[simp] theorem State.onAxs_axs : (s.onAxs f).b.axs = f s.b.axs := rfl
@[simp] theorem State.onAxs_sep : (s.onAxs f).b.sep = s.b.sep := rfl
@[simp] theorem State.onAxs_net : (s.onAxs f).b.net = s.b.net := rfl
@[simp] theorem State.onAxs_tsy : (s.onAxs f).b.tsy = s.b.tsy := rfl
@[simp] theorem State.onAxs_sfr : (s.onAxs f).b.sfr = s.b.sfr := rfl
@[simp] theorem State.onAxs_agr : (s.onAxs f).b.agr = s.b.agr := rfl
@[simp] theorem State.onAxs_cvu : (s.onAxs f).b.cvu = s.b.cvu := rfl
@[simp] theorem State.onAxs_fcl : (s.onAxs f).b.fcl = s.b.fcl := rfl
@[simp] theorem State.onAxs_recd : (s.onAxs f).b.recd = s.b.recd := rfl
@[simp] theorem State.onAxs_bst : (s.onAxs f).b.bst = s.b.bst := rfl
@[simp] theorem State.onAxs_otp : (s.onAxs f).b.otp = s.b.otp := rfl
@[simp] theorem State.onAxs_lcs : (s.onAxs f).b.lcs = s.b.lcs := rfl
@[simp] theorem State.onAxs_key : (s.onAxs f).b.key = s.b.key := rfl
@[simp] theorem State.onAxs_pwr : (s.onAxs f).b.pwr = s.b.pwr := rfl
@[simp] theorem State.onAxs_cfg : (s.onAxs f).b.cfg = s.b.cfg := rfl
@[simp] theorem State.onAxs_hif : (s.onAxs f).b.hif = s.b.hif := rfl
@[simp] theorem State.onAxs_mgmt : (s.onAxs f).b.mgmt = s.b.mgmt := rfl
@[simp] theorem State.onAxs_inReset : (s.onAxs f).b.inReset = s.b.inReset := rfl
@[simp] theorem State.onAxs_sel : (s.onAxs f).b.sel = s.b.sel := rfl
@[simp] theorem State.onAxs_cap : (s.onAxs f).cap = s.cap := rfl
@[simp] theorem State.onAxs_shown : (s.onAxs f).shown = s.shown := rfl
@[simp] theorem State.onAxs_holds : (s.onAxs f).holds = s.holds := rfl
@[simp] theorem State.onAxs_draws : (s.onAxs f).draws = s.draws := rfl
@[simp] theorem State.onAxs_pending : (s.onAxs f).pending = s.pending := rfl
end

section
variable (f : Sep → Sep) (s : State)
@[simp] theorem State.onSep_now : (s.onSep f).b.now = s.b.now := rfl
@[simp] theorem State.onSep_sys : (s.onSep f).b.sys = s.b.sys := rfl
@[simp] theorem State.onSep_tru : (s.onSep f).b.tru = s.b.tru := rfl
@[simp] theorem State.onSep_fab : (s.onSep f).b.fab = s.b.fab := rfl
@[simp] theorem State.onSep_lio : (s.onSep f).b.lio = s.b.lio := rfl
@[simp] theorem State.onSep_tpg : (s.onSep f).b.tpg = s.b.tpg := rfl
@[simp] theorem State.onSep_sog : (s.onSep f).b.sog = s.b.sog := rfl
@[simp] theorem State.onSep_sto : (s.onSep f).b.sto = s.b.sto := rfl
@[simp] theorem State.onSep_mea : (s.onSep f).b.mea = s.b.mea := rfl
@[simp] theorem State.onSep_axs : (s.onSep f).b.axs = s.b.axs := rfl
@[simp] theorem State.onSep_sep : (s.onSep f).b.sep = f s.b.sep := rfl
@[simp] theorem State.onSep_net : (s.onSep f).b.net = s.b.net := rfl
@[simp] theorem State.onSep_tsy : (s.onSep f).b.tsy = s.b.tsy := rfl
@[simp] theorem State.onSep_sfr : (s.onSep f).b.sfr = s.b.sfr := rfl
@[simp] theorem State.onSep_agr : (s.onSep f).b.agr = s.b.agr := rfl
@[simp] theorem State.onSep_cvu : (s.onSep f).b.cvu = s.b.cvu := rfl
@[simp] theorem State.onSep_fcl : (s.onSep f).b.fcl = s.b.fcl := rfl
@[simp] theorem State.onSep_recd : (s.onSep f).b.recd = s.b.recd := rfl
@[simp] theorem State.onSep_bst : (s.onSep f).b.bst = s.b.bst := rfl
@[simp] theorem State.onSep_otp : (s.onSep f).b.otp = s.b.otp := rfl
@[simp] theorem State.onSep_lcs : (s.onSep f).b.lcs = s.b.lcs := rfl
@[simp] theorem State.onSep_key : (s.onSep f).b.key = s.b.key := rfl
@[simp] theorem State.onSep_pwr : (s.onSep f).b.pwr = s.b.pwr := rfl
@[simp] theorem State.onSep_cfg : (s.onSep f).b.cfg = s.b.cfg := rfl
@[simp] theorem State.onSep_hif : (s.onSep f).b.hif = s.b.hif := rfl
@[simp] theorem State.onSep_mgmt : (s.onSep f).b.mgmt = s.b.mgmt := rfl
@[simp] theorem State.onSep_inReset : (s.onSep f).b.inReset = s.b.inReset := rfl
@[simp] theorem State.onSep_sel : (s.onSep f).b.sel = s.b.sel := rfl
@[simp] theorem State.onSep_cap : (s.onSep f).cap = s.cap := rfl
@[simp] theorem State.onSep_shown : (s.onSep f).shown = s.shown := rfl
@[simp] theorem State.onSep_holds : (s.onSep f).holds = s.holds := rfl
@[simp] theorem State.onSep_draws : (s.onSep f).draws = s.draws := rfl
@[simp] theorem State.onSep_pending : (s.onSep f).pending = s.pending := rfl
end

section
variable (f : Net → Net) (s : State)
@[simp] theorem State.onNet_now : (s.onNet f).b.now = s.b.now := rfl
@[simp] theorem State.onNet_sys : (s.onNet f).b.sys = s.b.sys := rfl
@[simp] theorem State.onNet_tru : (s.onNet f).b.tru = s.b.tru := rfl
@[simp] theorem State.onNet_fab : (s.onNet f).b.fab = s.b.fab := rfl
@[simp] theorem State.onNet_lio : (s.onNet f).b.lio = s.b.lio := rfl
@[simp] theorem State.onNet_tpg : (s.onNet f).b.tpg = s.b.tpg := rfl
@[simp] theorem State.onNet_sog : (s.onNet f).b.sog = s.b.sog := rfl
@[simp] theorem State.onNet_sto : (s.onNet f).b.sto = s.b.sto := rfl
@[simp] theorem State.onNet_mea : (s.onNet f).b.mea = s.b.mea := rfl
@[simp] theorem State.onNet_axs : (s.onNet f).b.axs = s.b.axs := rfl
@[simp] theorem State.onNet_sep : (s.onNet f).b.sep = s.b.sep := rfl
@[simp] theorem State.onNet_net : (s.onNet f).b.net = f s.b.net := rfl
@[simp] theorem State.onNet_tsy : (s.onNet f).b.tsy = s.b.tsy := rfl
@[simp] theorem State.onNet_sfr : (s.onNet f).b.sfr = s.b.sfr := rfl
@[simp] theorem State.onNet_agr : (s.onNet f).b.agr = s.b.agr := rfl
@[simp] theorem State.onNet_cvu : (s.onNet f).b.cvu = s.b.cvu := rfl
@[simp] theorem State.onNet_fcl : (s.onNet f).b.fcl = s.b.fcl := rfl
@[simp] theorem State.onNet_recd : (s.onNet f).b.recd = s.b.recd := rfl
@[simp] theorem State.onNet_bst : (s.onNet f).b.bst = s.b.bst := rfl
@[simp] theorem State.onNet_otp : (s.onNet f).b.otp = s.b.otp := rfl
@[simp] theorem State.onNet_lcs : (s.onNet f).b.lcs = s.b.lcs := rfl
@[simp] theorem State.onNet_key : (s.onNet f).b.key = s.b.key := rfl
@[simp] theorem State.onNet_pwr : (s.onNet f).b.pwr = s.b.pwr := rfl
@[simp] theorem State.onNet_cfg : (s.onNet f).b.cfg = s.b.cfg := rfl
@[simp] theorem State.onNet_hif : (s.onNet f).b.hif = s.b.hif := rfl
@[simp] theorem State.onNet_mgmt : (s.onNet f).b.mgmt = s.b.mgmt := rfl
@[simp] theorem State.onNet_inReset : (s.onNet f).b.inReset = s.b.inReset := rfl
@[simp] theorem State.onNet_sel : (s.onNet f).b.sel = s.b.sel := rfl
@[simp] theorem State.onNet_cap : (s.onNet f).cap = s.cap := rfl
@[simp] theorem State.onNet_shown : (s.onNet f).shown = s.shown := rfl
@[simp] theorem State.onNet_holds : (s.onNet f).holds = s.holds := rfl
@[simp] theorem State.onNet_draws : (s.onNet f).draws = s.draws := rfl
@[simp] theorem State.onNet_pending : (s.onNet f).pending = s.pending := rfl
end

section
variable (f : Tsy → Tsy) (s : State)
@[simp] theorem State.onTsy_now : (s.onTsy f).b.now = s.b.now := rfl
@[simp] theorem State.onTsy_sys : (s.onTsy f).b.sys = s.b.sys := rfl
@[simp] theorem State.onTsy_tru : (s.onTsy f).b.tru = s.b.tru := rfl
@[simp] theorem State.onTsy_fab : (s.onTsy f).b.fab = s.b.fab := rfl
@[simp] theorem State.onTsy_lio : (s.onTsy f).b.lio = s.b.lio := rfl
@[simp] theorem State.onTsy_tpg : (s.onTsy f).b.tpg = s.b.tpg := rfl
@[simp] theorem State.onTsy_sog : (s.onTsy f).b.sog = s.b.sog := rfl
@[simp] theorem State.onTsy_sto : (s.onTsy f).b.sto = s.b.sto := rfl
@[simp] theorem State.onTsy_mea : (s.onTsy f).b.mea = s.b.mea := rfl
@[simp] theorem State.onTsy_axs : (s.onTsy f).b.axs = s.b.axs := rfl
@[simp] theorem State.onTsy_sep : (s.onTsy f).b.sep = s.b.sep := rfl
@[simp] theorem State.onTsy_net : (s.onTsy f).b.net = s.b.net := rfl
@[simp] theorem State.onTsy_tsy : (s.onTsy f).b.tsy = f s.b.tsy := rfl
@[simp] theorem State.onTsy_sfr : (s.onTsy f).b.sfr = s.b.sfr := rfl
@[simp] theorem State.onTsy_agr : (s.onTsy f).b.agr = s.b.agr := rfl
@[simp] theorem State.onTsy_cvu : (s.onTsy f).b.cvu = s.b.cvu := rfl
@[simp] theorem State.onTsy_fcl : (s.onTsy f).b.fcl = s.b.fcl := rfl
@[simp] theorem State.onTsy_recd : (s.onTsy f).b.recd = s.b.recd := rfl
@[simp] theorem State.onTsy_bst : (s.onTsy f).b.bst = s.b.bst := rfl
@[simp] theorem State.onTsy_otp : (s.onTsy f).b.otp = s.b.otp := rfl
@[simp] theorem State.onTsy_lcs : (s.onTsy f).b.lcs = s.b.lcs := rfl
@[simp] theorem State.onTsy_key : (s.onTsy f).b.key = s.b.key := rfl
@[simp] theorem State.onTsy_pwr : (s.onTsy f).b.pwr = s.b.pwr := rfl
@[simp] theorem State.onTsy_cfg : (s.onTsy f).b.cfg = s.b.cfg := rfl
@[simp] theorem State.onTsy_hif : (s.onTsy f).b.hif = s.b.hif := rfl
@[simp] theorem State.onTsy_mgmt : (s.onTsy f).b.mgmt = s.b.mgmt := rfl
@[simp] theorem State.onTsy_inReset : (s.onTsy f).b.inReset = s.b.inReset := rfl
@[simp] theorem State.onTsy_sel : (s.onTsy f).b.sel = s.b.sel := rfl
@[simp] theorem State.onTsy_cap : (s.onTsy f).cap = s.cap := rfl
@[simp] theorem State.onTsy_shown : (s.onTsy f).shown = s.shown := rfl
@[simp] theorem State.onTsy_holds : (s.onTsy f).holds = s.holds := rfl
@[simp] theorem State.onTsy_draws : (s.onTsy f).draws = s.draws := rfl
@[simp] theorem State.onTsy_pending : (s.onTsy f).pending = s.pending := rfl
end

section
variable (f : Sfr → Sfr) (s : State)
@[simp] theorem State.onSfr_now : (s.onSfr f).b.now = s.b.now := rfl
@[simp] theorem State.onSfr_sys : (s.onSfr f).b.sys = s.b.sys := rfl
@[simp] theorem State.onSfr_tru : (s.onSfr f).b.tru = s.b.tru := rfl
@[simp] theorem State.onSfr_fab : (s.onSfr f).b.fab = s.b.fab := rfl
@[simp] theorem State.onSfr_lio : (s.onSfr f).b.lio = s.b.lio := rfl
@[simp] theorem State.onSfr_tpg : (s.onSfr f).b.tpg = s.b.tpg := rfl
@[simp] theorem State.onSfr_sog : (s.onSfr f).b.sog = s.b.sog := rfl
@[simp] theorem State.onSfr_sto : (s.onSfr f).b.sto = s.b.sto := rfl
@[simp] theorem State.onSfr_mea : (s.onSfr f).b.mea = s.b.mea := rfl
@[simp] theorem State.onSfr_axs : (s.onSfr f).b.axs = s.b.axs := rfl
@[simp] theorem State.onSfr_sep : (s.onSfr f).b.sep = s.b.sep := rfl
@[simp] theorem State.onSfr_net : (s.onSfr f).b.net = s.b.net := rfl
@[simp] theorem State.onSfr_tsy : (s.onSfr f).b.tsy = s.b.tsy := rfl
@[simp] theorem State.onSfr_sfr : (s.onSfr f).b.sfr = f s.b.sfr := rfl
@[simp] theorem State.onSfr_agr : (s.onSfr f).b.agr = s.b.agr := rfl
@[simp] theorem State.onSfr_cvu : (s.onSfr f).b.cvu = s.b.cvu := rfl
@[simp] theorem State.onSfr_fcl : (s.onSfr f).b.fcl = s.b.fcl := rfl
@[simp] theorem State.onSfr_recd : (s.onSfr f).b.recd = s.b.recd := rfl
@[simp] theorem State.onSfr_bst : (s.onSfr f).b.bst = s.b.bst := rfl
@[simp] theorem State.onSfr_otp : (s.onSfr f).b.otp = s.b.otp := rfl
@[simp] theorem State.onSfr_lcs : (s.onSfr f).b.lcs = s.b.lcs := rfl
@[simp] theorem State.onSfr_key : (s.onSfr f).b.key = s.b.key := rfl
@[simp] theorem State.onSfr_pwr : (s.onSfr f).b.pwr = s.b.pwr := rfl
@[simp] theorem State.onSfr_cfg : (s.onSfr f).b.cfg = s.b.cfg := rfl
@[simp] theorem State.onSfr_hif : (s.onSfr f).b.hif = s.b.hif := rfl
@[simp] theorem State.onSfr_mgmt : (s.onSfr f).b.mgmt = s.b.mgmt := rfl
@[simp] theorem State.onSfr_inReset : (s.onSfr f).b.inReset = s.b.inReset := rfl
@[simp] theorem State.onSfr_sel : (s.onSfr f).b.sel = s.b.sel := rfl
@[simp] theorem State.onSfr_cap : (s.onSfr f).cap = s.cap := rfl
@[simp] theorem State.onSfr_shown : (s.onSfr f).shown = s.shown := rfl
@[simp] theorem State.onSfr_holds : (s.onSfr f).holds = s.holds := rfl
@[simp] theorem State.onSfr_draws : (s.onSfr f).draws = s.draws := rfl
@[simp] theorem State.onSfr_pending : (s.onSfr f).pending = s.pending := rfl
end

section
variable (f : Agr → Agr) (s : State)
@[simp] theorem State.onAgr_now : (s.onAgr f).b.now = s.b.now := rfl
@[simp] theorem State.onAgr_sys : (s.onAgr f).b.sys = s.b.sys := rfl
@[simp] theorem State.onAgr_tru : (s.onAgr f).b.tru = s.b.tru := rfl
@[simp] theorem State.onAgr_fab : (s.onAgr f).b.fab = s.b.fab := rfl
@[simp] theorem State.onAgr_lio : (s.onAgr f).b.lio = s.b.lio := rfl
@[simp] theorem State.onAgr_tpg : (s.onAgr f).b.tpg = s.b.tpg := rfl
@[simp] theorem State.onAgr_sog : (s.onAgr f).b.sog = s.b.sog := rfl
@[simp] theorem State.onAgr_sto : (s.onAgr f).b.sto = s.b.sto := rfl
@[simp] theorem State.onAgr_mea : (s.onAgr f).b.mea = s.b.mea := rfl
@[simp] theorem State.onAgr_axs : (s.onAgr f).b.axs = s.b.axs := rfl
@[simp] theorem State.onAgr_sep : (s.onAgr f).b.sep = s.b.sep := rfl
@[simp] theorem State.onAgr_net : (s.onAgr f).b.net = s.b.net := rfl
@[simp] theorem State.onAgr_tsy : (s.onAgr f).b.tsy = s.b.tsy := rfl
@[simp] theorem State.onAgr_sfr : (s.onAgr f).b.sfr = s.b.sfr := rfl
@[simp] theorem State.onAgr_agr : (s.onAgr f).b.agr = f s.b.agr := rfl
@[simp] theorem State.onAgr_cvu : (s.onAgr f).b.cvu = s.b.cvu := rfl
@[simp] theorem State.onAgr_fcl : (s.onAgr f).b.fcl = s.b.fcl := rfl
@[simp] theorem State.onAgr_recd : (s.onAgr f).b.recd = s.b.recd := rfl
@[simp] theorem State.onAgr_bst : (s.onAgr f).b.bst = s.b.bst := rfl
@[simp] theorem State.onAgr_otp : (s.onAgr f).b.otp = s.b.otp := rfl
@[simp] theorem State.onAgr_lcs : (s.onAgr f).b.lcs = s.b.lcs := rfl
@[simp] theorem State.onAgr_key : (s.onAgr f).b.key = s.b.key := rfl
@[simp] theorem State.onAgr_pwr : (s.onAgr f).b.pwr = s.b.pwr := rfl
@[simp] theorem State.onAgr_cfg : (s.onAgr f).b.cfg = s.b.cfg := rfl
@[simp] theorem State.onAgr_hif : (s.onAgr f).b.hif = s.b.hif := rfl
@[simp] theorem State.onAgr_mgmt : (s.onAgr f).b.mgmt = s.b.mgmt := rfl
@[simp] theorem State.onAgr_inReset : (s.onAgr f).b.inReset = s.b.inReset := rfl
@[simp] theorem State.onAgr_sel : (s.onAgr f).b.sel = s.b.sel := rfl
@[simp] theorem State.onAgr_cap : (s.onAgr f).cap = s.cap := rfl
@[simp] theorem State.onAgr_shown : (s.onAgr f).shown = s.shown := rfl
@[simp] theorem State.onAgr_holds : (s.onAgr f).holds = s.holds := rfl
@[simp] theorem State.onAgr_draws : (s.onAgr f).draws = s.draws := rfl
@[simp] theorem State.onAgr_pending : (s.onAgr f).pending = s.pending := rfl
end

section
variable (f : Fcl → Fcl) (s : State)
@[simp] theorem State.onFcl_now : (s.onFcl f).b.now = s.b.now := rfl
@[simp] theorem State.onFcl_sys : (s.onFcl f).b.sys = s.b.sys := rfl
@[simp] theorem State.onFcl_tru : (s.onFcl f).b.tru = s.b.tru := rfl
@[simp] theorem State.onFcl_fab : (s.onFcl f).b.fab = s.b.fab := rfl
@[simp] theorem State.onFcl_lio : (s.onFcl f).b.lio = s.b.lio := rfl
@[simp] theorem State.onFcl_tpg : (s.onFcl f).b.tpg = s.b.tpg := rfl
@[simp] theorem State.onFcl_sog : (s.onFcl f).b.sog = s.b.sog := rfl
@[simp] theorem State.onFcl_sto : (s.onFcl f).b.sto = s.b.sto := rfl
@[simp] theorem State.onFcl_mea : (s.onFcl f).b.mea = s.b.mea := rfl
@[simp] theorem State.onFcl_axs : (s.onFcl f).b.axs = s.b.axs := rfl
@[simp] theorem State.onFcl_sep : (s.onFcl f).b.sep = s.b.sep := rfl
@[simp] theorem State.onFcl_net : (s.onFcl f).b.net = s.b.net := rfl
@[simp] theorem State.onFcl_tsy : (s.onFcl f).b.tsy = s.b.tsy := rfl
@[simp] theorem State.onFcl_sfr : (s.onFcl f).b.sfr = s.b.sfr := rfl
@[simp] theorem State.onFcl_agr : (s.onFcl f).b.agr = s.b.agr := rfl
@[simp] theorem State.onFcl_cvu : (s.onFcl f).b.cvu = s.b.cvu := rfl
@[simp] theorem State.onFcl_fcl : (s.onFcl f).b.fcl = f s.b.fcl := rfl
@[simp] theorem State.onFcl_recd : (s.onFcl f).b.recd = s.b.recd := rfl
@[simp] theorem State.onFcl_bst : (s.onFcl f).b.bst = s.b.bst := rfl
@[simp] theorem State.onFcl_otp : (s.onFcl f).b.otp = s.b.otp := rfl
@[simp] theorem State.onFcl_lcs : (s.onFcl f).b.lcs = s.b.lcs := rfl
@[simp] theorem State.onFcl_key : (s.onFcl f).b.key = s.b.key := rfl
@[simp] theorem State.onFcl_pwr : (s.onFcl f).b.pwr = s.b.pwr := rfl
@[simp] theorem State.onFcl_cfg : (s.onFcl f).b.cfg = s.b.cfg := rfl
@[simp] theorem State.onFcl_hif : (s.onFcl f).b.hif = s.b.hif := rfl
@[simp] theorem State.onFcl_mgmt : (s.onFcl f).b.mgmt = s.b.mgmt := rfl
@[simp] theorem State.onFcl_inReset : (s.onFcl f).b.inReset = s.b.inReset := rfl
@[simp] theorem State.onFcl_sel : (s.onFcl f).b.sel = s.b.sel := rfl
@[simp] theorem State.onFcl_cap : (s.onFcl f).cap = s.cap := rfl
@[simp] theorem State.onFcl_shown : (s.onFcl f).shown = s.shown := rfl
@[simp] theorem State.onFcl_holds : (s.onFcl f).holds = s.holds := rfl
@[simp] theorem State.onFcl_draws : (s.onFcl f).draws = s.draws := rfl
@[simp] theorem State.onFcl_pending : (s.onFcl f).pending = s.pending := rfl
end

section
variable (f : Recorder → Recorder) (s : State)
@[simp] theorem State.onRecd_now : (s.onRecd f).b.now = s.b.now := rfl
@[simp] theorem State.onRecd_sys : (s.onRecd f).b.sys = s.b.sys := rfl
@[simp] theorem State.onRecd_tru : (s.onRecd f).b.tru = s.b.tru := rfl
@[simp] theorem State.onRecd_fab : (s.onRecd f).b.fab = s.b.fab := rfl
@[simp] theorem State.onRecd_lio : (s.onRecd f).b.lio = s.b.lio := rfl
@[simp] theorem State.onRecd_tpg : (s.onRecd f).b.tpg = s.b.tpg := rfl
@[simp] theorem State.onRecd_sog : (s.onRecd f).b.sog = s.b.sog := rfl
@[simp] theorem State.onRecd_sto : (s.onRecd f).b.sto = s.b.sto := rfl
@[simp] theorem State.onRecd_mea : (s.onRecd f).b.mea = s.b.mea := rfl
@[simp] theorem State.onRecd_axs : (s.onRecd f).b.axs = s.b.axs := rfl
@[simp] theorem State.onRecd_sep : (s.onRecd f).b.sep = s.b.sep := rfl
@[simp] theorem State.onRecd_net : (s.onRecd f).b.net = s.b.net := rfl
@[simp] theorem State.onRecd_tsy : (s.onRecd f).b.tsy = s.b.tsy := rfl
@[simp] theorem State.onRecd_sfr : (s.onRecd f).b.sfr = s.b.sfr := rfl
@[simp] theorem State.onRecd_agr : (s.onRecd f).b.agr = s.b.agr := rfl
@[simp] theorem State.onRecd_cvu : (s.onRecd f).b.cvu = s.b.cvu := rfl
@[simp] theorem State.onRecd_fcl : (s.onRecd f).b.fcl = s.b.fcl := rfl
@[simp] theorem State.onRecd_recd : (s.onRecd f).b.recd = f s.b.recd := rfl
@[simp] theorem State.onRecd_bst : (s.onRecd f).b.bst = s.b.bst := rfl
@[simp] theorem State.onRecd_otp : (s.onRecd f).b.otp = s.b.otp := rfl
@[simp] theorem State.onRecd_lcs : (s.onRecd f).b.lcs = s.b.lcs := rfl
@[simp] theorem State.onRecd_key : (s.onRecd f).b.key = s.b.key := rfl
@[simp] theorem State.onRecd_pwr : (s.onRecd f).b.pwr = s.b.pwr := rfl
@[simp] theorem State.onRecd_cfg : (s.onRecd f).b.cfg = s.b.cfg := rfl
@[simp] theorem State.onRecd_hif : (s.onRecd f).b.hif = s.b.hif := rfl
@[simp] theorem State.onRecd_mgmt : (s.onRecd f).b.mgmt = s.b.mgmt := rfl
@[simp] theorem State.onRecd_inReset : (s.onRecd f).b.inReset = s.b.inReset := rfl
@[simp] theorem State.onRecd_sel : (s.onRecd f).b.sel = s.b.sel := rfl
@[simp] theorem State.onRecd_cap : (s.onRecd f).cap = s.cap := rfl
@[simp] theorem State.onRecd_shown : (s.onRecd f).shown = s.shown := rfl
@[simp] theorem State.onRecd_holds : (s.onRecd f).holds = s.holds := rfl
@[simp] theorem State.onRecd_draws : (s.onRecd f).draws = s.draws := rfl
@[simp] theorem State.onRecd_pending : (s.onRecd f).pending = s.pending := rfl
end

section
variable (f : Bst → Bst) (s : State)
@[simp] theorem State.onBst_now : (s.onBst f).b.now = s.b.now := rfl
@[simp] theorem State.onBst_sys : (s.onBst f).b.sys = s.b.sys := rfl
@[simp] theorem State.onBst_tru : (s.onBst f).b.tru = s.b.tru := rfl
@[simp] theorem State.onBst_fab : (s.onBst f).b.fab = s.b.fab := rfl
@[simp] theorem State.onBst_lio : (s.onBst f).b.lio = s.b.lio := rfl
@[simp] theorem State.onBst_tpg : (s.onBst f).b.tpg = s.b.tpg := rfl
@[simp] theorem State.onBst_sog : (s.onBst f).b.sog = s.b.sog := rfl
@[simp] theorem State.onBst_sto : (s.onBst f).b.sto = s.b.sto := rfl
@[simp] theorem State.onBst_mea : (s.onBst f).b.mea = s.b.mea := rfl
@[simp] theorem State.onBst_axs : (s.onBst f).b.axs = s.b.axs := rfl
@[simp] theorem State.onBst_sep : (s.onBst f).b.sep = s.b.sep := rfl
@[simp] theorem State.onBst_net : (s.onBst f).b.net = s.b.net := rfl
@[simp] theorem State.onBst_tsy : (s.onBst f).b.tsy = s.b.tsy := rfl
@[simp] theorem State.onBst_sfr : (s.onBst f).b.sfr = s.b.sfr := rfl
@[simp] theorem State.onBst_agr : (s.onBst f).b.agr = s.b.agr := rfl
@[simp] theorem State.onBst_cvu : (s.onBst f).b.cvu = s.b.cvu := rfl
@[simp] theorem State.onBst_fcl : (s.onBst f).b.fcl = s.b.fcl := rfl
@[simp] theorem State.onBst_recd : (s.onBst f).b.recd = s.b.recd := rfl
@[simp] theorem State.onBst_bst : (s.onBst f).b.bst = f s.b.bst := rfl
@[simp] theorem State.onBst_otp : (s.onBst f).b.otp = s.b.otp := rfl
@[simp] theorem State.onBst_lcs : (s.onBst f).b.lcs = s.b.lcs := rfl
@[simp] theorem State.onBst_key : (s.onBst f).b.key = s.b.key := rfl
@[simp] theorem State.onBst_pwr : (s.onBst f).b.pwr = s.b.pwr := rfl
@[simp] theorem State.onBst_cfg : (s.onBst f).b.cfg = s.b.cfg := rfl
@[simp] theorem State.onBst_hif : (s.onBst f).b.hif = s.b.hif := rfl
@[simp] theorem State.onBst_mgmt : (s.onBst f).b.mgmt = s.b.mgmt := rfl
@[simp] theorem State.onBst_inReset : (s.onBst f).b.inReset = s.b.inReset := rfl
@[simp] theorem State.onBst_sel : (s.onBst f).b.sel = s.b.sel := rfl
@[simp] theorem State.onBst_cap : (s.onBst f).cap = s.cap := rfl
@[simp] theorem State.onBst_shown : (s.onBst f).shown = s.shown := rfl
@[simp] theorem State.onBst_holds : (s.onBst f).holds = s.holds := rfl
@[simp] theorem State.onBst_draws : (s.onBst f).draws = s.draws := rfl
@[simp] theorem State.onBst_pending : (s.onBst f).pending = s.pending := rfl
end

section
variable (f : Otp → Otp) (s : State)
@[simp] theorem State.onOtp_now : (s.onOtp f).b.now = s.b.now := rfl
@[simp] theorem State.onOtp_sys : (s.onOtp f).b.sys = s.b.sys := rfl
@[simp] theorem State.onOtp_tru : (s.onOtp f).b.tru = s.b.tru := rfl
@[simp] theorem State.onOtp_fab : (s.onOtp f).b.fab = s.b.fab := rfl
@[simp] theorem State.onOtp_lio : (s.onOtp f).b.lio = s.b.lio := rfl
@[simp] theorem State.onOtp_tpg : (s.onOtp f).b.tpg = s.b.tpg := rfl
@[simp] theorem State.onOtp_sog : (s.onOtp f).b.sog = s.b.sog := rfl
@[simp] theorem State.onOtp_sto : (s.onOtp f).b.sto = s.b.sto := rfl
@[simp] theorem State.onOtp_mea : (s.onOtp f).b.mea = s.b.mea := rfl
@[simp] theorem State.onOtp_axs : (s.onOtp f).b.axs = s.b.axs := rfl
@[simp] theorem State.onOtp_sep : (s.onOtp f).b.sep = s.b.sep := rfl
@[simp] theorem State.onOtp_net : (s.onOtp f).b.net = s.b.net := rfl
@[simp] theorem State.onOtp_tsy : (s.onOtp f).b.tsy = s.b.tsy := rfl
@[simp] theorem State.onOtp_sfr : (s.onOtp f).b.sfr = s.b.sfr := rfl
@[simp] theorem State.onOtp_agr : (s.onOtp f).b.agr = s.b.agr := rfl
@[simp] theorem State.onOtp_cvu : (s.onOtp f).b.cvu = s.b.cvu := rfl
@[simp] theorem State.onOtp_fcl : (s.onOtp f).b.fcl = s.b.fcl := rfl
@[simp] theorem State.onOtp_recd : (s.onOtp f).b.recd = s.b.recd := rfl
@[simp] theorem State.onOtp_bst : (s.onOtp f).b.bst = s.b.bst := rfl
@[simp] theorem State.onOtp_otp : (s.onOtp f).b.otp = f s.b.otp := rfl
@[simp] theorem State.onOtp_lcs : (s.onOtp f).b.lcs = s.b.lcs := rfl
@[simp] theorem State.onOtp_key : (s.onOtp f).b.key = s.b.key := rfl
@[simp] theorem State.onOtp_pwr : (s.onOtp f).b.pwr = s.b.pwr := rfl
@[simp] theorem State.onOtp_cfg : (s.onOtp f).b.cfg = s.b.cfg := rfl
@[simp] theorem State.onOtp_hif : (s.onOtp f).b.hif = s.b.hif := rfl
@[simp] theorem State.onOtp_mgmt : (s.onOtp f).b.mgmt = s.b.mgmt := rfl
@[simp] theorem State.onOtp_inReset : (s.onOtp f).b.inReset = s.b.inReset := rfl
@[simp] theorem State.onOtp_sel : (s.onOtp f).b.sel = s.b.sel := rfl
@[simp] theorem State.onOtp_cap : (s.onOtp f).cap = s.cap := rfl
@[simp] theorem State.onOtp_shown : (s.onOtp f).shown = s.shown := rfl
@[simp] theorem State.onOtp_holds : (s.onOtp f).holds = s.holds := rfl
@[simp] theorem State.onOtp_draws : (s.onOtp f).draws = s.draws := rfl
@[simp] theorem State.onOtp_pending : (s.onOtp f).pending = s.pending := rfl
end

section
variable (f : Lcs → Lcs) (s : State)
@[simp] theorem State.onLcs_now : (s.onLcs f).b.now = s.b.now := rfl
@[simp] theorem State.onLcs_sys : (s.onLcs f).b.sys = s.b.sys := rfl
@[simp] theorem State.onLcs_tru : (s.onLcs f).b.tru = s.b.tru := rfl
@[simp] theorem State.onLcs_fab : (s.onLcs f).b.fab = s.b.fab := rfl
@[simp] theorem State.onLcs_lio : (s.onLcs f).b.lio = s.b.lio := rfl
@[simp] theorem State.onLcs_tpg : (s.onLcs f).b.tpg = s.b.tpg := rfl
@[simp] theorem State.onLcs_sog : (s.onLcs f).b.sog = s.b.sog := rfl
@[simp] theorem State.onLcs_sto : (s.onLcs f).b.sto = s.b.sto := rfl
@[simp] theorem State.onLcs_mea : (s.onLcs f).b.mea = s.b.mea := rfl
@[simp] theorem State.onLcs_axs : (s.onLcs f).b.axs = s.b.axs := rfl
@[simp] theorem State.onLcs_sep : (s.onLcs f).b.sep = s.b.sep := rfl
@[simp] theorem State.onLcs_net : (s.onLcs f).b.net = s.b.net := rfl
@[simp] theorem State.onLcs_tsy : (s.onLcs f).b.tsy = s.b.tsy := rfl
@[simp] theorem State.onLcs_sfr : (s.onLcs f).b.sfr = s.b.sfr := rfl
@[simp] theorem State.onLcs_agr : (s.onLcs f).b.agr = s.b.agr := rfl
@[simp] theorem State.onLcs_cvu : (s.onLcs f).b.cvu = s.b.cvu := rfl
@[simp] theorem State.onLcs_fcl : (s.onLcs f).b.fcl = s.b.fcl := rfl
@[simp] theorem State.onLcs_recd : (s.onLcs f).b.recd = s.b.recd := rfl
@[simp] theorem State.onLcs_bst : (s.onLcs f).b.bst = s.b.bst := rfl
@[simp] theorem State.onLcs_otp : (s.onLcs f).b.otp = s.b.otp := rfl
@[simp] theorem State.onLcs_lcs : (s.onLcs f).b.lcs = f s.b.lcs := rfl
@[simp] theorem State.onLcs_key : (s.onLcs f).b.key = s.b.key := rfl
@[simp] theorem State.onLcs_pwr : (s.onLcs f).b.pwr = s.b.pwr := rfl
@[simp] theorem State.onLcs_cfg : (s.onLcs f).b.cfg = s.b.cfg := rfl
@[simp] theorem State.onLcs_hif : (s.onLcs f).b.hif = s.b.hif := rfl
@[simp] theorem State.onLcs_mgmt : (s.onLcs f).b.mgmt = s.b.mgmt := rfl
@[simp] theorem State.onLcs_inReset : (s.onLcs f).b.inReset = s.b.inReset := rfl
@[simp] theorem State.onLcs_sel : (s.onLcs f).b.sel = s.b.sel := rfl
@[simp] theorem State.onLcs_cap : (s.onLcs f).cap = s.cap := rfl
@[simp] theorem State.onLcs_shown : (s.onLcs f).shown = s.shown := rfl
@[simp] theorem State.onLcs_holds : (s.onLcs f).holds = s.holds := rfl
@[simp] theorem State.onLcs_draws : (s.onLcs f).draws = s.draws := rfl
@[simp] theorem State.onLcs_pending : (s.onLcs f).pending = s.pending := rfl
end

section
variable (f : Key → Key) (s : State)
@[simp] theorem State.onKey_now : (s.onKey f).b.now = s.b.now := rfl
@[simp] theorem State.onKey_sys : (s.onKey f).b.sys = s.b.sys := rfl
@[simp] theorem State.onKey_tru : (s.onKey f).b.tru = s.b.tru := rfl
@[simp] theorem State.onKey_fab : (s.onKey f).b.fab = s.b.fab := rfl
@[simp] theorem State.onKey_lio : (s.onKey f).b.lio = s.b.lio := rfl
@[simp] theorem State.onKey_tpg : (s.onKey f).b.tpg = s.b.tpg := rfl
@[simp] theorem State.onKey_sog : (s.onKey f).b.sog = s.b.sog := rfl
@[simp] theorem State.onKey_sto : (s.onKey f).b.sto = s.b.sto := rfl
@[simp] theorem State.onKey_mea : (s.onKey f).b.mea = s.b.mea := rfl
@[simp] theorem State.onKey_axs : (s.onKey f).b.axs = s.b.axs := rfl
@[simp] theorem State.onKey_sep : (s.onKey f).b.sep = s.b.sep := rfl
@[simp] theorem State.onKey_net : (s.onKey f).b.net = s.b.net := rfl
@[simp] theorem State.onKey_tsy : (s.onKey f).b.tsy = s.b.tsy := rfl
@[simp] theorem State.onKey_sfr : (s.onKey f).b.sfr = s.b.sfr := rfl
@[simp] theorem State.onKey_agr : (s.onKey f).b.agr = s.b.agr := rfl
@[simp] theorem State.onKey_cvu : (s.onKey f).b.cvu = s.b.cvu := rfl
@[simp] theorem State.onKey_fcl : (s.onKey f).b.fcl = s.b.fcl := rfl
@[simp] theorem State.onKey_recd : (s.onKey f).b.recd = s.b.recd := rfl
@[simp] theorem State.onKey_bst : (s.onKey f).b.bst = s.b.bst := rfl
@[simp] theorem State.onKey_otp : (s.onKey f).b.otp = s.b.otp := rfl
@[simp] theorem State.onKey_lcs : (s.onKey f).b.lcs = s.b.lcs := rfl
@[simp] theorem State.onKey_key : (s.onKey f).b.key = f s.b.key := rfl
@[simp] theorem State.onKey_pwr : (s.onKey f).b.pwr = s.b.pwr := rfl
@[simp] theorem State.onKey_cfg : (s.onKey f).b.cfg = s.b.cfg := rfl
@[simp] theorem State.onKey_hif : (s.onKey f).b.hif = s.b.hif := rfl
@[simp] theorem State.onKey_mgmt : (s.onKey f).b.mgmt = s.b.mgmt := rfl
@[simp] theorem State.onKey_inReset : (s.onKey f).b.inReset = s.b.inReset := rfl
@[simp] theorem State.onKey_sel : (s.onKey f).b.sel = s.b.sel := rfl
@[simp] theorem State.onKey_cap : (s.onKey f).cap = s.cap := rfl
@[simp] theorem State.onKey_shown : (s.onKey f).shown = s.shown := rfl
@[simp] theorem State.onKey_holds : (s.onKey f).holds = s.holds := rfl
@[simp] theorem State.onKey_draws : (s.onKey f).draws = s.draws := rfl
@[simp] theorem State.onKey_pending : (s.onKey f).pending = s.pending := rfl
end

section
variable (f : Pwr → Pwr) (s : State)
@[simp] theorem State.onPwr_now : (s.onPwr f).b.now = s.b.now := rfl
@[simp] theorem State.onPwr_sys : (s.onPwr f).b.sys = s.b.sys := rfl
@[simp] theorem State.onPwr_tru : (s.onPwr f).b.tru = s.b.tru := rfl
@[simp] theorem State.onPwr_fab : (s.onPwr f).b.fab = s.b.fab := rfl
@[simp] theorem State.onPwr_lio : (s.onPwr f).b.lio = s.b.lio := rfl
@[simp] theorem State.onPwr_tpg : (s.onPwr f).b.tpg = s.b.tpg := rfl
@[simp] theorem State.onPwr_sog : (s.onPwr f).b.sog = s.b.sog := rfl
@[simp] theorem State.onPwr_sto : (s.onPwr f).b.sto = s.b.sto := rfl
@[simp] theorem State.onPwr_mea : (s.onPwr f).b.mea = s.b.mea := rfl
@[simp] theorem State.onPwr_axs : (s.onPwr f).b.axs = s.b.axs := rfl
@[simp] theorem State.onPwr_sep : (s.onPwr f).b.sep = s.b.sep := rfl
@[simp] theorem State.onPwr_net : (s.onPwr f).b.net = s.b.net := rfl
@[simp] theorem State.onPwr_tsy : (s.onPwr f).b.tsy = s.b.tsy := rfl
@[simp] theorem State.onPwr_sfr : (s.onPwr f).b.sfr = s.b.sfr := rfl
@[simp] theorem State.onPwr_agr : (s.onPwr f).b.agr = s.b.agr := rfl
@[simp] theorem State.onPwr_cvu : (s.onPwr f).b.cvu = s.b.cvu := rfl
@[simp] theorem State.onPwr_fcl : (s.onPwr f).b.fcl = s.b.fcl := rfl
@[simp] theorem State.onPwr_recd : (s.onPwr f).b.recd = s.b.recd := rfl
@[simp] theorem State.onPwr_bst : (s.onPwr f).b.bst = s.b.bst := rfl
@[simp] theorem State.onPwr_otp : (s.onPwr f).b.otp = s.b.otp := rfl
@[simp] theorem State.onPwr_lcs : (s.onPwr f).b.lcs = s.b.lcs := rfl
@[simp] theorem State.onPwr_key : (s.onPwr f).b.key = s.b.key := rfl
@[simp] theorem State.onPwr_pwr : (s.onPwr f).b.pwr = f s.b.pwr := rfl
@[simp] theorem State.onPwr_cfg : (s.onPwr f).b.cfg = s.b.cfg := rfl
@[simp] theorem State.onPwr_hif : (s.onPwr f).b.hif = s.b.hif := rfl
@[simp] theorem State.onPwr_mgmt : (s.onPwr f).b.mgmt = s.b.mgmt := rfl
@[simp] theorem State.onPwr_inReset : (s.onPwr f).b.inReset = s.b.inReset := rfl
@[simp] theorem State.onPwr_sel : (s.onPwr f).b.sel = s.b.sel := rfl
@[simp] theorem State.onPwr_cap : (s.onPwr f).cap = s.cap := rfl
@[simp] theorem State.onPwr_shown : (s.onPwr f).shown = s.shown := rfl
@[simp] theorem State.onPwr_holds : (s.onPwr f).holds = s.holds := rfl
@[simp] theorem State.onPwr_draws : (s.onPwr f).draws = s.draws := rfl
@[simp] theorem State.onPwr_pending : (s.onPwr f).pending = s.pending := rfl
end

section
variable (f : Cfg → Cfg) (s : State)
@[simp] theorem State.onCfg_now : (s.onCfg f).b.now = s.b.now := rfl
@[simp] theorem State.onCfg_sys : (s.onCfg f).b.sys = s.b.sys := rfl
@[simp] theorem State.onCfg_tru : (s.onCfg f).b.tru = s.b.tru := rfl
@[simp] theorem State.onCfg_fab : (s.onCfg f).b.fab = s.b.fab := rfl
@[simp] theorem State.onCfg_lio : (s.onCfg f).b.lio = s.b.lio := rfl
@[simp] theorem State.onCfg_tpg : (s.onCfg f).b.tpg = s.b.tpg := rfl
@[simp] theorem State.onCfg_sog : (s.onCfg f).b.sog = s.b.sog := rfl
@[simp] theorem State.onCfg_sto : (s.onCfg f).b.sto = s.b.sto := rfl
@[simp] theorem State.onCfg_mea : (s.onCfg f).b.mea = s.b.mea := rfl
@[simp] theorem State.onCfg_axs : (s.onCfg f).b.axs = s.b.axs := rfl
@[simp] theorem State.onCfg_sep : (s.onCfg f).b.sep = s.b.sep := rfl
@[simp] theorem State.onCfg_net : (s.onCfg f).b.net = s.b.net := rfl
@[simp] theorem State.onCfg_tsy : (s.onCfg f).b.tsy = s.b.tsy := rfl
@[simp] theorem State.onCfg_sfr : (s.onCfg f).b.sfr = s.b.sfr := rfl
@[simp] theorem State.onCfg_agr : (s.onCfg f).b.agr = s.b.agr := rfl
@[simp] theorem State.onCfg_cvu : (s.onCfg f).b.cvu = s.b.cvu := rfl
@[simp] theorem State.onCfg_fcl : (s.onCfg f).b.fcl = s.b.fcl := rfl
@[simp] theorem State.onCfg_recd : (s.onCfg f).b.recd = s.b.recd := rfl
@[simp] theorem State.onCfg_bst : (s.onCfg f).b.bst = s.b.bst := rfl
@[simp] theorem State.onCfg_otp : (s.onCfg f).b.otp = s.b.otp := rfl
@[simp] theorem State.onCfg_lcs : (s.onCfg f).b.lcs = s.b.lcs := rfl
@[simp] theorem State.onCfg_key : (s.onCfg f).b.key = s.b.key := rfl
@[simp] theorem State.onCfg_pwr : (s.onCfg f).b.pwr = s.b.pwr := rfl
@[simp] theorem State.onCfg_cfg : (s.onCfg f).b.cfg = f s.b.cfg := rfl
@[simp] theorem State.onCfg_hif : (s.onCfg f).b.hif = s.b.hif := rfl
@[simp] theorem State.onCfg_mgmt : (s.onCfg f).b.mgmt = s.b.mgmt := rfl
@[simp] theorem State.onCfg_inReset : (s.onCfg f).b.inReset = s.b.inReset := rfl
@[simp] theorem State.onCfg_sel : (s.onCfg f).b.sel = s.b.sel := rfl
@[simp] theorem State.onCfg_cap : (s.onCfg f).cap = s.cap := rfl
@[simp] theorem State.onCfg_shown : (s.onCfg f).shown = s.shown := rfl
@[simp] theorem State.onCfg_holds : (s.onCfg f).holds = s.holds := rfl
@[simp] theorem State.onCfg_draws : (s.onCfg f).draws = s.draws := rfl
@[simp] theorem State.onCfg_pending : (s.onCfg f).pending = s.pending := rfl
end

section
variable (f : Hif → Hif) (s : State)
@[simp] theorem State.onHif_now : (s.onHif f).b.now = s.b.now := rfl
@[simp] theorem State.onHif_sys : (s.onHif f).b.sys = s.b.sys := rfl
@[simp] theorem State.onHif_tru : (s.onHif f).b.tru = s.b.tru := rfl
@[simp] theorem State.onHif_fab : (s.onHif f).b.fab = s.b.fab := rfl
@[simp] theorem State.onHif_lio : (s.onHif f).b.lio = s.b.lio := rfl
@[simp] theorem State.onHif_tpg : (s.onHif f).b.tpg = s.b.tpg := rfl
@[simp] theorem State.onHif_sog : (s.onHif f).b.sog = s.b.sog := rfl
@[simp] theorem State.onHif_sto : (s.onHif f).b.sto = s.b.sto := rfl
@[simp] theorem State.onHif_mea : (s.onHif f).b.mea = s.b.mea := rfl
@[simp] theorem State.onHif_axs : (s.onHif f).b.axs = s.b.axs := rfl
@[simp] theorem State.onHif_sep : (s.onHif f).b.sep = s.b.sep := rfl
@[simp] theorem State.onHif_net : (s.onHif f).b.net = s.b.net := rfl
@[simp] theorem State.onHif_tsy : (s.onHif f).b.tsy = s.b.tsy := rfl
@[simp] theorem State.onHif_sfr : (s.onHif f).b.sfr = s.b.sfr := rfl
@[simp] theorem State.onHif_agr : (s.onHif f).b.agr = s.b.agr := rfl
@[simp] theorem State.onHif_cvu : (s.onHif f).b.cvu = s.b.cvu := rfl
@[simp] theorem State.onHif_fcl : (s.onHif f).b.fcl = s.b.fcl := rfl
@[simp] theorem State.onHif_recd : (s.onHif f).b.recd = s.b.recd := rfl
@[simp] theorem State.onHif_bst : (s.onHif f).b.bst = s.b.bst := rfl
@[simp] theorem State.onHif_otp : (s.onHif f).b.otp = s.b.otp := rfl
@[simp] theorem State.onHif_lcs : (s.onHif f).b.lcs = s.b.lcs := rfl
@[simp] theorem State.onHif_key : (s.onHif f).b.key = s.b.key := rfl
@[simp] theorem State.onHif_pwr : (s.onHif f).b.pwr = s.b.pwr := rfl
@[simp] theorem State.onHif_cfg : (s.onHif f).b.cfg = s.b.cfg := rfl
@[simp] theorem State.onHif_hif : (s.onHif f).b.hif = f s.b.hif := rfl
@[simp] theorem State.onHif_mgmt : (s.onHif f).b.mgmt = s.b.mgmt := rfl
@[simp] theorem State.onHif_inReset : (s.onHif f).b.inReset = s.b.inReset := rfl
@[simp] theorem State.onHif_sel : (s.onHif f).b.sel = s.b.sel := rfl
@[simp] theorem State.onHif_cap : (s.onHif f).cap = s.cap := rfl
@[simp] theorem State.onHif_shown : (s.onHif f).shown = s.shown := rfl
@[simp] theorem State.onHif_holds : (s.onHif f).holds = s.holds := rfl
@[simp] theorem State.onHif_draws : (s.onHif f).draws = s.draws := rfl
@[simp] theorem State.onHif_pending : (s.onHif f).pending = s.pending := rfl
end

section
variable (k : Nat) (f : Cvu → Cvu) (s : State)
@[simp] theorem State.onCvu_now : (s.onCvu k f).b.now = s.b.now := rfl
@[simp] theorem State.onCvu_sys : (s.onCvu k f).b.sys = s.b.sys := rfl
@[simp] theorem State.onCvu_tru : (s.onCvu k f).b.tru = s.b.tru := rfl
@[simp] theorem State.onCvu_fab : (s.onCvu k f).b.fab = s.b.fab := rfl
@[simp] theorem State.onCvu_lio : (s.onCvu k f).b.lio = s.b.lio := rfl
@[simp] theorem State.onCvu_tpg : (s.onCvu k f).b.tpg = s.b.tpg := rfl
@[simp] theorem State.onCvu_sog : (s.onCvu k f).b.sog = s.b.sog := rfl
@[simp] theorem State.onCvu_sto : (s.onCvu k f).b.sto = s.b.sto := rfl
@[simp] theorem State.onCvu_mea : (s.onCvu k f).b.mea = s.b.mea := rfl
@[simp] theorem State.onCvu_axs : (s.onCvu k f).b.axs = s.b.axs := rfl
@[simp] theorem State.onCvu_sep : (s.onCvu k f).b.sep = s.b.sep := rfl
@[simp] theorem State.onCvu_net : (s.onCvu k f).b.net = s.b.net := rfl
@[simp] theorem State.onCvu_tsy : (s.onCvu k f).b.tsy = s.b.tsy := rfl
@[simp] theorem State.onCvu_sfr : (s.onCvu k f).b.sfr = s.b.sfr := rfl
@[simp] theorem State.onCvu_agr : (s.onCvu k f).b.agr = s.b.agr := rfl
@[simp] theorem State.onCvu_cvu : (s.onCvu k f).b.cvu = nupd s.b.cvu k {} f := rfl
@[simp] theorem State.onCvu_fcl : (s.onCvu k f).b.fcl = s.b.fcl := rfl
@[simp] theorem State.onCvu_recd : (s.onCvu k f).b.recd = s.b.recd := rfl
@[simp] theorem State.onCvu_bst : (s.onCvu k f).b.bst = s.b.bst := rfl
@[simp] theorem State.onCvu_otp : (s.onCvu k f).b.otp = s.b.otp := rfl
@[simp] theorem State.onCvu_lcs : (s.onCvu k f).b.lcs = s.b.lcs := rfl
@[simp] theorem State.onCvu_key : (s.onCvu k f).b.key = s.b.key := rfl
@[simp] theorem State.onCvu_pwr : (s.onCvu k f).b.pwr = s.b.pwr := rfl
@[simp] theorem State.onCvu_cfg : (s.onCvu k f).b.cfg = s.b.cfg := rfl
@[simp] theorem State.onCvu_hif : (s.onCvu k f).b.hif = s.b.hif := rfl
@[simp] theorem State.onCvu_mgmt : (s.onCvu k f).b.mgmt = s.b.mgmt := rfl
@[simp] theorem State.onCvu_inReset : (s.onCvu k f).b.inReset = s.b.inReset := rfl
@[simp] theorem State.onCvu_sel : (s.onCvu k f).b.sel = s.b.sel := rfl
@[simp] theorem State.onCvu_cap : (s.onCvu k f).cap = s.cap := rfl
@[simp] theorem State.onCvu_shown : (s.onCvu k f).shown = s.shown := rfl
@[simp] theorem State.onCvu_holds : (s.onCvu k f).holds = s.holds := rfl
@[simp] theorem State.onCvu_draws : (s.onCvu k f).draws = s.draws := rfl
@[simp] theorem State.onCvu_pending : (s.onCvu k f).pending = s.pending := rfl
end

section
variable (k : Nat) (f : MgmtSession → MgmtSession) (s : State)
@[simp] theorem State.onMgmt_now : (s.onMgmt k f).b.now = s.b.now := rfl
@[simp] theorem State.onMgmt_sys : (s.onMgmt k f).b.sys = s.b.sys := rfl
@[simp] theorem State.onMgmt_tru : (s.onMgmt k f).b.tru = s.b.tru := rfl
@[simp] theorem State.onMgmt_fab : (s.onMgmt k f).b.fab = s.b.fab := rfl
@[simp] theorem State.onMgmt_lio : (s.onMgmt k f).b.lio = s.b.lio := rfl
@[simp] theorem State.onMgmt_tpg : (s.onMgmt k f).b.tpg = s.b.tpg := rfl
@[simp] theorem State.onMgmt_sog : (s.onMgmt k f).b.sog = s.b.sog := rfl
@[simp] theorem State.onMgmt_sto : (s.onMgmt k f).b.sto = s.b.sto := rfl
@[simp] theorem State.onMgmt_mea : (s.onMgmt k f).b.mea = s.b.mea := rfl
@[simp] theorem State.onMgmt_axs : (s.onMgmt k f).b.axs = s.b.axs := rfl
@[simp] theorem State.onMgmt_sep : (s.onMgmt k f).b.sep = s.b.sep := rfl
@[simp] theorem State.onMgmt_net : (s.onMgmt k f).b.net = s.b.net := rfl
@[simp] theorem State.onMgmt_tsy : (s.onMgmt k f).b.tsy = s.b.tsy := rfl
@[simp] theorem State.onMgmt_sfr : (s.onMgmt k f).b.sfr = s.b.sfr := rfl
@[simp] theorem State.onMgmt_agr : (s.onMgmt k f).b.agr = s.b.agr := rfl
@[simp] theorem State.onMgmt_cvu : (s.onMgmt k f).b.cvu = s.b.cvu := rfl
@[simp] theorem State.onMgmt_fcl : (s.onMgmt k f).b.fcl = s.b.fcl := rfl
@[simp] theorem State.onMgmt_recd : (s.onMgmt k f).b.recd = s.b.recd := rfl
@[simp] theorem State.onMgmt_bst : (s.onMgmt k f).b.bst = s.b.bst := rfl
@[simp] theorem State.onMgmt_otp : (s.onMgmt k f).b.otp = s.b.otp := rfl
@[simp] theorem State.onMgmt_lcs : (s.onMgmt k f).b.lcs = s.b.lcs := rfl
@[simp] theorem State.onMgmt_key : (s.onMgmt k f).b.key = s.b.key := rfl
@[simp] theorem State.onMgmt_pwr : (s.onMgmt k f).b.pwr = s.b.pwr := rfl
@[simp] theorem State.onMgmt_cfg : (s.onMgmt k f).b.cfg = s.b.cfg := rfl
@[simp] theorem State.onMgmt_hif : (s.onMgmt k f).b.hif = s.b.hif := rfl
@[simp] theorem State.onMgmt_mgmt : (s.onMgmt k f).b.mgmt = nupd s.b.mgmt k {} f := rfl
@[simp] theorem State.onMgmt_inReset : (s.onMgmt k f).b.inReset = s.b.inReset := rfl
@[simp] theorem State.onMgmt_sel : (s.onMgmt k f).b.sel = s.b.sel := rfl
@[simp] theorem State.onMgmt_cap : (s.onMgmt k f).cap = s.cap := rfl
@[simp] theorem State.onMgmt_shown : (s.onMgmt k f).shown = s.shown := rfl
@[simp] theorem State.onMgmt_holds : (s.onMgmt k f).holds = s.holds := rfl
@[simp] theorem State.onMgmt_draws : (s.onMgmt k f).draws = s.draws := rfl
@[simp] theorem State.onMgmt_pending : (s.onMgmt k f).pending = s.pending := rfl
end

section
variable (n : Nat) (s : State)
@[simp] theorem State.tick_now : (s.tick n).b.now = max s.b.now n := rfl
@[simp] theorem State.tick_sys : (s.tick n).b.sys = s.b.sys := rfl
@[simp] theorem State.tick_tru : (s.tick n).b.tru = s.b.tru := rfl
@[simp] theorem State.tick_fab : (s.tick n).b.fab = s.b.fab := rfl
@[simp] theorem State.tick_lio : (s.tick n).b.lio = s.b.lio := rfl
@[simp] theorem State.tick_tpg : (s.tick n).b.tpg = s.b.tpg := rfl
@[simp] theorem State.tick_sog : (s.tick n).b.sog = s.b.sog := rfl
@[simp] theorem State.tick_sto : (s.tick n).b.sto = s.b.sto := rfl
@[simp] theorem State.tick_mea : (s.tick n).b.mea = s.b.mea := rfl
@[simp] theorem State.tick_axs : (s.tick n).b.axs = s.b.axs := rfl
@[simp] theorem State.tick_sep : (s.tick n).b.sep = s.b.sep := rfl
@[simp] theorem State.tick_net : (s.tick n).b.net = s.b.net := rfl
@[simp] theorem State.tick_tsy : (s.tick n).b.tsy = s.b.tsy := rfl
@[simp] theorem State.tick_sfr : (s.tick n).b.sfr = s.b.sfr := rfl
@[simp] theorem State.tick_agr : (s.tick n).b.agr = s.b.agr := rfl
@[simp] theorem State.tick_cvu : (s.tick n).b.cvu = s.b.cvu := rfl
@[simp] theorem State.tick_fcl : (s.tick n).b.fcl = s.b.fcl := rfl
@[simp] theorem State.tick_recd : (s.tick n).b.recd = s.b.recd := rfl
@[simp] theorem State.tick_bst : (s.tick n).b.bst = s.b.bst := rfl
@[simp] theorem State.tick_otp : (s.tick n).b.otp = s.b.otp := rfl
@[simp] theorem State.tick_lcs : (s.tick n).b.lcs = s.b.lcs := rfl
@[simp] theorem State.tick_key : (s.tick n).b.key = s.b.key := rfl
@[simp] theorem State.tick_pwr : (s.tick n).b.pwr = s.b.pwr := rfl
@[simp] theorem State.tick_cfg : (s.tick n).b.cfg = s.b.cfg := rfl
@[simp] theorem State.tick_hif : (s.tick n).b.hif = s.b.hif := rfl
@[simp] theorem State.tick_mgmt : (s.tick n).b.mgmt = s.b.mgmt := rfl
@[simp] theorem State.tick_inReset : (s.tick n).b.inReset = s.b.inReset := rfl
@[simp] theorem State.tick_sel : (s.tick n).b.sel = s.b.sel := rfl
@[simp] theorem State.tick_cap : (s.tick n).cap = s.cap := rfl
@[simp] theorem State.tick_shown : (s.tick n).shown = s.shown := rfl
@[simp] theorem State.tick_holds : (s.tick n).holds = s.holds := rfl
@[simp] theorem State.tick_draws : (s.tick n).draws = s.draws := rfl
@[simp] theorem State.tick_pending : (s.tick n).pending = s.pending := rfl
end

end Sys2Proof.Machine
end

