-- ==== Sys2Proof/Laws/Ops.lean ====
section
/-! SUPPORT. What the shared operations of Machine/Ops.lean can do: a command with a token, a plain write, a fault arrival,
a token settled. -/

namespace Sys2Proof.Machine

/-! ### Commands with a token (R39) -/

/-- The reader reaches the page and may write it. -/
theorem Blocks.reaches_iff (b : Blocks) (rd : Reader) (page : Nat) :
    b.reaches rd page = true ↔ b.speaks rd = true ∧ b.mayWrite rd page = true := by
  unfold Blocks.reaches; rw [Bool.and_eq_true]

theorem Blocks.takes_iff (b : Blocks) (rd : Reader) (page : Nat) (tok : BitVec 16) :
    b.takes rd page tok = true ↔
      b.speaks rd = true ∧ b.mayWrite rd page = true ∧ tok ≠ 0 ∧ tok ≠ (b.tokenOf page rd.idx).token := by
  unfold Blocks.takes
  rw [Bool.and_eq_true, Bool.and_eq_true, Blocks.reaches_iff, decide_eq_true_eq, decide_eq_true_eq]
  exact ⟨fun h => ⟨h.1.1.1, h.1.1.2, h.1.2, h.2⟩, fun h => ⟨⟨⟨h.1, h.2.1⟩, h.2.2.1⟩, h.2.2.2⟩⟩

/-- A new token: the command runs, and its token and result are kept. -/
theorem State.wt_takes {s : State} {rd : Reader} {page : Nat} {tok : BitVec 16} (run : State → State × Nat)
    (h : s.b.takes rd page tok = true) : s.wt rd page tok run = (run s).1.keeps rd page tok (run s).2 := by
  obtain ⟨h1, h2, h3, h4⟩ := (Blocks.takes_iff _ _ _ _).mp h
  unfold State.wt State.keeps
  rw [if_neg (by rw [h1]; decide), if_neg (by rw [h2]; decide), if_neg h3, if_neg h4]

/-- A new token, by the command's result. -/
theorem State.wt_takes_eq {s u : State} {rd : Reader} {page r : Nat} {tok : BitVec 16} {run : State → State × Nat}
    (h : s.b.takes rd page tok = true) (e : run s = (u, r)) : s.wt rd page tok run = u.keeps rd page tok r := by
  rw [State.wt_takes run h, e]

/-- Token 0: nothing is executed. -/
theorem State.wt_zero {s : State} {rd : Reader} {page : Nat} (run : State → State × Nat) (h : s.b.reaches rd page = true) :
    s.wt rd page 0 run =
      s.onToken page rd.idx fun e => { e with last := rNoToken, repeated := false, settles := false } := by
  obtain ⟨h1, h2⟩ := (Blocks.reaches_iff _ _ _).mp h
  unfold State.wt
  simp [h1, h2]

/-- The kept token: nothing is executed, and the kept result shows. -/
theorem State.wt_repeat {s : State} {rd : Reader} {page : Nat} {tok : BitVec 16} (run : State → State × Nat)
    (h : s.b.reaches rd page = true) (h0 : tok ≠ 0) (hk : tok = (s.b.tokenOf page rd.idx).token) :
    s.wt rd page tok run = s.onToken page rd.idx fun e => { e with last := e.kept, repeated := true, settles := false } := by
  obtain ⟨h1, h2⟩ := (Blocks.reaches_iff _ _ _).mp h
  unfold State.wt
  rw [if_neg (by rw [h1]; decide), if_neg (by rw [h2]; decide), if_neg h0, if_pos hk]

/-- A plain write runs where it reaches the page. -/
theorem State.plain_reaches {s : State} {rd : Reader} {page : Nat} (run : State → State × Nat)
    (h : s.b.reaches rd page = true) : s.plain rd page run = (run s).1.result rd page (run s).2 := by
  obtain ⟨h1, h2⟩ := (Blocks.reaches_iff _ _ _).mp h
  unfold State.plain
  simp [h1, h2]

/-- Whether a command is executed does not depend on the time. -/
@[simp] theorem Blocks.takes_tick (s : State) (t : Nat) (rd : Reader) (page : Nat) (tok : BitVec 16) :
    (s.tick t).b.takes rd page tok = s.b.takes rd page tok := rfl

@[simp] theorem Blocks.reaches_tick (s : State) (t : Nat) (rd : Reader) (page : Nat) :
    (s.tick t).b.reaches rd page = s.b.reaches rd page := rfl

/-- What a page keeps for a reader once an executed command's token is kept. -/
theorem State.keeps_tokenOf (rd : Reader) (page : Nat) (tok : BitVec 16) (r : Nat) (s : State) :
    (s.keeps rd page tok r).b.tokenOf page rd.idx =
      { token := tok, kept := r, last := r, repeated := false, settles := decide (r = rPending) } := by
  unfold State.keeps State.onToken Blocks.tokenOf
  rw [State.onSys_sys, nget_nupd_same]

/-- Tokens of other pages and readers stay (R40). -/
theorem State.onToken_other {page page' rd rd' : Nat} (f : Token → Token) (s : State)
    (h : tokKey page rd ≠ tokKey page' rd') : (s.onToken page rd f).b.tokenOf page' rd' = s.b.tokenOf page' rd' :=
  nget_nset_other _ _ _ h

/-! ### Arrivals (R298) -/

@[simp] theorem State.raise_arrivals (i : Nat) (d : Word) (z : Option Nat) (u : Nat) (k : Option Block) (s : State) :
    (s.raise i d z u k).b.fcl.arrivals = s.b.fcl.arrivals ++ [⟨i, true, d, z, u, k⟩] := rfl

/-- A condition that stays as it is brings no arrival. -/
theorem State.cond_same {s : State} {i : Nat} {v : Bool} (h : s.b.fcl.cause.getLsbD i = v) (d : Word) (z : Option Nat)
    (u : Nat) (k : Option Block) : s.cond i v d z u k = s := by
  unfold State.cond
  rw [if_pos h]

/-- Once a condition has been given, its cause is what was given. -/
theorem State.cond_cause (i : Nat) (v : Bool) (d : Word) (z : Option Nat) (u : Nat) (k : Option Block) (s : State)
    (h : i < 512) : (s.cond i v d z u k).b.fcl.cause.getLsbD i = v := by
  unfold State.cond
  split
  · assumption
  · exact getLsbD_setb_self _ _ _ h

/-- The causes of other conditions stay. -/
theorem State.cond_cause_other {i j : Nat} (v : Bool) (d : Word) (z : Option Nat) (u : Nat) (k : Option Block) (s : State)
    (h : i < 512) (hj : i ≠ j) : (s.cond i v d z u k).b.fcl.cause.getLsbD j = s.b.fcl.cause.getLsbD j := by
  unfold State.cond
  split
  · rfl
  · exact (getLsbD_setb _ _ _ _ h).trans (if_neg hj)

/-- A condition that changes brings one arrival. -/
theorem State.cond_arrivals {i : Nat} {v : Bool} {s : State} (h : s.b.fcl.cause.getLsbD i ≠ v) (d : Word)
    (z : Option Nat) (u : Nat) (k : Option Block) :
    (s.cond i v d z u k).b.fcl.arrivals = s.b.fcl.arrivals ++ [⟨i, v, d, z, u, k⟩] := by
  unfold State.cond
  rw [if_neg h]
  rfl

end Sys2Proof.Machine
end

