-- ==== Sys2Proof/WellFormed.lean ====
section
/-! DEFINITION. Which commands can come from outside at all: operand ranges that the types of Syntax.lean leave wider than
the manual's. A command that is not well formed is nothing the hub can meet; `exec` still answers a next state on it. -/

namespace Sys2Proof

/-- An address of register space and an access width in bytes (R32). -/
def accessWf (addr width : Nat) : Bool :=
  decide (addr < 2 ^ 32) && [1, 2, 4, 8].contains width

/-- An Ethernet frame of at most the switch's longest length, with a priority, a VLAN and an EtherType that fit (R214). -/
def EthFrame.wf (f : EthFrame) : Bool :=
  decide (f.pcp < 8) && decide (f.etype < 65536) && decide (64 ≤ f.length) && decide (f.length ≤ 9216) &&
    (match f.vlan with
     | some v => decide (v < 4096)
     | none => true)

/-- A checkpoint entry whose store is 1 to 8 bytes wide (R263). -/
def Entry.wf (e : Entry) : Bool := decide (e.kind ≤ 8) && decide (e.size ≤ 8)

/-- Eight monitored paces (R19). -/
def pacesWf (l : List Nat) : Bool := l.length == 8 && l.all fun p => decide (p < 65536)

/-- Whether a command is one that can come from outside. -/
def Instr.wf : Instr → Bool
  | .registerWrite _ _ addr width _ => accessWf addr width
  | .stagedWrite _ _ addr width _ => accessWf addr width
  | .pageFltLatchClear _ _ page _ => decide (page < 2 ^ 32) && page % 4096 == 0
  | .frameReceive _ _ f => f.wf
  | .linkUp _ _ rate _ => [100, 1000, 2500, 5000, 10000].contains rate
  | .fdbAgeing _ vlan _ => decide (vlan < 4096)
  | .checkpointPush _ _ _ e => e.wf
  | .cprCfwWrite _ _ _ j _ => decide (j < 512)
  | .blockEraseComplete _ block _ => decide (block < 4096)
  | .rearmComplete _ flagged _ _ => decide (flagged ≤ 128)
  | .plugWriteComplete _ m => decide (m < 65536)
  | .paceWindowEnd _ a b => pacesWf a && pacesWf b
  | .tjThreshold _ a b => decide (-128 ≤ a) && decide (a < 256) && decide (-128 ≤ b) && decide (b < 256)
  | .icmpEchoRequest _ _ _ d => decide (d.length ≤ 1472)
  | .hifRead _ bs => decide (bs.length ≤ 1100)
  | .hifWrite _ bs => decide (bs.length ≤ 1100)
  | _ => true

end Sys2Proof
end

