-- ==== Sys2Proof/Tests/Slice0.lean ====
section
/-! SUPPORT. Tests: a smoke test of every well-formedness check, decode, single steps on small states, and for every
obligation with hypotheses a state and operands that meet them. -/

namespace Sys2Proof.Tests

open Sys2Proof Sys2Proof.Machine

/-- Reset with core pair `k` running. -/
def pairUp (k : Nat) : State := State.reset.onPair k fun p => { p with state := 1 }

/-- Reset with the image running. -/
def up : State := State.reset.onPwr fun p => { p with phase := .running }

/-- A setting in force. -/
def withSet (a : Nat) (w : Word) (s : State) : State := s.onCfg fun c => { c with rws := nset c.rws a w 0 }

/-- An image of one clause: AND of the constant 1. -/
def oneClause : Image :=
  { clausesA := [(0, BitVec.ofNat 128 (2 ^ 122 + 20480 * 2 ^ 107 + (2 ^ 90 - 1) * 2 ^ 17))], constsA := [(0, .ofBool true)] }

/-- The same with channel B's conjugate table: an OR, of the complement of 1. -/
def bothClauses : Image :=
  { oneClause with clausesB := [(0, BitVec.ofNat 128 (2 * 2 ^ 122 + 20480 * 2 ^ 107 + (2 ^ 90 - 1) * 2 ^ 17))],
                   constsB := [(0, { val := 0xFFFFE, ok := false })] }

/-- A value as the eight words of a proof, word 0 least significant. -/
def proofWords (v : BitVec 256) : NMap Word := (List.range 8).map fun j => (j, v.extractLsb' (32 * j) 32)

theorem proofWords_value (v : BitVec 256) : ({ proof := proofWords v } : Expert).proofValue = v := by
  have hn : ∀ j < 8, (nget (proofWords v) j 0).toNat = v.toNat / 2 ^ (32 * j) % 2 ^ 32 := by
    intro j hj
    have : nget (proofWords v) j 0 = v.extractLsb' (32 * j) 32 := by interval_cases j <;> rfl
    rw [this, BitVec.extractLsb'_toNat, Nat.shiftRight_eq_div_pow]
  apply BitVec.eq_of_toNat_eq
  show (BitVec.ofNat 256 (forN 8 (fun j n => n + (nget (proofWords v) j 0).toNat * 2 ^ (32 * j)) 0)).toNat = _
  rw [BitVec.toNat_ofNat]
  simp only [forN, hn, Nat.reduceLT]
  have := v.isLt
  generalize v.toNat = n at this ⊢
  omega

/-- Reset with an image loaded, and the host port's proof right for its password. -/
def proven : State :=
  let s := State.reset.onCfg fun c => { c with image := some {} }
  s.onSys fun y => { y with experts := [(4, { proof := proofWords (s.b.proofFor .hif {}) })] }

theorem proven_ok : proven.b.proofOk .hif = true := by
  show (({ proof := proofWords _ } : Expert).proofValue == _) = true
  rw [proofWords_value]
  exact beq_self_eq_true _

/-- The same with a proof that is wrong. -/
def denied : State :=
  let s := State.reset.onCfg fun c => { c with image := some {} }
  s.onSys fun y => { y with experts := [(4, { proof := proofWords (s.b.proofFor .hif {} + 1) })] }

theorem denied_proof : denied.b.proofOk .hif = false := by
  have key : ∀ v : BitVec 256, v + 1 ≠ v := by
    intro v h
    have := congrArg BitVec.toNat h
    rw [BitVec.toNat_add, show (1 : BitVec 256).toNat = 1 from rfl] at this
    have hv := v.isLt
    omega
  show (({ proof := proofWords _ } : Expert).proofValue == _) = false
  rw [proofWords_value]
  exact beq_false_of_ne (key _)

/-- Reset in PROVISIONED with a device key in the vault. -/
def provisioned : State :=
  (State.reset.onOtp fun o => { o with latched := setb o.latched 1 true }).on fun b => { b with key := { b.key with vault := some 5 } }

theorem provisioned_key : provisioned.b.keyUsable = true := by
  have h : ∀ i, provisioned.b.fcl.a.latch.getLsbD i = false := fun i => BitVec.getLsbD_zero
  unfold Blocks.keyUsable
  simp only [h]
  decide

/-- Running, published at 0, the next capture 1 ms away, channel A's sequencer forced to spore `i`. -/
def sporeReady (i : Nat) : State :=
  (up.onSys fun y => { y with period := 1000000 }).onBst fun b => { b with a := { force := true, forceIndex := i } }

theorem sporeDur_le (k : Nat) : sporeDur k ≤ 8000 := by
  unfold sporeDur
  split <;> decide

theorem sporeReady_may (i : Nat) : (sporeReady i).b.mayStart .a i = true := by
  have h := sporeDur_le (kindOf i)
  have hw : (sporeReady i).b.windowOpen i (sporeDur (kindOf i)) = true := by
    unfold Blocks.windowOpen
    dsimp only
    rw [Bool.and_eq_true, Bool.and_eq_true, decide_eq_true_eq]
    refine ⟨⟨rfl, ?_⟩, ?_⟩
    · show 0 + sporeDur (kindOf i) + _ ≤ 0 + 1000000
      split <;> omega
    · split <;> rfl
  unfold Blocks.mayStart
  dsimp only
  rw [hw]
  rfl

/-- The same with spore `r` running, nothing forced. -/
def sporeRuns (r : Running) : State := (sporeReady 0).onBst fun b => { b with a := { running := some r } }

theorem sporeRuns_facts (r : Running) (h0 : r.start = 0) (_ : r.steps = 15) (_ : r.forced = false) :
    let s := sporeRuns r
    (s.b.bst.seq .a).running = some r ∧ (kindOf r.index ≠ 3 → s.b.unaligned r = false) ∧ s.b.outOfTime r = false ∧ (s.b.bst.seq .a).abortRun < 255 ∧
      (s.b.bst.seq .a).shareDone = false ∧ (s.b.bst.seq .a).next + 1 < shareOf .a ∧ s.b.running = true ∧ s.b.dti ≤ s.b.dtiMax ∧
      ((sporeRuns r).on fun b => { b with now := 50000 }).b.outOfTime r = true ∧
      255 ≤ ((sporeRuns r).onBst fun b => { b with a := { b.a with abortRun := 255 } }).b.bst.a.abortRun ∧
      ((sporeRuns r).on fun b => { b with now := 10 ^ 13 }).b.dtiMax < ((sporeRuns r).on fun b => { b with now := 10 ^ 13 }).b.dti := by
  have hd := sporeDur_le (kindOf r.index)
  refine ⟨rfl, fun h => ?_, ?_, show 0 < 255 by decide, rfl, show 0 + 1 < shareOf .a by decide, rfl, Nat.zero_le _, ?_, le_refl _, ?_⟩
  · unfold Blocks.unaligned
    rw [beq_false_of_ne h]
    rfl
  · unfold Blocks.outOfTime
    rw [h0]
    show (decide (0 + sporeDur (kindOf r.index) < 0) || (decide (0 < 0 + 1000000) && decide (0 + 1000000 < 0 + 5000))) = false
    rw [decide_eq_false (by omega), Bool.false_or]
    exact Bool.and_eq_false_iff.2 (.inr (decide_eq_false (show ¬ 0 + 1000000 < 0 + 5000 by omega)))
  · unfold Blocks.outOfTime
    rw [h0]
    show (decide (0 + sporeDur (kindOf r.index) < 50000) || _) = true
    rw [decide_eq_true (by omega)]
    rfl
  · obtain ⟨n, hn⟩ : ∃ n : Nat, n = 10 ^ 13 := ⟨_, rfl⟩
    rw [← hn]
    show ({} : Image).tDtiMaxS * 1000000000 < n - 0
    obtain ⟨m, hm⟩ : ∃ m : Nat, m = 1000000000 := ⟨_, rfl⟩
    rw [← hm, show ({} : Image).tDtiMaxS = 60 from rfl]
    omega

/-- Reset in the life-cycle state that the lowest `k` life-cycle bits stand for: 0 BLANK, 1 MANUFACTURE, 2 PROVISIONED, 3 DEPLOYED. -/
def inLife (k : Nat) : State := State.reset.onOtp fun o => { o with latched := BitVec.ofNat 96 (2 ^ k - 1) }

theorem wordsComplete_reset : ((inLife 1).onSys fun y => { y with experts := [(4, { unlocked := true })] }).b.wordsComplete 5 = true := by
  refine List.all_eq_true.2 fun i _ => ?_
  rfl

/-- A state as `inLife` gives it, with the expert unlock of reader `rd` held. -/
def unlockedIn (k rd : Nat) : State := (inLife k).onSys fun y => { y with experts := [(rd, { unlocked := true })] }

/-- The same with an image that names one owner, and the write-locks of regions 0 to 4 burned. -/
def ownedIn (k rd : Nat) : State :=
  ((unlockedIn k rd).onCfg fun c => { c with image := some { certs := [{ pub := 1 }] } }).onOtp fun o => { o with latched := o.latched ||| 0xF800 }

theorem ownedIn_signed (k rd : Nat) (sig : BitVec 512) (bs : List Byte) (h : ∀ p m g, Config.ecdsaVerify p m g = true) :
    (ownedIn k rd).b.ownerSigned 0 sig bs = true := h _ _ _

theorem unlockedIn_keyBlank : (unlockedIn 1 4).b.keyBlank = true ∧ (unlockedIn 1 4).b.fcl.a.latch.getLsbD 88 = false :=
  ⟨List.all_eq_true.2 fun i hi => by
    unfold Blocks.physOf
    rw [show (256 + i) / 128 = 2 by have := List.mem_range.1 hi; omega]
    rfl, BitVec.getLsbD_zero⟩

/-- Reset with region 4 final, trusting the key of the firmware in slot 8, which is open. -/
def fwReady : State :=
  (State.reset.onOtp fun o => { o with
      latched := 0x8000
      used := (List.range 4).map fun j => (512 + j, { value := (Config.sha256 (beBytes ({} : FwImage).pub.toNat 64)).extractLsb' (64 * (3 - j)) 64 }) }).onCfg fun c =>
    { c with slots := [(8, { fw := some {}, isOpen := true })] }

theorem fwReady_trust (b : Blocks) (d : BitVec 256) (hl : b.otp.latched = 0x8000) (hb : b.regionBad 4 = false)
    (hu : b.otp.used = (List.range 4).map fun j => (512 + j, { value := d.extractLsb' (64 * (3 - j)) 64 })) : b.fwTrust 0 = some d := by
  have hw : ∀ j < 4, (b.wordInUse (512 + 4 * 0 + j)).toNat = d.toNat / 2 ^ (64 * (3 - j)) % 2 ^ 64 := by
    intro j hj
    have : b.wordInUse (512 + 4 * 0 + j) = d.extractLsb' (64 * (3 - j)) 64 := by
      have hs : b.shadowOf (512 + 4 * 0 + j) = none := by
        unfold Blocks.shadowOf Blocks.life
        rw [hl]
        exact if_neg fun k => absurd k.1 (by decide)
      unfold Blocks.wordInUse Blocks.usedWord
      rw [hs, hu]
      interval_cases j <;> rfl
    rw [this, BitVec.extractLsb'_toNat, Nat.shiftRight_eq_div_pow]
  unfold Blocks.fwTrust
  have hk : b.wlock 4 = true := by
    unfold Blocks.wlock Blocks.servedBy
    rw [hl]
    rfl
  rw [hk, hb, if_pos (by decide)]
  refine congrArg some (BitVec.eq_of_toNat_eq ?_)
  rw [BitVec.toNat_ofNat]
  simp only [List.range, List.range.loop, List.foldl, hw, Nat.reduceLT]
  have := d.isLt
  generalize d.toNat = n at this ⊢
  omega

theorem fwReady_loads (h : ∀ p m g, Config.ecdsaVerify p m g = true) : fwReady.b.fwFails 0 = none := by
  have ht : fwReady.b.fwTrust 0 = some (Config.sha256 (beBytes ({} : FwImage).pub.toNat 64)) := fwReady_trust _ _ rfl rfl rfl
  unfold Blocks.fwFails
  rw [show fwReady.b.fwSlotOf 0 = some {} from rfl]
  dsimp only
  rw [if_neg (by decide), ht, if_neg (fun k => k rfl), h, if_neg (by decide), if_neg (by decide)]

/-- A ZN-4408 image that every check of R423 passes. -/
def fine4408 : Image := { magic := 0x5A4E4347, format := 1, target := 1, cellId := 7, generation := 1, length := 4096, sections := [{ kind := 0x20, offset := 1024 }] }

/-- Reset with the expert unlock of port 1 held, and slot 2 open with `im` in it. -/
def holding (im : Option Image) : State :=
  (State.reset.onSys fun y => { y with experts := [(4, { unlocked := true })] }).onCfg fun c => { c with slots := [(2, { image := im, isOpen := true, marks := [{ kind := 1, seq := 3, generation := 1 }] })] }

theorem test_wf_registerWrite : (Instr.registerWrite 0 .hif (2 ^ 32) 4 0).wf = false := by decide
theorem test_wf_stagedWrite : (Instr.stagedWrite 0 .hif 0x40000110 3 0).wf = false := by decide
theorem test_wf_page : (Instr.pageFltLatchClear 0 .hif 0x40000004 0).wf = false := by decide
theorem test_wf_frame : (Instr.frameReceive 0 0 { dst := 1, src := 2, etype := 0x0800, length := 20 }).wf = false := by
  decide
theorem test_wf_linkUp : (Instr.linkUp 0 0 7 false).wf = false := by decide
theorem test_wf_ageing : (Instr.fdbAgeing 0 4096 1).wf = false := by decide
theorem test_wf_push : (Instr.checkpointPush 0 0 .a { kind := 9, retired := 0, digest := 0 }).wf = false := by decide
theorem test_wf_cfw : (Instr.cprCfwWrite 0 (.pair 1) 1 512 0).wf = false := by decide
theorem test_wf_erase : (Instr.blockEraseComplete 0 4096 true).wf = false := by decide
theorem test_wf_rearm : (Instr.rearmComplete 0 129 true true).wf = false := by decide
theorem test_wf_plug : (Instr.plugWriteComplete 0 65536).wf = false := by decide
theorem test_wf_pace : (Instr.paceWindowEnd 0 [100] [100, 100, 100, 100, 100, 100, 100, 100]).wf = false := by decide
theorem test_wf_tj : (Instr.tjThreshold 0 300 20).wf = false := by decide

/-- No word spells a command: the table gives its rows no bits. -/
theorem test_decode_none : decodeTableWord 32 0 = none := by decide

theorem wit_EmptyQueueIdles :
    State.reset.pending = [] := rfl

theorem wit_StepKeepsMemories :
    State.reset.b.memWf = true ∧ step State.reset = .next State.reset := ⟨by decide, rfl⟩

theorem wit_StepTakesNothingBack :
    step State.reset = .next State.reset := rfl

theorem wit_CommandTouches :
    exec (.testPulseEnd 0 0) State.reset = .next State.reset ∧ Part.lio ∉ (Instr.testPulseEnd 0 0).touches := ⟨rfl, by decide⟩

theorem wit_EveryCommandAnswers :
    ∀ t, Instr.fdbAgeing 0 0 0 ≠ .firmwareLoad t := fun _ h => Instr.noConfusion h

theorem wit_TokensGuard_zero :
    (Instr.lioCtrClear 0 .hif 1).issued = some (0, .hif, pLIO, 0) ∧ State.reset.b.speaks .hif = true ∧
      (Instr.lioCtrClear 0 .hif 1).permitted State.reset.b .hif pLIO = true := by decide

theorem wit_TokensGuard_repeat :
    let s := State.reset.keeps .hif pLIO 7 rDone
    (Instr.lioCtrClear 0 .hif 0x00070001).issued = some (0, .hif, pLIO, 7) ∧ s.b.speaks .hif = true ∧
      (Instr.lioCtrClear 0 .hif 0x00070001).permitted s.b .hif pLIO = true ∧ 7 = (s.b.tokenOf pLIO Reader.hif.idx).token := by decide

theorem wit_TokensGuard_right :
    (Instr.lioCtrClear 0 (.pair 1) 0x00070001).issued = some (0, .pair 1, pLIO, 7) ∧
      (pairUp 1).b.speaks (.pair 1) = true ∧ (Instr.lioCtrClear 0 (.pair 1) 0x00070001).permitted (pairUp 1).b (.pair 1) pLIO = false := by decide

theorem wit_TokensGuard_clear :
    (Instr.pageFltLatchClear 0 (.pair 1) (pCPR 1) 0x00070080).issued = some (0, .pair 1, pCPR 1, 7) ∧
      (pairUp 1).b.speaks (.pair 1) = true ∧ (pairUp 1).b.mayWrite (.pair 1) (pCPR 1) = true ∧
      (Instr.pageFltLatchClear 0 (.pair 1) (pCPR 1) 0x00070080).permitted (pairUp 1).b (.pair 1) (pCPR 1) = false := by decide

theorem wit_TokenKeptPerReader :
    tokKey pLIO Reader.hif.idx ≠ tokKey pLIO (Reader.pair 3).idx := by decide

theorem wit_CounterClearsMachine :
    ∀ p ∈ [pLIO, pMEA, pAXS, pSEP, pKIN, pFAB], State.reset.b.takes .hif p (wTok 0x00070001) = true := by decide

theorem wit_CounterClearsLinks :
    (∀ p ∈ [pNET, pSFR, pAGR, pCPR 3, pHIF], State.reset.b.takes .hif p (wTok 0x00070003) = true) ∧
      (pairUp 0).b.takes (.pair 0) (pCVU 15) (wTok 0x00070001) = true ∧ ((pairUp 0).b.cvuOf 15).failed = false := by decide

theorem wit_CounterClearsKeeping :
    ∀ p ∈ [pFCL, pREC, pBST, pPWR], State.reset.b.takes .hif p (wTok 0x00070003) = true := by decide

theorem wit_ClearsQueue :
    State.reset.b.takes .hif pSOG (wTok 0x021080E0) = true ∧ splitAddr (pSOG + 0x14) = some (pSOG, false, 0x14) ∧
      splitAddr (pSOG + 0x100014) = some (pSOG, true, 0x14) ∧ State.reset.b.takes .hif pFCL (wTok 0x021080E0) = true ∧ mayClear .hif = true ∧
      splitAddr 0x50000000 = none := by decide

theorem wit_ClearsQueue_clears :
    let f : Fcl := { a := { latch := setb 0 1 true } }
    let w : Word := 0x02108001
    f.arrivals = [] ∧ f.clears = [] ∧ w.getLsbD 15 = true ∧ w.getLsbD 14 = false ∧ f.a.latch.getLsbD (fld w 8 0) = true ∧
      f.a.live.getLsbD (fld w 8 0) = false ∧ owningPage (fld w 8 0) = (pSYS + 0x14) / 4096 * 4096 := by
  refine ⟨rfl, rfl, by decide, by decide, getLsbD_setb_self _ 1 true (by decide), BitVec.getLsbD_zero, by decide⟩

theorem wit_StagingCommands :
    State.reset.b.takes .hif pSYS 1 = true ∧ (State.reset.b.stagingOf Reader.hif.idx).pending = false := by decide

theorem wit_PendingRefusesStaging :
    let s := State.reset.onStaging Reader.hif.idx fun g => { g with pending := true }
    (s.b.stagingOf Reader.hif.idx).pending = true ∧ splitAddr (pSYS + 0x148) = some (pSYS, false, 0x148) := by decide

theorem wit_FreezeHoldsTheView :
    State.reset.b.takes .hif pSYS 1 = true ∧
      let s := State.reset.onFreeze Reader.hif.idx fun _ => { frozen := true }
      (nget s.b.sys.freezes Reader.hif.idx {}).frozen = true ∧
        (nget s.b.sys.freezes Reader.hif.idx {}).since + 100000000 ≤ max s.b.now 100000000 := by decide

theorem wit_ExpertUnlock :
    State.reset.b.takes .hif pSYS 1 = true ∧ State.reset.b.proofOk .hif = false := by decide

theorem wit_ExpertTimes :
    let s := State.reset.onExpert 4 fun e => { e with unlocked := true, blockedSince := some 5 }
    (nget s.b.sys.experts Reader.hif.idx {}).unlocked = true ∧
      (nget s.b.sys.experts Reader.hif.idx {}).lastWrite + 600000000000 ≤ max s.b.now 600000000000 ∧
      (nget s.b.sys.experts Reader.hif.idx {}).blockedSince = some 5 ∧ 5 + 60000000000 ≤ max s.b.now 60000000005 := by decide

theorem wit_RegisterWrites_staged :
    splitAddr (pBST + 0x104) = some (pBST, false, 0x104) ∧ State.reset.b.reaches .hif pBST = true ∧
      isRws (pBST + 0x104) = true ∧ State.reset.b.mayStage (aView (pBST + 0x104)) = true ∧
      wordFits (rwsFields (aView (pBST + 0x104))) 90 = true ∧ wordFits (rwsFields (aView (pBST + 0x104))) 91 = false ∧
      (State.reset.b.stagingOf Reader.hif.idx).pending = false := by decide

theorem wit_RegisterWrites_own :
    splitAddr (pAXS + 0x118) = some (pAXS, false, 0x118) ∧ State.reset.b.reaches .hif pAXS = true ∧ isRws (pAXS + 0x118) = false ∧
      ownMask (pAXS + 0x118) = some 0xF ∧ isRws (pAXS + 0) = false ∧ splitAddr (pAXS + 0) = some (pAXS, false, 0) := by decide

theorem wit_RegisterWrites_full :
    let l := (List.range 1024).map fun i => (i, (0 : Word))
    1024 ≤ l.length ∧ ∀ x ∈ l, x.1 ≠ pBST + 0x104 := by
  refine ⟨by simp, fun x hx => ?_⟩
  simp only [List.mem_map, List.mem_range] at hx
  obtain ⟨i, hi, rfl⟩ := hx
  simp only [pBST]
  omega

theorem wit_ExpertInjections_made :
    let s := (State.reset.onExpert Reader.hif.idx fun e => { e with unlocked := true }).onOtp fun o => { o with latched := 1 }
    s.b.unlocked .hif = true ∧ s.b.life = .manufacture ∧ (∀ p ∈ [pTRU, pFAB, pAGR, pBST], s.b.reaches .hif p = true) ∧
      fld 0x40001000 31 30 = 1 ∧ isClause (fld 0x40001000 14 0) = true ∧ fld 0x80000000 31 30 > 1 ∧ fld 0x30 5 4 = 3 ∧ fld 0x20 5 4 ≠ 3 := by decide

theorem wit_ExpertInjections_not :
    State.reset.b.unlocked .hif = false ∧ State.reset.b.life ≠ .manufacture := by decide

theorem wit_OnlyTheseChange :
    exec (.fdbAgeing 0 0 0) State.reset = .next State.reset := rfl

theorem wit_CaptureTakesANumber :
    let s := State.reset.onPwr fun p => { p with phase := .running }
    (s.b.running = true ∧ s.b.sys.captured = false) ∧
      let s2 := s.onSys fun y => { y with captured := true, period := 200000 }
      (s2.b.running = true ∧ s2.b.sys.lastCapture + s2.b.sys.period ≤ max s2.b.now 200000) ∧
      ¬ (s2.b.sys.captured = false ∨ s2.b.sys.lastCapture + s2.b.sys.period ≤ max s2.b.now 199999) := by decide

theorem wit_EvaluationCompletes_commit :
    let s := State.reset.onSys fun y => { y with evaluating := true, period := 200000, captured := true, evalB := some 0 }
    (s.b.sys.evaluating = true ∧ s.b.sys.doomed = false ∧ s.b.sys.evalOf .a = none ∧ max s.b.now 194999 < s.b.deadline ∧ s.b.sys.evalOf .b ≠ none ∧
      (State.onSys (fun y => { y with evalB := none }) s).b.sys.evalOf .b = none) ∧
      let x := ({ s with cap := some s.b }.tick 194999).channelDone s.b .a 5
      s.b.disagreement x.b.fab.a x.b.fab.b = none := by decide

theorem wit_EvaluationCompletes_disagree :
    let s := (State.reset.onSys fun y => { y with evaluating := true, period := 200000, captured := true, evalB := some 0 }).onCfg
      fun c => { c with image := some oneClause }
    let x := ({ s with cap := some s.b }.tick 194999).channelDone s.b .a 5
    s.b.disagreement x.b.fab.a x.b.fab.b = some 4096 := by decide

theorem wit_LateSentence :
    let s := State.reset.onSys fun y => { y with evaluating := true, period := 200000, captured := true }
    s.b.sys.evaluating = true ∧ s.b.sys.lastCapture + s.b.sys.period - 5000 ≤ max s.b.now 195000 ∧
      max s.b.now 194999 < s.b.sys.lastCapture + s.b.sys.period - 5000 ∧ s.b.sys.doomed = false ∧ s.b.sys.evalOf .b = none ∧
      s.b.sys.lastCapture + s.b.img.eBound ≤ max s.b.now 200000 ∧ s.b.fcl.cause.getLsbD 1 = false := by
  refine ⟨rfl, ?_, ?_, rfl, rfl, ?_, BitVec.getLsbD_zero⟩ <;> decide

theorem wit_ChannelsAgree :
    let b := (State.reset.onCfg fun c => { c with image := some bothClauses }).b
    (b.clauseRules.all fun r => r.2) = true ∧ b.fab.a.injectKind ≠ 1 ∧ b.fab.b.injectKind ≠ 1 ∧ b.fab.b.clauseSt = b.fab.a.clauseSt ∧
      b.fab.b.fnSt = b.fab.a.fnSt ∧ nget (b.evaluate .b 1).values 4096 {} = { val := 0xFFFFE, ok := false } := by decide

theorem wit_SamplingInstant :
    let s := withSet (pLIO + 0x800) 0x20000003 up
    s.b.running = true ∧ s.b.resetting .lio = false ∧ s.b.resetting .tpg = false ∧ s.b.lioKind 0 ≠ 0 ∧ s.b.lioKind 47 = 0 ∧
      State.reset.b.running = false := by decide

theorem wit_TerminalEvents_lichen :
    let s := ((withSet (pLIO + 0x800) 0x20000003 (withSet (pLIO + 0x804) 1 up)).onLichen 0 fun l => { l with discA := 50 })
    s.b.running = true ∧ s.b.resetting .lio = false ∧ s.b.lioKind 0 ≠ 0 ∧ (s.b.lichen 0).lock = false ∧
      s.b.discSamples 0 ≤ max (s.b.lichen 0).discA (s.b.lichen 0).discB ∧ 0 < max (s.b.lichen 0).discA (s.b.lichen 0).discB := by decide

theorem wit_TerminalEvents_pulse :
    let s := (withSet (pTPG + 0x104) 10 (withSet (pTPG + 0x108) 5 (withSet (pTPG + 0x83C) 100 (withSet (pTPG + 0x10C) 0x8001 up)))).onTpg
      fun g => { g with window := some 15, periodAt := some 0 }
    s.b.pulsing = true ∧ s.b.tpoEnabled.getLsbD 15 = true ∧ s.b.tpoEnabled.getLsbD 0 = true ∧ s.b.tpg.window = some 15 ∧
      s.b.tpg.on.getLsbD 15 = false ∧ s.b.tpg.pulseAt + s.b.tpoWidth 15 + s.b.tpgSettle ≤ max s.b.now 30000000 ∧
      max s.b.now 0 < s.b.tpg.pulseAt + s.b.tpoWidth 15 ∧ (s.tick 0).b.inSlot 15 false = false := by decide

theorem wit_ReadbackDifferences_times :
    let s := (up.onSog fun o => { o with a := { o.a with diffAt := [(0, some 0)] } }).onSto fun o => { o with b := { o.b with diffAt := [(15, some 0)] } }
    s.b.running = true ∧ s.b.resetting .sog = false ∧ s.b.resetting .sto = false ∧ (s.b.sog.stage .a).overdue 0 (max s.b.now 1) (s.b.tRb 0) = true ∧
      (s.b.sto.stage .b).overdue 15 (max s.b.now 1) (s.b.tStf 15) = true ∧ setb (s.b.sog.stage .a).diff 0 true ≠ 0 := by decide

theorem wit_ReadbackDifferences_dark :
    let s := ((withSet (pSOG + 0x800) 0x801E0064 up).onCfg fun c => { c with dry := false }).onSog fun o => { o with committed := 1, dark := [(0, { firstOne := some 0 })] }
    let e := s.onSog fun o => { o with dark := [(0, { firstOne := some 0, active := some .a, missA := 1 })] }
    let f := s.onSog fun o => { o with dark := [(0, { firstOne := some 0, active := some .b, seenZero := some 5 })] }
    (s.tick 0).b.darkMay 0 = true ∧ (e.tick 300000).b.darkOver 0 = true ∧ (nget e.b.sog.dark 0 {}).active = some .a ∧
      (nget e.b.sog.dark 0 {}).seenZero = none ∧ 1 ≤ (nget e.b.sog.dark 0 {}).misses .a ∧
      (f.tick 10005).b.darkOver 0 = true ∧ (nget f.b.sog.dark 0 {}).active = some .b ∧ (nget f.b.sog.dark 0 {}).seenZero.isSome = true := by decide

theorem wit_MotionSamples :
    let s := withSet (pMEA + 0x900) 4 (withSet (pMEA + 0x104) 0xFFFF (withSet (pAXS + 0xBC0) 0x80000000 up))
    s.b.running = true ∧ s.b.resetting .mea = false ∧ s.b.resetting .axs = false ∧ s.b.encOn 15 = true ∧ s.b.axEn 15 = true ∧ 0 < s.b.ainN 0 ∧
      ((s.b.enc 15).primed 1000 1000).combine 1000 1000 ≠ none ∧
      (State.onAin 0 (fun x => { x with diffAt := some 0 }) s).b.ain 0 = { (s.b.ain 0) with diffAt := some 0 } := by decide

theorem wit_AxesAfterUpdate :
    let s := (withSet (pAXS + 0x800) 0x80000000 up).onAxis 0 fun x => { x with missA := true }
    s.b.running = true ∧ s.b.resetting .axs = false ∧ s.b.axEn 0 = true ∧ s.b.axEn 15 = false ∧ (s.b.axis 0).missA = true ∧
      State.reset.b.running = false := by decide

theorem wit_SeparationEvents :
    let s := (withSet (pSEP + 0x800) 0x80000000 (up.onCfg fun c => { c with image := some { sep := some {} } })).onSep fun p =>
        { p with building := some {}, builtA := true, builtB := false, update := some { sentence := 1, start := 0, basis := none, posA := [], posB := [], agreedAxes := [], doneB := true } }
    s.b.sepOn = true ∧ s.b.grid = some {} ∧ s.b.sep.building = some {} ∧ s.b.sep.builtB = false ∧ s.b.sep.buildStart + 1900000 ≤ max s.b.now 1900000 ∧
      s.b.sep.update = some { sentence := 1, start := 0, basis := none, posA := [], posB := [], agreedAxes := [], doneB := true } ∧ s.b.chainEn 0 = true ∧ s.b.chainEn 3 = false ∧
      0 + s.b.tsNs ≤ max s.b.now 250000 ∧ (State.onSep (fun p => { p with builtB := true, fresh := true }) s).b.sep.fresh = true := by decide

theorem wit_SeparationEvents_redo :
    let s := (withSet (pSEP + 0x800) 0x80000000 (up.onCfg fun c => { c with image := some { sep := some {} } })).onSep fun p =>
        { p with redo := some ({ sentence := 1, start := 0, basis := none, posA := [], posB := [], agreedAxes := [] }, []) }
    s.b.sepOn = true ∧ s.b.grid = some {} ∧ s.b.chainEn 0 = true ∧ s.b.sep.update = none ∧ s.b.sep.redo.isSome = true := by decide

theorem wit_FramesStayInTheirVlan :
    let s := (withSet (pPORT 0 + 0x104) 0x90000001 up).onPort 0 fun x => { x with up := true }
    s.b.netOn = true ∧ s.b.portUp 0 = true ∧ s.b.portUp 6 = true ∧ s.b.running = true ∧
      badFrame { dst := 1, src := 2, etype := 0x8808, length := 64 } = true ∧ badFrame { dst := 1, src := 2, etype := 0x0800, length := 64 } = false ∧
      s.b.netCfg.ipv4 = 0 ∧ s.b.netCfg.ipv6 = 0 := by decide

theorem wit_LinksAndGates :
    let s := withSet (pPORT 0 + 0x104) 0x90000001 up
    s.b.portEn 0 = true ∧ s.b.rateFits 0 1000 = true ∧ s.b.rateFits 0 2500 = false ∧ s.b.netOn = true ∧ s.b.tsyRole ≠ 1 ∧ s.b.portEn 5 = false ∧ s.b.tsy.cellValid = false ∧
      gateAt { cycle := 100, base := 0, entries := [(0xFF, 50), (1, 50)] } 260 = some (200, 60) ∧
      ({ since := 150 } : GateSt).since ≤ 200 := by decide

theorem wit_LinksAndGates_running :
    let s := (((withSet (pPORT 0 + 0x104) 0x90000001 up).onTsy fun y => { y with cellValid := true }).onCfg fun c =>
      { c with image := some { (oneClause : Image) with net := { ageingS := 300, cb := [(0, { recover := true, members := [1, 2], resetMs := 1 })], gcl := [(0, { cycle := 100, base := 0, entries := [(1, 100)] })] } } }).onNet fun n =>
      { n with cb := [(0, { memberAt := [(2, 1000000)] })] }
    s.b.netOn = true ∧ s.b.tsy.cellValid = true ∧ (nget s.b.netCfg.gcl 0 {}).entries ≠ [] ∧ (nget s.b.netCfg.cb 0 {}).recover = true ∧
      1 ∈ (nget s.b.netCfg.cb 0 {}).members ∧ 2 ∈ (nget s.b.netCfg.cb 0 {}).members ∧ nget (nget s.b.net.cb 0 {}).memberAt 2 0 = 1000000 := by decide

theorem wit_CombinationalOperators :
    let a : List NV := [.ofBool true, .num 5 true]
    a ≠ [] ∧ (NV.num 3 true).int = 3 ∧ (-3 : Int) * 2 ^ (1 % 32) ≤ -5 ∧ (-5 : Int) < (-3 + 1) * 2 ^ (1 % 32) ∧ a[1]? = some (.num 5 true) := by decide

theorem wit_PinsFollowCommittedValues :
    State.reset.b.pwr.phase ≠ .running := by decide

theorem wit_TimeMessages :
    let s := (withSet (pPORT 0 + 0x104) 0x90000001 up).onPort 0 fun x => { x with up := true, asCapable := true }
    s.b.running = true ∧ s.b.portUp 0 = true ∧ (s.b.port 0).asCapable = true ∧ (s.b.port 1).asCapable = false ∧ s.b.portUp 1 = false ∧ s.b.slaveNow = none ∧ s.b.tsyRole = 0 ∧ s.b.portRole 0 = 1 := by decide

theorem wit_TimeMessages_role1 :
    let s := withSet (pTSY + 0x104) 0x40000000 ((withSet (pPORT 0 + 0x104) 0x90000001 up).onPort 0 fun x => { x with up := true, asCapable := true })
    let m : Announce := { priority1 := 1, clockClass := 6, accuracy := 0x20, variance := 0, priority2 := 1, gmId := 5, steps := 0 }
    let s' := s.onTsy fun y => { y with best := some m, bestPort := 0 }
    let w := s.onPort 0 fun x => { x with heard := some m }
    let v := s'.onPort 0 fun x => { x with heard := some m }
    s.b.running = true ∧ s.b.portUp 0 = true ∧ (s.b.port 0).asCapable = true ∧ s.b.tsyRole = 1 ∧ s.b.tsy.best = none ∧ s.b.portRole 0 = 1 ∧
      w.b.elected = some (0, m) ∧ s.b.elected = none ∧ s'.b.slaveNow = some 0 ∧ s'.b.portRole 0 ≠ 1 ∧ (v.b.port 0).heard = some m := by decide

theorem wit_TimeMessages_role2 :
    let s := withSet (pTSY + 0x104) 0x80000000 ((withSet (pPORT 0 + 0x104) 0x90000001 up).onPort 0 fun x => { x with up := true, asCapable := true })
    let s' := s.onCfg fun c => { c with image := some { (oneClause : Image) with net := { slavePort := some 0 } } }
    1 < s'.b.tsyRole ∧ s'.b.netCfg.slavePort = some 0 ∧ s'.b.running = true ∧ s'.b.portUp 0 = true ∧ (s'.b.port 0).asCapable = true := by decide

theorem wit_CellTimeCommands :
    let s := up.onTsy fun y => { y with holdover := some 0 }
    s.b.takes .debug pTSY 1 = true ∧ s.b.isGm = true ∧ s.b.tsy.cellValid = false ∧ s.b.tsy.tInitGone = false ∧
      s.b.tsyRole ≠ 1 ∧ s.b.tsy.floorCell ≤ 0 ∧ (s.b.rw (pTSY + 0x120)).toInt.natAbs ≤ 1000000000 ∧ (s.b.rw (pTSY + 0x114)).toNat < 1000000000 := by decide

theorem wit_CellTimeCommands_lost :
    let s := withSet (pTSY + 0x104) 0x40000000 (up.onTsy fun y => { y with best := some { priority1 := 1, clockClass := 6, accuracy := 0x20, variance := 0, priority2 := 1, gmId := 5, steps := 0 } })
    let s := s.onTru fun u => { u with aRunning := true }
    let e := (up.onFcl fun f => { f with arrivals := [⟨404, true, mkw 0, none, 0, none⟩] }).onTsy fun y => { y with cellValid := true }
    (e.b.isGm = true ∧ e.b.floorInRound = true ∧ e.b.tsy.cellValid = true) ∧
    s.b.running = true ∧ s.b.tsyRole = 1 ∧ s.b.slaveNow = some 0 ∧ s.b.tsy.holdover = none ∧ s.b.isGm = false ∧ s.b.tru.aRunning = true ∧
      s.b.tsy.lastSync + s.b.receiptCount * s.b.syncIntervalNs ≤ 4000000000 := by decide

theorem wit_SafeFrameDecisions :
    up.b.running = true ∧ up.b.resetting .sfr = false ∧ (up.b.dataDecision .a []).1.isNone = true ∧
      (up.b.dataDecision .b []).1.isNone = true := by decide

theorem wit_SafeFrameDecisions_session :
    let s := (up.onCfg fun c => { c with image := some { (oneClause : Image) with cons := [(3, { id := 77, len := 1 })] } }).onCons 3 fun r => { r with state := 1 }
    let head : List Byte := [1, 1, 0, 77, 0, 1, 0, 0, 0, 0, 0, 0, 0, 0, 0, 0, 0, 1, 0, 0, 9, 9, 9, 9]
    let bs := head ++ beBytes (crc32c (virtualHeader 77 0 s.b.img.cellId ++ head)).toNat 4
    s.b.running = true ∧ (s.b.dataDecision .a bs).1.map (·.1) = some 3 ∧ (s.b.dataDecision .a bs).2 = .noTime ∧
      (s.b.dataDecision .b bs).1.map (·.1) = some 3 ∧ (s.b.dataDecision .b bs).2 = .noTime ∧ (s.b.dataDecision .a (bs.set 20 8)).2 = .crc := by decide +kernel

theorem wit_BulkFramesAndSetup :
    let s := (up.onCfg fun c => { c with image := some { (oneClause : Image) with cons := [(3, { id := 77, len := 1 })] } }).onCons 3 fun r => { r with state := 1 }
    s.b.running = true ∧ s.b.resetting .sfr = false ∧ (s.b.bulkStep .a []).session.isNone = true ∧ (s.b.bulkStep .b []).session.isNone = true ∧
      (s.b.bulkStep .a []).decision = (s.b.bulkStep .b []).decision ∧ (s.b.consCfg 3).isSome = true ∧ (s.b.consOf 3).state = 1 ∧
      State.reset.b.takes .hif pSFR (wTok 0x00010003) = true ∧ s.b.prodCfg 3 = none := by decide

theorem wit_PairsActTogether :
    let e : Entry := { kind := 1, retired := 5, digest := 7 }
    let s := (pairUp 1).onPair 1 fun p => { p with a := { p.a with queue := [(0, e)] }, b := { p.b with queue := [(0, e)] } }
    (State.reset.b.pairOf 1).state = 0 ∧ State.reset.b.pairProgram 1 = none ∧ up.b.running = true ∧ (s.b.pairOf 1).state = 1 ∧
      State.reset.b.cprReset 1 = false ∧ s.b.inputWaits 1 .a e = false ∧ entryKind e.kind = true ∧ (s.b.pairOf 1).holdsBack .a e.kind = false ∧ (s.b.pairOf 1).oldest = some 0 ∧
      (s.b.pairOf 1).a.queue.length = 1 ∧ (s.b.pairOf 1).b.queue.length = 1 ∧ s.b.agr.injectKind ≠ 2 ∧ e.bad = false := by decide

theorem wit_PairsActTogether_image :
    let s := ((pairUp 1).onPwr fun p => { p with phase := .running }).onCfg fun c => { c with image := some { (oneClause : Image) with pairs := [(1, { tAlive := 2, program := some [(0, 1)] })] } }
    let bytes : List Byte := [0, 0, 0, 0, 0, 0, 0, 0, 0, 0, 0, 1, 0, 0]
    s.b.running = true ∧ (s.b.pairOf 1).state = 1 ∧ (s.b.pairOf 1).aliveExp = false ∧ (s.b.pairCfg 1).tAlive ≠ 0 ∧
      s.b.pairProgram 1 = some [(0, 1)] ∧ (parseFrame bytes).dst = (s.b.pairCfg 1).mac ∧ (parseFrame bytes).etype = (s.b.pairCfg 1).etype := by decide

theorem wit_PairRegistersAndDebug :
    let s := ((pairUp 1).onPair 1 fun p => { p with a := { p.a with halted := true } }).onCfg fun c => { c with image := some { (oneClause : Image) with pairs := [(1, { cfwCount := 4, size := 1 })] } }
    (pairUp 2).b.speaks (.pair 2) = true ∧ (s.b.pairOf 1).state = 1 ∧ ((5#32).truncate 20).signExtend 32 = 5#32 ∧ 3 < (s.b.pairCfg 1).cfwCount ∧
      s.b.takes (.pair 1) (pCPR 1) (wTok 0x00050003) = true ∧ ((s.b.pairOf 1).core .a).halted = true ∧ s.b.debugOn = true ∧ (s.b.pairOf 1).memA = (s.b.pairOf 1).memB ∧
      ¬ (fld 64 13 0 < 64 ∨ 9216 < fld 64 13 0 ∨ (s.b.pairCfg 1).size * 65536 < fld 64 30 14 * 64 + fld 64 13 0) := by decide

theorem wit_PairRegistersAndDebug_off :
    (State.reset.onOtp fun o => { o with latched := setb o.latched 5 true }).b.debugOn = false := by decide

theorem wit_CheckValueUnits :
    let s := (pairUp 0).onCvu 3 fun c => { c with poly := 3 }
    s.b.reaches (.pair 0) (pCVU 3) = true ∧ (s.b.cvuOf 3).failed = false ∧ (s.b.cvuOf 3).poly ≠ 0 ∧ (s.b.cvuOf 3).armed = false ∧
      ((s.onCvu 3 fun c => { c with failed := true }).b.cvuOf 3).failed = true ∧ ((pairUp 0).b.cvuOf 3).poly = 0 ∧ fld 0x25 2 0 ≤ 5 ∧ (0x25#32).getLsbD 5 = true ∧
      (let a := s.onCvu 3 fun c => { c with armed := true, maxSkip := 3, last := 9 }
       (a.b.cvuOf 3).armed = true ∧ ¬ (1 ≤ (fld 9 15 0 + 65536 - 9) % 65536 ∧ (fld 9 15 0 + 65536 - 9) % 65536 ≤ 3) ∧ (fld 12 15 0 + 65536 - 9) % 65536 = 3) := by decide

theorem wit_FaultRounds_round :
    let x := ((State.reset.raise 450).tick 5).b
    x.fcl.roundOpen = true ∧ x.fcl.clears = [] ∧ x.effSev 450 ≤ 3 ∧ srcCond 450 = false ∧ (∃ y ∈ x.fcl.arrivals, y.id = 450 ∧ y.up = true) := by decide

theorem wit_FaultRounds_rest :
    let x := up.onFcl fun f => { f with rearm := 1 }
    x.b.fcl.rearm = 1 ∧ x.b.fcl.selfCode = 0 ∧ ((4 : Fin 6).val ≠ 0) ∧ (x.onCfg fun c => { c with image := some { errAlive := true } }).b.img.errAlive = true := by decide

theorem wit_ResetsAndSupply :
    let a := up.on fun b => { b with inReset := [.cvu 3] }
    let c := up.onFcl fun f => { f with chipResetDue := some 0 }
    let d := up.onPwr fun p => { p with powerDown := true }
    let e := up.onPwr fun p => { p with phase := .powerOnReset }
    let g := up.onPwr fun p => { p with phase := .resetHeld }
    a.b.resetting (.cvu 3) = true ∧ c.b.fcl.chipResetDue.isSome = true ∧ c.b.pwr.powerDown = false ∧ c.b.pwr.phase ≠ .powerOnReset ∧ c.b.pwr.phase ≠ .resetHeld ∧
      d.b.pwr.powerDown = true ∧ (d.onRecd fun r => { r with accepting := false }).b.recd.accepting = false ∧ e.b.pwr.phase = .powerOnReset ∧ g.b.pwr.phase = .resetHeld ∧
      ¬ ((railLimits .vio).1.1 ≤ 3134 ∧ 3134 ≤ (railLimits .vio).1.2) := by decide

theorem wit_StartUp_first :
    let a := State.reset.onPwr fun p => { p with phase := .released }
    let b := (State.reset.onPwr fun p => { p with phase := .fiddled }).b
    a.b.pwr.phase = .released ∧ b.pwr.phase = .fiddled ∧ b.lcs.scanOpen = false ∧ b.fwChosen = none ∧
      (State.reset.onTru fun u => { u with aRunning := true, bRunning := true }).b.tru.aRunning = true := by decide

theorem wit_StartUp_counter :
    let x := (((State.reset.onPwr fun p => { p with fwLoaded := true, fwSec := 3 }).onCfg fun c => { c with image := some {}, dry := false }).onOtp fun o =>
        { o with latched := 1 }).b
    x.pwr.fwLoaded = true ∧ x.cfg.image.isSome = true ∧ x.cfg.dry = false ∧ x.life ≠ .blank ∧ x.cntValue 0 < x.pwr.fwSec ∧ x.cntExhausted 0 = false := by decide

theorem wit_StartUp_firmware :
    (∀ p m g, Config.ecdsaVerify p m g = true) → let b := (fwReady.onPwr fun p => { p with phase := .fiddled }).b
    b.pwr.phase = .fiddled ∧ b.lcs.scanOpen = false ∧ b.fwChosen = some 0 ∧ b.fwSlotOf 0 = some {} ∧ ({} : FwImage).major = 1 ∧ ({ major := 2 } : FwImage).major ≠ 1 := by
  intro h
  have e : (fwReady.onPwr fun p => { p with phase := .fiddled }).b.fwFails 0 = none := fwReady_loads h
  refine ⟨rfl, rfl, ?_, rfl, rfl, by decide⟩
  unfold Blocks.fwChosen
  rw [show (fwReady.onPwr fun p => { p with phase := .fiddled }).b.fwOrder = [0, 1] from rfl, List.find?_cons_of_pos (by rw [e]; rfl)]

theorem wit_RecorderStore :
    let y : Record := {}
    let s := State.reset.onRecd fun r => { r with headFound := true, buffer := [{ y with seq := 1 }] }
    let v := State.reset.onRecd fun r => { r with headFound := true, nextPinned := 32768, buffer := [{ y with seq := 1 }], nand := [(32768, some { record := y, marked := true })] }
    s.b.nandOn = true ∧ s.b.recd.accepting = true ∧ s.b.recd.buffer = [{ y with seq := 1 }] ∧ s.b.recd.needsErase = false ∧
      s.b.recd.failsInRow < 2 ∧ 2 ≤ (s.onRecd fun r => { r with failsInRow := 2 }).b.recd.failsInRow ∧
      v.b.nandOn = true ∧ v.b.recd.needsErase = true ∧ slotBlock (v.b.recd.slotFor 1) = 256 ∧
      State.reset.b.recd.headFound = false ∧ (State.reset.onTru fun u => { u with aRunning := true }).b.tru.aRunning = true := by decide

theorem wit_RecorderCommands :
    let s := State.reset.onRecd fun r => { r with exports := [(4, { count := 3 })] }
    let v := State.reset.onRecd fun r => { r with exports := [(4, { state := 1 })], clearErasing := true }
    s.b.reaches .hif pREC = true ∧ s.b.takes .hif pREC 1 = true ∧ (Reader.port .debug) = 3 ∧ Reader.hif.port ≠ 3 ∧ s.b.takes .debug pREC (wTok 0x00010001) = true ∧
      s.b.takes .hif pREC (wTok 0x00010003) = true ∧ fld 0x00010003 1 0 = 3 ∧ s.b.takes .hif pREC (wTok 0x00010001) = true ∧ fld 0x00010001 1 0 = 1 ∧
      s.b.recd.isVolatile = false ∧ s.b.recd.clearErasing = false ∧ s.b.proofOk .hif = false ∧ v.b.recd.clearErasing = true ∧
      (nget State.reset.b.recd.exports 4 {}).count < 1 ∧ (nget s.b.recd.exports 4 {}).count = 3 ∧ (nget s.b.recd.exports 4 {}).state ≠ 1 ∧ s.b.keyUsable = false ∧
      (nget v.b.recd.exports 4 {}).state = 1 := by decide

theorem wit_RecorderCommands_signed :
    let s := (provisioned.onRecd fun r => { r with exports := [(4, { count := 3 })] })
    s.b.keyUsable = true ∧ s.b.takes .hif pREC 1 = true ∧ (nget s.b.recd.exports 4 {}).count = 3 := ⟨provisioned_key, by decide, by decide⟩

theorem wit_RecorderCommands_cleared :
    let s := proven
    s.b.proofOk .hif = true ∧ s.b.takes .hif pREC (wTok 0x00010001) = true ∧ s.b.recd.isVolatile = false ∧ s.b.recd.clearErasing = false := by
  exact ⟨proven_ok, show State.reset.b.takes .hif pREC (wTok 0x00010001) = true by decide, rfl, rfl⟩

theorem wit_Spores_start :
    (sporeReady 5).b.mayStart .a 5 = true ∧ ((sporeReady 5).b.bst.seq .a).due .a = some 5 ∧
      State.reset.b.mayStart .a 5 = false := ⟨sporeReady_may 5, rfl, rfl⟩

theorem wit_Spores :
    ∀ r : Running, r.start = 0 → r.steps = 15 → r.forced = false →
      let s := sporeRuns r
      (s.b.bst.seq .a).running = some r ∧ (kindOf r.index ≠ 3 → s.b.unaligned r = false) ∧ s.b.outOfTime r = false ∧ (s.b.bst.seq .a).abortRun < 255 ∧
        (s.b.bst.seq .a).shareDone = false ∧ (s.b.bst.seq .a).next + 1 < shareOf .a ∧ s.b.running = true ∧ s.b.dti ≤ s.b.dtiMax ∧
        ((sporeRuns r).on fun b => { b with now := 50000 }).b.outOfTime r = true ∧
        255 ≤ ((sporeRuns r).onBst fun b => { b with a := { b.a with abortRun := 255 } }).b.bst.a.abortRun ∧
        ((sporeRuns r).on fun b => { b with now := 10 ^ 13 }).b.dtiMax < ((sporeRuns r).on fun b => { b with now := 10 ^ 13 }).b.dti := sporeRuns_facts

theorem wit_Antifuses :
    let s := (inLife 1).onSys fun y => { y with experts := [(4, { unlocked := true })] }
    let busy := s.onOtp fun o => { o with session := some { op := 1, target := 640, first := 640, data := [5], reader := 4, token := 9 } }
    let w : Word := 0x00010005
    s.b.takes .hif pOTP (wTok w) = true ∧ s.b.otp.session = none ∧ s.b.lcs.op = none ∧ Reader.hif.port ∈ [0, 1, 3] ∧ (Reader.mgmt 0).port ∉ [0, 1, 3] ∧
      s.b.takes (.mgmt 0) pOTP (wTok w) = true ∧ s.b.unlocked .hif = true ∧ (inLife 1).b.unlocked .hif = false ∧ busy.b.otp.session ≠ none ∧ busy.b.otp.waiting = [] ∧
      s.b.physOf s.b.otp.progAddr = some 0 ∧ s.b.lifeMayBurn 0 = true ∧ s.b.wlockBurned 0 = false ∧ (s.b.wordAt 0).blank = true ∧
      fld w 3 0 = 5 ∧ s.b.servedBy 5 = some 5 ∧ s.b.physOf (digestAt 5) = some 764 ∧ s.b.wlockBurned 5 = false ∧ (∀ i, i < 4 → (s.b.wordAt (764 + i)).blank = true) ∧
      s.b.life = .manufacture ∧ s.b.burned 48 = false ∧ s.b.freeSpare = some 12 ∧ fld 0x0001000C 3 0 = 12 ∧
      fld w 8 0 < 288 ∧ 288 ≤ fld 0x000101FF 8 0 ∧ s.b.lifeMayBurn 11 = true ∧ s.b.wlockBurned 11 = false ∧ s.b.freeRedirect = some 1280 ∧
      s.b.lifeMayBurn 10 = true ∧ s.b.wlockBurned 10 = false ∧ s.b.reaches .hif pOTP = true ∧ fld w 10 0 < 1536 ∧ 1536 ≤ fld 0x7FF 10 0 := by decide

theorem wit_Antifuses_words :
    ((inLife 1).onSys fun y => { y with experts := [(4, { unlocked := true })] }).b.wordsComplete 5 = true := wordsComplete_reset

theorem wit_LifeCycleCommands :
    let w : Word := 0x00010000
    let busy := (unlockedIn 1 4).onLcs fun l => { l with op := some 1 }
    (unlockedIn 1 4).b.takes .hif pLCS (wTok w) = true ∧ (unlockedIn 1 4).b.otp.session = none ∧ (unlockedIn 1 4).b.lcs.op = none ∧ busy.b.lcs.op ≠ none ∧
      busy.b.takes .hif pLCS (wTok w) = true ∧ (unlockedIn 1 4).b.lcsFrom 1 = false ∧ fld (0x00014000 : Word) 15 14 = 1 ∧ fld w 15 14 = 0 ∧
      ((unlockedIn 0 4).b.lcsFrom 1 = true ∧ Reader.hif.port ∈ lcsPorts 1 ∧ (unlockedIn 0 4).b.pwr.powerDown = false ∧
        nget (unlockedIn 0 4).b.lcs.blocked Reader.hif.port none = none ∧ (unlockedIn 0 4).b.unlocked .hif = true ∧ (inLife 0).b.unlocked .hif = false ∧
        (unlockedIn 0 4).b.regionBad 0 = false ∧ (unlockedIn 0 4).b.regionBad 1 = false ∧ (unlockedIn 0 4).b.takes .hif pLCS (wTok w) = true ∧
        ((unlockedIn 0 4).onOtp fun o => { o with torn := [1] }).b.regionBad 1 = true) ∧
      ((unlockedIn 1 4).b.lcsFrom 2 = true ∧ (unlockedIn 1 4).b.lcsFrom 3 = true ∧ Reader.hif.port ∈ lcsPorts 2 ∧ Reader.hif.port ∈ lcsPorts 3 ∧
        (unlockedIn 1 4).b.unlocked .hif = true ∧ (unlockedIn 1 4).b.key.vault = none ∧
        ((unlockedIn 1 4).on fun b => { b with key := { b.key with vault := some 5 } }).b.key.vault.isSome = true ∧ (unlockedIn 1 4).b.key.certLen ≤ 992) ∧
      ((unlockedIn 1 9).b.lcsFrom 7 = true ∧ (Reader.port .debug) ∈ lcsPorts 7 ∧ (unlockedIn 1 9).b.unlocked .debug = true ∧ (unlockedIn 1 9).b.takes .debug pLCS (wTok w) = true) := by decide

theorem wit_LifeCycleCommands_blank :
    (unlockedIn 1 4).b.keyBlank = true ∧ (unlockedIn 1 4).b.fcl.a.latch.getLsbD 88 = false := unlockedIn_keyBlank

theorem wit_LifeCycleCommands_owner :
    (∀ p m g, Config.ecdsaVerify p m g = true) → let w : Word := 0x00018000
    fld w 15 14 = 2 ∧ fld w 13 12 = 0 ∧ (∀ sig bs, (ownedIn 2 5).b.ownerSigned 0 sig bs = true ∧ (ownedIn 3 9).b.ownerSigned 0 sig bs = true) ∧
      ((ownedIn 2 5).b.lcsFrom 4 = true ∧ (ownedIn 2 5).b.lcsFrom 5 = true ∧ (Reader.mgmt 0).port ∈ lcsPorts 4 ∧ (Reader.mgmt 0).port ∈ lcsPorts 5 ∧
        (ownedIn 2 5).b.pwr.powerDown = false ∧ nget (ownedIn 2 5).b.lcs.blocked (Reader.mgmt 0).port none = none ∧ (ownedIn 2 5).b.unlocked (.mgmt 0) = true ∧
        (ownedIn 2 5).b.takes (.mgmt 0) pLCS (wTok w) = true ∧ (ownedIn 2 5).b.mayDeploy = true ∧ (ownedIn 2 5).b.cfg.image.isSome = true ∧
        (ownedIn 2 5).b.img.certs ≠ [] ∧ (unlockedIn 2 5).b.mayDeploy = false ∧ (unlockedIn 2 5).b.cfg.image = none) ∧
      ((ownedIn 3 9).b.lcsFrom 6 = true ∧ (Reader.port .debug) ∈ lcsPorts 6 ∧ (ownedIn 3 9).b.pwr.powerDown = false ∧
        nget (ownedIn 3 9).b.lcs.blocked (Reader.port .debug) none = none ∧ (ownedIn 3 9).b.unlocked .debug = true ∧ (ownedIn 3 9).b.takes .debug pLCS (wTok w) = true) := fun h => ⟨by decide, by decide, fun sig bs => ⟨ownedIn_signed 2 5 sig bs h, ownedIn_signed 3 9 sig bs h⟩, by decide, by decide⟩

theorem wit_LifeCycleEnds :
    let w : Word := 0x00010001
    let rb := (inLife 1).onLcs fun l => { l with op := some 3 }
    let bl := (inLife 1).onLcs fun l => { l with blocked := [(1, some 0)] }
    rb.b.lcs.op = some 3 ∧ rb.b.otp.waiting = [] ∧ nget bl.b.lcs.blocked Reader.hif.port none = some 0 ∧ 0 + 60000000000 ≤ (bl.tick 60000000000).b.now ∧
      (bl.tick 59999999999).b.now < 0 + 60000000000 ∧ nget (inLife 1).b.lcs.blocked Reader.hif.port none = none ∧
      (inLife 1).b.takes .hif pKEY (wTok w) = true ∧ w.getLsbD 0 = true ∧ (0x00010000 : Word).getLsbD 0 = false ∧ (inLife 1).b.keyUsable = false ∧
      (nget ((inLife 1).onAtt 4 fun a => { a with running := true }).b.key.att Reader.hif.idx {}).running = true ∧
      (nget (inLife 1).b.key.att Reader.hif.idx {}).running = false := by decide

theorem wit_LifeCycleEnds_key :
    provisioned.b.keyUsable = true ∧ provisioned.b.lcs.op = none ∧ provisioned.b.takes .hif pKEY (wTok 0x00010001) = true ∧
    (provisioned.onAtt 4 fun a => { a with running := true }).b.keyUsable = true := ⟨provisioned_key, rfl, by decide, provisioned_key⟩

theorem wit_ConfigCommands :
    let w : Word := 0x00012000
    let s := holding none
    let busy := s.onCfg fun c => { c with image := some {}, slot := 2 }
    let stop := State.reset.onPwr fun p => { p with phase := .stopped, stoppedStep := 7 }
    let runs := s.onPwr fun p => { p with phase := .running }
    let odd := s.onCfg fun c => { c with uploads := [(4, { off := 1 })] }
    s.b.takes .hif pCFG (wTok w) = true ∧ fld w 15 12 = 2 ∧ fld (0x0001A000 : Word) 15 12 = 10 ∧ fld (0x00018000 : Word) 15 12 = 8 ∧
      State.reset.b.takes .hif pCFG (wTok w) = true ∧ Reader.hif.port ≠ 3 ∧ s.b.unlocked .hif = true ∧ State.reset.b.unlocked .hif = false ∧
      State.reset.b.pwr.phase ≠ .stopped ∧ stop.b.pwr.phase = .stopped ∧ stop.b.pwr.stoppedStep = 7 ∧ stop.b.life ≠ .deployed ∧ Reader.hif.port = 1 ∧
      stop.b.takes .hif pCFG (wTok w) = true ∧ busy.b.takes .hif pCFG (wTok w) = true ∧ busy.b.slotBusy 2 = true ∧ s.b.slotBusy 2 = false ∧
      (nget s.b.cfg.slots 2 {}).isOpen = true ∧ (nget s.b.cfg.slots 3 {}).isOpen = false ∧ (nget s.b.cfg.uploads 4 {}).off = 0 ∧ (nget odd.b.cfg.uploads 4 {}).off % 256 ≠ 0 ∧
      (nget (s.onCfg fun c => { c with uploads := [(4, { off := 8386560 - 256 })] }).b.cfg.uploads 4 {}).off + 256 = 8386560 ∧
      s.b.cfg.loadDue = none ∧ s.b.cfg.loading = none ∧ (nget s.b.cfg.slots 2 {}).marks ≠ [] ∧ runs.b.running = true ∧ s.b.running = false ∧
      (runs.onCfg fun c => { c with acceptState := 1 }).b.cfg.acceptState = 1 ∧ s.b.cfg.acceptState ≠ 1 ∧ s.b.acceptedImage = none ∧ s.b.mayAccept = false := by decide

theorem wit_ConfigCommands_checks :
    let named := fun (im : Option Image) => ((holding im).tick 0).onCfg fun c => { c with resultOp := 3, resultCheck := 0, resultSection := 0 }
    (named none).b.slotFails 2 = some (1, 0) ∧ (named (some fine4408)).b.slotFails 2 = none ∧ (named none).b.fwFails (8 - 8) = some 1 := ⟨by decide +kernel, by decide +kernel, by decide +kernel⟩

theorem wit_ConfigCommands_firmware :
    (∀ p m g, Config.ecdsaVerify p m g = true) → fwReady.b.fwFails 0 = none ∧ (nget fwReady.b.cfg.slots 8 {}).isOpen = true ∧ fwReady.b.slotBusy 8 = false := fun h => ⟨fwReady_loads h, rfl, rfl⟩

theorem wit_ConfigCommands_accept :
    let p := proven.onPwr fun p => { p with phase := .running }
    let dry := p.onCfg fun c => { c with dry := true }
    dry.b.mayAccept = true ∧ dry.b.proofOk .hif = true ∧
      ((State.reset.onPwr fun p => { p with phase := .running }).onCfg fun c => { c with image := some {}, dry := true }).b.mayAccept = true ∧
      denied.b.proofOk .hif = false ∧ ((denied.onPwr fun p => { p with phase := .running }).onCfg fun c => { c with dry := true }).b.mayAccept = true := ⟨rfl, proven_ok, rfl, denied_proof, rfl⟩

theorem wit_ConfigCommands_plug :
    let held := fun (n m : Nat) => (holding none).onCfg fun c => { c with plugMbit := m, slots := [(2, { image := some { generation := 1, plugMode := n }, marks := [{ kind := 3, seq := 3, generation := 1 }] })] }
    (∃ im, (held 0 0).b.acceptedImage = some im ∧ im.plugMode = 0) ∧ (∃ im, (held 1 0).b.acceptedImage = some im ∧ im.plugMode ≠ 0 ∧ ¬ ((held 1 0).b.cfg.plugMbit ≠ 0 ∧ (held 1 0).b.cfg.plugMbit * 2097152 < 4096 + im.length)) ∧
      ∃ im : Image, im.length = 3000000 ∧ 1 * 2097152 < 4096 + im.length ∧ (held 1 1).b.cfg.plugMbit = 1 := ⟨⟨_, rfl, rfl⟩, ⟨_, rfl, by decide, by decide⟩, ⟨{ length := 3000000 }, rfl, by decide, rfl⟩⟩

theorem wit_ConfigEvents :
    let s := holding (some fine4408)
    let writes := s.onCfg fun c => { c with plugWriting := some fine4408 }
    let waits := (s.onCfg fun c => { c with acceptState := 1, slot := 2, acceptBy := some (4, 9) }).onSys fun y =>
      { y with tokens := [(tokKey pCFG 4, { token := 9, kept := rPending })] }
    let pressed := waits.onCfg fun c => { c with acceptOut := true }
    let loads := s.onCfg fun c => { c with loading := some 2 }
    s.b.cfg.plugWriting = none ∧ writes.b.cfg.plugWriting = some fine4408 ∧ 0 * 2097152 < 4096 + fine4408.length ∧ ¬ 1 * 2097152 < 4096 + fine4408.length ∧
      waits.b.cfg.acceptState = 1 ∧ waits.b.cfg.acceptAt + 60000000000 ≤ (waits.tick 60000000000).b.now ∧ ¬ waits.b.cfg.acceptAt + 60000000000 ≤ (waits.tick 59999999999).b.now ∧
      s.b.cfg.acceptState ≠ 1 ∧ waits.b.cfg.acceptOut = false ∧ pressed.b.cfg.acceptOut = true ∧ pressed.b.life ≠ .deployed ∧
      (pressed.onOtp fun o => { o with latched := 7 }).b.life = .deployed ∧ (nget pressed.b.cfg.slots pressed.b.cfg.slot {}).image = some fine4408 ∧
      (nget ((holding (some { plugMode := 1 })).onCfg fun c => { c with slot := 2 }).b.cfg.slots 2 {}).image = some { plugMode := 1 } ∧ pressed.b.cfg.plugMbit = 0 ∧
      pressed.b.cfg.acceptBy = some (4, 9) ∧ (pressed.b.tokenOf pCFG 4).token = 9 ∧ (pressed.b.tokenOf pCFG 4).kept = rPending ∧
      s.b.cfg.loading = none ∧ loads.b.cfg.loading = some 2 ∧ ((loads.tick 0).b.slot 2).image = some fine4408 ∧ s.b.pwr.phase ≠ .firmwareUp ∧
      (s.onPwr fun p => { p with phase := .firmwareUp }).b.pwr.phase = .firmwareUp := by decide +kernel

theorem wit_ConfigEvents_checks :
    let up := ((holding none).onCfg fun c => { c with slots := [(2, { image := some fine4408, marks := [{ kind := 3, seq := 3, generation := fine4408.gen }] })] }).onPwr fun p => { p with phase := .firmwareUp }
    (((holding (some fine4408)).onCfg fun c => { c with loading := some 2 }).tick 0).b.slotFails 2 = none ∧
      (((holding none).onCfg fun c => { c with loading := some 2 }).tick 0).b.slotFails 2 = some (1, 0) ∧ (up.tick 0).b.readsPlug = false ∧ (up.tick 0).b.loadOrder = [2] ∧
      (up.tick 0).b.slotFails 2 = none ∧ ((up.tick 0).b.slot 2).image = some fine4408 := by decide +kernel

theorem wit_HostPort :
    let on := State.reset.onPwr fun p => { p with phase := .running }
    let good := fun (bs : List Byte) => hifLength bs = bs.length ∧ (crc16 (bs.take (bs.length - 2))).toNat = beAt bs (bs.length - 2) 2
    let r : List Byte := [0, 0, 0, 0, 0, 9, 159, 57]
    let w : List Byte := [64, 0, 1, 0, 0, 9, 0, 0, 0, 1, 108, 173]
    let m : List Byte := [128, 0, 0, 0, 0, 9, 75, 25]
    let kept := on.onHif fun h => { h with cache := [{ id := 9, check := bytesAt r 6 2, responses := [] }] }
    State.reset.b.hifOn = false ∧ on.b.hifOn = true ∧ good r ∧ good w ∧ good m ∧ ([0] : List Byte).length < hifLength [0] ∧ hifId r = 9 ∧
      ¬ (crc16 ([0, 0, 0, 0, 0, 9, 0, 0] : List Byte).dropLast.dropLast).toNat = beAt ([0, 0, 0, 0, 0, 9, 0, 0] : List Byte) 6 2 ∧
      (∃ y, keptFor kept.b.hif.cache 9 = some y ∧ y.check = bytesAt r 6 2) ∧ (∃ y, keptFor kept.b.hif.cache 9 = some y ∧ y.check ≠ bytesAt m 6 2) ∧
      keptFor on.b.hif.cache 9 = none ∧ beAt r 0 1 / 64 = 0 ∧ beAt w 0 1 / 64 = 1 ∧ 2 ≤ beAt m 0 1 / 64 := ⟨rfl, rfl, by decide +kernel, by decide +kernel, by decide +kernel, by decide, rfl, by decide +kernel, ⟨_, rfl, rfl⟩, ⟨_, rfl, by decide +kernel⟩, rfl, by decide +kernel, by decide +kernel, by decide +kernel⟩

theorem wit_HostPort_session :
    (provisioned.onCfg fun c => { c with image := some { certs := [{ pub := 1 }] } }).b.keyUsable = true ∧ (0 : Fin 4).val < [({ pub := 1 } : OwnerCert)].length := ⟨provisioned_key, by decide⟩

theorem wit_Management :
    let msg := fun (ty : Nat) (body : List Byte) => beBytes ty 1 ++ beBytes 0 1 ++ beBytes 9 2 ++ beBytes body.length 4 ++ body
    let formed := fun (ty : Nat) (m : List Byte) => 8 ≤ m.length ∧ beAt m 0 1 = ty ∧ beAt m 1 1 = 0 ∧ beAt m 4 4 = m.length - 8
    let one : List Byte := [0x40, 0, 0, 0, 0, 1]
    let up : List Byte := [2, 0, 0, 0, 0] ++ List.replicate 256 7
    let rec1 : List Byte := [0, 0, 0, 0, 0, 1, 0, 1]
    let s := ((holding none).onSys fun y => { y with experts := [(5, { unlocked := true })] }).onMgmt 0 fun _ => { isOpen := true }
    let locked := (holding none).onMgmt 0 fun _ => { isOpen := true }
    let blank := s.onCfg fun c => { c with slots := [(2, { isOpen := true })] }
    let kept := s.onMgmt 0 fun x => { x with cache := [{ id := 9, check := msg 1 one, responses := [] }] }
    (nget State.reset.b.mgmt 0 {}).isOpen = false ∧ (nget s.b.mgmt 0 {}).isOpen = true ∧ (nget locked.b.mgmt 0 {}).isOpen = true ∧
      (∃ y, keptFor (nget kept.b.mgmt 0 {}).cache 9 = some y ∧ y.check = msg 1 one ∧ y.check ≠ msg 6 [1]) ∧ beAt (msg 1 one) 2 2 = 9 ∧
      keptFor (nget s.b.mgmt 0 {}).cache 9 = none ∧ formed 1 (msg 1 one) ∧ beAt one 4 2 = 1 ∧ ¬ 8 ≤ ([1] : List Byte).length ∧
      formed 2 (msg 2 (one ++ [0, 0, 0, 1])) ∧ formed 3 (msg 3 up) ∧ up.length = 261 ∧ beAt up 0 1 = 2 ∧ formed 4 (msg 4 rec1) ∧ beAt rec1 6 2 = 1 ∧
      formed 5 (msg 5 (rec1 ++ List.replicate 16 0)) ∧ (rec1 ++ List.replicate 16 0).length = 24 ∧ formed 6 (msg 6 [1]) ∧ formed 6 (msg 6 [2]) ∧ beAt [1] 0 1 ≤ 1 ∧ 2 ≤ beAt [2] 0 1 ∧
      s.b.unlocked (.mgmt 0) = true ∧ locked.b.unlocked (.mgmt 0) = false ∧ (nget s.b.cfg.slots 3 {}).isOpen = false ∧ (nget blank.b.cfg.slots 2 {}).isOpen = true ∧
      (nget blank.b.cfg.slots 2 {}).marks = [] ∧ blank.b.slotBusy 2 = false ∧ beAt up 1 4 % 256 = 0 ∧ beAt (2 :: 0 :: 0 :: 0 :: 1 :: List.replicate 256 7 : List Byte) 1 4 % 256 ≠ 0 ∧
      8386560 < beAt (2 :: 0 :: 0x7F :: 0xF8 :: 0 :: List.replicate 256 7 : List Byte) 1 4 + 256 ∧ beAt (10 :: up : List Byte) 0 1 = 10 ∧
      (nget s.b.recd.exports 5 {}).state ≠ 1 ∧ s.b.keyUsable = false := ⟨rfl, rfl, rfl, ⟨_, rfl, rfl, by decide +kernel⟩, by decide +kernel⟩

theorem wit_Management_export :
    (provisioned.onMgmt 0 fun _ => { isOpen := true }).b.keyUsable = true ∧ (nget (provisioned.onMgmt 0 fun _ => { isOpen := true }).b.recd.exports 5 {}).state ≠ 1 := ⟨provisioned_key, by decide⟩

end Sys2Proof.Tests
end

/-! SUPPORT. What the combinational operators (R86) give, one rule per operator, over the rules of a native word (R27, R28). -/

namespace Sys2Proof

/-! ### Native words (R27, R28) -/

namespace NV

theorem one_iff (v : NV) : v.one = true ↔ v.ok = true ∧ v.val = 1 := by
  unfold NV.one
  rw [Bool.and_eq_true, beq_iff_eq]

@[simp] theorem ofBool_ok (b : Bool) : (ofBool b).ok = true := rfl

@[simp] theorem ofBool_val_eq_one (b : Bool) : (ofBool b).val = 1 ↔ b = true := by
  cases b <;> decide

theorem ofBool_val_bool (b : Bool) : (ofBool b).val = 0 ∨ (ofBool b).val = 1 := by
  cases b <;> decide

theorem int_bounds (v : NV) : -524288 ≤ v.int ∧ v.int ≤ 524287 := by
  have lower := v.val.le_toInt
  have upper := v.val.toInt_lt
  unfold NV.int
  omega

@[simp] theorem num_ok (x : Int) (ok : Bool) : (num x ok).ok = ok := rfl

/-- A number is saturated to the format, never wrapped. -/
@[simp] theorem num_int (x : Int) (ok : Bool) : (num x ok).int = max (-524288) (min 524287 x) := by
  unfold num NV.int Machine.toNative
  rw [BitVec.toInt_ofInt_eq_self (by decide) (by split <;> omega) (by split <;> omega)]
  split <;> omega

/-- The number of a word is in the format: saturation leaves it. -/
theorem num_int_of_word (v : NV) (ok : Bool) : (num v.int ok).int = v.int := by
  have bounds := v.int_bounds
  rw [num_int]
  omega

end NV
end Sys2Proof

namespace Sys2Proof.Machine

/-! ### Operand slots -/

@[simp] theorem usedOf_map_some (a : List NV) : usedOf (a.map some) = a := by
  simp [usedOf]

@[simp] theorem slotAt_cons_zero (x : NV) (a : List (Option NV)) : slotAt (some x :: a) 0 = x := rfl

@[simp] theorem slotAt_cons_succ (o : Option NV) (a : List (Option NV)) (i : Nat) :
    slotAt (o :: a) (i + 1) = slotAt a i := rfl

theorem slotAt_map_some {a : List NV} {i : Nat} {v : NV} (h : a[i]? = some v) : slotAt (a.map some) i = v := by
  simp [slotAt, h]

/-! ### The boolean operators (R86) -/

theorem opAnd_val_eq_one (a : List NV) : (opAnd a).val = 1 ↔ ∀ v ∈ a, v.one = true := by
  rw [opAnd, NV.ofBool_val_eq_one, List.all_eq_true]

theorem opOr_val_eq_one (a : List NV) : (opOr a).val = 1 ↔ ∃ v ∈ a, v.one = true := by
  rw [opOr, NV.ofBool_val_eq_one, List.any_eq_true]

/-- Two of three: some pair of the operands is 1. -/
theorem opVote_val_eq_one (x y z : NV) :
    (opVote [x, y, z]).val = 1 ↔
      x.one = true ∧ y.one = true ∨ x.one = true ∧ z.one = true ∨ y.one = true ∧ z.one = true := by
  rw [opVote, NV.ofBool_val_eq_one, decide_eq_true_eq]
  cases hx : x.one <;> cases hy : y.one <;> cases hz : z.one <;> simp [hx, hy, hz]

theorem opNot_val (x : NV) : (opNot x).val = (NV.ofBool (decide (x.ok ∧ x.val = 0))).val := by
  simp [opNot, NV.ofBool]

theorem opNot_val_bool (x : NV) : (opNot x).val = 0 ∨ (opNot x).val = 1 :=
  opNot_val x ▸ NV.ofBool_val_bool _

theorem opNot_val_eq_one (x : NV) : (opNot x).val = 1 ↔ x.ok = true ∧ x.val = 0 := by
  rw [opNot_val, NV.ofBool_val_eq_one, decide_eq_true_eq]

/-! ### The numeric operators (R86) -/

/-- MIN gives the number of one of its operands, and none is below it. -/
theorem opMin_int {a : List NV} (ha : a ≠ []) :
    ∃ v ∈ a, (opMin a).int = v.int ∧ ∀ w ∈ a, v.int ≤ w.int := by
  obtain ⟨x, r, rfl⟩ := List.exists_cons_of_ne_nil ha
  have least : ((x :: r).map NV.int).min? = some (r.foldl (fun m v => min m v.int) x.int) := by
    rw [List.map_cons, List.min?_cons', List.foldl_map]
  obtain ⟨mem, le⟩ := List.min?_eq_some_iff.mp least
  obtain ⟨v, hv, e⟩ := List.mem_map.mp mem
  refine ⟨v, hv, ?_, fun w hw => e ▸ le _ (List.mem_map_of_mem hw)⟩
  rw [opMin, ← e, NV.num_int_of_word]

/-- MAX gives the number of one of its operands, and none is above it. -/
theorem opMax_int {a : List NV} (ha : a ≠ []) :
    ∃ v ∈ a, (opMax a).int = v.int ∧ ∀ w ∈ a, w.int ≤ v.int := by
  obtain ⟨x, r, rfl⟩ := List.exists_cons_of_ne_nil ha
  have greatest : ((x :: r).map NV.int).max? = some (r.foldl (fun m v => max m v.int) x.int) := by
    rw [List.map_cons, List.max?_cons', List.foldl_map]
  obtain ⟨mem, le⟩ := List.max?_eq_some_iff.mp greatest
  obtain ⟨v, hv, e⟩ := List.mem_map.mp mem
  refine ⟨v, hv, ?_, fun w hw => e ▸ le _ (List.mem_map_of_mem hw)⟩
  rw [opMax, ← e, NV.num_int_of_word]

theorem opMin_ok {a : List NV} (ha : a ≠ []) : (opMin a).ok = true ↔ ∀ v ∈ a, v.ok = true := by
  obtain ⟨x, r, rfl⟩ := List.exists_cons_of_ne_nil ha
  rw [opMin, NV.num_ok, List.all_eq_true]

theorem opMax_ok {a : List NV} (ha : a ≠ []) : (opMax a).ok = true ↔ ∀ v ∈ a, v.ok = true := by
  obtain ⟨x, r, rfl⟩ := List.exists_cons_of_ne_nil ha
  rw [opMax, NV.num_ok, List.all_eq_true]

/-- MSH rounds toward minus infinity: its number is the saturated `m` with m * 2^k ≤ x * y < (m + 1) * 2^k. -/
theorem opMsh_int (x y : NV) (k : Nat) {m : Int} (lower : m * 2 ^ k ≤ x.int * y.int)
    (upper : x.int * y.int < (m + 1) * 2 ^ k) :
    (opMsh x y k).int = max (-524288) (min 524287 m) := by
  have pos : (0 : Int) < 2 ^ k := by positivity
  have floor : x.int * y.int / 2 ^ k = m :=
    le_antisymm (Int.lt_add_one_iff.mp ((Int.ediv_lt_iff_lt_mul pos).mpr upper)) ((Int.le_ediv_iff_mul_le pos).mpr lower)
  rw [opMsh, floor, NV.num_int]

/-! ### SEL (R86) -/

/-- A valid selector k in range gives operand 1 + k. -/
theorem opSel_in_range {x v : NV} {a : List NV} {count k : Nat} (hok : x.ok = true) (hk : x.int = k) (hc : k < count)
    (hv : a[k]? = some v) : opSel ((x :: a).map some) count = v := by
  have inRange : x.ok = true ∧ 0 ≤ x.int ∧ x.int < count := ⟨hok, by omega, by omega⟩
  rw [opSel, List.map_cons, slotAt_cons_zero, if_pos inRange, hk, Int.toNat_natCast, Nat.add_comm, slotAt_cons_succ,
    slotAt_map_some hv]

/-- Any other selector gives operand 1. -/
theorem opSel_default {x : NV} (y : NV) (a : List NV) {count : Nat}
    (h : ¬ (x.ok = true ∧ 0 ≤ x.int ∧ x.int < count)) : opSel ((x :: y :: a).map some) count = y :=
  if_neg h

/-! ### The operator of each code (R85) -/

/-- An operator that is not one of R88 keeps the clause's state as it is. -/
theorem evalOp_state_of_not_stateful {op : Nat} (h : statefulOp op = false) (p n ts : Nat) (a : List (Option NV))
    (st : ClauseSt) : (evalOp op p a n ts st).2 = st := by
  -- the codes of R88 contradict `h`; every other code answers `st` itself
  unfold evalOp
  split <;> simp [statefulOp] at h ⊢

end Sys2Proof.Machine

namespace Sys2Proof.Proofs

open Sys2Proof Sys2Proof.Machine

/-- Settles O36: each code by the rule of its operator, on slots that are all used. -/
theorem combinationalOperators : Obligations.CombinationalOperators := by
  intro p n ts st a x y z sat out
  have stateless : ∀ op ∈ [0x01, 0x02, 0x03, 0x04, 0x0C, 0x0D, 0x0E, 0x0F, 0x10, 0x11], statefulOp op = false := by decide
  have and_eq : out 0x01 a = opAnd a := congrArg opAnd (usedOf_map_some a)
  have or_eq : out 0x02 a = opOr a := congrArg opOr (usedOf_map_some a)
  have min_eq : out 0x0C a = opMin a := congrArg opMin (usedOf_map_some a)
  have max_eq : out 0x0D a = opMax a := congrArg opMax (usedOf_map_some a)
  rw [and_eq, or_eq, min_eq, max_eq]
  refine ⟨fun op hop l => evalOp_state_of_not_stateful (stateless op hop) p n ts l st, x.one_iff, ?and, ?or, ?vote, ?not,
    fun ha => ⟨?min, ?max⟩, ?add, ?sub, ?msh, ?sel⟩
  case and => exact ⟨NV.ofBool_ok _, NV.ofBool_val_bool _, opAnd_val_eq_one a⟩
  case or => exact ⟨NV.ofBool_ok _, NV.ofBool_val_bool _, opOr_val_eq_one a⟩
  case vote => exact ⟨NV.ofBool_ok _, NV.ofBool_val_bool _, opVote_val_eq_one x y z⟩
  case not => exact ⟨rfl, opNot_val_bool x, opNot_val_eq_one x⟩
  case min =>
    obtain ⟨v, hv, e, le⟩ := opMin_int ha
    exact ⟨⟨v, hv, e⟩, fun w hw => e ▸ le w hw, opMin_ok ha⟩
  case max =>
    obtain ⟨v, hv, e, le⟩ := opMax_int ha
    exact ⟨⟨v, hv, e⟩, fun w hw => e ▸ le w hw, opMax_ok ha⟩
  case add => exact ⟨NV.num_int _ _, rfl⟩
  case sub => exact ⟨NV.num_int _ _, rfl⟩
  case msh => exact ⟨fun m lower upper => opMsh_int x y _ lower upper, rfl⟩
  case sel =>
    exact ⟨fun k hok hk hc v hv => opSel_in_range hok hk hc hv, fun h => opSel_default y a h⟩

end Sys2Proof.Proofs

/-! SUPPORT. What a waiting commit refuses (R61): the access rules of R38 and R39 decide which of the refusals a reader sees. -/

namespace Sys2Proof.Machine

@[simp] theorem Blocks.stagingOf_tick (s : State) (t rd : Nat) : (s.tick t).b.stagingOf rd = s.b.stagingOf rd := rfl

theorem State.stage_pending {s : State} {rd : Nat} (h : (s.b.stagingOf rd).pending = true) (addr : Nat) (w : Word) :
    s.stage rd addr w = (s, rRefused) :=
  if_pos (.inr h)

theorem State.stageCommit_pending {s : State} {rd : Nat} (h : (s.b.stagingOf rd).pending = true) (tok : BitVec 16) :
    s.stageCommit rd tok = (s, rRefused) :=
  if_pos h

theorem State.stageDiscard_pending {s : State} {rd : Nat} (h : (s.b.stagingOf rd).pending = true) :
    s.stageDiscard rd = (s, rRefused) :=
  if_pos h

/-- An aligned word written to a staged register goes to the reader's set, in either view. -/
theorem State.busWrite_rws {rd : Reader} {addr page off : Nat} {bv : Bool} (hsplit : splitAddr addr = some (page, bv, off))
    (aligned : addr % 4 = 0) (hrws : isRws (page + off) = true) (w : Word) (s : State) :
    s.busWrite rd addr 4 w = s.plain rd page (State.stage rd.idx addr w) := by
  simp [State.busWrite, State.writeWord, hsplit, aligned, hrws]

/-- While a commit waits, a staged write that reaches its page shows "refused in state" and does nothing else. -/
theorem State.busWrite_rws_pending {rd : Reader} {addr page off : Nat} {bv : Bool} {s : State}
    (hsplit : splitAddr addr = some (page, bv, off)) (aligned : addr % 4 = 0) (hrws : isRws (page + off) = true)
    (hreach : s.b.reaches rd page = true) (hpend : (s.b.stagingOf rd.idx).pending = true) (w : Word) :
    s.busWrite rd addr 4 w = s.result rd page rRefused := by
  rw [State.busWrite_rws hsplit aligned hrws, State.plain_reaches _ hreach, State.stage_pending hpend]

end Sys2Proof.Machine

namespace Sys2Proof.Proofs

open Sys2Proof Sys2Proof.Machine

/-- Settles O16: each command by the access rule that lets it in, and by what a waiting commit answers it. -/
theorem pendingRefusesStaging : Obligations.PendingRefusesStaging := by
  intro t rd tok page off bv addr w s hpend
  have hpend' : ((s.tick t).b.stagingOf rd.idx).pending = true := hpend
  refine ⟨fun hsplit aligned hrws hreach => ?staged, fun htakes => ⟨?commit, ?discard⟩, fun hreach htok hkept => ?again⟩
  case staged =>
    have refused := State.busWrite_rws_pending (s := s.tick t) hsplit aligned hrws hreach hpend' w
    exact ⟨congrArg Host.Outcome.next refused, congrArg Host.Outcome.next refused⟩
  case commit =>
    exact congrArg Host.Outcome.next (State.wt_takes_eq (s := s.tick t) htakes (State.stageCommit_pending hpend' tok))
  case discard =>
    exact congrArg Host.Outcome.next (State.wt_takes_eq (s := s.tick t) htakes (State.stageDiscard_pending hpend'))
  case again =>
    exact congrArg Host.Outcome.next (State.wt_repeat (s := s.tick t) _ hreach htok hkept)

end Sys2Proof.Proofs

/-! SUPPORT. When an output pin and an STO pin are 1 (R66, R133), by the terms that can hold them at 0. -/

namespace Sys2Proof.Machine

/-- A bit that every step keeps or sets, over a list: it is set in the end if it was at the start or if a step sets it. -/
theorem getLsbD_foldl {α : Type} {n k : Nat} {f : BitVec n → α → BitVec n} {p : α → Bool}
    (hf : ∀ m e, (f m e).getLsbD k = (m.getLsbD k || p e)) (l : List α) (v : BitVec n) :
    (l.foldl f v).getLsbD k = (v.getLsbD k || l.any p) := by
  induction l generalizing v with
  | nil => simp
  | cons e l ih => rw [List.foldl_cons, ih, hf, List.any_cons, Bool.or_assoc]

/-- Setting a bit leaves every other one; an index beyond the width sets none. -/
theorem getLsbD_setb_true {n : Nat} (v : BitVec n) (i : Nat) {k : Nat} (hk : k < n) :
    (setb v i true).getLsbD k = (v.getLsbD k || decide (i = k)) := by
  rw [setb, if_pos rfl, BitVec.getLsbD_or, BitVec.getLsbD_ofNat, Nat.testBit_two_pow, decide_eq_true hk, Bool.true_and]

theorem OutBlock.locked_eq_false_iff (o : OutBlock) (k : Nat) :
    o.locked.getLsbD k = false ↔ o.unlocking.getLsbD k = false ∧ ∀ l ∈ o.lockBy, l.2.getLsbD k = false := by
  have step : ∀ (m : BitVec 16) (l : Nat × BitVec 16), (m ||| l.2).getLsbD k = (m.getLsbD k || l.2.getLsbD k) :=
    fun m l => BitVec.getLsbD_or
  rw [OutBlock.locked, getLsbD_foldl step, Bool.or_eq_false_iff, List.any_eq_false]
  simp only [Bool.not_eq_true]

theorem OutBlock.darkBits_eq_false_iff (o : OutBlock) (c : Ch) {k : Nat} (hk : k < 16) :
    (o.darkBits c).getLsbD k = false ↔ ∀ d ∈ o.dark, d.1 = k → d.2.active ≠ some c := by
  have step : ∀ (m : BitVec 16) (d : Nat × Dark), (if d.2.active = some c then setb m d.1 true else m).getLsbD k =
      (m.getLsbD k || decide (d.1 = k ∧ d.2.active = some c)) := by
    intro m d
    split
    next active => simp only [getLsbD_setb_true m d.1 hk, active, and_true]
    next idle => simp only [idle, and_false, decide_false, Bool.or_false]
  have start : (0 : BitVec 16).getLsbD k = false := BitVec.getLsbD_zero
  rw [OutBlock.darkBits, getLsbD_foldl step, start, Bool.false_or, List.any_eq_false]
  simp only [decide_eq_true_eq, not_and, ne_eq]

/-- Nothing holds every output safe. -/
theorem Blocks.globalHold_eq_false_iff (b : Blocks) :
    b.globalHold = false ↔ b.running = true ∧ b.haltNow = false ∧ b.cfg.dry = false ∧ b.cfg.loading = none ∧
      b.pwr.powerDown = false ∧ b.resetting .fab = false := by
  simp [Blocks.globalHold, and_assoc]

/-- A bit of a vector that is 0 as a whole under a condition. -/
theorem getLsbD_zero_of {n : Nat} (h : Bool) (v : BitVec n) (k : Nat) :
    (if h then 0 else v).getLsbD k = true ↔ h = false ∧ v.getLsbD k = true := by
  cases h <;> simp

/-- A masked bit is 1 where the vector's is and the mask's is not. -/
theorem getLsbD_and_not {n : Nat} (v m : BitVec n) (k : Nat) :
    (v &&& ~~~ m).getLsbD k = true ↔ v.getLsbD k = true ∧ m.getLsbD k = false := by
  simp only [BitVec.getLsbD_and, BitVec.getLsbD_not, Bool.and_eq_true, decide_eq_true_eq, Bool.not_eq_true']
  exact ⟨fun ⟨hv, _, hm⟩ => ⟨hv, hm⟩, fun ⟨hv, hm⟩ => ⟨hv, BitVec.lt_of_getLsbD hv, hm⟩⟩

/-- The terms of an output pin (R66). -/
theorem Blocks.pinSout_getLsbD (b : Blocks) (c : Ch) (k : Nat) :
    (b.pinSout c).getLsbD k = true ↔
      b.globalHold = false ∧ b.resetting .sog = false ∧ b.sog.committed.getLsbD k = true ∧
      (b.sog.stage c).hold.getLsbD k = false ∧ b.sog.locked.getLsbD k = false ∧ (b.sog.darkBits c).getLsbD k = false ∧
      b.sog.faultHold.getLsbD k = false := by
  simp only [Blocks.pinSout, getLsbD_zero_of, Bool.or_eq_false_iff, getLsbD_and_not, and_assoc]

/-- The terms of an STO pin: none for a dark pulse. -/
theorem Blocks.pinSto_getLsbD (b : Blocks) (c : Ch) (k : Nat) :
    (b.pinSto c).getLsbD k = true ↔
      b.globalHold = false ∧ b.resetting .sto = false ∧ b.sto.committed.getLsbD k = true ∧
      (b.sto.stage c).hold.getLsbD k = false ∧ b.sto.locked.getLsbD k = false ∧ b.sto.faultHold.getLsbD k = false := by
  simp only [Blocks.pinSto, getLsbD_zero_of, Bool.or_eq_false_iff, getLsbD_and_not, and_assoc]

theorem Blocks.globalHold_of_not_running {b : Blocks} (h : b.pwr.phase ≠ .running) : b.globalHold = true := by
  simp [Blocks.globalHold, Blocks.running, h]

theorem Blocks.pinSout_of_globalHold {b : Blocks} (h : b.globalHold = true) (c : Ch) : b.pinSout c = 0 := by
  rw [Blocks.pinSout, h, Bool.true_or, if_pos rfl]

theorem Blocks.pinSto_of_globalHold {b : Blocks} (h : b.globalHold = true) (c : Ch) : b.pinSto c = 0 := by
  rw [Blocks.pinSto, h, Bool.true_or, if_pos rfl]

end Sys2Proof.Machine

namespace Sys2Proof.Proofs

open Sys2Proof Sys2Proof.Machine

/-- Settles O37: a pin's terms, each at the output's own bit; before the image runs every output is held. -/
theorem pinsFollowCommittedValues : Obligations.PinsFollowCommittedValues := by
  intro b c k
  refine ⟨?sout, ?sto, fun idle => ?safe⟩
  case sout =>
    rw [Blocks.pinSout_getLsbD, Blocks.globalHold_eq_false_iff, OutBlock.locked_eq_false_iff,
      OutBlock.darkBits_eq_false_iff _ _ k.isLt]
    -- the same terms, grouped as the obligation names them
    tauto
  case sto =>
    rw [Blocks.pinSto_getLsbD, Blocks.globalHold_eq_false_iff, OutBlock.locked_eq_false_iff]
    tauto
  case safe =>
    have held := Blocks.globalHold_of_not_running idle
    exact ⟨Blocks.pinSout_of_globalHold held c, Blocks.pinSto_of_globalHold held c⟩

end Sys2Proof.Proofs

/-! SUPPORT. What a received safe frame does (R244, R245, R247, R249): a channel's decision, what both channels' decision
does, and what an accepted frame leaves in its session. -/

namespace Sys2Proof.Machine

/-! ### A session's state -/

/-- Changing one session leaves every other one. -/
theorem State.onCons_consOf (k j : Nat) (f : Cons → Cons) (s : State) :
    (s.onCons k f).b.consOf j = if k = j then f (s.b.consOf k) else s.b.consOf j :=
  nget_nupd _ _ _ _ _

theorem Blocks.consOf_congr {b b' : Blocks} (h : b.sfr = b'.sfr) (k : Nat) : b.consOf k = b'.consOf k := by
  rw [Blocks.consOf, h, ← Blocks.consOf]

/-! ### One channel's decision (R244) -/

/-- Past a check that refuses, what was checked for does not hold, and the rest of the checks decides. -/
theorem Decision.accept_of_ite {p : Prop} [Decidable p] {d e : Decision} (hd : d ≠ .accept)
    (h : (if p then d else e) = .accept) : ¬ p ∧ e = .accept := by
  split at h
  · exact absurd h hd
  next hp => exact ⟨hp, h⟩

/-- What every accepted frame has passed, in the order of R244, and in set-up the condition of R247. -/
theorem Blocks.decision_accept {b : Blocks} {ch : Ch} {c : ConsCfg} {r : Cons} {h : FrameHead}
    (e : b.decision ch c r h = .accept) :
    let k := (h.alive + 65536 - r.aliveLast) % 65536
    h.timeValid = true ∧
    (∃ age, b.ageNum ch (b.rulerOf ch) h.stamp = some age ∧ -2000 * b.mapDen ≤ age ∧
      (r.state ≠ 3 → age ≤ (c.ageMax * 10000 : Nat) * b.mapDen)) ∧
    (r.state ≠ 1 → k ≠ 0 ∧ k ≤ c.maxSkip ∧
      (c.partner.isSome = true → h.echoValid = true → (b.partnerLast c h.echo).isSome = true)) ∧
    (b.stepped = true → 0 ≤ stampDiff h.stamp b.tsy.stepCell) ∧
    (r.state = 1 → c.partner.isSome = true →
      h.echoValid = true ∧ ∃ z, b.partnerSent c h.echo = some z ∧ r.setupAt ≤ z.atA) := by
  intro k
  unfold Blocks.decision at e
  dsimp only at e
  obtain ⟨notDup, e⟩ := Decision.accept_of_ite (by decide) e
  obtain ⟨timed, e⟩ := Decision.accept_of_ite (by decide) e
  split at e
  · cases e
  next age hage =>
  obtain ⟨notStale, e⟩ := Decision.accept_of_ite (by decide) e
  obtain ⟨notFuture, e⟩ := Decision.accept_of_ite (by decide) e
  obtain ⟨notAged, e⟩ := Decision.accept_of_ite (by decide) e
  refine ⟨by simpa using timed, ⟨age, hage, Int.not_lt.mp notFuture, fun notRetiming => ?aged⟩, fun outside => ?counter,
    fun stepped => ?step, fun setup partnered => ?setup⟩
  case aged => exact Int.not_lt.mp fun old => notAged ⟨old, notRetiming⟩
  case step => simpa [stepped] using notStale
  case counter =>
    rw [if_neg outside] at e
    obtain ⟨notSkip, e⟩ := Decision.accept_of_ite (by decide) e
    obtain ⟨known, -⟩ := Decision.accept_of_ite (by decide) e
    refine ⟨fun same => notDup ⟨outside, same⟩, Nat.not_lt.mp notSkip, fun partnered echoed => ?_⟩
    simpa [partnered, echoed, Option.isSome_iff_ne_none] using known
  case setup =>
    obtain ⟨partner, hpartner⟩ := Option.isSome_iff_exists.mp partnered
    rw [if_pos setup, hpartner] at e
    dsimp only at e
    split at e
    next z sent =>
      split at e
      next fresh =>
        obtain ⟨echoed, since⟩ := Bool.and_eq_true_iff.mp fresh
        exact ⟨echoed, z, sent, of_decide_eq_true since⟩
      next => cases e
    next => cases e

/-- A channel that accepts knows the session, and finds the length and the check value good (R236, R237). -/
theorem Blocks.dataDecision_accept {b : Blocks} {ch : Ch} {bs : List Byte} {slot : Nat} {c : ConsCfg}
    (e : b.dataDecision ch bs = (some (slot, c), .accept)) :
    b.consById (beAt bs 2 2) = some (slot, c) ∧
      crc32c (virtualHeader c.id c.gen b.img.cellId ++ bs.take (20 + 4 * c.len)) = BitVec.ofNat 32 (beAt bs (20 + 4 * c.len) 4) ∧
      b.decision ch c (b.consOf slot) (frameHead bs) = .accept := by
  unfold Blocks.dataDecision at e
  split at e
  · cases e
  next slot' c' hid =>
  dsimp only at e
  split at e
  · cases e
  next hformat =>
  split at e
  · cases e
  next hcrc =>
  injection e with sess accepts
  injection sess with pair
  injection pair with hslot hcfg
  subst hslot hcfg
  have hlen : (bs.getD 17 0).toNat = c'.len := by tauto
  rw [hlen, not_not] at hcrc
  exact ⟨hid, hcrc, accepts⟩

/-! ### What both channels' decisions do (R245) -/

section
variable {bsA bsB : List Byte} {s : State}

/-- Channels that decide differently, or for different sessions, raise 425 alone. -/
theorem State.receiveData_differ (running : s.b.running = true) (working : s.b.resetting .sfr = false)
    (differ : (s.b.dataDecision .a bsA).2 ≠ (s.b.dataDecision .b bsB).2 ∨
      (s.b.dataDecision .a bsA).1.map (·.1) ≠ (s.b.dataDecision .b bsB).1.map (·.1)) :
    s.receiveData bsA bsB = s.raise 425 (sessWord ((((s.b.dataDecision .a bsA).1.orElse fun _ =>
      (s.b.dataDecision .b bsB).1).map (·.1)).getD 0)) := by
  unfold State.receiveData
  rw [running, working]
  exact if_pos differ

/-- A frame that neither channel knows a session for. -/
theorem State.receiveData_unknown (running : s.b.running = true) (working : s.b.resetting .sfr = false)
    (ha : (s.b.dataDecision .a bsA).1 = none) (hb : (s.b.dataDecision .b bsB).1 = none)
    (same : (s.b.dataDecision .a bsA).2 = (s.b.dataDecision .b bsB).2) :
    s.receiveData bsA bsB = s.onSfr fun r => { r with unknown := r.unknown.inc } := by
  unfold State.receiveData
  rw [running, working]
  simp [ha, hb, same, State.actOn]

/-- Channels that decide alike for one session act on its frame. -/
theorem State.receiveData_agree {slot : Nat} {c : ConsCfg} {d : Decision} (running : s.b.running = true)
    (working : s.b.resetting .sfr = false) (ha : s.b.dataDecision .a bsA = (some (slot, c), d))
    (hslot : (s.b.dataDecision .b bsB).1.map (·.1) = some slot) (hd : (s.b.dataDecision .b bsB).2 = d) :
    s.receiveData bsA bsB = s.actOn slot c (frameHead bsA) (bytesAt bsA 20 (4 * c.len)) d := by
  unfold State.receiveData
  rw [running, working]
  simp [ha, hslot, hd]

end

/-! ### What an accepted frame leaves -/

/-- A session in re-timing stays there until the second frame (R249). -/
theorem retimed_state (state retimed : Nat) :
    (if state = 3 then (if retimed + 1 ≥ 2 then 2 else 3) else 2) = if state = 3 ∧ retimed = 0 then 3 else 2 := by
  split_ifs <;> omega

/-- The fields of a session that has taken a frame: its counter, payload, acceptance instants and stamp are the frame's, and
no refusal is counted. -/
theorem Blocks.accepted_fields (b : Blocks) (c : ConsCfg) (h : FrameHead) (p : List Byte) (r : Cons) :
    let v := b.accepted c h p r
    let k := (h.alive + 65536 - r.aliveLast) % 65536
    v.aliveLast = h.alive ∧ v.held = some p ∧ v.acceptedA = b.rulerOf .a ∧ v.acceptedB = b.rulerOf .b ∧
      v.stamp = h.stamp ∧ v.state = (if r.state = 3 ∧ r.retimed = 0 then 3 else 2) ∧
      v.lost = (if r.state = 1 ∨ k ≤ 1 then r.lost else r.lost.inc (k - 1)) ∧
      v.crc = r.crc ∧ v.dup = r.dup ∧ v.refused = r.refused := by
  rw [← retimed_state]
  unfold Blocks.accepted
  dsimp only
  -- the session's own echo is none of these fields
  generalize (if h.echoValid = true then b.partnerSent c h.echo else none) = echoed
  cases echoed with
  | none => and_intros <;> rfl
  | some x =>
    dsimp only
    split <;> and_intros <;> rfl

/-- The fields and the drive records that an accepted frame feeds lie outside the sessions. -/
theorem State.actOn_accept_sfr (slot : Nat) (c : ConsCfg) (h : FrameHead) (p : List Byte) (s : State) :
    (s.actOn slot c h p .accept).b.sfr = (s.onCons slot (s.b.accepted c h p)).b.sfr :=
  -- after the session, parts 9 (AXS) and 16 (FCL) alone change
  have only := Only.cond (m := 66048) _ _ _ _ _ _ rfl (.takeDrives _ _ _ rfl (.raiseBadFields _ _ _ rfl (.refl _ _)))
  only.same_of .sfr rfl

theorem State.actOn_accept_consOf (slot : Nat) (c : ConsCfg) (h : FrameHead) (p : List Byte) (s : State) (q : Nat) :
    (s.actOn slot c h p .accept).b.consOf q =
      if slot = q then s.b.accepted c h p (s.b.consOf slot) else s.b.consOf q := by
  rw [Blocks.consOf_congr (State.actOn_accept_sfr slot c h p s), State.onCons_consOf]

end Sys2Proof.Machine

namespace Sys2Proof.Proofs

open Sys2Proof Sys2Proof.Machine

/-- Settles O40: the channels' decisions by what they do together, and an acceptance by the checks it has passed. -/
theorem safeFrameDecisions : Obligations.SafeFrameDecisions := by
  intro t bsA bsB s running working b x y ends
  have received : ∀ {u}, (s.tick t).receiveData bsA bsB = u → ends u := fun e => congrArg Host.Outcome.next e
  refine ⟨fun differ => ?differ, fun hx hy same => ?unknown, fun slot c d hx hslot hd => ?agree,
    fun ch bs slot c accepts => ?accepts⟩
  case differ => exact received (State.receiveData_differ running working differ)
  case unknown => exact received (State.receiveData_unknown running working hx hy same)
  case agree =>
    have acts := received (State.receiveData_agree running working hx hslot hd)
    refine ⟨?format, ?crc, ?duplicate, ?refused, ?stamp, ?aged, ?echo, ?skip, ?accept⟩
    case format | crc | duplicate | aged | echo | skip => rintro rfl; exact acts
    case refused | stamp => rintro (rfl | rfl) <;> exact acts
    case accept =>
      rintro rfl
      let payload := bytesAt bsA 20 (4 * c.len)
      have sessions := State.actOn_accept_consOf slot c (frameHead bsA) payload (s.tick t)
      have own := (sessions slot).trans (if_pos rfl)
      have others : ∀ q, q ≠ slot → _ = s.b.consOf q := fun q hq => (sessions q).trans (if_neg hq.symm)
      obtain ⟨alive, held, atA, atB, stamp, state, lost, crc, dup, refused⟩ :=
        Blocks.accepted_fields b c (frameHead bsA) payload (s.b.consOf slot)
      refine ⟨_, acts, ?_⟩
      dsimp only
      rw [own]
      exact ⟨alive, held, atA, atB, stamp, state, lost, crc, dup, refused, others⟩
  case accepts =>
    obtain ⟨known, check, decides⟩ := Blocks.dataDecision_accept accepts
    obtain ⟨timed, age, counter, step, setup⟩ := Blocks.decision_accept decides
    exact ⟨known, check, timed, age, counter, step, setup⟩

end Sys2Proof.Proofs

/-! SUPPORT. What a command as a whole can do: the laws of Laws/Onward and Laws/Only, one per meaning, for `exec` itself. -/

namespace Sys2Proof.Machine

/-- A command takes nothing back: each one by the law of its meaning. -/
theorem Onward.exec {s u : State} : ∀ c : Instr, exec c s = .next u → Onward s u
  | .registerWrite .., e => .execRegisterWrite _ _ _ _ _ (.refl s) u e
  | .stagedWrite .., e => .execStagedWrite _ _ _ _ _ (.refl s) u e
  | .truOptimeLoRead .., e => .execTruOptimeLoRead _ _ (.refl s) u e
  | .truCellNsRead .., e => .execTruCellNsRead _ _ (.refl s) u e
  | .truInject .., e => .execTruInject _ _ _ (.refl s) u e
  | .pageFltLatchClear .., e => .execPageFltLatchClear _ _ _ _ (.refl s) u e
  | .fclClear .., e => .execFclClear _ _ _ (.refl s) u e
  | .stageCommit .., e => .execStageCommit _ _ _ (.refl s) u e
  | .stageDiscard .., e => .execStageDiscard _ _ _ (.refl s) u e
  | .freeze .., e => .execFreeze _ _ _ (.refl s) u e
  | .freezeRelease .., e => .execFreezeRelease _ _ _ (.refl s) u e
  | .freezeExpired .., e => .execFreezeExpired _ _ (.refl s) u e
  | .expertUnlock .., e => .execExpertUnlock _ _ _ (.refl s) u e
  | .expertLock .., e => .execExpertLock _ _ _ (.refl s) u e
  | .expertIdleTimeout .., e => .execExpertIdleTimeout _ _ (.refl s) u e
  | .expertBlockEnd .., e => .execExpertBlockEnd _ _ (.refl s) u e
  | .capture .., e => .execCapture _ _ (.refl s) u e
  | .evaluationComplete .., e => .execEvaluationComplete _ _ _ (.refl s) u e
  | .evaluationOverrun .., e => .execEvaluationOverrun _ _ (.refl s) u e
  | .sentenceDeadline .., e => .execSentenceDeadline _ (.refl s) u e
  | .samplingInstant .., e => .execSamplingInstant _ _ (.refl s) u e
  | .lichenExchangeMissed .., e => .execLichenExchangeMissed _ _ _ (.refl s) u e
  | .discrepancyTimeout .., e => .execDiscrepancyTimeout _ _ (.refl s) u e
  | .testPulseStart .., e => .execTestPulseStart _ _ (.refl s) u e
  | .testPulseEnd .., e => .execTestPulseEnd _ _ (.refl s) u e
  | .maskWindowEnd .., e => .execMaskWindowEnd _ _ (.refl s) u e
  | .readbackTimeout .., e => .execReadbackTimeout _ _ _ (.refl s) u e
  | .darkTestStart .., e => .execDarkTestStart _ _ (.refl s) u e
  | .darkPulseEnd .., e => .execDarkPulseEnd _ _ (.refl s) u e
  | .stoFeedbackTimeout .., e => .execStoFeedbackTimeout _ _ _ (.refl s) u e
  | .lioCtrClear .., e => .execLioCtrClear _ _ _ (.refl s) u e
  | .encoderSample .., e => .execEncoderSample _ _ _ _ (.refl s) u e
  | .periodicUpdate .., e => .execPeriodicUpdate _ (.refl s) u e
  | .axisExchangeMissed .., e => .execAxisExchangeMissed _ _ _ (.refl s) u e
  | .analogueSample .., e => .execAnalogueSample _ _ _ _ (.refl s) u e
  | .analogueDiscrepancyTimeout .., e => .execAnalogueDiscrepancyTimeout _ _ (.refl s) u e
  | .meaCtrClear .., e => .execMeaCtrClear _ _ _ (.refl s) u e
  | .axsCtrClear .., e => .execAxsCtrClear _ _ _ (.refl s) u e
  | .sensorStale _ k, e => .execSensorStale _ k (.refl s) u e
  | .rebuildStart .., e => .execRebuildStart _ (.refl s) u e
  | .rebuildComplete .., e => .execRebuildComplete _ _ (.refl s) u e
  | .rebuildOverrun .., e => .execRebuildOverrun _ _ (.refl s) u e
  | .separationUpdateComplete .., e => .execSeparationUpdateComplete _ _ (.refl s) u e
  | .separationExchangeMissed .., e => .execSeparationExchangeMissed _ _ _ (.refl s) u e
  | .separationUpdateOverrun .., e => .execSeparationUpdateOverrun _ _ (.refl s) u e
  | .sepCtrClear .., e => .execSepCtrClear _ _ _ (.refl s) u e
  | .kinCtrClear .., e => .execKinCtrClear _ _ _ (.refl s) u e
  | .frameReceive .., e => .execFrameReceive _ _ _ (.refl s) u e
  | .linkUp .., e => .execLinkUp _ _ _ _ (.refl s) u e
  | .linkDown .., e => .execLinkDown _ _ (.refl s) u e
  | .fdbAgeing .., e => .execFdbAgeing _ _ _ (.refl s) u e
  | .gateEntryChange .., e => .execGateEntryChange _ _ (.refl s) u e
  | .cbResetTimeout .., e => .execCbResetTimeout _ _ _ (.refl s) u e
  | .arpRequest .., e => .execArpRequest _ _ _ _ (.refl s) u e
  | .neighbourSolicitation .., e => .execNeighbourSolicitation _ _ _ _ (.refl s) u e
  | .icmpEchoRequest .., e => .execIcmpEchoRequest _ _ _ _ (.refl s) u e
  | .syncReceived .., e => .execSyncReceived _ _ _ (.refl s) u e
  | .announceReceived .., e => .execAnnounceReceived _ _ _ (.refl s) u e
  | .pdelayReqReceived .., e => .execPdelayReqReceived _ _ _ (.refl s) u e
  | .pdelayRespReceived .., e => .execPdelayRespReceived _ _ _ _ _ _ (.refl s) u e
  | .syncInterval .., e => .execSyncInterval _ _ (.refl s) u e
  | .pdelayInterval .., e => .execPdelayInterval _ _ (.refl s) u e
  | .announceInterval .., e => .execAnnounceInterval _ _ (.refl s) u e
  | .syncReceiptTimeout .., e => .execSyncReceiptTimeout _ (.refl s) u e
  | .holdoverTimeout .., e => .execHoldoverTimeout _ (.refl s) u e
  | .tInitExpired .., e => .execTInitExpired _ (.refl s) u e
  | .tsySet .., e => .execTsySet _ _ _ (.refl s) u e
  | .tsySlew .., e => .execTsySlew _ _ _ (.refl s) u e
  | .tsyCancelSlew .., e => .execTsyCancelSlew _ _ _ (.refl s) u e
  | .netCtrClear .., e => .execNetCtrClear _ _ _ (.refl s) u e
  | .safeFrameReceived .., e => .execSafeFrameReceived _ _ _ (.refl s) u e
  | .bulkSegmentReceived .., e => .execBulkSegmentReceived _ _ _ (.refl s) u e
  | .setupTimeout .., e => .execSetupTimeout _ _ (.refl s) u e
  | .sfrRestart .., e => .execSfrRestart _ _ _ (.refl s) u e
  | .sfrCtrClear .., e => .execSfrCtrClear _ _ _ (.refl s) u e
  | .pairRelease .., e => .execPairRelease _ _ (.refl s) u e
  | .checkpointPush .., e => .execCheckpointPush _ _ _ _ (.refl s) u e
  | .checkpointMatch .., e => .execCheckpointMatch _ _ (.refl s) u e
  | .agreementTimeout .., e => .execAgreementTimeout _ _ (.refl s) u e
  | .cprCfwWrite .., e => .execCprCfwWrite _ _ _ _ _ (.refl s) u e
  | .cprCfwInv .., e => .execCprCfwInv _ _ _ _ (.refl s) u e
  | .cprAliveWrite _ _ _ w, e => .execCprAliveWrite _ _ _ w (.refl s) u e
  | .aliveExpired .., e => .execAliveExpired _ _ (.refl s) u e
  | .cprTx .., e => .execCprTx _ _ _ _ (.refl s) u e
  | .pairFrameReceived .., e => .execPairFrameReceived _ _ _ (.refl s) u e
  | .mtimecmpReached .., e => .execMtimecmpReached _ _ (.refl s) u e
  | .cprRdselWrite .., e => .execCprRdselWrite _ _ _ _ _ (.refl s) u e
  | .cprCtrClear .., e => .execCprCtrClear _ _ _ _ (.refl s) u e
  | .agrCtrClear .., e => .execAgrCtrClear _ _ _ (.refl s) u e
  | .agrInject .., e => .execAgrInject _ _ _ (.refl s) u e
  | .debugHalt .., e => .execDebugHalt _ _ _ (.refl s) u e
  | .debugStep .., e => .execDebugStep _ _ _ (.refl s) u e
  | .debugResume .., e => .execDebugResume _ _ _ (.refl s) u e
  | .debugRegisterAccess .., e => .execDebugRegisterAccess _ _ _ _ _ (.refl s) u e
  | .cvuStart .., e => .execCvuStart _ _ _ _ (.refl s) u e
  | .cvuPolyChange .., e => .execCvuPolyChange _ _ _ _ (.refl s) u e
  | .cvuFeedB .., e => .execCvuFeedB _ _ _ _ (.refl s) u e
  | .cvuFeedH .., e => .execCvuFeedH _ _ _ _ (.refl s) u e
  | .cvuFeedW .., e => .execCvuFeedW _ _ _ _ (.refl s) u e
  | .cvuStateLoWrite .., e => .execCvuStateLoWrite _ _ _ _ (.refl s) u e
  | .cvuStateHiWrite .., e => .execCvuStateHiWrite _ _ _ _ (.refl s) u e
  | .cvuStateLoRead .., e => .execCvuStateLoRead _ _ _ (.refl s) u e
  | .cvuResultLoRead .., e => .execCvuResultLoRead _ _ _ (.refl s) u e
  | .cvuAlive .., e => .execCvuAlive _ _ _ _ (.refl s) u e
  | .cvuCtrClear .., e => .execCvuCtrClear _ _ _ _ (.refl s) u e
  | .fabCtrClear .., e => .execFabCtrClear _ _ _ _ (.refl s) u e
  | .fabInject .., e => .execFabInject _ _ _ _ (.refl s) u e
  | .roundClose .., e => .execRoundClose _ (.refl s) u e
  | .blockResetComplete .., e => .execBlockResetComplete _ _ _ (.refl s) u e
  | .chipResetReaction .., e => .execChipResetReaction _ (.refl s) u e
  | .rearmComplete .., e => .execRearmComplete _ _ _ _ (.refl s) u e
  | .collectorSelfFault .., e => .execCollectorSelfFault _ _ (.refl s) u e
  | .errPinHalfPeriod .., e => .execErrPinHalfPeriod _ (.refl s) u e
  | .fclCtrClear .., e => .execFclCtrClear _ _ _ (.refl s) u e
  | .nandProgramComplete .., e => .execNandProgramComplete _ _ (.refl s) u e
  | .blockEraseComplete .., e => .execBlockEraseComplete _ _ _ (.refl s) u e
  | .nandTimeout .., e => .execNandTimeout _ (.refl s) u e
  | .headSearchComplete .., e => .execHeadSearchComplete _ (.refl s) u e
  | .recWindowLoad .., e => .execRecWindowLoad _ _ _ (.refl s) u e
  | .recClear .., e => .execRecClear _ _ _ (.refl s) u e
  | .clearEraseComplete .., e => .execClearEraseComplete _ (.refl s) u e
  | .recFwReq .., e => .execRecFwReq _ _ _ (.refl s) u e
  | .recCtrClear .., e => .execRecCtrClear _ _ _ (.refl s) u e
  | .exportStart .., e => .execExportStart _ _ _ (.refl s) u e
  | .exportAbandon .., e => .execExportAbandon _ _ _ (.refl s) u e
  | .exportComplete .., e => .execExportComplete _ _ (.refl s) u e
  | .sporeStart .., e => .execSporeStart _ _ (.refl s) u e
  | .sporeStep .., e => .execSporeStep _ _ _ (.refl s) u e
  | .sporeAbort .., e => .execSporeAbort _ _ _ (.refl s) u e
  | .dtiExceeded .., e => .execDtiExceeded _ (.refl s) u e
  | .bstSuspend .., e => .execBstSuspend _ _ _ _ (.refl s) u e
  | .bstForce .., e => .execBstForce _ _ _ _ (.refl s) u e
  | .bstCtrClear .., e => .execBstCtrClear _ _ _ _ (.refl s) u e
  | .otpBurnWord .., e => .execOtpBurnWord _ _ _ (.refl s) u e
  | .otpFinalise .., e => .execOtpFinalise _ _ _ (.refl s) u e
  | .otpRetire .., e => .execOtpRetire _ _ _ (.refl s) u e
  | .otpBurn4408Row .., e => .execOtpBurn4408Row _ _ _ (.refl s) u e
  | .otpRedirect4408Row .., e => .execOtpRedirect4408Row _ _ _ (.refl s) u e
  | .otpSessionComplete .., e => .execOtpSessionComplete _ _ (.refl s) u e
  | .otpVppOutOfRange .., e => .execOtpVppOutOfRange _ _ _ (.refl s) u e
  | .otpRead .., e => .execOtpRead _ _ _ (.refl s) u e
  | .lcToManufacture .., e => .execLcToManufacture _ _ _ (.refl s) u e
  | .generateKey .., e => .execGenerateKey _ _ _ _ _ (.refl s) u e
  | .lcToProvisioned .., e => .execLcToProvisioned _ _ _ (.refl s) u e
  | .lcToDeployed .., e => .execLcToDeployed _ _ _ (.refl s) u e
  | .lcToReturned .., e => .execLcToReturned _ _ _ _ (.refl s) u e
  | .debugUnlock .., e => .execDebugUnlock _ _ _ (.refl s) u e
  | .openScan .., e => .execOpenScan _ _ _ (.refl s) u e
  | .lifeCycleReset .., e => .execLifeCycleReset _ _ (.refl s) u e
  | .lcsBlockEnd .., e => .execLcsBlockEnd _ _ (.refl s) u e
  | .attestationStart .., e => .execAttestationStart _ _ _ (.refl s) u e
  | .attestationComplete .., e => .execAttestationComplete _ _ (.refl s) u e
  | .railOutOfRange .., e => .execRailOutOfRange _ _ _ (.refl s) u e
  | .vcoreMonitorDisagree .., e => .execVcoreMonitorDisagree _ _ _ (.refl s) u e
  | .powerOnResetEnd .., e => .execPowerOnResetEnd _ (.refl s) u e
  | .supplyLossWarning .., e => .execSupplyLossWarning _ _ (.refl s) u e
  | .flushComplete .., e => .execFlushComplete _ (.refl s) u e
  | .supplyRecovery .., e => .execSupplyRecovery _ (.refl s) u e
  | .resetNAssert .., e => .execResetNAssert _ _ (.refl s) u e
  | .resetNRelease .., e => .execResetNRelease _ (.refl s) u e
  | .tjThreshold .., e => .execTjThreshold _ _ _ (.refl s) u e
  | .fiddlehead .., e => .execFiddlehead _ _ (.refl s) u e
  | .firmwareLoad .., e => .execFirmwareLoad _ (.refl s) u e
  | .configLoad .., e => .execConfigLoad _ _ (.refl s) u e
  | .cfgOpen .., e => .execCfgOpen _ _ _ (.refl s) u e
  | .cfgProgramWindow .., e => .execCfgProgramWindow _ _ _ _ (.refl s) u e
  | .cfgSeal .., e => .execCfgSeal _ _ _ (.refl s) u e
  | .cfgLoad .., e => .execCfgLoad _ _ _ (.refl s) u e
  | .cfgAccept .., e => .execCfgAccept _ _ _ (.refl s) u e
  | .cfgCancelAccept .., e => .execCfgCancelAccept _ _ _ (.refl s) u e
  | .cfgDiscard .., e => .execCfgDiscard _ _ _ (.refl s) u e
  | .cfgWritePlug .., e => .execCfgWritePlug _ _ _ (.refl s) u e
  | .configLoadComplete .., e => .execConfigLoadComplete _ (.refl s) u e
  | .acceptanceAck .., e => .execAcceptanceAck _ (.refl s) u e
  | .acceptanceTimeout .., e => .execAcceptanceTimeout _ (.refl s) u e
  | .plugWriteComplete .., e => .execPlugWriteComplete _ _ (.refl s) u e
  | .hifRead .., e => .execHifRead _ _ (.refl s) u e
  | .hifWrite .., e => .execHifWrite _ _ (.refl s) u e
  | .hifFrameAbort .., e => .execHifFrameAbort _ (.refl s) u e
  | .hifCtrClear .., e => .execHifCtrClear _ _ _ (.refl s) u e
  | .dtlsHandshake .., e => .execDtlsHandshake _ _ _ _ (.refl s) u e
  | .mgmtRead .., e => .execMgmtRead _ _ _ (.refl s) u e
  | .mgmtWrite .., e => .execMgmtWrite _ _ _ (.refl s) u e
  | .mgmtUpload .., e => .execMgmtUpload _ _ _ _ (.refl s) u e
  | .mgmtRecords .., e => .execMgmtRecords _ _ _ (.refl s) u e
  | .mgmtExport .., e => .execMgmtExport _ _ _ (.refl s) u e
  | .mgmtNotices .., e => .execMgmtNotices _ _ _ (.refl s) u e
  | .pwrCtrClear .., e => .execPwrCtrClear _ _ _ (.refl s) u e
  | .paceWindowEnd .., e => .execPaceWindowEnd _ _ _ (.refl s) u e
  | .oscillatorStop .., e => .execOscillatorStop _ _ (.refl s) u e
  | .quadrantCounterTransition .., e => .execQuadrantCounterTransition _ _ _ _ (.refl s) u e
  | .antiRollbackAdvance .., e => .execAntiRollbackAdvance _ (.refl s) u e
  | .laneErrorRateHigh .., e => .execLaneErrorRateHigh _ _ (.refl s) u e
  | .streamGateChange .., e => .execStreamGateChange _ _ (.refl s) u e

/-- The number whose bits are the parts of a list. -/
def Part.mask (l : List Part) : Nat := l.foldr (fun p m => 2 ^ p.idx ||| m) 0

/-- A command changes its parts alone: each one by the law of its meaning. -/
theorem Only.exec {s u : State} : ∀ c : Instr, exec c s = .next u → Only (Part.mask c.touches) s u
  | .registerWrite .., e => .execRegisterWrite (m := 1006632735) _ _ _ _ _ rfl (.refl _ s) u e
  | .stagedWrite .., e => .execStagedWrite (m := 1006632735) _ _ _ _ _ rfl (.refl _ s) u e
  | .truOptimeLoRead .., e => .execTruOptimeLoRead (m := 5) _ _ rfl (.refl _ s) u e
  | .truCellNsRead .., e => .execTruCellNsRead (m := 5) _ _ rfl (.refl _ s) u e
  | .truInject .., e => .execTruInject (m := 37945351) _ _ _ rfl (.refl _ s) u e
  | .pageFltLatchClear .., e => .execPageFltLatchClear (m := 65539) _ _ _ _ rfl (.refl _ s) u e
  | .fclClear .., e => .execFclClear (m := 65539) _ _ _ rfl (.refl _ s) u e
  | .stageCommit .., e => .execStageCommit (m := 65539) _ _ _ rfl (.refl _ s) u e
  | .stageDiscard .., e => .execStageDiscard (m := 65539) _ _ _ rfl (.refl _ s) u e
  | .freeze .., e => .execFreeze (m := 268500995) _ _ _ rfl (.refl _ s) u e
  | .freezeRelease .., e => .execFreezeRelease (m := 268500995) _ _ _ rfl (.refl _ s) u e
  | .freezeExpired .., e => .execFreezeExpired (m := 268500995) _ _ rfl (.refl _ s) u e
  | .expertUnlock .., e => .execExpertUnlock (m := 536936451) _ _ _ rfl (.refl _ s) u e
  | .expertLock .., e => .execExpertLock (m := 65539) _ _ _ rfl (.refl _ s) u e
  | .expertIdleTimeout .., e => .execExpertIdleTimeout (m := 3) _ _ rfl (.refl _ s) u e
  | .expertBlockEnd .., e => .execExpertBlockEnd (m := 3) _ _ rfl (.refl _ s) u e
  | .capture .., e => .execCapture (m := 17041981439) _ _ rfl (.refl _ s) u e
  | .evaluationComplete .., e => .execEvaluationComplete (m := 6305607675) _ _ _ rfl (.refl _ s) u e
  | .evaluationOverrun .., e => .execEvaluationOverrun (m := 65539) _ _ rfl (.refl _ s) u e
  | .sentenceDeadline .., e => .execSentenceDeadline (m := 6304559099) _ rfl (.refl _ s) u e
  | .samplingInstant .., e => .execSamplingInstant (m := 306670331) _ _ rfl (.refl _ s) u e
  | .lichenExchangeMissed .., e => .execLichenExchangeMissed (m := 306391771) _ _ _ rfl (.refl _ s) u e
  | .discrepancyTimeout .., e => .execDiscrepancyTimeout (m := 306391771) _ _ rfl (.refl _ s) u e
  | .testPulseStart .., e => .execTestPulseStart (m := 65585) _ _ rfl (.refl _ s) u e
  | .testPulseEnd .., e => .execTestPulseEnd (m := 65569) _ _ rfl (.refl _ s) u e
  | .maskWindowEnd .., e => .execMaskWindowEnd (m := 65585) _ _ rfl (.refl _ s) u e
  | .readbackTimeout .., e => .execReadbackTimeout (m := 65601) _ _ _ rfl (.refl _ s) u e
  | .darkTestStart .., e => .execDarkTestStart (m := 65) _ _ rfl (.refl _ s) u e
  | .darkPulseEnd .., e => .execDarkPulseEnd (m := 65601) _ _ rfl (.refl _ s) u e
  | .stoFeedbackTimeout .., e => .execStoFeedbackTimeout (m := 65665) _ _ _ rfl (.refl _ s) u e
  | .lioCtrClear .., e => .execLioCtrClear (m := 65555) _ _ _ rfl (.refl _ s) u e
  | .encoderSample .., e => .execEncoderSample (m := 65793) _ _ _ _ rfl (.refl _ s) u e
  | .periodicUpdate .., e => .execPeriodicUpdate (m := 306392011) _ rfl (.refl _ s) u e
  | .axisExchangeMissed .., e => .execAxisExchangeMissed (m := 66049) _ _ _ rfl (.refl _ s) u e
  | .analogueSample .., e => .execAnalogueSample (m := 65793) _ _ _ _ rfl (.refl _ s) u e
  | .analogueDiscrepancyTimeout .., e => .execAnalogueDiscrepancyTimeout (m := 65793) _ _ rfl (.refl _ s) u e
  | .meaCtrClear .., e => .execMeaCtrClear (m := 65795) _ _ _ rfl (.refl _ s) u e
  | .axsCtrClear .., e => .execAxsCtrClear (m := 66051) _ _ _ rfl (.refl _ s) u e
  | .sensorStale _ k, e => .execSensorStale (m := 65537) _ k rfl (.refl _ s) u e
  | .rebuildStart .., e => .execRebuildStart (m := 1025) _ rfl (.refl _ s) u e
  | .rebuildComplete .., e => .execRebuildComplete (m := 1025) _ _ rfl (.refl _ s) u e
  | .rebuildOverrun .., e => .execRebuildOverrun (m := 65537) _ _ rfl (.refl _ s) u e
  | .separationUpdateComplete .., e => .execSeparationUpdateComplete (m := 66561) _ _ rfl (.refl _ s) u e
  | .separationExchangeMissed .., e => .execSeparationExchangeMissed (m := 66561) _ _ _ rfl (.refl _ s) u e
  | .separationUpdateOverrun .., e => .execSeparationUpdateOverrun (m := 66561) _ _ rfl (.refl _ s) u e
  | .sepCtrClear .., e => .execSepCtrClear (m := 66563) _ _ _ rfl (.refl _ s) u e
  | .kinCtrClear .., e => .execKinCtrClear (m := 66563) _ _ _ rfl (.refl _ s) u e
  | .frameReceive .., e => .execFrameReceive (m := 77313) _ _ _ rfl (.refl _ s) u e
  | .linkUp .., e => .execLinkUp (m := 2049) _ _ _ _ rfl (.refl _ s) u e
  | .linkDown .., e => .execLinkDown (m := 71681) _ _ rfl (.refl _ s) u e
  | .fdbAgeing .., e => .execFdbAgeing (m := 2049) _ _ _ rfl (.refl _ s) u e
  | .gateEntryChange .., e => .execGateEntryChange (m := 2049) _ _ rfl (.refl _ s) u e
  | .cbResetTimeout .., e => .execCbResetTimeout (m := 65537) _ _ _ rfl (.refl _ s) u e
  | .arpRequest .., e => .execArpRequest (m := 67585) _ _ _ _ rfl (.refl _ s) u e
  | .neighbourSolicitation .., e => .execNeighbourSolicitation (m := 67585) _ _ _ _ rfl (.refl _ s) u e
  | .icmpEchoRequest .., e => .execIcmpEchoRequest (m := 67585) _ _ _ _ rfl (.refl _ s) u e
  | .syncReceived .., e => .execSyncReceived (m := 71681) _ _ _ rfl (.refl _ s) u e
  | .announceReceived .., e => .execAnnounceReceived (m := 71681) _ _ _ rfl (.refl _ s) u e
  | .pdelayReqReceived .., e => .execPdelayReqReceived (m := 2049) _ _ _ rfl (.refl _ s) u e
  | .pdelayRespReceived .., e => .execPdelayRespReceived (m := 71681) _ _ _ _ _ _ rfl (.refl _ s) u e
  | .syncInterval .., e => .execSyncInterval (m := 2049) _ _ rfl (.refl _ s) u e
  | .pdelayInterval .., e => .execPdelayInterval (m := 2049) _ _ rfl (.refl _ s) u e
  | .announceInterval .., e => .execAnnounceInterval (m := 2049) _ _ rfl (.refl _ s) u e
  | .syncReceiptTimeout .., e => .execSyncReceiptTimeout (m := 69633) _ rfl (.refl _ s) u e
  | .holdoverTimeout .., e => .execHoldoverTimeout (m := 71681) _ rfl (.refl _ s) u e
  | .tInitExpired .., e => .execTInitExpired (m := 71681) _ rfl (.refl _ s) u e
  | .tsySet .., e => .execTsySet (m := 37951491) _ _ _ rfl (.refl _ s) u e
  | .tsySlew .., e => .execTsySlew (m := 69635) _ _ _ rfl (.refl _ s) u e
  | .tsyCancelSlew .., e => .execTsyCancelSlew (m := 69635) _ _ _ rfl (.refl _ s) u e
  | .netCtrClear .., e => .execNetCtrClear (m := 67587) _ _ _ rfl (.refl _ s) u e
  | .safeFrameReceived .., e => .execSafeFrameReceived (m := 74241) _ _ _ rfl (.refl _ s) u e
  | .bulkSegmentReceived .., e => .execBulkSegmentReceived (m := 75265) _ _ _ rfl (.refl _ s) u e
  | .setupTimeout .., e => .execSetupTimeout (m := 73729) _ _ rfl (.refl _ s) u e
  | .sfrRestart .., e => .execSfrRestart (m := 574824451) _ _ _ rfl (.refl _ s) u e
  | .sfrCtrClear .., e => .execSfrCtrClear (m := 73731) _ _ _ rfl (.refl _ s) u e
  | .pairRelease .., e => .execPairRelease (m := 16385) _ _ rfl (.refl _ s) u e
  | .checkpointPush .., e => .execCheckpointPush (m := 245765) _ _ _ _ rfl (.refl _ s) u e
  | .checkpointMatch .., e => .execCheckpointMatch (m := 1006632735) _ _ rfl (.refl _ s) u e
  | .agreementTimeout .., e => .execAgreementTimeout (m := 81921) _ _ rfl (.refl _ s) u e
  | .cprCfwWrite .., e => .execCprCfwWrite (m := 81923) _ _ _ _ _ rfl (.refl _ s) u e
  | .cprCfwInv .., e => .execCprCfwInv (m := 81923) _ _ _ _ rfl (.refl _ s) u e
  | .cprAliveWrite _ _ _ w, e => .execCprAliveWrite (m := 81923) _ _ _ w rfl (.refl _ s) u e
  | .aliveExpired .., e => .execAliveExpired (m := 81921) _ _ rfl (.refl _ s) u e
  | .cprTx .., e => .execCprTx (m := 83971) _ _ _ _ rfl (.refl _ s) u e
  | .pairFrameReceived .., e => .execPairFrameReceived (m := 16385) _ _ _ rfl (.refl _ s) u e
  | .mtimecmpReached .., e => .execMtimecmpReached (m := 16385) _ _ rfl (.refl _ s) u e
  | .cprRdselWrite .., e => .execCprRdselWrite (m := 81923) _ _ _ _ _ rfl (.refl _ s) u e
  | .cprCtrClear .., e => .execCprCtrClear (m := 81923) _ _ _ _ rfl (.refl _ s) u e
  | .agrCtrClear .., e => .execAgrCtrClear (m := 81923) _ _ _ rfl (.refl _ s) u e
  | .agrInject .., e => .execAgrInject (m := 37961731) _ _ _ rfl (.refl _ s) u e
  | .debugHalt .., e => .execDebugHalt (m := 37961729) _ _ _ rfl (.refl _ s) u e
  | .debugStep .., e => .execDebugStep (m := 37961729) _ _ _ rfl (.refl _ s) u e
  | .debugResume .., e => .execDebugResume (m := 16385) _ _ _ rfl (.refl _ s) u e
  | .debugRegisterAccess .., e => .execDebugRegisterAccess (m := 16385) _ _ _ _ _ rfl (.refl _ s) u e
  | .cvuStart .., e => .execCvuStart (m := 98307) _ _ _ _ rfl (.refl _ s) u e
  | .cvuPolyChange .., e => .execCvuPolyChange (m := 98307) _ _ _ _ rfl (.refl _ s) u e
  | .cvuFeedB .., e => .execCvuFeedB (m := 98307) _ _ _ _ rfl (.refl _ s) u e
  | .cvuFeedH .., e => .execCvuFeedH (m := 98307) _ _ _ _ rfl (.refl _ s) u e
  | .cvuFeedW .., e => .execCvuFeedW (m := 98307) _ _ _ _ rfl (.refl _ s) u e
  | .cvuStateLoWrite .., e => .execCvuStateLoWrite (m := 98307) _ _ _ _ rfl (.refl _ s) u e
  | .cvuStateHiWrite .., e => .execCvuStateHiWrite (m := 98307) _ _ _ _ rfl (.refl _ s) u e
  | .cvuStateLoRead .., e => .execCvuStateLoRead (m := 32769) _ _ _ rfl (.refl _ s) u e
  | .cvuResultLoRead .., e => .execCvuResultLoRead (m := 32769) _ _ _ rfl (.refl _ s) u e
  | .cvuAlive .., e => .execCvuAlive (m := 98307) _ _ _ _ rfl (.refl _ s) u e
  | .cvuCtrClear .., e => .execCvuCtrClear (m := 98307) _ _ _ _ rfl (.refl _ s) u e
  | .fabCtrClear .., e => .execFabCtrClear (m := 65547) _ _ _ _ rfl (.refl _ s) u e
  | .fabInject .., e => .execFabInject (m := 37945355) _ _ _ _ rfl (.refl _ s) u e
  | .roundClose .., e => .execRoundClose (m := 6296170491) _ rfl (.refl _ s) u e
  | .blockResetComplete .., e => .execBlockResetComplete (m := 5222428667) _ _ _ rfl (.refl _ s) u e
  | .chipResetReaction .., e => .execChipResetReaction (m := 51539607551) _ rfl (.refl _ s) u e
  | .rearmComplete .., e => .execRearmComplete (m := 81921) _ _ _ _ rfl (.refl _ s) u e
  | .collectorSelfFault .., e => .execCollectorSelfFault (m := 38224065) _ _ rfl (.refl _ s) u e
  | .errPinHalfPeriod .., e => .execErrPinHalfPeriod (m := 65537) _ rfl (.refl _ s) u e
  | .fclCtrClear .., e => .execFclCtrClear (m := 65539) _ _ _ rfl (.refl _ s) u e
  | .nandProgramComplete .., e => .execNandProgramComplete (m := 38469633) _ _ rfl (.refl _ s) u e
  | .blockEraseComplete .., e => .execBlockEraseComplete (m := 38469633) _ _ _ rfl (.refl _ s) u e
  | .nandTimeout .., e => .execNandTimeout (m := 38469633) _ rfl (.refl _ s) u e
  | .headSearchComplete .., e => .execHeadSearchComplete (m := 2185433095) _ rfl (.refl _ s) u e
  | .recWindowLoad .., e => .execRecWindowLoad (m := 134414339) _ _ _ rfl (.refl _ s) u e
  | .recClear .., e => .execRecClear (m := 574816259) _ _ _ rfl (.refl _ s) u e
  | .clearEraseComplete .., e => .execClearEraseComplete (m := 196609) _ rfl (.refl _ s) u e
  | .recFwReq .., e => .execRecFwReq (m := 37945347) _ _ _ rfl (.refl _ s) u e
  | .recCtrClear .., e => .execRecCtrClear (m := 196611) _ _ _ rfl (.refl _ s) u e
  | .exportStart .., e => .execExportStart (m := 196611) _ _ _ rfl (.refl _ s) u e
  | .exportAbandon .., e => .execExportAbandon (m := 196611) _ _ _ rfl (.refl _ s) u e
  | .exportComplete .., e => .execExportComplete (m := 131073) _ _ rfl (.refl _ s) u e
  | .sporeStart .., e => .execSporeStart (m := 278529) _ _ rfl (.refl _ s) u e
  | .sporeStep .., e => .execSporeStep (m := 5222428667) _ _ _ rfl (.refl _ s) u e
  | .sporeAbort .., e => .execSporeAbort (m := 344065) _ _ _ rfl (.refl _ s) u e
  | .dtiExceeded .., e => .execDtiExceeded (m := 65537) _ rfl (.refl _ s) u e
  | .bstSuspend .., e => .execBstSuspend (m := 38207491) _ _ _ _ rfl (.refl _ s) u e
  | .bstForce .., e => .execBstForce (m := 38207491) _ _ _ _ rfl (.refl _ s) u e
  | .bstCtrClear .., e => .execBstCtrClear (m := 327683) _ _ _ _ rfl (.refl _ s) u e
  | .otpBurnWord .., e => .execOtpBurnWord (m := 589827) _ _ _ rfl (.refl _ s) u e
  | .otpFinalise .., e => .execOtpFinalise (m := 589827) _ _ _ rfl (.refl _ s) u e
  | .otpRetire .., e => .execOtpRetire (m := 589827) _ _ _ rfl (.refl _ s) u e
  | .otpBurn4408Row .., e => .execOtpBurn4408Row (m := 589827) _ _ _ rfl (.refl _ s) u e
  | .otpRedirect4408Row .., e => .execOtpRedirect4408Row (m := 589827) _ _ _ rfl (.refl _ s) u e
  | .otpSessionComplete .., e => .execOtpSessionComplete (m := 578486275) _ _ rfl (.refl _ s) u e
  | .otpVppOutOfRange .., e => .execOtpVppOutOfRange (m := 578486275) _ _ _ rfl (.refl _ s) u e
  | .otpRead .., e => .execOtpRead (m := 589827) _ _ _ rfl (.refl _ s) u e
  | .lcToManufacture .., e => .execLcToManufacture (m := 538640387) _ _ _ rfl (.refl _ s) u e
  | .generateKey .., e => .execGenerateKey (m := 540737539) _ _ _ _ _ rfl (.refl _ s) u e
  | .lcToProvisioned .., e => .execLcToProvisioned (m := 538640387) _ _ _ rfl (.refl _ s) u e
  | .lcToDeployed .., e => .execLcToDeployed (m := 538640387) _ _ _ rfl (.refl _ s) u e
  | .lcToReturned .., e => .execLcToReturned (m := 540737539) _ _ _ _ rfl (.refl _ s) u e
  | .debugUnlock .., e => .execDebugUnlock (m := 576389123) _ _ _ rfl (.refl _ s) u e
  | .openScan .., e => .execOpenScan (m := 538640387) _ _ _ rfl (.refl _ s) u e
  | .lifeCycleReset .., e => .execLifeCycleReset (m := 51539607551) _ _ rfl (.refl _ s) u e
  | .lcsBlockEnd .., e => .execLcsBlockEnd (m := 1048577) _ _ rfl (.refl _ s) u e
  | .attestationStart .., e => .execAttestationStart (m := 2162691) _ _ _ rfl (.refl _ s) u e
  | .attestationComplete .., e => .execAttestationComplete (m := 2097153) _ _ rfl (.refl _ s) u e
  | .railOutOfRange .., e => .execRailOutOfRange (m := 51539607551) _ _ _ rfl (.refl _ s) u e
  | .vcoreMonitorDisagree .., e => .execVcoreMonitorDisagree (m := 4259841) _ _ _ rfl (.refl _ s) u e
  | .powerOnResetEnd .., e => .execPowerOnResetEnd (m := 51539607551) _ rfl (.refl _ s) u e
  | .supplyLossWarning .., e => .execSupplyLossWarning (m := 542834691) _ _ rfl (.refl _ s) u e
  | .flushComplete .., e => .execFlushComplete (m := 4325377) _ rfl (.refl _ s) u e
  | .supplyRecovery .., e => .execSupplyRecovery (m := 51539607551) _ rfl (.refl _ s) u e
  | .resetNAssert .., e => .execResetNAssert (m := 51539607551) _ _ rfl (.refl _ s) u e
  | .resetNRelease .., e => .execResetNRelease (m := 34364260353) _ rfl (.refl _ s) u e
  | .tjThreshold .., e => .execTjThreshold (m := 4259841) _ _ _ rfl (.refl _ s) u e
  | .fiddlehead .., e => .execFiddlehead (m := 52084424709) _ _ rfl (.refl _ s) u e
  | .firmwareLoad .., e => .execFirmwareLoad (m := 34364014593) _ rfl (.refl _ s) u e
  | .configLoad .., e => .execConfigLoad (m := 48113385467) _ _ rfl (.refl _ s) u e
  | .cfgOpen .., e => .execCfgOpen (m := 8454147) _ _ _ rfl (.refl _ s) u e
  | .cfgProgramWindow .., e => .execCfgProgramWindow (m := 8454147) _ _ _ _ rfl (.refl _ s) u e
  | .cfgSeal .., e => .execCfgSeal (m := 8454147) _ _ _ rfl (.refl _ s) u e
  | .cfgLoad .., e => .execCfgLoad (m := 8454147) _ _ _ rfl (.refl _ s) u e
  | .cfgAccept .., e => .execCfgAccept (m := 562102275) _ _ _ rfl (.refl _ s) u e
  | .cfgCancelAccept .., e => .execCfgCancelAccept (m := 8454147) _ _ _ rfl (.refl _ s) u e
  | .cfgDiscard .., e => .execCfgDiscard (m := 8454147) _ _ _ rfl (.refl _ s) u e
  | .cfgWritePlug .., e => .execCfgWritePlug (m := 8454147) _ _ _ rfl (.refl _ s) u e
  | .configLoadComplete .., e => .execConfigLoadComplete (m := 48113385467) _ rfl (.refl _ s) u e
  | .acceptanceAck .., e => .execAcceptanceAck (m := 46858243) _ rfl (.refl _ s) u e
  | .acceptanceTimeout .., e => .execAcceptanceTimeout (m := 8454147) _ rfl (.refl _ s) u e
  | .plugWriteComplete .., e => .execPlugWriteComplete (m := 8454147) _ _ rfl (.refl _ s) u e
  | .hifRead .., e => .execHifRead (m := 1006632735) _ _ rfl (.refl _ s) u e
  | .hifWrite .., e => .execHifWrite (m := 1006632735) _ _ rfl (.refl _ s) u e
  | .hifFrameAbort .., e => .execHifFrameAbort (m := 65537) _ rfl (.refl _ s) u e
  | .hifCtrClear .., e => .execHifCtrClear (m := 16842755) _ _ _ rfl (.refl _ s) u e
  | .dtlsHandshake .., e => .execDtlsHandshake (m := 984252423) _ _ _ _ rfl (.refl _ s) u e
  | .mgmtRead .., e => .execMgmtRead (m := 33783813) _ _ _ rfl (.refl _ s) u e
  | .mgmtWrite .., e => .execMgmtWrite (m := 1006632735) _ _ _ rfl (.refl _ s) u e
  | .mgmtUpload .., e => .execMgmtUpload (m := 42008579) _ _ _ _ rfl (.refl _ s) u e
  | .mgmtRecords .., e => .execMgmtRecords (m := 33619969) _ _ _ rfl (.refl _ s) u e
  | .mgmtExport .., e => .execMgmtExport (m := 33751041) _ _ _ rfl (.refl _ s) u e
  | .mgmtNotices .., e => .execMgmtNotices (m := 33619969) _ _ _ rfl (.refl _ s) u e
  | .pwrCtrClear .., e => .execPwrCtrClear (m := 4259843) _ _ _ rfl (.refl _ s) u e
  | .paceWindowEnd .., e => .execPaceWindowEnd (m := 4259841) _ _ _ rfl (.refl _ s) u e
  | .oscillatorStop .., e => .execOscillatorStop (m := 65541) _ _ rfl (.refl _ s) u e
  | .quadrantCounterTransition .., e => .execQuadrantCounterTransition (m := 65793) _ _ _ _ rfl (.refl _ s) u e
  | .antiRollbackAdvance .., e => .execAntiRollbackAdvance (m := 589825) _ rfl (.refl _ s) u e
  | .laneErrorRateHigh .., e => .execLaneErrorRateHigh (m := 65537) _ _ rfl (.refl _ s) u e
  | .streamGateChange .., e => .execStreamGateChange (m := 2049) _ _ rfl (.refl _ s) u e

/-! ### Parts and their bits -/

theorem Part.idx_injective : Function.Injective Part.idx := by
  -- the parts in the order of their bits give each part back
  have back : ∀ p : Part, [Part.now, .sys, .tru, .fab, .lio, .tpg, .sog, .sto, .mea, .axs, .sep, .net, .tsy, .sfr, .agr,
      .cvu, .fcl, .recd, .bst, .otp, .lcs, .key, .pwr, .cfg, .hif, .mgmt, .inReset, .sel, .sentences, .draws, .latches,
      .numbering, .committed, .inForce, .lifeBits, .phase][p.idx]? = some p := fun p => by cases p <;> rfl
  intro p q h
  exact Option.some.inj ((back p).symm.trans (h ▸ back q))

theorem Part.testBit_mask (l : List Part) (p : Part) : (Part.mask l).testBit p.idx = decide (p ∈ l) := by
  induction l with
  | nil => simp [Part.mask]
  | cons q l ih =>
    have own : (2 ^ q.idx).testBit p.idx = decide (p = q) := by
      rw [Nat.testBit_two_pow, decide_eq_decide]
      exact ⟨fun h => Part.idx_injective h.symm, fun h => h ▸ rfl⟩
    show (2 ^ q.idx ||| Part.mask l).testBit p.idx = _
    rw [Nat.testBit_or, own, ih, ← Bool.decide_or, decide_eq_decide, List.mem_cons]

/-- What a command does not list stays as it is. -/
theorem exec_off_touches {s u : State} {c : Instr} (e : exec c s = .next u) {p : Part} (hp : p ∉ c.touches) : p.same s u :=
  (Only.exec c e).same_of p (by rw [Part.testBit_mask, decide_eq_false hp])

end Sys2Proof.Machine

namespace Sys2Proof

/-! ### Which commands list the parts that the manual guards -/

/-- The chip resets (R394, R400, R404). -/
def Instr.resets (c : Instr) : Prop :=
  (∃ t, c = .chipResetReaction t) ∨ (∃ t ok, c = .lifeCycleReset t ok) ∨ (∃ t r mv, c = .railOutOfRange t r mv) ∨
    (∃ t, c = .powerOnResetEnd t) ∨ (∃ t, c = .supplyRecovery t) ∨ (∃ t n, c = .resetNAssert t n)

/-- The commands at which a collector round can close (R312). -/
def Instr.closes (c : Instr) : Prop :=
  (∃ t, c = .roundClose t) ∨ (∃ t, c = .sentenceDeadline t) ∨ (∃ t ch d, c = .evaluationComplete t ch d) ∨ ∃ t x, c = .capture t x

/-- The configuration loads (R421). -/
def Instr.loads (c : Instr) : Prop := (∃ t p, c = .configLoad t p) ∨ ∃ t, c = .configLoadComplete t

end Sys2Proof

namespace Sys2Proof.Machine

section
variable {c : Instr}

theorem latches_touched (h : Part.latches ∈ c.touches) : c.closes ∨ c.resets := by
  cases c <;> simp [Instr.touches] at h
  all_goals simp [Instr.closes, Instr.resets]

theorem committed_touched (h : Part.committed ∈ c.touches) :
    c.closes ∨ c.resets ∨ c.loads ∨ (∃ t b ok, c = .blockResetComplete t b ok) ∨ ∃ t ch f, c = .sporeStep t ch f := by
  cases c <;> simp [Instr.touches] at h
  all_goals simp [Instr.closes, Instr.resets, Instr.loads]

theorem numbering_touched (h : Part.numbering ∈ c.touches) :
    (∃ t x, c = .capture t x) ∨ c.resets ∨ ∃ t, c = .headSearchComplete t := by
  cases c <;> simp [Instr.touches] at h
  all_goals simp [Instr.resets]

theorem inForce_touched (h : Part.inForce ∈ c.touches) : (∃ t x, c = .capture t x) ∨ c.resets ∨ c.loads := by
  cases c <;> simp [Instr.touches] at h
  all_goals simp [Instr.resets, Instr.loads]

theorem lifeBits_touched (h : Part.lifeBits ∈ c.touches) : c.resets ∨ ∃ t x, c = .fiddlehead t x := by
  cases c <;> simp [Instr.touches] at h
  all_goals simp [Instr.resets]

end

/-! ### Every command answers (R11) -/

/-- The meanings of all commands but the firmware load are next states. -/
theorem exec_answers (s : State) {c : Instr} (h : ∀ t, c ≠ .firmwareLoad t) : ∃ u, exec c s = .next u := by
  cases c
  case firmwareLoad t => exact absurd rfl (h t)
  all_goals exact ⟨_, rfl⟩

/-- The firmware load is never refused; it faults only on a chosen slot of another major version. -/
theorem State.firmwareLoad_cases (s : State) :
    (∃ u, s.firmwareLoad = .next u) ∨ s.firmwareLoad = .fault .outsideThisEdition ∧ s.b.pwr.phase = .fiddled ∧
      s.b.lcs.scanOpen = false ∧ ∃ k f, s.b.fwChosen = some k ∧ s.b.fwSlotOf k = some f ∧ f.major ≠ 1 := by
  unfold State.firmwareLoad
  split
  · exact .inl ⟨_, rfl⟩
  next due =>
  obtain ⟨fiddled, closed⟩ := not_or.mp due
  dsimp only
  split
  · exact .inl ⟨_, rfl⟩
  next k chosen =>
  split
  · exact .inl ⟨_, rfl⟩
  next f slot =>
  split
  · exact .inl ⟨_, rfl⟩
  next major =>
  exact .inr ⟨rfl, not_not.mp fiddled, Bool.eq_false_iff.mpr closed, k, f, chosen, slot, major⟩

end Sys2Proof.Machine

namespace Sys2Proof.Proofs

open Sys2Proof Sys2Proof.Machine

/-- Settles O6: every command by the law of its own parts. -/
theorem commandTouches : Obligations.CommandTouches := fun _ _ _ e _ => exec_off_touches e

/-- Settles O22: what a command changes it lists, and the commands that list each of the five are those named. -/
theorem onlyTheseChange : Obligations.OnlyTheseChange := by
  intro c s u e resets capture closes loads
  refine ⟨fun hc hr => ?latches, fun hc hr hl hb hs => ?committed, fun hc hr hh => ?sent, fun hc hr hl => ?inForce,
    fun hr hf => ?lifeBits⟩
  case latches => exact exec_off_touches (p := .latches) e fun h => (latches_touched h).elim hc hr
  case committed =>
    refine exec_off_touches (p := .committed) e fun h => ?_
    obtain h | h | h | ⟨t, b, ok, h⟩ | ⟨t, ch, f, h⟩ := committed_touched h
    exacts [hc h, hr h, hl h, hb t b ok h, hs t ch f h]
  case sent =>
    refine (exec_off_touches (p := .numbering) e fun h => ?_).1
    obtain h | h | ⟨t, h⟩ := numbering_touched h
    exacts [hc h, hr h, hh t h]
  case inForce =>
    refine exec_off_touches (p := .inForce) e fun h => ?_
    obtain h | h | h := inForce_touched h
    exacts [hc h, hr h, hl h]
  case lifeBits =>
    refine exec_off_touches (p := .lifeBits) e fun h => ?_
    obtain h | ⟨t, x, h⟩ := lifeBits_touched h
    exacts [hr h, hf t x h]

/-- Settles O1: the step is the dispatch of the queue's front. -/
theorem stepRunsFront : Obligations.StepRunsFront := fun _ _ _ => rfl

/-- Settles O2: the step of an empty queue answers the state itself. -/
theorem emptyQueueIdles : Obligations.EmptyQueueIdles := by
  intro s h
  rw [step, h]

/-- Settles O3, by evaluation: no memory of the reset state lists a byte. -/
theorem memoriesAtReset : Obligations.MemoriesAtReset := ⟨by decide, rfl⟩

/-- Settles O4: a step is a command on the queue's rest, which takes nothing of the memories' form back. -/
theorem stepKeepsMemories : Obligations.StepKeepsMemories := by
  intro s u wf e
  rw [step] at e
  split at e
  · exact Host.Outcome.next.inj e ▸ wf
  next c r _ => exact (Onward.exec c e).mem wf

/-- Settles O5: a step is a command on the queue's rest, which takes nothing back. -/
theorem stepTakesNothingBack : Obligations.StepTakesNothingBack := by
  intro s u e
  rw [step] at e
  split at e
  next idle =>
    obtain rfl := Host.Outcome.next.inj e
    exact ⟨by rw [idle, List.tail_nil], le_rfl, le_rfl, fun _ _ h => h⟩
  next c r queue =>
    have onward := Onward.exec c e
    exact ⟨by rw [queue, onward.queue, List.tail_cons], onward.time, onward.drawn, onward.burned⟩

/-- Settles O7: every meaning is a next state, but for the firmware load, whose one stop is a slot of another edition. -/
theorem everyCommandAnswers : Obligations.EveryCommandAnswers := by
  intro c s
  refine ⟨fun h => ?answers, fun r e => ?refused, fun f e => ?fault⟩
  case answers =>
    obtain ⟨u, e⟩ := exec_answers s h
    exact ⟨u, e, (Onward.exec c e).time⟩
  case refused =>
    by_cases h : ∀ t, c ≠ .firmwareLoad t
    · obtain ⟨u, e'⟩ := exec_answers s h
      exact nomatch e.symm.trans e'
    obtain ⟨t, rfl⟩ := not_forall_not.mp h
    obtain ⟨u, e'⟩ | ⟨e', -⟩ := (s.tick t).firmwareLoad_cases <;> exact nomatch e.symm.trans e'
  case fault =>
    by_cases h : ∀ t, c ≠ .firmwareLoad t
    · obtain ⟨u, e'⟩ := exec_answers s h
      exact nomatch e.symm.trans e'
    obtain ⟨t, rfl⟩ := not_forall_not.mp h
    obtain ⟨u, e'⟩ | ⟨-, fiddled, closed, k, w, chosen, slot, major⟩ := (s.tick t).firmwareLoad_cases
    · exact nomatch e.symm.trans e'
    · exact ⟨t, k, w, rfl, fiddled, closed, chosen, slot, major⟩

end Sys2Proof.Proofs

/-! SUPPORT. Commands that carry a token (R38, R39, R267, R314): each runs through the one operation `State.wt`. -/

namespace Sys2Proof.Machine

/-- Every command that carries a token, but the latch clear of a page, is a run of the token rule. -/
theorem exec_of_issued (s : State) {c : Instr} {t page : Nat} {rd : Reader} {tok : BitVec 16}
    (h : c.issued = some (t, rd, page, tok)) (notPage : ∀ t rd a w, c ≠ .pageFltLatchClear t rd a w) :
    (∃ run, exec c s = .next ((s.tick t).wt rd page tok run)) ∧ c.permitted s.b rd page = s.b.mayWrite rd page := by
  cases c
  case pageFltLatchClear t rd a w => exact absurd rfl (notPage t rd a w)
  all_goals simp only [Instr.issued, reduceCtorEq, Option.some.injEq] at h
  -- the commands with a token are left
  all_goals
    cases h
    exact ⟨⟨_, rfl⟩, Bool.and_true _⟩

/-- A reader that speaks but may not write the page is refused. -/
theorem State.wt_unwritable {s : State} {rd : Reader} {page : Nat} {tok : BitVec 16} (run : State → State × Nat)
    (speaks : s.b.speaks rd = true) (closed : s.b.mayWrite rd page = false) :
    s.wt rd page tok run = s.refuseCommand rd page := by
  unfold State.wt
  rw [if_neg (by simp [speaks]), if_pos closed]

section
variable {s : State} {rd : Reader} (page : Nat) (w : Word)

/-- A reader that may clear a page's latch does so by the token rule. -/
theorem State.pageClear_of_mayClear (h : mayClear rd = true) :
    s.pageClear rd page w = s.wt rd page (wTok w) (State.queueClear rd.idx page false w) := by
  simp [State.pageClear, h]

/-- A pair that may clear no latch is refused. -/
theorem State.pageClear_of_not_mayClear (speaks : s.b.speaks rd = true) (h : mayClear rd = false) :
    s.pageClear rd page w = s.refuseCommand rd page := by
  simp [State.pageClear, speaks, h]

end

/-- An issued command as the rules of R39 and R267 see it: a run of the token rule where it is permitted, refused where its
reader speaks without the right. -/
theorem exec_issued (s : State) {c : Instr} {t page : Nat} {rd : Reader} {tok : BitVec 16}
    (h : c.issued = some (t, rd, page, tok)) (speaks : s.b.speaks rd = true) :
    (c.permitted s.b rd page = true →
      s.b.reaches rd page = true ∧ ∃ run, exec c s = .next ((s.tick t).wt rd page tok run)) ∧
    (c.permitted s.b rd page = false → exec c s = .next ((s.tick t).refuseCommand rd page)) := by
  by_cases notPage : ∀ t rd a w, c ≠ .pageFltLatchClear t rd a w
  case pos =>
    obtain ⟨⟨run, e⟩, right⟩ := exec_of_issued s h notPage
    rw [right]
    exact ⟨fun may => ⟨(Blocks.reaches_iff ..).mpr ⟨speaks, may⟩, run, e⟩,
      fun closed => e.trans (congrArg _ (State.wt_unwritable (s := s.tick t) run speaks closed))⟩
  case neg =>
    push Not at notPage
    obtain ⟨t', rd', a, w, rfl⟩ := notPage
    obtain ⟨⟨p, bv, off⟩, hsplit, e⟩ := Option.map_eq_some_iff.mp h
    obtain ⟨rfl, rfl, rfl, rfl⟩ := by simpa using e
    have runs : exec (.pageFltLatchClear t' rd' a w) s = .next ((s.tick t').pageClear rd' p w) := by
      show execPageFltLatchClear t' rd' a w s = _
      simp only [execPageFltLatchClear, hsplit]
    refine ⟨fun may => ?_, fun closed => ?_⟩
    · obtain ⟨writes, clears⟩ := (Bool.and_eq_true ..).mp may
      exact ⟨(Blocks.reaches_iff ..).mpr ⟨speaks, writes⟩, _, runs.trans (congrArg _ (State.pageClear_of_mayClear p w clears))⟩
    · rw [runs]
      cases clears : mayClear rd'
      · rw [State.pageClear_of_not_mayClear (s := s.tick t') p w speaks clears]
      · have unwritable : s.b.mayWrite rd' p = false := by
          simpa [Instr.permitted, clears] using closed
        rw [State.pageClear_of_mayClear p w clears, State.wt_unwritable (s := s.tick t') _ speaks unwritable]

end Sys2Proof.Machine

namespace Sys2Proof.Proofs

open Sys2Proof Sys2Proof.Machine

/-- Settles O8: a permitted command is a run of the token rule, which executes nothing on token 0 or the kept one. -/
theorem tokensGuard : Obligations.TokensGuard := by
  intro c t rd page tok s h
  refine ⟨fun speaks may => ?permitted, fun speaks closed => (exec_issued s h speaks).2 closed⟩
  case permitted =>
    obtain ⟨reaches, run, e⟩ := (exec_issued s h speaks).1 may
    refine ⟨?zero, fun htok hkept => ?again⟩
    case zero =>
      rintro rfl
      exact e.trans (congrArg _ (State.wt_zero (s := s.tick t) run reaches))
    case again => exact e.trans (congrArg _ (State.wt_repeat (s := s.tick t) run reaches htok hkept))

end Sys2Proof.Proofs

/-! SUPPORT. Commands whose effect is one operation under the token rule, and the reads and times that answer in one step. -/

namespace Sys2Proof.Machine

/-- A command with a new token, by the result of its operation. -/
theorem next_of_takes {t page r : Nat} {rd : Reader} {tok : BitVec 16} {s u : State} {run : State → State × Nat}
    (h : s.b.takes rd page tok = true) (e : run (s.tick t) = (u, r)) :
    (.next ((s.tick t).wt rd page tok run) : Host.Outcome State Fault Refusal) = .next (u.keeps rd page tok r) :=
  congrArg _ (State.wt_takes_eq (s := s.tick t) h e)

theorem State.cvuCtrClear_working {u : Nat} {s : State} (h : (s.b.cvuOf u).failed = false) (w : Word) :
    s.cvuCtrClear u w = (if w.getLsbD 0 then s.onCvu u fun c => { c with dup := {}, skip := {} } else s, rDone) :=
  if_neg (by simp [h])

theorem State.stageCommit_free {rd : Nat} {s : State} (h : (s.b.stagingOf rd).pending = false) (tok : BitVec 16) :
    s.stageCommit rd tok =
      (s.onStaging rd fun g => { g with pending := true, issued := s.b.now, token := tok, committer := rd }, rPending) :=
  if_neg (by simp [h])

theorem State.stageDiscard_free {rd : Nat} {s : State} (h : (s.b.stagingOf rd).pending = false) :
    s.stageDiscard rd = (s.onStaging rd fun g => { g with writes := [] }, rDone) :=
  if_neg (by simp [h])

theorem State.freezeExpire_due {rd : Nat} {s : State} (frozen : (nget s.b.sys.freezes rd {}).frozen = true)
    (due : (nget s.b.sys.freezes rd {}).since + 100000000 ≤ s.b.now) :
    s.freezeExpire rd = State.raise 7 (mkw rd) (s := { (s.onFreeze rd fun _ => { frozen := false, since := 0, expired := true })
      with holds := nset s.holds rd none none }) :=
  if_pos ⟨frozen, due⟩

theorem State.expertIdle_due {rd : Nat} {s : State} (unlocked : (nget s.b.sys.experts rd {}).unlocked = true)
    (due : (nget s.b.sys.experts rd {}).lastWrite + 600000000000 ≤ s.b.now) :
    s.expertIdle rd = s.onExpert rd fun e => { e with unlocked := false, lastWrite := 0 } :=
  if_pos ⟨unlocked, due⟩

theorem State.expertBlockEnd_due {rd t0 : Nat} {s : State} (blocked : (nget s.b.sys.experts rd {}).blockedSince = some t0)
    (due : t0 + 60000000000 ≤ s.b.now) :
    s.expertBlockEnd rd = s.onExpert rd fun e => { e with blockedSince := none, failures := 0 } := by
  simp only [State.expertBlockEnd, blocked]
  exact if_pos due

end Sys2Proof.Machine

namespace Sys2Proof.Proofs

open Sys2Proof Sys2Proof.Machine

/-- Settles O10: each clear is its operation under the token rule. -/
theorem counterClearsMachine : Obligations.CounterClearsMachine := by
  intro t rd w ch s took
  exact ⟨fun h => next_of_takes h rfl, fun h => next_of_takes h rfl, fun h => next_of_takes h rfl,
    fun h => next_of_takes h rfl, fun h => next_of_takes h rfl, fun h => next_of_takes h rfl⟩

/-- Settles O11: each clear is its operation under the token rule. -/
theorem counterClearsLinks : Obligations.CounterClearsLinks := by
  intro t rd w k n s took
  exact ⟨fun h => next_of_takes h rfl, fun h => next_of_takes h rfl, fun h => next_of_takes h rfl,
    fun h => next_of_takes h rfl, fun h works => next_of_takes h (State.cvuCtrClear_working (s := s.tick t) works w),
    fun h => next_of_takes h rfl⟩

/-- Settles O12: each clear is its operation under the token rule. -/
theorem counterClearsKeeping : Obligations.CounterClearsKeeping := by
  intro t rd w ch s took
  exact ⟨fun h => next_of_takes h rfl, fun h => next_of_takes h rfl, fun h => next_of_takes h rfl,
    fun h => next_of_takes h rfl⟩

/-- Settles O13: each read is its operation, without a token. -/
theorem wideReadsLatch : Obligations.WideReadsLatch := fun _ _ _ _ => ⟨rfl, rfl, rfl, rfl⟩

/-- Settles O15: where no commit waits, each command is its operation under the token rule. -/
theorem stagingCommands : Obligations.StagingCommands := by
  intro t rd tok s takes free
  exact ⟨next_of_takes takes (State.stageCommit_free (s := s.tick t) free tok),
    next_of_takes takes (State.stageDiscard_free (s := s.tick t) free)⟩

/-- Settles O17: freeze and release are operations under the token rule; the expiry acts once 100 ms are over. -/
theorem freezeHoldsTheView : Obligations.FreezeHoldsTheView := by
  intro t rd tok s
  exact ⟨fun takes => ⟨next_of_takes takes rfl, next_of_takes takes rfl⟩,
    fun frozen due => congrArg Host.Outcome.next (State.freezeExpire_due (s := s.tick t) frozen due)⟩

/-- Settles O19: each end acts once its time is over. -/
theorem expertTimes : Obligations.ExpertTimes := by
  intro t t0 rd s
  exact ⟨fun unlocked due => congrArg Host.Outcome.next (State.expertIdle_due (s := s.tick t) unlocked due),
    fun blocked due => congrArg Host.Outcome.next (State.expertBlockEnd_due (s := s.tick t) blocked due)⟩

end Sys2Proof.Proofs

/-! SUPPORT. The expert unlock (R47): what an attempt leaves of its reader, and which sources it raises. -/

namespace Sys2Proof.Machine

/-- A reader after an attempt: a blocked one is not judged, a right proof unlocks, the fifth failure blocks. -/
def Expert.judged (e : Expert) (right : Bool) (now : Nat) : Expert :=
  if e.blockedSince.isSome then e
  else if right then { e with unlocked := true, lastWrite := now, failures := 0 }
  else if e.failures + 1 ≥ 5 then { e with failures := 5, blockedSince := some now }
  else { e with failures := e.failures + 1 }

@[simp] theorem State.onExpert_expert (rd : Nat) (f : Expert → Expert) (s : State) :
    nget (s.onExpert rd f).b.sys.experts rd {} = f (nget s.b.sys.experts rd {}) := nget_nupd_same ..

@[simp] theorem State.newNonce_expert (rd : Nat) (s : State) :
    nget (s.newNonce rd).b.sys.experts rd {} = { nget s.b.sys.experts rd {} with nonce := some s.draws } :=
  State.onExpert_expert rd (fun e => { e with nonce := some s.draws }) s

@[simp] theorem State.newNonce_draws (rd : Nat) (s : State) : (s.newNonce rd).draws = s.draws + 1 := rfl

@[simp] theorem State.newNonce_fcl (rd : Nat) (s : State) : (s.newNonce rd).b.fcl = s.b.fcl := rfl

@[simp] theorem State.onExpert_fcl (rd : Nat) (f : Expert → Expert) (s : State) : (s.onExpert rd f).b.fcl = s.b.fcl := rfl

@[simp] theorem State.onExpert_draws (rd : Nat) (f : Expert → Expert) (s : State) : (s.onExpert rd f).draws = s.draws := rfl

@[simp] theorem State.raise_sys (i : Nat) (d : Word) (z : Option Nat) (u : Nat) (k : Option Block) (s : State) :
    (s.raise i d z u k).b.sys = s.b.sys := rfl

@[simp] theorem State.raise_draws (i : Nat) (d : Word) (z : Option Nat) (u : Nat) (k : Option Block) (s : State) :
    (s.raise i d z u k).draws = s.draws := rfl

/-- An attempt, by its four outcomes: the reader is judged and has a new nonce. -/
theorem State.unlock_outcome (rd : Reader) (s : State) :
    let e := nget s.b.sys.experts rd.idx {}
    (s.unlock rd).1.draws = s.draws + 1 ∧
      nget (s.unlock rd).1.b.sys.experts rd.idx {} = { e.judged (s.b.proofOk rd) s.b.now with nonce := some s.draws } ∧
      (s.unlock rd).2 = (if e.blockedSince.isSome then rRefused else if s.b.proofOk rd then rDone else rNotAuth) ∧
      (s.unlock rd).1.b.fcl.arrivals.map (·.id) = s.b.fcl.arrivals.map (·.id) ++
        (if e.blockedSince.isSome || s.b.proofOk rd then [] else if e.failures + 1 ≥ 5 then [8, 9] else [8]) := by
  intro e
  unfold State.unlock Expert.judged
  by_cases blocked : e.blockedSince.isSome = true
  · simp [e, blocked]
  by_cases right : s.b.proofOk rd = true
  · simp [e, blocked, right]
  by_cases fifth : e.failures + 1 ≥ 5 <;> simp [e, blocked, right, fifth]

end Sys2Proof.Machine

namespace Sys2Proof.Proofs

open Sys2Proof Sys2Proof.Machine

/-- Settles O18: an attempt is its operation under the token rule, and leaves what its outcome says. -/
theorem expertUnlock : Obligations.ExpertUnlock := by
  intro t rd tok s takes e
  obtain ⟨draws, expert, result, arrivals⟩ := (s.tick t).unlock_outcome rd
  exact ⟨⟨_, _, next_of_takes takes rfl, draws, expert, result, arrivals⟩, next_of_takes takes rfl⟩

end Sys2Proof.Proofs

/-! SUPPORT. Writes by access code (R32, R38, R42, R461): what one aligned word does to a staged, a reader's own and a read-only
register, and what any other access shows. -/

namespace Sys2Proof.Machine

section
variable {rd : Reader} {addr page off width : Nat} {bv : Bool} {s : State} (w : Word)

/-! ### Staged registers (R42, R459) -/

theorem State.stage_misfit {r : Nat} (free : (s.b.stagingOf r).pending = false) (may : s.b.mayStage (aView addr) = true)
    (fits : wordFits (rwsFields (aView addr)) w = false) : s.stage r addr w = (s, rBadArg) := by
  simp [State.stage, free, may, fits]

theorem State.stage_full {r : Nat} (free : (s.b.stagingOf r).pending = false) (may : s.b.mayStage (aView addr) = true)
    (fits : wordFits (rwsFields (aView addr)) w = true) (full : 1024 ≤ (s.b.stagingOf r).writes.length)
    (others : ∀ x ∈ (s.b.stagingOf r).writes, x.1 ≠ addr) : s.stage r addr w = (s, rStagingFull) := by
  have new : ((s.b.stagingOf r).writes.all fun x => x.1 != addr) = true := by simpa using fun a b h => others (a, b) h
  simp [State.stage, free, may, fits, full, new]

theorem State.stage_entered {r : Nat} (free : (s.b.stagingOf r).pending = false) (may : s.b.mayStage (aView addr) = true)
    (fits : wordFits (rwsFields (aView addr)) w = true)
    (room : (s.b.stagingOf r).writes.length < 1024 ∨ ∃ x ∈ (s.b.stagingOf r).writes, x.1 = addr) :
    s.stage r addr w = (s.onStaging r fun g => g.enter addr w, rPending) := by
  have room' : ¬ ((s.b.stagingOf r).writes.length ≥ 1024 ∧ ((s.b.stagingOf r).writes.all fun x => x.1 != addr) = true) := by
    rintro ⟨full, new⟩
    obtain few | ⟨x, hx, rfl⟩ := room
    · omega
    · simpa using List.all_eq_true.mp new x hx
  unfold State.stage
  dsimp only
  rw [if_neg (by simp [may, free]), if_neg (by simp [fits]), if_neg room']

/-! ### Any write -/

/-- A register of the A view that is not staged. -/
theorem State.busWrite_known (hsplit : splitAddr addr = some (page, false, off)) (aligned : addr % 4 = 0)
    (whole : page + off = addr) (unstaged : isRws addr = false) {o : Option State} (e : s.writeKnown rd .a addr w = o) :
    s.busWrite rd addr 4 w = o.getD (s.plain rd page fun s => (s, rReadOnly)) := by
  subst e
  simp only [State.busWrite, State.writeWord, hsplit, aligned, whole, unstaged, and_self, if_true, Bool.false_eq_true, if_false]
  cases s.writeKnown rd .a addr w <;> rfl

theorem State.writeKnown_own {m : Word} (c : Ch) (high : 256 ≤ addr % 4096) (own : ownMask addr = some m) :
    s.writeKnown rd c addr w =
      some (s.plain rd (addr / 4096 * 4096) fun s => (s.setOwn rd.idx addr (w &&& m), rDone)) := by
  unfold State.writeKnown
  dsimp only
  rw [if_neg (by omega), if_neg (by omega), own]

theorem State.writeKnown_header (c : Ch) (low : addr % 4096 < 256) (notLatch : addr % 4096 ≠ 0x14) :
    s.writeKnown rd c addr w = none := by
  unfold State.writeKnown
  dsimp only
  rw [if_neg notLatch, if_pos low]

/-- An access that is not one aligned word shows its error to every reader that is no core pair. -/
theorem State.busWrite_misaligned (hsplit : splitAddr addr = some (page, bv, off)) (wrong : ¬ (width = 4 ∧ addr % 4 = 0))
    (noPair : ∀ k, rd ≠ .pair k) : s.busWrite rd addr width w = s.result rd page rWidth := by
  simp only [State.busWrite, hsplit, wrong, if_false]

end

end Sys2Proof.Machine

namespace Sys2Proof.Proofs

open Sys2Proof Sys2Proof.Machine

/-- Settles O20: each clause by the kind of register that the word reaches. -/
theorem registerWrites : Obligations.RegisterWrites := by
  intro t rd page off addr width bv w m s hsplit reaches both
  -- both commands are the write at their instant
  have writes : ∀ {u}, (s.tick t).busWrite rd addr width w = u → both u :=
    fun e => ⟨congrArg Host.Outcome.next e, congrArg Host.Outcome.next e⟩
  have plain : ∀ run, (s.tick t).plain rd page run = _ := fun run => State.plain_reaches (s := s.tick t) run reaches
  refine ⟨fun hw aligned staged free may => ?staged, fun hw aligned hbv hpage hoff unstaged high own => ?own,
    fun hw aligned hbv hpage hoff unstaged low notLatch => ?header, fun wrong noPair => ?width⟩
  case staged =>
    subst hw
    have entry := State.busWrite_rws (rd := rd) (s := s.tick t) hsplit aligned staged w
    refine ⟨fun misfit => writes ?misfit, fun fits => ⟨fun room => writes ?entered, fun full others => writes ?full⟩⟩
    case misfit => rw [entry, plain, State.stage_misfit (s := s.tick t) w free may misfit]
    case entered => rw [entry, plain, State.stage_entered (s := s.tick t) w free may fits room]; rfl
    case full => rw [entry, plain, State.stage_full (s := s.tick t) w free may fits full others]
  case own =>
    subst hw hbv
    refine writes ((State.busWrite_known w hsplit aligned (by omega) unstaged (State.writeKnown_own w .a (by omega) own)).trans ?_)
    rw [Option.getD_some, ← hpage, plain]
    rfl
  case header =>
    subst hw hbv
    refine writes ((State.busWrite_known w hsplit aligned (by omega) unstaged
      (State.writeKnown_header w .a (by omega) (by omega))).trans ?_)
    rw [Option.getD_none, plain]
  case width => exact writes (State.busWrite_misaligned w hsplit wrong noPair)

end Sys2Proof.Proofs

/-! SUPPORT. What a record leaves alone (R325), and RWX writes (R38, R47): under the unlock they run, and their idle time
restarts. -/

namespace Sys2Proof.Machine

/-! ### What a record leaves alone -/

/-- A record changes the collector, the recorder, the retention register and the sessions' notices alone. -/
theorem State.record_only (trig : Nat) (detail : List Byte) (s : State) : Only 37945344 s (s.record trig detail) :=
  .record _ _ rfl (.refl _ s)

section
variable (trig : Nat) (detail : List Byte) (s : State)
@[simp] theorem State.record_now : (s.record trig detail).b.now = s.b.now := (s.record_only trig detail).same_of .now rfl
@[simp] theorem State.record_sys : (s.record trig detail).b.sys = s.b.sys := (s.record_only trig detail).same_of .sys rfl
@[simp] theorem State.record_tru : (s.record trig detail).b.tru = s.b.tru := (s.record_only trig detail).same_of .tru rfl
@[simp] theorem State.record_fab : (s.record trig detail).b.fab = s.b.fab := (s.record_only trig detail).same_of .fab rfl
@[simp] theorem State.record_agr : (s.record trig detail).b.agr = s.b.agr := (s.record_only trig detail).same_of .agr rfl
@[simp] theorem State.record_bst : (s.record trig detail).b.bst = s.b.bst := (s.record_only trig detail).same_of .bst rfl
@[simp] theorem State.record_otp : (s.record trig detail).b.otp = s.b.otp := (s.record_only trig detail).same_of .otp rfl
@[simp] theorem State.record_cfg : (s.record trig detail).b.cfg = s.b.cfg := (s.record_only trig detail).same_of .cfg rfl
end

theorem Blocks.life_congr {x y : Blocks} (h : x.otp = y.otp) : x.life = y.life := by
  unfold Blocks.life
  rw [h]

/-! ### RWX writes -/

@[simp] theorem State.result_tokenOf (rd : Reader) (page r : Nat) (s : State) :
    (s.result rd page r).b.tokenOf page rd.idx = { s.b.tokenOf page rd.idx with last := r, settles := false } :=
  nget_nupd_same _ _ _ fun e : Token => { e with last := r, settles := false }

@[simp] theorem State.result_tru (rd : Reader) (page r : Nat) (s : State) : (s.result rd page r).b.tru = s.b.tru := rfl
@[simp] theorem State.result_fab (rd : Reader) (page r : Nat) (s : State) : (s.result rd page r).b.fab = s.b.fab := rfl
@[simp] theorem State.result_agr (rd : Reader) (page r : Nat) (s : State) : (s.result rd page r).b.agr = s.b.agr := rfl
@[simp] theorem State.result_bst (rd : Reader) (page r : Nat) (s : State) : (s.result rd page r).b.bst = s.b.bst := rfl

@[simp] theorem State.result_experts (rd : Reader) (page r : Nat) (s : State) :
    (s.result rd page r).b.sys.experts = s.b.sys.experts := rfl

/-- The state in which an RWX write runs: the unlock's idle time restarts, and the write is recorded. -/
def State.expertStart (rd : Reader) (addr : Nat) (w : Word) (s : State) : State :=
  (s.onExpert rd.idx fun e => { e with lastWrite := s.b.now }).record 0x0B (beBytes rd.port 1 ++ beBytes addr 4 ++ beBytes w.toNat 4)

section
variable {rd : Reader} {page addr r : Nat} {w : Word} {s u : State} {run : State → State × Nat}

@[simp] theorem State.expertStart_tru : (s.expertStart rd addr w).b.tru = s.b.tru := State.record_tru ..
@[simp] theorem State.expertStart_fab : (s.expertStart rd addr w).b.fab = s.b.fab := State.record_fab ..
@[simp] theorem State.expertStart_agr : (s.expertStart rd addr w).b.agr = s.b.agr := State.record_agr ..
@[simp] theorem State.expertStart_bst : (s.expertStart rd addr w).b.bst = s.b.bst := State.record_bst ..

theorem State.expertStart_life (rd : Reader) (addr : Nat) (w : Word) (s : State) : (s.expertStart rd addr w).b.life = s.b.life :=
  Blocks.life_congr (State.record_otp ..)

theorem State.expertAt_locked (run : State → State × Nat) (w : Word) (reaches : s.b.reaches rd page = true)
    (locked : s.b.unlocked rd = false) : s.expertAt rd page addr w run = s.result rd page rNotAuth := by
  rw [State.expertAt, State.plain_reaches _ reaches, locked]
  rfl

/-- Under the unlock the write runs, its result shows, and the idle time has restarted. -/
theorem State.expertAt_unlocked (reaches : s.b.reaches rd page = true) (unlocked : s.b.unlocked rd = true)
    (e : run (s.expertStart rd addr w) = (u, r)) (keeps : u.b.sys = (s.expertStart rd addr w).b.sys) :
    s.expertAt rd page addr w run = u.result rd page r ∧ ((u.result rd page r).b.tokenOf page rd.idx).last = r ∧
      (nget (u.result rd page r).b.sys.experts rd.idx {}).lastWrite = s.b.now := by
  refine ⟨?runs, by rw [State.result_tokenOf], ?idle⟩
  case runs =>
    rw [State.expertAt, State.plain_reaches _ reaches, unlocked, if_pos rfl]
    exact congrArg (fun p : State × Nat => p.1.result rd page p.2) e
  case idle => rw [State.result_experts, keeps, State.expertStart, State.record_sys, State.onExpert_expert]

end

/-! ### The injections (R31, R118, R281, R356) -/

section
variable {s : State} (w : Word)

theorem State.truInject_made (h : s.b.life = .manufacture) : s.truInject w =
    (s.onTru fun u => { u with injectKind := BitVec.ofNat 2 (fld w 29 28), injectOff := BitVec.ofNat 20 (fld w 19 0) }, rDone) :=
  if_pos h

theorem State.truInject_not_made (h : s.b.life ≠ .manufacture) : s.truInject w = (s, rRefused) := if_neg h

theorem State.fabInject_not_made (c : Ch) (h : s.b.life ≠ .manufacture) : s.fabInject c w = (s, rRefused) := if_pos h

theorem State.fabInject_reserved (c : Ch) (h : s.b.life = .manufacture)
    (bad : fld w 31 30 > 1 ∨ fld w 31 30 = 1 ∧ isClause (fld w 14 0) = false) : s.fabInject c w = (s, rBadArg) := by
  rw [State.fabInject, if_neg (not_not.mpr h), if_pos bad]

theorem State.fabInject_made (c : Ch) (h : s.b.life = .manufacture)
    (good : fld w 31 30 = 0 ∨ fld w 31 30 = 1 ∧ isClause (fld w 14 0) = true) : s.fabInject c w =
    (s.onFab fun f => f.onCh c fun x => { x with injectKind := BitVec.ofNat 2 (fld w 31 30), injectIndex := fld w 14 0 },
      rDone) := by
  have fine : ¬ (fld w 31 30 > 1 ∨ fld w 31 30 = 1 ∧ isClause (fld w 14 0) = false) := by
    rintro (high | ⟨one, no⟩)
    · omega
    · obtain zero | ⟨-, yes⟩ := good
      · omega
      · simp [no] at yes
  rw [State.fabInject, if_neg (not_not.mpr h), if_neg fine]

theorem State.agrInject_not_made (h : s.b.life ≠ .manufacture) : s.agrInject w = (s, rRefused) := if_neg h

theorem State.agrInject_reserved (h : s.b.life = .manufacture) (bad : fld w 5 4 = 3) : s.agrInject w = (s, rBadArg) := by
  rw [State.agrInject, if_pos h, if_pos bad]

theorem State.agrInject_made (h : s.b.life = .manufacture) (good : fld w 5 4 ≠ 3) :
    s.agrInject w = (s.onAgr fun a => { a with injectPair := fld w 1 0, injectKind := fld w 5 4 }, rDone) := by
  rw [State.agrInject, if_pos h, if_neg good]

theorem State.bstCtrl_made (c : Ch) (h : s.b.life = .manufacture) : s.bstCtrl c w =
    (s.onSeqr c fun q => { q with suspend := w.getLsbD 15, force := w.getLsbD 14, forceIndex := fld w 13 0 }, rDone) :=
  if_pos h

theorem State.bstCtrl_not_made (c : Ch) (h : s.b.life ≠ .manufacture) : s.bstCtrl c w = (s, rRefused) := if_neg h

end

end Sys2Proof.Machine

namespace Sys2Proof.Proofs

open Sys2Proof Sys2Proof.Machine

/-- Settles O21: each write is its operation under the rule of RWX registers. -/
theorem expertInjections : Obligations.ExpertInjections := by
  intro t rd ch w s made ends
  -- an unlocked write that reaches its page ends in the state its operation leaves
  have run : ∀ {c page addr r u run} {same : State → Prop}, exec c s = .next ((s.tick t).expertAt rd page addr w run) →
      s.b.reaches rd page = true → s.b.unlocked rd = true → run ((s.tick t).expertStart rd addr w) = (u, r) →
      u.b.sys = ((s.tick t).expertStart rd addr w).b.sys → same (u.result rd page r) → ends c page r same := by
    intro c page addr r u run same e reaches unlocked hrun keeps hsame
    obtain ⟨hu, last, idle⟩ := State.expertAt_unlocked (s := s.tick t) reaches unlocked hrun keeps
    exact ⟨_, e.trans (congrArg _ hu), hsame, last, idle⟩
  have life : ∀ addr, ((s.tick t).expertStart rd addr w).b.life = s.b.life := fun addr => State.expertStart_life rd addr w (s.tick t)
  refine ⟨fun locked => ?locked, fun unlocked => ⟨fun hr => ?tru, fun hr => ?fab, fun hr => ?agr, fun hr => ?bst⟩⟩
  case locked =>
    have shown : ∀ {page addr run}, s.b.reaches rd page = true →
        Host.Outcome.next ((s.tick t).expertAt rd page addr w run) = .next ((s.tick t).result rd page rNotAuth) :=
      fun hr => congrArg (Host.Outcome.next (φ := Fault) (ρ := Refusal)) (State.expertAt_locked (s := s.tick t) _ w hr locked)
    exact ⟨fun hr => shown hr, fun hr => shown hr, fun hr => shown hr, fun hr => ⟨shown hr, shown hr⟩⟩
  case tru =>
    exact ⟨fun m => run rfl hr unlocked (State.truInject_made w ((life _).trans m)) rfl (by simp),
      fun m => run rfl hr unlocked (State.truInject_not_made w ((life _) ▸ m)) rfl (by simp)⟩
  case fab =>
    exact ⟨fun m good => run rfl hr unlocked (State.fabInject_made w ch ((life _).trans m) good) rfl (by simp),
      fun m bad => run rfl hr unlocked (State.fabInject_reserved w ch ((life _).trans m) bad) rfl (by simp),
      fun m => run rfl hr unlocked (State.fabInject_not_made w ch ((life _) ▸ m)) rfl (by simp)⟩
  case agr =>
    exact ⟨fun m good => run rfl hr unlocked (State.agrInject_made w ((life _).trans m) good) rfl (by simp),
      fun m bad => run rfl hr unlocked (State.agrInject_reserved w ((life _).trans m) bad) rfl (by simp),
      fun m => run rfl hr unlocked (State.agrInject_not_made w ((life _) ▸ m)) rfl (by simp)⟩
  case bst =>
    -- both commands are the one write
    refine ⟨fun m => ?_, fun m => ?_⟩ <;> rintro c (rfl | rfl)
    · exact run rfl hr unlocked (State.bstCtrl_made w ch ((life _).trans m)) rfl (by simp [State.onSeqr])
    · exact run rfl hr unlocked (State.bstCtrl_made w ch ((life _).trans m)) rfl (by simp [State.onSeqr])
    · exact run rfl hr unlocked (State.bstCtrl_not_made w ch ((life _) ▸ m)) rfl (by simp)
    · exact run rfl hr unlocked (State.bstCtrl_not_made w ch ((life _) ▸ m)) rfl (by simp)

end Sys2Proof.Proofs

/-! SUPPORT. The channels' diversity (R14, R92): of conjugate tables the two channels' evaluations are complements, word for
word. -/

namespace Sys2Proof

@[simp] theorem NV.conj_conj (v : NV) : v.conj.conj = v := by simp [NV.conj]

end Sys2Proof

namespace Sys2Proof.Machine

/-! ### The conjugate word -/

theorem dualOp_eq (op : Nat) :
    dualOp op = if op = 1 then 2 else if op = 2 then 1 else if op = 12 then 13 else if op = 13 then 12 else op := by
  unfold dualOp
  split <;> simp_all

@[simp] theorem dualOp_dualOp (op : Nat) : dualOp (dualOp op) = op := by
  rw [dualOp_eq (dualOp op), dualOp_eq op]
  split_ifs <;> omega

theorem dualOp_lt {op : Nat} (h : op < 64) : dualOp op < 64 := by
  rw [dualOp_eq]
  split_ifs <;> omega

theorem dualOp_eq_call (op : Nat) : dualOp op = 0x12 ↔ op = 0x12 := by
  rw [dualOp_eq]
  split_ifs <;> omega

@[simp] theorem statefulOp_dualOp (op : Nat) : statefulOp (dualOp op) = statefulOp op := by
  unfold statefulOp
  rw [dualOp_eq, ← Bool.decide_and, ← Bool.decide_and, decide_eq_decide]
  split_ifs <;> omega

/-- The conjugate of a word, as a number: another operation over the same low bits. -/
theorem conjugateWord_toNat (w : BitVec 128) :
    (conjugateWord w).toNat = w.toNat % 2 ^ 122 + dualOp (clauseOp w) * 2 ^ 122 := by
  have dual : dualOp (clauseOp w) < 64 := dualOp_lt (by unfold clauseOp; omega)
  rw [conjugateWord, BitVec.toNat_ofNat, Nat.mod_eq_of_lt (by omega)]

/-- Channel B's word for one of channel A: the dual operation on the same operands and parameter. -/
structure Conjugate (w w' : BitVec 128) : Prop where
  op : clauseOp w' = dualOp (clauseOp w)
  param : clauseParam w' = clauseParam w
  refs : clauseRefs w' = clauseRefs w

theorem conjugate_conjugateWord (w : BitVec 128) : Conjugate w (conjugateWord w) := by
  have e := conjugateWord_toNat w
  refine ⟨?op, ?param, List.map_congr_left fun i hi => ?ref⟩
  case op =>
    rw [clauseOp, e]
    omega
  case param =>
    rw [clauseParam, e, clauseParam]
    omega
  case ref =>
    -- every operand reference lies in the low 122 bits
    have opd : clauseOpd (conjugateWord w) i = clauseOpd w i := by
      rw [clauseOpd, e, clauseOpd]
      have small : i < 7 := by simp at hi; omega
      interval_cases i <;> omega
    rw [opd]

/-! ### The conjugate table -/

section
variable {α β : Type} (g : α → β)

/-- The entry of a table with its value changed. -/
def onValue (x : Nat × α) : Nat × β := (x.1, g x.2)

theorem nput_map (m : NMap α) (k : Nat) (v : α) : nput (m.map (onValue g)) k (g v) = (nput m k v).map (onValue g) := by
  induction m with
  | nil => rfl
  | cons x r ih =>
    obtain ⟨i, u⟩ := x
    simp only [List.map_cons, onValue, nput]
    split
    · rfl
    · split
      · rfl
      · rw [ih, List.map_cons, onValue]

theorem foldl_nput_map (l m : NMap α) :
    (l.map (onValue g)).foldl (fun m x => nput m x.1 x.2) (m.map (onValue g)) =
      (l.foldl (fun m x => nput m x.1 x.2) m).map (onValue g) := by
  induction l generalizing m with
  | nil => rfl
  | cons x l ih =>
    rw [List.map_cons, List.foldl_cons, List.foldl_cons, ← ih]
    exact congrArg (fun t => (l.map (onValue g)).foldl (fun m x => nput m x.1 x.2) t) (nput_map g m x.1 x.2)

end

/-- The order of R107 of a table whose words are all changed alike. -/
theorem orderIn_map {im : Image} {g : BitVec 128 → BitVec 128} (h : im.clausesB = im.clausesA.map (onValue g)) :
    im.orderIn .b = (im.orderIn .a).map (onValue g) := by
  have table : im.tableIn .b = (im.tableIn .a).map (onValue g) := by
    show im.clausesB.foldl (fun m x => nput m x.1 x.2) [] = _
    rw [h]
    exact foldl_nput_map g im.clausesA []
  have level : ∀ (t : NMap (BitVec 128)) (l : Nat), (t.map (onValue g)).filter (fun x => im.level x.1 == l) =
      (t.filter fun x => im.level x.1 == l).map (onValue g) := fun t l => List.filter_map
  unfold Image.orderIn
  rw [table, List.map_flatMap]
  simp only [level]

/-! ### Words as the channels hold them -/

/-- Channel B's outputs are the complements of channel A's. -/
def Mirrored (mA mB : NMap NV) : Prop := ∀ k, nget mB k (NV.conj {}) = (nget mA k {}).conj

/-- Both constant stores name the same constants, in complementary form. -/
def ConstsMirrored (im : Image) : Prop :=
  (im.constsA.all fun c => nget im.constsB c.1 (NV.conj {}) == c.2.conj) = true ∧
    (im.constsB.all fun c => givesConst im (c.1 + 20480)) = true

theorem nget_of_not_listed {α : Type} {m : NMap α} {k : Nat} (d : α) (h : ∀ x ∈ m, x.1 ≠ k) : nget m k d = d := by
  induction m with
  | nil => rfl
  | cons x r ih =>
    show (if x.1 = k then x.2 else nget r k d) = d
    rw [if_neg (h x List.mem_cons_self), ih fun y hy => h y (List.mem_cons_of_mem _ hy)]

/-- A listed place reads as one of its entries. -/
theorem mem_of_listed {α : Type} {m : NMap α} {k : Nat} (d : α) (h : ∃ x ∈ m, x.1 = k) : (k, nget m k d) ∈ m := by
  induction m with
  | nil => simp at h
  | cons x r ih =>
    obtain ⟨i, v⟩ := x
    show (k, if i = k then v else nget r k d) ∈ _
    split
    next e => exact e ▸ List.mem_cons_self
    next ne =>
      obtain ⟨y, hy, e⟩ := h
      obtain rfl | hy := List.mem_cons.mp hy
      · exact absurd e ne
      · exact List.mem_cons_of_mem _ (ih ⟨y, hy, e⟩)

theorem consts_mirrored {im : Image} (h : ConstsMirrored im) : Mirrored im.constsA im.constsB := by
  obtain ⟨values, listed⟩ := h
  intro k
  by_cases given : ∃ x ∈ im.constsA, x.1 = k
  case pos => exact eq_of_beq (List.all_eq_true.mp values _ (mem_of_listed {} given))
  case neg =>
    push Not at given
    have unlisted : ∀ x ∈ im.constsB, x.1 ≠ k := by
      rintro x hx rfl
      obtain ⟨y, hy, e⟩ := List.any_eq_true.mp (List.all_eq_true.mp listed x hx)
      exact given y hy (Nat.add_right_cancel (eq_of_beq e))
    rw [nget_of_not_listed _ given, nget_of_not_listed _ unlisted]

section
variable {b : Blocks}

theorem heldWord_mirrored (consts : ConstsMirrored b.img) {mA mB : NMap NV} (h : Mirrored mA mB) (x : Nat) :
    b.heldWord .b mB x = (b.heldWord .a mA x).conj := by
  unfold Blocks.heldWord
  split
  · exact h x
  · split
    · exact consts_mirrored consts _
    · rfl

/-! ### One clause, and the whole table -/

/-- The two channels' evaluations so far: complementary outputs, the same new states. -/
structure EvalMirrored (x y : Evaluated) : Prop where
  values : Mirrored x.values y.values
  clauseNew : y.clauseNew = x.clauseNew
  fnNew : y.fnNew = x.fnNew

theorem mirrored_nset {mA mB : NMap NV} (h : Mirrored mA mB) (k : Nat) (v : NV) :
    Mirrored (nset mA k v {}) (nset mB k v.conj (NV.conj {})) := by
  intro j
  rw [nget_nset, nget_nset]
  split
  · rfl
  · exact h j

theorem injected_of_kind {f : FabCh} (h : f.injectKind ≠ 1) (x : Nat) (v : NV) : f.injected x v = v :=
  if_neg fun hk => h hk.1

/-- What the channels hold alike at the start of a sentence: no output injection, the same states. -/
structure FabMirrored (b : Blocks) : Prop where
  freeA : b.fab.a.injectKind ≠ 1
  freeB : b.fab.b.injectKind ≠ 1
  clauseSt : b.fab.b.clauseSt = b.fab.a.clauseSt
  fnSt : b.fab.b.fnSt = b.fab.a.fnSt

/-- One clause: channel B's word is the conjugate, and its result the complement. -/
theorem evalClause_mirrored (consts : ConstsMirrored b.img) (start : FabMirrored b) (n k : Nat) {w w' : BitVec 128}
    (conj : Conjugate w w') {eA eB : Evaluated} (h : EvalMirrored eA eB) :
    EvalMirrored (b.evalClause .a n (k, w) eA) (b.evalClause .b n (k, w') eB) := by
  -- the operands in true sense are the same in both channels
  have operands : ((clauseRefs w).map (·.map (b.heldWord .b eB.values))).map (·.map NV.conj) =
      (clauseRefs w).map (·.map (b.heldWord .a eA.values)) := by
    rw [List.map_map]
    refine List.map_congr_left fun r _ => ?_
    cases r <;> simp [heldWord_mirrored consts h.values]
  have trueA : ∀ l : List (Option NV), l.map (·.map (NV.held .a)) = l := by
    have same : (fun o : Option NV => o.map (NV.held .a)) = id := funext fun o => by cases o <;> rfl
    exact fun l => by rw [same, List.map_id]
  have trueB : ∀ l : List (Option NV), l.map (·.map (NV.held .b)) = l.map (·.map NV.conj) := fun _ => rfl
  unfold Blocks.evalClause
  simp only [conj.op, conj.param, conj.refs, dualOp_eq_call, Fab.channel, injected_of_kind start.freeA,
    injected_of_kind start.freeB, start.clauseSt, start.fnSt]
  split
  case isTrue call =>
    split
    next g entry =>
      rw [trueA, trueB, operands]
      exact ⟨mirrored_nset h.values _ _, h.clauseNew, congrArg (nset · g.inst _ {}) h.fnNew⟩
    next => exact h
  case isFalse other =>
    simp only [evalOpIn, dualOp_dualOp, operands, statefulOp_dualOp]
    refine ⟨mirrored_nset h.values _ _, ?_, h.fnNew⟩
    split
    · exact congrArg (nset · k _ {}) h.clauseNew
    · exact h.clauseNew

theorem evaluate_mirrored {g : BitVec 128 → BitVec 128} (conj : ∀ w, Conjugate w (g w))
    (table : b.img.clausesB = b.img.clausesA.map (onValue g)) (consts : ConstsMirrored b.img) (start : FabMirrored b)
    (n : Nat) : EvalMirrored (b.evaluate .a n) (b.evaluate .b n) := by
  have run : ∀ (l : List (Nat × BitVec 128)) {eA eB : Evaluated}, EvalMirrored eA eB →
      EvalMirrored (forL l (b.evalClause .a n) eA) (forL (l.map (onValue g)) (b.evalClause .b n) eB) := by
    intro l
    induction l with
    | nil => exact id
    | cons x l ih => exact fun h => ih (evalClause_mirrored consts start n x.1 (conj x.2) h)
  unfold Blocks.evaluate
  rw [orderIn_map table]
  exact run _ ⟨fun _ => rfl, rfl, rfl⟩

/-! ### The agreement -/

theorem disagreement_of_mirrored (consts : ConstsMirrored b.img) {x y : FabCh} (values : Mirrored x.values y.values)
    (fnNew : y.fnNew = x.fnNew) : b.disagreement x y = none := by
  have clauses : b.clauseDiffers x y = none := by
    rw [Blocks.clauseDiffers, Option.map_eq_none_iff, List.find?_eq_none]
    intro c _
    rw [values, NV.conj_conj, fnNew]
    simp
  have sinks : ((bindings b.img).find? fun k => b.heldWord .a x.values k.2 != (b.heldWord .b y.values k.2).conj) = none := by
    rw [List.find?_eq_none]
    intro k _
    rw [heldWord_mirrored consts values, NV.conj_conj]
    simp
  rw [Blocks.disagreement, clauses, sinks]
  rfl

/-- What the image checks say of the two channels' tables. -/
theorem tables_of_clauseRules (h : (b.clauseRules.all fun r => r.2) = true) :
    b.img.clausesB = b.img.clausesA.map (onValue conjugateWord) ∧ ConstsMirrored b.img := by
  simp only [Blocks.clauseRules, List.all_cons, List.all_nil, Bool.and_eq_true, beq_iff_eq] at h
  obtain ⟨-, -, -, -, -, table, -, ⟨values, listed⟩, -⟩ := h
  exact ⟨table, by simpa [List.all_eq_true] using values, listed⟩

end

end Sys2Proof.Machine

namespace Sys2Proof.Proofs

open Sys2Proof Sys2Proof.Machine

/-- Settles O27: clause by clause channel B evaluates the conjugate of channel A's word on complementary operands. -/
theorem channelsAgree : Obligations.ChannelsAgree := by
  intro b n rules freeA freeB clauseSt fnSt
  obtain ⟨table, consts⟩ := tables_of_clauseRules rules
  obtain ⟨values, clauseNew, fnNew⟩ := evaluate_mirrored conjugate_conjugateWord table consts ⟨freeA, freeB, clauseSt, fnSt⟩ n
  refine ⟨values, clauseNew, fnNew, fun x y hx hxf hy hyf => disagreement_of_mirrored consts ?_ ?_⟩
  · rw [hx, hy]
    exact values
  · rw [hxf, hyf, fnNew]

end Sys2Proof.Proofs

/-! SUPPORT. Collector rounds (R308 to R315): what a round leaves of the latches, with arrivals alone and with a clear alone. -/

namespace Sys2Proof.Machine

/-- Every part but one. -/
def Part.allBut (p : Part) : Nat := 2 ^ 36 - 1 - 2 ^ p.idx

/-- The latches stay where every part but them may change. -/
theorem Only.latches {r s : State} (h : Only (Part.allBut .latches) r s) :
    s.b.fcl.a.latch = r.b.fcl.a.latch ∧ s.b.fcl.b.latch = r.b.fcl.b.latch := h.same_of .latches rfl

/-! ### The safe-holding capture (R52) -/

theorem Lio.capture_captured (l : Lio) (first : Bool) {i : Nat} (h : i < 48) :
    (l.capture first).captured.getLsbD i = ((nget l.lichens i {}).signal && (first || !(nget l.lichens i {}).zeroSince)) :=
  (getLsbD_forN_setb _ _ _ _ le_rfl).trans (if_pos h)

/-! ### A round before its reactions -/

/-- The state in which a round's reactions begin: both trees have taken its changes. -/
def State.roundTaken (s : State) : State := ((s.newRound.recordRound s.b.changes).applyRound s.b.changes).darkAborts

theorem State.roundTaken_latches (s : State) :
    s.roundTaken.b.fcl.a.latch = (raisesOf s.b.changes).foldl (fun v (c : Change) => setb v c.id true) s.b.fcl.a.latch ∧
      s.roundTaken.b.fcl.b.latch = (raisesOf s.b.changes).foldl (fun v (c : Change) => setb v c.id true) s.b.fcl.b.latch := by
  have kept : Only (Part.allBut .latches) s (s.newRound.recordRound s.b.changes) := .recordRound _ rfl (.newRound rfl (.refl _ s))
  obtain ⟨a, b⟩ := kept.latches
  rw [← a, ← b]
  exact ⟨rfl, rfl⟩

/-- What follows the clears of a round leaves the latches. -/
theorem State.afterClears_latches (before : Blocks) (s : State) :
    Only (Part.allBut .latches) s (s.updateReady.errUpdate.healthTriggers before) :=
  .healthTriggers _ rfl (.errUpdate rfl (.updateReady rfl (.refl _ s)))

/-! ### A round of arrivals alone -/

/-- A bit of a vector after a list of places has been set. -/
theorem getLsbD_foldl_setb (l : List Change) (v : BitVec 512) {i : Nat} (hi : i < 512) :
    (l.foldl (fun v (c : Change) => setb v c.id true) v).getLsbD i = true ↔ v.getLsbD i = true ∨ ∃ c ∈ l, c.id = i := by
  rw [getLsbD_foldl (p := fun c : Change => decide (c.id = i)) fun m e => getLsbD_setb_true m e.id hi]
  simp

/-- A round without a clear latches what it raises, and no more. -/
theorem State.roundClose_latches {s : State} (isOpen : s.b.fcl.roundOpen = true) (noClears : s.b.fcl.clears = []) :
    Only (Part.allBut .latches) s.roundTaken s.roundClose := by
  unfold State.roundClose
  rw [if_pos isOpen]
  dsimp only
  rw [noClears]
  have reacts : Only (Part.allBut .latches) s.roundTaken (forL (raisesOf s.b.changes) (fun c s => s.react c) s.roundTaken) :=
    .forL _ (fun _ _ h => .react _ rfl h) (.refl _ _)
  exact .healthTriggers _ rfl (.errUpdate rfl (.updateReady rfl reacts))

/-- The sources that a round raises: those that rose in it, of one of the four severities. -/
theorem mem_raises (b : Blocks) {i : Nat} (hi : i < 512) (sev : b.effSev i ≤ 3) :
    (∃ c ∈ raisesOf b.changes, c.id = i) ↔
      (∃ y ∈ b.fcl.arrivals, y.id = i ∧ y.up = true) ∧ (srcCond i = false ∨ b.fcl.a.live.getLsbD i = false) := by
  have raised : (b.changeOf i).raised = true ↔
      (∃ y ∈ b.fcl.arrivals, y.id = i ∧ y.up = true) ∧ (srcCond i = false ∨ b.fcl.a.live.getLsbD i = false) := by
    simp [Blocks.changeOf, and_comm]
  have severities : (b.changeOf i).sev ∈ [3, 2, 1, 0] := by
    show b.effSev i ∈ _
    simp only [List.mem_cons, List.not_mem_nil, or_false]
    omega
  rw [← raised]
  constructor
  · rintro ⟨c, hc, rfl⟩
    obtain ⟨v, -, hc⟩ := List.mem_flatMap.mp hc
    obtain ⟨hc, hr⟩ := List.mem_filter.mp hc
    unfold Blocks.changes at hc
    split at hc
    · cases hc
    · obtain ⟨j, -, rfl⟩ := List.mem_map.mp hc
      exact (Bool.and_eq_true _ _ ▸ hr).1
  · intro hr
    obtain ⟨⟨y, hy, hid, -⟩, -⟩ := raised.mp hr
    refine ⟨b.changeOf i, List.mem_flatMap.mpr ⟨_, severities, List.mem_filter.mpr ⟨?_, by simp [hr]⟩⟩, rfl⟩
    unfold Blocks.changes
    rw [if_neg (by simpa using List.ne_nil_of_mem hy)]
    exact List.mem_map.mpr ⟨i, List.mem_filter.mpr ⟨List.mem_range.mpr hi, List.any_eq_true.mpr ⟨y, hy, by simp [hid]⟩⟩, rfl⟩

/-! ### A round of one clear -/

section
variable {s : State} {c : Clear}

theorem Blocks.changes_nil {b : Blocks} (h : b.fcl.arrivals = []) : b.changes = [] := by
  rw [Blocks.changes, h]
  rfl

/-- A round without arrivals leaves the trees' latches and live bits. -/
theorem State.roundTaken_idle (quiet : s.b.fcl.arrivals = []) :
    s.roundTaken.b.fcl.a.latch = s.b.fcl.a.latch ∧ s.roundTaken.b.fcl.b.latch = s.b.fcl.b.latch ∧
      s.roundTaken.b.fcl.a.live = s.b.fcl.a.live := by
  unfold State.roundTaken
  rw [Blocks.changes_nil quiet]
  exact ⟨rfl, rfl, rfl⟩

/-- A latch that is cleared falls in both trees, and no other does. -/
theorem State.unlatch_latches (c : Clear) (r i : Nat) (s : State) :
    (s.unlatch c r i).b.fcl.a.latch = setb s.b.fcl.a.latch i false ∧
      (s.unlatch c r i).b.fcl.b.latch = setb s.b.fcl.b.latch i false := by
  let start := s.onFcl fun f =>
    { f with a := f.a.unlatch i, b := f.b.unlatch i, seen := setb f.seen i false, clearCount := nupd f.clearCount i 0 (· + 1) }
  have kept : Only (Part.allBut .latches) start (s.unlatch c r i) := .record _ _ rfl (.onClear i rfl (.refl _ start))
  exact kept.latches

/-- A clear of one source that is latched and not live. -/
theorem State.runClear_one (single : c.all = false) (owned : c.whole = true ∨ owningPage c.source = c.page)
    (quiet : liveInRound s.b [] c.source = false) (latched : s.b.fcl.a.latch.getLsbD c.source = true) :
    (s.runClear [] c).b.fcl.a.latch = setb s.b.fcl.a.latch c.source false ∧
      (s.runClear [] c).b.fcl.b.latch = setb s.b.fcl.b.latch c.source false := by
  have allowed : (!c.whole && owningPage c.source != c.page) = false := by
    obtain h | h := owned <;> simp [h]
  have run : s.runClear [] c = (s.unlatch c rDone c.source).settle c.page c.reader c.token rDone := by
    simp [State.runClear, single, allowed, quiet, latched]
  rw [run]
  exact s.unlatch_latches c rDone c.source

/-- A round of one clear alone, of a source that is latched and not live. -/
theorem State.roundClose_clear (isOpen : s.b.fcl.roundOpen = true) (quiet : s.b.fcl.arrivals = []) (one : s.b.fcl.clears = [c])
    (single : c.all = false) (owned : c.whole = true ∨ owningPage c.source = c.page)
    (latched : s.b.fcl.a.latch.getLsbD c.source = true) (notLive : s.b.fcl.a.live.getLsbD c.source = false) :
    s.roundClose.b.fcl.a.latch = setb s.b.fcl.a.latch c.source false ∧
      s.roundClose.b.fcl.b.latch = setb s.b.fcl.b.latch c.source false := by
  obtain ⟨a, b, live⟩ := s.roundTaken_idle quiet
  have cleared := State.runClear_one (s := s.roundTaken) single owned (by rw [liveInRound, live, notLive]; rfl) (by rw [a, latched])
  have run : s.roundClose = (s.roundTaken.runClear [] c).rearmStart.updateReady.errUpdate.healthTriggers s.b := by
    unfold State.roundClose State.roundTaken
    rw [if_pos isOpen]
    dsimp only
    rw [one, Blocks.changes_nil quiet]
    rfl
  have kept : Only (Part.allBut .latches) (s.roundTaken.runClear [] c) s.roundClose := by
    rw [run]
    exact .healthTriggers _ rfl (.errUpdate rfl (.updateReady rfl (.rearmStart rfl (.refl _ _))))
  rw [kept.latches.1, kept.latches.2, cleared.1, cleared.2, a, b]
  exact ⟨rfl, rfl⟩

end

end Sys2Proof.Machine

namespace Sys2Proof.Proofs

open Sys2Proof Sys2Proof.Machine

/-- Settles O24: the captured bits are set one by one. -/
theorem booleanCaptureHoldsZero : Obligations.BooleanCaptureHoldsZero :=
  fun l first i => l.capture_captured first i.isLt

end Sys2Proof.Proofs

/-! SUPPORT. The collector outside its inbox: what only posts arrivals leaves every other field of it (R298). -/

namespace Sys2Proof.Machine

/-- The collector without its inbox: what arrivals do not change. -/
def Fcl.outsideInbox (f : Fcl) : Fcl := { f with arrivals := [], roundOpen := false, cause := 0 }

/-- `u` comes from `s` with no more than arrivals at the collector. -/
structure Posts (s u : State) : Prop where
  outside : u.b.fcl.outsideInbox = s.b.fcl.outsideInbox
  kept : ∃ l, u.b.fcl.arrivals = s.b.fcl.arrivals ++ l

namespace Posts
variable {s u v : State}

theorem of_fcl (h : u.b.fcl = s.b.fcl) : Posts s u := ⟨by rw [h], [], by rw [h, List.append_nil]⟩

theorem refl (s : State) : Posts s s := of_fcl rfl

theorem trans (h : Posts s u) (g : Posts u v) : Posts s v := by
  obtain ⟨l, hl⟩ := h.kept
  obtain ⟨k, hk⟩ := g.kept
  exact ⟨g.outside.trans h.outside, l ++ k, by rw [hk, hl, List.append_assoc]⟩

theorem raise (i : Nat) (d : Word) (z : Option Nat) (n : Nat) (k : Option Block) (s : State) : Posts s (s.raise i d z n k) :=
  ⟨rfl, _, rfl⟩

theorem cond (i : Nat) (v : Bool) (d : Word) (z : Option Nat) (n : Nat) (k : Option Block) (s : State) :
    Posts s (s.cond i v d z n k) := by
  unfold State.cond
  split
  · exact refl s
  · exact ⟨rfl, _, rfl⟩

theorem ite {c : Prop} [Decidable c] (hu : Posts s u) (hv : Posts s v) : Posts s (if c then u else v) := by
  split <;> assumption

theorem of_only {m : Nat} (h : Only m s u) (hm : m.testBit Part.fcl.idx = false) : Posts s u := of_fcl (h.same_of .fcl hm)

/-- Every field outside the inbox is as it was. -/
theorem same {α : Type} (h : Posts s u) (g : Fcl → α) (hg : ∀ f : Fcl, g f.outsideInbox = g f := by exact fun _ => rfl) :
    g u.b.fcl = g s.b.fcl :=
  (hg _).symm.trans ((congrArg g h.outside).trans (hg _))

/-- An arrival is never lost. -/
theorem mem (h : Posts s u) {a : Arrival} (ha : a ∈ s.b.fcl.arrivals) : a ∈ u.b.fcl.arrivals := by
  obtain ⟨l, hl⟩ := h.kept
  exact hl ▸ List.mem_append_left _ ha

/-! ### Records -/

theorem enterRecord (x : Record) (s : State) : Posts s (s.enterRecord x) := by
  unfold State.enterRecord
  extract_lets r seq y lost s1 s2 s3
  have entered : s1.b.fcl = s.b.fcl := by
    simp only [s1]
    split <;> rfl
  have told : s3.b.fcl = s1.b.fcl := by
    simp only [s3]
    split <;> rfl
  have made : Posts s s3 := of_fcl (told.trans entered)
  exact ite made (made.trans (raise ..))

theorem makeRecord (priority : Bool) (x : Record) (s : State) : Posts s (s.makeRecord priority x) := by
  have lost : Posts s s.loseRecord := of_fcl rfl
  have entered := enterRecord x s
  have stuck : Posts s (s.onRecd fun r => { r with stuck := true }).loseRecord := of_fcl rfl
  exact ite lost (ite (ite lost (of_fcl rfl)) (ite (stuck.trans (raise ..)) (ite entered (ite lost entered))))

theorem recordWith (trig : Nat) (detail : List Byte) (priority : Bool) (ok : Profile → Bool) (flags : Byte) (s : State) :
    Posts s (s.recordWith trig detail priority ok flags) := by
  unfold State.recordWith
  dsimp only
  split
  · exact makeRecord ..
  · split
    · exact refl s
    · exact makeRecord ..

theorem record (trig : Nat) (detail : List Byte) (s : State) : Posts s (s.record trig detail) := recordWith ..

/-! ### Spores -/

theorem sporeEnds (c : Ch) (r : Running) (s : State) : Posts s (s.sporeEnds c r) := by
  unfold State.sporeEnds
  dsimp only
  split <;> exact of_fcl rfl

theorem sporeAbort (c : Ch) (cause : AbortCause) (s : State) : Posts s (s.sporeAbort c cause) := by
  unfold State.sporeAbort
  split
  · exact refl s
  next r _ =>
    have ended : Posts s ((s.sporeEnds c r).onSeqr c fun q =>
        { q with aborts := q.aborts.inc, abortRun := q.abortRun + 1
                 waitSent := if cause = .halt then some s.b.sys.sent else q.waitSent }) :=
      (sporeEnds c r s).trans (of_fcl rfl)
    refine ite (ended.trans ?_) ended
    exact ⟨rfl, _, rfl⟩

theorem sporesHalt (s : State) : Posts s s.sporesHalt := (sporeAbort .a .halt s).trans (sporeAbort .b .halt _)

end Posts

/-! ### Collector self-fault (R311) -/

theorem State.darkAborts_fcl (s : State) : s.darkAborts.b.fcl = s.b.fcl := rfl
theorem State.darkAborts_sog (s : State) : s.darkAborts.b.sog.faultHold = s.b.sog.faultHold := rfl
theorem State.darkAborts_sto (s : State) : s.darkAborts.b.sto = s.b.sto := rfl

/-- What Halt leaves of the collector and of the output blocks. -/
theorem State.enterHalt_fields (s : State) :
    s.enterHalt.b.fcl.zoneStop = 0xFFFFFFFF ∧ s.enterHalt.b.sog.faultHold = 0xFFFF ∧ s.enterHalt.b.sto.faultHold = 0xFFFF := by
  unfold State.enterHalt
  generalize ho : ((s.onFcl _).onSog _).onSto _ = held
  -- the non-maskable interrupts and the spores' aborts leave what the hold has set
  have nmi : Only 16384 held held.deliverNmi := .deliverNmi rfl (.refl _ _)
  have aborts : Only 344064 held.deliverNmi.darkAborts held.deliverNmi.darkAborts.sporesHalt := .sporesHalt rfl (.refl _ _)
  have dark : Posts held.deliverNmi held.deliverNmi.darkAborts := .of_fcl (State.darkAborts_fcl _)
  have posts := (Posts.of_only nmi rfl).trans (dark.trans (.sporesHalt _))
  have sog : held.deliverNmi.b.sog = held.b.sog := nmi.same_of .sog rfl
  have sto : held.deliverNmi.b.sto = held.b.sto := nmi.same_of .sto rfl
  have sog' : held.deliverNmi.darkAborts.sporesHalt.b.sog = held.deliverNmi.darkAborts.b.sog := aborts.same_of .sog rfl
  have sto' : held.deliverNmi.darkAborts.sporesHalt.b.sto = held.deliverNmi.darkAborts.b.sto := aborts.same_of .sto rfl
  refine ⟨(posts.same Fcl.zoneStop).trans ?zones, (congrArg OutBlock.faultHold sog').trans ?sog,
    (congrArg OutBlock.faultHold sto').trans ?sto⟩
  case zones => rw [← ho]; rfl
  case sog => exact (State.darkAborts_sog _).trans ((congrArg OutBlock.faultHold sog).trans (by rw [← ho]; rfl))
  case sto => exact congrArg OutBlock.faultHold ((State.darkAborts_sto _).trans (sto.trans (by rw [← ho])))

/-- A self-fault: its code is kept, the cell is held, both error pins are low. -/
theorem State.selfFault_fields {s : State} (first : s.b.fcl.selfCode = 0) (code : Nat) :
    (s.selfFault code).b.fcl.selfCode = code ∧ (s.selfFault code).b.fcl.zoneStop = 0xFFFFFFFF ∧
      (s.selfFault code).b.sog.faultHold = 0xFFFF ∧ (s.selfFault code).b.sto.faultHold = 0xFFFF ∧
      (s.selfFault code).b.fcl.signalling = true ∧ (s.selfFault code).b.fcl.driveA = false ∧
      (s.selfFault code).b.fcl.driveB = false := by
  obtain ⟨zones, sog, sto⟩ := s.enterHalt_fields
  unfold State.selfFault
  rw [if_neg (not_not.mpr first)]
  generalize s.enterHalt = held at zones sog sto ⊢
  dsimp only
  generalize hf : held.onFcl _ = failed
  have posts := fun x => Posts.makeRecord true x failed
  have only : ∀ x, Only 37945344 failed (failed.makeRecord true x) := fun x => .makeRecord _ _ rfl (.refl _ _)
  refine ⟨((posts _).same Fcl.selfCode).trans ?_, ((posts _).same Fcl.zoneStop).trans ?_,
    (congrArg OutBlock.faultHold ((only _).same_of .sog rfl)).trans ?_,
    (congrArg OutBlock.faultHold ((only _).same_of .sto rfl)).trans ?_, ((posts _).same Fcl.signalling).trans ?_,
    ((posts _).same Fcl.driveA).trans ?_, ((posts _).same Fcl.driveB).trans ?_⟩
  all_goals subst hf
  exacts [rfl, zones, sog, sto, rfl, rfl, rfl]

/-- Alive mode: both error pins low while they signal, alternating halves otherwise (R316). -/
theorem State.errHalf_alive {s : State} (alive : s.b.img.errAlive = true) (working : s.b.fcl.selfCode = 0) :
    s.errHalf = s.onFcl fun f =>
      if f.signalling then { f with driveA := false, driveB := false }
      else if s.b.optime % 1000 < 500 then { f with driveA := true, driveB := false }
      else { f with driveA := false, driveB := f.driveA } := by
  simp [State.errHalf, alive, working]

/-! ### The re-arm check (R315) -/

section
variable {s : State} {n : Nat} {e f : Bool}

theorem State.rearmComplete_passed (checking : s.b.fcl.rearm = 1) (passed : n = 128 ∧ e = true ∧ f = true) :
    s.rearmComplete n e f = (s.onFcl fun x =>
      { x with rearm := 2, rearmUs := min ((s.b.now - s.b.fcl.rearmAt) / 1000) 0xFFFF, rearmPassed := true }).updateReady := by
  rw [State.rearmComplete, if_neg (not_not.mpr checking), if_pos passed]

/-- A check that fails: every source of what failed arrives, in this order. -/
theorem State.rearmComplete_failed (checking : s.b.fcl.rearm = 1) (failed : ¬ (n = 128 ∧ e = true ∧ f = true)) :
    (s.rearmComplete n e f).b.fcl.outsideInbox =
        ({ s.b.fcl with rearm := 3, rearmUs := min ((s.b.now - s.b.fcl.rearmAt) / 1000) 0xFFFF } : Fcl).outsideInbox ∧
      (s.rearmComplete n e f).b.fcl.arrivals.map (·.id) = s.b.fcl.arrivals.map (·.id) ++ (if n = 128 then [] else [450]) ++
        (if e then [] else [451]) ++ (if f then [] else [498]) := by
  have blocked : ∀ u : State, u.blockAll.b.fcl = u.b.fcl := fun u =>
    (Only.blockAll (m := 16384) rfl (.refl _ u)).same_of .fcl rfl
  rw [State.rearmComplete, if_neg (not_not.mpr checking), if_neg failed]
  constructor
  · split_ifs <;> simp [blocked, State.raise, State.post, Fcl.outsideInbox]
  · split_ifs <;> simp [blocked]

end

end Sys2Proof.Machine

namespace Sys2Proof.Proofs

open Sys2Proof Sys2Proof.Machine

/-- Settles O14: a clear waits for the round under the token rule; a round of it alone clears its latch. -/
theorem clearsQueue : Obligations.ClearsQueue := by
  intro t rd page off bv w s queued cleared i alone
  -- executed, the command is queued under its page's token
  have waits : ∀ {p whole}, s.b.takes rd p (wTok w) = true →
      (Host.Outcome.next ((s.tick t).wt rd p (wTok w) (State.queueClear rd.idx p whole w)) : Host.Outcome State Fault Refusal) =
        .next (queued p whole) := by
    intro p whole takes
    cases set : w.getLsbD 15 <;> simp only [queued, set, if_true, Bool.false_eq_true, if_false]
    · exact next_of_takes takes (by rw [State.queueClear, set]; rfl)
    · exact next_of_takes takes (by rw [State.queueClear, set]; rfl)
  -- alone in its round it clears its latch
  have clears : ∀ {p whole}, alone → whole = true ∨ owningPage i = p → cleared i (queued p whole) := by
    rintro p whole ⟨quiet, noClears, set, single, latched, notLive⟩ owned t'
    have small : i < 512 := by simp only [i, fld]; omega
    have closed := State.roundClose_clear (s := State.tick t' (queued p whole))
      (c := ⟨rd.idx, p, whole, i, w.getLsbD 14, wTok w⟩)
    simp only [queued, set, if_true] at closed ⊢
    obtain ⟨a, b⟩ := closed rfl quiet (congrArg (· ++ _) noClears) single owned latched notLive
    exact ⟨_, rfl, fun j hj => ⟨(congrArg (·.getLsbD j) a).trans (getLsbD_setb _ _ _ _ small),
      (congrArg (·.getLsbD j) b).trans (getLsbD_setb _ _ _ _ small)⟩⟩
  refine ⟨fun hsplit takes may => ?pageClear, fun hsplit => ?none, fun takes => ?fcl⟩
  case pageClear =>
    refine ⟨?_, fun ha owned => clears ha (.inr owned)⟩
    refine Eq.trans ?_ (waits takes)
    show execPageFltLatchClear t rd page w s = _
    simp only [execPageFltLatchClear, hsplit]
    rw [State.pageClear_of_mayClear _ w may]
  case none =>
    show execPageFltLatchClear t rd page w s = _
    simp only [execPageFltLatchClear, hsplit]
  case fcl => exact ⟨waits takes, fun ha => clears ha (.inl rfl)⟩

/-- Settles O45: each event by what its operation leaves of the collector. -/
theorem faultRounds : Obligations.FaultRounds := by
  intro t s x
  refine ⟨fun isOpen noClears => ?round, fun n e f checking => ⟨fun passed => ?passed, fun failed => ?failed⟩,
    fun code named first => ?selfFault, fun alive working => ?pins⟩
  case round =>
    refine ⟨_, rfl, fun i hi sev => ?_⟩
    have kept := State.roundClose_latches (s := s.tick t) isOpen noClears
    obtain ⟨a, b⟩ := (s.tick t).roundTaken_latches
    rw [kept.latches.1, kept.latches.2, a, b, getLsbD_foldl_setb _ _ hi, getLsbD_foldl_setb _ _ hi, mem_raises x hi sev]
    exact ⟨Iff.rfl, Iff.rfl⟩
  case passed => exact ⟨_, congrArg Host.Outcome.next (State.rearmComplete_passed (s := s.tick t) checking passed), rfl, rfl, rfl, rfl⟩
  case failed =>
    obtain ⟨fields, arrivals⟩ := State.rearmComplete_failed (s := s.tick t) checking failed
    have same : ∀ {α : Type} (g : Fcl → α), _ := fun g => congrArg g fields
    exact ⟨_, rfl, same (Fcl.rearm ·), same (Fcl.rearmPassed ·), same (Fcl.rearmUs ·), same (Fcl.halt ·), arrivals⟩
  case selfFault =>
    obtain ⟨kept, zones, sog, sto, signals, driveA, driveB⟩ := State.selfFault_fields (s := s.tick t) first code.val
    refine ⟨(s.tick t).selfFault code.val, congrArg _ (if_neg named), kept, ?_, zones, sog, sto, signals, driveA, driveB⟩
    simp [Blocks.haltNow, kept, named]
  case pins =>
    refine ⟨_, rfl, ?_⟩
    rw [State.errHalf_alive (s := s.tick t) alive working]
    by_cases half : x.optime % 1000 < 500
    · cases signals : s.b.fcl.signalling <;> simp [x, half, signals]
    · cases signals : s.b.fcl.signalling <;> simp [x, half, signals]

end Sys2Proof.Proofs

/-! SUPPORT. The sentence (R50 to R59): what a publish, a commit and a capture leave of the numbers, the sentences and the
committed outputs. -/

namespace Sys2Proof.Machine

/-! ### What arrives reaches the collector alone (R298) -/

section
variable (i : Nat) (v : Bool) (d : Word) (z : Option Nat) (u : Nat) (k : Option Block) (s : State)

/-- A condition changes the collector alone. -/
theorem State.cond_eq : s.cond i v d z u k = s.onFcl fun _ => (s.cond i v d z u k).b.fcl := by
  unfold State.cond
  split <;> rfl

@[simp] theorem State.raise_now : (s.raise i d z u k).b.now = s.b.now := rfl
@[simp] theorem State.raise_tru : (s.raise i d z u k).b.tru = s.b.tru := rfl
@[simp] theorem State.raise_fab : (s.raise i d z u k).b.fab = s.b.fab := rfl
@[simp] theorem State.raise_lio : (s.raise i d z u k).b.lio = s.b.lio := rfl
@[simp] theorem State.raise_tpg : (s.raise i d z u k).b.tpg = s.b.tpg := rfl
@[simp] theorem State.raise_sog : (s.raise i d z u k).b.sog = s.b.sog := rfl
@[simp] theorem State.raise_sto : (s.raise i d z u k).b.sto = s.b.sto := rfl
@[simp] theorem State.raise_mea : (s.raise i d z u k).b.mea = s.b.mea := rfl
@[simp] theorem State.raise_axs : (s.raise i d z u k).b.axs = s.b.axs := rfl
@[simp] theorem State.raise_sep : (s.raise i d z u k).b.sep = s.b.sep := rfl
@[simp] theorem State.raise_net : (s.raise i d z u k).b.net = s.b.net := rfl
@[simp] theorem State.raise_tsy : (s.raise i d z u k).b.tsy = s.b.tsy := rfl
@[simp] theorem State.raise_sfr : (s.raise i d z u k).b.sfr = s.b.sfr := rfl
@[simp] theorem State.raise_agr : (s.raise i d z u k).b.agr = s.b.agr := rfl
@[simp] theorem State.raise_cvu : (s.raise i d z u k).b.cvu = s.b.cvu := rfl
@[simp] theorem State.raise_recd : (s.raise i d z u k).b.recd = s.b.recd := rfl
@[simp] theorem State.raise_bst : (s.raise i d z u k).b.bst = s.b.bst := rfl
@[simp] theorem State.raise_otp : (s.raise i d z u k).b.otp = s.b.otp := rfl
@[simp] theorem State.raise_lcs : (s.raise i d z u k).b.lcs = s.b.lcs := rfl
@[simp] theorem State.raise_key : (s.raise i d z u k).b.key = s.b.key := rfl
@[simp] theorem State.raise_pwr : (s.raise i d z u k).b.pwr = s.b.pwr := rfl
@[simp] theorem State.raise_cfg : (s.raise i d z u k).b.cfg = s.b.cfg := rfl
@[simp] theorem State.raise_hif : (s.raise i d z u k).b.hif = s.b.hif := rfl
@[simp] theorem State.raise_mgmt : (s.raise i d z u k).b.mgmt = s.b.mgmt := rfl
@[simp] theorem State.raise_inReset : (s.raise i d z u k).b.inReset = s.b.inReset := rfl
@[simp] theorem State.raise_sel : (s.raise i d z u k).b.sel = s.b.sel := rfl
@[simp] theorem State.raise_cap : (s.raise i d z u k).cap = s.cap := rfl
@[simp] theorem State.raise_shown : (s.raise i d z u k).shown = s.shown := rfl
@[simp] theorem State.raise_holds : (s.raise i d z u k).holds = s.holds := rfl
@[simp] theorem State.cond_now : (s.cond i v d z u k).b.now = s.b.now := by rw [State.cond_eq]; rfl
@[simp] theorem State.cond_sys : (s.cond i v d z u k).b.sys = s.b.sys := by rw [State.cond_eq]; rfl
@[simp] theorem State.cond_tru : (s.cond i v d z u k).b.tru = s.b.tru := by rw [State.cond_eq]; rfl
@[simp] theorem State.cond_fab : (s.cond i v d z u k).b.fab = s.b.fab := by rw [State.cond_eq]; rfl
@[simp] theorem State.cond_lio : (s.cond i v d z u k).b.lio = s.b.lio := by rw [State.cond_eq]; rfl
@[simp] theorem State.cond_tpg : (s.cond i v d z u k).b.tpg = s.b.tpg := by rw [State.cond_eq]; rfl
@[simp] theorem State.cond_sog : (s.cond i v d z u k).b.sog = s.b.sog := by rw [State.cond_eq]; rfl
@[simp] theorem State.cond_sto : (s.cond i v d z u k).b.sto = s.b.sto := by rw [State.cond_eq]; rfl
@[simp] theorem State.cond_mea : (s.cond i v d z u k).b.mea = s.b.mea := by rw [State.cond_eq]; rfl
@[simp] theorem State.cond_axs : (s.cond i v d z u k).b.axs = s.b.axs := by rw [State.cond_eq]; rfl
@[simp] theorem State.cond_sep : (s.cond i v d z u k).b.sep = s.b.sep := by rw [State.cond_eq]; rfl
@[simp] theorem State.cond_net : (s.cond i v d z u k).b.net = s.b.net := by rw [State.cond_eq]; rfl
@[simp] theorem State.cond_tsy : (s.cond i v d z u k).b.tsy = s.b.tsy := by rw [State.cond_eq]; rfl
@[simp] theorem State.cond_sfr : (s.cond i v d z u k).b.sfr = s.b.sfr := by rw [State.cond_eq]; rfl
@[simp] theorem State.cond_agr : (s.cond i v d z u k).b.agr = s.b.agr := by rw [State.cond_eq]; rfl
@[simp] theorem State.cond_cvu : (s.cond i v d z u k).b.cvu = s.b.cvu := by rw [State.cond_eq]; rfl
@[simp] theorem State.cond_recd : (s.cond i v d z u k).b.recd = s.b.recd := by rw [State.cond_eq]; rfl
@[simp] theorem State.cond_bst : (s.cond i v d z u k).b.bst = s.b.bst := by rw [State.cond_eq]; rfl
@[simp] theorem State.cond_otp : (s.cond i v d z u k).b.otp = s.b.otp := by rw [State.cond_eq]; rfl
@[simp] theorem State.cond_lcs : (s.cond i v d z u k).b.lcs = s.b.lcs := by rw [State.cond_eq]; rfl
@[simp] theorem State.cond_key : (s.cond i v d z u k).b.key = s.b.key := by rw [State.cond_eq]; rfl
@[simp] theorem State.cond_pwr : (s.cond i v d z u k).b.pwr = s.b.pwr := by rw [State.cond_eq]; rfl
@[simp] theorem State.cond_cfg : (s.cond i v d z u k).b.cfg = s.b.cfg := by rw [State.cond_eq]; rfl
@[simp] theorem State.cond_hif : (s.cond i v d z u k).b.hif = s.b.hif := by rw [State.cond_eq]; rfl
@[simp] theorem State.cond_mgmt : (s.cond i v d z u k).b.mgmt = s.b.mgmt := by rw [State.cond_eq]; rfl
@[simp] theorem State.cond_inReset : (s.cond i v d z u k).b.inReset = s.b.inReset := by rw [State.cond_eq]; rfl
@[simp] theorem State.cond_sel : (s.cond i v d z u k).b.sel = s.b.sel := by rw [State.cond_eq]; rfl
@[simp] theorem State.cond_cap : (s.cond i v d z u k).cap = s.cap := by rw [State.cond_eq]; rfl
@[simp] theorem State.cond_shown : (s.cond i v d z u k).shown = s.shown := by rw [State.cond_eq]; rfl
@[simp] theorem State.cond_holds : (s.cond i v d z u k).holds = s.holds := by rw [State.cond_eq]; rfl
@[simp] theorem State.cond_draws : (s.cond i v d z u k).draws = s.draws := by rw [State.cond_eq]; rfl
end

/-! ### Publish (R58, R63) -/

theorem State.publishState_sys (safe : Bool) (s : State) : (s.publishState safe).b.sys =
    { s.b.sys with evaluating := false, doomed := false, lastPublish := s.b.now, abandonedLast := safe } := by
  have start : Only (Part.allBut .sys)
      (s.onSys fun y => { y with evaluating := false, doomed := false, lastPublish := s.b.now, abandonedLast := safe })
      (s.publishState safe) := by
    unfold State.publishState
    extract_lets n s1 s2 s3
    have shown : Only (Part.allBut .sys) _ s3 :=
      .forN 4 (fun k _ h => .pairEvent k 0 rfl h) (.rdselPublish rfl (.errPublish rfl (.onCfg _ rfl (.onPwr _ rfl (.refl _ _)))))
    exact .ite shown (.hifPend _ rfl (.onPwr _ rfl shown))
  exact start.same_of .sys rfl

theorem State.pairEvent_sentOk (k e : Nat) (s : State) : (s.pairEvent k e).b.agr.sentOk = s.b.agr.sentOk := rfl
theorem State.rdselPublish_sentOk (s : State) : s.rdselPublish.b.agr.sentOk = s.b.agr.sentOk := rfl
theorem State.errPublish_agr (s : State) : s.errPublish.b.agr = s.b.agr :=
  (Only.errPublish (m := 65536) rfl (.refl _ s)).same_of .agr rfl

/-- The agreement bit stands while a sentence is published. -/
theorem State.publishState_sentOk (safe : Bool) (s : State) : (s.publishState safe).b.agr.sentOk = s.b.agr.sentOk := by
  unfold State.publishState
  extract_lets n s1 s2 s3
  have started : s1.b.agr.sentOk = s.b.agr.sentOk := rfl
  clear_value s1
  have shown : s3.b.agr.sentOk = s1.b.agr.sentOk := by
    simp only [s3, s2, forN, State.pairEvent_sentOk, State.rdselPublish_sentOk, State.errPublish_agr, State.onCfg_agr]
  rw [← started, ← shown]
  clear_value s3
  split <;> rfl

/-- What a publish shows and leaves. -/
structure Published (safe : Bool) (s u : State) : Prop where
  snapshot : ∃ p, u.shown = some p ∧ p.sent = s.b.sys.sent ∧ p.safe = safe
  sys : u.b.sys = { s.b.sys with evaluating := false, doomed := false, lastPublish := s.b.now, abandonedLast := safe }
  sentOk : u.b.agr.sentOk = s.b.agr.sentOk

/-- The records of the function objects leave what was published. -/
theorem Published.fnRecords {safe : Bool} {s u : State} (h : Published safe s u) (o p : Snapshot) :
    Published safe s (u.fnRecords o p) := by
  have made : Only 37945344 u (u.fnRecords o p) := .fnRecords o p rfl (.refl _ u)
  obtain ⟨-, shown, -⟩ := made.same_of .sentences rfl
  obtain ⟨q, hq, rest⟩ := h.snapshot
  exact ⟨⟨q, shown.trans hq, rest⟩, (made.same_of .sys rfl).trans h.sys,
    (congrArg Agr.sentOk (made.same_of .agr rfl)).trans h.sentOk⟩

theorem State.publish_published (safe : Bool) (s : State) : Published safe s (s.publish safe) := by
  unfold State.publish
  extract_lets s1 p s2
  have published : Published safe s s2 := ⟨⟨p, rfl, rfl, rfl⟩, s.publishState_sys safe, s.publishState_sentOk safe⟩
  split
  · exact published.fnRecords _ _
  · exact published

/-- An abandoned sentence: every reader is shown a safe snapshot of its number. -/
theorem State.abandon_shows (s : State) : ∃ p, s.abandon.shown = some p ∧ p.sent = s.b.sys.sent ∧ p.safe = true ∧
    s.abandon.b.sys.sent = s.b.sys.sent ∧ s.abandon.b.sys.evaluating = false ∧ s.abandon.b.sys.abandonedLast = true ∧
    s.abandon.b.agr.sentOk = false := by
  have round : Only (Part.allBut .numbering) s s.roundClose := .roundClose rfl (.refl _ s)
  obtain ⟨sent, -⟩ := round.same_of .numbering rfl
  obtain ⟨⟨p, shown, number, safe⟩, sys, ok⟩ := (s.roundClose.onAgr fun a => { a with sentOk := false }).publish_published true
  exact ⟨p, shown, number.trans sent, safe, (congrArg Sys.sent sys).trans sent, congrArg Sys.evaluating sys,
    congrArg Sys.abandonedLast sys, ok⟩

/-! ### Capture (R50 to R52) -/

theorem nextSentence_ne_zero (n : Nat) : nextSentence n ≠ 0 := by
  unfold nextSentence
  split <;> omega

theorem State.capture_due {s : State} (x : CaptureIn) (due : s.b.captureDue = true) :
    s.capture x = (s.deadlinePassed.atCapture x).freezeImage := if_pos due

theorem State.capture_not_due {s : State} (x : CaptureIn) (early : s.b.captureDue = false) : s.capture x = s :=
  if_neg (by rw [early]; exact Bool.false_ne_true)

/-- The fabric alone is written from all blocks. -/
theorem Only.fabOf {m : Nat} {r s : State} (f : Blocks → Fab) (hm : m &&& 8 = 8) (h : Only m r s) :
    Only m r (s.on fun b => { b with fab := f b }) :=
  .onFab (fun _ => f s.b) hm h

/-- The numbers and the time at the moment the image is frozen: those of the sentence that begins. -/
theorem State.atCapture_numbers (x : CaptureIn) (s : State) :
    (s.atCapture x).b.now = s.b.now ∧ (s.atCapture x).b.sys.sent = s.b.sys.nextNumber ∧
      (s.atCapture x).b.sys.nextNumber = nextSentence s.b.sys.nextNumber ∧
      (s.atCapture x).b.sys.lastCapture = s.b.sys.lastCapture ∧ (s.atCapture x).b.sys.period = s.b.sys.period ∧
      (s.atCapture x).b.sys.captured = s.b.sys.captured := by
  have now : Only (Part.allBut .now) s (s.atCapture x) := .atCapture x rfl (.refl _ s)
  have numbers : Only (Part.allBut .numbering) (s.onSys fun y =>
      { y with sent := s.b.sys.nextNumber, nextNumber := nextSentence s.b.sys.nextNumber }) (s.atCapture x) := by
    have taken : Only (Part.allBut .numbering) _ s.takeNumber := .ite (.raise _ _ _ _ _ rfl (.refl _ _)) (.refl _ _)
    have checked := Only.crossCheckRulers x rfl (.applySets s.b.sys.nextNumber rfl (.beginLoad rfl taken))
    have delivered := Only.ite (c := x.undelivered = true) (.raise 2 0 none 0 none rfl checked) checked
    have fed := Only.forN 4 (fun k _ h => .dropWords k rfl (.judgeAlive k rfl h)) (.sepClose rfl (.endDry rfl (.endHalt rfl delivered)))
    exact .followPress rfl (.onSfr _ rfl (.onLio _ rfl (.fabOf _ rfl (.sensorHealth rfl (.judgeSessions rfl
      (.tsyCapture _ _ _ _ rfl fed))))))
  exact ⟨now.same_of .now rfl, numbers.same_of .numbering rfl⟩

/-- What is frozen, and the sentence that begins. -/
theorem State.freezeImage_fields (s : State) : s.freezeImage.b.now = s.b.now ∧
    s.freezeImage.b.sys = { s.b.sys with
      lastCapture := s.b.captureAt, period := s.b.tsNs, captured := true, evaluating := true, evalA := none, evalB := none
      abandonedLast := false, intjIndex := none
      doomed := s.b.resetting .fab || s.b.cfg.loading.isSome || decide (s.b.fcl.rearm = 1) } ∧
    ∃ c, s.freezeImage.cap = some c ∧ c.sys = s.freezeImage.b.sys ∧ c.lio = s.freezeImage.b.lio ∧ c.now = s.b.now := by
  unfold State.freezeImage
  extract_lets s1
  have begun : Only 3072 { s1 with cap := some s1.b } _ :=
    .sepBegin s1.b.sys.sent rfl (.onNet (fun n => { n with cutThrough := false }) rfl (.refl _ _))
  obtain ⟨cap, -, -⟩ := begun.same_of .sentences rfl
  have sys := begun.same_of .sys rfl
  exact ⟨begun.same_of .now rfl, sys, _, cap, sys.symm, (begun.same_of .lio rfl).symm, rfl⟩

/-! ### Evaluation and agreement (R53, R54) -/

theorem Blocks.deadline_congr {x y : Blocks} (last : x.sys.lastCapture = y.sys.lastCapture) (period : x.sys.period = y.sys.period) :
    x.deadline = y.deadline := by
  unfold Blocks.deadline
  rw [last, period]

section
variable (c : Blocks) (ch : Ch) (dur : Nat) (s : State)

theorem State.overrunEnds_only : Only 65536 s s.overrunEnds := .overrunEnds rfl (.refl _ s)

@[simp] theorem State.overrunEnds_fab : s.overrunEnds.b.fab = s.b.fab := s.overrunEnds_only.same_of .fab rfl
@[simp] theorem State.overrunEnds_agr : s.overrunEnds.b.agr = s.b.agr := s.overrunEnds_only.same_of .agr rfl

theorem State.onAgr_overrunEnds (f : Agr → Agr) : (s.onAgr f).overrunEnds = s.overrunEnds.onAgr f := by
  have moved : (s.onAgr f).cond 1 false = (s.cond 1 false).onAgr f := by
    unfold State.cond
    rw [apply_ite (State.onAgr f)]
    rfl
  unfold State.overrunEnds
  rw [apply_ite (State.onAgr f), moved]
  rfl

theorem State.channelDone_values : ((s.channelDone c ch dur).b.fab.channel ch).values = (c.evaluate ch s.b.sys.sent).values := by
  unfold State.channelDone
  extract_lets e f0 s1 s2
  have done : (s2.b.fab.channel ch).values = e.values := by cases ch <;> rfl
  split
  · exact done
  · exact done

theorem State.channelDone_evalOf : (s.channelDone c ch dur).b.sys.evalOf ch = some dur ∧
    (s.channelDone c ch dur).b.sys.evalOf ch.other = s.b.sys.evalOf ch.other := by
  unfold State.channelDone
  extract_lets e f0 s1 s2
  have done : s2.b.sys.evalOf ch = some dur ∧ s2.b.sys.evalOf ch.other = s.b.sys.evalOf ch.other := by cases ch <;> exact ⟨rfl, rfl⟩
  split
  · exact done
  · exact done

theorem Sys.bothDone_iff (y : Sys) : (y.evalA.isSome && y.evalB.isSome) = ((y.evalOf ch).isSome && (y.evalOf ch.other).isSome) := by
  cases ch
  · rfl
  · exact Bool.and_comm _ _

end

/-- What an evaluation in time leads to: agreement once both channels are done (R54). -/
theorem State.evalComplete_inTime {s : State} {c : Blocks} {ch : Ch} (dur : Nat) (cap : s.cap = some c)
    (evaluating : s.b.sys.evaluating = true) (sound : s.b.sys.doomed = false) (fresh : s.b.sys.evalOf ch = none)
    (inTime : s.b.now < s.b.deadline) :
    s.evalComplete ch dur =
      if (s.b.sys.evalOf ch.other).isSome then (s.channelDone c ch dur).agree c else s.channelDone c ch dur := by
  obtain ⟨own, other⟩ := s.channelDone_evalOf c ch dur
  unfold State.evalComplete
  rw [cap]
  dsimp only
  rw [if_neg (by simp [evaluating, sound, fresh]), if_neg (Nat.not_le.mpr inTime), Sys.bothDone_iff ch, own, other]
  simp

/-- The outputs a commit leaves: the bound commands, 0 under a hold (R54, R66). -/
theorem State.commitOutputs_committed (c : Blocks) (s : State) :
    let y := s.releaseZones c.sys.lastCapture fun i => (nget s.b.fab.a.fnNew i {}).out.one
    (s.commitOutputs c).b.sog.committed =
        (if y.b.globalHold then 0 else c.commands s.b.fab.a.values c.img.bindSout &&& ~~~ y.b.sog.faultHold) ∧
      (s.commitOutputs c).b.sto.committed =
        (if y.b.globalHold then 0 else c.commands s.b.fab.a.values c.img.bindSto &&& ~~~ y.b.sto.faultHold) := by
  intro y
  unfold State.commitOutputs
  extract_lets m tc s1 hold s2 s3 s4
  have kept : Only (Part.allBut .committed) s2 (((s4.sepDemand (c.afterLevels m)).darkAborts.fnSources s4.b.fab.a.fnSt).sendDue
      s.b.sys.sent) :=
    .sendDue _ rfl (.fnSources _ rfl (.darkAborts rfl (.sepDemand _ rfl (.demandUpdate _ _ rfl (.commitFields rfl (.onSfr _ rfl
      (.onFab _ rfl (.refl _ _))))))))
  exact kept.same_of .committed rfl

end Sys2Proof.Machine

namespace Sys2Proof.Proofs

open Sys2Proof Sys2Proof.Machine

/-- Settles O23: an earlier sentence still under way is abandoned first, without a new number. -/
theorem captureTakesANumber : Obligations.CaptureTakesANumber := by
  intro t x s
  have due : (s.tick t).b.captureDue = true ↔
      s.b.running = true ∧ (s.b.sys.captured = false ∨ s.b.sys.lastCapture + s.b.sys.period ≤ max s.b.now t) := by
    have running : (s.tick t).b.running = s.b.running := rfl
    simp [Blocks.captureDue, running]
  refine ⟨fun h => ?due, fun h => ?early⟩
  case early => exact congrArg Host.Outcome.next (State.capture_not_due x (by simpa using mt due.mp h))
  rw [show exec (.capture t x) s = .next ((s.tick t).capture x) from rfl, State.capture_due x (due.mpr h)]
  generalize hz : (s.tick t).deadlinePassed = z
  have before : Only (Part.allBut .numbering) (s.tick t) z := hz ▸ .deadlinePassed rfl (.refl _ _)
  have time : Only (Part.allBut .now) (s.tick t) z := hz ▸ .deadlinePassed rfl (.refl _ _)
  have now : z.b.now = max s.b.now t := time.same_of .now rfl
  obtain ⟨-, next, last, period, captured⟩ := before.same_of .numbering rfl
  obtain ⟨atNow, atSent, atNext, atLast, atPeriod, atCaptured⟩ := z.atCapture_numbers x
  obtain ⟨frozenNow, sys, c, cap, image⟩ := (z.atCapture x).freezeImage_fields
  rw [atNow, now] at frozenNow
  refine ⟨_, c, rfl, frozenNow, ?_⟩
  rw [sys] at image ⊢
  have instant : (z.atCapture x).b.captureAt =
      if s.b.sys.captured then s.b.sys.lastCapture + s.b.sys.period else max s.b.now t := by
    rw [Blocks.captureAt, atLast, atPeriod, atCaptured, atNow, now, last, period, captured]
    rfl
  obtain ⟨imageSys, imageLio, imageNow⟩ := image
  exact ⟨atSent.trans next, atNext.trans (congrArg nextSentence next), nextSentence_ne_zero _, rfl, instant, rfl, rfl, rfl, rfl, rfl,
    rfl, cap, imageSys, imageLio, imageNow.trans (atNow.trans now)⟩

/-- Settles O26: the abandoned sentence is the one under way, and source 0's or source 1's condition begins. -/
theorem lateSentence : Obligations.LateSentence := by
  intro t s evaluating
  have judged : (s.tick t).b.deadline = s.b.sys.lastCapture + s.b.sys.period - 5000 := rfl
  refine ⟨fun late => ?late, fun early => ?early, fun ch sound running overrun => ?channel⟩
  case early => exact congrArg Host.Outcome.next (if_neg (by rw [judged]; exact Nat.not_le.mpr early))
  case late =>
    have shows : ∀ z : State, z.b.sys.sent = s.b.sys.sent → ∃ p, z.abandon.shown = some p ∧ p.sent = s.b.sys.sent ∧ p.safe = true ∧
        z.abandon.b.sys.sent = s.b.sys.sent ∧ z.abandon.b.sys.evaluating = false ∧ z.abandon.b.sys.abandonedLast = true ∧
        z.abandon.b.agr.sentOk = false := by
      intro z hz
      rw [← hz]
      exact z.abandon_shows
    have passed : exec (.sentenceDeadline t) s = .next (s.tick t).deadlinePassed :=
      congrArg Host.Outcome.next (if_pos late)
    rw [passed, State.deadlinePassed, if_neg (by simp [evaluating])]
    cases doomed : s.b.sys.doomed
    · have kept : Only (Part.allBut .numbering) (s.tick t) (s.tick t).late := .late rfl (.refl _ _)
      obtain ⟨p, shown⟩ := shows _ (kept.same_of .numbering rfl).1
      have raised : (s.tick t).late.b.fcl.cause.getLsbD 0 = true := State.cond_cause _ _ _ _ _ _ _ (by omega)
      exact ⟨_, _, p, congrArg Host.Outcome.next (if_neg (by simp [doomed])), rfl, nofun, fun _ => ⟨rfl, raised⟩, shown⟩
    · obtain ⟨p, shown⟩ := shows (s.tick t) rfl
      exact ⟨_, _, p, congrArg Host.Outcome.next (if_pos doomed), rfl, fun _ => rfl, nofun, shown⟩
  case channel =>
    have condition : ((s.tick t).b.sys.evaluating && !(s.tick t).b.sys.doomed && ((s.tick t).b.sys.evalOf ch).isNone &&
        decide ((s.tick t).b.now ≥ (s.tick t).b.sys.lastCapture + (s.tick t).b.img.eBound)) = true := by
      have bound : (s.tick t).b.img = s.b.img := rfl
      simpa [evaluating, sound, running, bound] using overrun
    refine ⟨_, congrArg Host.Outcome.next (if_pos condition), State.cond_cause _ _ _ _ _ _ _ (by omega), ?_, fun k hk small => ?_,
      fun quiet => ?_⟩
    · exact congrArg Sys.lateSeen (State.cond_sys ..)
    · exact State.cond_cause_other _ _ _ _ _ _ (by omega) (by omega)
    · exact State.cond_arrivals (s := State.onSys _ (s.tick t)) (ne_of_eq_of_ne quiet Bool.false_ne_true) _ _ _ _

/-- Settles O25: an evaluation in time leads to agreement, and agreement to a commit or to an abandoned sentence. -/
theorem evaluationCompletes : Obligations.EvaluationCompletes := by
  intro t ch dur s c cap evaluating sound fresh inTime x y
  have run : exec (.evaluationComplete t ch dur) s =
      .next (if (s.b.sys.evalOf ch.other).isSome then x.agree c else x) :=
    congrArg Host.Outcome.next (State.evalComplete_inTime (s := s.tick t) dur cap evaluating sound fresh inTime)
  have done : Only 65546 (s.tick t) x := .channelDone c ch dur rfl (.refl _ _)
  have number : x.b.sys.sent = s.b.sys.sent :=
    ((Only.channelDone (m := Part.allBut .numbering) c ch dur rfl (.refl _ (s.tick t))).same_of .numbering rfl).1
  have now : x.b.now = max s.b.now t := done.same_of .now rfl
  have judged : x.b.deadline = s.b.deadline := by
    obtain ⟨-, -, last, period, -⟩ :=
      (Only.channelDone (m := Part.allBut .numbering) c ch dur rfl (.refl _ (s.tick t))).same_of .numbering rfl
    exact Blocks.deadline_congr last period
  have starts : x.commitStarts ≤ max s.b.now t + 500 := by
    have short := (Config.agreeNs x.b.sys.sent).isLt
    rw [State.commitStarts, now]
    omega
  have both : s.b.sys.evalOf ch.other ≠ none → (s.b.sys.evalOf ch.other).isSome = true := Option.ne_none_iff_isSome.mp
  refine ⟨fun early => lt_of_le_of_lt starts early, ⟨(s.tick t).channelDone_values c ch dur,
    ((s.tick t).channelDone_evalOf c ch dur).1, congrArg OutBlock.committed (done.same_of .sog rfl),
    congrArg OutBlock.committed (done.same_of .sto rfl), (done.same_of .sentences rfl).2.1⟩,
    fun single => ?single, fun two agreed late => ?late, fun two agreed early => ?commit, fun w two differs => ?mismatch⟩
  case single => rw [run, single]; rfl
  case late =>
    rw [run, if_pos (both two), State.agree, agreed, judged]
    dsimp only
    rw [if_neg (Nat.not_lt.mpr late)]
  case commit =>
    rw [run, if_pos (both two), State.agree, agreed, judged]
    dsimp only
    rw [if_pos early, State.commit]
    generalize hz : x.overrunEnds.onAgr _ = z
    have zx : Only 81920 x z := hz ▸ .onAgr _ rfl (.overrunEnds rfl (.refl _ x))
    have fab : z.b.fab = x.b.fab := zx.same_of .fab rfl
    -- what is published is the state once the outputs are committed
    generalize hv : (z.commitOutputs c).commitEnds c _ = v
    have number' : Only (Part.allBut .numbering) z v := hv ▸ .commitEnds _ _ rfl (.commitOutputs _ rfl (.refl _ _))
    have now' : Only (Part.allBut .now) z v := hv ▸ .commitEnds _ _ rfl (.commitOutputs _ rfl (.refl _ _))
    have outputs : Only (Part.allBut .committed) (z.commitOutputs c) (v.publish false) :=
      .publish _ rfl (hv ▸ .commitEnds _ _ rfl (.refl _ _))
    obtain ⟨sog, sto⟩ := outputs.same_of .committed rfl
    obtain ⟨sog', sto'⟩ := State.commitOutputs_committed c z
    obtain ⟨⟨p, shown, sent, safe⟩, sys, -⟩ := v.publish_published false
    refine ⟨_, p, rfl, shown, sent.trans ?_, safe, congrArg Sys.evaluating sys,
      (congrArg Sys.lastPublish sys).trans ?_,
      sog.trans (sog'.trans ?_), sto.trans (sto'.trans ?_)⟩
    · exact (number'.same_of .numbering rfl).1.trans ((zx.same_of .sys rfl ▸ number : z.b.sys.sent = s.b.sys.sent))
    · exact (now'.same_of .now rfl).trans ((zx.same_of .now rfl).trans now)
    · rw [fab, ← hz]
    · rw [fab, ← hz]
  case mismatch =>
    rw [run, if_pos (both two), State.agree, differs]
    dsimp only
    rw [State.onAgr_overrunEnds]
    rw [number]
    generalize hz : State.raise 448 (mismatchDetail w s.b.sys.sent) none 0 none (x.overrunEnds.onAgr _) = z
    have zx : Only 81920 x z := hz ▸ .raise _ _ _ _ _ rfl (.onAgr _ rfl (.overrunEnds rfl (.refl _ x)))
    have zs : z.b.sys.sent = s.b.sys.sent := zx.same_of .sys rfl ▸ number
    have kept : Only 81930 (s.tick t) z :=
      hz ▸ .raise _ _ _ _ _ rfl (.onAgr _ rfl (.overrunEnds rfl (.channelDone c ch dur rfl (.refl _ _))))
    obtain ⟨p, shown⟩ := z.abandon_shows
    rw [zs] at shown
    obtain ⟨shown, sent, safe, -, evaluated, abandoned, -⟩ := shown
    refine ⟨z, _, p, rfl, rfl, ?_, ?_, ?_, ?_, congrArg OutBlock.committed (kept.same_of .sog rfl),
      congrArg OutBlock.committed (kept.same_of .sto rfl), shown, sent, safe, evaluated, abandoned⟩
    all_goals rw [← hz]
    all_goals rfl

end Sys2Proof.Proofs

/-! SUPPORT. Sampling (R121 to R132): what a sampling moment leaves of every lichen and of the test-pulse outputs. -/

namespace Sys2Proof.Machine

/-! ### Lichens, one after the other -/

/-- A function of a lichen that reads no more of the blocks than the settings and the test pulses. -/
def ReadsSettings (f : Blocks → Nat → Lichen → Lichen) : Prop :=
  ∀ b : Blocks, f b = f { cfg := b.cfg, tpg := b.tpg }

theorem ReadsSettings.congr {f : Blocks → Nat → Lichen → Lichen} (hf : ReadsSettings f) {b c : Blocks} (cfg : b.cfg = c.cfg)
    (tpg : b.tpg = c.tpg) : f b = f c := by
  rw [hf b, hf c, cfg, tpg]

/-- Each member of a list of lichens is changed once; nothing else is. -/
theorem State.forL_onLichen {f : Blocks → Nat → Lichen → Lichen} (hf : ReadsSettings f) :
    ∀ {l : List Nat}, l.Nodup → ∀ s : State, ∃ m,
      forL l (fun i s => s.onLichen i (f s.b i)) s = (s.onLio fun o => { o with lichens := m }) ∧
        ∀ j, nget m j {} = if j ∈ l then f s.b j (s.b.lichen j) else s.b.lichen j
  | [], _, s => ⟨s.b.lio.lichens, rfl, fun j => by simp [Blocks.lichen]⟩
  | x :: r, nodup, s => by
    obtain ⟨fresh, nodup⟩ := List.nodup_cons.mp nodup
    obtain ⟨m, run, get⟩ := State.forL_onLichen hf nodup (s.onLichen x (f s.b x))
    refine ⟨m, run, fun j => (get j).trans ?_⟩
    have settings : f (s.onLichen x (f s.b x)).b = f s.b := hf.congr rfl rfl
    have lichen : (s.onLichen x (f s.b x)).b.lichen j = if x = j then f s.b x (s.b.lichen x) else s.b.lichen j :=
      nget_nupd _ _ _ _ _
    rw [settings, lichen]
    by_cases hx : x = j
    · subst hx
      simp [fresh]
    · simp [hx, Ne.symm hx]

theorem Blocks.usedLichens_nodup (b : Blocks) : b.usedLichens.Nodup := List.nodup_range.filter _

theorem Blocks.mem_usedLichens {b : Blocks} {i : Nat} (h : i < 48) : i ∈ b.usedLichens ↔ b.lioKind i ≠ 0 := by
  simp [Blocks.usedLichens, h]

/-- The bits that a loop over a list sets. -/
theorem getLsbD_forL_setb {w : Nat} (l : List Nat) (v : BitVec w) {i : Nat} (h : i < w) :
    (forL l (fun k m => setb m k true) v).getLsbD i = (v.getLsbD i || decide (i ∈ l)) := by
  induction l generalizing v with
  | nil => simp [forL]
  | cons x r ih =>
    rw [forL, ih, getLsbD_setb_true _ _ h, Bool.or_assoc]
    congr 1
    by_cases hx : x = i
    · simp [hx]
    · simp [hx, Ne.symm hx]

/-! ### One lichen's sample (R121 to R124) -/

theorem Lichen.sample_readsSettings (p : Pins) :
    ReadsSettings fun b i l => l.sample b i (p.sinA.getLsbD i) (p.sinB.getLsbD i) :=
  fun _ => rfl

/-- A used lichen after a sample: what a channel did not receive is 0 for it. -/
def Blocks.sampledLichen (b : Blocks) (p : Pins) (i : Nat) : Lichen :=
  let l := (b.lichen i).sample b i (p.sinA.getLsbD i) (p.sinB.getLsbD i)
  let l := if p.missA.getLsbD i then l.missed .a else l
  if p.missB.getLsbD i then l.missed .b else l

theorem State.exchange_lichens (c : Ch) (v : BitVec 48) (s : State) : ∃ m,
    s.exchange c v = (s.onLio fun o => { o with lichens := m }) ∧
      ∀ j, j < 48 → nget m j {} = if v.getLsbD j then (s.b.lichen j).missed c else s.b.lichen j := by
  obtain ⟨m, run, get⟩ := State.forL_onLichen (f := fun _ _ l => l.missed c) (fun _ => rfl)
    (List.nodup_range.filter fun i => v.getLsbD i) s
  exact ⟨m, run, fun j hj => (get j).trans (by simp [hj])⟩

/-- The lichens after a sample. -/
theorem State.sampleLichens_lio (p : Pins) {s : State} (working : s.b.resetting .lio = false) : ∃ m,
    (s.sampleLichens p).b.lio = { s.b.lio with pinsA := p.sinA, pinsB := p.sinB, missed := false, lichens := m } ∧
      ∀ j, j < 48 → nget m j {} = if s.b.lioKind j ≠ 0 then s.b.sampledLichen p j else s.b.lichen j := by
  unfold State.sampleLichens
  rw [if_neg (by rw [working]; exact Bool.false_ne_true)]
  extract_lets used miss s1 s2 s3 s4
  obtain ⟨m2, run2, get2⟩ := State.forL_onLichen (Lichen.sample_readsSettings p) s.b.usedLichens_nodup s1
  obtain ⟨ma, runA, getA⟩ := s2.exchange_lichens .a (p.missA &&& used)
  obtain ⟨mb, runB, getB⟩ := (s2.exchange .a (p.missA &&& used)).exchange_lichens .b (p.missB &&& used)
  have after : Only (Part.allBut .lio) s3 (s4.lockCond.signalsMoved s.b) :=
    .signalsMoved _ rfl (.lockCond rfl (.ite (.cond _ _ _ _ _ _ rfl (.refl _ _)) (.ite (.refl _ _) (.cond _ _ _ _ _ _ rfl (.refl _ _)))))
  have kept : (s4.lockCond.signalsMoved s.b).b.lio = s3.b.lio := after.same_of .lio rfl
  have lichens2 : ∀ j, s2.b.lichen j = if j ∈ s.b.usedLichens then
      (s.b.lichen j).sample s.b j (p.sinA.getLsbD j) (p.sinB.getLsbD j) else s.b.lichen j := fun j =>
    (congrArg (fun t : State => t.b.lichen j) run2).trans (get2 j)
  have lichens3 : ∀ j, (s2.exchange .a (p.missA &&& used)).b.lichen j = nget ma j {} := fun j =>
    congrArg (fun t : State => t.b.lichen j) runA
  have isUsed : ∀ j, j < 48 → used.getLsbD j = decide (s.b.lioKind j ≠ 0) := fun j hj => by
    rw [getLsbD_forL_setb _ _ hj]
    simp [Blocks.mem_usedLichens hj]
  refine ⟨mb, ?_, fun j hj => ?_⟩
  · rw [kept]
    show ((s2.exchange .a (p.missA &&& used)).exchange .b (p.missB &&& used)).b.lio = _
    rw [runB, runA, show s2 = _ from run2]
    rfl
  · rw [getB j hj, lichens3, getA j hj, lichens2, BitVec.getLsbD_and, BitVec.getLsbD_and, isUsed j hj]
    by_cases kind : s.b.lioKind j = 0
    · simp [kind, Blocks.mem_usedLichens hj]
    · simp [kind, Blocks.mem_usedLichens hj, Blocks.sampledLichen]

/-! ### Test-pulse outputs (R132) -/

/-- `v` is lichen `l` but for the test-pulse faults of its terminals. -/
structure Lichen.Signals (l v : Lichen) : Prop where
  aOut : v.a.out = l.a.out
  bOut : v.b.out = l.b.out
  lock : v.lock = l.lock
  sig : v.sig = l.sig
  sigB : v.sigB = l.sigB
  discA : v.discA = l.discA
  discB : v.discB = l.discB
  zeroSince : v.zeroSince = l.zeroSince

theorem Lichen.Signals.refl (l : Lichen) : l.Signals l := ⟨rfl, rfl, rfl, rfl, rfl, rfl, rfl, rfl⟩

theorem Lichen.tpoFault_signals (l : Lichen) (b : Blocks) (i : Nat) (bad : BitVec 16) : l.Signals (l.tpoFault b i bad) := by
  unfold Lichen.tpoFault
  extract_lets put
  have one : ∀ c l, Lichen.Signals l (put c l) := by
    intro c l
    simp only [put]
    cases b.tpoOf c i with
    | none => exact .refl l
    | some k =>
      dsimp only
      generalize (if k < 8 then 208 else 209) = src
      split
      · cases c <;> exact ⟨rfl, rfl, rfl, rfl, rfl, rfl, rfl, rfl⟩
      · exact .refl l
  obtain ⟨a1, a2, a3, a4, a5, a6, a7, a8⟩ := one .a l
  obtain ⟨b1, b2, b3, b4, b5, b6, b7, b8⟩ := one .b (put .a l)
  exact ⟨b1.trans a1, b2.trans a2, b3.trans a3, b4.trans a4, b5.trans a5, b6.trans a6, b7.trans a7, b8.trans a8⟩

theorem Lichen.tpoFault_readsSettings (bad : BitVec 16) : ReadsSettings fun b i l => l.tpoFault b i bad := fun _ => rfl

/-- What the check of the test-pulse outputs leaves. -/
theorem State.sampleTpos_fields (p : Pins) {s : State} (working : s.b.resetting .tpg = false) :
    (s.sampleTpos p).b.tpg.pins = p.tpo ∧ (s.sampleTpos p).b.tpg.on = s.b.tpg.on ∧
      (s.sampleTpos p).b.tpg.fault = s.b.tpg.fault ||| (p.tpo ^^^ s.b.tpg.on) &&& s.b.tpg.differs ∧
      (∃ m, (s.sampleTpos p).b.lio = { s.b.lio with lichens := m }) ∧
      ∀ j, (s.b.lichen j).Signals ((s.sampleTpos p).b.lichen j) := by
  unfold State.sampleTpos
  rw [if_neg (by rw [working]; exact Bool.false_ne_true)]
  extract_lets g d bad groupA groupB s1 s2 step
  have stepped : ∀ {src grp last r u}, Only 65536 r u → Only 65536 r (step src grp last u) := fun h =>
    .ite (.cond _ _ _ _ _ _ rfl h) (.ite (.cond _ _ _ _ _ _ rfl h) h)
  have kept : Only 65536 s2 _ := stepped (src := 209) (grp := groupB) (last := s2.b.tpg.lastBadB)
    (stepped (src := 208) (grp := groupA) (last := s2.b.tpg.lastBadA) (.refl _ s2))
  have lio := kept.same_of .lio rfl
  have tpg := kept.same_of .tpg rfl
  obtain ⟨m, run, get⟩ := State.forL_onLichen (Lichen.tpoFault_readsSettings bad) s.b.usedLichens_nodup s1
  have faults : ∃ m, s2 = (s1.onLio fun o => { o with lichens := m }) ∧ ∀ j, (s.b.lichen j).Signals (nget m j {}) := by
    simp only [s2]
    split
    · exact ⟨s1.b.lio.lichens, rfl, fun j => .refl _⟩
    · refine ⟨m, run, fun j => ?_⟩
      rw [get j]
      split
      · exact Lichen.tpoFault_signals _ _ _ _
      · exact .refl _
  obtain ⟨m', run', signals⟩ := faults
  refine ⟨(congrArg Tpg.pins tpg).trans ?_, (congrArg Tpg.on tpg).trans ?_, (congrArg Tpg.fault tpg).trans ?_,
    ⟨m', lio.trans ?_⟩, fun j => ?_⟩
  · rw [run']; rfl
  · rw [run']; rfl
  · rw [run']; rfl
  · rw [run']; rfl
  · rw [Blocks.lichen, Blocks.lichen, lio, run']
    exact signals j

end Sys2Proof.Machine

namespace Sys2Proof.Proofs

open Sys2Proof Sys2Proof.Machine

/-- Settles O28: the lichens are sampled, and then the test-pulse outputs; nothing after them changes either. -/
theorem samplingInstant : Obligations.SamplingInstant := by
  intro t p s
  have found : Only 83968 (s.tick t) (forL p.found State.finding (s.tick t)) :=
    .forL _ (fun x _ h => .finding x rfl h) (.refl _ _)
  generalize hz : forL p.found State.finding (s.tick t) = z at found
  have run : exec (.samplingInstant t p) s = .next (z.sampling p) := hz ▸ rfl
  have running : z.b.running = s.b.running := by
    rw [Blocks.running, found.same_of .pwr rfl]
    rfl
  have resetting : z.b.resetting = s.b.resetting := by
    funext k
    rw [Blocks.resetting, found.same_of .inReset rfl]
    rfl
  have settings : z.b.cfg = s.b.cfg ∧ z.b.tpg = s.b.tpg ∧ z.b.lio = s.b.lio :=
    ⟨found.same_of .cfg rfl, found.same_of .tpg rfl, found.same_of .lio rfl⟩
  clear hz found
  obtain ⟨cfg, tpg, lio⟩ := settings
  refine ⟨fun h hLio hTpg => ?sampled, fun h => ?idle⟩
  case idle => exact run.trans (congrArg Host.Outcome.next (if_neg (by rw [running, h]; exact Bool.false_ne_true)))
  obtain ⟨m, lichens, get⟩ := z.sampleLichens_lio p (by rw [resetting]; exact hLio)
  have first : Only (Part.allBut .tpg) z (z.sampleLichens p) := .sampleLichens p rfl (.refl _ z)
  have first' : Only (Part.allBut .inReset) z (z.sampleLichens p) := .sampleLichens p rfl (.refl _ z)
  have tpg1 : (z.sampleLichens p).b.tpg = s.b.tpg := (first.same_of .tpg rfl).trans tpg
  obtain ⟨pins, on, fault, ⟨m', lio'⟩, signals⟩ := State.sampleTpos_fields p (s := z.sampleLichens p) (by
    rw [Blocks.resetting, first'.same_of .inReset rfl]
    exact (congrFun resetting _).trans hTpg)
  have last : Only 38224064 ((z.sampleLichens p).sampleTpos p) (z.sampling p) := by
    rw [State.sampling, if_pos (by rw [running, h])]
    exact .sampleErr p rfl (.sampleStos p rfl (.sampleOutputs p rfl (.refl _ _)))
  have lioEnd : (z.sampling p).b.lio = ((z.sampleLichens p).sampleTpos p).b.lio := last.same_of .lio rfl
  have tpgEnd := last.same_of .tpg rfl
  rw [tpg1] at on fault
  refine ⟨z.sampling p, run, ?_, ?_, ?_, (congrArg Tpg.pins tpgEnd).trans pins, (congrArg Tpg.on tpgEnd).trans on,
    (congrArg Tpg.fault tpgEnd).trans fault, fun i => ?_⟩
  · rw [lioEnd, lio', lichens]
  · rw [lioEnd, lio', lichens]
  · rw [lioEnd, lio', lichens]
  intro l x v
  -- the lichen's signals are those that the sample has formed
  have formed : ((z.sampleLichens p).b.lichen i).Signals v := by
    have same : v = ((z.sampleLichens p).sampleTpos p).b.lichen i := by
      simp only [v, Blocks.lichen, lioEnd]
    exact same ▸ signals i
  have sampled : (z.sampleLichens p).b.lichen i = if s.b.lioKind i ≠ 0 then z.b.sampledLichen p i else l := by
    have kind : z.b.lioKind = s.b.lioKind := by
      funext j
      simp only [Blocks.lioKind, Blocks.lioCfg, Blocks.set, cfg]
    have before : z.b.lichen i = l := by simp only [l, Blocks.lichen, lio]
    rw [Blocks.lichen, lichens, get i i.isLt, kind, before]
  refine ⟨fun used => ?used, fun unused => ?unused⟩
  case unused =>
    rw [sampled, if_neg (not_not.mpr unused)] at formed
    exact ⟨formed.sig, formed.zeroSince⟩
  case used =>
    have same : z.b.sampledLichen p i = if p.missB.getLsbD i then (if p.missA.getLsbD i then x.missed .a else x).missed .b else
        if p.missA.getLsbD i then x.missed .a else x := by
      have same : (z.b.lichen i).sample z.b i (p.sinA.getLsbD i) (p.sinB.getLsbD i) = x := by
        have own := congrFun (congrFun ((Lichen.sample_readsSettings p).congr cfg tpg) i) (z.b.lichen i)
        refine own.trans ?_
        simp only [x, l, Blocks.lichen, lio]
      rw [Blocks.sampledLichen, same]
    rw [sampled, if_pos used, same] at formed
    obtain ⟨aOut, bOut, lock, sig, sigB, discA, discB, zero⟩ := formed
    rw [aOut, bOut, lock, sig, sigB, discA, discB, zero]
    have signal : x.sig = (x.a.out && x.b.out && !l.lock) ∧ x.sigB = x.sig ∧ x.lock = l.lock ∧
        x.zeroSince = (l.zeroSince || !x.sig) ∧ x.prevA = l.discA ∧ x.prevB = l.discB ∧
        x.discA = (if x.a.out = x.b.out then 0 else l.discA + 1) ∧ x.discB = (if x.a.out = x.b.out then 0 else l.discB + 1) := by
      refine ⟨rfl, rfl, rfl, rfl, rfl, rfl, ?_, ?_⟩
      all_goals
        show (if x.a.out != x.b.out then _ else _) = _
        cases x.a.out <;> cases x.b.out <;> rfl
    obtain ⟨hsig, hsigB, hlock, hzero, hprevA, hprevB, hdiscA, hdiscB⟩ := signal
    cases p.missA.getLsbD i <;> cases p.missB.getLsbD i <;>
      simp [Lichen.missed, hsig, hsigB, hlock, hzero, hprevA, hprevB, hdiscA, hdiscB]

end Sys2Proof.Proofs

/-! SUPPORT. Terminal events (R123 to R137): lock-outs, test pulses, readback differences and dark tests. -/

namespace Sys2Proof.Machine

/-! ### Lichens (R123, R124) -/

@[simp] theorem State.signalsMoved_lio (x : Blocks) (s : State) : (s.signalsMoved x).b.lio = s.b.lio :=
  (Only.signalsMoved (m := Part.allBut .lio) x rfl (.refl _ s)).same_of .lio rfl

theorem State.signalsMoved_lichen (x : Blocks) (s : State) : (s.signalsMoved x).b.lichen = s.b.lichen := by
  unfold Blocks.lichen
  rw [State.signalsMoved_lio]

theorem State.cond_lichen (i : Nat) (v : Bool) (d : Word) (z : Option Nat) (u : Nat) (k : Option Block) (s : State) :
    (s.cond i v d z u k).b.lichen = s.b.lichen := by
  unfold Blocks.lichen
  rw [State.cond_lio]

@[simp] theorem State.onLichen_lichen (i : Nat) (f : Lichen → Lichen) (s : State) : (s.onLichen i f).b.lichen i = f (s.b.lichen i) :=
  nget_nupd_same _ _ _ f

/-! ### Test pulses (R127, R130) -/

theorem Blocks.inSlot_congr {x y : Blocks} (now : x.now = y.now) (tpg : x.tpg = y.tpg) (cfg : x.cfg = y.cfg) (k : Nat) (e : Bool) :
    x.inSlot k e = y.inSlot k e := by
  have reads : ∀ b : Blocks, b.inSlot k e = Blocks.inSlot { now := b.now, tpg := b.tpg, cfg := b.cfg } k e := fun _ => rfl
  rw [reads x, reads y, now, tpg, cfg]

theorem State.pulseStart_fields {k : Nat} {s : State} (pulsing : s.b.pulsing = true) (enabled : s.b.tpoEnabled.getLsbD k = true) :
    (s.pulseStart k).b.tpg = { s.b.tpg with on := setb s.b.tpg.on k false, window := some k, pulseAt := s.b.now,
                                            periodAt := some (s.b.periodStart k) } ∧
      (s.pulseStart k).b.sog = s.b.sog ∧ (s.pulseStart k).b.sto = s.b.sto ∧
      (s.b.inSlot k false = false →
        (s.pulseStart k).b.fcl.arrivals.getLast? = some ⟨if k < 8 then 210 else 211, true, mkw k, none, 0, none⟩) := by
  unfold State.pulseStart
  rw [if_pos (by rw [pulsing, enabled]; rfl)]
  extract_lets s0
  have begun : Only 65552 s s0 := by
    simp only [s0]
    exact .ite (.tpfConds _ rfl (.eachLichen _ rfl (.refl _ s))) (.refl _ s)
  have opened : Only 65552 s (s0.eachLichen fun _ _ l => { l with a := l.a.windowStart, b := l.b.windowStart }) :=
    .eachLichen _ rfl begun
  generalize (s0.eachLichen fun _ _ l => { l with a := l.a.windowStart, b := l.b.windowStart }) = z at opened
  have slot : Only 65552 s (z.slotCheck k false) := .slotCheck _ _ rfl opened
  have tpg : (z.slotCheck k false).b.tpg = s.b.tpg := slot.same_of .tpg rfl
  refine ⟨?_, slot.same_of .sog rfl, slot.same_of .sto rfl, fun outside => ?_⟩
  · rw [State.onTpg_tpg, tpg]
  · have late : z.b.inSlot k false = false :=
      (Blocks.inSlot_congr (opened.same_of .now rfl) (opened.same_of .tpg rfl) (opened.same_of .cfg rfl) k false).trans outside
    rw [State.slotCheck, late, if_neg Bool.false_ne_true, State.onTpg_fcl, State.raise_arrivals, List.getLast?_concat]

/-! ### Readback differences (R134) -/

section
variable (src : Nat) (old v : BitVec 16) (zone : Nat → Nat) (s : State)

theorem State.outCond_only : Only 65536 s (s.outCond src old v zone) := .outCond _ _ _ _ rfl (.refl _ s)

/-- While a difference is in force, so is its source's condition. -/
theorem State.outCond_cause (hsrc : src < 512) (hv : v ≠ 0) : (s.outCond src old v zone).b.fcl.cause.getLsbD src = true := by
  unfold State.outCond
  dsimp only
  split
  next up => exact up.2
  next => rw [State.cond_cause _ _ _ _ _ _ _ hsrc, decide_eq_true hv]

end

section
variable (o : OutBlock) (ch : Ch) (f : Stage → Stage) (src k : Nat)

/-- A stage is changed and a lock waits for the round. -/
theorem OutBlock.dueLock_onStage : ((o.onStage ch f).dueLock src k).stage ch = f (o.stage ch) ∧
    ((o.onStage ch f).dueLock src k).lockDue = o.lockDue ++ [(src, k)] ∧
    ((o.onStage ch f).dueLock src k).committed = o.committed := by
  cases ch <;> exact ⟨rfl, rfl, rfl⟩

end

section
variable {s : State} {k : Nat} {ch : Ch}

/-- The sources of a readback or feedback difference, by channel (R134). -/
def readbackSource : Ch → Nat
  | .a => 224
  | .b => 225
def feedbackSource : Ch → Nat
  | .a => 256
  | .b => 257

/-- A readback that has differed for too long: in force, its lock due, its source's condition up. -/
theorem State.readbackTimeout_overdue (due : (s.b.running && !s.b.resetting .sog &&
    (s.b.sog.stage ch).overdue k s.b.now (s.b.tRb k)) = true) :
    let v := setb (s.b.sog.stage ch).diff k true
    let u := s.readbackTimeout ch k
    (u.b.sog.stage ch).diff = v ∧ u.b.sog.lockDue = s.b.sog.lockDue ++ [(readbackSource ch, k)] ∧
      u.b.sog.committed = s.b.sog.committed ∧ (v ≠ 0 → u.b.fcl.cause.getLsbD (readbackSource ch) = true) := by
  intro v u
  let z := s.onSog fun o => (o.onStage ch fun g => { g with diff := setb g.diff k true }).dueLock (readbackSource ch) k
  have run : u = z.outCond (readbackSource ch) (s.b.sog.stage ch).diff v s.b.soutZoneOf := by
    refine (if_pos due).trans ?_
    cases ch <;> rfl
  obtain ⟨stage, lock, committed⟩ := s.b.sog.dueLock_onStage ch (fun g => { g with diff := setb g.diff k true }) (readbackSource ch) k
  have sog : u.b.sog = z.b.sog := run ▸ (z.outCond_only _ _ _ _).same_of .sog rfl
  rw [sog]
  exact ⟨congrArg Stage.diff stage, lock, committed, fun h => run ▸ z.outCond_cause _ _ _ _ (by cases ch <;> decide) h⟩

/-- A feedback that has differed for too long. -/
theorem State.feedbackTimeout_overdue (due : (s.b.running && !s.b.resetting .sto &&
    (s.b.sto.stage ch).overdue k s.b.now (s.b.tStf k)) = true) :
    let v := setb (s.b.sto.stage ch).diff k true
    let u := s.feedbackTimeout ch k
    (u.b.sto.stage ch).diff = v ∧ u.b.sto.lockDue = s.b.sto.lockDue ++ [(feedbackSource ch, k)] ∧
      u.b.sto.committed = s.b.sto.committed ∧ (v ≠ 0 → u.b.fcl.cause.getLsbD (feedbackSource ch) = true) := by
  intro v u
  let z := s.onSto fun o => (o.onStage ch fun g => { g with diff := setb g.diff k true }).dueLock (feedbackSource ch) k
  have run : u = z.outCond (feedbackSource ch) (s.b.sto.stage ch).diff v s.b.stoZoneOf := by
    refine (if_pos due).trans ?_
    cases ch <;> rfl
  obtain ⟨stage, lock, committed⟩ := s.b.sto.dueLock_onStage ch (fun g => { g with diff := setb g.diff k true }) (feedbackSource ch) k
  have sto : u.b.sto = z.b.sto := run ▸ (z.outCond_only _ _ _ _).same_of .sto rfl
  rw [sto]
  exact ⟨congrArg Stage.diff stage, lock, committed, fun h => run ▸ z.outCond_cause _ _ _ _ (by cases ch <;> decide) h⟩

end

/-! ### Dark tests (R135) -/

section
variable {k : Nat} {ch : Ch} {s : State}

theorem State.onDark_dark (f : Dark → Dark) (j : Nat) :
    nget (s.onDark k f).b.sog.dark j {} = if k = j then f (nget s.b.sog.dark k {}) else nget s.b.sog.dark j {} :=
  nget_nupd _ _ _ _ _

/-- The source of two failed dark tests of one switch. -/
def darkSource : Ch → Nat
  | .a => 226
  | .b => 227

/-- A dark pulse that is over ends; a second failure in a row locks the output. -/
theorem State.darkEnd_active (ended : s.b.darkOver k = true) (active : (nget s.b.sog.dark k {}).active = some ch) :
    let d := nget s.b.sog.dark k {}
    let s1 := s.onDark k fun d => d.finish ch s.b.now
    s.darkEnd k = if d.misses ch ≥ 1 ∧ d.seenZero = none then
      (s1.onSog fun o => o.dueLock (darkSource ch) k).raise (darkSource ch) (mkw k) (some (s.b.soutZoneOf k)) else s1 := by
  intro d s1
  have finished : nget s1.b.sog.dark k {} = d.finish ch s.b.now := (State.onDark_dark _ k).trans (if_pos rfl)
  unfold State.darkEnd
  rw [if_pos ended, active]
  dsimp only
  rw [show nget (s.onDark k fun d => d.finish ch s.b.now).b.sog.dark k {} = d.finish ch s.b.now from finished]
  refine if_congr ?_ (by cases ch <;> rfl) rfl
  cases seen : d.seenZero with
  | some z => simp [d]
  | none =>
    have counted : (d.finish ch s.b.now).misses ch = min (d.misses ch + 1) 2 := by
      cases ch <;> simp [Dark.finish, Dark.misses, seen]
    simp [counted]

end

end Sys2Proof.Machine

namespace Sys2Proof.Proofs

open Sys2Proof Sys2Proof.Machine

/-- Settles O29: what follows from the fallen signals leaves the lichens. -/
theorem terminalEvents : Obligations.TerminalEvents := by
  intro t s
  have ticked : (s.tick t).b.running = s.b.running ∧ (s.tick t).b.resetting = s.b.resetting ∧ (s.tick t).b.pulsing = s.b.pulsing ∧
      (s.tick t).b.lioKind = s.b.lioKind ∧ (s.tick t).b.lichen = s.b.lichen ∧ (s.tick t).b.discSamples = s.b.discSamples ∧
      (s.tick t).b.tpoEnabled = s.b.tpoEnabled ∧ (s.tick t).b.tpoWidth = s.b.tpoWidth ∧ (s.tick t).b.tpgSettle = s.b.tpgSettle :=
    ⟨rfl, rfl, rfl, rfl, rfl, rfl, rfl, rfl, rfl⟩
  refine ⟨fun i running working kind => ⟨fun ch => ?exchange, fun unlocked long differs => ?discrepancy⟩, fun k pulsing =>
    ⟨fun enabled => ⟨?start, fun off lasted => ?stop, fun early => ?early⟩, fun window lasted => ?window⟩⟩
  case exchange =>
    have ran : exec (.lichenExchangeMissed t ch i) s = .next (((((s.tick t).onLio fun l => { l with missed := true }).onLichen i
        fun l => l.missed ch).cond 149 true (mkw i)).signalsMoved (s.tick t).b) :=
      congrArg Host.Outcome.next (if_pos (by simp [ticked, running, working, kind]))
    refine ⟨_, _, ran, rfl, ?_⟩
    rw [State.signalsMoved_lichen, State.cond_lichen, State.onLichen_lichen, State.cond_lio]
    refine ⟨?_, ?_, rfl, State.cond_cause _ _ _ _ _ _ _ (by omega)⟩
    · cases ch <;> rfl
    · cases ch <;> exact ⟨rfl, rfl, rfl⟩
  case discrepancy =>
    have ran : exec (.discrepancyTimeout t i) s = .next ((((s.tick t).onLichen i fun l =>
        { l with lock := true, sig := false, sigB := false, zeroSince := true }).cond 144 true (mkw i)).signalsMoved (s.tick t).b) :=
      congrArg Host.Outcome.next (if_pos (by simp [ticked, running, working, kind, unlocked, long, differs]))
    refine ⟨_, _, ran, rfl, ?_⟩
    rw [State.signalsMoved_lichen, State.cond_lichen, State.onLichen_lichen]
    exact ⟨rfl, rfl, rfl, State.cond_cause _ _ _ _ _ _ _ (by omega)⟩
  case start =>
    obtain ⟨tpg, sog, sto, late⟩ := State.pulseStart_fields (s := s.tick t) pulsing enabled
    exact ⟨_, rfl, tpg, sog, sto, late⟩
  case stop => exact congrArg Host.Outcome.next (if_pos (by simpa [ticked, pulsing, enabled, off, -BitVec.getLsbD_eq_getElem] using lasted))
  case early => exact congrArg Host.Outcome.next (if_neg fun h => Nat.not_le.mpr early (of_decide_eq_true ((Bool.and_eq_true _ _).mp h).2))
  case window =>
    have verdicts : Only 65552 (s.tick t) (((s.tick t).eachLichen fun b i l => l.verdicts b i k).tpfConds k) :=
      .tpfConds _ rfl (.eachLichen _ rfl (.refl _ _))
    refine ⟨_, congrArg Host.Outcome.next (if_pos (by simp [ticked, pulsing, window, lasted])), ?_, verdicts.same_of .sog rfl,
      verdicts.same_of .sto rfl⟩
    exact congrArg (fun g : Tpg => { g with window := none }) (verdicts.same_of .tpg rfl)

/-- Settles O30: a difference in force is one of its stage, its lock waits for the round and its source's condition is up. -/
theorem readbackDifferences : Obligations.ReadbackDifferences := by
  intro t ch k s running
  have ticked : (s.tick t).b.running = s.b.running ∧ (s.tick t).b.resetting = s.b.resetting ∧ (s.tick t).b.tRb = s.b.tRb ∧
      (s.tick t).b.tStf = s.b.tStf := ⟨rfl, rfl, rfl, rfl⟩
  refine ⟨fun working overdue => ?readback, fun working overdue => ?feedback, fun may => ?start, fun ended active => ?ends⟩
  case readback =>
    have late := State.readbackTimeout_overdue (s := s.tick t) (ch := ch) (k := k)
      (by simpa [ticked, running, working] using overdue)
    cases ch <;> exact ⟨_, rfl, late⟩
  case feedback =>
    have late := State.feedbackTimeout_overdue (s := s.tick t) (ch := ch) (k := k)
      (by simpa [ticked, running, working] using overdue)
    cases ch <;> exact ⟨_, rfl, late⟩
  case start => exact congrArg Host.Outcome.next (if_pos may)
  case ends =>
    have run := State.darkEnd_active (s := s.tick t) ended active
    have others : ∀ j : Fin 16, j ≠ k → k.val ≠ j.val := fun j hj h => hj (Fin.ext h.symm)
    let d := nget s.b.sog.dark k.val {}
    let s1 := (s.tick t).onDark k fun d => d.finish ch (max s.b.now t)
    have ended : ∀ u : State, u.b.sog.dark = s1.b.sog.dark → nget u.b.sog.dark k.val {} = d.finish ch (max s.b.now t) ∧
        ∀ j : Fin 16, j ≠ k → nget u.b.sog.dark j.val {} = nget s.b.sog.dark j.val {} := fun u hu =>
      hu ▸ ⟨(State.onDark_dark _ _).trans (if_pos rfl), fun j hj => (State.onDark_dark _ _).trans (if_neg (others j hj))⟩
    have verdict : (d.finish ch (max s.b.now t)).active = none ∧ (d.finish ch (max s.b.now t)).next = ch.other ∧
        (d.finish ch (max s.b.now t)).misses ch = if d.seenZero.isSome then 0 else min (d.misses ch + 1) 2 := by
      cases ch <;> exact ⟨rfl, rfl, rfl⟩
    obtain ⟨inactive, next, misses⟩ := verdict
    by_cases failed : d.misses ch ≥ 1 ∧ d.seenZero = none
    · let u := (s1.onSog fun o => o.dueLock (darkSource ch) k).raise (darkSource ch) (mkw k) (some (s.b.soutZoneOf k))
      have ran : exec (.darkPulseEnd t k) s = .next u := congrArg Host.Outcome.next (run.trans (if_pos failed))
      obtain ⟨own, rest⟩ := ended u rfl
      refine ⟨u, ran, own ▸ inactive, own ▸ next, rfl, rest, fun seen => absurd failed.2 (Option.isSome_iff_ne_none.mp seen),
        fun _ _ => ?_, fun _ none => absurd (none ▸ failed.1) (by omega)⟩
      cases ch <;> exact ⟨rfl, rfl⟩
    · have ran : exec (.darkPulseEnd t k) s = .next s1 := congrArg Host.Outcome.next (run.trans (if_neg failed))
      obtain ⟨own, rest⟩ := ended s1 rfl
      refine ⟨s1, ran, own ▸ inactive, own ▸ next, rfl, rest, fun seen => ⟨?_, rfl, rfl⟩,
        fun unseen many => absurd ⟨many, unseen⟩ failed, fun unseen none => ⟨?_, rfl, rfl⟩⟩
      · rw [own, misses, if_pos seen]
      · rw [own, misses, unseen, none]
        rfl

end Sys2Proof.Proofs

/-! SUPPORT. Encoder and analogue samples (R152 to R154, R166, R167): what a failing check adds, and what it leaves. -/

namespace Sys2Proof.Machine

/-! ### Encoders -/

/-- Encoder `a` of `u` is that of `s` but for further failures, and no other encoder has changed. -/
structure State.EncFailed (a : Nat) (s u : State) : Prop where
  same : ∀ {α : Type} (g : Encoder → α), (∀ e l, g { e with failedBy := l } = g e) → g (u.b.enc a) = g (s.b.enc a)
  kept : ∀ i, (s.b.enc a).failedBy.contains i = true → (u.b.enc a).failedBy.contains i = true
  other : ∀ c, c ≠ a → u.b.enc c = s.b.enc c

section
variable {a : Nat} {s u w : State}

theorem State.EncFailed.trans (h : State.EncFailed a s u) (g : State.EncFailed a u w) : State.EncFailed a s w :=
  ⟨fun p hp => (g.same p hp).trans (h.same p hp), fun i hi => g.kept i (h.kept i hi), fun c hc => (g.other c hc).trans (h.other c hc)⟩

theorem State.onEnc_enc (f : Encoder → Encoder) (c : Nat) : (s.onEnc a f).b.enc c = if a = c then f (s.b.enc a) else s.b.enc c :=
  nget_nupd _ _ _ _ _

theorem State.onEnc_self (f : Encoder → Encoder) : (s.onEnc a f).b.enc a = f (s.b.enc a) := (State.onEnc_enc f a).trans (if_pos rfl)

theorem State.encFail_failed (i : Nat) (v : Bool) : State.EncFailed a s (s.encFail a i v) ∧
    (v = true → ((s.encFail a i v).b.enc a).failedBy.contains i = true) := by
  unfold State.encFail
  split
  · have own : ((((s.onEnc a fun e => { e with failedBy := i :: e.failedBy }).raise i (axWord a 0) (some (s.b.axZone a)))).b.enc a) =
        { s.b.enc a with failedBy := i :: (s.b.enc a).failedBy } :=
      State.onEnc_self _
    refine ⟨⟨fun g hg => ?_, fun j hj => ?_, fun c hc => ?_⟩, fun _ => ?_⟩
    · rw [own, hg]
    · rw [own]
      exact List.contains_iff_mem.mpr (List.mem_cons_of_mem _ (List.contains_iff_mem.mp hj))
    · exact (State.onEnc_enc _ c).trans (if_neg (Ne.symm hc))
    · rw [own]
      exact List.contains_iff_mem.mpr List.mem_cons_self
  next h =>
    refine ⟨⟨fun _ _ => rfl, fun _ h => h, fun _ _ => rfl⟩, fun hv => ?_⟩
    simpa [hv] using h

/-- A sample of an encoder, with the checks that fail. -/
theorem State.encSample_enc (sin cos : BitVec 20) (runs : s.b.running = true) (on : s.b.encOn a = true)
    (works : s.b.resetting .mea = false) :
    let e := (s.b.enc a).sample sin cos (s.b.vectorBad sin cos) (s.b.rulerOf .b)
    let u := s.encSample a sin cos
    (∀ {α : Type} (g : Encoder → α), (∀ e l, g { e with failedBy := l } = g e) → g (u.b.enc a) = g e) ∧
      (e.vecRun ≥ 2 → (u.b.enc a).failedBy.contains 288 = true) ∧ (e.oppRun ≥ 2 → (u.b.enc a).failedBy.contains 289 = true) ∧
      (fullScale sin = true ∨ fullScale cos = true → (u.b.enc a).failedBy.contains 291 = true) ∧
      ∀ c, c ≠ a → u.b.enc c = s.b.enc c := by
  intro e u
  let s1 := s.onEnc a fun e => e.sample sin cos (s.b.vectorBad sin cos) (s.b.rulerOf .b)
  have own : s1.b.enc a = e := State.onEnc_self _
  have run : u = ((s1.encFail a 288 (decide (e.vecRun ≥ 2))).encFail a 289 (decide (e.oppRun ≥ 2))).encFail a 291
      (fullScale sin || fullScale cos) := by
    rw [← own]
    exact if_pos (by simp [runs, on, works])
  obtain ⟨f1, h1⟩ := State.encFail_failed (s := s1) (a := a) 288 (decide (e.vecRun ≥ 2))
  obtain ⟨f2, h2⟩ := State.encFail_failed (s := s1.encFail a 288 (decide (e.vecRun ≥ 2))) (a := a) 289 (decide (e.oppRun ≥ 2))
  obtain ⟨f3, h3⟩ := State.encFail_failed (s := (s1.encFail a 288 (decide (e.vecRun ≥ 2))).encFail a 289 (decide (e.oppRun ≥ 2)))
    (a := a) 291 (fullScale sin || fullScale cos)
  rw [run]
  have all := (f1.trans f2).trans f3
  refine ⟨fun g hg => (all.same g hg).trans (congrArg g own), fun h => (f2.trans f3).kept _ (h1 (decide_eq_true h)),
    fun h => f3.kept _ (h2 (decide_eq_true h)), fun h => h3 (by simpa using h), fun c hc => (all.other c hc).trans ?_⟩
  exact (State.onEnc_enc _ c).trans (if_neg (Ne.symm hc))

theorem State.encFail_count (i : Nat) (v : Bool) : ((s.encFail a i v).b.enc a).quads = (s.b.enc a).quads ∧
    ((s.encFail a i v).b.enc a).count = (s.b.enc a).count :=
  have failed := (State.encFail_failed (s := s) (a := a) i v).1
  ⟨failed.same (Encoder.quads ·) fun _ _ => rfl, failed.same (Encoder.count ·) fun _ _ => rfl⟩

/-- A comparator edge: the counter moves by one quadrant, to a neighbouring one alone (R153). -/
theorem State.quadrantMove_enc (sinHigh cosHigh : Bool) (runs : s.b.running = true) (on : s.b.encOn a = true)
    (works : s.b.resetting .mea = false) :
    let d := (compQuadrant sinHigh cosHigh + 4 - ((s.b.enc a).quads.toInt % 4).toNat) % 4
    let u := s.quadrantMove a sinHigh cosHigh
    (d = 1 → (u.b.enc a).quads = (s.b.enc a).quads + 1) ∧ (d = 3 → (u.b.enc a).quads = (s.b.enc a).quads - 1) ∧
      (d = 0 ∨ d = 2 → (u.b.enc a).quads = (s.b.enc a).quads) ∧ (u.b.enc a).count = (s.b.enc a).count := by
  intro d u
  have go : (s.b.running && s.b.encOn a && !s.b.resetting .mea) = true := by simp [runs, on, works]
  by_cases neighbour : d = 1 ∨ d = 3
  · have moved : (u.b.enc a).quads = (if d = 1 then (s.b.enc a).quads + 1 else (s.b.enc a).quads - 1) ∧
        (u.b.enc a).count = (s.b.enc a).count := by
      simp only [u, State.quadrantMove]
      rw [if_pos go, if_pos neighbour, (State.encFail_count _ _).1, (State.encFail_count _ _).2, State.onEnc_self]
      exact ⟨rfl, rfl⟩
    refine ⟨fun h => moved.1.trans (if_pos h), fun h => moved.1.trans (if_neg (by omega)), fun h => by omega, moved.2⟩
  · have stays : u = s := by
      simp only [u, State.quadrantMove]
      rw [if_pos go, if_neg neighbour]
    rw [stays]
    exact ⟨fun h => absurd (.inl h) neighbour, fun h => absurd (.inr h) neighbour, fun _ => rfl, rfl⟩

end

theorem Encoder.primed_fields (e : Encoder) (sin cos : BitVec 20) : (e.primed sin cos).count = e.count ∧
    (e.primed sin cos).lenMin = e.lenMin ∧ (e.primed sin cos).oppRun = e.oppRun := by
  unfold Encoder.primed
  split <;> exact ⟨rfl, rfl, rfl⟩

/-- A sample of an encoder: its words, its length, and its count where the quadrants can be combined (R153). -/
theorem Encoder.sample_fields (e : Encoder) (sin cos : BitVec 20) (bad : Bool) (atB : Nat) :
    let x := e.sample sin cos bad atB
    x.sin = sin ∧ x.cos = cos ∧ x.len = vectorLen sin cos ∧ x.lenMin = min e.lenMin (vectorLen sin cos) ∧
      x.quads = (e.primed sin cos).quads ∧
      (∀ n, (e.primed sin cos).combine sin cos = some n → x.count = n ∧ x.oppRun = 0) ∧
      ((e.primed sin cos).combine sin cos = none → x.count = e.count ∧ x.oppRun = min (e.oppRun + 1) 2) := by
  intro x
  obtain ⟨count, lenMin, oppRun⟩ := e.primed_fields sin cos
  cases combined : (e.primed sin cos).combine sin cos with
  | some n => simp [x, Encoder.sample, combined, lenMin]
  | none => simp [x, Encoder.sample, combined, count, lenMin, oppRun]

/-! ### Axes -/

theorem State.onAxis_axis {a : Nat} (f : Axis → Axis) (s : State) : (s.onAxis a f).b.axis a = f (s.b.axis a) := nget_nupd_same _ _ _ f

theorem State.axFail_axis {a : Nat} (i inst : Nat) (s : State) : (s.axFail a i inst).b.axis a =
    { s.b.axis a with failed := if (s.b.axis a).failed.contains i then (s.b.axis a).failed else i :: (s.b.axis a).failed } :=
  State.onAxis_axis _ s

/-! ### Analogue lichens (R166, R167) -/

section
variable {j : Nat} {s : State}

theorem State.onAin_ain (f : Analogue → Analogue) : (s.onAin j f).b.ain j = f (s.b.ain j) := nget_nupd_same _ _ _ f

/-- What a failure leaves of an analogue lichen. -/
theorem State.ainFail_ain (i : Nat) : ((s.ainFail j i).b.ain j).rawA = (s.b.ain j).rawA ∧
    ((s.ainFail j i).b.ain j).rawB = (s.b.ain j).rawB ∧ ((s.ainFail j i).b.ain j).winA = (s.b.ain j).winA ∧
    ((s.ainFail j i).b.ain j).winB = (s.b.ain j).winB ∧ ((s.ainFail j i).b.ain j).failed.contains i = true := by
  unfold State.ainFail
  split
  next h => exact ⟨rfl, rfl, rfl, rfl, h⟩
  next h =>
    have own : (((s.onAin j fun x => { x with failed := i :: x.failed, events := x.events.inc }).raise i (mkw j)).b.ain j) =
        { s.b.ain j with failed := i :: (s.b.ain j).failed, events := (s.b.ain j).events.inc } := State.onAin_ain _
    rw [own]
    exact ⟨rfl, rfl, rfl, rfl, List.contains_iff_mem.mpr List.mem_cons_self⟩

/-- A sample of an analogue lichen, in both channels. -/
theorem State.ainSample_ain (ra rb : BitVec 20) (runs : s.b.running = true) (used : 0 < s.b.ainN j)
    (works : s.b.resetting .mea = false) :
    ∀ x, x = (s.ainSample j ra rb).b.ain j → x.rawA = ra ∧ x.rawB = rb ∧ x.winA = (ra.toInt :: (s.b.ain j).winA).take (s.b.ainN j) ∧
      x.winB = (rb.toInt :: (s.b.ain j).winB).take (s.b.ainN j) ∧
      (fullScale ra = true ∨ fullScale rb = true → x.failed.contains 294 = true) := by
  unfold State.ainSample
  rw [if_pos (by simp [runs, used, works])]
  extract_lets n s1 x differ s2
  rintro _ rfl
  have taken : s1.b.ain j = { s.b.ain j with rawA := ra, rawB := rb, winA := (ra.toInt :: (s.b.ain j).winA).take n
                                             winB := (rb.toInt :: (s.b.ain j).winB).take n } := State.onAin_ain _
  have judged : s2.b.ain j = { s1.b.ain j with diffAt := if differ then some ((s1.b.ain j).diffAt.getD s.b.now) else none } :=
    State.onAin_ain _
  rw [taken] at judged
  split
  next full =>
    obtain ⟨rawA, rawB, winA, winB, failed⟩ := State.ainFail_ain (s := s2) (j := j) 294
    rw [judged] at rawA rawB winA winB
    exact ⟨rawA, rawB, winA, winB, fun _ => failed⟩
  next full =>
    rw [judged]
    exact ⟨rfl, rfl, rfl, rfl, fun h => absurd h (by simpa using full)⟩

end

end Sys2Proof.Machine

namespace Sys2Proof.Proofs

open Sys2Proof Sys2Proof.Machine

/-- Settles O31: the checks add failures; the words, the counts and the windows are those of the sample. -/
theorem motionSamples : Obligations.MotionSamples := by
  intro t s running
  have ticked : (s.tick t).b.running = s.b.running ∧ (s.tick t).b.resetting = s.b.resetting ∧ (s.tick t).b.axEn = s.b.axEn ∧
      (s.tick t).b.ainSet = s.b.ainSet := ⟨rfl, rfl, rfl, rfl⟩
  refine ⟨fun a sin cos on working => ?encoder, fun a sinHigh cosHigh on working => ?quadrant, fun ch a on working => ?exchange,
    fun j ra rb used working => ?sample, fun j t0 since lasted working fresh => ?timeout⟩
  case encoder =>
    intro e
    obtain ⟨same, vec, opp, full, other⟩ := State.encSample_enc (s := s.tick t) (a := a) sin cos running on working
    obtain ⟨hsin, hcos, hlen, hmin, hquads, counted, kept⟩ := (s.b.enc a).sample_fields sin cos ((s.tick t).b.vectorBad sin cos)
      ((s.tick t).b.rulerOf .b)
    have vecRun := same (Encoder.vecRun ·) fun _ _ => rfl
    have oppRun := same (Encoder.oppRun ·) fun _ _ => rfl
    have count := same (Encoder.count ·) fun _ _ => rfl
    exact ⟨(s.tick t).encSample a sin cos, rfl, (same (Encoder.sin ·) fun _ _ => rfl).trans hsin,
      (same (Encoder.cos ·) fun _ _ => rfl).trans hcos, (same (Encoder.len ·) fun _ _ => rfl).trans hlen,
      (same (Encoder.lenMin ·) fun _ _ => rfl).trans hmin, (same (Encoder.quads ·) fun _ _ => rfl).trans hquads,
      fun n h => ⟨count.trans (counted n h).1, oppRun.trans (counted n h).2⟩,
      fun h => ⟨count.trans (kept h).1, oppRun.trans (kept h).2⟩, fun h => vec (vecRun ▸ h), fun h => opp (oppRun ▸ h), full, other⟩
  case quadrant =>
    have moves := State.quadrantMove_enc (s := s.tick t) (a := a) sinHigh cosHigh running on working
    exact ⟨_, rfl, moves⟩
  case exchange =>
    refine ⟨_, congrArg Host.Outcome.next (if_pos (by simp [ticked, running, on, working])), ?_, rfl⟩
    rw [State.axFail_axis, State.onAxis_axis]
    cases ch <;> rfl
  case sample => exact ⟨_, rfl, State.ainSample_ain (s := s.tick t) ra rb running used working _ rfl⟩
  case timeout =>
    have run : exec (.analogueDiscrepancyTimeout t j) s = .next ((s.tick t).ainFail j 293) := by
      show Host.Outcome.next (State.ainTimeout j (s.tick t)) = _
      rw [State.ainTimeout, show ((s.tick t).b.ain j).diffAt = some t0 from since]
      exact congrArg Host.Outcome.next (if_pos (by simpa [ticked, running, working] using lasted))
    have failed : (s.tick t).ainFail j 293 = _ := if_neg (ne_of_eq_of_ne fresh Bool.false_ne_true)
    rw [run, failed]
    exact ⟨_, rfl, congrArg Analogue.failed (State.onAin_ain _), rfl⟩

end Sys2Proof.Proofs

/-! SUPPORT. The periodic update of the axes (R159 to R162, R165): what it measures of an axis, and what the functions on the axis
leave of that. -/

namespace Sys2Proof.Machine

/-! ### One axis changes, in some of its fields -/

/-- `u` differs from `s` in axis `a` alone of the axes, and there not in `p`. -/
structure AxisKeeps {α : Type} (p : Axis → α) (a : Nat) (s u : State) : Prop where
  own : p (u.b.axis a) = p (s.b.axis a)
  other : ∀ c, c ≠ a → u.b.axis c = s.b.axis c

namespace AxisKeeps
variable {α : Type} {p : Axis → α} {a : Nat} {s u v : State}

theorem refl (s : State) : AxisKeeps p a s s := ⟨rfl, fun _ _ => rfl⟩

theorem trans (h : AxisKeeps p a s u) (g : AxisKeeps p a u v) : AxisKeeps p a s v :=
  ⟨g.own.trans h.own, fun c hc => (g.other c hc).trans (h.other c hc)⟩

theorem of_axes (h : u.b.axs.axes = s.b.axs.axes) : AxisKeeps p a s u :=
  ⟨by rw [Blocks.axis, Blocks.axis, h], fun c _ => by rw [Blocks.axis, Blocks.axis, h]⟩

theorem of_only {m : Nat} (h : Only m s u) (hm : m.testBit Part.axs.idx = false) : AxisKeeps p a s u :=
  of_axes (congrArg Axs.axes (h.same_of .axs hm))

theorem onAxis {f : Axis → Axis} (hf : p (f (s.b.axis a)) = p (s.b.axis a)) : AxisKeeps p a s (s.onAxis a f) :=
  ⟨(congrArg p (State.onAxis_axis f s)).trans hf, fun _ hc => (nget_nupd _ _ _ _ _).trans (if_neg (Ne.symm hc))⟩

theorem onAxs {g : Axs → Axs} (hg : (g s.b.axs).axes = s.b.axs.axes) : AxisKeeps p a s (s.onAxs g) := of_axes hg

theorem onAxFn (i : Nat) (f : AxFn → AxFn) (s : State) : AxisKeeps p a s (s.onAxFn i f) := of_axes rfl

theorem axFail (hp : ∀ x l, p { x with failed := l } = p x) (i inst : Nat) (s : State) : AxisKeeps p a s (s.axFail a i inst) :=
  (onAxis (hp _ _)).trans (of_axes rfl)

theorem ite {c : Prop} [Decidable c] (hu : AxisKeeps p a s u) (hv : AxisKeeps p a s v) : AxisKeeps p a s (if c then u else v) := by
  split <;> assumption

theorem forL {β : Type} {f : β → State → State} (l : List β) (hf : ∀ x t, AxisKeeps p a t (f x t)) (s : State) :
    AxisKeeps p a s (Machine.forL l f s) := by
  induction l generalizing s with
  | nil => exact refl s
  | cons x r ih => exact (hf x s).trans (ih _)

end AxisKeeps

/-! ### What the functions on an axis leave (R169 to R179) -/

/-- What an update has measured of an axis. -/
def Axis.measured (x : Axis) : (Bool × Bool) × (Option Int × Option Int) × (Option Int × Option Int) × Bool × Bool × Bool :=
  ((x.missA, x.missB), (x.pa, x.pb), (x.va, x.vb), x.agreed, x.known, x.refd)

theorem Axis.startStop_measured (x : Axis) (e : FnEntry) (cause n : Nat) (v0 : Int) :
    (x.startStop e cause n v0).measured = x.measured := by
  unfold Axis.startStop
  split <;> rfl

theorem Axis.stopUpdate_measured (x : Axis) (e : FnEntry) (v : AxSeen) (n ts : Nat) :
    (x.stopUpdate e v n ts).1.measured = x.measured := by
  unfold Axis.stopUpdate
  extract_lets t failed y
  split
  · split <;> rfl
  split
  · split <;> rfl
  split
  · split <;> rfl
  · split <;> rfl

namespace AxisKeeps
variable {a : Nat} (n : Nat) (e : FnEntry) (s : State)

theorem awaitStops (kind : Nat) : AxisKeeps Axis.measured a s (s.awaitStops kind a) := forL _ (fun _ _ => onAxFn _ _ _) s

theorem demandSs1 (cause : Nat) : AxisKeeps Axis.measured a s (s.demandSs1 a cause n e) := by
  unfold State.demandSs1
  extract_lets x
  exact ite (refl s) ((onAxis (Axis.startStop_measured ..)).trans (awaitStops _ _))

theorem zoneSto : AxisKeeps Axis.measured a s (s.zoneSto a) := onAxis (by split <;> rfl)

theorem zoneReact : AxisKeeps Axis.measured a s (s.zoneReact a n) := by
  unfold State.zoneReact
  extract_lets z
  refine ite (onAxis rfl) (ite ?_ (refl s))
  split
  · exact ite (demandSs1 _ _ _ _) (zoneSto s)
  · exact zoneSto s

theorem stopStep : AxisKeeps Axis.measured a s (s.stopStep a n) := by
  unfold State.stopStep
  split
  · exact refl s
  · extract_lets r s1
    have updated : AxisKeeps Axis.measured a s s1 := onAxis (Axis.stopUpdate_measured ..)
    exact ite (refl s) (ite (updated.trans (axFail (fun _ _ => rfl) _ _ _)) updated)

theorem wakeFns : AxisKeeps Axis.measured a s (s.wakeFns a) := ite (forL _ (fun _ _ => onAxFn _ _ _) s) (refl s)

theorem violationReact : AxisKeeps Axis.measured a s (s.violationReact a n e) := by
  unfold State.violationReact
  extract_lets sto
  have stopped : AxisKeeps Axis.measured a s sto := (onAxis (by split <;> rfl)).trans (awaitStops _ _)
  refine ite ?_ stopped
  split
  · exact demandSs1 _ _ _ _
  · exact stopped

theorem monitorStep : AxisKeeps Axis.measured a s (s.monitorStep a n e) := by
  unfold State.monitorStep
  extract_lets f v r
  refine ite (refl s) (ite (refl s) (ite (onAxFn _ _ _) (ite ?_ (onAxFn _ _ _))))
  exact ((onAxFn _ _ _).trans (axFail (fun _ _ => rfl) _ _ _)).trans (violationReact _ _ _)

theorem publishWords (lo : Nat) : AxisKeeps Axis.measured a s (s.publishWords a lo) := by
  unfold State.publishWords
  extract_lets before s1
  have formed : AxisKeeps Axis.measured a s s1 := onAxis rfl
  exact formed.trans (forL _ (fun _ t => of_only (Only.trigger (m := 306391242) _ _ rfl (.refl _ t)) rfl) s1)

theorem holdSto : AxisKeeps Axis.measured a s (s.holdSto a) := of_only (Only.holdSto (m := 128) a rfl (.refl _ s)) rfl

end AxisKeeps

/-! ### What an update measures (R159 to R162) -/

/-- An axis after its update, against the axis before: each source missing where it was reported so; agreement, speed and the
reference with the sources they take. -/
structure Axis.Updated (x y : Axis) : Prop where
  missA : y.missA = false
  missB : y.missB = false
  agreed : y.agreed = true → y.pa.isSome = true ∧ y.pb.isSome = true
  known : y.known = true → y.pa.isSome = true ∧ y.pb.isSome = true ∧ y.va.isSome = true ∧ y.vb.isSome = true
  refd : y.refd = true → y.pb.isSome = true
  noneA : x.missA = true → y.pa = none
  noneB : x.missB = true → y.pb = none

/-- What an axis takes of its sources. -/
def Axis.taken (x : Axis) : (Bool × Bool) × (Option Int × Option Int) × Option Int × Option Int :=
  ((x.missA, x.missB), (x.pa, x.pb), x.va, x.vb)

theorem Axis.of_taken {x y : Axis} (h : x.taken = y.taken) : x.missA = y.missA ∧ x.missB = y.missB ∧ x.pa = y.pa ∧ x.pb = y.pb :=
  ⟨congrArg (·.1.1) h, congrArg (·.1.2) h, congrArg (·.2.1.1) h, congrArg (·.2.1.2) h⟩

section
variable {a : Nat} (s : State)

theorem AxisKeeps.checkRecord : AxisKeeps (fun x => (x.missA, x.missB)) a s (s.checkRecord a) := by
  unfold State.checkRecord
  extract_lets x
  split
  · exact .ite ((AxisKeeps.onAxis rfl).trans (.axFail (fun _ _ => rfl) _ _ _)) (.refl s)
  · exact .refl s

theorem AxisKeeps.adopt : AxisKeeps (fun x => (x.missA, x.missB)) a s (s.adopt a) := by
  unfold State.adopt
  split
  · exact .ite (AxisKeeps.trans (u := s.onEnc a _) (.of_axes rfl) (.onAxis rfl)) (.refl s)
  · exact .refl s

/-- The sources taken: none where it was reported missing, and the report is used up. -/
theorem State.takeSources_axis {y : Axis} (hy : (s.takeSources a).b.axis a = y) : y.missA = false ∧ y.missB = false ∧
    ((s.b.axis a).missA = true → y.pa = none) ∧ ((s.b.axis a).missB = true → y.pb = none) := by
  rw [← hy, State.takeSources, State.onAxis_axis]
  exact ⟨rfl, rfl, fun h => if_pos h, fun h => if_pos h⟩

theorem AxisKeeps.takeSources : AxisKeeps (fun _ => ()) a s (s.takeSources a) := .onAxis rfl

/-- The cross-check leaves the sources, and finds an axis in agreement only where both are there. -/
theorem AxisKeeps.crossCheck : AxisKeeps Axis.taken a s (s.crossCheck a) := by
  have compared : ∀ r off, AxisKeeps Axis.taken a s (s.compare a r off) := by
    intro r off
    unfold State.compare
    extract_lets x d posFail known spdFail fails src due s1
    have made : AxisKeeps Axis.taken a s s1 := .trans (.onAxis rfl) (.onAxs rfl)
    exact .ite (made.trans (.of_axes rfl)) made
  unfold State.crossCheck
  extract_lets x
  split
  · exact .ite (.onAxis rfl) (compared _ _)
  · exact .onAxis rfl

theorem State.crossCheck_agreed (h : ((s.crossCheck a).b.axis a).agreed = true) :
    (s.b.axis a).pa.isSome = true ∧ (s.b.axis a).pb.isSome = true := by
  unfold State.crossCheck at h
  extract_lets x at h
  split at h
  next p q _ _ hp hq _ _ => exact ⟨Option.isSome_of_eq_some hp, Option.isSome_of_eq_some hq⟩
  · rw [State.onAxis_axis] at h
    exact absurd h Bool.false_ne_true

/-- Sources, cross-check and speed of one axis. -/
theorem State.axisMeasure_updated : AxisKeeps (fun _ => ()) a s (s.axisMeasure a) ∧
    (s.b.axis a).Updated ((s.axisMeasure a).b.axis a) := by
  unfold State.axisMeasure
  let s1 := (s.checkRecord a).adopt a
  let s2 := s1.takeSources a
  let s3 := s2.crossCheck a
  have before := (AxisKeeps.checkRecord s (a := a)).trans (.adopt _)
  have taken := AxisKeeps.takeSources s1 (a := a)
  obtain ⟨missA, missB, noneA, noneB⟩ := s1.takeSources_axis (a := a) rfl
  have checked := AxisKeeps.crossCheck s2 (a := a)
  have last : ((s3.followSpeed a).b.axis a) = _ := State.onAxis_axis _ s3
  refine ⟨⟨rfl, fun c hc => ?_⟩, ?_⟩
  · have followed : AxisKeeps (fun _ => ()) a s3 (s3.followSpeed a) := .onAxis rfl
    exact (followed.other c hc).trans ((checked.other c hc).trans ((taken.other c hc).trans (before.other c hc)))
  · obtain ⟨ownA, ownB, pa, pb⟩ := Axis.of_taken checked.own
    have wasA := congrArg (·.1) before.own
    have wasB := congrArg (·.2) before.own
    rw [show ((s3.followSpeed a).b.axis a) = _ from last]
    have both := s2.crossCheck_agreed (a := a)
    refine ⟨ownA.trans missA, ownB.trans missB, fun h => ?_, fun h => ?_, fun h => ?_, fun h => pa.trans (noneA (wasA.trans h)),
      fun h => pb.trans (noneB (wasB.trans h))⟩
    · rw [pa, pb]
      exact both h
    · simp only [Bool.and_eq_true] at h
      exact ⟨h.1.1.1.1, h.1.1.1.2, h.1.1.2, h.1.2⟩
    · exact ((Bool.and_eq_true _ _).mp h).2

theorem Axis.Updated.of_measured {x y z : Axis} (h : x.Updated y) (e : z.measured = y.measured) : x.Updated z := by
  have missA : z.missA = y.missA := congrArg (·.1.1) e
  have missB : z.missB = y.missB := congrArg (·.1.2) e
  have pa : z.pa = y.pa := congrArg (·.2.1.1) e
  have pb : z.pb = y.pb := congrArg (·.2.1.2) e
  have va : z.va = y.va := congrArg (·.2.2.1.1) e
  have vb : z.vb = y.vb := congrArg (·.2.2.1.2) e
  have agreed : z.agreed = y.agreed := congrArg (·.2.2.2.1) e
  have known : z.known = y.known := congrArg (·.2.2.2.2.1) e
  have refd : z.refd = y.refd := congrArg (·.2.2.2.2.2) e
  obtain ⟨h1, h2, h3, h4, h5, h6, h7⟩ := h
  exact ⟨missA ▸ h1, missB ▸ h2, by rwa [agreed, pa, pb], by rwa [known, pa, pb, va, vb], by rwa [refd, pb], by rwa [pa], by rwa [pb]⟩

/-- The update of one axis: what the functions do after the measurement leaves it. -/
theorem State.axisUpdate_updated (n : Nat) : AxisKeeps (fun _ => ()) a s (s.axisUpdate n a) ∧
    (s.b.axis a).Updated ((s.axisUpdate n a).b.axis a) := by
  obtain ⟨other, updated⟩ := s.axisMeasure_updated (a := a)
  have functions : AxisKeeps Axis.measured a (s.axisMeasure a) (s.axisUpdate n a) := by
    unfold State.axisUpdate
    extract_lets s1 s2
    have stops : AxisKeeps Axis.measured a (s.axisMeasure a) s1 := ((AxisKeeps.zoneReact n _).trans (.stopStep n _)).trans (.wakeFns _)
    have monitors : AxisKeeps Axis.measured a s1 s2 := .forL _ (fun e t => .monitorStep n e t) s1
    exact ((stops.trans monitors).trans (.publishWords _ _)).trans (.holdSto _)
  exact ⟨⟨rfl, fun c hc => (functions.other c hc).trans (other.other c hc)⟩, updated.of_measured functions.own⟩

end

/-- The updates of several axes, one after the other. -/
theorem State.forL_axisUpdate (n : Nat) : ∀ {l : List Nat}, l.Nodup → ∀ (s : State) (c : Nat),
    let u := forL l (State.axisUpdate n) s
    (c ∈ l → (s.b.axis c).Updated (u.b.axis c)) ∧ (c ∉ l → u.b.axis c = s.b.axis c)
  | [], _, s, c => ⟨fun h => absurd h List.not_mem_nil, fun _ => rfl⟩
  | a :: r, nodup, s, c => by
    obtain ⟨fresh, nodup⟩ := List.nodup_cons.mp nodup
    obtain ⟨inside, outside⟩ := State.forL_axisUpdate n nodup (s.axisUpdate n a) c
    obtain ⟨keeps, updated⟩ := s.axisUpdate_updated (a := a) n
    intro u
    by_cases hc : c = a
    · subst hc
      exact ⟨fun _ => (outside fresh).symm ▸ updated, fun h => absurd List.mem_cons_self h⟩
    · have same := keeps.other c hc
      exact ⟨fun h => same ▸ inside ((List.mem_cons.mp h).resolve_left hc),
        fun h => (outside fun hr => h (List.mem_cons_of_mem _ hr)).trans same⟩

end Sys2Proof.Machine

namespace Sys2Proof.Proofs

open Sys2Proof Sys2Proof.Machine

/-- Settles O32: axis by axis; an update changes no other axis. -/
theorem axesAfterUpdate : Obligations.AxesAfterUpdate := by
  intro t s
  have ticked : (s.tick t).b.running = s.b.running ∧ (s.tick t).b.resetting = s.b.resetting := ⟨rfl, rfl⟩
  refine ⟨fun running working => ?updates, fun idle => ?idle⟩
  case idle =>
    refine congrArg Host.Outcome.next (if_neg ?_)
    obtain h | h := idle <;> simp [ticked, h]
  case updates =>
    refine ⟨_, congrArg Host.Outcome.next (if_pos (by simp [ticked, running, working])), fun a => ?_⟩
    have nodup : (s.tick t).b.axesOn.Nodup := List.nodup_range.filter _
    have mem : a.val ∈ (s.tick t).b.axesOn ↔ s.b.axEn a = true :=
      List.mem_filter.trans (and_iff_right (List.mem_range.mpr a.isLt))
    obtain ⟨inside, outside⟩ := State.forL_axisUpdate (s.tick t).b.sys.nextNumber nodup (s.tick t) a
    refine ⟨fun on => ?_, fun off => outside (by rw [mem, off]; exact Bool.false_ne_true)⟩
    obtain ⟨h1, h2, h3, h4, h5, h6, h7⟩ := inside (mem.mpr on)
    exact ⟨h1, h2, h3, h4, h5, h6, h7⟩

end Sys2Proof.Proofs

/-! SUPPORT. The separation engine (R188 to R205): the results of a chain at a completed update, and the words of one that is not
ready. -/

namespace Sys2Proof.Machine

/-! ### Words -/

/-- Another entry's value is set, whatever its own default is. -/
theorem nget_nset_ne {α : Type} [DecidableEq α] (m : NMap α) {k j : Nat} (v d e : α) (h : k ≠ j) :
    nget (nset m k v d) j e = nget m j e := by
  unfold nset
  split
  · rw [nget_ndel, if_neg h]
  · rw [nget_nput, if_neg h]

/-- A word that no entry of a list gives a valid value is invalid, at its safe value. -/
theorem sepWords_invalid {l : List (Nat × NV)} {w : Nat} (h : ∀ x ∈ l, x.1 = w → x.2.ok = false) :
    nget (sepWords l) w { val := sepSafe w, ok := false } = { val := sepSafe w, ok := false } := by
  have steps : ∀ (l : List (Nat × NV)) (m : NMap NV), (∀ x ∈ l, x.1 = w → x.2.ok = false) →
      nget m w { val := sepSafe w, ok := false } = { val := sepSafe w, ok := false } →
      nget (forL l (fun x m => nset m x.1 (if x.2.ok then x.2 else { val := sepSafe x.1, ok := false })
        { val := sepSafe x.1, ok := false }) m) w { val := sepSafe w, ok := false } = { val := sepSafe w, ok := false } := by
    intro l
    induction l with
    | nil => exact fun _ _ hm => hm
    | cons x r ih =>
      intro m h hm
      refine ih _ (fun y hy => h y (List.mem_cons_of_mem _ hy)) ?_
      by_cases own : x.1 = w
      · have invalid := h x List.mem_cons_self own
        subst own
        rw [nget_nset_same, invalid]
        rfl
      · rw [nget_nset_ne _ _ _ _ own, hm]
  exact steps l [] h rfl

/-! ### Rebuilds and updates of one channel (R189, R202) -/

/-- A basis complete in both channels comes into use, and none other does. -/
theorem Sep.settle_fields {p : Sep} {z : Basis} (building : p.building = some z) : p.settle.builtA = p.builtA ∧ p.settle.builtB = p.builtB ∧
    (p.builtA = true → p.builtB = true → p.settle.inUse = some z ∧ p.settle.building = none) ∧
    (p.builtA = false ∨ p.builtB = false → p.settle.inUse = p.inUse ∧ p.settle.building = some z) := by
  unfold Sep.settle
  split
  next both =>
    simp only [Bool.and_eq_true] at both
    refine ⟨rfl, rfl, fun _ _ => ⟨building, rfl⟩, fun h => ?_⟩
    simp [both] at h
  next single =>
    refine ⟨rfl, rfl, fun a b => absurd (by simp [a, b, building]) single, fun _ => ⟨rfl, building⟩⟩

section
variable {s : State} {ch : Ch} {v : SepUpdate}

/-- A channel that is late with an update: its source names the first chain. -/
theorem State.updateLate_open (update : s.b.sep.update = some v) :
    (match ch with | .a => v.doneA || v.lateA | .b => v.doneB || v.lateB) = false →
      ∃ w, (s.updateLate ch).b.sep.update = some w ∧ (match ch with | .a => w.lateA | .b => w.lateB) = true ∧
      (s.updateLate ch).b.fcl.arrivals =
        s.b.fcl.arrivals ++ [⟨match ch with | .a => 358 | .b => 359, true, s.b.firstChain, none, 0, none⟩] := by
  intro isOpen
  unfold State.updateLate
  rw [update]
  dsimp only
  cases ch
  all_goals
    dsimp only at isOpen ⊢
    rw [if_pos (by simpa using isOpen)]
    exact ⟨_, rfl, rfl, rfl⟩

/-- An update that a channel has completed. -/
def SepUpdate.done (v : SepUpdate) : Ch → SepUpdate
  | .a => { v with doneA := true }
  | .b => { v with doneB := true }

/-- A channel completes the update: the second one ends it. -/
theorem State.updateComplete_open {g : Grid} (on : s.b.sepOn = true) (grid : s.b.grid = some g) (update : s.b.sep.update = some v) :
    (match ch with | .a => v.doneA || v.lateA | .b => v.doneB || v.lateB) = false →
      ∃ z : State, z.b.sep.update = some (v.done ch) ∧ z.b.sep.chains = s.b.sep.chains ∧ z.b.cfg = s.b.cfg ∧
        s.updateComplete ch = if (v.done ch).doneA && (v.done ch).doneB then z.sepFinish g (v.done ch) else z := by
  intro isOpen
  unfold State.updateComplete
  rw [grid, update]
  dsimp -zeta only
  rw [if_pos on]
  extract_lets w v' s1
  have taken : s1.b.sep.update = some (v.done ch) ∧ s1.b.sep.chains = s.b.sep.chains := by
    simp only [s1, State.onSep_sep]
    cases ch <;> (dsimp only at isOpen ⊢; rw [if_neg (ne_of_eq_of_ne isOpen Bool.false_ne_true)]; exact ⟨rfl, rfl⟩)
  exact ⟨s1, taken.1, taken.2, rfl, by rw [taken.1]⟩

end

/-! ### One chain's results (R194, R199) -/

/-- `u` has the results of chain `c`, from `s`: no other chain, no setting and no update under way has changed. -/
structure ChainResults (c : Nat) (s u : State) : Prop where
  words : (u.b.chain c).ready = false → ∀ w < 5, (u.b.chain c).word w = { val := sepSafe w, ok := false }
  state : (u.b.chain c).ready = false → (s.b.sepFn c).isSome = true → (u.b.chain c).state = 1
  other : ∀ j, j ≠ c → u.b.chain j = s.b.chain j
  update : u.b.sep.update = s.b.sep.update
  settings : u.b.cfg = s.b.cfg

theorem State.onChain_chain (c : Nat) (f : ChainSt → ChainSt) (s : State) (j : Nat) :
    (s.onChain c f).b.chain j = if c = j then f (s.b.chain c) else s.b.chain j := nget_nupd _ _ _ _ _

theorem State.chainResult_results (g : Grid) (v : SepUpdate) (kin : Nat → ChainKin) (excess : Bool) (c : Nat) (s : State) :
    ChainResults c s (s.chainResult g v kin excess c) := by
  unfold State.chainResult
  extract_lets x k z dist zero dA dB d diff runs ready vp clear st spA spB age clearWord permitWord words s1
  have own : s1.b.chain c = _ := (State.onChain_chain c _ s c).trans (if_pos rfl)
  have results : ChainResults c s s1 := by
    refine ⟨fun h w hw => ?_, fun h hs => ?_, fun j hj => (State.onChain_chain c _ s j).trans (if_neg (Ne.symm hj)), rfl, rfl⟩
    · rw [own] at h ⊢
      have no : ready = false := h
      refine sepWords_invalid fun x hx hxw => ?_
      simp only [List.mem_cons, List.not_mem_nil, or_false] at hx
      obtain rfl | rfl | rfl | rfl | rfl | rfl | rfl | rfl | rfl | rfl | rfl := hx
      · exact no
      · exact no
      · simp [NV.num, no]
      · exact no
      · exact no
      -- words 5 to 10 are others
      all_goals exact absurd hxw.symm (by omega)
    · rw [own] at h ⊢
      have no : ready = false := h
      obtain ⟨e, he⟩ := Option.isSome_iff_exists.mp hs
      have start : st = 1 := by simp only [st, he, sepFnState, no]; rfl
      exact (if_pos hs).trans start
  split
  · exact ⟨results.words, results.state, results.other, results.update, results.settings⟩
  · exact results

/-- The results of several chains, one after the other. -/
theorem State.forL_chainResults {f : Nat → State → State} (hf : ∀ c s, ChainResults c s (f c s)) :
    ∀ {l : List Nat}, l.Nodup → ∀ s : State,
      (forL l f s).b.sep.update = s.b.sep.update ∧ (forL l f s).b.cfg = s.b.cfg ∧
        (∀ c ∉ l, (forL l f s).b.chain c = s.b.chain c) ∧
        ∀ c ∈ l, ((forL l f s).b.chain c).ready = false →
          (∀ w < 5, ((forL l f s).b.chain c).word w = { val := sepSafe w, ok := false }) ∧
            ((s.b.sepFn c).isSome = true → ((forL l f s).b.chain c).state = 1)
  | [], _, s => ⟨rfl, rfl, fun _ _ => rfl, fun _ h => absurd h List.not_mem_nil⟩
  | a :: r, nodup, s => by
    obtain ⟨fresh, nodup⟩ := List.nodup_cons.mp nodup
    obtain ⟨words, state, other, update, cfg⟩ := hf a s
    obtain ⟨update', cfg', outside, inside⟩ := State.forL_chainResults hf nodup (f a s)
    have sepFn : (f a s).b.sepFn = s.b.sepFn := by
      funext c
      rw [Blocks.sepFn, Blocks.sepFn, Blocks.img, cfg]
      rfl
    refine ⟨update'.trans update, cfg'.trans cfg, fun c hc => ?_, fun c hc => ?_⟩
    · rw [List.mem_cons, not_or] at hc
      exact (outside c hc.2).trans (other c hc.1)
    · by_cases ca : c = a
      · subst ca
        rw [show (forL (c :: r) f s).b.chain c = _ from outside c fresh]
        exact fun h => ⟨words h, state h⟩
      · rw [← sepFn]
        exact inside c ((List.mem_cons.mp hc).resolve_left ca)

theorem State.chainFaults_only (k : ChainKin) (c : Nat) (s : State) : Only 65536 s (s.chainFaults k c) := .chainFaults _ _ rfl (.refl _ s)

/-- A completed update: the chains have their results, and it is no longer under way. -/
theorem State.sepFinish_fields (g : Grid) (v : SepUpdate) (s : State) : (s.sepFinish g v).b.sep.update = none ∧
    (∀ c : Fin 4, s.b.chainEn c = true → ((s.sepFinish g v).b.chain c).ready = false →
      (∀ w < 5, ((s.sepFinish g v).b.chain c).word w = { val := sepSafe w, ok := false }) ∧
        ((s.b.sepFn c).isSome = true → ((s.sepFinish g v).b.chain c).state = 1)) ∧
    ∀ c : Fin 4, s.b.chainEn c = false → (s.sepFinish g v).b.chain c = s.b.chain c := by
  unfold State.sepFinish
  extract_lets kin cells excess far um shown s1 s2
  have raised : Only 65536 s1 s2 := .ite (.raise _ _ _ _ _ rfl (.refl _ s1)) (.refl _ s1)
  have sep : s2.b.sep = s1.b.sep := raised.same_of .sep rfl
  have cfg : s2.b.cfg = s.b.cfg := raised.same_of .cfg rfl
  have sepFn : s2.b.sepFn = s.b.sepFn := by
    funext c
    rw [Blocks.sepFn, Blocks.sepFn, Blocks.img, cfg]
    rfl
  have chain : ∀ c, s2.b.chain c = s.b.chain c := fun c => by
    rw [Blocks.chain, sep]
    rfl
  have each : ∀ c t, ChainResults c t ((State.chainFaults (kin c) c t).chainResult g v kin excess c) := by
    intro c t
    have faults := State.chainFaults_only (kin c) c t
    have faultSep : (State.chainFaults (kin c) c t).b.sep = t.b.sep := faults.same_of .sep rfl
    have faultCfg : (State.chainFaults (kin c) c t).b.cfg = t.b.cfg := faults.same_of .cfg rfl
    obtain ⟨words, state, other, update, settings⟩ := (State.chainFaults (kin c) c t).chainResult_results g v kin excess c
    refine ⟨words, fun h hs => state h ?_, fun j hj => (other j hj).trans ?_, update.trans (by rw [faultSep]), settings.trans faultCfg⟩
    · rw [Blocks.sepFn, Blocks.img, faultCfg]
      exact hs
    · rw [Blocks.chain, faultSep]
      rfl
  have nodup : s.b.chainsOn.Nodup := List.nodup_range.filter _
  obtain ⟨update, -, outside, inside⟩ := State.forL_chainResults each nodup s2
  have mem : ∀ c : Fin 4, c.val ∈ s.b.chainsOn ↔ s.b.chainEn c = true := fun c =>
    List.mem_filter.trans (and_iff_right (List.mem_range.mpr c.isLt))
  refine ⟨update.trans (congrArg Sep.update sep), fun c on h => ?_, fun c off => (outside c ?_).trans (chain c)⟩
  · rw [← sepFn]
    exact inside c ((mem c).mpr on) h
  · rw [mem, off]
    exact Bool.false_ne_true

end Sys2Proof.Machine

namespace Sys2Proof.Proofs

open Sys2Proof Sys2Proof.Machine

/-- Settles O33: each event by its channel; the second channel to complete an update forms the words. -/
theorem separationEvents : Obligations.SeparationEvents := by
  intro t s g on grid
  have ticked : (s.tick t).b.sepOn = true ∧ (s.tick t).b.grid = some g ∧
      (s.tick t).b.chainEn = s.b.chainEn := ⟨on, grid, rfl⟩
  refine ⟨fun i => ?stale, fun builtA builtB fresh => ?start, fun ch z building isOpen => ?rebuilt, fun ch c en idle redo => ?redone,
    fun ch v update => ⟨fun c en => ?missed, fun late isOpen => ?overrun, fun isOpen => ⟨fun first => ?first, fun second => ?second⟩⟩⟩
  case stale =>
    refine ⟨_, congrArg Host.Outcome.next (if_pos on), ?_⟩
    exact State.cond_cause _ _ _ _ _ _ _ (by omega)
  case start =>
    show ∃ u z, Host.Outcome.next (s.tick t).rebuildStart = _ ∧ _
    rw [State.rebuildStart, ticked.2.1]
    dsimp only
    rw [if_pos (by simp [ticked.1, builtA, builtB, fresh])]
    exact ⟨_, _, rfl, rfl, rfl, rfl, rfl, rfl, rfl, rfl, rfl, rfl⟩
  case rebuilt =>
    have goes : ((s.tick t).b.sepOn && (s.tick t).b.sep.building.isSome) = true := by simp [ticked.1, building]
    cases ch
    · let p : Sep := { s.b.sep with
          builtA := true, rebuildA := (max s.b.now t - s.b.sep.buildStart) / 1000
          rebuildMaxA := max s.b.sep.rebuildMaxA ((max s.b.now t - s.b.sep.buildStart) / 1000) }
      have sep : ((s.tick t).rebuildComplete .a).b.sep = p.settle := by
        rw [State.rebuildComplete, if_pos goes]
        exact if_neg (ne_of_eq_of_ne isOpen Bool.false_ne_true)
      obtain ⟨done, -, both, single⟩ := Sep.settle_fields (p := p) building
      refine ⟨(s.tick t).rebuildComplete .a, rfl, ?_⟩
      rw [sep]
      refine ⟨done, fun h => both rfl h, fun h => single (.inr h), fun late => congrArg Host.Outcome.next (if_pos ?_)⟩
      simpa [ticked.1, building, show s.b.sep.builtA = false from isOpen] using late
    · let p : Sep := { s.b.sep with
          builtB := true, rebuildB := (max s.b.now t - s.b.sep.buildStart) / 1000
          rebuildMaxB := max s.b.sep.rebuildMaxB ((max s.b.now t - s.b.sep.buildStart) / 1000) }
      have sep : ((s.tick t).rebuildComplete .b).b.sep = p.settle := by
        rw [State.rebuildComplete, if_pos goes]
        exact if_neg (ne_of_eq_of_ne isOpen Bool.false_ne_true)
      obtain ⟨-, done, both, single⟩ := Sep.settle_fields (p := p) building
      refine ⟨(s.tick t).rebuildComplete .b, rfl, ?_⟩
      rw [sep]
      refine ⟨done, fun h => both h rfl, fun h => single (.inl h), fun late => congrArg Host.Outcome.next (if_pos ?_)⟩
      simpa [ticked.1, building, show s.b.sep.builtB = false from isOpen] using late
  case redone =>
    have run : (s.tick t).sepMissed ch c = _ := if_pos (by simp [ticked, en, redo])
    show ∃ z, Host.Outcome.next ((s.tick t).sepMissed ch c) = _ ∧ _
    rw [run, show (s.tick t).b.sep.update = none from idle, ticked.2.1]
    exact ⟨_, rfl, rfl⟩
  case missed =>
    have run : (s.tick t).sepMissed ch c = _ := if_pos (by simp [ticked, en, update])
    show ∃ u w, Host.Outcome.next ((s.tick t).sepMissed ch c) = _ ∧ _
    rw [run, show (s.tick t).b.sep.update = some v from update]
    cases ch <;> exact ⟨_, _, rfl, rfl, rfl, rfl⟩
  case overrun =>
    have run : exec (.separationUpdateOverrun t ch) s = .next ((s.tick t).updateLate ch) := by
      show Host.Outcome.next ((s.tick t).updateOverrun ch) = _
      rw [State.updateOverrun, show (s.tick t).b.sep.update = some v from update]
      refine congrArg Host.Outcome.next (if_pos ?_)
      rw [ticked.1, decide_eq_true (show (s.tick t).b.now ≥ v.start + (s.tick t).b.tsNs from late)]
      rfl
    obtain ⟨w, updated⟩ := State.updateLate_open (s := s.tick t) (ch := ch) update isOpen
    cases ch <;> exact ⟨_, w, run, updated⟩
  case first =>
    obtain ⟨z, now, chains, -, run⟩ := State.updateComplete_open (s := s.tick t) (ch := ch) ticked.1 ticked.2.1 update isOpen
    have single : ((v.done ch).doneA && (v.done ch).doneB) = false := by cases ch <;> simpa [SepUpdate.done] using first
    rw [single, if_neg Bool.false_ne_true] at run
    cases ch <;> exact ⟨z, _, congrArg Host.Outcome.next run, now, rfl, chains⟩
  case second =>
    obtain ⟨z, now, chains, cfg, run⟩ := State.updateComplete_open (s := s.tick t) (ch := ch) ticked.1 ticked.2.1 update isOpen
    have both : ((v.done ch).doneA && (v.done ch).doneB) = true := by cases ch <;> simpa [SepUpdate.done] using second
    rw [both, if_pos rfl] at run
    obtain ⟨ended, words, others⟩ := z.sepFinish_fields g (v.done ch)
    have settings : z.b.chainEn = s.b.chainEn ∧ z.b.sepFn = s.b.sepFn := by
      have reads : ∀ b : Blocks, b.chainEn = Blocks.chainEn { cfg := b.cfg } ∧ b.sepFn = Blocks.sepFn { cfg := b.cfg } :=
        fun _ => ⟨rfl, rfl⟩
      rw [(reads z.b).1, (reads z.b).2, cfg]
      exact ⟨rfl, rfl⟩
    rw [settings.1, settings.2] at words
    rw [settings.1] at others
    exact ⟨_, congrArg Host.Outcome.next run, ended, words, fun c off => (others c off).trans (by rw [Blocks.chain, chains]; rfl)⟩

end Sys2Proof.Proofs

/-! SUPPORT. Ports and gates (R211 to R219): what a port sends from its queue, and how a gate list moves. -/

namespace Sys2Proof.Machine

/-! ### What a port sends (R216) -/

theorem mem_of_mem_dropFirst {α : Type} [DecidableEq α] {x y : α} {l : List α} (h : y ∈ dropFirst x l) : y ∈ l := by
  induction l with
  | nil => exact h
  | cons z r ih =>
    unfold dropFirst at h
    split at h
    · exact List.mem_cons_of_mem _ h
    · obtain rfl | h := List.mem_cons.mp h
      · exact List.mem_cons_self
      · exact List.mem_cons_of_mem _ (ih h)

theorem eq_or_mem_dropFirst {α : Type} [DecidableEq α] (x : α) {y : α} {l : List α} (h : y ∈ l) : y = x ∨ y ∈ dropFirst x l := by
  induction l with
  | nil => exact absurd h List.not_mem_nil
  | cons z r ih =>
    unfold dropFirst
    split
    next hx =>
      subst hx
      exact List.mem_cons.mp h
    · obtain rfl | h := List.mem_cons.mp h
      · exact .inr List.mem_cons_self
      · exact (ih h).imp_right (List.mem_cons_of_mem _)

/-- What a port can send next is in its queue. -/
theorem Blocks.mem_of_nextQueued {b : Blocks} {p : Nat} {x : Nat × EthFrame} (h : b.nextQueued p = some x) : x ∈ (b.port p).queued := by
  obtain ⟨t, -, ht⟩ := List.exists_of_findSome?_eq_some h
  split at ht
  next y found =>
    split at ht
    · exact Option.some.inj ht ▸ List.mem_of_find?_eq_some found
    · cases ht
  · cases ht

theorem State.onPort_port (p : Nat) (f : PortSt → PortSt) (s : State) (q : Nat) :
    (s.onPort p f).b.port q = if p = q then f (s.b.port p) else s.b.port q := nget_nupd _ _ _ _ _

/-- Port `p` has sent some of what waited at it, from `s` to `u`, and nothing else has changed at the ports. -/
structure Sends (p : Nat) (s u : State) : Prop where
  port : ∃ l c, u.b.port p = { s.b.port p with queued := l, tx := c }
  other : ∀ q, q ≠ p → u.b.port q = s.b.port q
  waits : ∀ x ∈ (u.b.port p).queued, x ∈ (s.b.port p).queued
  kept : ∀ x ∈ (s.b.port p).queued, x ∈ (u.b.port p).queued ∨ (p, x.2) ∈ u.b.net.sentOut
  sent : ∀ x ∈ s.b.net.sentOut, x ∈ u.b.net.sentOut
  fresh : ∀ x ∈ u.b.net.sentOut, x ∈ s.b.net.sentOut ∨ x.1 = p ∧ ∃ k, (k, x.2) ∈ (s.b.port p).queued

namespace Sends
variable {p : Nat} {s u v : State}

theorem refl (s : State) : Sends p s s :=
  ⟨⟨_, _, rfl⟩, fun _ _ => rfl, fun _ h => h, fun _ h => .inl h, fun _ h => h, fun _ h => .inl h⟩

theorem trans (h : Sends p s u) (g : Sends p u v) : Sends p s v := by
  obtain ⟨l, c, hl⟩ := h.port
  obtain ⟨k, d, hk⟩ := g.port
  refine ⟨⟨k, d, hk.trans (by rw [hl])⟩, fun q hq => (g.other q hq).trans (h.other q hq), fun x hx => h.waits x (g.waits x hx),
    fun x hx => ?_, fun x hx => g.sent x (h.sent x hx), fun x hx => ?_⟩
  · exact (h.kept x hx).elim (g.kept x) fun hs => .inr (g.sent _ hs)
  · obtain old | ⟨own, n, queued⟩ := g.fresh x hx
    · exact h.fresh x old
    · exact .inr ⟨own, n, h.waits _ queued⟩

/-- One frame of the queue leaves the port. -/
theorem one {x : Nat × EthFrame} (hx : x ∈ (s.b.port p).queued) :
    Sends p s ((s.onPort p fun y => { y with queued := dropFirst x y.queued }).sendOn p x.2) := by
  have own : ((s.onPort p fun y => { y with queued := dropFirst x y.queued }).sendOn p x.2).b.port p =
      { s.b.port p with queued := dropFirst x (s.b.port p).queued, tx := (s.b.port p).tx.inc } := by
    refine (State.onPort_port p (fun x => { x with tx := x.tx.inc }) _ p).trans ?_
    rw [if_pos rfl, State.onPort_port, if_pos rfl]
  refine ⟨⟨_, _, own⟩, fun q hq => ?_, fun y hy => ?_, fun y hy => ?_, fun y hy => List.mem_cons_of_mem _ hy, fun y hy => ?_⟩
  · refine (State.onPort_port p (fun x => { x with tx := x.tx.inc }) _ q).trans ?_
    rw [if_neg (Ne.symm hq), State.onPort_port, if_neg (Ne.symm hq)]
  · rw [own] at hy
    exact mem_of_mem_dropFirst hy
  · rw [own]
    obtain rfl | hy := eq_or_mem_dropFirst x hy
    · exact .inr List.mem_cons_self
    · exact .inl hy
  · obtain rfl | hy := List.mem_cons.mp hy
    · exact .inr ⟨rfl, x.1, hx⟩
    · exact .inl hy

theorem drain (n : Nat) : ∀ s : State, Sends p s (s.drain p n) := by
  induction n with
  | zero => exact refl
  | succ n ih =>
    intro s
    unfold State.drain
    split
    · exact refl s
    next x next => exact (one (Blocks.mem_of_nextQueued next)).trans (ih _)

theorem drainPort (s : State) : Sends p s (s.drainPort p) := by
  unfold State.drainPort
  split
  · exact drain _ s
  · exact refl s

/-- A change of the port itself, before it sends, that leaves its queue. -/
theorem after_onPort {f : PortSt → PortSt} (hq : (f (s.b.port p)).queued = (s.b.port p).queued) (h : Sends p (s.onPort p f) u) :
    (∃ l c, u.b.port p = { f (s.b.port p) with queued := l, tx := c }) ∧ (∀ q, q ≠ p → u.b.port q = s.b.port q) ∧
      (∀ x ∈ (u.b.port p).queued, x ∈ (s.b.port p).queued) ∧
      (∀ x ∈ (s.b.port p).queued, x ∈ (u.b.port p).queued ∨ (p, x.2) ∈ u.b.net.sentOut) ∧
      ∀ x ∈ u.b.net.sentOut, x ∈ s.b.net.sentOut ∨ x.1 = p ∧ ∃ k, (k, x.2) ∈ (s.b.port p).queued := by
  have own : (s.onPort p f).b.port p = f (s.b.port p) := (State.onPort_port p f s p).trans (if_pos rfl)
  obtain ⟨port, other, waits, kept, -, fresh⟩ := h
  rw [own] at port
  rw [own, hq] at waits kept fresh
  exact ⟨port, fun q hp => (other q hp).trans ((State.onPort_port p f s q).trans (if_neg (Ne.symm hp))), waits, kept, fresh⟩

end Sends

/-- A link that goes down: the port, its source, and cell time where the algorithm does not choose anew. -/
theorem State.linkDown_fields (p : Nat) (s : State) :
    (s.linkDown p).b.port p = { s.b.port p with up := false, rateNow := 0, fecOn := false, asCapable := false, heard := none } ∧
      (∀ q, q ≠ p → (s.linkDown p).b.port q = s.b.port q) ∧
      (s.b.portEn p = true → (s.linkDown p).b.fcl.arrivals.getLast? = some ⟨384 + p, true, mkw p, none, 0, none⟩) ∧
      (s.b.running = false ∨ s.b.tsyRole ≠ 1 → (s.linkDown p).b.tsy = s.b.tsy ∧
        (s.b.portEn p = false → (s.linkDown p).b.fcl = s.b.fcl)) := by
  unfold State.linkDown
  extract_lets s1 s2
  have chosen : Only 69632 s1 s2 := .ite (.bmca rfl (.refl _ s1)) (.refl _ s1)
  have after : Only 69632 s1 (if s.b.portEn p then s2.raise (384 + p) (mkw p) else s2) := .ite (.raise _ _ _ _ _ rfl chosen) chosen
  have port : ∀ q, (if s.b.portEn p then s2.raise (384 + p) (mkw p) else s2).b.port q = s1.b.port q := fun q => by
    rw [Blocks.port, after.same_of .net rfl]
    rfl
  refine ⟨(port p).trans ((State.onPort_port p _ s p).trans (if_pos rfl)),
    fun q hq => (port q).trans ((State.onPort_port p _ s q).trans (if_neg (Ne.symm hq))), fun en => ?_, fun idle => ?_⟩
  · rw [if_pos en, State.raise_arrivals, List.getLast?_concat]
  · have same : s2 = s1 := if_neg (by obtain h | h := idle <;> simp [h])
    rw [same]
    refine ⟨?_, fun off => ?_⟩
    · split <;> rfl
    · rw [off]
      rfl

/-! ### Gate lists (R216, R217) -/

section
variable (g : GateSt) (l : GateList) (valid : Bool) (cell : Nat)

theorem GateSt.move_idle (h : valid = false ∨ l.entries = []) :
    g.move l valid cell = { g with running := false, hold := false, entry := 0 } := by
  refine if_pos ?_
  obtain h | h := h <;> simp [h]

theorem GateSt.move_runs {a o : Nat} (hv : valid = true) (hl : l.entries ≠ []) (at_ : gateAt l cell = some (a, o))
    (starts : g.running = true ∧ g.hold = false ∨ g.since ≤ a) :
    g.move l valid cell = { g with running := true, hold := false, entry := gateEntryAt l.entries o 0 } := by
  unfold GateSt.move
  rw [if_neg (by simp [hv, hl]), at_]
  dsimp only
  split
  next under =>
    simp only [Bool.and_eq_true, Bool.not_eq_true'] at under
    rw [← under.1, ← under.2]
  next idle => exact if_pos (starts.resolve_left fun h => idle (by simp [h]))

theorem GateSt.move_waits (hv : valid = true) (hl : l.entries ≠ []) (idle : ¬ (g.running = true ∧ g.hold = false))
    (early : ∀ a o, gateAt l cell = some (a, o) → a < g.since) : g.move l valid cell = g := by
  unfold GateSt.move
  rw [if_neg (by simp [hv, hl])]
  split
  · rfl
  next a o at_ => rw [if_neg (by simpa using idle), if_neg (Nat.not_le.mpr (early a o at_))]

end

end Sys2Proof.Machine

namespace Sys2Proof.Proofs

open Sys2Proof Sys2Proof.Machine

/-- Settles O35: a port that moves sends from its own queue alone; the algorithm leaves the ports. -/
theorem linksAndGates : Obligations.LinksAndGates := by
  intro t s now cell moves
  have moved : ∀ (l : GateList) (g : GateSt), moves l g (g.move l s.b.tsy.cellValid cell) := fun l g =>
    ⟨g.move_idle l _ _, fun valid filled => ⟨fun a o at_ h => g.move_runs l _ _ valid filled at_ h,
      fun idle early => g.move_waits l _ _ valid filled idle early⟩⟩
  have ticked : (s.tick t).b.portEn = s.b.portEn ∧ (s.tick t).b.rateFits = s.b.rateFits ∧ (s.tick t).b.netOn = s.b.netOn :=
    ⟨rfl, rfl, rfl⟩
  refine ⟨fun p rate fec => ⟨fun en fits => ?up, fun off => ?stays, ?down⟩, fun v mac => ?ageing, fun p on => ?gate,
    fun g on => ?stream, fun k m o on => ?silent, fun p => rfl⟩
  case up =>
    have run : exec (.linkUp t p rate fec) s = .next (((s.tick t).onPort p fun x =>
        { x with up := true, rateNow := rate, fecOn := s.b.fecFor p rate fec }).drainPort p) :=
      congrArg Host.Outcome.next (if_pos (by rw [ticked.1, ticked.2.1, en, fits]; rfl))
    obtain ⟨⟨l, c, port⟩, other, -, kept, -⟩ := (Sends.drainPort _).after_onPort (s := s.tick t) (p := p.val)
      (f := fun x => { x with up := true, rateNow := rate, fecOn := s.b.fecFor p rate fec }) rfl
    exact ⟨_, run, congrArg PortSt.up port, congrArg PortSt.rateNow port, congrArg PortSt.fecOn port, kept, other⟩
  case stays =>
    refine congrArg Host.Outcome.next (if_neg ?_)
    rw [ticked.1, ticked.2.1]
    obtain h | h := off <;> simp [h]
  case down =>
    exact ⟨(s.tick t).linkDown p, rfl, (s.tick t).linkDown_fields p⟩
  case ageing =>
    refine ⟨_, rfl, fun e => List.mem_filter.trans (and_congr_right fun _ => ?_)⟩
    rw [Bool.not_eq_true', ← Bool.not_eq_true, Bool.and_eq_true, Bool.and_eq_true, beq_iff_eq, beq_iff_eq, decide_eq_true_eq, and_assoc]
    exact Iff.rfl
  case gate =>
    have run : exec (.gateEntryChange t p) s = .next _ := congrArg Host.Outcome.next (if_pos on)
    obtain ⟨⟨l, c, port⟩, other, waits, kept, fresh⟩ := (Sends.drainPort _).after_onPort (s := s.tick t) (p := p.val)
      (f := fun x => x.setGate (x.gate.move (nget s.b.netCfg.gcl p {}) s.b.tsy.cellValid cell)) rfl
    exact ⟨_, run, (congrArg PortSt.gate port).symm ▸ moved _ _, waits, kept, fresh, other⟩
  case stream =>
    refine ⟨_, congrArg Host.Outcome.next (if_pos on), ?_, fun q hq => ?_⟩
    · exact (nget_nupd_same _ _ _ fun x : GateSt => x.move (nget s.b.netCfg.streamGates g {}) s.b.tsy.cellValid cell).symm ▸ moved _ _
    · exact (nget_nupd s.b.net.gates g q {} fun x : GateSt =>
        x.move (nget s.b.netCfg.streamGates g {}) s.b.tsy.cellValid cell).trans (if_neg (Ne.symm hq))
  case silent =>
    intro c at_ recover mem other late early
    refine congrArg Host.Outcome.next (if_pos ?_)
    have others : o ≠ m := by
      rintro rfl
      exact Nat.not_lt.mpr late early
    have silent : decide ((s.tick t).b.now ≥ at_ m + c.resetMs * 1000000) = true := decide_eq_true late
    have heard : decide ((s.tick t).b.now ≥ at_ o + c.resetMs * 1000000) = false := decide_eq_false (Nat.not_le.mpr early)
    have any : (c.members.any fun x => x != m && !decide ((s.tick t).b.now ≥ at_ x + c.resetMs * 1000000)) = true :=
      List.any_eq_true.mpr ⟨o, other, by rw [heard]; simpa using others⟩
    exact Bool.and_eq_true_iff.mpr ⟨Bool.and_eq_true_iff.mpr ⟨Bool.and_eq_true_iff.mpr ⟨Bool.and_eq_true_iff.mpr ⟨on, recover⟩,
      List.contains_iff_mem.mpr mem⟩, silent⟩, any⟩

end Sys2Proof.Proofs

/-! SUPPORT. 802.1AS and cell time (R220 to R227): what a follower's Sync leaves, and what the best master clock algorithm
chooses. -/

namespace Sys2Proof.Machine

/-! ### A Sync of the clock that is followed (R226) -/

theorem clampI_eq (x : Int) {m : Int} (hm : 0 ≤ m) : clampI x m = max (-m) (min m x) := by
  unfold clampI
  split_ifs <;> omega

/-- What a Sync at offset `off` leaves of cell time. -/
def Blocks.followed (b : Blocks) (off : Int) : Tsy :=
  let good := if off.natAbs ≤ 1000 then min (b.tsy.good + 1) 4 else 0
  { b.cellSettled with
    offset := off, lastSync := b.now, holdover := none, good := good, locked := decide (4 ≤ good)
    everLocked := b.tsy.everLocked || decide (4 ≤ good), cellValid := b.tsy.cellValid || decide (4 ≤ good) && !b.tsy.everLocked
    stepDue := if b.stepThr < off.natAbs then some off else none
    trim := if b.stepThr < off.natAbs then b.tsy.trim else clampI (Config.followRate b.tsy.trim off) 250000 }

section
variable {s : State} {p : Nat} (origin : Nat)

theorem State.sync_fields (on : s.b.running = true) (takes : s.b.asPort p = true) (follows : s.b.slaveNow = some p) :
    let off := s.b.syncOffset p origin
    (s.sync p origin).b.tsy = s.b.followed off ∧
      (s.b.stepThr < off.natAbs → (s.sync p origin).b.fcl = s.b.fcl) ∧
      (¬ s.b.stepThr < off.natAbs → (s.sync p origin).b.fcl.arrivals.map (·.id) = s.b.fcl.arrivals.map (·.id) ++
        if 250000 < (Config.followRate s.b.tsy.trim off).natAbs then [400] else []) := by
  unfold State.sync
  rw [if_neg (by simp [on, takes, follows])]
  extract_lets off y steps asked good first s1 s2
  have gates : s2.b.tsy = s1.b.tsy ∧ s2.b.fcl = s.b.fcl := by
    unfold s2
    split <;> exact ⟨rfl, rfl⟩
  have settled : s1.b.tsy = s.b.followed off := by
    simp only [s1, steps, Blocks.followed, decide_eq_true_eq, gt_iff_lt]
    rfl
  refine ⟨?_, fun big => ?_, fun small => ?_⟩
  · split <;> exact gates.1.trans settled
  · rw [if_neg (by simp [steps, big])]
    exact gates.2
  · by_cases far : 250000 < (Config.followRate s.b.tsy.trim off).natAbs
    · rw [if_pos (by simpa [steps] using ⟨not_lt.mp small, far⟩), if_pos far, State.raise_arrivals, List.map_append, gates.2]
      rfl
    · have kept : ¬ (!steps && decide (asked.natAbs > 250000)) = true := fun h =>
        far (of_decide_eq_true ((Bool.and_eq_true _ _).mp h).2)
      rw [if_neg kept, if_neg far, List.append_nil, gates.2]

end

/-! ### The best master clock algorithm (R221) -/

theorem betterThan_eq_false {x y : Announce} : betterThan x y = false ↔ announceKey y ≤ announceKey x := by
  rw [betterThan, decide_eq_false_iff_not, not_lt]

/-- What port `p` hears, where it takes part. -/
def Blocks.hears (b : Blocks) (p : Nat) : Option Announce := if b.asPort p then (b.port p).heard else none

theorem Blocks.hears_iff {b : Blocks} {p : Nat} {m : Announce} :
    b.hears p = some m ↔ b.asPort p = true ∧ (b.port p).heard = some m := by
  unfold Blocks.hears
  split <;> simp_all

/-- `r` is the best clock heard on the ports of `l` that is better than the hub itself. -/
def Blocks.Elects (b : Blocks) (l : List Nat) : Option (Nat × Announce) → Prop
  | none => ∀ p ∈ l, ∀ m, b.hears p = some m → betterThan m b.ownAnnounce = false
  | some (q, x) => q ∈ l ∧ b.hears q = some x ∧ betterThan x b.ownAnnounce = true ∧
      ∀ p ∈ l, ∀ m, b.hears p = some m → betterThan m x = false

/-- One more port to choose from. -/
def Blocks.electOne (b : Blocks) (p : Nat) (x : Option (Nat × Announce)) : Option (Nat × Announce) :=
  match b.hears p, x with
  | none, x => x
  | some m, none => if betterThan m b.ownAnnounce then some (p, m) else none
  | some m, some y => if betterThan m y.2 then some (p, m) else some y

theorem Blocks.Elects.one {b : Blocks} {l : List Nat} {r : Option (Nat × Announce)} (h : b.Elects l r) (p : Nat) :
    b.Elects (p :: l) (b.electOne p r) := by
  unfold Blocks.electOne
  cases heard : b.hears p with
  | none =>
    have silent : ∀ q ∈ p :: l, ∀ m, b.hears q = some m → q ∈ l := by
      intro q hq m hm
      obtain rfl | hq := List.mem_cons.mp hq
      · simp [heard] at hm
      · exact hq
    match r, h with
    | none, h => exact fun q hq m hm => h q (silent q hq m hm) m hm
    | some (k, x), ⟨mem, own, better, least⟩ =>
      exact ⟨List.mem_cons_of_mem _ mem, own, better, fun q hq m hm => least q (silent q hq m hm) m hm⟩
  | some m =>
    have all : ∀ {z : Announce}, betterThan m z = false → (∀ q ∈ l, ∀ y, b.hears q = some y → betterThan y z = false) →
        ∀ q ∈ p :: l, ∀ y, b.hears q = some y → betterThan y z = false := by
      intro z hm rest q hq y hy
      obtain rfl | hq := List.mem_cons.mp hq
      · rw [heard] at hy
        exact Option.some.inj hy ▸ hm
      · exact rest q hq y hy
    have beats : ∀ {z : Announce}, betterThan m z = true → (∀ q ∈ l, ∀ y, b.hears q = some y → betterThan y z = false) →
        ∀ q ∈ p :: l, ∀ y, b.hears q = some y → betterThan y m = false := by
      intro z hm rest
      refine all (betterThan_eq_false.mpr le_rfl) fun q hq y hy => betterThan_eq_false.mpr ?_
      exact (of_decide_eq_true hm).le.trans (betterThan_eq_false.mp (rest q hq y hy))
    match r, h with
    | none, h =>
      dsimp only
      split
      next better => exact ⟨List.mem_cons_self, heard, better, beats better h⟩
      next worse => exact all (Bool.not_eq_true _ ▸ worse) h
    | some (k, x), ⟨mem, own, better, least⟩ =>
      dsimp only
      split
      next wins =>
        exact ⟨List.mem_cons_self, heard, decide_eq_true ((of_decide_eq_true wins).trans (of_decide_eq_true better)), beats wins least⟩
      next loses => exact ⟨List.mem_cons_of_mem _ mem, own, better, all (Bool.not_eq_true _ ▸ loses) least⟩

theorem Blocks.elected_elects (b : Blocks) : b.Elects [5, 4, 3, 2, 1, 0] b.elected := by
  have start : b.Elects [] none := fun p hp => absurd hp List.not_mem_nil
  exact (((((start.one 0).one 1).one 2).one 3).one 4).one 5

theorem Blocks.elected_some {b : Blocks} {q : Nat} {x : Announce} (h : b.elected = some (q, x)) :
    q < 6 ∧ b.asPort q = true ∧ (b.port q).heard = some x ∧ betterThan x b.ownAnnounce = true ∧
      ∀ r < 6, ∀ y, b.asPort r = true → (b.port r).heard = some y → betterThan y x = false := by
  obtain ⟨mem, own, better, least⟩ := h ▸ b.elected_elects
  obtain ⟨takes, heard⟩ := Blocks.hears_iff.mp own
  refine ⟨?_, takes, heard, better, fun r hr y ht hy => least r ?_ y (Blocks.hears_iff.mpr ⟨ht, hy⟩)⟩
  · simp only [List.mem_cons, List.not_mem_nil, or_false] at mem
    omega
  · simp only [List.mem_cons, List.not_mem_nil, or_false]
    omega

theorem Blocks.elected_none {b : Blocks} (h : b.elected = none) :
    ∀ r < 6, ∀ y, b.asPort r = true → (b.port r).heard = some y → betterThan y b.ownAnnounce = false := by
  intro r hr y ht hy
  refine (h ▸ b.elected_elects : b.Elects _ none) r ?_ y (Blocks.hears_iff.mpr ⟨ht, hy⟩)
  simp only [List.mem_cons, List.not_mem_nil, or_false]
  omega

theorem State.newGm_fields (id : BitVec 64) (p : Nat) (s : State) : (s.newGm id p).b.tsy = { s.b.tsy with gm := id } ∧
    (s.newGm id p).b.net = s.b.net ∧
    (s.newGm id p).b.fcl.arrivals.map (·.id) = s.b.fcl.arrivals.map (·.id) ++ if s.b.tsy.gm = id then [] else [402] := by
  unfold State.newGm
  split
  next same => exact ⟨by rw [← same], rfl, (List.append_nil _).symm⟩
  · exact ⟨rfl, rfl, by rw [State.raise_arrivals, List.map_append]; rfl⟩

/-- The choice of the algorithm: the clock and its port, and followed anew where it is another one. -/
theorem State.selectGm_fields (best : Option Announce) (port : Nat) (s : State) :
    (s.selectGm best port).b.net = s.b.net ∧ (s.selectGm best port).b.tsy.best = best ∧
      (best.isSome = true → (s.selectGm best port).b.tsy.bestPort = port) ∧
      (¬ (s.b.tsy.best.map (·.gmId) = best.map (·.gmId) ∧ s.b.tsy.bestPort = port) →
        (s.selectGm best port).b.tsy.gm = (best.map (·.gmId)).getD s.b.clockId ∧
        (s.selectGm best port).b.tsy.holdover = none ∧ (s.selectGm best port).b.tsy.locked = false ∧
        (s.selectGm best port).b.fcl.arrivals.map (·.id) = s.b.fcl.arrivals.map (·.id) ++
          if s.b.tsy.gm = (best.map (·.gmId)).getD s.b.clockId then [] else [402]) := by
  unfold State.selectGm
  extract_lets same
  split
  next follows =>
    simp only [same, Bool.and_eq_true, beq_iff_eq, decide_eq_true_eq] at follows
    obtain ⟨⟨-, clock⟩, own⟩ := follows
    exact ⟨rfl, rfl, fun _ => own, fun other => absurd ⟨clock, own⟩ other⟩
  next anew =>
    obtain ⟨tsy, net, arrivals⟩ := State.newGm_fields ((best.map (·.gmId)).getD s.b.clockId) port
      (s.onTsy fun _ => { s.b.cellSettled with
        best := best, bestPort := port, holdover := none, lastSync := s.b.now, locked := false, good := 0
        stepDue := if best.isNone then none else s.b.tsy.stepDue
        startDue := best.isNone && s.b.tsy.tInitGone && !s.b.tsy.cellValid })
    rw [tsy]
    exact ⟨net, rfl, fun _ => rfl, fun _ => ⟨rfl, rfl, rfl, arrivals⟩⟩

theorem State.bmca_some {s : State} {q : Nat} {x : Announce} (h : s.b.elected = some (q, x)) : s.bmca = s.selectGm (some x) q := by
  unfold State.bmca
  rw [h]

theorem State.bmca_none {s : State} (h : s.b.elected = none) : s.bmca.b.tsy.best = none := by
  unfold State.bmca
  rw [h]
  dsimp only
  split
  next idle => exact Option.isNone_iff_eq_none.mp idle
  · exact (State.selectGm_fields none _ s).2.1

theorem State.bmca_net (s : State) : s.bmca.b.net = s.b.net := (Only.bmca rfl (.refl 69632 s)).same_of .net rfl

/-- A peer delay response: half of the round trip, rounded to one of the two sides. -/
theorem State.pdelayResp_port {s : State} {p : Nat} (t1 t2 t3 t4 : Nat) (on : s.b.running = true) (up : s.b.portUp p = true) :
    ∃ half : Int, (2 * half - (((t4 : Int) - t1) - ((t3 : Int) - t2))).natAbs ≤ 1 ∧
      (s.pdelayResp p t1 t2 t3 t4).b.port p =
        { s.b.port p with pdelay := half, asCapable := decide (half ≤ s.b.propThresh) } ∧
      ∀ q, q ≠ p → (s.pdelayResp p t1 t2 t3 t4).b.port q = s.b.port q := by
  unfold State.pdelayResp
  rw [if_pos (by rw [on, up]; rfl)]
  extract_lets d half s1
  have near : (2 * half - d).natAbs ≤ 1 := by
    unfold half
    split_ifs <;> omega
  have ports : ∀ q, (if s.b.tsyRole = 1 then s1.bmca else s1).b.port q =
      if p = q then { s.b.port p with pdelay := half, asCapable := decide (half ≤ s.b.propThresh) } else s.b.port q := fun q => by
    refine Eq.trans ?_ (State.onPort_port p (fun x => { x with pdelay := half, asCapable := decide (half ≤ s.b.propThresh) }) s q)
    split
    · rw [Blocks.port, State.bmca_net]
      rfl
    · rfl
  exact ⟨half, near, (ports p).trans (if_pos rfl), fun q hq => (ports q).trans (if_neg (Ne.symm hq))⟩

end Sys2Proof.Machine

namespace Sys2Proof.Proofs

open Sys2Proof Sys2Proof.Machine

/-- Settles O38: a message changes its own port, and cell time as its clock is followed. -/
theorem timeMessages : Obligations.TimeMessages := by
  intro t p s on up b sends
  have ticked : (s.tick t).b.running = s.b.running ∧ (s.tick t).b.asPort = s.b.asPort ∧ (s.tick t).b.slaveNow = s.b.slaveNow ∧
      (s.tick t).b.tsyRole = s.b.tsyRole ∧ (s.tick t).b.portUp = s.b.portUp ∧ (s.tick t).b.portRole = s.b.portRole ∧
      (s.tick t).b.sentAnnounce = s.b.sentAnnounce := ⟨rfl, rfl, rfl, rfl, rfl, rfl, rfl⟩
  obtain ⟨tRun, tAs, tSlave, tRole, tUp, tPort, tSent⟩ := ticked
  have asPort : s.b.asPort p = (s.b.port p).asCapable := by rw [Blocks.asPort, up, Bool.true_and]
  have deaf : (s.b.port p).asCapable = false → ∀ m, (s.tick t).announce p m = s.tick t := fun h m =>
    if_pos (by rw [tAs, asPort, h]; simp)
  refine ⟨fun origin takes follows => ?sync, fun origin off => ?other, fun m h => congrArg Host.Outcome.next (deaf h m),
    fun m h role => ?ignored, fun m h role => ?hears, fun m h role slave => ?configured, fun t1 t2 t3 t4 => ?delay, fun q => ?answer,
    ?request, fun master => ?syncs, fun m master own => ?announces, fun slave => ?quiet⟩
  case sync =>
    intro off asked good big
    obtain ⟨tsy, far, near⟩ := State.sync_fields (s := s.tick t) (p := p) origin on (by rw [tAs, asPort, takes]) (tSlave ▸ follows)
    refine ⟨_, rfl, ?_⟩
    rw [tsy]
    refine ⟨rfl, rfl, rfl, rfl, decide_eq_true_iff, ?_, ?_, fun h => ⟨if_pos h, if_pos h, far h⟩,
      fun h => ⟨if_neg h, (if_neg h).trans (clampI_eq _ (by decide)), near h⟩⟩
    · exact Bool.or_eq_true_iff.trans (or_congr_right decide_eq_true_iff)
    · refine Bool.or_eq_true_iff.trans (or_congr_right (Bool.and_eq_true_iff.trans (and_congr decide_eq_true_iff ?_)))
      exact Bool.not_eq_true' _ ▸ Iff.rfl
  case other =>
    refine congrArg Host.Outcome.next (if_pos ?_)
    rw [tSlave, tAs, asPort]
    obtain h | h := off <;> simp [h]
  case ignored =>
    refine congrArg Host.Outcome.next ((if_neg ?_).trans ?_)
    · rw [tRun, tAs, asPort, on, h]
      simp
    · rw [tRole, role]
      rfl
  case hears =>
    intro w
    have run : (s.tick t).announce p m = ((s.tick t).onPort p fun x => { x with heard := some m }).bmca := by
      refine (if_neg ?_).trans ?_
      · rw [tRun, tAs, asPort, on, h]
        simp
      · rw [tRole, role]
        rfl
    have port : ∀ q, w.port q = if p.val = q then { s.b.port p with heard := some m } else s.b.port q :=
      State.onPort_port p _ (s.tick t)
    have kept : ∀ q, ((s.tick t).announce p m).b.port q = w.port q := fun q => by
      rw [run, Blocks.port, State.bmca_net]
      rfl
    refine ⟨_, rfl, ?_, fun q hq => ?_, fun q x chosen => ?_, fun idle => ⟨Blocks.elected_none idle, ?_⟩⟩
    · rw [kept, port, if_pos rfl]
    · rw [kept, port, if_neg (Ne.symm hq)]
    · obtain ⟨-, best, own, anew⟩ := State.selectGm_fields (some x) q ((s.tick t).onPort p fun x => { x with heard := some m })
      obtain ⟨bound, takes, heard, better, least⟩ := Blocks.elected_some chosen
      rw [run, State.bmca_some chosen]
      exact ⟨bound, takes, heard, better, least, best, own rfl, anew⟩
    · rw [run]
      exact State.bmca_none idle
  case configured =>
    have run : (s.tick t).announce p m = ((s.tick t).onPort p fun x => { x with heard := some m }).newGm m.gmId p := by
      refine (if_neg ?_).trans ?_
      · rw [tRun, tAs, asPort, on, h]
        simp
      · rw [tRole]
        match s.b.tsyRole, role with
        | _ + 2, _ => exact if_pos slave
    obtain ⟨tsy, net, -⟩ := State.newGm_fields m.gmId p ((s.tick t).onPort p fun x => { x with heard := some m })
    refine ⟨_, rfl, ?_, ?_⟩
    · rw [run, tsy]
      rfl
    · rw [run, Blocks.port, net]
      exact congrArg PortSt.heard ((State.onPort_port p _ (s.tick t) p).trans (if_pos rfl))
  case delay =>
    obtain ⟨half, near, own, other⟩ := State.pdelayResp_port t1 t2 t3 t4 (s := s.tick t) (p := p) on up
    refine ⟨_, rfl, ?_, ?_, other⟩
    · rw [own]
      exact near
    · rw [own]
      exact decide_eq_true_iff
  case answer => exact ⟨_, congrArg Host.Outcome.next (if_pos (by rw [tRun, tUp, on, up]; rfl)), rfl⟩
  case request => exact ⟨_, congrArg Host.Outcome.next (if_pos (by rw [tRun, tUp, on, up]; rfl)), rfl⟩
  case syncs => exact ⟨_, congrArg Host.Outcome.next (if_pos (by rw [tRun, tPort, on, master]; rfl)), rfl⟩
  case announces =>
    have sent : s.b.sentAnnounce = m := by
      unfold Blocks.sentAnnounce
      obtain ⟨none_, rfl⟩ | ⟨q, x, some_, heard, rfl⟩ := own
      · rw [none_]
        rfl
      · rw [some_, Option.bind_some, heard]
    have run : (s.tick t).announceSend p = _ := if_pos (by rw [tRun, tPort, on, master]; rfl)
    rw [tSent, sent] at run
    exact ⟨_, congrArg Host.Outcome.next run, rfl⟩
  case quiet =>
    constructor
    · exact congrArg Host.Outcome.next (if_neg (by rw [tPort]; simpa using fun _ => slave))
    · exact congrArg Host.Outcome.next (if_neg (by rw [tPort]; simpa using fun _ => slave))

/-- Settles O39. -/
theorem cellTimeCommands : Obligations.CellTimeCommands := by
  intro t rd tok s b starts ends value adj
  have ticked : (s.tick t).b.running = s.b.running ∧ (s.tick t).b.slaveNow = s.b.slaveNow ∧ (s.tick t).b.isGm = s.b.isGm ∧
      (s.tick t).b.floorInRound = s.b.floorInRound ∧ (s.tick t).b.rw = s.b.rw ∧ (s.tick t).b.tsySetNs = value :=
    ⟨rfl, rfl, rfl, rfl, rfl, rfl⟩
  obtain ⟨tRun, tSlave, tGm, tFloor, tRw, tValue⟩ := ticked
  refine ⟨fun q on slave steady late => ?receipt, fun t0 held late => ?holdover, fun rulers late first => ?tInit,
    fun off => ?notSet, fun gm off => ?set, fun off => ?notSlewed, fun gm valid => ?slew, fun takes => next_of_takes takes rfl⟩
  case receipt =>
    have due : (s.b.running && s.b.slaveNow.isSome && s.b.tsy.holdover.isNone && decide (b.now ≥ s.b.tsy.lastSync +
        s.b.receiptCount * s.b.syncIntervalNs)) = true := by
      rw [on, slave, steady]
      exact decide_eq_true late
    have run : (s.tick t).syncLost = _ := if_pos due
    rw [tSlave, slave] at run
    exact congrArg Host.Outcome.next run
  case holdover =>
    intro lost alone
    have run : exec (.holdoverTimeout t) s = .next (if s.b.tsyRole = 1 then (if alone.b.isGm then alone else alone.cellLost)
        else (s.tick t).cellLost) := by
      show Host.Outcome.next (s.tick t).holdoverEnd = _
      unfold State.holdoverEnd
      rw [show (s.tick t).b.tsy.holdover = some t0 from held]
      exact congrArg Host.Outcome.next (if_pos (decide_eq_true late))
    rw [run]
    exact ⟨fun role => by rw [if_neg role]; rfl, fun role gm => by rw [if_pos role, if_pos gm],
      fun role gm => by rw [if_pos role, if_neg (by simp [gm])]; rfl⟩
  case tInit =>
    intro gone
    have run : exec (.tInitExpired t) s =
        .next (if s.b.isGm && !s.b.tsy.cellValid then gone.startAtFloor else gone) := by
      refine congrArg Host.Outcome.next (if_pos ?_)
      refine Bool.and_eq_true_iff.mpr ⟨Bool.and_eq_true_iff.mpr ⟨rulers, decide_eq_true late⟩, ?_⟩
      exact Bool.not_eq_true' _ ▸ first
    rw [run]
    constructor
    · intro gm invalid
      rw [if_pos (by simp [gm, invalid])]
      rfl
    · intro off
      rw [if_neg (by obtain h | h := off <;> simp [h])]
  case notSet =>
    refine fun takes => next_of_takes takes (if_pos ?_)
    rw [tGm, tFloor]
    obtain h | ⟨valid, round⟩ := off
    · simp [h]
    · simp [round, valid]
  case set =>
    intro z
    have may : ¬ (!(s.tick t).b.isGm || (s.tick t).b.tsy.cellValid && !(s.tick t).b.floorInRound) = true := by
      rw [tGm, tFloor, gm]
      obtain h | h := off
      · simp [h]
      · simp [h]
    have untouched : s.b.floorInRound = false → z = s.tick t := fun h => if_neg (by rw [tFloor, h]; decide)
    have anew : s.b.floorInRound = true → z =
        ((s.tick t).onFcl fun f => { f with arrivals := f.arrivals.filter fun a => a.id != 404 }).onTsy
          fun y => { y with cellValid := false, floorStart := false } := fun h => if_pos (by rw [tFloor, h])
    have now : z.b.now = b.now := by
      cases h : s.b.floorInRound
      · rw [untouched h]
      · rw [anew h]
        rfl
    refine ⟨untouched, fun h => ⟨fun a => ?_, ?_⟩, fun bad takes => ?_, fun fits notBelow takes => ?_⟩
    · rw [anew h]
      exact List.mem_filter.trans (and_congr_right fun _ => bne_iff_ne)
    · rw [anew h]
      rfl
    · refine next_of_takes takes ((if_neg may).trans (if_pos ?_))
      exact bad
    · refine next_of_takes takes ((if_neg may).trans ((if_neg ?_).trans ?_))
      · exact not_or.mpr ⟨Nat.not_le.mpr fits, Nat.not_lt.mpr notBelow⟩
      · show ((z.startCell value).record 0x07 _, rDone) = ((starts value z).record 0x07 _, rDone)
        rw [show z.startCell value = starts value z by rw [State.startCell, now]]
        rfl
  case notSlewed =>
    refine fun takes => next_of_takes takes (if_pos ?_)
    rw [tGm]
    obtain h | h := off
    · simp [h]
    · simp [h]
  case slew =>
    have may : ¬ (!(s.tick t).b.isGm || !(s.tick t).b.tsy.cellValid) = true := by
      rw [tGm, gm]
      simp [valid]
    exact ⟨fun far takes => next_of_takes takes ((if_neg may).trans (if_pos far)),
      fun near takes => next_of_takes takes ((if_neg may).trans (if_neg (not_lt.mpr near)))⟩

end Sys2Proof.Proofs

/-! SUPPORT. Bulk safe frames and sessions (R186, R239 to R257): what both channels' part of a segment does together. -/

namespace Sys2Proof.Machine

/-! ### Sensors (R187) -/

theorem State.onSensor_sensor (k : Nat) (f : Sensor → Sensor) (s : State) : (s.onSensor k f).b.sensor k = f (s.b.sensor k) :=
  nget_nupd_same _ _ _ f

/-- A sensor that takes a frame turns its stores. -/
theorem State.acceptSensor_sensor (k n : Nat) (selfOk contam : Bool) (s : State) :
    (s.acceptSensor k n selfOk contam).b.sensor k =
      { s.b.sensor k with
        curA := (s.b.sensor k).recvA, curB := (s.b.sensor k).recvB, recvA := (s.b.sensor k).curA, recvB := (s.b.sensor k).curB
        selfOk := selfOk, contam := contam, points := n, accepted := some s.b.rulerA } := by
  unfold State.acceptSensor
  rw [Blocks.sensor, ((Only.sensorHealth (m := 65536) rfl (.refl _ _)).same_of .sep rfl :)]
  exact State.onSensor_sensor k (fun x => { x with
    curA := x.recvA, curB := x.recvB, recvA := x.curA, recvB := x.curB, selfOk := selfOk, contam := contam
    points := n, accepted := some s.b.rulerA }) s

/-! ### A segment that both channels take alike (R241, R244) -/

section
variable {bsA bsB : List Byte} {s : State}

theorem State.receiveBulk_differ (running : s.b.running = true) (working : s.b.resetting .sfr = false)
    (differ : (s.b.bulkStep .a bsA).decision ≠ (s.b.bulkStep .b bsB).decision ∨
      (s.b.bulkStep .a bsA).session.map (·.1) ≠ (s.b.bulkStep .b bsB).session.map (·.1)) :
    let slot := (((s.b.bulkStep .a bsA).session.orElse fun _ => (s.b.bulkStep .b bsB).session).map (·.1)).getD 0
    s.receiveBulk bsA bsB =
      (((s.setAsm slot none none).refuseBulk slot (some (bulkName bsA))).refuseSensor slot).raise 425 (sessWord slot) := by
  unfold State.receiveBulk
  rw [running, working]
  exact if_pos differ

section
variable (running : s.b.running = true) (working : s.b.resetting .sfr = false)
  (same : (s.b.bulkStep .a bsA).decision = (s.b.bulkStep .b bsB).decision)
  (one : (s.b.bulkStep .a bsA).session.map (·.1) = (s.b.bulkStep .b bsB).session.map (·.1))
include running working same one

theorem State.receiveBulk_unknown (unknown : (s.b.bulkStep .a bsA).session = none) :
    s.receiveBulk bsA bsB = s.onSfr fun r => { r with unknown := r.unknown.inc } := by
  unfold State.receiveBulk
  rw [running, working]
  dsimp only
  rw [if_neg (not_or.mpr ⟨not_not.mpr same, not_not.mpr one⟩), unknown]
  rfl

theorem State.receiveBulk_session {slot : Nat} {c : ConsCfg} (known : (s.b.bulkStep .a bsA).session = some (slot, c)) :
    let kept := (s.setAsm slot (s.b.bulkStep .a bsA).asm (s.b.bulkStep .b bsB).asm).refuseBulk slot (s.b.bulkStep .a bsA).gone
    let told := if (s.b.bulkStep .a bsA).abandoned || (s.b.bulkStep .b bsB).abandoned then
        (kept.refuseSensor slot).raise 424 (sessWord slot) else kept
    s.receiveBulk bsA bsB = match (s.b.bulkStep .a bsA).decision with
      | some d => told.bulkAct slot c d (s.b.bulkStep .a bsA).frame
      | none => told := by
  intro kept told
  unfold State.receiveBulk
  rw [running, working]
  dsimp only
  rw [if_neg (not_or.mpr ⟨not_not.mpr same, not_not.mpr one⟩), known]
  rfl

end

end

/-- The assemblies and what is discarded lie outside the sessions and the settings. -/
theorem State.kept_outside (slot : Nat) (x y : Option Assembly) (gone : Option (Nat × Nat)) (s : State) :
    (∀ q, ((s.setAsm slot x y).refuseBulk slot gone).b.consOf q = s.b.consOf q) ∧
      Only 9216 s ((s.setAsm slot x y).refuseBulk slot gone) := by
  refine ⟨fun q => ?_, .refuseBulk _ _ rfl (.setAsm _ _ _ rfl (.refl _ s))⟩
  have asm : (s.setAsm slot x y).b.sfr.cons = s.b.sfr.cons := by
    unfold State.setAsm
    extract_lets s1
    split <;> rfl
  have discards : ∀ z : State, (z.refuseBulk slot gone).b.sfr.cons = z.b.sfr.cons := fun z => by
    unfold State.refuseBulk
    split <;> rfl
  rw [Blocks.consOf, discards, asm]
  rfl

theorem Only.rulers {s u : State} (h : Only 9216 s u) : u.b.rulerOf = s.b.rulerOf ∧ u.b.rulerA = s.b.rulerA ∧ u.b.grid = s.b.grid ∧
    u.b.sensorOf = s.b.sensorOf := by
  have reads : ∀ b : Blocks, b.rulerOf = (fun c => match c with
      | .a => b.now - b.tru.aOrigin | .b => b.tru.rulerB + (b.now - max b.sys.lastCapture b.tru.aOrigin)) := fun b => by
    funext c
    cases c <;> rfl
  have settings : ∀ b : Blocks, b.sensorOf = ({ cfg := b.cfg } : Blocks).sensorOf := fun _ => rfl
  have now := h.same_of .now rfl
  have tru := h.same_of .tru rfl
  have sys := h.same_of .sys rfl
  have cfg := h.same_of .cfg rfl
  dsimp only [Part.same] at now tru sys cfg
  exact ⟨by rw [reads, now, tru, sys, ← reads], by rw [Blocks.rulerA, now, tru]; rfl, by rw [Blocks.grid, Blocks.img, cfg]; rfl,
    by rw [settings, cfg, ← settings]⟩

theorem State.bulkAct_invalid {a : Assembly} (slot : Nat) (c : ConsCfg) (s : State) (bad : a.contentOk = false) :
    s.bulkAct slot c .accept (some a) = ((s.onCons slot fun r => { r with refused := r.refused.inc }).refuseSensor slot).raise 355
      (mkw ((s.b.sensorOf slot).getD 0)) := if_neg (by simp [bad])

/-- A whole sensor frame whose content is valid: the session takes it, and its sensor's stores. -/
theorem State.bulkAct_accept {a : Assembly} (slot : Nat) (c : ConsCfg) (s : State) (valid : a.contentOk = true) :
    let u := s.bulkAct slot c .accept (some a)
    u.b.consOf slot = s.b.accepted c (a.head c.id) [] (s.b.consOf slot) ∧
      ∀ k, s.b.sensorOf slot = some k → (u.b.sensor k).curA = a.points.filterMap (fun p => (s.b.grid.getD {}).cellOf p 1) ∧
        (u.b.sensor k).curB = a.points.filterMap (s.b.grid.getD {}).fineOf ∧ (u.b.sensor k).points = beAt a.stream 4 4 ∧
        (u.b.sensor k).accepted = some s.b.rulerA := by
  unfold State.bulkAct
  dsimp only
  rw [if_pos valid]
  have taken := (State.actOn_accept_consOf slot c (a.head c.id) [] s slot).trans (if_pos rfl)
  have acted : Only 74240 s (s.actOn slot c (a.head c.id) [] .accept) :=
    .actOn _ _ _ _ _ rfl (.refl _ s)
  generalize s.actOn slot c (a.head c.id) [] .accept = s1 at taken acted
  have ruler : s1.b.rulerA = s.b.rulerA := by
    rw [Blocks.rulerA, (acted.same_of .now rfl :), (acted.same_of .tru rfl :)]
    rfl
  cases feeds : s.b.sensorOf slot with
  | none => exact ⟨taken, fun k h => nomatch h⟩
  | some k =>
    dsimp only
    refine ⟨?_, fun j hj => ?_⟩
    · rw [← taken]
      exact Blocks.consOf_congr ((Only.acceptSensor (m := 66560) _ _ _ _ rfl (.onSensor _ _ rfl (.refl _ s1))).same_of .sfr rfl) slot
    · obtain rfl := Option.some.inj hj
      rw [State.acceptSensor_sensor, State.onSensor_sensor]
      exact ⟨rfl, rfl, rfl, congrArg some ruler⟩

end Sys2Proof.Machine

namespace Sys2Proof.Proofs

open Sys2Proof Sys2Proof.Machine

/-- Settles O41: what the channels take together, by the session and the decision. -/
theorem bulkFramesAndSetup : Obligations.BulkFramesAndSetup := by
  refine ⟨fun t bsA bsB s running working => ?bulk, fun t slot c s known running setup late => ?setup,
    fun t rd w s takes => ?restart⟩
  case bulk =>
    intro b x y ends
    have received : ∀ {u}, (s.tick t).receiveBulk bsA bsB = u → ends u := fun e => congrArg Host.Outcome.next e
    refine ⟨fun differ => received (State.receiveBulk_differ (s := s.tick t) running working differ), fun same one =>
      ⟨fun unknown => received (State.receiveBulk_unknown (s := s.tick t) running working same one unknown), fun slot c known => ?_⟩⟩
    intro kept
    have run := State.receiveBulk_session (s := s.tick t) running working same one known
    obtain ⟨sessions, only⟩ := State.kept_outside slot x.asm y.asm x.gone (s.tick t)
    obtain ⟨ruler, rulerA, grid, sensorOf⟩ := only.rulers
    refine ⟨fun waits whole whole' => ?_, fun waits broken => ?_, fun a accepts frame whole whole' => ⟨fun bad => ?_, fun good => ?_⟩⟩
    · rw [waits, show (x.abandoned || y.abandoned) = false by rw [whole, whole']; rfl] at run
      exact received run
    · rw [waits, show (x.abandoned || y.abandoned) = true by obtain h | h := broken <;> simp [h]] at run
      exact received run
    · rw [accepts, frame, show (x.abandoned || y.abandoned) = false by rw [whole, whole']; rfl] at run
      refine received (run.trans ((State.bulkAct_invalid slot c kept bad).trans ?_))
      rw [sensorOf]
      rfl
    · rw [accepts, frame, show (x.abandoned || y.abandoned) = false by rw [whole, whole']; rfl] at run
      obtain ⟨own, sensor⟩ := State.bulkAct_accept slot c kept good
      rw [sessions] at own
      obtain ⟨alive, held, atA, -, -, state, -⟩ := kept.b.accepted_fields c (a.head c.id) [] ((s.tick t).b.consOf slot)
      refine ⟨kept.bulkAct slot c .accept (some a), received run, ?_⟩
      rw [own]
      refine ⟨alive, held, atA.trans (congrFun ruler .a), state, fun k feeds => ?_⟩
      have stores := sensor k (sensorOf ▸ feeds)
      rw [grid, rulerA] at stores
      exact stores
  case setup =>
    show Host.Outcome.next ((s.tick t).setupTimeout slot) = _
    rw [State.setupTimeout, show (s.tick t).b.consCfg slot = some c from known]
    refine congrArg Host.Outcome.next (if_pos ?_)
    exact Bool.and_eq_true_iff.mpr ⟨Bool.and_eq_true_iff.mpr ⟨running, decide_eq_true setup⟩, decide_eq_true late⟩
  case restart =>
    intro slot noted
    have free : s.b.slotUsed w = false → (s.tick t).sfrRestart rd w = (s.tick t, rBadArg) := fun h =>
      if_neg (show ¬ s.b.slotUsed w = true by simp [h])
    have used : s.b.slotUsed w = true → (s.tick t).sfrRestart rd w = _ := fun h => if_pos h
    have producer : w.getLsbD 7 = true → s.b.slotUsed w = (s.b.prodCfg slot).isSome := fun h => if_pos h
    have consumer : w.getLsbD 7 = false → s.b.slotUsed w = (s.b.consCfg slot).isSome := fun h =>
      if_neg (by rw [h]; decide)
    refine ⟨fun side off => ?_, fun side off => ?_, fun side on => ?_, fun side on => ?_⟩
    · exact next_of_takes takes (free (by rw [consumer side, off]; rfl))
    · exact next_of_takes takes (free (by rw [producer side, off]; rfl))
    · refine next_of_takes takes ((used ((consumer side).trans on)).trans ?_)
      rw [if_neg (show ¬ w.getLsbD 7 = true by rw [side]; decide)]
      rfl
    · refine next_of_takes takes ((used ((producer side).trans on)).trans ?_)
      rw [if_pos side]
      rfl

end Sys2Proof.Proofs

/-! SUPPORT. A pair's own registers and its debug module (R267 to R283). -/

namespace Sys2Proof.Machine

section
variable {s : State} {k : Nat}

theorem State.onPair_pairOf (f : Pair → Pair) (s : State) : (s.onPair k f).b.pairOf k = f (s.b.pairOf k) :=
  nget_nupd_same _ _ _ f

/-! ### A pair's own registers (R267) -/

section
variable {j : Fin 4}

theorem State.ownPair_own (run : State → State × Nat) (runs : (s.b.pairOf j).state = 1) :
    s.ownPair (.pair j) j run = (run s).1.result (.pair j) (pCPR j) (run s).2 := by
  have speaks : s.b.speaks (.pair j) = true := decide_eq_true runs
  unfold State.ownPair
  rw [speaks]
  exact if_pos rfl

theorem State.ownPair_other (run : State → State × Nat) (other : j.val ≠ k) (runs : (s.b.pairOf j).state = 1) :
    s.ownPair (.pair j) k run = s.refuseWrite (.pair j) (pCPR k) := by
  have speaks : s.b.speaks (.pair j) = true := decide_eq_true runs
  unfold State.ownPair
  rw [speaks]
  exact if_neg other

theorem State.ownPair_outside {rd : Reader} (run : State → State × Nat) (outside : ∀ q, rd ≠ .pair q) :
    s.ownPair rd k run = s.result rd (pCPR k) rNotAuth := by
  cases rd with
  | pair q => exact absurd rfl (outside q)
  | _ => rfl

theorem State.ownWt_own (w : Word) (run : State → State × Nat) :
    s.ownWt (.pair j) j w run = s.wt (.pair j) (pCPR j) (wTok w) run := if_pos rfl

theorem State.ownWt_other (w : Word) (run : State → State × Nat) (other : j.val ≠ k) (runs : (s.b.pairOf j).state = 1) :
    s.ownWt (.pair j) k w run = s.refuseCommand (.pair j) (pCPR k) := by
  have speaks : s.b.speaks (.pair j) = true := decide_eq_true runs
  unfold State.ownWt
  refine (if_neg other).trans ?_
  rw [speaks]
  rfl

theorem State.ownWt_outside {rd : Reader} (w : Word) (run : State → State × Nat) (outside : ∀ q, rd ≠ .pair q) :
    s.ownWt rd k w run = (s.result rd (pCPR k) rNotAuth).onToken (pCPR k) rd.idx fun e => { e with repeated := false } := by
  cases rd with
  | pair q => exact absurd rfl (outside q)
  | _ => rfl

end

/-- A source that blocks a running pair. -/
theorem State.failPair_fields (src : Nat) (runs : (s.b.pairOf k).state = 1) :
    ((s.failPair src k).b.pairOf k).state = 2 ∧
      (s.failPair src k).b.fcl.arrivals.map (·.id) = s.b.fcl.arrivals.map (·.id) ++ [src + k] := by
  refine ⟨?_, List.map_append⟩
  have own := State.onPair_pairOf (k := k) (fun p =>
    if p.state = 1 then { p with state := 2, blocked := true } else if p.state = 3 then { p with blocked := true } else p)
    (s.raise (src + k) ((s.b.pairOf k).headDetail k) none k)
  refine (congrArg Pair.state (own.trans (if_pos ?_)))
  exact runs

/-! ### Debug (R277, R278) -/

theorem Pair.onCore_core (p : Pair) (c : Ch) (f : Core → Core) : (p.onCore c f).core c = f (p.core c) := by
  cases c <;> rfl

theorem Pair.onCore_state (p : Pair) (c : Ch) (f : Core → Core) : (p.onCore c f).state = p.state := by
  cases c <;> rfl

theorem Pair.onCore_queues (p : Pair) (c : Ch) {f : Core → Core} (hf : ∀ x, (f x).queue = x.queue) :
    (p.onCore c f).a.queue = p.a.queue ∧ (p.onCore c f).b.queue = p.b.queue := by
  cases c
  · exact ⟨hf _, rfl⟩
  · exact ⟨rfl, hf _⟩

/-- A pair with its queues empty and its matching stopped. -/
def Pair.parted (p : Pair) : Pair :=
  { p with
    state := if p.state = 1 ∨ p.state = 2 then 3 else p.state
    a := { p.a with queue := [] }, b := { p.b with queue := [] } }

theorem Pair.parted_core (p : Pair) (c : Ch) : p.parted.core c = { p.core c with queue := [] } := by
  cases c <;> rfl

theorem Blocks.coreReg_counter {b : Blocks} {x : Core} {reg : Nat} (h : reg ∈ [0xB00, 0xB02, 0xC00, 0xC02]) :
    b.coreReg x reg = x.retired.zeroExtend 64 := if_pos (List.contains_iff_mem.mpr h)

theorem Blocks.coreReg_other {b : Blocks} {x : Core} {reg : Nat} (h : reg ∉ [0xB00, 0xB02, 0xC00, 0xC02, 0xC01, 0x1000]) :
    b.coreReg x reg = nget x.regs (x.regKey reg) 0 := by
  simp only [List.mem_cons, List.not_mem_nil, or_false, not_or] at h
  obtain ⟨h1, h2, h3, h4, h5, h6⟩ := h
  unfold Blocks.coreReg
  rw [if_neg (by simp [h1, h2, h3, h4]), if_neg h5, if_neg h6]

theorem State.splitPair_fields (c : Ch) (s : State) :
    (s.splitPair k c).b.pairOf k = (s.b.pairOf k).parted ∧ (s.splitPair k c).b.agr.split = setb s.b.agr.split k true := by
  have own : ((s.onPair k Pair.parted).onAgr fun a => { a with split := setb a.split k true }).b.pairOf k = (s.b.pairOf k).parted :=
    State.onPair_pairOf Pair.parted s
  unfold State.splitPair
  extract_lets s1
  split
  · exact ⟨own, rfl⟩
  · have agr : ((s1.raise (465 + k) (mkw k) none k).record 0x0D [BitVec.ofNat 8 k, if c = .a then 0 else 1]).b.agr = s1.b.agr :=
      State.record_agr ..
    rw [Blocks.pairOf, agr]
    exact ⟨own, rfl⟩

/-- A core that the debug module stops: the pair splits first. -/
theorem State.stopped_fields (c : Ch) {f : Core → Core} (hf : ∀ x, (f x).queue = x.queue) (s : State) :
    let u := (s.splitPair k c).onPair k fun p => p.onCore c f
    (u.b.pairOf k).state = (s.b.pairOf k).parted.state ∧ u.b.agr.split = setb s.b.agr.split k true ∧
      (u.b.pairOf k).a.queue = [] ∧ (u.b.pairOf k).b.queue = [] ∧
      (u.b.pairOf k).core c = f { (s.b.pairOf k).core c with queue := [] } := by
  obtain ⟨own, split⟩ := s.splitPair_fields (k := k) c
  dsimp only
  rw [State.onPair_pairOf, own, Pair.onCore_core, Pair.onCore_state, Pair.parted_core]
  obtain ⟨qa, qb⟩ := (s.b.pairOf k).parted.onCore_queues c hf
  exact ⟨rfl, split, qa, qb, rfl⟩

end

end Sys2Proof.Machine

namespace Sys2Proof.Proofs

open Sys2Proof Sys2Proof.Machine

/-- Settles O43: who may write the page, what its own pair writes, and the debug module of the pairs. -/
theorem pairRegistersAndDebug : Obligations.PairRegistersAndDebug := by
  refine ⟨fun t rd k j i w s c hc => ?others, fun t k j i w s runs => ?own, fun t k ch reg w s => ?debug⟩
  case others =>
    intro told
    refine ⟨fun outside => ?_, fun q hq other runs => ?_⟩
    · obtain rfl | rfl | rfl | rfl | rfl := hc
      case inr.inr.inr.inr =>
        rw [show told = fun x => _ from funext fun _ => if_pos rfl]
        exact congrArg Host.Outcome.next (State.ownWt_outside w _ outside)
      all_goals
        rw [show told = fun x => x from funext fun _ => if_neg nofun]
        exact congrArg Host.Outcome.next (State.ownPair_outside _ outside)
    · subst hq
      have apart : q.val ≠ k.val := fun h => other (Fin.ext h)
      obtain rfl | rfl | rfl | rfl | rfl := hc
      case inr.inr.inr.inr =>
        rw [show told = fun x => _ from funext fun _ => if_pos rfl]
        exact congrArg Host.Outcome.next (State.ownWt_other (s := s.tick t) w _ apart runs)
      all_goals
        rw [show told = fun x => x from funext fun _ => if_neg nofun]
        exact congrArg Host.Outcome.next (State.ownPair_other (s := s.tick t) _ apart runs)
  case own =>
    intro ends off len bytes
    have wrote : ∀ {run : State → State × Nat} {u : State} {r : Nat}, run (s.tick t) = (u, r) →
        Host.Outcome.next ((s.tick t).ownPair (.pair k) k run) =
          (.next (u.result (.pair k) (pCPR k) r) : Host.Outcome State Fault Refusal) := fun {run u r} h => by
      rw [State.ownPair_own (s := s.tick t) run runs, h]
    refine ⟨fun sign count => wrote (if_pos ⟨sign, count⟩), fun bad => wrote (if_neg bad), wrote rfl, fun fits => wrote (if_pos fits),
      fun bad => wrote (if_neg (Nat.not_lt.mpr bad)), fun takes => ?_, fun bad => wrote (if_pos bad),
      fun fits => ⟨fun same => ?_, fun differ => ?_⟩⟩
    · have run : exec (.cprCfwInv t (.pair k) k w) s = .next ((s.tick t).wt (.pair k) (pCPR k) (wTok w) (State.cfwInv k w)) :=
        congrArg Host.Outcome.next (State.ownWt_own w _)
      rw [run]
      by_cases fits : fld w 8 0 < (s.b.pairCfg k).cfwCount
      · rw [if_pos fits]
        exact next_of_takes takes (if_pos fits)
      · rw [if_neg fits]
        exact next_of_takes takes (if_neg fits)
    · exact wrote ((if_neg fits).trans (if_pos same))
    · refine ⟨((s.tick t).onPair k fun p => { p with tx := w &&& 0x7FFFFFFF }).failPair 452 k,
        wrote ((if_neg fits).trans (if_neg differ)), ?_, rfl, ?_⟩
      · obtain ⟨own, -⟩ := State.failPair_fields 452 (k := k) (s := (s.tick t).onPair k fun p => { p with tx := w &&& 0x7FFFFFFF })
          ((congrArg Pair.state (State.onPair_pairOf _ (s.tick t))).trans runs)
        exact own
      · exact List.map_append
  case debug =>
    have off : s.b.debugOn = false → ∀ x : Bool, ¬ ((s.tick t).b.debugOn && x) = true := fun h x => by
      rw [show (s.tick t).b.debugOn = false from h]
      exact Bool.false_ne_true
    have cores : (s.b.pairOf k).state ≠ 0 → (s.b.pairOf k).state ≠ 4 → (s.tick t).b.hasCores k = true := fun h0 h4 =>
      Bool.and_eq_true_iff.mpr ⟨decide_eq_true h0, decide_eq_true h4⟩
    refine ⟨fun closed c hc => ?_, fun on h0 h4 c hc => ?_, fun on halted => ⟨?_, ?_⟩⟩
    · obtain rfl | rfl | rfl | rfl := hc <;> exact congrArg Host.Outcome.next (if_neg (off closed _))
    · have may : ((s.tick t).b.debugOn && (s.tick t).b.hasCores k) = true := Bool.and_eq_true_iff.mpr ⟨on, cores h0 h4⟩
      obtain rfl | rfl := hc
      · refine ⟨_, congrArg Host.Outcome.next (if_pos may), ?_⟩
        obtain ⟨state, split, qa, qb, core⟩ := State.stopped_fields (k := k) ch (f := fun x => { x with halted := true })
          (fun _ => rfl) (s.tick t)
        refine ⟨state, split, qa, qb, congrArg Core.halted core, (congrArg Core.retired core).trans ?_⟩
        rw [if_neg nofun]
        exact (BitVec.add_zero _).symm
      · refine ⟨_, congrArg Host.Outcome.next (if_pos may), ?_⟩
        obtain ⟨state, split, qa, qb, core⟩ := State.stopped_fields (k := k) ch
          (f := fun x => { x with
            retired := x.retired + 1
            digest := digestAfter x.digest (Config.stepRetires x.digest).1 (Config.stepRetires x.digest).2.1
              (Config.stepRetires x.digest).2.2.1 (Config.stepRetires x.digest).2.2.2
            halted := true }) (fun _ => rfl) (s.tick t)
        refine ⟨state, split, qa, qb, congrArg Core.halted core, (congrArg Core.retired core).trans ?_⟩
        rw [if_pos rfl]
        rfl
    · have may : ((s.tick t).b.debugOn && (((s.tick t).b.pairOf k).core ch).halted) = true := Bool.and_eq_true_iff.mpr ⟨on, halted⟩
      refine ⟨_, congrArg Host.Outcome.next (if_pos may), ?_, ?_⟩
      · rw [State.onPair_pairOf, Pair.onCore_core]
        rfl
      · rw [State.onPair_pairOf, Pair.onCore_state]
        rfl
    · have may : ((s.tick t).b.debugOn && (((s.tick t).b.pairOf k).core ch).halted) = true := Bool.and_eq_true_iff.mpr ⟨on, halted⟩
      refine ⟨_, congrArg Host.Outcome.next (if_pos may), ?_⟩
      intro x y
      have core : y = match w with
          | some v => x.setReg reg v
          | none => { x with debugData := (s.tick t).b.coreReg x reg } := by
        unfold y
        rw [State.onPair_pairOf, Pair.onCore_core]
        rfl
      rw [core]
      cases w with
      | some v => exact ⟨nget_nset_same _ _ _ _, rfl, rfl, fun r hr => nget_nset_other _ _ _ (Ne.symm hr)⟩
      | none =>
        refine ⟨rfl, rfl, rfl, fun counter => ?_, fun zero => ?_, fun other => ?_⟩
        · exact Blocks.coreReg_counter counter
        · subst zero
          rfl
        · exact Blocks.coreReg_other other

end Sys2Proof.Proofs

/-! SUPPORT. Check-value units (R284 to R291): the bytes of a feed, and what a write to a unit does. -/

namespace Sys2Proof.Machine

theorem beBytes_length (v n : Nat) : (beBytes v n).length = n := by
  induction n with
  | zero => rfl
  | succ n ih => exact congrArg (· + 1) ih

/-- The bytes of a number, most significant first, by their places. -/
theorem beBytes_eq_map (v n : Nat) : beBytes v n = (List.range n).map fun i => BitVec.ofNat 8 (v / 2 ^ (8 * (n - 1 - i))) := by
  induction n with
  | zero => rfl
  | succ n ih =>
    rw [List.range_succ_eq_map, List.map_cons, List.map_map, beBytes, ih]
    congr 1
    · rw [Nat.add_sub_cancel, Nat.sub_zero, pow_mul]
      rfl
    · refine List.map_congr_left fun i _ => ?_
      rw [Function.comp_apply, show n + 1 - 1 - i.succ = n - 1 - i by omega]

theorem beBytes_two (v : Nat) : beBytes v 2 = [BitVec.ofNat 8 (v / 256), BitVec.ofNat 8 v] := by
  rw [beBytes, beBytes, beBytes, pow_zero, pow_one, Nat.div_one]

theorem cvuOrder_length (lsbFirst : Bool) (bs : List Byte) : (cvuOrder lsbFirst bs).length = bs.length := by
  cases lsbFirst
  · rfl
  · exact List.length_reverse

theorem State.onCvu_cvuOf (u : Nat) (f : Cvu → Cvu) (s : State) : (s.onCvu u f).b.cvuOf u = f (s.b.cvuOf u) :=
  nget_nupd_same _ _ _ f

theorem State.result_cvuOf (u : Nat) (rd : Reader) (page r : Nat) (s : State) :
    (s.result rd page r).b.cvuOf u = s.b.cvuOf u := rfl

theorem State.cond_cvuOf (u i : Nat) (v : Bool) (d : Word) (z : Option Nat) (k : Nat) (b : Option Block) (s : State) :
    (s.cond i v d z k b).b.cvuOf u = s.b.cvuOf u := by
  rw [Blocks.cvuOf, State.cond_cvu]
  rfl

/-- A change of a unit acts on the unit as it is. -/
theorem State.onCvu_congr {u : Nat} {f g : Cvu → Cvu} {s : State} (h : f (s.b.cvuOf u) = g (s.b.cvuOf u)) :
    s.onCvu u f = s.onCvu u g := by
  unfold State.onCvu nupd
  rw [show f (nget s.b.cvu u {}) = g (nget s.b.cvu u {}) from h]

section
variable {s z : State} {rd : Reader} {u r : Nat} {run : State → State × Nat}

theorem State.cvuWrite_failed (run : State → State × Nat) (reaches : s.b.reaches rd (pCVU u) = true)
    (failed : (s.b.cvuOf u).failed = true) :
    s.cvuWrite rd u run = s.result rd (pCVU u) rRefused := by
  unfold State.cvuWrite
  rw [State.plain_reaches _ reaches, if_pos failed]

theorem State.cvuWrite_works (reaches : s.b.reaches rd (pCVU u) = true) (works : (s.b.cvuOf u).failed = false)
    (h : run s = (z, r)) : s.cvuWrite rd u run = z.result rd (pCVU u) r := by
  unfold State.cvuWrite
  rw [State.plain_reaches _ reaches, if_neg (by rw [works]; exact Bool.false_ne_true), h]

end

end Sys2Proof.Machine

namespace Sys2Proof.Proofs

open Sys2Proof Sys2Proof.Machine

/-- Settles O44: each write of the owner by what it makes of the unit. -/
theorem checkValueUnits : Obligations.CheckValueUnits := by
  intro t rd u w s reaches x ends refused fed d
  refine ⟨fun failed c hc => ?failed, fun works => ?works⟩
  case failed =>
    have stands : ∀ run : State → State × Nat,
        (s.tick t).cvuWrite rd u run = (s.tick t).result rd (pCVU u) rRefused := fun run =>
      State.cvuWrite_failed (s := s.tick t) run reaches failed
    simp only [List.mem_cons, List.not_mem_nil, or_false] at hc
    obtain rfl | rfl | rfl | rfl | rfl | rfl | rfl | rfl := hc <;> exact congrArg Host.Outcome.next (stands _)
  case works =>
    have wrote : ∀ {run : State → State × Nat} {z : State} {r : Nat}, run (s.tick t) = (z, r) →
        Host.Outcome.next ((s.tick t).cvuWrite rd u run) =
          (.next (z.result rd (pCVU u) r) : Host.Outcome State Fault Refusal) := fun h =>
      congrArg Host.Outcome.next (State.cvuWrite_works (s := s.tick t) reaches works h)
    have ctrl : ∀ c, c = .cvuStart t rd u w ∨ c = .cvuPolyChange t rd u w →
        exec c s = .next ((s.tick t).cvuWrite rd u (State.cvuCtrl u w)) := by
      rintro c (rfl | rfl) <;> rfl
    have feeds : ∀ n, x.poly ≠ 0 → State.cvuFeed u n w (s.tick t) = ((s.tick t).onCvu u (fed n), rDone) := fun n set_ => by
      refine (if_neg set_).trans (congrArg (fun f => ((s.tick t).onCvu u f, rDone)) (funext fun c => ?_))
      rw [Cvu.feed, cvuOrder_length, beBytes_length, beBytes_eq_map]
      rfl
    refine ⟨fun c hc => ⟨fun bad => ?_, fun good start => ?_, fun good change => ?_⟩, fun unset c hc => ?_, fun set_ => ⟨?_, ?_, ?_⟩,
      fun crc64 => ⟨?_, ?_⟩, fun short => ⟨?_, ?_⟩, fun set_ accepts => ?_, fun set_ armed rejects => ?_⟩
    · exact (ctrl c hc).trans (wrote (if_pos bad))
    · refine (ctrl c hc).trans (wrote ((if_neg (Nat.not_lt.mpr good)).trans ?_))
      exact congrArg (fun f => ((s.tick t).onCvu u f, rDone)) (funext fun c => if_pos start)
    · refine (ctrl c hc).trans (wrote ((if_neg (Nat.not_lt.mpr good)).trans ?_))
      exact congrArg (fun f => ((s.tick t).onCvu u f, rDone)) (funext fun c => if_neg (by rw [change]; exact Bool.false_ne_true))
    · simp only [List.mem_cons, List.not_mem_nil, or_false] at hc
      obtain rfl | rfl | rfl | rfl := hc <;> exact wrote (if_pos unset)
    · exact wrote (feeds 1 set_)
    · exact wrote (feeds 2 set_)
    · exact wrote (feeds 4 set_)
    · exact wrote (congrArg (·, rDone) (State.onCvu_congr (if_pos crc64)))
    · exact wrote (congrArg (·, rDone) (State.onCvu_congr (if_pos crc64)))
    · exact wrote (congrArg (·, rDone) (State.onCvu_congr (if_neg short)))
    · exact ⟨_, wrote rfl, (State.onCvu_cvuOf u _ (s.tick t)).trans (if_neg short)⟩
    · have good : (!x.armed || (decide (1 ≤ d) && decide (d ≤ x.maxSkip))) = true := by
        obtain h | ⟨h1, h2⟩ := accepts
        · rw [h]
          rfl
        · simp [h1, h2]
      refine ⟨_, wrote ((if_neg set_).trans (if_pos good)), congrArg Token.last (State.result_tokenOf ..), ?_⟩
      rw [State.result_cvuOf, State.cond_cvuOf, State.onCvu_cvuOf, beBytes_two]
      rfl
    · have bad : ¬ (!x.armed || (decide (1 ≤ d) && decide (d ≤ x.maxSkip))) = true := by
        rw [armed]
        simpa using rejects
      refine ⟨_, wrote ((if_neg set_).trans (if_neg bad)), congrArg Token.last (State.result_tokenOf ..),
        State.cond_cause 483 true _ _ _ _ _ (by decide), ?_⟩
      rw [State.result_cvuOf, State.cond_cvuOf]
      exact State.onCvu_cvuOf u _ (s.tick t)

end Sys2Proof.Proofs

/-! SUPPORT. Resets and the supply (R306, R394, R398 to R410): what a wipe leaves, and the release after it. -/

namespace Sys2Proof.Machine

/-! ### What a wipe leaves (R404, R408) -/

/-- `u` has every register of these blocks at its reset value, with the rhizoid latches and, unless power was lost, the split of `x`. -/
structure Blank (x : Blocks) (power : Bool) (u : State) : Prop where
  sog : u.b.sog = {}
  sto : u.b.sto = {}
  agr : u.b.agr = if power then {} else { split := x.agr.split }
  image : u.b.cfg.image = none
  rws : u.b.cfg.rws = []
  rw_ : u.b.cfg.rw = []
  tokens : u.b.sys.tokens = []
  latchA : u.b.fcl.a.latch = 0
  latchB : u.b.fcl.b.latch = 0
  buffer : u.b.recd.buffer = []
  latched : u.b.otp.latched = x.otp.latched
  session : u.b.otp.session = none
  waiting : u.b.otp.waiting = []
  hif : u.b.hif = {}
  mgmt : u.b.mgmt = []
  shown : u.shown = none
  cap : u.cap = none

theorem State.wiped_blank (power : Bool) (s : State) : Blank s.b power (s.wiped power) :=
  ⟨rfl, rfl, rfl, rfl, rfl, rfl, rfl, by cases power <;> rfl, by cases power <;> rfl, rfl, rfl, rfl, rfl, rfl, rfl, rfl, rfl⟩

theorem State.release_only (s : State) : Only 34364260352 s s.release := .release rfl (.refl _ s)

theorem State.release_pwr (s : State) : s.release.b.pwr = { s.b.pwr with
    phase := .released, stepAt := s.b.now, retAtStart := s.b.pwr.ret, ret := { s.b.pwr.ret with written := true, unclean := true } } := by
  unfold State.release State.thermal
  rw [State.cond_pwr, State.cond_pwr]
  rfl

theorem State.cond_collecting (i : Nat) (v : Bool) (d : Word) (z : Option Nat) (k : Nat) (b : Option Block) (s : State) :
    (s.cond i v d z k b).b.fcl.collecting = s.b.fcl.collecting ∧
      (s.cond i v d z k b).b.fcl.chipResetTaken = s.b.fcl.chipResetTaken := by
  unfold State.cond
  split <;> exact ⟨rfl, rfl⟩

theorem State.release_collecting (s : State) : s.release.b.fcl.collecting = true ∧
    s.release.b.fcl.chipResetTaken = s.b.fcl.chipResetTaken := by
  unfold State.release State.thermal
  rw [(State.cond_collecting ..).1, (State.cond_collecting ..).1, (State.cond_collecting ..).2, (State.cond_collecting ..).2]
  exact ⟨rfl, rfl⟩

namespace Blank
variable {x y : Blocks} {power : Bool} {u : State}

theorem onPwr (h : Blank x power u) (f : Pwr → Pwr) : Blank x power (u.onPwr f) :=
  ⟨h.1, h.2, h.3, h.4, h.5, h.6, h.7, h.8, h.9, h.10, h.11, h.12, h.13, h.14, h.15, h.16, h.17⟩

theorem release (h : Blank x power u) : Blank x power u.release := by
  obtain ⟨sog, sto, agr, image, rws, rw_, tokens, latchA, latchB, buffer, latched, session, waiting, hif, mgmt, shown, cap⟩ := h
  have only := u.release_only
  have cfg : u.release.b.cfg = u.b.cfg := only.same_of .cfg rfl
  have otp : u.release.b.otp = u.b.otp := only.same_of .otp rfl
  have sys : u.release.b.sys = u.b.sys := only.same_of .sys rfl
  have recd : u.release.b.recd = u.b.recd := only.same_of .recd rfl
  obtain ⟨sameA, sameB⟩ : u.release.b.fcl.a.latch = u.b.fcl.a.latch ∧ _ := only.same_of .latches rfl
  obtain ⟨sameCap, sameShown, -⟩ : u.release.cap = u.cap ∧ u.release.shown = u.shown ∧ _ := only.same_of .sentences rfl
  exact ⟨(only.same_of .sog rfl).trans sog, (only.same_of .sto rfl).trans sto, (only.same_of .agr rfl).trans agr,
    by rw [cfg, image], by rw [cfg, rws], by rw [cfg, rw_], by rw [sys, tokens], by rw [sameA, latchA], by rw [sameB, latchB],
    by rw [recd, buffer], by rw [otp, latched], by rw [otp, session], by rw [otp, waiting], (only.same_of .hif rfl).trans hif,
    (only.same_of .mgmt rfl).trans mgmt, by rw [sameShown, shown], by rw [sameCap, cap]⟩

theorem of_same (h : Blank x power u) (agr : x.agr = y.agr) (latched : x.otp.latched = y.otp.latched) : Blank y power u :=
  ⟨h.1, h.2, agr ▸ h.3, h.4, h.5, h.6, h.7, h.8, h.9, h.10, latched ▸ h.11, h.12, h.13, h.14, h.15, h.16, h.17⟩

end Blank

/-- A hub held by RESET_N stays held; any other is released. -/
def State.leave (s : State) : State := if s.b.pwr.resetLow then s else s.release

theorem State.leave_fields (s : State) (held : s.b.pwr.phase = .resetHeld) :
    s.leave.b.pwr.phase = (if s.b.pwr.resetLow then .resetHeld else .released) ∧ s.leave.b.pwr.resetLow = s.b.pwr.resetLow ∧
      s.leave.b.pwr.cause = s.b.pwr.cause ∧ s.leave.b.pwr.chipResets = s.b.pwr.chipResets ∧
      s.leave.b.pwr.railsGood = s.b.pwr.railsGood ∧ s.leave.b.fcl.chipResetTaken = s.b.fcl.chipResetTaken ∧
      ∀ {x power}, Blank x power s → Blank x power s.leave := by
  unfold State.leave
  split
  · exact ⟨held, rfl, rfl, rfl, rfl, rfl, id⟩
  · rw [s.release_pwr]
    exact ⟨rfl, rfl, rfl, rfl, rfl, s.release_collecting.2, Blank.release⟩

theorem State.chipReset_fields (cause : Nat) (s : State) : let u := s.chipReset cause
    u.b.pwr.cause = cause ∧ u.b.pwr.phase = (if s.b.pwr.resetLow then .resetHeld else .released) ∧
      u.b.pwr.resetLow = s.b.pwr.resetLow ∧ u.b.pwr.chipResets = min (s.b.pwr.chipResets + 1) 255 ∧
      u.b.fcl.chipResetTaken = s.b.fcl.chipResetTaken ∧ Blank s.b false u := by
  obtain ⟨phase, low, source, count, -, taken, blank⟩ := State.leave_fields ((s.wiped false).onPwr fun p =>
    { p with phase := .resetHeld, cause := cause, chipResets := min (p.chipResets + 1) 255, goodAt := s.b.now }) rfl
  exact ⟨source, phase, low, count, taken, blank ((s.wiped_blank false).onPwr _)⟩

/-- A flush before a wipe changes the marker of the retention register alone. -/
theorem State.flushAll_pwr (n : Nat) (s : State) :
    (s.flushAll n).b.pwr.resetLow = s.b.pwr.resetLow ∧ (s.flushAll n).b.pwr.chipResets = s.b.pwr.chipResets := by
  have kept : (if s.b.nandOn then s.onRecd fun r => r.flush n else s).b.pwr = s.b.pwr := by split <;> rfl
  have low := congrArg Pwr.resetLow kept
  have count := congrArg Pwr.chipResets kept
  unfold State.flushAll
  extract_lets s1
  split <;> exact ⟨low, count⟩

/-! ### Rails and the supply (R398, R406, R407, R410) -/

theorem railBit_lt (r : Rail) : railBit r < 5 := by cases r <;> decide

/-- A rail outside its range: everything is wiped, and its source is raised beyond the monitor's bounds. -/
theorem State.railOut_fields {r : Rail} {mv : Nat} (s : State) (out : ¬ ((railLimits r).1.1 ≤ mv ∧ mv ≤ (railLimits r).1.2)) :
    let u := s.railOut r mv
    u.b.pwr.phase = .powerOnReset ∧ u.b.pwr.railsGood.getLsbD (railBit r) = false ∧ u.b.sog = {} ∧ u.b.sto = {} ∧
      u.b.cfg.image = none ∧ u.b.fcl.a.latch = 0 ∧ u.b.pwr.chipResets = 0 ∧
      (mv < (railLimits r).2.1.1 ∨ (railLimits r).2.1.2 < mv → u.b.fcl.arrivals.map (·.id) = [(railLimits r).2.2]) := by
  unfold State.railOut
  extract_lets s1 l wiped s2 u
  have run : u = if railFaults r mv s1.draws then s2.raise l.2.2 (mkw mv) else s2 := if_neg out
  clear_value u s1
  rw [run]
  have bit : s2.b.pwr.railsGood.getLsbD (railBit r) = false := getLsbD_setb_self _ _ _ (railBit_lt r)
  split
  · exact ⟨rfl, bit, rfl, rfl, rfl, rfl, rfl, fun _ => rfl⟩
  next quiet => exact ⟨rfl, bit, rfl, rfl, rfl, rfl, rfl, fun far => absurd (if_pos far) quiet⟩

theorem State.cutSession_session (s : State) : s.cutSession.b.otp.session = none := by
  unfold State.cutSession
  split
  next idle => exact idle
  · rfl

theorem State.refuseTransition_op (s : State) : s.refuseTransition.b.lcs.op = none := by
  unfold State.refuseTransition
  split
  next idle => exact idle
  · rfl

theorem State.refuseWaiting_otp (s : State) : s.refuseWaiting.b.otp = { s.b.otp with waiting := [] } := by
  have settles : Only 2 (s.onOtp fun o => { o with waiting := [] }) s.refuseWaiting := by
    refine Only.forL _ (fun i z h => ?_) (.refl _ _)
    split
    case h_13 => exact h
    all_goals exact .settle _ _ _ _ rfl h
  exact settles.same_of .otp rfl

/-- A supply-loss warning of a hub that runs. -/
theorem State.supplyWarning_fields (c : WarnCause) {s : State} (up : s.b.pwr.powerDown = false)
    (awake : s.b.pwr.phase ≠ .powerOnReset) (released : s.b.pwr.phase ≠ .resetHeld) :
    let u := s.supplyWarning c
    u.b.pwr.powerDown = true ∧ u.b.recd.accepting = false ∧ u.b.recd.flushing = min 64 s.b.recd.buffer.length ∧
      u.b.otp.session = none ∧ u.b.otp.waiting = [] ∧ u.b.lcs.op = none ∧ u.b.fcl.chipResetDue = none ∧
      u.b.fcl.arrivals.map (·.id) = s.b.fcl.arrivals.map (·.id) ++ [25] := by
  unfold State.supplyWarning
  extract_lets code s1 u
  have run : u = s1.cutSession.refuseTransition.refuseWaiting := if_neg (by simp [up, awake, released])
  rw [run]
  have only : Only 538443778 s1 s1.cutSession.refuseTransition.refuseWaiting :=
    .refuseWaiting rfl (.refuseTransition rfl (.cutSession rfl (.refl _ s1)))
  have pwr : s1.cutSession.refuseTransition.refuseWaiting.b.pwr = s1.b.pwr := only.same_of .pwr rfl
  have recd : s1.cutSession.refuseTransition.refuseWaiting.b.recd = s1.b.recd := only.same_of .recd rfl
  have fcl : s1.cutSession.refuseTransition.refuseWaiting.b.fcl = s1.b.fcl := only.same_of .fcl rfl
  have lcs : s1.cutSession.refuseTransition.refuseWaiting.b.lcs = s1.cutSession.refuseTransition.b.lcs :=
    (Only.refuseWaiting (m := 524290) rfl (.refl _ _)).same_of .lcs rfl
  have otp : s1.cutSession.refuseTransition.b.otp = s1.cutSession.b.otp :=
    (Only.refuseTransition (m := 1048578) rfl (.refl _ _)).same_of .otp rfl
  have due : s1.b.fcl.chipResetDue = none := by
    show (if s.b.fcl.chipResetDue.isSome then _ else _ : Fcl).chipResetDue = none
    split
    · rfl
    next idle => exact Option.not_isSome_iff_eq_none.mp idle
  have told : s1.b.fcl.arrivals.map (·.id) = s.b.fcl.arrivals.map (·.id) ++ [25] := by
    show (if s.b.fcl.chipResetDue.isSome then _ else _ : Fcl).arrivals.map (·.id) = _
    split <;> exact List.map_append
  rw [pwr, recd, fcl, lcs, State.refuseWaiting_otp, otp]
  exact ⟨rfl, rfl, rfl, State.cutSession_session s1, rfl, State.refuseTransition_op _, due, told⟩

/-- Sources 28 and 29 follow the hotter sensor. -/
theorem State.tjRead_fields (a b : Int) (s : State) : (s.tjRead a b).b.pwr.tempA = a ∧ (s.tjRead a b).b.pwr.tempB = b ∧
    (s.tjRead a b).b.fcl.cause.getLsbD 28 = decide (max a b > tjLimit - 5) ∧
    (s.tjRead a b).b.fcl.cause.getLsbD 29 = decide (max a b > tjLimit + 5) := by
  unfold State.tjRead
  rw [((Only.thermal (m := 65536) rfl (.refl _ _)).same_of .pwr rfl :)]
  unfold State.thermal
  refine ⟨rfl, rfl, ?_, State.cond_cause 29 _ _ _ _ _ _ (by decide)⟩
  rw [State.cond_cause_other _ _ _ _ _ _ (by decide) (by decide)]
  exact State.cond_cause 28 _ _ _ _ _ _ (by decide)

/-! ### Block resets (R306) -/

theorem State.completeReset_fields {s : State} {k : Block} (wipeOk : Bool) (under : s.b.resetting k = true) :
    let u := s.completeReset k wipeOk
    u.b.resetting k = false ∧ (∀ j, k = .cpr j → u.b.pairOf j = (s.b.pairOf j).reset) ∧ (∀ n, k = .cvu n → u.b.cvuOf n = {}) ∧
      (k = .hif → u.b.hif = {}) ∧ (wipeOk = false → ∃ y ∈ u.b.fcl.arrivals, y.id = 65) := by
  unfold State.completeReset
  rw [if_pos under]
  extract_lets s1
  have out : s1.b.resetting k = false := by
    show (List.filter (· != k) (s.blockFirstUse k).b.inReset).contains k = false
    simp
  have pair : ∀ j, k = .cpr j → s1.b.pairOf j = (s.b.pairOf j).reset := by
    rintro j rfl
    exact State.onPair_pairOf Pair.reset s
  have unit : ∀ n, k = .cvu n → s1.b.cvuOf n = {} := by
    rintro n rfl
    exact State.onCvu_cvuOf n (fun _ => {}) s
  have hif : k = .hif → s1.b.hif = {} := by
    rintro rfl
    rfl
  cases wipeOk
  · exact ⟨out, pair, unit, hif, fun _ => ⟨_, List.mem_append_right _ (List.mem_singleton_self _), rfl⟩⟩
  · exact ⟨out, pair, unit, hif, nofun⟩

end Sys2Proof.Machine

namespace Sys2Proof.Proofs

open Sys2Proof Sys2Proof.Machine

/-- Settles O46: each reset by what its wipe leaves, and the supply by the parts it acts on. -/
theorem resetsAndSupply : Obligations.ResetsAndSupply := by
  intro t s x started
  have starts : ∀ {cause power low u}, u.b.pwr.cause = cause → u.b.pwr.phase = (if low then .resetHeld else .released) →
      u.b.pwr.resetLow = low → Blank x power u → started cause power low u := fun h1 h2 h3 h =>
    ⟨h1, h2, h3, h.1, h.2, h.3, h.4, h.5, h.6, h.7, h.8, h.9, h.10, h.11, h.12, h.13, h.14, h.15, h.16, h.17⟩
  refine ⟨fun k ok under => ?complete, fun due up => ?reaction, fun down => ?recovery, fun n long awake released => ?asserted,
    fun por => ?porEnd, fun r mv out => ?rail, fun a b => ?monitors, fun c up awake released => ?warning, fun down stops => ?flush,
    fun held => ?releases, fun a b => ?sensors⟩
  case complete =>
    have run : exec (.blockResetComplete t k ok) s = .next ((s.tick t).completeReset k ok) := rfl
    obtain ⟨out, pair, unit, hif, raised⟩ := State.completeReset_fields (s := s.tick t) ok under
    exact ⟨_, run, out, pair, unit, hif, raised⟩
  case reaction =>
    have run : exec (.chipResetReaction t) s = .next (((s.tick t).flushAll x.recd.buffer.length).cutSession.chipReset 3) :=
      congrArg Host.Outcome.next (if_pos (by rw [due, up]; rfl))
    have cut : Only 541720578 (s.tick t) ((s.tick t).flushAll x.recd.buffer.length).cutSession :=
      .cutSession rfl (.flushAll _ rfl (.refl _ _))
    have pwr : ((s.tick t).flushAll x.recd.buffer.length).cutSession.b.pwr = ((s.tick t).flushAll x.recd.buffer.length).b.pwr :=
      (Only.cutSession (m := 537395202) rfl (.refl _ _)).same_of .pwr rfl
    obtain ⟨low, count⟩ := (s.tick t).flushAll_pwr x.recd.buffer.length
    obtain ⟨source, phase, resetLow, resets, taken, blank⟩ :=
      ((s.tick t).flushAll x.recd.buffer.length).cutSession.chipReset_fields 3
    rw [pwr, low] at phase resetLow
    rw [pwr, count] at resets
    refine ⟨_, run, starts source phase resetLow (blank.of_same (cut.same_of .agr rfl) (cut.same_of .lifeBits rfl)), ?_, resets⟩
    rw [taken]
    exact congrArg Fcl.chipResetTaken (cut.same_of .fcl rfl)
  case recovery =>
    obtain ⟨source, phase, resetLow, -, -, blank⟩ := (s.tick t).chipReset_fields 5
    exact ⟨_, congrArg Host.Outcome.next (if_pos down), starts source phase resetLow blank⟩
  case asserted =>
    have run : (s.tick t).resetAssert n = ((s.tick t).onPwr fun p => { p with resetLow := true }).cutSession.chipReset 2 := by
      unfold State.resetAssert
      rw [if_neg (by omega), if_neg (Nat.not_lt.mpr long)]
      dsimp only
      rw [if_neg (by simp [long]), if_neg (not_or.mpr ⟨awake, released⟩)]
    have cut : Only 537395202 ((s.tick t).onPwr fun p => { p with resetLow := true }) _ := .cutSession rfl (.refl _ _)
    obtain ⟨source, phase, resetLow, -, -, blank⟩ :=
      ((s.tick t).onPwr fun p => { p with resetLow := true }).cutSession.chipReset_fields 2
    have low := congrArg Pwr.resetLow (cut.same_of .pwr rfl)
    rw [low] at phase resetLow
    exact ⟨_, congrArg Host.Outcome.next run, starts source phase resetLow
      (blank.of_same (cut.same_of .agr rfl) (cut.same_of .lifeBits rfl))⟩
  case porEnd =>
    obtain ⟨phase, resetLow, source, -, rails, -, blank⟩ := State.leave_fields (((s.tick t).wiped true).onPwr fun p =>
      { p with phase := .resetHeld, cause := 1, railsGood := 31
               goodAt := x.now - 2000000 - (Config.porExtra s.draws).val }) rfl
    exact ⟨_, congrArg Host.Outcome.next (if_pos por),
      starts source phase resetLow (blank (((s.tick t).wiped_blank true).onPwr _)), rails⟩
  case rail =>
    exact ⟨_, rfl, (s.tick t).railOut_fields out⟩
  case monitors =>
    refine ⟨_, rfl, ?_⟩
    have rises : a > b + 30 ∨ b > a + 30 ↔ b + 30 < a ∨ a + 30 < b := Iff.rfl
    by_cases far : b + 30 < a ∨ a + 30 < b
    · rw [if_pos (rises.mpr far), if_pos far]
      exact ⟨rfl, rfl, rfl, rfl, List.map_append⟩
    · rw [if_neg (rises.not.mpr far), if_neg far]
      exact ⟨rfl, rfl, rfl, rfl, (List.append_nil _).symm⟩
  case warning =>
    exact ⟨_, rfl, State.supplyWarning_fields (s := s.tick t) c up awake released⟩
  case flush =>
    exact ⟨_, congrArg Host.Outcome.next (if_pos (by rw [down, stops]; rfl)), rfl, rfl⟩
  case releases =>
    have run : (s.tick t).resetRelease = _ := if_pos held
    refine ⟨_, congrArg Host.Outcome.next run, ?_⟩
    rw [State.release_pwr]
    split
    · exact ⟨rfl, rfl, rfl, rfl, rfl, (State.release_collecting _).1⟩
    · exact ⟨rfl, rfl, rfl, rfl, rfl, (State.release_collecting _).1⟩
  case sensors =>
    exact ⟨_, rfl, (s.tick t).tjRead_fields a b⟩

end Sys2Proof.Proofs

/-! SUPPORT. Start-up (R19, R23, R411 to R415): the step of a start that fails, the slots that load, a counter that advances, and the
pace monitors. -/

namespace Sys2Proof.Machine

/-! ### Fiddlehead (R411, R412) -/

/-- The step of fiddlehead that fails first, and its source. -/
def fiddleFails (i : FiddleIn) : Option (Nat × Nat) :=
  if !i.rulerA then some (2, 50) else if !i.rulerB then some (2, 51) else if !i.wipeOk then some (3, 65)
  else if i.flagged ≠ 128 then some (4, 450) else if !i.equalOk then some (4, 451) else if !i.fabricOk then some (5, 498) else none

theorem fiddleFails_none {i : FiddleIn} :
    fiddleFails i = none ↔ i.rulerA ∧ i.rulerB ∧ i.wipeOk ∧ i.flagged = 128 ∧ i.equalOk ∧ i.fabricOk := by
  unfold fiddleFails
  split_ifs <;> simp_all

/-- The start has stopped at a step, with its source. -/
def Stopped (step src : Nat) (u : State) : Prop :=
  u.b.pwr.phase = .stopped ∧ u.b.pwr.stoppedStep = step ∧ u.b.pwr.stopSource = src ∧ ∃ y ∈ u.b.fcl.arrivals, y.id = src

theorem State.stopStart_stopped (step src : Nat) (s : State) : Stopped step src (s.stopStart step src) :=
  ⟨rfl, rfl, rfl, _, List.mem_append_right _ (List.mem_singleton_self _), rfl⟩

theorem State.fiddleSteps_fails {i : FiddleIn} {step src : Nat} (s : State) (h : fiddleFails i = some (step, src)) :
    Stopped step src (s.fiddleSteps i) := by
  unfold State.fiddleSteps
  extract_lets s1 s2 s3 s4
  unfold fiddleFails at h
  split_ifs at h ⊢
  all_goals
    cases h
    exact State.stopStart_stopped _ _ _

theorem State.fiddleSteps_passes {i : FiddleIn} (s : State) (h : fiddleFails i = none) :
    (s.fiddleSteps i).b.pwr.phase = .fiddled := by
  obtain ⟨a, b, wipe, flagged, equal, fabric⟩ := fiddleFails_none.mp h
  unfold State.fiddleSteps
  extract_lets s1 s2 s3 s4
  rw [if_neg (by simp [a]), if_neg (by simp [b]), if_neg (by simp [wipe]), if_neg (not_not.mpr flagged), if_neg (by simp [equal]),
    if_neg (by simp [fabric])]
  split <;> rfl

/-! ### Firmware load (R413 to R415) -/

theorem State.pairRelease_pwr (k : Nat) (s : State) : (s.pairRelease k).b.pwr = s.b.pwr := by
  unfold State.pairRelease
  split <;> rfl

section
variable (s : State) (fiddled : s.b.pwr.phase = .fiddled) (closed : s.b.lcs.scanOpen = false)
include fiddled closed

theorem State.firmwareLoad_slot {k : Nat} {f : FwImage} (chosen : s.b.fwChosen = some k) (slot : s.b.fwSlotOf k = some f) :
    ∃ z fallback, s.firmwareLoad = if f.major = 1 then .next (State.fwRun k f fallback z) else .fault .outsideThisEdition := by
  unfold State.firmwareLoad
  rw [if_neg (by simp [fiddled, closed]), chosen]
  dsimp only
  rw [slot]
  exact ⟨_, _, rfl⟩

theorem State.firmwareLoad_rejected (rejected : s.b.fwChosen = none) : ∃ z : State, s.firmwareLoad = .next (z.stopStart 6 27) := by
  unfold State.firmwareLoad
  rw [if_neg (by simp [fiddled, closed]), rejected]
  exact ⟨_, rfl⟩

end

/-! ### Counters (R376) -/

theorem foldl_max_succ (l : List Nat) (a : Nat) : l.foldl (fun m i => max m (i + 1)) a = max a (l.foldl (fun m i => max m (i + 1)) 0) := by
  induction l generalizing a with
  | nil => exact (Nat.max_zero a).symm
  | cons x l ih =>
    rw [List.foldl_cons, List.foldl_cons, ih, ih (max 0 (x + 1))]
    omega

/-- A counter that is not exhausted rises by one (R376). -/
theorem State.cntAdvance_cntValue {k : Nat} {s : State} (h : s.b.cntExhausted k = false) :
    (s.cntAdvance k).b.cntValue k = s.b.cntValue k + 1 := by
  have burned : (s.cntAdvance k).b.cntBurned k = s.b.cntValue k :: s.b.cntBurned k := by
    unfold State.cntAdvance
    rw [if_neg (by rw [h]; exact Bool.false_ne_true)]
    exact congrArg (· ++ nget s.b.otp.cntMarg k []) (nget_nupd_same s.b.otp.counters k [] fun l => s.b.cntValue k :: l)
  rw [Blocks.cntValue, burned, List.foldl_cons, foldl_max_succ, Nat.zero_max]
  exact Nat.max_eq_left (Nat.le_succ _)

/-! ### Pace monitors (R23) -/

/-- What the monitors of one window counted: channel A's eight, then channel B's. -/
def paceAt (a b : List Nat) (i : Nat) : Option Nat := if i < 8 then a[i]? else b[i - 8]?

/-- Monitor `i` shows a count, with its bit and its source. -/
def PaceShows (i p : Nat) (s : State) : Prop :=
  nget s.b.pwr.paces i 0 = min p 255 ∧ s.b.pwr.slow.getLsbD i = decide (p < 100) ∧ s.b.fcl.cause.getLsbD (32 + i) = decide (p < 100)

/-- The window of one monitor. -/
def State.paceOne (a b : List Nat) (i : Nat) (s : State) : State :=
  match paceAt a b i with
  | none => s
  | some p =>
    (s.onPwr fun w =>
      { w with
        paces := nset w.paces i (min p 255) 0
        lows := nset w.lows i (if nget w.lows i 0 = 0 then min p 255 + 1 else min (nget w.lows i 0) (min p 255 + 1)) 0
        slow := setb w.slow i (decide (p < 100)) }).cond (32 + i) (decide (p < 100)) (mkw (min p 255))

theorem State.paceWindow_eq (a b : List Nat) (s : State) : s.paceWindow a b = forN 16 (State.paceOne a b) s := rfl

section
variable {a b : List Nat} {i p : Nat} {s : State}

theorem State.paceOne_shows (hi : i < 16) (counted : paceAt a b i = some p) : PaceShows i p (s.paceOne a b i) := by
  unfold State.paceOne
  rw [counted]
  dsimp only
  refine ⟨?_, ?_, State.cond_cause _ _ _ _ _ _ _ (by omega)⟩
  · rw [State.cond_pwr]
    exact nget_nset_same _ _ _ _
  · rw [State.cond_pwr]
    exact getLsbD_setb_self _ _ _ hi

theorem PaceShows.paceOne {j q : Nat} (hi : i < 16) (apart : i ≠ j) (h : PaceShows j q s) : PaceShows j q (s.paceOne a b i) := by
  unfold State.paceOne
  split
  · exact h
  · obtain ⟨pace, bit, cause⟩ := h
    refine ⟨?_, ?_, (State.cond_cause_other _ _ _ _ _ _ (by omega) (by omega)).trans cause⟩
    · rw [State.cond_pwr, ← pace]
      exact nget_nset_other _ _ _ apart
    · rw [State.cond_pwr, ← bit]
      exact (getLsbD_setb _ _ _ _ hi).trans (if_neg apart)

theorem State.paceWindow_shows (n : Nat) (hn : n ≤ 16) :
    ∀ i < n, ∀ p, paceAt a b i = some p → PaceShows i p (forN n (State.paceOne a b) s) := by
  induction n with
  | zero => exact fun i hi => absurd hi (Nat.not_lt_zero i)
  | succ n ih =>
    intro i hi p counted
    obtain before | rfl := Nat.lt_succ_iff_lt_or_eq.mp hi
    · exact (ih (by omega) i before p counted).paceOne (by omega) (by omega)
    · exact State.paceOne_shows (by omega) counted

end

end Sys2Proof.Machine

namespace Sys2Proof.Proofs

open Sys2Proof Sys2Proof.Machine

/-- Settles O47: each phase of the start by the first step that fails. -/
theorem startUp : Obligations.StartUp := by
  intro t s x
  refine ⟨fun i released => ?fiddlehead, fun fiddled closed => ⟨fun k f chosen slot => ⟨fun major => ?runs, fun major => ?outside⟩,
    fun rejected => ?rejected⟩, fun loaded image live life behind room => ?counter, fun a b rulers => ?pace, fun on => ?stopA,
    fun on => ?stopB⟩
  case fiddlehead =>
    have run : exec (.fiddlehead t i) s = .next _ := congrArg Host.Outcome.next (if_neg (not_not.mpr released))
    refine ⟨_, run, rfl, ?_, fun step src fails => ?_⟩
    · obtain passes | ⟨⟨step, src⟩, fails⟩ := Option.eq_none_or_eq_some (fiddleFails i)
      · rw [if_pos (fiddleFails_none.mp passes)]
        exact State.fiddleSteps_passes _ passes
      · rw [if_neg (fun good => Option.some_ne_none _ (fails.symm.trans (fiddleFails_none.mpr good)))]
        exact (State.fiddleSteps_fails _ fails).1
    · exact (State.fiddleSteps_fails _ fails).2
  case runs =>
    obtain ⟨z, fallback, loads⟩ := (s.tick t).firmwareLoad_slot fiddled closed chosen slot
    have run : exec (.firmwareLoad t) s = .next (z.fwRun k f fallback) := loads.trans (if_pos major)
    refine ⟨_, run, ?_⟩
    rw [State.fwRun, State.pairRelease_pwr]
    exact ⟨rfl, rfl, rfl, rfl, rfl, rfl⟩
  case outside =>
    obtain ⟨z, fallback, loads⟩ := (s.tick t).firmwareLoad_slot fiddled closed chosen slot
    exact loads.trans (if_neg major)
  case rejected =>
    obtain ⟨z, stops⟩ := (s.tick t).firmwareLoad_rejected fiddled closed rejected
    exact ⟨_, stops, State.stopStart_stopped 6 27 z⟩
  case counter =>
    have due : (x.pwr.fwLoaded && x.cfg.image.isSome && !x.cfg.dry && x.life != .blank && decide (x.cntValue 0 < x.pwr.fwSec)) = true := by
      simp [loaded, image, live, life, behind]
    exact ⟨_, congrArg Host.Outcome.next (if_pos due), State.cntAdvance_cntValue room⟩
  case pace =>
    refine ⟨_, congrArg Host.Outcome.next (if_pos (Bool.or_eq_true_iff.mpr rulers)),
      fun i p hi counted => State.paceWindow_shows 16 le_rfl i hi p counted⟩
  case stopA => exact ⟨_, congrArg Host.Outcome.next (if_pos on), rfl, rfl, on, List.map_append⟩
  case stopB => exact ⟨_, congrArg Host.Outcome.next (if_pos on), rfl, rfl, on, List.map_append⟩

end Sys2Proof.Proofs

/-! SUPPORT. The recorder's store (R325 to R337): what records leave of it, what a program, an erase and the search at start do, and what
clearing and signed copies read of it. -/

namespace Sys2Proof.Machine

/-! ### What records leave of the recorder (R328) -/

/-- The recorder without what a record made changes: its number and the buffers, the windows that it overtakes, what is lost. -/
def Recorder.store (r : Recorder) : Recorder :=
  { r with lostNow := 0, windows := [], seq := 0, ring := [], buffer := [], lastCrc := 0, lastSeq := 0, lost := {}, bufPeak := 0
           stuck := false }

/-- `u` comes from `s` with no more than records made. -/
structure Stores (s u : State) : Prop where
  kept : u.b.recd.store = s.b.recd.store
  posts : Posts s u

namespace Stores
variable {s u v : State}

theorem trans (h : Stores s u) (g : Stores u v) : Stores s v := ⟨g.kept.trans h.kept, h.posts.trans g.posts⟩

theorem refl (s : State) : Stores s s := ⟨rfl, .refl s⟩

theorem raise (i : Nat) (d : Word) (z : Option Nat) (n : Nat) (k : Option Block) (s : State) : Stores s (s.raise i d z n k) :=
  ⟨rfl, .raise ..⟩

theorem cond (i : Nat) (v : Bool) (d : Word) (z : Option Nat) (n : Nat) (k : Option Block) (s : State) :
    Stores s (s.cond i v d z n k) := ⟨by rw [State.cond_recd], .cond ..⟩

theorem ite {c : Prop} [Decidable c] (hu : Stores s u) (hv : Stores s v) : Stores s (if c then u else v) := by
  split <;> assumption

/-- A field that records leave. -/
theorem same {α : Type} (h : Stores s u) (g : Recorder → α) (hg : ∀ r : Recorder, g r.store = g r := by exact fun _ => rfl) :
    g u.b.recd = g s.b.recd := (hg _).symm.trans ((congrArg g h.kept).trans (hg _))

theorem enterRecord (x : Record) (s : State) : Stores s (s.enterRecord x) := by
  refine ⟨?_, .enterRecord x s⟩
  unfold State.enterRecord
  extract_lets r seq y lost s1 s2 s3
  have entered : s1.b.recd.store = s.b.recd.store := by
    simp only [s1]
    split <;> rfl
  have told : s3.b.recd = s1.b.recd := by
    simp only [s3]
    split <;> rfl
  split <;> exact (congrArg Recorder.store told).trans entered

theorem makeRecord (priority : Bool) (x : Record) (s : State) : Stores s (s.makeRecord priority x) := by
  have lost : Stores s s.loseRecord := ⟨rfl, .of_fcl rfl⟩
  have held : Stores s (s.holdRecord x) := ⟨rfl, .of_fcl rfl⟩
  have stuck : Stores s (s.onRecd fun r => { r with stuck := true }).loseRecord := ⟨rfl, .of_fcl rfl⟩
  have entered := enterRecord x s
  exact ite lost (ite (ite lost held) (ite (stuck.trans (raise ..)) (ite entered (ite lost entered))))

theorem recordWith (trig : Nat) (detail : List Byte) (priority : Bool) (ok : Profile → Bool) (flags : Byte) (s : State) :
    Stores s (s.recordWith trig detail priority ok flags) := by
  unfold State.recordWith
  dsimp only
  split
  · exact makeRecord ..
  · exact ite (refl s) (makeRecord ..)

theorem record (trig : Nat) (detail : List Byte) (s : State) : Stores s (s.record trig detail) := recordWith ..

theorem forL {α : Type} {f : α → State → State} (l : List α) (hf : ∀ x s, Stores s (f x s)) (s : State) : Stores s (forL l f s) := by
  induction l generalizing s with
  | nil => exact refl s
  | cons x l ih => exact (hf x s).trans (ih (f x s))

theorem lifeRecordAtStart (newest : Option Record) (s : State) : Stores s (s.lifeRecordAtStart newest) := by
  unfold State.lifeRecordAtStart
  split
  · exact ite ((record ..).trans (raise ..)) (refl s)
  · exact refl s

end Stores

/-! ### The recorder turns volatile (R335) -/

theorem State.cntAdvance_recd (k : Nat) (s : State) : (s.cntAdvance k).b.recd = s.b.recd :=
  (Only.cntAdvance (m := 589824) k rfl (.refl _ s)).same_of .recd rfl

theorem Posts.cntAdvance (k : Nat) (s : State) : Posts s (s.cntAdvance k) := by
  unfold State.cntAdvance
  exact .ite (.raise ..) (.of_fcl rfl)

/-- A failure of the NAND: the recorder is volatile, and nothing that was raised is lost. -/
theorem State.nandFail_fields (cause : Nat) (s : State) :
    (s.nandFail cause).b.recd.isVolatile = true ∧ (s.nandFail cause).b.recd.nand = s.b.recd.nand ∧
      (s.nandFail cause).b.recd.retired = s.b.recd.retired ∧ Posts s (s.nandFail cause) := by
  unfold State.nandFail
  split
  next already => exact ⟨already, rfl, rfl, .refl s⟩
  · extract_lets s1
    have recd : s1.b.recd = { s.b.recd with isVolatile := true, clearErasing := false } := State.cntAdvance_recd 2 _
    have made : Stores s1 ((s1.record 0x0E [Config.recorderFailure cause, BitVec.ofNat 8 (32 - s1.b.cntValue 2)]).cond 488 true
        (mkw cause)) := (Stores.record ..).trans (.cond ..)
    refine ⟨(made.same (·.isVolatile)).trans ?_, (made.same (·.nand)).trans ?_, (made.same (·.retired)).trans ?_, ?_⟩
    · rw [recd]
    · rw [recd]
    · rw [recd]
    · have first : Posts s s1 :=
        .trans (u := s.onRecd fun r => { r with isVolatile := true, clearErasing := false }) (.of_fcl rfl) (.cntAdvance 2 _)
      exact first.trans made.posts

/-! ### A program (R329, R335) -/

theorem Blocks.nandOn_live {b : Blocks} (on : b.nandOn = true) : b.recd.isVolatile = false := by
  simp only [Blocks.nandOn, Bool.and_eq_true, Bool.not_eq_true'] at on
  exact on.1.2

/-- A program of the oldest record: its slot, and where it is in the order of the buffer. -/
theorem Recorder.program_fields {r : Recorder} {y : Record} {rest : List Record} (ok : Bool) (oldest : r.buffer = y :: rest) :
    (r.program ok).nand = nset r.nand (r.slotFor y.seq)
        (some { record := y.placed (r.slotFor y.seq) (r.prevFor y.seq), marked := ok }) none ∧
      (r.program ok).isVolatile = r.isVolatile ∧
      (ok = true → (r.program ok).buffer = rest ∧ (r.program ok).lastSeq = y.seq ∧ (r.program ok).failsInRow = 0) ∧
      (ok = false → (r.program ok).buffer = r.buffer ∧ (r.program ok).failsInRow = r.failsInRow + 1) := by
  have used : ∀ k, (r.usedSlot k).isVolatile = r.isVolatile ∧ (r.usedSlot k).buffer = r.buffer := fun k => by
    unfold Recorder.usedSlot
    split <;> exact ⟨rfl, rfl⟩
  obtain ⟨live, buffer⟩ := used (r.slotFor y.seq)
  unfold Recorder.program
  rw [oldest]
  cases ok
  · exact ⟨rfl, live, nofun, fun _ => ⟨buffer.trans oldest, rfl⟩⟩
  · exact ⟨rfl, live, fun _ => ⟨rfl, rfl, rfl⟩, nofun⟩

/-! ### Erases (R335, R336) -/

theorem nget_filter {α : Type} (m : NMap α) (p : Nat → Bool) (k : Nat) (d : α) :
    nget (m.filter fun e => p e.1) k d = if p k then nget m k d else d := by
  induction m with
  | nil => exact (ite_self d).symm
  | cons e m ih =>
    obtain ⟨i, v⟩ := e
    rw [List.filter_cons]
    by_cases hk : i = k
    · subst hk
      by_cases hp : p i
      · rw [if_pos hp, if_pos hp]
        rw [nget, if_pos rfl, nget, if_pos rfl]
      · rw [if_neg hp, ih, if_neg hp, if_neg hp]
    · have skip : nget ((i, v) :: m) k d = nget m k d := if_neg hk
      rw [skip]
      split
      · exact (if_neg hk).trans ih
      · exact ih

theorem Recorder.emptied_nand (r : Recorder) (block k : Nat) :
    nget (r.emptied block).nand k none = if slotBlock k = block then none else nget r.nand k none := by
  refine (nget_filter r.nand (fun k => slotBlock k != block) k none).trans ?_
  by_cases h : slotBlock k = block
  · rw [if_pos h, if_neg (by simp [h])]
  · rw [if_neg h, if_pos (by simp [h])]

section
variable {s : State} {y : Record} {rest : List Record} (on : s.b.nandOn = true) (oldest : s.b.recd.buffer = y :: rest)
include on oldest

theorem State.nandProgram_runs (ok : Bool) (accepts : s.b.recd.accepting = true) (erased : s.b.recd.needsErase = false) :
    ∃ z : State, z.b.recd = (s.b.recd.overtake fun k => k == s.b.recd.slotFor y.seq).program ok ∧
      s.nandProgram ok = if z.b.recd.failsInRow ≥ 3 then z.nandFail 3 else z := by
  unfold State.nandProgram
  rw [oldest]
  exact ⟨_, rfl, if_pos (by rw [on, accepts, erased]; rfl)⟩

theorem State.blockErased_runs {block : Nat} (waits : s.b.recd.needsErase = true) (own : slotBlock (s.b.recd.slotFor y.seq) = block) :
    s.blockErased block true = (s.onRecd fun r => r.emptied block).wearCheck block ∧
      ∃ z : State, z.b.fcl.arrivals = s.b.fcl.arrivals ++ [⟨493, true, mkw block, none, 0, none⟩] ∧
        z.b.recd.nand = (s.b.recd.emptied block).nand ∧
        z.b.recd.retired = (if s.b.recd.retired.contains block then s.b.recd.retired else block :: s.b.recd.retired) ∧
        s.blockErased block false = if z.b.recd.rollingRetired > 64 then z.nandFail 2 else z := by
  have due : (s.b.nandOn && (match s.b.recd.buffer with
      | x :: _ => s.b.recd.needsErase && slotBlock (s.b.recd.slotFor x.seq) == block
      | [] => false)) = true := by
    rw [oldest, on, waits]
    exact beq_iff_eq.mpr own
  exact ⟨if_pos due, _, rfl, rfl, rfl, if_pos due⟩

end

/-- The erase that reaches 96,000 of a rolling block raises source 490. -/
theorem State.wearCheck_fields (block : Nat) (s : State) : (s.wearCheck block).b.recd = s.b.recd ∧
    (s.wearCheck block).b.fcl.arrivals.map (·.id) = s.b.fcl.arrivals.map (·.id) ++
      if nget s.b.recd.erases block 0 = 96000 ∧ 256 ≤ block then [490] else [] := by
  unfold State.wearCheck
  split
  · exact ⟨rfl, List.map_append⟩
  · exact ⟨rfl, (List.append_nil _).symm⟩

/-! ### The search at start (R25, R51, R223, R331) -/

/-- The search that ends, before the records of the start are made. -/
def State.found (s : State) : State :=
  let r0 := { s.b.recd with clearedBelow := s.b.recd.newestClear }
  let newest := newestOf r0.usable
  (((s.onRecd fun _ => r0.recovered newest s.b.hintSeq).onTru fun u =>
    { u with opBase := match newest with | some x => x.opTime | none => 0, baseValid := true }).onTsy fun y =>
      { y with floorCell := cellFloor r0.usable }).onSys fun y =>
        { y with nextNumber := nextSentence (max s.b.hintSentence (match newest with | some x => x.sentence | none => 0)) }

theorem State.headFound_found {s : State} (searching : s.b.recd.headFound = false) (rulers : s.b.tru.aRunning = true) :
    Stores s.found s.headFound ∧ Only 37945344 s.found s.headFound := by
  unfold State.headFound
  rw [if_neg (by rw [searching, rulers]; exact Bool.false_ne_true)]
  extract_lets src r0 usable newest held base s1 cycles s2 s3 s4
  have first : Stores s.found s1 ∧ Only 37945344 s.found s1 := ⟨.cond .., .cond _ _ _ _ _ _ rfl (.refl _ _)⟩
  have powered : Stores s1 s2 ∧ Only 37945344 s.found s2 :=
    ⟨(Stores.ite (.refl s1) (.raise ..)).trans (.record ..), .powerUpRecord rfl (.ite first.2 (.raise _ _ _ _ _ rfl first.2))⟩
  have entered : Stores s2 s3 ∧ Only 37945344 s.found s3 :=
    ⟨.forL held (fun x z => .makeRecord ..) s2, .forL _ (fun x z h => .enterHeld _ _ _ rfl h) powered.2⟩
  have numbered : Stores s3 s4 ∧ Only 37945344 s.found s4 :=
    ⟨(Stores.ite (.raise ..) (.refl s3)).trans (.lifeRecordAtStart ..),
      .lifeRecordAtStart _ rfl (.ite (.raise _ _ _ _ _ rfl entered.2) entered.2)⟩
  have all : Stores s.found s4 := ((first.1.trans powered.1).trans entered.1).trans numbered.1
  clear_value s4 s3 s2 cycles s1 base newest
  split
  · exact ⟨all.trans (.ite (.raise ..) (.refl s4)), .ite (.raise _ _ _ _ _ rfl numbered.2) numbered.2⟩
  · exact ⟨all, numbered.2⟩

end Sys2Proof.Machine

namespace Sys2Proof.Proofs

open Sys2Proof Sys2Proof.Machine

/-- Settles O48: what each completion leaves of the store; records made on the way leave it. -/
theorem recorderStore : Obligations.RecorderStore := by
  intro t s r
  refine ⟨fun ok y rest on accepts oldest erased => ?program, fun block ok y rest on oldest waits own => ?erase, fun on => ?timeout,
    fun searching rulers => ?search⟩
  case program =>
    intro slot
    obtain ⟨nand, live, written, failed⟩ := Recorder.program_fields (r := r.overtake fun k => k == slot) ok oldest
    obtain ⟨z, recd, run⟩ := State.nandProgram_runs (s := s.tick t) on oldest ok accepts erased
    have recd : z.b.recd = (r.overtake fun k => k == slot).program ok := recd
    obtain ⟨volatile, same, -⟩ := z.nandFail_fields 3
    have stored : ((s.tick t).nandProgram ok).b.recd.nand = z.b.recd.nand := by
      rw [run]
      split
      · exact same
      · rfl
    have quiet : z.b.recd.failsInRow < 3 → (s.tick t).nandProgram ok = z := fun few => run.trans (if_neg (Nat.not_le.mpr few))
    have alive : z.b.recd.isVolatile = false := by
      rw [recd, live]
      exact s.b.nandOn_live on
    refine ⟨_, rfl, ?_, fun k hk => ?_, fun good => ?_, fun bad few => ?_, fun bad third => ?_⟩
    · rw [stored, recd, nand]
      exact nget_nset_same _ _ _ _
    · rw [stored, recd, nand]
      exact nget_nset_other _ _ _ (Ne.symm hk)
    · obtain ⟨buffer, last, fails⟩ := written good
      rw [quiet (by rw [recd, fails]; decide), alive, recd]
      exact ⟨buffer, last, fails, rfl⟩
    · obtain ⟨buffer, fails⟩ := failed bad
      rw [quiet (by rw [recd, fails]; exact Nat.succ_lt_succ few), alive, recd]
      exact ⟨buffer, fails, rfl⟩
    · have many : z.b.recd.failsInRow ≥ 3 := by
        rw [recd, (failed bad).2]
        exact Nat.succ_le_succ third
      rw [run, if_pos many]
      exact volatile
  case erase =>
    obtain ⟨good, z, arrivals, nand, retired, bad⟩ := State.blockErased_runs (s := s.tick t) on oldest waits own
    have emptied := (s.tick t).b.recd.emptied_nand block
    cases ok
    case true =>
      obtain ⟨recd, told⟩ := ((s.tick t).onRecd fun r => r.emptied block).wearCheck_fields block
      have count : ∀ k, nget ((s.tick t).b.recd.emptied block).erases k 0 = nget r.erases k 0 + if k = block then 1 else 0 := fun k => by
        refine (nget_nupd r.erases block k 0 (· + 1)).trans ?_
        by_cases hk : block = k
        · rw [if_pos hk, if_pos hk.symm, hk]
        · rw [if_neg hk, if_neg (Ne.symm hk), Nat.add_zero]
      refine ⟨_, congrArg Host.Outcome.next good, ?_, fun _ => ?_, nofun⟩
      · rw [recd]
        exact emptied
      · rw [recd, told]
        refine ⟨rfl, rfl, count, ?_⟩
        rw [show nget ((s.tick t).onRecd fun r => r.emptied block).b.recd.erases block 0 = nget r.erases block 0 + 1 from
          (count block).trans (by rw [if_pos rfl])]
        rfl
    case false =>
      obtain ⟨volatile, sameNand, sameRetired, posts⟩ := z.nandFail_fields 2
      have kept : ((s.tick t).blockErased block false).b.recd.nand = z.b.recd.nand ∧
          ((s.tick t).blockErased block false).b.recd.retired = z.b.recd.retired ∧ Posts z ((s.tick t).blockErased block false) := by
        rw [bad]
        split
        · exact ⟨sameNand, sameRetired, posts⟩
        · exact ⟨rfl, rfl, .refl z⟩
      obtain ⟨keptNand, keptRetired, keptPosts⟩ := kept
      refine ⟨_, rfl, ?_, nofun, fun _ => ⟨?_, fun k hk => ?_, ?_, fun many => ?_⟩⟩
      · rw [keptNand, nand]
        exact emptied
      · rw [keptRetired, retired]
        split
        next listed => exact List.contains_iff_mem.mp listed
        · exact List.mem_cons_self
      · rw [keptRetired, retired]
        split
        · exact hk
        · exact List.mem_cons_of_mem _ hk
      · refine ⟨_, keptPosts.mem (arrivals ▸ List.mem_append_right _ (List.mem_singleton_self _)), rfl⟩
      · rw [bad]
        rw [Recorder.rollingRetired, keptRetired] at many
        rw [if_pos (show z.b.recd.rollingRetired > 64 from many)]
        exact volatile
  case timeout =>
    obtain ⟨volatile, nand, -⟩ := (s.tick t).nandFail_fields 1
    exact ⟨_, congrArg Host.Outcome.next (if_pos on), volatile, nand⟩
  case search =>
    intro r0 newest
    obtain ⟨records, only⟩ := State.headFound_found (s := s.tick t) searching rulers
    have tru := only.same_of .tru rfl
    have tsy := only.same_of .tsy rfl
    have sys := only.same_of .sys rfl
    exact ⟨_, rfl, records.same (·.headFound), records.same (·.isVolatile), records.same (·.nand), records.same (·.clearedBelow),
      records.same (·.powerCycles), congrArg (·.baseValid) tru, congrArg (·.opBase) tru, congrArg (·.floorCell) tsy,
      congrArg (·.nextNumber) sys⟩

end Sys2Proof.Proofs

/-! SUPPORT. The recorder's commands (R325, R333, R334, R337): clearing and exports. -/

namespace Sys2Proof.Machine

/-! ### Clearing (R334) -/

/-- An accepted clear: the rolling area counts as cleared up to the newest record, and the store stays until its erase. -/
theorem State.clearRolling_fields (rd : Reader) (method owner : Nat) (s : State) :
    (s.clearRolling rd method owner).b.recd.clearedBelow = s.b.recd.seq + 1 ∧
      (s.clearRolling rd method owner).b.recd.clearErasing = true ∧
      (s.clearRolling rd method owner).b.recd.nand = s.b.recd.nand :=
  ⟨rfl, rfl, (Stores.record 0x06 _ s).same (·.nand)⟩

/-- The background erase empties the blocks of a list. -/
theorem State.clearErased_nand (l : List Nat) (s : State) (k : Nat) :
    nget (forL l (fun k s => (s.onRecd fun r => r.emptied k).wearCheck k) s).b.recd.nand k none =
        (if slotBlock k ∈ l then none else nget s.b.recd.nand k none) ∧
      (forL l (fun k s => (s.onRecd fun r => r.emptied k).wearCheck k) s).b.recd.clearErasing = s.b.recd.clearErasing := by
  induction l generalizing s with
  | nil => exact ⟨(if_neg List.not_mem_nil).symm, rfl⟩
  | cons x l ih =>
    obtain ⟨nand, erasing⟩ := ih ((s.onRecd fun r => r.emptied x).wearCheck x)
    obtain ⟨recd, -⟩ := (s.onRecd fun r => r.emptied x).wearCheck_fields x
    rw [recd] at nand erasing
    refine ⟨nand.trans ?_, erasing⟩
    rw [show nget (s.onRecd fun r => r.emptied x).b.recd.nand k none = _ from s.b.recd.emptied_nand x k]
    by_cases hx : slotBlock k = x
    · rw [if_pos hx, ite_self, if_pos (List.mem_cons.mpr (.inl hx))]
    · rw [if_neg hx]
      exact if_congr (by rw [List.mem_cons, or_iff_right hx]) rfl rfl

/-! ### Exports (R337) -/

/-- A signed copy that completes, by whether each of its records can still be read. -/
theorem State.exportFinish_fields {rd : Nat} {s : State} (forming : (nget s.b.recd.exports rd {}).state = 1) :
    let e := nget s.b.recd.exports rd {}
    let f := nget (s.exportFinish rd).b.recd.exports rd {}
    (∀ q, q ≠ rd → nget (s.exportFinish rd).b.recd.exports q {} = nget s.b.recd.exports q {}) ∧ f.seqs = e.seqs ∧
      if ∀ q ∈ e.seqs, (s.b.recd.find q).state = 1 then f.state = 2 ∧ f.header = s.b.exportHeader e ∧
        f.hash = Config.sha256 (f.header ++ e.seqs.flatMap fun q => (s.b.recd.find q).data) ∧ f.sig = s.b.sign f.hash
      else f.state = 3 := by
  intro e f
  have own : ∀ g : Export → Export, nget (s.onExport rd g).b.recd.exports rd {} = g e := fun g => nget_nupd_same _ _ _ g
  have others : ∀ (g : Export → Export) (q : Nat), q ≠ rd →
      nget (s.onExport rd g).b.recd.exports q {} = nget s.b.recd.exports q {} := fun g q hq =>
    (nget_nupd s.b.recd.exports rd q {} g).trans (if_neg (Ne.symm hq))
  have readable : e.seqs.all s.b.recd.readable = true ↔ ∀ q ∈ e.seqs, (s.b.recd.find q).state = 1 := by
    rw [List.all_eq_true]
    exact forall₂_congr fun q _ => beq_iff_eq
  by_cases all : ∀ q ∈ e.seqs, (s.b.recd.find q).state = 1
  · have run : s.exportFinish rd = _ := (if_neg (not_not.mpr forming)).trans (if_pos (readable.mpr all))
    rw [if_pos all]
    unfold f
    rw [run, own]
    exact ⟨others _, rfl, rfl, rfl, rfl, rfl⟩
  · have run : s.exportFinish rd = _ := (if_neg (not_not.mpr forming)).trans (if_neg (readable.not.mpr all))
    rw [if_neg all]
    unfold f
    rw [run, own]
    exact ⟨others _, rfl, rfl⟩

end Sys2Proof.Machine

namespace Sys2Proof.Proofs

open Sys2Proof Sys2Proof.Machine

/-- Settles O49: each command by its gate, and the erase by the blocks it empties. -/
theorem recorderCommands : Obligations.RecorderCommands := by
  intro t rd w tok s x method owner ok e
  have known : rd.port ≠ 3 → method = 1 ∨ method = 2 → (s.tick t).recClear rd w = if x.recd.isVolatile || x.recd.clearErasing then
      ((s.tick t).newNonce rd.idx, rRefused) else if ok then (((s.tick t).newNonce rd.idx).clearRolling rd method owner, rDone)
      else (((s.tick t).newNonce rd.idx).raise 8 (mkw rd.idx), rNotAuth) := fun port good =>
    (if_neg port).trans (if_neg fun h => good.elim h.1 h.2)
  have works : rd.port ≠ 3 → method = 1 ∨ method = 2 → s.b.recd.isVolatile = false → s.b.recd.clearErasing = false →
      (s.tick t).recClear rd w = if ok then (((s.tick t).newNonce rd.idx).clearRolling rd method owner, rDone)
        else (((s.tick t).newNonce rd.idx).raise 8 (mkw rd.idx), rNotAuth) := fun port good live idle => by
    have free : ¬ (x.recd.isVolatile || x.recd.clearErasing) = true := by
      rw [show x.recd.isVolatile = false from live, show x.recd.clearErasing = false from idle]
      exact Bool.false_ne_true
    exact (known port good).trans (if_neg free)
  have counted : 1 ≤ e.count → e.count ≤ 1024 → ¬ (e.count < 1 ∨ 1024 < e.count) := fun least most => by omega
  have may : e.state ≠ 1 → (!x.keyUsable || e.state == 1) = !x.keyUsable := fun idle => by
    rw [beq_eq_false_iff_ne.mpr idle, Bool.or_false]
  refine ⟨fun reaches => ?window, fun takes => ⟨fun port => ?port, fun port m1 m2 => ?method, fun port good => ⟨fun busy => ?busy,
    fun live idle => ⟨fun denied => ?denied, fun granted => ?granted⟩⟩, ?request⟩, fun erasing => ?erased,
    fun takes => ⟨fun bad => ?count, fun least most idle => ⟨fun key => ?begins, fun key => ?noKey⟩, ?abandon⟩, fun forming => ?complete⟩
  case window =>
    have run : exec (.recWindowLoad t rd w) s = .next (((s.tick t).windowLoad rd.idx w).1.result rd pREC rDone) :=
      congrArg Host.Outcome.next (State.plain_reaches (s := s.tick t) _ reaches)
    have own : nget ((s.tick t).windowLoad rd.idx w).1.b.recd.windows rd.idx {} =
        x.windowFor (fld w 15 0 * 2 ^ 32 + (s.b.own rd.idx (pREC + 0x128)).toNat) := nget_nset_same _ _ _ _
    refine ⟨_, run, own, fun searching => ?_, fun q hq => nget_nset_other _ _ _ (Ne.symm hq), nget_nset_same _ _ _ _⟩
    rw [own, Blocks.windowFor, show x.recd.headFound = false from searching]
    rfl
  case port => exact next_of_takes takes (if_pos port)
  case method => exact next_of_takes takes ((if_neg port).trans (if_pos ⟨m1, m2⟩))
  case busy =>
    have stands : (x.recd.isVolatile || x.recd.clearErasing) = true := Bool.or_eq_true_iff.mpr busy
    exact next_of_takes takes ((known port good).trans (if_pos stands))
  case denied => exact next_of_takes takes ((works port good live idle).trans (if_neg (by rw [denied]; exact Bool.false_ne_true)))
  case granted =>
    exact ⟨_, next_of_takes takes ((works port good live idle).trans (if_pos granted)),
      ((s.tick t).newNonce rd.idx).clearRolling_fields rd method owner⟩
  case request => exact next_of_takes takes rfl
  case erased =>
    have run : exec (.clearEraseComplete t) s = .next _ := congrArg Host.Outcome.next (if_pos erasing)
    refine ⟨_, run, ?_, fun k => ?_⟩
    · exact (State.clearErased_nand _ _ 0).2
    · exact (State.clearErased_nand _ _ k).1
  case count => exact next_of_takes takes (if_pos bad)
  case begins =>
    have free : (!x.keyUsable || e.state == 1) = false := (may idle).trans (by rw [show x.keyUsable = true from key]; rfl)
    exact next_of_takes takes ((if_neg (counted least most)).trans (if_neg fun h => Bool.false_ne_true (free.symm.trans h)))
  case noKey =>
    have stands : (!x.keyUsable || e.state == 1) = true := (may idle).trans (by rw [show x.keyUsable = false from key]; rfl)
    exact next_of_takes takes ((if_neg (counted least most)).trans ((if_pos stands).trans (congrArg (·, rRefused) (if_neg idle))))
  case abandon => exact next_of_takes takes rfl
  case complete => exact ⟨_, rfl, State.exportFinish_fields (s := s.tick t) forming⟩

end Sys2Proof.Proofs

/-! SUPPORT. Spore sequencers (R341 to R353): what a start, an abort and a last step leave of a sequencer. -/

namespace Sys2Proof.Machine

section
variable {s : State} {c : Ch} {r : Running}

@[simp] theorem State.onSeqr_seq (c : Ch) (f : Seqr → Seqr) (s : State) : (s.onSeqr c f).b.bst.seq c = f (s.b.bst.seq c) := by
  cases c <;> rfl

@[simp] theorem State.onSeqr_other (c : Ch) (f : Seqr → Seqr) (s : State) :
    (s.onSeqr c f).b.bst.seq c.other = s.b.bst.seq c.other := by
  cases c <;> rfl

/-! ### A start (R343) -/

/-- A spore starts in a window that leaves it the guard before the next capture. -/
theorem Blocks.mayStart_ends {b : Blocks} {i : Nat} (may : b.mayStart c i = true) :
    b.now + sporeDur (kindOf i) + 5000 ≤ b.nextCapture := by
  simp only [Blocks.mayStart, Blocks.windowOpen, Bool.and_eq_true, decide_eq_true_eq] at may
  obtain ⟨⟨-, ⟨⟨-, room⟩, -⟩⟩, -⟩ := may
  split at room <;> omega

/-- The sequencer as spore `i` starts. -/
def State.sporeBegun (c : Ch) (i : Nat) (s : State) : State :=
  s.onSeqr c fun q =>
    { q with running := some { index := i, start := s.b.now, forced := q.force }, lastStart := some s.b.sys.sent
             usedSent := s.b.sys.sent, usedNs := q.used s.b.sys.sent }

theorem State.sporeStart_fields {i : Nat} (due : (s.b.bst.seq c).due c = some i) (may : s.b.mayStart c i = true) :
    let q := s.b.bst.seq c
    let u := s.sporeStart c
    (u.b.bst.seq c).running = some { index := i, start := s.b.now, forced := q.force } ∧
      (u.b.bst.seq c).lastStart = some s.b.sys.sent ∧ (u.b.bst.seq c).next = q.next ∧ u.b.bst.seq c.other = s.b.bst.seq c.other ∧
      (kindOf i = 3 → ∀ k, s.b.pairAt ((Config.sporeMemory i).val * 16384) = some k → (s.b.pairOf k).state = 1 →
        (u.b.pairOf k).asked = true) := by
  intro q u
  have run : u = if kindOf i = 3 then
      match s.b.pairAt ((Config.sporeMemory i).val * 16384) with
      | some k => (s.sporeBegun c i).onPair k fun p => if p.state = 1 then { p with asked := true } else p
      | none => s.sporeBegun c i
      else s.sporeBegun c i := by
    unfold u State.sporeStart
    dsimp only
    rw [due]
    exact if_pos may
  have seqr : (s.sporeBegun c i).b.bst.seq c = _ := State.onSeqr_seq ..
  have next : ((s.sporeBegun c i).b.bst.seq c).next = q.next := by rw [seqr]
  have other : (s.sporeBegun c i).b.bst.seq c.other = s.b.bst.seq c.other := State.onSeqr_other ..
  rw [run]
  split
  · split
    next k' at_ =>
      refine ⟨congrArg Seqr.running seqr, congrArg Seqr.lastStart seqr, next, other, fun _ k hk runs => ?_⟩
      rw [at_] at hk
      obtain rfl := Option.some.inj hk
      rw [State.onPair_pairOf]
      exact congrArg Pair.asked (if_pos runs)
    next at_ =>
      exact ⟨congrArg Seqr.running seqr, congrArg Seqr.lastStart seqr, next, other,
        fun _ k hk => nomatch at_.symm.trans hk⟩
  next kind =>
    exact ⟨congrArg Seqr.running seqr, congrArg Seqr.lastStart seqr, next, other, fun h => absurd h kind⟩

/-! ### An abort (R345, R346) -/

theorem State.sporeEnds_fields (c : Ch) (r : Running) (s : State) :
    (s.sporeEnds c r).b.bst.seq c = { s.b.bst.seq c with running := none, usedNs := (s.b.bst.seq c).usedNs + (s.b.now - r.start) } ∧
      (s.sporeEnds c r).b.bst.seq c.other = s.b.bst.seq c.other ∧ (s.sporeEnds c r).b.fcl = s.b.fcl := by
  have bst : (s.sporeEnds c r).b.bst = (s.onSeqr c fun q =>
      { q with running := none, usedNs := q.usedNs + (s.b.now - r.start) }).b.bst := by
    unfold State.sporeEnds
    dsimp only
    split <;> rfl
  have fcl : (s.sporeEnds c r).b.fcl = s.b.fcl := (Only.sporeEnds (m := 278528) c r rfl (.refl _ s)).same_of .fcl rfl
  rw [bst, State.onSeqr_seq, State.onSeqr_other]
  exact ⟨rfl, rfl, fcl⟩

/-- A sequencer whose spore moves to the pass's end. -/
def Seqr.deferred_ (q : Seqr) (c : Ch) (forced : Bool) : Seqr :=
  if forced then { q with abortRun := 0, force := false }
  else
    match q.place c with
    | some p =>
      if q.next < shareOf c then { q with abortRun := 0, next := q.next + 1, deferred := q.deferred ++ [p] }
      else { q with abortRun := 0, deferred := q.deferred.drop 1 ++ [p] }
    | none => { q with abortRun := 0 }

theorem Seqr.deferred_fields (q : Seqr) (c : Ch) (forced : Bool) :
    let p := q.deferred_ c forced
    p.running = q.running ∧ p.aborts = q.aborts ∧ p.done = q.done ∧ p.waitSent = q.waitSent ∧ p.abortRun = 0 ∧
      (forced = false → q.next < shareOf c → p.next = q.next + 1 ∧ p.deferred = q.deferred ++ [q.next]) := by
  unfold Seqr.deferred_
  cases forced
  case true => exact ⟨rfl, rfl, rfl, rfl, rfl, nofun⟩
  case false =>
    rw [if_neg Bool.false_ne_true]
    by_cases inShare : q.next < shareOf c
    · rw [show q.place c = some q.next from if_pos inShare]
      dsimp only
      rw [if_pos inShare]
      exact ⟨rfl, rfl, rfl, rfl, rfl, fun _ _ => ⟨rfl, rfl⟩⟩
    · split
      · rw [if_neg inShare]
        exact ⟨rfl, rfl, rfl, rfl, rfl, fun _ h => absurd h inShare⟩
      · exact ⟨rfl, rfl, rfl, rfl, rfl, fun _ h => absurd h inShare⟩

/-- The sequencer as its spore is aborted. -/
def State.sporeAborted (c : Ch) (cause : AbortCause) (r : Running) (s : State) : State :=
  (s.sporeEnds c r).onSeqr c fun q =>
    { q with aborts := q.aborts.inc, abortRun := q.abortRun + 1
             waitSent := if cause = .halt then some s.b.sys.sent else q.waitSent }

theorem State.sporeAbort_fields (cause : AbortCause) (runs : (s.b.bst.seq c).running = some r) :
    let q := s.b.bst.seq c
    let u := s.sporeAbort c cause
    (u.b.bst.seq c).running = none ∧ (u.b.bst.seq c).aborts = q.aborts.inc ∧ (u.b.bst.seq c).done = q.done ∧
      (u.b.bst.seq c).waitSent = (if cause = .halt then some s.b.sys.sent else q.waitSent) ∧
      (q.abortRun < 255 → (u.b.bst.seq c).abortRun = q.abortRun + 1 ∧ (u.b.bst.seq c).next = q.next ∧
        (u.b.bst.seq c).deferred = q.deferred ∧ u.b.fcl = s.b.fcl) ∧
      (255 ≤ q.abortRun → (u.b.bst.seq c).abortRun = 0 ∧ u.b.fcl.arrivals.map (·.id) = s.b.fcl.arrivals.map (·.id) ++ [503] ∧
        (r.forced = false → q.next < shareOf c → (u.b.bst.seq c).next = q.next + 1 ∧
          (u.b.bst.seq c).deferred = q.deferred ++ [q.next])) := by
  intro q u
  obtain ⟨ended, -, fcl⟩ := s.sporeEnds_fields c r
  have run : u = if ((s.sporeAborted c cause r).b.bst.seq c).abortRun ≥ 256 then (s.sporeAborted c cause r).sporeDefer c r
      else s.sporeAborted c cause r := by
    unfold u State.sporeAbort
    rw [runs]
    rfl
  have seqr : (s.sporeAborted c cause r).b.bst.seq c = { q with
      running := none, usedNs := q.usedNs + (s.b.now - r.start), aborts := q.aborts.inc, abortRun := q.abortRun + 1
      waitSent := if cause = .halt then some s.b.sys.sent else q.waitSent } := by
    rw [State.sporeAborted, State.onSeqr_seq, ended]
  have told : (s.sporeAborted c cause r).b.fcl = s.b.fcl := fcl
  have count : ((s.sporeAborted c cause r).b.bst.seq c).abortRun = q.abortRun + 1 := by rw [seqr]
  rw [count] at run
  by_cases few : q.abortRun < 255
  · rw [run, if_neg (by omega), seqr, told]
    exact ⟨rfl, rfl, rfl, rfl, fun _ => ⟨rfl, rfl, rfl, rfl⟩, fun h => absurd few (Nat.not_lt.mpr h)⟩
  · have many : 255 ≤ q.abortRun := Nat.not_lt.mp few
    have defers : ((s.sporeAborted c cause r).sporeDefer c r).b.bst.seq c = _ :=
      State.onSeqr_seq c (fun q => q.deferred_ c r.forced) (s.sporeAborted c cause r)
    have arrivals : ((s.sporeAborted c cause r).sporeDefer c r).b.fcl.arrivals.map (·.id) = s.b.fcl.arrivals.map (·.id) ++ [503] := by
      rw [← told]
      exact List.map_append
    obtain ⟨running, aborts, done, wait, zero, moves⟩ := ((s.sporeAborted c cause r).b.bst.seq c).deferred_fields c r.forced
    rw [run, if_pos (by omega), defers, running, aborts, done, wait, zero, arrivals]
    rw [seqr] at moves ⊢
    exact ⟨rfl, rfl, rfl, rfl, fun h => absurd h few, fun _ => ⟨rfl, rfl, moves⟩⟩

/-! ### A step (R345 to R348) -/

/-- A step of a spore that needs no alignment, or whose pair is aligned. -/
theorem State.sporeStep_aligned (f : SporeFinding) (runs : (s.b.bst.seq c).running = some r) (aligned : s.b.unaligned r = false) :
    s.sporeStep c f = if s.b.outOfTime r then s.sporeAbort c .timeLimit
      else if f.restoreOk = false then s.fallBack c r f.region
      else if (if kindOf r.index ≤ 2 then decide (r.steps + 1 = 16) else f.last) then
        ((s.sporeEnds c r).sporeResult c r f).sporeDone c r
      else s.onSeqr c fun q => { q with running := some { r with steps := r.steps + 1 } } := by
  unfold State.sporeStep
  rw [runs]
  dsimp only
  rw [aligned]
  rfl

/-! ### The last step of a signature spore (R349, R350) -/

/-- The source of a signature spore that fails in a channel. -/
def signatureSource : Ch → Nat
  | .a => 496
  | .b => 497

/-- A spore of the share is complete, and not the last one of it. -/
theorem State.sporeDone_share (own : r.forced = false) (isOpen : (s.b.bst.seq c).shareDone = false)
    (more : (s.b.bst.seq c).next + 1 < shareOf c) :
    (s.sporeDone c r).b.bst.seq c =
        { s.b.bst.seq c with next := (s.b.bst.seq c).next + 1, done := (s.b.bst.seq c).done + 1, abortRun := 0 } ∧
      (s.sporeDone c r).b.fcl = s.b.fcl := by
  unfold State.sporeDone
  extract_lets s1
  have seqr : s1.b.bst.seq c =
      { s.b.bst.seq c with next := (s.b.bst.seq c).next + 1, done := (s.b.bst.seq c).done + 1, abortRun := 0 } := by
    have inShare : (s.b.bst.seq c).next < shareOf c := by omega
    refine (State.onSeqr_seq ..).trans ((if_neg (by rw [own]; exact Bool.false_ne_true)).trans ?_)
    dsimp only
    rw [if_pos inShare]
    exact if_neg (by simp [Seqr.place, more])
  have notBoth : ¬ (s1.b.bst.a.shareDone && s1.b.bst.b.shareDone) = true := by
    have left : (s1.b.bst.seq c).shareDone = false := by rw [seqr, isOpen]
    cases c
    · rw [show s1.b.bst.a.shareDone = false from left]
      exact Bool.false_ne_true
    · rw [show s1.b.bst.b.shareDone = false from left, Bool.and_false]
      exact Bool.false_ne_true
  rw [if_neg notBoth]
  exact ⟨seqr, rfl⟩

/-- The last step of a signature spore of the share: the sequencer takes the next one, and a spore that fails is noted. -/
theorem State.signatureSpore_fields {f : SporeFinding} (kind : kindOf r.index = 1) (own : r.forced = false)
    (isOpen : (s.b.bst.seq c).shareDone = false) (more : (s.b.bst.seq c).next + 1 < shareOf c) :
    let q := s.b.bst.seq c
    let u := ((s.sporeEnds c r).sporeResult c r f).sporeDone c r
    (u.b.bst.seq c).running = none ∧ (u.b.bst.seq c).done = q.done + 1 ∧ (u.b.bst.seq c).next = q.next + 1 ∧
      (u.b.bst.seq c).abortRun = 0 ∧ (f.pass = true → u.b.fcl = s.b.fcl ∧ (u.b.bst.seq c).failKind = q.failKind) ∧
      (f.pass = false → (u.b.bst.seq c).failKind = 1 ∧ (u.b.bst.seq c).failIndex = r.index ∧
        (u.b.bst.seq c).failSig = f.signature ∧
        u.b.fcl.arrivals.map (·.id) = s.b.fcl.arrivals.map (·.id) ++ [signatureSource c]) := by
  intro q u
  obtain ⟨ended, -, fcl⟩ := s.sporeEnds_fields c r
  cases pass : f.pass
  case true =>
    have result : (s.sporeEnds c r).sporeResult c r f = s.sporeEnds c r := by
      unfold State.sporeResult
      rw [kind]
      exact if_pos pass
    obtain ⟨seqr, same⟩ := State.sporeDone_share (s := s.sporeEnds c r) own (by rw [ended, isOpen]) (by rw [ended]; exact more)
    unfold u
    rw [result, seqr, same, ended]
    exact ⟨rfl, rfl, rfl, rfl, fun _ => ⟨fcl, rfl⟩, nofun⟩
  case false =>
    have result : (s.sporeEnds c r).sporeResult c r f =
        ((s.sporeEnds c r).noteFail c r f).raise (signatureSource c) (sporeWord r.index) := by
      unfold State.sporeResult
      rw [kind]
      exact if_neg (show ¬ f.pass = true by rw [pass]; exact Bool.false_ne_true)
    have noted : (((s.sporeEnds c r).noteFail c r f).raise (signatureSource c) (sporeWord r.index)).b.bst.seq c =
        { q with
          running := none, usedNs := q.usedNs + (s.b.now - r.start), failKind := 1, failIndex := r.index, failSig := f.signature
          failCount := f.count % 2 ^ 20 } := by
      refine (State.onSeqr_seq ..).trans ?_
      rw [ended, kind]
    obtain ⟨seqr, same⟩ := State.sporeDone_share own (by rw [noted]; exact isOpen) (by rw [noted]; exact more)
    unfold u
    rw [result, seqr, same, noted, State.raise_arrivals, List.map_append, show ((s.sporeEnds c r).noteFail c r f).b.fcl = s.b.fcl from fcl]
    exact ⟨rfl, rfl, rfl, rfl, nofun, fun _ => ⟨rfl, rfl, rfl, rfl⟩⟩

end

end Sys2Proof.Machine

namespace Sys2Proof.Proofs

open Sys2Proof Sys2Proof.Machine

/-- Settles O50: the sequencer's fields after each event; the other sequencer stands still. -/
theorem spores : Obligations.Spores := by
  intro t c s q x
  have stepped : ∀ {r} f, q.running = some r → x.unaligned r = false → (s.tick t).sporeStep c f = _ := fun f runs aligned =>
    State.sporeStep_aligned (s := s.tick t) f runs aligned
  have inTime : ∀ {r}, x.outOfTime r = false → ¬ x.outOfTime r = true := fun h => by rw [h]; exact Bool.false_ne_true
  refine ⟨fun i due => ⟨fun may => ?starts, fun late => ?waits⟩, fun r cause runs => ?aborts, fun r f runs aligned => ⟨fun late => ?late,
    fun intime => ⟨fun lost => ?lost, fun restored => ⟨fun goesOn => ?goesOn, fun kind last own isOpen more => ?last⟩⟩⟩,
    fun on => ⟨fun far => ?far, fun near => ?near⟩⟩
  case starts =>
    obtain ⟨running, started, next, other, asks⟩ := State.sporeStart_fields (s := s.tick t) due may
    exact ⟨_, rfl, running, started, next, other, x.mayStart_ends may, asks⟩
  case waits =>
    show Host.Outcome.next ((s.tick t).sporeStart c) = _
    unfold State.sporeStart
    dsimp only
    rw [show ((s.tick t).b.bst.seq c).due c = some i from due]
    exact congrArg Host.Outcome.next (if_neg (by rw [late]; exact Bool.false_ne_true))
  case aborts =>
    obtain ⟨running, aborts, done, wait, few, many⟩ := State.sporeAbort_fields (s := s.tick t) cause runs
    exact ⟨_, rfl, running, aborts, done, fun h => wait.trans (if_pos h), fun h => wait.trans (if_neg h), few, many⟩
  case late =>
    have run : exec (.sporeStep t c f) s = .next ((s.tick t).sporeAbort c .timeLimit) :=
      congrArg Host.Outcome.next ((stepped f runs aligned).trans (if_pos late))
    exact run
  case lost => exact congrArg Host.Outcome.next (((stepped f runs aligned).trans (if_neg (inTime intime))).trans (if_pos lost))
  case goesOn =>
    refine congrArg Host.Outcome.next (((stepped f runs aligned).trans (if_neg (inTime intime))).trans
      ((if_neg (by rw [restored]; decide)).trans (if_neg ?_)))
    obtain ⟨short, more⟩ | ⟨long, more⟩ := goesOn
    · rw [if_pos short]
      simpa using more
    · rw [if_neg (Nat.not_le.mpr long), more]
      exact Bool.false_ne_true
  case last =>
    have complete : (if kindOf r.index ≤ 2 then decide (r.steps + 1 = 16) else f.last) = true := by
      rw [kind, last]
      rfl
    obtain ⟨running, done, next, zero, passes, fails⟩ := State.signatureSpore_fields (s := s.tick t) (f := f) kind own isOpen more
    refine ⟨_, congrArg Host.Outcome.next (((stepped f runs aligned).trans (if_neg (inTime intime))).trans
        ((if_neg (by rw [restored]; decide)).trans (if_pos complete))),
      running, done, next, zero, passes, fun bad => ?_⟩
    obtain ⟨failKind, failIndex, failSig, told⟩ := fails bad
    cases c <;> exact ⟨failKind, failIndex, failSig, told⟩
  case far => exact congrArg Host.Outcome.next (if_pos (Bool.and_eq_true_iff.mpr ⟨on, decide_eq_true far⟩))
  case near =>
    exact congrArg Host.Outcome.next (if_neg fun h => Nat.not_lt.mpr near (of_decide_eq_true (Bool.and_eq_true_iff.mp h).2))

end Sys2Proof.Proofs

/-! SUPPORT. Antifuse commands and sessions (R359 to R364, R370, R373, R376, R377). -/

namespace Sys2Proof.Machine

/-! ### The gate and the turn (R361, R379) -/

/-- The ports that may burn. -/
theorem otpPort_iff (rd : Reader) : otpPort rd = true ↔ rd.port ∈ [0, 1, 3] := by
  simp [otpPort, or_assoc]

theorem State.otpGate_port {rd : Reader} (run : State → State × Nat) (s : State) (h : rd.port ∉ [0, 1, 3]) :
    s.otpGate rd run = (s, rRefused) :=
  if_pos ((Bool.not_eq_true' _).mpr (Bool.eq_false_iff.mpr fun k => h ((otpPort_iff rd).mp k)))

theorem State.otpGate_locked {rd : Reader} (run : State → State × Nat) {s : State} (h : rd.port ∈ [0, 1, 3])
    (locked : s.b.unlocked rd = false) : s.otpGate rd run = (s, rNotAuth) :=
  (if_neg (by rw [(otpPort_iff rd).mpr h]; exact Bool.false_ne_true)).trans (if_pos ((Bool.not_eq_true' _).mpr locked))

theorem State.otpGate_passes {rd : Reader} (run : State → State × Nat) {s : State} (h : rd.port ∈ [0, 1, 3])
    (unlocked : s.b.unlocked rd = true) : s.otpGate rd run = run s :=
  (if_neg (by rw [(otpPort_iff rd).mpr h]; exact Bool.false_ne_true)).trans
    (if_neg (by rw [unlocked]; exact Bool.false_ne_true))

theorem State.otpTurn_idle {s : State} (i : Instr) (run : State → State × Nat) (h : s.b.otp.session = none ∧ s.b.lcs.op = none) :
    s.otpTurn i run = run s :=
  if_neg (by rw [h.1, h.2]; exact Bool.false_ne_true)

theorem State.otpTurn_busy {s : State} (i : Instr) (run : State → State × Nat)
    (h : ¬ (s.b.otp.session = none ∧ s.b.lcs.op = none)) :
    s.otpTurn i run = (s.onOtp fun o => { o with waiting := o.waiting ++ [i] }, rPending) :=
  if_pos (Bool.or_eq_true_iff.mpr ((not_and_or.mp h).imp Option.isSome_iff_ne_none.mpr Option.isSome_iff_ne_none.mpr))

/-! ### Rhizoid bits (R367, R373) -/

theorem State.burnBit_burned (i j : Nat) (s : State) : (s.burnBit i).b.burned j = (decide (j = i) || s.b.burned j) := by
  unfold Blocks.burned
  by_cases h : j = i
  · subst h
    rw [show (s.burnBit j).b.otp.rhizoid = nset s.b.otp.rhizoid j (7, 7) (0, 0) from rfl, nget_nset_same, decide_eq_true rfl]
    rfl
  · rw [show (s.burnBit i).b.otp.rhizoid = nset s.b.otp.rhizoid i (7, 7) (0, 0) from rfl, nget_nset_other _ _ _ (Ne.symm h),
      decide_eq_false h]
    rfl

/-- The bits of `v`, below bit `n`, burned from rhizoid bit `k` on. -/
def State.burnField (k v n : Nat) (s : State) : State := forN n (fun i s => if v.testBit i then s.burnBit (k + i) else s) s

theorem State.burnField_burned (k v n : Nat) (s : State) (j : Nat) : (s.burnField k v n).b.otp.latched = s.b.otp.latched ∧
    ((s.burnField k v n).b.burned j = true ↔ s.b.burned j = true ∨ ∃ i < n, v.testBit i = true ∧ j = k + i) := by
  induction n with
  | zero => exact ⟨rfl, .inl, fun h => h.elim id fun ⟨i, hi, _⟩ => absurd hi (Nat.not_lt_zero i)⟩
  | succ n ih =>
    obtain ⟨latched, burned⟩ := ih
    have more : (∃ i < n + 1, v.testBit i = true ∧ j = k + i) ↔
        (∃ i < n, v.testBit i = true ∧ j = k + i) ∨ v.testBit n = true ∧ j = k + n := Nat.exists_lt_succ_right
    rw [more]
    by_cases bit : v.testBit n = true
    · have step : s.burnField k v (n + 1) = (s.burnField k v n).burnBit (k + n) := if_pos bit
      rw [step, State.burnBit_burned, Bool.or_eq_true, decide_eq_true_iff, burned, and_iff_right bit]
      exact ⟨latched, or_comm.trans or_assoc⟩
    · have step : s.burnField k v (n + 1) = s.burnField k v n := if_neg bit
      rw [step, burned, or_iff_left fun h : v.testBit n = true ∧ j = k + n => bit h.1]
      exact ⟨latched, Iff.rfl⟩

/-- A region retired: its retired bit and its number in the lowest free spare are burned, and nothing else. -/
theorem State.retire_run {rd : Reader} {r k : Nat} {s : State} (port : rd.port ∈ [0, 1, 3]) (unlocked : s.b.unlocked rd = true)
    (hr : r ≤ 11) (life : s.b.life = .manufacture ∨ s.b.life = .provisioned) (fresh : s.b.burned (43 + r) = false)
    (spare : s.b.freeSpare = some k) :
    ∃ u, s.retire rd r = (u, rDone) ∧ u.b.otp.latched = s.b.otp.latched ∧ ∀ j, u.b.burned j = true ↔
      (j = 43 + r ∨ s.b.burned j = true) ∨ ∃ i < 4, (r + 1).testBit i = true ∧ j = 55 + 4 * (k - 12) + i := by
  have stay : ¬ (!(s.b.life == .manufacture || s.b.life == .provisioned) || s.b.burned (43 + r)) = true := by
    rw [fresh]
    rcases life with e | e <;> rw [e] <;> exact Bool.false_ne_true
  refine ⟨((s.burnBit (43 + r)).burnField (55 + 4 * (k - 12)) (r + 1) 4).onOtp fun o =>
    { o with result := mkw (pl 3 28 4 + pl (3 * (1 + popc (BitVec.ofNat 4 (r + 1)) 4)) 16 7 +
              pl (Config.retireResult r).toNat 0 16) }, ?_, (State.burnField_burned _ _ _ _ 0).1, fun j => ?_⟩
  · rw [State.retire, State.otpGate_passes _ port unlocked, if_neg (Nat.not_lt.mpr hr), if_neg stay, spare]
    rfl
  · refine (State.burnField_burned (55 + 4 * (k - 12)) (r + 1) 4 (s.burnBit (43 + r)) j).2.trans ?_
    rw [State.burnBit_burned, Bool.or_eq_true, decide_eq_true_iff]

/-! ### A session's words (R362, R363) -/

/-- The words a session reports, stored from word `first + n` on: each word takes the reported one, and none below changes. -/
theorem State.storeFrom_words (first n : Nat) (l : List (BitVec 72 × BitVec 72)) (s : State) :
    let u := forL (l.zipIdx n) (fun x s =>
      s.onOtp fun o => { o with words := nset o.words (first + x.2) { normal := x.1.1, strict := x.1.2 } {} }) s
    (∀ i z, l[i]? = some z → u.b.wordAt (first + n + i) = { normal := z.1, strict := z.2 }) ∧
      ∀ p, p < first + n → u.b.wordAt p = s.b.wordAt p := by
  induction l generalizing n s with
  | nil => exact ⟨fun i z h => absurd h (by simp), fun p _ => rfl⟩
  | cons x l ih =>
    obtain ⟨here, below⟩ :=
      ih (n + 1) (s.onOtp fun o => { o with words := nset o.words (first + n) { normal := x.1, strict := x.2 } {} })
    refine ⟨fun i z h => ?_, fun p hp => (below p (by omega)).trans (nget_nset_other _ _ _ (by omega))⟩
    cases i with
    | zero =>
      cases h
      exact (below _ (by omega)).trans (nget_nset_same _ _ _ _)
    | succ i =>
      have k := here i z (by simpa using h)
      rwa [show first + (n + 1) + i = first + n + (i + 1) by omega] at k

/-- The words of a session that reports them, read at the addresses it burned. -/
theorem State.storeSession_words {x : Session} {o : BurnOutcome} (s : State) (h : x.op ≠ 5) {i : Nat} {z : BitVec 72 × BitVec 72}
    (hi : i < x.data.length) (hz : o.words[i]? = some z) :
    (s.storeSession x o).b.wordAt (x.first + i) = { normal := z.1, strict := z.2 } := by
  rw [State.storeSession, if_neg h]
  exact (State.storeFrom_words x.first 0 _ s).1 i z ((List.getElem?_take_of_lt hi).trans hz)

theorem State.storeSession_rows {x : Session} {o : BurnOutcome} {z : BitVec 72 × BitVec 72} {l : List (BitVec 72 × BitVec 72)}
    (s : State) (h : x.op = 5) (hz : o.words = z :: l) :
    nget (s.storeSession x o).b.otp.rows x.target 0 = z.1.truncate 32 ∧
      nget (s.storeSession x o).b.otp.rowsStrict x.target 0 = z.2.truncate 32 := by
  rw [State.storeSession, if_pos h, hz]
  exact ⟨nget_nset_same _ _ _ _, nget_nset_same _ _ _ _⟩

/-- What a session that ends does not touch, outside the words and rows it stores. -/
structure OtherAntifuses (s u : State) : Prop where
  latched : u.b.otp.latched = s.b.otp.latched
  marg : u.b.otp.marg = s.b.otp.marg
  waiting : u.b.otp.waiting = s.b.otp.waiting
  sys : u.b.sys = s.b.sys

theorem OtherAntifuses.trans {s u v : State} (h : OtherAntifuses s u) (k : OtherAntifuses u v) : OtherAntifuses s v :=
  ⟨k.latched.trans h.latched, k.marg.trans h.marg, k.waiting.trans h.waiting, k.sys.trans h.sys⟩

theorem OtherAntifuses.servedBy {s u : State} (h : OtherAntifuses s u) (r : Nat) : u.b.servedBy r = s.b.servedBy r := by
  rw [Blocks.servedBy, Blocks.servedBy, h.latched, h.marg]

theorem OtherAntifuses.forL {α : Type} {f : α → State → State} (h : ∀ x s, OtherAntifuses s (f x s)) (l : List α) (s : State) :
    OtherAntifuses s (Machine.forL l f s) := by
  induction l generalizing s with
  | nil => exact ⟨rfl, rfl, rfl, rfl⟩
  | cons x l ih => exact (h x s).trans (ih (f x s))

theorem OtherAntifuses.storeSession (x : Session) (o : BurnOutcome) (s : State) : OtherAntifuses s (s.storeSession x o) := by
  unfold State.storeSession
  split
  · split <;> exact ⟨rfl, rfl, rfl, rfl⟩
  · unfold State.storeWords
    refine .forL ?_ _ s
    exact fun _ _ => ⟨rfl, rfl, rfl, rfl⟩

theorem State.storeSession_fcl (s : State) (x : Session) (o : BurnOutcome) : (s.storeSession x o).b.fcl = s.b.fcl :=
  (Only.storeSession x o rfl (.refl 524288 s)).same_of .fcl rfl

/-- The same words and rows, with no session. -/
structure SessionOver (s u : State) : Prop where
  session : u.b.otp.session = none
  words : u.b.otp.words = s.b.otp.words
  rows : u.b.otp.rows = s.b.otp.rows
  rowsStrict : u.b.otp.rowsStrict = s.b.otp.rowsStrict
  others : OtherAntifuses s u

theorem SessionOver.ite {s u v : State} {c : Prop} [Decidable c] (h : SessionOver s u) (k : SessionOver s v) :
    SessionOver s (if c then u else v) := by
  split
  · exact h
  · exact k

theorem SessionOver.raise {s u : State} (h : SessionOver s u) (i : Nat) (d : Word) : SessionOver s (u.raise i d) :=
  ⟨h.session, h.words, h.rows, h.rowsStrict, h.others.trans ⟨rfl, rfl, rfl, rfl⟩⟩

theorem SessionOver.lockRegion {s u : State} (h : SessionOver s u) (r : Nat) (rlock : Bool) : SessionOver s (u.lockRegion r rlock) := by
  have burn : ∀ {u} i, SessionOver s u → SessionOver s (u.burnBit i) := fun i h =>
    ⟨h.session, h.words, h.rows, h.rowsStrict, h.others.trans ⟨rfl, rfl, rfl, rfl⟩⟩
  unfold State.lockRegion
  split
  · exact (burn _ (burn _ h)).ite (burn _ h)
  · exact h

theorem State.lockRegion_burned {r p : Nat} {rlock : Bool} {s : State} (h : s.b.servedBy r = some p) :
    (s.lockRegion r rlock).b.burned (11 + p) = true ∧ (rlock = true → (s.lockRegion r rlock).b.burned (27 + p) = true) := by
  have run : s.lockRegion r rlock = if rlock then (s.burnBit (11 + p)).burnBit (27 + p) else s.burnBit (11 + p) := by
    rw [State.lockRegion, h]
  rw [run]
  cases rlock <;> simp [State.burnBit_burned]

/-- What a session's end leaves: its words and rows as stored, no session, the source of its verdict, and for a good finalisation
the locks of its region. -/
theorem State.sessionEnds_fields (x : Session) (o : BurnOutcome) (s : State) :
    let v := s.b.sessionVerdict x o
    let u := (s.sessionEnds x o).1
    SessionOver (s.storeSession x o) u ∧
      u.b.fcl.arrivals.map (·.id) = s.b.fcl.arrivals.map (·.id) ++ (if v = 1 then [75] else if v = 2 then [81] else []) ∧
      (x.op = 2 → v = 0 → ∀ p, s.b.servedBy x.target = some p → u.b.burned (11 + p) = true ∧
        (x.readLock = true → u.b.burned (27 + p) = true)) := by
  unfold State.sessionEnds
  extract_lets v s1 bad s2 s3 s4 u
  have over1 : SessionOver (s.storeSession x o) s1 := ⟨rfl, rfl, rfl, rfl, ⟨rfl, rfl, rfl, rfl⟩⟩
  have over2 : SessionOver (s.storeSession x o) s2 := over1.ite ⟨rfl, rfl, rfl, rfl, ⟨rfl, rfl, rfl, rfl⟩⟩
  have over3 : SessionOver (s.storeSession x o) s3 := (over2.raise _ _).ite ((over2.raise _ _).ite over2)
  have fcl2 : s2.b.fcl = s.b.fcl := by
    have fcl1 : s1.b.fcl = s.b.fcl := s.storeSession_fcl x o
    unfold s2
    split <;> exact fcl1
  have fcl4 : s4.b.fcl = s3.b.fcl := by
    have locked : (s3.lockRegion x.target x.readLock).b.fcl = s3.b.fcl :=
      (Only.lockRegion x.target x.readLock rfl (.refl 524288 s3)).same_of .fcl rfl
    unfold s4
    split
    · exact locked
    · rfl
  refine ⟨(over3.lockRegion _ _).ite over3, ?_, fun op good p served => ?_⟩
  · rw [show u.b.fcl = s3.b.fcl from fcl4, ← fcl2]
    unfold s3
    split
    · exact List.map_append
    · split
      · exact List.map_append
      · exact (List.append_nil _).symm
  · rw [show u = s3.lockRegion x.target x.readLock from if_pos ⟨op, good⟩]
    exact State.lockRegion_burned (((over3.others.servedBy _).trans ((OtherAntifuses.storeSession x o s).servedBy _)).trans served)

/-! ### The command that began it (R361, R379) -/

/-- The kept result of a command that settles. -/
theorem State.settle_kept {page rd r : Nat} {tok : BitVec 16} {s : State} (h : (s.b.tokenOf page rd).token = tok)
    (pending : (s.b.tokenOf page rd).kept = rPending) : ((s.settle page rd tok r).b.tokenOf page rd).kept = r := by
  have run := nget_nupd_same s.b.sys.tokens (tokKey page rd) {} fun e =>
    if e.token = tok ∧ e.kept = rPending then
      { e with kept := r, last := if e.settles then r else e.last, settles := false }
    else e
  exact (congrArg Token.kept run).trans (congrArg Token.kept (if_pos ⟨h, pending⟩))

/-- With no command waiting, none runs. -/
theorem State.drainAll_empty {s : State} (h : s.b.otp.waiting = []) : s.drainAll = s := by
  rw [State.drainAll, h]
  rfl

theorem State.sessionDone_run {y : Session} {s : State} (running : s.b.otp.session = some y) (h : s.b.otp.waiting = [])
    (o : BurnOutcome) :
    s.sessionDone o = (s.sessionEnds y o).1.settle pOTP y.reader y.token (s.sessionEnds y o).2 := by
  have ended : SessionOver (s.storeSession y o) (s.sessionEnds y o).1 := (s.sessionEnds_fields y o).1
  rw [State.sessionDone, running]
  exact State.drainAll_empty ((ended.others.waiting.trans (OtherAntifuses.storeSession y o s).waiting).trans h)

/-- A session that the programming voltage ends leaves its words as they read. -/
theorem State.vppFails_run {y : Session} {s : State} (running : s.b.otp.session = some y) (h : s.b.otp.waiting = []) {mv : Nat}
    (bad : ¬ (5300 ≤ mv ∧ mv ≤ 5700)) (l : List (BitVec 72 × BitVec 72)) :
    ∃ v, s.vppFails mv l = (v.raise 83 (mkw mv)).settle pOTP y.reader y.token rRefused ∧ v.b.fcl = s.b.fcl ∧
      SessionOver (s.storeSession y { words := l }) v := by
  refine ⟨(s.storeSession y { words := l }).onOtp fun p =>
    { p with session := none, vpp := mkw (pl (fld p.vpp 31 31) 31 1 + pl mv 0 13) }, ?_, s.storeSession_fcl y _,
    rfl, rfl, rfl, rfl, rfl, rfl, rfl, rfl⟩
  rw [State.vppFails, running]
  exact (if_neg bad).trans (State.drainAll_empty ((OtherAntifuses.storeSession y _ s).waiting.trans h))

theorem SessionOver.wordAt {s u : State} (h : SessionOver s u) (p : Nat) : u.b.wordAt p = s.b.wordAt p := by
  rw [Blocks.wordAt, Blocks.wordAt, h.words]

theorem OtherAntifuses.tokenOf {s u : State} (h : OtherAntifuses s u) (page rd : Nat) : u.b.tokenOf page rd = s.b.tokenOf page rd := by
  rw [Blocks.tokenOf, Blocks.tokenOf, h.sys]

/-- A field of a word is below its width. -/
theorem fld_lt (w : Word) (hi lo : Nat) : fld w hi lo < 2 ^ (hi + 1 - lo) := Nat.mod_lt _ (Nat.two_pow_pos _)

end Sys2Proof.Machine

namespace Sys2Proof.Proofs

open Sys2Proof Sys2Proof.Machine

/-- Settles O51: each command by its gate, and the end of a session by the words it stores and the sources it raises. -/
theorem antifuses : Obligations.Antifuses := by
  intro t rd w s idle burns ends begins
  have gated : ∀ c, burns c → ∃ run : State → State × Nat,
      exec c s = .next ((s.tick t).wt rd pOTP (wTok w) (State.otpTurn c (State.otpGate rd run))) := by
    rintro c (rfl | rfl | rfl | rfl | rfl) <;> exact ⟨_, rfl⟩
  refine ⟨fun takes => ⟨fun busy c hc => ?_, fun free port c hc => ?_, fun free port locked c hc => ?_,
    fun free port unlocked => ?_⟩, fun y running alone => ?_, fun reaches => ⟨fun ha => ?_, fun ha => ?_⟩⟩
  · obtain ⟨run, e⟩ := gated c hc
    exact e.trans (next_of_takes takes (State.otpTurn_busy (s := s.tick t) _ _ busy))
  · obtain ⟨run, e⟩ := gated c hc
    exact e.trans (next_of_takes takes ((State.otpTurn_idle (s := s.tick t) _ _ free).trans (State.otpGate_port run _ port)))
  · obtain ⟨run, e⟩ := gated c hc
    exact e.trans (next_of_takes takes
      ((State.otpTurn_idle (s := s.tick t) _ _ free).trans (State.otpGate_locked (s := s.tick t) run port locked)))
  · intro a r row
    have done : ∀ {c : Instr} {run : State → State × Nat} {u : State} {k : Nat},
        exec c s = .next ((s.tick t).wt rd pOTP (wTok w) (State.otpTurn c (State.otpGate rd run))) →
        run (s.tick t) = (u, k) → ends c u k := fun e h =>
      e.trans (next_of_takes takes ((State.otpTurn_idle (s := s.tick t) _ _ free).trans
        ((State.otpGate_passes (s := s.tick t) _ port unlocked).trans h)))
    refine ⟨fun p phys region life lock blank => done rfl ?_, fun hr => ⟨done rfl (if_pos hr), done rfl (if_pos hr)⟩,
      fun p d hr served phys lock lock10 blank complete => done rfl ?_, fun k hr life fresh spare => ?_,
      fun hrow life lock => done rfl ?_, fun hrow => done rfl (if_pos hrow), fun p entry life lock => done rfl ?_⟩
    · have free : (decide (a / 128 < 11) && (s.tick t).b.lifeMayBurn (a / 128) && !(s.tick t).b.wlockBurned (a / 128) &&
          ((s.tick t).b.wordAt p).blank) = true := by
        rw [decide_eq_true region, show (s.tick t).b.lifeMayBurn (a / 128) = true from life,
          show (s.tick t).b.wlockBurned (a / 128) = false from lock, show ((s.tick t).b.wordAt p).blank = true from blank]
        rfl
      show (match (s.tick t).b.physOf a with | some p => _ | none => _) = _
      rw [show (s.tick t).b.physOf a = some p from phys]
      exact if_pos free
    · have open10 : (r == 11 && (s.tick t).b.wlockBurned 10) = false := by
        by_cases h : r = 11
        · rw [show (s.tick t).b.wlockBurned 10 = false from lock10 h, Bool.and_false]
        · rw [beq_eq_false_iff_ne.mpr h, Bool.false_and]
      have ready : (r != 11 && !(s.tick t).b.wordsComplete p) = false := by
        by_cases h : r = 11
        · rw [bne_eq_false_iff_eq.mpr h, Bool.false_and]
        · rw [show (s.tick t).b.wordsComplete p = true from complete h, Bool.not_true, Bool.and_false]
      have blanks : ((List.range 4).all fun i => ((s.tick t).b.wordAt (d + i)).blank) = true :=
        List.all_eq_true.mpr fun i hi => blank i (List.mem_range.mp hi)
      refine (if_neg (Nat.not_lt.mpr hr)).trans ?_
      show (match (s.tick t).b.servedBy r, (s.tick t).b.physOf (digestAt r) with | some p, some d => _ | _, _ => _) = _
      rw [show (s.tick t).b.servedBy r = some p from served, show (s.tick t).b.physOf (digestAt r) = some d from phys]
      refine if_neg ?_
      rw [show (s.tick t).b.wlockBurned r = false from lock, open10, blanks, ready]
      exact Bool.false_ne_true
    · obtain ⟨u, run, latched, burned⟩ := State.retire_run (s := s.tick t) port unlocked hr life fresh spare
      refine ⟨u, next_of_takes takes ((State.otpTurn_idle (s := s.tick t) _ _ free).trans run), (burned _).mpr (.inl (.inl rfl)),
        latched, fun i hi bit => (burned _).mpr (.inr ⟨i, hi, bit, rfl⟩), fun j hj hother => Bool.eq_iff_iff.mpr ?_⟩
      refine (burned j).trans ?_
      rw [or_iff_right hj, or_iff_left fun ⟨i, hi, bit, e⟩ => hother i hi bit e]
      rfl
    · refine (if_neg (Nat.not_le.mpr hrow)).trans (if_pos ?_)
      rw [show (s.tick t).b.lifeMayBurn 11 = true from life, show (s.tick t).b.wlockBurned 11 = false from lock]
      rfl
    · refine (if_neg (Nat.not_le.mpr (fld_lt w 7 0))).trans ?_
      show (match (s.tick t).b.freeRedirect with | some p => _ | none => _) = _
      rw [show (s.tick t).b.freeRedirect = some p from entry]
      refine if_pos ?_
      rw [show (s.tick t).b.lifeMayBurn 10 = true from life, show (s.tick t).b.wlockBurned 10 = false from lock]
      rfl
  · intro tok
    have stored := OtherAntifuses.storeSession (s := s.tick t) y
    refine ⟨fun o => ?_, fun mv l => ⟨fun good => ?_, fun bad => ?_⟩⟩
    · obtain ⟨ended, arrivals, locks⟩ := (s.tick t).sessionEnds_fields y o
      refine ⟨_, congrArg Host.Outcome.next ((s.tick t).sessionDone_run running alone o), ended.session, fun op i z hi hz => ?_,
        fun op z l hz => ?_, arrivals, locks, fun token kept => ?_⟩
      · exact (ended.wordAt _).trans (State.storeSession_words (s.tick t) op hi hz)
      · obtain ⟨rows, strict⟩ := State.storeSession_rows (s.tick t) op hz
        exact ⟨(congrArg (nget · y.target 0) ended.rows).trans rows, (congrArg (nget · y.target 0) ended.rowsStrict).trans strict⟩
      · have same := (ended.others.tokenOf pOTP y.reader).trans ((stored o).tokenOf pOTP y.reader)
        exact State.settle_kept ((congrArg Token.token same).trans token) ((congrArg Token.kept same).trans kept)
    · show Host.Outcome.next (State.vppFails mv l (s.tick t)) = _
      rw [State.vppFails, show (s.tick t).b.otp.session = some y from running]
      exact congrArg Host.Outcome.next (if_pos good)
    · obtain ⟨v, run, fcl, ended⟩ := (s.tick t).vppFails_run running alone bad l
      refine ⟨_, congrArg Host.Outcome.next run, ended.session, fun op i z hi hz => ?_, ?_, fun token kept => ?_⟩
      · exact (ended.wordAt _).trans (State.storeSession_words (s.tick t) op hi hz)
      · exact List.map_append.trans (congrArg (fun g : Fcl => g.arrivals.map (·.id) ++ [83]) fcl)
      · have same := (ended.others.tokenOf pOTP y.reader).trans ((stored _).tokenOf pOTP y.reader)
        exact State.settle_kept ((congrArg Token.token same).trans token) ((congrArg Token.kept same).trans kept)
  · refine congrArg Host.Outcome.next ((State.plain_reaches (s := s.tick t) (rd := rd) (page := pOTP) _ reaches).trans ?_)
    rw [State.otpReadCmd, if_pos ha]
  · refine congrArg Host.Outcome.next ((State.plain_reaches (s := s.tick t) (rd := rd) (page := pOTP) _ reaches).trans ?_)
    rw [State.otpReadCmd, if_neg (Nat.not_le.mpr ha)]
    rfl

end Sys2Proof.Proofs

/-! SUPPORT. Life-cycle commands (R383 to R390): their gate, the start of a transition, and the device key. -/

namespace Sys2Proof.Machine

/-! ### The buffer written before a transition (R386) -/

theorem Recorder.flush_buffer (n : Nat) (r : Recorder) : (r.flush n).buffer = r.buffer.drop n := by
  induction n generalizing r with
  | zero => rfl
  | succ n ih =>
    unfold Recorder.flush
    extract_lets r1
    have same : r1.buffer = r.buffer := by
      unfold r1
      split
      · split <;> rfl
      · rfl
    rw [ih, ← same]
    cases e : r1.buffer with
    | nil => rw [Recorder.program, e, e, List.drop_nil, List.drop_nil]
    | cons y l => rw [((r1.program_fields true e).2.2.1 rfl).1, List.drop_succ_cons]

/-- What steps 1 and 2 of a transition do: source 69, and the buffer written where NAND works. -/
theorem State.lcsHalt_eq (op : Nat) (s : State) :
    s.lcsHalt op = (s.raise 69 (mkw op)).onRecd fun r => if s.b.nandOn then r.flush r.buffer.length else r := by
  unfold State.lcsHalt
  extract_lets s1
  rw [show s1.b.nandOn = s.b.nandOn from rfl]
  split <;> rfl

theorem State.lcsHalt_arrivals (op : Nat) (s : State) :
    (s.lcsHalt op).b.fcl.arrivals.map (·.id) = s.b.fcl.arrivals.map (·.id) ++ [69] := by
  rw [State.lcsHalt_eq]
  exact List.map_append

theorem State.lcsHalt_rest (op : Nat) (s : State) : (s.lcsHalt op).b.lcs = s.b.lcs ∧ (s.lcsHalt op).b.otp = s.b.otp ∧
    (s.lcsHalt op).draws = s.draws := by
  rw [State.lcsHalt_eq]
  exact ⟨rfl, rfl, rfl⟩

theorem State.lcsHalt_buffer {s : State} (op : Nat) (h : s.b.nandOn = true) : (s.lcsHalt op).b.recd.buffer = [] := by
  rw [State.lcsHalt_eq, h]
  exact (Recorder.flush_buffer _ _).trans List.drop_length

/-! ### The gate (R383 to R385) -/

/-- State, port, supply and block let the command through. -/
def Blocks.lcsMay (b : Blocks) (rd : Reader) (op : Nat) : Prop :=
  b.lcsFrom op = true ∧ rd.port ∈ lcsPorts op ∧ b.pwr.powerDown = false ∧ nget b.lcs.blocked rd.port none = none

/-- The unlock, and the owner's signature where one is needed. -/
def Blocks.lcsAuth (b : Blocks) (rd : Reader) (op : Nat) (w : Word) : Prop :=
  b.unlocked rd = true ∧ (op ∈ [4, 5, 6] → fld w 15 14 = 2 ∧
    b.ownerSigned (fld w 13 12) (sigValue b.lcs.sig) (b.ownerBytes rd.idx op) = true)

/-- The state of a command past its gate: a fresh nonce for an owner's command, and no refusal in a row. -/
def State.lcsAdmitted (rd : Reader) (op : Nat) (s : State) : State :=
  (if op == 4 || op == 5 || op == 6 then s.newNonce rd.idx else s).onLcs fun l => { l with refusals := nset l.refusals rd.port 0 0 }

theorem Blocks.lcsMay_iff (b : Blocks) (rd : Reader) (op : Nat) : b.lcsMay rd op ↔
    (!b.lcsFrom op || !(lcsPorts op).contains rd.port || b.pwr.powerDown || (nget b.lcs.blocked rd.port none).isSome) = false := by
  simp [Blocks.lcsMay, and_assoc]

/-- The commands that an owner signs. -/
theorem lcsSigned_iff (op : Nat) : (op == 4 || op == 5 || op == 6) = true ↔ op ∈ [4, 5, 6] := by
  simp [or_assoc]

theorem Blocks.lcsAuth_iff (b : Blocks) (rd : Reader) (op : Nat) (w : Word) : b.lcsAuth rd op w ↔
    (!b.unlocked rd || ((op == 4 || op == 5 || op == 6) && !(fld w 15 14 == 2 &&
      b.ownerSigned (fld w 13 12) (sigValue b.lcs.sig) (b.ownerBytes rd.idx op)))) = false := by
  rw [Blocks.lcsAuth, ← lcsSigned_iff]
  generalize (op == 4 || op == 5 || op == 6) = signed
  cases signed <;> simp

variable {rd : Reader} {op : Nat} {w : Word} {s : State}

theorem State.lcsGate_refused (run : State → State × Nat) (h : ¬ s.b.lcsMay rd op) : s.lcsGate rd op w run = (s, rRefused) :=
  if_pos (Bool.not_eq_false _ ▸ fun e => h ((Blocks.lcsMay_iff _ _ _).mpr e))

theorem State.lcsGate_method (run : State → State × Nat) (h : s.b.lcsMay rd op) (method : fld w 15 14 = 1 ∨ fld w 15 14 = 3) :
    s.lcsGate rd op w run = (s, rBadArg) :=
  (if_neg (by rw [(Blocks.lcsMay_iff _ _ _).mp h]; exact Bool.false_ne_true)).trans (if_pos method)

/-- Past state, port and method, the authorisation decides. -/
theorem State.lcsGate_judged (run : State → State × Nat) (h : s.b.lcsMay rd op) (method : fld w 15 14 = 0 ∨ fld w 15 14 = 2) :
    let z := if (op == 4 || op == 5 || op == 6) && fld w 15 14 == 2 then s.newNonce rd.idx else s
    (¬ s.b.lcsAuth rd op w → s.lcsGate rd op w run = z.lcsRefuse rd.port) ∧
      (s.b.lcsAuth rd op w → s.lcsGate rd op w run = run (s.lcsAdmitted rd op)) := by
  intro z
  have past : s.lcsGate rd op w run = if !s.b.unlocked rd || ((op == 4 || op == 5 || op == 6) && !(fld w 15 14 == 2 &&
      s.b.ownerSigned (fld w 13 12) (sigValue s.b.lcs.sig) (s.b.ownerBytes rd.idx op))) then z.lcsRefuse rd.port
      else run (z.onLcs fun l => { l with refusals := nset l.refusals rd.port 0 0 }) :=
    (if_neg (by rw [(Blocks.lcsMay_iff _ _ _).mp h]; exact Bool.false_ne_true)).trans (if_neg (by omega))
  rw [past]
  refine ⟨fun bad => if_pos ((Bool.not_eq_false _).mp fun e => bad ((Blocks.lcsAuth_iff _ _ _ _).mpr e)), fun auth => ?_⟩
  have same : ((op == 4 || op == 5 || op == 6) && fld w 15 14 == 2) = (op == 4 || op == 5 || op == 6) := by
    by_cases signed : op ∈ [4, 5, 6]
    · rw [(auth.2 signed).1, beq_self_eq_true, Bool.and_true]
    · rw [Bool.eq_false_iff.mpr fun e => signed ((lcsSigned_iff op).mp e), Bool.false_and]
  rw [if_neg (by rw [(Blocks.lcsAuth_iff _ _ _ _).mp auth]; exact Bool.false_ne_true), State.lcsAdmitted]
  unfold z
  rw [same]

/-- A refusal for authorisation: source 66, one more refusal in a row, and at the fifth the port is blocked. -/
theorem State.lcsRefuse_fields (port : Nat) (s : State) : let u := (s.lcsRefuse port).1
    (s.lcsRefuse port).2 = rNotAuth ∧ u.b.fcl.arrivals.map (·.id) = s.b.fcl.arrivals.map (·.id) ++ [66] ∧
      nget u.b.lcs.refusals port 0 = nget s.b.lcs.refusals port 0 + 1 ∧
      (4 ≤ nget s.b.lcs.refusals port 0 → nget u.b.lcs.blocked port none = some s.b.now) := by
  refine ⟨rfl, List.map_append, nget_nset_same s.b.lcs.refusals port (nget s.b.lcs.refusals port 0 + 1) 0, fun h => ?_⟩
  exact (congrArg (nget · port none) (if_pos (Nat.succ_le_succ h))).trans (nget_nset_same _ _ _ _)

theorem State.lcsGate_notAuth (run : State → State × Nat) (h : s.b.lcsMay rd op) (method : fld w 15 14 = 0 ∨ fld w 15 14 = 2)
    (no : ¬ s.b.lcsAuth rd op w) : ∃ u, s.lcsGate rd op w run = (u, rNotAuth) ∧
      u.b.fcl.arrivals.map (·.id) = s.b.fcl.arrivals.map (·.id) ++ [66] ∧
      nget u.b.lcs.refusals rd.port 0 = nget s.b.lcs.refusals rd.port 0 + 1 ∧
      (4 ≤ nget s.b.lcs.refusals rd.port 0 → nget u.b.lcs.blocked rd.port none = some s.b.now) := by
  have judged := (State.lcsGate_judged run h method).1 no
  split at judged
  · exact ⟨_, judged, ((s.newNonce rd.idx).lcsRefuse_fields rd.port).2⟩
  · exact ⟨_, judged, (s.lcsRefuse_fields rd.port).2⟩

theorem State.lcsAdmitted_fields (rd : Reader) (op : Nat) (s : State) :
    (s.lcsAdmitted rd op).b.fcl = s.b.fcl ∧ (s.lcsAdmitted rd op).b.nandOn = s.b.nandOn := by
  unfold State.lcsAdmitted
  split <;> exact ⟨rfl, rfl⟩

/-- A transition that begins. -/
theorem State.lcsBegin_fields (rd : Reader) (op : Nat) (tok : BitVec 16) (s : State) : let u := (s.lcsBegin rd op tok).1
    u.b.lcs.op = some op ∧ u.b.lcs.step = 3 ∧ u.b.lcs.reader = rd.idx ∧ u.b.lcs.token = tok ∧
      u.b.fcl.arrivals.map (·.id) = s.b.fcl.arrivals.map (·.id) ++ [69] ∧ (s.b.nandOn = true → u.b.recd.buffer = []) :=
  ⟨rfl, rfl, rfl, rfl, s.lcsHalt_arrivals op, s.lcsHalt_buffer op⟩

/-! ### The device key (R384, R389) -/

/-- A burned rhizoid bit stays burned. -/
def KeepsBurned (s u : State) : Prop := ∀ i, s.b.burned i = true → u.b.burned i = true

theorem KeepsBurned.of_same {s u : State} (rhizoid : u.b.otp.rhizoid = s.b.otp.rhizoid) (latched : u.b.otp.latched = s.b.otp.latched) :
    KeepsBurned s u := fun i h => by
  rw [Blocks.burned, rhizoid, latched]
  exact h

theorem KeepsBurned.trans {s u v : State} (h : KeepsBurned s u) (k : KeepsBurned u v) : KeepsBurned s v := fun i b => k i (h i b)

theorem KeepsBurned.burnBit (i : Nat) (s : State) : KeepsBurned s (s.burnBit i) := fun j h => by
  rw [State.burnBit_burned, h, Bool.or_true]

theorem KeepsBurned.forL {α : Type} {f : α → State → State} (h : ∀ x s, KeepsBurned s (f x s)) (l : List α) (s : State) :
    KeepsBurned s (Machine.forL l f s) := by
  induction l generalizing s with
  | nil => exact fun _ b => b
  | cons x l ih => exact (h x s).trans (ih (f x s))

/-- A list of words set to one value. -/
theorem State.fillWords (v : OtpWord) (l : List Nat) (s : State) :
    let u := forL l (fun p s => s.onOtp fun o => { o with words := nset o.words p v {} }) s
    (∀ p, u.b.wordAt p = if p ∈ l then v else s.b.wordAt p) ∧ u.b.key = s.b.key ∧
      KeepsBurned s u := by
  induction l generalizing s with
  | nil => exact ⟨fun p => (if_neg List.not_mem_nil).symm, rfl, fun _ b => b⟩
  | cons q l ih =>
    obtain ⟨words, key, burned⟩ := ih (s.onOtp fun o => { o with words := nset o.words q v {} })
    refine ⟨fun p => (words p).trans ?_, key, burned⟩
    rw [show (s.onOtp fun o => { o with words := nset o.words q v {} }).b.wordAt p = _ from nget_nset s.b.otp.words q p v {}]
    by_cases hq : p = q
    · rw [if_pos hq.symm, ite_self, if_pos (List.mem_cons.mpr (.inl hq))]
    · rw [if_neg (Ne.symm hq)]
      exact if_congr (by rw [List.mem_cons, or_iff_right hq]) rfl rfl

/-- What a destruction that cannot be verified leaves. -/
theorem State.leaveKey_fields (s : State) : KeepsBurned s s.leaveKey ∧ s.leaveKey.b.key = s.b.key := by
  refine ⟨?_, (Only.leaveKey rfl (.refl 537395200 s)).same_of .key rfl⟩
  unfold State.leaveKey
  refine KeepsBurned.trans (KeepsBurned.forL ?_ _ s) (.of_same rfl rfl)
  exact fun _ _ => .of_same rfl rfl

/-- A key destroyed: key_revoke is burned and the vault cleared; a verified destruction leaves every key word burned throughout. -/
theorem State.destroyKey_fields (destroyed : Bool) (s : State) : let u := s.destroyKey destroyed
    u.b.key.vault = none ∧ u.b.burned 7 = true ∧
      (destroyed = true → u.b.key.held = false ∧
        ∀ p ∈ s.b.keyWords, u.b.wordAt p = { normal := BitVec.allOnes 72, strict := BitVec.allOnes 72 }) := by
  have revoked : ((s.burnBit 7).onKey fun k => { k with vault := none }).b.burned 7 = true :=
    (s.burnBit_burned 7 7).trans (by rw [decide_eq_true rfl, Bool.true_or])
  cases destroyed with
  | false =>
    obtain ⟨burned, key⟩ := ((s.burnBit 7).onKey fun k => { k with vault := none }).leaveKey_fields
    exact ⟨congrArg Key.vault key, burned 7 revoked, fun h => absurd h Bool.false_ne_true⟩
  | true =>
    obtain ⟨words, key, burned⟩ := State.fillWords { normal := BitVec.allOnes 72, strict := BitVec.allOnes 72 } s.b.keyWords
      (((s.burnBit 7).onKey fun k => { k with vault := none }).onKey fun k => { k with held := false })
    exact ⟨congrArg Key.vault key, burned 7 revoked, fun _ => ⟨congrArg Key.held key, fun p hp => (words p).trans (if_pos hp)⟩⟩

/-- A fresh key stored. -/
theorem State.storeKey_fields (key : BitVec 256) (s : State) : let u := s.storeKey key
    u.b.key.vault = some key ∧ u.b.key.held = true ∧ u.b.key.pub = Config.derivePub key ∧ u.b.burned 6 = true ∧
      u.b.fcl = s.b.fcl ∧ u.draws = s.draws := by
  have frame : Only 2621440 s (s.storeKey key) := .storeKey key rfl (.refl _ s)
  exact ⟨rfl, rfl, rfl, (State.burnBit_burned 6 6 _).trans (by rw [decide_eq_true rfl, Bool.true_or]),
    frame.same_of .fcl rfl, frame.same_of .draws rfl⟩

/-- A burn of the key that fails raises source 64. -/
theorem State.spoilKey_fields (key : BitVec 256) (s : State) : let u := s.spoilKey key
    u.b.fcl.arrivals.map (·.id) = s.b.fcl.arrivals.map (·.id) ++ [64] ∧ u.b.lcs = s.b.lcs := by
  have frame : Only 537460736 s (s.spoilKey key) := .spoilKey key rfl (.refl _ s)
  refine ⟨?_, frame.same_of .lcs rfl⟩
  unfold State.spoilKey
  extract_lets n left s1
  have fcl : s1.b.fcl = s.b.fcl := by
    unfold s1
    split
    · exact (Only.storeWords _ _ rfl (.refl 524288 s)).same_of .fcl rfl
    · rfl
  exact List.map_append.trans (congrArg (fun g : Fcl => g.arrivals.map (·.id) ++ [64]) fcl)

end Sys2Proof.Machine

namespace Sys2Proof.Proofs

open Sys2Proof Sys2Proof.Machine

/-- Settles O52: every command by the one gate, and past it by what its transition or its key operation leaves. -/
theorem lifeCycleCommands : Obligations.LifeCycleCommands := by
  intro t rd w s x method ends ids cmd may auth begun fails takes
  have gated : ∀ op c, cmd op c → ∃ run : State → State × Nat,
      exec c s = .next ((s.tick t).wt rd pLCS (wTok w) (State.otpTurn c (State.lcsGate rd op w run))) := by
    rintro op c (⟨rfl, rfl⟩ | ⟨h, p, rfl, rfl⟩ | ⟨rfl, rfl⟩ | ⟨rfl, rfl⟩ | ⟨d, rfl, rfl⟩ | ⟨rfl, rfl⟩ | ⟨rfl, rfl⟩) <;> exact ⟨_, rfl⟩
  have judged := fun (op : Nat) (run : State → State × Nat) (m : may op) (h : method = 0 ∨ method = 2) =>
    State.lcsGate_judged (rd := rd) (op := op) (w := w) (s := s.tick t) run m h
  refine ⟨fun busy op c hc => ?_, fun free idle => ⟨fun op c hc => ⟨fun no => ?_, fun m bad => ?_, fun m good no => ?_⟩, fun good => ?_⟩⟩
  · obtain ⟨run, e⟩ := gated op c hc
    exact e.trans (next_of_takes takes (State.otpTurn_busy (s := s.tick t) _ _ busy))
  · obtain ⟨run, e⟩ := gated op c hc
    exact e.trans (next_of_takes takes ((State.otpTurn_idle (s := s.tick t) _ _ ⟨free, idle⟩).trans
      (State.lcsGate_refused (s := s.tick t) run no)))
  · obtain ⟨run, e⟩ := gated op c hc
    exact e.trans (next_of_takes takes ((State.otpTurn_idle (s := s.tick t) _ _ ⟨free, idle⟩).trans
      (State.lcsGate_method (s := s.tick t) run m bad)))
  · obtain ⟨run, e⟩ := gated op c hc
    obtain ⟨u, refused, fields⟩ := State.lcsGate_notAuth (rd := rd) (op := op) (w := w) (s := s.tick t) run m good no
    exact ⟨u, e.trans (next_of_takes takes ((State.otpTurn_idle (s := s.tick t) _ _ ⟨free, idle⟩).trans refused)), fields⟩
  · have admitted : ∀ {op : Nat} {c : Instr} {run : State → State × Nat} {u : State} {k : Nat},
        exec c s = .next ((s.tick t).wt rd pLCS (wTok w) (State.otpTurn c (State.lcsGate rd op w run))) → may op → auth op →
        run ((s.tick t).lcsAdmitted rd op) = (u, k) → ends c u k := fun {op c run u k} e m a h =>
      e.trans (next_of_takes takes ((State.otpTurn_idle (s := s.tick t) _ _ ⟨free, idle⟩).trans
        (((judged op run m good).2 a).trans h)))
    have runs : ∀ {op : Nat} {c : Instr} {run : State → State × Nat},
        exec c s = .next ((s.tick t).wt rd pLCS (wTok w) (State.otpTurn c (State.lcsGate rd op w run))) → may op → auth op →
        run ((s.tick t).lcsAdmitted rd op) = ((s.tick t).lcsAdmitted rd op).lcsBegin rd op (wTok w) → begun op c :=
      fun {op c run} e m a h => by
        obtain ⟨fcl, nand⟩ := (s.tick t).lcsAdmitted_fields rd op
        obtain ⟨hop, step, reader, token, arrivals, buffer⟩ := ((s.tick t).lcsAdmitted rd op).lcsBegin_fields rd op (wTok w)
        exact ⟨_, admitted e m a h, hop, step, reader, token,
          arrivals.trans (congrArg (fun g : Fcl => g.arrivals.map (·.id) ++ [69]) fcl), fun on => buffer (nand.trans on)⟩
    let z := (s.tick t).lcsAdmitted rd 2
    let z5 := (s.tick t).lcsAdmitted rd 5
    have stay : s.b.keyBlank = true → s.b.fcl.a.latch.getLsbD 88 = false → ¬ (!z.b.keyBlank || z.b.fcl.a.latch.getLsbD 88) = true :=
      fun blank fresh => by
        rw [show z.b.keyBlank = true from blank, show z.b.fcl.a.latch.getLsbD 88 = false from fresh]
        exact Bool.false_ne_true
    refine ⟨fun m a => ⟨fun h0 h1 => ?_, fun h => ?_⟩, fun m a => ⟨fun h => fun h' p => ?_, fun blank fresh => ⟨?_, fun p => ?_, ?_⟩⟩,
      fun m a => ⟨fun h1 h2 h3 => ?_, fun h => ?_⟩,
      fun m a => ⟨fun h1 h2 h3 => ?_, fun h => ?_⟩, fun m a => ⟨?_, ?_⟩, fun m a => ?_, fun m a => runs rfl m a rfl⟩
    · refine runs rfl m a (if_neg (α := State × Nat) ?_)
      show ¬ (s.b.regionBad 0 || s.b.regionBad 1) = true
      rw [h0, h1]
      exact Bool.false_ne_true
    · exact ⟨_, admitted rfl m a (if_pos (Bool.or_eq_true_iff.mpr h)), (List.append_nil _).symm, idle⟩
    · refine ⟨_, admitted rfl m a (if_pos (Bool.or_eq_true_iff.mpr (h.imp_left fun e => ?_))), (List.append_nil _).symm, idle⟩
      exact (Bool.not_eq_true' _).mpr e
    · have arrivals := z.lcsHalt_arrivals 2
      obtain ⟨lcs, -, draws⟩ := z.lcsHalt_rest 2
      obtain ⟨vault, held, pub, burned, fcl, drawn⟩ := (z.lcsHalt 2).draw.2.storeKey_fields (z.lcsHalt 2).draw.1
      obtain ⟨spoilt, spoiltLcs⟩ := (z.lcsHalt 2).draw.2.spoilKey_fields (z.lcsHalt 2).draw.1
      have key : (z.lcsHalt 2).draw.1 = Config.entropy s.draws := congrArg Config.entropy draws
      by_cases burns : Config.keyBurns s.draws = true
      · have good : ¬ (!Config.keyBurns (z.lcsHalt 2).draws) = true := by
          rw [show (z.lcsHalt 2).draws = s.draws from draws, burns]
          exact Bool.false_ne_true
        refine ⟨_, rDone, admitted rfl m a ((if_neg (stay blank fresh)).trans ((if_neg Bool.false_ne_true).trans
          ((if_neg Bool.false_ne_true).trans (if_neg good)))), ?_⟩
        rw [if_pos burns, ← key]
        exact ⟨rfl, vault, held, pub, burned, (congrArg (fun g : Fcl => g.arrivals.map (·.id)) fcl).trans arrivals,
          drawn.trans (congrArg (· + 1) draws)⟩
      · have bad : (!Config.keyBurns (z.lcsHalt 2).draws) = true := by
          rw [show (z.lcsHalt 2).draws = s.draws from draws, Bool.eq_false_iff.mpr burns]
          rfl
        refine ⟨_, rBadArg, admitted rfl m a ((if_neg (stay blank fresh)).trans ((if_neg Bool.false_ne_true).trans
          ((if_neg Bool.false_ne_true).trans (if_pos bad)))), ?_⟩
        rw [if_neg burns]
        refine ⟨rfl, spoilt.trans ?_, (congrArg Lcs.op (spoiltLcs.trans lcs)).trans idle⟩
        exact (congrArg (· ++ [64]) arrivals).trans (List.append_assoc _ _ _)
    · refine ⟨_, admitted rfl m a ((if_neg (stay blank fresh)).trans (if_pos rfl)), ?_, (congrArg Lcs.op (z.lcsHalt_rest 2).1).trans idle⟩
      exact List.map_append.trans ((congrArg (· ++ [88]) (z.lcsHalt_arrivals 2)).trans (List.append_assoc _ _ _))
    · refine ⟨_, admitted rfl m a ((if_neg (stay blank fresh)).trans ((if_neg Bool.false_ne_true).trans (if_pos rfl))), ?_,
        (congrArg Lcs.op (z.lcsHalt_rest 2).1).trans idle⟩
      exact List.map_append.trans ((congrArg (· ++ [89]) (z.lcsHalt_arrivals 2)).trans (List.append_assoc _ _ _))
    · refine runs rfl m a (if_neg (α := State × Nat) ?_)
      show ¬ (s.b.key.vault.isNone || decide (s.b.key.certLen > 992) ||
        !Config.certAccepted s.b.key.certBytes s.b.serial s.b.key.pub) = true
      rw [← Option.not_isSome, h1, decide_eq_false (Nat.not_lt.mpr h2), h3]
      exact Bool.false_ne_true
    · refine ⟨_, admitted rfl m a (if_pos (Bool.or_eq_true_iff.mpr (.inl (Bool.or_eq_true_iff.mpr (h.imp (fun e => ?_) ?_))))),
        (List.append_nil _).symm, idle⟩
      · exact congrArg Option.isNone e
      · exact decide_eq_true
    · refine runs rfl m a (if_pos (α := State × Nat) ?_)
      show (s.b.mayDeploy && s.b.cfg.image.isSome && !s.b.img.certs.isEmpty) = true
      rw [h1, h2, List.isEmpty_eq_false_iff.mpr h3]
      rfl
    · refine ⟨_, admitted rfl m a (if_neg (α := State × Nat)
          (c := (s.b.mayDeploy && s.b.cfg.image.isSome && !s.b.img.certs.isEmpty) = true) ?_),
        (List.append_nil _).symm, idle⟩
      rcases h with h | h | h <;> rw [h] <;> simp
    · obtain ⟨vault, burned, gone⟩ := (z5.lcsHalt 5).destroyKey_fields true
      obtain ⟨held, words⟩ := gone rfl
      have frame : Only 539492352 (z5.lcsHalt 5) ((z5.lcsHalt 5).destroyKey true) := .destroyKey true rfl (.refl _ _)
      refine ⟨_, admitted rfl m a (if_pos rfl), rfl, vault, held, burned,
        (congrArg (fun g : Fcl => g.arrivals.map (·.id)) (frame.same_of .fcl rfl)).trans (z5.lcsHalt_arrivals 5), fun p hp => ?_⟩
      refine words p ?_
      rwa [show (z5.lcsHalt 5).b.keyWords = s.b.keyWords by rw [State.lcsHalt_eq]; rfl]
    · obtain ⟨vault, burned, -⟩ := (z5.lcsHalt 5).destroyKey_fields false
      have frame : Only 539492352 (z5.lcsHalt 5) ((z5.lcsHalt 5).destroyKey false) := .destroyKey false rfl (.refl _ _)
      refine ⟨_, admitted rfl m a (if_neg Bool.false_ne_true), ?_, vault, burned⟩
      have arrivals := (congrArg (fun g : Fcl => g.arrivals.map (·.id)) (frame.same_of .fcl rfl)).trans (z5.lcsHalt_arrivals 5)
      exact List.map_append.trans ((congrArg (· ++ [68]) arrivals).trans (List.append_assoc _ _ _))
    · let y := (((s.tick t).lcsAdmitted rd 6).raise 476).onLcs fun l => { l with debugDue := true, unlocked := true }
      have lcs : (y.record 0x0D [Config.unlockPair, 2]).b.lcs = y.b.lcs := (y.record_only _ _).same_of .lcs rfl
      exact ⟨_, admitted rfl m a rfl, congrArg Lcs.debugDue lcs, congrArg Lcs.unlocked lcs, _,
        (Posts.record 0x0D _ y).mem (List.mem_append_right _ (List.mem_singleton.mpr rfl)), rfl⟩

end Sys2Proof.Proofs

/-! SUPPORT. Life-cycle resets and attestation (R386, R388). -/

namespace Sys2Proof.Machine

/-! ### The burns of a transition (R383, R386) -/

/-- What a burn of a transition keeps: burned bits, the commands that wait, and the kept results. -/
structure BurnsOn (s u : State) : Prop where
  burned : KeepsBurned s u
  waiting : u.b.otp.waiting = s.b.otp.waiting
  sys : u.b.sys = s.b.sys

namespace BurnsOn

variable {s u v : State}

theorem refl (s : State) : BurnsOn s s := ⟨fun _ b => b, rfl, rfl⟩

theorem trans (h : BurnsOn s u) (k : BurnsOn u v) : BurnsOn s v := ⟨h.burned.trans k.burned, k.waiting.trans h.waiting, k.sys.trans h.sys⟩

theorem ite {c : Prop} [Decidable c] (h : BurnsOn s u) (k : BurnsOn s v) : BurnsOn s (if c then u else v) := by
  split
  · exact h
  · exact k

theorem burnBit (i : Nat) (s : State) : BurnsOn s (s.burnBit i) := ⟨.burnBit i s, rfl, rfl⟩

theorem burnNew (i : Nat) (s : State) : BurnsOn s (s.burnNew i) := (refl s).ite (burnBit i s)

theorem lockRegion (r : Nat) (rlock : Bool) (s : State) : BurnsOn s (s.lockRegion r rlock) := by
  unfold State.lockRegion
  split
  · exact ((burnBit _ s).trans (burnBit _ _)).ite (burnBit _ s)
  · exact refl s

theorem cntAdvance (k : Nat) (s : State) : BurnsOn s (s.cntAdvance k) :=
  ite ⟨.of_same rfl rfl, rfl, rfl⟩ ⟨.of_same rfl rfl, rfl, rfl⟩

theorem cntRaise (k n v : Nat) (s : State) : BurnsOn s (s.cntRaise k n v) := by
  induction n generalizing s with
  | zero => exact refl s
  | succ n ih => exact (refl s).ite ((cntAdvance k s).ite ((cntAdvance k s).trans (ih _)))

theorem forL {l : List (State → State)} (h : ∀ f ∈ l, ∀ s, BurnsOn s (f s)) (s : State) :
    BurnsOn s (Machine.forL l (fun f s => f s) s) := by
  induction l generalizing s with
  | nil => exact refl s
  | cons f l ih => exact (h f List.mem_cons_self s).trans (ih (fun g hg => h g (List.mem_cons_of_mem f hg)) (f s))

/-- Every burn of a transition's row. -/
theorem lcsBurns (b : Blocks) (op : Nat) : ∀ f ∈ b.lcsBurns op, ∀ s, BurnsOn s (f s) := by
  have ended : ∀ p d s, BurnsOn s (State.burnOver p d s) := fun _ _ _ => ⟨.of_same rfl rfl, rfl, rfl⟩
  have cert : ∀ f ∈ b.certBurns, ∀ s, BurnsOn s (f s) := fun f hf => by
    unfold Blocks.certBurns at hf
    extract_lets data at hf
    split at hf
    · simp only [List.mem_append, List.mem_map, List.mem_singleton] at hf
      rcases hf with (⟨x, -, rfl⟩ | ⟨x, -, rfl⟩) | rfl
      · exact ended _ _
      · exact ended _ _
      · exact lockRegion 3 false
    · exact absurd hf List.not_mem_nil
  intro f hf
  unfold Blocks.lcsBurns at hf
  split at hf
  · obtain rfl := List.mem_singleton.mp hf
    exact burnNew 0
  · rcases List.mem_append.mp hf with hf | hf
    · exact cert f hf
    · simp only [List.mem_cons, List.not_mem_nil, or_false] at hf
      rcases hf with rfl | rfl | rfl <;> exact burnNew _
  · simp only [List.mem_cons, List.not_mem_nil, or_false] at hf
    rcases hf with rfl | rfl | rfl | rfl
    · exact burnNew 5
    · exact burnNew 10
    · exact cntRaise 1 1024 _
    · exact burnNew 2
  · simp only [List.mem_cons, List.not_mem_nil, or_false] at hf
    rcases hf with rfl | rfl
    · exact cntAdvance 3
    · exact burnNew 3
  · split at hf
    · obtain rfl := List.mem_singleton.mp hf
      exact cntAdvance 3
    · exact absurd hf List.not_mem_nil

end BurnsOn

theorem State.burnNew_burned (i : Nat) (s : State) : (s.burnNew i).b.burned i = true := by
  unfold State.burnNew
  split
  · assumption
  · exact (s.burnBit_burned i i).trans (by rw [decide_eq_true rfl, Bool.true_or])

/-- Every bit that a row names is burned by its burns. -/
theorem burned_of_burnNew_mem {l : List (State → State)} (h : ∀ f ∈ l, ∀ s, BurnsOn s (f s)) {i : Nat} (hi : State.burnNew i ∈ l)
    (s : State) : (Machine.forL l (fun f s => f s) s).b.burned i = true := by
  induction l generalizing s with
  | nil => exact absurd hi List.not_mem_nil
  | cons f l ih =>
    have rest : ∀ g ∈ l, ∀ s, BurnsOn s (g s) := fun g hg => h g (List.mem_cons_of_mem f hg)
    rcases List.mem_cons.mp hi with e | hi
    · subst e
      exact (BurnsOn.forL rest _).burned i (s.burnNew_burned i)
    · exact ih rest hi (f s)

/-- The rhizoid bits of a transition's row (R383). -/
def lcsRowBits (op : Nat) : List Nat :=
  if op = 1 then [0] else if op = 3 then [4, 9, 1] else if op = 4 then [5, 10, 2] else if op = 5 then [3] else []

theorem Blocks.lcsBurns_row (b : Blocks) {op i : Nat} (h : i ∈ lcsRowBits op) : State.burnNew i ∈ b.lcsBurns op := by
  unfold lcsRowBits at h
  split at h
  · next e => subst e; rw [List.mem_singleton.mp h]; exact List.mem_singleton.mpr rfl
  · split at h
    · next e => subst e; exact List.mem_append_right _ (List.mem_map_of_mem (f := State.burnNew) h)
    · split at h
      · next e =>
        subst e
        simp only [List.mem_cons, List.not_mem_nil, or_false] at h
        rcases h with rfl | rfl | rfl <;> simp [Blocks.lcsBurns]
      · split at h
        · next e => subst e; rw [List.mem_singleton.mp h]; exact List.mem_cons_of_mem _ (List.mem_singleton.mpr rfl)
        · exact absurd h List.not_mem_nil

/-- A chip reset keeps the antifuses and ends every transition. -/
theorem State.chipReset_kept (cause : Nat) (s : State) :
    (s.chipReset cause).b.otp = s.b.otp.kept ∧ (s.chipReset cause).b.lcs.op = none := by
  unfold State.chipReset
  extract_lets s1
  split
  · exact ⟨rfl, rfl⟩
  · exact ⟨(s1.release_only.same_of .otp rfl :), congrArg Lcs.op (s1.release_only.same_of .lcs rfl)⟩

/-- A transition whose burns are good: its bits are burned, and the hub takes a chip reset of cause 4. -/
theorem State.lcsFinish_good {op : Nat} {s : State} (running : s.b.lcs.op = some op) : ∃ y : State,
    s.lcsFinish true = y.chipReset 4 ∧ KeepsBurned s (y.chipReset 4) ∧
      ∀ i, State.burnNew i ∈ s.b.lcsBurns op → (y.chipReset 4).b.burned i = true := by
  let s1 := forL (s.b.lcsBurns op) (fun f s => f s) s
  let s2 := s1.record 0x04 [BitVec.ofNat 8 s.b.life.code, BitVec.ofNat 8 (s.b.lcsTarget op)]
  let y := (s2.flushAll s2.b.recd.buffer.length).onLcs fun l => { l with scanDue := l.scanDue || op == 7 }
  have otp : y.b.otp = s1.b.otp :=
    ((Only.flushAll _ rfl (.refl 4325376 s2)).same_of .otp rfl :).trans ((s1.record_only _ _).same_of .otp rfl)
  have kept : (y.chipReset 4).b.otp = s1.b.otp.kept := (y.chipReset_kept 4).1.trans (congrArg Otp.kept otp)
  have same : KeepsBurned s1 (y.chipReset 4) := .of_same (congrArg Otp.rhizoid kept :) (congrArg Otp.latched kept :)
  refine ⟨y, ?_, (BurnsOn.forL (.lcsBurns s.b op) s).burned.trans same, fun i hi =>
    same i (burned_of_burnNew_mem (.lcsBurns s.b op) hi s)⟩
  rw [State.lcsFinish, running]
  rfl

/-- A transition whose burns fail: it ends with source 64, and its command settles as a bad argument. -/
theorem State.lcsFinish_bad {op : Nat} {s : State} (running : s.b.lcs.op = some op) (alone : s.b.otp.waiting = []) : ∃ y : State,
    s.lcsFinish false = (y.raise 64 (mkw op)).settle pLCS s.b.lcs.reader s.b.lcs.token rBadArg ∧ y.b.lcs.op = none ∧
      KeepsBurned s y ∧ y.b.sys = s.b.sys := by
  let burns := s.b.lcsBurns op
  let done := burns.take (Config.burnsDone s.draws % max burns.length 1)
  have mem : ∀ f ∈ done, f ∈ burns := fun f hf => List.mem_of_mem_take hf
  have on := BurnsOn.forL (fun f hf => BurnsOn.lcsBurns s.b op f (mem f hf)) { s with draws := s.draws + 1 }
  refine ⟨(forL done (fun f s => f s) { s with draws := s.draws + 1 }).onLcs fun l => { l with op := none, step := 0 }, ?_, rfl,
    on.burned, on.sys⟩
  rw [State.lcsFinish, running]
  exact (if_neg Bool.false_ne_true).trans (State.drainAll_empty (on.waiting.trans alone))

/-! ### Attestation (R388) -/

theorem State.onAtt_att (rd : Nat) (f : Attest → Attest) (s : State) :
    nget (s.onAtt rd f).b.key.att rd {} = f (nget s.b.key.att rd {}) := nget_nupd_same _ _ _ f

/-- The attestation body: format 1, the life-cycle state, the serial number and the nonce in their places, 144 bytes. -/
theorem State.attestBody_fields (nonce : NMap Word) (s : State) : let body := s.attestBody nonce
    body.length = 144 ∧ body.take 3 = [0, 1, BitVec.ofNat 8 s.b.life.code] ∧
      (body.drop 4).take 8 = beBytes s.b.serial.toNat 8 ∧
      (body.drop 20).take 16 = (List.range 4).flatMap fun i => beBytes (nget nonce i 0).toNat 4 := by
  intro body
  have parts : ∃ d c : Nat, ∃ rest, body = (beBytes 1 2 ++ beBytes s.b.life.code 1 ++ beBytes d 1) ++ (beBytes s.b.serial.toNat 8 ++
      (beBytes c 8 ++ ((List.range 4).flatMap (fun i => beBytes (nget nonce i 0).toNat 4) ++ rest))) := by
    refine ⟨b2n s.b.cfg.dry + 2 * b2n (s.b.img.target == 1), s.b.img.cellId.toNat, ?rest, ?parts⟩
    case parts =>
      unfold body State.attestBody
      simp only [List.append_assoc]
      rfl
  have words : ((List.range 4).flatMap fun i => beBytes (nget nonce i 0).toNat 4).length = 16 := rfl
  obtain ⟨d, c, rest, parts⟩ := parts
  refine ⟨?_, ?_, ?_, ?_⟩
  · unfold body State.attestBody
    simp only [List.length_append, beBytes_length, List.length_map, List.length_range, List.length_replicate, words]
  · rw [parts]
    show [0, 1, BitVec.ofNat 8 (s.b.life.code / 256 ^ 0)] = _
    rw [pow_zero, Nat.div_one]
  · have head : (beBytes 1 2 ++ beBytes s.b.life.code 1 ++ beBytes d 1).length = 4 := rfl
    rw [parts, List.drop_left' head]
    exact List.take_left' (beBytes_length _ _)
  · have head : (beBytes 1 2 ++ beBytes s.b.life.code 1 ++ beBytes d 1 ++
        (beBytes s.b.serial.toNat 8 ++ beBytes c 8)).length = 20 := rfl
    rw [parts, ← List.append_assoc (beBytes s.b.serial.toNat 8), ← List.append_assoc (_ ++ beBytes d 1),
      List.drop_left' head]
    exact List.take_left' words

end Sys2Proof.Machine

namespace Sys2Proof.Proofs

open Sys2Proof Sys2Proof.Machine

/-- Settles O53: the burns of a transition and its chip reset, and the report of an attestation. -/
theorem lifeCycleEnds : Obligations.LifeCycleEnds := by
  intro t rd w s x bits a usable
  have may : usable ↔ (s.tick t).b.mayAttest = true := by
    rw [Blocks.mayAttest, Bool.and_eq_true_iff, Option.isNone_iff_eq_none]
    rfl
  refine ⟨fun op running => ⟨?_, fun alone => ?_⟩, fun idle ok => ?_, fun t0 blocked => ⟨fun due => ?_, fun early => ?_⟩, fun free => ?_,
    fun takes => ⟨fun off => ?_, fun on can => ?_, fun on cannot => ?_⟩, fun off => ?_, fun on can => ?_, fun on cannot => ?_⟩
  · obtain ⟨y, run, kept, burned⟩ := State.lcsFinish_good (s := s.tick t) running
    obtain ⟨cause, -, -, -, -, blank⟩ := y.chipReset_fields 4
    exact ⟨_, congrArg Host.Outcome.next run, cause, fun i hi => burned i (Blocks.lcsBurns_row _ hi), kept, (y.chipReset_kept 4).2,
      blank.image, blank.latchA, blank.latchB, blank.sog, blank.buffer, blank.shown⟩
  · obtain ⟨y, run, ended, kept, sys⟩ := State.lcsFinish_bad (s := s.tick t) running alone
    refine ⟨_, congrArg Host.Outcome.next run, ended, ⟨_, List.mem_append_right _ (List.mem_singleton.mpr rfl), rfl⟩, kept,
      fun token pending => ?_⟩
    have same : (y.raise 64 (mkw op)).b.tokenOf pLCS s.b.lcs.reader = s.b.tokenOf pLCS s.b.lcs.reader :=
      congrArg (fun g : Sys => nget g.tokens (tokKey pLCS s.b.lcs.reader) {}) sys
    exact State.settle_kept ((congrArg Token.token same).trans token) ((congrArg Token.kept same).trans pending)
  · show Host.Outcome.next (State.lcsFinish ok (s.tick t)) = _
    rw [State.lcsFinish, show (s.tick t).b.lcs.op = none from idle]
  · show Host.Outcome.next (State.lcsBlockEnd rd.port (s.tick t)) = _
    rw [State.lcsBlockEnd, show nget (s.tick t).b.lcs.blocked rd.port none = some t0 from blocked]
    exact congrArg Host.Outcome.next (if_pos due)
  · show Host.Outcome.next (State.lcsBlockEnd rd.port (s.tick t)) = _
    rw [State.lcsBlockEnd, show nget (s.tick t).b.lcs.blocked rd.port none = some t0 from blocked]
    exact congrArg Host.Outcome.next (if_neg (Nat.not_le.mpr early))
  · show Host.Outcome.next (State.lcsBlockEnd rd.port (s.tick t)) = _
    rw [State.lcsBlockEnd, show nget (s.tick t).b.lcs.blocked rd.port none = none from free]
  · exact next_of_takes takes (if_pos ((Bool.not_eq_true' _).mpr off))
  · exact next_of_takes takes ((if_neg (by rw [on]; exact Bool.false_ne_true)).trans (if_pos (may.mp can)))
  · exact next_of_takes takes ((if_neg (by rw [on]; exact Bool.false_ne_true)).trans (if_neg (may.not.mp cannot)))
  · exact congrArg Host.Outcome.next (if_pos ((Bool.not_eq_true' _).mpr off))
  · obtain ⟨length, life, serial, nonce⟩ := (s.tick t).attestBody_fields a.nonce
    have go : ¬ (!a.running) = true := by
      rw [on]
      exact Bool.false_ne_true
    exact ⟨_, (s.tick t).attestBody a.nonce, congrArg Host.Outcome.next ((if_neg go).trans (if_pos (may.mp can))), length, life, serial,
      nonce, State.onAtt_att rd.idx _ (s.tick t)⟩
  · have go : ¬ (!a.running) = true := by
      rw [on]
      exact Bool.false_ne_true
    exact congrArg Host.Outcome.next ((if_neg go).trans (if_neg (may.not.mp cannot)))

end Sys2Proof.Proofs

/-! SUPPORT. CFG_CMD (R426, R429, R439): who may give a command, and what its window programs. -/

namespace Sys2Proof.Machine

/-! ### Who may give a command (R439) -/

/-- CFG_RESULT names the command. -/
def State.cfgNamed (op : Nat) (s : State) : State := s.onCfg fun c => { c with resultOp := op, resultCheck := 0, resultSection := 0 }

/-- Cancelling is open to all; the rest needs the unlock over a port other than 3, or the step-7 stop outside DEPLOYED. -/
def Blocks.cfgMay (b : Blocks) (rd : Reader) (op k : Nat) : Prop :=
  op = 6 ∨ rd.port ≠ 3 ∧ b.unlocked rd = true ∨
    (b.pwr.phase = .stopped ∧ b.pwr.stoppedStep = 7) ∧ b.life ≠ .deployed ∧ 1 ≤ op ∧ op ≤ 4 ∧ k < 8 ∧ (rd.port = 1 ∨ rd.port = 3)

theorem Blocks.cfgMay_iff (b : Blocks) (rd : Reader) (op k : Nat) : b.cfgMay rd op k ↔
    (op = 6 ∨ b.stopOpen rd op k = true) ∨ ¬ (rd.port = 3 ∨ b.unlocked rd = false) := by
  have stop : b.stopOpen rd op k = true ↔ (b.pwr.phase = .stopped ∧ b.pwr.stoppedStep = 7) ∧ b.life ≠ .deployed ∧ 1 ≤ op ∧ op ≤ 4 ∧
      k < 8 ∧ (rd.port = 1 ∨ rd.port = 3) := by
    simp [Blocks.stopOpen, between, and_assoc]
  rw [Blocks.cfgMay, stop, not_or, Bool.not_eq_false, or_assoc, or_comm (a := rd.port ≠ 3 ∧ _)]

variable {rd : Reader} {op : Nat} {w : Word} {s : State}

theorem State.cfgOp_target (run : Nat → State → State × Nat) (h : 9 < fld w 15 12) :
    s.cfgOp rd op w run = (s.cfgNamed op, rBadArg) := if_pos h

theorem State.cfgOp_denied (run : Nat → State → State × Nat) (h : fld w 15 12 ≤ 9) (no : ¬ s.b.cfgMay rd op (fld w 15 12)) :
    s.cfgOp rd op w run = (s.cfgNamed op, rNotAuth) := by
  rw [Blocks.cfgMay_iff, not_or, not_not] at no
  exact (if_neg (Nat.not_lt.mpr h)).trans ((if_neg no.1).trans (if_pos no.2))

theorem State.cfgOp_runs (run : Nat → State → State × Nat) (h : fld w 15 12 ≤ 9) (may : s.b.cfgMay rd op (fld w 15 12)) :
    s.cfgOp rd op w run = run (fld w 15 12) (s.cfgNamed op) := by
  rw [Blocks.cfgMay_iff] at may
  refine (if_neg (Nat.not_lt.mpr h)).trans ?_
  by_cases h1 : op = 6 ∨ s.b.stopOpen rd op (fld w 15 12) = true
  · exact if_pos h1
  · exact (if_neg h1).trans (if_neg (may.resolve_left h1))

/-! ### Programming (R426) -/

/-- The bytes a window programs, from byte `off + n` on. -/
theorem nget_programFrom (off n : Nat) (l : List Byte) (m : NMap Byte) :
    let u := forL (l.zipIdx n) (fun y m => nset m (off + y.2) y.1 0) m
    (∀ i, i < l.length → nget u (off + n + i) 0 = l.getD i 0) ∧
      ∀ a, a < off + n ∨ off + n + l.length ≤ a → nget u a 0 = nget m a 0 := by
  induction l generalizing n m with
  | nil => exact ⟨fun i h => absurd h (Nat.not_lt_zero i), fun a _ => rfl⟩
  | cons x l ih =>
    obtain ⟨here, others⟩ := ih (n + 1) (nset m (off + n) x 0)
    refine ⟨fun i h => ?_, fun a h => (others a ?_).trans (nget_nset_other _ _ _ ?_)⟩
    · cases i with
      | zero => exact (others _ (.inl (by omega))).trans (nget_nset_same _ _ _ _)
      | succ i =>
        have k := here i (Nat.lt_of_succ_lt_succ h)
        rwa [show off + (n + 1) + i = off + n + (i + 1) by omega] at k
    · rw [List.length_cons] at h
      omega
    · rw [List.length_cons] at h
      omega

/-- What 256 programmed bytes leave. -/
theorem nget_programmed {bytes : List Byte} (off : Nat) (m : NMap Byte) (h : bytes.length = 256) :
    (∀ i, i < 256 → nget (programmed off bytes m) (off + i) 0 = bytes.getD i 0) ∧
      ∀ a, a < off ∨ off + 256 ≤ a → nget (programmed off bytes m) a 0 = nget m a 0 := by
  have run := nget_programFrom off 0 bytes m
  rw [h] at run
  rw [programmed, List.take_of_length_le h.le]
  exact run

/-- A window has 256 bytes. -/
theorem Upload.bytes_length (u : Upload) : u.bytes.length = 256 := by
  rw [Upload.bytes, List.length_flatMap]
  simp only [beBytes_length]
  rfl

/-- A slot with 256 bytes programmed. -/
def Slot.taking (k off : Nat) (bytes : List Byte) (spells : Spells) (x : Slot) : Slot :=
  { x with bytes := programmed off bytes x.bytes
           image := if k < 8 then spells.image.map (·.wrap) else none
           fw := if k < 8 then none else spells.fw }

theorem Slot.taking_fields (k off : Nat) (bytes : List Byte) (spells : Spells) (x : Slot) :
    (x.taking k off bytes spells).bytes = programmed off bytes x.bytes ∧ (x.taking k off bytes spells).isOpen = x.isOpen ∧
      (x.taking k off bytes spells).marks = x.marks := by
  simp only [Slot.taking, and_self]

/-- A program that is done. -/
theorem State.program_done {k off : Nat} {s : State} (bytes : List Byte) (spells : Spells) (isOpen : (s.b.slot k).isOpen = true)
    (free : s.b.slotBusy k = false) (fits : off % 256 = 0 ∧ (k < 8 → off + 256 ≤ 8386560)) :
    s.program k off bytes spells = (s.onSlot k (Slot.taking k off bytes spells), rDone) := by
  refine (if_neg ?_).trans (if_neg ?_)
  · rw [isOpen, free]
    exact fun h => h.elim Bool.noConfusion Bool.noConfusion
  · exact fun h => h.elim (fun h => h fits.1) fun h => Nat.not_lt.mpr (fits.2 h.1) h.2

/-- A window's offset advanced. -/
def Upload.advanced (up : Upload) : Upload := { up with off := (up.off + 256) % 2 ^ 23 }

/-- The state with the reader's window programmed. -/
def State.windowTaken (q k : Nat) (up : Upload) (spells : Spells) (s : State) : State :=
  (s.onSlot k (Slot.taking k up.off up.bytes spells)).onCfg fun c => { c with uploads := nupd c.uploads q {} Upload.advanced }

theorem State.windowTaken_slots (q k : Nat) (up : Upload) (spells : Spells) (s : State) :
    (s.windowTaken q k up spells).b.cfg.slots = nupd s.b.cfg.slots k {} (Slot.taking k up.off up.bytes spells) := rfl

theorem State.windowTaken_uploads (q k : Nat) (up : Upload) (spells : Spells) (s : State) :
    (s.windowTaken q k up spells).b.cfg.uploads = nupd s.b.cfg.uploads q {} Upload.advanced := rfl

/-- An open slot's window programmed, and the reader's offset advanced. -/
theorem State.programWindow_fields {q k : Nat} {up : Upload} {s : State} (spells : Spells) (isOpen : (s.b.slot k).isOpen = true)
    (free : s.b.slotBusy k = false) (window : nget s.b.cfg.uploads q {} = up)
    (fits : up.off % 256 = 0 ∧ (k < 8 → up.off + 256 ≤ 8386560)) :
    ∃ u : State, s.programWindow q spells k = (u, rDone) ∧
      (∀ i, i < 256 → nget (nget u.b.cfg.slots k {}).bytes (up.off + i) 0 = up.bytes.getD i 0) ∧
      (∀ a, a < up.off ∨ up.off + 256 ≤ a → nget (nget u.b.cfg.slots k {}).bytes a 0 = nget (s.b.slot k).bytes a 0) ∧
      (nget u.b.cfg.uploads q {}).off = (up.off + 256) % 2 ^ 23 ∧ (nget u.b.cfg.uploads q {}).data = up.data := by
  have run := State.program_done up.bytes spells isOpen free fits
  have whole : s.programWindow q spells k = (s.windowTaken q k up spells, rDone) := by
    rw [State.programWindow, window, run]
    rfl
  obtain ⟨inside, outside⟩ := nget_programmed up.off (s.b.slot k).bytes up.bytes_length
  have slot : (nget (s.windowTaken q k up spells).b.cfg.slots k {}).bytes = programmed up.off up.bytes (s.b.slot k).bytes := by
    rw [State.windowTaken_slots, nget_nupd_same, (Slot.taking_fields ..).1]
    rfl
  have load : nget (s.windowTaken q k up spells).b.cfg.uploads q {} = up.advanced := by
    rw [State.windowTaken_uploads, nget_nupd_same, window]
  refine ⟨_, whole, fun i hi => ?_, fun a ha => ?_, ?_, ?_⟩
  · rw [slot, inside i hi]
  · rw [slot, outside a ha]
  · rw [load, Upload.advanced]
  · rw [load, Upload.advanced]

/-! ### Sealing, loading and the plug (R423, R426, R431) -/

/-- A slot sealed: a seal mark, and closed. -/
def State.sealed (k : Nat) (s : State) : State := (s.addMark k 1).onSlot k fun x => { x with isOpen := false }

theorem State.sealed_fields (k : Nat) (s : State) : (nget (s.sealed k).b.cfg.slots k {}).isOpen = false ∧
    (nget (s.sealed k).b.cfg.slots k {}).marks =
      { kind := 1, seq := s.b.recd.seq, generation := ((s.b.slot k).image.map (·.gen)).getD 0 } :: (s.b.slot k).marks := by
  have closed := nget_nupd_same (s.addMark k 1).b.cfg.slots k {} fun x : Slot => { x with isOpen := false }
  have marked := nget_nupd_same s.b.cfg.slots k {} fun x : Slot =>
    { x with marks := { kind := 1, seq := s.b.recd.seq, generation := (x.image.map (·.gen)).getD 0 } :: x.marks }
  exact ⟨congrArg Slot.isOpen closed, (congrArg Slot.marks closed).trans (congrArg Slot.marks marked)⟩

/-- An open slot seals unless its check refuses it. -/
theorem State.slotSeal_image {k : Nat} {s : State} (hk : k < 8) (h : (s.b.slot k).isOpen = true ∧ s.b.slotBusy k = false) :
    (∀ x, s.b.slotFails k = some x → s.slotSeal k = (s.refuseImage k x, rBadArg)) ∧
      (s.b.slotFails k = none → s.slotSeal k = (s.sealed k, rDone)) := by
  have stays : ¬ ((s.b.slot k).isOpen = false ∨ s.b.slotBusy k = true) := by
    rw [h.1, h.2]
    exact fun h => h.elim Bool.noConfusion Bool.noConfusion
  refine ⟨fun x hx => ?_, fun hx => ?_⟩ <;> rw [State.slotSeal, if_neg stays, if_pos hk, hx]
  rfl

theorem State.slotSeal_firmware {k : Nat} {s : State} (hk : 8 ≤ k) (h : (s.b.slot k).isOpen = true ∧ s.b.slotBusy k = false) :
    (∀ c, s.b.fwFails (k - 8) = some c → s.slotSeal k =
      ((s.onCfg fun g => { g with resultCheck := c }).raise 26 (mkw (pl (k - 8) 8 8 + pl c 0 8)), rBadArg)) ∧
      (s.b.fwFails (k - 8) = none → s.slotSeal k = (s.sealed k, rDone)) := by
  have stays : ¬ ((s.b.slot k).isOpen = false ∨ s.b.slotBusy k = true) := by
    rw [h.1, h.2]
    exact fun h => h.elim Bool.noConfusion Bool.noConfusion
  refine ⟨fun x hx => ?_, fun hx => ?_⟩ <;> rw [State.slotSeal, if_neg stays, if_neg (Nat.not_lt.mpr hk), hx]
  rfl

/-- A load that is taken: at once in the step-7 stop, else due; it ends an acceptance under way. -/
theorem State.slotLoad_fields {q k : Nat} {tok : BitVec 16} {s : State} (hk : k < 8)
    (can : ¬ (s.b.slotBusy k = true ∨ s.b.cfg.loadDue.isSome = true ∨ s.b.cfg.loading.isSome = true ∨
      (s.b.slot k).marks.isEmpty = true ∨
      ¬ ((s.b.pwr.phase = .stopped ∧ s.b.pwr.stoppedStep = 7) ∨ s.b.running = true))) :
    ∃ u : State, s.slotLoad q tok k = (u, rPending) ∧ u.b.cfg.loadBy = some (q, tok) ∧
      ((s.b.pwr.phase = .stopped ∧ s.b.pwr.stoppedStep = 7) → u.b.cfg.loading = some k) ∧
      (¬ (s.b.pwr.phase = .stopped ∧ s.b.pwr.stoppedStep = 7) → u.b.cfg.loadDue = some k ∧ u.b.cfg.loading = s.b.cfg.loading) ∧
      (s.b.cfg.acceptState = 1 → u.b.cfg.acceptState = 0 ∧ ∃ y ∈ u.b.fcl.arrivals, y.id = 505) := by
  let s1 := if s.b.cfg.acceptState = 1 then s.acceptEnds 0 else s
  have ended : s.b.cfg.acceptState = 1 → s1.b.cfg.acceptState = 0 ∧ ∃ y ∈ s1.b.fcl.arrivals, y.id = 505 := fun h => by
    rw [show s1 = s.acceptEnds 0 from if_pos h]
    exact ⟨rfl, _, List.mem_append_right _ (List.mem_singleton.mpr rfl), rfl⟩
  have loading : s1.b.cfg.loading = s.b.cfg.loading := by
    unfold s1
    split <;> rfl
  have run : s.slotLoad q tok k = if s.b.pwr.phase = .stopped ∧ s.b.pwr.stoppedStep = 7
      then (s1.onCfg fun c => { c with loading := some k, loadBy := some (q, tok) }, rPending)
      else (s1.onCfg fun c => { c with loadDue := some k, loadBy := some (q, tok) }, rPending) :=
    (if_neg (Nat.not_le.mpr hk)).trans (if_neg can)
  by_cases stop : s.b.pwr.phase = .stopped ∧ s.b.pwr.stoppedStep = 7
  · exact ⟨_, run.trans (if_pos stop), rfl, fun _ => rfl, fun h => absurd stop h, ended⟩
  · exact ⟨_, run.trans (if_neg stop), rfl, fun h => absurd h stop, fun _ => ⟨rfl, loading⟩, ended⟩

/-- The plug is written with the accepted image, unless its mode or a write under way forbids it. -/
theorem State.writePlug_some {q : Nat} {tok : BitVec 16} {im : Image} {s : State} (h : s.b.acceptedImage = some im) :
    s.writePlug q tok = if im.plugMode = 0 ∨ s.b.cfg.plugWriting.isSome then (s, rRefused) else s.plugStart im (some (q, tok)) := by
  rw [State.writePlug, h, Blocks.plugModeNow, h]
  rfl

end Sys2Proof.Machine

namespace Sys2Proof.Proofs

open Sys2Proof Sys2Proof.Machine

/-- Settles O54: every command by the one gate, and past it by what it leaves of the store, the acceptance and the plug. -/
theorem configCommands : Obligations.ConfigCommands := by
  intro t rd w spells s named k ends cmd stop7 may up old shut fits fails sealed loadable takes
  have ran : ∀ {op : Nat} {c : Instr} {run : Nat → State → State × Nat} {u : State} {r : Nat},
      exec c s = (s.cfgCmd t rd op w run) → k ≤ 9 → may op → run k (named op) = (u, r) → ends c u r := fun e hk m h =>
    e.trans (next_of_takes takes ((State.cfgOp_runs (s := s.tick t) _ hk m).trans h))
  have gated : ∀ op c, cmd op c → ∃ run : Nat → State → State × Nat, exec c s = s.cfgCmd t rd op w run := by
    rintro op c (⟨rfl, rfl⟩ | ⟨rfl, rfl⟩ | ⟨rfl, rfl⟩ | ⟨rfl, rfl⟩ | ⟨rfl, rfl⟩ | ⟨rfl, rfl⟩ | ⟨rfl, rfl⟩ | ⟨rfl, rfl⟩) <;> exact ⟨_, rfl⟩
  have free : s.b.slotBusy k = false → ¬ s.b.slotBusy k = true := fun h => by
    rw [h]
    exact Bool.false_ne_true
  have yes : ∀ {b : Bool}, b = true → ¬ b = false := fun h => by
    rw [h]
    exact Bool.noConfusion
  have unshut : ¬ shut → old.isOpen = true ∧ s.b.slotBusy k = false := fun h =>
    ⟨Bool.eq_true_of_not_eq_false fun e => h (.inl e), Bool.eq_false_iff.mpr fun e => h (.inr e)⟩
  have seals : k ≤ 9 → may 3 → (named 3).slotSeal k = ((named 3).sealed k, rDone) → sealed := fun hk m run => by
    obtain ⟨isOpen, mark⟩ := (named 3).sealed_fields k
    exact ⟨_, ran rfl hk m run, isOpen, _, mark, rfl, rfl⟩
  have writes : ∀ {im : Image}, im.plugMode ≠ 0 → s.b.cfg.plugWriting = none → ¬ (im.plugMode = 0 ∨ s.b.cfg.plugWriting.isSome = true) :=
    fun nz idle h => h.elim nz fun e => by
      rw [idle] at e
      exact Bool.false_ne_true e
  have unloadable : (s.b.slotBusy k = true ∨ s.b.cfg.loadDue.isSome = true ∨ s.b.cfg.loading.isSome = true ∨ old.marks.isEmpty = true ∨
      ¬ (stop7 ∨ s.b.running = true)) ↔ ¬ loadable := by
    rw [List.isEmpty_iff, show loadable = (¬ _ ∧ _) from rfl, not_and_or, not_not, or_assoc, or_assoc, or_assoc]
  refine ⟨fun op c hc => ⟨fun hk => ?_, fun hk no => ?_⟩, fun hk => ⟨fun m => ⟨fun busy => ?_, fun idle => ?_⟩,
    fun m => ⟨fun hs => ?_, fun hs hf => ?_, fun hs hf => ?_⟩, fun m => ⟨fun hs => ?_, fun hs hk8 => ?_, fun hs hk8 => ?_⟩,
    fun m => ⟨fun hk8 => ?_, fun hk8 no => ?_, fun hk8 can => ?_⟩, fun m => ⟨fun no => ?_, fun can bad => ?_, fun can good => ?_⟩,
    ⟨fun waits => ?_, fun none => ?_⟩, fun m => ⟨fun hk8 => ?_, fun hk8 busy => ?_, fun hk8 idle => ?_⟩,
    fun m => ⟨fun none => ?_, fun im some_ no => ?_, fun im some_ nz idle => ⟨fun small => ?_, fun room => ?_⟩⟩⟩⟩
  · obtain ⟨run, e⟩ := gated op c hc
    exact e.trans (next_of_takes takes (State.cfgOp_target (s := s.tick t) _ hk))
  · obtain ⟨run, e⟩ := gated op c hc
    exact e.trans (next_of_takes takes (State.cfgOp_denied (s := s.tick t) _ hk no))
  · exact ran rfl hk m (if_pos busy)
  · exact ran rfl hk m (if_neg (free idle))
  · refine ran rfl hk m ?_
    rw [State.programWindow, show (named 2).program k _ _ spells = ((named 2), rRefused) from if_pos hs]
    rfl
  · refine ran rfl hk m ?_
    have bad : (nget (named 2).b.cfg.uploads rd.idx {}).off % 256 ≠ 0 ∨
        (k < 8 ∧ (nget (named 2).b.cfg.uploads rd.idx {}).off + 256 > 8386560) := by
      rw [not_and_or, Classical.not_imp, Nat.not_le] at hf
      exact hf
    rw [State.programWindow, show (named 2).program k _ _ spells = ((named 2), rBadArg) from (if_neg hs).trans (if_pos bad)]
    rfl
  · obtain ⟨isOpen, idle⟩ := unshut hs
    obtain ⟨u, run, fields⟩ := State.programWindow_fields (s := named 2) (q := rd.idx) (k := k) (up := up) spells isOpen idle rfl hf
    exact ⟨u, ran rfl hk m run, fields⟩
  · exact ran rfl hk m (if_pos hs)
  · obtain ⟨refused, passes⟩ := State.slotSeal_image (s := named 3) hk8 (unshut hs)
    exact ⟨fun x hx => ⟨_, ran rfl hk m (refused x hx), rfl, rfl, List.map_append, rfl⟩, fun hx => seals hk m (passes hx)⟩
  · obtain ⟨refused, passes⟩ := State.slotSeal_firmware (s := named 3) hk8 (unshut hs)
    exact ⟨fun x hx => ⟨_, ran rfl hk m (refused x hx), rfl, rfl, List.map_append, rfl⟩, fun hx => seals hk m (passes hx)⟩
  · exact ran rfl hk m (if_pos hk8)
  · exact ran rfl hk m ((if_neg (Nat.not_le.mpr hk8)).trans (if_pos (unloadable.mpr no)))
  · obtain ⟨u, run, by_, stop, due, ends505⟩ := State.slotLoad_fields (s := named 4) (q := rd.idx) (tok := wTok w) hk8
      (unloadable.not.mpr (not_not.mpr can))
    have unloading : s.b.cfg.loading = none := Option.not_isSome_iff_eq_none.mp fun h => can.1 (.inr (.inr (.inl h)))
    exact ⟨u, ran rfl hk m run, by_, stop, fun h => ⟨(due h).1, (due h).2.trans unloading⟩, ends505⟩
  · exact ran rfl hk m (if_pos no)
  · exact ran rfl hk m ((if_neg (yes can)).trans (if_pos bad))
  · exact ⟨_, ran rfl hk m ((if_neg (yes can)).trans (if_neg (yes good))), rfl, rfl, rfl, rfl,
      getLsbD_setb_self s.b.hif.irqPend 2 true (by decide)⟩
  · exact ⟨_, ran rfl hk (.inl rfl) (if_pos waits), rfl, List.map_append⟩
  · exact ran rfl hk (.inl rfl) (if_neg none)
  · exact ran rfl hk m (if_pos hk8)
  · exact ran rfl hk m ((if_neg (Nat.not_le.mpr hk8)).trans (if_pos busy))
  · exact ran rfl hk m ((if_neg (Nat.not_le.mpr hk8)).trans (if_neg (free idle)))
  · refine ran rfl hk m ?_
    rw [State.writePlug, show (named 8).b.acceptedImage = .none from none]
  · refine ran rfl hk m ?_
    exact (State.writePlug_some (s := named 8) some_).trans (if_pos no)
  · exact ⟨_, ran rfl hk m ((State.writePlug_some (s := named 8) some_).trans ((if_neg (writes nz idle)).trans (if_pos small))), rfl,
      List.map_append⟩
  · exact ⟨_, ran rfl hk m ((State.writePlug_some (s := named 8) some_).trans ((if_neg (writes nz idle)).trans (if_neg room))), rfl,
      rfl, rfl⟩

end Sys2Proof.Proofs

/-! SUPPORT. Loads, acceptance and the plug (R416, R423, R426 to R432). -/

namespace Sys2Proof.Machine

/-! ### An image comes into force (R428, R430) -/

theorem State.enterImage_fields (k : Nat) (im : Image) (dry foreign : Bool) (s : State) : let u := s.enterImage k im dry foreign
    u.b.cfg.image = some im.in4408 ∧ u.b.cfg.slot = k ∧ u.b.cfg.dry = dry ∧ u.b.cfg.loading = none ∧ u.b.cfg.slots = s.b.cfg.slots ∧
      u.b.pwr.phase = s.b.pwr.phase := by
  unfold State.enterImage
  extract_lets signed s1 u
  have frame : Only 5155323898 s1 u := .netRestart _ rfl (.firstRole rfl (.firstUse rfl (.refl _ s1)))
  have cfg : u.b.cfg = s1.b.cfg := frame.same_of .cfg rfl
  have phase : u.b.pwr.phase = s1.b.pwr.phase := frame.same_of .phase rfl
  rw [cfg, phase]
  exact ⟨rfl, rfl, rfl, rfl, rfl, rfl⟩

/-- A mark heads the list of its slot; the rest of CFG stays. -/
theorem State.addMark_fields (k kind : Nat) (s : State) : let u := s.addMark k kind
    (nget u.b.cfg.slots k {}).marks =
        { kind := kind, seq := s.b.recd.seq, generation := ((s.b.slot k).image.map (·.gen)).getD 0 } :: (s.b.slot k).marks ∧
      (nget u.b.cfg.slots k {}).image = (s.b.slot k).image := by
  have marked := nget_nupd_same s.b.cfg.slots k {} fun x : Slot =>
    { x with marks := { kind := kind, seq := s.b.recd.seq, generation := (x.image.map (·.gen)).getD 0 } :: x.marks }
  exact ⟨congrArg Slot.marks marked, (congrArg Slot.image marked :)⟩

theorem State.loadRecords_only (port : Nat) (im : Image) (l : List Nat) (s : State) : Only 37945344 s (s.loadRecords port im l) :=
  .loadRecords port im l rfl (.refl _ s)

/-- The image of slot `k` runs dry, with a load mark. -/
theorem State.loaded_fields {k : Nat} {im : Image} {s : State} (port : Nat) (foreign : Bool) (l : List Nat)
    (slot : (s.b.slot k).image = some im) :
    let u := ((s.enterImage k im true foreign).addMark k 2).loadRecords port im l
    u.b.cfg.image = some im.in4408 ∧ u.b.cfg.slot = k ∧ u.b.cfg.dry = true ∧ u.b.cfg.loading = none ∧
      u.b.pwr.phase = s.b.pwr.phase ∧
      ∃ m l, (nget u.b.cfg.slots k {}).marks = m :: l ∧ m.kind = 2 ∧ m.generation = im.gen := by
  intro u
  obtain ⟨image, at_, dry, loading, slots, phase⟩ := s.enterImage_fields k im true foreign
  have marks := ((s.enterImage k im true foreign).addMark_fields k 2).1
  have frame := ((s.enterImage k im true foreign).addMark k 2).loadRecords_only port im l
  have cfg : u.b.cfg = ((s.enterImage k im true foreign).addMark k 2).b.cfg := frame.same_of .cfg rfl
  rw [cfg, show u.b.pwr.phase = _ from frame.same_of .phase rfl]
  refine ⟨image, at_, dry, loading, phase, _, _, marks, rfl, ?_⟩
  show (Option.map _ (nget (s.enterImage k im true foreign).b.cfg.slots k {}).image).getD 0 = _
  rw [slots, show (nget s.b.cfg.slots k {}).image = some im from slot]
  rfl

/-! ### The load of a start (R416) -/

/-- A start's load ends with an image running, or in the stop of step 7. -/
def LoadEnds (u : State) : Prop :=
  u.b.pwr.phase = .running ∧ u.b.cfg.image.isSome = true ∨ u.b.pwr.phase = .stopped ∧ u.b.pwr.stoppedStep = 7

theorem State.stopAtSeven_ends (refused : Bool) (s : State) : LoadEnds (s.stopAtSeven refused) := .inr ⟨rfl, rfl⟩

/-- A stored image runs, live where its slot holds an accepted image and the unit is not RETURNED. -/
theorem State.startStored_fields (k : Nat) (im : Image) (s : State) : let u := s.startStored k im
    u.b.pwr.phase = .running ∧ u.b.cfg.image = some im.in4408 ∧ u.b.cfg.slot = k ∧
      u.b.cfg.dry = ((s.b.slot k).acceptSeq.isNone || s.b.life == .returned) := by
  unfold State.startStored
  extract_lets dry s1 u
  obtain ⟨image, at_, isDry, -, -, phase⟩ := s.startRuns.enterImage_fields k im dry false
  have begun : Only 65728 (s.startRuns.enterImage k im dry false) s1 := .beginStopped rfl (.refl _ _)
  have cfg1 : s1.b.cfg = (s.startRuns.enterImage k im dry false).b.cfg := begun.same_of .cfg rfl
  have phase1 : s1.b.pwr.phase = _ := begun.same_of .phase rfl
  have same : u.b.cfg = s1.b.cfg ∧ u.b.pwr.phase = s1.b.pwr.phase := by
    unfold u
    split
    · exact ⟨(s1.loadRecords_only 0 im [2]).same_of .cfg rfl, (s1.loadRecords_only 0 im [2]).same_of .phase rfl⟩
    · exact ⟨rfl, rfl⟩
  rw [same.1, same.2, cfg1, phase1]
  exact ⟨phase, image, at_, isDry⟩

theorem State.startPlug_ends (k : Nat) (im : Image) (foreign : Bool) (s : State) : LoadEnds (s.startPlug k im foreign) := by
  have frame := ((s.startRuns.enterImage k im true foreign).addMark k 2).loadRecords_only 0 im [1, 2]
  obtain ⟨image, -, -, -, -, phase⟩ := s.startRuns.enterImage_fields k im true foreign
  refine .inl ⟨(frame.same_of .phase rfl).trans phase, ?_⟩
  rw [show (s.startPlug k im foreign).b.cfg = _ from frame.same_of .cfg rfl]
  exact congrArg Option.isSome image

theorem State.lastResort_ends (p : PlugFind) (tried refused : Bool) (s : State) : LoadEnds (s.lastResort p tried refused) := by
  unfold State.lastResort
  split
  · split
    · exact stopAtSeven_ends refused s
    · split
      · exact startPlug_ends _ _ _ _
      · exact stopAtSeven_ends true _
  · exact stopAtSeven_ends refused s

theorem State.tryStored_ends (p : PlugFind) (tried refused : Bool) (l : List Nat) (s : State) :
    LoadEnds (s.tryStored p tried l refused) := by
  induction l generalizing refused s with
  | nil => exact s.lastResort_ends p tried refused
  | cons k l ih =>
    unfold State.tryStored
    split
    · next im _ _ =>
      obtain ⟨phase, image, -, -⟩ := s.startStored_fields k im
      exact .inl ⟨phase, congrArg Option.isSome image⟩
    · exact ih _ _
    · exact ih _ _

theorem State.configLoad_ends {s : State} (p : PlugFind) (h : s.b.pwr.phase = .firmwareUp) : LoadEnds (s.configLoad p) := by
  unfold State.configLoad
  rw [if_neg (not_not.mpr h)]
  split
  · exact s.tryStored_ends p false false _
  · extract_lets v s1
    split
    · split
      · split
        · exact startPlug_ends _ _ _ _
        · exact tryStored_ends _ _ _ _ _
      · exact tryStored_ends _ _ _ _ _
    · exact tryStored_ends _ _ _ _ _

/-- Where the plug is not read and the newest marked slot passes, its image runs. -/
theorem State.configLoad_stored {k : Nat} {l : List Nat} {im : Image} {s : State} (p : PlugFind) (up : s.b.pwr.phase = .firmwareUp)
    (noPlug : s.b.readsPlug = false) (order : s.b.loadOrder = k :: l) (passes : s.b.slotFails k = none)
    (slot : (s.b.slot k).image = some im) : s.configLoad p = s.startStored k im := by
  rw [State.configLoad, if_neg (not_not.mpr up), if_pos noPlug, order, State.tryStored]
  rw [passes, slot]

/-! ### The counter of an acceptance (R427) -/

/-- A counter raised towards a value reaches it, runs out, or goes up by the steps it may take. -/
theorem State.cntRaise_reaches (k n v : Nat) (s : State) : let u := s.cntRaise k n v
    v ≤ u.b.cntValue k ∨ u.b.cntExhausted k = true ∨ s.b.cntValue k + n ≤ u.b.cntValue k := by
  induction n generalizing s with
  | zero => exact .inr (.inr le_rfl)
  | succ n ih =>
    unfold State.cntRaise
    split
    · next h => exact .inl h
    · split
      · next h => exact .inr (.inl (by rw [State.cntAdvance, if_pos h]; exact h))
      · next h =>
        have step := State.cntAdvance_cntValue (Bool.eq_false_iff.mpr h)
        exact (ih (s.cntAdvance k)).imp_right (Or.imp_right fun g => by omega)

/-- A counter's value is what the antifuses hold. -/
theorem cntValue_congr {x y : Blocks} (k : Nat) (h : x.otp = y.otp) : x.cntValue k = y.cntValue k :=
  congrArg (fun o : Otp => (nget o.counters k [] ++ nget o.cntMarg k []).foldl (fun m i => max m (i + 1)) 0) h

/-! ### A commanded load (R430) -/

/-- A load whose image passes: it runs dry, with a load mark. -/
theorem State.loadDone_image {k : Nat} {im : Image} {s : State} (loading : s.b.cfg.loading = some k) (passes : s.b.slotFails k = none)
    (slot : (s.b.slot k).image = some im) : ∃ v : State, s.loadDone = v.settleBy s.b.cfg.loadBy rDone ∧
      v.b.cfg.image = some im.in4408 ∧ v.b.cfg.slot = k ∧ v.b.cfg.dry = true ∧ v.b.cfg.loading = none ∧ v.b.pwr.phase = .running ∧
      ∃ m l, (nget v.b.cfg.slots k {}).marks = m :: l ∧ m.kind = 2 ∧ m.generation = im.gen := by
  let s0 := s.onCfg fun c => { c with loading := none, loadBy := none }
  let s1 := if s.b.pwr.phase = .running then s0 else s0.startRuns
  have phase1 : s1.b.pwr.phase = .running := by
    unfold s1
    split
    · assumption
    · rfl
  have slot1 : (s1.b.slot k).image = some im := by
    unfold s1
    split <;> exact slot
  have run : ∃ port, s.loadDone = (((s1.enterImage k im true false).addMark k 2).loadRecords port im [1, 2]).settleBy
      s.b.cfg.loadBy rDone := by
    rw [State.loadDone, loading]
    dsimp only
    rw [passes, slot]
    exact ⟨_, rfl⟩
  obtain ⟨port, run⟩ := run
  obtain ⟨image, at_, dry, idle, phase, mark⟩ := State.loaded_fields (s := s1) port false [1, 2] slot1
  exact ⟨_, run, image, at_, dry, idle, phase.trans phase1, mark⟩

/-- A load whose image is refused: what ran before goes on. -/
theorem State.loadDone_refused {k : Nat} {f : Nat × Nat} {s : State} (loading : s.b.cfg.loading = some k)
    (fails : s.b.slotFails k = some f) : s.loadDone =
      ((s.onCfg fun c => { c with loading := none, loadBy := none, resultOp := 4 }).refuseImage k f).settleBy s.b.cfg.loadBy rBadArg := by
  rw [State.loadDone, loading]
  dsimp only
  rw [fails]
  rfl

/-! ### Acceptance (R427, R429, R431) -/

/-- What the start of a plug write does not touch. -/
structure BesidesPlug (s u : State) : Prop where
  otp : u.b.otp = s.b.otp
  sys : u.b.sys = s.b.sys
  slots : u.b.cfg.slots = s.b.cfg.slots
  acceptState : u.b.cfg.acceptState = s.b.cfg.acceptState
  acceptOut : u.b.cfg.acceptOut = s.b.cfg.acceptOut
  acceptBy : u.b.cfg.acceptBy = s.b.cfg.acceptBy
  clearDry : u.b.cfg.clearDry = s.b.cfg.clearDry

theorem State.plugStart_besides (im : Image) (who : Option (Nat × BitVec 16)) (s : State) : BesidesPlug s (s.plugStart im who).1 := by
  unfold State.plugStart
  split <;> exact ⟨rfl, rfl, rfl, rfl, rfl, rfl, rfl⟩

/-- The acceptance noted: the counter of a DEPLOYED unit, the accept mark and its record, and dry ends at the next capture. -/
def State.accepted (port : Nat) (s : State) : State :=
  ((((if s.b.life = .deployed then s.cntRaise 1 1024 s.b.img.generation else s).addMark s.b.cfg.slot 3).recordConfig 3 port s.b.img).onCfg
    fun c => { c with acceptState := 2, acceptOut := false, acceptBy := none, clearDry := true }).settleBy s.b.cfg.acceptBy rDone

/-- The plug is written after an acceptance where the image's plug mode says so. -/
def State.plugAfter (k : Nat) (s : State) : State :=
  match (s.b.slot k).image with
  | some x => if 1 ≤ x.plugMode then (s.plugStart x none).1 else s
  | none => s

theorem State.acceptAck_run {s : State} (waits : s.b.cfg.acceptState = 1) (out : s.b.cfg.acceptOut = true) :
    ∃ port, s.acceptAck = (s.accepted port).plugAfter s.b.cfg.slot :=
  ⟨_, if_pos ⟨waits, out⟩⟩

theorem State.plugAfter_besides (k : Nat) (s : State) : BesidesPlug s (s.plugAfter k) := by
  have stays : BesidesPlug s s := ⟨rfl, rfl, rfl, rfl, rfl, rfl, rfl⟩
  unfold State.plugAfter
  split
  · split
    · exact s.plugStart_besides _ none
    · exact stays
  · exact stays

theorem State.plugAfter_writes {k : Nat} {im : Image} {s : State} (slot : (s.b.slot k).image = some im) (mode : 1 ≤ im.plugMode)
    (room : s.b.cfg.plugMbit = 0 ∨ ¬ s.b.cfg.plugMbit * 2097152 < 4096 + im.length) :
    (s.plugAfter k).b.cfg.plugState = 7 ∧ (s.plugAfter k).b.cfg.plugWriting = some im := by
  have run : s.plugAfter k = s.onCfg fun c => { c with plugState := 7, plugWriting := some im, plugBy := none } := by
    rw [State.plugAfter, slot]
    refine (if_pos mode).trans (congrArg (fun r : State × Nat => r.1) (if_neg fun h => ?_))
    exact room.elim h.1 fun h' => h' h.2
  rw [run]
  exact ⟨rfl, rfl⟩

/-- A command named with a token settles. -/
theorem State.settleBy_kept {rd r : Nat} {tok : BitVec 16} {s : State} (h : (s.b.tokenOf pCFG rd).token = tok)
    (pending : (s.b.tokenOf pCFG rd).kept = rPending) : ((s.settleBy (some (rd, tok)) r).b.tokenOf pCFG rd).kept = r :=
  State.settle_kept h pending

theorem State.settleBy_only (who : Option (Nat × BitVec 16)) (r : Nat) (s : State) : Only 2 s (s.settleBy who r) :=
  .settleBy who r rfl (.refl 2 s)

/-- What an acceptance leaves of CFG, the antifuses and the kept results. -/
theorem State.accepted_fields (port : Nat) (s : State) : let u := s.accepted port
    (u.b.cfg.acceptState = 2 ∧ u.b.cfg.acceptOut = false ∧ u.b.cfg.acceptBy = none ∧ u.b.cfg.clearDry = true) ∧
      (u.b.cfg.plugMbit = s.b.cfg.plugMbit ∧ (u.b.slot s.b.cfg.slot).image = (s.b.slot s.b.cfg.slot).image) ∧
      (∃ m l, (nget u.b.cfg.slots s.b.cfg.slot {}).marks = m :: l ∧ m.kind = 3 ∧
        m.generation = ((nget s.b.cfg.slots s.b.cfg.slot {}).image.map (·.gen)).getD 0) ∧
      u.b.otp = (if s.b.life = .deployed then s.cntRaise 1 1024 s.b.img.generation else s).b.otp ∧
      (∀ r tok, s.b.cfg.acceptBy = some (r, tok) → (s.b.tokenOf pCFG r).token = tok → (s.b.tokenOf pCFG r).kept = rPending →
        (u.b.tokenOf pCFG r).kept = rDone) := by
  unfold State.accepted
  generalize counted : (if s.b.life = .deployed then s.cntRaise 1 1024 s.b.img.generation else s) = s1
  have raised : Only 589824 s s1 := by
    rw [← counted]
    split
    · exact .cntRaise 1 1024 _ rfl (.refl _ s)
    · exact .refl _ s
  have cfg1 : s1.b.cfg = s.b.cfg := raised.same_of .cfg rfl
  have sys1 : s1.b.sys = s.b.sys := raised.same_of .sys rfl
  obtain ⟨marks, image⟩ := s1.addMark_fields s.b.cfg.slot 3
  have noted : Only 37945344 (s1.addMark s.b.cfg.slot 3) ((s1.addMark s.b.cfg.slot 3).recordConfig 3 port s.b.img) :=
    .recordConfig 3 port _ rfl (.refl _ _)
  have cfg2 : ((s1.addMark s.b.cfg.slot 3).recordConfig 3 port s.b.img).b.cfg = (s1.addMark s.b.cfg.slot 3).b.cfg :=
    noted.same_of .cfg rfl
  have sys2 : ((s1.addMark s.b.cfg.slot 3).recordConfig 3 port s.b.img).b.sys = s1.b.sys := noted.same_of .sys rfl
  have otp2 : ((s1.addMark s.b.cfg.slot 3).recordConfig 3 port s.b.img).b.otp = s1.b.otp := noted.same_of .otp rfl
  generalize ((s1.addMark s.b.cfg.slot 3).recordConfig 3 port s.b.img) = s2 at cfg2 sys2 otp2
  intro u
  have settled := (s2.onCfg fun c => { c with acceptState := 2, acceptOut := false, acceptBy := none, clearDry := true }).settleBy_only
    s.b.cfg.acceptBy rDone
  have cfg : u.b.cfg = { s2.b.cfg with acceptState := 2, acceptOut := false, acceptBy := none, clearDry := true } :=
    settled.same_of .cfg rfl
  have slots : u.b.cfg.slots = (s1.addMark s.b.cfg.slot 3).b.cfg.slots := (congrArg Cfg.slots cfg).trans (congrArg Cfg.slots cfg2 :)
  have slot1 : s1.b.slot s.b.cfg.slot = s.b.slot s.b.cfg.slot := congrArg (fun c : Cfg => nget c.slots s.b.cfg.slot {}) cfg1
  rw [slot1] at marks image
  refine ⟨by rw [cfg]; exact ⟨rfl, rfl, rfl, rfl⟩, ⟨?_, ?_⟩, ⟨_, _, slots ▸ marks, rfl, rfl⟩, (settled.same_of .otp rfl :).trans otp2,
    fun r tok by_ token kept => ?_⟩
  · exact (congrArg Cfg.plugMbit cfg).trans ((congrArg Cfg.plugMbit cfg2 :).trans (congrArg Cfg.plugMbit cfg1 :))
  · rw [Blocks.slot, slots, image]
  · have same : s2.b.tokenOf pCFG r = s.b.tokenOf pCFG r :=
      congrArg (fun g : Sys => nget g.tokens (tokKey pCFG r) {}) (sys2.trans sys1)
    unfold u
    rw [by_]
    exact State.settleBy_kept (s := s2.onCfg _) ((congrArg Token.token same).trans token) ((congrArg Token.kept same).trans kept)

end Sys2Proof.Machine

namespace Sys2Proof.Proofs

open Sys2Proof Sys2Proof.Machine

/-- Settles O55: the ends of a load, of an acceptance and of a plug write, by what each leaves in CFG. -/
theorem configEvents : Obligations.ConfigEvents := by
  intro t mbit plug s x ids small
  refine ⟨fun off => ?_, fun im writing => ⟨fun h => ?_, fun h => ?_⟩, fun early => ?_, fun waits due => ?_, fun no => ?_,
    fun waits out => ?_, fun off => ?_, fun k loading => ⟨fun im passes slot => ?_, fun f fails => ?_⟩, fun no => ?_,
    fun up => ⟨?_, fun k l im noPlug order passes slot => ?_⟩⟩
  · show Host.Outcome.next (State.plugDone mbit (s.tick t)) = _
    rw [State.plugDone, show (s.tick t).b.cfg.plugWriting = none from off]
  · refine ⟨((s.tick t).onCfg fun c => { c with plugWriting := none, plugBy := none, plugMbit := mbit, plugState := 6 }).raise 506 (mkw 6),
      ?_, rfl, rfl, rfl, List.map_append⟩
    show Host.Outcome.next (State.plugDone mbit (s.tick t)) = _
    rw [State.plugDone, show (s.tick t).b.cfg.plugWriting = some im from writing]
    exact congrArg Host.Outcome.next (if_pos h)
  · refine ⟨(s.tick t).onCfg fun c => { c with plugWriting := none, plugBy := none, plugMbit := mbit, plugState := 2, plugGen := im.gen },
      ?_, rfl, rfl, rfl, rfl, (List.append_nil _).symm⟩
    show Host.Outcome.next (State.plugDone mbit (s.tick t)) = _
    rw [State.plugDone, show (s.tick t).b.cfg.plugWriting = some im from writing]
    exact congrArg Host.Outcome.next (if_neg h)
  · exact congrArg Host.Outcome.next (if_neg early)
  · exact ⟨_, congrArg Host.Outcome.next (if_pos ⟨waits, due⟩), rfl, rfl, List.map_append⟩
  · exact congrArg Host.Outcome.next (if_neg no)
  · obtain ⟨port, run⟩ := State.acceptAck_run (s := s.tick t) waits out
    obtain ⟨⟨state, outFalse, by_, clear⟩, ⟨plugMbit, image⟩, ⟨m, l, marks, kind, generation⟩, otp, kept⟩ := (s.tick t).accepted_fields port
    have rest := ((s.tick t).accepted port).plugAfter_besides (s.tick t).b.cfg.slot
    refine ⟨_, congrArg Host.Outcome.next run, rest.acceptState.trans state, rest.acceptOut.trans outFalse, rest.acceptBy.trans by_,
      rest.clearDry.trans clear, ⟨m, l, ?_, kind, generation⟩, fun deployed => ?_, fun other => ?_, fun im slot mode room => ?_,
      fun r tok hby token pending => ?_⟩
    · exact (congrArg (fun c : NMap Slot => (nget c s.b.cfg.slot {}).marks) rest.slots).trans marks
    · have counted := (rest.otp.trans otp).trans (congrArg (fun u : State => u.b.otp) (if_pos deployed))
      have value := cntValue_congr 1 counted
      rw [Blocks.cntExhausted, value]
      rcases (s.tick t).cntRaise_reaches 1 1024 s.b.img.generation with h | h | h
      · exact .inl h
      · exact .inr h
      · exact .inr (decide_eq_true ((Nat.le_add_left _ _).trans h))
    · exact (rest.otp.trans otp).trans (congrArg (fun u : State => u.b.otp) (if_neg other) : _ = (s.tick t).b.otp)
    · refine State.plugAfter_writes (image.trans slot) mode ?_
      rw [plugMbit]
      exact room
    · exact (congrArg (fun g : Sys => (nget g.tokens (tokKey pCFG r) {}).kept) rest.sys).trans (kept r tok hby token pending)
  · show Host.Outcome.next (State.loadDone (s.tick t)) = _
    rw [State.loadDone, show (s.tick t).b.cfg.loading = none from off]
  · obtain ⟨v, run, fields⟩ := State.loadDone_image (s := s.tick t) loading passes slot
    exact ⟨v, congrArg Host.Outcome.next run, fields⟩
  · exact ⟨_, congrArg Host.Outcome.next (State.loadDone_refused (s := s.tick t) loading fails), rfl, rfl, rfl, rfl, rfl,
      List.map_append⟩
  · exact congrArg Host.Outcome.next (if_pos no)
  · exact ⟨_, rfl, (s.tick t).configLoad_ends (plugHeld plug) up⟩
  · obtain ⟨phase, image, at_, dry⟩ := (s.tick t).startStored_fields k im
    exact ⟨_, congrArg Host.Outcome.next (State.configLoad_stored (s := s.tick t) (plugHeld plug) up noPlug order passes slot),
      phase, image, at_, dry⟩

end Sys2Proof.Proofs

/-! SUPPORT. The host port and the sessions of the management endpoint (R32, R33, R392, R434 to R436). -/

namespace Sys2Proof.Machine

/-! ### Words one after another (R32, R33) -/

/-- One access of a read: the word, or 0 where it is refused. -/
def readStep (rd : Reader) (addr : Nat) (p : List Word × State) (i : Nat) : List Word × State :=
  if accessOk (addr + 4 * i) then (p.1 ++ [(p.2.load rd (addr + 4 * i)).1], (p.2.load rd (addr + 4 * i)).2) else (p.1 ++ [0], p.2)

/-- One access of a write. -/
def writeStep (rd : Reader) (addr : Nat) (s : State) (w : Word × Nat) : State := s.busWrite rd (addr + 4 * w.2) 4 w.1

/-- Every access of `n` words is to be executed. -/
def accessAll (addr n : Nat) : Bool := (List.range n).all fun i => accessOk (addr + 4 * i)

theorem accessAll_succ (addr n : Nat) : accessAll addr (n + 1) = (accessOk addr && accessAll (addr + 4) n) := by
  rw [accessAll, List.range_succ_eq_map, List.all_cons, List.all_map]
  exact congrArg (accessOk addr && ·) (congrArg (List.range n).all (funext fun i => congrArg accessOk (by
    show addr + 4 * (i + 1) = addr + 4 + 4 * i
    omega)))

theorem State.readRun_eq (rd : Reader) (addr n : Nat) (l : List Word) (s : State) :
    (List.range n).foldl (readStep rd addr) (l, s) = (l ++ (s.readRun rd addr n).1, (s.readRun rd addr n).2.2) ∧
      (s.readRun rd addr n).2.1 = accessAll addr n := by
  induction n generalizing addr l s with
  | zero => exact ⟨congrArg (·, s) (List.append_nil l).symm, rfl⟩
  | succ n ih =>
    have shift : ∀ p i, readStep rd addr p (i + 1) = readStep rd (addr + 4) p i := fun p i => by
      unfold readStep
      rw [show addr + 4 * (i + 1) = addr + 4 + 4 * i by omega]
    have first : readStep rd addr (l, s) 0 = (l ++ [(if accessOk addr then s.load rd addr else (0, s)).1],
        (if accessOk addr then s.load rd addr else (0, s)).2) := by
      unfold readStep
      rw [Nat.mul_zero, Nat.add_zero]
      split <;> rfl
    rw [List.range_succ_eq_map, List.foldl_cons, List.foldl_map, funext₂ shift, first, accessAll_succ]
    obtain ⟨fold, all⟩ := ih (addr + 4) (l ++ [(if accessOk addr then s.load rd addr else (0, s)).1])
      (if accessOk addr then s.load rd addr else (0, s)).2
    rw [fold, List.append_assoc]
    exact ⟨rfl, congrArg (accessOk addr && ·) all⟩

theorem State.writeWords_eq (rd : Reader) (addr k : Nat) (ws : List Word) (s : State) :
    s.writeWords rd (addr + 4 * k) ws =
      (accessAll (addr + 4 * k) ws.length, (ws.zipIdx k).foldl (writeStep rd addr) s) := by
  induction ws generalizing k s with
  | nil => rfl
  | cons w ws ih =>
    have rest := ih (k + 1) (writeStep rd addr s (w, k))
    rw [show addr + 4 * (k + 1) = addr + 4 * k + 4 by omega] at rest
    rw [List.zipIdx_cons, List.foldl_cons, List.length_cons, accessAll_succ]
    exact congrArg (fun r : Bool × State => (accessOk (addr + 4 * k) && r.1, r.2)) rest

/-! ### Request frames (R434, R435) -/

theorem bytesAt_take (bs : List Byte) {n o k : Nat} (h : o + k ≤ n) : bytesAt (bs.take n) o k = bytesAt bs o k := by
  induction k generalizing o with
  | zero => rfl
  | succ k ih =>
    rw [bytesAt, bytesAt, ih (by omega), List.getD_eq_getElem?_getD, List.getD_eq_getElem?_getD, List.getElem?_take_of_lt (by omega)]

/-- The length of a request is read from its first byte. -/
theorem hifLength_take (bs : List Byte) : hifLength (bs.take (hifLength bs)) = hifLength bs := by
  have first : beAt (bs.take (hifLength bs)) 0 1 = beAt bs 0 1 :=
    congrArg beNat (bytesAt_take bs (by unfold hifLength; omega))
  rw [hifLength, hifIsWrite, hifWords, first]
  rfl

/-- The check value of a frame is right. -/
def crcGood (bs : List Byte) : Prop := (crc16 (bs.take (hifLength bs - 2))).toNat = beAt bs (hifLength bs - 2) 2

variable {bs : List Byte} {s : State}

theorem State.hifRequest_bad (h : ¬ crcGood bs) : s.hifRequest bs =
    ((s.onHif fun h => { h with crcErr := h.crcErr.inc }).raise 508).hifSend (hifResponse 1 (hifId bs) 0 []) := if_pos h

theorem State.hifRequest_kept {y : Kept} (h : crcGood bs) (kept : keptFor s.b.hif.cache (hifId bs) = some y) : s.hifRequest bs =
    if y.check = bytesAt bs (hifLength bs - 2) 2 then
      (s.onHif fun h => { h with dup := h.dup.inc }).hifSend (hifRepeat (y.responses.headD []))
    else (s.raise 509 (mkw (hifId bs))).hifSend (hifResponse 5 (hifId bs) 0 []) := by
  refine (if_neg (not_not.mpr h)).trans ?_
  rw [kept]
  rfl

theorem State.hifRequest_new (h : crcGood bs) (fresh : keptFor s.b.hif.cache (hifId bs) = none) : s.hifRequest bs =
    if beAt bs 0 1 / 64 ≤ 1 then s.hifExecute bs else (s.raise 510 (mkw (hifId bs))).hifSend (hifResponse 4 (hifId bs) 0 []) := by
  refine (if_neg (not_not.mpr h)).trans ?_
  rw [fresh]
  rfl

/-- A response is kept for its ID, unless that is 0. -/
def Hif.answered (bs r : List Byte) (h : Hif) : Hif :=
  { h with inFrame := false, frames := h.frames.inc, response := some r
           cache := keepAnswer { id := hifId bs, check := bytesAt bs (hifLength bs - 2) 2, responses := [r] } h.cache }

/-- A write request executed. -/
theorem State.hifExecute_write (h : beAt bs 0 1 / 64 = 1) :
    let v := ((wordsAt bs 6 (hifWords bs)).zipIdx.foldl (writeStep .hif (hifAddr bs)) (s.onHif fun h => { h with inFrame := true }))
    s.hifExecute bs = v.onHif (Hif.answered bs (hifResponse (if accessAll (hifAddr bs) (hifWords bs) then 0 else 3) (hifId bs)
      (v.b.lastResult .hif (hifAddr bs + 4 * (hifWords bs - 1))) [])) := by
  intro v
  have written := State.writeWords_eq .hif (hifAddr bs) 0 (wordsAt bs 6 (hifWords bs)) (s.onHif fun h => { h with inFrame := true })
  rw [Nat.mul_zero, Nat.add_zero, wordsAt, List.length_map, List.length_range, ← wordsAt] at written
  have run : (s.onHif fun h => { h with inFrame := true }).hifRun bs = _ := if_pos (decide_eq_true h)
  rw [written] at run
  rw [State.hifExecute, run]
  rfl

/-- A read request executed. -/
theorem State.hifExecute_read (h : beAt bs 0 1 / 64 = 0) :
    let r := (List.range (hifWords bs)).foldl (readStep .hif (hifAddr bs)) ([], s.onHif fun h => { h with inFrame := true })
    s.hifExecute bs = r.2.onHif (Hif.answered bs
      (hifResponse (if accessAll (hifAddr bs) (hifWords bs) then 0 else 3) (hifId bs) 0 r.1)) := by
  intro r
  obtain ⟨fold, all⟩ := State.readRun_eq .hif (hifAddr bs) (hifWords bs) [] (s.onHif fun h => { h with inFrame := true })
  have run : (s.onHif fun h => { h with inFrame := true }).hifRun bs = _ :=
    if_neg (fun e => by rw [hifIsWrite, h] at e; exact absurd e (by decide))
  rw [List.nil_append] at fold
  unfold r
  rw [State.hifExecute, run, fold, all]
  rfl

/-! ### Sessions (R392, R436) -/

/-- What an array kept for a reader is gone, whatever the page. -/
theorem nget_dropReader {α : Type} (m : NMap α) {rd : Nat} (h : rd < 16) (page : Nat) (d : α) :
    nget (dropReader m rd) (tokKey page rd) d = d := by
  refine (nget_filter m (fun k => k % 16 != rd) _ d).trans (if_neg ?_)
  rw [tokKey, Nat.mul_add_mod_self_right, Nat.mod_eq_of_lt h, bne_self_eq_false]
  exact Bool.false_ne_true

/-- A session that opens is a new reader: a fresh nonce, and nothing kept. -/
theorem State.handshake_fields {client : Bool} (j : Fin 4) (owner : Nat) (s : State) (h : (client && s.b.mayOpen owner) = true) :
    let u := s.handshake j owner client
    nget u.b.mgmt j.val {} = { isOpen := true, owner := owner, responses := (nget s.b.mgmt j.val {}).responses } ∧
      nget u.b.sys.experts (Reader.mgmt j).idx {} = { nonce := some s.draws } ∧ u.draws = s.draws + 1 ∧
      (∀ page, u.b.tokenOf page (Reader.mgmt j).idx = {}) ∧ nget u.b.cfg.uploads (Reader.mgmt j).idx {} = {} := by
  have run : s.handshake j owner client = (s.forgetReader (Reader.mgmt j).idx).onMgmt j.val fun x =>
      { isOpen := true, owner := owner, responses := x.responses } := if_pos h
  have small : (Reader.mgmt j).idx < 16 := by
    show 5 + j.val < 16
    omega
  rw [run]
  refine ⟨nget_nupd_same s.b.mgmt j.val {} fun x => { isOpen := true, owner := owner, responses := x.responses }, ?_, rfl,
    fun page => nget_dropReader s.b.sys.tokens small page {}, ?_⟩
  · have fresh := nget_nupd_same (ndel s.b.sys.experts (Reader.mgmt j).idx) (Reader.mgmt j).idx {} fun e : Expert =>
      { e with nonce := some s.draws }
    rw [nget_ndel, if_pos rfl] at fresh
    exact fresh
  · exact (nget_ndel _ _ _ _).trans (if_pos rfl)

end Sys2Proof.Machine

namespace Sys2Proof.Proofs

open Sys2Proof Sys2Proof.Machine

/-- Settles O56: frames by what their request is, accesses one by one, and the handshake by what it drops. -/
theorem hostPort : Obligations.HostPort := by
  intro t bytes j owner client s ids n bs id check good answers addr all framed done written reads key
  have len : hifLength bs = n := hifLength_take bytes
  have goodIff : good ↔ crcGood bs := by
    rw [crcGood, len]
  have frames : ∀ c, c = .hifRead t bytes ∨ c = .hifWrite t bytes → exec c s = .next ((s.tick t).hifFrame bytes) := by
    rintro c (rfl | rfl) <;> rfl
  have whole : s.b.hifOn = true → n ≤ bytes.length → (s.tick t).hifFrame bytes = (s.tick t).hifRequest bs := fun on h =>
    (if_neg (by rw [show (s.tick t).b.hifOn = true from on]; exact Bool.noConfusion)).trans (if_neg (Nat.not_lt.mpr h))
  have kept : ∀ (r : List Byte) (v : State), v.onHif (Hif.answered bs r) = v.onHif fun h =>
      { h with inFrame := false, frames := h.frames.inc, response := some r
               cache := if id = 0 then h.cache else ({ id := id, check := check, responses := [r] } :: h.cache).take 32 } := fun r v => by
    unfold Hif.answered
    rw [len]
    rfl
  have opens : (client && (s.tick t).b.mayOpen owner.val) = true ↔ client = true ∧ key := by
    rw [Bool.and_eq_true_iff]
    refine and_congr_right fun _ => (Bool.and_eq_true_iff).trans (and_congr_right fun _ => ?_)
    show (match s.b.cfg.image with | some im => _ | none => _) = true ↔ _
    cases s.b.cfg.image with
    | none => exact ⟨fun h => absurd h Bool.false_ne_true, fun ⟨_, h, _⟩ => absurd h (by simp)⟩
    | some im => exact decide_eq_true_iff.trans ⟨fun h => ⟨im, rfl, h⟩, fun ⟨_, e, h⟩ => by cases e; exact h⟩
  refine ⟨fun c hc => ⟨fun off => ?_, fun on => ⟨fun short => ?_, fun long => ⟨fun bad => ?_,
      fun ok y kept => ⟨fun same => ?_, fun other => ?_⟩,
    fun ok fresh => ⟨fun bad => ?_, fun rd => ?_, fun wr => ?_⟩⟩⟩⟩, fun off => ?_, fun on => ?_, fun no => ?_, fun ok usable => ?_⟩
  · exact (frames c hc).trans (congrArg Host.Outcome.next (if_pos off))
  · exact ⟨_, (frames c hc).trans (congrArg Host.Outcome.next ((if_neg (by
      rw [show (s.tick t).b.hifOn = true from on]; exact Bool.noConfusion)).trans (if_pos short))), rfl, List.map_append⟩
  · exact ⟨_, (frames c hc).trans (congrArg Host.Outcome.next ((whole on long).trans (State.hifRequest_bad (goodIff.not.mp bad)))), rfl,
      List.map_append⟩
  · exact ⟨_, (frames c hc).trans (congrArg Host.Outcome.next ((whole on long).trans
      ((State.hifRequest_kept (s := s.tick t) (goodIff.mp ok) kept).trans (if_pos (by rw [len]; exact same))))),
      rfl, (List.append_nil _).symm⟩
  · exact ⟨_, (frames c hc).trans (congrArg Host.Outcome.next ((whole on long).trans
      ((State.hifRequest_kept (s := s.tick t) (goodIff.mp ok) kept).trans (if_neg (by rw [len]; exact other))))), rfl, List.map_append⟩
  · exact ⟨_, (frames c hc).trans (congrArg Host.Outcome.next ((whole on long).trans
      ((State.hifRequest_new (s := s.tick t) (goodIff.mp ok) fresh).trans (if_neg (by omega))))), rfl, List.map_append⟩
  · have run := (State.hifRequest_new (s := s.tick t) (goodIff.mp ok) fresh).trans ((if_pos (by omega)).trans (State.hifExecute_read rd))
    exact (frames c hc).trans (congrArg Host.Outcome.next ((whole on long).trans (run.trans (kept _ _))))
  · have run := (State.hifRequest_new (s := s.tick t) (goodIff.mp ok) fresh).trans ((if_pos (by omega)).trans (State.hifExecute_write wr))
    exact (frames c hc).trans (congrArg Host.Outcome.next ((whole on long).trans (run.trans (kept _ _))))
  · exact congrArg Host.Outcome.next (if_neg (by rw [show (s.tick t).b.hifOn = false from off]; exact Bool.false_ne_true))
  · exact ⟨_, congrArg Host.Outcome.next (if_pos on), rfl, List.map_append⟩
  · exact congrArg Host.Outcome.next (if_neg (opens.not.mpr no))
  · obtain ⟨mgmt, expert, draws, tokens, uploads⟩ := (s.tick t).handshake_fields j owner.val (opens.mpr ⟨ok, usable⟩)
    exact ⟨_, rfl, mgmt, expert, draws, fun page _ => tokens (page * 4096), uploads⟩

end Sys2Proof.Proofs

/-! SUPPORT. Messages of the management endpoint (R337, R340, R436, R437). -/

namespace Sys2Proof.Machine

/-! ### A request (R436) -/

/-- A message of a type that is well formed. -/
def mgmtFormed (type : Nat) (fits : List Byte → Bool) (bs : List Byte) : Prop :=
  8 ≤ bs.length ∧ beAt bs 0 1 = type ∧ beAt bs 1 1 = 0 ∧ beAt bs 4 4 = bs.length - 8 ∧ fits (bs.drop 8) = true

variable {j : Fin 4} {type : Nat} {bs : List Byte} {fits : List Byte → Bool} {s : State}

theorem State.mgmtSend_session (j : Nat) (l : List (List Byte)) (s : State) : nget (s.mgmtSend j l).b.mgmt j {} =
    { nget s.b.mgmt j {} with responses := l.reverse ++ (nget s.b.mgmt j {}).responses } :=
  nget_nupd_same s.b.mgmt j {} fun x => { x with responses := l.reverse ++ x.responses }

theorem State.mgmtRequest_closed (run : MgmtAction) (h : (nget s.b.mgmt j.val {}).isOpen = false) :
    s.mgmtRequest j type bs fits run = s := if_pos h

theorem State.mgmtRequest_kept (run : MgmtAction) {y : Kept} (h : (nget s.b.mgmt j.val {}).isOpen = true)
    (kept : keptFor (nget s.b.mgmt j.val {}).cache (mgmtId bs) = some y) : s.mgmtRequest j type bs fits run =
      if y.check = bs then s.mgmtSend j.val (y.responses.map fun r => r.take 1 ++ beBytes stDuplicate 1 ++ r.drop 2)
      else (s.raise 509 (mkw (mgmtId bs))).mgmtSend j.val [mgmtMessage type stReused (mgmtId bs) []] := by
  refine (if_neg (by rw [h]; exact Bool.noConfusion)).trans ?_
  rw [kept]

theorem State.mgmtRequest_malformed (run : MgmtAction) (h : (nget s.b.mgmt j.val {}).isOpen = true)
    (fresh : keptFor (nget s.b.mgmt j.val {}).cache (mgmtId bs) = none) (no : ¬ mgmtFormed type fits bs) :
    s.mgmtRequest j type bs fits run = s.mgmtSend j.val [mgmtMessage type stMalformed (mgmtId bs) []] := by
  refine (if_neg (by rw [h]; exact Bool.noConfusion)).trans ?_
  rw [fresh]
  refine if_pos (by_contra fun g => no ?_)
  simp only [not_or, Nat.not_lt, not_not, Bool.not_eq_false] at g
  exact g

/-- A message on an open session that executes: what its action leaves, with the answers sent and kept. -/
theorem State.mgmtRequest_runs (run : MgmtAction) (h : (nget s.b.mgmt j.val {}).isOpen = true)
    (fresh : keptFor (nget s.b.mgmt j.val {}).cache (mgmtId bs) = none) (formed : mgmtFormed type fits bs) :
    let v := (run (bs.drop 8) s).2.2
    let out := (run (bs.drop 8) s).2.1.map fun body => mgmtMessage type (run (bs.drop 8) s).1 (mgmtId bs) body
    ∃ m, s.mgmtRequest j type bs fits run = v.on (fun b => { b with mgmt := m }) ∧ (∀ i, i ≠ j.val → nget m i {} = nget v.b.mgmt i {}) ∧
      nget m j.val {} = { nget v.b.mgmt j.val {} with
        cache := keepAnswer { id := mgmtId bs, check := bs, responses := out } (nget v.b.mgmt j.val {}).cache
        responses := out.reverse ++ (nget v.b.mgmt j.val {}).responses } := by
  intro v out
  let keep := fun x : MgmtSession => { x with cache := keepAnswer { id := mgmtId bs, check := bs, responses := out } x.cache }
  let send := fun x : MgmtSession => { x with responses := out.reverse ++ x.responses }
  refine ⟨nupd (nupd v.b.mgmt j.val {} keep) j.val {} send, ?_, fun i hi => ?_, ?_⟩
  · refine (if_neg (by rw [h]; exact Bool.noConfusion)).trans ?_
    rw [fresh]
    refine if_neg fun g => ?_
    obtain ⟨h0, h1, h2, h3, h4⟩ := formed
    rw [h4] at g
    simp only [h1, h2, h3, Nat.not_lt.mpr h0, ne_eq, not_true_eq_false, or_false, Bool.true_eq_false] at g
  · rw [nget_nupd, if_neg (Ne.symm hi), nget_nupd, if_neg (Ne.symm hi)]
  · rw [nget_nupd_same, nget_nupd_same]

/-! ### Reads and writes (R436) -/

/-- A read of words: each access on its own. -/
theorem mgmtReadRun_eq (rd : Reader) (body : List Byte) (s : State) :
    let r := (List.range (beAt body 4 2)).foldl (readStep rd (beAt body 0 4)) ([], s)
    mgmtReadRun rd body s = (if accessAll (beAt body 0 4) (beAt body 4 2) then 0 else 3, [wordBytes r.1], r.2) := by
  obtain ⟨fold, all⟩ := State.readRun_eq rd (beAt body 0 4) (beAt body 4 2) [] s
  rw [fold, mgmtReadRun, all]
  rfl

/-- A write of words: each access on its own, and the result of the last. -/
theorem mgmtWriteRun_eq (rd : Reader) (body : List Byte) (s : State) :
    let v := (wordsAt body 6 (beAt body 4 2)).zipIdx.foldl (writeStep rd (beAt body 0 4)) s
    mgmtWriteRun rd body s = (if accessAll (beAt body 0 4) (beAt body 4 2) then 0 else 3,
      [beBytes (v.b.lastResult rd (beAt body 0 4 + 4 * (beAt body 4 2 - 1))) 1], v) := by
  have run := State.writeWords_eq rd (beAt body 0 4) 0 (wordsAt body 6 (beAt body 4 2)) s
  have length : (wordsAt body 6 (beAt body 4 2)).length = beAt body 4 2 := by rw [wordsAt, List.length_map, List.length_range]
  rw [Nat.mul_zero, Nat.add_zero, length] at run
  rw [mgmtWriteRun, run]
  rfl

/-! ### Exports (R337) -/

theorem Recorder.usedSlot_exports (r : Recorder) (e : NMap Export) (slot : Nat) :
    ({ r with exports := e } : Recorder).usedSlot slot = { r.usedSlot slot with exports := e } := by
  unfold Recorder.usedSlot
  split <;> rfl

/-- What a window shows does not depend on the exports. -/
theorem Recorder.upcoming_exports (l : List Record) (r : Recorder) (e : NMap Export) :
    ({ r with exports := e } : Recorder).upcoming l = r.upcoming l := by
  induction l generalizing r with
  | nil => rfl
  | cons x l ih =>
    have slot : ({ r with exports := e } : Recorder).slotFor x.seq = r.slotFor x.seq := rfl
    have prev : ({ r with exports := e } : Recorder).prevFor x.seq = r.prevFor x.seq := rfl
    rw [Recorder.upcoming, Recorder.upcoming, slot, prev, usedSlot_exports]
    generalize x.placed (r.slotFor x.seq) (r.prevFor x.seq) = y
    exact congrArg (y :: ·) (ih { r.usedSlot (r.slotFor x.seq) with lastCrc := y.crc, lastSeq := y.seq })

theorem Recorder.find_exports (r : Recorder) (e : NMap Export) (seq : Nat) :
    ({ r with exports := e } : Recorder).find seq = r.find seq := by
  rw [Recorder.find, Recorder.find, Recorder.upcoming_exports]
  rfl

theorem bytesAt_length (l : List Byte) (o k : Nat) : (bytesAt l o k).length = k := by
  induction k generalizing o with
  | zero => rfl
  | succ k ih => exact congrArg (· + 1) (ih (o + 1))

theorem State.onExport_export (rd : Nat) (f : Export → Export) (s : State) :
    nget (s.onExport rd f).b.recd.exports rd {} = f (nget s.b.recd.exports rd {}) := nget_nupd_same _ _ _ f

/-- Finishing a signed copy leaves every record where it was. -/
theorem State.exportFinish_find (rd q : Nat) (s : State) : (s.exportFinish rd).b.recd.find q = s.b.recd.find q := by
  unfold State.exportFinish
  extract_lets x h d
  split
  · rfl
  · split <;> exact Recorder.find_exports s.b.recd _ q

/-- A signed copy asked for. -/
def Export.asked (body : List Byte) (x : Export) : Export :=
  { x with first := beAt body 0 6, count := beAt body 6 2
           nonce := forN 4 (fun i m => nset m i (mkw (beAt body (8 + 4 * i) 4)) 0) [] }

/-- The records a signed copy covers: those of its range that can be read. -/
def Recorder.covered (r : Recorder) (body : List Byte) : List Nat :=
  ((List.range (beAt body 6 2)).map (beAt body 0 6 + ·)).filter fun q => (r.find q).state == 1

/-- A signed copy with a usable key, and none under way, is formed and sent part by part. -/
theorem mgmtExportRun_formed {rd : Reader} {body : List Byte} {s : State} (count : 1 ≤ beAt body 6 2 ∧ beAt body 6 2 ≤ 1024)
    (usable : s.b.keyUsable = true) (idle : (nget s.b.recd.exports rd.idx {}).state ≠ 1) :
    let x := nget (mgmtExportRun rd body s).2.2.b.recd.exports rd.idx {}
    let seqs := s.b.recd.covered body
    let d := Config.sha256 (x.header ++ seqs.flatMap fun q => (s.b.recd.find q).data)
    (mgmtExportRun rd body s).1 = stExecuted ∧ x.header.length = 64 ∧ x.state = 2 ∧ x.seqs = seqs ∧
      (mgmtExportRun rd body s).2.1 = exportParts ([x.header] ++ seqs.map (fun q => (s.b.recd.find q).data) ++
        [beBytes d.toNat 32 ++ beBytes (s.b.sign d).toNat 64]) := by
  let s1 := s.onExport rd.idx (Export.asked body)
  let begun := fun x : Export => { x with state := 1, seqs := ((List.range x.count).map (x.first + ·)).filter s1.b.recd.readable }
  have own : nget s1.b.recd.exports rd.idx {} = (nget s.b.recd.exports rd.idx {}).asked body := State.onExport_export ..
  have starts : s1.exportBegin rd.idx = (s1.onExport rd.idx begun, rDone) := by
    refine (if_neg ?_).trans (if_neg ?_)
    · rw [own]
      show ¬ (beAt body 6 2 < 1 ∨ 1024 < beAt body 6 2)
      omega
    · rw [own, show s1.b.keyUsable = true from usable]
      show ¬ ((nget s.b.recd.exports rd.idx {}).state == 1) = true
      rw [beq_iff_eq]
      exact idle
  let z := s1.onExport rd.idx begun
  have second : nget z.b.recd.exports rd.idx {} = begun ((nget s.b.recd.exports rd.idx {}).asked body) :=
    (State.onExport_export ..).trans (congrArg begun own)
  have same : ∀ q, z.b.recd.find q = s.b.recd.find q := fun q =>
    (Recorder.find_exports s1.b.recd _ q).trans (Recorder.find_exports s.b.recd _ q)
  have covered : (nget z.b.recd.exports rd.idx {}).seqs = s.b.recd.covered body := by
    rw [second]
    exact congrArg (List.filter · _) (funext fun q => congrArg (fun w : Window => w.state == 1) (Recorder.find_exports s.b.recd _ q))
  obtain ⟨-, seqs, fields⟩ := State.exportFinish_fields (rd := rd.idx) (s := z) (congrArg Export.state second)
  rw [if_pos fun q hq => ?readable] at fields
  case readable =>
    rw [covered] at hq
    exact (congrArg Window.state (same q)).trans (beq_iff_eq.mp (List.mem_filter.mp hq).2)
  obtain ⟨state, header, hash, sig⟩ := fields
  have run : mgmtExportRun rd body s = (stExecuted, exportParts ((z.exportFinish rd.idx).b.exportStream
      (nget (z.exportFinish rd.idx).b.recd.exports rd.idx {})), z.exportFinish rd.idx) := by
    unfold mgmtExportRun
    extract_lets s1' r s2 x
    have taken : r = (z, rDone) := starts
    have finished : s2 = z.exportFinish rd.idx := by
      unfold s2
      rw [taken]
      rfl
    unfold x
    rw [finished, taken]
    exact if_pos ⟨rfl, state⟩
  have found := fun q => (State.exportFinish_find rd.idx q z).trans (same q)
  rw [covered] at seqs hash
  rw [funext same] at hash
  rw [run]
  refine ⟨rfl, ?_, state, seqs, congrArg exportParts ?_⟩
  · rw [show (nget (z.exportFinish rd.idx).b.recd.exports rd.idx {}).header.length = _ from congrArg List.length header]
    exact bytesAt_length _ _ _
  · rw [Blocks.exportStream, seqs, funext found, sig, hash]
    rfl

/-- Without a usable key, or while one is being formed, no signed copy is sent. -/
theorem mgmtExportRun_refused {rd : Reader} {body : List Byte} {s : State} (count : 1 ≤ beAt body 6 2 ∧ beAt body 6 2 ≤ 1024)
    (no : s.b.keyUsable = false ∨ (nget s.b.recd.exports rd.idx {}).state = 1) :
    (mgmtExportRun rd body s).1 = stRefused ∧ (mgmtExportRun rd body s).2.1 = [[]] := by
  let s1 := s.onExport rd.idx (Export.asked body)
  have own : nget s1.b.recd.exports rd.idx {} = (nget s.b.recd.exports rd.idx {}).asked body := State.onExport_export ..
  have refused : (s1.exportBegin rd.idx).2 = rRefused := by
    refine congrArg (fun r : State × Nat => r.2) ((if_neg ?_).trans (if_pos ?_))
    · rw [own]
      show ¬ (beAt body 6 2 < 1 ∨ 1024 < beAt body 6 2)
      omega
    · rw [own, show s1.b.keyUsable = s.b.keyUsable from rfl, Bool.or_eq_true_iff, Bool.not_eq_true', beq_iff_eq]
      exact no
  unfold mgmtExportRun
  extract_lets s1' r s2 x
  have stays : ¬ (r.2 = rDone ∧ x.state = 2) := fun h => absurd (refused.symm.trans h.1) (by decide)
  rw [if_neg stays]
  exact ⟨rfl, rfl⟩

/-! ### Uploads (R426, R437) -/

/-- A slot without marks holds no accepted image. -/
theorem Blocks.acceptedSlot_ne {b : Blocks} {k : Nat} (h : (b.slot k).marks = []) : b.acceptedSlot ≠ some k := by
  have unmarked : (nget b.cfg.slots k {}).acceptSeq = none := by
    rw [Slot.acceptSeq, Slot.newest, show (nget b.cfg.slots k {}).marks = [] from h, List.find?_nil]
    cases (nget b.cfg.slots k {}).image <;> rfl
  intro e
  obtain ⟨y, hy, own⟩ := Option.map_eq_some_iff.mp e
  refine (List.foldlRecOn (motive := fun best : Option (Nat × Nat) => ∀ y, best = some y → y.1 ≠ k) (List.range 8) _
    (fun y hy => by cases hy) (fun best ih i _ y hy => ?_)) y hy own
  by_cases hi : i = k
  · rw [hi, unmarked] at hy
    exact ih y hy
  · split at hy
    · split at hy
      · cases hy
        exact hi
      · exact ih y hy
    · cases hy
      exact hi
    · exact ih y hy

/-- A slot that takes windows from a reader. -/
structure Uploading (rd : Reader) (k : Nat) (s : State) : Prop where
  target : k ≤ 9
  port : rd.port = 2
  unlocked : s.b.unlocked rd = true
  isOpen : (s.b.slot k).isOpen = true
  marks : (s.b.slot k).marks = []
  free : s.b.slotBusy k = false

/-- The target field of an upload's commands. -/
theorem fld_uploadTarget (k : Nat) : fld (mkw (pl (min k 15) 12 4)) 15 12 = min k 15 := by
  unfold fld mkw pl
  rw [BitVec.toNat_ofNat]
  omega

/-- The state with one window of an upload programmed. -/
def State.windowed (k off : Nat) (bytes : List Byte) (spells : Spells) (s : State) : State :=
  (s.cfgNamed 2).onSlot k (Slot.taking k off bytes spells)

theorem State.windowed_slot (k off : Nat) (bytes : List Byte) (spells : Spells) (s : State) :
    (s.windowed k off bytes spells).b.slot k = (s.b.slot k).taking k off bytes spells :=
  nget_nupd_same s.b.cfg.slots k {} (Slot.taking k off bytes spells)

theorem Uploading.windowed {rd : Reader} {k : Nat} {s : State} (h : Uploading rd k s) (off : Nat) (bytes : List Byte) (spells : Spells) :
    Uploading rd k (s.windowed k off bytes spells) := by
  obtain ⟨-, isOpen, marks⟩ := Slot.taking_fields k off bytes spells (s.b.slot k)
  have unmarked : ((s.windowed k off bytes spells).b.slot k).marks = [] := by
    rw [State.windowed_slot, marks, h.marks]
  refine ⟨h.target, h.port, h.unlocked, ?_, unmarked, ?_⟩
  · rw [State.windowed_slot, isOpen, h.isOpen]
  · have free := h.free
    unfold Blocks.slotBusy at free ⊢
    split
    · next hk =>
      rw [if_pos hk, Bool.or_eq_false_iff, Bool.or_eq_false_iff, Bool.or_eq_false_iff] at free
      obtain ⟨⟨⟨running, -⟩, due⟩, loading⟩ := free
      exact Bool.or_eq_false_iff.mpr ⟨Bool.or_eq_false_iff.mpr ⟨Bool.or_eq_false_iff.mpr ⟨running,
        beq_eq_false_iff_ne.mpr (Blocks.acceptedSlot_ne unmarked)⟩, due⟩, loading⟩
    · next hk =>
      rw [if_neg hk] at free
      exact free

/-- The first of `n + 1` windows and the rest lie where all lie. -/
theorem window_room {off n limit : Nat} (h : off + 256 * (n + 1) ≤ limit) : off + 256 ≤ limit ∧ off + 256 + 256 * n ≤ limit := by
  omega

theorem window_outside {off n a : Nat} (h : a < off ∨ off + 256 * (n + 1) ≤ a) :
    (a < off + 256 ∨ off + 256 + 256 * n ≤ a) ∧ (a < off ∨ off + 256 ≤ a) := by
  omega

section

variable {rd : Reader} {k off : Nat} {spells : Spells}

/-- A session over port 2 with the unlock may program. -/
theorem State.cfgOp_session {s : State} (run : Nat → State → State × Nat) (port : rd.port = 2) (hk : k ≤ 9)
    (unlocked : s.b.unlocked rd = true) :
    s.cfgOp rd 2 (mkw (pl (min k 15) 12 4)) run = run k (s.cfgNamed 2) := by
  have target : fld (mkw (pl (min k 15) 12 4)) 15 12 = k := (fld_uploadTarget k).trans (min_eq_left (by omega))
  have may : s.b.cfgMay rd 2 (fld (mkw (pl (min k 15) 12 4)) 15 12) := .inr (.inl ⟨by omega, unlocked⟩)
  rw [State.cfgOp_runs run (by omega) may, target]

/-- A window that is not done ends the upload with its result. -/
theorem State.uploadWindows_ends {s z : State} {r : Nat} {x : List Byte} {rest : List (List Byte)}
    (run : ∀ found, s.cfgOp rd 2 (mkw (pl (min k 15) 12 4)) (fun k s => s.program k off x found) = (z, r)) (bad : r ≠ rDone) :
    s.uploadWindows rd k spells off (x :: rest) = (r, z) := by
  rw [State.uploadWindows, run]
  exact if_neg bad

/-- A window that is done leaves the others. -/
theorem State.uploadWindows_next {s : State} {x : List Byte} (rest : List (List Byte)) (h : Uploading rd k s)
    (fits : off % 256 = 0 ∧ (k < 8 → off + 256 ≤ 8386560)) : ∃ found, s.uploadWindows rd k spells off (x :: rest) =
      (s.windowed k off x found).uploadWindows rd k spells (off + 256) rest := by
  refine ⟨if rest.isEmpty then spells else {}, ?_⟩
  have run := fun found => (s.cfgOp_session (fun k s => s.program k off x found) h.port h.target h.unlocked).trans
    (State.program_done (s := s.cfgNamed 2) x found h.isOpen h.free fits)
  rw [State.uploadWindows, run]
  exact if_pos rfl

/-- An upload that fits: every window in its place, and nothing else. -/
theorem State.uploadWindows_done {s : State} (ws : List (List Byte)) (whole : ∀ x ∈ ws, x.length = 256) (h : Uploading rd k s)
    (aligned : off % 256 = 0) (room : k < 8 → off + 256 * ws.length ≤ 8386560) :
    ∃ u, s.uploadWindows rd k spells off ws = (rDone, u) ∧
      (∀ j x, ws[j]? = some x → ∀ i, i < 256 → nget (u.b.slot k).bytes (off + 256 * j + i) 0 = x.getD i 0) ∧
      ∀ a, a < off ∨ off + 256 * ws.length ≤ a → nget (u.b.slot k).bytes a 0 = nget (s.b.slot k).bytes a 0 := by
  induction ws generalizing s off with
  | nil => exact ⟨s, rfl, fun j x hx => absurd hx (by simp), fun _ _ => rfl⟩
  | cons x ws ih =>
    rw [List.length_cons] at room
    obtain ⟨found, run⟩ := State.uploadWindows_next (spells := spells) (x := x) ws h ⟨aligned, fun hk => (window_room (room hk)).1⟩
    obtain ⟨u, rest, inside, outside⟩ := ih (off := off + 256) (fun y hy => whole y (List.mem_cons_of_mem x hy)) (h.windowed off x found)
      (by omega) (fun hk => (window_room (room hk)).2)
    obtain ⟨here, there⟩ := nget_programmed off (s.b.slot k).bytes (whole x List.mem_cons_self)
    rw [State.windowed_slot, (Slot.taking_fields k off x found _).1] at outside
    refine ⟨u, run.trans rest, fun j y hy i hi => ?_, fun a ha => ?_⟩
    · cases j with
      | zero =>
        cases hy
        exact (outside _ (.inl (by omega))).trans (here i hi)
      | succ j =>
        have own := inside j y (by simpa using hy) i hi
        rwa [show off + 256 + 256 * j + i = off + 256 * (j + 1) + i by omega] at own
    · rw [List.length_cons] at ha
      exact (outside a (window_outside ha).1).trans (there a (window_outside ha).2)

/-- An upload that leaves the slot's space is a bad argument. -/
theorem State.uploadWindows_beyond {s : State} (ws : List (List Byte)) (some_ : ws ≠ []) (h : Uploading rd k s) (hk : k < 8)
    (aligned : off % 256 = 0) (beyond : 8386560 < off + 256 * ws.length) : (s.uploadWindows rd k spells off ws).1 = rBadArg := by
  induction ws generalizing s off with
  | nil => exact absurd rfl some_
  | cons x ws ih =>
    rw [List.length_cons] at beyond
    by_cases fits : off + 256 ≤ 8386560
    · obtain ⟨found, run⟩ := State.uploadWindows_next (spells := spells) (x := x) ws h ⟨aligned, fun _ => fits⟩
      rw [run]
      refine ih (off := off + 256) (fun e => ?_) (h.windowed off x found) (by omega) (by omega)
      rw [e, List.length_nil] at beyond
      omega
    · have run : ∀ found, s.cfgOp rd 2 (mkw (pl (min k 15) 12 4)) (fun k s => s.program k off x found) = (s.cfgNamed 2, rBadArg) :=
        fun found => (s.cfgOp_session _ h.port h.target h.unlocked).trans ((if_neg (by
          rw [show ((s.cfgNamed 2).b.slot k).isOpen = true from h.isOpen, show (s.cfgNamed 2).b.slotBusy k = false from h.free]
          exact fun h => h.elim Bool.noConfusion Bool.noConfusion)).trans (if_pos (.inr ⟨hk, Nat.lt_of_not_le fits⟩)))
      rw [State.uploadWindows_ends run (by decide)]

end

/-- What ends an upload at its first window: a target that is none, no unlock, a slot that is not open, an offset between windows. -/
theorem State.upload_refused {rd : Reader} {k off : Nat} {ws : List (List Byte)} {s : State} (spells : Spells) (some_ : ws ≠ [])
    (port : rd.port = 2) :
    (9 < k → (s.uploadWindows rd k spells off ws).1 = rBadArg) ∧
      (k ≤ 9 → s.b.unlocked rd = false → (s.uploadWindows rd k spells off ws).1 = rNotAuth) ∧
      (k ≤ 9 → s.b.unlocked rd = true → (s.b.slot k).isOpen = false ∨ s.b.slotBusy k = true →
        (s.uploadWindows rd k spells off ws).1 = rRefused) ∧
      (k ≤ 9 → s.b.unlocked rd = true → (s.b.slot k).isOpen = true ∧ s.b.slotBusy k = false → off % 256 ≠ 0 →
        (s.uploadWindows rd k spells off ws).1 = rBadArg) := by
  obtain ⟨w, ws, rfl⟩ := List.exists_cons_of_ne_nil some_
  have first : ∀ {r : Nat} {z : State}, (∀ found, s.cfgOp rd 2 (mkw (pl (min k 15) 12 4)) (fun k s => s.program k off w found) = (z, r)) →
      r ≠ rDone → (s.uploadWindows rd k spells off (w :: ws)).1 = r := fun run bad => by
    rw [State.uploadWindows_ends run bad]
  refine ⟨fun hk => ?_, fun hk locked => ?_, fun hk unlocked shut => ?_, fun hk unlocked stands skew => ?_⟩
  · exact first (fun found => State.cfgOp_target _ (by rw [fld_uploadTarget]; omega)) (by decide)
  · refine first (fun found => State.cfgOp_denied _ (by rw [fld_uploadTarget]; omega) fun may => ?_) (by decide)
    rcases may with h | ⟨-, h⟩ | ⟨-, -, -, -, -, h⟩
    · exact absurd h (by decide)
    · exact absurd (locked.symm.trans h) Bool.false_ne_true
    · omega
  · exact first (fun found => (s.cfgOp_session _ port hk unlocked).trans (if_pos shut)) (by decide)
  · have free : ¬ (((s.cfgNamed 2).b.slot k).isOpen = false ∨ (s.cfgNamed 2).b.slotBusy k = true) := by
      rw [show ((s.cfgNamed 2).b.slot k).isOpen = true from stands.1, show (s.cfgNamed 2).b.slotBusy k = false from stands.2]
      exact fun h => h.elim Bool.noConfusion Bool.noConfusion
    exact first (fun found => (s.cfgOp_session _ port hk unlocked).trans ((if_neg free).trans (if_pos (.inl skew)))) (by decide)

theorem bytesAt_getD (bs : List Byte) {o n i : Nat} (h : i < n) : (bytesAt bs o n).getD i 0 = bs.getD (o + i) 0 := by
  induction n generalizing o i with
  | zero => exact absurd h (Nat.not_lt_zero i)
  | succ n ih =>
    cases i with
    | zero => rfl
    | succ i =>
      rw [bytesAt, List.getD_cons_succ, ih (Nat.lt_of_succ_lt_succ h)]
      congr 1
      omega

/-- The windows of a list of bytes. -/
theorem windowsOf_getElem? (bs : List Byte) {j : Nat} (h : j < bs.length / 256) : (windowsOf bs)[j]? = some (bytesAt bs (256 * j) 256) := by
  rw [windowsOf, List.getElem?_map, List.getElem?_range h]
  rfl

theorem windowsOf_length (bs : List Byte) : (windowsOf bs).length = bs.length / 256 := by
  rw [windowsOf, List.length_map, List.length_range]

theorem windowsOf_whole (bs : List Byte) : ∀ x ∈ windowsOf bs, x.length = 256 := by
  intro x hx
  obtain ⟨i, -, rfl⟩ := List.mem_map.mp hx
  exact bytesAt_length _ _ _

/-- The bytes of an upload that fits are in their places. -/
theorem State.upload_done {rd : Reader} {k off : Nat} {s : State} {bs : List Byte} (spells : Spells) (h : Uploading rd k s)
    (aligned : off % 256 = 0) (whole : bs.length % 256 = 0) (room : k < 8 → off + bs.length ≤ 8386560) :
    ∃ u, s.uploadWindows rd k spells off (windowsOf bs) = (rDone, u) ∧
      (∀ i, i < bs.length → nget (u.b.slot k).bytes (off + i) 0 = bs.getD i 0) ∧
      ∀ a, a < off ∨ off + bs.length ≤ a → nget (u.b.slot k).bytes a 0 = nget (s.b.slot k).bytes a 0 := by
  have total : 256 * (windowsOf bs).length = bs.length := by
    rw [windowsOf_length, Nat.mul_div_cancel' (Nat.dvd_of_mod_eq_zero whole)]
  have fits : k < 8 → off + 256 * (windowsOf bs).length ≤ 8386560 := by
    rw [total]
    exact room
  obtain ⟨u, run, inside, outside⟩ := State.uploadWindows_done (spells := spells) (windowsOf bs) (windowsOf_whole bs) h aligned fits
  rw [total] at outside
  refine ⟨u, run, fun i hi => ?_, outside⟩
  have own := inside (i / 256) _ (windowsOf_getElem? bs (by omega)) (i % 256) (Nat.mod_lt _ (by decide))
  rwa [bytesAt_getD bs (Nat.mod_lt _ (by decide)), Nat.add_assoc, Nat.div_add_mod] at own

end Sys2Proof.Machine

namespace Sys2Proof.Proofs

open Sys2Proof Sys2Proof.Machine

/-- Settles O57: a request by whether it is a repeat, malformed or executes, and each type by what its action does. -/
theorem management : Obligations.Management := by
  intro t j bytes spells s x rd ids id body cmd fits formed message sent done addr n st reads written k slot off len upload ex seqs
  have formedIff : ∀ {ty fit}, (fit body = true ↔ fits ty) → (formed ty ↔ mgmtFormed ty fit bytes) := fun h =>
    and_congr_right fun _ => and_congr_right fun _ => and_congr_right fun _ => and_congr_right fun _ => h.symm
  have fit1 : readFits body = true ↔ fits 1 := by simp [readFits, fits, and_assoc]
  have fit2 : writeFits body = true ↔ fits 2 := by simp [writeFits, fits, and_assoc]
  have fit3 : uploadFits body = true ↔ fits 3 := by
    simp [uploadFits, fits]
    omega
  have fit4 : recordsFits body = true ↔ fits 4 := by simp [recordsFits, fits, and_assoc]
  have fit5 : exportFits body = true ↔ fits 5 := by simp [exportFits, fits, and_assoc]
  have fit6 : noticesFits body = true ↔ fits 6 := by simp [noticesFits, fits]
  have gated : ∀ ty c, cmd ty c → ∃ (fit : List Byte → Bool) (run : MgmtAction),
      exec c s = .next ((s.tick t).mgmtRequest j ty bytes fit run) ∧ (fit body = true ↔ fits ty) := by
    rintro ty c (⟨rfl, rfl⟩ | ⟨rfl, rfl⟩ | ⟨rfl, rfl⟩ | ⟨rfl, rfl⟩ | ⟨rfl, rfl⟩ | ⟨rfl, rfl⟩)
    · exact ⟨_, _, rfl, fit1⟩
    · exact ⟨_, _, rfl, fit2⟩
    · exact ⟨_, _, rfl, fit3⟩
    · exact ⟨_, _, rfl, fit4⟩
    · exact ⟨_, _, rfl, fit5⟩
    · exact ⟨_, _, rfl, fit6⟩
  refine ⟨fun shut ty c hc => ?_, fun isOpen ty c hc => ⟨fun y kept => ⟨fun same => ?_, fun other => ?_⟩, fun fresh no => ?_⟩,
    fun isOpen fresh => ?_⟩
  · obtain ⟨fit, run, e, -⟩ := gated ty c hc
    exact e.trans (congrArg Host.Outcome.next (State.mgmtRequest_closed (s := s.tick t) run shut))
  · obtain ⟨fit, run, e, -⟩ := gated ty c hc
    exact ⟨_, e.trans (congrArg Host.Outcome.next ((State.mgmtRequest_kept (s := s.tick t) run isOpen kept).trans (if_pos same))),
      State.mgmtSend_session _ _ _, (List.append_nil _).symm⟩
  · obtain ⟨fit, run, e, -⟩ := gated ty c hc
    exact ⟨_, e.trans (congrArg Host.Outcome.next ((State.mgmtRequest_kept (s := s.tick t) run isOpen kept).trans (if_neg other))),
      State.mgmtSend_session _ _ _, List.map_append⟩
  · obtain ⟨fit, run, e, h⟩ := gated ty c hc
    exact ⟨_, e.trans (congrArg Host.Outcome.next (State.mgmtRequest_malformed (s := s.tick t) run isOpen fresh ((formedIff h).not.mp no))),
      State.mgmtSend_session _ _ _, (List.append_nil _).symm⟩
  · have runs : ∀ {ty : Nat} {c : Instr} {fit : List Byte → Bool} {run : MgmtAction} {out : List (List Byte)} {v : State},
        exec c s = .next ((s.tick t).mgmtRequest j ty bytes fit run) → (fit body = true ↔ fits ty) → formed ty →
        (run body (s.tick t)).2.2 = v → (run body (s.tick t)).2.1.map (message ty (run body (s.tick t)).1) = out → done c v out := by
      rintro ty c fit run out v e h f rfl rfl
      obtain ⟨m, run', others, own⟩ := State.mgmtRequest_runs (s := s.tick t) run isOpen fresh ((formedIff h).mp f)
      exact ⟨m, e.trans (congrArg Host.Outcome.next run'), others, own⟩
    have uploads : ∀ {r : Nat} {z : State}, (s.tick t).uploadWindows rd k spells off (windowsOf (body.drop 5)) = (r, z) → formed 3 →
        done (.mgmtUpload t j bytes spells) (z.result rd pCFG r) [message 3 0 (beBytes r 1)] := fun {r z} e f => by
      have run : mgmtUploadRun rd spells body (s.tick t) = (stExecuted, [beBytes r 1], z.result rd pCFG r) := by
        unfold mgmtUploadRun
        rw [show (s.tick t).uploadWindows rd (beAt body 0 1) spells (beAt body 1 4) (windowsOf (body.drop 5)) = (r, z) from e]
      exact runs rfl fit3 f (congrArg (·.2.2) run) (congrArg (fun o : Nat × List (List Byte) × State => o.2.1.map (message 3 o.1)) run)
    have ends : ∀ {r : Nat}, ((s.tick t).uploadWindows rd k spells off (windowsOf (body.drop 5))).1 = r → formed 3 → upload r :=
      fun {r} e f => by
        subst e
        exact ⟨_, uploads rfl f, congrArg Token.last (State.result_tokenOf rd pCFG _ _)⟩
    have sized : formed 3 → 5 ≤ body.length ∧ (body.length - 5) % 256 = 0 ∧ windowsOf (body.drop 5) ≠ [] := fun f => by
      have h : uploadFits body = true := fit3.mpr f.2.2.2.2
      simp only [uploadFits, Bool.and_eq_true_iff, decide_eq_true_iff, List.contains_iff_mem, List.mem_cons, List.not_mem_nil,
        or_false] at h
      refine ⟨h.2, by omega, fun e => ?_⟩
      have none_ := congrArg List.length e
      rw [windowsOf_length, List.length_drop, List.length_nil] at none_
      omega
    refine ⟨fun f => ?_, fun f => ?_, fun f => ?_, fun f => runs rfl fit4 f rfl rfl, fun f => ⟨fun usable idle => ?_, fun no => ?_⟩,
      fun f => ⟨fun known => ?_, fun unknown => ?_⟩⟩
    · have run := mgmtReadRun_eq rd body (s.tick t)
      exact runs rfl fit1 f (congrArg (·.2.2) run) (congrArg (fun o : Nat × List (List Byte) × State => o.2.1.map (message 1 o.1)) run)
    · have run := mgmtWriteRun_eq rd body (s.tick t)
      exact runs rfl fit2 f (congrArg (·.2.2) run) (congrArg (fun o : Nat × List (List Byte) × State => o.2.1.map (message 2 o.1)) run)
    · obtain ⟨long, whole, nonempty⟩ := sized f
      obtain ⟨beyond, locked, refused, skewed⟩ := State.upload_refused (rd := rd) (k := k) (off := off) (s := s.tick t) spells nonempty rfl
      have ready : k ≤ 9 → s.b.unlocked rd = true → slot.isOpen = true → slot.marks = [] → s.b.slotBusy k = false →
          Uploading rd k (s.tick t) := fun hk unlocked isOpen marks free => ⟨hk, rfl, unlocked, isOpen, marks, free⟩
      have length : (body.drop 5).length = len := List.length_drop
      refine ⟨fun hk => ?_, fun hk locked' => ?_, fun hk unlocked shut => ?_, fun hk unlocked slotOpen free skew => ?_,
        fun hk unlocked slotOpen marks free aligned => ⟨fun hk8 past => ?_, fun room => ?_⟩⟩
      · exact ends (beyond hk) f
      · exact ends (locked hk locked') f
      · exact ends (refused hk unlocked shut) f
      · exact ends (skewed hk unlocked ⟨slotOpen, free⟩ skew) f
      · refine ends (State.uploadWindows_beyond _ nonempty (ready hk unlocked slotOpen marks free) hk8 aligned ?_) f
        rw [windowsOf_length, length, Nat.mul_div_cancel' (Nat.dvd_of_mod_eq_zero whole)]
        exact past
      · obtain ⟨u, run, inside, outside⟩ := State.upload_done (bs := body.drop 5) spells (ready hk unlocked slotOpen marks free) aligned
          (by rw [length]; exact whole) (by rw [length]; exact room)
        rw [length] at inside outside
        refine ⟨_, uploads run f, fun i hi => (inside i hi).trans ?_, outside⟩
        rw [List.getD_eq_getElem?_getD, List.getD_eq_getElem?_getD, List.getElem?_drop]
    · have h := fit5.mpr f.2.2.2.2
      rw [exportFits, Bool.and_eq_true_iff, Bool.and_eq_true_iff, decide_eq_true_iff, decide_eq_true_iff] at h
      obtain ⟨status, header, state, seqs', parts⟩ := mgmtExportRun_formed (rd := rd) (s := s.tick t) ⟨h.1.2, h.2⟩ usable idle
      refine ⟨(mgmtExportRun rd body (s.tick t)).2.2, _, header, state, seqs', runs rfl fit5 f rfl ?_⟩
      rw [status, parts]
      rfl
    · have h := fit5.mpr f.2.2.2.2
      rw [exportFits, Bool.and_eq_true_iff, Bool.and_eq_true_iff, decide_eq_true_iff, decide_eq_true_iff] at h
      obtain ⟨status, parts⟩ := mgmtExportRun_refused (rd := rd) (s := s.tick t) ⟨h.1.2, h.2⟩ no
      refine ⟨(mgmtExportRun rd body (s.tick t)).2.2, runs rfl fit5 f rfl ?_⟩
      rw [status, parts]
      rfl
    · have run : mgmtNoticesRun j.val body (s.tick t) = _ := if_pos known
      refine ⟨_, runs rfl fit6 f (congrArg (·.2.2) run)
        (congrArg (fun o : Nat × List (List Byte) × State => o.2.1.map (message 6 o.1)) run), ?_⟩
      exact congrArg MgmtSession.notices (nget_nupd_same s.b.mgmt j.val {} fun x => { x with notices := beAt body 0 1 == 1 })
    · have run : mgmtNoticesRun j.val body (s.tick t) = _ := if_neg (Nat.not_le.mpr unknown)
      exact runs rfl fit6 f (congrArg (·.2.2) run) (congrArg (fun o : Nat × List (List Byte) × State => o.2.1.map (message 6 o.1)) run)

end Sys2Proof.Proofs
